-- ==== Sys2Proof/Word.lean ====
section
/-!
DEFINITION. The words the spec treats as bits (R8 to R10, R138): bytes, 64-bit registers and the 1024-bit order header.
-/
namespace Sys2Proof

/-- One byte of memory. -/
abbrev Byte := BitVec 8
/-- One 64-bit register or one half of a command (R10). -/
abbrev Word := BitVec 64

end Sys2Proof
end

