-- ==== Sys2Proof/Syntax.lean ====
section
/-!
DEFINITION. The commands of the block: one constructor of `Instr` for each row of spec/opcode_table.json, with the
row's operands. The part is modelled as a block that takes one command at a time; the rows are the part's steps.
-/
namespace Sys2Proof

/-- Partition 0-7 (R18). -/
abbrev PartId := Fin 8
/-- Global caravan index, half × 12 + caravan (R8). -/
abbrev CarId := Fin 24
/-- Station within a caravan (R5). -/
abbrev StnId := Fin 8
/-- Half: 0 west, 1 east (R8). -/
abbrev HalfId := Fin 2
/-- Torus port: XP, XM, YP, YM, ZP, ZM (R329). -/
abbrev PortId := Fin 6
/-- Host function: 0-3 on port A, 4-7 on port B (R434). -/
abbrev FuncId := Fin 8
/-- Global HBM stack index (R11). -/
abbrev StackId := Fin 16

/-- Word 0 of a command without its opcode, which the constructor gives (R10). -/
structure Head where
  fmtA : BitVec 4
  fmtB : BitVec 4
  fmtOut : BitVec 4
  round : BitVec 2
  sat : Bool
  dep : Bool
  wait : BitVec 12
  signal : BitVec 12
  select : BitVec 16
  deriving DecidableEq, Repr

/-- A macro of 512 rows of an SRAM of a station or, for the depot, of its caravan (R377). -/
inductive SramMacro where
  | satchel (n : Nat)
  | tally (n : Nat)
  | landing (n : Nat)
  | depot (n : Nat)
  deriving DecidableEq, Repr

/-- What the hardware itself meets in one pace beside the schedule: the physical causes of R79, R88, R112, R76,
R133 and R376, which no rule lets a model compute. -/
inductive PaceEvent where
  /-- A fault in the sum a row brings to one entry, met as the row reaches the tally in this pace: the sum is off by `delta` units
  of the frame, the residue channel's sum by `chan`. `replay`: it is met in the replay of the leg that ends in this pace (R78 to
  R82). -/
  | upset (c : CarId) (s : StnId) (bank : Fin 2) (row : Fin 32) (col : Fin 128) (delta : Int) (chan : Fin 127) (replay : Bool)
  /-- The second copy of an entry's state is upset: 0 finite, 1 +∞, 2 −∞, 3 NaN (R78, R94). -/
  | stateCopy (c : CarId) (s : StnId) (bank : Fin 2) (row : Fin 32) (col : Fin 128) (v : Fin 4)
  /-- An uncorrectable error mid-pass in a satchel read, a landing buffer, a route transfer or tally storage (R88). -/
  | midPass (c : CarId) (s : StnId) (bank : Fin 2)
  /-- The same SRAM word poisoned again after a write: a stuck cell, in a macro of a station's or a caravan's SRAMs (R376, R377). -/
  | stuckRow (c : CarId) (s : StnId) (m : SramMacro)
  /-- Tally storage poisoned again with no write between (R376, R405 level 3). -/
  | storedTally (c : CarId) (s : StnId) (bank : Fin 2) (row : Fin 32) (col : Fin 128)
  /-- A landing buffer poisoned again with no write between (R376, R405 level 4). -/
  | storedLanding (c : CarId) (s : StnId) (slot : Fin 3) (byte : BitVec 16)
  /-- A merged add mismatches, or the reverse lane has an uncorrectable error (R114). -/
  | mergeError (c : CarId) (s : StnId)
  /-- A station reaches a visit boundary and its next satchel bank is not yet full (R76). -/
  | lateBank (c : CarId) (s : StnId)
  /-- The faster half skips one cycle (R133). -/
  | rateMatch
  /-- Words of a caravan's SRAMs that this pace's reads correct, of one wrong bit and of two (R374). -/
  | corrected (c : CarId) (one two : Nat)
  /-- A stored word of HBM, of a depot or of the CXL spill tier goes bad beyond correction, by its physical address divided by 8 (R374,
  R376). -/
  | decay (word : Nat)
  /-- Words of a half's weighhouse tally store or journal caches that this pace's reads correct, of one wrong bit and of two, and words
  delivered poisoned (R374). -/
  | engineEcc (h : HalfId) (one two bad : Nat)
  /-- The save of the pre-emption that is asked for will meet an uncorrectable error as it reads a bank (R90). -/
  | unreadable (c : CarId) (s : StnId) (bank : Fin 2)
  deriving DecidableEq, Repr

/-- What a poisoned flit or beat came from (R378): a router, a horizontal or vertical mesh link by its number in MSH_LINKFAULT, a Pass
channel. -/
inductive Carrier where
  | router (h : HalfId) (r : Fin 32)
  | hLink (h : HalfId) (i : Fin 28)
  | vLink (h : HalfId) (i : Fin 24)
  | channel (ch : Fin 16)
  deriving DecidableEq, Repr

/-- How a drover transfer arrives (R246, R374, R376). -/
inductive Arrival where
  | clean
  /-- Clean, with this many beats corrected in passing on the Pass channel it crossed (R246), and words of its source corrected as they
  were read, of one wrong bit and of two (R374). -/
  | corrected (beats one two : Nat)
  /-- Poisoned in transport, and the repeat is clean. -/
  | repeatClean (via : Carrier)
  /-- Poisoned in transport twice. -/
  | repeatPoisoned (via : Carrier)
  deriving DecidableEq, Repr

/-- Who writes a register (R6). -/
inductive Writer where
  | host (f : FuncId)
  | factor
  | seal
  | scout (p : PartId)
  deriving DecidableEq, Repr

/-- A BAR2 access of a host function (R435). -/
inductive BarAccess where
  | read (va : Nat) (count : Nat)
  | write (va : Nat) (bytes : List Byte)
  deriving DecidableEq, Repr

/-- The two references of R414. -/
inductive Ref where
  | link
  | pcie
  deriving DecidableEq, Repr

/-- What start-up meets in the world and in the silicon (R424, R426). -/
structure StartCond where
  lugA : Bool
  lugB : Bool
  linkRef : Bool
  pcieRef : Bool
  /-- Stacks whose PHY fails training. -/
  badStacks : List StackId
  deriving DecidableEq, Repr

/-- One partition definition of a configuration image (R456). -/
structure PartDef where
  grants : BitVec 4
  caravans : BitVec 24
  functions : BitVec 8
  wghSlots : Nat
  shareW : Nat
  hbm : List (Nat × Nat)
  cxl : Nat × Nat
  deriving DecidableEq, Repr

/-- A window-list entry of one port (R347, R455). -/
structure WinEntry where
  kinds : BitVec 7
  part : PartId
  srcMatch : BitVec 15
  srcMask : BitVec 15
  vbase : Nat
  pages : Nat
  deriving DecidableEq, Repr

/-- An RWL setting of the device section: offset, lsb, width, value (R455). -/
structure RwlSetting where
  off : Nat
  lsb : Nat
  width : Nat
  value : Nat
  deriving DecidableEq, Repr

/-- A configuration image (R454 to R456), held by its fields. `fingerprint` stands for the signed bytes. -/
structure Image where
  fingerprint : Nat
  targetSerial : Word
  imageSerial : BitVec 32
  node : BitVec 15
  ringX : Nat
  ringY : Nat
  ringZ : Nat
  feed : BitVec 8
  feedTable : List (BitVec 15 × BitVec 8)
  rwl : List RwlSetting
  parts : List (PartId × PartDef)
  secModes : List Nat
  winLists : List (PortId × WinEntry)
  /-- SHA-384 hashes of the accepted roots, and the measurement policy (R348, R455). -/
  roots : List (BitVec 384)
  policy : List Byte
  fenceRelease : List (BitVec 16)
  deriving DecidableEq, Repr

/-- A torus packet as a port receives or forwards it: the route header of R338 and what follows it. -/
structure Packet where
  vc : Nat
  flits : Nat
  hdr : BitVec 192
  payload : List Byte
  deriving DecidableEq, Repr

/-- A consignment copy as a restore reads it back, byte for byte (R393, R394, R399): the slot's header, the state record, the extents in
list order, and the entries of the journal tail. -/
structure CsgCopy where
  header : BitVec 512
  record : BitVec 512
  extents : List (List Byte)
  tail : List (BitVec 1024)
  deriving DecidableEq, Repr

/-- What a torus port receives (R334, R350): a flit, or an FEC codeword that cannot be corrected, whose flits fail their CRC. -/
inductive FlitIn where
  | flit (w : BitVec 2048)
  | badCodeword (flits : Nat)
  deriving DecidableEq, Repr

/-- The route header of a fault beacon, as far as R347 looks at it. -/
structure Beacon where
  hops : BitVec 8
  src : BitVec 15
  deriving DecidableEq, Repr

/-- A thermal monitor: its field, and its number among the monitors of the field (R423). -/
structure Monitor where
  field : Fin 6
  index : Nat
  deriving DecidableEq, Repr

/-- A message to the Seal over a host link (R434, R459): over a function's DOE mailbox, or as MCTP in vendor-defined messages. -/
inductive HostMsg where
  | doe (bytes : List Byte)
  | mctp (bytes : List Byte)
  deriving DecidableEq, Repr

/-- The commands: every row of spec/opcode_table.json, in its order. -/
inductive Instr where
  -- program commands (06_command_reference): partition, word 0 without its opcode, word 1
  | nop (p : PartId) (h : Head) (w1 : Word)
  | advance (p : PartId) (h : Head) (w1 : Word)
  | qpush (p : PartId) (h : Head) (w1 : Word)
  | qpop (p : PartId) (h : Head) (w1 : Word)
  | endCmd (p : PartId) (h : Head) (w1 : Word)
  | product (p : PartId) (h : Head) (w1 : Word)
  | drain (p : PartId) (h : Head) (w1 : Word)
  | evict (p : PartId) (h : Head) (w1 : Word)
  | ledgerAdd (p : PartId) (h : Head) (w1 : Word)
  | release (p : PartId) (h : Head) (w1 : Word)
  | vec (p : PartId) (h : Head) (w1 : Word)
  | reduce (p : PartId) (h : Head) (w1 : Word)
  | spice (p : PartId) (h : Head) (w1 : Word)
  | sieve (p : PartId) (h : Head) (w1 : Word)
  | dropout (p : PartId) (h : Head) (w1 : Word)
  | move (p : PartId) (h : Head) (w1 : Word)
  | gather (p : PartId) (h : Head) (w1 : Word)
  | swap (p : PartId) (h : Head) (w1 : Word)
  | swapTakeEffect (p : PartId) (c : CarId)
  | mark (p : PartId) (h : Head) (w1 : Word)
  | send (p : PartId) (h : Head) (w1 : Word)
  | reshard (p : PartId) (h : Head) (w1 : Word)
  | reshardEpochTakeEffect (p : PartId)
  | reshardTimeout (p : PartId)
  | losschk (p : PartId) (h : Head) (w1 : Word)
  | update (p : PartId) (h : Head) (w1 : Word)
  | updateChunkApply (p : PartId) (bucket : BitVec 20) (chunk : BitVec 16)
  | commit (p : PartId) (h : Head) (w1 : Word)
  | commandComplete (p : PartId) (off : Nat)
  | elasticWaitSatisfied (p : PartId)
  | paceExecute (p : PartId) (ev : List PaceEvent)
  | mergeComplete (p : PartId) (c : CarId) (bank : Fin 2) (grp : Fin 4)
  | holdEnd (p : PartId) (src : Fin 11) (realign : Fin 25)
  | drvIssue (c : CarId)
  | drvTransferComplete (c : CarId) (id : Nat) (arr : Arrival)
  | transferTimeout (c : CarId) (id : Nat) (dstEnd : Bool)
  | tollGrant (t : Fin 104) (pendingReq : BitVec 40) (waitNs : Nat)
  | tollStarve (t : Fin 104) (r : Fin 40)
  | straggler (h : HalfId) (p : PartId) (c : CarId)
  | stepWatchdogExpire (p : PartId)
  -- the manifest and the dependability engines
  | orderAccept (p : PartId) (f : FuncId) (ring : Fin 8) (entry : Option (BitVec 1024))
  | orderStart (p : PartId)
  | orderComplete (p : PartId) (sinceS : Nat)
  | consignReadDone (p : PartId)
  | consignCopyTimeout (p : PartId) (copy : Fin 5)
  | riskRise (ceRate lrRate drRate marginK : Nat)
  | completionFlush (p : PartId)
  /-- `bad`: the banks whose read meets an uncorrectable error during the save (R90). -/
  | preemptTakeEffect (p : PartId)
  | preemptResume (p : PartId)
  | reexecute (p : PartId)
  | journalRebuildDone (h : HalfId)
  | hbmSoftPpr (k : StackId) (row : Nat)
  | hbmScrub (k : StackId) (one two : Nat) (poisoned : List Nat)
  | routerPollTimeout (h : HalfId) (r : Fin 32)
  | sealHeartbeatLoss (h : HalfId)
  | lastResort
  | factorRestart
  | sealReqMapWindow (f : FuncId)
  | sealReqUnmapWindow (f : FuncId)
  | sealReqWriteRwl (f : FuncId)
  | sealReqPrst (f : FuncId)
  | sealReqDebugToken (f : FuncId) (now : BitVec 32) (nonce : BitVec 16)
  | sealReqBankPair (f : FuncId)
  | sealReqPreempt (f : FuncId)
  | sealReqResume (f : FuncId)
  | ringDoorbell (f : FuncId) (ring : Fin 8) (tail : BitVec 16)
  | ringBaseWrite (f : FuncId) (ring : Fin 8) (v : Word)
  | cplHeadWrite (f : FuncId) (v : Word)
  | hqCancel (f : FuncId) (seq : BitVec 32)
  | mboxRelease (f : FuncId) (m : Fin 32)
  | sealManResume (f : FuncId)
  | sealManWithdraw (f : FuncId)
  | csgNow (f : FuncId)
  | csgRestore (f : FuncId) (copy : CsgCopy)
  | p3Req
  | p3Exit
  | p2IdleEntry (p : PartId)
  | registerWrite (w : Writer) (off : Nat) (v : Word)
  | bar2Access (f : FuncId) (acc : BarAccess)
  | hostSpdmDoe (f : FuncId) (msg : HostMsg)
  -- resets, power, clocks, thermal
  | startUp (c : StartCond)
  | pwrgdFall
  | drst (heldUs : Nat) (c : StartCond)
  | crst (c : CarId) (s : Option StnId)
  | lrstRequest (port : PortId) (sinceS : Nat)
  | perstAssert (hp : Fin 2)
  | perstRelease (hp : Fin 2) (cxl : Bool)
  | flr (f : FuncId)
  | lugUndervoltage (lug : HalfId) (milliV : Nat)
  | lugRecover (lug : HalfId) (milliV : Nat)
  | thermalMonitor (fld : Monitor) (tempC : Nat)
  | droopStretch (h : HalfId)
  | capFastLoop (watts : Nat)
  | capHoldLoop (watts : Nat) (est : List Nat)
  | referenceLost (r : Ref)
  | referenceReturn (r : Ref)
  -- torus links
  | linkSignalDetect (port : PortId) (lanes : Nat)
  | linkFecLock (port : PortId) (lanes : Nat)
  | linkInitExchange (port : PortId) (coord : BitVec 15) (peerPort : BitVec 3) (lanes : Nat) (reversed : Bool)
  | linkSpdmComplete (port : PortId)
  | linkSpdmTimeout (port : PortId)
  | linkAbsentReport (port : PortId)
  | flitReceive (port : PortId) (flit : FlitIn)
  | linkRetryTimer (port : PortId)
  | keyUpdate (port : PortId)
  | packetForward (port : PortId) (pkt : Packet)
  | packetDeliver (port : PortId) (pkt : Packet)
  | faultBeaconReceive (port : PortId) (hops : Beacon)
  | linkSendEntry (p : PartId)
  | detourInstall (tbl : List Word)
  -- weighhouse
  | ownerOpenChunk (p : PartId)
  | openPkt (port : PortId) (hdr : BitVec 512) (payload : List Byte)
  | contrib (port : PortId) (hdr : BitVec 512) (payload : List Byte)
  | result (port : PortId) (hdr : BitVec 512) (payload : List Byte)
  | wideContrib (port : PortId) (hdr : BitVec 512) (payload : List Byte)
  | wideResult (port : PortId) (hdr : BitVec 512) (payload : List Byte)
  | vote (port : PortId) (hdr : BitVec 512) (payload : List Byte)
  | nak (port : PortId) (hdr : BitVec 512) (payload : List Byte)
  | fail (port : PortId) (hdr : BitVec 512) (payload : List Byte)
  | ownerDeadlineExpire (p : PartId) (bucket : BitVec 20) (chunk : BitVec 16)
  | memberDeadlineExpire (p : PartId) (bucket : BitVec 20) (chunk : BitVec 16)
  | voteDeadlineExpire (p : PartId)
  | consignmentPacket (port : PortId) (pkt : Packet)
  | partnerAck (p : PartId)
  -- board management, TAP and scout port
  | i3cWrstRequest
  | i3cImageWrite (slot : Fin 2) (img : Image)
  | imageApplyRequest (p : PartId) (slot : Fin 2)
  | imageApply
  | imageApplyDrainTimeout
  | i3cModuleInfoRead
  | i3cAttest (msg : List Byte)
  | i3cSafeHoldRead
  | bypass
  | idcode
  | samplePreload (v : Word)
  | extest (v : Word)
  | scout
  | scoutUnlock (w0 w1 : Word) (now : BitVec 32)
  | scoutHalt
  | scoutResume
  | scoutStep (n : BitVec 48)
  | scoutSetBreakpoint (arg : BitVec 48) (v : Word)
  | scoutClearBreakpoint (arg : BitVec 48)
  | scoutMemoryRead (va : BitVec 48)
  | scoutMemoryWrite (va : BitVec 48) (v : Word)
  | scoutRegisterRead (off : BitVec 48)
  | scoutRegisterWrite (off : BitVec 48) (v : Word)
  | scoutStatus
  | tokenExpire (p : PartId)
  | partnerStopsAnswering (port : PortId)
  | p3Refused
  | copyAcknowledged (p : PartId) (copy : Fin 5) (elapsedMs : Nat)
  | sealLockstepMismatch (h : HalfId)
  | rejoinAsStandby (h : HalfId)
  | halfClockLoss (h : HalfId)
  | aux3v3Loss
  | aux3v3Return
  deriving DecidableEq, Repr

end Sys2Proof
end

