-- ==== Sys2Proof/Decode.lean ====
section
/-!
DEFINITION. Reading commands from bits. spec/opcode_table.json gives no bits to its rows, so `decodeTableWord` answers
none; the 128-bit program commands that the spec does encode (R10, R157, R167) are decoded and encoded below.
-/
namespace Sys2Proof

/-- The rows of spec/opcode_table.json carry no bits: no table word spells a command. -/
def decodeTableWord (_nbits _w : Nat) : Option Instr := none

/-- Word 0 of a command without its opcode (R10). -/
def decodeHead (w0 : Word) : Head :=
  { fmtA := w0.extractLsb' 52 4, fmtB := w0.extractLsb' 48 4, fmtOut := w0.extractLsb' 44 4,
    round := w0.extractLsb' 42 2, sat := w0.getLsbD 41, dep := w0.getLsbD 40, wait := w0.extractLsb' 28 12,
    signal := w0.extractLsb' 16 12, select := w0.extractLsb' 0 16 }

/-- The program command of an opcode (R167); none for an undefined opcode (fault 0x07). -/
def commandOf (p : PartId) (op : Nat) (h : Head) (w1 : Word) : Option Instr :=
  match op with
  | 0x00 => some (.nop p h w1)
  | 0x01 => some (.advance p h w1)
  | 0x02 => some (.qpush p h w1)
  | 0x03 => some (.qpop p h w1)
  | 0x0F => some (.endCmd p h w1)
  | 0x10 => some (.product p h w1)
  | 0x20 => some (.drain p h w1)
  | 0x21 => some (.evict p h w1)
  | 0x22 => some (.ledgerAdd p h w1)
  | 0x23 => some (.release p h w1)
  | 0x30 => some (.vec p h w1)
  | 0x31 => some (.reduce p h w1)
  | 0x32 => some (.spice p h w1)
  | 0x33 => some (.sieve p h w1)
  | 0x34 => some (.dropout p h w1)
  | 0x40 => some (.move p h w1)
  | 0x41 => some (.gather p h w1)
  | 0x42 => some (.swap p h w1)
  | 0x50 => some (.mark p h w1)
  | 0x70 => some (.send p h w1)
  | 0x71 => some (.reshard p h w1)
  | 0x78 => some (.losschk p h w1)
  | 0x79 => some (.update p h w1)
  | 0x7A => some (.commit p h w1)
  | _ => none

/-- The opcode and operands of a program command (R167); none for the other commands of the block. -/
def opcodeOf : Instr → Option (Nat × Head × Word)
  | .nop _ h w => some (0x00, h, w)
  | .advance _ h w => some (0x01, h, w)
  | .qpush _ h w => some (0x02, h, w)
  | .qpop _ h w => some (0x03, h, w)
  | .endCmd _ h w => some (0x0F, h, w)
  | .product _ h w => some (0x10, h, w)
  | .drain _ h w => some (0x20, h, w)
  | .evict _ h w => some (0x21, h, w)
  | .ledgerAdd _ h w => some (0x22, h, w)
  | .release _ h w => some (0x23, h, w)
  | .vec _ h w => some (0x30, h, w)
  | .reduce _ h w => some (0x31, h, w)
  | .spice _ h w => some (0x32, h, w)
  | .sieve _ h w => some (0x33, h, w)
  | .dropout _ h w => some (0x34, h, w)
  | .move _ h w => some (0x40, h, w)
  | .gather _ h w => some (0x41, h, w)
  | .swap _ h w => some (0x42, h, w)
  | .mark _ h w => some (0x50, h, w)
  | .send _ h w => some (0x70, h, w)
  | .reshard _ h w => some (0x71, h, w)
  | .losschk _ h w => some (0x78, h, w)
  | .update _ h w => some (0x79, h, w)
  | .commit _ h w => some (0x7A, h, w)
  | _ => none

/-- A program command from its two words (R10, R167). -/
def decodeCommand (p : PartId) (w0 w1 : Word) : Option Instr :=
  commandOf p (w0.extractLsb' 56 8).toNat (decodeHead w0) w1

/-- Word 0 of an opcode and its fields (R10). -/
def encodeHead (op : BitVec 8) (h : Head) : Word :=
  op ++ h.fmtA ++ h.fmtB ++ h.fmtOut ++ h.round ++ BitVec.ofBool h.sat ++ BitVec.ofBool h.dep ++ h.wait ++ h.signal ++
    h.select

/-- The two words of a program command (R10); none for the other commands. -/
def encodeCommand (i : Instr) : Option (Word × Word) :=
  (opcodeOf i).map (fun (op, h, w1) => (encodeHead (BitVec.ofNat 8 op) h, w1))

end Sys2Proof
end

