-- ==== Sys2Proof/Config.lean ====
section
/-!
DEFINITION. What an implementation fixes (the fuses of R4 and R454) and the free values: constants with no body, so
that no proof can see a value the spec leaves open. Log entries 5, 6, 7 and 8.
-/
namespace Sys2Proof.Config

/-- Whether the die is stepping B0 (`true`) or A1 (`false`): DEV_STEP.STEPPING is fused (R4). -/
opaque isB0 : Bool
/-- DEV_STEP.METAL, fused (R4). -/
opaque metal : BitVec 8
/-- The fuses DEV_SERIAL is made from. -/
opaque serialFuse : Nat
/-- DEV_SERIAL: any 64-bit number but zero (R4). -/
def serial : Word := BitVec.ofNat 64 (serialFuse % (2 ^ 64 - 1) + 1)
/-- The fused minimum of IMAGE_SERIAL (R454). -/
opaque minImageSerial : BitVec 32
/-- Whether an image's ECDSA P-384 signature verifies under the key of its fuse slot (R454): the image slot's
fingerprint goes in. The cipher stands outside the model, log entry 7. -/
opaque signatureOk : Nat → Bool
/-- The truncated HMAC of R461 under the key drawn at start number `n`. -/
opaque tokenMac : Nat → BitVec 64 → BitVec 64
/-- Whether the AES-GCM tag of a received flit is good (R349): the port, the generation of its keys and salts, whether the direction is
the device's own transmission, the 64-bit flit count of the nonce, the link header with ACK, NAK, CREDIT_VC and CREDITS zero, bytes 8 to
235, and the tag. -/
opaque tagOk (port gen : Nat) (tx : Bool) (count aad : Nat) (cipher : BitVec 1824) (tag : BitVec 128) : Bool
/-- Bytes 8 to 235 of a received flit decrypted (R349): port, generation, direction, flit count, ciphertext. -/
opaque linkPlain (port gen : Nat) (tx : Bool) (count : Nat) (cipher : BitVec 1824) : BitVec 1824
/-- A flit's payload sealed (R349): port, generation, direction, flit count, additional data, plaintext; 228 bytes of ciphertext, and the 16
bytes of the tag above them. -/
opaque linkSeal (port gen : Nat) (tx : Bool) (count aad : Nat) (text : BitVec 1824) : BitVec 1952
/-- The payload of the KIND 6 packet with which the Seal goes on in an SPDM exchange of a link, if it has one to send (R348): the accepted
roots, the measurement policy, and what has come, empty at the start. -/
opaque linkSpdm (roots : List (BitVec 384)) (policy : List Byte) (came : List Byte) : Option (List Byte)
/-- The code that binds an entry of the fence record to DEV_SERIAL (R379): the serial number, unit, kind, detail and time. -/
opaque fenceCode (serial : Word) (unit : BitVec 16) (kind detail time : Nat) : Nat
/-- The bytes of an SPDM answer (R434, R459): a standard outside the spec. -/
opaque spdmAnswer : List Byte → List Byte
/-- The boundary register's capture (R460): the BSDL is not in the spec. -/
opaque boundaryCapture : Nat → BitVec 64
/-- The clip factor where CLIP or NORM is NaN, so that no row of R288 holds: FP32 bits of CLIP and NORM. -/
opaque clipUnordered : Nat → Nat → BitVec 32
/-- A value the spec leaves open, one for each reading of the model's counter `State.free`. -/
opaque freeNat : Nat → Nat
/-- A byte the spec leaves undefined. -/
opaque freeByte : Nat → BitVec 8

end Sys2Proof.Config
end

