-- ==== Sys2Proof/Machine/Map.lean ====
section
/-!
DEFINITION. Sparse maps in one canonical form: keys strictly rising, and no entry equal to what an unlisted key reads
as. Registers, memory, flags, queues, tally entries and the per-unit records are all held so, so that equal contents
are equal data.
-/
namespace Sys2Proof.Machine

/-- A sparse map: the listed keys and their values; every other key reads as the default. -/
abbrev Map (α : Type) := List (Nat × α)

namespace Map

/-- The value at `k`; `d` is what an unlisted key reads as. -/
def get {α : Type} (d : α) : Map α → Nat → α
  | [], _ => d
  | (k', v) :: m, k => if k' = k then v else get d m k

/-- Insert in key order, replacing an entry with the same key. -/
def insert {α : Type} (k : Nat) (v : α) : Map α → Map α
  | [] => [(k, v)]
  | (k', v') :: m =>
    if k < k' then (k, v) :: (k', v') :: m
    else if k = k' then (k, v) :: m
    else (k', v') :: insert k v m

/-- Remove the entries at `k`. -/
def erase {α : Type} (k : Nat) : Map α → Map α
  | [] => []
  | (k', v') :: m => if k' = k then erase k m else (k', v') :: erase k m

/-- Write `v` at `k`, keeping the canonical form: the default's value removes the entry. -/
def set {α : Type} [DecidableEq α] (d : α) (m : Map α) (k : Nat) (v : α) : Map α :=
  if v = d then erase k m else insert k v m

/-- Apply `f` to every listed entry and drop what becomes the default. -/
def mapCanon {α : Type} [DecidableEq α] (d : Nat → α) (f : Nat → α → α) : Map α → Map α
  | [] => []
  | (k, v) :: m =>
    let v' := f k v
    if v' = d k then mapCanon d f m else (k, v') :: mapCanon d f m

/-- The keys rise strictly. -/
def rising {α : Type} : Map α → Bool
  | [] => true
  | [_] => true
  | (k, _) :: (k', v') :: m => k < k' && rising ((k', v') :: m)

/-- The canonical form, for a default that may depend on the key. -/
def wf {α : Type} [DecidableEq α] (d : Nat → α) (m : Map α) : Bool :=
  rising m && m.all (fun e => e.2 != d e.1)

end Map
end Sys2Proof.Machine
end

