-- ==== Sys2Proof/Machine/Regs.lean ====
section
/-!
DEFINITION. The register space: every register table of the spec as data (offset, indices, fields with their access code
and their value for each reset kind, R6, R7), made from the spec's tables, and a named reference for every field.
-/
namespace Sys2Proof.Machine

/-- Access codes (R6). -/
inductive Access where
  | rw
  | ro
  | w1c
  | w1s
  | wo
  | rwl
  deriving DecidableEq, Repr

/-- A field's value in one reset column (R7). -/
inductive RVal where
  | val (n : Nat)
  | kept
  | live
  | image
  | fused
  | cause
  deriving DecidableEq, Repr

/-- One field of a register table. `p2`, `p3`: whether the field is lost in that state. -/
structure Field where
  name : String
  lsb : Nat
  width : Nat
  acc : Access
  por : RVal
  drst : RVal
  wrst : RVal
  prst : RVal
  crst : RVal
  lrst : RVal
  flr : RVal
  p2 : Bool
  p3 : Bool
  deriving DecidableEq, Repr

/-- Who sees a register through BAR0, and which resets cover it. -/
inductive Scope where
  | dev
  | shared
  | prt
  | ownPage
  | station
  | caravan
  | port
  | func
  | txq
  | share
  | sct
  deriving DecidableEq, Repr

/-- A register family: its offset is base + Σ index × stride. -/
structure Fam where
  name : String
  base : Nat
  dims : List (Nat × Nat)
  scope : Scope
  fields : List Field
  deriving DecidableEq, Repr

/-- A field of one register: the register's offset, the field's lowest bit and width. -/
structure FieldRef where
  off : Nat
  lsb : Nat
  width : Nat
  deriving DecidableEq, Repr

namespace Csr

/-- DEV_ID (00_scope.md R4). -/
def devId : Nat := 0x0
/-- DEV_ID.VENDOR. -/
def devId_vendor : FieldRef := ⟨devId, 0, 16⟩
/-- DEV_ID.PART. -/
def devId_part : FieldRef := ⟨devId, 16, 16⟩
/-- DEV_ID.FAMILY. -/
def devId_family : FieldRef := ⟨devId, 32, 8⟩
/-- DEV_ID.CONTRACT. -/
def devId_contract : FieldRef := ⟨devId, 40, 8⟩
/-- DEV_STEP (00_scope.md R4). -/
def devStep : Nat := 0x8
/-- DEV_STEP.STEPPING. -/
def devStep_stepping : FieldRef := ⟨devStep, 0, 8⟩
/-- DEV_STEP.METAL. -/
def devStep_metal : FieldRef := ⟨devStep, 8, 8⟩
/-- DEV_SERIAL (00_scope.md R4). -/
def devSerial : Nat := 0x10
/-- DEV_SERIAL.SERIAL. -/
def devSerial_serial : FieldRef := ⟨devSerial, 0, 64⟩
/-- DEV_LAYOUT (01_organisation.md R18). -/
def devLayout : Nat := 0x18
/-- DEV_LAYOUT.CARAVANS. -/
def devLayout_caravans : FieldRef := ⟨devLayout, 0, 8⟩
/-- DEV_LAYOUT.STATIONS. -/
def devLayout_stations : FieldRef := ⟨devLayout, 8, 4⟩
/-- DEV_LAYOUT.HBM_STACKS. -/
def devLayout_hbmStacks : FieldRef := ⟨devLayout, 16, 8⟩
/-- DEV_LAYOUT.STACK_GIB. -/
def devLayout_stackGib : FieldRef := ⟨devLayout, 24, 8⟩
/-- DEV_LAYOUT.LINK_PORTS. -/
def devLayout_linkPorts : FieldRef := ⟨devLayout, 32, 4⟩
/-- DEV_LAYOUT.HOST_PORTS. -/
def devLayout_hostPorts : FieldRef := ⟨devLayout, 36, 4⟩
/-- DEV_LAYOUT.PARTITIONS. -/
def devLayout_partitions : FieldRef := ⟨devLayout, 40, 4⟩
/-- STN_RANGE_OUT (02_number_formats.md R50). -/
def stnRangeOut (i0 : Nat) (i1 : Nat) : Nat := 0x800100 + i0 * 0x10000 + i1 * 0x1000
/-- STN_RANGE_OUT.OVF_COUNT. -/
def stnRangeOut_ovfCount (i0 : Nat) (i1 : Nat) : FieldRef := ⟨stnRangeOut i0 i1, 0, 24⟩
/-- STN_RANGE_OUT.UNF_COUNT. -/
def stnRangeOut_unfCount (i0 : Nat) (i1 : Nat) : FieldRef := ⟨stnRangeOut i0 i1, 24, 24⟩
/-- STN_RANGE_OUT.INPUT_OVF. -/
def stnRangeOut_inputOvf (i0 : Nat) (i1 : Nat) : FieldRef := ⟨stnRangeOut i0 i1, 48, 16⟩
/-- STN_CHECK (03_caravan_ring.md R91). -/
def stnCheck (i0 : Nat) (i1 : Nat) : Nat := 0x800108 + i0 * 0x10000 + i1 * 0x1000
/-- STN_CHECK.MISMATCH_COUNT. -/
def stnCheck_mismatchCount (i0 : Nat) (i1 : Nat) : FieldRef := ⟨stnCheck i0 i1, 0, 24⟩
/-- STN_CHECK.LEG_REPLAYS. -/
def stnCheck_legReplays (i0 : Nat) (i1 : Nat) : FieldRef := ⟨stnCheck i0 i1, 24, 16⟩
/-- STN_CHECK.TILE_REPLAYS. -/
def stnCheck_tileReplays (i0 : Nat) (i1 : Nat) : FieldRef := ⟨stnCheck i0 i1, 40, 12⟩
/-- STN_CHECK.LAST_GROUP. -/
def stnCheck_lastGroup (i0 : Nat) (i1 : Nat) : FieldRef := ⟨stnCheck i0 i1, 52, 4⟩
/-- STN_FENCE (03_caravan_ring.md R91). -/
def stnFence (i0 : Nat) (i1 : Nat) : Nat := 0x800110 + i0 * 0x10000 + i1 * 0x1000
/-- STN_FENCE.FENCED_GROUPS. -/
def stnFence_fencedGroups (i0 : Nat) (i1 : Nat) : FieldRef := ⟨stnFence i0 i1, 0, 16⟩
/-- STN_FENCE.STATION_FENCED. -/
def stnFence_stationFenced (i0 : Nat) (i1 : Nat) : FieldRef := ⟨stnFence i0 i1, 16, 1⟩
/-- STN_FENCE.REMNANT_PASSES. -/
def stnFence_remnantPasses (i0 : Nat) (i1 : Nat) : FieldRef := ⟨stnFence i0 i1, 32, 16⟩
/-- CAR_VISIT (03_caravan_ring.md R92). -/
def carVisit (i0 : Nat) : Nat := 0x808000 + i0 * 0x10000
/-- CAR_VISIT.VISITS. -/
def carVisit_visits (i0 : Nat) : FieldRef := ⟨carVisit i0, 0, 32⟩
/-- CAR_VISIT.SINGLE_LEG_VISITS. -/
def carVisit_singleLegVisits (i0 : Nat) : FieldRef := ⟨carVisit i0, 32, 32⟩
/-- STN_SWEEP (04_accumulation.md R120). -/
def stnSweep (i0 : Nat) (i1 : Nat) : Nat := 0x800118 + i0 * 0x10000 + i1 * 0x1000
/-- STN_SWEEP.SWEEP_CYCLES. -/
def stnSweep_sweepCycles (i0 : Nat) (i1 : Nat) : FieldRef := ⟨stnSweep i0 i1, 0, 32⟩
/-- STN_SWEEP.SWEPT_ROWS. -/
def stnSweep_sweptRows (i0 : Nat) (i1 : Nat) : FieldRef := ⟨stnSweep i0 i1, 32, 24⟩
/-- STN_SWEEP.MAX_WINDOWS. -/
def stnSweep_maxWindows (i0 : Nat) (i1 : Nat) : FieldRef := ⟨stnSweep i0 i1, 56, 3⟩
/-- STN_RSUM (04_accumulation.md R120). -/
def stnRsum (i0 : Nat) (i1 : Nat) : Nat := 0x800120 + i0 * 0x10000 + i1 * 0x1000
/-- STN_RSUM.EVICTIONS. -/
def stnRsum_evictions (i0 : Nat) (i1 : Nat) : FieldRef := ⟨stnRsum i0 i1, 0, 24⟩
/-- STN_RSUM.RESUMES. -/
def stnRsum_resumes (i0 : Nat) (i1 : Nat) : FieldRef := ⟨stnRsum i0 i1, 24, 24⟩
/-- STN_RSUM.BOUND_LAPSED. -/
def stnRsum_boundLapsed (i0 : Nat) (i1 : Nat) : FieldRef := ⟨stnRsum i0 i1, 48, 12⟩
/-- STN_MERGE (04_accumulation.md R120). -/
def stnMerge (i0 : Nat) (i1 : Nat) : Nat := 0x800128 + i0 * 0x10000 + i1 * 0x1000
/-- STN_MERGE.MERGE_ROWS. -/
def stnMerge_mergeRows (i0 : Nat) (i1 : Nat) : FieldRef := ⟨stnMerge i0 i1, 0, 32⟩
/-- STN_MERGE.MERGE_RESTARTS. -/
def stnMerge_mergeRestarts (i0 : Nat) (i1 : Nat) : FieldRef := ⟨stnMerge i0 i1, 32, 16⟩
/-- DEV_LATDESC (05_errek_contract.md R137). -/
def devLatdesc : Nat := 0x20
/-- DEV_LATDESC.BASE. -/
def devLatdesc_base : FieldRef := ⟨devLatdesc, 0, 32⟩
/-- DEV_LATDESC.ENTRIES. -/
def devLatdesc_entries : FieldRef := ⟨devLatdesc, 32, 16⟩
/-- DEV_LATDESC.VERSION. -/
def devLatdesc_version : FieldRef := ⟨devLatdesc, 48, 8⟩
/-- PRT_PACE (05_errek_contract.md R153). -/
def prtPace (i0 : Nat) : Nat := 0x300800 + i0 * 0x1000
/-- PRT_PACE.PACE. -/
def prtPace_pace (i0 : Nat) : FieldRef := ⟨prtPace i0, 0, 64⟩
/-- PRT_HOLD (05_errek_contract.md R153). -/
def prtHold (i0 : Nat) : Nat := 0x300808 + i0 * 0x1000
/-- PRT_HOLD.HOLD_CYCLES. -/
def prtHold_holdCycles (i0 : Nat) : FieldRef := ⟨prtHold i0, 0, 48⟩
/-- PRT_HOLD.SKEW_MAX. -/
def prtHold_skewMax (i0 : Nat) : FieldRef := ⟨prtHold i0, 48, 5⟩
/-- PRT_HOLD.LAST_SOURCE. -/
def prtHold_lastSource (i0 : Nat) : FieldRef := ⟨prtHold i0, 53, 4⟩
/-- PRT_HOLD_SRC (05_errek_contract.md R153). -/
def prtHoldSrc (i0 : Nat) (i1 : Nat) : Nat := 0x300840 + i0 * 0x1000 + i1 * 0x8
/-- PRT_HOLD_SRC.EVENTS. -/
def prtHoldSrc_events (i0 : Nat) (i1 : Nat) : FieldRef := ⟨prtHoldSrc i0 i1, 0, 32⟩
/-- PRT_HOLD_SRC.CYCLES. -/
def prtHoldSrc_cycles (i0 : Nat) (i1 : Nat) : FieldRef := ⟨prtHoldSrc i0 i1, 32, 32⟩
/-- PRT_LATENCY (05_errek_contract.md R153). -/
def prtLatency (i0 : Nat) : Nat := 0x300810 + i0 * 0x1000
/-- PRT_LATENCY.EXCESS_COMPLETIONS. -/
def prtLatency_excessCompletions (i0 : Nat) : FieldRef := ⟨prtLatency i0, 0, 32⟩
/-- PRT_LATENCY.PADDED_CLASSES. -/
def prtLatency_paddedClasses (i0 : Nat) : FieldRef := ⟨prtLatency i0, 32, 8⟩
/-- PRT_LATENCY.EXCESS_CLASSES. -/
def prtLatency_excessClasses (i0 : Nat) : FieldRef := ⟨prtLatency i0, 40, 8⟩
/-- PRT_FAULT (05_errek_contract.md R153). -/
def prtFault (i0 : Nat) : Nat := 0x300818 + i0 * 0x1000
/-- PRT_FAULT.SUPPRESSED. -/
def prtFault_suppressed (i0 : Nat) : FieldRef := ⟨prtFault i0, 0, 16⟩
/-- PRT_ORDER_BASE (05_errek_contract.md R154). -/
def prtOrderBase (i0 : Nat) : Nat := 0x300820 + i0 * 0x1000
/-- PRT_ORDER_BASE.BASE. -/
def prtOrderBase_base (i0 : Nat) : FieldRef := ⟨prtOrderBase i0, 0, 64⟩
/-- PRT_WDOG (05_errek_contract.md R154). -/
def prtWdog (i0 : Nat) : Nat := 0x300828 + i0 * 0x1000
/-- PRT_WDOG.LIMIT_S. -/
def prtWdog_limitS (i0 : Nat) : FieldRef := ⟨prtWdog i0, 0, 16⟩
/-- PRT_WDOG.EXPIRIES. -/
def prtWdog_expiries (i0 : Nat) : FieldRef := ⟨prtWdog i0, 16, 16⟩
/-- CAR_QUEUE (05_errek_contract.md R155). -/
def carQueue (i0 : Nat) (i1 : Nat) : Nat := 0x809000 + i0 * 0x10000 + i1 * 0x8
/-- CAR_QUEUE.DEPTH. -/
def carQueue_depth (i0 : Nat) (i1 : Nat) : FieldRef := ⟨carQueue i0 i1, 0, 11⟩
/-- CAR_QUEUE.ELASTIC. -/
def carQueue_elastic (i0 : Nat) (i1 : Nat) : FieldRef := ⟨carQueue i0 i1, 11, 1⟩
/-- CAR_QUEUE.OCCUPANCY. -/
def carQueue_occupancy (i0 : Nat) (i1 : Nat) : FieldRef := ⟨carQueue i0 i1, 12, 11⟩
/-- CAR_QUEUE.BASE. -/
def carQueue_base (i0 : Nat) (i1 : Nat) : FieldRef := ⟨carQueue i0 i1, 24, 20⟩
/-- PRT_WIN_VA (07_memory_and_streams.md R226). -/
def prtWinVa (i0 : Nat) (i1 : Nat) : Nat := 0x300000 + i0 * 0x1000 + i1 * 0x10
/-- PRT_WIN_VA.VALID. -/
def prtWinVa_valid (i0 : Nat) (i1 : Nat) : FieldRef := ⟨prtWinVa i0 i1, 0, 1⟩
/-- PRT_WIN_VA.READ. -/
def prtWinVa_read (i0 : Nat) (i1 : Nat) : FieldRef := ⟨prtWinVa i0 i1, 1, 1⟩
/-- PRT_WIN_VA.WRITE. -/
def prtWinVa_write (i0 : Nat) (i1 : Nat) : FieldRef := ⟨prtWinVa i0 i1, 2, 1⟩
/-- PRT_WIN_VA.HUGE. -/
def prtWinVa_huge (i0 : Nat) (i1 : Nat) : FieldRef := ⟨prtWinVa i0 i1, 3, 1⟩
/-- PRT_WIN_VA.VBASE. -/
def prtWinVa_vbase (i0 : Nat) (i1 : Nat) : FieldRef := ⟨prtWinVa i0 i1, 21, 27⟩
/-- PRT_WIN_VA.PAGES. -/
def prtWinVa_pages (i0 : Nat) (i1 : Nat) : FieldRef := ⟨prtWinVa i0 i1, 48, 16⟩
/-- PRT_WIN_PA (07_memory_and_streams.md R226). -/
def prtWinPa (i0 : Nat) (i1 : Nat) : Nat := 0x300008 + i0 * 0x1000 + i1 * 0x10
/-- PRT_WIN_PA.PBASE. -/
def prtWinPa_pbase (i0 : Nat) (i1 : Nat) : FieldRef := ⟨prtWinPa i0 i1, 21, 27⟩
/-- DRV_DEPOT (07_memory_and_streams.md R227). -/
def drvDepot (i0 : Nat) : Nat := 0x80E000 + i0 * 0x10000
/-- DRV_DEPOT.STAGING. -/
def drvDepot_staging (i0 : Nat) : FieldRef := ⟨drvDepot i0, 0, 5⟩
/-- DRV_DEPOT.LEDGER_BASE. -/
def drvDepot_ledgerBase (i0 : Nat) : FieldRef := ⟨drvDepot i0, 6, 10⟩
/-- DRV_DEPOT.LEDGER_SIZE. -/
def drvDepot_ledgerSize (i0 : Nat) : FieldRef := ⟨drvDepot i0, 16, 10⟩
/-- DRV_DEPOT.GCACHE. -/
def drvDepot_gcache (i0 : Nat) : FieldRef := ⟨drvDepot i0, 26, 5⟩
/-- DRV_DEPOT.SAVE. -/
def drvDepot_save (i0 : Nat) : FieldRef := ⟨drvDepot i0, 31, 1⟩
/-- DRV_DEPOT.FILL_HALF. -/
def drvDepot_fillHalf (i0 : Nat) : FieldRef := ⟨drvDepot i0, 32, 1⟩
/-- DRV_STATUS (07_memory_and_streams.md R227). -/
def drvStatus (i0 : Nat) : Nat := 0x80E008 + i0 * 0x10000
/-- DRV_STATUS.OUTSTANDING. -/
def drvStatus_outstanding (i0 : Nat) : FieldRef := ⟨drvStatus i0, 0, 10⟩
/-- DRV_STATUS.SCANNED_AHEAD. -/
def drvStatus_scannedAhead (i0 : Nat) : FieldRef := ⟨drvStatus i0, 10, 11⟩
/-- DRV_STATUS.AT_MARK. -/
def drvStatus_atMark (i0 : Nat) : FieldRef := ⟨drvStatus i0, 21, 1⟩
/-- DRV_STATUS.THREADS_BUSY. -/
def drvStatus_threadsBusy (i0 : Nat) : FieldRef := ⟨drvStatus i0, 22, 16⟩
/-- DRV_XFER (07_memory_and_streams.md R227). -/
def drvXfer (i0 : Nat) : Nat := 0x80E010 + i0 * 0x10000
/-- DRV_XFER.TRANSFERS. -/
def drvXfer_transfers (i0 : Nat) : FieldRef := ⟨drvXfer i0, 0, 32⟩
/-- DRV_XFER.DISCARDED. -/
def drvXfer_discarded (i0 : Nat) : FieldRef := ⟨drvXfer i0, 32, 16⟩
/-- DRV_XFER.TIMEOUTS. -/
def drvXfer_timeouts (i0 : Nat) : FieldRef := ⟨drvXfer i0, 48, 8⟩
/-- DRV_XFER.LEDGER_SPILLS. -/
def drvXfer_ledgerSpills (i0 : Nat) : FieldRef := ⟨drvXfer i0, 56, 8⟩
/-- DRV_GATHER (07_memory_and_streams.md R227). -/
def drvGather (i0 : Nat) : Nat := 0x80E018 + i0 * 0x10000
/-- DRV_GATHER.HITS. -/
def drvGather_hits (i0 : Nat) : FieldRef := ⟨drvGather i0, 0, 32⟩
/-- DRV_GATHER.MISSES. -/
def drvGather_misses (i0 : Nat) : FieldRef := ⟨drvGather i0, 32, 32⟩
/-- DRV_CTRL (07_memory_and_streams.md R227). -/
def drvCtrl (i0 : Nat) : Nat := 0x80E020 + i0 * 0x10000
/-- DRV_CTRL.TIMEOUT_US. -/
def drvCtrl_timeoutUs (i0 : Nat) : FieldRef := ⟨drvCtrl i0, 0, 16⟩
/-- MSH_FAULT (08_mesh_pass_toll.md R258). -/
def mshFault (i0 : Nat) : Nat := 0xA00000 + i0 * 0x1000
/-- MSH_FAULT.FAILED_ROUTERS. -/
def mshFault_failedRouters (i0 : Nat) : FieldRef := ⟨mshFault i0, 0, 32⟩
/-- MSH_LINKFAULT (08_mesh_pass_toll.md R258). -/
def mshLinkfault (i0 : Nat) : Nat := 0xA00008 + i0 * 0x1000
/-- MSH_LINKFAULT.H_LINKS. -/
def mshLinkfault_hLinks (i0 : Nat) : FieldRef := ⟨mshLinkfault i0, 0, 28⟩
/-- MSH_LINKFAULT.V_LINKS. -/
def mshLinkfault_vLinks (i0 : Nat) : FieldRef := ⟨mshLinkfault i0, 28, 24⟩
/-- MSH_MCAST (08_mesh_pass_toll.md R259). -/
def mshMcast (i0 : Nat) : Nat := 0xA00010 + i0 * 0x1000
/-- MSH_MCAST.STRAGGLER_US. -/
def mshMcast_stragglerUs (i0 : Nat) : FieldRef := ⟨mshMcast i0, 0, 16⟩
/-- MSH_MCAST.STRAGGLER_EVENTS. -/
def mshMcast_stragglerEvents (i0 : Nat) : FieldRef := ⟨mshMcast i0, 16, 16⟩
/-- MSH_MCAST.LAST_RECEIVER. -/
def mshMcast_lastReceiver (i0 : Nat) : FieldRef := ⟨mshMcast i0, 32, 16⟩
/-- MSH_ROUTER (08_mesh_pass_toll.md R259). -/
def mshRouter (i0 : Nat) (i1 : Nat) : Nat := 0xA00100 + i0 * 0x1000 + i1 * 0x8
/-- MSH_ROUTER.FLITS. -/
def mshRouter_flits (i0 : Nat) (i1 : Nat) : FieldRef := ⟨mshRouter i0 i1, 0, 48⟩
/-- MSH_ROUTER.DETOURED. -/
def mshRouter_detoured (i0 : Nat) (i1 : Nat) : FieldRef := ⟨mshRouter i0 i1, 48, 16⟩
/-- PAS_CHAN (08_mesh_pass_toll.md R259). -/
def pasChan (i0 : Nat) : Nat := 0xAC0000 + i0 * 0x8
/-- PAS_CHAN.STATE. -/
def pasChan_state (i0 : Nat) : FieldRef := ⟨pasChan i0, 0, 2⟩
/-- PAS_CHAN.CORRECTED. -/
def pasChan_corrected (i0 : Nat) : FieldRef := ⟨pasChan i0, 8, 8⟩
/-- PAS_CHAN.UNCORRECTED. -/
def pasChan_uncorrected (i0 : Nat) : FieldRef := ⟨pasChan i0, 16, 8⟩
/-- PAS_BEATS (08_mesh_pass_toll.md R259). -/
def pasBeats (i0 : Nat) : Nat := 0xAC0100 + i0 * 0x8
/-- PAS_BEATS.WE_BEATS. -/
def pasBeats_weBeats (i0 : Nat) : FieldRef := ⟨pasBeats i0, 0, 32⟩
/-- PAS_BEATS.EW_BEATS. -/
def pasBeats_ewBeats (i0 : Nat) : FieldRef := ⟨pasBeats i0, 32, 32⟩
/-- TOL_CFG (08_mesh_pass_toll.md R259). -/
def tolCfg (i0 : Nat) : Nat := 0xA80000 + i0 * 0x400
/-- TOL_CFG.BURST. -/
def tolCfg_burst (i0 : Nat) : FieldRef := ⟨tolCfg i0, 0, 13⟩
/-- TOL_CFG.STARVE_NS. -/
def tolCfg_starveNs (i0 : Nat) : FieldRef := ⟨tolCfg i0, 16, 24⟩
/-- TOL_MASK (08_mesh_pass_toll.md R259). -/
def tolMask (i0 : Nat) : Nat := 0xA80008 + i0 * 0x400
/-- TOL_MASK.MASKED. -/
def tolMask_masked (i0 : Nat) : FieldRef := ⟨tolMask i0, 0, 40⟩
/-- TOL_STARVED (08_mesh_pass_toll.md R259). -/
def tolStarved (i0 : Nat) : Nat := 0xA80010 + i0 * 0x400
/-- TOL_STARVED.STARVED. -/
def tolStarved_starved (i0 : Nat) : FieldRef := ⟨tolStarved i0, 0, 40⟩
/-- TOL_REQ (08_mesh_pass_toll.md R259). -/
def tolReq (i0 : Nat) (i1 : Nat) : Nat := 0xA80100 + i0 * 0x400 + i1 * 0x10
/-- TOL_REQ.GRANTS. -/
def tolReq_grants (i0 : Nat) (i1 : Nat) : FieldRef := ⟨tolReq i0 i1, 0, 32⟩
/-- TOL_REQ.WAITS. -/
def tolReq_waits (i0 : Nat) (i1 : Nat) : FieldRef := ⟨tolReq i0 i1, 32, 32⟩
/-- TOL_LONGEST (08_mesh_pass_toll.md R259). -/
def tolLongest (i0 : Nat) (i1 : Nat) : Nat := 0xA80108 + i0 * 0x400 + i1 * 0x10
/-- TOL_LONGEST.LONGEST_NS. -/
def tolLongest_longestNs (i0 : Nat) (i1 : Nat) : FieldRef := ⟨tolLongest i0 i1, 0, 32⟩
/-- STN_SPICE (09_training_engines.md R299). -/
def stnSpice (i0 : Nat) (i1 : Nat) : Nat := 0x800130 + i0 * 0x10000 + i1 * 0x1000
/-- STN_SPICE.LOADED. -/
def stnSpice_loaded (i0 : Nat) (i1 : Nat) : FieldRef := ⟨stnSpice i0 i1, 0, 8⟩
/-- STN_SPICE.HIGH_RANGE. -/
def stnSpice_highRange (i0 : Nat) (i1 : Nat) : FieldRef := ⟨stnSpice i0 i1, 8, 32⟩
/-- UPD_CFG (09_training_engines.md R299). -/
def updCfg (i0 : Nat) : Nat := 0xE00000 + i0 * 0x1000
/-- UPD_CFG.REPEAT_LIMIT. -/
def updCfg_repeatLimit (i0 : Nat) : FieldRef := ⟨updCfg i0, 0, 4⟩
/-- UPD_SEED (09_training_engines.md R299). -/
def updSeed (i0 : Nat) : Nat := 0xE00008 + i0 * 0x1000
/-- UPD_SEED.SEED. -/
def updSeed_seed (i0 : Nat) : FieldRef := ⟨updSeed i0, 0, 64⟩
/-- UPD_STEP (09_training_engines.md R299). -/
def updStep (i0 : Nat) : Nat := 0xE00010 + i0 * 0x1000
/-- UPD_STEP.STEP. -/
def updStep_step (i0 : Nat) : FieldRef := ⟨updStep i0, 0, 32⟩
/-- UPD_STEP.TAG. -/
def updStep_tag (i0 : Nat) : FieldRef := ⟨updStep i0, 32, 32⟩
/-- UPD_NORM (09_training_engines.md R299). -/
def updNorm (i0 : Nat) : Nat := 0xE00018 + i0 * 0x1000
/-- UPD_NORM.NORM. -/
def updNorm_norm (i0 : Nat) : FieldRef := ⟨updNorm i0, 0, 32⟩
/-- UPD_NORM.NORM_VALID. -/
def updNorm_normValid (i0 : Nat) : FieldRef := ⟨updNorm i0, 32, 1⟩
/-- UPD_COMMIT (09_training_engines.md R299). -/
def updCommit (i0 : Nat) : Nat := 0xE00020 + i0 * 0x1000
/-- UPD_COMMIT.LIVE. -/
def updCommit_live (i0 : Nat) : FieldRef := ⟨updCommit i0, 0, 1⟩
/-- UPD_COMMIT.STOPPED. -/
def updCommit_stopped (i0 : Nat) : FieldRef := ⟨updCommit i0, 1, 1⟩
/-- UPD_COMMIT.OUTCOME. -/
def updCommit_outcome (i0 : Nat) : FieldRef := ⟨updCommit i0, 2, 3⟩
/-- UPD_COMMIT.REFUSED. -/
def updCommit_refused (i0 : Nat) : FieldRef := ⟨updCommit i0, 16, 16⟩
/-- UPD_COMMIT.REPEATS. -/
def updCommit_repeats (i0 : Nat) : FieldRef := ⟨updCommit i0, 32, 16⟩
/-- UPD_RANGE (09_training_engines.md R299). -/
def updRange (i0 : Nat) : Nat := 0xE00028 + i0 * 0x1000
/-- UPD_RANGE.OVF_COUNT. -/
def updRange_ovfCount (i0 : Nat) : FieldRef := ⟨updRange i0, 0, 24⟩
/-- UPD_RANGE.UNF_COUNT. -/
def updRange_unfCount (i0 : Nat) : FieldRef := ⟨updRange i0, 24, 24⟩
/-- UPD_PAIR (09_training_engines.md R299). -/
def updPair (i0 : Nat) (i1 : Nat) : Nat := 0xE00100 + i0 * 0x1000 + i1 * 0x8
/-- UPD_PAIR.VALID. -/
def updPair_valid (i0 : Nat) (i1 : Nat) : FieldRef := ⟨updPair i0 i1, 0, 1⟩
/-- UPD_PAIR.BASE. -/
def updPair_base (i0 : Nat) (i1 : Nat) : FieldRef := ⟨updPair i0 i1, 21, 27⟩
/-- UPD_PAIR.PAGES. -/
def updPair_pages (i0 : Nat) (i1 : Nat) : FieldRef := ⟨updPair i0 i1, 48, 16⟩
/-- WGH_CFG (10_weighhouse.md R327). -/
def wghCfg (i0 : Nat) : Nat := 0xC00000 + i0 * 0x1000
/-- WGH_CFG.DEADLINE_MS. -/
def wghCfg_deadlineMs (i0 : Nat) : FieldRef := ⟨wghCfg i0, 0, 16⟩
/-- WGH_CFG.JOB. -/
def wghCfg_job (i0 : Nat) : FieldRef := ⟨wghCfg i0, 16, 16⟩
/-- WGH_GROUP (10_weighhouse.md R327). -/
def wghGroup (i0 : Nat) : Nat := 0xC00008 + i0 * 0x1000
/-- WGH_GROUP.BASE. -/
def wghGroup_base (i0 : Nat) : FieldRef := ⟨wghGroup i0, 0, 48⟩
/-- WGH_GROUP_CTL (10_weighhouse.md R327). -/
def wghGroupCtl (i0 : Nat) : Nat := 0xC00010 + i0 * 0x1000
/-- WGH_GROUP_CTL.COUNT. -/
def wghGroupCtl_count (i0 : Nat) : FieldRef := ⟨wghGroupCtl i0, 0, 13⟩
/-- WGH_GROUP_CTL.SELF. -/
def wghGroupCtl_self (i0 : Nat) : FieldRef := ⟨wghGroupCtl i0, 16, 12⟩
/-- WGH_GROUP_CTL.PENDING_EPOCH. -/
def wghGroupCtl_pendingEpoch (i0 : Nat) : FieldRef := ⟨wghGroupCtl i0, 32, 16⟩
/-- WGH_GROUP_CTL.PENDING_VALID. -/
def wghGroupCtl_pendingValid (i0 : Nat) : FieldRef := ⟨wghGroupCtl i0, 48, 1⟩
/-- WGH_EPOCH (10_weighhouse.md R327). -/
def wghEpoch (i0 : Nat) : Nat := 0xC00018 + i0 * 0x1000
/-- WGH_EPOCH.EPOCH. -/
def wghEpoch_epoch (i0 : Nat) : FieldRef := ⟨wghEpoch i0, 0, 16⟩
/-- WGH_EPOCH.GROUP_SIZE. -/
def wghEpoch_groupSize (i0 : Nat) : FieldRef := ⟨wghEpoch i0, 16, 13⟩
/-- WGH_EPOCH.RANK. -/
def wghEpoch_rank (i0 : Nat) : FieldRef := ⟨wghEpoch i0, 29, 12⟩
/-- WGH_WIDE_BASE (10_weighhouse.md R327). -/
def wghWideBase (i0 : Nat) : Nat := 0xC00020 + i0 * 0x1000
/-- WGH_WIDE_BASE.BASE. -/
def wghWideBase_base (i0 : Nat) : FieldRef := ⟨wghWideBase i0, 0, 48⟩
/-- WGH_WIDE_CTL (10_weighhouse.md R327). -/
def wghWideCtl (i0 : Nat) : Nat := 0xC00028 + i0 * 0x1000
/-- WGH_WIDE_CTL.COUNT. -/
def wghWideCtl_count (i0 : Nat) : FieldRef := ⟨wghWideCtl i0, 0, 16⟩
/-- WGH_WIDE_CTL.FLAG. -/
def wghWideCtl_flag (i0 : Nat) : FieldRef := ⟨wghWideCtl i0, 16, 12⟩
/-- WGH_SKIP (10_weighhouse.md R327). -/
def wghSkip (i0 : Nat) : Nat := 0xC00030 + i0 * 0x1000
/-- WGH_SKIP.BASE. -/
def wghSkip_base (i0 : Nat) : FieldRef := ⟨wghSkip i0, 0, 48⟩
/-- WGH_SKIP.VALID. -/
def wghSkip_valid (i0 : Nat) : FieldRef := ⟨wghSkip i0, 48, 1⟩
/-- WGH_SHARE (10_weighhouse.md R327). -/
def wghShare (i0 : Nat) : Nat := 0xC00038 + i0 * 0x1000
/-- WGH_SHARE.SLOTS. -/
def wghShare_slots (i0 : Nat) : FieldRef := ⟨wghShare i0, 0, 4⟩
/-- WGH_SHARE.HALF. -/
def wghShare_half (i0 : Nat) : FieldRef := ⟨wghShare i0, 4, 1⟩
/-- WGH_DIGEST_TX (10_weighhouse.md R327). -/
def wghDigestTx (i0 : Nat) : Nat := 0xC00040 + i0 * 0x1000
/-- WGH_DIGEST_TX.DIGEST. -/
def wghDigestTx_digest (i0 : Nat) : FieldRef := ⟨wghDigestTx i0, 0, 64⟩
/-- WGH_DIGEST_RX (10_weighhouse.md R327). -/
def wghDigestRx (i0 : Nat) : Nat := 0xC00048 + i0 * 0x1000
/-- WGH_DIGEST_RX.DIGEST. -/
def wghDigestRx_digest (i0 : Nat) : FieldRef := ⟨wghDigestRx i0, 0, 64⟩
/-- WGH_STEP_TX (10_weighhouse.md R327). -/
def wghStepTx (i0 : Nat) : Nat := 0xC00050 + i0 * 0x1000
/-- WGH_STEP_TX.DIGEST. -/
def wghStepTx_digest (i0 : Nat) : FieldRef := ⟨wghStepTx i0, 0, 64⟩
/-- WGH_STEP_RX (10_weighhouse.md R327). -/
def wghStepRx (i0 : Nat) : Nat := 0xC00058 + i0 * 0x1000
/-- WGH_STEP_RX.DIGEST. -/
def wghStepRx_digest (i0 : Nat) : FieldRef := ⟨wghStepRx i0, 0, 64⟩
/-- WGH_COUNT (10_weighhouse.md R327). -/
def wghCount (i0 : Nat) : Nat := 0xC00060 + i0 * 0x1000
/-- WGH_COUNT.STALE. -/
def wghCount_stale (i0 : Nat) : FieldRef := ⟨wghCount i0, 0, 16⟩
/-- WGH_COUNT.DUPLICATES. -/
def wghCount_duplicates (i0 : Nat) : FieldRef := ⟨wghCount i0, 16, 16⟩
/-- WGH_COUNT.MALFORMED. -/
def wghCount_malformed (i0 : Nat) : FieldRef := ⟨wghCount i0, 32, 16⟩
/-- WGH_COUNT.MISSED. -/
def wghCount_missed (i0 : Nat) : FieldRef := ⟨wghCount i0, 48, 16⟩
/-- WGH_RANGE (10_weighhouse.md R327). -/
def wghRange (i0 : Nat) : Nat := 0xC00068 + i0 * 0x1000
/-- WGH_RANGE.OVF_COUNT. -/
def wghRange_ovfCount (i0 : Nat) : FieldRef := ⟨wghRange i0, 0, 24⟩
/-- WGH_RANGE.UNF_COUNT. -/
def wghRange_unfCount (i0 : Nat) : FieldRef := ⟨wghRange i0, 24, 24⟩
/-- WGH_RANGE.NONFINITE_CHUNKS. -/
def wghRange_nonfiniteChunks (i0 : Nat) : FieldRef := ⟨wghRange i0, 48, 16⟩
/-- LNK_STATUS (11_torus_links.md R355). -/
def lnkStatus (i0 : Nat) : Nat := 0xD00000 + i0 * 0x10000
/-- LNK_STATUS.STATE. -/
def lnkStatus_state (i0 : Nat) : FieldRef := ⟨lnkStatus i0, 0, 4⟩
/-- LNK_STATUS.WIDTH. -/
def lnkStatus_width (i0 : Nat) : FieldRef := ⟨lnkStatus i0, 4, 5⟩
/-- LNK_STATUS.REVERSED. -/
def lnkStatus_reversed (i0 : Nat) : FieldRef := ⟨lnkStatus i0, 9, 1⟩
/-- LNK_STATUS.ENCRYPTED. -/
def lnkStatus_encrypted (i0 : Nat) : FieldRef := ⟨lnkStatus i0, 10, 1⟩
/-- LNK_STATUS.BEACON. -/
def lnkStatus_beacon (i0 : Nat) : FieldRef := ⟨lnkStatus i0, 11, 1⟩
/-- LNK_STATUS.PEER. -/
def lnkStatus_peer (i0 : Nat) : FieldRef := ⟨lnkStatus i0, 12, 15⟩
/-- LNK_STATUS.PEER_PORT. -/
def lnkStatus_peerPort (i0 : Nat) : FieldRef := ⟨lnkStatus i0, 27, 3⟩
/-- LNK_CTRL (11_torus_links.md R355). -/
def lnkCtrl (i0 : Nat) : Nat := 0xD00008 + i0 * 0x10000
/-- LNK_CTRL.ENABLE. -/
def lnkCtrl_enable (i0 : Nat) : FieldRef := ⟨lnkCtrl i0, 0, 1⟩
/-- LNK_CTRL.SEC_MODE. -/
def lnkCtrl_secMode (i0 : Nat) : FieldRef := ⟨lnkCtrl i0, 1, 2⟩
/-- LNK_CTRL.RETRY_NS. -/
def lnkCtrl_retryNs (i0 : Nat) : FieldRef := ⟨lnkCtrl i0, 3, 16⟩
/-- LNK_CTRL.RETRY_LIMIT. -/
def lnkCtrl_retryLimit (i0 : Nat) : FieldRef := ⟨lnkCtrl i0, 19, 4⟩
/-- LNK_ERR (11_torus_links.md R355). -/
def lnkErr (i0 : Nat) : Nat := 0xD00010 + i0 * 0x10000
/-- LNK_ERR.CRC_ERRORS. -/
def lnkErr_crcErrors (i0 : Nat) : FieldRef := ⟨lnkErr i0, 0, 16⟩
/-- LNK_ERR.RETRIES. -/
def lnkErr_retries (i0 : Nat) : FieldRef := ⟨lnkErr i0, 16, 16⟩
/-- LNK_ERR.ISOLATIONS. -/
def lnkErr_isolations (i0 : Nat) : FieldRef := ⟨lnkErr i0, 32, 8⟩
/-- LNK_ERR.TAG_FAILS. -/
def lnkErr_tagFails (i0 : Nat) : FieldRef := ⟨lnkErr i0, 40, 8⟩
/-- LNK_ERR.FEC_UNCORR. -/
def lnkErr_fecUncorr (i0 : Nat) : FieldRef := ⟨lnkErr i0, 48, 16⟩
/-- LNK_DROP (11_torus_links.md R355). -/
def lnkDrop (i0 : Nat) : Nat := 0xD00018 + i0 * 0x10000
/-- LNK_DROP.MALFORMED. -/
def lnkDrop_malformed (i0 : Nat) : FieldRef := ⟨lnkDrop i0, 0, 16⟩
/-- LNK_DROP.WINDOW. -/
def lnkDrop_window (i0 : Nat) : FieldRef := ⟨lnkDrop i0, 16, 16⟩
/-- LNK_DROP.UNROUTABLE. -/
def lnkDrop_unroutable (i0 : Nat) : FieldRef := ⟨lnkDrop i0, 32, 16⟩
/-- LNK_DROP.POISONED. -/
def lnkDrop_poisoned (i0 : Nat) : FieldRef := ⟨lnkDrop i0, 48, 16⟩
/-- LNK_WIN_A (11_torus_links.md R355). -/
def lnkWinA (i0 : Nat) (i1 : Nat) : Nat := 0xD00100 + i0 * 0x10000 + i1 * 0x10
/-- LNK_WIN_A.VALID. -/
def lnkWinA_valid (i0 : Nat) (i1 : Nat) : FieldRef := ⟨lnkWinA i0 i1, 0, 1⟩
/-- LNK_WIN_A.KINDS. -/
def lnkWinA_kinds (i0 : Nat) (i1 : Nat) : FieldRef := ⟨lnkWinA i0 i1, 1, 7⟩
/-- LNK_WIN_A.PARTITION. -/
def lnkWinA_partition (i0 : Nat) (i1 : Nat) : FieldRef := ⟨lnkWinA i0 i1, 8, 3⟩
/-- LNK_WIN_A.SRC_MATCH. -/
def lnkWinA_srcMatch (i0 : Nat) (i1 : Nat) : FieldRef := ⟨lnkWinA i0 i1, 11, 15⟩
/-- LNK_WIN_A.SRC_MASK. -/
def lnkWinA_srcMask (i0 : Nat) (i1 : Nat) : FieldRef := ⟨lnkWinA i0 i1, 26, 15⟩
/-- LNK_WIN_B (11_torus_links.md R355). -/
def lnkWinB (i0 : Nat) (i1 : Nat) : Nat := 0xD00108 + i0 * 0x10000 + i1 * 0x10
/-- LNK_WIN_B.VBASE. -/
def lnkWinB_vbase (i0 : Nat) (i1 : Nat) : FieldRef := ⟨lnkWinB i0 i1, 21, 27⟩
/-- LNK_WIN_B.PAGES. -/
def lnkWinB_pages (i0 : Nat) (i1 : Nat) : FieldRef := ⟨lnkWinB i0 i1, 48, 16⟩
/-- LNK_NODE (11_torus_links.md R355). -/
def lnkNode : Nat := 0xD60000
/-- LNK_NODE.SELF. -/
def lnkNode_self : FieldRef := ⟨lnkNode, 0, 15⟩
/-- LNK_NODE.XSIZE_M1. -/
def lnkNode_xsizeM1 : FieldRef := ⟨lnkNode, 15, 5⟩
/-- LNK_NODE.YSIZE_M1. -/
def lnkNode_ysizeM1 : FieldRef := ⟨lnkNode, 20, 5⟩
/-- LNK_NODE.ZSIZE_M1. -/
def lnkNode_zsizeM1 : FieldRef := ⟨lnkNode, 25, 5⟩
/-- LNK_DETOUR (11_torus_links.md R355). -/
def lnkDetour (i0 : Nat) : Nat := 0xD60100 + i0 * 0x8
/-- LNK_DETOUR.VALID. -/
def lnkDetour_valid (i0 : Nat) : FieldRef := ⟨lnkDetour i0, 0, 1⟩
/-- LNK_DETOUR.DEST_MATCH. -/
def lnkDetour_destMatch (i0 : Nat) : FieldRef := ⟨lnkDetour i0, 1, 15⟩
/-- LNK_DETOUR.DEST_MASK. -/
def lnkDetour_destMask (i0 : Nat) : FieldRef := ⟨lnkDetour i0, 16, 15⟩
/-- LNK_DETOUR.WAYPOINT. -/
def lnkDetour_waypoint (i0 : Nat) : FieldRef := ⟨lnkDetour i0, 31, 15⟩
/-- LNK_TXQ (11_torus_links.md R355). -/
def lnkTxq (i0 : Nat) : Nat := 0xD60800 + i0 * 0x8
/-- LNK_TXQ.SENDQ. -/
def lnkTxq_sendq (i0 : Nat) : FieldRef := ⟨lnkTxq i0, 0, 48⟩
/-- SEAL_MAN (13_dependability.md R406). -/
def sealMan (i0 : Nat) : Nat := 0x101000 + i0 * 0x100
/-- SEAL_MAN.COMPLETED. -/
def sealMan_completed (i0 : Nat) : FieldRef := ⟨sealMan i0, 0, 32⟩
/-- SEAL_MAN.SUSPENDED. -/
def sealMan_suspended (i0 : Nat) : FieldRef := ⟨sealMan i0, 32, 1⟩
/-- SEAL_MAN.RESUME. -/
def sealMan_resume (i0 : Nat) : FieldRef := ⟨sealMan i0, 33, 1⟩
/-- SEAL_MAN.WITHDRAW. -/
def sealMan_withdraw (i0 : Nat) : FieldRef := ⟨sealMan i0, 34, 1⟩
/-- SEAL_MAN.PARTNER_ACK. -/
def sealMan_partnerAck (i0 : Nat) : FieldRef := ⟨sealMan i0, 35, 1⟩
/-- SEAL_MAN.REEXEC_LIMIT. -/
def sealMan_reexecLimit (i0 : Nat) : FieldRef := ⟨sealMan i0, 36, 4⟩
/-- SEAL_MAN.REEXECS. -/
def sealMan_reexecs (i0 : Nat) : FieldRef := ⟨sealMan i0, 40, 16⟩
/-- SEAL_MAN.RELOCATIONS. -/
def sealMan_relocations (i0 : Nat) : FieldRef := ⟨sealMan i0, 56, 8⟩
/-- SEAL_ECC (13_dependability.md R406). -/
def sealEcc (i0 : Nat) : Nat := 0x100200 + i0 * 0x8
/-- SEAL_ECC.CORR1. -/
def sealEcc_corr1 (i0 : Nat) : FieldRef := ⟨sealEcc i0, 0, 24⟩
/-- SEAL_ECC.CORR2. -/
def sealEcc_corr2 (i0 : Nat) : FieldRef := ⟨sealEcc i0, 24, 16⟩
/-- SEAL_ECC.UNCORR. -/
def sealEcc_uncorr (i0 : Nat) : FieldRef := ⟨sealEcc i0, 40, 16⟩
/-- SEAL_ECC.REPAIRS. -/
def sealEcc_repairs (i0 : Nat) : FieldRef := ⟨sealEcc i0, 56, 8⟩
/-- HBM_ECC (13_dependability.md R406). -/
def hbmEcc (i0 : Nat) : Nat := 0xB00000 + i0 * 0x10000
/-- HBM_ECC.CORR1. -/
def hbmEcc_corr1 (i0 : Nat) : FieldRef := ⟨hbmEcc i0, 0, 24⟩
/-- HBM_ECC.CORR2. -/
def hbmEcc_corr2 (i0 : Nat) : FieldRef := ⟨hbmEcc i0, 24, 16⟩
/-- HBM_ECC.UNCORR. -/
def hbmEcc_uncorr (i0 : Nat) : FieldRef := ⟨hbmEcc i0, 40, 16⟩
/-- HBM_ECC.REPAIRS. -/
def hbmEcc_repairs (i0 : Nat) : FieldRef := ⟨hbmEcc i0, 56, 8⟩
/-- CSG_CFG (13_dependability.md R406). -/
def csgCfg (i0 : Nat) : Nat := 0xF00000 + i0 * 0x1000
/-- CSG_CFG.ENABLE. -/
def csgCfg_enable (i0 : Nat) : FieldRef := ⟨csgCfg i0, 0, 1⟩
/-- CSG_CFG.JOBWIDE. -/
def csgCfg_jobwide (i0 : Nat) : FieldRef := ⟨csgCfg i0, 1, 1⟩
/-- CSG_CFG.VERIFY. -/
def csgCfg_verify (i0 : Nat) : FieldRef := ⟨csgCfg i0, 2, 1⟩
/-- CSG_CFG.HOST_EVERY. -/
def csgCfg_hostEvery (i0 : Nat) : FieldRef := ⟨csgCfg i0, 3, 4⟩
/-- CSG_CFG.HOST_FEED. -/
def csgCfg_hostFeed (i0 : Nat) : FieldRef := ⟨csgCfg i0, 7, 8⟩
/-- CSG_CFG.MIN_S. -/
def csgCfg_minS (i0 : Nat) : FieldRef := ⟨csgCfg i0, 15, 16⟩
/-- CSG_CFG.AT_VALID. -/
def csgCfg_atValid (i0 : Nat) : FieldRef := ⟨csgCfg i0, 31, 1⟩
/-- CSG_CFG.AT_STEP. -/
def csgCfg_atStep (i0 : Nat) : FieldRef := ⟨csgCfg i0, 32, 32⟩
/-- CSG_LIST (13_dependability.md R406). -/
def csgList (i0 : Nat) : Nat := 0xF00008 + i0 * 0x1000
/-- CSG_LIST.BASE. -/
def csgList_base (i0 : Nat) : FieldRef := ⟨csgList i0, 0, 48⟩
/-- CSG_LIST.COUNT. -/
def csgList_count (i0 : Nat) : FieldRef := ⟨csgList i0, 48, 7⟩
/-- CSG_HOSTBUF (13_dependability.md R406). -/
def csgHostbuf (i0 : Nat) : Nat := 0xF00010 + i0 * 0x1000
/-- CSG_HOSTBUF.BASE. -/
def csgHostbuf_base (i0 : Nat) : FieldRef := ⟨csgHostbuf i0, 0, 48⟩
/-- CSG_AREA (13_dependability.md R406). -/
def csgArea (i0 : Nat) : Nat := 0xF00018 + i0 * 0x1000
/-- CSG_AREA.BASE. -/
def csgArea_base (i0 : Nat) : FieldRef := ⟨csgArea i0, 0, 48⟩
/-- CSG_AREA.SLOT_GIB. -/
def csgArea_slotGib (i0 : Nat) : FieldRef := ⟨csgArea i0, 48, 16⟩
/-- CSG_PEER (13_dependability.md R406). -/
def csgPeer (i0 : Nat) (i1 : Nat) : Nat := 0xF00020 + i0 * 0x1000 + i1 * 0x8
/-- CSG_PEER.VALID. -/
def csgPeer_valid (i0 : Nat) (i1 : Nat) : FieldRef := ⟨csgPeer i0 i1, 0, 1⟩
/-- CSG_PEER.NODE. -/
def csgPeer_node (i0 : Nat) (i1 : Nat) : FieldRef := ⟨csgPeer i0 i1, 1, 15⟩
/-- CSG_PEER.PARTITION. -/
def csgPeer_partition (i0 : Nat) (i1 : Nat) : FieldRef := ⟨csgPeer i0 i1, 16, 3⟩
/-- CSG_PEER.FEED. -/
def csgPeer_feed (i0 : Nat) (i1 : Nat) : FieldRef := ⟨csgPeer i0 i1, 19, 8⟩
/-- CSG_STATUS (13_dependability.md R406). -/
def csgStatus (i0 : Nat) : Nat := 0xF00040 + i0 * 0x1000
/-- CSG_STATUS.SECURED_STEP. -/
def csgStatus_securedStep (i0 : Nat) : FieldRef := ⟨csgStatus i0, 0, 32⟩
/-- CSG_STATUS.SECURED_VALID. -/
def csgStatus_securedValid (i0 : Nat) : FieldRef := ⟨csgStatus i0, 32, 1⟩
/-- CSG_STATUS.CO_FED. -/
def csgStatus_coFed (i0 : Nat) : FieldRef := ⟨csgStatus i0, 33, 1⟩
/-- CSG_STATUS.STATE. -/
def csgStatus_state (i0 : Nat) : FieldRef := ⟨csgStatus i0, 34, 3⟩
/-- CSG_STATUS.REQUEST. -/
def csgStatus_request (i0 : Nat) : FieldRef := ⟨csgStatus i0, 37, 1⟩
/-- CSG_STATUS.NOW. -/
def csgStatus_now (i0 : Nat) : FieldRef := ⟨csgStatus i0, 38, 1⟩
/-- CSG_STATUS.RESTORE. -/
def csgStatus_restore (i0 : Nat) : FieldRef := ⟨csgStatus i0, 39, 1⟩
/-- CSG_STATUS.SOURCE. -/
def csgStatus_source (i0 : Nat) : FieldRef := ⟨csgStatus i0, 40, 2⟩
/-- CSG_STATUS.SLOT. -/
def csgStatus_slot (i0 : Nat) : FieldRef := ⟨csgStatus i0, 42, 1⟩
/-- CSG_STATUS.FROM_HOST. -/
def csgStatus_fromHost (i0 : Nat) : FieldRef := ⟨csgStatus i0, 43, 1⟩
/-- CSG_STATUS.TAIL. -/
def csgStatus_tail (i0 : Nat) : FieldRef := ⟨csgStatus i0, 44, 1⟩
/-- CSG_COST (13_dependability.md R406). -/
def csgCost (i0 : Nat) : Nat := 0xF00048 + i0 * 0x1000
/-- CSG_COST.COST_MS. -/
def csgCost_costMs (i0 : Nat) : FieldRef := ⟨csgCost i0, 0, 24⟩
/-- CSG_COST.INTERVAL_S. -/
def csgCost_intervalS (i0 : Nat) : FieldRef := ⟨csgCost i0, 24, 24⟩
/-- CSG_COST.FAILED. -/
def csgCost_failed (i0 : Nat) : FieldRef := ⟨csgCost i0, 48, 8⟩
/-- CSG_COST.REJECTED. -/
def csgCost_rejected (i0 : Nat) : FieldRef := ⟨csgCost i0, 56, 8⟩
/-- CSG_RISK (13_dependability.md R406). -/
def csgRisk : Nat := 0xF08000
/-- CSG_RISK.MULT. -/
def csgRisk_mult : FieldRef := ⟨csgRisk, 0, 10⟩
/-- CSG_RISK.THRESHOLD. -/
def csgRisk_threshold : FieldRef := ⟨csgRisk, 10, 10⟩
/-- CSG_RISK.W_CE. -/
def csgRisk_wCe : FieldRef := ⟨csgRisk, 20, 4⟩
/-- CSG_RISK.W_LR. -/
def csgRisk_wLr : FieldRef := ⟨csgRisk, 24, 4⟩
/-- CSG_RISK.W_DR. -/
def csgRisk_wDr : FieldRef := ⟨csgRisk, 28, 4⟩
/-- CSG_RISK.W_TH. -/
def csgRisk_wTh : FieldRef := ⟨csgRisk, 32, 4⟩
/-- CSG_RISK.MPRIOR_H. -/
def csgRisk_mpriorH : FieldRef := ⟨csgRisk, 36, 16⟩
/-- CSG_RISK.FAILURES. -/
def csgRisk_failures : FieldRef := ⟨csgRisk, 52, 8⟩
/-- CPR_CAUSE (14_clocks_power_reset.md R433). -/
def cprCause : Nat := 0x200000
/-- CPR_CAUSE.LAST. -/
def cprCause_last : FieldRef := ⟨cprCause, 0, 4⟩
/-- CPR_CAUSE.WRST_REASON. -/
def cprCause_wrstReason : FieldRef := ⟨cprCause, 4, 4⟩
/-- CPR_PSTATE (14_clocks_power_reset.md R433). -/
def cprPstate : Nat := 0x200008
/-- CPR_PSTATE.DEVICE. -/
def cprPstate_device : FieldRef := ⟨cprPstate, 0, 2⟩
/-- CPR_PSTATE.P3_REQ. -/
def cprPstate_p3Req : FieldRef := ⟨cprPstate, 2, 1⟩
/-- CPR_PSTATE.P3_REFUSED. -/
def cprPstate_p3Refused : FieldRef := ⟨cprPstate, 3, 1⟩
/-- CPR_PSTATE.PART_STATE. -/
def cprPstate_partState : FieldRef := ⟨cprPstate, 16, 16⟩
/-- CPR_PSTATE.P2_IDLE_US. -/
def cprPstate_p2IdleUs : FieldRef := ⟨cprPstate, 32, 16⟩
/-- CPR_CLK (14_clocks_power_reset.md R433). -/
def cprClk : Nat := 0x200010
/-- CPR_CLK.WEST_MHZ. -/
def cprClk_westMhz : FieldRef := ⟨cprClk, 0, 11⟩
/-- CPR_CLK.EAST_MHZ. -/
def cprClk_eastMhz : FieldRef := ⟨cprClk, 16, 11⟩
/-- CPR_CLK.LINK_REF_LOST. -/
def cprClk_linkRefLost : FieldRef := ⟨cprClk, 32, 1⟩
/-- CPR_CLK.PCIE_REF_LOST. -/
def cprClk_pcieRefLost : FieldRef := ⟨cprClk, 33, 1⟩
/-- CPR_CLK.REF_EVENTS. -/
def cprClk_refEvents : FieldRef := ⟨cprClk, 40, 16⟩
/-- CPR_CAP (14_clocks_power_reset.md R433). -/
def cprCap : Nat := 0x200018
/-- CPR_CAP.CAP_W. -/
def cprCap_capW : FieldRef := ⟨cprCap, 0, 13⟩
/-- CPR_CAP.POWER_W. -/
def cprCap_powerW : FieldRef := ⟨cprCap, 16, 13⟩
/-- CPR_CAP.THROTTLE_C. -/
def cprCap_throttleC : FieldRef := ⟨cprCap, 32, 8⟩
/-- CPR_CAP.HOLD_C. -/
def cprCap_holdC : FieldRef := ⟨cprCap, 40, 8⟩
/-- CPR_CAP.TJ_MAX. -/
def cprCap_tjMax : FieldRef := ⟨cprCap, 48, 8⟩
/-- CPR_STRETCH (14_clocks_power_reset.md R433). -/
def cprStretch (i0 : Nat) : Nat := 0x200040 + i0 * 0x8
/-- CPR_STRETCH.DROOP_STRETCHES. -/
def cprStretch_droopStretches (i0 : Nat) : FieldRef := ⟨cprStretch i0, 0, 24⟩
/-- CPR_STRETCH.THERMAL_STRETCHES. -/
def cprStretch_thermalStretches (i0 : Nat) : FieldRef := ⟨cprStretch i0, 24, 24⟩
/-- CPR_STRETCH.FAST_STRETCH_US. -/
def cprStretch_fastStretchUs (i0 : Nat) : FieldRef := ⟨cprStretch i0, 48, 16⟩
/-- CPR_SHARE (14_clocks_power_reset.md R433). -/
def cprShare (i0 : Nat) : Nat := 0x200100 + i0 * 0x8
/-- CPR_SHARE.SHARE_W. -/
def cprShare_shareW (i0 : Nat) : FieldRef := ⟨cprShare i0, 0, 12⟩
/-- CPR_SHARE.ESTIMATE_W. -/
def cprShare_estimateW (i0 : Nat) : FieldRef := ⟨cprShare i0, 16, 12⟩
/-- CPR_SHARE.CAP_HOLD_CYCLES. -/
def cprShare_capHoldCycles (i0 : Nat) : FieldRef := ⟨cprShare i0, 32, 32⟩
/-- PRT_GRANT (15_hosts_config_debug.md R467). -/
def prtGrant (i0 : Nat) : Nat := 0x300900 + i0 * 0x1000
/-- PRT_GRANT.CARAVANS. -/
def prtGrant_caravans (i0 : Nat) : FieldRef := ⟨prtGrant i0, 0, 24⟩
/-- PRT_GRANT.FUNCTIONS. -/
def prtGrant_functions (i0 : Nat) : FieldRef := ⟨prtGrant i0, 24, 8⟩
/-- PRT_GRANT.GRANTS. -/
def prtGrant_grants (i0 : Nat) : FieldRef := ⟨prtGrant i0, 32, 4⟩
/-- HQ_RING_BASE (15_hosts_config_debug.md R467). -/
def hqRingBase (i0 : Nat) (i1 : Nat) : Nat := 0x480000 + i0 * 0x1000 + i1 * 0x20
/-- HQ_RING_BASE.BASE. -/
def hqRingBase_base (i0 : Nat) (i1 : Nat) : FieldRef := ⟨hqRingBase i0 i1, 0, 48⟩
/-- HQ_RING_BASE.LOG2_DEPTH. -/
def hqRingBase_log2Depth (i0 : Nat) (i1 : Nat) : FieldRef := ⟨hqRingBase i0 i1, 48, 4⟩
/-- HQ_RING_BASE.ENABLE. -/
def hqRingBase_enable (i0 : Nat) (i1 : Nat) : FieldRef := ⟨hqRingBase i0 i1, 63, 1⟩
/-- HQ_RING_CTL (15_hosts_config_debug.md R467). -/
def hqRingCtl (i0 : Nat) (i1 : Nat) : Nat := 0x480008 + i0 * 0x1000 + i1 * 0x20
/-- HQ_RING_CTL.TAIL. -/
def hqRingCtl_tail (i0 : Nat) (i1 : Nat) : FieldRef := ⟨hqRingCtl i0 i1, 0, 16⟩
/-- HQ_RING_CTL.HEAD. -/
def hqRingCtl_head (i0 : Nat) (i1 : Nat) : FieldRef := ⟨hqRingCtl i0 i1, 16, 16⟩
/-- HQ_RING_CTL.LAST_SEQ. -/
def hqRingCtl_lastSeq (i0 : Nat) (i1 : Nat) : FieldRef := ⟨hqRingCtl i0 i1, 32, 31⟩
/-- HQ_RING_CTL.STOPPED. -/
def hqRingCtl_stopped (i0 : Nat) (i1 : Nat) : FieldRef := ⟨hqRingCtl i0 i1, 63, 1⟩
/-- HQ_CPL (15_hosts_config_debug.md R467). -/
def hqCpl (i0 : Nat) : Nat := 0x400000 + i0 * 0x1000
/-- HQ_CPL.BASE. -/
def hqCpl_base (i0 : Nat) : FieldRef := ⟨hqCpl i0, 0, 48⟩
/-- HQ_CPL.LOG2_DEPTH. -/
def hqCpl_log2Depth (i0 : Nat) : FieldRef := ⟨hqCpl i0, 48, 4⟩
/-- HQ_CPL.FUNC. -/
def hqCpl_func (i0 : Nat) : FieldRef := ⟨hqCpl i0, 52, 3⟩
/-- HQ_CPL.APERTURE. -/
def hqCpl_aperture (i0 : Nat) : FieldRef := ⟨hqCpl i0, 55, 8⟩
/-- HQ_CPL_HEAD (15_hosts_config_debug.md R467). -/
def hqCplHead (i0 : Nat) : Nat := 0x400008 + i0 * 0x1000
/-- HQ_CPL_HEAD.RELEASED. -/
def hqCplHead_released (i0 : Nat) : FieldRef := ⟨hqCplHead i0, 0, 32⟩
/-- HQ_EVQ (15_hosts_config_debug.md R467). -/
def hqEvq (i0 : Nat) : Nat := 0x400010 + i0 * 0x1000
/-- HQ_EVQ.BASE. -/
def hqEvq_base (i0 : Nat) : FieldRef := ⟨hqEvq i0, 0, 48⟩
/-- HQ_EVQ.LOG2_DEPTH. -/
def hqEvq_log2Depth (i0 : Nat) : FieldRef := ⟨hqEvq i0, 48, 4⟩
/-- HQ_EVQ.DROPPED. -/
def hqEvq_dropped (i0 : Nat) : FieldRef := ⟨hqEvq i0, 52, 12⟩
/-- HQ_CANCEL (15_hosts_config_debug.md R467). -/
def hqCancel (i0 : Nat) : Nat := 0x400018 + i0 * 0x1000
/-- HQ_CANCEL.SEQ. -/
def hqCancel_seq (i0 : Nat) : FieldRef := ⟨hqCancel i0, 0, 32⟩
/-- HQ_MBOX (15_hosts_config_debug.md R467). -/
def hqMbox (i0 : Nat) (i1 : Nat) : Nat := 0x400800 + i0 * 0x1000 + i1 * 0x40
/-- HQ_MBOX.SEQ. -/
def hqMbox_seq (i0 : Nat) (i1 : Nat) : FieldRef := ⟨hqMbox i0 i1, 0, 32⟩
/-- HQ_MBOX.STATE. -/
def hqMbox_state (i0 : Nat) (i1 : Nat) : FieldRef := ⟨hqMbox i0 i1, 32, 2⟩
/-- HQ_MBOX.RELEASE. -/
def hqMbox_release (i0 : Nat) (i1 : Nat) : FieldRef := ⟨hqMbox i0 i1, 34, 1⟩
/-- HQ_MBOX_DATA (15_hosts_config_debug.md R467). -/
def hqMboxData (i0 : Nat) (i1 : Nat) (i2 : Nat) : Nat := 0x400808 + i0 * 0x1000 + i1 * 0x40 + i2 * 0x8
/-- HQ_MBOX_DATA.DATA. -/
def hqMboxData_data (i0 : Nat) (i1 : Nat) (i2 : Nat) : FieldRef := ⟨hqMboxData i0 i1 i2, 0, 64⟩
/-- HQ_SEALREQ (15_hosts_config_debug.md R467). -/
def hqSealreq (i0 : Nat) : Nat := 0x400400 + i0 * 0x1000
/-- HQ_SEALREQ.TYPE. -/
def hqSealreq_type (i0 : Nat) : FieldRef := ⟨hqSealreq i0, 0, 8⟩
/-- HQ_SEALREQ.STATUS. -/
def hqSealreq_status (i0 : Nat) : FieldRef := ⟨hqSealreq i0, 8, 8⟩
/-- HQ_SEALREQ.REASON. -/
def hqSealreq_reason (i0 : Nat) : FieldRef := ⟨hqSealreq i0, 16, 8⟩
/-- HQ_SEALREQ.GO. -/
def hqSealreq_go (i0 : Nat) : FieldRef := ⟨hqSealreq i0, 63, 1⟩
/-- HQ_SEALARG (15_hosts_config_debug.md R467). -/
def hqSealarg (i0 : Nat) (i1 : Nat) : Nat := 0x400408 + i0 * 0x1000 + i1 * 0x8
/-- HQ_SEALARG.ARG. -/
def hqSealarg_arg (i0 : Nat) (i1 : Nat) : FieldRef := ⟨hqSealarg i0 i1, 0, 64⟩
/-- CFG_STATUS (15_hosts_config_debug.md R467). -/
def cfgStatus : Nat := 0x1100000
/-- CFG_STATUS.FEED. -/
def cfgStatus_feed : FieldRef := ⟨cfgStatus, 0, 8⟩
/-- CFG_STATUS.ACTIVE_SLOT. -/
def cfgStatus_activeSlot : FieldRef := ⟨cfgStatus, 8, 1⟩
/-- CFG_STATUS.IMAGE_SERIAL. -/
def cfgStatus_imageSerial : FieldRef := ⟨cfgStatus, 9, 32⟩
/-- CFG_STATUS.APPLY_STATE. -/
def cfgStatus_applyState : FieldRef := ⟨cfgStatus, 41, 2⟩
/-- CFG_STATUS.APPLY_REASON. -/
def cfgStatus_applyReason : FieldRef := ⟨cfgStatus, 43, 4⟩
/-- CFG_STATUS.REASON. -/
def cfgStatus_reason : FieldRef := ⟨cfgStatus, 47, 4⟩
/-- SCT_STATUS (15_hosts_config_debug.md R467). -/
def sctStatus (i0 : Nat) : Nat := 0x1000000 + i0 * 0x8
/-- SCT_STATUS.UNLOCKED. -/
def sctStatus_unlocked (i0 : Nat) : FieldRef := ⟨sctStatus i0, 0, 1⟩
/-- SCT_STATUS.RIGHTS. -/
def sctStatus_rights (i0 : Nat) : FieldRef := ⟨sctStatus i0, 1, 8⟩
/-- SCT_STATUS.HALTED. -/
def sctStatus_halted (i0 : Nat) : FieldRef := ⟨sctStatus i0, 9, 1⟩
/-- SCT_STATUS.BREAK_HITS. -/
def sctStatus_breakHits (i0 : Nat) : FieldRef := ⟨sctStatus i0, 10, 16⟩

end Csr

/-- DEV_ID (00_scope.md R4). -/
def fam_devId : Fam := ⟨"DEV_ID", 0x0, [], .dev, [
  ⟨"VENDOR", 0, 16, .ro, .val 55070, .val 55070, .val 55070, .val 55070, .val 55070, .val 55070, .val 55070, false, false⟩,
  ⟨"PART", 16, 16, .ro, .val 3590, .val 3590, .val 3590, .val 3590, .val 3590, .val 3590, .val 3590, false, false⟩,
  ⟨"FAMILY", 32, 8, .ro, .val 1, .val 1, .val 1, .val 1, .val 1, .val 1, .val 1, false, false⟩,
  ⟨"CONTRACT", 40, 8, .ro, .val 1, .val 1, .val 1, .val 1, .val 1, .val 1, .val 1, false, false⟩]⟩
/-- DEV_STEP (00_scope.md R4). -/
def fam_devStep : Fam := ⟨"DEV_STEP", 0x8, [], .dev, [
  ⟨"STEPPING", 0, 8, .ro, .fused, .fused, .fused, .fused, .fused, .fused, .fused, false, false⟩,
  ⟨"METAL", 8, 8, .ro, .fused, .fused, .fused, .fused, .fused, .fused, .fused, false, false⟩]⟩
/-- DEV_SERIAL (00_scope.md R4). -/
def fam_devSerial : Fam := ⟨"DEV_SERIAL", 0x10, [], .dev, [
  ⟨"SERIAL", 0, 64, .ro, .fused, .fused, .fused, .fused, .fused, .fused, .fused, false, false⟩]⟩
/-- DEV_LAYOUT (01_organisation.md R18). -/
def fam_devLayout : Fam := ⟨"DEV_LAYOUT", 0x18, [], .dev, [
  ⟨"CARAVANS", 0, 8, .ro, .val 24, .val 24, .val 24, .val 24, .val 24, .val 24, .val 24, false, false⟩,
  ⟨"STATIONS", 8, 4, .ro, .val 8, .val 8, .val 8, .val 8, .val 8, .val 8, .val 8, false, false⟩,
  ⟨"HBM_STACKS", 16, 8, .ro, .val 16, .val 16, .val 16, .val 16, .val 16, .val 16, .val 16, false, false⟩,
  ⟨"STACK_GIB", 24, 8, .ro, .val 48, .val 48, .val 48, .val 48, .val 48, .val 48, .val 48, false, false⟩,
  ⟨"LINK_PORTS", 32, 4, .ro, .val 6, .val 6, .val 6, .val 6, .val 6, .val 6, .val 6, false, false⟩,
  ⟨"HOST_PORTS", 36, 4, .ro, .val 2, .val 2, .val 2, .val 2, .val 2, .val 2, .val 2, false, false⟩,
  ⟨"PARTITIONS", 40, 4, .ro, .val 8, .val 8, .val 8, .val 8, .val 8, .val 8, .val 8, false, false⟩]⟩
/-- STN_RANGE_OUT (02_number_formats.md R50). -/
def fam_stnRangeOut : Fam := ⟨"STN_RANGE_OUT", 0x800100, [(24, 0x10000), (8, 0x1000)], .station, [
  ⟨"OVF_COUNT", 0, 24, .rw, .val 0, .val 0, .val 0, .val 0, .val 0, .kept, .kept, false, true⟩,
  ⟨"UNF_COUNT", 24, 24, .rw, .val 0, .val 0, .val 0, .val 0, .val 0, .kept, .kept, false, true⟩,
  ⟨"INPUT_OVF", 48, 16, .rw, .val 0, .val 0, .val 0, .val 0, .val 0, .kept, .kept, false, true⟩]⟩
/-- STN_CHECK (03_caravan_ring.md R91). -/
def fam_stnCheck : Fam := ⟨"STN_CHECK", 0x800108, [(24, 0x10000), (8, 0x1000)], .station, [
  ⟨"MISMATCH_COUNT", 0, 24, .rw, .val 0, .val 0, .val 0, .val 0, .val 0, .kept, .kept, false, true⟩,
  ⟨"LEG_REPLAYS", 24, 16, .rw, .val 0, .val 0, .val 0, .val 0, .val 0, .kept, .kept, false, true⟩,
  ⟨"TILE_REPLAYS", 40, 12, .rw, .val 0, .val 0, .val 0, .val 0, .val 0, .kept, .kept, false, true⟩,
  ⟨"LAST_GROUP", 52, 4, .ro, .val 0, .val 0, .val 0, .val 0, .val 0, .kept, .kept, false, true⟩]⟩
/-- STN_FENCE (03_caravan_ring.md R91). -/
def fam_stnFence : Fam := ⟨"STN_FENCE", 0x800110, [(24, 0x10000), (8, 0x1000)], .station, [
  ⟨"FENCED_GROUPS", 0, 16, .ro, .val 0, .val 0, .kept, .kept, .kept, .kept, .kept, false, false⟩,
  ⟨"STATION_FENCED", 16, 1, .ro, .val 0, .val 0, .kept, .kept, .kept, .kept, .kept, false, false⟩,
  ⟨"REMNANT_PASSES", 32, 16, .rw, .val 0, .val 0, .val 0, .val 0, .val 0, .kept, .kept, false, true⟩]⟩
/-- CAR_VISIT (03_caravan_ring.md R92). -/
def fam_carVisit : Fam := ⟨"CAR_VISIT", 0x808000, [(24, 0x10000)], .caravan, [
  ⟨"VISITS", 0, 32, .rw, .val 0, .val 0, .val 0, .val 0, .val 0, .kept, .kept, false, true⟩,
  ⟨"SINGLE_LEG_VISITS", 32, 32, .rw, .val 0, .val 0, .val 0, .val 0, .val 0, .kept, .kept, false, true⟩]⟩
/-- STN_SWEEP (04_accumulation.md R120). -/
def fam_stnSweep : Fam := ⟨"STN_SWEEP", 0x800118, [(24, 0x10000), (8, 0x1000)], .station, [
  ⟨"SWEEP_CYCLES", 0, 32, .rw, .val 0, .val 0, .val 0, .val 0, .val 0, .kept, .kept, false, true⟩,
  ⟨"SWEPT_ROWS", 32, 24, .rw, .val 0, .val 0, .val 0, .val 0, .val 0, .kept, .kept, false, true⟩,
  ⟨"MAX_WINDOWS", 56, 3, .rw, .val 0, .val 0, .val 0, .val 0, .val 0, .kept, .kept, false, true⟩]⟩
/-- STN_RSUM (04_accumulation.md R120). -/
def fam_stnRsum : Fam := ⟨"STN_RSUM", 0x800120, [(24, 0x10000), (8, 0x1000)], .station, [
  ⟨"EVICTIONS", 0, 24, .rw, .val 0, .val 0, .val 0, .val 0, .val 0, .kept, .kept, false, true⟩,
  ⟨"RESUMES", 24, 24, .rw, .val 0, .val 0, .val 0, .val 0, .val 0, .kept, .kept, false, true⟩,
  ⟨"BOUND_LAPSED", 48, 12, .rw, .val 0, .val 0, .val 0, .val 0, .val 0, .kept, .kept, false, true⟩]⟩
/-- STN_MERGE (04_accumulation.md R120). -/
def fam_stnMerge : Fam := ⟨"STN_MERGE", 0x800128, [(24, 0x10000), (8, 0x1000)], .station, [
  ⟨"MERGE_ROWS", 0, 32, .rw, .val 0, .val 0, .val 0, .val 0, .val 0, .kept, .kept, false, true⟩,
  ⟨"MERGE_RESTARTS", 32, 16, .rw, .val 0, .val 0, .val 0, .val 0, .val 0, .kept, .kept, false, true⟩]⟩
/-- DEV_LATDESC (05_errek_contract.md R137). -/
def fam_devLatdesc : Fam := ⟨"DEV_LATDESC", 0x20, [], .dev, [
  ⟨"BASE", 0, 32, .ro, .val 4096, .val 4096, .val 4096, .val 4096, .val 4096, .val 4096, .val 4096, false, false⟩,
  ⟨"ENTRIES", 32, 16, .ro, .val 21, .val 21, .val 21, .val 21, .val 21, .val 21, .val 21, false, false⟩,
  ⟨"VERSION", 48, 8, .ro, .val 1, .val 1, .val 1, .val 1, .val 1, .val 1, .val 1, false, false⟩]⟩
/-- PRT_PACE (05_errek_contract.md R153). -/
def fam_prtPace : Fam := ⟨"PRT_PACE", 0x300800, [(8, 0x1000)], .prt, [
  ⟨"PACE", 0, 64, .ro, .val 0, .val 0, .val 0, .val 0, .kept, .kept, .kept, false, false⟩]⟩
/-- PRT_HOLD (05_errek_contract.md R153). -/
def fam_prtHold : Fam := ⟨"PRT_HOLD", 0x300808, [(8, 0x1000)], .prt, [
  ⟨"HOLD_CYCLES", 0, 48, .rw, .val 0, .val 0, .val 0, .val 0, .kept, .kept, .kept, false, true⟩,
  ⟨"SKEW_MAX", 48, 5, .rw, .val 0, .val 0, .val 0, .val 0, .kept, .kept, .kept, false, true⟩,
  ⟨"LAST_SOURCE", 53, 4, .ro, .val 0, .val 0, .val 0, .val 0, .kept, .kept, .kept, false, true⟩]⟩
/-- PRT_HOLD_SRC (05_errek_contract.md R153). -/
def fam_prtHoldSrc : Fam := ⟨"PRT_HOLD_SRC", 0x300848, [(8, 0x1000), (10, 0x8)], .prt, [
  ⟨"EVENTS", 0, 32, .rw, .val 0, .val 0, .val 0, .val 0, .kept, .kept, .kept, false, true⟩,
  ⟨"CYCLES", 32, 32, .rw, .val 0, .val 0, .val 0, .val 0, .kept, .kept, .kept, false, true⟩]⟩
/-- PRT_LATENCY (05_errek_contract.md R153). -/
def fam_prtLatency : Fam := ⟨"PRT_LATENCY", 0x300810, [(8, 0x1000)], .prt, [
  ⟨"EXCESS_COMPLETIONS", 0, 32, .rw, .val 0, .val 0, .val 0, .val 0, .kept, .kept, .kept, false, true⟩,
  ⟨"PADDED_CLASSES", 32, 8, .ro, .val 0, .val 0, .val 0, .val 0, .kept, .kept, .kept, false, true⟩,
  ⟨"EXCESS_CLASSES", 40, 8, .ro, .val 0, .val 0, .val 0, .val 0, .kept, .kept, .kept, false, true⟩]⟩
/-- PRT_FAULT (05_errek_contract.md R153). -/
def fam_prtFault : Fam := ⟨"PRT_FAULT", 0x300818, [(8, 0x1000)], .prt, [
  ⟨"SUPPRESSED", 0, 16, .rw, .val 0, .val 0, .val 0, .val 0, .kept, .kept, .kept, false, true⟩]⟩
/-- PRT_ORDER_BASE (05_errek_contract.md R154). -/
def fam_prtOrderBase : Fam := ⟨"PRT_ORDER_BASE", 0x300820, [(8, 0x1000)], .prt, [
  ⟨"BASE", 0, 64, .ro, .val 0, .val 0, .val 0, .val 0, .kept, .kept, .kept, false, false⟩]⟩
/-- PRT_WDOG (05_errek_contract.md R154). -/
def fam_prtWdog : Fam := ⟨"PRT_WDOG", 0x300828, [(8, 0x1000)], .prt, [
  ⟨"LIMIT_S", 0, 16, .rw, .val 30, .val 30, .kept, .kept, .kept, .kept, .kept, false, false⟩,
  ⟨"EXPIRIES", 16, 16, .rw, .val 0, .val 0, .val 0, .val 0, .kept, .kept, .kept, false, true⟩]⟩
/-- CAR_QUEUE (05_errek_contract.md R155). -/
def fam_carQueue : Fam := ⟨"CAR_QUEUE", 0x809000, [(24, 0x10000), (64, 0x8)], .caravan, [
  ⟨"DEPTH", 0, 11, .ro, .val 0, .val 0, .val 0, .val 0, .val 0, .kept, .kept, false, true⟩,
  ⟨"ELASTIC", 11, 1, .ro, .val 0, .val 0, .val 0, .val 0, .val 0, .kept, .kept, false, true⟩,
  ⟨"OCCUPANCY", 12, 11, .ro, .val 0, .val 0, .val 0, .val 0, .val 0, .kept, .kept, false, true⟩,
  ⟨"BASE", 24, 20, .ro, .val 0, .val 0, .val 0, .val 0, .val 0, .kept, .kept, false, true⟩]⟩
/-- PRT_WIN_VA (07_memory_and_streams.md R226). -/
def fam_prtWinVa : Fam := ⟨"PRT_WIN_VA", 0x300000, [(8, 0x1000), (128, 0x10)], .prt, [
  ⟨"VALID", 0, 1, .ro, .val 0, .val 0, .kept, .kept, .kept, .kept, .kept, false, false⟩,
  ⟨"READ", 1, 1, .ro, .val 0, .val 0, .kept, .kept, .kept, .kept, .kept, false, false⟩,
  ⟨"WRITE", 2, 1, .ro, .val 0, .val 0, .kept, .kept, .kept, .kept, .kept, false, false⟩,
  ⟨"HUGE", 3, 1, .ro, .val 0, .val 0, .kept, .kept, .kept, .kept, .kept, false, false⟩,
  ⟨"VBASE", 21, 27, .ro, .val 0, .val 0, .kept, .kept, .kept, .kept, .kept, false, false⟩,
  ⟨"PAGES", 48, 16, .ro, .val 0, .val 0, .kept, .kept, .kept, .kept, .kept, false, false⟩]⟩
/-- PRT_WIN_PA (07_memory_and_streams.md R226). -/
def fam_prtWinPa : Fam := ⟨"PRT_WIN_PA", 0x300008, [(8, 0x1000), (128, 0x10)], .prt, [
  ⟨"PBASE", 21, 27, .ro, .val 0, .val 0, .kept, .kept, .kept, .kept, .kept, false, false⟩]⟩
/-- DRV_DEPOT (07_memory_and_streams.md R227). -/
def fam_drvDepot : Fam := ⟨"DRV_DEPOT", 0x80E000, [(24, 0x10000)], .caravan, [
  ⟨"STAGING", 0, 5, .ro, .val 0, .val 0, .val 0, .val 0, .val 0, .kept, .kept, false, true⟩,
  ⟨"LEDGER_BASE", 6, 10, .ro, .val 0, .val 0, .val 0, .val 0, .val 0, .kept, .kept, false, true⟩,
  ⟨"LEDGER_SIZE", 16, 10, .ro, .val 0, .val 0, .val 0, .val 0, .val 0, .kept, .kept, false, true⟩,
  ⟨"GCACHE", 26, 5, .ro, .val 0, .val 0, .val 0, .val 0, .val 0, .kept, .kept, false, true⟩,
  ⟨"SAVE", 31, 1, .ro, .val 0, .val 0, .val 0, .val 0, .val 0, .kept, .kept, false, true⟩,
  ⟨"FILL_HALF", 32, 1, .ro, .val 0, .val 0, .val 0, .val 0, .val 0, .kept, .kept, false, true⟩]⟩
/-- DRV_STATUS (07_memory_and_streams.md R227). -/
def fam_drvStatus : Fam := ⟨"DRV_STATUS", 0x80E008, [(24, 0x10000)], .caravan, [
  ⟨"OUTSTANDING", 0, 10, .ro, .val 0, .val 0, .val 0, .val 0, .val 0, .kept, .kept, false, true⟩,
  ⟨"SCANNED_AHEAD", 10, 11, .ro, .val 0, .val 0, .val 0, .val 0, .val 0, .kept, .kept, false, true⟩,
  ⟨"AT_MARK", 21, 1, .ro, .val 0, .val 0, .val 0, .val 0, .val 0, .kept, .kept, false, true⟩,
  ⟨"THREADS_BUSY", 22, 16, .ro, .val 0, .val 0, .val 0, .val 0, .val 0, .kept, .kept, false, true⟩]⟩
/-- DRV_XFER (07_memory_and_streams.md R227). -/
def fam_drvXfer : Fam := ⟨"DRV_XFER", 0x80E010, [(24, 0x10000)], .caravan, [
  ⟨"TRANSFERS", 0, 32, .rw, .val 0, .val 0, .val 0, .val 0, .val 0, .kept, .kept, false, true⟩,
  ⟨"DISCARDED", 32, 16, .rw, .val 0, .val 0, .val 0, .val 0, .val 0, .kept, .kept, false, true⟩,
  ⟨"TIMEOUTS", 48, 8, .rw, .val 0, .val 0, .val 0, .val 0, .val 0, .kept, .kept, false, true⟩,
  ⟨"LEDGER_SPILLS", 56, 8, .rw, .val 0, .val 0, .val 0, .val 0, .val 0, .kept, .kept, false, true⟩]⟩
/-- DRV_GATHER (07_memory_and_streams.md R227). -/
def fam_drvGather : Fam := ⟨"DRV_GATHER", 0x80E018, [(24, 0x10000)], .caravan, [
  ⟨"HITS", 0, 32, .rw, .val 0, .val 0, .val 0, .val 0, .val 0, .kept, .kept, false, true⟩,
  ⟨"MISSES", 32, 32, .rw, .val 0, .val 0, .val 0, .val 0, .val 0, .kept, .kept, false, true⟩]⟩
/-- DRV_CTRL (07_memory_and_streams.md R227). -/
def fam_drvCtrl : Fam := ⟨"DRV_CTRL", 0x80E020, [(24, 0x10000)], .caravan, [
  ⟨"TIMEOUT_US", 0, 16, .rwl, .val 50, .val 50, .kept, .kept, .kept, .kept, .kept, false, true⟩]⟩
/-- MSH_FAULT (08_mesh_pass_toll.md R258). -/
def fam_mshFault : Fam := ⟨"MSH_FAULT", 0xA00000, [(2, 0x1000)], .shared, [
  ⟨"FAILED_ROUTERS", 0, 32, .ro, .val 0, .val 0, .kept, .kept, .kept, .kept, .kept, false, false⟩]⟩
/-- MSH_LINKFAULT (08_mesh_pass_toll.md R258). -/
def fam_mshLinkfault : Fam := ⟨"MSH_LINKFAULT", 0xA00008, [(2, 0x1000)], .shared, [
  ⟨"H_LINKS", 0, 28, .ro, .val 0, .val 0, .kept, .kept, .kept, .kept, .kept, false, false⟩,
  ⟨"V_LINKS", 28, 24, .ro, .val 0, .val 0, .kept, .kept, .kept, .kept, .kept, false, false⟩]⟩
/-- MSH_MCAST (08_mesh_pass_toll.md R259). -/
def fam_mshMcast : Fam := ⟨"MSH_MCAST", 0xA00010, [(2, 0x1000)], .shared, [
  ⟨"STRAGGLER_US", 0, 16, .rwl, .val 8, .val 8, .kept, .kept, .kept, .kept, .kept, false, true⟩,
  ⟨"STRAGGLER_EVENTS", 16, 16, .rw, .val 0, .val 0, .val 0, .kept, .kept, .kept, .kept, false, true⟩,
  ⟨"LAST_RECEIVER", 32, 16, .ro, .val 0, .val 0, .val 0, .kept, .kept, .kept, .kept, false, true⟩]⟩
/-- MSH_ROUTER (08_mesh_pass_toll.md R259). -/
def fam_mshRouter : Fam := ⟨"MSH_ROUTER", 0xA00100, [(2, 0x1000), (32, 0x8)], .shared, [
  ⟨"FLITS", 0, 48, .rw, .val 0, .val 0, .val 0, .kept, .kept, .kept, .kept, false, true⟩,
  ⟨"DETOURED", 48, 16, .rw, .val 0, .val 0, .val 0, .kept, .kept, .kept, .kept, false, true⟩]⟩
/-- PAS_CHAN (08_mesh_pass_toll.md R259). -/
def fam_pasChan : Fam := ⟨"PAS_CHAN", 0xAC0000, [(16, 0x8)], .shared, [
  ⟨"STATE", 0, 2, .ro, .live, .live, .live, .live, .live, .live, .live, false, false⟩,
  ⟨"CORRECTED", 8, 8, .rw, .val 0, .val 0, .val 0, .kept, .kept, .kept, .kept, false, true⟩,
  ⟨"UNCORRECTED", 16, 8, .rw, .val 0, .val 0, .val 0, .kept, .kept, .kept, .kept, false, true⟩]⟩
/-- PAS_BEATS (08_mesh_pass_toll.md R259). -/
def fam_pasBeats : Fam := ⟨"PAS_BEATS", 0xAC0100, [(16, 0x8)], .shared, [
  ⟨"WE_BEATS", 0, 32, .rw, .val 0, .val 0, .val 0, .kept, .kept, .kept, .kept, false, true⟩,
  ⟨"EW_BEATS", 32, 32, .rw, .val 0, .val 0, .val 0, .kept, .kept, .kept, .kept, false, true⟩]⟩
/-- TOL_CFG (08_mesh_pass_toll.md R259). -/
def fam_tolCfg : Fam := ⟨"TOL_CFG", 0xA80000, [(104, 0x400)], .shared, [
  ⟨"BURST", 0, 13, .rwl, .val 256, .val 256, .kept, .kept, .kept, .kept, .kept, false, true⟩,
  ⟨"STARVE_NS", 16, 24, .rwl, .val 2000, .val 2000, .kept, .kept, .kept, .kept, .kept, false, true⟩]⟩
/-- TOL_MASK (08_mesh_pass_toll.md R259). -/
def fam_tolMask : Fam := ⟨"TOL_MASK", 0xA80008, [(104, 0x400)], .shared, [
  ⟨"MASKED", 0, 40, .ro, .live, .live, .live, .live, .live, .live, .live, false, false⟩]⟩
/-- TOL_STARVED (08_mesh_pass_toll.md R259). -/
def fam_tolStarved : Fam := ⟨"TOL_STARVED", 0xA80010, [(104, 0x400)], .shared, [
  ⟨"STARVED", 0, 40, .w1c, .val 0, .val 0, .val 0, .kept, .kept, .kept, .kept, false, true⟩]⟩
/-- TOL_REQ (08_mesh_pass_toll.md R259). -/
def fam_tolReq : Fam := ⟨"TOL_REQ", 0xA80100, [(104, 0x400), (40, 0x10)], .shared, [
  ⟨"GRANTS", 0, 32, .rw, .val 0, .val 0, .val 0, .kept, .kept, .kept, .kept, false, true⟩,
  ⟨"WAITS", 32, 32, .rw, .val 0, .val 0, .val 0, .kept, .kept, .kept, .kept, false, true⟩]⟩
/-- TOL_LONGEST (08_mesh_pass_toll.md R259). -/
def fam_tolLongest : Fam := ⟨"TOL_LONGEST", 0xA80108, [(104, 0x400), (40, 0x10)], .shared, [
  ⟨"LONGEST_NS", 0, 32, .rw, .val 0, .val 0, .val 0, .kept, .kept, .kept, .kept, false, true⟩]⟩
/-- STN_SPICE (09_training_engines.md R299). -/
def fam_stnSpice : Fam := ⟨"STN_SPICE", 0x800130, [(24, 0x10000), (8, 0x1000)], .station, [
  ⟨"LOADED", 0, 8, .ro, .val 0, .val 0, .val 0, .val 0, .val 0, .kept, .kept, false, true⟩,
  ⟨"HIGH_RANGE", 8, 32, .rw, .val 0, .val 0, .val 0, .val 0, .val 0, .kept, .kept, false, true⟩]⟩
/-- UPD_CFG (09_training_engines.md R299). -/
def fam_updCfg : Fam := ⟨"UPD_CFG", 0xE00000, [(8, 0x1000)], .ownPage, [
  ⟨"REPEAT_LIMIT", 0, 4, .rw, .val 3, .val 3, .kept, .kept, .kept, .kept, .kept, false, false⟩]⟩
/-- UPD_SEED (09_training_engines.md R299). -/
def fam_updSeed : Fam := ⟨"UPD_SEED", 0xE00008, [(8, 0x1000)], .ownPage, [
  ⟨"SEED", 0, 64, .rw, .val 0, .val 0, .kept, .kept, .kept, .kept, .kept, false, false⟩]⟩
/-- UPD_STEP (09_training_engines.md R299). -/
def fam_updStep : Fam := ⟨"UPD_STEP", 0xE00010, [(8, 0x1000)], .ownPage, [
  ⟨"STEP", 0, 32, .ro, .val 0, .val 0, .kept, .kept, .kept, .kept, .kept, false, false⟩,
  ⟨"TAG", 32, 32, .ro, .val 0, .val 0, .kept, .kept, .kept, .kept, .kept, false, false⟩]⟩
/-- UPD_NORM (09_training_engines.md R299). -/
def fam_updNorm : Fam := ⟨"UPD_NORM", 0xE00018, [(8, 0x1000)], .ownPage, [
  ⟨"NORM", 0, 32, .ro, .val 0, .val 0, .kept, .kept, .kept, .kept, .kept, false, false⟩,
  ⟨"NORM_VALID", 32, 1, .ro, .val 0, .val 0, .kept, .kept, .kept, .kept, .kept, false, false⟩]⟩
/-- UPD_COMMIT (09_training_engines.md R299). -/
def fam_updCommit : Fam := ⟨"UPD_COMMIT", 0xE00020, [(8, 0x1000)], .ownPage, [
  ⟨"LIVE", 0, 1, .ro, .val 0, .val 0, .kept, .kept, .kept, .kept, .kept, false, false⟩,
  ⟨"STOPPED", 1, 1, .ro, .val 0, .val 0, .kept, .kept, .kept, .kept, .kept, false, false⟩,
  ⟨"OUTCOME", 2, 3, .ro, .val 0, .val 0, .kept, .kept, .kept, .kept, .kept, false, false⟩,
  ⟨"REFUSED", 16, 16, .rw, .val 0, .val 0, .val 0, .val 0, .kept, .kept, .kept, false, true⟩,
  ⟨"REPEATS", 32, 16, .rw, .val 0, .val 0, .val 0, .val 0, .kept, .kept, .kept, false, true⟩]⟩
/-- UPD_RANGE (09_training_engines.md R299). -/
def fam_updRange : Fam := ⟨"UPD_RANGE", 0xE00028, [(8, 0x1000)], .ownPage, [
  ⟨"OVF_COUNT", 0, 24, .rw, .val 0, .val 0, .val 0, .val 0, .kept, .kept, .kept, false, true⟩,
  ⟨"UNF_COUNT", 24, 24, .rw, .val 0, .val 0, .val 0, .val 0, .kept, .kept, .kept, false, true⟩]⟩
/-- UPD_PAIR (09_training_engines.md R299). -/
def fam_updPair : Fam := ⟨"UPD_PAIR", 0xE00100, [(8, 0x1000), (8, 0x8)], .ownPage, [
  ⟨"VALID", 0, 1, .ro, .val 0, .val 0, .kept, .kept, .kept, .kept, .kept, false, false⟩,
  ⟨"BASE", 21, 27, .ro, .val 0, .val 0, .kept, .kept, .kept, .kept, .kept, false, false⟩,
  ⟨"PAGES", 48, 16, .ro, .val 0, .val 0, .kept, .kept, .kept, .kept, .kept, false, false⟩]⟩
/-- WGH_CFG (10_weighhouse.md R327). -/
def fam_wghCfg : Fam := ⟨"WGH_CFG", 0xC00000, [(8, 0x1000)], .ownPage, [
  ⟨"DEADLINE_MS", 0, 16, .rw, .val 20, .val 20, .kept, .kept, .kept, .kept, .kept, false, true⟩,
  ⟨"JOB", 16, 16, .rw, .val 0, .val 0, .kept, .kept, .kept, .kept, .kept, false, false⟩]⟩
/-- WGH_GROUP (10_weighhouse.md R327). -/
def fam_wghGroup : Fam := ⟨"WGH_GROUP", 0xC00008, [(8, 0x1000)], .ownPage, [
  ⟨"BASE", 0, 48, .rw, .val 0, .val 0, .kept, .kept, .kept, .kept, .kept, false, false⟩]⟩
/-- WGH_GROUP_CTL (10_weighhouse.md R327). -/
def fam_wghGroupCtl : Fam := ⟨"WGH_GROUP_CTL", 0xC00010, [(8, 0x1000)], .ownPage, [
  ⟨"COUNT", 0, 13, .rw, .val 0, .val 0, .kept, .kept, .kept, .kept, .kept, false, false⟩,
  ⟨"SELF", 16, 12, .rw, .val 0, .val 0, .kept, .kept, .kept, .kept, .kept, false, false⟩,
  ⟨"PENDING_EPOCH", 32, 16, .rw, .val 0, .val 0, .kept, .kept, .kept, .kept, .kept, false, false⟩,
  ⟨"PENDING_VALID", 48, 1, .rw, .val 0, .val 0, .kept, .kept, .kept, .kept, .kept, false, false⟩]⟩
/-- WGH_EPOCH (10_weighhouse.md R327). -/
def fam_wghEpoch : Fam := ⟨"WGH_EPOCH", 0xC00018, [(8, 0x1000)], .ownPage, [
  ⟨"EPOCH", 0, 16, .ro, .val 0, .val 0, .kept, .kept, .kept, .kept, .kept, false, false⟩,
  ⟨"GROUP_SIZE", 16, 13, .ro, .val 0, .val 0, .kept, .kept, .kept, .kept, .kept, false, false⟩,
  ⟨"RANK", 29, 12, .ro, .val 0, .val 0, .kept, .kept, .kept, .kept, .kept, false, false⟩]⟩
/-- WGH_WIDE_BASE (10_weighhouse.md R327). -/
def fam_wghWideBase : Fam := ⟨"WGH_WIDE_BASE", 0xC00020, [(8, 0x1000)], .ownPage, [
  ⟨"BASE", 0, 48, .rw, .val 0, .val 0, .kept, .kept, .kept, .kept, .kept, false, false⟩]⟩
/-- WGH_WIDE_CTL (10_weighhouse.md R327). -/
def fam_wghWideCtl : Fam := ⟨"WGH_WIDE_CTL", 0xC00028, [(8, 0x1000)], .ownPage, [
  ⟨"COUNT", 0, 16, .rw, .val 0, .val 0, .kept, .kept, .kept, .kept, .kept, false, false⟩,
  ⟨"FLAG", 16, 12, .rw, .val 0, .val 0, .kept, .kept, .kept, .kept, .kept, false, false⟩]⟩
/-- WGH_SKIP (10_weighhouse.md R327). -/
def fam_wghSkip : Fam := ⟨"WGH_SKIP", 0xC00030, [(8, 0x1000)], .ownPage, [
  ⟨"BASE", 0, 48, .rw, .val 0, .val 0, .kept, .kept, .kept, .kept, .kept, false, false⟩,
  ⟨"VALID", 48, 1, .rw, .val 0, .val 0, .kept, .kept, .kept, .kept, .kept, false, false⟩]⟩
/-- WGH_SHARE (10_weighhouse.md R327). -/
def fam_wghShare : Fam := ⟨"WGH_SHARE", 0xC00038, [(8, 0x1000)], .ownPage, [
  ⟨"SLOTS", 0, 4, .ro, .val 0, .val 0, .kept, .kept, .kept, .kept, .kept, false, false⟩,
  ⟨"HALF", 4, 1, .ro, .val 0, .val 0, .kept, .kept, .kept, .kept, .kept, false, false⟩]⟩
/-- WGH_DIGEST_TX (10_weighhouse.md R327). -/
def fam_wghDigestTx : Fam := ⟨"WGH_DIGEST_TX", 0xC00040, [(8, 0x1000)], .ownPage, [
  ⟨"DIGEST", 0, 64, .rw, .val 0, .val 0, .val 0, .val 0, .kept, .kept, .kept, false, true⟩]⟩
/-- WGH_DIGEST_RX (10_weighhouse.md R327). -/
def fam_wghDigestRx : Fam := ⟨"WGH_DIGEST_RX", 0xC00048, [(8, 0x1000)], .ownPage, [
  ⟨"DIGEST", 0, 64, .rw, .val 0, .val 0, .val 0, .val 0, .kept, .kept, .kept, false, true⟩]⟩
/-- WGH_STEP_TX (10_weighhouse.md R327). -/
def fam_wghStepTx : Fam := ⟨"WGH_STEP_TX", 0xC00050, [(8, 0x1000)], .ownPage, [
  ⟨"DIGEST", 0, 64, .ro, .val 0, .val 0, .val 0, .val 0, .kept, .kept, .kept, false, true⟩]⟩
/-- WGH_STEP_RX (10_weighhouse.md R327). -/
def fam_wghStepRx : Fam := ⟨"WGH_STEP_RX", 0xC00058, [(8, 0x1000)], .ownPage, [
  ⟨"DIGEST", 0, 64, .ro, .val 0, .val 0, .val 0, .val 0, .kept, .kept, .kept, false, true⟩]⟩
/-- WGH_COUNT (10_weighhouse.md R327). -/
def fam_wghCount : Fam := ⟨"WGH_COUNT", 0xC00060, [(8, 0x1000)], .ownPage, [
  ⟨"STALE", 0, 16, .rw, .val 0, .val 0, .val 0, .val 0, .kept, .kept, .kept, false, true⟩,
  ⟨"DUPLICATES", 16, 16, .rw, .val 0, .val 0, .val 0, .val 0, .kept, .kept, .kept, false, true⟩,
  ⟨"MALFORMED", 32, 16, .rw, .val 0, .val 0, .val 0, .val 0, .kept, .kept, .kept, false, true⟩,
  ⟨"MISSED", 48, 16, .rw, .val 0, .val 0, .val 0, .val 0, .kept, .kept, .kept, false, true⟩]⟩
/-- WGH_RANGE (10_weighhouse.md R327). -/
def fam_wghRange : Fam := ⟨"WGH_RANGE", 0xC00068, [(8, 0x1000)], .ownPage, [
  ⟨"OVF_COUNT", 0, 24, .rw, .val 0, .val 0, .val 0, .val 0, .kept, .kept, .kept, false, true⟩,
  ⟨"UNF_COUNT", 24, 24, .rw, .val 0, .val 0, .val 0, .val 0, .kept, .kept, .kept, false, true⟩,
  ⟨"NONFINITE_CHUNKS", 48, 16, .rw, .val 0, .val 0, .val 0, .val 0, .kept, .kept, .kept, false, true⟩]⟩
/-- LNK_STATUS (11_torus_links.md R355). -/
def fam_lnkStatus : Fam := ⟨"LNK_STATUS", 0xD00000, [(6, 0x10000)], .port, [
  ⟨"STATE", 0, 4, .ro, .live, .live, .live, .live, .live, .live, .live, false, false⟩,
  ⟨"WIDTH", 4, 5, .ro, .live, .live, .live, .live, .live, .live, .live, false, false⟩,
  ⟨"REVERSED", 9, 1, .ro, .live, .live, .live, .live, .live, .live, .live, false, false⟩,
  ⟨"ENCRYPTED", 10, 1, .ro, .live, .live, .live, .live, .live, .live, .live, false, false⟩,
  ⟨"BEACON", 11, 1, .ro, .val 0, .val 0, .val 0, .kept, .kept, .val 0, .kept, false, true⟩,
  ⟨"PEER", 12, 15, .ro, .val 0, .val 0, .val 0, .kept, .kept, .val 0, .kept, false, true⟩,
  ⟨"PEER_PORT", 27, 3, .ro, .val 0, .val 0, .val 0, .kept, .kept, .val 0, .kept, false, true⟩]⟩
/-- LNK_CTRL (11_torus_links.md R355). -/
def fam_lnkCtrl : Fam := ⟨"LNK_CTRL", 0xD00008, [(6, 0x10000)], .port, [
  ⟨"ENABLE", 0, 1, .rwl, .val 1, .val 1, .kept, .kept, .kept, .kept, .kept, false, false⟩,
  ⟨"SEC_MODE", 1, 2, .rwl, .val 0, .val 0, .kept, .kept, .kept, .kept, .kept, false, false⟩,
  ⟨"RETRY_NS", 3, 16, .rwl, .val 2000, .val 2000, .kept, .kept, .kept, .kept, .kept, false, true⟩,
  ⟨"RETRY_LIMIT", 19, 4, .rwl, .val 8, .val 8, .kept, .kept, .kept, .kept, .kept, false, true⟩]⟩
/-- LNK_ERR (11_torus_links.md R355). -/
def fam_lnkErr : Fam := ⟨"LNK_ERR", 0xD00010, [(6, 0x10000)], .port, [
  ⟨"CRC_ERRORS", 0, 16, .rw, .val 0, .val 0, .val 0, .kept, .kept, .kept, .kept, false, true⟩,
  ⟨"RETRIES", 16, 16, .rw, .val 0, .val 0, .val 0, .kept, .kept, .kept, .kept, false, true⟩,
  ⟨"ISOLATIONS", 32, 8, .rw, .val 0, .val 0, .val 0, .kept, .kept, .kept, .kept, false, true⟩,
  ⟨"TAG_FAILS", 40, 8, .rw, .val 0, .val 0, .val 0, .kept, .kept, .kept, .kept, false, true⟩,
  ⟨"FEC_UNCORR", 48, 16, .rw, .val 0, .val 0, .val 0, .kept, .kept, .kept, .kept, false, true⟩]⟩
/-- LNK_DROP (11_torus_links.md R355). -/
def fam_lnkDrop : Fam := ⟨"LNK_DROP", 0xD00018, [(6, 0x10000)], .port, [
  ⟨"MALFORMED", 0, 16, .rw, .val 0, .val 0, .val 0, .kept, .kept, .kept, .kept, false, true⟩,
  ⟨"WINDOW", 16, 16, .rw, .val 0, .val 0, .val 0, .kept, .kept, .kept, .kept, false, true⟩,
  ⟨"UNROUTABLE", 32, 16, .rw, .val 0, .val 0, .val 0, .kept, .kept, .kept, .kept, false, true⟩,
  ⟨"POISONED", 48, 16, .rw, .val 0, .val 0, .val 0, .kept, .kept, .kept, .kept, false, true⟩]⟩
/-- LNK_WIN_A (11_torus_links.md R355). -/
def fam_lnkWinA : Fam := ⟨"LNK_WIN_A", 0xD00100, [(6, 0x10000), (32, 0x10)], .port, [
  ⟨"VALID", 0, 1, .ro, .val 0, .val 0, .kept, .kept, .kept, .kept, .kept, false, false⟩,
  ⟨"KINDS", 1, 7, .ro, .val 0, .val 0, .kept, .kept, .kept, .kept, .kept, false, false⟩,
  ⟨"PARTITION", 8, 3, .ro, .val 0, .val 0, .kept, .kept, .kept, .kept, .kept, false, false⟩,
  ⟨"SRC_MATCH", 11, 15, .ro, .val 0, .val 0, .kept, .kept, .kept, .kept, .kept, false, false⟩,
  ⟨"SRC_MASK", 26, 15, .ro, .val 0, .val 0, .kept, .kept, .kept, .kept, .kept, false, false⟩]⟩
/-- LNK_WIN_B (11_torus_links.md R355). -/
def fam_lnkWinB : Fam := ⟨"LNK_WIN_B", 0xD00108, [(6, 0x10000), (32, 0x10)], .port, [
  ⟨"VBASE", 21, 27, .ro, .val 0, .val 0, .kept, .kept, .kept, .kept, .kept, false, false⟩,
  ⟨"PAGES", 48, 16, .ro, .val 0, .val 0, .kept, .kept, .kept, .kept, .kept, false, false⟩]⟩
/-- LNK_NODE (11_torus_links.md R355). -/
def fam_lnkNode : Fam := ⟨"LNK_NODE", 0xD60000, [], .shared, [
  ⟨"SELF", 0, 15, .ro, .val 0, .val 0, .kept, .kept, .kept, .kept, .kept, false, false⟩,
  ⟨"XSIZE_M1", 15, 5, .ro, .val 0, .val 0, .kept, .kept, .kept, .kept, .kept, false, false⟩,
  ⟨"YSIZE_M1", 20, 5, .ro, .val 0, .val 0, .kept, .kept, .kept, .kept, .kept, false, false⟩,
  ⟨"ZSIZE_M1", 25, 5, .ro, .val 0, .val 0, .kept, .kept, .kept, .kept, .kept, false, false⟩]⟩
/-- LNK_DETOUR (11_torus_links.md R355). -/
def fam_lnkDetour : Fam := ⟨"LNK_DETOUR", 0xD60100, [(64, 0x8)], .shared, [
  ⟨"VALID", 0, 1, .ro, .val 0, .val 0, .kept, .kept, .kept, .kept, .kept, false, false⟩,
  ⟨"DEST_MATCH", 1, 15, .ro, .val 0, .val 0, .kept, .kept, .kept, .kept, .kept, false, false⟩,
  ⟨"DEST_MASK", 16, 15, .ro, .val 0, .val 0, .kept, .kept, .kept, .kept, .kept, false, false⟩,
  ⟨"WAYPOINT", 31, 15, .ro, .val 0, .val 0, .kept, .kept, .kept, .kept, .kept, false, false⟩]⟩
/-- LNK_TXQ (11_torus_links.md R355). -/
def fam_lnkTxq : Fam := ⟨"LNK_TXQ", 0xD60800, [(8, 0x8)], .txq, [
  ⟨"SENDQ", 0, 48, .rw, .val 0, .val 0, .kept, .kept, .kept, .kept, .kept, false, false⟩]⟩
/-- SEAL_MAN (13_dependability.md R406). -/
def fam_sealMan : Fam := ⟨"SEAL_MAN", 0x101000, [(8, 0x100)], .ownPage, [
  ⟨"COMPLETED", 0, 32, .ro, .val 0, .val 0, .kept, .kept, .kept, .kept, .kept, false, false⟩,
  ⟨"SUSPENDED", 32, 1, .ro, .val 0, .val 0, .kept, .kept, .kept, .kept, .kept, false, false⟩,
  ⟨"RESUME", 33, 1, .w1s, .val 0, .val 0, .val 0, .val 0, .val 0, .val 0, .val 0, false, false⟩,
  ⟨"WITHDRAW", 34, 1, .w1s, .val 0, .val 0, .val 0, .val 0, .val 0, .val 0, .val 0, false, false⟩,
  ⟨"PARTNER_ACK", 35, 1, .rw, .val 0, .val 0, .kept, .kept, .kept, .kept, .kept, false, false⟩,
  ⟨"REEXEC_LIMIT", 36, 4, .rw, .val 3, .val 3, .kept, .kept, .kept, .kept, .kept, false, false⟩,
  ⟨"REEXECS", 40, 16, .rw, .val 0, .val 0, .kept, .val 0, .kept, .kept, .kept, false, false⟩,
  ⟨"RELOCATIONS", 56, 8, .rw, .val 0, .val 0, .kept, .val 0, .kept, .kept, .kept, false, false⟩]⟩
/-- SEAL_ECC (13_dependability.md R406). -/
def fam_sealEcc : Fam := ⟨"SEAL_ECC", 0x100200, [(2, 0x8)], .shared, [
  ⟨"CORR1", 0, 24, .rw, .val 0, .val 0, .kept, .kept, .kept, .kept, .kept, false, false⟩,
  ⟨"CORR2", 24, 16, .rw, .val 0, .val 0, .kept, .kept, .kept, .kept, .kept, false, false⟩,
  ⟨"UNCORR", 40, 16, .rw, .val 0, .val 0, .kept, .kept, .kept, .kept, .kept, false, false⟩,
  ⟨"REPAIRS", 56, 8, .rw, .val 0, .val 0, .kept, .kept, .kept, .kept, .kept, false, false⟩]⟩
/-- HBM_ECC (13_dependability.md R406). -/
def fam_hbmEcc : Fam := ⟨"HBM_ECC", 0xB00000, [(16, 0x10000)], .shared, [
  ⟨"CORR1", 0, 24, .rw, .val 0, .val 0, .kept, .kept, .kept, .kept, .kept, false, false⟩,
  ⟨"CORR2", 24, 16, .rw, .val 0, .val 0, .kept, .kept, .kept, .kept, .kept, false, false⟩,
  ⟨"UNCORR", 40, 16, .rw, .val 0, .val 0, .kept, .kept, .kept, .kept, .kept, false, false⟩,
  ⟨"REPAIRS", 56, 8, .rw, .val 0, .val 0, .kept, .kept, .kept, .kept, .kept, false, false⟩]⟩
/-- CSG_CFG (13_dependability.md R406). -/
def fam_csgCfg : Fam := ⟨"CSG_CFG", 0xF00000, [(8, 0x1000)], .ownPage, [
  ⟨"ENABLE", 0, 1, .rw, .val 0, .val 0, .kept, .kept, .kept, .kept, .kept, false, false⟩,
  ⟨"JOBWIDE", 1, 1, .rw, .val 0, .val 0, .kept, .kept, .kept, .kept, .kept, false, false⟩,
  ⟨"VERIFY", 2, 1, .rw, .val 1, .val 1, .kept, .kept, .kept, .kept, .kept, false, false⟩,
  ⟨"HOST_EVERY", 3, 4, .rw, .val 0, .val 0, .kept, .kept, .kept, .kept, .kept, false, false⟩,
  ⟨"HOST_FEED", 7, 8, .rw, .val 255, .val 255, .kept, .kept, .kept, .kept, .kept, false, false⟩,
  ⟨"MIN_S", 15, 16, .rw, .val 60, .val 60, .kept, .kept, .kept, .kept, .kept, false, false⟩,
  ⟨"AT_VALID", 31, 1, .rw, .val 0, .val 0, .kept, .kept, .kept, .kept, .kept, false, false⟩,
  ⟨"AT_STEP", 32, 32, .rw, .val 0, .val 0, .kept, .kept, .kept, .kept, .kept, false, false⟩]⟩
/-- CSG_LIST (13_dependability.md R406). -/
def fam_csgList : Fam := ⟨"CSG_LIST", 0xF00008, [(8, 0x1000)], .ownPage, [
  ⟨"BASE", 0, 48, .rw, .val 0, .val 0, .kept, .kept, .kept, .kept, .kept, false, false⟩,
  ⟨"COUNT", 48, 7, .rw, .val 0, .val 0, .kept, .kept, .kept, .kept, .kept, false, false⟩]⟩
/-- CSG_HOSTBUF (13_dependability.md R406). -/
def fam_csgHostbuf : Fam := ⟨"CSG_HOSTBUF", 0xF00010, [(8, 0x1000)], .ownPage, [
  ⟨"BASE", 0, 48, .rw, .val 0, .val 0, .kept, .kept, .kept, .kept, .kept, false, false⟩]⟩
/-- CSG_AREA (13_dependability.md R406). -/
def fam_csgArea : Fam := ⟨"CSG_AREA", 0xF00018, [(8, 0x1000)], .ownPage, [
  ⟨"BASE", 0, 48, .rw, .val 0, .val 0, .kept, .kept, .kept, .kept, .kept, false, false⟩,
  ⟨"SLOT_GIB", 48, 16, .rw, .val 0, .val 0, .kept, .kept, .kept, .kept, .kept, false, false⟩]⟩
/-- CSG_PEER (13_dependability.md R406). -/
def fam_csgPeer : Fam := ⟨"CSG_PEER", 0xF00020, [(8, 0x1000), (4, 0x8)], .ownPage, [
  ⟨"VALID", 0, 1, .rw, .val 0, .val 0, .kept, .kept, .kept, .kept, .kept, false, false⟩,
  ⟨"NODE", 1, 15, .rw, .val 0, .val 0, .kept, .kept, .kept, .kept, .kept, false, false⟩,
  ⟨"PARTITION", 16, 3, .rw, .val 0, .val 0, .kept, .kept, .kept, .kept, .kept, false, false⟩,
  ⟨"FEED", 19, 8, .ro, .val 255, .val 255, .kept, .kept, .kept, .kept, .kept, false, false⟩]⟩
/-- CSG_STATUS (13_dependability.md R406). -/
def fam_csgStatus : Fam := ⟨"CSG_STATUS", 0xF00040, [(8, 0x1000)], .ownPage, [
  ⟨"SECURED_STEP", 0, 32, .ro, .val 0, .val 0, .kept, .kept, .kept, .kept, .kept, false, false⟩,
  ⟨"SECURED_VALID", 32, 1, .ro, .val 0, .val 0, .kept, .kept, .kept, .kept, .kept, false, false⟩,
  ⟨"CO_FED", 33, 1, .ro, .val 0, .val 0, .kept, .kept, .kept, .kept, .kept, false, false⟩,
  ⟨"STATE", 34, 3, .ro, .val 0, .val 0, .val 0, .val 0, .kept, .kept, .kept, false, false⟩,
  ⟨"REQUEST", 37, 1, .ro, .val 0, .val 0, .val 0, .val 0, .kept, .kept, .kept, false, false⟩,
  ⟨"NOW", 38, 1, .w1s, .val 0, .val 0, .val 0, .val 0, .val 0, .val 0, .val 0, false, false⟩,
  ⟨"RESTORE", 39, 1, .w1s, .val 0, .val 0, .val 0, .val 0, .val 0, .val 0, .val 0, false, false⟩,
  ⟨"SOURCE", 40, 2, .rw, .val 0, .val 0, .kept, .kept, .kept, .kept, .kept, false, false⟩,
  ⟨"SLOT", 42, 1, .rw, .val 0, .val 0, .kept, .kept, .kept, .kept, .kept, false, false⟩,
  ⟨"FROM_HOST", 43, 1, .rw, .val 0, .val 0, .kept, .kept, .kept, .kept, .kept, false, false⟩,
  ⟨"TAIL", 44, 1, .rw, .val 0, .val 0, .kept, .kept, .kept, .kept, .kept, false, false⟩]⟩
/-- CSG_COST (13_dependability.md R406). -/
def fam_csgCost : Fam := ⟨"CSG_COST", 0xF00048, [(8, 0x1000)], .ownPage, [
  ⟨"COST_MS", 0, 24, .ro, .val 0, .val 0, .kept, .kept, .kept, .kept, .kept, false, false⟩,
  ⟨"INTERVAL_S", 24, 24, .ro, .val 0, .val 0, .kept, .kept, .kept, .kept, .kept, false, false⟩,
  ⟨"FAILED", 48, 8, .rw, .val 0, .val 0, .val 0, .val 0, .kept, .kept, .kept, false, false⟩,
  ⟨"REJECTED", 56, 8, .rw, .val 0, .val 0, .val 0, .val 0, .kept, .kept, .kept, false, false⟩]⟩
/-- CSG_RISK (13_dependability.md R406). -/
def fam_csgRisk : Fam := ⟨"CSG_RISK", 0xF08000, [], .shared, [
  ⟨"MULT", 0, 10, .ro, .val 16, .val 16, .kept, .kept, .kept, .kept, .kept, false, false⟩,
  ⟨"THRESHOLD", 10, 10, .rwl, .val 64, .val 64, .kept, .kept, .kept, .kept, .kept, false, false⟩,
  ⟨"W_CE", 20, 4, .rwl, .val 4, .val 4, .kept, .kept, .kept, .kept, .kept, false, false⟩,
  ⟨"W_LR", 24, 4, .rwl, .val 4, .val 4, .kept, .kept, .kept, .kept, .kept, false, false⟩,
  ⟨"W_DR", 28, 4, .rwl, .val 4, .val 4, .kept, .kept, .kept, .kept, .kept, false, false⟩,
  ⟨"W_TH", 32, 4, .rwl, .val 4, .val 4, .kept, .kept, .kept, .kept, .kept, false, false⟩,
  ⟨"MPRIOR_H", 36, 16, .rwl, .val 10000, .val 10000, .kept, .kept, .kept, .kept, .kept, false, false⟩,
  ⟨"FAILURES", 52, 8, .ro, .val 0, .val 0, .kept, .kept, .kept, .kept, .kept, false, false⟩]⟩
/-- CPR_CAUSE (14_clocks_power_reset.md R433). -/
def fam_cprCause : Fam := ⟨"CPR_CAUSE", 0x200000, [], .shared, [
  ⟨"LAST", 0, 4, .ro, .val 1, .val 2, .val 3, .kept, .kept, .kept, .kept, false, false⟩,
  ⟨"WRST_REASON", 4, 4, .ro, .val 0, .val 0, .cause, .kept, .kept, .kept, .kept, false, false⟩]⟩
/-- CPR_PSTATE (14_clocks_power_reset.md R433). -/
def fam_cprPstate : Fam := ⟨"CPR_PSTATE", 0x200008, [], .shared, [
  ⟨"DEVICE", 0, 2, .ro, .live, .live, .live, .live, .live, .live, .live, false, false⟩,
  ⟨"P3_REQ", 2, 1, .w1s, .val 0, .val 0, .val 0, .val 0, .val 0, .val 0, .val 0, false, false⟩,
  ⟨"P3_REFUSED", 3, 1, .w1c, .val 0, .val 0, .val 0, .kept, .kept, .kept, .kept, false, false⟩,
  ⟨"PART_STATE", 16, 16, .ro, .live, .live, .live, .live, .live, .live, .live, false, false⟩,
  ⟨"P2_IDLE_US", 32, 16, .rw, .val 1000, .val 1000, .kept, .kept, .kept, .kept, .kept, false, false⟩]⟩
/-- CPR_CLK (14_clocks_power_reset.md R433). -/
def fam_cprClk : Fam := ⟨"CPR_CLK", 0x200010, [], .shared, [
  ⟨"WEST_MHZ", 0, 11, .rwl, .val 1600, .val 1600, .kept, .kept, .kept, .kept, .kept, false, false⟩,
  ⟨"EAST_MHZ", 16, 11, .rwl, .val 1600, .val 1600, .kept, .kept, .kept, .kept, .kept, false, false⟩,
  ⟨"LINK_REF_LOST", 32, 1, .ro, .live, .live, .live, .live, .live, .live, .live, false, false⟩,
  ⟨"PCIE_REF_LOST", 33, 1, .ro, .live, .live, .live, .live, .live, .live, .live, false, false⟩,
  ⟨"REF_EVENTS", 40, 16, .rw, .val 0, .val 0, .val 0, .kept, .kept, .kept, .kept, false, false⟩]⟩
/-- CPR_CAP (14_clocks_power_reset.md R433). -/
def fam_cprCap : Fam := ⟨"CPR_CAP", 0x200018, [], .shared, [
  ⟨"CAP_W", 0, 13, .rwl, .val 4600, .val 4600, .kept, .kept, .kept, .kept, .kept, false, false⟩,
  ⟨"POWER_W", 16, 13, .ro, .live, .live, .live, .live, .live, .live, .live, false, false⟩,
  ⟨"THROTTLE_C", 32, 8, .rwl, .val 95, .val 95, .kept, .kept, .kept, .kept, .kept, false, false⟩,
  ⟨"HOLD_C", 40, 8, .rwl, .val 105, .val 105, .kept, .kept, .kept, .kept, .kept, false, false⟩,
  ⟨"TJ_MAX", 48, 8, .ro, .live, .live, .live, .live, .live, .live, .live, false, false⟩]⟩
/-- CPR_STRETCH (14_clocks_power_reset.md R433). -/
def fam_cprStretch : Fam := ⟨"CPR_STRETCH", 0x200040, [(2, 0x8)], .shared, [
  ⟨"DROOP_STRETCHES", 0, 24, .rw, .val 0, .val 0, .val 0, .kept, .kept, .kept, .kept, false, false⟩,
  ⟨"THERMAL_STRETCHES", 24, 24, .rw, .val 0, .val 0, .val 0, .kept, .kept, .kept, .kept, false, false⟩,
  ⟨"FAST_STRETCH_US", 48, 16, .rw, .val 0, .val 0, .val 0, .kept, .kept, .kept, .kept, false, false⟩]⟩
/-- CPR_SHARE (14_clocks_power_reset.md R433). -/
def fam_cprShare : Fam := ⟨"CPR_SHARE", 0x200100, [(8, 0x8)], .share, [
  ⟨"SHARE_W", 0, 12, .ro, .val 0, .val 0, .kept, .kept, .kept, .kept, .kept, false, false⟩,
  ⟨"ESTIMATE_W", 16, 12, .ro, .live, .live, .live, .live, .live, .live, .live, false, false⟩,
  ⟨"CAP_HOLD_CYCLES", 32, 32, .rw, .val 0, .val 0, .val 0, .val 0, .kept, .kept, .kept, false, false⟩]⟩
/-- PRT_GRANT (15_hosts_config_debug.md R467). -/
def fam_prtGrant : Fam := ⟨"PRT_GRANT", 0x300900, [(8, 0x1000)], .prt, [
  ⟨"CARAVANS", 0, 24, .ro, .image, .image, .kept, .kept, .kept, .kept, .kept, false, false⟩,
  ⟨"FUNCTIONS", 24, 8, .ro, .image, .image, .kept, .kept, .kept, .kept, .kept, false, false⟩,
  ⟨"GRANTS", 32, 4, .ro, .image, .image, .kept, .kept, .kept, .kept, .kept, false, false⟩]⟩
/-- HQ_RING_BASE (15_hosts_config_debug.md R467). -/
def fam_hqRingBase : Fam := ⟨"HQ_RING_BASE", 0x480000, [(8, 0x1000), (8, 0x20)], .func, [
  ⟨"BASE", 0, 48, .rw, .val 0, .val 0, .kept, .kept, .kept, .kept, .val 0, false, false⟩,
  ⟨"LOG2_DEPTH", 48, 4, .rw, .val 0, .val 0, .kept, .kept, .kept, .kept, .val 0, false, false⟩,
  ⟨"ENABLE", 63, 1, .rw, .val 0, .val 0, .kept, .kept, .kept, .kept, .val 0, false, false⟩]⟩
/-- HQ_RING_CTL (15_hosts_config_debug.md R467). -/
def fam_hqRingCtl : Fam := ⟨"HQ_RING_CTL", 0x480008, [(8, 0x1000), (8, 0x20)], .func, [
  ⟨"TAIL", 0, 16, .rw, .val 0, .val 0, .kept, .kept, .kept, .kept, .val 0, false, false⟩,
  ⟨"HEAD", 16, 16, .ro, .val 0, .val 0, .kept, .kept, .kept, .kept, .val 0, false, false⟩,
  ⟨"LAST_SEQ", 32, 31, .ro, .val 0, .val 0, .kept, .kept, .kept, .kept, .val 0, false, false⟩,
  ⟨"STOPPED", 63, 1, .ro, .val 0, .val 0, .kept, .kept, .kept, .kept, .val 0, false, false⟩]⟩
/-- HQ_CPL (15_hosts_config_debug.md R467). -/
def fam_hqCpl : Fam := ⟨"HQ_CPL", 0x400000, [(8, 0x1000)], .ownPage, [
  ⟨"BASE", 0, 48, .rw, .val 0, .val 0, .kept, .kept, .kept, .kept, .kept, false, false⟩,
  ⟨"LOG2_DEPTH", 48, 4, .rw, .val 0, .val 0, .kept, .kept, .kept, .kept, .kept, false, false⟩,
  ⟨"FUNC", 52, 3, .rw, .val 0, .val 0, .kept, .kept, .kept, .kept, .kept, false, false⟩,
  ⟨"APERTURE", 55, 8, .rw, .val 0, .val 0, .kept, .kept, .kept, .kept, .kept, false, false⟩]⟩
/-- HQ_CPL_HEAD (15_hosts_config_debug.md R467). -/
def fam_hqCplHead : Fam := ⟨"HQ_CPL_HEAD", 0x400008, [(8, 0x1000)], .ownPage, [
  ⟨"RELEASED", 0, 32, .rw, .val 0, .val 0, .kept, .kept, .kept, .kept, .kept, false, false⟩]⟩
/-- HQ_EVQ (15_hosts_config_debug.md R467). -/
def fam_hqEvq : Fam := ⟨"HQ_EVQ", 0x400010, [(8, 0x1000)], .ownPage, [
  ⟨"BASE", 0, 48, .rw, .val 0, .val 0, .kept, .kept, .kept, .kept, .kept, false, false⟩,
  ⟨"LOG2_DEPTH", 48, 4, .rw, .val 0, .val 0, .kept, .kept, .kept, .kept, .kept, false, false⟩,
  ⟨"DROPPED", 52, 12, .rw, .val 0, .val 0, .kept, .val 0, .kept, .kept, .kept, false, false⟩]⟩
/-- HQ_CANCEL (15_hosts_config_debug.md R467). -/
def fam_hqCancel : Fam := ⟨"HQ_CANCEL", 0x400018, [(8, 0x1000)], .ownPage, [
  ⟨"SEQ", 0, 32, .wo, .val 0, .val 0, .val 0, .val 0, .val 0, .val 0, .val 0, false, false⟩]⟩
/-- HQ_MBOX (15_hosts_config_debug.md R467). -/
def fam_hqMbox : Fam := ⟨"HQ_MBOX", 0x400800, [(8, 0x1000), (32, 0x40)], .ownPage, [
  ⟨"SEQ", 0, 32, .ro, .val 0, .val 0, .kept, .val 0, .kept, .kept, .kept, false, false⟩,
  ⟨"STATE", 32, 2, .ro, .val 0, .val 0, .kept, .val 0, .kept, .kept, .kept, false, false⟩,
  ⟨"RELEASE", 34, 1, .w1s, .val 0, .val 0, .val 0, .val 0, .val 0, .val 0, .val 0, false, false⟩]⟩
/-- HQ_MBOX_DATA (15_hosts_config_debug.md R467). -/
def fam_hqMboxData : Fam := ⟨"HQ_MBOX_DATA", 0x400808, [(8, 0x1000), (32, 0x40), (7, 0x8)], .ownPage, [
  ⟨"DATA", 0, 64, .ro, .val 0, .val 0, .kept, .val 0, .kept, .kept, .kept, false, false⟩]⟩
/-- HQ_SEALREQ (15_hosts_config_debug.md R467). -/
def fam_hqSealreq : Fam := ⟨"HQ_SEALREQ", 0x400400, [(8, 0x1000)], .ownPage, [
  ⟨"TYPE", 0, 8, .rw, .val 0, .val 0, .kept, .kept, .kept, .kept, .kept, false, false⟩,
  ⟨"STATUS", 8, 8, .ro, .val 0, .val 0, .kept, .kept, .kept, .kept, .kept, false, false⟩,
  ⟨"REASON", 16, 8, .ro, .val 0, .val 0, .kept, .kept, .kept, .kept, .kept, false, false⟩,
  ⟨"GO", 63, 1, .w1s, .val 0, .val 0, .val 0, .val 0, .val 0, .val 0, .val 0, false, false⟩]⟩
/-- HQ_SEALARG (15_hosts_config_debug.md R467). -/
def fam_hqSealarg : Fam := ⟨"HQ_SEALARG", 0x400408, [(8, 0x1000), (7, 0x8)], .ownPage, [
  ⟨"ARG", 0, 64, .rw, .val 0, .val 0, .kept, .kept, .kept, .kept, .kept, false, false⟩]⟩
/-- CFG_STATUS (15_hosts_config_debug.md R467). -/
def fam_cfgStatus : Fam := ⟨"CFG_STATUS", 0x1100000, [], .dev, [
  ⟨"FEED", 0, 8, .ro, .image, .image, .kept, .kept, .kept, .kept, .kept, false, false⟩,
  ⟨"ACTIVE_SLOT", 8, 1, .ro, .image, .image, .kept, .kept, .kept, .kept, .kept, false, false⟩,
  ⟨"IMAGE_SERIAL", 9, 32, .ro, .image, .image, .kept, .kept, .kept, .kept, .kept, false, false⟩,
  ⟨"APPLY_STATE", 41, 2, .ro, .live, .live, .live, .live, .live, .live, .live, false, false⟩,
  ⟨"APPLY_REASON", 43, 4, .ro, .val 0, .val 0, .kept, .kept, .kept, .kept, .kept, false, false⟩,
  ⟨"REASON", 47, 4, .ro, .cause, .cause, .kept, .kept, .kept, .kept, .kept, false, false⟩]⟩
/-- SCT_STATUS (15_hosts_config_debug.md R467). -/
def fam_sctStatus : Fam := ⟨"SCT_STATUS", 0x1000000, [(8, 0x8)], .sct, [
  ⟨"UNLOCKED", 0, 1, .ro, .val 0, .val 0, .kept, .val 0, .kept, .kept, .kept, false, true⟩,
  ⟨"RIGHTS", 1, 8, .ro, .val 0, .val 0, .kept, .val 0, .kept, .kept, .kept, false, true⟩,
  ⟨"HALTED", 9, 1, .ro, .live, .live, .live, .live, .live, .live, .live, false, false⟩,
  ⟨"BREAK_HITS", 10, 16, .rw, .val 0, .val 0, .val 0, .val 0, .kept, .kept, .kept, false, true⟩]⟩
/-- Every register family of the spec. -/
def famTable : List Fam :=
  [fam_devId, fam_devStep, fam_devSerial, fam_devLayout, fam_stnRangeOut, fam_stnCheck, fam_stnFence, fam_carVisit, fam_stnSweep, fam_stnRsum, fam_stnMerge, fam_devLatdesc] ++
  [fam_prtPace, fam_prtHold, fam_prtHoldSrc, fam_prtLatency, fam_prtFault, fam_prtOrderBase, fam_prtWdog, fam_carQueue, fam_prtWinVa, fam_prtWinPa, fam_drvDepot, fam_drvStatus] ++
  [fam_drvXfer, fam_drvGather, fam_drvCtrl, fam_mshFault, fam_mshLinkfault, fam_mshMcast, fam_mshRouter, fam_pasChan, fam_pasBeats, fam_tolCfg, fam_tolMask, fam_tolStarved] ++
  [fam_tolReq, fam_tolLongest, fam_stnSpice, fam_updCfg, fam_updSeed, fam_updStep, fam_updNorm, fam_updCommit, fam_updRange, fam_updPair, fam_wghCfg, fam_wghGroup] ++
  [fam_wghGroupCtl, fam_wghEpoch, fam_wghWideBase, fam_wghWideCtl, fam_wghSkip, fam_wghShare, fam_wghDigestTx, fam_wghDigestRx, fam_wghStepTx, fam_wghStepRx, fam_wghCount, fam_wghRange] ++
  [fam_lnkStatus, fam_lnkCtrl, fam_lnkErr, fam_lnkDrop, fam_lnkWinA, fam_lnkWinB, fam_lnkNode, fam_lnkDetour, fam_lnkTxq, fam_sealMan, fam_sealEcc, fam_hbmEcc] ++
  [fam_csgCfg, fam_csgList, fam_csgHostbuf, fam_csgArea, fam_csgPeer, fam_csgStatus, fam_csgCost, fam_csgRisk, fam_cprCause, fam_cprPstate, fam_cprClk, fam_cprCap] ++
  [fam_cprStretch, fam_cprShare, fam_prtGrant, fam_hqRingBase, fam_hqRingCtl, fam_hqCpl, fam_hqCplHead, fam_hqEvq, fam_hqCancel, fam_hqMbox, fam_hqMboxData, fam_hqSealreq] ++
  [fam_hqSealarg, fam_cfgStatus, fam_sctStatus]

end Sys2Proof.Machine
end

