-- ==== Sys2Proof/Machine/Num.lean ====
section
/-!
DEFINITION. Number formats and conversions (02_number_formats): exact values, the format codes, rounding, range-out
events, exact arithmetic, and the correctly rounded quotient and square root the engines use.
-/
namespace Sys2Proof.Machine

/-- An exact value: NaN, an infinity, or (−1)^neg × m × 2^e. A zero keeps its sign (R46). -/
inductive Val where
  | nan
  | inf (neg : Bool)
  | fin (neg : Bool) (m : Nat) (e : Int)
  deriving DecidableEq, Repr

namespace Val
def zero : Val := .fin false 0 0
def isFin : Val → Bool
  | .fin .. => true
  | _ => false
def isZero : Val → Bool
  | .fin _ m _ => m = 0
  | _ => false
def isNan : Val → Bool
  | .nan => true
  | _ => false
def negv : Val → Val
  | .nan => .nan
  | .inf s => .inf (!s)
  | .fin s m e => .fin (!s) m e
def absv : Val → Val
  | .nan => .nan
  | .inf _ => .inf false
  | .fin _ m e => .fin false m e
end Val

/-- 2^i for a nonnegative integer exponent; 1 below zero. -/
def pow2 (i : Int) : Nat := 2 ^ i.toNat

/-- The integer `neg, m` scaled by 2^(e − e0), for e0 ≤ e. -/
def scaled (neg : Bool) (m : Nat) (e e0 : Int) : Int :=
  let x : Int := (m * pow2 (e - e0) : Nat)
  if neg then -x else x

/-- An exact signed integer in units of 2^e as a value; zero is +0 (R47). -/
def valOfInt (x : Int) (e : Int) : Val := .fin (x < 0) x.natAbs e

/-- Exact sum under R179: an exact zero is +0, or −0 when both addends are −0. -/
def valAdd : Val → Val → Val
  | .nan, _ => .nan
  | _, .nan => .nan
  | .inf a, .inf b => if a = b then .inf a else .nan
  | .inf a, _ => .inf a
  | _, .inf b => .inf b
  | .fin sa ma ea, .fin sb mb eb =>
    let e0 := min ea eb
    let x := scaled sa ma ea e0 + scaled sb mb eb e0
    if x = 0 then .fin (sa && sb && ma = 0 && mb = 0) 0 0 else valOfInt x e0

/-- Exact product under R179. -/
def valMul : Val → Val → Val
  | .nan, _ => .nan
  | _, .nan => .nan
  | .inf a, .inf b => .inf (a != b)
  | .inf a, .fin sb mb _ => if mb = 0 then .nan else .inf (a != sb)
  | .fin sa ma _, .inf b => if ma = 0 then .nan else .inf (sa != b)
  | .fin sa ma ea, .fin sb mb eb => .fin (sa != sb) (ma * mb) (ea + eb)

/-- Sign of the comparison of two values that are not NaN: −1, 0 or 1, with −0 equal to +0. -/
def valCmp : Val → Val → Int
  | .inf a, .inf b => if a = b then 0 else if a then -1 else 1
  | .inf a, _ => if a then -1 else 1
  | _, .inf b => if b then 1 else -1
  | .fin sa ma ea, .fin sb mb eb =>
    let e0 := min ea eb
    let d := scaled sa ma ea e0 - scaled sb mb eb e0
    if d < 0 then -1 else if d = 0 then 0 else 1
  | _, _ => 0

/-- MAX of R179 and R180: NaN wins; MAX of +0 and −0 is +0. -/
def valMax (x y : Val) : Val :=
  match x, y with
  | .nan, _ => .nan
  | _, .nan => .nan
  | _, _ =>
    if x.isZero && y.isZero then
      match x, y with
      | .fin a _ _, .fin b _ _ => .fin (a && b) 0 0
      | _, _ => x
    else if valCmp x y < 0 then y else x

/-- MIN of R179 and R180: NaN wins; MIN of +0 and −0 is −0. -/
def valMin (x y : Val) : Val :=
  match x, y with
  | .nan, _ => .nan
  | _, .nan => .nan
  | _, _ =>
    if x.isZero && y.isZero then
      match x, y with
      | .fin a _ _, .fin b _ _ => .fin (a || b) 0 0
      | _, _ => x
    else if valCmp y x < 0 then y else x

/-- ⌊log₂⌋ of the magnitude m × 2^e, for m ≠ 0. -/
def log2v (m : Nat) (e : Int) : Int := (Nat.log2 m : Int) + e

/-- A floating-point format (R33): exponent and mantissa bits, bias, largest finite value maxM × 2^maxE, whether it
encodes infinities, and its canonical NaN pattern if it has one (R48). -/
structure FFmt where
  ebits : Nat
  mbits : Nat
  bias : Int
  maxM : Nat
  maxE : Int
  hasInf : Bool
  nan : Option Nat
  deriving DecidableEq, Repr

def fp32 : FFmt := ⟨8, 23, 127, 2 ^ 24 - 1, 104, true, some 0x7FC00000⟩
def e8m10 : FFmt := ⟨8, 10, 127, 2 ^ 11 - 1, 117, true, some 0x3FE00⟩
def bf16 : FFmt := ⟨8, 7, 127, 255, 120, true, some 0x7FC0⟩
def fp16 : FFmt := ⟨5, 10, 15, 2047, 5, true, some 0x7E00⟩
def e4m3 : FFmt := ⟨4, 3, 7, 14, 5, false, some 0x7F⟩
def e5m2 : FFmt := ⟨5, 2, 15, 7, 13, true, some 0x7E⟩
def e3m2 : FFmt := ⟨3, 2, 3, 7, 2, false, none⟩
def e2m3 : FFmt := ⟨2, 3, 1, 15, -1, false, none⟩
def e2m1 : FFmt := ⟨2, 1, 1, 3, 1, false, none⟩

/-- The value of a bit pattern (R33). -/
def FFmt.decode (f : FFmt) (bits : Nat) : Val :=
  let man := bits % 2 ^ f.mbits
  let ex := bits / 2 ^ f.mbits % 2 ^ f.ebits
  let neg := bits / 2 ^ (f.mbits + f.ebits) % 2 = 1
  if f.hasInf && ex = 2 ^ f.ebits - 1 then (if man = 0 then .inf neg else .nan)
  else if f.nan = some 0x7F && ex = 2 ^ f.ebits - 1 && man = 2 ^ f.mbits - 1 then .nan
  else if ex = 0 then .fin neg man (1 - f.bias - f.mbits)
  else .fin neg (2 ^ f.mbits + man) ((ex : Int) - f.bias - f.mbits)

/-- Round m × 2^e to a whole number of units 2^u (R45): code 0 RNE, 1 toward zero, 2 stochastic with draw r.
Answers the number of units and whether bits were lost. -/
def roundUnits (code r : Nat) (m : Nat) (e u : Int) : Nat × Bool :=
  if u ≤ e then (m * pow2 (e - u), false)
  else
    let sh := (u - e).toNat
    let q := m / 2 ^ sh
    let rem := m % 2 ^ sh
    let inexact := rem != 0
    if code = 0 then
      if 2 * rem > 2 ^ sh || (2 * rem = 2 ^ sh && q % 2 = 1) then (q + 1, inexact) else (q, inexact)
    else if code = 2 then ((m * 2 ^ 16 + r * 2 ^ sh) / 2 ^ (sh + 16), inexact)
    else (q, inexact)

/-- A conversion's result: bit pattern, overflow event, underflow event (R49). -/
structure Conv where
  bits : Nat
  ovf : Bool
  unf : Bool
  deriving DecidableEq, Repr

/-- The exponent of one ulp of format f at the magnitude m × 2^e (R45). -/
def FFmt.ulp (f : FFmt) (m : Nat) (e : Int) : Int :=
  max (log2v m e - f.mbits) (1 - f.bias - f.mbits)

/-- Conversion to a floating-point format (R46). -/
def FFmt.encode (f : FFmt) (code r : Nat) (sat : Bool) (v : Val) : Conv :=
  let sgn (neg : Bool) := if neg then 2 ^ (f.mbits + f.ebits) else 0
  let maxBits := f.maxM + ((f.maxE + f.mbits + f.bias).toNat - 1) * 2 ^ f.mbits
  let beyond (neg : Bool) (toMax : Bool) : Nat :=
    if toMax then sgn neg + maxBits
    else if f.hasInf then sgn neg + (2 ^ f.ebits - 1) * 2 ^ f.mbits
    else f.nan.getD (sgn neg + maxBits)
  match v with
  | .nan => ⟨f.nan.getD 0, false, false⟩
  | .inf neg => ⟨beyond neg sat, false, false⟩
  | .fin neg m e =>
    if m = 0 then ⟨sgn neg, false, false⟩
    else
      let u := f.ulp m e
      let (q, inexact) := roundUnits code r m e u
      let e0 := min u f.maxE
      if q * pow2 (u - e0) > f.maxM * pow2 (f.maxE - e0) then ⟨beyond neg (sat || code = 1), true, false⟩
      else
        let tiny := log2v m e < 1 - f.bias
        ⟨sgn neg + q + ((u + f.mbits + f.bias).toNat - 1) * 2 ^ f.mbits, false, tiny && inexact⟩

/-- Conversion to a two's-complement integer of `w` bits: it always saturates (R46). -/
def encodeInt (w code r : Nat) (v : Val) : Conv :=
  let hi : Int := 2 ^ (w - 1) - 1
  let lo : Int := -(2 ^ (w - 1))
  let pat (x : Int) : Nat := (x % 2 ^ w).toNat
  match v with
  | .nan => ⟨0, true, false⟩
  | .inf neg => ⟨pat (if neg then lo else hi), true, false⟩
  | .fin neg m e =>
    let x : Int := (roundUnits code r m e 0).1
    let x := if neg then -x else x
    if x > hi then ⟨pat hi, true, false⟩ else if x < lo then ⟨pat lo, true, false⟩ else ⟨pat x, false, false⟩

/-- Two's-complement value of a `w`-bit pattern. -/
def signedOf (w : Nat) (bits : Nat) : Int :=
  let b := bits % 2 ^ w
  if b < 2 ^ (w - 1) then b else (b : Int) - 2 ^ w

/-- The array classes of R32. -/
inductive ArrClass where
  | e8m10
  | bf16
  | fp16
  | e4m3
  | e5m2
  | int8
  deriving DecidableEq, Repr

/-- Array class of an operand code; none for storage-only and reserved codes (R32). -/
def classOf (code : Nat) : Option ArrClass :=
  match code with
  | 0x0 | 0x1 => some .e8m10
  | 0x2 => some .bf16
  | 0x3 => some .fp16
  | 0x4 | 0x7 | 0x9 | 0xA | 0xB => some .e4m3
  | 0x5 | 0x8 => some .e5m2
  | 0x6 | 0xC => some .int8
  | _ => none

/-- MX codes share one scale per 32 elements (R34). -/
def isMx (code : Nat) : Bool := 0x7 ≤ code && code ≤ 0xC

/-- Stored bits of one element (R32). -/
def elemBits (code : Nat) : Nat :=
  match code with
  | 0x0 | 0x1 | 0xD | 0xE => 32
  | 0x2 | 0x3 => 16
  | 0x9 | 0xA => 6
  | 0xB => 4
  | _ => 8

/-- The element format of a floating MX code or storage code. -/
def fmtOf (code : Nat) : Option FFmt :=
  match code with
  | 0x0 | 0x1 | 0xD => some fp32
  | 0x2 => some bf16
  | 0x3 => some fp16
  | 0x4 | 0x7 => some e4m3
  | 0x5 | 0x8 => some e5m2
  | 0x9 => some e3m2
  | 0xA => some e2m3
  | 0xB => some e2m1
  | _ => none

/-- The exact value of a stored element, before any block scale (R33); an MXINT8 element carries 2⁻⁶. -/
def decodeElem (code bits : Nat) : Val :=
  match code with
  | 0x6 => valOfInt (signedOf 8 bits) 0
  | 0xC => valOfInt (signedOf 8 bits) (-6)
  | 0xE => valOfInt (signedOf 32 bits) 0
  | _ =>
    match fmtOf code with
    | some f => f.decode bits
    | none => .nan

/-- FP32 to E8M10 on the way into the array (R37, R38): the value and whether it overflowed. -/
def intoArray (code bits : Nat) : Val × Bool :=
  if code = 0 || code = 1 then
    let c := e8m10.encode code 0 false (fp32.decode bits)
    (e8m10.decode c.bits, code = 0 && c.ovf)
  else (decodeElem code bits, false)

/-- Conversion of a value to an output code that is not MX (R46). -/
def convertOut (code round r : Nat) (sat : Bool) (v : Val) : Conv :=
  match code with
  | 0x6 => encodeInt 8 round r v
  | 0xE => encodeInt 32 round r v
  | _ =>
    match fmtOf code with
    | some f => f.encode round r sat v
    | none => ⟨0, false, false⟩

/-- One FP32 rounding by RNE, saturate clear: the engines' assignments (R287, R312). -/
def rne32 (v : Val) : Conv := fp32.encode 0 0 false v
/-- A value rounded to FP32 by RNE, as a value. -/
def round32 (v : Val) : Val := fp32.decode (rne32 v).bits
/-- Exact zero becomes +0 (R287, "an exact zero result of any assignment"). -/
def plusZero (v : Val) : Val := if v.isZero then Val.zero else v
/-- One assignment of the update rule: rounded once to FP32, exact zero +0 (R287). -/
def assign32 (v : Val) : Val := round32 (plusZero v)

/-- x / y for a finite nonzero y, with enough quotient bits and a sticky bit that one later rounding is exact. -/
def divSticky (sx : Bool) (mx : Nat) (ex : Int) (sy : Bool) (my : Nat) (ey : Int) : Val :=
  let k := 320 + Nat.log2 my
  let n := mx * 2 ^ k
  let q := n / my
  .fin (sx != sy) (2 * q + (if n % my = 0 then 0 else 1)) (ex - ey - k - 1)

/-- Quotient, by the special values of IEEE 754-2019 (log entry 10). -/
def valDiv : Val → Val → Val
  | .nan, _ => .nan
  | _, .nan => .nan
  | .inf _, .inf _ => .nan
  | .inf a, .fin sb _ _ => .inf (a != sb)
  | .fin sa _ _, .inf b => .fin (sa != b) 0 0
  | .fin sa ma ea, .fin sb mb eb =>
    if mb = 0 then (if ma = 0 then .nan else .inf (sa != sb)) else divSticky sa ma ea sb mb eb

/-- Integer square root, bit by bit. -/
def isqrtAux (n : Nat) : Nat → Nat → Nat
  | 0, acc => acc
  | k + 1, acc =>
    let t := acc + 2 ^ k
    isqrtAux n k (if t * t ≤ n then t else acc)

/-- ⌊√n⌋. -/
def isqrt (n : Nat) : Nat := isqrtAux n (Nat.log2 n / 2 + 1) 0

/-- Square root with a sticky bit; NaN below zero (log entry 10). -/
def valSqrt : Val → Val
  | .nan => .nan
  | .inf neg => if neg then .nan else .inf false
  | .fin neg m e =>
    if m = 0 then .fin neg 0 0
    else if neg then .nan
    else
      let e1 := e - 400 - (e % 2)
      let n := m * pow2 (e - e1)
      let q := isqrt n
      .fin false (2 * q + (if q * q = n then 0 else 1)) (e1 / 2 - 1)

/-- Largest exponent of an MX element format (R52). -/
def emaxOf (code : Nat) : Int :=
  match code with
  | 0x7 => 8
  | 0x8 => 15
  | 0x9 => 4
  | 0xA => 2
  | 0xB => 2
  | _ => 0

/-- One element of an MX block after division by 2^x: rounded and clamped to the largest finite value (R52). The
clamp of MXINT8 at −1.984375 is log entry 11. -/
def mxElem (code round r : Nat) (v : Val) : Nat :=
  match fmtOf code, v with
  | some f, v => (f.encode round r true v).bits
  | none, .fin neg m e =>
    let q := min (roundUnits round r m e (-6)).1 127
    if neg then (256 - q) % 256 else q
  | none, _ => 0

/-- Scale a finite value by 2^x. -/
def scaleBy (x : Int) : Val → Val
  | .fin s m e => .fin s m (e + x)
  | v => v

/-- The largest magnitude of a list of finite values. -/
def maxAbs (vs : List Val) : Val := vs.foldl (fun a v => valMax a v.absv) Val.zero

/-- The sieve's MX block (R52): scale byte, element patterns, overflow events, and for each element whether it underflows.
`rs` are the draws. -/
def sieveBlock (code round : Nat) (rs : List Nat) (vs : List Val) : Nat × List Nat × Nat × List Bool :=
  let bad := (vs.filter (fun v => !v.isFin)).length
  if bad ≠ 0 then (0xFF, vs.map (fun _ => 0), bad, [])
  else
    match maxAbs vs with
    | .fin _ m e0 =>
      if m = 0 then (0x7F, vs.map (fun _ => 0), 0, [])
      else
        let e := log2v m e0 - emaxOf code
        let x := max e (-127)
        let els := (vs.zip rs).map (fun (v, r) => mxElem code round r (scaleBy (-x) v))
        let mask := 2 ^ (elemBits code - 1) - 1
        let unf := if e < -127 then (vs.zip els).map (fun (v, b) => !v.isZero && Nat.land b mask = 0) else []
        ((x + 127).toNat, els, 0, unf)
    | _ => (0xFF, vs.map (fun _ => 0), 0, [])

/-- The sieve's per-row segment (R53) to INT8 (q = 127) or E4M3 (q = 448): FP32 scale, elements, overflow and
underflow events. -/
def sieveRow (code round : Nat) (rs : List Nat) (vs : List Val) : Nat × List Nat × Nat × Nat :=
  if vs.any (fun v => !v.isFin) then (0x7FC00000, vs.map (fun _ => 0), 1, 0)
  else
    let q : Val := .fin false (if code = 6 then 127 else 448) 0
    let a := maxAbs vs
    if a.isZero then (0, vs.map (fun _ => 0), 0, 0)
    else
      let k := round32 (valDiv q a)
      let cs := (vs.zip rs).map (fun (v, r) =>
        let c := convertOut code round r true (valMul v k)
        -- saturation to ±q: INT8 stops at −127
        if code = 6 && c.bits = 0x80 then { c with bits := 0x81 } else c)
      ((rne32 (valDiv a q)).bits, cs.map (·.bits), (cs.filter (·.ovf)).length, (cs.filter (·.unf)).length)

end Sys2Proof.Machine
end

