-- ==== Sys2Proof/Machine/State.lean ====
section
/-!
DEFINITION. The state of the part, as plain data: every register of the CSR space, the physical memory, the tallies,
flags and queues, the partitions' orders and holds, the caravans' routes and drovers, the weighhouse contexts, the
torus ports, the tolls, the power and Seal state, the scout port, what the part has sent out, and the queue of
waiting commands.
-/
namespace Sys2Proof.Machine

/-- The state of a tally entry or a sum (R43, R94). -/
inductive ESt where
  | fin
  | pinf
  | ninf
  | nan
  deriving DecidableEq, Repr

/-- A tally entry (R93, R94): the value in units of 2⁻³²⁰ (plain units in W32 mode), its residue, the two copies of its state,
the pending bit. -/
structure Entry where
  v : Int
  res : Nat
  st : ESt
  st2 : ESt
  pend : Bool
  deriving DecidableEq, Repr

/-- An exact sum with its state (R43): a weighhouse frame, a REDUCE frame, a norm partial. -/
structure Acc where
  v : Int
  st : ESt
  deriving DecidableEq, Repr

/-- What a tally bank or W32 slot is doing (R66, R172, R174). A released bank is free; its station took part in a pass whose held
bank stands in another station, or had no tile of that pass (R112, R468). -/
inductive BankSt where
  | free
  | filling (off : Nat)
  | merging (off : Nat) (until_ : Nat) (drains : Bool)
  | draining (off : Nat) (until_ : Nat)
  | held (readyAt : Nat)
  | taken (off : Nat)
  | released
  deriving DecidableEq, Repr

/-- One bank or W32 slot: its state, mode, row mask (1 feeds), carried EVICT_COUNT, logical place and extent of its
output tile, the first row of the tile among the rows its station writes (R208), the column groups that have mismatched
once in this output tile (R81), whether it is poisoned (R88), the order its pass belongs to, the number of that pass, the satchel
bank that feeds it, and the leg position of the pass (R87): the tile it takes rows of, how many of its rows have reached the
tally, and the pace at which the last of them did. -/
structure Bank where
  st : BankSt
  w32 : Bool
  mask : BitVec 32
  evict : Nat
  row0 : Nat
  col0 : Nat
  rows : Nat
  cols : Nat
  share : Nat
  mism : List Nat
  poisoned : Bool
  seq : Nat
  pi : Nat
  sat : Bool
  tile : Nat
  done : Nat
  last : Nat
  deriving DecidableEq, Repr

/-- A flag's counter, quantum and kind (R143 to R145, R147). Quantum 0 is unallocated. -/
structure Flag where
  count : Nat
  quantum : Nat
  elastic : Bool
  deriving DecidableEq, Repr

/-- The part of a queue that CAR_QUEUE does not hold: the slot of its oldest entry, and for each entry present the
pace from which it is poppable (R146) and the stream offset of the command that pushed it (R352). For a send queue: the packets of its
oldest entry that the egress port has been given, and the waypoint they take (R343, R345). -/
structure Queue where
  head : Nat
  ready : List Nat
  offs : List Nat
  given : Nat
  via : Option Nat
  deriving DecidableEq, Repr

/-- A tile in its route form (R57 to R59, R62 to R70): the order and the product (stream offset) it belongs to, its pass pair,
its index, and its stored elements: for each leg, column by column, the bits and the scale byte of each K-row. -/
structure TileAt where
  seq : Nat
  run : Nat
  pair : Nat
  tile : Nat
  data : List (List (List (Nat × Nat)))
  deriving DecidableEq, Repr

/-- A row of A on its way through an array (R60, R61, R78): station, pace it was fed, pace it reaches the tally, its pass, the
tile it meets, the row, the pass's row mask, its elements as broadcast, how many row groups it has entered, and what they have
formed in each column: the products and the residue channel's sum. -/
structure Fed where
  stn : Nat
  at_ : Nat
  due : Nat
  pi : Nat
  tile : TileAt
  row : Nat
  mask : BitVec 32
  vals : List Val
  into : Nat
  terms : List (List Val)
  chan : List Nat
  deriving DecidableEq, Repr

/-- Reads that a drover has out for a command itself: the rows of A that it stages, a tile of B, a mortar's operands (R210, R215, R238;
log entry 36). The first identifier of its transfers of up to 2 KiB, the partition, order and command they serve, the rows as
(address, bytes), the transfers that have come, and whether their order is over (R223). -/
structure Fetch where
  id : Nat
  part : Nat
  seq : Nat
  off : Nat
  stn : Nat
  rows : List (Nat × Nat)
  came : List Nat
  dropped : Bool
  deriving DecidableEq, Repr

/-- The drover's fill of a station's idle satchel bank with the rows of A of one pass pair (R76, R210): the product, the pair, the
bank, the bytes on their way as (bank offset, bytes), the transfers of up to 2 KiB they make (none where another caravan's drover
fetches them, R238), and the first identifier of those. -/
structure Fill where
  stn : Nat
  seq : Nat
  run : Nat
  pair : Nat
  bank : Bool
  bytes : List (Nat × List (BitVec 8))
  pieces : Nat
  fetch : Nat
  deriving DecidableEq, Repr

/-- A product circulating in one caravan: its command, shape, record and descriptors as read at issue, its stations, the caravans
that take part in it, the N-blocks of this caravan's share, its passes, tiles per pass, the next tile to inject, whether a
dependence mark separates it from the product before it (R70), and whether its command has completed, while tiles of it are still on
the route (R68). -/
structure Run where
  seq : Nat
  off : Nat
  h : Head
  w1 : Word
  m : Nat
  n : Nat
  k : Nat
  record : List (BitVec 8)
  descs : List (List (BitVec 8))
  stns : List Nat
  group : List Nat
  blocks : List Nat
  mPasses : Nat
  tiles : Nat
  bytes : Nat
  pair : Nat
  tile : Nat
  mark : Bool
  ended : Bool
  deriving DecidableEq, Repr

/-- A drover transfer: physical source and destination of up to 2 KiB, the order and command it serves (R215); whether its order is
over (R223); whether the mesh cannot reach one of its ends (R243). -/
structure Xfer where
  id : Nat
  part : Nat
  seq : Nat
  off : Nat
  src : Nat
  dst : Nat
  len : Nat
  level : Nat
  va : Nat
  satchel : Bool
  thread : Nat
  dropped : Bool
  lost : Bool
  deriving DecidableEq, Repr

/-- How far a drover command has come (R215, R217 to R219): the position of a MOVE, the position of each thread of a GATHER, the
thread served next, and the gather cache as (line, row). -/
structure DrvProg where
  pos : Nat
  threads : List Nat
  turn : Nat
  lines : List (Nat × Nat)
  deriving DecidableEq, Repr

def DrvProg.start : DrvProg := ⟨0, [], 0, []⟩

/-- A command the drover has scanned ahead of the issue pointer, how far it has come, and the physical destinations it has issued
writes to (R213, R214, R223). -/
structure Ahead where
  off : Nat
  prog : DrvProg
  wrote : List (Nat × Nat)
  deriving DecidableEq, Repr

/-- A caravan: the visit in progress with its legs, the three slots of each station's landing buffer (`incoming`, `tiles` for the active one,
`previous`; R57, R69), the pace up to which the previous tiles are kept on an empty route, the tile in each station's shadow registers
and in the active registers of each of its row groups (R57, R60), the rows in each station's pipeline, the fills of satchel banks
under way, the products on the route, the drover's transfers, its reads for commands themselves and its run-ahead, a SWAP that
waits, the last satchel bank staged per station, the column groups whose fence is pending (station, word 3 of R86, order, command),
the pace of its last leg replay (R80), whether its passes in progress restart from their first legs (R81, R88), and the products whose remnant
passes are to run, with the legs of them that have run (R84, R90). -/
structure Car where
  vStart : Nat
  vLen : Nat
  vLegs : Nat
  incoming : List (Option TileAt)
  tiles : List (Option TileAt)
  previous : List (Option TileAt)
  prevEnd : Nat
  shadow : List (Option TileAt)
  cells : List (List (Option TileAt))
  pipe : List Fed
  fills : List Fill
  runs : List Run
  xfers : List Xfer
  nextX : Nat
  reads : List Fetch
  ahead : List Ahead
  swapOff : Option Nat
  staged : List Bool
  fencePend : List (Nat × Nat × Nat × Nat)
  replayAt : Option Nat
  restart : Bool
  remnant : List (Nat × Nat)
  deriving DecidableEq, Repr

/-- A command in flight (R159): stream offset, opcode and fields, the units it occupies, the pace at which it started
(none while pending) and the pace at which it completes (none while an elastic part is out). `prog` and `left` count
its transfers or chunks; `descs` are its descriptors and records as read at issue; `drv` is how far a drover command has come. -/
structure Cmd where
  off : Nat
  op : Nat
  h : Head
  w1 : Word
  units : List Nat
  start : Option Nat
  done : Option Nat
  prog : Nat
  left : Nat
  descs : List (List (BitVec 8))
  drv : DrvProg := DrvProg.start
  deriving DecidableEq, Repr

/-- One UPDATE of the running order (R285, R295): bucket, rule record, mode, mask bits read at issue, chunks applied, why it
is bad: 0 it is not, 2 for its values, 3 because a result never arrived; and whether it has written anything (R297). -/
structure Upd where
  off : Nat
  bucket : Nat
  rule : List (BitVec 8)
  direct : Bool
  mask : List (BitVec 8)
  applied : List Nat
  bad : Nat
  wrote : Bool
  written : Bool
  finished : Bool
  deriving DecidableEq, Repr

/-- One entry of the binary's timing table (R138). -/
structure TimeEnt where
  cls : Nat
  lat : Nat
  ival : Nat
  deriving DecidableEq, Repr

/-- The execution of a work order: sequence number, order base (R121), header, the issue pace and stream offset (R158), a command that waits on
an elastic flag or queue, the commands in flight, what the completion record will hold, the destinations written so far,
for each latency class and unit the pace of its last command (R141), the dependence marks it has met: stream offset and
caravan (R166), and for an execution resumed after a pre-emption the tag that later executions count from (R280, log
entry 45), the banks that a pre-emption asked for will find unreadable (R90), and, once an interleaved order has loaded its tables
over those of this one, this one's flags and what its queues fail at its end (R148, R220). -/
structure Exec where
  seq : Nat
  base : Nat
  hdr : BitVec 1024
  issuePace : Nat
  off : Nat
  ended : Bool
  endOff : Option Nat
  waiting : Option (Nat × Head × Word)
  cmds : List Cmd
  region : Option Nat
  committed : Bool
  outcome : Nat
  pending : Bool
  voteOff : Option Nat
  direct : Option Bool
  upds : List Upd
  sent : List Nat
  sticky : BitVec 6
  loss : Option (BitVec 32)
  timing : List TimeEnt
  clip : BitVec 33
  step : BitVec 32
  seed : Word
  sigs : List (Nat × Nat × Nat)
  coupledWait : Bool
  fault : Option (Word × Word × Word × Word)
  partFault : Bool
  cancelled : Bool
  execs : Nat
  normNew : Option (BitVec 32)
  dests : List (Nat × Nat)
  lastUse : List (Nat × Nat × Nat)
  marks : List (Nat × Nat)
  tagAfter : Option Nat
  saveBad : List (CarId × StnId × Fin 2)
  kept : Option (List (Nat × Flag))
  keptQ : Option (Nat × Nat)
  deriving DecidableEq, Repr

/-- An accepted order that has not completed: the journal's entry (R383, R385): executions made, re-executions among them,
and whether its next execution repeats an earlier one. -/
structure Order where
  seq : Nat
  hdr : BitVec 1024
  execs : Nat
  re : Nat
  reexec : Bool
  deriving DecidableEq, Repr

/-- A hold in force (R127, R129): source, and cycles left when the length is known. -/
structure Hold where
  src : Nat
  left : Option Nat
  deriving DecidableEq, Repr

/-- A completion record or mailbox publication that waits (R447, R450). -/
structure Record where
  seq : Nat
  bytes : List (BitVec 8)
  bitmapVa : Nat
  bitmap : List (BitVec 8)
  deriving DecidableEq, Repr

/-- A change of windows or bank pairs that waits for the running order to end (R202, R284, R439). -/
inductive SealAct where
  | mapWin (i : Nat) (va pa : Word)
  | unmapWin (i : Nat)
  | bankPair (i : Nat) (w : Word)
  deriving DecidableEq, Repr

/-- A consignment in progress or awaiting its loss, and a restore under verification (R391 to R400): the step, manifest head
and state record at the boundary, how many were taken before, its copies as (peer entry or 4 for the host, 0 out, 1 complete,
2 failed), whether it is secured, the head of the newest complete one at each peer, the slot that one lies in, the loss, the order that gave it, the loss a restore must meet,
the slots tried, and the requests that wait for a boundary. -/
structure Consign where
  step : BitVec 32
  head : Nat
  record : List (BitVec 8)
  digest : Nat
  secured : Bool
  heads : List (Nat × Nat)
  slots : List (Nat × Nat)
  taken : Nat
  copies : List (Nat × Nat)
  lossSeen : Option (BitVec 32)
  lossSeq : Nat
  verify : Option (BitVec 32)
  tried : List Nat
  nowReq : Bool
  riseReq : Bool
  above : Bool
  deriving DecidableEq, Repr

/-- One packet of a chunk's result, kept until the chunk is whole, with whether rounding a wide one here overflowed or underflowed (R312,
R316, R49). -/
structure ResultIn where
  chunk : Nat
  packet : Nat
  nf : Bool
  vals : List (BitVec 32)
  wide : List Acc
  ovf : Bool
  unf : Bool
  deriving DecidableEq, Repr

/-- A bucket this member has sent in the execution at stream offset `off` (R305, R310, R316): the address of each slice, or
the wide entries; the chunks it has contributed, those resolved here, result packets of the others, the owned chunks
opened, and the owned chunks resolved as chunk × 2 + failed. With it the order that sent it, its pair, and the chunks that failed here:
records stay when their order has ended (R315, R321). -/
structure SendRec where
  seq : Nat
  step : BitVec 32
  attempt : Nat
  bucket : Nat
  off : Nat
  wide : Bool
  skipped : Bool
  slices : Nat
  rows : List Nat
  wideVals : List Acc
  chunks : Nat
  sent : List Nat
  resolved : List Nat
  got : List ResultIn
  opened : List Nat
  ownDone : List Nat
  bad : List Nat
  deriving DecidableEq, Repr

/-- An accumulator slot of an owner (R310, R311): the pair of its order, the chunk, the elements it holds and the slices of
its bucket, its sums, and (sender, packet) pairs already added. -/
structure Slot where
  step : BitVec 32
  attempt : Nat
  bucket : Nat
  chunk : Nat
  wide : Bool
  elems : Nat
  slices : Nat
  sums : List Acc
  got : List (Nat × Nat)
  deriving DecidableEq, Repr

/-- A chunk delivered to the update engine: kind 0 good, 1 non-finite, 2 never arrived, 3 skipped (R291, R306), and whether the rounding
that this device has made of it overflowed or underflowed (R49). -/
structure ChunkIn where
  bucket : Nat
  chunk : Nat
  kind : Nat
  owned : Bool
  vals : List (BitVec 32)
  ovf : Bool
  unf : Bool
  deriving DecidableEq, Repr

/-- A weighhouse packet that waits at its receiving port (R313, R315, R320), in whose buffer its flits stay; none for one that
came by a command of its own, without a route header. -/
structure Waiting where
  port : Nat
  pkt : Option Packet
  hdr : BitVec 512
  payload : List (BitVec 8)
  deriving DecidableEq, Repr

/-- A partition's weighhouse context (R300 to R322): the member table and own index, the buckets sent in this execution and, as long as
they are not closed or their pair is the current one, by earlier orders (R315, R321), those of
SENDs in the pending slot, those sent in the order's earlier executions, OPENs not yet answered, open slots, chunks for the update engine, every chunk delivered in the
current order and pair, packets that wait, the votes, the own vote, the norm partial, and the current (STEP, ATTEMPT) with
the sequence number of its order. -/
structure Wgh where
  members : List (BitVec 32)
  self : Nat
  sends : List SendRec
  queued : List SendRec
  old : List SendRec
  opens : List (Nat × Nat)
  slots : List Slot
  inbox : List ChunkIn
  taken : List ChunkIn
  waiting : List Waiting
  votes : List (Nat × Nat × Acc)
  voted : Option Nat
  norm : Acc
  attempt : Nat
  step : BitVec 32
  seq : Nat
  deriving DecidableEq, Repr

/-- A pre-emption in force (R87, R222, R440): the saved execution, the order to run instead or 0, whether its end has been
asked for, and what is saved of its caravans: routes, tally banks and entries, depot images, flags, queues, spice tables, and the
registers an order start loads; the weighhouse context as the order left it (R325). With it the execution that an interleaved one has
overtaken (R220), and whether what was saved has ended since (R448). -/
structure Preempt where
  exec : Exec
  prev : Option Exec
  gone : Bool
  named : Nat
  resume : Bool
  cars : List (Nat × Car)
  banks : Map Bank
  entries : Map Entry
  depots : List Host.Cell
  flags : Map Flag
  queues : Map Queue
  spice : Map (List (BitVec 8))
  regs : Map Word
  wgh : Wgh
  atPace : Nat
  deriving DecidableEq, Repr

/-- A partition (R17, R121, R437): its caravan map in ordinal order, grants of memory, orders, execution, the previous order that an interleaved
one has overtaken (R220), holds, whether holds have overlapped since it was last free of them (R129),
pre-emption, records that wait, an entry that waits for a partner's acknowledgement (function, ring, header), the ring the manifest looks at next (function × 8 + ring), breakpoints, the paces of
a step still to run, and the place of the last breakpoint hit: pace, and 0 or the stream offset + 1 (R463, R464), the TYPE of the
Seal request that is pending (R439), the last fault record raised outside any order (R9), whether a withdrawn caravan could not be relocated (R380), and the holds of the
power cap still to come: how many, a hold every so many cycles, cycles to the next (R421). -/
structure Part where
  cmap : List Nat
  hbm : List (Nat × Nat)
  cxl : Nat × Nat
  orders : List Order
  nextSeq : Nat
  exec : Option Exec
  prev : Option Exec
  holds : List Hold
  merged : Bool
  preReq : Option Nat
  preempt : Option Preempt
  records : List Record
  mboxWait : List (Nat × Nat × Bool × List (BitVec 8))
  ackWait : Option (Nat × Nat × BitVec 1024)
  ringNext : Nat
  acts : List SealAct
  evCount : Nat
  bps : List (Option (Nat × Word))
  stepLeft : Option Nat
  bpAt : Option (Nat × Nat)
  suspended : Bool
  wghLost : Bool
  csg : Consign
  txNext : Nat
  sealType : Nat
  idleFault : Option (Word × Word × Word × Word)
  pinned : Bool
  capLeft : Nat
  capEvery : Nat
  capNext : Nat
  deriving DecidableEq, Repr

/-- A packet that arrives on a VC, from its START flit on (R338): payload bytes and flits so far; `broken` when it began without START,
`cut` when a POISON flit has closed it unfinished (R335). -/
structure Asm where
  bytes : List (BitVec 8)
  flits : Nat
  broken : Bool
  cut : Bool
  deriving DecidableEq, Repr

/-- The packet that owns an egress VC (R341): as it leaves, the flits sent, the ingress port and VC whose buffer its flits come from,
and whether it is only to be closed by END and POISON (R351). -/
structure Sending where
  pkt : Packet
  sent : Nat
  src : Option (Nat × Nat)
  cut : Bool
  deriving DecidableEq, Repr

/-- The link layer of a torus port that LNK_STATUS does not hold (R335 to R337, R341, R349): sequence numbers, the flit counts that
extend them, keys, whether the receiver still has the old one, packets that arrive, packets in the receive buffer, packets of this device that wait for a VC, the packets that own the VCs, the replay buffer,
the credits in use. -/
structure Port where
  rxSeq : Nat
  txSeq : Nat
  acked : Nat
  nakSent : Bool
  resends : Nat
  rxCount : Nat
  txCount : Nat
  keyId : Bool
  keyGen : Nat
  oldKey : Bool
  asm : Map Asm
  queue : List Packet
  txq : List Packet
  owners : List Sending
  replay : List (BitVec 2048)
  used : Map Nat
  isolations24 : Nat
  fenced : Bool
  parkedState : Nat
  reported : Bool
  present : Bool
  deriving DecidableEq, Repr

/-- A toll arbiter: the requester granted last, the owner of the current grant, and the beats after which the grant ends at the
latest (R251). -/
structure Toll where
  last : Nat
  owner : Option Nat
  limit : Nat
  deriving DecidableEq, Repr

/-- An entry of the fence record (R379): unit identifier, kind (1 unit, 2 row repair, 3 HBM row), detail, the time, and the code that
binds it to DEV_SERIAL. -/
structure FenceEnt where
  unit : BitVec 16
  kind : Nat
  detail : Nat
  time : Nat
  code : Nat
  deriving DecidableEq, Repr

/-- Power, pins, flash, Seal and Factor (R20 to R30, R378 to R384, R401 to R403, R424, R453 to R458). -/
structure Dev where
  pwrgd : Bool
  aux : Bool
  lugA : Bool
  lugB : Bool
  halfOnW : Bool
  halfOnE : Bool
  started : Bool
  starts : Nat
  rwlLocked : Bool
  thermtrip : Bool
  faultL : Bool
  safeHold : Bool
  perstA : Bool
  perstB : Bool
  hostUpA : Bool
  hostUpB : Bool
  cxl : Bool
  sealW : Nat
  sealE : Nat
  factorUp : Bool
  slot0 : Option Image
  slot1 : Option Image
  active : Nat
  running : Option Image
  fences : List FenceEnt
  fencedStacks : List Nat
  fencedCars : List Nat
  fencedHalves : List Nat
  rebuild : List Nat
  journalW : Nat
  journalE : Nat
  /-- Where the two journals lie: 256 MiB each, from these addresses on (R383). -/
  journalAtW : Nat
  journalAtE : Nat
  /-- Corrected reads of each 2 KiB row of HBM within 24 h, by physical address / 2048 (R377). -/
  rowReads : Map Nat
  /-- Functions whose bus mastering is off (R447). -/
  noMaster : List Nat
  /-- The risk multiplier r, in units of 1/4000 (R397). -/
  riskR : Nat
  timeouts1s : List Nat
  poisoned24 : Map Nat
  applying : Option (Nat × Nat × Image)
  temps : Map Nat
  hotFields : List Nat
  fastLoop : Bool
  p3Pending : Bool
  sealQ : List Nat
  deriving DecidableEq, Repr

/-- The TAP and scout port (R460 to R462): instruction (0 BYPASS, 1 IDCODE, 2 SAMPLE/PRELOAD, 3 EXTEST, 4 SCOUT), the
128-bit data register, the captured status, the partition whose token is in force, the boundary register. -/
structure Scout where
  ir : Nat
  dr : BitVec 128
  status : Nat
  part : Option Nat
  expiry : Nat
  boundary : Word
  deriving DecidableEq, Repr

/-- What the part sends to the outside world. -/
inductive Out where
  /-- A write into host memory: a completion record or an event (R446, R451). -/
  | hostWrite (f : Nat) (addr : Nat) (bytes : List (BitVec 8))
  | msix (f : Nat) (vector : Nat)
  | readData (f : Nat) (bytes : List (BitVec 8)) (poisoned : Bool)
  | completerAbort (f : Nat)
  /-- A flit on a torus link (R334, R335). -/
  | flit (port : Nat) (bits : BitVec 2048)
  /-- The exchange of INIT: coordinate, port and width (R332). -/
  | initFlit (port coord width : Nat)
  | toFactor (kind : Nat) (unit : Nat)
  | i3c (bytes : List (BitVec 8))
  | spdm (f : Nat) (bytes : List (BitVec 8))
  | beacon (port : Option Nat)
  | tdo (bits : Nat) (value : Nat)
  | wake (hp : Nat)
  /-- An MCTP message in PCIe vendor-defined messages (R434). -/
  | mctp (f : Nat) (bytes : List (BitVec 8))
  /-- A Device Readiness Status message of a host port (R425). -/
  | ready (hp : Nat)
  deriving DecidableEq, Repr

/-- The state of the part. -/
structure State where
  /-- Every 64-bit register by its CSR offset; an unlisted register reads as its POR value. -/
  csr : Map Word
  /-- The physical address space of R197; an unlisted byte reads as zero. -/
  mem : Map Byte
  /-- Poisoned stored words, by physical address / 8 (R374, R376). -/
  poison : List Nat
  tally : Map Entry
  banks : Map Bank
  flags : Map Flag
  queues : Map Queue
  parts : Map Part
  cars : Map Car
  wgh : Map Wgh
  ports : Map Port
  tolls : Map Toll
  spice : Map (List Byte)
  dev : Dev
  scout : Scout
  out : List Out
  /-- The model's own counter of free values drawn (log entry 6). -/
  free : Nat
  /-- The commands that wait, first in first out. -/
  pending : List Instr
  deriving DecidableEq, Repr

/-- Why the machine stops. -/
inductive Fault where
  /-- BAR2_ACCESS and the scout's memory operations raise it when a window maps to a physical address that R197 gives
  no region. R202 keeps such windows out, so no run from reset meets it. SAFE: the model stops. -/
  | physicalHole (pa : Nat)
  deriving DecidableEq, Repr

/-- Why a command has no meaning here. -/
inductive Refusal where
  /-- Raised by a dispatch arm for a command not modelled yet; no arm raises it now. SAFE: the model stops. -/
  | notModelled (mnemonic : String)
  deriving DecidableEq, Repr

def Entry.zero : Entry := ⟨0, 0, .fin, .fin, false⟩
def Acc.zero : Acc := ⟨0, .fin⟩
def Bank.empty : Bank := ⟨.free, false, 0xFFFFFFFF, 0, 0, 0, 0, 0, 0, [], false, 0, 0, false, 0, 0, 0⟩
def Flag.none : Flag := ⟨0, 0, false⟩
def Queue.empty : Queue := ⟨0, [], [], 0, none⟩
/-- Eight stations without a tile. -/
def noTiles : List (Option TileAt) := [none, none, none, none, none, none, none, none]
def Car.idle : Car :=
  { vStart := 0, vLen := 0, vLegs := 0, incoming := noTiles, tiles := noTiles, previous := noTiles, prevEnd := 0, shadow := noTiles, cells := [],
    pipe := [], fills := [], runs := [], xfers := [], nextX := 0, reads := [], ahead := [], swapOff := none, staged := [], fencePend := [],
    replayAt := none, restart := false, remnant := [] }
def Consign.none : Consign := ⟨0, 0, [], 0, false, [], [], 0, [], .none, 0, .none, [], false, false, false⟩
def Part.none : Part :=
  ⟨[], [], (0, 0), [], 1, .none, .none, [], false, .none, .none, [], [], .none, 0, [], 0, [.none, .none, .none, .none], .none, .none, false, false,
   Consign.none, 0, 0, .none, false, 0, 0, 0⟩
def Wgh.none : Wgh := ⟨[], 0, [], [], [], [], [], [], [], [], [], .none, Acc.zero, 0, 0, 0⟩
def Asm.none : Asm := ⟨[], 0, false, false⟩
def Port.idle : Port := ⟨0, 0, 0, false, 0, 0, 0, false, 0, false, [], [], [], [], [], [], 0, false, 0, false, false⟩
def Toll.idle : Toll := ⟨39, none, 0⟩
def Scout.idle : Scout := ⟨1, 0, 0, none, 0, 0⟩
/-- The device right after power-on reset, before START_UP: PWRGD high, both lugs in range, nothing verified. -/
def Dev.por : Dev :=
  { pwrgd := true, aux := true, lugA := true, lugB := true, halfOnW := false, halfOnE := false, started := false,
    starts := 0, rwlLocked := false, thermtrip := false, faultL := false, safeHold := false, perstA := false,
    perstB := false, hostUpA := false, hostUpB := false, cxl := false, sealW := 1, sealE := 1, factorUp := true,
    slot0 := none, slot1 := none, active := 0, running := none, fences := [], fencedStacks := [], fencedCars := [],
    fencedHalves := [], rebuild := [], journalW := 0, journalE := 8, journalAtW := 0, journalAtE := 8 * (48 * 2 ^ 30), rowReads := [], noMaster := [], riskR := 4000, timeouts1s := [], poisoned24 := [],
    applying := none, temps := [], hotFields := [], fastLoop := false, p3Pending := false, sealQ := [] }

/-- The part right after power-on reset: every register at its POR value, every SRAM zero, no command waiting. -/
def State.reset : State :=
  { csr := [], mem := [], poison := [], tally := [], banks := [], flags := [], queues := [], parts := [], cars := [],
    wgh := [], ports := [], tolls := [], spice := [], dev := Dev.por, scout := Scout.idle, out := [], free := 0,
    pending := [] }

end Sys2Proof.Machine
end

