-- ==== Sys2Proof/Machine/Ops.lean ====
section
/-!
DEFINITION. The named operations every meaning uses: bit fields, registers, memory, flags, the per-unit records,
counters, holds, and what the part sends out.
-/
namespace Sys2Proof.Machine

/-! Bit fields and bytes (R8, R206: little-endian). -/

/-- The field of `width` bits at `lsb` of a number. -/
def bitsOf (w lsb width : Nat) : Nat := w / 2 ^ lsb % 2 ^ width

/-- One bit of a number. -/
def bitOf (w lsb : Nat) : Bool := bitsOf w lsb 1 = 1

/-- Replace the field of `width` bits at `lsb` by `v`. -/
def putBits (w lsb width v : Nat) : Nat :=
  w % 2 ^ lsb + v % 2 ^ width * 2 ^ lsb + w / 2 ^ (lsb + width) * 2 ^ (lsb + width)

/-- The number a little-endian byte list spells. -/
def leNat : List Byte → Nat
  | [] => 0
  | b :: bs => b.toNat + 256 * leNat bs

/-- `n` little-endian bytes of a number. -/
def leBytes : Nat → Nat → List Byte
  | 0, _ => []
  | n + 1, v => BitVec.ofNat 8 v :: leBytes n (v / 256)

/-- A number from bytes `i` to `i + n − 1` of a little-endian image. -/
def leAt (bs : List Byte) (i n : Nat) : Nat := leNat ((bs.drop i).take n)

def boolNat (b : Bool) : Nat := if b then 1 else 0

/-- Ceiling division. -/
def cdiv (a b : Nat) : Nat := (a + b - 1) / b

/-! Registers (R6, R7). -/

/-- The indices of an offset that lies `r` beyond a family's base, if it is one of the family's registers. -/
def famIdx : List (Nat × Nat) → Nat → Option (List Nat)
  | [], r => if r = 0 then some [] else none
  | (count, stride) :: ds, r =>
    let i := r / stride
    if i < count then (famIdx ds (r % stride)).map (i :: ·) else none

/-- Find the register at a CSR offset: its family and indices. -/
def findReg (off : Nat) : List Fam → Option (Fam × List Nat)
  | [] => none
  | f :: fs =>
    if f.base ≤ off then
      match famIdx f.dims (off - f.base) with
      | some is => some (f, is)
      | none => findReg off fs
    else findReg off fs

/-- The fused fields of DEV_STEP and DEV_SERIAL (R4). -/
def fusedVal (name : String) : Nat :=
  if name = "STEPPING" then (if Config.isB0 then 0x10 else 0x01)
  else if name = "METAL" then Config.metal.toNat
  else Config.serial.toNat

/-- A field's value in a reset column, given the value it holds (R7). -/
def RVal.apply (v : RVal) (name : String) (cur : Nat) : Nat :=
  match v with
  | .val n => n
  | .kept | .live => cur
  | .image | .cause => 0
  | .fused => fusedVal name

/-- A register word from its field values. -/
def wordOf (fs : List Field) (val : Field → Nat) : Word :=
  BitVec.ofNat 64 (fs.foldl (fun w f => putBits w f.lsb f.width (val f)) 0)

/-- The latency descriptor (R138, R139): the header and 21 entries at CSR 0x1000. -/
def latEntries : List TimeEnt :=
  let b := Config.isB0
  [⟨0x01, 7, 1⟩, ⟨0x02, 4, 1⟩, ⟨0x03, 32, 32⟩, ⟨0x04, 4, 96⟩, ⟨0x10, 3, 1⟩, ⟨0x11, if b then 7 else 9, 1⟩,
   ⟨0x12, if b then 7 else 9, 1⟩, ⟨0x13, 8, 1⟩, ⟨0x14, 12, 4⟩, ⟨0x15, 6, 1⟩, ⟨0x20, 5, 1⟩, ⟨0x30, 1, 1⟩] ++
  [⟨0x31, 16, 1⟩, ⟨0x32, 28, 1⟩, ⟨0x33, 2, 1⟩, ⟨0x40, 80, 64⟩, ⟨0x41, 600, 1⟩, ⟨0x42, 2, 1⟩, ⟨0x43, 12, 1⟩,
   ⟨0xF0, 14, 0⟩, ⟨0xF1, 24, 0⟩]

/-- Elastic classes of R139. -/
def latElastic (cls : Nat) : Bool := 0x40 ≤ cls && cls ≤ 0x43

/-- One entry in the descriptor's layout (R138). -/
def latWord (e : TimeEnt) : Nat :=
  e.cls + e.lat * 2 ^ 16 + e.ival * 2 ^ 32 + boolNat (latElastic e.cls) * 2 ^ 48

/-- Word i of the latency descriptor. -/
def latDescWord (i : Nat) : Nat :=
  if i = 0 then 21 + 1 * 2 ^ 16 + 1 * 2 ^ 24 + fusedVal "STEPPING" * 2 ^ 32
  else match latEntries[i - 1]? with
    | some e => latWord e
    | none => 0

/-- The POR value of the register at an offset; zero where the spec places no register. -/
def porWord (off : Nat) : Word :=
  if 0x1000 ≤ off && off < 0x10B0 && off % 8 = 0 then BitVec.ofNat 64 (latDescWord ((off - 0x1000) / 8))
  else match findReg off famTable with
    | some (f, _) => wordOf f.fields (fun x => x.por.apply x.name 0)
    | none => 0

/-- Read a register. -/
def State.reg (s : State) (off : Nat) : Word := Map.get (porWord off) s.csr off
/-- Write a register. -/
def State.setReg (s : State) (off : Nat) (w : Word) : State := { s with csr := Map.set (porWord off) s.csr off w }
/-- Read a field. -/
def State.fld (s : State) (r : FieldRef) : Nat := bitsOf (s.reg r.off).toNat r.lsb r.width
/-- Read a one-bit field. -/
def State.flag1 (s : State) (r : FieldRef) : Bool := s.fld r = 1
/-- Write a field. -/
def State.setFld (s : State) (r : FieldRef) (v : Nat) : State :=
  s.setReg r.off (BitVec.ofNat 64 (putBits (s.reg r.off).toNat r.lsb r.width v))
/-- Count up, stopping at all ones. -/
def State.count (s : State) (r : FieldRef) (n : Nat) : State :=
  s.setFld r (min (s.fld r + n) (2 ^ r.width - 1))
/-- Keep the larger value. -/
def State.keepMax (s : State) (r : FieldRef) (n : Nat) : State := s.setFld r (max (s.fld r) n)

/-! Memory (R197). -/

/-- Read a byte of the physical space; an unlisted byte reads as zero (log entry 3). -/
def State.byte (s : State) (pa : Nat) : Byte := Map.get 0 s.mem pa
/-- Write a byte; its stored word is no longer poisoned (R376). -/
def State.setByte (s : State) (pa : Nat) (b : Byte) : State :=
  { s with mem := Map.set 0 s.mem pa b, poison := s.poison.filter (· != pa / 8) }
/-- Read `n` bytes. -/
def State.bytes (s : State) (pa n : Nat) : List Byte := (List.range n).map (fun i => s.byte (pa + i))
/-- Write bytes at rising addresses. -/
def State.setBytes (s : State) (pa : Nat) : List Byte → State
  | [] => s
  | b :: bs => (s.setByte pa b).setBytes (pa + 1) bs
/-- Whether any byte of a range lies in a poisoned word. -/
def State.poisoned (s : State) (pa n : Nat) : Bool := s.poison.any (fun w => w * 8 < pa + n && pa < w * 8 + 8)
/-- Zero every byte of a range (SRAM resets, R427; invalidated staging, R223). -/
def State.zeroRange (s : State) (base size : Nat) : State :=
  { s with mem := s.mem.filter (fun c => !(base ≤ c.1 && c.1 < base + size)),
           poison := s.poison.filter (fun w => !(base ≤ w * 8 && w * 8 < base + size)) }

/-! The per-unit records. -/

def State.part (s : State) (p : Nat) : Part := Map.get Part.none s.parts p
def State.setPart (s : State) (p : Nat) (x : Part) : State := { s with parts := Map.set Part.none s.parts p x }
def State.updPart (s : State) (p : Nat) (f : Part → Part) : State := s.setPart p (f (s.part p))
def State.car (s : State) (c : Nat) : Car := Map.get Car.idle s.cars c
def State.setCar (s : State) (c : Nat) (x : Car) : State := { s with cars := Map.set Car.idle s.cars c x }
def State.updCar (s : State) (c : Nat) (f : Car → Car) : State := s.setCar c (f (s.car c))
def State.bank (s : State) (k : Nat) : Bank := Map.get Bank.empty s.banks k
def State.setBank (s : State) (k : Nat) (x : Bank) : State := { s with banks := Map.set Bank.empty s.banks k x }
def State.entry (s : State) (k : Nat) : Entry := Map.get Entry.zero s.tally k
def State.setEntry (s : State) (k : Nat) (x : Entry) : State := { s with tally := Map.set Entry.zero s.tally k x }
def State.flagAt (s : State) (k : Nat) : Flag := Map.get Flag.none s.flags k
def State.setFlag (s : State) (k : Nat) (x : Flag) : State := { s with flags := Map.set Flag.none s.flags k x }
def State.queue (s : State) (k : Nat) : Queue := Map.get Queue.empty s.queues k
def State.setQueue (s : State) (k : Nat) (x : Queue) : State := { s with queues := Map.set Queue.empty s.queues k x }
def State.wctx (s : State) (p : Nat) : Wgh := Map.get Wgh.none s.wgh p
def State.setWctx (s : State) (p : Nat) (x : Wgh) : State := { s with wgh := Map.set Wgh.none s.wgh p x }
def State.updWctx (s : State) (p : Nat) (f : Wgh → Wgh) : State := s.setWctx p (f (s.wctx p))
def State.port (s : State) (i : Nat) : Port := Map.get Port.idle s.ports i
def State.setPort (s : State) (i : Nat) (x : Port) : State := { s with ports := Map.set Port.idle s.ports i x }
def State.updPort (s : State) (i : Nat) (f : Port → Port) : State := s.setPort i (f (s.port i))
def State.toll (s : State) (i : Nat) : Toll := Map.get Toll.idle s.tolls i
def State.setToll (s : State) (i : Nat) (x : Toll) : State := { s with tolls := Map.set Toll.idle s.tolls i x }
def State.updDev (s : State) (f : Dev → Dev) : State := { s with dev := f s.dev }
def State.updScout (s : State) (f : Scout → Scout) : State := { s with scout := f s.scout }
/-- Send something out, after what was sent before. -/
def State.emit (s : State) (o : Out) : State := { s with out := s.out ++ [o] }
/-- Draw the next free value (log entry 6). -/
def State.draw (s : State) : Nat × State := (Config.freeNat s.free, { s with free := s.free + 1 })

/-! Units and partitions (R8, R17). -/

/-- Unit identifier of a block inside a caravan (R8). -/
def unitId (c stn blk : Nat) : Nat := c / 12 * 2 ^ 15 + c % 12 * 2 ^ 11 + stn * 2 ^ 8 + blk
/-- Unit identifier of a block with an instance number (R8). -/
def unitInst (half inst blk : Nat) : Nat := half * 2 ^ 15 + inst * 2 ^ 8 + blk

/-- The caravans of a partition in ordinal order (R17, R380). -/
def State.caravans (s : State) (p : Nat) : List Nat := (s.part p).cmap
/-- The home caravan: the one of lowest ordinal (R143). -/
def State.home (s : State) (p : Nat) : Nat := (s.caravans p).headD 0
/-- Whether a partition spans both halves. -/
def State.spans (s : State) (p : Nat) : Bool := (s.caravans p).any (· < 12) && (s.caravans p).any (12 ≤ ·)
/-- The partition that owns a function, by PRT_GRANT (R437). -/
def State.partOfFn (s : State) (f : Nat) : Option Nat :=
  (List.range 8).find? (fun p => bitOf (s.fld (Csr.prtGrant_functions p)) f)
/-- The partition that owns a caravan. -/
def State.partOfCar (s : State) (c : Nat) : Option Nat := (List.range 8).find? (fun p => (s.caravans p).contains c)
/-- A right of PRT_GRANT: 0 TELEMETRY, 1 TUNE, 2 DEBUG, 3 CXL (R437). -/
def State.right (s : State) (p bit : Nat) : Bool := bitOf (s.fld (Csr.prtGrant_grants p)) bit

/-! The running execution. -/

def State.exec? (s : State) (p : Nat) : Option Exec := (s.part p).exec
def State.setExec (s : State) (p : Nat) (e : Exec) : State := s.updPart p (fun x => { x with exec := some e })
def State.updExec (s : State) (p : Nat) (f : Exec → Exec) : State :=
  match s.exec? p with
  | some e => s.setExec p (f e)
  | none => s
def State.pace (s : State) (p : Nat) : Nat := s.fld (Csr.prtPace_pace p)
/-- The order pace (R121): the pace count less the order base of the running execution. -/
def State.orderPace (s : State) (p : Nat) : Nat :=
  match s.exec? p with
  | some e => s.pace p - e.base
  | none => s.pace p - s.fld (Csr.prtOrderBase_base p)

/-- Bytes `i` to `i + n − 1` of an order header (R442), as a number. -/
def hdrAt (h : BitVec 1024) (i n : Nat) : Nat := bitsOf h.toNat (8 * i) (8 * n)

/-! Events to hosts (R451). -/

/-- Put a 16-byte event in a partition's event queue, or count it dropped when the queue is full (log entry 12), and
signal MSI-X vector 1 (R447). -/
def State.event (s : State) (p type unit detail : Nat) : State :=
  let depth := 2 ^ s.fld (Csr.hqEvq_log2Depth p)
  let n := (s.part p).evCount
  if n < depth && 4 ≤ s.fld (Csr.hqEvq_log2Depth p) then
    let w0 := type + unit * 2 ^ 16 + detail % 2 ^ 32 * 2 ^ 32
    let fn := s.fld (Csr.hqCpl_func p)
    ((s.updPart p (fun x => { x with evCount := n + 1 })).emit
      (.hostWrite fn (s.fld (Csr.hqEvq_base p) + 16 * n) (leBytes 8 w0 ++ leBytes 8 (s.pace p)))).emit (.msix fn 1)
  else s.count (Csr.hqEvq_dropped p) 1

/-! Holds (R127 to R129). -/

def State.held (s : State) (p : Nat) : Bool := !(s.part p).holds.isEmpty
def State.hasHold (s : State) (p src : Nat) : Bool := (s.part p).holds.any (·.src = src)

/-- The hold-wave bound of a partition (R128). -/
def State.wave (s : State) (p : Nat) : Nat := if s.spans p then 24 else 14

/-- The holds in force once a source raises one: it merges with a hold of the same source, known lengths with known ones and
releases that are waited for with each other, since a unit stays stopped until the last of them ends (R129). -/
def holdList (hs : List Hold) (src : Nat) (len : Option Nat) : List Hold :=
  if hs.any (fun h => h.src = src && h.left.isSome = len.isSome) then
    hs.map (fun h => if h.src = src && h.left.isSome = len.isSome then
      { h with left := match h.left, len with
                 | some a, some b => some (max a b)
                 | x, _ => x } else h)
  else hs ++ [⟨src, len⟩]

/-- Raise a hold: it merges with those in force, and counts once per source (R129, R153). The largest skew during the hold is a
free value within the bound of the hold wave (R128, log entry 6). -/
def State.hold (s : State) (p src : Nat) (len : Option Nat) : State :=
  let new := boolNat (!s.hasHold p src)
  let s := ((s.updPart p (fun x => { x with holds := holdList x.holds src len, merged := x.merged || !x.holds.isEmpty })).setFld
    (Csr.prtHold_lastSource p) src).count (Csr.prtHoldSrc_events p src) new
  s.draw.2.keepMax (Csr.prtHold_skewMax p) (s.draw.1 % (s.wave p + 1))

/-- Release a hold whose cause has ended: the release wave of R129. A hold of the same source with cycles left runs on. -/
def State.unhold (s : State) (p src : Nat) : State :=
  s.updPart p (fun x =>
    let hs := x.holds.filter (fun h => h.src != src || h.left.isSome)
    { x with holds := hs, merged := x.merged && !hs.isEmpty })

/-- The end of merged holds: the units that lost fewer cycles stop for the difference, under source 8 (R129). -/
def State.realign (s0 s : State) (p n : Nat) : State :=
  if (s0.part p).merged && !s.held p && n ≠ 0 then s.hold p 8 (some n) else s

/-- The same, when nothing tells the difference: a free value up to the bound of the hold wave (log entry 6). -/
def State.realignFree (s0 s : State) (p : Nat) : State :=
  if (s0.part p).merged && !s.held p then
    let (x, s) := s.draw
    s0.realign s p (x % (s.wave p + 1))
  else s

/-- Release a hold; at the end of merged ones the lockstep is restored (R129). -/
def State.release (s : State) (p src : Nat) : State := s.realignFree (s.unhold p src) p

end Sys2Proof.Machine
end

