-- ==== Sys2Proof/Machine/Saffron.lean ====
section
/-!
DEFINITION. Saffron, the counter-based generator (R271 to R275), and the CRCs of R322 and R334.
-/
namespace Sys2Proof.Machine

/-- The rotation pair of a round (R271). -/
def saffronRot (rnd : Nat) : Nat × Nat :=
  match rnd % 5 with
  | 0 => (8, 20)
  | 1 => (16, 4)
  | 2 => (24, 12)
  | 3 => (4, 28)
  | _ => (12, 16)

/-- One round on (x0, x1, x2, x3), the words renamed at its end (R271). -/
def saffronRound (k0 k1 : BitVec 32) (rnd : Nat) (x : BitVec 32 × BitVec 32 × BitVec 32 × BitVec 32) :
    BitVec 32 × BitVec 32 × BitVec 32 × BitVec 32 :=
  let (a, b) := saffronRot rnd
  let (x0, x1, x2, x3) := x
  let x0 := x0 + ((if rnd % 2 = 0 then k0 else k1) ^^^ (0x5AFF0000#32 + BitVec.ofNat 32 rnd))
  let x1 := x1 ^^^ x0.rotateLeft a
  let x2 := x2 + x1
  let x3 := x3 ^^^ x2.rotateLeft b
  let x0 := x0 + x3
  (x1, x2, x3, x0)

/-- Saffron's output for a key and a counter (R271). -/
def saffron (key : BitVec 64) (ctr : BitVec 128) : BitVec 128 :=
  let k0 := key.extractLsb' 0 32
  let k1 := key.extractLsb' 32 32
  let x := (List.range 10).foldl (fun x rnd => saffronRound k0 k1 rnd x)
    (ctr.extractLsb' 0 32, ctr.extractLsb' 32 32, ctr.extractLsb' 64 32, ctr.extractLsb' 96 32)
  let (x0, x1, x2, x3) := x
  x3 ++ x2 ++ (x1 + k1) ++ (x0 + k0)

/-- The 16-bit draw of an element whose flat index is i, in a stream given by the counter's upper 64 bits (R272). -/
def saffronDraw (key : BitVec 64) (hi : BitVec 64) (i : Nat) : Nat :=
  ((saffron key (hi ++ BitVec.ofNat 64 (i / 8))).extractLsb' (16 * (i % 8)) 16).toNat

/-- The counter's upper half (R273): stream, STEP, LAYER or PASS, TENSOR or destination descriptor. -/
def saffronHi (stream : Nat) (step : BitVec 32) (mid low : Nat) : BitVec 64 :=
  BitVec.ofNat 8 stream ++ step ++ BitVec.ofNat 12 mid ++ BitVec.ofNat 12 low

/-- One byte of CRC-64/ECMA-182 (R322). -/
def crc64Byte (c : BitVec 64) (b : Byte) : BitVec 64 :=
  (List.range 8).foldl (fun c _ => if c.msb then (c <<< 1) ^^^ 0x42F0E1EBA9EA3693#64 else c <<< 1)
    (c ^^^ (b.zeroExtend 64 <<< 56))

/-- CRC-64/ECMA-182: initial value 0, no reflection, final XOR 0 (R322). -/
def crc64 (bs : List Byte) : BitVec 64 := bs.foldl crc64Byte 0

/-- One byte of the CRC-32 of IEEE 802.3, reflected (R334). -/
def crc32Byte (c : BitVec 32) (b : Byte) : BitVec 32 :=
  (List.range 8).foldl (fun c _ => if c.getLsbD 0 then (c >>> 1) ^^^ 0xEDB88320#32 else c >>> 1)
    (c ^^^ b.zeroExtend 32)

/-- CRC-32 of IEEE 802.3 (R334). -/
def crc32 (bs : List Byte) : BitVec 32 := ~~~(bs.foldl crc32Byte 0xFFFFFFFF#32)

end Sys2Proof.Machine
end

