-- ==== Sys2Proof/Machine/Flits.lean ====
section
/-!
DEFINITION. Flits and packets of the torus links (R329, R334 to R341, R343, R349): coordinates and routes, route headers, flits out with
their credits, acknowledgements and seals, and the packets this device originates.
-/
namespace Sys2Proof.Machine

/-! Coordinates and routes (R329, R339, R340). -/

/-- Axis a of a coordinate. -/
def axisOf (c a : Nat) : Nat := bitsOf c (5 * a) 5
/-- Ring size of an axis. -/
def State.ring (s : State) (a : Nat) : Nat :=
  (if a = 0 then s.fld Csr.lnkNode_xsizeM1 else if a = 1 then s.fld Csr.lnkNode_ysizeM1 else s.fld Csr.lnkNode_zsizeM1) + 1
/-- The device's own coordinate. -/
def State.self (s : State) : Nat := s.fld Csr.lnkNode_self
/-- A coordinate lies inside the ring sizes. -/
def State.inRing (s : State) (c : Nat) : Bool := c < 2 ^ 15 && (List.range 3).all (fun a => axisOf c a < s.ring a)

/-- The port toward a coordinate: X, then Y, then Z, the shorter way, positive when both are equal (R339). -/
def State.portTo (s : State) (dest : Nat) : Option Nat :=
  (List.range 3).findSome? (fun a =>
    let n := s.ring a
    let d := (axisOf dest a + n - axisOf s.self a % n) % n
    if axisOf dest a = axisOf s.self a then none else some (2 * a + (if 2 * d ≤ n then 0 else 1)))

/-- A coordinate one step along a port's direction (R333). -/
def State.stepCoord (s : State) (c port : Nat) : Nat :=
  let a := port / 2
  let n := s.ring a
  putBits c (5 * a) 5 ((axisOf c a + (if port % 2 = 0 then 1 else n - 1)) % n)

/-- Whether the link out of a port is its axis's dateline link (R340). -/
def State.dateline (s : State) (port : Nat) : Bool :=
  let x := axisOf s.self (port / 2)
  let n := s.ring (port / 2)
  if port % 2 = 0 then x + 1 = n else x = 0

/-- Unit identifier of a port (R8, R11). -/
def portUnit (i : Nat) : Nat := unitInst (i / 3) i 0x50
def State.portState (s : State) (i : Nat) : Nat := s.fld (Csr.lnkStatus_state i)
def State.active (s : State) (i : Nat) : Bool := s.portState i = 5

end Sys2Proof.Machine

namespace Sys2Proof
open Sys2Proof.Machine

/-! Route header (R338). -/

def Packet.f (k : Packet) (i n : Nat) : Nat := bitsOf k.hdr.toNat (8 * i) (8 * n)
def Packet.setF (k : Packet) (i n v : Nat) : Packet := { k with hdr := BitVec.ofNat 192 (putBits k.hdr.toNat (8 * i) (8 * n) v) }
def Packet.dest (k : Packet) : Nat := k.f 0 2
def Packet.src (k : Packet) : Nat := k.f 2 2
def Packet.kind (k : Packet) : Nat := k.f 4 1
def Packet.flags (k : Packet) : Nat := k.f 5 1
def Packet.waypoint (k : Packet) : Nat := k.f 6 2
def Packet.part (k : Packet) : Nat := k.f 10 1
def Packet.hops (k : Packet) : Nat := k.f 11 1
def Packet.index (k : Packet) : Nat := k.f 12 2
def Packet.addr (k : Packet) : Nat := k.f 16 8
/-- The payload of flit j of a packet: route header first (R338). -/
def Packet.text (k : Packet) (j : Nat) : List Byte := ((leBytes 24 k.hdr.toNat ++ k.payload).drop (228 * j)).take 228
def Packet.onLeg1 (k : Packet) : Bool := k.flags % 4 = 1
/-- The current target (R339). -/
def Packet.target (k : Packet) : Nat := if k.onLeg1 then k.waypoint else k.dest
/-- The partition flag of a packet of KIND 2 to 4; 0 for none. -/
def Packet.flag (k : Packet) : Nat :=
  if k.kind = 2 then (if k.index / 2 ^ 6 = 0x3FF then 0 else 3968 + k.index / 2 ^ 6) else k.index

end Sys2Proof

namespace Sys2Proof.Machine

/-- Flits of a packet with a payload of n bytes behind the route header (R330, R338). -/
def flitsFor (n : Nat) : Nat := cdiv (24 + n) 228

/-- A route header that R350 calls malformed. -/
def State.malformed (s : State) (k : Packet) : Bool :=
  let kd := k.kind
  kd = 0 || 7 < kd || 4 ≤ k.flags || k.f 15 1 ≠ 0 || 8 ≤ k.part || (k.part ≠ 0 && !(2 ≤ kd && kd ≤ 4)) ||
  (k.index ≠ 0 && !(2 ≤ kd && kd ≤ 4)) || (k.f 14 1 ≠ 0 && kd ≠ 2) || 2 ^ 48 ≤ k.addr || (k.addr ≠ 0 && !(kd = 3 || kd = 5)) ||
  (k.waypoint ≠ 0 && k.flags % 2 = 0) || k.f 8 2 ≠ k.flits || 64 < k.flits || k.flits = 0 ||
  !s.inRing k.dest || !s.inRing k.src || (k.flags % 2 = 1 && !s.inRing k.waypoint)

/-! Flits out (R334 to R337, R341, R349, R351). -/

/-- Flits sent and not yet acknowledged. -/
def Port.outstanding (x : Port) : Nat := (x.txSeq + 2 ^ 16 - x.acked) % 2 ^ 16
/-- Flits that may leave on a VC now: credits, and room in the replay buffer of 12,288 flits (R336, R337). -/
def Port.room (x : Port) (vc : Nat) : Nat := min (2048 - Map.get 0 x.used vc) (12288 - x.outstanding)
/-- Whether no packet owns a VC (R341). -/
def Port.vcFree (x : Port) (vc : Nat) : Bool := x.owners.all (·.pkt.vc ≠ vc)
/-- Whether a VC can be taken now: it is free and holds a credit (R341). -/
def Port.opens (x : Port) (vc : Nat) : Bool := x.vcFree vc && 0 < x.room vc
def Port.fits (x : Port) (k : Packet) : Bool := x.opens k.vc

/-- A flit from its link header, its payload and its tag (R334). -/
def flitOf (hdr : Nat) (text tag : List Byte) : BitVec 2048 :=
  let body := leBytes 8 hdr ++ (text ++ List.replicate 228 0).take 228 ++ (tag ++ List.replicate 16 0).take 16
  BitVec.ofNat 2048 (leNat (body ++ leBytes 4 (crc32 body).toNat))

/-- Give a flit on VC 0 to 5 to the link: its sequence number, ACK, a credit, and its place in the replay buffer; sealed on an encrypted
port (R335 to R337, R349). -/
def State.sendFlit (s : State) (i vc : Nat) (start end_ poison : Bool) (text : List Byte) : State :=
  let x := s.port i
  let seq := (x.txSeq + 1) % 2 ^ 16
  let enc := s.flag1 (Csr.lnkStatus_encrypted i)
  let fixed := seq + vc * 2 ^ 32 + boolNat start * 2 ^ 35 + boolNat end_ * 2 ^ 36 + boolNat poison * 2 ^ 37 + boolNat enc * 2 ^ 39 +
    boolNat (enc && x.keyId) * 2 ^ 40 + text.length * 2 ^ 50
  let sealed := Config.linkSeal i x.keyGen true (x.txCount + 1) fixed (BitVec.ofNat 1824 (leNat text))
  let w := if enc then flitOf (fixed + x.rxSeq * 2 ^ 16) (leBytes 228 sealed.toNat) (leBytes 16 (sealed.toNat / 2 ^ 1824))
    else flitOf (fixed + x.rxSeq * 2 ^ 16) text []
  (s.updPort i (fun x => { x with
    txSeq := seq, txCount := (x.txCount + 1) % 2 ^ 64, used := Map.set 0 x.used vc (Map.get 0 x.used vc + 1), replay := x.replay ++ [w] })).emit (.flit i w)

/-- A link-only flit: ACK, a NAK, credits (R335, R336); a port that is down sends none. -/
def State.linkOnly (s : State) (i : Nat) (nak : Bool) (vc credits : Nat) : State :=
  if s.portState i < 3 || 5 < s.portState i then s else s.emit (.flit i (flitOf ((s.port i).rxSeq * 2 ^ 16 + 6 * 2 ^ 32 + boolNat nak * 2 ^ 38 + vc * 2 ^ 41 + credits * 2 ^ 44) [] []))

/-- Flits that have left a receive buffer return as credits, 63 a flit at most (R335, R337). -/
def State.freed (s : State) (i vc n : Nat) : State :=
  (List.range (cdiv n 63)).foldl (fun s j => s.linkOnly i false vc (min 63 (n - 63 * j))) s

/-- The owner of a VC sends what credits and the replay buffer let it; flits that leave a receive buffer return as credits there, and
after END the VC is free (R337, R341). -/
def State.runOwner (s : State) (i vc : Nat) : State :=
  match (s.port i).owners.find? (·.pkt.vc = vc) with
  | none => s
  | some q =>
    let n := min (if q.cut then 1 else q.pkt.flits - q.sent) ((s.port i).room vc)
    let s := (List.range n).foldl (fun s j =>
      if q.cut then s.sendFlit i vc false true true []
      else s.sendFlit i vc (q.sent + j = 0) (q.sent + j + 1 = q.pkt.flits) false (q.pkt.text (q.sent + j))) s
    let ended := if q.cut then n = 1 else q.sent + n = q.pkt.flits
    let s := s.updPort i (fun x => { x with
      owners := x.owners.filter (·.pkt.vc ≠ vc) ++ (if ended then [] else [{ q with sent := q.sent + n }]) })
    match q.src with
    | some (a, v) => if n = 0 || q.cut then s else s.freed a v n
    | none => s

/-- A packet takes its VC on a port (R341). -/
def State.giveOut (s : State) (i : Nat) (k : Packet) (src : Option (Nat × Nat)) : State :=
  (s.updPort i (fun x => { x with owners := x.owners ++ [⟨k, 0, src, false⟩] })).runOwner i k.vc

/-- The owner of a VC goes on, and then this device's packets that wait for the VC, in order. -/
def State.pumpVc (i vc : Nat) : Nat → State → State
  | 0, s => s
  | n + 1, s =>
    let s := s.runOwner i vc
    match (s.port i).txq.find? (·.vc = vc) with
    | none => s
    | some k =>
      if (s.port i).fits k then
        State.pumpVc i vc n ((s.updPort i (fun x => { x with txq := x.txq.erase k })).giveOut i k none)
      else s

/-- A port that carries packets: ACTIVE, or SECURE for those of its own attestation (R348). -/
def State.carries (s : State) (i : Nat) : Bool := s.active i || s.portState i = 4

def State.pump (s : State) (i : Nat) : State :=
  if s.carries i then (List.range 6).foldl (fun s vc => State.pumpVc i vc ((s.port i).txq.length + 1) s) s else s

/-! Sending (R339, R343). -/

/-- The detour of a destination: the lowest valid entry that matches (R343). -/
def State.detour (s : State) (dest : Nat) : Option Nat :=
  (List.range 64).findSome? (fun e =>
    if s.flag1 (Csr.lnkDetour_valid e) && Nat.land dest (s.fld (Csr.lnkDetour_destMask e)) = s.fld (Csr.lnkDetour_destMatch e) then
      some (s.fld (Csr.lnkDetour_waypoint e)) else none)

/-- A packet this device originates, of a traffic class, with its route header's fields from KIND on; `wp` is its detour's waypoint. -/
def State.makePacket (s : State) (cls dest : Nat) (wp : Option Nat) (kind part index caravan addr : Nat) (payload : List Byte) : Packet :=
  let n := flitsFor payload.length
  let h := dest + s.self * 2 ^ 16 + kind * 2 ^ 32 + boolNat wp.isSome * 2 ^ 40 + wp.getD 0 * 2 ^ 48 + n * 2 ^ 64 +
    part * 2 ^ 80 + index * 2 ^ 96 + caravan * 2 ^ 112 + addr % 2 ^ 48 * 2 ^ 128
  let odd := ((s.portTo (wp.getD dest)).map s.dateline).getD false
  ⟨2 * cls + boolNat odd, n, BitVec.ofNat 192 h, payload⟩

/-- A KIND 6 or 7 packet to the direct partner of a port: link control and beacons are never forwarded (R347). They travel as control. -/
def State.toPartner (s : State) (i kind : Nat) (payload : List Byte) : State :=
  let dest := s.fld (Csr.lnkStatus_peer i)
  let n := flitsFor payload.length
  let h := dest + s.self * 2 ^ 16 + kind * 2 ^ 32 + n * 2 ^ 64
  let k : Packet := ⟨boolNat (s.dateline i), n, BitVec.ofNat 192 h, payload⟩
  if s.carries i then (s.updPort i (fun x => { x with txq := x.txq ++ [k] })).pump i else s

/-- Give a packet of this device to the port toward its target. One to a port that is not ACTIVE is lost (log entry 24). -/
def State.post (s : State) (k : Packet) (target : Nat) : State :=
  match s.portTo target with
  | none => s
  | some i =>
    if s.active i then (s.updPort i (fun x => { x with txq := x.txq ++ [k] })).pump i
    else s.count (Csr.lnkDrop_unroutable i) 1

/-- Send a packet by the detour table as it stands (R343). -/
def State.sendPacket (s : State) (cls dest kind part index caravan addr : Nat) (payload : List Byte) : State :=
  let wp := s.detour dest
  s.post (s.makePacket cls dest wp kind part index caravan addr payload) (wp.getD dest)

end Sys2Proof.Machine
end

