-- ==== Sys2Proof/Machine/Operands.lean ====
section
/-!
DEFINITION. Operand forms (07_memory_and_streams): physical regions, windows, bank pairs, role views and the own-satchel
alias, descriptors and their checks, and reading and writing elements in every format.
-/
namespace Sys2Proof.Machine

/-- The regions of the physical space (R197). -/
inductive Region where
  | hbm
  | satchel
  | depot
  | role
  | alias_
  | cxl
  deriving DecidableEq, Repr

def mib : Nat := 2 ^ 20
def gib : Nat := 2 ^ 30
def satchelBase (g : Nat) : Nat := 0x100000000000 + g * 0x1000000
def depotBase (c : Nat) : Nat := 0x100100000000 + c * 0x4000000
def roleBase (c : Nat) : Nat := 0x100200000000 + c * 0x4000000
def aliasBase : Nat := 0x100300000000
def cxlBase : Nat := 0x200000000000

/-- The region a physical address lies in; none is a hole (R197). -/
def regionOf (pa : Nat) : Option Region :=
  if pa < 768 * gib then some .hbm
  else if satchelBase 0 ≤ pa && pa < satchelBase 192 then some .satchel
  else if depotBase 0 ≤ pa && pa < depotBase 24 then some .depot
  else if roleBase 0 ≤ pa && pa < roleBase 24 then some .role
  else if aliasBase ≤ pa && pa < aliasBase + 16 * mib then some .alias_
  else if cxlBase ≤ pa && pa < cxlBase + 4096 * gib then some .cxl
  else none

/-- A valid window (R201). -/
structure Win where
  read : Bool
  write : Bool
  vbase : Nat
  size : Nat
  pbase : Nat
  deriving DecidableEq, Repr

/-- Window `i` of a partition, when valid (R201, R226). -/
def State.win (s : State) (p i : Nat) : Option Win :=
  if s.flag1 (Csr.prtWinVa_valid p i) then
    some ⟨s.flag1 (Csr.prtWinVa_read p i), s.flag1 (Csr.prtWinVa_write p i), s.fld (Csr.prtWinVa_vbase p i) * 2 ^ 21,
      s.fld (Csr.prtWinVa_pages p i) * (if s.flag1 (Csr.prtWinVa_huge p i) then gib else 2 * mib),
      s.fld (Csr.prtWinPa_pbase p i) * 2 ^ 21⟩
  else none

def Win.covers (w : Win) (va : Nat) : Bool := w.vbase ≤ va && va < w.vbase + w.size

/-- The window that covers a partition-virtual address (R201). -/
def State.winOf (s : State) (p va : Nat) : Option Win :=
  (List.range 128).findSome? (fun i => (s.win p i).filter (·.covers va))

/-- Translation (R201): PA = PBASE + (VA − VBASE). -/
def State.vaPa (s : State) (p va : Nat) : Option Nat :=
  (s.winOf p va).map (fun w => w.pbase + (va - w.vbase))

/-- The first window's address of a physical byte; zero when no window reaches it. -/
def State.vaOf (s : State) (p pa : Nat) : Nat :=
  ((List.range 128).findSome? (fun i => (s.win p i).bind (fun w =>
    if w.pbase ≤ pa && pa < w.pbase + w.size then some (w.vbase + (pa - w.pbase)) else none))).getD 0

/-- Staging bytes per half (R198). -/
def State.staging (s : State) (c : Nat) : Nat := s.fld (Csr.drvDepot_staging c) * 2 * mib

/-- A role-view address to its depot address, by FILL_HALF (R199); none outside the staging region. -/
def State.roleResolve (s : State) (pa : Nat) : Option Nat :=
  let o := pa - roleBase 0
  let c := o / 0x4000000
  let role := o % 0x4000000 / (32 * mib)
  let b := o % (32 * mib)
  let half := (s.fld (Csr.drvDepot_fillHalf c) + role) % 2
  if b < s.staging c then some (depotBase c + half * (32 * mib) + b) else none

/-- Bank-pair redirection of an HBM address (R284). -/
def State.redirect (s : State) (pa : Nat) : Nat :=
  let hit := (List.range 64).findSome? (fun i =>
    let p := i / 8
    let n := i % 8
    let base := s.fld (Csr.updPair_base p n) * 2 ^ 21
    let size := s.fld (Csr.updPair_pages p n) * (2 * mib)
    if s.flag1 (Csr.updPair_valid p n) && base ≤ pa && pa < base + 2 * size then some (p, base, size) else none)
  match hit with
  | some (p, base, size) =>
    if s.flag1 (Csr.updCommit_live p) then (if pa < base + size then pa + size else pa - size) else pa
  | none => pa

/-- Where an address lands, for station g (R197, R199, R284, R471). -/
def State.resolve (s : State) (g pa : Nat) : Option Nat :=
  match regionOf pa with
  | some .alias_ => some (satchelBase g + (pa - aliasBase))
  | some .role => s.roleResolve pa
  | some .hbm => some (s.redirect pa)
  | some _ => some pa
  | none => none

/-- The physical place of a partition-virtual byte, for station g. -/
def State.place (s : State) (p g va : Nat) : Option Nat := (s.vaPa p va).bind (s.resolve g)

def State.vbyte (s : State) (p g va : Nat) : Byte :=
  match s.place p g va with
  | some pa => s.byte pa
  | none => 0

def State.vbytes (s : State) (p g va n : Nat) : List Byte := (List.range n).map (fun i => s.vbyte p g (va + i))

def State.setVbyte (s : State) (p g va : Nat) (b : Byte) : State :=
  match s.place p g va with
  | some pa => s.setByte pa b
  | none => s

def State.setVbytes (s : State) (p g va : Nat) : List Byte → State
  | [] => s
  | b :: bs => (s.setVbyte p g va b).setVbytes p g (va + 1) bs

/-- The home station: station 0 of the home caravan (R471). -/
def State.homeStn (s : State) (p : Nat) : Nat := s.home p * 8

/-- A failed check: fault code, word 3. -/
abbrev Fail := Nat × Nat

/-- The first byte of a row that lies in the role view outside its staging region (R199, R203). -/
def State.roleBad (s : State) (pa len : Nat) : Option Nat :=
  match regionOf pa with
  | some .role =>
    let o := pa - roleBase 0
    let c := o / 0x4000000
    let b := o % (32 * mib)
    let sz := s.staging c
    if sz ≤ b then some 0
    else if sz < 32 * mib && sz < b + len then some (sz - b)
    else none
  | _ => none

/-- The check of one row of an extent (R203, R204). -/
def State.rowCheck (s : State) (p didx va len : Nat) (wr : Bool) : Option Fail :=
  match s.winOf p va with
  | none => some (0x11, va % 2 ^ 48)
  | some w =>
    if !(if wr then w.write else w.read) then some (0x11, va % 2 ^ 48 + 2 ^ 48)
    else if w.vbase + w.size < va + len then some (0x12, (w.vbase + w.size) % 2 ^ 48 + didx * 2 ^ 48)
    else match s.roleBad (w.pbase + (va - w.vbase)) len with
      | some i => some (0x11, (va + i) % 2 ^ 48 + 2 ^ 49)
      | none => none

/-- A descriptor (R206). `clean` says that its reserved bytes are zero. -/
structure Desc where
  base : Nat
  sbase : Nat
  rows : Nat
  rowBytes : Nat
  stride : Nat
  planes : Nat
  pstride : Nat
  kind : Nat
  layout : Nat
  clean : Bool
  deriving DecidableEq, Repr

/-- Read a descriptor from its 64 bytes (R206). -/
def parseDesc (b : List Byte) : Desc :=
  { base := leAt b 0 8, sbase := leAt b 8 8, rows := leAt b 16 4, rowBytes := leAt b 20 4, stride := leAt b 24 8,
    planes := leAt b 32 4, pstride := leAt b 40 8, kind := leAt b 48 1, layout := leAt b 49 1,
    clean := leAt b 0 8 < 2 ^ 48 && leAt b 36 4 = 0 && leAt b 50 14 = 0 }

/-- Descriptor `i` of an order's table (R206, R442). -/
def State.desc (s : State) (p : Nat) (hdr : BitVec 1024) (i : Nat) : Desc :=
  parseDesc (s.vbytes p (s.homeStn p) (hdrAt hdr 16 8 + 64 * i) 64)

/-- Record `i` of an order's table (R169, R286, R442). -/
def State.record (s : State) (p : Nat) (hdr : BitVec 1024) (i : Nat) : List Byte :=
  s.vbytes p (s.homeStn p) (hdrAt hdr 32 8 + 64 * i) 64

def Desc.logRows (d : Desc) : Nat := d.planes * d.rows
/-- Address of logical row j (R207). -/
def Desc.rowVa (d : Desc) (j : Nat) : Nat := d.base + j / d.rows * d.pstride + j % d.rows * d.stride

/-- The bytes of a block of 32 elements (R35). -/
def blockBytes (code : Nat) : Nat := 4 * elemBits code
/-- Bytes of a row of n elements; an MX row holds whole blocks (R52, R208). -/
def rowBytesOf (code n : Nat) : Nat := if isMx code then cdiv n 32 * blockBytes code else n * (elemBits code / 8)

/-- The levels a role allows (R209). -/
inductive Level where
  | satchel
  | depot
  | ledger
  | hbm
  | cxl
  | alias_
  deriving DecidableEq, Repr

/-- The levels a physical range of caravan c's depot counts as: its ledger reservation is also the ledger (R198).
R209's "the caravan" is the one whose depot holds the address (DESIGN CHOICE, log entry 48). -/
def State.levelsAt (s : State) (pa len : Nat) : List Level :=
  match regionOf pa with
  | some .hbm => [.hbm]
  | some .satchel => [.satchel]
  | some .depot =>
    let c := (pa - depotBase 0) / 0x4000000
    let o := (pa - depotBase 0) % 0x4000000
    let lb := s.fld (Csr.drvDepot_ledgerBase c) * 2 ^ 16
    let lsz := s.fld (Csr.drvDepot_ledgerSize c) * 2 ^ 16
    if lb ≤ o && o + len ≤ lb + lsz then [.depot, .ledger] else [.depot]
  | some .role => [.depot]
  | some .alias_ => [.alias_]
  | some .cxl => [.cxl]
  | none => []

/-- How a command uses a descriptor: its index, rows and bytes of one row used, direction, scale plane, index stream,
allowed levels. -/
structure Use where
  idx : Nat
  rows : Nat
  bytes : Nat
  rd : Bool
  wr : Bool
  mx : Option Nat
  checkScale : Bool
  stream : Bool
  transposed : Bool
  levels : List Level
  deriving DecidableEq, Repr

/-- Word 3 of code 0x16 (R212). -/
def bad16 (idx reason : Nat) : Fail := (0x16, idx + reason * 2 ^ 12)

/-- Reasons 1, 2, 4, 5, 6 of R212: the checks of the descriptor alone, in the order of the reasons (log entry 13). An
index stream whose PLANES is not 1 is of reason 2 (DESIGN CHOICE, log entry 47). -/
def Use.form (u : Use) (d : Desc) : Option Fail :=
  if d.kind ≠ (if u.stream then 1 else 0) then some (bad16 u.idx 1)
  else if u.stream && !(d.rowBytes = 2 || d.rowBytes = 4) then some (bad16 u.idx 2)
  else if d.logRows < u.rows || d.rowBytes < u.bytes then some (bad16 u.idx 2)
  else if u.wr && (d.stride < d.rowBytes || (1 < d.planes && d.pstride < d.rows * d.stride)) then some (bad16 u.idx 2)
  else if u.stream && d.planes ≠ 1 then some (bad16 u.idx 2)
  else if 1 < d.layout || (d.layout = 1 && !u.transposed) then some (bad16 u.idx 4)
  else if u.checkScale && (u.mx.isSome != (d.sbase != 0)) then some (bad16 u.idx 5)
  else if d.rows = 0 || d.rowBytes = 0 || d.planes = 0 || !d.clean then some (bad16 u.idx 6)
  else none

/-- Bytes of a scale plane (R207). -/
def scaleBytes (code : Nat) (d : Desc) : Nat := d.logRows * (d.rowBytes / blockBytes code)

/-- A row that a use reads, or writes, or both (R203). -/
def State.rowChecks (s : State) (p idx va len : Nat) (rd wr : Bool) : Option Fail :=
  (if rd then s.rowCheck p idx va len false else none).orElse (fun _ => if wr then s.rowCheck p idx va len true else none)

/-- The first row of an extent that fails, plane by plane and row by row (R203). -/
def State.extentChecks (s : State) (p : Nat) (d : Desc) (idx : Nat) (rd wr : Bool) : Option Fail :=
  (List.range d.logRows).findSome? (fun j => s.rowChecks p idx (d.rowVa j) d.rowBytes rd wr)

/-- The check of an extent in one direction. -/
def State.extentCheck (s : State) (p : Nat) (d : Desc) (idx : Nat) (wr : Bool) : Option Fail := s.extentChecks p d idx (!wr) wr

/-- The window checks of one use, element plane then scale plane (R203). -/
def State.useWindows (s : State) (p : Nat) (u : Use) (d : Desc) : Option Fail :=
  (s.extentChecks p d u.idx u.rd u.wr).orElse (fun _ =>
    match u.mx with
    | some c => if u.checkScale then s.rowChecks p u.idx d.sbase (scaleBytes c d) u.rd u.wr else none
    | none => none)

/-- The level check of one use (R209, reason 3 of R212): every row lies at an allowed level. -/
def State.useLevel (s : State) (p : Nat) (u : Use) (d : Desc) : Option Fail :=
  let ok (va len : Nat) : Bool :=
    match s.vaPa p va with
    | some pa => (s.levelsAt pa len).any (fun l => u.levels.contains l)
    | none => false
  if (List.range d.logRows).all (fun j => ok (d.rowVa j) d.rowBytes) &&
     (match u.mx with
      | some c => !u.checkScale || ok d.sbase (scaleBytes c d)
      | none => true)
  then none else some (bad16 u.idx 3)

/-- Every descriptor check of a command in the order of R160 and R212: forms, windows, levels. -/
def State.useChecks (s : State) (p : Nat) (hdr : BitVec 1024) (us : List Use) : Option Fail :=
  let ds := us.map (fun u => (u, s.desc p hdr u.idx))
  (ds.findSome? (fun (u, d) => u.form d)).orElse (fun _ =>
    (ds.findSome? (fun (u, d) => s.useWindows p u d)).orElse (fun _ => ds.findSome? (fun (u, d) => s.useLevel p u d)))

/-- The physical address that the windows give a byte, with the own-satchel alias resolved to station g's satchel (R212). -/
def State.windowPa (s : State) (p g va : Nat) : Option Nat :=
  (s.vaPa p va).map (fun pa => if regionOf pa = some .alias_ then satchelBase g + (pa - aliasBase) else pa)

/-- Whether two descriptors' extents share a physical byte, for some station of a list (R212, reason 8). -/
def State.overlap (s : State) (p : Nat) (stns : List Nat) (a b : Desc) : Bool :=
  stns.any (fun g =>
    (List.range a.logRows).any (fun i => (List.range b.logRows).any (fun j =>
      match s.windowPa p g (a.rowVa i), s.windowPa p g (b.rowVa j) with
      | some x, some y => x < y + b.rowBytes && y < x + a.rowBytes
      | _, _ => false)))

/-! Elements (R33, R35). -/

/-- The first bit of element c of a row (R35). -/
def elemPos (code c : Nat) : Nat :=
  if isMx code then c / 32 * (8 * blockBytes code) + c % 32 * elemBits code else c * elemBits code

/-- The bits of element c of logical row j, for station g. -/
def State.elemRaw (s : State) (p g : Nat) (d : Desc) (code j c : Nat) : Nat :=
  let w := elemBits code
  let bit := elemPos code c
  let n := (bit % 8 + w + 7) / 8
  bitsOf (leNat (s.vbytes p g (d.rowVa j + bit / 8) n)) (bit % 8) w

/-- The scale byte of the block of element c of logical row j; 0x7F in a format without scales (R34, R207). -/
def State.scaleRaw (s : State) (p g : Nat) (d : Desc) (code j c : Nat) : Nat :=
  if isMx code then (s.vbyte p g (d.sbase + j * (d.rowBytes / blockBytes code) + c / 32)).toNat else 0x7F

/-- The value of an element under its block scale (R34); 0xFF is NaN. -/
def scaledVal (code bits scale : Nat) : Val :=
  if scale = 0xFF then .nan else scaleBy ((scale : Int) - 127) (decodeElem code bits)

/-- A plain element as a value (mortar operands, R176). -/
def State.elemVal (s : State) (p g : Nat) (d : Desc) (code j c : Nat) : Val :=
  decodeElem code (s.elemRaw p g d code j c)

/-- Write a plain element of whole bytes. -/
def State.setElem (s : State) (p g : Nat) (d : Desc) (code j c bits : Nat) : State :=
  s.setVbytes p g (d.rowVa j + c * (elemBits code / 8)) (leBytes (elemBits code / 8) bits)

/-- The packed bytes of an MX block (R35): little-endian bit string of the elements. -/
def packBlock (code : Nat) (els : List Nat) : List Byte :=
  leBytes (blockBytes code) ((els.zipIdx).foldl (fun w (b, i) => w + b % 2 ^ elemBits code * 2 ^ (elemBits code * i)) 0)

/-- A poisoned stored word among a descriptor's bytes at the levels of R376, read for station g: its partition-virtual
address and level code of R405. -/
def State.poisonIn (s : State) (p g va len : Nat) : Option (Nat × Nat) :=
  if s.poison.isEmpty then none
  else (List.range len).findSome? (fun i =>
    match s.place p g (va + i) with
    | some pa =>
      if s.poisoned pa 1 then
        match regionOf pa with
        | some .hbm => some (va + i, 2)
        | some .depot => some (va + i, 1)
        | some .cxl => some (va + i, 5)
        | some .satchel => some (va + i, 0)
        | _ => none
      else none
    | none => none)

/-- Words read from the SRAMs of a half: corrected of one bit and of two, and delivered poisoned (R374, R406). -/
def State.eccSram (s : State) (h one two bad : Nat) : State :=
  ((s.count (Csr.sealEcc_corr1 h) one).count (Csr.sealEcc_corr2 h) two).count (Csr.sealEcc_uncorr h) bad

/-- A physical address in the CXL spill tier while the tier is out of reach: port A's link is down (R414), or it trained as plain PCIe
(R436). -/
def State.tierGone (s : State) (pa : Nat) : Bool := regionOf pa = some .cxl && !(s.dev.hostUpA && s.dev.cxl)

/-- Words read at a physical address, in the counters of the memory it lies in; the tier behind CXL has none (R374, R406). -/
def State.eccRead (s : State) (pa one two bad : Nat) : State :=
  match regionOf pa with
  | some .hbm =>
    let k := pa / (48 * gib)
    let s := if one + two = 0 then s
      else s.updDev (fun d => { d with rowReads := Map.set 0 d.rowReads (pa / 2048) (Map.get 0 d.rowReads (pa / 2048) + one + two) })
    ((s.count (Csr.hbmEcc_corr1 k) one).count (Csr.hbmEcc_corr2 k) two).count (Csr.hbmEcc_uncorr k) bad
  | some .satchel => s.eccSram ((pa - satchelBase 0) / 0x8000000 / 12) one two bad
  | some .depot => s.eccSram ((pa - depotBase 0) / 0x4000000 / 12) one two bad
  | _ => s

/-- Poisoned words among bytes that are read, once each (R374). -/
def State.eccWords (s : State) (pas : List Nat) : State :=
  ((pas.map (· / 8)).filter s.poison.contains).eraseDups.foldl (fun s w => s.eccRead (w * 8) 0 0 1) s

/-- A poisoned word is delivered to a reader at a partition-virtual address, and counts (R374). -/
def State.poisonRead (s : State) (p g va : Nat) : State :=
  match s.place p g va with
  | some pa => s.eccRead pa 0 0 1
  | none => s

end Sys2Proof.Machine
end

