-- ==== Sys2Proof/Machine/Flags.lean ====
section
/-!
DEFINITION. Faults (R149 to R152), flags and queues (R143 to R148), latency classes (R141), and the range events of
R38 and R49.
-/
namespace Sys2Proof.Machine

/-! Transfers and reads of a drover (R215, log entry 36). -/

/-- The transfers that a row of bytes takes: cut at the 2 KiB boundaries of its address (R215). -/
def cut2k (a n : Nat) : List (Nat × Nat) :=
  (List.range (cdiv (a % 2048 + n) 2048)).map (fun i =>
    let lo := max a ((a / 2048 + i) * 2048)
    (lo, min (a + n) ((a / 2048 + i + 1) * 2048) - lo))

/-- Transfers of a row of bytes. -/
def piecesOf (va len : Nat) : Nat := (cut2k va len).length

/-- The transfers of some reads. -/
def Fetch.pieces (x : Fetch) : Nat := (x.rows.map (fun (va, n) => piecesOf va n)).sum
/-- Those that have not come. -/
def Fetch.left (x : Fetch) : Nat := x.pieces - x.came.length
/-- The address and bytes of the transfer with an identifier, while it is out. -/
def Fetch.piece (x : Fetch) (id : Nat) : Option (Nat × Nat) :=
  if id < x.id || x.came.contains id then none else (x.rows.flatMap (fun (va, n) => cut2k va n))[id - x.id]?

/-- Transfers that a drover has outstanding: those of its commands and its reads (R215). -/
def Car.outstanding (k : Car) : Nat := k.xfers.length + (k.reads.map Fetch.left).sum

/-- The DRV_STATUS register of a caravan, from its transfers, its reads and its threads. -/
def State.drvStatus (s : State) (c : Nat) : State :=
  let k := s.car c
  let busy := (List.range 16).foldl (fun a t => if k.xfers.any (fun x => x.thread = t + 1) then a + 2 ^ t else a) 0
  (s.setFld (Csr.drvStatus_outstanding c) (min 512 k.outstanding)).setFld (Csr.drvStatus_threadsBusy c) busy

/-! Faults. -/

/-- Part faults (R372). -/
def isPartFault (code : Nat) : Bool := code = 0x15 || code = 0x21 || code = 0x70

/-- Bytes an ended order leaves undefined become free values (R151, R223; log entry 6). -/
def State.scramble (s : State) (pa n : Nat) : State :=
  let s' := s.setBytes pa ((List.range n).map (fun i => Config.freeByte (s.free + i)))
  { s' with free := s.free + n }

/-- Both staging regions of a caravan read as zero until next written (R223). -/
def State.invalidateStaging (s : State) (c : Nat) : State :=
  (s.zeroRange (depotBase c) (s.staging c)).zeroRange (depotBase c + 32 * mib) (s.staging c)

/-- A bank after its order has been stopped: a held bank stays held, any other is free (log entry 14). -/
def stopBank (k : Nat) (cs : List Nat) (b : Bank) : Bank :=
  if cs.contains (k / 42 / 8) then
    match b.st with
    | .held _ => b
    | _ => Bank.empty
  else b

/-- A caravan with nothing on its route or in its arrays, and nothing scanned; the last satchel bank staged in each station and its
transfers and reads in flight stay (R87, R223, R470). -/
def Car.stop (c : Car) : Car :=
  { Car.idle with nextX := c.nextX, staged := c.staged, xfers := c.xfers, reads := c.reads.filter (fun x => x.left ≠ 0) }

/-- The drover scans no further ahead (R213, R223, R227). -/
def State.scanOver (s : State) (c : Nat) : State :=
  (s.setFld (Csr.drvStatus_scannedAhead c) 0).setFld (Csr.drvStatus_atMark c) 0

/-- Destinations of run-ahead writes for commands never issued are undefined (R223, R224), where they land (R284). Nothing lands in a
satchel before its command's issue (R214). -/
def State.scrambleAhead (s : State) (c : Nat) : State :=
  (s.car c).ahead.foldl (fun s a => (a.wrote.filter (fun (pa, _) => regionOf pa ≠ some .satchel)).foldl (fun s (pa, n) =>
    (List.range n).foldl (fun s i => s.scramble (s.redirect (pa + i)) 1) s) s) s

/-- An execution that issues nothing more and whose commands in flight stop where they stand (R151). -/
def Exec.halted (e : Exec) : Exec := { e with cmds := [], waiting := none, ended := true, endOff := none, sigs := [], dests := [] }

/-- What ends with an order that stops by a fault, a cancel or a PRST (R151, R223): commands in flight, the route, the
drover's scan, and the certainty of the order's destinations. Transfers in flight complete and are discarded. The partition stops, and
so an order that runs interleaved with it does too. -/
def State.stopOrder (s : State) (p : Nat) : State :=
  match s.exec? p with
  | none => s
  | some e =>
    let cs := s.caravans p
    let older := (s.part p).prev
    let s := (e.dests ++ (older.map (·.dests)).getD []).foldl (fun s (pa, n) => s.scramble pa n) s
    let s := cs.foldl (fun s c => s.scrambleAhead c) s
    let s := cs.foldl (fun s c => s.invalidateStaging c) s
    let s := cs.foldl (fun s c => (s.updCar c (fun x =>
      { x.stop with xfers := x.xfers.map (fun t => { t with dropped := true }), reads := x.reads.map (fun t => { t with dropped := true }) })).scanOver
        c) s
    let s := { s with banks := Map.mapCanon (fun _ => Bank.empty) (fun k b => stopBank k cs b) s.banks }
    (s.updPart p (fun x => { x with prev := older.map Exec.halted })).setExec p e.halted

/-- The fault record of R9. -/
def faultRec (p code unit seq pace off w3 : Nat) : Word × Word × Word × Word :=
  (BitVec.ofNat 64 (code + unit * 2 ^ 8 + p * 2 ^ 24 + seq % 2 ^ 32 * 2 ^ 32), BitVec.ofNat 64 pace,
   BitVec.ofNat 64 (off % 2 ^ 48), BitVec.ofNat 64 w3)

/-- A fault raised outside any order has a record too, with sequence number 0 (R9). It reaches the host as an event of type 5, as a part
fault's record does; no execution counts its pace (log entry 23). -/
def State.raiseOutside (s : State) (p unit code w3 : Nat) : State :=
  (s.updPart p (fun x => { x with idleFault := some (faultRec p code unit 0 0 0 w3) })).event p 5 unit code

/-- Raise a fault in a partition (R150 to R152). The first fault stops the order; a second one of the same pace is
suppressed, and the record keeps the lowest stream offset and unit. -/
def State.raise (s : State) (p unit code off w3 : Nat) : State :=
  match s.exec? p with
  | none => s.raiseOutside p unit code w3
  | some e =>
    let pace := s.orderPace p
    let r := faultRec p code unit e.seq pace off w3
    match e.fault with
    | none =>
      let s := if isPartFault code then s.count Csr.csgRisk_failures 1 else s
      (s.stopOrder p).updExec p (fun e => { e with fault := some r, partFault := isPartFault code })
    | some old =>
      if old.2.1.toNat = pace then
        let s := s.count (Csr.prtFault_suppressed p) 1
        let ou := bitsOf old.1.toNat 8 16
        if off < old.2.2.1.toNat || (off = old.2.2.1.toNat && unit < ou) then
          s.updExec p (fun e => { e with fault := some r, partFault := isPartFault code })
        else s
      else s

/-! Latency classes (R140, R141). -/

/-- The entry of the binary's timing table for a class. -/
def Exec.timeOf (e : Exec) (cls : Nat) : Option TimeEnt := e.timing.find? (·.cls = cls)

/-- The latency the schedule assumes: the result is delivered at that pace, whatever the unit needs (R126, R141). -/
def Exec.lat (e : Exec) (cls : Nat) : Nat :=
  match e.timeOf cls with
  | some t => t.lat
  | none => 0

/-- The actual entry of the descriptor. -/
def actualOf (cls : Nat) : TimeEnt := (latEntries.find? (·.cls = cls)).getD ⟨cls, 0, 0⟩

/-- One completion of a class: when the actual latency exceeds the assumption it raises a hold of source 5 for the
difference and counts (R141). -/
def State.excess (s : State) (p cls : Nat) : State :=
  match (s.exec? p).bind (·.timeOf cls) with
  | none => s
  | some t =>
    let a := actualOf cls
    if !latElastic cls && t.lat < a.lat then
      (s.hold p 5 (some (a.lat - t.lat))).count (Csr.prtLatency_excessCompletions p) 1
    else s

/-- Paces by which a class of fixed latency is offered to a unit sooner than its actual interval allows (R141). -/
def Exec.lateBy (e : Exec) (cls u now : Nat) : Nat :=
  let a := actualOf cls
  match e.timeOf cls, e.lastUse.find? (fun x => x.1 = cls && x.2.1 = u) with
  | some t, some (_, _, last) => if !latElastic cls && t.ival < a.ival then last + a.ival - now else 0
  | _, _ => 0

/-- The pace of a use of a class is kept. -/
def Exec.using (e : Exec) (cls u now : Nat) : Exec :=
  { e with lastUse := (cls, u, now) :: e.lastUse.filter (fun x => !(x.1 = cls && x.2.1 = u)) }

/-- An execution uses a class: a use that comes too soon is a hold of source 5 for the difference (R141). -/
def State.useAs (s : State) (p : Nat) (e : Exec) (cls u : Nat) : State :=
  let now := s.pace p - e.base
  let s := s.setExec p (e.using cls u now)
  if e.lateBy cls u now = 0 then s else s.hold p 5 (some (e.lateBy cls u now))

def State.useClass (s : State) (p cls u : Nat) : State :=
  match s.exec? p with
  | none => s
  | some e => s.useAs p e cls u

/-! Flags (R143 to R145). -/

/-- Flag key: caravan × 4096 + index; a partition flag lies in the home caravan (R143). -/
def State.flagKey (s : State) (p c idx : Nat) : Nat := (if 3968 ≤ idx then s.home p else c) * 4096 + idx

/-- Signals on the way to a flag. -/
def Exec.signalsTo (e : Exec) (key : Nat) : Nat := (e.sigs.filter (·.1 = key)).length

/-- A caravan's flags as a slot key (R141). -/
def flagUnit (c : Nat) : Nat := 2 ^ 21 + c

/-- The latency class of a signal (R139): local, or partition flag from the same half or across the Pass. -/
def State.sigClass (s : State) (p idx : Nat) (cs : List Nat) : Nat :=
  if idx < 3968 then 0x30 else if cs.all (fun c => c / 12 = s.home p / 12) then 0x31 else 0x32

/-- A flag as an execution has it: an order that an interleaved one has overtaken keeps its own, which the next one's tables have
replaced (R148, R220; log entry 20). -/
def State.ownFlag (s : State) (e : Exec) (key : Nat) : Flag :=
  match e.kept with
  | some fs => ((fs.find? (·.1 = key)).map (·.2)).getD Flag.none
  | none => s.flagAt key

/-- A command signals its flag at completion (R144): visible after the class's latency, and to no wait of the same pace; overflow at
65,535 faults (R145), and so does an unallocated flag (R147). What an overtaken order signals counts at its end (R148). -/
def State.signal (s : State) (p off unit c idx : Nat) (cs : List Nat) : State :=
  if idx = 0 then s else
  match s.exec? p with
  | none => s
  | some e =>
    let key := s.flagKey p c idx
    let f := s.ownFlag e key
    let n := f.count + e.signalsTo key
    if f.quantum = 0 then s.raise p unit 0x01 off (idx + f.count * 2 ^ 32)
    else if 65535 ≤ n then s.raise p unit 0x05 off (idx + n * 2 ^ 32)
    else
      s.useAs p { e with sigs := e.sigs ++ [(key, s.pace p + max 1 (e.lat (s.sigClass p idx cs)), s.sigClass p idx cs)] }
        (s.sigClass p idx cs) (flagUnit (key / 4096))

/-- A signal from outside the schedule: a packet, the weighhouse (R145, R316, R346). It reaches the counter at once; signals on their way
to the flag count as in it. -/
def State.signalOutside (s : State) (p idx : Nat) : State :=
  let key := s.home p * 4096 + idx
  let f := s.flagAt key
  let n := f.count + ((s.exec? p).map (·.signalsTo key)).getD 0
  if 65535 ≤ n then
    s.raise p (unitId (s.home p) 0 0x10) 0x05 (((s.exec? p).map (·.off)).getD 0) (idx + n * 2 ^ 32)
  else s.setFlag key { f with count := f.count + 1 }

/-- Signals whose latency has passed reach their counters; a class later than assumed holds then (R141, R144). -/
def State.matureSignals (s : State) (p : Nat) : State :=
  match s.exec? p with
  | none => s
  | some e =>
    let now := s.pace p
    let s := (e.sigs.filter (·.2.1 ≤ now)).foldl (fun s (key, _, cls) =>
      let f := s.flagAt key
      (s.setFlag key { f with count := f.count + 1 }).excess p cls) s
    s.setExec p { e with sigs := e.sigs.filter (fun x => !(x.2.1 ≤ now)) }

/-- The outcome of a wait at the issue pace (R145). -/
inductive WaitRes where
  | go
  | underflow (w3 : Nat)
  | elastic
  deriving DecidableEq, Repr

def State.waitFlag (s : State) (p c idx : Nat) : WaitRes :=
  if idx = 0 then .go
  else
    let f := s.flagAt (s.flagKey p c idx)
    if f.quantum = 0 then .underflow (idx + f.count * 2 ^ 32)
    else if f.quantum ≤ f.count then .go
    else if f.elastic then .elastic
    else .underflow (idx + f.quantum * 2 ^ 16 + f.count * 2 ^ 32)

/-- The counter falls by the quantum at the command's start (R144). -/
def State.takeWait (s : State) (p c idx : Nat) : State :=
  if idx = 0 then s
  else
    let key := s.flagKey p c idx
    let f := s.flagAt key
    s.setFlag key { f with count := f.count - f.quantum }

/-! Queues (R146, R155). -/

def queueKey (c q : Nat) : Nat := c * 64 + q
def State.qDepth (s : State) (c q : Nat) : Nat := s.fld (Csr.carQueue_depth c q)
def State.qOcc (s : State) (c q : Nat) : Nat := s.fld (Csr.carQueue_occupancy c q)
def State.qElastic (s : State) (c q : Nat) : Bool := s.flag1 (Csr.carQueue_elastic c q)
/-- The depot address of the j-th oldest entry: a ring of DEPTH entries from BASE (log entry 15). -/
def State.qSlot (s : State) (c q j : Nat) : Nat :=
  depotBase c + (s.fld (Csr.carQueue_base c q) + ((s.queue (queueKey c q)).head + j) % s.qDepth c q) * 64

/-- Append 64 bytes; poppable from the given pace. -/
def State.qPush (s : State) (c q ready off : Nat) (bs : List Byte) : State :=
  let n := s.qOcc c q
  let s := s.setBytes (s.qSlot c q n) bs
  let k := queueKey c q
  let x := s.queue k
  (s.setQueue k { x with ready := x.ready ++ [ready], offs := x.offs ++ [off] }).setFld (Csr.carQueue_occupancy c q) (n + 1)

/-- Remove the oldest entry. -/
def State.qDrop (s : State) (c q : Nat) : State :=
  let k := queueKey c q
  let x := s.queue k
  let d := s.qDepth c q
  (s.setQueue k { head := if d = 0 then 0 else (x.head + 1) % d, ready := x.ready.tail, offs := x.offs.tail, given := 0, via := none }).setFld
    (Csr.carQueue_occupancy c q) (s.qOcc c q - 1)

/-- Whether the oldest entry is poppable at a pace. -/
def State.qReady (s : State) (c q now : Nat) : Bool :=
  match (s.queue (queueKey c q)).ready with
  | [] => false
  | r :: _ => 0 < s.qOcc c q && r ≤ now

/-! Range events (R38, R49, R446). -/

/-- Sticky bits of the completion record: 0 INPUT_OVF, 1 RANGE_OVF, 2 RANGE_UNF. -/
def State.sticky (s : State) (p bit : Nat) : State :=
  s.updExec p (fun e => { e with sticky := e.sticky ||| (1#6 <<< bit) })

/-- Count a conversion's events in a station and in the order's flags (R49). -/
def State.rangeEvents (s : State) (p c stn ovf unf : Nat) : State :=
  let s := if ovf = 0 then s else (s.count (Csr.stnRangeOut_ovfCount c stn) ovf).sticky p 1
  if unf = 0 then s else (s.count (Csr.stnRangeOut_unfCount c stn) unf).sticky p 2

/-- Count FP32-to-E8M10 overflows (R38). -/
def State.inputOvf (s : State) (p c stn n : Nat) : State :=
  if n = 0 then s else (s.count (Csr.stnRangeOut_inputOvf c stn) n).sticky p 0

/-- Count events of the update engine (R49, R291). -/
def State.updEvents (s : State) (p ovf unf : Nat) : State :=
  let s := if ovf = 0 then s else (s.count (Csr.updRange_ovfCount p) ovf).sticky p 1
  if unf = 0 then s else (s.count (Csr.updRange_unfCount p) unf).sticky p 2

end Sys2Proof.Machine
end

