-- ==== Sys2Proof/Machine/Mesh.lean ====
section
/-!
DEFINITION. The mesh and the Pass (R228 to R248): where units attach, the classes and their virtual channels, the two routing orders,
the fault tables, the Pass channel a packet takes, multicast trees, and the counters a packet moves.
-/
namespace Sys2Proof.Machine

/-- A router: half, row, column (R228). -/
structure Rtr where
  half : Nat
  row : Nat
  col : Nat
  deriving DecidableEq, Repr

/-- Instance number row × 8 + column (R8). -/
def Rtr.inst (r : Rtr) : Nat := r.row * 8 + r.col

/-- Column of caravan k of a half (R229). -/
def carCol (k : Nat) : Nat := ([0, 0, 2, 2, 3, 3, 4, 4, 5, 5, 7, 7][k]?).getD 0
/-- The router of a global caravan (R229). -/
def rtrOfCar (c : Nat) : Rtr := ⟨c / 12, 1 + c % 2, carCol (c % 12)⟩
/-- The router of a global HBM stack (R229). -/
def rtrOfStack (k : Nat) : Rtr := ⟨k / 8, 0, k % 8⟩
/-- The router of the host port of a half (R229). -/
def rtrOfHost (h : Nat) : Rtr := ⟨h, 1, 1⟩
/-- The router of a half's weighhouse (R229). -/
def rtrOfWgh (h : Nat) : Rtr := ⟨h, 1, 3⟩
/-- The router of the update engine and the step keeper (R229). -/
def rtrOfUpd (h : Nat) : Rtr := ⟨h, 1, 4⟩
/-- The router of the manifest controller, the consignment engine and the risk estimator (R229). -/
def rtrOfMan (h : Nat) : Rtr := ⟨h, 2, 3⟩
/-- The router of the Seal pair and the management cores (R229). -/
def rtrOfSeal (h : Nat) : Rtr := ⟨h, 2, 4⟩
/-- The router of torus port i (R229). -/
def rtrOfPort (i : Nat) : Rtr :=
  match i with
  | 0 => ⟨0, 1, 0⟩
  | 1 => ⟨0, 1, 7⟩
  | 2 => ⟨0, 2, 0⟩
  | 3 => ⟨1, 1, 7⟩
  | 4 => ⟨1, 1, 0⟩
  | _ => ⟨1, 2, 7⟩

/-- The router a resolved physical address is reached at: its stack, its caravan, host port A for CXL (R197, R229, R436). -/
def rtrOfPa (pa : Nat) : Option Rtr :=
  match regionOf pa with
  | some .hbm => some (rtrOfStack (pa / (48 * gib)))
  | some .satchel => some (rtrOfCar ((pa - satchelBase 0) / 0x8000000))
  | some .depot => some (rtrOfCar ((pa - depotBase 0) / 0x4000000))
  | some .cxl => some (rtrOfHost 0)
  | _ => none

/-- The plane of a packet with a physical address (R230). -/
def planeOf (pa : Nat) : Nat := bitsOf pa 11 1

/-- The classes of mesh traffic (R228). -/
inductive MeshClass where
  | control
  | request
  | response
  | multicast
  deriving DecidableEq, Repr

/-- The virtual channel a class travels on: VC 0 to 3 in the primary order; on a detour VC 4, and VC 5 for responses (R228, R243). A
multicast copy on a detour route travels as the response it is (R241; DESIGN CHOICE, log entry 41). -/
def MeshClass.vc (k : MeshClass) (detour : Bool) : Nat :=
  match k, detour with
  | .control, false => 0
  | .request, false => 1
  | .response, false => 2
  | .multicast, false => 3
  | .control, true | .request, true => 4
  | .response, true | .multicast, true => 5

/-- Pass channels of a column (R229). -/
def chansOf (col : Nat) : List Nat :=
  ([[0, 1], [2, 3], [4], [5, 6, 7], [8, 9, 10], [11], [12, 13], [14, 15]][col]?).getD []
/-- The column of a Pass channel. -/
def colOfChan (ch : Nat) : Nat := ((List.range 8).find? (fun c => (chansOf c).contains ch)).getD 0

/-- Numbers from a to b, either way, both included. -/
def between (a b : Nat) : List Nat :=
  if a ≤ b then (List.range (b - a + 1)).map (a + ·) else (List.range (a - b + 1)).map (a - ·)

/-- Horizontal first, then vertical, within a half. -/
def hvPath (h : Nat) (r c r' c' : Nat) : List Rtr :=
  (between c c').map (fun x => ⟨h, r, x⟩) ++ ((between r r').drop 1).map (fun y => ⟨h, y, c'⟩)
/-- Vertical first, then horizontal, within a half. -/
def vhPath (h : Nat) (r c r' c' : Nat) : List Rtr :=
  (between r r').map (fun y => ⟨h, y, c⟩) ++ ((between c c').drop 1).map (fun x => ⟨h, r', x⟩)

/-- The primary route (R230) through a crossing column: the routers it visits. -/
def primaryPath (a b : Rtr) (col : Nat) : List Rtr :=
  if a.half = b.half then hvPath a.half a.row a.col b.row b.col
  else hvPath a.half a.row a.col 3 col ++ vhPath b.half 3 col b.row b.col
/-- The vertical-first route (R243). -/
def verticalPath (a b : Rtr) (col : Nat) : List Rtr :=
  if a.half = b.half then vhPath a.half a.row a.col b.row b.col
  else vhPath a.half a.row a.col 3 col ++ hvPath b.half 3 col b.row b.col

/-- Whether two adjacent routers of one half are joined by a failed link (R243). -/
def State.linkFailed (s : State) (a b : Rtr) : Bool :=
  if a.half ≠ b.half then false
  else if a.row = b.row then bitOf (s.fld (Csr.mshLinkfault_hLinks a.half)) (a.row * 7 + min a.col b.col)
  else bitOf (s.fld (Csr.mshLinkfault_vLinks a.half)) (a.col * 3 + min a.row b.row)

/-- A path avoids every failed router and link. -/
def State.pathOk (s : State) (p : List Rtr) : Bool :=
  p.all (fun r => !bitOf (s.fld (Csr.mshFault_failedRouters r.half)) r.inst) &&
  (p.zip (p.drop 1)).all (fun (a, b) => !s.linkFailed a b)

/-- A Pass channel is open (R248). -/
def State.chanOpen (s : State) (ch : Nat) : Bool := s.fld (Csr.pasChan_state ch) = 0

/-- The channel a packet takes toward a column: channel i of the column, the next open one after it, or the lowest open
one of the nearest column, the northern (lower-numbered) first on a tie (R231, R248). -/
def State.pickChan (s : State) (src plane col : Nat) : Option Nat :=
  let cs := chansOf col
  let n := cs.length
  let own := (List.range n).findSome? (fun j => (cs[((src + plane) % n + j) % n]?).filter s.chanOpen)
  own.orElse (fun _ =>
    (List.range 8).findSome? (fun d =>
      let side (x : Nat) : Option Nat := (chansOf x).find? s.chanOpen
      (if d ≤ col then side (col - d) else none).orElse (fun _ => side (col + d))))

/-- How a pair of routers is served (R243). -/
inductive Route where
  | primary (path : List Rtr) (chan : Option Nat)
  | detour (path : List Rtr) (chan : Option Nat)
  | unreachable
  deriving DecidableEq, Repr

/-- The outcome for a pair (R243). R248 has a packet that crosses in another column's channel travel on VC 4 and VC 5 to and from that
column, and gives it no order: here it goes vertical first through that column, and horizontal first where that path fails and the
other does not (DESIGN CHOICE, log entry 41). -/
def State.route (s : State) (a b : Rtr) (plane : Nat) : Route :=
  let ch := if a.half = b.half then none else s.pickChan a.inst plane b.col
  if a.half ≠ b.half && ch.isNone then .unreachable
  else
    let col := (ch.map colOfChan).getD b.col
    let moved := a.half ≠ b.half && col ≠ b.col
    let p := primaryPath a b col
    let v := verticalPath a b col
    if s.pathOk p && !moved then .primary p ch
    else if s.pathOk v then .detour v ch
    else if s.pathOk p then .detour p ch
    else .unreachable

def Route.ok : Route → Bool
  | .unreachable => false
  | _ => true

/-- The Pass channel of a route. -/
def Route.chan : Route → Option Nat
  | .primary _ c | .detour _ c => c
  | .unreachable => none

/-- The routers of a route. -/
def Route.path : Route → List Rtr
  | .primary p _ | .detour p _ => p
  | .unreachable => []

/-- The virtual channel a class takes between two routers (R228, R243). -/
def Route.vc (r : Route) (k : MeshClass) : Option Nat :=
  match r with
  | .primary .. => some (k.vc false)
  | .detour .. => some (k.vc true)
  | .unreachable => none

/-- Bytes pass through routers, 512 a flit at each, and over Pass channels away from half h, 256 a beat (R228, R245, R258). -/
def State.countFlits (s : State) (path : List Rtr) (chans : List Nat) (h bytes : Nat) : State :=
  let s := path.foldl (fun s r => s.count (Csr.mshRouter_flits r.half r.inst) (max 1 (cdiv bytes 512))) s
  chans.foldl (fun s c => s.count (if h = 0 then Csr.pasBeats_weBeats c else Csr.pasBeats_ewBeats c) (max 1 (cdiv bytes 256))) s

/-- A packet of a class and some bytes crosses from router a to router b on the virtual channel that its route gives the class; one on a
detour channel is counted at its source router (R228, R243, R258). -/
def State.sendMesh (s : State) (k : MeshClass) (a b : Rtr) (plane bytes : Nat) : State :=
  let r := s.route a b plane
  match r.vc k with
  | none => s
  | some vc =>
    let s := s.countFlits r.path r.chan.toList a.half bytes
    if vc < 4 then s else s.count (Csr.mshRouter_detoured a.half a.inst) 1

/-- A packet of the control class, one flit on plane 0 (R228, R230, R233). -/
def State.sendControl (s : State) (a b : Rtr) : State := if a = b then s else s.sendMesh .control a b 0 0

/-- The routers and Pass channels of the multicast tree from a source to a set of receivers: the union of the primary routes (R238). -/
def State.tree (s : State) (a : Rtr) (bs : List Rtr) (plane : Nat) : List Rtr × List Nat :=
  bs.foldl (fun (rs, cs) b => match s.route a b plane with
    | .primary path ch => ((rs ++ path).eraseDups, (cs ++ ch.toList).eraseDups)
    | _ => (rs, cs)) ([], [])

/-- A multicast of some bytes to a list of receivers, that of the lowest caravan first (R238, R241): one tree along the primary routes.
A receiver whose primary route fails has a separate copy from the drover of the lowest caravan, which has the data first, on a detour of
its own where that is the lowest caravan itself. -/
def State.sendTree (s : State) (a : Rtr) (bs : List Rtr) (plane bytes : Nat) : State :=
  let (rs, cs) := s.tree a bs plane
  let s := s.countFlits rs cs a.half bytes
  let low := bs.headD a
  (bs.filter (fun b => match s.route a b plane with
    | .detour .. => true
    | _ => false)).foldl (fun s b => s.sendMesh .multicast (if b = low then a else low) b plane bytes) s

end Sys2Proof.Machine
end

