-- ==== Sys2Proof/Machine/Fence.lean ====
section
/-!
DEFINITION. Fencing, relocation, suspension and safe hold (R378 to R381, R403), shared by every command that meets a
failed unit.
-/
namespace Sys2Proof.Machine

/-- A part fault of code 0x70 in the running order of a partition: unit and kind in word 3 (R405). -/
def State.partFault70 (s : State) (p unit kind : Nat) : State :=
  match s.exec? p with
  | none => s
  | some e =>
    if e.fault.isSome || (e.ended && e.endOff.isNone && e.cmds.isEmpty) then s
    else s.raise p unit 0x70 ((e.cmds.head?.map (·.off)).getD e.off) (unit + kind * 2 ^ 16)

/-- The power state of a partition in CPR_PSTATE.PART_STATE (R416): 0 P0, 1 P1, 2 P2. -/
def partState (p : Nat) : FieldRef := ⟨Csr.cprPstate, 16 + 2 * p, 2⟩
def State.setPartState (s : State) (p v : Nat) : State := s.setFld (partState p) v

/-- The link of a function's host port is up (R447). -/
def State.hostUp (s : State) (f : Nat) : Bool := if f < 4 then s.dev.hostUpA else s.dev.hostUpB

/-- The function can master: its host's link is up, and its bus mastering is on (R447). -/
def State.masters (s : State) (f : Nat) : Bool := s.hostUp f && !s.dev.noMaster.contains f

/-- What a function's host asks of its partition arrives while the link is up (R414). -/
def State.fromHost (s : State) (f : Nat) (act : Nat → State → State) : State :=
  if s.hostUp f then
    match s.partOfFn f with
    | some p => act p s
    | none => s
  else s

/-- Suspend a partition (R381): its running order stops as at a part fault and runs no more (P1, R416), and none starts; an event of type
5 tells the host. -/
def State.suspend (s : State) (p unit : Nat) : State :=
  if (s.part p).suspended then s
  else
    let s := s.partFault70 p unit 2
    let s := if s.fld (partState p) = 0 then s.setPartState p 1 else s
    ((s.updPart p (fun x => { x with suspended := true })).setFld (Csr.sealMan_suspended p) 1).event p 5 unit 0

/-! The Seal pairs (R402, R403). A pair is stopped (0), in service (1), lost with its half (2) or in standby (3). -/

def Dev.seal (d : Dev) (h : Nat) : Nat := if h = 0 then d.sealW else d.sealE
/-- Some pair does the Seal's work. -/
def Dev.sealUp (d : Dev) : Bool := d.seal 0 = 1 || d.seal 1 = 1

/-! The sideband of the tolls (R248, R250, R256). -/

/-- The host port of a half is lost with its half or its router (R229, R378). -/
def State.hostGone (s : State) (h : Nat) : Bool :=
  s.dev.fencedHalves.contains h || bitOf (s.fld (Csr.mshFault_failedRouters h)) (rtrOfHost h).inst

/-- A requester is fenced, powered down or in a reset that lasts (R250, R256): drovers with their caravan, its half or its partition in P2;
host ports with their half or router, and while PERST is low (R427); torus ports with their fence; everything but the scout port, the Seal and the Factor in P3. -/
def State.reqMasked (s : State) (r : Nat) : Bool :=
  let halfGone (h : Nat) : Bool := s.dev.fencedHalves.contains h
  let asleep : Bool := 2 ≤ s.fld Csr.cprPstate_device
  if r < 24 then
    asleep || s.dev.fencedCars.contains r || halfGone (r / 12) ||
    ((s.partOfCar r).map (fun p => s.fld (partState p) == 2)).getD false
  else if r < 28 then asleep || (halfGone 0 && halfGone 1)
  else if r < 30 then asleep || s.hostGone (r - 28) || (if r = 28 then s.dev.perstA else s.dev.perstB)
  else if r < 32 then false
  else if r < 38 then asleep || (s.port (r - 32)).fenced
  else if r = 38 then asleep
  else false

/-- Every requester is masked at the tolls of a fenced stack and of a Pass channel that is not open (R248, R378). -/
def State.tollShut (s : State) (t : Nat) : Bool :=
  if t < 64 then s.dev.fencedStacks.contains (t / 4)
  else if t < 96 then s.fld (Csr.pasChan_state ((t - 64) / 2)) ≠ 0
  else false

/-- TOL_MASK.MASKED (R256, R258): live. -/
def State.tollMask (s : State) (t : Nat) : Nat :=
  if s.tollShut t then 2 ^ 40 - 1
  else (List.range 40).foldl (fun m r => if s.reqMasked r then m + 2 ^ r else m) 0

/-- A grant whose owner has been masked ends (R256, R257). -/
def State.dropGrants (s : State) : State :=
  { s with tolls := Map.mapCanon (fun _ => Toll.idle)
             (fun t x => match x.owner with
               | some r => if bitOf (s.tollMask t) r then { x with owner := none, limit := 0 } else x
               | none => x) s.tolls }

/-- Healthy: not fenced, in a half that is not fenced, with no station fenced whole (R378). -/
def State.healthyCar (s : State) (c : Nat) : Bool :=
  !s.dev.fencedCars.contains c && !s.dev.fencedHalves.contains (c / 12) &&
  (List.range 8).all (fun i => !s.flag1 (Csr.stnFence_stationFenced c i))

/-- The spare a withdrawn caravan's partition takes: lowest index in the same half, else in the other (R380). -/
def State.spareFor (s : State) (c : Nat) : Option Nat :=
  let free := (List.range 24).filter (fun x =>
    s.healthyCar x && (s.partOfCar x).isNone &&
    (List.range 8).all (fun p => !bitOf (s.fld (Csr.prtGrant_caravans p)) x))
  (free.find? (fun x => x / 12 = c / 12)).orElse (fun _ => free.head?)

/-- A physical base that lies in caravan c's satchels, depot or role view, moved to caravan d's (R380). -/
def movePa (c d pa : Nat) : Nat :=
  let inn (b n : Nat) : Bool := b ≤ pa && pa < b + n
  if inn (satchelBase (c * 8)) (8 * 2 ^ 24) then pa - satchelBase (c * 8) + satchelBase (d * 8)
  else if inn (depotBase c) 0x4000000 then pa - depotBase c + depotBase d
  else if inn (roleBase c) 0x4000000 then pa - roleBase c + roleBase d
  else pa

/-- Rewrite a partition's windows after a relocation. -/
def State.moveWindows (s : State) (p c d : Nat) : State :=
  (List.range 128).foldl (fun s i =>
    match s.win p i with
    | some w => s.setFld (Csr.prtWinPa_pbase p i) (movePa c d w.pbase / 2 ^ 21)
    | none => s) s

/-- Whether a partition may use half or device scope, and so cannot be relocated (R380, log entry 18). -/
def State.wholeHalf (s : State) (p : Nat) : Bool :=
  (List.range 2).any (fun h => ((s.caravans p).filter (· / 12 = h)).length = 12)

/-- The half of a unit that serves a partition: that of its home caravan, or the other one where the unit's router there has failed (R229,
R244; log entry 41). -/
def State.unitHalf (s : State) (rtr : Nat → Rtr) (p : Nat) : Nat :=
  let h := s.home p / 12
  if bitOf (s.fld (Csr.mshFault_failedRouters h)) (rtr h).inst then 1 - h else h

/-- The half whose weighhouse instance a partition's context belongs in: that of its home caravan, or the surviving one (R300, R382). -/
def State.wghHalf (s : State) (p : Nat) : Nat := s.unitHalf rtrOfWgh p

/-- The routers of the units that serve a partition: manifest controller and consignment engine, update engine, weighhouse. -/
def State.manRtr (s : State) (p : Nat) : Rtr := rtrOfMan (s.unitHalf rtrOfMan p)
def State.updRtr (s : State) (p : Nat) : Rtr := rtrOfUpd (s.unitHalf rtrOfUpd p)
def State.wghRtr (s : State) (p : Nat) : Rtr := rtrOfWgh (s.wghHalf p)

/-- The SLOTS that other partitions' contexts hold in an instance of the weighhouse (R327). -/
def State.slotsIn (s : State) (h p : Nat) : Nat :=
  ((List.range 8).map (fun q => if q ≠ p && s.fld (Csr.wghShare_half q) = h && !(s.part q).wghLost then s.fld (Csr.wghShare_slots q) else 0)).sum

/-- The context of a partition lies in the half of its home caravan (R300): it follows the home into the other half. Where that half's nine
slots cannot take it, it waits for a new grant (R327, R382; log entry 25). -/
def State.wghFollow (s : State) (p : Nat) : State :=
  let h := s.wghHalf p
  if s.fld (Csr.wghShare_half p) = h || s.fld (Csr.wghShare_slots p) = 0 || (s.part p).wghLost then s
  else
    let fits := s.slotsIn h p + s.fld (Csr.wghShare_slots p) ≤ 9
    let s := s.setFld (Csr.wghShare_half p) h
    if fits then s else s.updPart p (fun x => { x with wghLost := true })

/-- The spare takes the withdrawn caravan's ordinal, and the partition's windows follow (R380). -/
def State.relocate (s : State) (p c d : Nat) : State :=
  ((s.updPart p (fun x => { x with cmap := x.cmap.map (fun y => if y = c then d else y) })).moveWindows p c d).wghFollow p

/-- An order of the partition waits for something that another device may bring: an elastic flag or queue, or an engine (R127, R380; log
entry 18). -/
def State.waitsAbroad (s : State) (p : Nat) : Bool := (s.exec? p).isSome && (s.hasHold p 2 || s.hasHold p 10)

/-- Withdraw a caravan from its partition: suspension, and relocation where R380 allows it. What keeps the partition where it is at the
first withdrawal keeps it there until the suspension ends. -/
def State.withdrawCar (s : State) (c unit : Nat) : State :=
  match s.partOfCar c with
  | none => s
  | some p =>
    let fixed := s.wholeHalf p || s.waitsAbroad p || (s.part p).pinned
    let s := s.suspend p unit
    match s.spareFor c with
    | none => s
    | some d =>
      if fixed then s.updPart p (fun x => { x with pinned := true })
      else (s.relocate p c d).count (Csr.sealMan_relocations p) 1

/-- Whether a window reaches a stack. -/
def Win.onStack (w : Win) (k : Nat) : Bool := w.pbase < (k + 1) * (48 * gib) && k * (48 * gib) < w.pbase + w.size

/-- Partitions with a window onto a stack (R373). -/
def State.stackUsers (s : State) (k : Nat) : List Nat :=
  (List.range 8).filter (fun p => (List.range 128).any (fun i => ((s.win p i).map (·.onStack k)).getD false))

/-- The stack of the journal of a half. -/
def Dev.journal (d : Dev) (h : Nat) : Nat := if h = 0 then d.journalW else d.journalE

/-- Both copies of the journal are gone, and with them every accepted order (R384): it is neither executed further nor reported. -/
def State.loseOrders (s : State) : State :=
  let s := (List.range 8).foldl (fun s p => s.updPart p (fun x => { x with
    orders := [], exec := none, prev := none, preempt := none, records := [], ackWait := none,
    holds := x.holds.filter (·.src = 9), merged := false })) s
  (List.range 24).foldl (fun s c => s.updCar c (fun k => { Car.idle with nextX := k.nextX, xfers := k.xfers })) s

/-- The journal copies that a stack held are built again from the others, if there is another (R384). -/
def State.loseJournals (s : State) (k : Nat) : State :=
  let gone := (List.range 2).filter (fun h => s.dev.journal h = k)
  if gone.isEmpty || !s.dev.started then s
  else
    let left := (List.range 2).any (fun h => !gone.contains h && !s.dev.rebuild.contains h)
    let s := s.updDev (fun d => { d with rebuild := gone ++ d.rebuild.filter (fun h => !gone.contains h) })
    if left then s else s.loseOrders

/-- Fence an HBM stack: its windows become invalid, its tolls' requesters are masked, its data is lost, a journal copy in it is rebuilt
(R378, R381, R384). -/
def State.loseStack (s : State) (k unit : Nat) : State :=
  if s.dev.fencedStacks.contains k then s else
  let users := s.stackUsers k
  let s := users.foldl (fun s p => s.suspend p unit) s
  let s := users.foldl (fun s p => (List.range 128).foldl (fun s i =>
    match s.win p i with
    | some w => if w.onStack k then s.setFld (Csr.prtWinVa_valid p i) 0 else s
    | none => s) s) s
  let s := (s.updDev (fun d => { d with fencedStacks := k :: d.fencedStacks })).zeroRange (k * (48 * gib)) (48 * gib)
  (s.loseJournals k).dropGrants

/-- Lose a caravan, and what lay only in its SRAM (R373, R381). What its lost bytes read as from then on is zero, as bytes that nothing has
written do (DESIGN CHOICE, log entry 18). -/
def State.loseCar (s : State) (c unit : Nat) : State :=
  if s.dev.fencedCars.contains c then s
  else
    let s := s.updDev (fun d => { d with fencedCars := c :: d.fencedCars })
    let s := (s.zeroRange (satchelBase (c * 8)) (8 * 2 ^ 24)).zeroRange (depotBase c) 0x4000000
    s.dropGrants.withdrawCar c unit

/-- Mask a Pass channel for a fault (1) or with a half off (2) (R248). -/
def State.loseChan (s : State) (ch state : Nat) : State := (s.setFld (Csr.pasChan_state ch) state).dropGrants

/-- A station fenced whole: its caravan is withdrawn, and fenced when two of its stations are (R378). -/
def State.loseStation (s : State) (c stn unit : Nat) : State :=
  let s := s.setFld (Csr.stnFence_stationFenced c stn) 1
  if 2 ≤ ((List.range 8).filter (fun i => s.flag1 (Csr.stnFence_stationFenced c i))).length then s.loseCar c unit
  else s.withdrawCar c unit

/-- A torus port held OFF, with empty buffers and no keys (R378). -/
def State.losePort (s : State) (i : Nat) : State :=
  let x := s.port i
  let s := s.setPort i { Port.idle with isolations24 := x.isolations24, reported := x.reported, keyGen := x.keyGen, fenced := true }
  let s := ((s.setFld (Csr.lnkStatus_encrypted i) 0).setFld (Csr.lnkStatus_width i) 0).setFld (Csr.lnkStatus_state i) 0
  (s.setFld (Csr.lnkCtrl_enable i) 0).dropGrants

/-- The weighhouse of a half is lost, and with it the contexts it holds (R382): their partitions are suspended. -/
def State.loseWgh (s : State) (h unit : Nat) : State :=
  (List.range 8).foldl (fun s p =>
    if 0 < s.fld (Csr.wghShare_slots p) && s.fld (Csr.wghShare_half p) = h then
      (s.updPart p (fun x => { x with wghLost := true })).suspend p unit
    else s) s

/-- The update engine and step keeper of a half are lost: partitions with their home caravan there are suspended. -/
def State.loseEngine (s : State) (h unit : Nat) : State :=
  (List.range 8).foldl (fun s p =>
    if !(s.caravans p).isEmpty && s.home p / 12 = h then s.suspend p unit else s) s

/-- The host port of a half is lost: its link is down. -/
def State.loseHost (s : State) (h : Nat) : State :=
  (s.updDev (fun d => if h = 0 then { d with hostUpA := false } else { d with hostUpB := false })).dropGrants

/-- The Seal pair of a half is lost (R401). -/
def State.loseSeal (s : State) (h : Nat) : State :=
  s.updDev (fun d => { d with sealW := if h = 0 then 2 else d.sealW, sealE := if h = 1 then 2 else d.sealE })

/-- The endpoints at a router are lost (R229, R244): its stack, its caravan, its host or torus port, the unit at its local port. The
manifest controllers, consignment engines and risk estimators of the two halves stand in for each other (log entry 41). -/
def State.loseEnds (s : State) (h inst unit : Nat) : State :=
  let at_ (r : Rtr) : Bool := r.half = h && r.inst = inst
  let s := if inst < 8 then s.loseStack (h * 8 + inst) unit else s
  let s := (List.range 12).foldl (fun s k => if at_ (rtrOfCar (h * 12 + k)) then s.loseCar (h * 12 + k) unit else s) s
  let s := (List.range 6).foldl (fun s i => if at_ (rtrOfPort i) then s.losePort i else s) s
  let s := if at_ (rtrOfHost h) then s.loseHost h else s
  let s := if at_ (rtrOfWgh h) then s.loseWgh h unit else s
  let s := if at_ (rtrOfUpd h) then s.loseEngine h unit else s
  if at_ (rtrOfSeal h) then s.loseSeal h else s

/-- A failed router takes its endpoints and its Pass channels with it (R229, R244). -/
def State.loseRouter (s : State) (h inst unit : Nat) : State :=
  let s := s.setFld (Csr.mshFault_failedRouters h) (Nat.lor (s.fld (Csr.mshFault_failedRouters h)) (2 ^ inst))
  let s := if 24 ≤ inst then (chansOf (inst - 24)).foldl (fun s ch => s.loseChan ch 1) s else s
  s.loseEnds h inst unit

/-- A half lost (R373, R378): every unit in it is fenced: its caravans, its stacks, the Pass, its routers, its torus and host ports, its
Seal pair, its weighhouse contexts. -/
def State.loseHalf (s : State) (h unit : Nat) : State :=
  if s.dev.fencedHalves.contains h then s else
  let s := s.updDev (fun d =>
    { d with fencedHalves := h :: d.fencedHalves,
             halfOnW := d.halfOnW && h != 0, halfOnE := d.halfOnE && h != 1 })
  let s := (s.loseSeal h).loseHost h
  let s := s.setFld (Csr.mshFault_failedRouters h) (2 ^ 32 - 1)
  let s := (List.range 16).foldl (fun s ch => if s.chanOpen ch then s.loseChan ch 2 else s) s
  let s := (List.range 6).foldl (fun s i => if (rtrOfPort i).half = h then s.losePort i else s) s
  let s := s.loseWgh h unit
  let s := (List.range 12).foldl (fun s k => s.loseCar (h * 12 + k) unit) s
  (List.range 8).foldl (fun s k => s.loseStack (h * 8 + k) unit) s

/-! Traffic on a failed path (R373). -/

/-- What a fault cuts: a router, a mesh link by its two routers, a Pass channel. -/
inductive Cut where
  | router (r : Rtr)
  | link (a b : Rtr)
  | channel (ch : Nat)
  deriving DecidableEq, Repr

/-- A route goes through it. -/
def Route.through (r : Route) : Cut → Bool
  | .router x => r.path.contains x
  | .link a b => (r.path.zip (r.path.drop 1)).any (fun (x, y) => (x = a && y = b) || (x = b && y = a))
  | .channel ch => r.chan = some ch

/-- The drover transfers and reads of a partition that are out, as (drover's router, the memory's router, plane). -/
def State.traffic (s : State) (p : Nat) : List (Rtr × Rtr × Nat) :=
  (s.caravans p).flatMap (fun c =>
    let k := s.car c
    let one (pa : Nat) : List (Rtr × Rtr × Nat) := ((rtrOfPa pa).map (fun r => (rtrOfCar c, r, planeOf pa))).toList
    (k.xfers.filter (fun x => x.part = p && !x.dropped)).flatMap (fun x => one (s.redirect x.src) ++ one (s.redirect x.dst)) ++
    (k.reads.filter (fun x => x.part = p && !x.dropped)).flatMap (fun x =>
      x.rows.flatMap (fun (va, n) => (cut2k va n).flatMap (fun (v, _) => ((s.place p x.stn v).map one).getD []))))

/-- Partitions whose running order has traffic on what fails take part fault 0x70 (R373). -/
def State.cutTraffic (s : State) (cut : Cut) (unit : Nat) : State :=
  ((List.range 8).filter (fun p => (s.traffic p).any (fun (a, b, pl) => (s.route a b pl).through cut || (s.route b a pl).through cut))).foldl
    (fun s p => s.partFault70 p unit 2) s

/-- The router or link that a detail of block code 0x20 names: 0 the router, 1 + i a horizontal and 65 + i a vertical link. -/
def cutOf (half inst detail : Nat) : Cut :=
  if detail = 0 then .router ⟨half, inst / 8, inst % 8⟩
  else if detail < 65 then
    let i := detail - 1
    .link ⟨half, i / 7, i % 7⟩ ⟨half, i / 7, i % 7 + 1⟩
  else
    let i := detail - 65
    .link ⟨half, i % 3, i / 3⟩ ⟨half, i % 3 + 1, i / 3⟩

/-! Fences (R378, R379). -/

/-- The effect of an entry of the fence record on its unit (R378, R379). Block code 0x01: detail 0 to 15 a column group, 16 the whole
station; 0x20: detail 0 the router, 1 + i a horizontal and 65 + i a vertical link; 0x70: the half. Kinds 2 and 3 are row
repairs and change nothing else. A half whose routers have all failed is lost whole. -/
def State.applyUnit (s : State) (f : FenceEnt) : State :=
  if f.kind ≠ 1 then s
  else
    let u := f.unit.toNat
    let half := u / 2 ^ 15
    let c := half * 12 + bitsOf u 11 4
    let stn := bitsOf u 8 3
    let inst := bitsOf u 8 7
    match u % 256 with
    | 0x01 =>
      if f.detail < 16 then
        s.setFld (Csr.stnFence_fencedGroups c stn) (Nat.lor (s.fld (Csr.stnFence_fencedGroups c stn)) (2 ^ f.detail))
      else s.loseStation c stn u
    | 0x10 | 0x11 => s.loseCar c u
    | 0x20 =>
      if f.detail = 0 then
        let s := (if 24 ≤ inst then s.cutTraffic (cutOf half inst 0) u else s).loseRouter half inst u
        if s.fld (Csr.mshFault_failedRouters half) = 2 ^ 32 - 1 then s.loseHalf half u else s
      else
        let s := s.cutTraffic (cutOf half inst f.detail) u
        if f.detail < 65 then
          s.setFld (Csr.mshLinkfault_hLinks half) (Nat.lor (s.fld (Csr.mshLinkfault_hLinks half)) (2 ^ (f.detail - 1)))
        else s.setFld (Csr.mshLinkfault_vLinks half) (Nat.lor (s.fld (Csr.mshLinkfault_vLinks half)) (2 ^ (f.detail - 65)))
    | 0x21 => (s.cutTraffic (.channel inst) u).loseChan inst 1
    | 0x30 => s.loseStack (half * 8 + inst) u
    | 0x50 => s.losePort inst
    | 0x70 => s.loseHalf half u
    | _ => s

/-- Safe hold (R403): acceptance stops, every partition is held, FAULT_L is asserted (with PWRGD low it stays inactive, R29), and the
beacon goes out on I3C and, as a KIND 7 packet to the partner, on every ACTIVE port (R353). -/
def State.safeHoldNow (s : State) : State :=
  if s.dev.safeHold then s
  else
    let s := s.updDev (fun d => { d with safeHold := true, faultL := d.pwrgd })
    let s := s.emit (.beacon none)
    (List.range 6).foldl (fun s i => if s.active i then s.toPartner i 7 [] else s) s

/-- Append to the fence record, with the time, a free value, and the code that binds the entry to this device (R379; log entry 6); a
record of 1,024 entries is full (R403). -/
def State.record1 (s : State) (unit kind detail : Nat) : State :=
  if s.dev.fences.length < 1024 then
    let (time, s) := s.draw
    let u := BitVec.ofNat 16 unit
    let s := s.updDev (fun d => { d with fences := d.fences ++ [⟨u, kind, detail, time, Config.fenceCode Config.serial u kind detail time⟩] })
    if s.dev.fences.length = 1024 then s.safeHoldNow else s
  else s.safeHoldNow

/-- The record has an entry for a unit and detail. -/
def Dev.fenced (d : Dev) (unit kind detail : Nat) : Bool :=
  d.fences.any (fun f => f.unit = BitVec.ofNat 16 unit && f.kind = kind && f.detail = detail)

/-- Fence a unit, without what its loss cuts off: the record, the effect, and a failure counted for the risk estimate (R378, R396). -/
def State.fenceUnit (s : State) (unit detail : Nat) : State :=
  if s.dev.fenced unit 1 detail then s
  else ((s.record1 unit 1 detail).count Csr.csgRisk_failures 1).applyUnit ⟨BitVec.ofNat 16 unit, 1, detail, 0, 0⟩

/-- Fence a stack. -/
def State.fenceStack (s : State) (k : Nat) : State := s.fenceUnit (unitInst (k / 8) (k % 8) 0x30) 0
/-- Fence a caravan through its drover (R378). -/
def State.fenceCar (s : State) (c : Nat) : State := s.fenceUnit (unitId c 0 0x10) 0

/-! Unreachable pairs (R243). -/

/-- The routers of a half that have an endpoint in use. -/
def State.liveEnds (s : State) (h : Nat) : List Rtr :=
  if s.dev.fencedHalves.contains h then []
  else
    let live (r : Rtr) : Bool :=
      (r.row = 0 && !s.dev.fencedStacks.contains (h * 8 + r.col)) ||
      (List.range 12).any (fun k => rtrOfCar (h * 12 + k) = r && !s.dev.fencedCars.contains (h * 12 + k)) ||
      (List.range 6).any (fun i => rtrOfPort i = r && !(s.port i).fenced) || (r = rtrOfHost h && !s.hostGone h)
    ((List.range 24).map (fun i => (⟨h, i / 8, i % 8⟩ : Rtr))).filter (fun r =>
      live r && !bitOf (s.fld (Csr.mshFault_failedRouters h)) r.inst)

/-- Endpoint routers that no route joins in some direction on some plane. Where no Pass channel is open at all, the pairs across the seam
are not counted: no endpoint is cut off from its own half (log entry 41). -/
def State.cutFrom (s : State) (r : Rtr) (rs : List Rtr) : Nat :=
  let parted := !(List.range 16).any s.chanOpen
  (rs.filter (fun q => q ≠ r && !(parted && q.half ≠ r.half) &&
    ([0, 1].any (fun pl => !(s.route r q pl).ok || !(s.route q r pl).ok)))).length

/-- Fence the endpoints at a router. -/
def State.fenceEnds (s : State) (r : Rtr) : State :=
  let s := if r.row = 0 then s.fenceStack (r.half * 8 + r.col) else s
  let s := (List.range 12).foldl (fun s k => if rtrOfCar (r.half * 12 + k) = r then s.fenceCar (r.half * 12 + k) else s) s
  let s := (List.range 6).foldl (fun s i => if rtrOfPort i = r then s.fenceUnit (unitInst (i / 3) i 0x50) 0 else s) s
  s.loseEnds r.half r.inst (unitInst r.half r.inst 0x20)

/-- The Seal decides every pair by the fault tables: as long as some pair is unreachable, it fences the endpoints of the router with the most
unreachable partners, the first of them. R243 fences 'the endpoint that the pair cuts off' and does not say which of the two it is (DESIGN
CHOICE, log entry 41). -/
def State.cutPairs : Nat → State → State
  | 0, s => s
  | n + 1, s =>
    let rs := s.liveEnds 0 ++ s.liveEnds 1
    match (rs.map (fun r => (r, s.cutFrom r rs))).foldl (fun (b : Option (Rtr × Nat)) x =>
        match b with
        | none => if x.2 = 0 then none else some x
        | some y => if y.2 < x.2 then some x else b) none with
    | none => s
    | some (r, _) => State.cutPairs n (s.fenceEnds r)

/-- A block whose loss changes the fault tables. -/
def onMesh (unit : Nat) : Bool := unit % 256 = 0x20 || unit % 256 = 0x21

/-- The effect of an entry of the fence record, and of what its loss cuts off (R243, R378). -/
def State.applyFence (s : State) (f : FenceEnt) : State :=
  let s := s.applyUnit f
  if f.kind = 1 && onMesh f.unit.toNat then State.cutPairs 48 s else s

/-- Fence a unit (R378), and the endpoints that its loss cuts off (R243). -/
def State.fence (s : State) (unit detail : Nat) : State :=
  if s.dev.fenced unit 1 detail then s
  else
    let s := s.fenceUnit unit detail
    if onMesh unit then State.cutPairs 48 s else s

/-- Fence a station whole. -/
def State.fenceStation (s : State) (g : Nat) : State := s.fence (unitId (g / 8) (g % 8) 0x01) 16
/-- Fence a half. -/
def State.fenceHalf (s : State) (h : Nat) : State := s.fence (unitInst h 0 0x70) 0

/-- The endpoint of a transfer that no route reaches is fenced (R243): its stack, or its caravan, and never the drover that asks (DESIGN
CHOICE, log entry 41). -/
def State.fenceEnd (s : State) (pa : Nat) : State :=
  match regionOf pa with
  | some .hbm => s.fenceStack (pa / (48 * gib))
  | some .depot => s.fenceCar ((pa - depotBase 0) / 0x4000000)
  | some .satchel => s.fenceCar ((pa - satchelBase 0) / 0x8000000)
  | _ => s

/-- Data of a physical range goes to the drovers of some caravans (R230, R238, R241): the first one's drover asks for it, and it comes
back to it alone, or as a multicast to every one of them. What lies in the only receiver's own caravan does not cross the mesh. A
pair that no route joins loses the range's end (R243). -/
def State.fetchRange (s : State) (cs : List Nat) (pa n : Nat) : State :=
  match cs, rtrOfPa pa with
  | c :: more, some r =>
    let rc := rtrOfCar c
    if more.isEmpty && r = rc then s
    else if cs.any (fun d => !(s.route r (rtrOfCar d) (planeOf pa)).ok) || !(s.route rc r (planeOf pa)).ok then s.fenceEnd pa
    else
      let s := if r = rc then s else s.sendMesh .request rc r (planeOf pa) 0
      if more.isEmpty then s.sendMesh .response r rc (planeOf pa) n else s.sendTree r (cs.map rtrOfCar) (planeOf pa) n
  | _, _ => s

/-- Rows of a descriptor fetched for some caravans, each transfer on the plane of its own 2 KiB block (R215, R230, R231). -/
def State.fetchRows (s : State) (cs : List Nat) (rs : List (Nat × Nat)) : State :=
  rs.foldl (fun s (pa, n) => (cut2k pa n).foldl (fun s (a, m) => s.fetchRange cs a m) s) s

/-- A packet and its answer between a unit's router and physical bytes: the request carries a store's data, the response a load's, in
transfers of up to 2 KiB, each on the plane of its own block (R215, R228, R230, R231). Bytes at the unit's own router do not cross the mesh. -/
def State.meshTo (s : State) (store : Bool) (a : Rtr) (pa n : Nat) : State :=
  (if n = 0 then [] else cut2k pa n).foldl (fun s (b, m) =>
    match rtrOfPa b with
    | none => s
    | some r =>
      if r = a then s
      else if !(s.route a r (planeOf b)).ok || !(s.route r a (planeOf b)).ok then s.fenceEnd b
      else (s.sendMesh .request a r (planeOf b) (if store then m else 0)).sendMesh .response r a (planeOf b) (if store then 0 else m)) s

/-- The same for a row of partition-virtual bytes, as station g resolves them. -/
def State.meshRow (s : State) (store : Bool) (a : Rtr) (p g va n : Nat) : State :=
  match s.place p g va with
  | some pa => s.meshTo store a pa n
  | none => s

/-- A unit at a router stores bytes through the windows of a partition. -/
def State.storeVbytes (s : State) (a : Rtr) (p g va : Nat) (bs : List Byte) : State :=
  (s.meshRow true a p g va bs.length).setVbytes p g va bs

/-- Block code and number of an SRAM macro (R8, R377). -/
def macroCode : SramMacro → Nat × Nat
  | .satchel n => (0x03, n)
  | .tally n => (0x02, n)
  | .landing n => (0x01, n)
  | .depot n => (0x11, n)

/-- The unit of a stuck row: a station's SRAM, or its caravan's depot (R8). -/
def rowUnit (c i : Nat) (m : SramMacro) : Nat :=
  if (macroCode m).1 = 0x11 then unitId c 0 0x11 else unitId c i (macroCode m).1

/-- Replace a row by a spare of its macro: at most four (R377). The repair is recorded and counted. Without a spare left nothing is
repaired, and the station is fenced whole, or for a depot's row the caravan (R378). -/
def State.repairRow (s : State) (c i : Nat) (m : SramMacro) : State :=
  let u := rowUnit c i m
  let mac := (macroCode m).2
  let used := (s.dev.fences.filter (fun f => f.unit.toNat = u && f.kind = 2 && f.detail / 4 = mac)).length
  if used < 4 then (s.count (Csr.sealEcc_repairs (c / 12)) 1).record1 u 2 (mac * 4 + used)
  else if (macroCode m).1 = 0x11 then s.fenceCar c
  else s.fenceStation (c * 8 + i)

end Sys2Proof.Machine
end

