-- ==== Sys2Proof/Machine/Issue.lean ====
section
/-!
DEFINITION. Issuing a program command (06_command_reference): the checks of R160 in their order, waits, slots, and entering
the units. A class's own rules are the fields of `Cls`; the steps are the same for every class.
-/
namespace Sys2Proof.Machine

/-- A command's effect on everything but the queue of waiting commands. -/
def answer (s : State) (f : State → State) : Host.Outcome State Fault Refusal := .next { f s with pending := s.pending }

/-- A command at its issue: partition, opcode, fields, stream offset and the order's header. -/
structure Ctx where
  p : Nat
  op : Nat
  h : Head
  w1 : Nat
  off : Nat
  hdr : BitVec 1024
  deriving DecidableEq, Repr

/-- A field of word 1. -/
def Ctx.f (x : Ctx) (lsb width : Nat) : Nat := bitsOf x.w1 lsb width
def Ctx.sel (x : Ctx) : Nat := x.h.select.toNat
/-- Scope code: 0x01 station, 0x81 caravan, 0x82 half, 0x83 partition, 0x84 device (R163). -/
def Ctx.scope (x : Ctx) : Nat := x.sel % 256
/-- Lengths of the descriptor and record tables (R442). -/
def Ctx.descCount (x : Ctx) : Nat := hdrAt x.hdr 24 2
def Ctx.recCount (x : Ctx) : Nat := hdrAt x.hdr 26 2

/-- Word 3 of code 0x0C: opcode, reason, lowest command bit of the offending field (R161). -/
def bad0C (op reason bit : Nat) : Fail := (0x0C, op + reason * 2 ^ 8 + bit * 2 ^ 16)
/-- Word 3 of code 0x04 (R40). -/
def bad04 (h : Head) (reason : Nat) : Fail :=
  (0x04, h.fmtA.toNat + h.fmtB.toNat * 2 ^ 4 + h.fmtOut.toNat * 2 ^ 8 + reason * 2 ^ 12)

/-- The first failure of a list of tests. -/
def firstFail : List (Bool × Fail) → Option Fail
  | [] => none
  | (b, f) :: fs => if b then some f else firstFail fs

/-! Selectors (R163, R164, R380). -/

/-- The caravans a partition's definition names, in increasing global index. -/
def State.named (s : State) (p : Nat) : List Nat :=
  (List.range 24).filter (fun c => bitOf (s.fld (Csr.prtGrant_caravans p)) c)

/-- The caravan that stands for a named one, through the partition's caravan map (R380). -/
def State.mapCar (s : State) (p c : Nat) : Option Nat :=
  match (s.named p).idxOf? c with
  | some i => (s.caravans p)[i]?
  | none => none

/-- Global caravan index of a selector's half and caravan. -/
def selCar (sel : Nat) : Nat := bitsOf sel 15 1 * 12 + bitsOf sel 11 4

/-- Caravans in a selector's scope, in ordinal order. -/
def State.scopeCars (s : State) (x : Ctx) : List Nat :=
  match x.scope with
  | 0x01 | 0x81 => (s.mapCar x.p (selCar x.sel)).toList
  | 0x82 => ((s.named x.p).filter (fun c => c / 12 = bitsOf x.sel 15 1)).filterMap (s.mapCar x.p)
  | _ => s.caravans x.p

/-- Stations in a selector's scope, caravan by caravan: global station index caravan × 8 + station. -/
def State.scopeStns (s : State) (x : Ctx) : List Nat :=
  if x.scope = 0x01 then (s.scopeCars x).map (fun c => c * 8 + bitsOf x.sel 8 3)
  else (s.scopeCars x).flatMap (fun c => (List.range 8).map (fun i => c * 8 + i))

/-- The selector's own rules (R162, R163). -/
def selWord (op sel : Nat) (scopes : List Nat) : Option Fail :=
  let sc := sel % 256
  firstFail [
    (!([0x01, 0x81, 0x82, 0x83, 0x84].contains sc), bad0C op 3 0),
    (!(scopes.contains sc), bad0C op 4 0),
    (sc ≠ 0x01 && bitsOf sel 8 3 ≠ 0, bad0C op 5 8),
    ((if sc = 0x01 || sc = 0x81 then 12 ≤ bitsOf sel 11 4 else bitsOf sel 11 4 ≠ 0), bad0C op 5 11),
    ((sc = 0x83 || sc = 0x84) && bitsOf sel 15 1 ≠ 0, bad0C op 5 15)]

/-- The selector lies in the partition (R164). -/
def State.selIn (s : State) (x : Ctx) : Option Fail :=
  let bad : Fail := (0x08, x.sel)
  let n := s.named x.p
  match x.scope with
  | 0x01 =>
    match s.mapCar x.p (selCar x.sel) with
    | some c => if s.flag1 (Csr.stnFence_stationFenced c (bitsOf x.sel 8 3)) then some bad else none
    | none => some bad
  | 0x81 => if (s.mapCar x.p (selCar x.sel)).isNone then some bad else none
  | 0x82 => if (n.filter (fun c => c / 12 = bitsOf x.sel 15 1)).length = 12 then none else some bad
  | 0x84 => if n.length = 24 then none else some bad
  | _ => none

/-- What is particular to a class of commands (R162, R167 and the class's own section). -/
structure Cls where
  scopes : List Nat
  fmtA : Bool
  fmtB : Bool
  fmtOut : Bool
  round : Bool
  flags : Bool
  /-- The class's own rules on word 1, in row order (R160, step 2.3). -/
  word : State → Exec → Ctx → Option Fail
  /-- Fields of word 1 that are zero: lowest bit and width. -/
  zeros : Ctx → List (Nat × Nat)
  /-- Format fields (step 4). -/
  fmt : Ctx → Option Fail
  /-- Records, descriptors, windows, drover checks (step 5). -/
  body : State → Ctx → Option Fail
  /-- Checks of step 5 on bytes the command reads: they wait until nothing is in flight to them. -/
  late : State → Ctx → Option Fail
  /-- Latency classes of the units the command uses (R142). -/
  classes : State → Ctx → List Nat
  /-- Units whose slots it occupies (R159). -/
  units : State → Ctx → List Nat
  /-- Tally banks and queues (step 8): unit and failure. -/
  ready : State → Ctx → Option (Nat × Fail)
  /-- Whether an elastic queue makes it wait (R146). -/
  wait : State → Ctx → Bool
  /-- The block of its units, for a fault record (R8, log entry 16). -/
  unit : State → Ctx → Nat
  /-- Physical ranges it reads: an elastic input that has not arrived holds the partition (R126). -/
  reads : State → Ctx → List (Nat × Nat)
  /-- The descriptors through which it reads. -/
  descs : State → Ctx → List Nat
  /-- Its effect at issue. -/
  start : State → Ctx → State

/-- A class that uses no field of word 0 but the wait and the signal, no word 1, no unit. -/
def Cls.base : Cls :=
  { scopes := [0x83], fmtA := false, fmtB := false, fmtOut := false, round := false, flags := true,
    word := fun _ _ _ => none, zeros := fun _ => [], fmt := fun _ => none, body := fun _ _ => none,
    late := fun _ _ => none,
    classes := fun _ _ => [], units := fun _ _ => [], ready := fun _ _ => none, wait := fun _ _ => false,
    unit := fun s x => unitId (s.home x.p) 0 0x10, reads := fun _ _ => [], descs := fun _ _ => [], start := fun s _ => s }

/-- Every scope (R163). -/
def anyScope : List Nat := [0x01, 0x81, 0x82, 0x83, 0x84]

/-- Unused fields of word 0, by rising command bit (R160, step 2.2). -/
def Cls.word0 (c : Cls) (x : Ctx) : Option Fail :=
  let h := x.h
  firstFail [
    (!c.flags && h.signal ≠ 0, bad0C x.op 1 16), (!c.flags && h.wait ≠ 0, bad0C x.op 1 28),
    (!c.round && h.sat, bad0C x.op 1 41), (!c.round && h.round ≠ 0, bad0C x.op 1 42),
    (!c.fmtOut && h.fmtOut ≠ 0, bad0C x.op 1 44), (!c.fmtB && h.fmtB ≠ 0, bad0C x.op 1 48),
    (!c.fmtA && h.fmtA ≠ 0, bad0C x.op 1 52)]

/-- Whether a flag index is a local flag (R143). -/
def localFlag (i : Nat) : Bool := 1 ≤ i && i < 3968

/-- The flag rule of R165. -/
def flagRule (x : Ctx) : Option Fail :=
  if x.scope = 0x01 || x.scope = 0x81 then none
  else firstFail [(localFlag x.h.signal.toNat, bad0C x.op 7 16), (localFlag x.h.wait.toNat, bad0C x.op 7 28)]

/-- Reserved fields of word 1. -/
def Cls.spare (c : Cls) (x : Ctx) : Option Fail :=
  firstFail ((c.zeros x).map (fun (lsb, w) => (x.f lsb w ≠ 0, bad0C x.op 1 (64 + lsb))))

/-- The class of the flag a command signals (R139). -/
def State.sigClasses (s : State) (x : Ctx) : List Nat :=
  if x.h.signal = 0 then [] else [s.sigClass x.p x.h.signal.toNat (s.scopeCars x)]

/-- The physical rows of a descriptor as the stations of a list see it. -/
def State.rowsOf (s : State) (p : Nat) (stns : List Nat) (d : Desc) : List (Nat × Nat) :=
  (stns.flatMap (fun g => (List.range d.logRows).filterMap (fun j => (s.place p g (d.rowVa j)).map (fun pa => (pa, d.rowBytes))))).eraseDups

/-- Commands still in flight of the order that an interleaved one has overtaken (R220): they came first in their units. -/
def State.earlier (s : State) (p : Nat) (e : Exec) : List Cmd :=
  match (s.part p).prev with
  | some q => if q.base < e.base then q.cmds else []
  | none => []

/-- Every command in flight, in the order of issue. -/
def State.flight (s : State) (p : Nat) (e : Exec) : List Cmd := s.earlier p e ++ e.cmds

/-- Commands in flight that occupy a unit (R159). -/
def State.occupants (s : State) (p : Nat) (e : Exec) (u : Nat) : Nat := ((s.flight p e).filter (fun c => c.units.contains u)).length

/-- Physical ranges that a MOVE or GATHER in flight still has to write. -/
def State.landing (s : State) (p : Nat) (e : Exec) : List (Nat × Nat) :=
  ((s.flight p e).filter (fun c => c.op = 0x40 || c.op = 0x41)).flatMap (fun c =>
    s.rowsOf p [selCar c.h.select.toNat * 8] (parseDesc (c.descs.getLastD [])))

/-! Dependence marks (R166). -/

/-- A command in flight as its class sees it. -/
def Cmd.ctx (m : Cmd) (p : Nat) (hdr : BitVec 1024) : Ctx := ⟨p, m.op, m.h, m.w1.toNat, m.off, hdr⟩

/-- The first issued mark of a caravan that an earlier uncompleted command of the mark's scope keeps in force (R166): the drover
fetches nothing for commands at its offset or later. -/
def State.markAt (s : State) (p c : Nat) (e : Exec) : Option Nat :=
  ((e.marks.filter (·.2 = c)).map (·.1)).find? (fun o =>
    e.cmds.any (fun m => m.off < o && (s.scopeCars (m.ctx p e.hdr)).any (fun d => e.marks.contains (o, d))))

/-- Whether the drover of a caravan may fetch for the command at a stream offset. -/
def State.mayFetch (s : State) (p c : Nat) (e : Exec) (off : Nat) : Bool :=
  ((s.markAt p c e).map (fun o => decide (off < o))).getD true

/-! SWAPs that wait (R200). -/

/-- The drover of a caravan as a slot key. -/
def droverUnit (c : Nat) : Nat := unitId c 0 0x10

/-- Whether an issued SWAP of a caravan has not taken effect, in the running order or in the one it has overtaken (R200, R220). -/
def State.swapWaits (s : State) (p : Nat) (e : Exec) (c : Nat) : Bool :=
  (s.flight p e).any (fun m => m.op = 0x42 && m.units.contains (droverUnit c) && m.done.isNone)

/-- Whether a descriptor lies in the role view of a caravan whose SWAP has not taken effect: a later command does not read through it
until then (R200, R225). -/
def State.roleWaits (s : State) (p : Nat) (e : Exec) (d : Desc) : Bool :=
  match s.vaPa p d.base with
  | some pa => regionOf pa = some .role && s.swapWaits p e ((pa - roleBase 0) / 0x4000000)
  | none => false

/-- Whether two lists of ranges share a byte. -/
def touches (a b : List (Nat × Nat)) : Bool := a.any (fun (x, n) => b.any (fun (y, m) => x < y + m && y < x + n))

/-- Bytes that the command reads are still in flight to them (R126, log entry 22), or it reads through a role view whose SWAP has not
taken effect (R200). A drover command's own transfers wait instead. -/
def Cls.inFlight (c : Cls) (s : State) (x : Ctx) (e : Exec) : Bool :=
  (!(s.landing x.p e).isEmpty && touches (c.reads s x) (s.landing x.p e)) ||
  (x.op ≠ 0x40 && x.op ≠ 0x41 && (c.descs s x).any (fun i => s.roleWaits x.p e (s.desc x.p x.hdr i)))

/-- Steps 2 to 5 of R160, then the timing table (R142, reason 3), then the stream's end (R161, reason 8). -/
def Cls.check (c : Cls) (s : State) (x : Ctx) (e : Exec) : Option Fail :=
  (selWord x.op x.sel c.scopes).orElse fun _ => (c.word0 x).orElse fun _ => (c.word s e x).orElse fun _ =>
  (flagRule x).orElse fun _ => (c.spare x).orElse fun _ => (s.selIn x).orElse fun _ => (c.fmt x).orElse fun _ =>
  (c.body s x).orElse fun _ =>
  (if c.inFlight s x e then none else c.late s x).orElse fun _ =>
  (((c.classes s x ++ s.sigClasses x).find? (fun k => (e.timeOf k).isNone)).map (fun k => ((0x09, k + 3 * 2 ^ 16) : Fail))).orElse fun _ =>
  if x.op ≠ 0x0F && hdrAt x.hdr 8 4 ≤ x.off + 16 then some (bad0C x.op 8 0) else none

/-- The partition's issue point is open: an order runs, is not held (nor in safe hold, R403), ended, waiting or suspended, and the issue
pace is reached (R158). -/
def State.issuable (s : State) (p : Nat) : Bool :=
  match s.exec? p with
  | none => false
  | some e =>
    !e.ended && e.fault.isNone && e.waiting.isNone && !s.held p && !s.dev.safeHold && e.issuePace ≤ s.orderPace p && !(s.part p).suspended

/-- The rows of a descriptor as ranges that station g reads. -/
def Desc.ranges (d : Desc) (g : Nat) : List (Nat × Nat × Nat) :=
  (List.range d.logRows).map (fun j => (g, d.rowVa j, d.rowBytes))

/-- Descriptor indices that word 1 names, zero for none. -/
def Ctx.descIdxs (x : Ctx) : List Nat :=
  (match x.op with
   | 0x02 | 0x03 => [6]
   | 0x10 => [0, 12, 24]
   | 0x20 => [7, 19, 31]
   | 0x21 | 0x22 => [7]
   | 0x30 => [0, 12, 24]
   | 0x33 => [0, 12, 24]
   | 0x31 | 0x32 | 0x34 | 0x40 => [0, 12]
   | 0x41 => [0, 12, 24]
   | 0x70 => if x.f 48 1 = 1 then [] else [0]
   | 0x78 => [0]
   | _ => []).map (fun l => x.f l 12)

/-- The records that word 1 names. -/
def Ctx.recIdxs (x : Ctx) : List Nat := if x.op = 0x10 then [x.f 36 12] else if x.op = 0x79 then [x.f 20 12] else []

/-- A command reads poisoned stored data: it is counted, and is fault 0x71 with the address and its level (R374, R376, R405). The ranges are (station,
partition-virtual address, length). -/
def State.poisonCheck (s : State) (p unit off : Nat) (rs : List (Nat × Nat × Nat)) : Option State :=
  match rs.findSome? (fun r => (s.poisonIn p r.1 r.2.1 r.2.2).map (fun x => (r.1, x))) with
  | some (g, va, level) => some ((s.poisonRead p g va).raise p unit 0x71 off (va % 2 ^ 48 + level * 2 ^ 48))
  | none => none

/-- Stored data that a SEND reads at issue: the tags of its slices, the skip bit of its bucket (R305, R306). -/
def State.sendReads (s : State) (x : Ctx) : List (Nat × Nat × Nat) :=
  let g := s.homeStn x.p
  let d := s.desc x.p x.hdr (x.f 0 12)
  if x.op ≠ 0x70 || x.f 48 1 = 1 then []
  else (List.range d.logRows).map (fun j => (g, d.rowVa j, 8)) ++
    (if s.flag1 (Csr.wghSkip_valid x.p) then [(g, s.fld (Csr.wghSkip_base x.p) + x.f 12 20 / 8, 1)] else [])

/-- The descriptors and records a command reads at issue, and what else of stored data decides its checks. -/
def State.tableReads (s : State) (x : Ctx) : List (Nat × Nat × Nat) :=
  let g := s.homeStn x.p
  s.sendReads x ++
  ((x.descIdxs.filter (· ≠ 0)).map (fun i => (g, hdrAt x.hdr 16 8 + 64 * i, 64))) ++
  ((x.recIdxs.filter (· ≠ 0)).map (fun i => (g, hdrAt x.hdr 32 8 + 64 * i, 64)))

/-- A dependence mark, or a MARK, stands in every caravan of its scope (R166). -/
def State.marksOf (s : State) (x : Ctx) : List (Nat × Nat) :=
  if x.h.dep || x.op = 0x50 then (s.scopeCars x).map (fun c => (x.off, c)) else []

/-- The issue point moves past a command. -/
def State.issueAt (s : State) (x : Ctx) : State :=
  s.updExec x.p (fun e => { e with off := x.off + 16, marks := e.marks ++ s.marksOf x })

/-- The end of step 5 of R160 for a command whose data a transfer in flight still has to bring: a hold of source 1, then the checks on
those data (R126, log entry 22). Then steps 6 to 8, and the command enters its units. The order of an elastic wait: a hold of source 2
until the flag or queue is ready (R145, R146). -/
def Cls.proceed (c : Cls) (s : State) (x : Ctx) : State :=
  match s.exec? x.p with
  | none => s
  | some e =>
    let u := c.unit s x
    let car := (s.scopeCars x).headD (s.home x.p)
    let wait := x.h.wait.toNat
    if c.inFlight s x e then
      (s.setExec x.p { e with waiting := some (x.op, x.h, BitVec.ofNat 64 x.w1) }).hold x.p 1 none
    else
      match c.late s x with
      | some f => s.raise x.p u f.1 x.off f.2
      | none =>
        match s.waitFlag x.p car wait with
        | .underflow w3 => s.raise x.p u 0x01 x.off w3
        | .elastic => (s.setExec x.p { e with waiting := some (x.op, x.h, BitVec.ofNat 64 x.w1) }).hold x.p 2 none
        | .go =>
          if (c.units s x).any (fun k => 2 ≤ s.occupants x.p e k) then
            let f := bad0C x.op 6 0
            s.raise x.p u f.1 x.off f.2
          else
            match c.ready s x with
            | some (u', f) => s.raise x.p u' f.1 x.off f.2
            | none =>
              if c.wait s x then
                (s.setExec x.p { e with waiting := some (x.op, x.h, BitVec.ofNat 64 x.w1) }).hold x.p 2 none
              else
                match s.poisonCheck x.p u x.off (s.tableReads x) with
                | some s => s
                | none => c.start ((s.takeWait x.p car wait).issueAt x) x

/-- The first check of a command that fails: only END may follow the commit (R224), then steps 2 to 5 of R160. R160 gives the check of R293
and R298, code 0x32 with reason 3, no place among its steps: here it comes after step 1 and before step 2 (DESIGN CHOICE, log entry 13). -/
def Cls.verdict (c : Cls) (s : State) (x : Ctx) (e : Exec) : Option Fail :=
  if e.committed && x.op ≠ 0x0F then some (0x32, (if x.op = 0x79 then x.f 0 20 else 0) + 3 * 2 ^ 20) else c.check s x e

/-- Issue a command of a class: every check, then its steps (R159, R160). -/
def Cls.issue (c : Cls) (s : State) (x : Ctx) (e : Exec) : State :=
  match c.verdict s x e with
  | some f => s.raise x.p (c.unit s x) f.1 x.off f.2
  | none => c.proceed s x

/-- The context of a command offered at a partition's issue point. -/
def Exec.ctx (e : Exec) (p op : Nat) (h : Head) (w1 : Word) : Ctx := ⟨p, op, h, w1.toNat, e.off, e.hdr⟩

/-- A program command offered to a partition: it issues when the issue point is open, and has no effect otherwise (log
entry 1). -/
def Cls.offer (c : Cls) (s : State) (p op : Nat) (h : Head) (w1 : Word) : State :=
  if s.issuable p then
    match s.exec? p with
    | some e => c.issue s (e.ctx p op h w1) e
    | none => s
  else s

/-- A command whose elastic wait is over continues from step 6 (R145, R146). -/
def Cls.resume (c : Cls) (s : State) (p op : Nat) (h : Head) (w1 : Word) : State :=
  match s.exec? p with
  | some e =>
    let s := ((s.setExec p { e with waiting := none }).unhold p 2).unhold p 1
    c.proceed s (e.ctx p op h w1)
  | none => s

/-! Entering units and completing. -/

/-- Enter a command in its units' slots: it runs when it may and no earlier command occupies any of them (R159). A fixed-latency
command of latency `lat` completes that many paces after its start. -/
def State.enterWhen (s : State) (may : Bool) (x : Ctx) (units : List Nat) (lat : Option Nat) (prog left : Nat)
    (descs : List (List Byte)) : State :=
  match s.exec? x.p with
  | none => s
  | some e =>
    let now := s.orderPace x.p
    let runs := may && units.all (fun u => s.occupants x.p e u = 0)
    let cmd : Cmd :=
      { off := x.off, op := x.op, h := x.h, w1 := BitVec.ofNat 64 x.w1, units := units,
        start := if runs then some now else none, done := if runs then lat.map (now + ·) else none,
        prog := (lat.getD prog), left := left, descs := descs }
    s.setExec x.p { e with cmds := e.cmds ++ [cmd] }

/-- Enter a command that nothing but its units' slots keeps waiting. -/
def State.enter (s : State) (x : Ctx) (units : List Nat) (lat : Option Nat) (prog left : Nat) (descs : List (List Byte)) : State :=
  s.enterWhen true x units lat prog left descs

/-- Whether the command at a stream offset is in its units' running slots. -/
def State.runsNow (s : State) (p off : Nat) : Bool :=
  ((s.exec? p).map (fun e => e.cmds.any (fun m => m.off = off && m.start.isSome))).getD false

/-- Commands that complete at issue signal at once (R167). -/
def State.doneAtIssue (s : State) (x : Ctx) (unit : Nat) : State :=
  let cs := s.scopeCars x
  s.signal x.p x.off unit (cs.headD (s.home x.p)) x.h.signal.toNat cs

/-- Record destinations that a stopped order leaves undefined (R151). -/
def State.dest (s : State) (p : Nat) (rs : List (Nat × Nat)) : State :=
  s.updExec p (fun e => { e with dests := e.dests ++ rs })

/-- A required descriptor index: zero, or beyond its table (R161, reason 2). -/
def needDesc (x : Ctx) (lsb : Nat) : Bool × Fail :=
  (x.f lsb 12 = 0 || x.descCount ≤ x.f lsb 12, bad0C x.op 2 (64 + lsb))
/-- An optional descriptor index. -/
def optDesc (x : Ctx) (lsb : Nat) : Bool × Fail := (x.descCount ≤ x.f lsb 12 && x.f lsb 12 ≠ 0, bad0C x.op 2 (64 + lsb))

/-- The bytes of descriptor `i` at issue. -/
def State.descBytes (s : State) (x : Ctx) (i : Nat) : List Byte :=
  s.vbytes x.p (s.homeStn x.p) (hdrAt x.hdr 16 8 + 64 * i) 64

/-- The words of a command in the stream (R157, R442). -/
def State.streamWords (s : State) (p : Nat) (e : Exec) (off : Nat) : Option (Word × Word) :=
  if hdrAt e.hdr 8 4 < off + 16 then none
  else
    let b := s.vbytes p (s.homeStn p) (hdrAt e.hdr 0 8 + off) 16
    some (BitVec.ofNat 64 (leAt b 0 8), BitVec.ofNat 64 (leAt b 8 8))

/-- The mortar, tally or array unit of the lowest station in scope. -/
def State.stnUnit (s : State) (x : Ctx) (blk : Nat) : Nat :=
  let g := (s.scopeStns x).headD 0
  unitId (g / 8) (g % 8) blk

/-- A unit of the lowest caravan in scope. -/
def State.carUnit (s : State) (x : Ctx) (blk : Nat) : Nat := unitId ((s.scopeCars x).headD 0) 0 blk

/-- The station's tally, array and mortar as slot keys. -/
def tallyUnit (g : Nat) : Nat := unitId (g / 8) (g % 8) 0x02
def arrayUnit (g : Nat) : Nat := unitId (g / 8) (g % 8) 0x01
def mortarUnit (g : Nat) : Nat := unitId (g / 8) (g % 8) 0x04

/-- The level an operand's first byte maps to. -/
def State.isAlias (s : State) (p : Nat) (d : Desc) : Bool := (s.vaPa p d.base).bind regionOf = some .alias_

/-- Word 0's format rules for outputs and rounding (R40, reasons 3, 4 and 5). -/
def outFmt (h : Head) (mxOk : Bool) : Option Fail :=
  let o := h.fmtOut.toNat
  firstFail [
    (o ≤ 1 || o = 0xF, bad04 h 3), (isMx o && !mxOk, bad04 h 4), (h.round = 3, bad04 h 5)]

end Sys2Proof.Machine
end

