-- ==== Sys2Proof/Machine/Links.lean ====
section
/-!
DEFINITION. The torus links (R329 to R356): port states and training, flits in, isolation, forwarding, detours, send entries, delivery.
-/
namespace Sys2Proof.Machine

/-! Hops and drops (R339, R340, R346, R347). -/

/-- At its waypoint a packet begins leg 2 (R339). -/
def State.leg2 (s : State) (k : Packet) : Packet :=
  if k.onLeg1 && k.waypoint = s.self then k.setF 5 1 3 else k

/-- The VC of a packet's next hop (R340). -/
def State.nextVc (s : State) (inPort outPort : Nat) (k : Packet) (turned : Bool) : Nat :=
  let later := inPort / 2 = outPort / 2 && k.vc % 2 = 1 && !turned
  k.vc / 2 * 2 + boolNat (later || s.dateline outPort)

/-- A packet leaves a port's receive buffer. -/
def State.leave (s : State) (i : Nat) (k : Packet) : State :=
  if (s.port i).queue.contains k then
    (s.updPort i (fun x => { x with queue := x.queue.erase k })).freed i k.vc k.flits
  else s

/-- A packet discarded at its target, counted in WINDOW (R346). -/
def State.targetDrop (s : State) (i : Nat) (k : Packet) : State := (s.leave i k).count (Csr.lnkDrop_window i) 1

/-- A packet that no window of its arrival port admits: discarded and counted, with an event to the Factor (R347). -/
def State.windowDrop (s : State) (i : Nat) (k : Packet) : State := (s.targetDrop i k).emit (.toFactor 20 i)

/-! Ports going down (R331, R351, R378). -/

/-- What a port's loss does to a packet that owns a VC of port o (R351): one whose flits came in by the lost port is closed by END and
POISON and counted; one that was leaving by the lost port is closed there likewise as long as the port can send, and its ingress buffer has its flits back. -/
def State.closeOwners (s : State) (i : Nat) : State :=
  let s := (List.range 6).foldl (fun s o =>
    if o = i then s
    else
      let gone := (s.port o).owners.filter (fun q => (q.src.map (·.1)) = some i)
      gone.foldl (fun s q =>
        ((s.updPort o (fun x => { x with owners := x.owners.map (fun y => if y = q then { y with src := none, cut := true } else y) })).runOwner
          o q.pkt.vc).count (Csr.lnkDrop_poisoned i) 1) s) s
  (s.port i).owners.foldl (fun s q =>
    let s := if 0 < q.sent && s.active i && !s.flag1 Csr.cprClk_linkRefLost then
        (s.sendFlit i q.pkt.vc false true true []).count (Csr.lnkDrop_poisoned i) 1
      else s
    match q.src with
    | some (a, v) => s.freed a v (q.pkt.flits - q.sent)
    | none => s) s

/-- A packet for another device that is still arriving on a VC when its port is lost (R341, R351): the flits that have come go on to its
next link as far as they may, and a flit with END and POISON closes it there and is counted. Where the next link's VC is taken or has no
credit, the packet has left on no link (log entry 24). -/
def State.closeArriving (s : State) (i vc : Nat) (a : Asm) : State :=
  let k : Packet := ⟨vc, a.flits, BitVec.ofNat 192 (leNat (a.bytes.take 24)), a.bytes.drop 24⟩
  let k' := s.leg2 k
  if a.bytes.length < 24 || a.broken || a.cut || k'.target = s.self || 6 ≤ k.kind || 96 < k.hops + 1 then s
  else
    match s.portTo k'.target with
    | none => s
    | some o =>
      let q := { k'.setF 11 1 (k.hops + 1) with vc := s.nextVc i o k (k' ≠ k) }
      if o = i || !s.active o || !(s.port o).vcFree q.vc || (s.port o).room q.vc < a.flits + 1 then s
      else
        let s := (List.range a.flits).foldl (fun s j => s.sendFlit o q.vc (j = 0) false false (q.text j)) s
        (s.sendFlit o q.vc false true true []).count (Csr.lnkDrop_poisoned i) 1

/-- Empty a port's buffers and discard its keys; packets in progress through it are closed on the links they occupy, and counted (R351). -/
def State.flushPort (s : State) (i : Nat) : State :=
  let x := s.port i
  let s := (x.asm.foldl (fun s (vc, a) => s.closeArriving i vc a) s).closeOwners i
  let s := s.setPort i { Port.idle with isolations24 := x.isolations24, fenced := x.fenced, parkedState := x.parkedState,
                                        reported := x.reported, keyGen := x.keyGen }
  let s := (List.range 8).foldl (fun s p => s.updWctx p (fun w => { w with waiting := w.waiting.filter (·.port ≠ i) })) s
  (s.setFld (Csr.lnkStatus_encrypted i) 0).setFld (Csr.lnkStatus_width i) 0

/-- A port enters ISOLATED; a third entry within 24 h fences it (R331, R350, R351, R378). Whether the earlier ones still
count is a free value (log entry 6). -/
def State.isolate (s : State) (i : Nat) : State :=
  let s := (s.flushPort i).setFld (Csr.lnkStatus_state i) 6
  let s := (s.count (Csr.lnkErr_isolations i) 1).emit (.toFactor 16 i)
  let n := (s.port i).isolations24 + 1
  let s := s.updPort i (fun x => { x with isolations24 := n })
  if 3 ≤ n then
    let (b, s) := s.draw
    if b % 2 = 1 then s.fence (portUnit i) 0 else s
  else s

/-- The state a port takes when nothing keeps it OFF: OFF by its enable, a ring of size 1, the reference, P3 or a fence;
the state it was parked in; else DETECT (R331). -/
def State.portUp (s : State) (i : Nat) : State :=
  let off := !s.flag1 (Csr.lnkCtrl_enable i) || s.ring (i / 2) = 1 || s.flag1 Csr.cprClk_linkRefLost || (s.port i).fenced ||
    s.fld Csr.cprPstate_device = 2
  let st := if off then 0 else if (s.port i).parkedState = 0 then 1 else (s.port i).parkedState
  let s := s.setFld (Csr.lnkStatus_state i) st
  if off then s else s.updPort i (fun x => { x with parkedState := 0 })

/-- A port goes OFF and keeps ISOLATED or MISWIRED for its return (R331, R351). -/
def State.portOff (s : State) (i : Nat) : State :=
  let st := s.portState i
  let s := if st = 0 then s else s.flushPort i
  let s := if 6 ≤ st then s.updPort i (fun x => { x with parkedState := st }) else s
  s.setFld (Csr.lnkStatus_state i) 0

/-- LRST of a port (R331, R351, R355): its buffers are emptied, its registers take their LRST values, and it trains. -/
def State.lrst (s : State) (i : Nat) : State :=
  let s := s.flushPort i
  let s := s.updPort i (fun x => { x with parkedState := 0 })
  let s := ((s.setFld (Csr.lnkStatus_beacon i) 0).setFld (Csr.lnkStatus_peer i) 0).setFld (Csr.lnkStatus_peerPort i) 0
  (s.setFld (Csr.lnkStatus_reversed i) 0).portUp i

/-! Training (R331 to R333, R348, R349). -/

/-- The width working lanes allow (R330); 0 below 8. -/
def widthOf (lanes : Nat) : Nat := ([24, 20, 16, 12, 8].find? (· ≤ lanes)).getD 0

def execLinkSignalDetect (port : PortId) (lanes : Nat) (s : State) : Host.Outcome State Fault Refusal :=
  answer s (fun s => if s.portState port = 1 && 8 ≤ lanes then
    (s.updPort port (fun x => { x with present := true })).setFld (Csr.lnkStatus_state port) 2 else s)

/-- A partner stops answering in training, up to INIT (R331); SECURE has its own limit (R348). -/
def execPartnerStopsAnswering (port : PortId) (s : State) : Host.Outcome State Fault Refusal :=
  answer s (fun s => if s.portState port = 2 || s.portState port = 3 then
    ((s.flushPort port).updPort port (fun x => { x with present := false })).setFld (Csr.lnkStatus_state port) 1 else s)

/-- FEC lock: the port enters INIT, and sends its coordinate, number and width (R331, R332). -/
def execLinkFecLock (port : PortId) (lanes : Nat) (s : State) : Host.Outcome State Fault Refusal :=
  answer s (fun s => if s.portState port = 2 && 8 ≤ lanes then
    ((s.setFld (Csr.lnkStatus_width port) (widthOf lanes)).setFld (Csr.lnkStatus_state port) 3).emit (.initFlit port s.self (widthOf lanes))
  else s)

/-- The Seal goes on in the attestation of a link, with the roots and the policy of the running image (R348). -/
def State.spdmCame (s : State) (i : Nat) (bytes : List Byte) : State :=
  let (roots, policy) := (s.dev.running.map (fun (x : Image) => (x.roots, x.policy))).getD ([], [])
  match Config.linkSpdm roots policy bytes with
  | some bs => s.toPartner i 6 bs
  | none => s

/-- INIT (R333): the partner's coordinate, port and width; in SECURE the attestation begins (R348). -/
def State.initExchange (s : State) (i coord peerPort lanes : Nat) (reversed : Bool) : State :=
  if s.portState i ≠ 3 || lanes < 8 then s
  else
    let s := (s.setFld (Csr.lnkStatus_peer i) coord).setFld (Csr.lnkStatus_peerPort i) peerPort
    let s := s.setFld (Csr.lnkStatus_reversed i) (boolNat reversed)
    let s := s.setFld (Csr.lnkStatus_width i) (min (s.fld (Csr.lnkStatus_width i)) (widthOf lanes))
    let good := coord = s.stepCoord s.self i && peerPort = (if i % 2 = 0 then i + 1 else i - 1)
    let s := s.setFld (Csr.lnkStatus_state i) (if !good then 7 else if s.fld (Csr.lnkCtrl_secMode i) = 0 then 5 else 4)
    if s.portState i = 4 then s.spdmCame i [] else s

def execLinkInitExchange (port : PortId) (coord : BitVec 15) (peerPort : BitVec 3) (lanes : Nat) (reversed : Bool) (s : State) :
    Host.Outcome State Fault Refusal :=
  answer s (fun s => s.initExchange port coord.toNat peerPort.toNat lanes reversed)

/-- Attestation complete (R348); in mode 2 and 3 every later flit of VC 0 to 5 is encrypted (R349). -/
def execLinkSpdmComplete (port : PortId) (s : State) : Host.Outcome State Fault Refusal :=
  answer s (fun s => if s.portState port = 4 then
    let s := s.setFld (Csr.lnkStatus_state port) 5
    if 2 ≤ s.fld (Csr.lnkCtrl_secMode port) then
      (s.setFld (Csr.lnkStatus_encrypted port) 1).updPort port (fun x => { x with keyGen := x.keyGen + 1, keyId := false, oldKey := false })
    else s
  else s)

def execLinkSpdmTimeout (port : PortId) (s : State) : Host.Outcome State Fault Refusal :=
  answer s (fun s => if s.portState port = 4 then s.isolate port else s)

def execLinkAbsentReport (port : PortId) (s : State) : Host.Outcome State Fault Refusal :=
  answer s (fun s => if 1 ≤ s.portState port && s.portState port ≤ 3 && !(s.port port).reported then
    (s.updPort port (fun x => { x with reported := true })).emit (.toFactor 17 port) else s)

/-- Renewal of a port's keys (R349). -/
def execKeyUpdate (port : PortId) (s : State) : Host.Outcome State Fault Refusal :=
  answer s (fun s => if s.active port && s.flag1 (Csr.lnkStatus_encrypted port) then
    s.updPort port (fun x => { x with keyGen := x.keyGen + 1, keyId := !x.keyId, oldKey := true }) else s)

/-! Flits (R334 to R337, R349 to R351). -/

/-- Resend from ACK + 1, bit for bit as before (R349); at RETRY_LIMIT resends without progress the port is isolated (R336). -/
def State.resend (s : State) (i : Nat) : State :=
  let x := s.port i
  if x.outstanding = 0 then s
  else
    let s := (s.count (Csr.lnkErr_retries i) 1).updPort i (fun x => { x with resends := x.resends + 1 })
    let s := x.replay.foldl (fun s w => s.emit (.flit i w)) s
    if max 1 (s.fld (Csr.lnkCtrl_retryLimit i)) ≤ x.resends + 1 then s.isolate i else s

def execLinkRetryTimer (port : PortId) (s : State) : Host.Outcome State Fault Refusal :=
  answer s (fun s => if s.portState port = 4 || s.active port then s.resend port else s)

/-- Discard a flit, with one NAK until the next flit in order (R336). -/
def State.nakFlit (s : State) (i : Nat) : State :=
  let x := s.port i
  if x.nakSent then s else (s.updPort i (fun x => { x with nakSent := true })).linkOnly i true 0 0

/-- The bits of a received flit. -/
def flitBits (w : BitVec 2048) (lsb width : Nat) : Nat := bitsOf w.toNat lsb width
def flitBytes (w : BitVec 2048) (i n : Nat) : List Byte := leBytes n (flitBits w (8 * i) (8 * n))

/-- How far ACK has advanced, modulo 2^16. -/
def Port.ackStep (x : Port) (ack : Nat) : Nat := (ack + 2 ^ 16 - x.acked) % 2 ^ 16

/-- Flits in a port's receive buffer on a VC (R337): packets that arrive, that wait, and that leave by other ports. -/
def State.rxUsed (s : State) (i vc : Nat) : Nat :=
  (Map.get Asm.none (s.port i).asm vc).flits + (((s.port i).queue.filter (·.vc = vc)).map (·.flits)).sum +
  ((List.range 6).map (fun o => (((s.port o).owners.filter (fun q => q.src = some (i, vc))).map (fun q => q.pkt.flits - q.sent)).sum)).sum

/-- A link header that isolates its port (R350), nonzero bytes where there is no tag, and link-only flits with a SEQ or a LEN (R334,
R335) among them. -/
def Port.hostile (x : Port) (w : BitVec 2048) : Bool :=
  let d := x.ackStep (flitBits w 16 16)
  let vc := flitBits w 32 3
  vc = 7 || 228 < flitBits w 50 8 || flitBits w 58 6 ≠ 0 || (x.outstanding < d && d < 2 ^ 15) ||
  Map.get 0 x.used (flitBits w 41 3) < flitBits w 44 6 || (flitBits w 38 1 = 1 && 2 ^ 15 ≤ d) ||
  (vc = 6 && (flitBits w 0 16 ≠ 0 || flitBits w 50 8 ≠ 0)) || (flitBits w 39 1 = 0 && flitBits w (8 * 236) 128 ≠ 0)

/-- ACK, credits and NAK of an accepted header (R336, R337). -/
def State.linkAcks (s : State) (i : Nat) (w : BitVec 2048) : State :=
  let x := s.port i
  let d := x.ackStep (flitBits w 16 16)
  let s := if 0 < d && d ≤ x.outstanding then
      s.updPort i (fun x => { x with acked := flitBits w 16 16, resends := 0, replay := x.replay.drop d }) else s
  let cv := flitBits w 41 3
  let s := s.updPort i (fun x => { x with used := Map.set 0 x.used cv (Map.get 0 x.used cv - flitBits w 44 6) })
  let s := if flitBits w 38 1 = 1 then s.resend i else s
  s.pump i

/-- A flit accepted in order joins its packet, which runs from START to END on its VC (R338); a whole packet waits at the port, or is
discarded: one that POISON has closed unfinished (R335), and, counted as malformed (R350), one that a new START cuts short or that began
without one. In SECURE only the attestation's own packets from the partner are taken (R347, R348). -/
def State.takeFlit (s : State) (i : Nat) (w : BitVec 2048) (body : List Byte) : State :=
  let vc := flitBits w 32 3
  let start := flitBits w 35 1 = 1
  let poison := decide (flitBits w 37 1 = 1)
  let old := Map.get Asm.none (s.port i).asm vc
  let s := if start && old.flits ≠ 0 then
      let s := s.freed i vc old.flits
      if old.cut then s else s.count (Csr.lnkDrop_malformed i) 1
    else s
  let a : Asm := if start then ⟨body, 1, false, poison⟩ else ⟨old.bytes ++ body, old.flits + 1, old.broken || old.flits = 0, old.cut || poison⟩
  let put (s : State) (v : Asm) : State := s.updPort i (fun x => { x with asm := Map.set Asm.none x.asm vc v })
  if flitBits w 36 1 = 0 then put s a
  else
    let s := put s Asm.none
    let k : Packet := ⟨vc, a.flits, BitVec.ofNat 192 (leNat (a.bytes.take 24)), a.bytes.drop 24⟩
    if a.cut then s.freed i vc a.flits
    else if a.broken || a.bytes.length < 24 || s.malformed k then (s.freed i vc a.flits).count (Csr.lnkDrop_malformed i) 1
    else if s.portState i ≠ 4 then s.updPort i (fun x => { x with queue := x.queue ++ [k] })
    else if k.kind = 6 && vc < 2 && k.hops = 0 && k.src = s.fld (Csr.lnkStatus_peer i) then (s.freed i vc a.flits).spdmCame i k.payload
    else ((s.freed i vc a.flits).count (Csr.lnkDrop_window i) 1).emit (.toFactor 20 i)

/-- The generation of the key that a flit names, if the receiver has it (R349). -/
def Port.genOf (x : Port) (keyId : Bool) : Option Nat :=
  if keyId = x.keyId then some x.keyGen else if x.oldKey then some (x.keyGen - 1) else none

/-- The 64-bit flit count of a received flit, extended from its SEQ (R349). -/
def Port.countOf (x : Port) (seq : Nat) : Nat :=
  let d := (seq + 2 ^ 16 - x.rxSeq) % 2 ^ 16
  if d < 2 ^ 15 then x.rxCount + d else x.rxCount + d - 2 ^ 16

/-- The additional data of a received flit: its link header with ACK, NAK, CREDIT_VC and CREDITS zero (R349). -/
def flitAad (w : BitVec 2048) : Nat :=
  flitBits w 0 16 + flitBits w 32 6 * 2 ^ 32 + flitBits w 39 2 * 2 ^ 39 + flitBits w 50 14 * 2 ^ 50

/-- The tag of a flit on an encrypted port is good. A flit out of order under a key that is gone is no more than out of order (log entry
24). -/
def Port.tagGood (x : Port) (i : Nat) (w : BitVec 2048) : Bool :=
  let seq := flitBits w 0 16
  match x.genOf (flitBits w 40 1 = 1) with
  | some g => Config.tagOk i g false (x.countOf seq) (flitAad w) (BitVec.ofNat 1824 (flitBits w 64 1824)) (BitVec.ofNat 128 (flitBits w 1888 128))
  | none => seq ≠ (x.rxSeq + 1) % 2 ^ 16

/-- The payload bytes of a flit in order, as they were before encryption. -/
def Port.plain (x : Port) (i : Nat) (enc : Bool) (w : BitVec 2048) : List Byte :=
  if enc then leBytes 228 (Config.linkPlain i ((x.genOf (flitBits w 40 1 = 1)).getD 0) false (x.countOf (flitBits w 0 16))
    (BitVec.ofNat 1824 (flitBits w 64 1824))).toNat
  else flitBytes w 8 228

/-- A received flit (R336, R350): CRC, header, tag, sequence number; one that is not accepted does nothing, and one that is is
acknowledged at once. A flit that comes without a credit finds no room in the buffer, and isolates the port (log entry 24). -/
def State.flit (s : State) (i : Nat) (w : BitVec 2048) : State :=
  let st := s.portState i
  if !(st = 3 || st = 4 || st = 5) then s
  else if (crc32 (flitBytes w 0 252)).toNat ≠ flitBits w (8 * 252) 32 then
    (s.count (Csr.lnkErr_crcErrors i) 1).nakFlit i
  else
    let x := s.port i
    let vc := flitBits w 32 3
    let next := decide (flitBits w 0 16 = (x.rxSeq + 1) % 2 ^ 16)
    if x.hostile w || (vc ≤ 5 && next && 2048 ≤ s.rxUsed i vc) then s.isolate i
    else if vc = 6 then s.linkAcks i w
    else if st = 3 then s
    else
      let enc := s.flag1 (Csr.lnkStatus_encrypted i)
      let sealed := decide (flitBits w 39 1 = 1)
      if (enc || sealed) && !(enc && sealed && x.tagGood i w) then (s.count (Csr.lnkErr_tagFails i) 1).isolate i
      else if !next then s.nakFlit i
      else
        let s := s.linkAcks i w
        if s.portState i ≠ st then s
        else
          let s := s.updPort i (fun y => { y with
            rxSeq := (x.rxSeq + 1) % 2 ^ 16, rxCount := (x.rxCount + 1) % 2 ^ 64, nakSent := false,
            oldKey := y.oldKey && !(flitBits w 40 1 = 1) == y.keyId })
          (s.linkOnly i false 0 0).takeFlit i w ((x.plain i enc w).take (flitBits w 50 8))

/-- FLIT_RECEIVE. An uncorrectable codeword is counted, and its flits fail their CRC (R350). -/
def State.received (s : State) (i : Nat) (x : FlitIn) : State :=
  match x with
  | .flit w => s.flit i w
  | .badCodeword n =>
    let st := s.portState i
    if !(st = 3 || st = 4 || st = 5) then s
    else
      let s := s.count (Csr.lnkErr_fecUncorr i) 1
      if n = 0 then s else (s.count (Csr.lnkErr_crcErrors i) n).nakFlit i

def execFlitReceive (port : PortId) (flit : FlitIn) (s : State) : Host.Outcome State Fault Refusal := answer s (fun s => s.received port flit)

/-! Forwarding (R339, R340). -/

/-- Whether a packet is the first that waits on its VC, or none does: packets of a VC stay in order (R346). -/
def State.atHead (s : State) (i : Nat) (k : Packet) : Bool :=
  (List.range 6).all (fun o => (s.port o).owners.all (fun q => q.src ≠ some (i, k.vc))) &&
  (match (s.port i).queue.find? (·.vc = k.vc) with
   | some q => q = k
   | none => true)

/-- A packet waits at its port, behind what waits there already. -/
def State.park (s : State) (i : Nat) (k : Packet) : State :=
  if (s.port i).queue.contains k then s else s.updPort i (fun x => { x with queue := x.queue ++ [k] })

/-- Where a packet's flits leave from: a receive buffer that holds it. -/
def State.srcOf (s : State) (i : Nat) (k : Packet) : Option (Nat × Nat) := if (s.port i).queue.contains k then some (i, k.vc) else none
/-- A packet goes from its place in the receive buffer to an output VC. -/
def State.unqueue (s : State) (i : Nat) (k : Packet) : State := s.updPort i (fun x => { x with queue := x.queue.erase k })

/-- Forward a packet, or discard it (R339, R347, R350). Without a free output VC and a credit, or masked at the toll, it stays where it
is (R256, R341). -/
def State.forward (s : State) (i : Nat) (k : Packet) : State :=
  if !s.active i then s
  else if s.malformed k then (s.leave i k).count (Csr.lnkDrop_malformed i) 1
  else
    let k' := s.leg2 k
    if k'.target = s.self then s
    else if !s.atHead i k then s.park i k
    else if 6 ≤ k.kind then s.windowDrop i k
    else
      match s.portTo k'.target with
      | none => s
      | some o =>
        if 96 < k.hops + 1 || !s.active o then (s.leave i k).count (Csr.lnkDrop_unroutable o) 1
        else
          let q := { k'.setF 11 1 (k.hops + 1) with vc := s.nextVc i o k (k' ≠ k) }
          if (s.port o).fits q && !bitOf (s.tollMask (96 + o)) (32 + i) then (s.unqueue i k).giveOut o q (s.srcOf i k) else s.park i k

def execPacketForward (port : PortId) (pkt : Packet) (s : State) : Host.Outcome State Fault Refusal := answer s (fun s => s.forward port pkt)

/-- The partner's fault beacon (R347, R353): accepted from the direct partner with HOPS 0 only; another is discarded as one that no
window admits. -/
def State.beaconFrom (s : State) (i hops src : Nat) : State :=
  if !s.active i then s
  else if hops ≠ 0 || src ≠ s.fld (Csr.lnkStatus_peer i) then (s.count (Csr.lnkDrop_window i) 1).emit (.toFactor 20 i)
  else (s.setFld (Csr.lnkStatus_beacon i) 1).emit (.toFactor 18 i)

def execFaultBeaconReceive (port : PortId) (hops : Beacon) (s : State) : Host.Outcome State Fault Refusal :=
  answer s (fun s => s.beaconFrom port hops.hops.toNat hops.src.toNat)

/-! Detour tables (R343). -/

/-- A word the Seal installs: not valid, or a good entry. -/
def State.detourOk (s : State) (w : Word) : Bool :=
  let wp := bitsOf w.toNat 31 15
  bitsOf w.toNat 0 1 = 0 || (s.inRing wp && wp ≠ s.self && bitsOf w.toNat 46 18 = 0)

/-- Install a whole table, or keep the old one and tell the Factor. -/
def State.installDetours (s : State) (tbl : List Word) : State :=
  if tbl.length ≤ 64 && tbl.all s.detourOk then
    (List.range 64).foldl (fun s e => s.setReg (Csr.lnkDetour e) (BitVec.ofNat 64 ((tbl.getD e 0).toNat % 2 ^ 46))) s
  else s.emit (.toFactor 19 0)

def execDetourInstall (tbl : List Word) (s : State) : Host.Outcome State Fault Refusal := answer s (fun s => s.installDetours tbl)

/-! Send entries (R345, R352). -/

/-- The fields of a send entry. -/
structure SendEnt where
  dest : Nat
  kind : Nat
  part : Nat
  queue : Nat
  caravan : Nat
  remote : Nat
  local_ : Nat
  len : Nat
  flag : Nat
  spare : Bool
  deriving DecidableEq, Repr

def parseSend (b : List Byte) : SendEnt :=
  { dest := leAt b 0 2, kind := leAt b 2 1, part := leAt b 3 1, queue := leAt b 4 2, caravan := leAt b 6 1, remote := leAt b 8 8,
    local_ := leAt b 16 8, len := leAt b 24 4, flag := leAt b 28 2, spare := leAt b 7 1 ≠ 0 || (b.drop 30).any (· ≠ 0) }

/-- Bytes of local data of an entry. -/
def SendEnt.bytes (e : SendEnt) : Nat := if e.kind = 2 then 64 else if e.kind = 3 then e.len else 0

/-- Word 3 of code 0x51. -/
def bad51 (e : SendEnt) (reason : Nat) : Fail := (0x51, reason + e.dest % 2 ^ 15 * 2 ^ 4)

/-- The checks of a send entry in the order of the reasons, LENGTH before the extent it bounds (R352, log entry 13). -/
def State.sendCheck (s : State) (p : Nat) (e : SendEnt) : Option Fail :=
  let ext := e.bytes ≠ 0 && (2 ^ 48 ≤ e.local_ || (s.rowCheck p 0 e.local_ e.bytes false).isSome)
  if !(2 ≤ e.kind && e.kind ≤ 4) then some (bad51 e 1)
  else if e.kind = 3 && (e.len = 0 || 2 ^ 24 < e.len) then some (bad51 e 3)
  else if ext then some (bad51 e 2)
  else if !s.inRing e.dest then some (bad51 e 4)
  else if e.spare || 8 ≤ e.part || 64 ≤ e.queue || 2 ^ 48 ≤ e.remote || !(e.flag = 0 || (3968 ≤ e.flag && e.flag < 4096)) then
    some (bad51 e 5)
  else none

/-- Packets of a send: a remote write's carry up to 8 KiB (R345). -/
def SendEnt.packets (e : SendEnt) : Nat := if e.kind = 3 then cdiv e.len 8192 else 1

/-- The payload length of packet n of a send. -/
def SendEnt.pktBytes (e : SendEnt) (n : Nat) : Nat := if e.kind = 2 then 64 else if e.kind = 3 then min 8192 (e.len - n * 8192) else 0

/-- Packet n of a send, by the route that the send took (R343, R345). -/
def State.sendPkt (s : State) (p g : Nat) (e : SendEnt) (via : Option Nat) (n : Nat) : Packet :=
  let last := n + 1 = e.packets
  let index := if e.kind = 2 then e.queue + (if e.flag = 0 then 0x3FF else e.flag - 3968) * 2 ^ 6 else if last then e.flag else 0
  s.makePacket 2 e.dest via e.kind e.part index (if e.kind = 2 then e.caravan else 0) (if e.kind = 3 then e.remote + n * 8192 else 0)
    (s.vbytes p g (e.local_ + n * 8192) (e.pktBytes n))

/-- A partition's send queues in round-robin order from the next one: field, caravan, queue (R345). -/
def State.sendQueues (s : State) (p : Nat) : List (Nat × Nat × Nat) :=
  ((List.range 4).map (fun j => ((s.part p).txNext + j) % 4)).filterMap (fun j =>
    let w := s.fld (Csr.lnkTxq_sendq p) / 2 ^ (12 * j)
    match (s.caravans p)[bitsOf w 6 5]? with
    | some c =>
      let q := bitsOf w 0 6
      if bitsOf w 11 1 = 1 && s.qElastic c q && 0 < s.qDepth c q && s.qReady c q (s.orderPace p) then some (j, c, q) else none
    | none => none)

/-- What becomes of the oldest entry of a queue: a fault, held by a port in training or by a VC that another packet owns, or sent. -/
inductive SendRes where
  | bad (unit : Nat) (f : Fail)
  | held
  | go
  deriving DecidableEq, Repr

/-- The detour of the entry that a queue's engine serves: the table as it stood when the first packet left (R343). -/
def State.sendVia (s : State) (q : Queue) (e : SendEnt) : Option Nat := if q.given = 0 then s.detour e.dest else q.via

/-- Sends use the point-to-point class (R345). -/
def State.sendRes (s : State) (p : Nat) (q : Queue) (e : SendEnt) : SendRes :=
  match s.sendCheck p e with
  | some f => .bad (portUnit ((s.portTo e.dest).getD 0)) f
  | none =>
    let wp := s.sendVia q e
    match s.portTo (wp.getD e.dest) with
    | none => .go
    | some i =>
      let st := s.portState i
      if wp.isNone && (st = 0 || st = 6 || st = 7) then .bad (portUnit i) (0x52, e.dest + i * 2 ^ 16)
      else if 1 ≤ st && st ≤ 4 then .held
      else if st = 5 && !(s.port i).opens (4 + boolNat (s.dateline i)) then .held
      else .go

/-- Give the packets of a queue's oldest entry to its egress port, as far as its VC is free and has credit. -/
def State.giveEntry (s : State) (p c q : Nat) (e : SendEnt) : Nat → State
  | 0 => s
  | n + 1 =>
    let x := s.queue (queueKey c q)
    if e.packets ≤ x.given || s.sendRes p x e ≠ .go then s
    else
      let via := s.sendVia x e
      let s := match s.portTo (via.getD e.dest) with
        | some o => (s.sendControl (rtrOfCar c) (rtrOfPort o)).meshRow false (rtrOfPort o) p (c * 8) (e.local_ + x.given * 8192) (e.pktBytes x.given)
        | none => s
      let s := s.post (s.sendPkt p (c * 8) e via x.given) (via.getD e.dest)
      (s.setQueue (queueKey c q) { x with given := x.given + 1, via := via }).giveEntry p c q e n

/-- The link engine serves an entry of a partition (R345, R352): its packets go to the egress port as its VC takes them, and it is popped
when the last one is with the port, or refused with a fault that names its QPUSH. -/
def State.sendEntry (s : State) (p : Nat) : State :=
  let ent (c q : Nat) : SendEnt := parseSend (s.bytes (s.qSlot c q 0) 64)
  match (s.sendQueues p).find? (fun (_, c, q) => s.sendRes p (s.queue (queueKey c q)) (ent c q) ≠ .held) with
  | none => s
  | some (j, c, q) =>
    let e := ent c q
    let off := (s.queue (queueKey c q)).offs.headD 0
    let g := c * 8
    let pop (s : State) : State := (s.qDrop c q).updPart p (fun x => { x with txNext := (j + 1) % 4 })
    match s.sendRes p (s.queue (queueKey c q)) e with
    | .bad unit f => (pop s).raise p unit f.1 off f.2
    | _ =>
      match s.poisonIn p g e.local_ e.bytes with
      | some (va, level) => ((pop s).poisonRead p g va).raise p (portUnit 0) 0x71 off (va % 2 ^ 48 + level * 2 ^ 48)
      | none =>
        let s := s.giveEntry p c q e e.packets
        if e.packets ≤ (s.queue (queueKey c q)).given then pop s else s

def execLinkSendEntry (p : PartId) (s : State) : Host.Outcome State Fault Refusal := answer s (fun s => s.sendEntry p)

/-! Delivery (R346, R347). -/

/-- A valid entry of the arrival port's window list matches (R347). -/
def State.windowOk (s : State) (i : Nat) (k : Packet) (part : Nat) : Bool :=
  (List.range 32).any (fun e =>
    let base := s.fld (Csr.lnkWinB_vbase i e) * 2 ^ 21
    s.flag1 (Csr.lnkWinA_valid i e) && bitOf (s.fld (Csr.lnkWinA_kinds i e)) (k.kind - 1) &&
    Nat.land k.src (s.fld (Csr.lnkWinA_srcMask i e)) = s.fld (Csr.lnkWinA_srcMatch i e) &&
    s.fld (Csr.lnkWinA_partition i e) = part &&
    (k.kind ≠ 3 || (base ≤ k.addr && k.addr + k.payload.length ≤ base + s.fld (Csr.lnkWinB_pages i e) * 2 ^ 21)))

/-- A flag a packet may signal: none, or an allocated partition flag. -/
def State.flagOk (s : State) (p idx : Nat) : Bool :=
  idx = 0 || (3968 ≤ idx && idx < 4096 && (s.flagAt (s.home p * 4096 + idx)).quantum ≠ 0)

/-- A packet of KIND 2 to 4 at its target (R346). -/
def State.deliverSend (s : State) (i : Nat) (k : Packet) : State :=
  let p := k.part
  let idx := k.flag
  let done (s : State) : State := if idx = 0 then s.leave i k else (s.signalOutside p idx).leave i k
  if !s.windowOk i k p then s.windowDrop i k
  else if !s.flagOk p idx then s.targetDrop i k
  else if k.kind = 3 then
    let n := k.payload.length
    if (s.rowCheck p 0 k.addr n true).isSome then s.targetDrop i k
    else done (s.storeVbytes (rtrOfPort i) p (s.homeStn p) k.addr k.payload)
  else if k.kind = 2 then
    match (s.caravans p)[k.f 14 1]? with
    | none => s.targetDrop i k
    | some c =>
      let q := bitsOf k.index 0 6
      if s.qDepth c q = 0 || !s.qElastic c q then s.targetDrop i k
      else if s.qDepth c q ≤ s.qOcc c q then s.park i k
      else done ((s.sendControl (rtrOfPort i) (rtrOfCar c)).qPush c q 0 0 ((k.payload ++ List.replicate 64 0).take 64))
  else done s

end Sys2Proof.Machine
end

