-- ==== Sys2Proof/Machine/Consign.lean ====
section
/-!
DEFINITION. Consignments (R391 to R400): the boundaries at which one is taken, its copies and their acknowledgement, the
consignee's area and journal tails, the risk multiplier and the interval, and restore.
-/
namespace Sys2Proof.Machine

/-- CSG_STATUS.STATE of a partition. -/
def State.csgState (s : State) (p : Nat) : Nat := s.fld (Csr.csgStatus_state p)
def State.setCsgState (s : State) (p v : Nat) : State := s.setFld (Csr.csgStatus_state p) v
def State.updCsg (s : State) (p : Nat) (f : Consign → Consign) : State := s.updPart p (fun x => { x with csg := f x.csg })
def State.csgCopies (s : State) (p : Nat) : List (Nat × Nat) := (s.part p).csg.copies
def csgUnit (s : State) (p : Nat) : Nat := unitInst (s.home p / 12) 0 0x73

/-! Interval and risk (R396, R397). -/

/-- The minimum interval; 0 acts as 1. -/
def State.csgMin (s : State) (p : Nat) : Nat := max 1 (s.fld (Csr.csgCfg_minS p))
/-- 1/λ in seconds as a ratio (R396). -/
def State.mtbf (s : State) : Nat × Nat :=
  let f := s.fld Csr.csgRisk_failures
  let h := max 1 (s.fld Csr.csgRisk_mpriorH)
  if 24 ≤ f * h then (86400, f) else (3600 * h, 1)
/-- 2·C·M in seconds squared as a ratio (R396). -/
def State.csgSquare (s : State) (p : Nat) : Nat × Nat :=
  let (a, b) := s.mtbf
  (8 * s.fld (Csr.csgCost_costMs p) * a, b * max 1 s.dev.riskR)
/-- At least T has passed. -/
def State.csgElapsed (s : State) (p sinceS : Nat) : Bool :=
  let (a, b) := s.csgSquare p
  s.csgMin p ≤ sinceS && a ≤ sinceS * sinceS * b
/-- INTERVAL_S shows T, cut to whole seconds. -/
def State.csgInterval (s : State) (p : Nat) : State :=
  let (a, b) := s.csgSquare p
  s.setFld (Csr.csgCost_intervalS p) (min (2 ^ 24 - 1) (max (s.csgMin p) (isqrt (a / b))))

/-- r of R397 in units of 1/4000. The margin of the hour is the least that was met, and 115 less TJ_MAX at the latest (R423). -/
def State.riskOf (s : State) (ce lr dr margin : Nat) : Nat :=
  let m := min margin (115 - s.fld Csr.cprCap_tjMax)
  let sum := s.fld Csr.csgRisk_wCe * ((ce - 100) * 10) + s.fld Csr.csgRisk_wLr * (lr - 1000) +
    s.fld Csr.csgRisk_wDr * ((dr - 10) * 100) + s.fld Csr.csgRisk_wTh * ((10 - m) * 100)
  min 255750 (4000 + sum)

/-- Failures that have grown older than 24 h since the last reading no longer count: how many is a free value (R396; log entry 6). -/
def State.ageFailures (s : State) : State :=
  let n := s.fld Csr.csgRisk_failures
  let (k, s) := s.draw
  s.setFld Csr.csgRisk_failures (n - k % (n + 1))

/-- The risk estimator's reading (R397, R398): one request a rise. -/
def State.risk (s : State) (ce lr dr margin : Nat) : State :=
  let r := s.riskOf ce lr dr margin
  let m := r / 250
  let tooHigh := s.fld Csr.csgRisk_threshold ≤ m
  let s := (s.ageFailures.setFld Csr.csgRisk_mult m).updDev (fun d => { d with riskR := r })
  (List.range 8).foldl (fun s p =>
    let s := s.csgInterval p
    let rise := tooHigh && !(s.part p).csg.above
    let s := s.updCsg p (fun c => { c with above := tooHigh })
    if !rise || !s.flag1 (Csr.csgCfg_enable p) then s
    else if s.flag1 (Csr.csgCfg_jobwide p) then
      (s.setFld (Csr.csgStatus_request p) 1).event p 3 (csgUnit s p) m
    else s.updCsg p (fun c => { c with riseReq := true })) s

def execRiskRise (ceRate lrRate drRate marginK : Nat) (s : State) : Host.Outcome State Fault Refusal :=
  answer s (fun s => s.risk ceRate lrRate drRate marginK)

/-! The consignment and its copies (R391 to R395). -/

/-- The consignment list. -/
def State.csgList (s : State) (p : Nat) : List Desc :=
  (List.range (min 64 (s.fld (Csr.csgList_count p)))).map (fun i =>
    parseDesc (s.vbytes p (s.homeStn p) (s.fld (Csr.csgList_base p) + 64 * i) 64))

/-- Every extent passes R203 in one direction. -/
def State.csgListOk (s : State) (p : Nat) (wr : Bool) : Bool := (s.csgList p).all (fun d => (s.extentCheck p d 0 wr).isNone)

/-- The bytes of an extent through the live view. -/
def State.extent (s : State) (p : Nat) (d : Desc) : List Byte :=
  (List.range d.logRows).flatMap (fun j => s.vbytes p (s.homeStn p) (d.rowVa j) d.rowBytes)

/-- The state record of R391 (its layout is the model's, log entry 26). -/
def State.csgRecord (s : State) (p : Nat) : List Byte :=
  leBytes 8 (s.fld (Csr.updSeed_seed p)) ++ leBytes 4 (s.fld (Csr.updStep_step p)) ++ leBytes 2 (s.fld (Csr.wghCfg_job p)) ++
  leBytes 2 (s.fld (Csr.wghEpoch_epoch p)) ++ leBytes 8 ((s.reg (Csr.updNorm p)).toNat % 2 ^ 33) ++
  leBytes 8 (s.reg Csr.devLayout).toNat ++ leBytes 4 (s.caravans p).length ++ leBytes 4 (s.fld (Csr.sealMan_completed p)) ++
  List.replicate 24 0

/-- The peers that hold copies, and 4 for a host copy that is due. -/
def State.csgTargets (s : State) (p : Nat) : List Nat :=
  let every := s.fld (Csr.csgCfg_hostEvery p)
  (List.range 4).filter (fun n => s.flag1 (Csr.csgPeer_valid p n)) ++
  (if every ≠ 0 && ((s.part p).csg.taken + 1) % max every 1 = 0 then [4] else [])

/-- The feed a copy lies on. -/
def State.csgFeed (s : State) (p copy : Nat) : Nat :=
  if copy < 4 then s.fld (Csr.csgPeer_feed p copy) else s.fld (Csr.csgCfg_hostFeed p)

/-- The host buffer lies in a window onto the CXL spill tier, as R395 requires. -/
def State.hostBufOk (s : State) (p n : Nat) : Bool :=
  let va := s.fld (Csr.csgHostbuf_base p)
  (s.vaPa p va).bind regionOf = some .cxl && (s.vaPa p (va + n - 1)).bind regionOf = some .cxl

/-- Copies that never ended count as failed when the next consignment replaces them (log entry 26). -/
def State.csgFail (s : State) (p n : Nat) : State :=
  if n = 0 then s else (s.count (Csr.csgCost_failed p) n).event p 6 (csgUnit s p) 2

/-- Bytes after the header. -/
def State.csgBytes (s : State) (p : Nat) : Nat := 64 + ((s.csgList p).map (fun d => d.logRows * d.rowBytes)).sum

/-- A consignment starts at a step boundary (R391): its list is checked under R203, and reading begins. A host copy whose buffer lies in no
window onto the spill tier has failed (R395). -/
def State.csgStart (s : State) (p : Nat) : State :=
  let s := s.csgFail p ((s.csgCopies p).filter (·.2 = 0)).length
  let s := s.updCsg p (fun c => { c with nowReq := false, riseReq := false, copies := [] })
  if !s.csgListOk p false then s.csgFail p 1
  else
    let s := s.updCsg p (fun c => { c with
      step := BitVec.ofNat 32 (s.fld (Csr.updStep_step p)), head := s.fld (Csr.sealMan_completed p), record := s.csgRecord p,
      digest := 0, secured := false, copies := (s.csgTargets p).map (fun n => (n, 0)), lossSeen := .none })
    let s := if (s.csgCopies p).any (·.1 = 4) && !s.hostBufOk p (64 + s.csgBytes p) then
        (s.updCsg p (fun c => { c with copies := c.copies.map (fun x => if x.1 = 4 then (4, 2) else x) })).csgFail p 1
      else s
    s.setCsgState p 1

/-- A step boundary (R392, R396, R398). `sinceS` is the time since the start of the previous consignment. -/
def State.csgBoundary (s : State) (p sinceS : Nat) : State :=
  let s := s.csgInterval p
  if !s.flag1 (Csr.csgCfg_enable p) then s
  else if s.csgState p = 1 || s.csgState p = 2 then s.csgFail p 1
  else if s.flag1 (Csr.csgCfg_jobwide p) then
    if s.flag1 (Csr.csgCfg_atValid p) && s.fld (Csr.csgCfg_atStep p) ≤ s.fld (Csr.updStep_step p) then
      (s.setFld (Csr.csgCfg_atValid p) 0).csgStart p
    else s
  else
    let c := (s.part p).csg
    if c.nowReq || s.csgElapsed p sinceS || (c.riseReq && s.csgMin p ≤ sinceS) then s.csgStart p else s

/-- Where slot or tail of entry n lies in a consignee area (R393, R394). -/
def State.slotBase (s : State) (p slot : Nat) : Nat := s.fld (Csr.csgArea_base p) + slot * s.fld (Csr.csgArea_slotGib p) * gib
def State.tailBase (s : State) (p n : Nat) : Nat :=
  s.fld (Csr.csgArea_base p) + 8 * s.fld (Csr.csgArea_slotGib p) * gib + n * (16 * mib)

/-- The slot of its two that a copy is written to at its consignee: never the one that holds the last complete consignment (R393). -/
def State.copySlot (s : State) (p copy : Nat) : Nat :=
  match (s.part p).csg.slots.find? (·.1 = copy) with
  | some (_, n) => 1 - n
  | none => 0

/-- Where a copy lies at its consignee (R393; the sender's own area stands for the partner's, log entry 26), or in the host's buffer. -/
def State.copyBase (s : State) (p copy : Nat) : Nat :=
  if copy = 4 then s.fld (Csr.csgHostbuf_base p) else s.slotBase p (2 * copy + s.copySlot p copy)

/-- Bytes in packets of up to 8 KiB. -/
def pieces : Nat → List Byte → List (List Byte)
  | 0, _ => []
  | n + 1, bs => if bs.isEmpty then [] else bs.take 8192 :: pieces n (bs.drop 8192)

/-- Sum modulo 2⁶⁴ of the CRC of every packet of a body (R322, R393). The CRC is taken over a packet's payload: a route header changes on
the way, and the header packets of a slot are what the digest stands in (DEDUCED, log entry 26). -/
def digestOf (body : List Byte) : Nat := ((pieces (body.length / 8192 + 1) body).map (fun b => (crc64 b).toNat)).sum % 2 ^ 64

/-- Copies still being written. -/
def State.csgOpen (s : State) (p : Nat) : List (Nat × Nat) := (s.csgCopies p).filter (·.2 = 0)

/-- Write bytes of a copy at an offset of its slot: KIND 5 packets, or the host buffer through the windows. -/
def State.csgSend (s : State) (p copy off : Nat) (bs : List Byte) : State :=
  let va := s.copyBase p copy + off
  if copy = 4 then
    if (s.rowCheck p 0 va bs.length true).isSome then s else s.storeVbytes (s.manRtr p) p (s.homeStn p) va bs
  else
    ((pieces (bs.length / 8192 + 1) bs).zipIdx).foldl (fun s (b, i) =>
      s.sendPacket 2 (s.fld (Csr.csgPeer_node p copy)) 5 0 0 0 (va + i * 8192) b) s

/-- A slot's header (R393). -/
def State.csgHeader (s : State) (p state bytes : Nat) : List Byte :=
  let c := (s.part p).csg
  leBytes 2 s.self ++ leBytes 1 p ++ leBytes 1 state ++ leBytes 4 c.step.toNat ++ leBytes 4 ((c.lossSeen.getD 0).toNat) ++
  leBytes 4 0 ++ leBytes 8 bytes ++ leBytes 8 c.digest ++ List.replicate 32 0

/-- The loss has been met and the copies are written: complete headers go out. -/
def State.csgClose (s : State) (p bytes : Nat) : State :=
  let s := s.setCsgState p 0
  (s.csgOpen p).foldl (fun s x => s.csgSend p x.1 0 (s.csgHeader p 3 bytes)) s

/-- The physical rows that a consignment reads. -/
def State.csgRows (s : State) (p : Nat) : List (Nat × Nat) := (s.csgList p).flatMap (fun d => s.rowsOf p [s.homeStn p] d)

/-- Every extent has been read (R392): the copies go out. Poisoned words among them come poisoned and count (R374), and the consignment
fails: R376 gives an outcome only for what a command reads (DESIGN CHOICE, log entry 26). -/
def State.csgReadDone (s : State) (p : Nat) : State :=
  let rows := s.csgRows p
  let bad := (s.poison.filter (fun w => rows.any (fun (a, n) => a < w * 8 + 8 && w * 8 < a + n)))
  let s := rows.foldl (fun s (a, n) => s.meshTo false (s.manRtr p) a n) s
  if !bad.isEmpty then
    let s := bad.foldl (fun s w => s.eccRead (w * 8) 0 0 1) s
    let s := (s.csgFail p (s.csgOpen p).length).setCsgState p 0
    s.updCsg p (fun c => { c with copies := c.copies.map (fun x => if x.2 = 0 then (x.1, 2) else x) })
  else
    let body := (s.part p).csg.record ++ (s.csgList p).flatMap (s.extent p)
    let s := (s.csgOpen p).foldl (fun s x => (s.csgSend p x.1 0 (s.csgHeader p 1 body.length)).csgSend p x.1 64 body) s
    let s := s.updCsg p (fun c => { c with digest := digestOf body })
    if (s.part p).csg.lossSeen.isSome then s.csgClose p body.length
    else (s.csgOpen p).foldl (fun s x => s.csgSend p x.1 0 (s.csgHeader p 2 body.length)) (s.setCsgState p 2)

/-- The first LOSSCHK after a boundary gives the loss of the following step (R391). -/
def State.csgLoss (s : State) (p : Nat) (loss : BitVec 32) : State :=
  let st := s.csgState p
  if (st = 1 || st = 2) && (s.part p).csg.lossSeen.isNone then
    let s := s.updCsg p (fun c => { c with lossSeen := some loss, lossSeq := ((s.exec? p).map (·.seq)).getD 0 })
    if st = 2 then s.csgClose p (s.csgBytes p) else s
  else s

/-- A completion record with CO_FED set, bit 3 of its byte 6 (R446). -/
def coFedRecord (bs : List Byte) : List Byte := bs.set 6 (bs.getD 6 0 ||| 8)

/-- No copy is still out: a consignment with complete copies that is not secured is co-fed (R395). The flag stands in the record of the
order that supplied the loss, as long as that order runs or its record waits (log entry 26). -/
def State.csgSettle (s : State) (p : Nat) : State :=
  let c := (s.part p).csg
  if c.copies.any (·.2 = 0) || c.secured || !c.copies.any (·.2 = 1) then s
  else
    let s := (s.setFld (Csr.csgStatus_coFed p) 1).event p 6 (csgUnit s p) 1
    let mark (e : Exec) : Exec := if e.loss.isSome && e.seq = c.lossSeq then { e with sticky := e.sticky ||| 8#6 } else e
    s.updPart p (fun x => { x with
      exec := x.exec.map mark, prev := x.prev.map mark,
      records := x.records.map (fun r => if r.seq = c.lossSeq then { r with bytes := coFedRecord r.bytes } else r) })

/-- C after a consignment whose every copy is complete (R396). -/
def State.csgCost (s : State) (p ms : Nat) : State :=
  let c := (s.part p).csg
  let old := s.fld (Csr.csgCost_costMs p)
  let s := if c.copies.all (·.2 = 1) then
      (s.setFld (Csr.csgCost_costMs p) (min (2 ^ 24 - 1) (if old = 0 then ms else (3 * old + ms) / 4))).csgInterval p
    else s
  if c.copies.any (·.2 = 0) then s else s.updCsg p (fun c => { c with taken := c.taken + 1 })

/-- A copy is out, with its complete header sent. -/
def State.copyOut (s : State) (p copy : Nat) : Bool :=
  (s.csgCopies p).contains (copy, 0) && s.csgState p ≠ 1 && s.csgState p ≠ 2

/-- A consignee acknowledges a copy (R395). -/
def State.copyAck (s : State) (p copy ms : Nat) : State :=
  if !s.copyOut p copy then s
  else
    let slot := s.copySlot p copy
    let s := s.updCsg p (fun c => { c with copies := c.copies.map (fun x => if x.1 = copy then (copy, 1) else x),
                                            heads := (copy, c.head) :: c.heads.filter (·.1 ≠ copy),
                                            slots := (copy, slot) :: c.slots.filter (·.1 ≠ copy) })
    let c := (s.part p).csg
    let f := s.csgFeed p copy
    let s := if f ≠ 0xFF && f ≠ s.fld Csr.cfgStatus_feed && !c.secured then
        let s := s.updCsg p (fun c => { c with secured := true })
        let s := (s.setFld (Csr.csgStatus_securedStep p) c.step.toNat).setFld (Csr.csgStatus_securedValid p) 1
        (s.setFld (Csr.csgStatus_coFed p) 0).event p 6 (csgUnit s p) 0
      else s
    (s.csgSettle p).csgCost p ms

def execCopyAcknowledged (p : PartId) (copy : Fin 5) (elapsedMs : Nat) (s : State) : Host.Outcome State Fault Refusal :=
  answer s (fun s => s.copyAck p copy elapsedMs)

/-- A copy that is not acknowledged within 10 s (R395, R404). -/
def State.copyLost (s : State) (p copy : Nat) : State :=
  if (s.csgCopies p).contains (copy, 0) && s.csgState p ≠ 1 then
    let s := s.updCsg p (fun c => { c with copies := c.copies.map (fun x => if x.1 = copy then (copy, 2) else x) })
    ((s.csgFail p 1).csgSettle p).csgCost p 0
  else s

def execConsignCopyTimeout (p : PartId) (copy : Fin 5) (s : State) : Host.Outcome State Fault Refusal :=
  answer s (fun s => s.copyLost p copy)

/-- NOW: consign at the next boundary (R406). -/
def execCsgNow (f : FuncId) (s : State) : Host.Outcome State Fault Refusal :=
  answer s (fun s => s.fromHost f (fun p s => s.updCsg p (fun c => { c with nowReq := true })))

/-! The consignee (R393, R394). -/

/-- Whether what a packet brings to a slot or tail of entry n agrees with the entry's PARTITION: a slot's header and a tail's entry name
the sender's partition, and other bytes name none (R393, R394; log entry 26). -/
def State.csgFrom (s : State) (k : Packet) (p n : Nat) : Bool :=
  let said (base at_ : Nat) : Bool :=
    base ≠ k.addr || k.payload.length ≤ at_ || leAt k.payload at_ 1 % 8 = s.fld (Csr.csgPeer_partition p n)
  said (s.slotBase p (2 * n)) 2 && said (s.slotBase p (2 * n + 1)) 2 &&
  (k.addr < s.tailBase p n || said (s.tailBase p n + (k.addr - s.tailBase p n) / 128 * 128) 116)

/-- The partition and peer entry that a KIND 5 packet is for: a valid entry names its sender, and its bytes lie in that
entry's slots or tail. -/
def State.csgEntry (s : State) (k : Packet) : Option (Nat × Nat) :=
  (List.range 32).findSome? (fun j =>
    let p := j / 4
    let n := j % 4
    let inn (b len : Nat) : Bool := b ≤ k.addr && k.addr + k.payload.length ≤ b + len
    if s.flag1 (Csr.csgPeer_valid p n) && s.fld (Csr.csgPeer_node p n) = k.src && s.fld (Csr.csgArea_slotGib p) ≠ 0 &&
       (inn (s.slotBase p (2 * n)) (2 * s.fld (Csr.csgArea_slotGib p) * gib) || inn (s.tailBase p n) (16 * mib)) && s.csgFrom k p n then
      some (p, n)
    else none)

/-- A KIND 5 packet lands in the consignee area; a tail entry and a complete header are acknowledged with one flit. One with
no payload is an acknowledgement (log entry 26). -/
def State.csgPacket (s : State) (i : Nat) (k : Packet) : State :=
  if !s.active i || k.kind ≠ 5 || s.malformed k || k.target ≠ s.self then s
  else if k.payload.isEmpty then
    if (List.range 32).any (fun j => s.flag1 (Csr.csgPeer_valid (j / 4) (j % 4)) && s.fld (Csr.csgPeer_node (j / 4) (j % 4)) = k.src &&
        s.windowOk i k (j / 4)) then s.leave i k
    else s.windowDrop i k
  else
    match s.csgEntry k with
    | none => s.windowDrop i k
    | some (p, n) =>
      if !s.windowOk i k p || (s.rowCheck p 0 k.addr k.payload.length true).isSome then s.windowDrop i k
      else
        let s := (s.storeVbytes (rtrOfPort i) p (s.homeStn p) k.addr k.payload).leave i k
        let done := s.tailBase p n ≤ k.addr || (k.payload.length = 64 && leAt k.payload 3 1 = 3)
        if done then s.sendPacket 2 k.src 5 0 0 0 0 [] else s

def execConsignmentPacket (port : PortId) (pkt : Packet) (s : State) : Host.Outcome State Fault Refusal :=
  answer s (fun s => s.csgPacket port pkt)

/-! Restore (R390, R399, R400). -/

/-- Word 3 of code 0x74: the consignee's node, the slot, the reason. -/
def State.bad74 (s : State) (p slot reason : Nat) : Nat :=
  s.fld (Csr.csgPeer_node p (s.fld (Csr.csgStatus_source p))) + slot * 2 ^ 16 + reason * 2 ^ 17

/-- A restore that fails while no order runs: code 0x74, in a record of sequence number 0 (R9, R399). -/
def State.restoreFail (s : State) (p slot reason : Nat) : State :=
  ((s.setCsgState p 0).updCsg p (fun c => { c with tried := [], verify := .none })).raiseOutside p (csgUnit s p) 0x74 (s.bad74 p slot reason)

/-- The slot being restored: the one named, or the other after a rejection. -/
def State.restoreSlot (s : State) (p : Nat) : Nat :=
  let n := s.fld (Csr.csgStatus_slot p)
  if (s.part p).csg.tried.contains n then 1 - n else n

/-- A tail's entry in use whose CRC holds: its sequence number and order header (R394). -/
def tailPair (b : BitVec 1024) : Option (Nat × BitVec 1024) :=
  let bs := leBytes 128 b.toNat
  if leAt bs 112 4 ≠ 0 && leAt bs 120 8 = (crc64 (bs.take 120)).toNat then some (leAt bs 112 4, BitVec.ofNat 1024 (b.toNat % 2 ^ 832)) else none

/-- Entries of the journal tail beyond the head, in increasing order, up to the first gap (R394). -/
def tailRun (from_ : Nat) : Nat → List (Nat × BitVec 1024) → List (Nat × BitVec 1024)
  | 0, _ => []
  | n + 1, ts =>
    match ts.find? (fun t => t.1 = from_) with
    | some t => t :: tailRun (from_ % (2 ^ 32 - 1) + 1) n ts
    | none => []

end Sys2Proof.Machine

namespace Sys2Proof
open Sys2Proof.Machine

/-! Fields of a copy: its header (R393) and its state record (R391, laid out as in `csgRecord`). -/

def CsgCopy.hd (c : CsgCopy) (i n : Nat) : Nat := bitsOf c.header.toNat (8 * i) (8 * n)
def CsgCopy.num (c : CsgCopy) (i n : Nat) : Nat := bitsOf c.record.toNat (8 * i) (8 * n)
def CsgCopy.state (c : CsgCopy) : Nat := c.hd 3 1
def CsgCopy.loss (c : CsgCopy) : BitVec 32 := BitVec.ofNat 32 (c.hd 8 4)
def CsgCopy.seed (c : CsgCopy) : Word := BitVec.ofNat 64 (c.num 0 8)
def CsgCopy.step (c : CsgCopy) : BitVec 32 := BitVec.ofNat 32 (c.num 8 4)
def CsgCopy.norm (c : CsgCopy) : BitVec 33 := BitVec.ofNat 33 (c.num 16 8)
def CsgCopy.layout (c : CsgCopy) : Word := BitVec.ofNat 64 (c.num 24 8)
def CsgCopy.caravans (c : CsgCopy) : Nat := c.num 32 4
def CsgCopy.head (c : CsgCopy) : Nat := c.num 36 4
/-- The copy's bytes have the DIGEST of its header. -/
def CsgCopy.digestOk (c : CsgCopy) : Bool := digestOf (leBytes 64 c.record.toNat ++ c.extents.flatten) = c.hd 24 8

end Sys2Proof

namespace Sys2Proof.Machine

/-- The restore itself: extents through the live view with LIVE 0, then the state record. -/
def State.restoreCopy (s : State) (p : Nat) (c : CsgCopy) : State :=
  let s := s.setFld (Csr.updCommit_live p) 0
  let s := ((s.csgList p).zip c.extents).foldl (fun s (d, bs) =>
    (List.range d.logRows).foldl (fun s j => s.storeVbytes (s.manRtr p) p (s.homeStn p) (d.rowVa j) ((bs.drop (j * d.rowBytes)).take d.rowBytes)) s) s
  let s := (s.setFld (Csr.updSeed_seed p) c.seed.toNat).setFld (Csr.updStep_step p) c.step.toNat
  let s := s.setFld (Csr.updNorm_norm p) (c.norm.toNat % 2 ^ 32)
  let s := (s.setFld (Csr.updNorm_normValid p) (bitsOf c.norm.toNat 32 1)).setFld (Csr.updCommit_stopped p) 0
  let s := if s.flag1 (Csr.csgStatus_tail p) then
      let run := tailRun (c.head % (2 ^ 32 - 1) + 1) c.tail.length (c.tail.filterMap tailPair)
      let seqs := run.map (·.1)
      s.updPart p (fun x => { x with
        orders := run.map (fun (q, h) => ⟨q, h, 0, 0, true⟩) ++ x.orders.filter (fun o => !seqs.contains o.seq),
        nextSeq := if run.isEmpty then x.nextSeq else (seqs.getLastD 0) % (2 ^ 32 - 1) + 1 })
    else s
  if s.flag1 (Csr.csgCfg_verify p) then (s.updCsg p (fun x => { x with verify := some c.loss })).setCsgState p 4
  else (s.updCsg p (fun x => { x with verify := .none, tried := [] })).setCsgState p 0

/-- RESTORE, authorised by a Seal pair in service, or the engine's own second attempt after a rejection (R399 to R401). -/
def State.csgRestore (s : State) (p : Nat) (c : CsgCopy) : State :=
  if !s.dev.sealUp || (s.exec? p).isSome || s.csgState p = 1 || s.csgState p = 2 then s
  else
    let again := s.csgState p = 3 && !(s.part p).csg.tried.isEmpty
    let s := if again then s else s.updCsg p (fun x => { x with tried := [] })
    let slot := s.restoreSlot p
    let s := s.updCsg p (fun x => { x with tried := slot :: x.tried })
    let v := s.flag1 (Csr.csgCfg_verify p)
    if c.state ≠ 3 then s.restoreFail p slot (if again then 1 else 2)
    else if !c.digestOk then s.restoreFail p slot 3
    else if v && (c.layout ≠ s.reg Csr.devLayout || c.caravans ≠ (s.caravans p).length) then s.restoreFail p slot 4
    else if !s.csgListOk p true then s.restoreFail p slot 4
    else s.restoreCopy p c

/-- The copy in the partition's host buffer (R393, R395; the state record's layout is that of `csgRecord`). -/
def State.hostCopy (s : State) (p : Nat) : CsgCopy :=
  let at_ (o n : Nat) : List Byte := s.vbytes p (s.homeStn p) (s.fld (Csr.csgHostbuf_base p) + o) n
  let lens := (s.csgList p).map (fun d => d.logRows * d.rowBytes)
  let offs := (List.range lens.length).map (fun i => 128 + (lens.take i).sum)
  { header := BitVec.ofNat 512 (leNat (at_ 0 64)), record := BitVec.ofNat 512 (leNat (at_ 64 64)),
    extents := (offs.zip lens).map (fun (o, n) => at_ o n), tail := [] }

/-- RESTORE written in CSG_STATUS (R6, R399): the host's copy is read at once; a consignee's is asked for, and STATE is 3 until
CSG_RESTORE brings it. -/
def State.askRestore (s : State) (p : Nat) : State :=
  if !s.dev.sealUp || (s.exec? p).isSome || s.csgState p = 1 || s.csgState p = 2 then s
  else
    let s := s.updCsg p (fun x => { x with tried := [] })
    if s.flag1 (Csr.csgStatus_fromHost p) then s.csgRestore p (s.hostCopy p) else s.setCsgState p 3

def execCsgRestore (f : FuncId) (copy : CsgCopy) (s : State) : Host.Outcome State Fault Refusal :=
  answer s (fun s => s.fromHost f (fun p s => s.csgRestore p copy))

/-- How the first LOSSCHK after a restore ends (R400). -/
inductive Verdict where
  | none
  | verified
  | rejected
  | exhausted (w3 : Nat)
  deriving DecidableEq, Repr

/-- Compare a loss with the copy's, bit for bit. -/
def State.verdict (s : State) (p : Nat) (loss : BitVec 32) : Verdict :=
  match (s.part p).csg.verify with
  | none => .none
  | some want =>
    if loss = want && (fp32.decode loss.toNat).isFin then .verified
    else
      let tried := (s.part p).csg.tried
      if s.flag1 (Csr.csgStatus_fromHost p) || 2 ≤ tried.length then .exhausted (s.bad74 p (tried.headD 0) 1) else .rejected

/-- The marks of a verdict: RESTORE_VERIFIED, or a rejected copy, marked at its consignee. -/
def State.applyVerdict (s : State) (p : Nat) (v : Verdict) : State :=
  let reject (s : State) (st : Nat) : State :=
    let n := s.fld (Csr.csgStatus_source p)
    let slot := (s.part p).csg.tried.headD 0
    let s := s.count (Csr.csgCost_rejected p) 1
    let s := if s.flag1 (Csr.csgStatus_fromHost p) then
        s.storeVbytes (s.manRtr p) p (s.homeStn p) (s.fld (Csr.csgHostbuf_base p) + 3) [4]
      else s.sendPacket 2 (s.fld (Csr.csgPeer_node p n)) 5 0 0 0 (s.slotBase p (2 * n + slot) + 3) [4]
    (s.updCsg p (fun c => { c with verify := .none, tried := if st = 3 then c.tried else [] })).setCsgState p st
  match v with
  | .none => s
  | .verified =>
    ((s.updCsg p (fun c => { c with verify := .none, tried := [] })).setCsgState p 0).updExec p (fun e => { e with sticky := e.sticky ||| 16#6 })
  | .rejected => reject s 3
  | .exhausted _ => reject s 0

end Sys2Proof.Machine
end

