-- ==== Sys2Proof/Machine/Tally.lean ====
section
/-!
DEFINITION. The tally (04_accumulation): entries and exact sums, conversions on drain, running sums, ledger slices, and the
tally-control commands DRAIN, EVICT, LEDGER_ADD and RELEASE (R174, R175, R472).
-/
namespace Sys2Proof.Machine

/-! Entries (R43, R77, R93 to R96, R102, R103). -/

/-- Two's-complement wrap of an exact sum (R96, R103). -/
def wrapTo (w : Nat) (x : Int) : Int := (x + 2 ^ (w - 1)) % 2 ^ w - 2 ^ (w - 1)
def frameBits (w32 : Bool) : Nat := if w32 then 32 else 640
/-- Exponent of an entry's unit: 2⁻³²⁰, or 1 in W32 mode. -/
def frameUnit (w32 : Bool) : Int := if w32 then 0 else -320
/-- The residue of a value (R77). -/
def residue (x : Int) : Nat := (x % 127).toNat

/-- A finite value in whole units of 2^u; exact for every product term (R95). -/
def unitsIn (u : Int) : Val → Int
  | .fin neg m e =>
    let x : Int := if u ≤ e then (m * pow2 (e - u) : Nat) else (m / pow2 (u - e) : Nat)
    if neg then -x else x
  | _ => 0

/-- The state after a contribution (R43). -/
def ESt.add : ESt → Val → ESt
  | .nan, _ => .nan
  | _, .nan => .nan
  | .fin, .inf neg => if neg then .ninf else .pinf
  | .pinf, .inf neg => if neg then .nan else .pinf
  | .ninf, .inf neg => if neg then .ninf else .nan
  | st, .fin .. => st

/-- Add one contribution to an exact sum in units of 2^u (R43). -/
def Acc.add (u : Int) (a : Acc) (x : Val) : Acc := ⟨a.v + unitsIn u x, a.st.add x⟩

/-- The value of an exact sum in units of 2^u; an exact zero is +0 (R47). -/
def Acc.val (u : Int) (a : Acc) : Val :=
  match a.st with
  | .fin => valOfInt a.v u
  | .pinf => .inf false
  | .ninf => .inf true
  | .nan => .nan

def Entry.acc (e : Entry) : Acc := ⟨e.v, e.st⟩
def Entry.val (w32 : Bool) (e : Entry) : Val := e.acc.val (frameUnit w32)

/-- An entry of an exact sum: wrapped to its frame, with its residue and both copies of its state (R77, R94, R96). -/
def entryOf (w32 : Bool) (a : Acc) : Entry :=
  let v := wrapTo (frameBits w32) a.v
  ⟨v, residue v, a.st, a.st, false⟩

/-- The row's contributions reach the entry as one add (R79). -/
def Entry.addAll (w32 : Bool) (e : Entry) (xs : List Val) : Entry :=
  entryOf w32 (xs.foldl (Acc.add (frameUnit w32)) e.acc)

/-- The term a column's residue channel forms of a product of two operands, for a frame in units of 2^u (R78): the significands'
residues times 2^(s mod 7), negated for a negative product; products that are not finite take no part. -/
def chanTerm (u : Int) : Val → Val → Nat
  | .fin sa ma ea, .fin sb mb eb =>
    let t := ma % 127 * (mb % 127) * 2 ^ ((ea + eb - u) % 7).toNat % 127
    if sa != sb then (127 - t) % 127 else t
  | _, _ => 0

/-- The channel's sum over terms (R78). -/
def chanSum (ts : List Nat) : Nat := ts.foldl (fun a t => (a + t) % 127) 0

/-- An add under the residue check (R79, R80): the new entry, or none when the residue of the new value, `delta` away from what
the tree should have formed, differs from the stored residue plus the channel's sum, which is off by `err`. The check stands
before the wrap, and so adjusts for it (R96, R103). -/
def Entry.checkedAdd (w32 : Bool) (e : Entry) (xs : List Val) (chan : Nat) (delta : Int) (err : Nat) : Option Entry :=
  let a := xs.foldl (Acc.add (frameUnit w32)) e.acc
  let a := { a with v := a.v + delta }
  if residue a.v = (e.res + chan + err) % 127 then some (entryOf w32 a) else none

/-- Coding of a state (R94, R307). -/
def stCode : ESt → Nat
  | .fin => 0
  | .pinf => 1
  | .ninf => 2
  | .nan => 3
def stOf (n : Nat) : ESt := match n % 4 with
  | 0 => .fin
  | 1 => .pinf
  | 2 => .ninf
  | _ => .nan

/-- Bank key: station × 42 + bank × 21, plus 1 + slot in W32 mode. -/
def bankKey (g bank : Nat) (w32 : Bool) (slot : Nat) : Nat := g * 42 + bank * 21 + (if w32 then 1 + slot else 0)
def entryKey (key row col : Nat) : Nat := key * 4096 + row * 128 + col

/-- Word 3 of code 0x03 (R66). -/
def bad03 (bank slot : Nat) (w32 : Bool) (reason op : Nat) : Fail :=
  (0x03, bank + slot * 2 + boolNat w32 * 2 ^ 6 + reason * 2 ^ 8 + op * 2 ^ 12)

/-- Word 3 of code 0x23 (R119). -/
def bad23 (h : Head) (reason ksplit : Nat) : Fail :=
  (0x23, reason + h.fmtA.toNat * 2 ^ 4 + h.fmtB.toNat * 2 ^ 8 + h.round.toNat * 2 ^ 12 + ksplit * 2 ^ 16)

/-! Conversion on drain (R44 to R52, R104). -/

/-- How outputs are made: format, rounding, saturate, Saffron key and stream (R273). -/
structure Sink where
  fmt : Nat
  round : Nat
  sat : Bool
  key : Word
  hi : Word
  deriving DecidableEq, Repr

/-- The draw of the element at a logical row and column (R273). -/
def Sink.draw (k : Sink) (row col : Nat) : Nat :=
  if k.round = 2 then saffronDraw k.key k.hi (row * 2 ^ 32 + col) else 0

/-- The sink of a command that writes tiles or mortar results; `pass` is PASS of R273. -/
def Exec.sink (e : Exec) (h : Head) (pass dst : Nat) : Sink :=
  ⟨h.fmtOut.toNat, h.round.toNat, h.sat, e.seed, saffronHi 2 e.step pass dst⟩

/-- The value converted by a W32 drain (R104). -/
def scaleW32 (v sr sc : Val) : Val :=
  if v.isNan || sr.isNan || sc.isNan then .nan
  else if !(sr.isFin && sc.isFin) then
    if v.isZero || sr.isZero || sc.isZero then .nan
    else match v, sr, sc with
      | .fin a _ _, x, y =>
        let sg : Val → Bool := fun z => match z with
          | .fin n _ _ => n
          | .inf n => n
          | .nan => false
        .inf ((a != sg x) != sg y)
      | _, _, _ => .nan
  else if v.isZero || sr.isZero || sc.isZero then Val.zero
  else valMul v (valMul sr sc)

/-- Element i of an FP32 vector that a descriptor holds row by row. -/
def State.vecElem (s : State) (p g : Nat) (d : Desc) (i : Nat) : Val :=
  let n := max (d.rowBytes / 4) 1
  s.elemVal p g d 0xD (i / n) (i % n)

/-- Write one row of converted elements that start at column `col0` of logical row j, drawn at (row, col); `vs` are their
exact values. Non-MX codes convert each element once; MX codes pass through the sieve after an FP32 rounding (R51, R52).
The row's bytes cross the mesh from the station's router (R228). Answers the state and the overflow and underflow events, of which an
element has at most one of each (R49). -/
def State.writeRow (s : State) (p g : Nat) (d : Desc) (k : Sink) (j col0 row col : Nat) (vs : List Val) :
    State × Nat × Nat :=
  let a := rtrOfCar (g / 8)
  if isMx k.fmt then
    let nb := cdiv vs.length 32
    let s := s.meshRow true a p g (d.rowVa j + col0 / 32 * blockBytes k.fmt) (nb * blockBytes k.fmt)
    let s := s.meshRow true a p g (d.sbase + j * (d.rowBytes / blockBytes k.fmt) + col0 / 32) nb
    (List.range nb).foldl (fun (s, ov, un) b =>
      let blk := (vs.drop (32 * b)).take 32
      let fs := blk.map (fun v => fp32.encode 0 0 k.sat v)
      let xs := fs.map (fun c => fp32.decode c.bits)
      let full := xs ++ List.replicate (32 - xs.length) Val.zero
      let rs := (List.range 32).map (fun i => k.draw row (col + 32 * b + i))
      let (sc, els, _, u) := sieveBlock k.fmt k.round rs full
      let o := ((fs.zip xs).filter (fun (c, x) => c.ovf || !x.isFin)).length
      let un' := ((fs.zipIdx).filter (fun (c, i) => c.unf || u.getD i false)).length
      let bi := col0 / 32 + b
      let s := s.setVbytes p g (d.rowVa j + bi * blockBytes k.fmt) (packBlock k.fmt els)
      let s := s.setVbyte p g (d.sbase + j * (d.rowBytes / blockBytes k.fmt) + bi) (BitVec.ofNat 8 sc)
      (s, ov + o, un + un')) (s, 0, 0)
  else
    let s := s.meshRow true a p g (d.rowVa j + col0 * (elemBits k.fmt / 8)) (vs.length * (elemBits k.fmt / 8))
    (vs.zipIdx).foldl (fun (s, ov, un) (v, i) =>
      let c := convertOut k.fmt k.round (k.draw row (col + i)) k.sat v
      (s.setElem p g d k.fmt j (col0 + i) c.bits, ov + boolNat c.ovf, un + boolNat c.unf)) (s, 0, 0)

/-- Whether row r of a bank is fed (R74, R75). -/
def Bank.fed (b : Bank) (r : Nat) : Bool := b.mask.getLsbD r && r < b.rows

/-- The exact value of an entry of a bank. -/
def State.bankVal (s : State) (key : Nat) (r c : Nat) : Val :=
  (s.entry (entryKey key r c)).val (s.bank key).w32

/-- Drain columns lo to hi − 1 of a tile whose place and mask a bank gives and whose entries `val` gives, to an output (R66,
R75, R104, R170): unmasked rows, columns of the output. A LOCAL column-scale vector that a station reads through its own alias while its
caravan serves several N-blocks gives element c, 0 to 127, in every pass: R208 does not say which element it is (DESIGN CHOICE, log entry 36).
-/
def State.drainCols (s : State) (p g : Nat) (b : Bank) (val : Nat → Nat → Val) (lo hi : Nat) (k : Sink) (d : Desc)
    (rs cs : Option Desc) : State :=
  let al := s.isAlias p d
  (List.range 32).foldl (fun s r =>
    if b.fed r then
      let sr := match rs with
        | some x => s.vecElem p g x (if s.isAlias p x then b.share + r else b.row0 + r)
        | none => .fin false 1 0
      let vs := ((List.range (min hi b.cols)).drop lo).map (fun c =>
        let v := val r c
        if b.w32 then
          scaleW32 v sr (match cs with
            | some x => s.vecElem p g x (if s.isAlias p x then c else b.col0 + c)
            | none => .fin false 1 0)
        else v)
      let (s, o, u) := s.writeRow p g d k (if al then b.share + r else b.row0 + r) ((if al then 0 else b.col0) + lo)
        (b.row0 + r) (b.col0 + lo) vs
      s.rangeEvents p (g / 8) (g % 8) o u
    else s) s

/-- The scale vectors of a drain come to the caravans that drain, where they lie in no alias (R170, R238). -/
def State.fetchVecs (s : State) (p : Nat) (stns : List Nat) (ds : List (Option Desc)) : State :=
  (stns.map (· / 8)).eraseDups.foldl (fun s c =>
    (ds.filterMap id).foldl (fun s d =>
      if s.isAlias p d then s else s.fetchRows [c] (s.rowsOf p [c * 8] d)) s) s

/-- Drain a station's bank: all its columns, or those before `hi`. -/
def State.drainTile (s : State) (p g key hi : Nat) (k : Sink) (d : Desc) (rs cs : Option Desc) : State :=
  s.drainCols p g (s.bank key) (s.bankVal key) 0 hi k d rs cs

/-! Running sums and ledger slices (R105 to R107, R278, R279). -/

/-- Bytes of a running-sum tile or ledger slice. -/
def rsumBytes : Nat := 16448
/-- A value of row r, column c of a tile at va. -/
def tileVal (va r c : Nat) : Nat := va + 64 + (r * 128 + c) * 4

/-- A count that stops at all ones. -/
def satInc32 (n : Nat) : Nat := min (n + 1) (2 ^ 32 - 1)

/-- Evict one tile (R105, R106). -/
def State.evictTile (s : State) (p g key va : Nat) (e : Exec) (h : Head) (dst : Nat) : State :=
  let b := s.bank key
  let k := e.sink { h with fmtOut := 0xD, sat := false } (b.evict % 4096) dst
  let a := rtrOfCar (g / 8)
  let s := s.storeVbytes a p g va (leBytes 4 (satInc32 b.evict) ++ List.replicate 60 0)
  let s := (List.range 32).foldl (fun s r =>
    if b.fed r then
      let s := s.meshRow true a p g (tileVal va r 0) (4 * b.cols)
      (List.range b.cols).foldl (fun s c =>
        let x := convertOut 0xD k.round (k.draw (b.row0 + r) (b.col0 + c)) false (s.bankVal key r c)
        (s.setVbytes p g (tileVal va r c) (leBytes 4 x.bits)).rangeEvents p (g / 8) (g % 8) (boolNat x.ovf)
          (boolNat x.unf)) s
    else s) s
  let s := s.count (Csr.stnRsum_evictions (g / 8) (g % 8)) 1
  if 4096 ≤ b.evict then s.count (Csr.stnRsum_boundLapsed (g / 8) (g % 8)) 1 else s

/-- Add one tile into its ledger slice (R110, R278, R279). -/
def State.ledgerTile (s : State) (p g key va : Nat) (e : Exec) (h : Head) (dst : Nat) : State :=
  let b := s.bank key
  let hd := s.vbytes p g va 64
  let tag := s.fld (Csr.updStep_tag p)
  let fresh := leAt hd 4 4 ≠ tag
  let cnt := if fresh then 0 else leAt hd 0 4
  let k := e.sink { h with fmtOut := 0xD, sat := false } (cnt % 4096) dst
  let a := rtrOfCar (g / 8)
  let s := s.meshRow false a p g va 64
  let (s, bad) := (List.range 32).foldl (fun (s, bad) r =>
    if b.fed r then
      let s := if fresh then s else s.meshRow false a p g (tileVal va r 0) (4 * b.cols)
      let s := s.meshRow true a p g (tileVal va r 0) (4 * b.cols)
      (List.range b.cols).foldl (fun (s, bad) c =>
        let old := if fresh then Val.zero else fp32.decode (leNat (s.vbytes p g (tileVal va r c) 4))
        let sum := (s.entry (entryKey key r c)).acc.add (frameUnit false) old
        let x := convertOut 0xD k.round (k.draw (b.row0 + r) (b.col0 + c)) false (sum.val (frameUnit false))
        ((s.setVbytes p g (tileVal va r c) (leBytes 4 x.bits)).rangeEvents p (g / 8) (g % 8) (boolNat x.ovf)
          (boolNat x.unf), bad || !(fp32.decode x.bits).isFin)) (s, bad)
    else (s, bad)) (s, !fresh && bitOf (leAt hd 8 1) 0)
  let s := s.storeVbytes a p g va (leBytes 4 (satInc32 cnt) ++ leBytes 4 tag ++ leBytes 1 (boolNat bad) ++
    (if fresh then List.replicate 55 0 else hd.drop 9))
  if 4096 ≤ cnt then s.count (Csr.stnRsum_boundLapsed (g / 8) (g % 8)) 1 else s

/-! Tally control (R174, R175). -/

/-- BANK, SLOT and W32 of a tally-control command. -/
def Ctx.tBank (x : Ctx) : Nat := x.f 0 1
def Ctx.tSlot (x : Ctx) : Nat := x.f 1 5
def Ctx.tW32 (x : Ctx) : Bool := x.f 6 1 = 1
def Ctx.tKey (x : Ctx) (g : Nat) : Nat := bankKey g x.tBank x.tW32 x.tSlot

/-- The tiles a tally-control command acts on, in output-tile order (R468): stations whose named bank holds one. -/
def State.tiles (s : State) (x : Ctx) : List Nat := (s.scopeStns x).filter (fun g => 0 < (s.bank (x.tKey g)).rows)

/-- A bank or slot that a pass or a command occupies. -/
def BankSt.busy : BankSt → Bool
  | .free | .released => false
  | _ => true

def BankSt.isHeld : BankSt → Bool
  | .held _ => true
  | _ => false

/-- Reason of code 0x03 when the named bank of station g cannot be taken (R66, R174). -/
def State.notHeld (s : State) (p g bank : Nat) (w32 : Bool) (slot : Nat) : Option Nat :=
  match (s.bank (bankKey g bank w32 slot)).st with
  | .held r => if r ≤ s.pace p then none else some 1
  | .filling _ | .draining _ _ => some 1
  | .merging _ _ _ => some 3
  | .taken _ => some 4
  | .free | .released =>
    let other := if w32 then [bankKey g bank false 0] else (List.range 20).map (fun i => bankKey g bank true i)
    if other.any (fun k => (s.bank k).st.busy) then some 5 else some 4

/-- The first failure among the stations in scope, where each should hold a bank. A station whose bank a held pass has released has
no tile of it, and is passed over as long as the scope holds one (R112, R174, R468; log entry 19). -/
def State.heldIn (s : State) (x : Ctx) (key : Nat → Nat) (bad : Nat → Option (Nat × Fail)) : Option (Nat × Fail) :=
  let some1 := (s.scopeStns x).any (fun g => (s.bank (key g)).st.isHeld)
  ((s.scopeStns x).filter (fun g => !(some1 && (s.bank (key g)).st = .released))).findSome? bad

/-- The first station in scope whose named bank is not held and ready: unit and failure. The record shows the bank's own mode,
and slot 0 in 640-bit mode (R66). A 640-bit command that meets a bank of W32 slots names no slot: the record shows slot 0 (DESIGN
CHOICE, log entry 47). -/
def State.bankReady (s : State) (x : Ctx) : Option (Nat × Fail) :=
  s.heldIn x x.tKey (fun g => (s.notHeld x.p g x.tBank x.tW32 x.tSlot).map (fun r =>
    let w := if r = 5 then !x.tW32 else x.tW32
    (tallyUnit g, bad03 x.tBank (if w then x.tSlot else 0) w r x.op)))

/-- Rules of R175 on word 1, in row order. -/
def tallyWord (_ : State) (_ : Exec) (x : Ctx) : Option Fail :=
  let op := x.op
  firstFail [
    (op ≠ 0x23 && (x.f 7 12 = 0 || x.descCount ≤ x.f 7 12), bad0C op 2 71),
    (op = 0x23 && x.f 7 12 ≠ 0, bad0C op 1 71),
    ((op ≠ 0x20 || !x.tW32) && x.f 19 12 ≠ 0, bad0C op 1 83),
    ((op ≠ 0x20 || !x.tW32) && x.f 31 12 ≠ 0, bad0C op 1 95),
    ((op = 0x21 || op = 0x22) && x.tW32, bad0C op 7 70),
    ((!x.tW32 && x.tSlot ≠ 0) || 20 ≤ x.tSlot, bad0C op 5 65),
    optDesc x 19, optDesc x 31]

def clsTally : Cls :=
  { Cls.base with
    scopes := anyScope
    word := tallyWord
    zeros := fun _ => [(43, 21)]
    units := fun s x => (s.scopeStns x).map tallyUnit
    ready := fun s x => s.bankReady x
    unit := fun s x => s.stnUnit x 0x02 }

/-- Take the named bank in every station of the scope that holds it (R174); one that a held pass has released is free from now on. -/
def State.takeBanks (s : State) (x : Ctx) : State :=
  (s.scopeStns x).foldl (fun s g =>
    let b := s.bank (x.tKey g)
    if b.st.isHeld then s.setBank (x.tKey g) { b with st := .taken x.off }
    else if b.st = .released then s.setBank (x.tKey g) Bank.empty
    else s) s

/-- Free the banks a command has taken (R174). -/
def State.freeTaken (s : State) (off : Nat) (stns : List Nat) : State :=
  { s with banks := Map.mapCanon (fun _ => Bank.empty)
             (fun k b => if b.st = .taken off && stns.contains (k / 42) then Bank.empty else b) s.banks }

/-- The pace from which a tally-control command's result counts: the latency of class 0x0003, and of 0x0015 for an MX
output (R472). -/
def tallyLat (e : Exec) (h : Head) : Nat := e.lat 3 + (if isMx h.fmtOut.toNat then e.lat 0x15 else 0)

/-- Class use and excess of a drain of the stations in scope (R141). -/
def State.tallyTime (s : State) (x : Ctx) : State :=
  (s.scopeStns x).foldl (fun s g =>
    let s := s.useClass x.p 3 (tallyUnit g)
    if isMx x.h.fmtOut.toNat then s.useClass x.p 0x15 (tallyUnit g) else s) s

/-- The command is in flight from its issue to issue plus its latency, whichever slot it enters (R159, R472). -/
def State.enterTally (s : State) (x : Ctx) : State :=
  match s.exec? x.p with
  | none => s
  | some e =>
    let now := s.orderPace x.p
    let lat := tallyLat e x.h
    let cmd : Cmd :=
      { off := x.off, op := x.op, h := x.h, w1 := BitVec.ofNat 64 x.w1, units := (s.scopeStns x).map tallyUnit,
        start := some now, done := some (now + lat), prog := lat, left := 0, descs := [] }
    (s.setExec x.p { e with cmds := e.cmds ++ [cmd] }).tallyTime x

/-- Extent of the rows and columns a drain of held tiles needs. -/
def State.drainNeed (s : State) (x : Ctx) (al : Bool) : Nat × Nat :=
  let bs := (s.tiles x).map (fun g => s.bank (x.tKey g))
  (bs.foldl (fun m b => max m ((if al then b.share else b.row0) + b.rows)) 0,
   bs.foldl (fun m b => max m ((if al then 0 else b.col0) + b.cols)) 0)

/-- The uses of a DRAIN's descriptors (R208, R209). -/
def State.drainUses (s : State) (x : Ctx) : List Use :=
  let di := x.f 7 12
  let (rows, cols) := s.drainNeed x (s.isAlias x.p (s.desc x.p x.hdr di))
  let fo := x.h.fmtOut.toNat
  let vec (i n : Nat) (d : Desc) : Use :=
    { idx := i, rows := cdiv n (max (d.rowBytes / 4) 1), bytes := 4, rd := true, wr := false, mx := none,
      checkScale := false, stream := false, transposed := false, levels := [.alias_, .depot] }
  let rd := s.desc x.p x.hdr (x.f 19 12)
  let cd := s.desc x.p x.hdr (x.f 31 12)
  [{ idx := di, rows := rows, bytes := rowBytesOf fo cols, rd := false, wr := true,
     mx := if isMx fo then some fo else none, checkScale := isMx fo, stream := false, transposed := false,
     levels := [.alias_, .depot, .hbm] }] ++
  (if x.f 19 12 = 0 then [] else [vec (x.f 19 12) (s.drainNeed x (s.isAlias x.p rd)).1 rd]) ++
  (if x.f 31 12 = 0 then [] else [vec (x.f 31 12) (s.drainNeed x (s.isAlias x.p cd)).2 cd])

/-- DRAIN (R175). -/
def clsDrain : Cls :=
  { clsTally with
    fmtOut := true
    round := true
    fmt := fun x => outFmt x.h true
    body := fun s x => s.useChecks x.p x.hdr (s.drainUses x)
    reads := fun s x => [x.f 19 12, x.f 31 12].flatMap (fun i =>
      if i = 0 then [] else s.rowsOf x.p (s.tiles x) (s.desc x.p x.hdr i))
    descs := fun _ x => [x.f 19 12, x.f 31 12].filter (· ≠ 0)
    classes := fun _ x => if isMx x.h.fmtOut.toNat then [3, 0x15] else [3]
    start := fun s x =>
      match s.exec? x.p with
      | none => s
      | some e =>
        let di := x.f 7 12
        let d := s.desc x.p x.hdr di
        let opt (i : Nat) : Option Desc := if i = 0 then none else some (s.desc x.p x.hdr i)
        let ts := s.tiles x
        let vec (i : Nat) : List (Nat × Nat × Nat) :=
          if i = 0 then [] else ts.flatMap (fun g => (s.desc x.p x.hdr i).ranges g)
        match s.poisonCheck x.p (s.stnUnit x 0x02) x.off (vec (x.f 19 12) ++ vec (x.f 31 12)) with
        | some s => s
        | none =>
        let s := s.fetchVecs x.p ts [opt (x.f 19 12), opt (x.f 31 12)]
        let s := ts.foldl (fun s g =>
          s.drainTile x.p g (x.tKey g) 128 (e.sink x.h 0 di) d (opt (x.f 19 12)) (opt (x.f 31 12))) s
        (((s.takeBanks x).enterTally x).dest x.p (s.rowsOf x.p ts d)) }

def execDrain (p : PartId) (h : Head) (w1 : Word) (s : State) : Host.Outcome State Fault Refusal :=
  answer s (fun s => clsDrain.offer s p 0x20 h w1)

/-- Formats of EVICT and LEDGER_ADD: output code 0xD, no rounding code 3 (R40, R175). -/
def rsumFmt (x : Ctx) : Option Fail :=
  firstFail [(x.h.fmtOut ≠ 0xD, bad04 x.h 3), (x.h.round = 3, bad04 x.h 5)]

/-- Rounding code 1 is refused (R105, R110); then the descriptor of one row per tile. -/
def rsumBody (rd : Bool) (levels : List Level) (s : State) (x : Ctx) : Option Fail :=
  if x.h.round = 1 then some (bad23 x.h 2 0)
  else s.useChecks x.p x.hdr
    [{ idx := x.f 7 12, rows := (s.tiles x).length, bytes := rsumBytes, rd := rd, wr := true, mx := none,
       checkScale := false, stream := false, transposed := false, levels := levels }]

/-- EVICT (R105, R106). -/
def clsEvict : Cls :=
  { clsTally with
    fmtOut := true
    round := true
    fmt := rsumFmt
    body := rsumBody false [.depot, .hbm]
    classes := fun _ _ => [3]
    start := fun s x =>
      match s.exec? x.p with
      | none => s
      | some e =>
        let d := s.desc x.p x.hdr (x.f 7 12)
        let ts := s.tiles x
        let s := (ts.zipIdx).foldl (fun s (g, k) => s.evictTile x.p g (x.tKey g) (d.rowVa k) e x.h (x.f 7 12)) s
        ((s.takeBanks x).enterTally x).dest x.p (s.rowsOf x.p ts d) }

def execEvict (p : PartId) (h : Head) (w1 : Word) (s : State) : Host.Outcome State Fault Refusal :=
  answer s (fun s => clsEvict.offer s p 0x21 h w1)

/-- What a LEDGER_ADD reads of a slice (R278, R279): of one that it starts, only the TAG; else the header and the values of unmasked
rows. -/
def State.sliceReads (s : State) (p g key va : Nat) : List (Nat × Nat × Nat) :=
  let b := s.bank key
  if leAt (s.vbytes p g va 64) 4 4 ≠ s.fld (Csr.updStep_tag p) then [(g, va + 4, 4)]
  else (g, va, 64) :: ((List.range 32).filter b.fed).map (fun r => (g, tileVal va r 0, 4 * b.cols))

/-- LEDGER_ADD (R278, R279); a slice in HBM is a spill, counted once in each caravan that adds to one (R221). -/
def clsLedger : Cls :=
  { clsTally with
    fmtOut := true
    round := true
    fmt := rsumFmt
    body := rsumBody true [.ledger, .hbm]
    reads := fun s x => s.rowsOf x.p ((s.tiles x).take 1) (s.desc x.p x.hdr (x.f 7 12))
    classes := fun _ _ => [3]
    start := fun s x =>
      match s.exec? x.p with
      | none => s
      | some e =>
        let d := s.desc x.p x.hdr (x.f 7 12)
        let ts := s.tiles x
        match s.poisonCheck x.p (s.stnUnit x 0x02) x.off ((ts.zipIdx).flatMap (fun (g, k) => s.sliceReads x.p g (x.tKey g) (d.rowVa k))) with
        | some s => s
        | none =>
        let s := (ts.zipIdx).foldl (fun s (g, k) => s.ledgerTile x.p g (x.tKey g) (d.rowVa k) e x.h (x.f 7 12)) s
        let spilt := ((ts.zipIdx).filter (fun (_, k) => (s.vaPa x.p (d.rowVa k)).bind regionOf = some .hbm)).map
          (fun (g, _) => g / 8)
        let s := spilt.eraseDups.foldl (fun s c => s.count (Csr.drvXfer_ledgerSpills c) 1) s
        ((s.takeBanks x).enterTally x).dest x.p (s.rowsOf x.p ts d) }

def execLedgerAdd (p : PartId) (h : Head) (w1 : Word) (s : State) : Host.Outcome State Fault Refusal :=
  answer s (fun s => clsLedger.offer s p 0x22 h w1)

/-- RELEASE (R174, R175): the banks are free at issue, their contents discarded. -/
def clsRelease : Cls :=
  { clsTally with
    start := fun s x =>
      let s := (s.scopeStns x).foldl (fun s g => s.setBank (x.tKey g) Bank.empty) s
      s.doneAtIssue x (s.stnUnit x 0x02) }

def execRelease (p : PartId) (h : Head) (w1 : Word) (s : State) : Host.Outcome State Fault Refusal :=
  answer s (fun s => clsRelease.offer s p 0x23 h w1)

end Sys2Proof.Machine
end

