-- ==== Sys2Proof/Machine/Product.lean ====
section
/-!
DEFINITION. Tile products: the division of a product (R14 to R16, R111, R468), its checks (R168 to R173, R208 to R211), and a
product as one caravan runs it.
-/
namespace Sys2Proof.Machine

/-- K-rows of one tile of a class (R58). -/
def tileK (code : Nat) : Nat :=
  match classOf code with
  | some .e8m10 => 64
  | some .bf16 | some .fp16 => 128
  | _ => 256

/-- Route bytes of one tile in its stored form (R58). -/
def routeBytes (code : Nat) : Nat := if isMx code then 256 * 128 * elemBits code / 8 + 1024 else 32768

/-- The product record (R169). -/
structure PRec where
  m : Nat
  n : Nat
  k : Nat
  mask : Nat
  resume : Nat
  rsc : Nat
  csc : Nat
  clean : Bool
  deriving DecidableEq, Repr

def parseRec (b : List Byte) : PRec :=
  let ix (i : Nat) : Nat := leAt b i 2
  { m := leAt b 0 4, n := leAt b 4 4, k := leAt b 8 4, mask := ix 12, resume := ix 14, rsc := ix 16, csc := ix 18,
    clean := ix 12 < 4096 && ix 14 < 4096 && ix 16 < 4096 && ix 18 < 4096 && (b.drop 20).all (· = 0) }

/-! Fields of word 1 (R168). -/

def Ctx.pA (x : Ctx) : Nat := x.f 0 12
def Ctx.pB (x : Ctx) : Nat := x.f 12 12
def Ctx.pDst (x : Ctx) : Nat := x.f 24 12
def Ctx.pRec (x : Ctx) : Nat := x.f 36 12
def Ctx.pSplit (x : Ctx) : Nat := x.f 48 4
def Ctx.pInj (x : Ctx) : Nat := x.f 52 3
def Ctx.pTr (x : Ctx) : Bool := x.f 55 1 = 1
def Ctx.pLocal (x : Ctx) : Bool := x.f 56 1 = 1
def Ctx.pW32 (x : Ctx) : Bool := x.f 57 2 = 1
def Ctx.pSlot (x : Ctx) : Nat := x.f 59 5
/-- The K-split factor; 1 without a split. -/
def Ctx.pS (x : Ctx) : Nat := max x.pSplit 1

/-- Rules of R173 on word 1, in row order. -/
def productWord (_ : State) (_ : Exec) (x : Ctx) : Option Fail :=
  let st := x.scope = 0x01
  let none0 := x.pDst = 0
  let h := x.h
  firstFail [
    needDesc x 0, needDesc x 12, optDesc x 24, (x.pRec = 0 || x.recCount ≤ x.pRec, bad0C 0x10 2 100),
    (st && x.pInj ≠ bitsOf x.sel 8 3, bad0C 0x10 5 116), (2 ≤ x.f 57 2, bad0C 0x10 5 121),
    (20 ≤ x.pSlot || (x.f 57 2 = 0 && x.pSlot ≠ 0), bad0C 0x10 5 123),
    (none0 && h.sat, bad0C 0x10 1 41), (none0 && h.round ≠ 0, bad0C 0x10 1 42), (none0 && h.fmtOut ≠ 0, bad0C 0x10 1 44),
    (st && x.pSplit ≠ 0, bad0C 0x10 7 112)]

/-- Format rules of a product (R40), in the order 2, 1, 3, 4, 5. -/
def productFmt (x : Ctx) : Option Fail :=
  let a := x.h.fmtA.toNat
  let b := x.h.fmtB.toNat
  (firstFail [(0xD ≤ a || 0xD ≤ b, bad04 x.h 2), (classOf a ≠ classOf b, bad04 x.h 1)]).orElse fun _ =>
  if x.pDst = 0 then none else outFmt x.h true

/-! The division (R15, R111, R468). -/

/-- The shape of a product over its scope. -/
structure Shape where
  m : Nat
  n : Nat
  k : Nat
  cars : List Nat
  stn : Option Nat
  inj : Nat
  s : Nat
  deriving DecidableEq, Repr

/-- M-blocks that exist. -/
def Shape.mBlocks (z : Shape) : Nat := cdiv z.m 32
/-- M-blocks one pass of one caravan covers. -/
def Shape.perPass (z : Shape) : Nat := if z.stn.isSome then 1 else 8 / z.s
/-- Passes over M for each N-block. -/
def Shape.mPasses (z : Shape) : Nat := cdiv z.mBlocks z.perPass
def Shape.nBlocks (z : Shape) : Nat := cdiv z.n 128
/-- The N-blocks of the caravan of position i: increasing, one to each caravan in turn (R15). -/
def Shape.blocks (z : Shape) (i : Nat) : List Nat :=
  (List.range z.nBlocks).filter (fun b => b % z.cars.length = i)
/-- Stations of a caravan that take part. -/
def Shape.stns (z : Shape) (c : Nat) : List Nat :=
  match z.stn with
  | some i => [c * 8 + i]
  | none => (List.range 8).map (fun i => c * 8 + i)
/-- Offset of a station from the injection station. -/
def Shape.off (z : Shape) (g : Nat) : Nat := (g % 8 + 8 - z.inj) % 8
/-- The M-block of station g in M-pass mi (R15, R111). -/
def Shape.mBlock (z : Shape) (g mi : Nat) : Nat :=
  if z.stn.isSome then mi else if z.s = 1 then mi * 8 + g % 8 else mi * (8 / z.s) + z.off g / z.s
/-- Whether a station owns the tile of its group: in a K split, the group's first station (R112). -/
def Shape.owns (z : Shape) (g : Nat) : Bool := z.stn.isSome || z.off g % z.s = 0

/-- Whether pass pi of the caravan at position i of the group fills a bank of station g: the caravan has an N-block in it (R15), the
station an M-block, and in a K split a tile of its own or, without K-rows, the group's tile (R111, R170). -/
def Shape.fills (z : Shape) (tk i g pi : Nat) : Bool :=
  pi / z.mPasses < (z.blocks i).length && z.mBlock g (pi % z.mPasses) < z.mBlocks &&
  (if z.k = 0 then z.owns g else z.stn.isSome || z.off g % z.s < cdiv z.k tk)

/-- Every output tile of the product in output-tile order: pass, caravan, station (R468). -/
def Shape.tiles (z : Shape) : List (Nat × Nat) :=
  let rounds := cdiv z.nBlocks z.cars.length
  (List.range (rounds * z.mPasses)).flatMap (fun pi =>
    (z.cars.zipIdx).flatMap (fun (c, i) =>
      if pi / z.mPasses < (z.blocks i).length then
        ((z.stns c).filter (fun g => z.owns g && z.mBlock g (pi % z.mPasses) < z.mBlocks)).map (fun g => (pi, g))
      else []))

/-- Passes of the fullest caravan share. -/
def Shape.passes (z : Shape) : Nat := cdiv z.nBlocks z.cars.length * z.mPasses

def State.shape (s : State) (x : Ctx) (r : PRec) : Shape :=
  { m := r.m, n := r.n, k := r.k, cars := s.scopeCars x, stn := if x.scope = 0x01 then some (bitsOf x.sel 8 3) else none,
    inj := x.pInj, s := x.pS }

/-- K-rows of the tiles a station of offset o latches (R469). -/
def shareK (k tk s o : Nat) : Nat :=
  ((List.range (cdiv k tk)).filter (fun j => j % s = o)).foldl (fun a j => a + min tk (k - j * tk)) 0

/-- Rows of station g's M-block in M-pass mi. -/
def Shape.rowsIn (z : Shape) (g mi : Nat) : Nat := min 32 (z.m - z.mBlock g mi * 32)

/-- Rows and passes of station g's share when its caravan stands at position i of the group (R208): what it broadcasts or
writes over all its passes. -/
def Shape.share (z : Shape) (i g : Nat) : Nat × Nat :=
  let rs := (List.range ((z.blocks i).length * z.mPasses)).map (fun pi => z.rowsIn g (pi % z.mPasses))
  (rs.sum, (rs.filter (0 < ·)).length)

/-- Columns of B that a caravan's stations latch under LOCAL: the N-blocks of its share side by side (R208, R469). -/
def Shape.columns (z : Shape) (i : Nat) : Nat :=
  match (z.blocks i).getLast? with
  | some b => ((z.blocks i).length - 1) * 128 + min 128 (z.n - b * 128)
  | none => 0

/-- The columns of the fullest share. -/
def Shape.maxColumns (z : Shape) : Nat := ((List.range z.cars.length).map z.columns).foldl max 0

/-- The largest share of a station in scope. -/
def Shape.maxShare (z : Shape) : Nat × Nat :=
  (z.cars.zipIdx).foldl (fun a (c, i) => (z.stns c).foldl (fun (a, b) g =>
    let (x, y) := z.share i g
    (max a x, max b y)) a) (0, 0)

/-! Checks of step 5 (R173, R208 to R212). -/

/-- The side of a LAYOUT 1 block (R211). -/
def blockSide (code : Nat) : Nat := 2048 / elemBits code

/-- LAYOUT 1 is legal for this A (R211). -/
def trOk (d : Desc) (code : Nat) (r : PRec) : Bool :=
  !isMx code && r.m % blockSide code = 0 && r.k % blockSide code = 0 && d.stride % 256 = 0

/-- Uses of a product's descriptors. -/
def State.productUses (s : State) (x : Ctx) (r : PRec) : List Use :=
  let z := s.shape x r
  let fa := x.h.fmtA.toNat
  let fb := x.h.fmtB.toNat
  let fo := x.h.fmtOut.toNat
  let dsc (i : Nat) : Desc := s.desc x.p x.hdr i
  let al (i : Nat) : Bool := s.isAlias x.p (dsc i)
  let (share, passes) := z.maxShare
  let mxOf (c : Nat) : Option Nat := if isMx c then some c else none
  let a := dsc x.pA
  let tr := a.layout = 1
  let ks := if 1 < z.s then shareK r.k (tileK fa) z.s 0 else r.k
  let ka := if al x.pA then ks else r.k
  let kk := if x.pLocal then ks else r.k
  let ncol := if x.pLocal then z.maxColumns else r.n
  let byCol := isMx fb || x.pTr
  let vec (i full part : Nat) : Use :=
    { idx := i, rows := cdiv (if al i then part else full) (max ((dsc i).rowBytes / 4) 1), bytes := 4, rd := true,
      wr := false, mx := none, checkScale := false, stream := false, transposed := false, levels := [.alias_, .depot] }
  [{ idx := x.pA,
     rows := if tr then (if al x.pA then passes * ka else r.k) else if al x.pA then share else r.m,
     bytes := rowBytesOf fa (if tr then (if al x.pA then 32 else r.m) else ka), rd := true, wr := false,
     mx := mxOf fa, checkScale := true, stream := false, transposed := trOk a fa r, levels := [.alias_, .depot] },
   { idx := x.pB, rows := if byCol then ncol else kk, bytes := rowBytesOf fb (if byCol then kk else ncol), rd := true,
     wr := false, mx := mxOf fb, checkScale := true, stream := false, transposed := false,
     levels := if x.pLocal then [.alias_] else [.depot] }] ++
  (if x.pDst = 0 then [] else
    [{ idx := x.pDst, rows := if al x.pDst then share else r.m,
       bytes := rowBytesOf fo (if al x.pDst then min 128 r.n else r.n), rd := false, wr := true, mx := mxOf fo,
       checkScale := isMx fo, stream := false, transposed := false, levels := [.alias_, .depot, .hbm] }]) ++
  (if r.mask = 0 then [] else
    [{ idx := r.mask,
       rows := cdiv (4 * cdiv (if al r.mask then share else r.m) 32) (max (dsc r.mask).rowBytes 1), bytes := 1,
       rd := true, wr := false, mx := none, checkScale := false, stream := false, transposed := false,
       levels := [.alias_, .depot] }]) ++
  (if r.resume = 0 then [] else
    [{ idx := r.resume, rows := z.tiles.length, bytes := rsumBytes, rd := true, wr := false, mx := none,
       checkScale := false, stream := false, transposed := false, levels := [.depot, .hbm] }]) ++
  (if r.rsc = 0 then [] else [vec r.rsc r.m share]) ++ (if r.csc = 0 then [] else [vec r.csc r.n (min 128 r.n)])

/-- A running-sum header that is not zero where it must be (R107, R173). -/
def State.productLate (s : State) (x : Ctx) : Option Fail :=
  let r := parseRec (s.record x.p x.hdr x.pRec)
  if r.resume = 0 then none
  else
    let d := s.desc x.p x.hdr r.resume
    let n := (s.shape x r).tiles.length
    if (List.range n).any (fun j => ((s.vbytes x.p (s.homeStn x.p) (d.rowVa j) 64).drop 4).any (· ≠ 0)) then
      some (bad23 x.h 3 x.pSplit)
    else none

/-- The same at step 5, where codes 0x22 and 0x23 come before the descriptor and window checks (R160). Headers that a transfer in
flight still has to bring are read once they have landed. -/
def State.productHeaders (s : State) (x : Ctx) : Option Fail :=
  match s.exec? x.p with
  | none => none
  | some e =>
    let i := (parseRec (s.record x.p x.hdr x.pRec)).resume
    if i ≠ 0 && touches (s.rowsOf x.p [s.homeStn x.p] (s.desc x.p x.hdr i)) (s.landing x.p e) then none else s.productLate x

/-- The record and descriptor checks of a product, in the order of R160 step 5. -/
def State.productBody (s : State) (x : Ctx) : Option Fail :=
  let r := parseRec (s.record x.p x.hdr x.pRec)
  let fa := x.h.fmtA.toNat
  let fb := x.h.fmtB.toNat
  (firstFail [
    (!r.clean, bad0C 0x10 1 100),
    ([r.mask, r.resume, r.rsc, r.csc].any (fun i => i ≠ 0 && x.descCount ≤ i), bad0C 0x10 2 100),
    ((!x.pW32 && (r.rsc ≠ 0 || r.csc ≠ 0)) || (x.pW32 && r.resume ≠ 0), bad0C 0x10 7 100),
    ((isMx fa || isMx fb) && r.k % 32 ≠ 0, bad04 x.h 6),
    (x.pTr && !(fb = 2 || fb = 3), (0x22, fb)),
    (x.pW32 && !(fa = 6 && fb = 6), bad23 x.h 1 x.pSplit),
    (!([0, 2, 4, 8].contains x.pSplit), bad23 x.h 4 x.pSplit)]).orElse fun _ => (s.productHeaders x).orElse fun _ =>
  s.useChecks x.p x.hdr (s.productUses x r)

/-- Latency classes a product uses (R139, R142). -/
def productClasses (_ : State) (x : Ctx) : List Nat :=
  [1, 2] ++ (if x.pDst = 0 then [] else [3]) ++ (if x.pSplit = 0 then [] else [4]) ++
    (if isMx x.h.fmtOut.toNat then [0x15] else []) ++ [0x20]

/-- Bank keys that block a pass into a bank: the same mode's bank or slot, and every key of the other mode. -/
def blockers (g bank : Nat) (w32 : Bool) (slot : Nat) : List (Nat × Bool × Nat) :=
  if w32 then [(bankKey g bank true slot, true, slot), (bankKey g bank false 0, false, 0)]
  else (bankKey g bank false 0, false, 0) :: (List.range 20).map (fun i => (bankKey g bank true i, true, i))

def BankSt.isMerging : BankSt → Bool
  | .merging .. => true
  | _ => false

/-- A merge has begun (R113): the stations of the group have all done their part. -/
def BankSt.merges : BankSt → Bool
  | .merging _ n _ => n ≠ 0
  | _ => false

/-! Runs on the route. -/

/-- Fields of word 1 that the route needs. -/
def Run.f (r : Run) (lsb w : Nat) : Nat := bitsOf r.w1.toNat lsb w
def Run.inj (r : Run) : Nat := r.f 52 3
def Run.s (r : Run) : Nat := max (r.f 48 4) 1
def Run.isLocal (r : Run) : Bool := r.f 56 1 = 1
def Run.w32 (r : Run) : Bool := r.f 57 2 = 1
def Run.slot (r : Run) : Nat := r.f 59 5
def Run.tr (r : Run) : Bool := r.f 55 1 = 1
def Run.fa (r : Run) : Nat := r.h.fmtA.toNat
def Run.fb (r : Run) : Nat := r.h.fmtB.toNat
def Run.tk (r : Run) : Nat := tileK r.fa
def Run.passes (r : Run) : Nat := r.blocks.length * r.mPasses
def Run.pairs (r : Run) : Nat := cdiv r.passes 2
/-- Legs of a visit on pair i (R62, R64). -/
def Run.legs (r : Run) (i : Nat) : Nat := if 2 * i + 1 < r.passes then 2 else 1
def Run.rcd (r : Run) : PRec := parseRec r.record
/-- Descriptors as read at issue: 0 A, 1 B, 2 destination, 3 mask, 4 resume, 5 row scale, 6 column scale. -/
def Run.d (r : Run) (i : Nat) : Desc := parseDesc (r.descs.getD i [])
def Run.optD (r : Run) (i idx : Nat) : Option Desc := if idx = 0 then none else some (r.d i)
def Run.single (r : Run) : Bool := r.stns.length = 1
def Run.off8 (r : Run) (g : Nat) : Nat := (g % 8 + 8 - r.inj) % 8
/-- The M-block of station g in pass pi. -/
def Run.mBlock (r : Run) (g pi : Nat) : Nat :=
  let mi := pi % r.mPasses
  if r.single then mi else if r.s = 1 then mi * 8 + g % 8 else mi * (8 / r.s) + r.off8 g / r.s
/-- Whether station g uses tile j (R111). -/
def Run.uses (r : Run) (g j : Nat) : Bool := r.s = 1 || r.off8 g % r.s = j % r.s
/-- The first and last tiles station g uses. -/
def Run.firstUsed (r : Run) (g : Nat) : Nat := if r.s = 1 then 0 else r.off8 g % r.s
def Run.lastUsed (r : Run) (g : Nat) : Nat :=
  if r.s = 1 then r.tiles - 1 else (r.tiles - 1 - r.off8 g % r.s) / r.s * r.s + r.off8 g % r.s
def Run.key (r : Run) (g pi : Nat) : Nat := bankKey g (pi % 2) r.w32 r.slot
def Run.nb (r : Run) (pi : Nat) : Nat := r.blocks.getD (pi / r.mPasses) 0

/-- Whether a pass's tile exists at a station (R468). -/
def Run.exists_ (u : Run) (g pi : Nat) : Bool := pi < u.passes && u.mBlock g pi * 32 < u.m
/-- Rows of the tile of pass pi at station g. -/
def Run.rowsIn (u : Run) (g pi : Nat) : Nat := if u.exists_ g pi then min 32 (u.m - u.mBlock g pi * 32) else 0
/-- The first row of pass pi in station g's share through the alias (R208). -/
def Run.share (u : Run) (g pi : Nat) : Nat := ((List.range pi).map (u.rowsIn g)).sum
/-- The place of pass pi among the passes of station g's share (R211). -/
def Run.rank (u : Run) (g pi : Nat) : Nat := ((List.range pi).filter (u.exists_ g)).length
/-- K-row kk in a station's share of a K split (R208, R469). -/
def Run.localK (u : Run) (kk : Nat) : Nat := if 1 < u.s then kk / u.tk / u.s * u.tk + kk % u.tk else kk
/-- K-rows of station g's share. -/
def Run.kOf (u : Run) (g : Nat) : Nat := if 1 < u.s then shareK u.k u.tk u.s (u.off8 g % u.s) else u.k
/-- K-rows of tile j. -/
def Run.kRows (u : Run) (j : Nat) : List Nat := (List.range (min u.tk (u.k - j * u.tk))).map (j * u.tk + ·)
/-- The tiles station g uses, in order. -/
def Run.tilesOf (u : Run) (g : Nat) : List Nat := (List.range u.tiles).filter (u.uses g)
/-- Stations of g's K-split group, in offset order. -/
def Run.kGroup (u : Run) (g : Nat) : List Nat :=
  let f := u.off8 g / u.s * u.s
  (List.range u.s).map (fun i => g / 8 * 8 + (u.inj + f + i) % 8)
/-- Whether station g keeps the group's tile (R112). -/
def Run.owns (u : Run) (g : Nat) : Bool := u.single || u.off8 g % u.s = 0

/-- Whether pass pi fills a bank of station g and leaves it held: a product without destination, whose groups keep their tile in the
first station (R112, R172). -/
def Run.holds (u : Run) (g pi : Nat) : Bool := u.f 24 12 = 0 && u.stns.contains g && u.owns g && u.exists_ g pi

/-- A product in flight that will hold a bank of station g (R172). A caravan without an N-block of it has none of its passes (R15). -/
def State.willHold (s : State) (g bank : Nat) (w32 : Bool) (slot : Nat) : Bool :=
  (s.car (g / 8)).runs.any (fun u => !u.ended && u.holds g bank && (if w32 && u.w32 then u.slot = slot else true))

/-- Step 8 of a product (R66, R113, R172, R173): held banks, merges not complete, too many passes. Only a bank that a pass of the
product fills counts. -/
def State.productReady (s : State) (x : Ctx) : Option (Nat × Fail) :=
  let r := parseRec (s.record x.p x.hdr x.pRec)
  let z := s.shape x r
  if (s.exec? x.p).isNone || r.m = 0 || r.n = 0 then none
  else
    (s.scopeStns x).findSome? (fun g =>
      let i := (z.cars.idxOf? (g / 8)).getD 0
      let n := (z.blocks i).length * z.mPasses
      let fills (pi : Nat) : Bool := z.fills (tileK x.h.fmtA.toNat) i g pi
      if x.pDst = 0 && 2 < n then some (tallyUnit g, bad03 0 x.pSlot x.pW32 2 0x10)
      else
        [0, 1].findSome? (fun b =>
          if !(List.range n).any (fun pi => pi % 2 = b && fills pi) then none
          else
            ((blockers g b x.pW32 x.pSlot).findSome? (fun (k, w, sl) =>
              if (s.bank k).st.isHeld then some (tallyUnit g, bad03 b sl w 2 0x10)
              else if (s.bank k).st.isMerging then some (tallyUnit g, bad03 b sl w 3 0x10)
              else none)).orElse (fun _ =>
              if s.willHold g b x.pW32 x.pSlot then some (tallyUnit g, bad03 b x.pSlot x.pW32 2 0x10) else none)))

/-- The run of a tile. -/
def Car.run (c : Car) (t : TileAt) : Option Run := c.runs.find? (fun u => u.seq = t.seq && u.off = t.run)

end Sys2Proof.Machine
end

