-- ==== Sys2Proof/Machine/Array.lean ====
section
/-!
DEFINITION. The arrays and what they bring to the tally: operands as a station latches and broadcasts them (R36 to R39, R59,
R208 to R211), rows through the row groups (R42, R60, R61, R78), the add and its residue check (R65, R77 to R82), sweeps (R97
to R100), masks (R74, R75), running sums resumed (R107), legs, replays, fences and restarts (R80, R81, R86, R88), drains (R66),
merges of a K split (R112, R113).
-/
namespace Sys2Proof.Machine

/-- Whether the execution has stopped at a fault, or there is none. -/
def State.stopped (s : State) (p : Nat) : Bool := ((s.exec? p).map (·.fault.isSome)).getD true

/-! Faults of one pace (R152). -/

/-- The fault of the running execution: unit, code, stream offset, word 3. -/
def State.faultOf (s : State) (p : Nat) : Option (Nat × Nat × Nat × Nat) :=
  ((s.exec? p).bind (·.fault)).map (fun r => (bitsOf r.1.toNat 8 16, bitsOf r.1.toNat 0 8, r.2.2.1.toNat, r.2.2.2.toNat))

/-- One more thing that a pace does, after it has perhaps met a fault already: the first state is the machine's; the second goes on
without the fault, so that what else is detected in the pace is met and compared (R152). -/
def State.also (p : Nat) (x : State × State) (f : State → State) : State × State :=
  let t := f x.2
  if x.1.stopped p then
    if t.stopped p then
      (match t.faultOf p with
       | some (u, code, off, w3) => x.1.raise p u code off w3
       | none => x.1, x.2)
    else (x.1, t)
  else (t, if t.stopped p then x.2 else t)

/-- Everything a pace does, each thing met whatever fault another one meets (R152). -/
def State.together (p : Nat) (fs : List (State → State)) (x : State × State) : State × State := fs.foldl (State.also p) x

/-- Run under the execution a tile belongs to: the order that an interleaved one has overtaken keeps its own (R220). -/
def State.forSeq (s : State) (p seq : Nat) (f : State → State) : State :=
  let x := s.part p
  if (x.prev.map (·.seq)) = some seq then
    let swap (s : State) : State := s.updPart p (fun y => { y with exec := y.prev, prev := y.exec })
    swap (f (swap s))
  else f s

/-! Operands. -/

/-- An element as an array takes it, and whether its conversion overflowed (R37 to R39). -/
def arrayVal (code bits scale : Nat) : Val × Bool :=
  if code ≤ 1 then intoArray code bits else (scaledVal code bits scale, false)

/-- The first byte of a satchel bank of station g. -/
def satBank (g : Nat) (b : Bool) : Nat := satchelBase g + boolNat b * (8 * mib)

/-- Offset in its bank of a row of A as the drover stages it (R210, R211): the rows of the pair's first pass, then those of its
second; with LAYOUT 1, K-rows of 256 bytes that hold the station's 32 columns first. -/
def Run.stageRow (u : Run) (pi j : Nat) : Nat :=
  if (u.d 0).layout = 1 then (pi % 2 * u.k + j) * 256 else (pi % 2 * 32 + j) * rowBytesOf u.fa u.k
/-- Offset of the block scales of a staged row. -/
def Run.stageScale (u : Run) (pi r : Nat) : Nat := 64 * rowBytesOf u.fa u.k + (pi % 2 * 32 + r) * cdiv u.k 32

/-- Bits and block scale of an element of A as its descriptor holds it: K-row kk of row r of pass pi at station g. -/
def State.aStored (s : State) (p : Nat) (u : Run) (g pi r kk : Nat) : Nat × Nat :=
  let d := u.d 0
  let (j, c) :=
    if s.isAlias p d then
      if d.layout = 1 then (u.rank g pi * u.kOf g + u.localK kk, r) else (u.share g pi + r, u.localK kk)
    else
      let row := u.mBlock g pi * 32 + r
      if d.layout = 1 then (kk, row) else (row, kk)
  (s.elemRaw p g d u.fa j c, s.scaleRaw p g d u.fa j c)

/-- Bits and block scale of an element of A as station g broadcasts it (R59, R210): from the bytes an alias names, or from the
satchel bank the drover staged the pass's rows into. What a bank cannot hold is read where it lies (log entry 36). -/
def State.aRaw (s : State) (p : Nat) (u : Run) (g : Nat) (sat : Bool) (pi r kk : Nat) : Nat × Nat :=
  if s.isAlias p (u.d 0) then s.aStored p u g pi r kk
  else
    let tr := (u.d 0).layout = 1
    let bit := elemPos u.fa (if tr then r else kk)
    let o := u.stageRow pi (if tr then kk else r) + bit / 8
    let n := (bit % 8 + elemBits u.fa + 7) / 8
    let so := u.stageScale pi r + kk / 32
    if o + n ≤ 8 * mib && (!isMx u.fa || so < 8 * mib) then
      (bitsOf (leNat (s.bytes (satBank g sat + o) n)) (bit % 8) (elemBits u.fa),
       if isMx u.fa then (s.byte (satBank g sat + so)).toNat else 0x7F)
    else s.aStored p u g pi r kk

/-- Bits and block scale of an element of B in the pass's N-block, zero beyond the shape (R36, R71, R170, R469). -/
def State.bRaw (s : State) (p : Nat) (u : Run) (g pi kk col : Nat) : Nat × Nat :=
  let d := u.d 1
  let nb := u.nb pi
  if u.n ≤ nb * 128 + col || u.k ≤ kk then (0, 0x7F)
  else
    let k' := if u.isLocal then u.localK kk else kk
    let c' := if u.isLocal then pi / u.mPasses * 128 + col else nb * 128 + col
    let (j, c) := if isMx u.fb || u.tr then (c', k') else (k', c')
    (s.elemRaw p g d u.fb j c, s.scaleRaw p g d u.fb j c)

/-- A tile in its route form: one leg of columns for each pass of the pair. -/
def State.readTile (s : State) (p : Nat) (u : Run) (g pair tile : Nat) : TileAt :=
  ⟨u.seq, u.off, pair, tile,
   (List.range (u.legs pair)).map (fun l => (List.range 128).map (fun col => (u.kRows tile).map (fun kk =>
     s.bRaw p u g (2 * pair + l) kk col)))⟩

/-- One row of A against tile `tile`: each K-row with its value and whether its conversion overflowed. -/
def State.aRow (s : State) (p : Nat) (u : Run) (g : Nat) (sat : Bool) (pi r tile : Nat) : List (Val × Bool) :=
  (u.kRows tile).map (fun kk =>
    let (b, sc) := s.aRaw p u g sat pi r kk
    arrayVal u.fa b sc)

/-- Pairs of operands that the cells of a column hold and take, from K-row k0 of the tile on, n of them. -/
def TileAt.pairs (t : TileAt) (u : Run) (leg col k0 n : Nat) (vals : List Val) : List (Val × Val) :=
  (((vals.zip ((t.data.getD leg []).getD col [])).drop k0).take n).map (fun (a, b, sc) => (a, (arrayVal u.fb b sc).1))

/-- The whole column's pairs for one row. -/
def TileAt.column (t : TileAt) (u : Run) (leg col : Nat) (vals : List Val) : List (Val × Val) := t.pairs u leg col 0 u.tk vals

/-- The products a list of pairs brings (R42), and the residue channel's sum over them (R78). -/
def products (xs : List (Val × Val)) : List Val := xs.map (fun (a, b) => valMul a b)
def channel (w32 : Bool) (xs : List (Val × Val)) : Nat := chanSum (xs.map (fun (a, b) => chanTerm (frameUnit w32) a b))

/-- Conversions of a tile that overflow: its legs count once where they take the same N-block (R38). -/
def TileAt.ovf (t : TileAt) (u : Run) : Nat :=
  if u.fb = 0 then
    (((List.range (u.legs t.pair)).filter (fun l => l = 0 || u.nb (2 * t.pair + l) ≠ u.nb (2 * t.pair))).map (fun l =>
      ((t.data.getD l []).map (fun col => (col.filter (fun (b, sc) => (arrayVal u.fb b sc).2)).length)).sum)).sum
  else 0

/-! Row groups (R57, R60). -/

def Car.cell (k : Car) (i gi : Nat) : Option TileAt := (k.cells.getD i []).getD gi none
/-- Row group gi of station i takes a tile into its active registers. -/
def Car.setCell (k : Car) (i gi : Nat) (t : Option TileAt) : Car :=
  { k with cells := (List.range 8).map (fun j =>
      if j = i then (List.range 8).map (fun q => if q = gi then t else k.cell j q) else k.cells.getD j []) }

/-- A row enters its next row group: it meets what the group's active registers hold, and each column's tree and residue channel
take the group's part (R57, R60, R78). -/
def Fed.enter (u : Run) (cell : Option TileAt) (f : Fed) : Fed :=
  let xs (col : Nat) : List (Val × Val) :=
    match cell with
    | some t => t.pairs u (f.pi % 2) col (f.into * (u.tk / 8)) (u.tk / 8) f.vals
    | none => []
  { f with
    into := f.into + 1
    terms := (List.range 128).map (fun col => f.terms.getD col [] ++ products (xs col))
    chan := (List.range 128).map (fun col => (f.chan.getD col 0 + channel u.w32 (xs col)) % 127) }

/-- Row 0 of a leg switches the group it enters to the shadow registers (R60). -/
def Car.enter (k : Car) (u : Run) (f : Fed) : Car × Fed :=
  let k := if f.row = 0 then k.setCell f.stn f.into (k.shadow.getD f.stn none) else k
  (k, f.enter u (k.cell f.stn f.into))

/-- The groups a row has still to enter up to group n. -/
def Car.enterTo (u : Run) (n : Nat) : Nat → Car → Fed → Car × Fed
  | 0, k, f => (k, f)
  | m + 1, k, f =>
    if f.into < n then
      let (k, f) := k.enter u f
      Car.enterTo u n m k f
    else (k, f)

/-- Every row of station i moves on to the group it reaches in this pace. -/
def Car.advance (k : Car) (i now : Nat) : Car :=
  k.pipe.zipIdx.foldl (fun k (f, j) =>
    if f.stn ≠ i then k
    else
      match k.run f.tile with
      | none => k
      | some u =>
        let (k, f) := Car.enterTo u (min 8 (now + 1 - f.at_)) 8 k f
        { k with pipe := k.pipe.set j f }) k

/-! Fenced column groups (R83). -/

/-- The physical column group of a logical one under a station's fence; none for logical group 15 of a fenced station. -/
def State.physGroup (s : State) (g lg : Nat) : Option Nat :=
  let f := s.fld (Csr.stnFence_fencedGroups (g / 8) (g % 8))
  if f = 0 then some lg
  else if lg = 15 then none
  else if lg < Nat.log2 f then some lg else some (lg + 1)

/-- Logical columns a station's array has a home for. -/
def State.logCols (s : State) (g : Nat) : Nat := if s.fld (Csr.stnFence_fencedGroups (g / 8) (g % 8)) = 0 then 128 else 120

/-! Sweeps (R97 to R100). -/

/-- Windows of 112 bits a column needs for magnitudes in units of 2⁻³²⁰ (R98, R99). -/
def windowsOf : Nat → List Nat → Nat
  | 0, _ => 0
  | fuel + 1, ms =>
    let top := ms.foldl max 0
    if top = 0 then 0
    else 1 + windowsOf fuel (ms.map (fun m => m % 2 ^ (Nat.log2 top - 111)))

/-- A class whose products are summed in windows (R98). -/
def sweeps (code : Nat) : Bool :=
  match classOf code with
  | some .e8m10 | some .bf16 | some .fp16 => true
  | _ => false

/-- The windows a row needs in its worst column (R100). -/
def windowsIn (code : Nat) (terms : List (List Val)) : Nat :=
  if sweeps code then terms.foldl (fun w ts => max w (windowsOf 6 (ts.map (fun v => (unitsIn (-320) v).natAbs)))) 0 else 1

/-- A row fed to a station that needs w windows: its sweeps hold the partition and are counted (R100). -/
def State.sweep (s : State) (p g w : Nat) : State :=
  let c := g / 8
  let i := g % 8
  let s := s.keepMax (Csr.stnSweep_maxWindows c i) w
  if 1 < w then
    ((s.count (Csr.stnSweep_sweepCycles c i) (w - 1)).count (Csr.stnSweep_sweptRows c i) 1).hold p 3 (some (w - 1))
  else s

/-- The same in passes that run under a hold of source 4 of unknown length: the sweeps' cycles lie in it, and count under source 3 too
(R100, R129; log entry 20). -/
def State.sweepHeld (s : State) (p g w : Nat) : State :=
  let c := g / 8
  let i := g % 8
  let s := s.keepMax (Csr.stnSweep_maxWindows c i) w
  if 1 < w then
    ((s.count (Csr.stnSweep_sweepCycles c i) (w - 1)).count (Csr.stnSweep_sweptRows c i) 1).count (Csr.prtHoldSrc_cycles p 3) (w - 1)
  else s

/-- A K-split group with a fenced station leaves its last columns to remnant passes (R84, R114). -/
def State.remnantGroup (s : State) (u : Run) (g : Nat) : Bool := u.k ≠ 0 && (u.kGroup g).any (fun h => s.logCols h = 120)

/-- Columns that the drain of a pass writes: without those that remnant passes compute, whole blocks in an MX format (R51,
R84). -/
def State.drainHi (s : State) (u : Run) (g : Nat) : Nat :=
  if s.remnantGroup u g then (if isMx u.h.fmtOut.toNat then 96 else 120) else 128

/-- The windows that a row of A needs against a tile, over the columns its station's array computes (R83, R100). -/
def State.rowWindows (s : State) (g : Nat) (u : Run) (t : TileAt) (leg : Nat) (vals : List Val) : Nat :=
  windowsIn u.fa ((List.range (s.logCols g)).map (fun col => products (t.column u leg col vals)))

/-! Passes and banks (R64, R65, R74, R107). -/

/-- Bit of the row mask (R171): row r of A, or of the station's share through the alias. -/
def State.maskBit (s : State) (p : Nat) (u : Run) (g pi r : Nat) : Bool :=
  if u.rcd.mask = 0 then true
  else
    let d := u.d 3
    let i := if s.isAlias p d then u.share g pi + r else u.mBlock g pi * 32 + r
    let n := max d.rowBytes 1
    bitOf (s.vbyte p g (d.rowVa (i / 8 / n) + i / 8 % n)).toNat (i % 8)

/-- The row mask a bank takes at a pass's first leg (R74, R170). -/
def State.rowMask (s : State) (p : Nat) (u : Run) (g pi : Nat) : BitVec 32 :=
  BitVec.ofNat 32 ((List.range 32).foldl (fun a r =>
    if u.mBlock g pi * 32 + r < u.m && s.maskBit p u g pi r then a + 2 ^ r else a) 0)

/-- The place of a station's tile among the product's output tiles (R468), as a descriptor row address. -/
def State.resumeVa (s : State) (p : Nat) (u : Run) (g pi : Nat) : Option Nat :=
  if u.rcd.resume = 0 then none
  else
    let x : Ctx := ⟨p, 0x10, u.h, u.w1.toNat, u.off, 0⟩
    let z := s.shape x u.rcd
    if z.owns g then (z.tiles.idxOf? (pi, g)).map (fun j => (u.d 4).rowVa j) else none

/-- A value of a running-sum tile as an entry of its own (R107). -/
def State.resumeEntry (s : State) (p g va r c : Nat) : Entry :=
  entryOf false (Acc.zero.add (frameUnit false) (fp32.decode (leNat (s.vbytes p g (tileVal va r c) 4))))

/-- Preload the unmasked rows of a bank from its running-sum tile (R107). -/
def State.preloadRows (s : State) (p g key va : Nat) : State :=
  let b := s.bank key
  (List.range 32).foldl (fun s r =>
    if b.fed r then (List.range 128).foldl (fun s c => s.setEntry (entryKey key r c) (s.resumeEntry p g va r c)) s else s) s

/-- Preload a bank; it carries the tile's EVICT_COUNT. -/
def State.preload (s : State) (p : Nat) (u : Run) (g pi va : Nat) : State :=
  let key := u.key g pi
  let s := s.setBank key { s.bank key with evict := leNat (s.vbytes p g va 4) }
  (s.count (Csr.stnRsum_resumes (g / 8) (g % 8)) 1).preloadRows p g key va

/-- The place, extent and mask of pass pi's tile at station g. -/
def State.passBank (s : State) (u : Run) (g pi : Nat) (mask : BitVec 32) : Bank :=
  { Bank.empty with
    st := .filling u.off, w32 := u.w32, mask := mask, row0 := u.mBlock g pi * 32, col0 := u.nb pi * 128, rows := u.rowsIn g pi,
    cols := min 128 (u.n - u.nb pi * 128), share := u.share g pi, seq := u.seq, pi := pi,
    sat := (s.car (g / 8)).staged.getD (g % 8) true, tile := u.firstUsed g }

/-- Start a pass at a station: the bank takes its mask and place, and is preloaded when the record names a running sum. -/
def State.openBank (s : State) (p : Nat) (u : Run) (g pi : Nat) (mask : BitVec 32) : State :=
  let s := s.setBank (u.key g pi) (s.passBank u g pi mask)
  match s.resumeVa p u g pi with
  | some va =>
    match s.poisonCheck p (tallyUnit g) u.off [(g, va, rsumBytes)] with
    | some s => s
    | none => s.preload p u g pi va
  | none => s

/-! Restarts (R81, R88, R114). -/

/-- The product that a bank's pass belongs to while it is in progress. -/
def BankSt.off : BankSt → Nat
  | .filling off | .merging off .. => off
  | _ => 0

/-- A bank whose pass is in progress. -/
def BankSt.inPass : BankSt → Bool
  | .filling _ | .merging .. => true
  | _ => false

/-- Every pass in progress in the caravan restarts from its first leg: what its banks hold is discarded, and the rerun runs under
a hold of source 4 of unknown length, whose end leaves the passes as far as they had come (log entry 20). -/
def State.restartCar (s : State) (p c : Nat) : State :=
  let going (k : Nat) : Bool := k / 336 = c && (s.bank k).st.inPass
  (({ s with tally := s.tally.filter (fun x => !going (x.1 / 4096)) }).updCar c (fun k => { k with restart := true })).hold p 4 none

/-- A replay under way in a caravan is abandoned at a fault mid-pass (R90): its hold of known length ends, unless another caravan of the
partition replays too. -/
def State.abandonReplay (s : State) (p c : Nat) : State :=
  let now (d : Nat) : Bool := (s.car d).replayAt = some (s.pace p)
  if now c && (s.caravans p).all (fun d => d = c || !now d) then
    (s.updPart p (fun x => { x with holds := x.holds.filter (fun h => h.src ≠ 4 || h.left.isNone) })).updCar c (fun k => { k with replayAt := none })
  else s.updCar c (fun k => { k with replayAt := none })

/-- Every pass in progress in a caravan restarts after a fault mid-pass, whatever replay runs (R88, R90). -/
def State.failCar (s : State) (p c : Nat) : State := (s.restartCar p c).abandonReplay p c

/-- A fault mid-pass in a bank (R88): the bank is poisoned. -/
def State.midPass (s : State) (p key : Nat) : State :=
  (s.setBank key { s.bank key with poisoned := true }).failCar p (key / 336)

/-- What one pass brings to an entry: tile by tile in order, each as one add (R65, R79, R123). -/
def State.passEntry (s : State) (p : Nat) (u : Run) (g : Nat) (sat : Bool) (pi r c : Nat) (tiles : List Nat) (init : Entry) :
    Entry :=
  tiles.foldl (fun e j =>
    let t := s.readTile p u g (pi / 2) j
    e.addAll u.w32 (products (t.column u (pi % 2) c ((s.aRow p u g sat pi r j).map (·.1))))) init

/-- Rerun the pass of a bank up to where it had come (R88): bit-identical, and no longer poisoned. Rows of A are broadcast again,
and their conversions count again (R38). -/
def State.rerunBank (s : State) (p c key : Nat) : State :=
  let b := s.bank key
  let g := key / 42
  match (s.car c).runs.find? (fun u => u.seq = b.seq && (match b.st with
      | .filling off | .merging off _ _ => off = u.off
      | _ => false)) with
  | none => s
  | some u =>
    let va := s.resumeVa p u g b.pi
    let before := (u.tilesOf g).filter (fun j => decide (j < b.tile))
    let s := s.setBank key { b with poisoned := false }
    let s := match va with
      | some va => s.preloadRows p g key va
      | none => s
    (List.range 32).foldl (fun s r =>
      let js := before ++ (if r < b.done then [b.tile] else [])
      if b.fed r && !js.isEmpty then
        let s := (List.range (s.logCols g)).foldl (fun s col =>
          let k := entryKey key r col
          s.setEntry k (s.passEntry p u g b.sat b.pi r col js (if va.isSome then s.entry k else Entry.zero))) s
        js.foldl (fun s j =>
          let row := s.aRow p u g b.sat b.pi r j
          (s.inputOvf p c (g % 8) (row.filter (·.2)).length).sweepHeld p g
            (s.rowWindows g u (s.readTile p u g (b.pi / 2) j) (b.pi % 2) (row.map (·.1)))) s
      else s) s

/-- Tiles that run again when the passes of some banks restart: station that counts their conversions, pass pair, tile. A tile
circulates once for all stations, and is latched by each under LOCAL (R38, R81, R88). -/
def Run.rerunTiles (u : Run) (c : Nat) (bs : List (Nat × Bank)) : List (Nat × Nat × Nat) :=
  (bs.flatMap (fun (key, b) =>
    if u.isLocal then ((u.tilesOf (key / 42)).filter (fun j => decide (j ≤ b.tile))).map (fun j => (key / 42, b.pi / 2, j))
    else (List.range (b.tile + 1)).map (fun j => (c * 8 + u.inj, b.pi / 2, j)))).eraseDups

/-- Conversions of the tiles that circulate again count again (R38). -/
def State.rerunOvf (s : State) (p c : Nat) : State :=
  (s.car c).runs.foldl (fun s u =>
    let bs := s.banks.filter (fun (k, b) => k / 336 = c && b.st.inPass && b.seq = u.seq && b.st.off = u.off)
    s.forSeq p u.seq (fun s =>
      (u.rerunTiles c bs).foldl (fun s (g, pair, j) => s.inputOvf p c (g % 8) ((s.readTile p u g pair j).ovf u)) s)) s

/-! Rows into the tally (R65, R77 to R82). -/

/-- How a pace's events upset the add of one entry: the sum's error and the channel's. -/
def upsetAt (ev : List PaceEvent) (g bank r col : Nat) (replay : Bool) : Int × Nat :=
  (ev.findSome? (fun x => match x with
    | .upset c s b row q d e rp =>
      if c.val * 8 + s.val = g && b.val = bank && row.val = r && q.val = col && rp = replay then some (d, e.val) else none
    | _ => none)).getD (0, 0)

/-- Mismatching entries of a station, by column: counted, with the physical group of the last (R80, R91). -/
def State.mismatches (s : State) (g : Nat) (cols : List Nat) : State :=
  match cols.getLast? with
  | none => s
  | some col =>
    (s.count (Csr.stnCheck_mismatchCount (g / 8) (g % 8)) cols.length).setFld (Csr.stnCheck_lastGroup (g / 8) (g % 8))
      ((s.physGroup g (col / 8)).getD 0)

/-- A row reaches the tally: one add into each entry of the row (R79), which the residue check lets be written, or leaves pending
with its old value; the first leg of a pass overwrites (R65). A row whose stored state copies differ is a fault mid-pass (R78,
R88). -/
def State.tallyRow (s : State) (p g : Nat) (u : Run) (f : Fed) (ev : List PaceEvent) : State :=
  let key := u.key g f.pi
  if !(s.bank key).fed f.row then s
  else
    let fresh := f.tile.tile = u.firstUsed g && (s.resumeVa p u g f.pi).isNone
    let (s, bad, differ) := (List.range (s.logCols g)).foldl (fun (s, bad, differ) col =>
      let k := entryKey key f.row col
      let old := s.entry k
      if !fresh && old.st ≠ old.st2 then (s, bad, true)
      else
        let (delta, err) := upsetAt ev g (f.pi % 2) f.row col false
        match (if fresh then Entry.zero else old).checkedAdd u.w32 (f.terms.getD col []) (f.chan.getD col 0) delta err with
        | some e => (s.setEntry k e, bad, differ)
        | none => (s.setEntry k { old with pend := true }, bad ++ [col], differ)) (s, ([] : List Nat), false)
    let s := (s.mismatches g bad).sweep p g (windowsIn u.fa (f.terms.take (s.logCols g)))
    if differ then s.midPass p key else s

/-- Entries of a bank that are pending (R79). -/
def State.pendings (s : State) (key : Nat) : List (Nat × Nat) :=
  (List.range 32).flatMap (fun r => ((List.range 128).filter (fun c => (s.entry (entryKey key r c)).pend)).map (fun c => (r, c)))

/-- The tile of a leg as station i's landing buffer holds it: the active slot, or the previous one when the leg's visit is over
(R69, R80). -/
def Car.kept (k : Car) (i : Nat) (t : TileAt) : TileAt :=
  let is (x : TileAt) : Bool := x.seq = t.seq && x.run = t.run && x.pair = t.pair && x.tile = t.tile
  (((k.tiles.getD i none).filter is).orElse (fun _ => (k.previous.getD i none).filter is)).getD t

/-- The replay of a leg (R80): its rows are broadcast again against the tile the landing buffer keeps, and the pending entries take
the add, under the same checks. Answers the columns that mismatch again, and whether the copies of an entry's state differ
(R78). -/
def State.replayLeg (s : State) (p g : Nat) (u : Run) (f : Fed) (ev : List PaceEvent) : State × List Nat × Bool :=
  let key := u.key g f.pi
  let b := s.bank key
  let fresh := f.tile.tile = u.firstUsed g && (s.resumeVa p u g f.pi).isNone
  let t := (s.car (g / 8)).kept (g % 8) f.tile
  let ps := s.pendings key
  (List.range 32).foldl (fun (s, again, differ) r =>
    if !b.fed r then (s, again, differ)
    else
      let row := s.aRow p u g b.sat f.pi r t.tile
      let s := (s.inputOvf p (g / 8) (g % 8) (row.filter (·.2)).length).sweep p g (s.rowWindows g u t (f.pi % 2) (row.map (·.1)))
      (ps.filter (·.1 = r)).foldl (fun (s, again, differ) (_, col) =>
        let k := entryKey key r col
        let xs := t.column u (f.pi % 2) col (row.map (·.1))
        let (delta, err) := upsetAt ev g (f.pi % 2) r col true
        let old := s.entry k
        if !fresh && old.st ≠ old.st2 then (s, again, true)
        else
          match (if fresh then Entry.zero else old).checkedAdd u.w32 (products xs) (channel u.w32 xs) delta err with
          | some e => (s.setEntry k e, again, differ)
          | none => (s, again ++ [col], differ)) (s, again, differ)) (s, ([] : List Nat), false)

/-- The end of a leg with pending entries (R80, R81): a replay under a hold of source 4, and every column group that mismatches a
second time in the output tile leaves its fence pending for the next visit boundary. R80 adds "the hold wave" to the 64 paces and R128
bounds it: the whole bound is added (DESIGN CHOICE, log entry 40). -/
def State.endLeg (s : State) (p g : Nat) (u : Run) (f : Fed) (ev : List PaceEvent) : State :=
  let key := u.key g f.pi
  match s.pendings key with
  | [] => s
  | (row, c0) :: ps =>
    let b := s.bank key
    let groups (cols : List Nat) : List Nat := (cols.filterMap (fun c => s.physGroup g (c / 8))).eraseDups
    let gs := groups (c0 :: ps.map (·.2))
    let (s, again, differ) := s.replayLeg p g u f ev
    let hits := (gs.filter b.mism.contains ++ groups again).eraseDups
    let s := (s.mismatches g again).count (Csr.stnCheck_legReplays (g / 8) (g % 8)) 1
    let s := s.hold p 4 (some (64 + s.wave p))
    let s := s.setBank key { s.bank key with mism := (b.mism ++ gs).eraseDups }
    let words := hits.map (fun x =>
      (g, x + f.pi % 2 * 2 ^ 4 + row * 2 ^ 8 + f.tile.tile % 2 ^ 32 * 2 ^ 16, f.tile.seq, f.tile.run))
    let s := s.updCar (g / 8) (fun c => { c with fencePend := c.fencePend ++ words, replayAt := some (s.pace p) })
    if differ then s.midPass p key else s

/-! The end of a pass (R66, R112, R172). -/

/-- A product's output tile has been drained or is ready: its command completes at the latest of these paces (R167). -/
def State.tileDone (s : State) (p : Nat) (off done : Nat) : State :=
  s.updExec p (fun e => { e with cmds := e.cmds.map (fun c =>
    if c.off = off && c.op = 0x10 then
      let c := { c with prog := max c.prog done, left := c.left - 1 }
      if c.left = 0 then { c with done := some c.prog } else c
    else c) })

/-- Drain or hold the finished tile of station g, whose last tally write falls at order pace `last` (R66, R172). -/
def State.finishTile (s : State) (p : Nat) (u : Run) (g pi last : Nat) : State :=
  match s.exec? p with
  | none => s
  | some e =>
    let key := u.key g pi
    let x : Ctx := ⟨p, 0x10, u.h, u.w1.toNat, u.off, e.hdr⟩
    if x.pDst = 0 then
      let s := s.setBank key { s.bank key with st := .held (e.base + last + 1) }
      s.tileDone p u.off (last + 1)
    else
      let s := s.fetchVecs p [g] [u.optD 5 u.rcd.rsc, u.optD 6 u.rcd.csc]
      let s := s.drainTile p g key (s.drainHi u g) (e.sink u.h 0 x.pDst) (u.d 2) (u.optD 5 u.rcd.rsc) (u.optD 6 u.rcd.csc)
      let until_ := last + e.lat 3 + (if isMx u.h.fmtOut.toNat then e.lat 0x15 else 0)
      let s := (s.useClass p 3 (tallyUnit g)).excess p 3
      let s := if isMx u.h.fmtOut.toNat then (s.useClass p 0x15 (tallyUnit g)).excess p 0x15 else s
      let s := s.setBank key { s.bank key with st := .draining u.off (e.base + until_) }
      s.tileDone p u.off until_

/-- Whether every station of the group that uses a tile has finished its part of pass pi. -/
def State.groupDone (s : State) (u : Run) (g pi : Nat) : Bool :=
  (u.kGroup g).all (fun h => u.tiles ≤ u.off8 h % u.s ||
    (match (s.bank (u.key h pi)).st with
     | .merging off 0 _ => off = u.off
     | _ => false))

/-- Start the merge of a group (R113): 96 paces a row and a hop's latency a hop, from the last tally write. The banks of a paired pass
each merge from their own last tally write, also where both use the same stretch of the reverse lane (DESIGN CHOICE, log entry
33). -/
def State.startMerge (s : State) (p : Nat) (u : Run) (g pi last : Nat) : State :=
  match s.exec? p with
  | none => s
  | some e =>
    let fst := (u.kGroup g).headD g
    let rows := ((List.range 32).filter (fun r => (s.bank (u.key fst pi)).fed r)).length
    let until_ := e.base + last + 96 * rows + e.lat 4 * (u.s - 1)
    let s := (u.kGroup g).foldl (fun s h =>
      s.setBank (u.key h pi) { s.bank (u.key h pi) with st := .merging u.off until_ (u.f 24 12 ≠ 0) }) s
    (u.kGroup g).tail.foldl (fun s h =>
      (s.count (Csr.stnMerge_mergeRows (h / 8) (h % 8)) rows).useClass p 4 (tallyUnit h)) s

/-- Whether a row that a merge sends holds an entry whose state copies differ: each station compares them as it writes its sum
(R78, R112). -/
def State.copiesDiffer (s : State) (b : Bank) (keys : List Nat) : Bool :=
  (List.range 32).any (fun r => b.fed r && (List.range 128).any (fun c => keys.any (fun k =>
    (s.entry (entryKey k r c)).st ≠ (s.entry (entryKey k r c)).st2)))

/-- The banks of a group are poisoned, and every pass in progress in the caravan restarts (R88, R114). -/
def State.poisonGroup (s : State) (p c : Nat) (keys : List Nat) : State :=
  (keys.foldl (fun s k => s.setBank k { s.bank k with poisoned := true }) s).failCar p c

/-- Complete the merge of a group (R112): every bank's entries are added into the first station's, exactly, and the others are
released. Stations of the group whose own row masks differ, which only a mask in the own-satchel alias lets happen, are merged under
the first one's mask, which also gives MERGE_ROWS and the merge's time (DESIGN CHOICE, log entry 33). Copies of a state that
differ are a fault mid-pass, after whose restart the merge completes (R78, R88). -/
def State.completeMerge (s : State) (p : Nat) (u : Run) (g pi until_ : Nat) : State :=
  match s.exec? p with
  | none => s
  | some e =>
    let fst := (u.kGroup g).headD g
    let k0 := u.key fst pi
    let b := s.bank k0
    let rest := (u.kGroup g).tail.filter (fun h => u.off8 h % u.s < u.tiles)
    if s.copiesDiffer b (k0 :: rest.map (fun h => u.key h pi)) then s.poisonGroup p (g / 8) ((u.kGroup g).map (fun h => u.key h pi)) else
    let s := (List.range 32).foldl (fun s r =>
      if b.fed r then
        (List.range 128).foldl (fun s c =>
          let a := rest.foldl (fun (a : Acc) h => a.add (frameUnit u.w32) ((s.entry (entryKey (u.key h pi) r c)).val u.w32))
            (s.entry (entryKey k0 r c)).acc
          s.setEntry (entryKey k0 r c) (entryOf u.w32 a)) s
      else s) s
    let s := (u.kGroup g).tail.foldl (fun s h =>
      s.setBank (u.key h pi) { Bank.empty with st := if u.f 24 12 = 0 then .released else .free }) s
    (s.excess p 4).finishTile p u fst pi (until_ - e.base)

/-- The end of a station's last leg of a pass (R66, R112): its last tally write falls at order pace `last`. -/
def State.endPass (s : State) (p : Nat) (u : Run) (g pi last : Nat) : State :=
  if u.s = 1 then s.finishTile p u g pi last
  else
    let key := u.key g pi
    let s := s.setBank key { s.bank key with st := .merging u.off 0 (u.f 24 12 ≠ 0) }
    if s.groupDone u g pi then s.startMerge p u g pi last else s

/-- A row comes out of the array (R61): row 0 of a pass's first leg opens the bank, the row's adds are made, and after the leg's
last row come its replay and, with the pass's last tile, the end of the pass. A row that meets a fault mid-pass waits for the
restart, and a pass whose last leg leaves an entry pending ends after the restart that its fence brings (R81). -/
def State.rowOut (s : State) (p c : Nat) (ev : List PaceEvent) (f : Fed) : State :=
  match (s.car c).run f.tile, s.exec? p with
  | some u, some e =>
    let g := c * 8 + f.stn
    let (k, f) := Car.enterTo u 8 8 (s.car c) f
    let s := s.setCar c k
    let s := if f.row = 0 && f.tile.tile = u.firstUsed g then s.openBank p u g f.pi f.mask else s
    if s.stopped p then s
    else
      let key := u.key g f.pi
      let s := s.tallyRow p g u f ev
      if (s.car c).restart then s.updCar c (fun k => { k with pipe := f :: k.pipe })
      else
      let s := s.setBank key { s.bank key with tile := f.tile.tile, done := f.row + 1, last := f.due }
      if f.row ≠ 31 then s
      else
        let s := s.endLeg p g u f ev
        if f.tile.tile = u.lastUsed g && !(s.car c).restart && (s.pendings key).isEmpty then s.endPass p u g f.pi (f.due - e.base) else s
  | _, _ => s

/-- A pass whose last leg was in the tally when its caravan restarted ends now (R66, R81): its last tally write falls where it was
due. -/
def State.endRerun (s : State) (p c key : Nat) : State :=
  let b := s.bank key
  match b.st, (s.car c).runs.find? (fun u => u.seq = b.seq && u.off = b.st.off) with
  | .filling _, some u =>
    if b.tile = u.lastUsed (key / 42) && b.done = 32 then
      s.forSeq p b.seq (fun s => if s.stopped p then s else s.endPass p u (key / 42) b.pi (b.last - ((s.exec? p).map (·.base)).getD 0))
    else s
  | _, _ => s

/-- The restart of a caravan's passes is over (R81, R88): every bank is as far as it had come, and passes that were at their end
end. -/
def State.rerunCar (s : State) (p c : Nat) : State :=
  if (s.car c).restart then
    let keys := (s.banks.filter (fun x => x.1 / 336 = c && x.2.st.inPass)).map (·.1)
    let s := (keys.foldl (fun s k => s.forSeq p (s.bank k).seq (fun s => s.rerunBank p c k)) (s.rerunOvf p c)).updCar c (fun k => { k with restart := false })
    keys.foldl (fun s k => s.endRerun p c k) s
  else s

/-- Every row of caravan c that a test picks comes out, in the order fed, as long as no restart is pending. -/
def State.rowsOut (s : State) (p c : Nat) (ev : List PaceEvent) (sel : Fed → Bool) : State :=
  (State.together p (((s.car c).pipe.filter sel).map (fun f s =>
    if (s.car c).restart then s
    else
      (s.updCar c (fun k => { k with pipe := k.pipe.erase f })).forSeq p f.tile.seq (fun s =>
        if s.stopped p then s else s.rowOut p c ev f))) (s, s)).1

/-- A pace's upsets of stored state copies (R78, R94). -/
def State.upsetCopies (s : State) (p : Nat) (ev : List PaceEvent) : State :=
  ev.foldl (fun s x => match x with
    | .stateCopy c i b row col v =>
      if (s.caravans p).contains c.val then
        (((List.range 21).map (fun q => (c.val * 8 + i.val) * 42 + b.val * 21 + q)).filter (fun k => (s.bank k).st ≠ .free)).foldl
          (fun s k => s.setEntry (entryKey k row.val col.val) { s.entry (entryKey k row.val col.val) with st2 := stOf v.val }) s
      else s
    | _ => s) s

/-! Fences (R81, R86). -/

/-- Fences that take effect at a visit boundary: the passes restart on the remapped array (R81); a second group of a station that
already has a fenced one is a fault of the command whose leg failed, and the station is fenced whole (R86). -/
def State.takeFences (s : State) (p c : Nat) : State :=
  let fs := (s.car c).fencePend
  let s := s.updCar c (fun x => { x with fencePend := [] })
  fs.foldl (fun s (g, w3, seq, off) =>
    let grp := w3 % 16
    let f := s.fld (Csr.stnFence_fencedGroups c (g % 8))
    if f = 0 then ((s.fence (arrayUnit g) grp).count (Csr.stnCheck_tileReplays c (g % 8)) 1).restartCar p c
    else if bitOf f grp then s
    else (s.forSeq p seq (fun s => s.raise p (arrayUnit g) 0x21 off w3)).fenceStation g) s

end Sys2Proof.Machine
end

