-- ==== Sys2Proof/Machine/Route.lean ====
section
/-!
DEFINITION. The caravan route (R57, R62 to R70, R76, R210, R470): tiles visit by visit, the landing buffers, the staging of A into
satchel banks, the paces of the arrays, and PRODUCT at issue (R159, R170, R172).
-/
namespace Sys2Proof.Machine

/-! Visits. -/

/-- The visit length of a tile's product (R63). -/
def Run.visitLen (u : Run) (pair : Nat) : Nat := max (32 * u.legs pair) (cdiv u.bytes 512)

/-- Legs and length of a visit with these tiles on the route (R63, R70): the largest of each. A visit on which some tile has two
legs counts as one of two legs (DESIGN CHOICE, log entry 40: R91 does not say). -/
def Car.visit (c : Car) : Nat × Nat :=
  (c.tiles.filterMap id).foldl (fun (l, v) t =>
    match c.run t with
    | some u => (max l (u.legs t.pair), max v (u.visitLen t.pair))
    | none => (l, v)) (0, 0)

/-- Tiles after the hop to the next station (R68): a tile leaves after station i − 1, and after its one visit at station
scope or from the satchels. -/
def Car.shift (c : Car) : List (Option TileAt) :=
  (List.range 8).map (fun i =>
    match c.tiles.getD ((i + 7) % 8) none with
    | none => none
    | some t =>
      match c.run t with
      | none => none
      | some u => if u.isLocal || u.single || u.inj = i then none else some t)

/-! Injection (R68, R70, R113). -/

/-- A product may start on a caravan's stations: nothing but products before it occupies its units (R159). -/
def State.mayStart (s : State) (p : Nat) (e : Exec) (off : Nat) (stns : List Nat) : Bool :=
  (s.earlier p e ++ e.cmds.takeWhile (fun c => c.off ≠ off)).all (fun c =>
    c.op = 0x10 || stns.all (fun g => !c.units.contains (tallyUnit g)))

/-- The next tile to enter the route, when R70 lets it: the route is empty, or only tiles of the same product or of products with
the same injection station are on it and no dependence mark stands before it. A mark in force keeps the drover from fetching it
(R166). A bank that merges does not fill, so a pass pair of a K split waits for the merges of the pair before it, and a product for
those of the products before it (R113, log entry 33). -/
def State.nextTile (s : State) (p c : Nat) (tiles : List (Option TileAt)) : Option Run :=
  let k := s.car c
  match k.runs.find? (fun u => u.pair < u.pairs && 0 < u.tiles) with
  | none => none
  | some u =>
    let on := (tiles.filterMap id).filterMap (fun t => (k.run t).map (fun v => (t, v)))
    let same (v : Run) : Bool := v.seq = u.seq && v.off = u.off
    let fits := on.all (fun (_, v) => same v || (v.inj = u.inj && !u.mark && !u.isLocal && !v.isLocal))
    let free (g : Nat) (b : Nat) : Bool := (blockers g b u.w32 u.slot).all (fun (key, _, _) =>
      match (s.bank key).st with
      | .merging .. => false
      | .filling off => u.s = 1 || off ≠ u.off
      | _ => true)
    let clear := u.tile ≠ 0 ||
      ((k.runs.takeWhile (fun v => !same v)).all (fun v => v.ended || v.s = 1) && (u.s = 1 || on.all (fun (t, v) => !same v || t.pair = u.pair)) &&
       (List.range (u.legs u.pair)).all (fun l => u.stns.all (fun g => free g l)))
    let ready := ((s.exec? p).map (fun e => e.seq ≠ u.seq || (s.mayStart p e u.off u.stns && s.mayFetch p c e u.off))).getD false
    if fits && clear && ready then some u else none

/-- Advance a run past the tile it has injected: the next tile of the pair, or the next pair. A K split from the satchels
moves on by s tiles at a time, one for each station of a group. -/
def Run.advance (u : Run) : Run :=
  let step := if u.isLocal then u.s else 1
  if u.tile + step < u.tiles then { u with tile := u.tile + step } else { u with pair := u.pair + 1, tile := 0 }

/-- The bytes of elements `c` to `c + n − 1` of row j, and of their scales, as ranges. -/
def elemRange (d : Desc) (code g j c n : Nat) : List (Nat × Nat × Nat) :=
  if isMx code then
    [(g, d.rowVa j + c / 32 * blockBytes code, cdiv n 32 * blockBytes code),
     (g, d.sbase + j * (d.rowBytes / blockBytes code) + c / 32, cdiv n 32)]
  else [(g, d.rowVa j + c * (elemBits code / 8), n * (elemBits code / 8))]

/-- What station g reads of A, the mask and the scale vectors in pass pi (R170, R171, R104). -/
def State.aReads (s : State) (p : Nat) (u : Run) (g pi : Nat) : List (Nat × Nat × Nat) :=
  let d := u.d 0
  let al := s.isAlias p d
  let row0 := u.mBlock g pi * 32
  let share := u.share g pi
  let n := u.rowsIn g pi
  let kn := if al then u.kOf g else u.k
  let vec (i idx : Nat) (k0 len : Nat) : List (Nat × Nat × Nat) :=
    if idx = 0 then []
    else
      let v := u.d i
      let w := max (v.rowBytes / 4) 1
      (List.range len).map (fun j => (g, v.rowVa ((k0 + j) / w) + (k0 + j) % w * 4, 4))
  (if d.layout = 1 then
     (List.range kn).flatMap (fun kk => elemRange d u.fa g (if al then u.rank g pi * kn + kk else kk) (if al then 0 else row0) n)
   else (List.range n).flatMap (fun r => elemRange d u.fa g (if al then share + r else row0 + r) 0 kn)) ++
  (if u.rcd.mask = 0 then []
   else
     let m := u.d 3
     let w := max m.rowBytes 1
     let i0 := if s.isAlias p m then share else row0
     (List.range n).map (fun r => (g, m.rowVa ((i0 + r) / 8 / w) + (i0 + r) / 8 % w, 1))) ++
  vec 5 u.rcd.rsc (if s.isAlias p (u.d 5) then share else row0) n ++
  vec 6 u.rcd.csc (if s.isAlias p (u.d 6) then 0 else u.nb pi * 128) (min 128 (u.n - u.nb pi * 128))

/-- What is read of columns lo to hi − 1 of B for a tile of pass pi. -/
def Run.bCols (u : Run) (g pi tile lo hi : Nat) : List (Nat × Nat × Nat) :=
  let d := u.d 1
  let cols := min hi (u.n - u.nb pi * 128) - lo
  let c0 := (if u.isLocal then pi / u.mPasses * 128 else u.nb pi * 128) + lo
  let k0 := if u.isLocal && 1 < u.s then tile / u.s * u.tk else tile * u.tk
  let ks := (u.kRows tile).length
  if cols = 0 then []
  else if isMx u.fb || u.tr then (List.range cols).flatMap (fun c => elemRange d u.fb g (c0 + c) k0 ks)
  else (List.range ks).flatMap (fun k => elemRange d u.fb g (k0 + k) c0 cols)

/-- What is read of B for a tile of pass pi. -/
def Run.bReads (u : Run) (g pi tile : Nat) : List (Nat × Nat × Nat) := u.bCols g pi tile 0 128

/-- What is read of B for a tile of a pass pair. -/
def Run.tileReads (u : Run) (g pair tile : Nat) : List (Nat × Nat × Nat) :=
  ((List.range (u.legs pair)).flatMap (fun l => u.bReads g (2 * pair + l) tile)).eraseDups

/-- A poisoned operand of a tile is fault 0x71 (R376). -/
def State.bPoison (s : State) (p : Nat) (u : Run) (g pair tile : Nat) : State :=
  if s.poison.isEmpty then s else (s.poisonCheck p (arrayUnit g) u.off (u.tileReads g pair tile)).getD s

/-- A tile in a station's landing buffer: the one that came in ahead, or read now (R68). -/
def State.tileFor (s : State) (p c : Nat) (u : Run) : TileAt :=
  match (s.car c).incoming.getD u.inj none with
  | some t =>
    if t.seq = u.seq && t.run = u.off && t.pair = u.pair && t.tile = u.tile then t
    else s.readTile p u (c * 8 + u.inj) u.pair u.tile
  | none => s.readTile p u (c * 8 + u.inj) u.pair u.tile

/-! The drover's reads for commands themselves (R210, R215, R216, R223, R238; log entry 36). -/

/-- A drover's reads go out. -/
def State.openReads (s : State) (p c seq off stn : Nat) (rows : List (Nat × Nat)) : State :=
  let x : Fetch := ⟨(s.car c).nextX, p, seq, off, stn, rows, [], false⟩
  if x.pieces = 0 then s
  else (s.updCar c (fun k => { k with reads := k.reads ++ [x], nextX := k.nextX + x.pieces })).drvStatus c

/-- Reads that a test picks have all come: they count as completed transfers. -/
def State.closeReads (s : State) (c : Nat) (sel : Fetch → Bool) : State :=
  let n := (((s.car c).reads.filter sel).map Fetch.left).sum
  ((s.updCar c (fun k => { k with reads := k.reads.filter (fun x => !sel x) })).count (Csr.drvXfer_transfers c) n).drvStatus c

/-- The rows of a tile of B as the drover reads them. -/
def State.tileRows (s : State) (p c : Nat) (u : Run) (pair tile : Nat) : List (Nat × Nat × Nat) :=
  (u.tileReads (c * 8 + u.inj) pair tile).filter (fun (g, va, _) => (s.place p g va).isSome)

/-- The drover's transfers of a tile from the depot into a landing buffer start (R210, R215), over the mesh from another caravan's. -/
def State.fetchTile (s : State) (p c : Nat) (u : Run) (pair tile : Nat) : State :=
  let rs := s.tileRows p c u pair tile
  (s.fetchRows [c] (rs.filterMap (fun (g, va, n) => (s.place p g va).map (·, n)))).openReads p c u.seq u.off (c * 8 + u.inj)
    (rs.map (fun (_, va, n) => (va, n)))

/-- The reads of a product's tile, apart from those of its satchel fills. -/
def Car.tileReads (k : Car) (u : Run) (x : Fetch) : Bool :=
  x.seq = u.seq && x.off = u.off && !x.dropped && k.fills.all (fun y => y.pieces = 0 || y.fetch ≠ x.id)

/-- The tile that enters is in the landing buffer: its reads are over, those of one that came in no visit ahead at once. -/
def State.tileCame (s : State) (p c : Nat) (u : Run) (t : TileAt) : State :=
  let s := if (s.car c).incoming.getD u.inj none = some t then s else s.fetchTile p c u t.pair t.tile
  s.closeReads c ((s.car c).tileReads u)

/-- Put a tile on the route: at the injection station, or for local tiles at every station that latches one. Its conversions that
overflow count there (R38), and a poisoned operand is met there. -/
def State.inject (s : State) (p c : Nat) (tiles : List (Option TileAt)) : State × List (Option TileAt) :=
  match s.nextTile p c tiles with
  | none => (s, tiles)
  | some u =>
    let t := s.tileFor p c u
    let s := s.updCar c (fun k => { k with runs := k.runs.map (fun v =>
      if v.seq = u.seq && v.off = u.off then v.advance else v) })
    if u.isLocal then
      let put := (List.range 8).map (fun i =>
        let g := c * 8 + i
        let j := if u.s = 1 then u.tile else u.tile + u.off8 g % u.s
        if u.stns.contains g && j < u.tiles then some (s.readTile p u g u.pair j) else none)
      let s := u.stns.foldl (fun s g =>
        match put.getD (g % 8) none with
        | some t => (s.bPoison p u g t.pair t.tile).inputOvf p c (g % 8) (t.ovf u)
        | none => s) s
      (s, put)
    else (((s.bPoison p u (c * 8 + u.inj) t.pair t.tile).tileCame p c u t).inputOvf p c u.inj (t.ovf u),
      tiles.set u.inj (some t))

/-! Staging of A (R76, R210, R211, R470). -/

/-- Whether the drover stages A for a run's pass pair at station g: A lies in the depot, and the station has a pass of the pair. -/
def State.stages (s : State) (p : Nat) (u : Run) (g pair : Nat) : Bool :=
  u.stns.contains g && !s.isAlias p (u.d 0) && (List.range (u.legs pair)).any (fun l => u.exists_ g (2 * pair + l))

/-- The rows of A, and their block scales, that the drover copies for a pass pair: bank offset, address, length. -/
def Run.stageRows (u : Run) (g pair : Nat) : List (Nat × Nat × Nat) :=
  let d := u.d 0
  (List.range (u.legs pair)).flatMap (fun l =>
    let pi := 2 * pair + l
    let row0 := u.mBlock g pi * 32
    let n := u.rowsIn g pi
    let es := elemBits u.fa / 8
    if n = 0 then []
    else if d.layout = 1 then (List.range u.k).map (fun kk => (u.stageRow pi kk, d.rowVa kk + row0 * es, n * es))
    else
      (List.range n).map (fun r => (u.stageRow pi r, d.rowVa (row0 + r), rowBytesOf u.fa u.k)) ++
      (if isMx u.fa then (List.range n).map (fun r =>
        (u.stageScale pi r, d.sbase + (row0 + r) * (d.rowBytes / blockBytes u.fa), cdiv u.k 32)) else []))

/-- The drover's fill of station g's idle bank for a pass pair: the bank other than the one staged last. A bank of 8 MiB holds what
fits (log entry 36). -/
def State.fillFor (s : State) (p : Nat) (u : Run) (g pair : Nat) : Fill :=
  let rows := (u.stageRows g pair).filter (fun (o, _, n) => o + n ≤ 8 * mib)
  { stn := g % 8, seq := u.seq, run := u.off, pair := pair, bank := !((s.car (g / 8)).staged.getD (g % 8) true),
    bytes := rows.map (fun (o, va, n) => (o, s.vbytes p g va n)), pieces := (rows.map (fun (_, va, n) => piecesOf va n)).sum,
    fetch := (s.car (g / 8)).nextX }

/-- The caravan whose drover fetches the rows of A of a product: the lowest of its group (R238). -/
def Run.fetcher (u : Run) (c : Nat) : Nat := u.group.headD c

/-- The drover starts to fill a station's idle bank. A product that spans caravans needs the same rows of A in each of them, so the
lowest caravan's drover alone fetches them, for all (R238). -/
def State.beginFill (s : State) (p : Nat) (u : Run) (g pair : Nat) : State × Fill :=
  let x := s.fillFor p u g pair
  let c := g / 8
  if u.fetcher c = c then
    ((s.fetchRows u.group ((u.stageRows g pair).filterMap (fun (_, va, n) => (s.place p g va).map (·, n)))).openReads p c u.seq u.off g
      (((u.stageRows g pair).filter (fun (o, _, n) => o + n ≤ 8 * mib)).map (·.2)), x)
  else (s, { x with pieces := 0 })

def Fill.is (x : Fill) (i : Nat) (t : TileAt) : Bool := x.stn = i && x.seq = t.seq && x.run = t.run && x.pair = t.pair

/-- A fill under way or done for a tile's pass pair at station i. -/
def Car.fill (k : Car) (i : Nat) (t : TileAt) : Option Fill := k.fills.find? (fun x => x.is i t)

/-- A fill lands: the idle bank holds the rows, and feeds from now on. -/
def State.landFill (s : State) (c : Nat) (x : Fill) : State :=
  let s := x.bytes.foldl (fun s (o, bs) => s.setBytes (satBank (c * 8 + x.stn) x.bank + o) bs) s
  (s.updCar c (fun k => { k with
    fills := k.fills.filter (fun y => y != x)
    staged := ((List.range 8).map (fun i => k.staged.getD i true)).set x.stn x.bank })).closeReads c
      (fun y => x.pieces ≠ 0 && y.id = x.fetch && !y.dropped)

/-- The staged pass pair that station i begins with these tiles: it must change its satchel bank at the boundary (R76). -/
def State.mustChange (s : State) (p c : Nat) (tiles : List (Option TileAt)) (i : Nat) : Option (Run × TileAt) :=
  (tiles.getD i none).bind (fun t => ((s.car c).run t).bind (fun u =>
    if t.tile = u.firstUsed (c * 8 + i) && s.stages p u (c * 8 + i) t.pair then some (u, t) else none))

/-- Stations that begin a staged pass pair with their new tile change their satchel bank at the boundary (R76, R470). -/
def State.changeBanks (s : State) (p c : Nat) (tiles : List (Option TileAt)) : State :=
  (List.range 8).foldl (fun s i =>
    match s.mustChange p c tiles i with
    | none => s
    | some (u, t) =>
      match (s.car c).fill i t with
      | some x => s.landFill c x
      | none =>
        let (s, x) := s.beginFill p u (c * 8 + i) t.pair
        if s.stopped p then s else s.landFill c x) s

/-- Pass pairs that stations begin at the next boundary, as the route will move. -/
def Car.beginNext (k : Car) (c : Nat) : List (Nat × Run × Nat) :=
  let routed := (List.range 8).filterMap (fun i =>
    match k.incoming.getD i none with
    | none => none
    | some t => (k.run t).bind (fun u => if t.tile = u.firstUsed (c * 8 + i) then some (c * 8 + i, u, t.pair) else none))
  match k.runs.find? (fun u => u.pair < u.pairs && 0 < u.tiles) with
  | some u => if u.isLocal && u.tile = 0 && 0 < u.pair then u.stns.map (fun g => (g, u, u.pair)) else routed
  | none => routed

/-- The drover starts to fill the idle banks of the stations that need them at the next boundary: one visit before, and so in route
order (R76). -/
def State.startFills (s : State) (p c : Nat) : State :=
  ((s.car c).beginNext c).foldl (fun s (g, u, pair) =>
    if s.stages p u g pair then
      let (s, x) := s.beginFill p u g pair
      if s.stopped p then s else s.updCar c (fun k => { k with fills := k.fills ++ [x] })
    else s) s

/-- What comes into the landing buffers during a visit (R68, R69): the tile of the station before, and at the injection station the
product's next tile, which the drover reads from the depot. -/
def State.incomingOf (s : State) (p c : Nat) : List (Option TileAt) :=
  let k := s.car c
  let hop := k.shift
  match k.runs.find? (fun u => u.pair < u.pairs && 0 < u.tiles && (0 < u.pair || 0 < u.tile)) with
  | some u => if u.isLocal then hop else hop.set u.inj (some (s.readTile p u (c * 8 + u.inj) u.pair u.tile))
  | none => hop

/-- The drover begins to read the product's next tile (R210). -/
def State.startTile (s : State) (p c : Nat) : State :=
  match (s.car c).runs.find? (fun u => u.pair < u.pairs && 0 < u.tiles && (0 < u.pair || 0 < u.tile)) with
  | some u => if u.isLocal || (s.car c).reads.any ((s.car c).tileReads u) then s else s.fetchTile p c u u.pair u.tile
  | none => s

/-- The tiles that stations latch into their shadow registers: those they use (R68, R111). -/
def Car.latched (k : Car) (c : Nat) (tiles : List (Option TileAt)) : List (Option TileAt) :=
  (List.range 8).map (fun i =>
    match tiles.getD i none with
    | none => k.shadow.getD i none
    | some t =>
      match k.run t with
      | some u => if u.uses (c * 8 + i) t.tile && u.stns.contains (c * 8 + i) then some t else k.shadow.getD i none
      | none => k.shadow.getD i none)

/-- Whether any tile of a run is on the route. -/
def Run.onRoute (u : Run) (tiles : List (Option TileAt)) : Bool := tiles.any (fun t => (t.map (fun t => t.seq = u.seq && t.run = u.off)).getD false)

/-- The tiles move on at pace `now`: the landing buffers keep those that left for one visit (R69), also when the route has become empty;
a product that has completed is forgotten with its last tile (R68). -/
def Car.moveOn (k : Car) (c : Nat) (tiles : List (Option TileAt)) (now : Nat) : Car :=
  let k := { k with
    previous := if k.vLen ≠ 0 then k.tiles else if now < k.prevEnd then k.previous else noTiles
    prevEnd := if k.vLen ≠ 0 then now + k.vLen else k.prevEnd
    shadow := k.latched c tiles, tiles := tiles, runs := k.runs.filter (fun u => !u.ended || u.onRoute tiles) }
  { k with vStart := now, vLen := k.visit.2, vLegs := k.visit.1 }

/-- A visit boundary of a caravan (R62, R69, R70, R76, R81): the ended visit is counted, fences take effect, tiles move on and the
landing buffer keeps those that left, the next tile enters, stations change their satchel banks, and the fills for the next
boundary start. -/
def State.boundary (s : State) (p c : Nat) : State :=
  let k := s.car c
  let s := if k.vLen = 0 then s
    else
      let s := s.count (Csr.carVisit_visits c) 1
      if k.vLegs = 1 then s.count (Csr.carVisit_singleLegVisits c) 1 else s
  let s := s.takeFences p c
  let (s, tiles) := s.inject p c k.shift
  if s.stopped p then s
  else
    let s := s.changeBanks p c tiles
    if s.stopped p then s
    else
      let s := s.updCar c (fun k => (k.moveOn c tiles (s.pace p)))
      ((s.updCar c (fun k => { k with incoming := s.incomingOf p c })).startTile p c).startFills p c

/-! The pace of a station. -/

/-- The row mask of a pass in progress: its bank's, or that of a row still on its way to it (R74). -/
def State.maskOf (s : State) (g : Nat) (u : Run) (pi : Nat) : BitVec 32 :=
  match (s.car (g / 8)).pipe.find? (fun f => f.stn = g % 8 && f.tile.seq = u.seq && f.tile.run = u.off && f.pi = pi) with
  | some f => f.mask
  | none => (s.bank (u.key g pi)).mask

/-- A station feeds the row of its leg to row group 0 (R60 to R62): a masked row is gated (R75). The row completes its satchel read
(R141, log entry 33), and reaches the tally when the skew and the pipeline that the schedule counts have passed (R61, R126). -/
def State.feedRow (s : State) (p c i : Nat) : State :=
  let k := s.car c
  match k.tiles.getD i none, s.exec? p with
  | some t, some e =>
    match k.run t with
    | none => s
    | some u =>
      let g := c * 8 + i
      let at_ := s.pace p - k.vStart
      let r := at_ % 32
      let pi := 2 * t.pair + at_ / 32
      if u.legs t.pair ≤ at_ / 32 || !u.uses g t.tile || !u.stns.contains g || !u.exists_ g pi then s
      else
        let first := r = 0 && t.tile = u.firstUsed g
        let s := if first && !s.poison.isEmpty then (s.poisonCheck p (arrayUnit g) u.off (s.aReads p u g pi)).getD s else s
        if s.stopped p then s
        else
          let mask := if first then s.rowMask p u g pi else s.maskOf g u pi
          let fed := mask.getLsbD r
          let row := if fed then s.aRow p u g (k.staged.getD i true) pi r t.tile else []
          let s := s.inputOvf p c i (row.filter (·.2)).length
          let s := if fed then [0x20, 1, 2].foldl (fun s cls => s.useClass p cls (arrayUnit g)) s else s
          let s := if fed then s.excess p 0x20 else s
          let f : Fed :=
            { stn := i, at_ := s.pace p, due := s.pace p + e.lat 1 + e.lat 2, pi := pi, tile := t, row := r, mask := mask,
              vals := row.map (·.1), into := 0, terms := [], chan := [] }
          let s := s.updCar c (fun k => { k with pipe := k.pipe ++ [f] })
          if r = 31 then (s.excess p 1).excess p 2 else s
  | _, _ => s

/-- Whether a pace begins a visit. -/
def Car.atBoundary (k : Car) (now : Nat) : Bool := k.vLen = 0 || k.vStart + k.vLen ≤ now

/-- One pace of a caravan's route: at a boundary the tiles move; every station feeds a row, rows on their way enter the next row
group, and those whose time has come reach the tally. -/
def State.caravanPace (s : State) (p c : Nat) (ev : List PaceEvent) : State :=
  let k := s.car c
  let s := if k.atBoundary (s.pace p) then s.boundary p c else s
  let s := (State.together p ((List.range 8).map (fun i s =>
    match (s.car c).tiles.getD i none with
    | some t => s.forSeq p t.seq (fun s => if s.stopped p then s else s.feedRow p c i)
    | none => s)) (s, s)).1
  let s := s.updCar c (fun k => (List.range 8).foldl (fun k i => k.advance i (s.pace p)) k)
  s.rowsOut p c ev (fun f => f.due ≤ s.pace p)

/-- Drains whose time has passed free their banks (R66). -/
def State.dueDrains (s : State) (p c : Nat) : State :=
  { s with banks := Map.mapCanon (fun _ => Bank.empty)
             (fun k b => if k / 336 = c then
                 (match b.st with
                  | .draining _ n => if n ≤ s.pace p then Bank.empty else b
                  | _ => b)
               else b) s.banks }

/-! PRODUCT at issue. -/

/-- A product without K-rows (R170): each tile is zero or preloaded, then drained or held. -/
def State.zeroTiles (s : State) (p : Nat) (u : Run) : State :=
  u.stns.foldl (fun s g => (List.range u.passes).foldl (fun s pi =>
    if u.exists_ g pi && u.owns g then
      let s := s.openBank p u g pi (s.rowMask p u g pi)
      let key := u.key g pi
      let b := s.bank key
      if s.stopped p then s
      else
      let s := if (s.resumeVa p u g pi).isSome then s
        else (List.range 32).foldl (fun s r => if b.fed r then
          (List.range 128).foldl (fun s c => s.setEntry (entryKey key r c) Entry.zero) s else s) s
      s.finishTile p u g pi (s.orderPace p)
    else s) s) s

/-- The runs a product starts, one for each caravan with a share (R15). A dependence mark of the product, or one met since the
caravan's last product, breaks the route before it (R70, R166). -/
def State.productRuns (s : State) (x : Ctx) (e : Exec) : List (Nat × Run) :=
  let rb := s.record x.p x.hdr x.pRec
  let r := parseRec rb
  let z := s.shape x r
  let ds := [x.pA, x.pB, x.pDst, r.mask, r.resume, r.rsc, r.csc].map (s.descBytes x)
  let shares := (z.cars.zipIdx).filter (fun (_, i) => !(z.blocks i).isEmpty)
  shares.map (fun (c, i) =>
    let since := (((s.car c).runs.filter (fun u => u.seq = e.seq)).getLast?.map (·.off)).getD 0
    (c,
      { seq := e.seq, off := x.off, h := x.h, w1 := BitVec.ofNat 64 x.w1, m := r.m, n := r.n, k := r.k, record := rb,
        descs := ds, stns := z.stns c, group := shares.map (·.1), blocks := z.blocks i, mPasses := z.mPasses,
        tiles := cdiv r.k (tileK x.h.fmtA.toNat), bytes := routeBytes x.h.fmtB.toNat, pair := 0, tile := 0, ended := false,
        mark := x.h.dep || e.marks.any (fun (o, d) => d = c && since ≤ o) }))

/-- What a product without K-rows does when it runs, in every caravan of its scope (R159, R170). -/
def State.startZero (s : State) (p off : Nat) : State :=
  match s.exec? p with
  | none => s
  | some e =>
    (s.caravans p).foldl (fun s c => ((s.car c).runs.filter (fun u => u.seq = e.seq && u.off = off && u.k = 0)).foldl
      (fun s u => s.zeroTiles p u) s) s

/-- PRODUCT (R168 to R173). -/
def clsProduct : Cls :=
  { Cls.base with
    scopes := anyScope
    fmtA := true
    fmtB := true
    fmtOut := true
    round := true
    word := productWord
    fmt := productFmt
    body := fun s x => s.productBody x
    late := fun s x => s.productLate x
    classes := productClasses
    units := fun s x => (s.scopeStns x).flatMap (fun g => [arrayUnit g, tallyUnit g])
    ready := fun s x => s.productReady x
    unit := fun s x => s.stnUnit x 0x01
    reads := fun s x =>
      let r := parseRec (s.record x.p x.hdr x.pRec)
      [x.pA, x.pB, r.mask, r.resume, r.rsc, r.csc].flatMap (fun i =>
        if i = 0 then [] else s.rowsOf x.p (s.scopeStns x) (s.desc x.p x.hdr i))
    descs := fun s x =>
      let r := parseRec (s.record x.p x.hdr x.pRec)
      [x.pA, x.pB, r.mask, r.resume, r.rsc, r.csc].filter (· ≠ 0)
    start := fun s x =>
      match s.exec? x.p with
      | none => s
      | some e =>
        let r := parseRec (s.record x.p x.hdr x.pRec)
        let z := s.shape x r
        if r.m = 0 || r.n = 0 then s.doneAtIssue x (s.stnUnit x 0x01)
        else
          let runs := s.productRuns x e
          let units := (s.scopeStns x).flatMap (fun g => [arrayUnit g, tallyUnit g])
          let s := s.enter x units none (if x.pDst = 0 then min 2 z.passes else 0) z.tiles.length []
          let s := if x.pDst = 0 then s
            else s.dest x.p (s.rowsOf x.p ((z.tiles.map (·.2)).eraseDups) (s.desc x.p x.hdr x.pDst))
          let s := runs.foldl (fun s (c, u) => s.updCar c (fun k => { k with runs := k.runs ++ [u] })) s
          if r.k = 0 && s.runsNow x.p x.off then s.startZero x.p x.off else s }

def execProduct (p : PartId) (h : Head) (w1 : Word) (s : State) : Host.Outcome State Fault Refusal :=
  answer s (fun s => clsProduct.offer s p 0x10 h w1)

end Sys2Proof.Machine
end

