-- ==== Sys2Proof/Machine/Drover.lean ====
section
/-!
DEFINITION. The drovers (R184 to R187, R213 to R225): MOVE, GATHER and SWAP, run-ahead, transfers, their landing and their
limits.
-/
namespace Sys2Proof.Machine

/-! Feeding banks (R186, R470). -/

/-- Whether a range meets a satchel bank of station g. -/
def onBank (g b pa len : Nat) : Bool := pa < satBank g (b = 1) + 8 * mib && satBank g (b = 1) < pa + len

/-- Physical ranges of the alias operands a run feeds station g from: A, its mask and scales, and B under LOCAL (R470). -/
def State.aliasFeeds (s : State) (p g : Nat) (u : Run) : List (Nat × Nat) :=
  let rcd := u.rcd
  let ds := [u.d 0] ++ (u.optD 3 rcd.mask).toList ++ (u.optD 5 rcd.rsc).toList ++ (u.optD 6 rcd.csc).toList ++
    (if u.isLocal then [u.d 1] else [])
  (ds.filter (s.isAlias p)).flatMap (fun d =>
    s.rowsOf p [g] d ++
    (if d.sbase = 0 then [] else (s.place p g d.sbase).toList.map (fun pa => (pa, scaleBytes u.fa d))))

/-- A visit in which station g broadcasts or latches for a run: the station has an M-block in a pass of the pair, and its used tiles of
the pass have begun and not ended (R111, R470). -/
def Run.feedsAt (u : Run) (g : Nat) (t : TileAt) : Bool :=
  u.stns.contains g && (List.range (u.legs t.pair)).any (fun l => u.exists_ g (2 * t.pair + l)) &&
  u.firstUsed g ≤ t.tile && t.tile ≤ u.lastUsed g

/-- The satchel banks that feed for a tile at station g (R470). `bank`: the one staged for it, when A is staged. -/
def State.feedsFor (s : State) (p g : Nat) (t : TileAt) (bank : Bool) : List Nat :=
  match (s.car (g / 8)).run t with
  | none => []
  | some u =>
    if !u.feedsAt g t then []
    else
      let rs := s.aliasFeeds p g u
      (if s.isAlias p (u.d 0) then [] else [boolNat bank]) ++ [0, 1].filter (fun b => rs.any (fun (pa, n) => onBank g b pa n))

/-- The satchel banks that feed at station g in this pace (R470): at a pace that begins a visit, those of the tile that comes with it and
of the fill that the station changes to. -/
def State.feeding (s : State) (p g : Nat) : List Nat :=
  let c := g / 8
  let k := s.car c
  let staged := k.staged.getD (g % 8) true
  if k.atBoundary (s.pace p) then
    match ((s.inject p c k.shift).2).getD (g % 8) none with
    | none => []
    | some t => s.feedsFor p g t (match (k.run t).filter (fun u => t.tile = u.firstUsed g && s.stages p u g t.pair) with
        | some _ => !staged
        | none => staged)
  else
    match k.tiles.getD (g % 8) none with
    | none => []
    | some t => s.feedsFor p g t staged

/-- A destination that touches a bank that feeds: code 0x13 (R186, R187), for the first such row, and its lowest bank. -/
def State.feedCheck (s : State) (p : Nat) (d : Desc) : Option Fail :=
  (List.range d.logRows).findSome? (fun j =>
    match s.vaPa p (d.rowVa j) with
    | none => none
    | some pa =>
      if regionOf pa ≠ some .satchel then none
      else
        let g := (pa - satchelBase 0) / 0x1000000
        ([0, 1].find? (fun b => onBank g b pa d.rowBytes && (s.feeding p g).contains b)).map (fun b =>
          ((0x13, unitId (g / 8) (g % 8) 0x03 + b * 2 ^ 16) : Fail)))

/-! Transfers (R215, R217 to R219). -/

/-- Bytes of a whole extent. -/
def Desc.total (d : Desc) : Nat := d.logRows * d.rowBytes

/-- One piece of a command's work: source and destination addresses, length, thread. -/
structure Piece where
  src : Nat
  dst : Nat
  len : Nat
  thread : Nat
  deriving DecidableEq, Repr

/-- What a drover command does next, with how far it has come then. -/
inductive Next where
  | done
  /-- Every thread with work left has 32 transfers outstanding (R218). -/
  | stall
  /-- A skipped index. -/
  | skip (q : DrvProg)
  /-- A row served from the cache. -/
  | hit (row : Piece) (q : DrvProg)
  /-- A transfer; `miss`: the first of a row that a GATHER fetches. -/
  | fetch (x : Piece) (miss : Bool) (q : DrvProg)
  deriving DecidableEq, Repr

/-- The first bytes of a range that lie together: in the role view, up to the boundary between its roles (R199). -/
def State.roleRoom (s : State) (p va len : Nat) : Nat :=
  match s.vaPa p va with
  | some pa => if regionOf pa = some .role then min len (32 * mib - (pa - roleBase 0) % (32 * mib)) else len
  | none => len

/-- The first bytes of a range that one transfer may move (R199, R215): at most up to the next 2 KiB boundary of the source, and in
the role view never over a boundary between its roles. -/
def State.pieceLen (s : State) (p src dst len : Nat) : Nat :=
  min len (min (2048 - src % 2048) (min (s.roleRoom p src len) (s.roleRoom p dst len)))

/-- The next transfer of a MOVE: at most one row (R215). -/
def State.moveNext (s : State) (p : Nat) (a d : Desc) (q : DrvProg) : Next :=
  if a.total ≤ q.pos then .done
  else
    let so := q.pos % a.rowBytes
    let dof := q.pos % d.rowBytes
    let sva := a.rowVa (q.pos / a.rowBytes) + so
    let dva := d.rowVa (q.pos / d.rowBytes) + dof
    let n := s.pieceLen p sva dva (min (a.rowBytes - so) (d.rowBytes - dof))
    .fetch ⟨sva, dva, n, 0⟩ false { q with pos := q.pos + n }

/-- Index k of an index stream (R217), read where it lies without a transfer of its own (DESIGN CHOICE, log entry 42). -/
def State.indexAt (s : State) (p g : Nat) (i : Desc) (k : Nat) : Nat := leNat (s.vbytes p g (i.rowVa k) i.rowBytes)
/-- An index with every bit set is a skip. -/
def isSkip (i : Desc) (v : Nat) : Bool := v = 2 ^ (8 * i.rowBytes) - 1
/-- The position of the first index beyond the table, with the index (R186, R217). -/
def State.badIndex (s : State) (p g : Nat) (i t : Desc) : Option (Nat × Nat) :=
  (List.range i.logRows).findSome? (fun k =>
    let v := s.indexAt p g i k
    if !isSkip i v && t.logRows ≤ v then some (k, v) else none)

/-- Lines of the gather cache (R219): the largest power of two of rows that fits; none for a row it cannot hold. -/
def gatherLines (gcache rowBytes : Nat) : Nat :=
  if rowBytes = 0 || gcache * mib < rowBytes then 0 else 2 ^ Nat.log2 (gcache * mib / rowBytes)

/-- The place of a thread in the destination stream: thread t starts with index t (R218). -/
def DrvProg.at_ (q : DrvProg) (rowBytes t : Nat) : Nat := q.threads.getD t (t * rowBytes)
/-- Move a thread of n. -/
def DrvProg.move (q : DrvProg) (n rowBytes t pos : Nat) : DrvProg :=
  { q with threads := ((List.range n).map (q.at_ rowBytes)).set t pos }

/-- The next step of a GATHER (R217 to R219): the next ready thread in turn looks its row up in the cache, and issues its transfers on a
miss; the drover goes on to the next thread when the row's transfers are out. No row after an index beyond the table is fetched
(R186). A row whose transfers are still in flight is a hit (DESIGN CHOICE, log entry 42). -/
def State.gatherNext (s : State) (p c n : Nat) (i t d : Desc) (q : DrvProg) : Next :=
  let g := c * 8
  let rb := d.rowBytes
  let bad := (s.badIndex p g i t).map (·.1)
  let left := ((List.range n).map (fun k => (q.turn + k) % n)).filter (fun th => q.at_ rb th / rb < bad.getD i.logRows)
  match left.find? (fun th => ((s.car c).xfers.filter (·.thread = th + 1)).length < 32) with
  | none => if left.isEmpty && bad.isNone then .done else .stall
  | some th =>
    let pos := q.at_ rb th
    let k := pos / rb
    let o := pos % rb
    let v := s.indexAt p g i k
    let next := (k + n) * rb
    let lines := gatherLines (s.fld (Csr.drvDepot_gcache c)) t.rowBytes
    let line := if lines = 0 then 0 else v % lines
    if isSkip i v then .skip (q.move n rb th next)
    else if o = 0 && lines ≠ 0 && q.lines.contains (line, v) then .hit ⟨t.rowVa v, d.rowVa k, rb, th⟩ (q.move n rb th next)
    else
      let sva := t.rowVa v + o
      let m := s.pieceLen p sva (d.rowVa k + o) (rb - o)
      let q := if lines = 0 then q else { q with lines := (line, v) :: q.lines.filter (·.1 ≠ line) }
      let q := if o + m = rb then { q.move n rb th next with turn := (th + 1) % n } else { q.move n rb th (pos + m) with turn := th }
      .fetch ⟨sva, d.rowVa k + o, m, th⟩ (o = 0) q

/-- The next step of a drover command, from its descriptors. -/
def State.drvNext (s : State) (p c op : Nat) (w1 : Word) (ds : List (List Byte)) (q : DrvProg) : Next :=
  let d (i : Nat) : Desc := parseDesc (ds.getD i [])
  if op = 0x40 then s.moveNext p (d 0) (d 1) q
  else s.gatherNext p c (bitsOf w1.toNat 36 4 + 1) (d 0) (d 1) (d 2) q

/-- The level code of R216. -/
def levelCode (pa : Nat) : Nat :=
  match regionOf pa with
  | some .hbm => 2
  | some .cxl => 3
  | some .satchel | some .alias_ => 0
  | _ => 1

/-- A transfer's physical end: the role view is resolved at issue (R200); bank pairs when the bytes move (R284). -/
def State.endPa (s : State) (p va : Nat) : Option Nat :=
  (s.vaPa p va).bind (fun pa => if regionOf pa = some .role then s.roleResolve pa else some pa)

/-- Whether a destination lies in a satchel. -/
def inSatchel (pa : Nat) : Bool := regionOf pa = some .satchel

/-- The ends of a transfer that a caravan's drover reaches over the mesh: not its own caravan's. -/
def farEnds (c : Nat) (pas : List Nat) : List Nat := pas.filter (fun pa => rtrOfPa pa ≠ some (rtrOfCar c))

/-- The packets of a transfer of n bytes between resolved ends (R230, R231, R243): the read request and its data, and the write
with its acknowledgement, each on the plane of the address it carries. An end that no route reaches is fenced, and the transfer is
lost. -/
def State.meshXfer (s : State) (c src dst n : Nat) : State × Bool :=
  let d := rtrOfCar c
  let ok (pa : Nat) : Bool :=
    match rtrOfPa pa with
    | some r => (s.route d r (planeOf pa)).ok && (s.route r d (planeOf pa)).ok
    | none => true
  match (farEnds c [src, dst]).find? (fun pa => !ok pa) with
  | some pa => (s.fenceEnd pa, false)
  | none =>
    let s := match (farEnds c [src]).head?.bind rtrOfPa with
      | some r => (s.sendMesh .request d r (planeOf src) 0).sendMesh .response r d (planeOf src) n
      | none => s
    let s := match (farEnds c [dst]).head?.bind rtrOfPa with
      | some r => (s.sendMesh .request d r (planeOf dst) n).sendMesh .response r d (planeOf dst) 0
      | none => s
    (s, true)

/-- Issue one transfer for a command: no effect when 512 are outstanding, the drover's own reads among them (R215). Answers the state and whether it issued. -/
def State.sendXfer (s : State) (p c off op : Nat) (x : Piece) : State × Bool :=
  match s.endPa p x.src, s.endPa p x.dst with
  | some a, some b =>
    if 512 ≤ (s.car c).outstanding then (s, false)
    else
      let (s, ok) := s.meshXfer c (s.redirect a) (s.redirect b) x.len
      let k := s.car c
      let t : Xfer :=
        { id := k.nextX, part := p, seq := ((s.exec? p).map (·.seq)).getD 0, off := off, src := a, dst := b, len := x.len, level := levelCode a, va := x.src,
          satchel := inSatchel b, thread := if op = 0x41 then x.thread + 1 else 0, dropped := false, lost := !ok }
      ((s.setCar c { k with xfers := k.xfers ++ [t], nextX := k.nextX + 1 }).drvStatus c, true)
  | _, _ => (s, false)

/-- Copy bytes between physical places, by bank pair as they stand (R284). -/
def State.copyPa (s : State) (src dst n : Nat) : State :=
  let bs := (List.range n).map (fun i => s.byte (s.redirect (src + i)))
  (bs.zipIdx).foldl (fun s (b, i) => s.setByte (s.redirect (dst + i)) b) s

/-- The physical ranges of a range of bytes, in at most `fuel` pieces. -/
def State.endRanges (s : State) (p : Nat) : Nat → Nat → Nat → List (Nat × Nat)
  | 0, _, _ => []
  | fuel + 1, va, n =>
    let m := s.roleRoom p va n
    if n = 0 || m = 0 then [] else (s.endPa p va).toList.map (·, m) ++ s.endRanges p fuel (va + m) (n - m)

/-- A row is copied from the gather cache (R218). -/
def State.copyRow (s : State) (p src dst n : Nat) : State :=
  let bs := (s.endRanges p 4 src n).flatMap (fun (pa, m) => (List.range m).map (fun i => s.byte (s.redirect (pa + i))))
  let to_ := (s.endRanges p 4 dst n).flatMap (fun (pa, m) => (List.range m).map (fun i => s.redirect (pa + i)))
  (to_.zip bs).foldl (fun s (a, b) => s.setByte a b) s

/-- A drover command takes its next step: a skip or a cache hit moves on, a fetch issues a transfer. Answers the state, how far
it has come, and the physical destination written or to be written. `early`: the command has not issued, so nothing may land in
a satchel (R214). -/
def State.drvStep (s : State) (p c off op : Nat) (w1 : Word) (ds : List (List Byte)) (q : DrvProg) (early : Bool) :
    State × DrvProg × List (Nat × Nat) :=
  match s.drvNext p c op w1 ds q with
  | .done | .stall => (s, q, [])
  | .skip q' => (s, q', [])
  | .hit x q' =>
    let rs := s.endRanges p 4 x.dst x.len
    if early && rs.any (fun (pa, _) => inSatchel pa) then (s, q, [])
    else ((s.copyRow p x.src x.dst x.len).count (Csr.drvGather_hits c) 1, q', rs)
  | .fetch x miss q' =>
    let (s', ok) := s.sendXfer p c off op x
    if !ok then (s, q, [])
    else
      (if miss then s'.count (Csr.drvGather_misses c) 1 else s', q', ((s.endPa p x.dst).map (fun b => (b, x.len))).toList)

/-! MOVE, GATHER and SWAP. -/

/-- The descriptor fields of a drover command. -/
def drvFields (op : Nat) : List Nat := if op = 0x40 then [0, 12] else if op = 0x41 then [0, 12, 24] else []

/-- A plain use of a drover descriptor. -/
def drvUse (i rows bytes : Nat) (wr stream : Bool) (levels : List Level) : Use :=
  { idx := i, rows := rows, bytes := bytes, rd := !wr, wr := wr, mx := none, checkScale := false, stream := stream,
    transposed := false, levels := levels }

/-- The descriptor, window and drover checks (R186, R212, R217). A GATHER destination whose ROW_BYTES is not the table's is of reason 2
(DESIGN CHOICE, log entry 47). -/
def drvBody (s : State) (x : Ctx) : Option Fail :=
  let d (i : Nat) : Desc := s.desc x.p x.hdr i
  let c := (s.scopeCars x).headD 0
  if x.op = 0x40 then
    let a := d (x.f 0 12)
    let b := d (x.f 12 12)
    let lv : List Level := [.satchel, .depot, .hbm, .cxl]
    if a.total ≠ b.total then some (bad0C x.op 7 64)
    else
      (s.useChecks x.p x.hdr [drvUse (x.f 0 12) 1 1 false false lv, drvUse (x.f 12 12) 1 1 true false lv]).orElse fun _ =>
      if s.overlap x.p [c * 8] a b then some (bad16 (x.f 12 12) 8) else none
  else
    let i := d (x.f 0 12)
    let t := d (x.f 12 12)
    let b := d (x.f 24 12)
    let us := [drvUse (x.f 0 12) 1 1 false true [.depot, .hbm], drvUse (x.f 12 12) 1 1 false false [.depot, .hbm, .cxl],
               drvUse (x.f 24 12) i.logRows t.rowBytes true false [.satchel, .depot]]
    let forms := (us.zip [i, t, b]).findSome? (fun (u, e) => u.form e)
    if forms.isNone && b.rowBytes ≠ t.rowBytes then some (bad16 (x.f 24 12) 2)
    else
      (s.useChecks x.p x.hdr us).orElse fun _ =>
      if s.overlap x.p [c * 8] b t || s.overlap x.p [c * 8] b i then some (bad16 (x.f 24 12) 8) else none

/-- A destination that touches a bank that feeds at the issue pace (R186, R470): no part of what a scan ahead can decide. -/
def drvFeeds (s : State) (x : Ctx) : Option Fail :=
  s.feedCheck x.p (s.desc x.p x.hdr (if x.op = 0x40 then x.f 12 12 else x.f 24 12))

/-- The first index of a GATHER beyond its table (R186, R217). -/
def drvLate (s : State) (x : Ctx) : Option Fail :=
  if x.op = 0x40 then none
  else
    (s.badIndex x.p ((s.scopeCars x).headD 0 * 8) (s.desc x.p x.hdr (x.f 0 12)) (s.desc x.p x.hdr (x.f 12 12))).map
      (fun (k, v) => (0x14, v + k * 2 ^ 32))

/-- The elastic class that a drover command uses for reason 3 of R142: that of the level it reads from, HBM or the depot; CXL has
none, and the mesh and Pass classes are those of its packets (DESIGN CHOICE, log entry 43). -/
def drvClass (s : State) (x : Ctx) : List Nat :=
  let i := if x.op = 0x40 then x.f 0 12 else x.f 12 12
  match (s.vaPa x.p (s.desc x.p x.hdr i).base).bind regionOf with
  | some .hbm => [0x41]
  | some .cxl => []
  | _ => [0x40]

/-- Enter a drover command: what run-ahead has done for it counts (R214). -/
def State.enterDrv (s : State) (x : Ctx) (ds : List (List Byte)) : State :=
  match s.exec? x.p with
  | none => s
  | some e =>
    let c := (s.scopeCars x).headD 0
    let k := s.car c
    let q := ((k.ahead.find? (·.off = x.off)).map (·.prog)).getD DrvProg.start
    let runs := s.occupants x.p e (droverUnit c) = 0
    let cmd : Cmd :=
      { off := x.off, op := x.op, h := x.h, w1 := BitVec.ofNat 64 x.w1, units := [droverUnit c],
        start := if runs then some (s.orderPace x.p) else none, done := none, prog := 0, left := 0, descs := ds,
        drv := q }
    (s.setCar c { k with ahead := k.ahead.filter (·.off ≠ x.off) }).setExec x.p { e with cmds := e.cmds ++ [cmd] }

/-- A drover command is complete: nothing left to issue, nothing in flight. It completes at this pace (R167). -/
def State.drvDone (s : State) (p c : Nat) : State :=
  s.updExec p (fun e => { e with cmds := e.cmds.map (fun m =>
    if (m.op = 0x40 || m.op = 0x41) && m.units.contains (droverUnit c) && m.start.isSome && m.done.isNone &&
       !(s.car c).xfers.any (fun t => t.off = m.off && t.part = p && !t.dropped) &&
       s.drvNext p c m.op m.w1 m.descs m.drv = .done then
      { m with done := some (s.orderPace p) } else m) })

/-- The drover class (R184). -/
def clsDrv : Cls :=
  { Cls.base with
    scopes := [0x81]
    word := fun _ _ x =>
      if x.op = 0x40 then firstFail [needDesc x 0, needDesc x 12] else firstFail [needDesc x 0, needDesc x 12, needDesc x 24]
    zeros := fun x => if x.op = 0x40 then [(24, 40)] else [(40, 24)]
    body := fun s x => (drvBody s x).orElse fun _ => drvFeeds s x
    late := drvLate
    classes := drvClass
    units := fun s x => [droverUnit ((s.scopeCars x).headD 0)]
    unit := fun s x => s.carUnit x 0x10
    reads := fun s x => (if x.op = 0x40 then [0] else [0, 12]).flatMap (fun l =>
      s.rowsOf x.p [(s.scopeCars x).headD 0 * 8] (s.desc x.p x.hdr (x.f l 12)))
    start := fun s x =>
      let c := (s.scopeCars x).headD 0
      let ds := (drvFields x.op).map (fun l => s.descBytes x (x.f l 12))
      let s := s.enterDrv x ds
      let s := s.dest x.p (s.rowsOf x.p [c * 8] (parseDesc (ds.getLastD [])))
      s.drvDone x.p c }

def execMove (p : PartId) (h : Head) (w1 : Word) (s : State) : Host.Outcome State Fault Refusal :=
  answer s (fun s => clsDrv.offer s p 0x40 h w1)

/-- After fault 0x14 the rows before the bad index may have landed (R186): they become free values. -/
def State.gatherLanded (s0 s : State) (p : Nat) (h : Head) (w1 : Word) : State :=
  match s0.exec? p, s.exec? p with
  | some e, some e' =>
    match e.fault, e'.fault with
    | none, some (f0, _, off, w3) =>
      if f0.toNat % 256 = 0x14 && off.toNat = e.off then
        let x := e.ctx p 0x41 h w1
        let d := s.desc p e.hdr (x.f 24 12)
        let c := (s0.scopeCars x).headD 0
        (List.range (w3.toNat / 2 ^ 32)).foldl (fun s k =>
          match s.place p (c * 8) (d.rowVa k) with
          | some pa => s.scramble pa d.rowBytes
          | none => s) s
      else s
    | _, _ => s
  | _, _ => s

/-- GATHER offered at the issue point. -/
def State.offerGather (s : State) (p : Nat) (h : Head) (w1 : Word) : State :=
  State.gatherLanded s (clsDrv.offer s p 0x41 h w1) p h w1

def execGather (p : PartId) (h : Head) (w1 : Word) (s : State) : Host.Outcome State Fault Refusal :=
  answer s (fun s => s.offerGather p h w1)

/-- Transfers in flight into a caravan's depot, whichever drover sends them (R186). -/
def State.depotBusy (s : State) (c : Nat) : Bool :=
  (List.range 24).any (fun d => (s.car d).xfers.any (fun t =>
    !t.dropped && regionOf t.dst = some .depot && (t.dst - depotBase 0) / 0x4000000 = c))

/-- The SWAP at the head of a caravan's drover takes effect once nothing is in flight into the depot (R186, R200): the
halves exchange roles and a hold it raised ends. -/
def State.trySwap (s : State) (p c : Nat) : State :=
  match s.exec? p with
  | none => s
  | some e =>
    match (s.flight p e).find? (fun m => m.units.contains (droverUnit c)) with
    | some m =>
      if m.op = 0x42 && m.done.isNone && e.cmds.contains m && !s.depotBusy c then
        let now := s.orderPace p
        let s := s.setFld (Csr.drvDepot_fillHalf c) (1 - s.fld (Csr.drvDepot_fillHalf c))
        let s := s.setExec p { e with cmds := e.cmds.map (fun k =>
          if k.off = m.off then { k with start := some now, done := some now } else k) }
        let held := (s.car c).swapOff.isSome
        let s := s.updCar c (fun k => { k with swapOff := none })
        if held && (s.caravans p).all (fun d => (s.car d).swapOff.isNone) then s.release p 1 else s
      else s
    | none => s

/-- The waiting SWAP of an order that an interleaved one has overtaken, then that of the running order (R220). -/
def State.swapNow (s : State) (p c : Nat) : State :=
  let s := match (s.part p).prev with
    | some q => s.forSeq p q.seq (fun s => s.trySwap p c)
    | none => s
  s.trySwap p c

/-- SWAP (R186): with transfers in flight into the depot at its issue pace the partition holds with source 1 (R127). -/
def clsSwap : Cls :=
  { Cls.base with
    scopes := [0x81]
    zeros := fun _ => [(0, 64)]
    units := fun s x => [droverUnit ((s.scopeCars x).headD 0)]
    unit := fun s x => s.carUnit x 0x10
    start := fun s x =>
      let c := (s.scopeCars x).headD 0
      let s := s.enterDrv x []
      if s.depotBusy c then (s.updCar c (fun k => { k with swapOff := some x.off })).hold x.p 1 none
      else s.trySwap x.p c }

def execSwap (p : PartId) (h : Head) (w1 : Word) (s : State) : Host.Outcome State Fault Refusal :=
  answer s (fun s => clsSwap.offer s p 0x42 h w1)

def execSwapTakeEffect (p : PartId) (c : CarId) (s : State) : Host.Outcome State Fault Refusal :=
  answer s (fun s => if (s.caravans p).contains c.val then s.swapNow p c else s)

/-! What the mesh and the Pass did to a transfer on its way (R246, R376, R378). -/

/-- The unit a carrier is or belongs to, and its detail in the fence record. -/
def carrierUnit : Carrier → Nat
  | .router h r => unitInst h.val r.val 0x20
  | .hLink h i => unitInst h.val (i.val / 7 * 8 + i.val % 7) 0x20
  | .vLink h i => unitInst h.val (i.val % 3 * 8 + i.val / 3) 0x20
  | .channel ch => unitInst 0 ch.val 0x21
def carrierDetail : Carrier → Nat
  | .hLink _ i => 1 + i.val
  | .vLink _ i => 65 + i.val
  | _ => 0

/-- A unit's failure within the last second: the spec's window is wall time, so whether an earlier one still counts is a free
value (log entry 6). Answers whether this is the second. -/
def State.second (s : State) (unit : Nat) : State × Bool :=
  if s.dev.timeouts1s.contains unit then
    let (x, s) := s.draw
    (s, x % 2 = 1)
  else (s.updDev (fun d => { d with timeouts1s := unit :: d.timeouts1s }), false)

/-- A beat that the Pass could not correct is counted at its channel (R246). -/
def State.countPoison (s : State) (v : Carrier) (n : Nat) : State :=
  match v with
  | .channel ch => s.count (Csr.pasChan_uncorrected ch) n
  | _ => s

/-- One poisoned flit or beat, counted toward the fence of what carried it (R378). -/
def State.poisonedOnce (s : State) (v : Carrier) : State :=
  let (s, again) := (s.countPoison v 1).second (carrierUnit v + carrierDetail v * 2 ^ 16)
  if again then s.fence (carrierUnit v) (carrierDetail v) else s

/-- A transfer poisoned, and its repeat too: two poisoned flits within a transfer's limit, and so within 1 s (R216, R376, R378;
DEDUCED, log entry 50). -/
def State.poisonedTwice (s : State) (v : Carrier) : State := (s.countPoison v 2).fence (carrierUnit v) (carrierDetail v)

/-- The Pass channel that a transfer's data crosses: between its source and its drover, else between the drover and its
destination. -/
def State.xferChan (s : State) (c : Nat) (t : Xfer) : Option Nat :=
  let d := rtrOfCar c
  let leg (a b : Option Rtr) (pa : Nat) : Option Nat :=
    match a, b with
    | some a, some b => (s.route a b (planeOf pa)).chan
    | _, _ => none
  let a := s.redirect t.src
  let b := s.redirect t.dst
  (leg (rtrOfPa a) (some d) a).orElse (fun _ => leg (some d) (rtrOfPa b) b)

/-- Beats corrected in passing on a channel; more than 16 within 1 ms fence it. Whether the last seventeen fell within 1 ms is a free
value (R378, log entry 6). -/
def State.correctedBeats (s : State) (ch n : Nat) : State :=
  let key := 2 ^ 23 + ch
  let s := (s.count (Csr.pasChan_corrected ch) n).updDev (fun d => { d with timeouts1s := List.replicate n key ++ d.timeouts1s })
  if (s.dev.timeouts1s.filter (· = key)).length ≤ 16 then s
  else
    let (x, s) := s.draw
    if x % 2 = 1 then s.fence (unitInst 0 ch 0x21) 0 else s

/-- What a transfer's arrival shows of its path and its source (R246, R374, R378). -/
def State.pathSeen (s : State) (c : Nat) (t : Xfer) (arr : Arrival) : State :=
  match arr with
  | .clean => s
  | .corrected n one two =>
    let s := s.eccRead (s.redirect t.src) one two 0
    match s.xferChan c t with
    | some ch => s.correctedBeats ch (min n (cdiv t.len 256))
    | none => s
  | .repeatClean v => s.poisonedOnce v
  | .repeatPoisoned v => s.poisonedTwice v

/-! Landing (R214, R374, R376) and limits (R216, R378). -/

/-- Whether the command a transfer serves has issued. -/
def Exec.issued (e : Exec) (off : Nat) : Bool := off < e.off

/-- A hold of source 1 raised and ended by a repeated transfer (R376). -/
def State.lateHold (s : State) (p : Nat) : State :=
  if s.hasHold p 1 then s else (s.hold p 1 none).unhold p 1

def State.dropXfer (s : State) (c id : Nat) : State :=
  (s.updCar c (fun k => { k with xfers := k.xfers.filter (·.id ≠ id) })).drvStatus c

/-- A transfer's data is at the drover of its order: it waits for its command's issue when it lands in a satchel (R214); stored
poison is fault 0x71, and transport poisoned twice part fault 0x70 (R376). -/
def State.landIn (s : State) (c : Nat) (t : Xfer) (arr : Arrival) : State :=
  match s.exec? t.part with
  | none => s
  | some e =>
    let early := !e.issued t.off
    let badAt := (List.range t.len).find? (fun i => s.poisoned (s.redirect (t.src + i)) 1)
    if early && (t.satchel || badAt.isSome) then s
    else
      match badAt, arr with
      | some i, _ =>
        let lv := if t.level = 3 then 5 else t.level
        ((s.dropXfer c t.id).eccRead (s.redirect (t.src + i)) 0 0 1).raise t.part (droverUnit c) 0x71 t.off ((t.va + i) % 2 ^ 48 + lv * 2 ^ 48)
      | none, .repeatPoisoned v =>
        ((s.dropXfer c t.id).raise t.part (carrierUnit v) 0x70 t.off (carrierUnit v + 2 ^ 16)).pathSeen c t arr
      | none, _ =>
        let s := match arr with
          | .repeatClean _ => s.lateHold t.part
          | _ => s
        (((s.copyPa t.src t.dst t.len).dropXfer c t.id).count (Csr.drvXfer_transfers c) 1).drvDone t.part c |>.pathSeen c t arr

/-! Arrival of the drover's own reads (R246, R376; log entry 36). -/

/-- One transfer of a drover's reads has come; reads of an order that is over are forgotten with their last. -/
def State.readCame (s : State) (c rid id : Nat) : State :=
  (s.updCar c (fun k =>
    let came := k.reads.map (fun x => if x.id = rid then { x with came := id :: x.came } else x)
    { k with reads := came.filter (fun x => !(x.dropped && x.left = 0)) })).drvStatus c

/-- What a read's arrival at the drover shows of its source and its path. -/
def State.readSeen (s : State) (c pa n : Nat) (arr : Arrival) : State :=
  match arr with
  | .clean => s
  | .corrected k one two =>
    let s := s.eccRead pa one two 0
    match (rtrOfPa pa).bind (fun r => (s.route r (rtrOfCar c) (planeOf pa)).chan) with
    | some ch => s.correctedBeats ch (min k (cdiv n 256))
    | none => s
  | .repeatClean v => s.poisonedOnce v
  | .repeatPoisoned v => s.poisonedTwice v

/-- A read for a running order has come. Poison on the way restarts the passes when it strikes a tile (R88, R246); other data come
again, and a repeat that is poisoned too is part fault 0x70 (R376). -/
def State.readIn (s : State) (c : Nat) (x : Fetch) (pa n : Nat) (arr : Arrival) : State :=
  let tile := (s.car c).runs.any (fun u => (s.car c).tileReads u x)
  let s := match arr, tile with
    | .repeatClean _, true | .repeatPoisoned _, true => s.failCar x.part c
    | .repeatClean _, false => s.lateHold x.part
    | .repeatPoisoned v, false => s.raise x.part (carrierUnit v) 0x70 x.off (carrierUnit v + 2 ^ 16)
    | _, _ => s
  s.readSeen c pa n arr

/-- A transfer of a drover's reads: it counts as completed, or as discarded when its order is over (R223). -/
def State.landRead (s : State) (c : Nat) (x : Fetch) (id va n : Nat) (arr : Arrival) : State :=
  let pa := (s.place x.part x.stn va).getD 0
  let s := s.readCame c x.id id
  if x.dropped || (s.exec? x.part).isNone then (s.count (Csr.drvXfer_discarded c) 1).readSeen c pa n arr
  else (s.count (Csr.drvXfer_transfers c) 1).forSeq x.part x.seq (fun s => s.readIn c x pa n arr)

/-- The read of a drover that a transfer belongs to, with its address and bytes. -/
def Car.readOf (k : Car) (id : Nat) : Option (Fetch × Nat × Nat) := k.reads.findSome? (fun x => (x.piece id).map (fun y => (x, y)))

/-- A transfer lands; one whose order is over is discarded (R223). What the mesh cannot reach does not arrive (R243), nor does what the
spill tier would have to send or take while it is out of reach (R414, R436): such a transfer reaches its limit (R216). -/
def State.land (s : State) (c id : Nat) (arr : Arrival) : State :=
  match (s.car c).xfers.find? (·.id = id) with
  | none =>
    match (s.car c).readOf id with
    | some (x, va, n) => if ((s.place x.part x.stn va).map s.tierGone).getD false then s else s.landRead c x id va n arr
    | none => s
  | some t =>
    if t.lost || s.tierGone t.src || s.tierGone t.dst then s
    else if t.dropped || !((s.exec? t.part).isSome) then
      ((s.dropXfer c id).count (Csr.drvXfer_discarded c) 1).pathSeen c t arr
    else s.forSeq t.part t.seq (fun s => s.landIn c t arr)

def execDrvTransferComplete (c : CarId) (id : Nat) (arr : Arrival) (s : State) : Host.Outcome State Fault Refusal :=
  answer s (fun s => s.land c id arr)

/-- The end of a transfer of an order that did not answer: part fault 0x15, and the unit is fenced under R378. -/
def State.noAnswer (s : State) (p c seq off pa : Nat) : State :=
  let s := s.forSeq p seq (fun s => s.raise p (droverUnit c) 0x15 off (pa % 2 ^ 48 + levelCode pa * 2 ^ 48))
  match regionOf pa with
  | some .hbm =>
    let k := pa / (48 * gib)
    let (s, again) := s.second (unitInst (k / 8) (k % 8) 0x30)
    if again then s.fenceStack k else s
  | some .depot => if (pa - depotBase 0) / 0x4000000 = c then s.fenceCar c else s
  | _ => s

/-- The satchel bank that a read fills; its source for a read into a landing buffer or a mortar. -/
def State.readEnd (s : State) (c : Nat) (x : Fetch) (src : Nat) : Nat :=
  match (s.car c).fills.find? (fun y => y.pieces ≠ 0 && y.fetch = x.id) with
  | some y => satBank (c * 8 + y.stn) y.bank
  | none => src

/-- A transfer reaches its limit (R216): part fault 0x15 of its order with the end that did not answer, its destination with
`dstEnd`, or only a count after a cancellation. The drover's own reads have the same limit (log entry 36). -/
def State.xferTimeout (s : State) (c id : Nat) (dstEnd : Bool) : State :=
  match (s.car c).xfers.find? (·.id = id) with
  | none =>
    match (s.car c).readOf id with
    | none => s
    | some (x, va, _) =>
      let src := (s.place x.part x.stn va).getD 0
      let pa := if dstEnd then s.readEnd c x src else src
      let s := (s.readCame c x.id id).count (Csr.drvXfer_timeouts c) 1
      if x.dropped || !((s.exec? x.part).isSome) then s else s.noAnswer x.part c x.seq x.off pa
  | some t =>
    let s := (s.dropXfer c id).count (Csr.drvXfer_timeouts c) 1
    if t.dropped || !((s.exec? t.part).isSome) then s
    else s.noAnswer t.part c t.seq t.off (if dstEnd then t.dst else t.src)

def execTransferTimeout (c : CarId) (id : Nat) (dstEnd : Bool) (s : State) : Host.Outcome State Fault Refusal :=
  answer s (fun s => s.xferTimeout c id dstEnd)

end Sys2Proof.Machine
end

