-- ==== Sys2Proof/Machine/Mortar.lean ====
section
/-!
DEFINITION. The mortars (R176 to R183, R261 to R275): rows dealt to stations, VEC, REDUCE, SPICE, SIEVE and DROPOUT, and
the spice tables.
-/
namespace Sys2Proof.Machine

/-! Spice tables (R263 to R270). -/

/-- A spice table's header (R264). -/
structure Spice where
  kind : Nat
  segbits : Nat
  elo : Nat
  ehi : Nat
  scale : Val
  loA : Val
  loB : Val
  hpA : Val
  hpB : Val
  hnA : Val
  hnB : Val
  deriving DecidableEq, Repr

def fp32At (b : List Byte) (i : Nat) : Val := fp32.decode (leAt b i 4)

def parseSpice (b : List Byte) : Spice :=
  { kind := leAt b 0 1, segbits := leAt b 1 1, elo := leAt b 2 1, ehi := leAt b 3 1, scale := fp32At b 4,
    loA := fp32At b 8, loB := fp32At b 12, hpA := fp32At b 16, hpB := fp32At b 20, hnA := fp32At b 24,
    hnB := fp32At b 28 }

/-- Segments in each part (R264). -/
def Spice.segs (t : Spice) : Nat := (if t.kind = 0 then 2 * (t.ehi - t.elo + 1) else 1) * 2 ^ t.segbits
/-- Bytes of a table: header, forward part, derivative part. -/
def Spice.size (t : Spice) : Nat := 32 + 32 * t.segs

/-- Code 0x33 (R270). -/
def bad33 (slot reason : Nat) : Fail := (0x33, slot % 8 + reason * 2 ^ 4)

/-- Split a spice set into its tables, one slot after another, or refuse it (R263, R270). -/
def splitSpice : Nat → Nat → List Byte → Except Fail (List (List Byte))
  | 0, slot, bs => if bs.isEmpty then .ok [] else .error (bad33 slot 4)
  | fuel + 1, slot, bs =>
    if bs.isEmpty then .ok []
    else if bs.length < 32 then .error (bad33 slot 4)
    else
      let t := parseSpice bs
      if 2 < t.kind then .error (bad33 slot 1)
      else if 5 < t.segbits || (t.kind = 0 && (t.ehi < t.elo || t.elo = 0 || t.ehi = 255)) then .error (bad33 slot 2)
      else if 512 < t.segs then .error (bad33 slot 3)
      else if bs.length < t.size then .error (bad33 slot 4)
      else (splitSpice fuel (slot + 1) (bs.drop t.size)).map (bs.take t.size :: ·)

/-- A fused multiply-add rounded to FP32 (R265). -/
def fma32 (a b c : Val) : Val := round32 (valAdd (valMul a b) c)

/-- p(t) of segment i of a part (R265): 0 forward, 1 derivative. -/
def segAt (b : List Byte) (t : Spice) (part i : Nat) (x : Val) : Val :=
  let c (j : Nat) : Val := fp32At b (32 + part * (16 * t.segs) + 16 * i + 4 * j)
  fma32 x (fma32 x (fma32 x (c 3) (c 2)) (c 1)) (c 0)

/-- Kind 0 (R266): the value, and whether the infinity row or the high row settled it. -/
def spice0 (b : List Byte) (t : Spice) (part : Nat) (x : Val) : Val × Bool :=
  let neg : Bool := match x with
    | .fin n _ _ => n
    | .inf n => n
    | .nan => false
  let ha := if neg then t.hnA else t.hpA
  let hb := if neg then t.hnB else t.hpB
  match x with
  | .nan => (.nan, false)
  | .inf _ => (if part = 1 then hb else if hb.isZero then ha else valMul hb x, true)
  | .fin .. =>
    let bits := (fp32.encode 0 0 false x).bits
    let e := bits / 2 ^ 23 % 256
    let man := bits % 2 ^ 23
    if e < t.elo then (if part = 1 then t.loB else fma32 t.loB x t.loA, false)
    else if t.ehi < e then (if part = 1 then hb else fma32 hb x ha, true)
    else
      let i := (boolNat neg * (t.ehi - t.elo + 1) + (e - t.elo)) * 2 ^ t.segbits + man / 2 ^ (23 - t.segbits)
      (segAt b t part i (.fin false (man % 2 ^ (23 - t.segbits)) ((t.segbits : Int) - 23)), false)

/-- The index and the fraction of `num / 2^f` in [0, 1): its top `sb` bits, and the bits below them (R267, R268). -/
def splitFrac (sb num f : Nat) : Nat × Val :=
  if sb ≤ f then (num / 2 ^ (f - sb), .fin false (num % 2 ^ (f - sb)) ((sb : Int) - f))
  else (num * 2 ^ (sb - f), Val.zero)

/-- Kind 1, an exponential (R267). -/
def spice1 (b : List Byte) (t : Spice) (part : Nat) (x : Val) : Val :=
  match valMul x t.scale with
  | .nan => .nan
  | .inf neg => if neg then Val.zero else .inf false
  | .fin neg m e =>
    let v : Int := if neg then -(m : Int) else m
    let n : Int := if 0 ≤ e then v * pow2 e else v / pow2 (-e)
    if 128 ≤ n then .inf false
    else if n < -150 then Val.zero
    else
      let f := if 0 ≤ e then 0 else (v - n * pow2 (-e)).toNat
      let (i, fr) := splitFrac t.segbits f (-e).toNat
      scaleBy n (segAt b t part i (fp32.decode (fp32.encode 1 0 false fr).bits))

/-- Kind 2, a logarithm (R268). -/
def spice2 (b : List Byte) (t : Spice) (part : Nat) (x : Val) : Val :=
  match x with
  | .nan => .nan
  | .inf neg => if neg then .nan else if part = 1 then Val.zero else .inf false
  | .fin neg m e0 =>
    if m = 0 then (if part = 1 then .inf false else .inf true)
    else if neg then .nan
    else
      let l := Nat.log2 m
      let e : Int := (l : Int) + e0
      let (i, fr) := splitFrac t.segbits (m - 2 ^ l) l
      let p := segAt b t part i fr
      if part = 1 then scaleBy (-e) (round32 (valMul p t.scale))
      else round32 (valMul (round32 (valAdd (valOfInt e 0) p)) t.scale)

/-- A spice table evaluated at x (R266 to R269), forward or derivative. -/
def spiceVal (b : List Byte) (part : Nat) (x : Val) : Val × Bool :=
  let t := parseSpice b
  match t.kind with
  | 0 => spice0 b t part x
  | 1 => (spice1 b t part x, false)
  | _ => (spice2 b t part x, false)

/-- Latency class of a table (R270). -/
def spiceClass (b : List Byte) : Nat :=
  match (parseSpice b).kind with
  | 1 => 0x11
  | 2 => 0x12
  | _ => 0x13

/-- The table in a slot of station g's mortar; empty bytes for an empty slot. -/
def State.spiceAt (s : State) (g slot : Nat) : List Byte := Map.get [] s.spice (g * 8 + slot)

/-! Fields of word 1 (R177) and its rules. -/

/-- Bit of the destination descriptor. -/
def Ctx.mDstBit (x : Ctx) : Nat := if x.op = 0x30 then 24 else 12
/-- Whether a VEC function is unary (R178). -/
def Ctx.unary (x : Ctx) : Bool := 5 ≤ x.f 36 8 && x.f 36 8 ≤ 7
/-- Operand codes a mortar takes (R176). -/
def mortarIn (code : Nat) : Bool := [2, 3, 4, 5, 6, 0xD].contains code

/-- The rules of R176 to R183 on word 1, each class's table first. -/
def mortarWord (s : State) (e : Exec) (x : Ctx) : Option Fail :=
  let op := x.op
  let own : List (Bool × Fail) :=
    match op with
    | 0x30 =>
      [(x.unary && x.h.fmtB ≠ 0, bad0C op 1 48), (7 < x.f 36 8, bad0C op 5 100),
       (x.unary && x.f 12 12 ≠ 0, bad0C op 1 76), (x.unary && x.f 44 2 ≠ 0, bad0C op 1 108),
       (!x.unary && x.f 12 12 = 0, bad0C op 2 76), (!x.unary && !mortarIn x.h.fmtB.toNat, bad0C op 7 48)]
    | 0x31 => [(3 < x.f 24 8, bad0C op 5 88)]
    | 0x32 =>
      [(8 ≤ x.f 24 8 || (s.scopeStns x).any (fun g => (s.spiceAt g (x.f 24 8)).isEmpty), bad0C op 5 88)]
    | 0x33 =>
      [(x.f 36 1 = 0 && x.f 37 10 ≠ 0, bad0C op 1 101),
       (x.f 36 1 = 1 && (x.f 37 10 = 0 || 512 < x.f 37 10), bad0C op 5 101), (x.f 24 12 = 0, bad0C op 2 88)]
    | _ => [((e.region.map (fun l => l != x.f 52 12)).getD false, bad0C op 7 116)]
  firstFail (own ++
    [needDesc x 0, needDesc x x.mDstBit, (op = 0x30 && x.descCount ≤ x.f 12 12 && x.f 12 12 ≠ 0, bad0C op 2 76),
     (op = 0x33 && x.descCount ≤ x.f 24 12, bad0C op 2 88), (!mortarIn x.h.fmtA.toNat, bad0C op 7 52)])

/-- Bits of word 1 the class leaves zero (R177). -/
def mortarZeros (x : Ctx) : List (Nat × Nat) :=
  match x.op with
  | 0x30 => [(46, 18)]
  | 0x31 => [(32, 32)]
  | 0x32 => [(33, 31)]
  | 0x33 => [(47, 17)]
  | _ => []

/-- Output formats (R40, R176, R182). -/
def mortarFmt (x : Ctx) : Option Fail :=
  if x.op = 0x33 then
    let o := x.h.fmtOut.toNat
    firstFail [(if x.f 36 1 = 0 then !isMx o else !(o = 4 || o = 6), bad04 x.h 3), (x.h.round = 3, bad04 x.h 5)]
  else outFmt x.h false

/-! Rows (R176, R208). -/

/-- Values in a row of X: ROW_BYTES over the element size. -/
def rowLen (d : Desc) (code : Nat) : Nat := d.rowBytes / (elemBits code / 8)

/-- A row of X: logical row, station, row within the station's share. -/
structure MRow where
  row : Nat
  g : Nat
  loc : Nat
  deriving DecidableEq, Repr

/-- The rows of X in logical order: 32-row blocks go to the stations of the scope in turn (R15, R176); through the alias the
descriptor holds one station's share. -/
def mortarRows (stns : List Nat) (alias_ : Bool) (rows : Nat) : List MRow :=
  let n := max stns.length 1
  if alias_ then
    (List.range (cdiv rows 32)).flatMap (fun b => (stns.zipIdx).flatMap (fun (g, k) =>
      (List.range (min 32 (rows - 32 * b))).map (fun i => ⟨(b * n + k) * 32 + i, g, b * 32 + i⟩)))
  else
    (List.range rows).map (fun r => ⟨r, stns.getD (r / 32 % n) 0, r / (32 * n) * 32 + r % 32⟩)

/-- A mortar command's descriptors, as read at its issue: X, Y, destination, scale destination. -/
structure MDescs where
  x : Desc
  y : Desc
  d : Desc
  s : Desc
  deriving DecidableEq, Repr

def MDescs.of (bs : List (List Byte)) : MDescs :=
  ⟨parseDesc (bs.getD 0 []), parseDesc (bs.getD 1 []), parseDesc (bs.getD 2 []), parseDesc (bs.getD 3 [])⟩

/-- The descriptors' bytes. -/
def State.mBytes (s : State) (x : Ctx) : List (List Byte) :=
  [s.descBytes x (x.f 0 12), s.descBytes x (x.f 12 12), s.descBytes x (x.f x.mDstBit 12), s.descBytes x (x.f 24 12)]

def State.mRows (s : State) (x : Ctx) (m : MDescs) : List MRow :=
  mortarRows (s.scopeStns x) (s.isAlias x.p m.x) m.x.logRows

/-- Rows a vector of n elements of w bytes takes in a descriptor. -/
def flatRows (d : Desc) (n w : Nat) : Nat := cdiv n (max (d.rowBytes / w) 1)
/-- Address of element i of a vector held row by row. -/
def Desc.flatVa (d : Desc) (i w : Nat) : Nat :=
  let n := max (d.rowBytes / w) 1
  d.rowVa (i / n) + i % n * w

/-- Uses of a mortar command's descriptors (R208, R209). -/
def State.mortarUses (s : State) (x : Ctx) : List Use :=
  let rows := s.mRows x (MDescs.of (s.mBytes x))
  let total := rows.foldl (fun m r => max m (r.row + 1)) 0
  let share := rows.foldl (fun m r => max m (r.loc + 1)) 0
  let dsc (i : Nat) : Desc := s.desc x.p x.hdr i
  let need (i : Nat) : Nat := if s.isAlias x.p (dsc i) then share else total
  let fa := x.h.fmtA.toNat
  let w := elemBits fa / 8
  let ln := rowLen (dsc (x.f 0 12)) fa
  let di := x.f x.mDstBit 12
  let fo := x.h.fmtOut.toNat
  let use (i rows bytes : Nat) (wr : Bool) : Use :=
    { idx := i, rows := rows, bytes := bytes, rd := !wr, wr := wr, mx := none, checkScale := false, stream := false,
      transposed := false, levels := if wr then [.alias_, .depot, .hbm] else [.alias_, .depot] }
  [use (x.f 0 12) 1 w false] ++
  (if x.op = 0x30 && x.f 12 12 ≠ 0 then
    let yi := x.f 12 12
    let yw := elemBits x.h.fmtB.toNat / 8
    match x.f 44 2 with
    | 0 => [use yi (need yi) (ln * yw) false]
    | 1 => [use yi (flatRows (dsc yi) (need yi) yw) yw false]
    | 2 => [use yi (flatRows (dsc yi) ln yw) yw false]
    | _ => [use yi 1 yw false]
   else []) ++
  (match x.op with
   | 0x31 => [use di (flatRows (dsc di) (need di) (elemBits fo / 8)) (elemBits fo / 8) true]
   | 0x33 =>
     let si := x.f 24 12
     if x.f 36 1 = 0 then
       [use di (need di) (rowBytesOf fo ln) true, use si (flatRows (dsc si) (need si * cdiv ln 32) 1) 1 true]
     else
       [use di (need di) ln true, use si (flatRows (dsc si) (need si * (ln / (32 * max (x.f 37 10) 1))) 4) 4 true]
   | _ => [use di (need di) (rowBytesOf fo ln) true])

/-- The record and descriptor checks of a mortar command. -/
def mortarBody (s : State) (x : Ctx) : Option Fail :=
  if x.op = 0x33 && x.f 36 1 = 1 && rowLen (s.desc x.p x.hdr (x.f 0 12)) x.h.fmtA.toNat % (32 * max (x.f 37 10) 1) ≠ 0 then
    some (bad0C x.op 5 101)
  else s.useChecks x.p x.hdr (s.mortarUses x)

/-- The latency class of a mortar command (R139, R270). -/
def State.mortarClass (s : State) (x : Ctx) : Nat :=
  match x.op with
  | 0x31 => 0x14
  | 0x32 => spiceClass (s.spiceAt ((s.scopeStns x).headD 0) (x.f 24 8))
  | 0x33 => 0x15
  | _ => 0x10

/-- Segments or blocks a station's mortar works through (R53, R180, R261). -/
def mortarUnits (x : Ctx) (rows : List MRow) (ln g : Nat) : Nat :=
  let n := (rows.filter (·.g = g)).length
  if x.op = 0x33 then (if x.f 36 1 = 0 then n * cdiv ln 32 else 2 * (n * (ln / 32))) else n * cdiv ln 128

/-! Results. -/

/-- VEC (R178, R179): the value before the output conversion. -/
def vecVal (func : Nat) (x y : Val) : Val :=
  match func with
  | 0 => valAdd x y
  | 1 => valAdd x y.negv
  | 2 => valMul x y
  | 3 => valMax x y
  | 4 => valMin x y
  | 5 => x
  | 6 => x.negv
  | _ => x.absv

/-- REDUCE (R180). -/
def reduceVal (func : Nat) (xs : List Val) : Val :=
  match func, xs with
  | 0, _ => xs.foldl valAdd Val.zero
  | _, [] => Val.zero
  | 1, v :: vs => vs.foldl valMax v
  | 2, v :: vs => vs.foldl valMin v
  | _, v :: vs => vs.foldl (fun a y => valMax a y.absv) v.absv

/-- The keep factor of DROPOUT (R183). -/
def keepScale (p : Nat) : Val := round32 (valDiv (.fin false 65536 0) (.fin false (65536 - p) 0))

/-- A write of a mortar: station, partition-virtual address, bytes. -/
abbrev MWrite := Nat × Nat × List Byte

/-- What one row of X gives: writes, overflow and underflow events, high-range evaluations. -/
structure MOut where
  writes : List MWrite
  ovf : Nat
  unf : Nat
  high : Nat
  deriving DecidableEq, Repr

/-- Elements converted and written side by side from an address. -/
def convRow (k : Sink) (g va row : Nat) (vs : List Val) (high : Nat) : MOut :=
  let cs := (vs.zipIdx).map (fun (v, j) => convertOut k.fmt k.round (k.draw row j) k.sat v)
  ⟨[(g, va, cs.flatMap (fun c => leBytes (elemBits k.fmt / 8) c.bits))], (cs.filter (·.ovf)).length,
   (cs.filter (·.unf)).length, high⟩

/-- The result of one row (R176 to R183, R261, R275). -/
def State.mortarRow (s : State) (x : Ctx) (m : MDescs) (e : Exec) (r : MRow) : MOut :=
  let p := x.p
  let fa := x.h.fmtA.toNat
  let xd := m.x
  let dd := m.d
  let ln := rowLen xd fa
  let k := e.sink x.h 0 (x.f x.mDstBit 12)
  let at_ (d : Desc) : Nat := if s.isAlias p d then r.loc else r.row
  let xs := (List.range ln).map (fun j => s.elemVal p r.g xd fa (at_ xd) j)
  match x.op with
  | 0x30 =>
    let yd := m.y
    let fb := x.h.fmtB.toNat
    let w := elemBits fb / 8
    let flat (i : Nat) : Val := decodeElem fb (leNat (s.vbytes p r.g (yd.flatVa i w) w))
    let y (j : Nat) : Val :=
      if x.unary then Val.zero
      else match x.f 44 2 with
        | 0 => s.elemVal p r.g yd fb (at_ yd) j
        | 1 => flat (at_ yd)
        | 2 => flat j
        | _ => flat 0
    convRow k r.g (dd.rowVa (at_ dd)) r.row ((xs.zipIdx).map (fun (v, j) => vecVal (x.f 36 8) v (y j))) 0
  | 0x31 => convRow k r.g (dd.flatVa (at_ dd) (elemBits k.fmt / 8)) r.row [reduceVal (x.f 24 8) xs] 0
  | 0x32 =>
    let b := s.spiceAt r.g (x.f 24 8)
    let vs := xs.map (spiceVal b (x.f 32 1))
    convRow k r.g (dd.rowVa (at_ dd)) r.row (vs.map (·.1)) (vs.filter (·.2)).length
  | 0x33 =>
    let sd := m.s
    if x.f 36 1 = 0 then
      let nb := cdiv ln 32
      (List.range nb).foldl (fun o b =>
        let blk := (xs.drop (32 * b)).take 32
        let full := blk ++ List.replicate (32 - blk.length) Val.zero
        let (sc, els, ov, un) := sieveBlock k.fmt k.round ((List.range 32).map (fun i => k.draw r.row (32 * b + i))) full
        ⟨o.writes ++ [(r.g, dd.rowVa (at_ dd) + b * blockBytes k.fmt, packBlock k.fmt els),
                      (r.g, sd.flatVa (at_ sd * nb + b) 1, leBytes 1 sc)], o.ovf + ov, o.unf + (un.filter id).length, 0⟩) ⟨[], 0, 0, 0⟩
    else
      let l := 32 * max (x.f 37 10) 1
      let n := ln / l
      (List.range n).foldl (fun o i =>
        let seg := (xs.drop (l * i)).take l
        let (sc, els, ov, un) := sieveRow k.fmt k.round ((List.range l).map (fun j => k.draw r.row (l * i + j))) seg
        ⟨o.writes ++ [(r.g, dd.rowVa (at_ dd) + l * i, els.flatMap (leBytes 1)),
                      (r.g, sd.flatVa (at_ sd * n + i) 4, leBytes 4 sc)], o.ovf + ov, o.unf + un, 0⟩) ⟨[], 0, 0, 0⟩
  | _ =>
    let hi := saffronHi 1 e.step (x.f 52 12) (x.f 40 12)
    let vs := (xs.zipIdx).map (fun (v, j) =>
      valMul v (if x.f 24 16 ≤ saffronDraw e.seed hi (r.row * ln + j) then keepScale (x.f 24 16) else Val.zero))
    convRow k r.g (dd.rowVa (at_ dd)) r.row vs 0

/-- The ranges a mortar reads. -/
def State.mortarReads (s : State) (x : Ctx) (m : MDescs) : List (Nat × Nat × Nat) :=
  let ds := m.x :: (if x.op = 0x30 && x.f 12 12 ≠ 0 then [m.y] else [])
  ds.flatMap (fun d => if s.isAlias x.p d then (s.scopeStns x).flatMap d.ranges else d.ranges ((s.scopeStns x).headD 0))

/-- A mortar command's results, formed from the state before any of its writes (R167): written when it completes. -/
def State.mortarFinish (s : State) (x : Ctx) (m : MDescs) : State :=
  match s.exec? x.p with
  | none => s
  | some e =>
    let s := s.closeReads ((s.scopeCars x).headD 0) (fun r => r.seq = e.seq && r.off = x.off && !r.dropped)
    match s.poisonCheck x.p (s.stnUnit x 0x04) x.off (s.mortarReads x m) with
    | some s => s
    | none =>
      let outs := (s.mRows x m).map (fun r => (r, s.mortarRow x m e r))
      outs.foldl (fun s (r, o) =>
        let s := o.writes.foldl (fun s (g, va, bs) => s.storeVbytes (rtrOfCar (g / 8)) x.p g va bs) s
        let s := s.rangeEvents x.p (r.g / 8) (r.g % 8) o.ovf o.unf
        if o.high = 0 then s else s.count (Csr.stnSpice_highRange (r.g / 8) (r.g % 8)) o.high) s

/-- Paces from a mortar command's start to its last write: the assumed interval for each unit of work but the first, then
the assumed latency (R139, R141, R167). -/
def State.mortarLat (s : State) (x : Ctx) (m : MDescs) (e : Exec) : Nat :=
  let cls := s.mortarClass x
  let rows := s.mRows x m
  let ln := rowLen m.x x.h.fmtA.toNat
  let u := (s.scopeStns x).foldl (fun m g => max m (mortarUnits x rows ln g)) 0
  let iv := max (((e.timeOf cls).map (·.ival)).getD 1) 1
  (u - 1) * iv + e.lat cls

/-- The operands of a mortar command that a drover fetches: X and Y where they lie in no alias. -/
def State.mortarRows (s : State) (x : Ctx) (m : MDescs) : List (Nat × Nat) :=
  ((m.x :: (if x.op = 0x30 && x.f 12 12 ≠ 0 then [m.y] else [])).filter (fun d => !s.isAlias x.p d)).flatMap (fun d =>
    (List.range d.logRows).map (fun j => (d.rowVa j, d.rowBytes)))

/-- A mortar command's operands come to its caravans as it starts: X and Y once for all of them, through the lowest one's drover
(R238), and are out until the command is over. An operand in the alias is in each station already. -/
def State.mortarFetch (s : State) (x : Ctx) (m : MDescs) : State :=
  let rs := s.mortarRows x m
  let g := (s.scopeStns x).headD 0
  (s.fetchRows (s.scopeCars x) (rs.filterMap (fun (va, n) => (s.place x.p g va).map (·, n)))).openReads x.p ((s.scopeCars x).headD 0)
    (((s.exec? x.p).map (·.seq)).getD 0) x.off g rs

/-- No mark in force keeps the drovers from fetching a mortar command's operands (R166). -/
def State.mortarMay (s : State) (x : Ctx) (m : MDescs) : Bool :=
  match s.exec? x.p with
  | none => true
  | some e => (s.mortarRows x m).isEmpty || (s.scopeCars x).all (fun c => s.mayFetch x.p c e x.off)

/-- Units of work offered and completed in the current pace by a running mortar command, by the assumed timing; each may
raise a hold of source 5 (R141). -/
def State.mortarTick (s : State) (x : Ctx) (m : MDescs) (start : Nat) : State :=
  match s.exec? x.p with
  | none => s
  | some e =>
    let now := s.orderPace x.p
    let cls := s.mortarClass x
    let rows := s.mRows x m
    let ln := rowLen m.x x.h.fmtA.toNat
    let iv := max (((e.timeOf cls).map (·.ival)).getD 1) 1
    let s := if now = start then s.mortarFetch x m else s
    (s.scopeStns x).foldl (fun s g =>
      let u := mortarUnits x rows ln g
      let s := if start ≤ now && (now - start) % iv = 0 && (now - start) / iv < u then s.useClass x.p cls (mortarUnit g) else s
      let d := now - (start + e.lat cls)
      if start + e.lat cls ≤ now && d % iv = 0 && d / iv < u then s.excess x.p cls else s) s

/-- The mortar class (R162, R176). -/
def clsMortar : Cls :=
  { Cls.base with
    scopes := anyScope
    fmtA := true
    fmtOut := true
    round := true
    word := mortarWord
    zeros := mortarZeros
    fmt := mortarFmt
    body := mortarBody
    classes := fun s x => [s.mortarClass x]
    units := fun s x => (s.scopeStns x).map mortarUnit
    unit := fun s x => s.stnUnit x 0x04
    reads := fun s x => (s.mortarReads x (MDescs.of (s.mBytes x))).filterMap (fun (g, va, n) => (s.place x.p g va).map (·, n))
    descs := fun s x => x.f 0 12 :: (if x.op = 0x30 && x.f 12 12 ≠ 0 then [x.f 12 12] else [])
    start := fun s x =>
      match s.exec? x.p with
      | none => s
      | some e =>
        let m := MDescs.of (s.mBytes x)
        let s := s.enterWhen (s.mortarMay x m) x ((s.scopeStns x).map mortarUnit) (some (s.mortarLat x m e)) 0 0 (s.mBytes x)
        let s := s.dest x.p (s.rowsOf x.p (s.scopeStns x) m.d)
        if x.op = 0x33 then s.dest x.p (s.rowsOf x.p (s.scopeStns x) m.s) else s }

/-- VEC (R178, R179). -/
def clsVec : Cls := { clsMortar with fmtB := true }

def execVec (p : PartId) (h : Head) (w1 : Word) (s : State) : Host.Outcome State Fault Refusal :=
  answer s (fun s => clsVec.offer s p 0x30 h w1)

/-- REDUCE (R180). -/
def execReduce (p : PartId) (h : Head) (w1 : Word) (s : State) : Host.Outcome State Fault Refusal :=
  answer s (fun s => clsMortar.offer s p 0x31 h w1)

/-- SPICE (R181). -/
def execSpice (p : PartId) (h : Head) (w1 : Word) (s : State) : Host.Outcome State Fault Refusal :=
  answer s (fun s => clsMortar.offer s p 0x32 h w1)

/-- SIEVE (R182). -/
def execSieve (p : PartId) (h : Head) (w1 : Word) (s : State) : Host.Outcome State Fault Refusal :=
  answer s (fun s => clsMortar.offer s p 0x33 h w1)

/-- DROPOUT (R183). -/
def execDropout (p : PartId) (h : Head) (w1 : Word) (s : State) : Host.Outcome State Fault Refusal :=
  answer s (fun s => clsMortar.offer s p 0x34 h w1)

end Sys2Proof.Machine
end

