-- ==== Sys2Proof/Machine/Remnant.lean ====
section
/-!
DEFINITION. The remnant passes of a fenced station (R83 to R85, R90): the columns of logical group 15, computed at the end of a
product from operands that the drover fetches again.
-/
namespace Sys2Proof.Machine

/-- M-passes of a product whose M-block exists at a station. -/
def Run.blocksAt (u : Run) (g : Nat) : List Nat := (List.range u.mPasses).filter (fun mi => u.mBlock g mi * 32 < u.m)

/-- One remnant pass: its M-pass, and the places in the caravan's share of the N-blocks, at most 15, whose last columns it computes
side by side. -/
structure Remnant where
  mi : Nat
  blocks : List Nat
  deriving DecidableEq, Repr

/-- The remnant passes of a station in the order of R15: M-blocks first, N-blocks second. -/
def Run.remnants (u : Run) (g : Nat) : List Remnant :=
  (List.range (cdiv u.blocks.length 15)).flatMap (fun q =>
    (u.blocksAt g).map (fun mi => ⟨mi, ((List.range u.blocks.length).drop (15 * q)).take 15⟩))

/-- Remnant passes a station runs at the end of a product: none unless it is fenced. -/
def State.remnantsAt (s : State) (u : Run) (g : Nat) : Nat :=
  if s.logCols g = 128 || u.k = 0 then 0 else (u.remnants g).length

/-- A leg of a remnant pass: the pass, its tile, whether it is the pass's last, and whether the tile's columns are new to the visit, as
they are unless the pair's other pass takes the same N-blocks (R38, R64). -/
structure RemLeg where
  pass : Remnant
  tile : Nat
  last : Bool
  fresh : Bool
  deriving DecidableEq, Repr

/-- The legs of some remnant passes in the order they run: pair by pair, tile by tile, bank 0 before bank 1 (R64). -/
def remLegs (tiles : Nat) : List Remnant → List RemLeg
  | [] => []
  | [a] => (List.range tiles).map (fun j => ⟨a, j, j + 1 = tiles, true⟩)
  | a :: b :: more =>
    (List.range tiles).flatMap (fun j => [⟨a, j, j + 1 = tiles, true⟩, ⟨b, j, j + 1 = tiles, a.blocks ≠ b.blocks⟩]) ++ remLegs tiles more

/-- The station of g's group whose share holds tile j: a remnant pass runs unsplit over the full K (R114). -/
def Run.tileStn (u : Run) (g j : Nat) : Nat := ((u.kGroup g).find? (fun h => u.uses h j)).getD g

/-- Columns 120 to 127 of one N-block, and what one row brings to them in one tile. -/
def State.remTerms (s : State) (p : Nat) (u : Run) (g r j pi : Nat) : List (List Val) :=
  let h := u.tileStn g j
  let t := s.readTile p u h (pi / 2) j
  let vals := (u.kRows j).map (fun kk =>
    let (b, sc) := s.aStored p u h pi r kk
    (arrayVal u.fa b sc).1)
  ((List.range 128).drop 120).map (fun c => products (t.column u (pi % 2) c vals))

/-- Pass of the product whose tile a block of a remnant leg belongs to. -/
def Run.remPass (u : Run) (l : RemLeg) (i : Nat) : Nat := i * u.mPasses + l.pass.mi

/-- What the drover fetches for a remnant leg: the rows of A that lie in the depot, in the pass's first leg, and the fenced columns of
B's tile. Station, address and bytes. -/
def State.remReads (s : State) (p : Nat) (u : Run) (g : Nat) (l : RemLeg) : List (Nat × Nat × Nat) :=
  (if l.tile = 0 && !s.isAlias p (u.d 0) then s.aReads p u g l.pass.mi else []) ++
  (if l.fresh then l.pass.blocks.flatMap (fun i => u.bCols (u.tileStn g l.tile) (u.remPass l i) l.tile 120 128) else [])

/-- Conversions that overflow in a remnant leg: of the rows of A that it broadcasts, and of the tile it injects (R38). -/
def State.remOvf (s : State) (p : Nat) (u : Run) (g : Nat) (l : RemLeg) : Nat :=
  let h := u.tileStn g l.tile
  let m := s.rowMask p u g l.pass.mi
  (if u.fa = 0 then
     (((List.range 32).filter m.getLsbD).flatMap (fun r => (u.kRows l.tile).filter (fun kk =>
       let (b, sc) := s.aStored p u h l.pass.mi r kk
       (arrayVal u.fa b sc).2))).length
   else 0) +
  (if u.fb = 0 && l.fresh then
     (l.pass.blocks.flatMap (fun i => (u.kRows l.tile).flatMap (fun kk => ((List.range 128).drop 120).filter (fun c =>
       (arrayVal u.fb (s.bRaw p u h (u.remPass l i) kk c).1 0x7F).2)))).length
   else 0)

/-- One leg of a remnant pass at a station: the drover's reads and their poison, conversions, the sweeps of its rows over the 120
columns (R100), and the pass's count with its last leg. -/
def State.remLeg (s : State) (p : Nat) (u : Run) (g : Nat) (l : RemLeg) : State :=
  let c := g / 8
  let rs := s.remReads p u g l
  match s.poisonCheck p (arrayUnit g) u.off rs with
  | some s => s
  | none =>
    let s := (s.fetchRows [c] (rs.filterMap (fun (h, va, n) => (s.place p h va).map (·, n)))).count (Csr.drvXfer_transfers c)
      ((rs.map (fun (_, va, n) => piecesOf va n)).sum)
    let s := s.inputOvf p c (g % 8) (s.remOvf p u g l)
    let m := s.rowMask p u g l.pass.mi
    let s := ((List.range 32).filter m.getLsbD).foldl (fun s r =>
      s.sweepHeld p g (windowsIn u.fa (l.pass.blocks.flatMap (fun i => s.remTerms p u g r l.tile (u.remPass l i))))) s
    if l.last then s.count (Csr.stnFence_remnantPasses c (g % 8)) 1 else s

/-- Remnant legs a station runs at the end of a product. -/
def State.remLegsAt (s : State) (u : Run) (g : Nat) : List RemLeg :=
  if s.remnantsAt u g = 0 then [] else remLegs u.tiles (u.remnants g)

/-- Remnant legs from a to b − 1 of every fenced station of a product in a caravan. -/
def State.runRemLegs (s : State) (p : Nat) (u : Run) (a b : Nat) : State :=
  u.stns.foldl (fun s g => (((s.remLegsAt u g).take b).drop a).foldl (fun s l => if s.stopped p then s else s.remLeg p u g l) s) s

/-- The exact sum of an output element over the full K (R84, R114, R16): the running sum resumed and what every station of the
group brings. -/
def State.wholeEntry (s : State) (p : Nat) (u : Run) (g pi r c : Nat) : Entry :=
  let init := match s.resumeVa p u g pi with
    | some va => s.resumeEntry p g va r c
    | none => Entry.zero
  (u.kGroup g).foldl (fun e h => (u.tilesOf h).foldl (fun e j =>
    let t := s.readTile p u h (pi / 2) j
    let vals := (u.kRows j).map (fun kk =>
      let (b, sc) := s.aStored p u h pi r kk
      (arrayVal u.fa b sc).1)
    e.addAll u.w32 (products (t.column u (pi % 2) c vals))) e) init

/-- The columns that remnant passes compute for one output tile: each goes to its own destination, or into the held bank. -/
def State.remnantTile (s : State) (p : Nat) (u : Run) (g pi : Nat) : State :=
  match s.exec? p with
  | none => s
  | some e =>
    let key := u.key g pi
    let b := s.passBank u g pi (s.rowMask p u g pi)
    if u.f 24 12 = 0 then
      (List.range 32).foldl (fun s r =>
        if b.fed r then ((List.range 128).drop 120).foldl (fun s c => s.setEntry (entryKey key r c) (s.wholeEntry p u g pi r c)) s
        else s) s
    else
      s.drainCols p g b (fun r c => (s.wholeEntry p u g pi r c).val u.w32) (s.drainHi u g) 128 (e.sink u.h 0 (u.f 24 12)) (u.d 2)
        (u.optD 5 u.rcd.rsc) (u.optD 6 u.rcd.csc)

/-- The product of the running order whose remnant passes a caravan runs. -/
def State.remnantRun (s : State) (p c off : Nat) : Option Run :=
  (s.exec? p).bind (fun e => (s.car c).runs.find? (fun u => u.seq = e.seq && u.off = off))

/-- The remnant legs of one product in one caravan that have not run, and then what the passes bring. -/
def State.runRemnants (s : State) (p c off done : Nat) : State :=
  match s.remnantRun p c off with
  | none => s
  | some u =>
    let s := s.runRemLegs p u done (u.stns.foldl (fun n g => max n (s.remLegsAt u g).length) 0)
    if s.stopped p then s
    else (u.stns.filter (fun g => u.owns g && s.remnantGroup u g)).foldl (fun s g =>
      ((List.range u.passes).filter (u.exists_ g)).foldl (fun s pi => s.remnantTile p u g pi) s) s

/-- A pre-emption asked for while remnant passes run takes effect at a leg boundary of theirs (R90): how many of the legs still to run
have run by then is a free value (log entry 6). They resume from there. -/
def State.preemptRemnants (s : State) (p : Nat) : State :=
  (s.caravans p).foldl (fun s c => (s.car c).remnant.foldl (fun s (off, done) =>
    match s.remnantRun p c off with
    | none => s
    | some u =>
      let n := u.stns.foldl (fun n g => max n (s.remLegsAt u g).length) 0
      let (x, s) := s.draw
      let k := done + x % (n - done + 1)
      (s.runRemLegs p u done k).updCar c (fun q => { q with remnant := q.remnant.map (fun y => if y.1 = off then (off, k) else y) })) s) s

end Sys2Proof.Machine
end

