-- ==== Sys2Proof/Machine/Weigh.lean ====
section
/-!
DEFINITION. The weighhouse (R300 to R326): members and owners, buckets, chunks and packets, exact sums, deadlines, wide export,
the receipt of votes, epochs and RESHARD, and digests.
-/
namespace Sys2Proof.Machine

/-! Members, groups and owners (R300 to R302). -/

def wghUnit (s : State) (p : Nat) : Nat := unitInst (s.fld (Csr.wghShare_half p)) 0 0x40
/-- SHARD of a member. -/
def shardOf (e : BitVec 32) : Nat := bitsOf e.toNat 16 12
/-- The reduction group: members with the own SHARD, in index order. -/
def Wgh.group (w : Wgh) : List Nat :=
  (List.range w.members.length).filter (fun i => shardOf (w.members.getD i 0) = shardOf (w.members.getD w.self 0))
/-- The owner of chunk c of bucket b. -/
def Wgh.owner (w : Wgh) (b c : Nat) : Nat := (w.group).getD ((b + c) % max w.group.length 1) w.self
def Wgh.owns (w : Wgh) (b c : Nat) : Bool := w.owner b c = w.self
def Wgh.others (w : Wgh) : List Nat := w.group.filter (· ≠ w.self)
def Wgh.rec? (w : Wgh) (b : Nat) : Option SendRec := w.sends.find? (·.bucket = b)
/-- The own SEND of a bucket: in effect, in the pending slot, or of an earlier execution of the order. -/
def Wgh.own? (w : Wgh) (b : Nat) : Option SendRec := (w.sends ++ w.queued ++ w.old).find? (·.bucket = b)
def Wgh.setRec (w : Wgh) (r : SendRec) : Wgh := { w with sends := w.sends.map (fun x => if x.bucket = r.bucket then r else x) }
/-- Elements of a chunk of a bucket (R305, R316). -/
def chunkElems (wide : Bool) (slices c : Nat) : Nat := if wide then 4096 else min 65536 (slices * 4096 - c * 65536)
/-- Elements or entries in a packet. -/
def pktElems (wide : Bool) : Nat := if wide then 32 else 1024
/-- Packets of a chunk. -/
def chunkPkts (wide : Bool) (elems : Nat) : Nat := cdiv elems (pktElems wide)

/-! Packets (R307 to R309, R322). -/

/-- The weighhouse header (R307). -/
structure WHdr where
  typ : Nat
  flags : Nat
  job : Nat
  epoch : Nat
  attempt : Nat
  step : Nat
  bucket : Nat
  chunk : Nat
  packet : Nat
  count : Nat
  sender : Nat
  slices : Nat
  reason : Nat
  states : Nat
  deriving DecidableEq, Repr

def WHdr.bytes (h : WHdr) : List Byte :=
  leBytes 1 h.typ ++ leBytes 1 h.flags ++ leBytes 2 h.job ++ leBytes 2 h.epoch ++ leBytes 2 h.attempt ++ leBytes 4 h.step ++
  leBytes 4 h.bucket ++ leBytes 2 h.chunk ++ leBytes 2 h.packet ++ leBytes 2 h.count ++ leBytes 2 h.sender ++ leBytes 4 h.slices ++
  leBytes 4 h.reason ++ leBytes 8 h.states ++ List.replicate 24 0

def parseWHdr (w : BitVec 512) : WHdr :=
  let f (i n : Nat) : Nat := bitsOf w.toNat (8 * i) (8 * n)
  ⟨f 0 1, f 1 1, f 2 2, f 4 2, f 6 1, f 8 4, f 12 4, f 16 2, f 18 2, f 20 2, f 22 2, f 24 4, f 28 1, f 32 8⟩

/-- Bytes the header table does not name. -/
def wghSpare (w : BitVec 512) : Bool :=
  bitsOf w.toNat 56 8 ≠ 0 || bitsOf w.toNat (29 * 8) 24 ≠ 0 || bitsOf w.toNat 320 192 ≠ 0

/-- A header of this partition's context. -/
def State.wHdr (s : State) (p typ bucket chunk : Nat) : WHdr :=
  let w := s.wctx p
  { typ := typ, flags := 0, job := s.fld (Csr.wghCfg_job p), epoch := s.fld (Csr.wghEpoch_epoch p), attempt := w.attempt % 16,
    step := w.step.toNat, bucket := bucket, chunk := chunk, packet := 0, count := 0, sender := w.self, slices := 0, reason := 0,
    states := 0 }

/-- The link class of a packet type (R308): 0 control, 1 collective, 2 point-to-point. -/
def wghClass (typ : Nat) : Nat := if typ = 2 || typ = 4 then 1 else if typ = 3 || typ = 5 then 2 else 0

/-- The CRC a digest adds for a packet: ATTEMPT reads as zero (R322). -/
def wghCrc (bytes : List Byte) : Nat := (crc64 ((bytes.take 6) ++ [0] ++ bytes.drop 7)).toNat

/-- Add a packet to a pair of digests (R322). -/
def State.digest (s : State) (a b : FieldRef) (bytes : List Byte) : State :=
  let c := wghCrc bytes
  (s.setFld a ((s.fld a + c) % 2 ^ 64)).setFld b ((s.fld b + c) % 2 ^ 64)

/-- Send a packet to a member. -/
def State.wSend (s : State) (p member : Nat) (h : WHdr) (payload : List Byte) : State :=
  let dest := bitsOf ((s.wctx p).members.getD member 0).toNat 0 15
  let bs := h.bytes ++ payload
  let sent := match s.portTo ((s.detour dest).getD dest) with
    | some i => s.active i
    | none => false
  let s := s.sendPacket (wghClass h.typ) dest 1 0 0 0 0 bs
  if sent then s.digest (Csr.wghDigestTx_digest p) (Csr.wghStepTx_digest p) bs else s

/-- A header R309 calls malformed. `pending`: it belongs to the pending epoch, whose table is not loaded. -/
def Wgh.malformed (w : Wgh) (hdr : BitVec 512) (n : Nat) (pending : Bool) : Bool :=
  let h := parseWHdr hdr
  let t := h.typ
  let wide := t = 4 || t = 5
  t = 0 || 8 < t || wghSpare hdr || 16 ≤ h.attempt || 2 ^ 20 ≤ h.bucket ||
  1 < h.flags || (h.flags = 1 && !(t = 3 || t = 5)) || (h.states ≠ 0 && !wide) || (h.reason ≠ 0 && !(t = 6 || t = 7)) ||
  (h.slices ≠ 0 && !(t = 1 || t = 2 || wide)) ||
  (if t = 2 || t = 3 then 1024 < h.count || n ≠ 4 * h.count
   else if wide then 32 < h.count || n ≠ 80 * h.count
   else if t = 6 then h.count ≠ 1 || n ≠ 80
   else h.count ≠ 0 || n ≠ 0) ||
  (!pending && w.members.length ≤ h.sender)

/-! Exact sums (R303, R311, R316). -/

/-- The unit of an owner's frame: 2⁻¹⁴⁹, or 2⁻³²⁰ for wide entries. -/
def frameExp (wide : Bool) : Int := if wide then -320 else -149

/-- A contribution of FP32 bits as an exact sum. -/
def accOf32 (bits : Nat) : Acc := Acc.zero.add (-149) (fp32.decode bits)
/-- The 640-bit value of a wide entry's 80 bytes. -/
def accOf80 (bs : List Byte) (st : Nat) : Acc := ⟨signedOf 640 (leNat bs), stOf st⟩
/-- A wide entry on the wire; a state other than finite carries value 0. -/
def bytes80 (a : Acc) : List Byte := leBytes 80 (if a.st = .fin then (a.v % 2 ^ 640).toNat else 0)
/-- STATES of a packet's entries. -/
def statesOf (xs : List Acc) : Nat := (xs.zipIdx).foldl (fun n (a, j) => n + stCode a.st * 4 ^ j) 0

/-- The payload of a contribution or result as exact sums. -/
def payloadAccs (wide : Bool) (states n : Nat) (bs : List Byte) : List Acc :=
  (List.range n).map (fun j =>
    if wide then accOf80 ((bs.drop (80 * j)).take 80) (states / 4 ^ j) else accOf32 (leAt bs (4 * j) 4))

/-- Add a run of values into the sums from element i on. -/
def addAt (u : Int) (sums : List Acc) (i : Nat) (xs : List Acc) : List Acc :=
  sums.take i ++ (List.zipWith (fun (a b : Acc) => a.add u (b.val u)) (sums.drop i) xs) ++ sums.drop (i + xs.length)

/-! Delivery (R285, R306, R313, R314). -/

/-- Write a wide result chunk to the wide area, and signal the wide flag once the bucket is complete (R316). -/
def State.wideWrite (s : State) (p : Nat) (r : SendRec) (c : Nat) (vals : List (BitVec 32)) (whole : Bool) : State :=
  let va := s.fld (Csr.wghWideBase_base p) + r.bucket * 0x20000 + c * 0x4000
  let u := wghUnit s p
  match s.rowCheck p 0 va 0x4000 true with
  | some f => s.raise p u f.1 r.off f.2
  | none =>
    let s := s.storeVbytes (s.wghRtr p) p (s.homeStn p) va (vals.flatMap (fun v => leBytes 4 v.toNat))
    let idx := s.fld (Csr.wghWideCtl_flag p)
    if !whole || idx < 3968 then s
    else if (s.flagAt (s.home p * 4096 + idx)).quantum = 0 then s.raise p u 0x01 r.off idx
    else s.signalOutside p idx

/-- Whether a SEND in flight has left the device: every chunk that another member owns has been sent, or has been resolved before. -/
def Wgh.left (w : Wgh) (seq : Nat) (m : Cmd) : Bool :=
  match w.rec? (bitsOf m.w1.toNat 12 20) with
  | some r => m.op = 0x70 && m.done.isNone && m.off = r.off && r.seq = seq &&
      (List.range r.chunks).all (fun c => r.sent.contains c || r.resolved.contains c)
  | none => false

/-- Mark the SENDs of the running execution that have left the device complete (R167); a wide one frees the banks it has sent (R191). -/
def State.sendsLeft (s : State) (p : Nat) : State :=
  match s.exec? p with
  | none => s
  | some e =>
    let w := s.wctx p
    let gone := e.cmds.filter (w.left e.seq)
    let s := gone.foldl (fun s m => if bitOf m.w1.toNat 48 then s.freeTaken m.off (s.scopeStns (m.ctx p e.hdr)) else s) s
    s.updExec p (fun e => { e with cmds := e.cmds.map (fun m => if w.left e.seq m then { m with done := some (s.orderPace p) } else m) })

/-- The same for both of two interleaved orders (R220). -/
def State.sendDone (s : State) (p : Nat) : State :=
  let s := match (s.part p).prev with
    | some q => s.forSeq p q.seq (fun s => s.sendsLeft p)
    | none => s
  s.sendsLeft p

/-- Whether an order runs here, interleaved or not, or is pre-empted (R220, R325). -/
def State.mine (s : State) (p seq : Nat) : Bool :=
  let x := s.part p
  (x.exec.toList ++ x.prev.toList ++ (x.preempt.map (fun q => q.exec :: q.prev.toList)).getD []).any (·.seq = seq)

/-- Range events of roundings in the weighhouse are sticky in their order's completion record (R49). -/
def State.wSticky (s : State) (p seq : Nat) (ovf unf : Bool) : State :=
  s.forSeq p seq (fun s =>
    if ((s.exec? p).map (·.seq)) ≠ some seq then s
    else
      let s := if ovf then s.sticky p 1 else s
      if unf then s.sticky p 2 else s)

/-- What an owner has done with a chunk, in every record of its bucket: 2c sent, 2c + 1 failed. A SEND that is to issue again in a
re-execution has its record among the old ones (R311, R321). -/
def Wgh.markOwn (w : Wgh) (b v : Nat) : Wgh :=
  let f (rs : List SendRec) : List SendRec := rs.map (fun r => if r.bucket = b then { r with ownDone := v :: r.ownDone } else r)
  { w with sends := f w.sends, queued := f w.queued, old := f w.old }

/-- Whether this owner has sent a chunk's results. -/
def Wgh.ownSent (w : Wgh) (b c : Nat) : Bool := (w.sends ++ w.queued ++ w.old).any (fun r => r.bucket = b && r.ownDone.contains (c * 2))

/-- Whether a chunk has failed here (R314). -/
def Wgh.failed (w : Wgh) (b c : Nat) : Bool := w.taken.any (fun y => y.bucket = b && y.chunk = c && y.kind = 2)

/-- A chunk is resolved here, once: kept for re-executions of the order, and passed on. Answers whether it was the first. -/
def State.deliver (s : State) (p : Nat) (x : ChunkIn) : State × Bool :=
  let w := s.wctx p
  let known := w.taken.any (fun y => y.bucket = x.bucket && y.chunk = x.chunk)
  match w.rec? x.bucket with
  | none => if known then (s, false) else (s.setWctx p { w with taken := w.taken ++ [x] }, true)
  | some r =>
    if r.resolved.contains x.chunk then (s, false)
    else
      let r := { r with resolved := x.chunk :: r.resolved, got := r.got.filter (·.chunk ≠ x.chunk),
                        bad := if x.kind = 2 then x.chunk :: r.bad else r.bad }
      let w := w.setRec r
      let taken := if known then w.taken else w.taken ++ [x]
      let inbox := if r.wide then w.inbox else w.inbox ++ [x]
      let w := if s.mine p r.seq then { w with taken := taken, inbox := inbox } else w
      let s := s.setWctx p w
      let good (c : Nat) : Bool := r.resolved.contains c && !r.bad.contains c
      let s := if r.wide && x.kind ≤ 1 then s.wideWrite p r x.chunk x.vals ((List.range r.chunks).all good) else s
      ((s.wSticky p r.seq x.ovf x.unf).sendDone p, true)

/-! The owner (R310 to R314). -/

/-- Values of chunk c of a bucket, from this member's ledger slices or wide entries. -/
def State.chunkVals (s : State) (p : Nat) (r : SendRec) (c : Nat) : List Acc :=
  if r.wide then (r.wideVals.drop (c * 4096)).take 4096
  else (List.range (chunkElems false r.slices c)).map (fun i =>
    let e := c * 65536 + i
    accOf32 (leNat (s.vbytes p (s.homeStn p) (r.rows.getD (e / 4096) 0 + 64 + 4 * (e % 4096)) 4)))

/-- The ledger slices of a chunk of n elements cross the mesh to the weighhouse (R228, R310). -/
def State.sliceFetch (s : State) (p : Nat) (r : SendRec) (c n : Nat) : State :=
  if r.wide then s else (List.range (cdiv n 4096)).foldl (fun s j =>
    s.meshRow false (s.wghRtr p) p (s.homeStn p) (r.rows.getD (c * 16 + j) 0 + 64) (4 * min 4096 (n - j * 4096))) s

/-- A poisoned word in a chunk's ledger slices is fault 0x71 at the SEND (R376). -/
def State.chunkPoison (s : State) (p : Nat) (r : SendRec) (c : Nat) : Option State :=
  if r.wide then none
  else s.poisonCheck p (wghUnit s p) r.off (((r.rows.drop (c * 16)).take 16).map (fun va => (s.homeStn p, va + 64, 16384)))

/-- The rounded results of a complete slot: FP32 bits, range events, and whether any is not finite (R312). -/
def Slot.results (k : Slot) : List (BitVec 32) × Nat × Nat × Bool :=
  let cs := k.sums.map (fun a => rne32 (plusZero (a.val (frameExp k.wide))))
  (cs.map (fun c => BitVec.ofNat 32 c.bits), (cs.filter (·.ovf)).length, (cs.filter (·.unf)).length,
   cs.any (fun c => !(fp32.decode c.bits).isFin))

/-- A slot's chunk is complete: one rounding, the results, the local delivery, and the slot is free (R312, R316). Range events are
sticky in the completion record (R49). -/
def State.finishSlot (s : State) (p : Nat) (k : Slot) : State :=
  let w := s.wctx p
  let (vals, ovf, unf, nf) := k.results
  let s := (s.count (Csr.wghRange_ovfCount p) ovf).count (Csr.wghRange_unfCount p) unf
  let s := if nf then s.count (Csr.wghRange_nonfiniteChunks p) 1 else s
  let h := { s.wHdr p (if k.wide then 5 else 3) k.bucket k.chunk with
    flags := boolNat nf, attempt := k.attempt % 16, step := k.step.toNat,
    slices := if k.wide then k.slices else 0 }
  let n := pktElems k.wide
  let s := w.others.foldl (fun s m => (List.range (chunkPkts k.wide k.elems)).foldl (fun s i =>
    let xs := (k.sums.drop (i * n)).take n
    let h := { h with packet := i, count := xs.length, states := if k.wide then statesOf xs else 0 }
    s.wSend p m h (if k.wide then xs.flatMap bytes80 else ((vals.drop (i * n)).take n).flatMap (fun v => leBytes 4 v.toNat))) s) s
  let s := s.updWctx p (fun w => { w with slots := w.slots.erase k })
  if k.step = w.step && k.attempt = w.attempt then
    let s := s.updWctx p (fun w => w.markOwn k.bucket (k.chunk * 2))
    (s.deliver p ⟨k.bucket, k.chunk, boolNat nf, true, vals, ovf ≠ 0, unf ≠ 0⟩).1
  else s

/-- Every member's packets have arrived. -/
def Slot.complete (k : Slot) (w : Wgh) : Bool :=
  w.group.all (fun m => (List.range (chunkPkts k.wide k.elems)).all (fun i => k.got.contains (m, i)))

/-- The next owned chunk to open, in (BUCKET, CHUNK) order: of the SENDs of the current pair, those of orders that have ended among them
(R315). An OPEN of an older pair would be stale at every member that has reached this one. -/
def Wgh.nextOwned (w : Wgh) : Option (SendRec × Nat) :=
  let all := w.sends.flatMap (fun r =>
    if r.skipped || r.step ≠ w.step || r.attempt ≠ w.attempt then [] else ((List.range r.chunks).filter (fun c => w.owns r.bucket c && !r.opened.contains c)).map (fun c => (r, c)))
  all.foldl (fun (best : Option (SendRec × Nat)) x => match best with
    | .none => some x
    | some b => if x.1.bucket < b.1.bucket || (x.1.bucket = b.1.bucket && x.2 < b.2) then some x else best) .none

/-- An owner opens its next chunk when a slot is free (R310): a cleared slot, OPEN to the others, its own contribution. -/
def State.openChunk (s : State) (p : Nat) : State :=
  let w := s.wctx p
  if s.fld (Csr.wghShare_slots p) ≤ w.slots.length || (s.part p).wghLost then s
  else
    match w.nextOwned with
    | none => s
    | some (r, c) =>
      match s.chunkPoison p r c with
      | some s => s
      | none =>
        let n := chunkElems r.wide r.slices c
        let k : Slot :=
          { step := w.step, attempt := w.attempt, bucket := r.bucket, chunk := c, wide := r.wide, elems := n, slices := r.slices,
            sums := addAt (frameExp r.wide) (List.replicate n Acc.zero) 0 (s.chunkVals p r c),
            got := (List.range (chunkPkts r.wide n)).map (fun i => (w.self, i)) }
        let s := (s.sliceFetch p r c n).setWctx p { w.setRec { r with opened := c :: r.opened } with slots := w.slots ++ [k] }
        let s := w.others.foldl (fun s m => s.wSend p m { s.wHdr p 1 r.bucket c with slices := r.slices } []) s
        if k.complete w then s.finishSlot p k else s

def execOwnerOpenChunk (p : PartId) (s : State) : Host.Outcome State Fault Refusal := answer s (fun s => s.openChunk p)

/-- An owner's deadline (R314): the slot is free, FAIL goes to the others, the chunk is bad here. -/
def State.ownerMiss (s : State) (p b c : Nat) : State :=
  if (s.part p).wghLost then s
  else
  let w := s.wctx p
  match w.slots.find? (fun k => k.bucket = b && k.chunk = c) with
  | none => s
  | some k =>
    let s := s.setWctx p { w with slots := w.slots.erase k }
    let s := w.others.foldl (fun s m => s.wSend p m { s.wHdr p 8 b c with attempt := k.attempt % 16, step := k.step.toNat } []) s
    if k.step = w.step && k.attempt = w.attempt then
      let s := s.updWctx p (fun w => w.markOwn b (c * 2 + 1))
      let (s, new) := s.deliver p ⟨b, c, 2, true, [], false, false⟩
      if new then s.count (Csr.wghCount_missed p) 1 else s
    else s.count (Csr.wghCount_missed p) 1

def execOwnerDeadlineExpire (p : PartId) (bucket : BitVec 20) (chunk : BitVec 16) (s : State) : Host.Outcome State Fault Refusal :=
  answer s (fun s => s.ownerMiss p bucket.toNat chunk.toNat)

/-- A member's deadline (R314), which runs from the issue of its SEND, also while that waits in the weighhouse's pending slot (R159). -/
def State.memberMiss (s : State) (p b c : Nat) : State :=
  if (s.part p).wghLost then s
  else
  match ((s.wctx p).rec? b).orElse (fun _ => (s.wctx p).queued.find? (·.bucket = b)) with
  | some r =>
    if c < r.chunks && !r.skipped then
      let (s, new) := s.deliver p ⟨b, c, 2, (s.wctx p).owns b c, [], false, false⟩
      if new then s.count (Csr.wghCount_missed p) 1 else s
    else s
  | none => s

def execMemberDeadlineExpire (p : PartId) (bucket : BitVec 20) (chunk : BitVec 16) (s : State) : Host.Outcome State Fault Refusal :=
  answer s (fun s => s.memberMiss p bucket.toNat chunk.toNat)

/-! The member (R310, R313). -/

/-- Send a chunk's contributions to its owner, from the ledger as it stands (R310). -/
def State.contribute (s : State) (p : Nat) (r : SendRec) (c : Nat) : State :=
  let w := s.wctx p
  if r.chunks ≤ c || r.skipped then s
  else
    match s.chunkPoison p r c with
    | some s => s
    | none =>
      let xs := s.chunkVals p r c
      let raw (i : Nat) : List Byte :=
        let e := c * 65536 + i * 1024
        s.vbytes p (s.homeStn p) (r.rows.getD (e / 4096) 0 + 64 + 4 * (e % 4096)) 4096
      let n := pktElems r.wide
      let own := w.owner r.bucket c
      let s := s.sliceFetch p r c xs.length
      let s := (List.range (chunkPkts r.wide xs.length)).foldl (fun s i =>
        let ys := (xs.drop (i * n)).take n
        let h := { s.wHdr p (if r.wide then 4 else 2) r.bucket c with
          packet := i, count := ys.length, slices := r.slices, states := if r.wide then statesOf ys else 0 }
        s.wSend p own h (if r.wide then ys.flatMap bytes80 else raw i)) s
      (s.updWctx p (fun w => { w.setRec { r with sent := if r.sent.contains c then r.sent else c :: r.sent } with
        opens := w.opens.filter (· ≠ (r.bucket, c)) })).sendDone p

/-- Whether the UPDATE of a bucket has issued in the running execution (R313). -/
def State.updIssued (s : State) (p b : Nat) : Bool := ((s.exec? p).map (fun e => e.upds.any (·.bucket = b))).getD false

/-- How a packet of the current pair and epoch ends. -/
inductive WAct where
  | taken
  | waits
  | dropped
  deriving DecidableEq, Repr

/-- OPEN (R310). -/
def State.wOpen (s : State) (p : Nat) (h : WHdr) : State × WAct :=
  let w := s.wctx p
  if h.sender ≠ w.owner h.bucket h.chunk || h.sender = w.self then (s.count (Csr.wghCount_malformed p) 1, .dropped)
  else if w.failed h.bucket h.chunk then (s.count (Csr.wghCount_stale p) 1, .dropped)
  else
    match w.rec? h.bucket with
    | some r => (s.contribute p r h.chunk, .taken)
    | none => (s.setWctx p { w with opens := (h.bucket, h.chunk) :: w.opens.filter (· ≠ (h.bucket, h.chunk)) }, .taken)

/-- CONTRIB and WIDE_CONTRIB at the owner (R311, R314, R320). -/
def State.wContrib (s : State) (p : Nat) (h : WHdr) (wide : Bool) (payload : List Byte) : State × WAct :=
  let w := s.wctx p
  let bad := (s.count (Csr.wghCount_malformed p) 1, WAct.dropped)
  if ((w.own? h.bucket).map (fun (r : SendRec) => r.slices != h.slices)).getD false then
    (s.wSend p h.sender { s.wHdr p 7 h.bucket h.chunk with reason := 2 } [], .dropped)
  else if !w.group.contains h.sender then bad
  else
    match w.slots.find? (fun k => k.bucket = h.bucket && k.chunk = h.chunk && k.step = w.step && k.attempt = w.attempt) with
    | none =>
      (s.count (if w.ownSent h.bucket h.chunk then Csr.wghCount_duplicates p else Csr.wghCount_stale p) 1, .dropped)
    | some k =>
      let n := pktElems wide
      if k.wide ≠ wide || chunkPkts wide k.elems ≤ h.packet || h.count ≠ min n (k.elems - h.packet * n) then bad
      else if k.got.contains (h.sender, h.packet) then (s.count (Csr.wghCount_duplicates p) 1, .dropped)
      else
        let k' := { k with sums := addAt (frameExp wide) k.sums (h.packet * n) (payloadAccs wide h.states h.count payload),
                           got := (h.sender, h.packet) :: k.got }
        let s := s.setWctx p { w with slots := w.slots.map (fun y => if y = k then k' else y) }
        (if k'.complete w then s.finishSlot p k' else s, .taken)

/-- RESULT and WIDE_RESULT at a member (R313, R314, R316). -/
def State.wResult (s : State) (p : Nat) (h : WHdr) (wide : Bool) (payload : List Byte) : State × WAct :=
  let w := s.wctx p
  match w.rec? h.bucket with
  | none => (s, .waits)
  | some r =>
    let n := pktElems wide
    let elems := chunkElems r.wide r.slices h.chunk
    if r.wide ≠ wide || r.skipped || r.chunks ≤ h.chunk || h.sender ≠ w.owner h.bucket h.chunk ||
       chunkPkts wide elems ≤ h.packet || h.count ≠ min n (elems - h.packet * n) then
      (s.count (Csr.wghCount_malformed p) 1, .dropped)
    else if r.resolved.contains h.chunk then
      (s.count (if w.failed h.bucket h.chunk then Csr.wghCount_stale p else Csr.wghCount_duplicates p) 1, .dropped)
    else if r.got.any (fun g => g.chunk = h.chunk && g.packet = h.packet) then (s.count (Csr.wghCount_duplicates p) 1, .dropped)
    else if !wide && !s.updIssued p h.bucket then (s, .waits)
    else
      let xs := payloadAccs wide h.states h.count payload
      let cs := if wide then xs.map (fun a => rne32 (plusZero (a.val (-320)))) else []
      let vals := if wide then cs.map (fun c => BitVec.ofNat 32 c.bits)
        else (List.range h.count).map (fun j => BitVec.ofNat 32 (leAt payload (4 * j) 4))
      let got := ⟨h.chunk, h.packet, h.flags = 1, vals, [], cs.any (·.ovf), cs.any (·.unf)⟩ :: r.got
      let s := s.setWctx p (w.setRec { r with got := got })
      let mine := got.filter (·.chunk = h.chunk)
      if mine.length < chunkPkts wide elems then (s, .taken)
      else
        let all := (List.range (chunkPkts wide elems)).flatMap (fun i => ((mine.find? (·.packet = i)).map (·.vals)).getD [])
        ((s.deliver p ⟨h.bucket, h.chunk, boolNat (mine.any (·.nf)), false, all, mine.any (·.ovf), mine.any (·.unf)⟩).1, .taken)

/-- FAIL from an owner (R314). -/
def State.wFail (s : State) (p : Nat) (h : WHdr) : State × WAct :=
  if h.sender ≠ (s.wctx p).owner h.bucket h.chunk then (s.count (Csr.wghCount_malformed p) 1, .dropped)
  else
    let (t, new) := s.deliver p ⟨h.bucket, h.chunk, 2, false, [], false, false⟩
    if new then (t.count (Csr.wghCount_missed p) 1, .taken) else (s.count (Csr.wghCount_stale p) 1, .dropped)

/-- A vote, kept once for each member (R317, R318). -/
def State.wVote (s : State) (p : Nat) (h : WHdr) (payload : List Byte) : State × WAct :=
  let w := s.wctx p
  if w.votes.any (·.1 = h.sender) then (s.count (Csr.wghCount_duplicates p) 1, .dropped)
  else (s.setWctx p { w with votes := w.votes ++ [(h.sender, h.reason, accOf80 payload 0)] }, .taken)

/-- A NAK (R320): fault 0x41, reason 3, or 0x44, at the SEND of the bucket. -/
def State.wNak (s : State) (p : Nat) (h : WHdr) : State × WAct :=
  let r := (s.wctx p).own? h.bucket
  let off := (r.map (·.off)).getD 0
  let u := wghUnit s p
  if h.reason = 1 then
    (s.raise p u 0x41 off (s.fld (Csr.wghEpoch_epoch p) + h.epoch * 2 ^ 16 + h.bucket * 2 ^ 32 + 3 * 2 ^ 52), .taken)
  else if h.reason = 2 then (s.raise p u 0x44 off (h.bucket + (r.map (·.slices)).getD 0 * 2 ^ 20), .taken)
  else (s.count (Csr.wghCount_malformed p) 1, .dropped)

/-- Compare a packet's (STEP, ATTEMPT) with the receiver's (R315): taken, waits, or stale. -/
def Wgh.pairOf (w : Wgh) (step attempt : Nat) : WAct :=
  let cur := w.step.toNat
  if step = cur && attempt = w.attempt % 16 then .taken
  else if (step = cur && attempt = (w.attempt + 1) % 16) || (step = (cur + 1) % 2 ^ 32 && attempt = 0) then .waits
  else .dropped

/-- The partition whose WGH_CFG.JOB a packet carries: the lowest one that exists (log entry 25). -/
def State.jobPart (s : State) (job : Nat) : Option Nat :=
  (List.range 8).find? (fun p => !(s.caravans p).isEmpty && s.fld (Csr.wghCfg_job p) = job)

/-- A weighhouse packet that has passed the window list meets its partition's context (R309, R315, R320); answers whether it waits. A
context that is lost with its instance takes nothing (R325). -/
def State.wghMeet (s : State) (port : Nat) (hdr : BitVec 512) (payload : List Byte) : State × Bool :=
  let h := parseWHdr hdr
  match s.jobPart h.job with
  | none => (s.count (Csr.lnkDrop_malformed port) 1, false)
  | some p =>
    let w := s.wctx p
    let cur := s.fld (Csr.wghEpoch_epoch p)
    let pending := h.epoch ≠ cur && s.flag1 (Csr.wghGroupCtl_pendingValid p) && h.epoch = s.fld (Csr.wghGroupCtl_pendingEpoch p)
    if (s.part p).wghLost then (s, false)
    else if w.malformed hdr payload.length pending then (s.count (Csr.wghCount_malformed p) 1, false)
    else
      match w.pairOf h.step h.attempt with
      | .dropped => (s.count (Csr.wghCount_stale p) 1, false)
      | .waits => (s, true)
      | .taken =>
        if h.epoch ≠ cur && h.typ ≠ 7 then
          if pending then (s, true)
          else (s.wSend p h.sender { s.wHdr p 7 h.bucket h.chunk with reason := 1 } [], false)
        else
          let (s, a) := match h.typ with
            | 1 => s.wOpen p h
            | 2 => s.wContrib p h false payload
            | 3 => s.wResult p h false payload
            | 4 => s.wContrib p h true payload
            | 5 => s.wResult p h true payload
            | 6 => s.wVote p h payload
            | 7 => s.wNak p h
            | _ => s.wFail p h
          match a with
          | .taken => (s.digest (Csr.wghDigestRx_digest p) (Csr.wghStepRx_digest p) (h.bytes ++ payload), false)
          | .waits => (s, true)
          | .dropped => (s, false)

/-- A packet waits at its port: in the port's buffer, holding its credits, when it came as a packet (R313, R315, R320). -/
def State.wWait (s : State) (p port : Nat) (k : Option Packet) (hdr : BitVec 512) (payload : List Byte) : State :=
  let s := match k with
    | some k => s.park port k
    | none => s
  s.updWctx p (fun w => { w with
    waiting := if k.isSome && w.waiting.contains ⟨port, k, hdr, payload⟩ then w.waiting else w.waiting ++ [⟨port, k, hdr, payload⟩] })

/-- A weighhouse packet is met: it leaves its port, or waits there. -/
def State.wghReceive (s : State) (port : Nat) (k : Option Packet) (hdr : BitVec 512) (payload : List Byte) : State :=
  let p := (s.jobPart (parseWHdr hdr).job).getD 0
  let (s, waits) := s.wghMeet port hdr payload
  if waits then s.wWait p port k hdr payload
  else
    match k with
    | some k => (s.leave port k).updWctx p (fun w => { w with waiting := w.waiting.filter (fun x => !(x.port = port && x.pkt = some k)) })
    | none => s

/-- Packets that waited are met again, in their order; one behind another of its VC stays behind it. -/
def State.wRefeed (s : State) (p : Nat) : State :=
  let q := (s.wctx p).waiting
  q.foldl (fun s x =>
    if (x.pkt.map (fun k => s.atHead x.port k)).getD true then s.wghReceive x.port x.pkt x.hdr x.payload
    else s.wWait p x.port x.pkt x.hdr x.payload) (s.updWctx p (fun w => { w with waiting := [] }))

/-! SEND (R191, R305, R306, R316). -/

/-- Word 3 of code 0x43. -/
def bad43 (x : Ctx) (reason : Nat) : Fail := (0x43, x.f 12 20 + reason * 2 ^ 20 + x.f 0 12 * 2 ^ 24)

/-- Whether a bucket is skipped (R306). -/
def State.skipBit (s : State) (p b : Nat) : Bool :=
  s.flag1 (Csr.wghSkip_valid p) && bitOf (s.vbyte p (s.homeStn p) (s.fld (Csr.wghSkip_base p) + b / 8)).toNat (b % 8)

/-- The checks of SEND in the order epoch, size, repetition, windows, tags (log entry 13). -/
def sendBody (wide : Bool) (s : State) (x : Ctx) : Option Fail :=
  let p := x.p
  let ep := s.fld (Csr.wghEpoch_epoch p)
  let b := x.f 12 20
  let d := s.desc p x.hdr (x.f 0 12)
  let u : Use := { idx := x.f 0 12, rows := 1, bytes := 1, rd := true, wr := false, mx := none, checkScale := false, stream := false,
                   transposed := false, levels := [.ledger, .hbm] }
  let tag := s.fld (Csr.updStep_tag p)
  let again := ((s.exec? p).map (fun e => e.sent.contains b)).getD false
  if ep = 0 || x.f 32 16 ≠ ep then some (0x41, ep + x.f 32 16 * 2 ^ 16 + b * 2 ^ 32 + 2 ^ 52)
  else if s.fld (Csr.wghShare_slots p) = 0 then some (bad43 x 2)
  else if wide then
    if s.fld (Csr.wghWideCtl_count p) ≤ b then some (bad43 x 3) else if again then some (bad43 x 4) else none
  else
    (u.form d).orElse fun _ =>
    if d.rowBytes ≠ 16448 || 4096 < cdiv d.logRows 16 then some (bad43 x 2)
    else if again then some (bad43 x 4)
    else
      (s.useChecks p x.hdr [u]).orElse fun _ =>
      if (List.range d.logRows).any (fun j => leNat (s.vbytes p (s.homeStn p) (d.rowVa j + 4) 4) ≠ tag) then
        some (bad43 x 1)
      else none

/-- The record of a SEND; chunks it owns need no packet, and what an earlier execution of the order has done stands. -/
def State.sendRec (s : State) (x : Ctx) (wide : Bool) (rows : List Nat) (vals : List Acc) : SendRec :=
  let w := s.wctx x.p
  let b := x.f 12 20
  let n := if wide then vals.length else rows.length
  let chunks := if wide then cdiv n 4096 else cdiv n 16
  let o := w.old.find? (·.bucket = b)
  { seq := ((s.exec? x.p).map (·.seq)).getD 0, step := w.step, attempt := w.attempt, bad := [], bucket := b, off := x.off, wide := wide, skipped := !wide && s.skipBit x.p b, slices := n, rows := rows, wideVals := vals,
    chunks := chunks, sent := (List.range chunks).filter (w.owns b), resolved := [], got := (o.map (·.got)).getD [],
    opened := (o.map (·.opened)).getD [], ownDone := (o.map (·.ownDone)).getD [] }

/-- Entries of a station's held bank in row-major order; a masked row is zero (R316). -/
def State.wideEntries (s : State) (key : Nat) : List Acc :=
  (List.range 32).flatMap (fun r => (List.range 128).map (fun c =>
    if (s.bank key).fed r && c < (s.bank key).cols then (s.entry (entryKey key r c)).acc else Acc.zero))

/-- A SEND in the weighhouse's running slot takes effect (R159, R305, R306, R310): what earlier executions of the order were given
is given again, and chunks opened before are contributed to. -/
def State.beginSend (s : State) (p off : Nat) : State :=
  let w := s.wctx p
  match w.queued.find? (·.off = off) with
  | none => s
  | some r =>
    let b := r.bucket
    let s := s.setWctx p { w with sends := w.sends.filter (·.bucket ≠ b) ++ [r], queued := w.queued.filter (·.off ≠ off) }
    let s := (w.taken.filter (·.bucket = b)).foldl (fun s y => (s.deliver p y).1) s
    let again := ((w.old.find? (·.bucket = b)).map (·.sent)).getD []
    let opens := (w.opens.filter (·.1 = b)).map (·.2) ++ again.filter (fun c => !w.owns b c)
    let s := opens.eraseDups.foldl (fun s c => match (s.wctx p).rec? b with
      | some r => s.contribute p r c
      | none => s) s
    (s.sendDone p).wRefeed p

/-- A SEND at its issue: a skipped bucket is complete at once (R306), and any other waits for the weighhouse's running slot. -/
def State.startSend (s : State) (x : Ctx) (r : SendRec) : State :=
  let p := x.p
  let b := r.bucket
  let s := s.updExec p (fun e => { e with sent := b :: e.sent })
  if r.skipped then
    let s := s.updWctx p (fun w => { w with sends := w.sends.filter (·.bucket ≠ b) ++ [r] })
    let s := (List.range r.chunks).foldl (fun s c => (s.deliver p ⟨b, c, 3, (s.wctx p).owns b c, [], false, false⟩).1) s
    (s.doneAtIssue x (wghUnit s p)).wRefeed p
  else
    let s := (s.enter x [wghUnit s p] none 0 0 []).updWctx p (fun w => { w with queued := w.queued ++ [r] })
    if s.runsNow p x.off then s.beginSend p x.off else s

/-- SEND; the WIDE bit decides which of the two forms it takes. -/
def clsSend (wide : Bool) : Cls :=
  { Cls.base with
    scopes := if wide then [0x01, 0x81] else [0x83]
    word := fun _ _ x =>
      if wide then firstFail [(x.f 0 12 ≠ 0, bad0C x.op 1 64)]
      else firstFail [needDesc x 0, (x.f 49 1 ≠ 0, bad0C x.op 1 113)]
    zeros := fun _ => [(50, 14)]
    body := sendBody wide
    units := fun s x => [wghUnit s x.p]
    ready := fun s x =>
      if wide then s.heldIn x (fun g => bankKey g (x.f 49 1) false 0) (fun g => (s.notHeld x.p g (x.f 49 1) false 0).map (fun r =>
        (tallyUnit g, bad03 (x.f 49 1) 0 (r = 5) r x.op)))
      else none
    unit := fun s x => wghUnit s x.p
    start := fun s x =>
      if wide then
        let keys := (s.scopeStns x).map (fun g => bankKey g (x.f 49 1) false 0)
        let r := s.sendRec x true [] (keys.flatMap s.wideEntries)
        (keys.foldl (fun s k => s.setBank k { s.bank k with st := .taken x.off }) s).startSend x r
      else
        let d := s.desc x.p x.hdr (x.f 0 12)
        s.startSend x (s.sendRec x false ((List.range d.logRows).map d.rowVa) []) }

def execSend (p : PartId) (h : Head) (w1 : Word) (s : State) : Host.Outcome State Fault Refusal :=
  answer s (fun s => (clsSend (bitOf w1.toNat 48)).offer s p 0x70 h w1)

/-! Epochs (R320, R321). -/

/-- A bucket is closed here: its chunks are resolved, and its owned chunks with them (R321). An owned chunk of an older pair that was never
opened can be opened no more, and counts as resolved with its own delivery (log entry 25). -/
def Wgh.closed (w : Wgh) (r : SendRec) : Bool :=
  (List.range r.chunks).all (fun c => r.resolved.contains c &&
    (r.skipped || !w.owns r.bucket c || r.ownDone.contains (c * 2) || r.ownDone.contains (c * 2 + 1) ||
     ((r.step ≠ w.step || r.attempt ≠ w.attempt) && !r.opened.contains c)))

/-- Every bucket of the current epoch is closed here, those that earlier orders have sent among them (R321). -/
def State.epochClosed (s : State) (p : Nat) : Bool :=
  let w := s.wctx p
  w.slots.isEmpty && w.queued.isEmpty && w.sends.all w.closed

/-- The pending member table's first fault, as word 3 of code 0x46 (R321). -/
def State.tableFault (s : State) (p : Nat) : Option Nat :=
  let base := s.fld (Csr.wghGroup_base p)
  let n := s.fld (Csr.wghGroupCtl_count p)
  let self := s.fld (Csr.wghGroupCtl_self p)
  if n = 0 || 4096 < n || n ≤ self then some (1 * 2 ^ 12)
  else if (s.rowCheck p 0 base (4 * n) false).isSome then some (2 * 2 ^ 12)
  else
    let es := (List.range n).map (fun i => leNat (s.vbytes p (s.homeStn p) (base + 4 * i) 4))
    let node (e : Nat) : Nat := e % 2 ^ 15
    match (List.range n).find? (fun i =>
        let e := es.getD i 0
        bitsOf e 15 1 ≠ 0 || bitsOf e 28 4 ≠ 0 || (es.take i).any (fun f => node f = node e)) with
    | some i => some (i + 3 * 2 ^ 12)
    | none => if node (es.getD self 0) = s.self then none else some (self + 4 * 2 ^ 12)

/-- The pending member table is stored data like other: a poisoned word of it is fault 0x71 (R374, R376). -/
def State.tablePoison (s : State) (p off : Nat) : Option State :=
  let n := s.fld (Csr.wghGroupCtl_count p)
  if 4096 < n then none else s.poisonCheck p (wghUnit s p) off [(s.homeStn p, s.fld (Csr.wghGroup_base p), 4 * n)]

/-- RESHARD takes effect for the command at stream offset `off`: the table is checked and made current (R321). -/
def State.reshardNow (s : State) (p off : Nat) : State :=
  match s.tablePoison p off with
  | some s => s
  | none =>
  match s.tableFault p with
  | some w3 => s.raise p (wghUnit s p) 0x46 off w3
  | none =>
    let n := s.fld (Csr.wghGroupCtl_count p)
    let ms := (List.range n).map (fun i =>
      BitVec.ofNat 32 (leNat (s.vbytes p (s.homeStn p) (s.fld (Csr.wghGroup_base p) + 4 * i) 4)))
    let s := s.updWctx p (fun w => { w with members := ms, self := s.fld (Csr.wghGroupCtl_self p), sends := [], old := [], opens := [] })
    let w := s.wctx p
    let s := s.setFld (Csr.wghEpoch_epoch p) (s.fld (Csr.wghGroupCtl_pendingEpoch p))
    let s := (s.setFld (Csr.wghEpoch_groupSize p) w.group.length).setFld (Csr.wghEpoch_rank p) ((w.group.idxOf? w.self).getD 0)
    let s := (s.setFld (Csr.wghGroupCtl_pendingValid p) 0).release p 10
    let s := s.updExec p (fun e => { e with cmds := e.cmds.map (fun m =>
      if m.op = 0x71 && m.off = off then { m with done := some (s.orderPace p) } else m) })
    s.wRefeed p

/-- A RESHARD that has not taken effect. -/
def State.reshardCmd (s : State) (p : Nat) : Option Cmd :=
  (s.exec? p).bind (fun e => if e.fault.isSome then none else e.cmds.find? (fun m => m.op = 0x71 && m.done.isNone))

/-- Word 3 of a RESHARD's fault 0x41. -/
def State.epochFault (s : State) (p met reason : Nat) : Nat := s.fld (Csr.wghEpoch_epoch p) + met * 2 ^ 16 + reason * 2 ^ 52

/-- RESHARD (R191, R321). An EPOCH field that is not PENDING_EPOCH is code 0x41 by R191, which names no reason for it: here it is reason 4
(DESIGN CHOICE, log entry 47). -/
def clsReshard : Cls :=
  { Cls.base with
    word := fun _ _ x => firstFail [(x.f 16 32 = 0, bad0C x.op 5 80)]
    zeros := fun _ => [(48, 16)]
    body := fun s x =>
      let pend := s.fld (Csr.wghGroupCtl_pendingEpoch x.p)
      if !s.flag1 (Csr.wghGroupCtl_pendingValid x.p) || pend = s.fld (Csr.wghEpoch_epoch x.p) || x.f 0 16 ≠ pend then
        some (0x41, s.epochFault x.p (x.f 0 16) 4)
      else none
    units := fun s x => [wghUnit s x.p]
    unit := fun s x => wghUnit s x.p
    start := fun s x =>
      let s := s.enter x [wghUnit s x.p] none 0 0 []
      if s.epochClosed x.p then s.reshardNow x.p x.off else s.hold x.p 10 none }

def execReshard (p : PartId) (h : Head) (w1 : Word) (s : State) : Host.Outcome State Fault Refusal :=
  answer s (fun s => clsReshard.offer s p 0x71 h w1)

def execReshardEpochTakeEffect (p : PartId) (s : State) : Host.Outcome State Fault Refusal :=
  answer s (fun s => match s.reshardCmd p with
    | some m => if s.epochClosed p then s.reshardNow p m.off else s
    | none => s)

def execReshardTimeout (p : PartId) (s : State) : Host.Outcome State Fault Refusal :=
  answer s (fun s => match s.reshardCmd p with
    | some m =>
      if s.epochClosed p then s
      else s.raise p (wghUnit s p) 0x41 m.off (s.epochFault p (bitsOf m.w1.toNat 0 16) 2)
    | none => s)

/-! Order starts and resets (R315, R322, R325). -/

/-- The context at the start of an execution: its pair, cleared step digests; what this order's earlier executions were given
is kept, and what another order was given is not. What other orders have sent goes on being served (R315, R325), and is what RESHARD
waits for (R321). With `inter` the order interleaves with one that still runs (R220). -/
def State.wghStart (s : State) (p seq : Nat) (step : BitVec 32) (attempt : Nat) (inter : Bool) : State :=
  let w := s.wctx p
  let samePair := w.step = step && w.attempt = attempt
  let same := samePair && w.seq = seq
  let w' : Wgh := { w with
    step := step, attempt := attempt, seq := seq, voted := none, norm := Acc.zero,
    inbox := if inter then w.inbox else [], queued := if inter then w.queued else [],
    old := if samePair then (w.sends.filter (·.seq = seq)) ++ w.old.filter (fun r => r.seq = seq && (w.rec? r.bucket).isNone) else [],
    taken := if same || inter then w.taken else [],
    opens := if samePair then w.opens else [],
    votes := if samePair then w.votes else [] }
  let s := s.setWctx p { w' with sends := w.sends.filter (fun r => r.seq ≠ seq && (samePair || !w'.closed r)) }
  ((s.setFld (Csr.wghStepTx_digest p) 0).setFld (Csr.wghStepRx_digest p) 0).wRefeed p

/-- The context of a pre-empted order at its resume: its own votes, norm and results, with what the weighhouse has taken for it
meanwhile (R325, R440). -/
def Wgh.resumed (old now : Wgh) : Wgh :=
  let more (xs ys : List ChunkIn) : List ChunkIn := xs ++ ys.filter (fun y => !xs.any (fun x => x.bucket = y.bucket && x.chunk = y.chunk))
  { now with
    step := old.step, attempt := old.attempt, seq := old.seq, voted := old.voted, norm := old.norm, queued := old.queued,
    old := old.old, inbox := more old.inbox now.inbox, taken := more old.taken now.taken,
    sends := now.sends ++ old.sends.filter (fun r => !now.sends.any (fun q => q.bucket = r.bucket)) }

/-- PRST (R325): the slots are free, with FAIL for each open chunk; the layout stays. -/
def State.wghPrst (s : State) (p : Nat) : State :=
  let w := s.wctx p
  let s := w.slots.foldl (fun s k => w.others.foldl (fun s m =>
    s.wSend p m { s.wHdr p 8 k.bucket k.chunk with attempt := k.attempt % 16, step := k.step.toNat } []) s) s
  s.setWctx p { Wgh.none with members := w.members, self := w.self, step := w.step, attempt := w.attempt }

end Sys2Proof.Machine
end

