-- ==== Sys2Proof/Machine/Update.lean ====
section
/-!
DEFINITION. The update engine and the step keeper (R192, R193, R285 to R298, R317 to R319): LOSSCHK, UPDATE, the chunks of a
bucket, COMMIT, votes and the norm, and the weighhouse packets that reach them.
-/
namespace Sys2Proof.Machine

def updUnit (s : State) (p : Nat) : Nat := unitInst (s.home p / 12) 0 0x41
def stepUnit (s : State) (p : Nat) : Nat := unitInst (s.home p / 12) 0 0x42

/-! The rule record (R286). -/

/-- A rule record. -/
structure URule where
  rule : Nat
  fmts : Nat
  lr : Nat
  beta1 : Nat
  beta2 : Nat
  eps : Nat
  wd : Nat
  clip : Nat
  hi : Nat
  lo : Nat
  m : Nat
  v : Nat
  freeze : Nat
  clean : Bool
  deriving DecidableEq, Repr

def parseRule (b : List Byte) : URule :=
  { rule := leAt b 0 1, fmts := leAt b 1 1, lr := leAt b 4 4, beta1 := leAt b 8 4, beta2 := leAt b 12 4, eps := leAt b 16 4,
    wd := leAt b 20 4, clip := leAt b 24 4, hi := leAt b 28 2, lo := leAt b 30 2, m := leAt b 32 2, v := leAt b 34 2,
    freeze := leAt b 36 2, clean := leAt b 1 1 < 4 && leAt b 2 2 = 0 && (b.drop 38).all (· = 0) }

/-- Bytes of a moment's element. -/
def URule.mBytes (r : URule) : Nat := if r.fmts % 2 = 1 then 4 else 2
def URule.vBytes (r : URule) : Nat := if r.fmts / 2 % 2 = 1 then 4 else 2
/-- The planes of a rule: descriptor index and element bytes. -/
def URule.planes (r : URule) : List (Nat × Nat) :=
  [(r.hi, 2), (r.lo, 2)] ++ (if 1 ≤ r.rule then [(r.m, r.mBytes)] else []) ++ (if r.rule = 2 then [(r.v, r.vBytes)] else [])

/-- Elements of a plane. -/
def planeElems (d : Desc) (w : Nat) : Nat := d.logRows * (d.rowBytes / w)
/-- Address of element k of a plane (R285). -/
def planeVa (d : Desc) (w k : Nat) : Nat :=
  let n := max 1 (d.rowBytes / w)
  d.rowVa (k / n) + k % n * w

/-- A valid bank pair of the partition that holds a range in either bank: base and bank size (R284). -/
def State.pairOf (s : State) (p pa len : Nat) : Option (Nat × Nat) :=
  (List.range 8).findSome? (fun n =>
    let base := s.fld (Csr.updPair_base p n) * 2 ^ 21
    let size := s.fld (Csr.updPair_pages p n) * (2 * mib)
    if s.flag1 (Csr.updPair_valid p n) && base ≤ pa && pa + len ≤ base + 2 * size then some (base, size) else none)

/-- The physical place of a plane byte in the view an UPDATE writes (R284, R292). -/
def State.writePlace (s : State) (p va : Nat) (direct : Bool) : Option Nat :=
  (s.vaPa p va).bind (fun pa =>
    if direct then s.resolve (s.homeStn p) pa
    else match s.pairOf p pa 1 with
      | some (base, size) => some (s.redirect (if pa < base + size then pa + size else pa))
      | none => s.resolve (s.homeStn p) pa)

/-- Write bytes of a plane in the view an UPDATE writes. -/
def State.setPlane (s : State) (p va : Nat) (direct : Bool) : List Byte → State
  | [] => s
  | b :: bs =>
    (match s.writePlace p va direct with
     | some pa => s.setByte pa b
     | none => s).setPlane p (va + 1) direct bs

/-! One element (R287 to R291). -/

/-- The FP32 value of a bit pattern. -/
def f32 (b : Nat) : Val := fp32.decode b
def oneVal : Val := .fin false 1 0

/-- pow32 of R287. -/
def pow32 (b : Val) (t : Nat) : Val :=
  ((List.range (Nat.log2 t + 1)).reverse).foldl (fun p i =>
    let p := assign32 (valMul p p)
    if bitOf t i then assign32 (valMul p b) else p) oneVal

/-- The clip factor (R288), from NORM_VALID and NORM at the order's start. -/
def clipFactor (clip : Nat) (norm : BitVec 33) : Val :=
  let nrm := norm.toNat % 2 ^ 32
  if (f32 clip).isZero || bitsOf norm.toNat 32 1 = 0 then oneVal
  else if (f32 clip).isNan || (f32 nrm).isNan then f32 (Config.clipUnordered clip nrm).toNat
  else if 0 < valCmp (f32 nrm) (f32 clip) then assign32 (valDiv (f32 clip) (f32 nrm))
  else oneVal

/-- What one element becomes: high and low plane, moments, range events, and whether every value written is finite. -/
structure UElem where
  hi : Nat
  lo : Nat
  m : Nat
  v : Nat
  ovf : Nat
  unf : Nat
  fine : Bool
  deriving DecidableEq, Repr

/-- A moment narrowed to its format (R283): its bits and events. -/
def narrow (wide : Bool) (x : Conv) : Conv := if wide then x else bf16.encode 0 0 false (fp32.decode x.bits)

/-- mh / (q + EPS) + WD·w with one rounding: numerator and denominator exact. -/
def adamStep (mh q eps wd w : Val) : Val :=
  let den := valAdd q eps
  let dec := valMul wd w
  if den.isFin then assign32 (valDiv (valAdd mh (valMul dec den)) den) else assign32 (valAdd (valDiv mh den) dec)

/-- The rule applied to one element (R287): w in bits, moments in bits of their formats, gradient, clip factor, t. -/
def applyRule (r : URule) (t : Nat) (c : Val) (w m v : Nat) (grad : Val) : UElem :=
  let asg (x : Val) : Conv := rne32 (plusZero x)
  let wv := f32 w
  let g := assign32 (valMul grad c)
  let mo (wide : Bool) (b : Nat) : Val := if wide then f32 b else bf16.decode b
  let mw := r.mBytes = 4
  let vw := r.vBytes = 4
  let b1 := f32 r.beta1
  let b2 := f32 r.beta2
  let wd := f32 r.wd
  let m' : Conv :=
    if r.rule = 1 then asg (valAdd (valMul b1 (mo mw m)) g)
    else asg (valAdd (valMul b1 (mo mw m)) (valMul (valAdd oneVal b1.negv) g))
  let v' : Conv := asg (valAdd (valMul b2 (mo vw v)) (valMul (valMul (valAdd oneVal b2.negv) g) g))
  let d : Val :=
    if r.rule = 0 then assign32 (valAdd g (valMul wd wv))
    else if r.rule = 1 then assign32 (valAdd (f32 m'.bits) (valMul wd wv))
    else
      let mh := assign32 (valDiv (f32 m'.bits) (assign32 (valAdd oneVal (pow32 b1 t).negv)))
      let vh := assign32 (valDiv (f32 v'.bits) (assign32 (valAdd oneVal (pow32 b2 t).negv)))
      adamStep mh (assign32 (valSqrt vh)) (f32 r.eps) wd wv
  let w' := asg (valAdd wv (valMul (f32 r.lr) d).negv)
  let mn := narrow mw m'
  let vn := narrow vw v'
  let cs := [w'] ++ (if 1 ≤ r.rule then [mn] else []) ++ (if r.rule = 2 then [vn] else [])
  let fin (wide : Bool) (x : Conv) : Bool := (mo wide x.bits).isFin
  { hi := w'.bits / 2 ^ 16, lo := w'.bits % 2 ^ 16, m := mn.bits, v := vn.bits,
    ovf := (cs.filter (·.ovf)).length, unf := (cs.filter (·.unf)).length,
    fine := (f32 w'.bits).isFin && (r.rule = 0 || fin mw mn) && (r.rule ≠ 2 || fin vw vn) }

/-- The freeze bit of element k in the mask bytes read at issue (R290). -/
def frozen (mask : List Byte) (k : Nat) : Bool := bitOf (mask.getD (k / 256) 0).toNat (k / 32 % 8)

/-! The step: votes, decision (R293, R317 to R319). -/

/-- The local outcome of the step. -/
def State.localOutcome (s : State) (p : Nat) (e : Exec) : Nat :=
  if s.flag1 (Csr.updCommit_stopped p) then 5
  else if e.upds.any (·.bad = 2) then 2
  else if e.upds.any (·.bad = 3) then 3 else 1

/-- The decision of R317 over all outcomes, the own one included. -/
def decide5 (os : List Nat) : Nat :=
  if os.contains 5 then 5 else if os.contains 4 then 4 else if os.contains 2 then 2 else if os.contains 3 then 3 else 1

/-- The other members of the job. -/
def Wgh.peers (w : Wgh) : List Nat := (List.range w.members.length).filter (· ≠ w.self)

/-- A VOTE to every other member, with the norm partial (R317, R318). -/
def State.sendVotes (s : State) (p outcome : Nat) : State :=
  let w := s.wctx p
  let s := w.peers.foldl (fun s m => s.wSend p m { s.wHdr p 6 0 0 with count := 1, reason := outcome } (bytes80 w.norm)) s
  s.updWctx p (fun w => { w with voted := some outcome })

/-- The norm of the step: every partial added exactly, one square root, one rounding (R289, R318). -/
def Wgh.normBits (w : Wgh) : BitVec 32 :=
  let sum := w.votes.foldl (fun (a : Acc) (_, _, x) => a.add (-320) (x.val (-320))) w.norm
  BitVec.ofNat 32 (rne32 (plusZero (valSqrt (sum.val (-320))))).bits

/-- Complete the commands of an opcode that are still open. -/
def Exec.doneOp (e : Exec) (op now : Nat) : Exec :=
  { e with cmds := e.cmds.map (fun m => if m.op = op && m.done.isNone then { m with done := some now } else m) }

/-- The decision takes hold (R293, R317). -/
def State.decideStep (s : State) (p : Nat) (e : Exec) (d : Nat) : State :=
  let s := if d = 5 || (e.direct = some true && d ≠ 1) then s.setFld (Csr.updCommit_stopped p) 1 else s
  s.setExec p { e with outcome := d, pending := d = 1, normNew := if d = 1 then some (s.wctx p).normBits else none }

/-- Votes are still missing. -/
def Wgh.missing (w : Wgh) : List Nat := w.peers.filter (fun m => !w.votes.any (·.1 = m))

/-- A staged commit waits while a consignment reads (R392). -/
def State.commitWaits (s : State) (p : Nat) (e : Exec) : Bool :=
  e.committed && e.pending && e.direct ≠ some true && s.csgState p = 1

/-- Take the step keeper as far as it can go (R293, R317, R392): an issued COMMIT decides once every UPDATE has completed and
every vote is in, and completes unless a consignment still reads. -/
def State.stepSettle (s : State) (p : Nat) : State :=
  match s.exec? p with
  | none => s
  | some e =>
    if !e.committed || e.fault.isSome then s
    else
      let open_ := e.upds.any (fun u => !u.finished)
      let w := s.wctx p
      let s :=
        if e.outcome ≠ 0 || open_ then s
        else if w.peers.isEmpty then s.decideStep p e (s.localOutcome p e)
        else
          let s := if w.voted.isNone then s.sendVotes p (s.localOutcome p e) else s
          let w := s.wctx p
          if w.missing.isEmpty then s.decideStep p e (decide5 (w.voted.getD 1 :: w.votes.map (fun v => v.2.1))) else s
      match s.exec? p with
      | none => s
      | some e =>
        if e.outcome ≠ 0 && !s.commitWaits p e then
          s.realignFree (((s.setExec p (e.doneOp 0x7A (s.orderPace p))).unhold p 10).unhold p 1) p
        else if open_ then s.hold p 1 none
        else (s.unhold p 1).hold p 10 none

/-! LOSSCHK (R192, R294). -/

/-- The order ends at a LOSSCHK: no later command issues, and R148 is not checked (R192, R224). -/
def State.lossEnd (s : State) (p off : Nat) (votes : Bool) : State :=
  let s := s.updExec p (fun e => { e with ended := true, endOff := none, outcome := 4 })
  let seq := ((s.exec? p).map (·.seq)).getD 0
  let s := (s.caravans p).foldl (fun s c => ((s.scrambleAhead c).updCar c (fun x =>
    { x with ahead := [], xfers := x.xfers.map (fun t => if off ≤ t.off && t.seq = seq then { t with dropped := true } else t) })).scanOver
      c) s
  if votes && !(s.wctx p).peers.isEmpty then s.sendVotes p 4 else s

def clsLosschk : Cls :=
  { Cls.base with
    word := fun _ _ x => firstFail [needDesc x 0]
    zeros := fun _ => [(12, 52)]
    body := fun s x => s.useChecks x.p x.hdr
      [{ idx := x.f 0 12, rows := 1, bytes := 4, rd := true, wr := false, mx := none, checkScale := false, stream := false,
         transposed := false, levels := [.satchel, .depot, .ledger, .hbm, .cxl, .alias_] }]
    units := fun s x => [updUnit s x.p]
    unit := fun s x => updUnit s x.p
    reads := fun s x => s.rowsOf x.p [s.homeStn x.p] (s.desc x.p x.hdr (x.f 0 12))
    start := fun s x =>
      let p := x.p
      let d := s.desc p x.hdr (x.f 0 12)
      match s.poisonCheck p (updUnit s p) x.off [(s.homeStn p, d.rowVa 0, 4)] with
      | some s => s
      | none =>
        let loss := BitVec.ofNat 32 (leNat (s.vbytes p (s.homeStn p) (d.rowVa 0) 4))
        let fin := (f32 loss.toNat).isFin
        let s := s.updExec p (fun e => { e with loss := e.loss.orElse fun _ => some loss })
        let s := s.csgLoss p loss
        let v := s.verdict p loss
        let s := s.applyVerdict p v
        match v with
        | .exhausted w3 => s.raise p (unitInst (s.home p / 12) 0 0x73) 0x74 x.off w3
        | .rejected => s.lossEnd p x.off (!fin)
        | _ => if fin then s.doneAtIssue x (updUnit s p) else s.lossEnd p x.off true }

def execLosschk (p : PartId) (h : Head) (w1 : Word) (s : State) : Host.Outcome State Fault Refusal :=
  answer s (fun s => clsLosschk.offer s p 0x78 h w1)

/-! UPDATE (R193, R285, R286, R298). -/

def bad31 (idx reason : Nat) : Fail := (0x31, idx + reason * 2 ^ 12)
def bad32 (bucket reason : Nat) : Fail := (0x32, bucket + reason * 2 ^ 20)

def URule.uses (r : URule) : List Use :=
  let one (i w : Nat) (wr : Bool) : Use :=
    { idx := i, rows := 1, bytes := w, rd := true, wr := wr, mx := none, checkScale := false, stream := false, transposed := false,
      levels := [.satchel, .depot, .ledger, .hbm, .cxl, .alias_] }
  r.planes.map (fun (i, w) => one i w true) ++ (if r.freeze = 0 then [] else [one r.freeze 1 false])

/-- The checks of UPDATE, in the order record, descriptors, bucket, bank pairs (log entry 13). -/
def updateBody (s : State) (x : Ctx) : Option Fail :=
  let p := x.p
  let idx := x.f 20 12
  let r := parseRule (s.record p x.hdr idx)
  let dir := x.f 32 1 = 1
  let ds := r.planes.map (fun (i, w) => (s.desc p x.hdr i, w))
  let counts := ds.map (fun (d, w) => planeElems d w)
  if 2 < r.rule then some (bad31 idx 1)
  else if !r.clean then some (bad31 idx 2)
  else if r.planes.any (·.1 = 0) then some (bad31 idx 3)
  else if ((r.freeze, 1) :: r.planes).any (fun a => x.descCount ≤ a.1) then some (bad0C x.op 2 84)
  else
    (s.useChecks p x.hdr r.uses).orElse fun _ =>
    if counts.any (· ≠ counts.headD 0) then some (bad31 idx 4)
    else if ((s.exec? p).map (fun e => e.upds.any (·.bucket = x.f 0 20))).getD false then some (bad32 (x.f 0 20) 2)
    else if !dir && ds.any (fun (d, _) => (List.range d.logRows).any (fun j =>
        match s.vaPa p (d.rowVa j) with
        | some pa => (s.pairOf p pa d.rowBytes).isNone
        | none => true)) then some (bad32 (x.f 0 20) 1)
    else none

/-- The physical bytes of the staging view that an UPDATE will write, as destinations of R151. What a direct-mode UPDATE has written
stays, whatever ends its order (R297). -/
def State.planeDests (s : State) (x : Ctx) (r : URule) (dir : Bool) : List (Nat × Nat) :=
  if dir then []
  else r.planes.flatMap (fun (i, _) =>
    let d := s.desc x.p x.hdr i
    (List.range d.logRows).filterMap (fun j => (s.writePlace x.p (d.rowVa j) dir).map (·, d.rowBytes)))

def clsUpdate : Cls :=
  { Cls.base with
    word := fun _ e x => firstFail [
      (x.f 20 12 = 0 || x.recCount ≤ x.f 20 12, bad0C x.op 2 84),
      ((e.direct.map (fun (b : Bool) => boolNat b != x.f 32 1)).getD false, bad0C x.op 7 96)]
    zeros := fun _ => [(33, 31)]
    body := updateBody
    units := fun s x => [updUnit s x.p]
    unit := fun s x => updUnit s x.p
    start := fun s x =>
      let p := x.p
      let rec_ := s.record p x.hdr (x.f 20 12)
      let r := parseRule rec_
      let dir := x.f 32 1 = 1
      match s.poisonCheck p (updUnit s p) x.off (if r.freeze = 0 then [] else (s.desc p x.hdr r.freeze).ranges (s.homeStn p)) with
      | some s => s
      | none =>
      let mask := if r.freeze = 0 then [] else s.extent p (s.desc p x.hdr r.freeze)
      let stop := s.flag1 (Csr.updCommit_stopped p)
      let first := ((s.exec? p).map (fun e => e.upds.isEmpty)).getD true
      let u : Upd := { off := x.off, bucket := x.f 0 20, rule := rec_, direct := dir, mask := mask, applied := [], bad := 0,
                       wrote := false, written := false, finished := stop }
      let s := s.updExec p (fun e => { e with upds := e.upds ++ [u], direct := some dir })
      if stop then (s.doneAtIssue x (updUnit s p)).wRefeed p
      else
        let s := s.dest p (s.planeDests x r dir)
        let s := s.enter x [updUnit s p] none 0 0 (r.planes.map (fun a => s.descBytes x a.1))
        let s := if dir && first && s.csgState p = 1 then s.hold p 10 none else s
        s.wRefeed p }

def execUpdate (p : PartId) (h : Head) (w1 : Word) (s : State) : Host.Outcome State Fault Refusal :=
  answer s (fun s => clsUpdate.offer s p 0x79 h w1)

/-! Chunks (R285 to R291, R295, R318). -/

/-- The planes of an UPDATE: descriptor and element bytes, as read at issue. -/
def Exec.planes (e : Exec) (u : Upd) : List (Desc × Nat) :=
  match e.cmds.find? (fun m => m.op = 0x79 && m.off = u.off) with
  | some m => ((parseRule u.rule).planes.zip m.descs).map (fun (a, b) => (parseDesc b, a.2))
  | none => []

/-- An element of a plane through the live view. -/
def State.planeElem (s : State) (p : Nat) (pl : Option (Desc × Nat)) (k : Nat) : Nat :=
  match pl with
  | some (d, w) => leNat (s.vbytes p (s.homeStn p) (planeVa d w k) w)
  | none => 0

/-- The writes of one chunk: for each element its plane values, events, finiteness. `keep` marks a skipped bucket. -/
def State.chunkWrites (s : State) (p : Nat) (e : Exec) (u : Upd) (pls : List (Desc × Nat)) (c : Nat) (vals : List (BitVec 32))
    (keep : Bool) : List (Nat × Bool × UElem) :=
  let r := parseRule u.rule
  let t := e.step.toNat + 1
  let cf := clipFactor r.clip e.clip
  let n := pls.foldl (fun n (d, w) => min n (planeElems d w)) (c * 65536 + vals.length)
  ((List.range (n - c * 65536)).zip vals).map (fun (i, g) =>
    let k := c * 65536 + i
    let at_ (j : Nat) : Nat := s.planeElem p pls[j]? k
    if keep || frozen u.mask k then (k, true, ⟨at_ 0, at_ 1, at_ 2, at_ 3, 0, 0, true⟩)
    else (k, false, applyRule r t cf (at_ 0 * 2 ^ 16 + at_ 1) (at_ 2) (at_ 3) (f32 g.toNat)))

/-- A poisoned element of a plane that the chunk reads (R376). -/
def State.planePoison (s : State) (p : Nat) (u : Upd) (pls : List (Desc × Nat)) (ws : List (Nat × Bool × UElem)) : Option State :=
  if s.poison.isEmpty then none
  else s.poisonCheck p (updUnit s p) u.off (ws.flatMap (fun o => pls.map (fun pl => (s.homeStn p, planeVa pl.1 pl.2 o.1, pl.2))))

/-- Finish an UPDATE: its command completes. -/
def State.finishUpd (s : State) (p off : Nat) : State :=
  let now := s.orderPace p
  s.updExec p (fun e => { e with
    upds := e.upds.map (fun u => if u.off = off then { u with finished := true } else u),
    cmds := e.cmds.map (fun m => if m.op = 0x79 && m.off = off && m.done.isNone then { m with done := some now } else m) })

/-- A direct-mode engine stops (R295): no UPDATE has a further effect. -/
def State.stopEngine (s : State) (p : Nat) : State :=
  let s := s.setFld (Csr.updCommit_stopped p) 1
  match s.exec? p with
  | none => s
  | some e => (e.upds.filter (fun u => !u.finished)).foldl (fun s u => s.finishUpd p u.off) s

/-- A bad chunk (R291, R292): `why` is 2 for its values, 3 for a result that never arrived. -/
def State.badChunk (s : State) (p : Nat) (u : Upd) (why : Nat) : State :=
  let s := s.updExec p (fun e => { e with upds := e.upds.map (fun x =>
    if x.off = u.off then { x with bad := if x.bad = 2 then 2 else why } else x) })
  if u.direct then s.stopEngine p else s.finishUpd p u.off

/-- The exact squares of an owned chunk's reduced elements, frozen ones left out (R318); those beyond the planes count too. -/
def normOf (mask : List Byte) (c : Nat) (vals : List (BitVec 32)) (a : Acc) : Acc :=
  vals.zipIdx.foldl (fun a (g, i) =>
    if frozen mask (c * 65536 + i) then a else a.add (-320) (valMul (f32 g.toNat) (f32 g.toNat))) a

/-- The elements of one chunk in a plane, row by row, as (address, bytes). -/
def planeRows (d : Desc) (w lo hi : Nat) : List (Nat × Nat) :=
  let n := max 1 (d.rowBytes / w)
  ((List.range d.logRows).filter (fun j => lo < (j + 1) * n && j * n < hi)).map (fun j =>
    let a := max lo (j * n)
    (planeVa d w a, (min hi ((j + 1) * n) - a) * w))

/-- The planes of a chunk cross the mesh to and from the update engine (R228, R285): read through the live view, written through the view
that the UPDATE writes. -/
def State.meshPlanes (s : State) (p : Nat) (u : Upd) (pls : List (Desc × Nat)) (lo hi : Nat) : State :=
  let a := s.updRtr p
  pls.foldl (fun s (d, w) => (planeRows d w lo hi).foldl (fun s (va, n) =>
    let s := s.meshRow false a p (s.homeStn p) va n
    match s.writePlace p va u.direct with
    | some pa => s.meshTo true a pa n
    | none => s) s) s

/-- A good chunk is written (R287, R290, R291). -/
def State.writeChunk (s : State) (p : Nat) (u : Upd) (pls : List (Desc × Nat)) (x : ChunkIn) (ws : List (Nat × Bool × UElem)) : State :=
  let s := s.meshPlanes p u pls (x.chunk * 65536) (x.chunk * 65536 + ws.length)
  let s := ws.foldl (fun s (k, kept, o) =>
    if kept && u.direct then s
    else (pls.zip [o.hi, o.lo, o.m, o.v]).foldl (fun s (pl, b) => s.setPlane p (planeVa pl.1 pl.2 k) u.direct (leBytes pl.2 b)) s) s
  let s := s.updEvents p ((ws.map (fun w => w.2.2.ovf)).sum) ((ws.map (fun w => w.2.2.unf)).sum)
  let s := if x.owned && x.kind = 0 then s.updWctx p (fun w => { w with norm := normOf u.mask x.chunk x.vals w.norm }) else s
  let s := s.updExec p (fun e => { e with upds := e.upds.map (fun y =>
    if y.off = u.off then { y with applied := y.applied ++ [x.chunk], wrote := y.wrote || ws.any (fun w => !w.2.1) } else y) })
  let all := ((s.wctx p).rec? u.bucket).map (·.chunks)
  if all = some (u.applied.length + 1) then
    (s.updExec p (fun e => { e with upds := e.upds.map (fun y => if y.off = u.off then { y with written := true } else y) })).finishUpd p u.off
  else s

/-- The update engine takes one chunk of a bucket (R285 to R291). A direct-mode engine waits while a consignment reads (R392);
an UPDATE in the pending slot waits for the running one (R159). -/
def State.applyRun (s : State) (p b c : Nat) : State :=
  match s.exec? p with
  | none => s
  | some e =>
    let w := s.wctx p
    match e.upds.find? (·.bucket = b), w.inbox.find? (fun x => x.bucket = b && x.chunk = c) with
    | some u, some x =>
      if e.fault.isSome || (u.direct && s.csgState p = 1) then s
      else if !u.finished && ((e.upds.find? (fun y => !y.finished)).map (·.off)) ≠ some u.off then s
      else
        let s := s.setWctx p { w with inbox := w.inbox.erase x }
        if s.flag1 (Csr.updCommit_stopped p) then s
        else if u.finished then
          if x.kind = 1 && u.bad = 3 && e.outcome = 0 then s.badChunk p u 2 else s
        else
          let s :=
            if x.kind = 1 then s.badChunk p u 2
            else if x.kind = 2 then s.badChunk p u 3
            else
              let pls := e.planes u
              let vals := if x.kind = 3 then
                  List.replicate (((w.rec? b).map (fun (r : SendRec) => chunkElems false r.slices c)).getD 0) 0
                else x.vals
              let ws := s.chunkWrites p e u pls c vals (x.kind = 3)
              match s.planePoison p u pls ws with
              | some s => s
              | none =>
              if ws.all (fun y => y.2.2.fine) then s.writeChunk p u pls { x with vals := vals } ws else s.badChunk p u 2
          s.stepSettle p
    | _, _ => s

/-- A chunk for the running order, or for the one it has overtaken where that order's UPDATE of the bucket is not finished (R220). -/
def State.applyChunk (s : State) (p b c : Nat) : State :=
  if s.dev.safeHold then s
  else
  match (s.part p).prev with
  | some q => if q.upds.any (fun u => u.bucket = b && !u.finished) then s.forSeq p q.seq (fun s => s.applyRun p b c) else s.applyRun p b c
  | none => s.applyRun p b c

def execUpdateChunkApply (p : PartId) (bucket : BitVec 20) (chunk : BitVec 16) (s : State) : Host.Outcome State Fault Refusal :=
  answer s (fun s => s.applyChunk p bucket.toNat chunk.toNat)

/-- The running UPDATE has chunks of its gradient still to come: elastic inputs, for which it holds the partition with source 1
(R126, R127, R285). -/
def State.updWaits (s : State) (p : Nat) : Bool :=
  ((s.part p).prev.toList ++ (s.part p).exec.toList).any (fun e =>
    match e.upds.find? (fun u => !u.finished) with
    | none => false
    | some u =>
      let w := s.wctx p
      e.fault.isNone && !(u.direct && s.csgState p = 1) &&
      (match w.rec? u.bucket with
       | some r => u.applied.length + (w.inbox.filter (fun x => x.bucket = u.bucket)).length < r.chunks
       | none => !w.inbox.any (fun x => x.bucket = u.bucket)))

/-! COMMIT (R193, R293). -/

def clsCommit : Cls :=
  { Cls.base with
    zeros := fun _ => [(0, 64)]
    units := fun s x => [stepUnit s x.p]
    unit := fun s x => stepUnit s x.p
    start := fun s x =>
      let s := s.updExec x.p (fun e => { e with committed := true, voteOff := some x.off })
      (s.enter x [stepUnit s x.p] none 0 0 []).stepSettle x.p }

def execCommit (p : PartId) (h : Head) (w1 : Word) (s : State) : Host.Outcome State Fault Refusal :=
  answer s (fun s => clsCommit.offer s p 0x7A h w1)

/-- Votes missing DEADLINE_MS after the own one (R319). -/
def State.voteMiss (s : State) (p : Nat) : State :=
  match s.exec? p with
  | none => s
  | some e =>
    let w := s.wctx p
    if !e.committed || e.outcome ≠ 0 || w.voted.isNone then s
    else match w.missing with
      | [] => s
      | m :: _ => s.raise p (stepUnit s p) 0x45 (e.voteOff.getD 0) (m + w.step.toNat * 2 ^ 12)

def execVoteDeadlineExpire (p : PartId) (s : State) : Host.Outcome State Fault Refusal := answer s (fun s => s.voteMiss p)

/-! A consignment has been read (R392). -/

def State.consignRead (s : State) (p : Nat) : State :=
  if s.csgState p = 1 then
    let s := s.csgReadDone p
    if ((s.exec? p).map (·.committed)).getD false then s.stepSettle p
    else if ((s.exec? p).map (fun e => e.cmds.any (fun m => m.op = 0x71))).getD false then s
    else s.release p 10
  else s

def execConsignReadDone (p : PartId) (s : State) : Host.Outcome State Fault Refusal := answer s (fun s => s.consignRead p)

/-! Weighhouse packets by type (R307 to R316, R320). -/

/-- A packet of one type of R307 meets the partition of its JOB at an ACTIVE port; a vote may then decide the step. -/
def State.wghPacket (s : State) (typ port : Nat) (k : Option Packet) (hdr : BitVec 512) (payload : List Byte) : State :=
  if (parseWHdr hdr).typ ≠ typ || !s.active port then s
  else
    let s := s.wghReceive port k hdr payload
    match s.jobPart (parseWHdr hdr).job with
    | some p => if typ = 6 then s.stepSettle p else s
    | none => s

def execOpenPkt (port : PortId) (hdr : BitVec 512) (payload : List Byte) (s : State) : Host.Outcome State Fault Refusal :=
  answer s (fun s => s.wghPacket 1 port none hdr payload)
def execContrib (port : PortId) (hdr : BitVec 512) (payload : List Byte) (s : State) : Host.Outcome State Fault Refusal :=
  answer s (fun s => s.wghPacket 2 port none hdr payload)
def execResult (port : PortId) (hdr : BitVec 512) (payload : List Byte) (s : State) : Host.Outcome State Fault Refusal :=
  answer s (fun s => s.wghPacket 3 port none hdr payload)
def execWideContrib (port : PortId) (hdr : BitVec 512) (payload : List Byte) (s : State) : Host.Outcome State Fault Refusal :=
  answer s (fun s => s.wghPacket 4 port none hdr payload)
def execWideResult (port : PortId) (hdr : BitVec 512) (payload : List Byte) (s : State) : Host.Outcome State Fault Refusal :=
  answer s (fun s => s.wghPacket 5 port none hdr payload)
def execVote (port : PortId) (hdr : BitVec 512) (payload : List Byte) (s : State) : Host.Outcome State Fault Refusal :=
  answer s (fun s => s.wghPacket 6 port none hdr payload)
def execNak (port : PortId) (hdr : BitVec 512) (payload : List Byte) (s : State) : Host.Outcome State Fault Refusal :=
  answer s (fun s => s.wghPacket 7 port none hdr payload)
def execFail (port : PortId) (hdr : BitVec 512) (payload : List Byte) (s : State) : Host.Outcome State Fault Refusal :=
  answer s (fun s => s.wghPacket 8 port none hdr payload)

/-! Delivery of a packet (R346, R347, R350). -/

/-- A packet behind another of its VC stays there; one for the weighhouse is met when its turn comes. -/
def State.behind (s : State) (i : Nat) (k : Packet) : State :=
  let hdr := BitVec.ofNat 512 (leNat (k.payload.take 64))
  match s.jobPart (parseWHdr hdr).job with
  | some p => if k.kind = 1 && s.windowOk i k p then s.wWait p i (some k) hdr (k.payload.drop 64) else s.park i k
  | none => s.park i k

/-- A packet at its destination, by its KIND. -/
def State.deliverPacket (s : State) (i : Nat) (k : Packet) : State :=
  if !s.active i then s
  else if s.malformed k then (s.leave i k).count (Csr.lnkDrop_malformed i) 1
  else
    let k' := s.leg2 k
    if k'.target ≠ s.self then s
    else if !s.atHead i k then s.behind i k
    else
      let kd := k.kind
      if kd = 1 then
        let hdr := BitVec.ofNat 512 (leNat (k.payload.take 64))
        match s.jobPart (parseWHdr hdr).job with
        | some p =>
          if s.windowOk i k p then s.wghPacket (parseWHdr hdr).typ i (some k) hdr (k.payload.drop 64) else s.windowDrop i k
        | none => s.windowDrop i k
      else if kd ≤ 4 then s.deliverSend i k
      else if kd = 5 then s.csgPacket i k
      else if k.hops ≠ 0 || k.src ≠ s.fld (Csr.lnkStatus_peer i) then s.windowDrop i k
      else if kd = 7 then (s.leave i k).beaconFrom i 0 k.src
      else s.leave i k

def execPacketDeliver (port : PortId) (pkt : Packet) (s : State) : Host.Outcome State Fault Refusal :=
  answer s (fun s => s.deliverPacket port pkt)

end Sys2Proof.Machine
end

