-- ==== Sys2Proof/Machine/Order.lean ====
section
/-!
DEFINITION. The manifest (R121, R138 to R148, R198, R220, R263, R280, R296, R383 to R390, R440 to R450): accepting, starting,
completing and re-executing orders, pre-emption, cancelling, mailboxes, completion records.
-/
namespace Sys2Proof.Machine

def manUnit (s : State) (p : Nat) : Nat := unitInst (s.home p / 12) 0 0x72

/-! Header fields (R442). -/

def hStream (h : BitVec 1024) : Nat := hdrAt h 0 8
def hLen (h : BitVec 1024) : Nat := hdrAt h 8 4
def hFlags (h : BitVec 1024) : Nat := hdrAt h 12 2
def hInterleave (h : BitVec 1024) : Bool := bitOf (hFlags h) 0
def hCoupled (h : BitVec 1024) : Bool := bitOf (hFlags h) 1
def hMailbox (h : BitVec 1024) : Bool := bitOf (hFlags h) 2
def hTiming (h : BitVec 1024) : Nat := hdrAt h 40 8
def hAlloc (h : BitVec 1024) : Nat := hdrAt h 48 8
def hAllocCount (h : BitVec 1024) : Nat := hdrAt h 56 4
def hSpiceLen (h : BitVec 1024) : Nat := hdrAt h 60 4
def hPlan (h : BitVec 1024) : Nat := hdrAt h 64 8
def hSpice (h : BitVec 1024) : Nat := hdrAt h 72 8
def hResult (h : BitVec 1024) : Nat := hdrAt h 80 8
def hBitmap (h : BitVec 1024) : Nat := hdrAt h 88 8

/-- Sequence numbers skip 0 when they wrap (R383); so does UPD_STEP.TAG (R280). -/
def nextNum (n : Nat) : Nat := n % (2 ^ 32 - 1) + 1

/-! Acceptance (R383, R390, R394, R441, R445). -/

/-- Eligible rings of a partition in round-robin order: function × 8 + ring. -/
def State.ringOrder (s : State) (p : Nat) : List Nat :=
  let n := (s.part p).ringNext
  ((List.range 64).map (fun i => (n + i) % 64)).filter (fun k =>
    let f := k / 8
    let r := k % 8
    let d := 2 ^ s.fld (Csr.hqRingBase_log2Depth f r)
    s.partOfFn f = some p && s.flag1 (Csr.hqRingBase_enable f r) && !s.flag1 (Csr.hqRingCtl_stopped f r) &&
    s.fld (Csr.hqRingCtl_head f r) % d ≠ s.fld (Csr.hqRingCtl_tail f r) % d)

/-- The partner of R390: the first valid CSG_PEER. -/
def State.partner (s : State) (p : Nat) : Option Nat := (List.range 4).find? (fun n => s.flag1 (Csr.csgPeer_valid p n))

/-- Room for a sequence number: the completion ring (R445), and with PARTNER_ACK the partner's tail (R394). -/
def State.seqRoom (s : State) (p seq : Nat) : Bool :=
  let out := (seq + 2 ^ 32 - s.fld (Csr.hqCplHead_released p)) % 2 ^ 32
  out ≤ 2 ^ s.fld (Csr.hqCpl_log2Depth p) &&
  (!s.flag1 (Csr.sealMan_partnerAck p) ||
    (match s.partner p with
     | some n =>
       let head := (((s.part p).csg.heads.find? (·.1 = n)).map (·.2)).getD 0
       (seq + 2 ^ 32 - head) % 2 ^ 32 < 131072
     | none => true))

/-- Acceptance is open: both journals are whole, no safe hold, no apply in progress on the partition. -/
def State.accepting (s : State) (p : Nat) : Bool :=
  !(s.caravans p).isEmpty && !s.dev.safeHold && s.dev.rebuild.isEmpty && s.dev.started &&
  !((s.dev.applying.map (fun (a : Nat × Nat × Image) => a.1 == p)).getD false) && s.fld Csr.cprPstate_device = 0

/-- An entry has been journaled: it takes the next sequence number, and its ring moves on. -/
def State.accept (s : State) (p f r : Nat) (hdr : BitVec 1024) : State :=
  let seq := (s.part p).nextSeq
  let d := 2 ^ s.fld (Csr.hqRingBase_log2Depth f r)
  let s := s.updPart p (fun x => { x with
    orders := x.orders ++ [⟨seq, hdr, 0, 0, false⟩], nextSeq := nextNum seq, ackWait := none, ringNext := (f * 8 + r + 1) % 64 })
  (s.setFld (Csr.hqRingCtl_head f r) ((s.fld (Csr.hqRingCtl_head f r) + 1) % d)).setFld (Csr.hqRingCtl_lastSeq f r) (seq % 2 ^ 31)

/-- A journal tail entry (R394). -/
def tailEntry (p seq : Nat) (hdr : BitVec 1024) : List Byte :=
  let b := leBytes 104 hdr.toNat ++ leBytes 8 0 ++ leBytes 4 seq ++ leBytes 1 p ++ leBytes 3 0
  b ++ leBytes 8 (crc64 b).toNat

/-- The manifest reads a ring entry (R441), by way of a function that can master (R414, R447): none is an entry that cannot be read. -/
def State.orderAccept (s : State) (p f r : Nat) (entry : Option (BitVec 1024)) : State :=
  let wait := (s.part p).ackWait.isSome && s.flag1 (Csr.sealMan_partnerAck p)
  if !s.accepting p || !s.masters f || wait || (s.ringOrder p).head? ≠ some (f * 8 + r) then s
  else
    match entry with
    | none =>
      ((s.setFld (Csr.hqRingCtl_stopped f r) 1).updPart p (fun x => { x with ringNext := (f * 8 + r + 1) % 64, ackWait := none })).event
        p 8 (manUnit s p) (r + f * 2 ^ 8)
    | some hdr =>
      let seq := (s.part p).nextSeq
      if !s.seqRoom p seq then s
      else if s.flag1 (Csr.sealMan_partnerAck p) then
        let s := s.updPart p (fun x => { x with ackWait := some (f, r, hdr) })
        match s.partner p with
        | some n => s.sendPacket 2 (s.fld (Csr.csgPeer_node p n)) 5 0 0 0 (s.tailBase p n + seq % 131072 * 128) (tailEntry p seq hdr)
        | none => s
      else s.accept p f r hdr

def execOrderAccept (p : PartId) (f : FuncId) (ring : Fin 8) (entry : Option (BitVec 1024)) (s : State) :
    Host.Outcome State Fault Refusal := answer s (fun s => s.orderAccept p f ring entry)

/-- The partner has stored the entry (R390). -/
def execPartnerAck (p : PartId) (s : State) : Host.Outcome State Fault Refusal :=
  answer s (fun s => match (s.part p).ackWait with
    | some (f, r, hdr) => if s.accepting p then s.accept p f r hdr else s
    | none => s)

/-! The checks of an order's first pace (R142, R147, R198, R263, R443). -/

/-- Code 0x61. -/
def bad61 (reason byte : Nat) : Fail := (0x61, reason + byte * 2 ^ 16)

/-- The extents a header names, with the direction each needs: address, length. -/
def State.hdrExtents (s : State) (p : Nat) (h : BitVec 1024) : List (Nat × Nat × Bool) :=
  let opt (a n : Nat) (wr : Bool) : List (Nat × Nat × Bool) := if a = 0 || n = 0 then [] else [(a, n, wr)]
  let n := if hTiming h = 0 then 0 else leNat (s.vbytes p (s.homeStn p) (hTiming h) 2)
  [(hStream h, hLen h, false), (hdrAt h 16 8, 64 * hdrAt h 24 2, false), (hdrAt h 32 8, 64 * hdrAt h 26 2, false)] ++
  opt (hTiming h) (8 + 8 * n) false ++ opt (hAlloc h) (8 * hAllocCount h) false ++ opt (hPlan h) (4 * (s.caravans p).length) false ++
  opt (hSpice h) (hSpiceLen h) false ++ (if hMailbox h then [(hResult h, 56, false)] else []) ++ opt (hBitmap h) 512 true

/-- The tables an order's first pace reads, timing, allocation, plan, spice set, as (station, address, length): poison in them is met there,
once the header's own checks have passed (R376; log entry 13). -/
def State.startTables (s : State) (p : Nat) (h : BitVec 1024) : List (Nat × Nat × Nat) :=
  let g := s.homeStn p
  let n := leNat (s.vbytes p g (hTiming h) 2)
  [(hTiming h, 8 + 8 * n), (hAlloc h, 8 * hAllocCount h), (hPlan h, 4 * (s.caravans p).length), (hSpice h, hSpiceLen h)].filterMap
    (fun (a, k) => if a = 0 || k = 0 then none else some (g, a, k))

/-- The header's own checks (R443), by reason. -/
def State.headerCheck (s : State) (p : Nat) (h : BitVec 1024) : Option Fail :=
  let dc := hdrAt h 24 2
  let rc := hdrAt h 26 2
  if hdrAt h 30 2 ≠ 0 || hdrAt h 104 24 ≠ 0 || 8 ≤ hFlags h then some (bad61 1 0)
  else if hStream h % 16 ≠ 0 || hLen h = 0 || hLen h % 16 ≠ 0 || dc = 0 || 4096 < dc || rc = 0 || 4096 < rc ||
      (hAlloc h = 0 && hAllocCount h ≠ 0) || (hSpice h = 0 && hSpiceLen h ≠ 0) then some (bad61 2 0)
  else if hdrAt h 14 2 ≠ (s.caravans p).length then some (bad61 3 0)
  else
    match (s.hdrExtents p h).findSome? (fun (a, n, wr) => s.rowCheck p 0 a n wr) with
    | some f => some (bad61 4 (f.2 % 2 ^ 48))
    | none => if hMailbox h && 31 < hdrAt h 28 2 then some (bad61 5 0) else none

/-- An entry of a timing table (R138). -/
def parseTime (w : Nat) : TimeEnt := ⟨bitsOf w 0 16, bitsOf w 16 16, bitsOf w 32 16⟩

/-- The binary's timing table; an absent one names no class (R140, R442). -/
def State.timing (s : State) (p : Nat) (h : BitVec 1024) : List TimeEnt :=
  if hTiming h = 0 then []
  else (List.range (leNat (s.vbytes p (s.homeStn p) (hTiming h) 2))).map (fun i =>
    parseTime (leNat (s.vbytes p (s.homeStn p) (hTiming h + 8 + 8 * i) 8)))

/-- The first entry that fails, in table order (R142). -/
def timingBad : Option Nat → List TimeEnt → Option Fail
  | _, [] => none
  | prev, t :: ts =>
    if !latEntries.any (·.cls = t.cls) then some (0x09, t.cls + 1 * 2 ^ 16)
    else if (prev.map (fun q => Nat.ble t.cls q)).getD false then some (0x09, t.cls + 2 * 2 ^ 16)
    else timingBad (some t.cls) ts

def State.timingCheck (s : State) (p : Nat) (h : BitVec 1024) : Option Fail :=
  let level := if hTiming h = 0 then 0 else (s.vbyte p (s.homeStn p) (hTiming h + 3)).toNat
  let own := s.fld Csr.devId_contract
  if own < level then some (0x0A, level + own * 2 ^ 8) else timingBad none (s.timing p h)

/-- One allocation (R147): a flag or a queue of a caravan ordinal. -/
inductive Alloc where
  | flag (ord idx : Nat) (f : Flag)
  | queue (ord idx depth base : Nat) (elastic : Bool)
  deriving DecidableEq, Repr

/-- Code 0x0B: index, kind, reason, counter or entries. -/
def bad0B (idx kind reason count : Nat) : Fail := (0x0B, idx + kind * 2 ^ 12 + reason * 2 ^ 16 + count * 2 ^ 32)

/-- Read the allocation table with its extension entries (R147). For an entry of KIND 2 or 3 the record shows KIND mod 2, and the counter
field of reason 2 is 0 (DESIGN CHOICE, log entry 47). -/
def parseAllocs (n : Nat) : Nat → List Nat → Except Fail (List Alloc)
  | _, [] => .ok []
  | hi, w :: ws =>
    let kind := bitsOf w 0 2
    let elastic := bitOf w 2
    let ord := bitsOf w 60 4 + 16 * hi
    let idx := bitsOf w 4 12
    if kind = 0 && idx = 0 then
      if w / 2 ^ 16 * 2 ^ 16 = w && w / 2 ^ 16 ≤ 1 then parseAllocs n (bitsOf w 16 1) ws else .error (bad0B 0 0 2 0)
    else if kind = 0 then
      if bitOf w 3 || bitsOf w 40 20 ≠ 0 || bitsOf w 32 8 = 0 || n ≤ ord then .error (bad0B idx 0 2 0)
      else (parseAllocs n hi ws).map (.flag ord idx ⟨bitsOf w 16 16, bitsOf w 32 8, elastic⟩ :: ·)
    else if kind = 1 then
      let q := bitsOf w 4 6
      let depth := bitsOf w 16 11
      if bitOf w 3 || bitsOf w 10 6 ≠ 0 || bitsOf w 27 13 ≠ 0 || depth = 0 || 1024 < depth || n ≤ ord then .error (bad0B q 1 2 0)
      else (parseAllocs n hi ws).map (.queue ord q depth (bitsOf w 40 20) elastic :: ·)
    else .error (bad0B idx (kind % 2) 2 0)

def State.allocs (s : State) (p : Nat) (h : BitVec 1024) : Except Fail (List Alloc) :=
  parseAllocs (s.caravans p).length 0 ((List.range (hAllocCount h)).map (fun i =>
    leNat (s.vbytes p (s.homeStn p) (hAlloc h + 8 * i) 8)))

/-- The plan word of a caravan ordinal (R198). -/
def State.planWord (s : State) (p : Nat) (h : BitVec 1024) (i : Nat) : Nat :=
  if hPlan h = 0 then 0 else leNat (s.vbytes p (s.homeStn p) (hPlan h + 4 * i) 4)

/-- The regions of a depot plan with the queues placed in it: offset and size. -/
def planRegions (w : Nat) (qs : List (Nat × Nat)) : List (Nat × Nat) :=
  let st := bitsOf w 0 5 * (2 * mib)
  let gc := bitsOf w 26 5 * mib
  ([(0, st), (32 * mib, st), (bitsOf w 6 10 * 2 ^ 16, bitsOf w 16 10 * 2 ^ 16), (64 * mib - gc, gc)] ++
   (if bitOf w 31 then [(0x1A00000, 0x600000)] else []) ++ qs).filter (fun r => r.2 ≠ 0)

/-- Some two of a list of regions overlap. -/
def clash : List (Nat × Nat) → Bool
  | [] => false
  | (a, n) :: rs => rs.any (fun (b, m) => a < b + m && b < a + n) || clash rs

/-- Reason 7 of code 0x16 (R198). -/
def planBad (w : Nat) (qs : List (Nat × Nat)) : Bool :=
  16 < bitsOf w 0 5 || 16 < bitsOf w 26 5 || bitOf w 5 || clash (planRegions w qs) ||
  (planRegions w qs).any (fun (a, n) => 64 * mib < a + n)

/-- The queues an allocation places in a caravan ordinal's depot. -/
def queuesOf (as : List Alloc) (i : Nat) : List (Nat × Nat) :=
  as.filterMap (fun a => match a with
    | .queue ord _ depth base _ => if ord = i then some (base * 64, depth * 64) else none
    | _ => none)

/-- Every check of the first pace in the order header, timing, allocation, plan, spice set (log entry 13). -/
def State.startCheck (s : State) (p : Nat) (h : BitVec 1024) : Except Fail (List Alloc × List (List Byte)) :=
  match (s.headerCheck p h).orElse (fun _ => s.timingCheck p h) with
  | some f => .error f
  | none =>
    match s.allocs p h with
    | .error f => .error f
    | .ok as =>
      if (List.range (s.caravans p).length).any (fun i => planBad (s.planWord p h i) (queuesOf as i)) then .error (bad16 0 7)
      else
        match splitSpice 8 0 (s.vbytes p (s.homeStn p) (hSpice h) (hSpiceLen h)) with
        | .error f => .error f
        | .ok ts => .ok (as, ts)

/-! Loading (R141, R147, R198, R263). -/

/-- Clear every flag and queue of a caravan. -/
def State.clearAlloc (s : State) (c : Nat) : State :=
  let s := { s with flags := s.flags.filter (fun x => x.1 / 4096 ≠ c), queues := s.queues.filter (fun x => x.1 / 64 ≠ c) }
  (List.range 64).foldl (fun s q => s.setReg (Csr.carQueue c q) 0) s

/-- Load the allocation table. -/
def State.loadAllocs (s : State) (p : Nat) (as : List Alloc) : State :=
  let cs := s.caravans p
  let s := cs.foldl (fun s c => s.clearAlloc c) s
  as.foldl (fun s a => match a with
    | .flag ord idx f => s.setFlag (s.flagKey p (cs.getD ord 0) idx) f
    | .queue ord q depth base el =>
      s.setReg (Csr.carQueue (cs.getD ord 0) q) (BitVec.ofNat 64 (depth + boolNat el * 2 ^ 11 + base * 2 ^ 24))) s

/-- Load the depot plan into DRV_DEPOT bits [31:0]. -/
def State.loadPlan (s : State) (p : Nat) (h : BitVec 1024) : State :=
  ((s.caravans p).zipIdx).foldl (fun s (c, i) =>
    s.setReg (Csr.drvDepot c) (BitVec.ofNat 64 (putBits (s.reg (Csr.drvDepot c)).toNat 0 32 (s.planWord p h i)))) s

/-- Load the spice set into every mortar. -/
def State.loadSpice (s : State) (p : Nat) (ts : List (List Byte)) : State :=
  (s.caravans p).foldl (fun s c => (List.range 8).foldl (fun s i =>
    let g := c * 8 + i
    let s := (List.range 8).foldl (fun s k => { s with spice := Map.set [] s.spice (g * 8 + k) (ts.getD k []) }) s
    s.setFld (Csr.stnSpice_loaded c i) (2 ^ ts.length - 1)) s) s

/-- Excess and padded classes of a timing table (R141). -/
def State.countClasses (s : State) (p : Nat) (ts : List TimeEnt) : State :=
  let own := ts.filter (fun t => t.cls < 0x40)
  let exceeds (t : TimeEnt) : Bool := t.lat < (actualOf t.cls).lat || t.ival < (actualOf t.cls).ival
  let pads (t : TimeEnt) : Bool := !exceeds t && ((actualOf t.cls).lat < t.lat || (actualOf t.cls).ival < t.ival)
  (s.setFld (Csr.prtLatency_excessClasses p) (own.filter exceeds).length).setFld (Csr.prtLatency_paddedClasses p)
    (own.filter pads).length

/-! Order start (R121, R220, R280, R288, R315, R444). -/

/-- Which order starts next (R440, R444): the named one of a pre-emption, else the first uncompleted. -/
def State.nextOrder (s : State) (p : Nat) : Option Order :=
  let x := s.part p
  match x.preempt with
  | some q => if q.named = 0 then none else x.orders.find? (·.seq = q.named)
  | none => x.orders.find? (fun o => ((x.exec.map (·.seq)) ≠ some o.seq))

/-- A transfer still in flight in one of the partition's caravans (R223). -/
def State.flying (s : State) (p : Nat) : Bool := (s.caravans p).any (fun c => (s.car c).outstanding ≠ 0)

/-- Word 0 and word 1 of the first command of a stream. -/
def State.firstWords (s : State) (p : Nat) (h : BitVec 1024) : Nat × Nat :=
  (leNat (s.vbytes p (s.homeStn p) (hStream h) 8), leNat (s.vbytes p (s.homeStn p) (hStream h + 8) 8))

/-- The flags of a partition's caravans. -/
def State.partFlags (s : State) (p : Nat) : List (Nat × Flag) := s.flags.filter (fun x => (s.caravans p).contains (x.1 / 4096))

/-- The lowest static flag of some that is not zero at an execution's end (R148). A signal counts from its command's completion (R144),
whether or not waits see it yet. -/
def Exec.flagsOff (e : Option Exec) (fs : List (Nat × Flag)) : Option Fail :=
  let n (k : Nat) (f : Flag) : Nat := f.count + (e.map (·.signalsTo k)).getD 0
  (((fs.filter (fun (k, f) => f.quantum ≠ 0 && !f.elastic && n k f ≠ 0)).map
      (fun (k, f) => (k % 4096, n k f))).foldl (fun (b : Option (Nat × Nat)) x =>
        if (b.map (fun y => Nat.ble y.1 x.1)).getD false then b else some x) none).map (fun x => bad0B x.1 0 1 x.2)

/-- The lowest static queue that is not empty (R148). -/
def State.queuesOff (s : State) (p : Nat) : Option Fail :=
  (List.range 64).findSome? (fun q => ((s.caravans p).find? (fun c => s.qDepth c q ≠ 0 && !s.qElastic c q && s.qOcc c q ≠ 0)).map
    (fun c => bad0B q 1 1 (s.qOcc c q)))

/-- The balance check of R148: the lowest static flag that is not zero, or static queue that is not empty. The rule orders neither flags
against queues nor one caravan's against another's: here flags come before queues, the lowest index first, and of one index that of
the lowest caravan (DESIGN CHOICE, log entry 47). -/
def State.unbalanced (s : State) (p : Nat) : Option Fail :=
  (Exec.flagsOff (s.exec? p) (s.partFlags p)).orElse (fun _ => s.queuesOff p)

/-- Whether the next order may continue the route of the running one (R220): its last command before END is a product, every tile of
which has entered the route. -/
def State.mayInterleave (s : State) (p : Nat) (e : Exec) (o : Order) : Bool :=
  let prevRe := (((s.part p).orders.find? (·.seq = e.seq)).map (·.reexec)).getD true
  let (w0, w1) := s.firstWords p o.hdr
  hInterleave e.hdr && hInterleave o.hdr && !prevRe && !o.reexec && (s.part p).prev.isNone && e.fault.isNone && !e.cancelled &&
  e.ended && w0 / 2 ^ 56 = 0x10 && !bitOf w0 40 &&
  (match e.cmds.getLast?, e.endOff with
   | some m, some off =>
     m.op = 0x10 && m.off + 16 = off && bitsOf m.w1.toNat 52 3 = bitsOf w1 52 3 &&
     (s.caravans p).all (fun c => (s.car c).runs.all (fun u => u.pairs ≤ u.pair))
   | _, _ => false)

/-- A fresh execution (R121, R280, R288). -/
def State.freshExec (s : State) (p : Nat) (o : Order) (base : Nat) (ts : List TimeEnt) : Exec :=
  { seq := o.seq, base := base, hdr := o.hdr, issuePace := 0, off := 0, ended := false, endOff := none, waiting := none, cmds := [],
    region := none, committed := false, outcome := 0, pending := false, voteOff := none, direct := none, upds := [], sent := [],
    sticky := 0, loss := none, timing := ts, clip := BitVec.ofNat 33 ((s.reg (Csr.updNorm p)).toNat % 2 ^ 33),
    step := BitVec.ofNat 32 (s.fld (Csr.updStep_step p)), seed := s.reg (Csr.updSeed p), sigs := [], coupledWait := hCoupled o.hdr,
    fault := none, partFault := false, cancelled := false, execs := o.execs + 1, normNew := none, dests := [], lastUse := [], marks := [],
    tagAfter := none, saveBad := [], kept := none, keptQ := none }

/-- Nothing keeps the partition's next order from starting (R382, R399, R403, R440, R444, R450, R223). -/
def State.mayStartOrder (s : State) (p : Nat) : Bool :=
  let x := s.part p
  !(s.caravans p).isEmpty && !x.suspended && !x.wghLost && !s.dev.safeHold && x.mboxWait.isEmpty && x.prev.isNone && s.csgState p ≠ 3 &&
  (x.exec.isSome || !s.flying p) && s.fld Csr.cprPstate_device = 0 && !((s.dev.applying.map (fun (a : Nat × Nat × Image) => a.1 == p)).getD false && x.exec.isNone)

/-- The holds of an execution end with it: a debug halt and the power loop's stay, and units that lost fewer cycles are made even only
where holds go on (R129). -/
def State.cutHolds (s : State) (p : Nat) : State :=
  s.updPart p (fun x =>
    let hs := x.holds.filter (fun h => h.src = 9 || h.src = 6)
    { x with holds := hs, merged := x.merged && !hs.isEmpty })

/-- Start an order (R444): the tag advances, the weighhouse context takes the pair, the tables are checked and loaded. An order that
faults at its first pace loads none of its tables, and DRV_DEPOT keeps the plan word it had (DESIGN CHOICE, log entry 46). -/
def State.startOrder (s : State) (p : Nat) (o : Order) : State :=
  let base := s.pace p
  let inter := (s.exec? p).isSome
  let attempt := if (s.wctx p).step = BitVec.ofNat 32 (s.fld (Csr.updStep_step p)) then (s.wctx p).attempt else 0
  let ts := s.timing p o.hdr
  let fs := s.partFlags p
  let bad := s.queuesOff p
  let s := s.updPart p (fun x => { x with
    prev := x.exec.map (fun e => { e with kept := some fs, keptQ := bad }),
    orders := x.orders.map (fun y => if y.seq = o.seq then { y with execs := y.execs + 1 } else y) })
  let s := if inter then s else s.cutHolds p
  let s := s.setExec p (s.freshExec p o base ts)
  let s := (s.setReg (Csr.prtOrderBase p) (BitVec.ofNat 64 base)).setFld (Csr.updStep_tag p) (nextNum (s.fld (Csr.updStep_tag p)))
  let s := if inter then s else (s.caravans p).foldl (fun s c => s.updCar c Car.stop) s
  let s := s.setPartState p 0
  let s := s.wghStart p o.seq (BitVec.ofNat 32 (s.fld (Csr.updStep_step p))) attempt inter
  let poisoned := if (s.headerCheck p o.hdr).isSome then none else s.poisonCheck p (manUnit s p) 0 (s.startTables p o.hdr)
  match poisoned with
  | some s => s
  | none =>
  match s.startCheck p o.hdr with
  | .error f => s.raise p (manUnit s p) f.1 0 f.2
  | .ok (as, ts') => (((s.loadAllocs p as).loadPlan p o.hdr).loadSpice p ts').countClasses p ts

def State.orderStart (s : State) (p : Nat) : State :=
  if !s.mayStartOrder p then s
  else
    match s.nextOrder p with
    | none => s
    | some o =>
      match s.exec? p with
      | none => s.startOrder p o
      | some e => if (s.part p).preempt.isNone && s.mayInterleave p e o then s.startOrder p o else s

def execOrderStart (p : PartId) (s : State) : Host.Outcome State Fault Refusal := answer s (fun s => s.orderStart p)

/-! Windows and bank pairs that waited (R202, R284). -/

/-- A change takes effect; a window onto a fenced stack suspends the partition (R381). -/
def State.applyAct (s : State) (p : Nat) (a : SealAct) : State :=
  match a with
  | .mapWin i va pa =>
    let s := (s.setReg (Csr.prtWinVa p i) va).setReg (Csr.prtWinPa p i) pa
    match s.dev.fencedStacks.find? (fun k => ((s.win p i).map (·.onStack k)).getD false) with
    | some k => s.suspend p (unitInst (k / 8) (k % 8) 0x30)
    | none => s
  | .unmapWin i => s.setFld (Csr.prtWinVa_valid p i) 0
  | .bankPair i w => s.setReg (Csr.updPair p i) w

/-- The Seal's answer to a request: STATUS, REASON and MSI-X vector 2 (R439, R447). -/
def State.sealAnswer (s : State) (p status reason : Nat) : State :=
  ((s.setFld (Csr.hqSealreq_status p) status).setFld (Csr.hqSealreq_reason p) reason).emit (.msix (s.fld (Csr.hqCpl_func p)) 2)

/-- A pre-emption that was asked for finds no order running any more: it is refused with reason 7 (R439). -/
def State.dropPreReq (s : State) (p : Nat) : State :=
  if (s.part p).preReq.isSome then (s.updPart p (fun x => { x with preReq := none })).sealAnswer p 3 7 else s

/-- An order of the partition has started and not ended: no change of windows or bank pairs takes effect (R202). -/
def Part.inOrder (x : Part) : Bool := x.exec.isSome || x.prev.isSome || x.preempt.isSome || x.orders.any (fun o => o.execs ≠ 0)

/-- Between orders, the changes that waited take effect (R202, R284, R439). -/
def State.applyActs (s : State) (p : Nat) : State :=
  let x := s.part p
  if x.inOrder || x.acts.isEmpty then s
  else x.acts.foldl (fun s a => s.applyAct p a) (s.updPart p (fun x => { x with acts := [] }))

/-! Completion records and mailboxes (R445 to R447, R450). -/

/-- Write a record into the completion ring and signal vector 0; the applied bitmap goes before it (R446, R447). -/
def State.writeRecord (s : State) (p : Nat) (r : Record) : State :=
  let f := s.fld (Csr.hqCpl_func p)
  let s := if r.bitmapVa = 0 then s else s.storeVbytes (s.manRtr p) p (s.homeStn p) r.bitmapVa r.bitmap
  (s.emit (.hostWrite f (s.fld (Csr.hqCpl_base p) + r.seq % 2 ^ s.fld (Csr.hqCpl_log2Depth p) * 64) r.bytes)).emit (.msix f 0)

/-- A record among those that wait, by how far its sequence number lies past the one released. -/
def putRecord (base : Nat) (r : Record) : List Record → List Record
  | [] => [r]
  | x :: xs => if (x.seq + 2 ^ 32 - base) % 2 ^ 32 ≤ (r.seq + 2 ^ 32 - base) % 2 ^ 32 then x :: putRecord base r xs else r :: x :: xs

/-- Records are written in sequence order once the function can master (R447). -/
def State.flushRecords (s : State) (p : Nat) : State :=
  if s.masters (s.fld (Csr.hqCpl_func p)) then
    (s.part p).records.foldl (fun s r => s.writeRecord p r) (s.updPart p (fun x => { x with records := [] }))
  else s

/-- COMPLETION_FLUSH: the partition's functions whose link is up can master again, since the host has turned their bus mastering on (R447; log
entry 7), and the records that waited are written. -/
def State.completionFlush (s : State) (p : Nat) : State :=
  (s.updDev (fun d => { d with noMaster := d.noMaster.filter (fun f => !(s.partOfFn f = some p && s.hostUp f)) })).flushRecords p

def execCompletionFlush (p : PartId) (s : State) : Host.Outcome State Fault Refusal := answer s (fun s => s.completionFlush p)

/-- Empty a mailbox (R450). -/
def State.emptyMbox (s : State) (p m : Nat) : State :=
  (List.range 7).foldl (fun s i => s.setReg (Csr.hqMboxData p m i) 0) (s.setReg (Csr.hqMbox p m) 0)

/-- Publish into an empty mailbox. -/
def State.fillMbox (s : State) (p m seq : Nat) (ready : Bool) (data : List Byte) : State :=
  let s := (s.setFld (Csr.hqMbox_seq p m) seq).setFld (Csr.hqMbox_state p m) (if ready then 1 else 2)
  if ready then (List.range 7).foldl (fun s i => s.setReg (Csr.hqMboxData p m i) (BitVec.ofNat 64 (leAt data (8 * i) 8))) s else s

/-- An order's publication: at once, or when the mailbox is released. -/
def State.publish (s : State) (p m seq : Nat) (ready : Bool) (data : List Byte) : State :=
  if s.fld (Csr.hqMbox_state p m) = 0 then s.fillMbox p m seq ready data
  else s.updPart p (fun x => { x with mboxWait := x.mboxWait ++ [(m, seq, ready, data)] })

/-- RELEASE (R450). -/
def State.mboxRelease (s : State) (p m : Nat) : State :=
  if s.fld (Csr.hqMbox_state p m) = 0 then s
  else
    let s := s.emptyMbox p m
    match (s.part p).mboxWait.find? (·.1 = m) with
    | some (_, seq, ready, data) =>
      (s.updPart p (fun x => { x with mboxWait := x.mboxWait.eraseP (·.1 = m) })).fillMbox p m seq ready data
    | none => s

def execMboxRelease (f : FuncId) (m : Fin 32) (s : State) : Host.Outcome State Fault Refusal :=
  answer s (fun s => s.fromHost f (fun p s => s.mboxRelease p m))

/-! Order end (R148, R293 to R297, R385, R391, R446). -/

/-- Whether a direct-mode UPDATE of the execution has written (R297): a frozen element is not written (R290). -/
def Exec.wrote (e : Exec) : Bool := e.direct = some true && e.upds.any (·.wrote)

/-- The applied bitmap (R295): bit i of the i-th UPDATE, in bit i mod 8 of byte i / 8. -/
def Exec.bitmap (e : Exec) : List Byte :=
  leBytes 512 ((e.upds.take 4096).zipIdx.foldl (fun n (u, i) => n + boolNat u.written * 2 ^ i) 0)

/-- The bytes of a completion record (R446). -/
def recordBytes (o : Order) (e : Option Exec) (status outcome : Nat) (fault : Option (Word × Word × Word × Word)) : List Byte :=
  let part := e.bind (fun e => if e.direct = some true then e.upds.find? (fun u => !u.applied.isEmpty && !u.written) else none)
  let flags := ((e.map (·.sticky.toNat)).getD 0) % 32 + (if o.re ≠ 0 then 32 else 0)
  let fw (w : Word) : List Byte := leBytes 8 w.toNat
  leBytes 4 o.seq ++ leBytes 1 status ++ leBytes 1 outcome ++ leBytes 2 flags ++ leBytes 8 (hdrAt o.hdr 96 8) ++
  leBytes 4 ((part.map (·.bucket)).getD 0xFFFFFFFF) ++ leBytes 2 ((part.map (·.applied.length)).getD 0) ++
  leBytes 1 (min o.execs 255) ++ leBytes 1 0 ++ leBytes 4 ((e.bind (·.loss)).getD 0).toNat ++ leBytes 4 0 ++
  (match fault with
   | some (a, b, c, d) => if status = 1 || status = 3 then leBytes 32 0 else fw a ++ fw b ++ fw c ++ fw d
   | none => leBytes 32 0)

/-- The committed outcome of a completed order takes effect, or the refusal is counted (R293, R295, R297): the OUTCOME of its
record. A step without an UPDATE is a staged one. -/
def State.settleOutcome (s : State) (p : Nat) (e : Exec) (status : Nat) : State × Nat :=
  let s := s.updWctx p (fun w => { w with votes := if e.outcome = 0 then w.votes else [] })
  if status ≠ 1 then
    if e.wrote then ((s.setFld (Csr.updCommit_stopped p) 1).setFld (Csr.updCommit_outcome p) 5, if e.committed || e.loss.isSome then 5 else 0)
    else (s, if status = 2 && e.outcome = 3 then 3 else 0)
  else if e.outcome = 0 then (s, 0)
  else
    let s := s.setFld (Csr.updCommit_outcome p) e.outcome
    if e.pending then
      let s := if e.direct = some true then s else s.setFld (Csr.updCommit_live p) (1 - s.fld (Csr.updCommit_live p))
      let s := s.setFld (Csr.updStep_step p) ((s.fld (Csr.updStep_step p) + 1) % 2 ^ 32)
      ((s.setFld (Csr.updNorm_norm p) ((e.normNew.getD 0).toNat)).setFld (Csr.updNorm_normValid p) 1, e.outcome)
    else (s.count (Csr.updCommit_refused p) 1, e.outcome)

/-- An order ends with a status (R385, R446, R450): journal, record, bitmap, mailbox. -/
def State.endOrder (s : State) (p : Nat) (o : Order) (e : Option Exec) (status : Nat) (fault : Option (Word × Word × Word × Word)) : State :=
  let (s, outcome) := match e with
    | some e => s.settleOutcome p e status
    | none => (s, 0)
  let s := s.updPart p (fun x => { x with orders := x.orders.filter (·.seq ≠ o.seq) })
  let s := s.setFld (Csr.sealMan_completed p) o.seq
  let bm := (e.map (fun e => e.direct = some true && hBitmap e.hdr ≠ 0)).getD false
  let r : Record := ⟨o.seq, recordBytes o e status outcome fault, if bm then hBitmap o.hdr else 0, (e.map (·.bitmap)).getD []⟩
  let base := s.fld (Csr.hqCplHead_released p)
  let s := (s.updPart p (fun x => { x with records := putRecord base r x.records })).flushRecords p
  if hMailbox o.hdr && hdrAt o.hdr 28 2 ≤ 31 then
    s.publish p (hdrAt o.hdr 28 2) o.seq (status = 1) (s.vbytes p (s.homeStn p) (hResult o.hdr) 56)
  else s

/-- The order of an execution. -/
def State.orderOf (s : State) (p seq : Nat) : Order := ((s.part p).orders.find? (·.seq = seq)).getD ⟨seq, 0, 0, 0, false⟩

/-- What an order's elastic flags and queues still hold is discarded at its end (R148). -/
def State.dropElastic (s : State) (p : Nat) : State :=
  (s.caravans p).foldl (fun s c =>
    let s := { s with flags := Map.mapCanon (fun _ => Flag.none) (fun k f => if k / 4096 = c && f.elastic then { f with count := 0 } else f) s.flags }
    ((List.range 64).filter (fun q => s.qElastic c q)).foldl (fun s q =>
      (s.setQueue (queueKey c q) Queue.empty).setFld (Csr.carQueue_occupancy c q) 0) s) s

/-- No execution of a partition is left: nothing in elastic flags and queues (R148), no scan, no hold of its own, P1 at once (R416).
After a resumed execution the tag goes on from where later ones had taken it (log entry 45). -/
def State.noExec (s : State) (p : Nat) : State :=
  let s := match (s.exec? p).bind (·.tagAfter) with
    | some t => s.setFld (Csr.updStep_tag p) t
    | none => s
  let s := (s.caravans p).foldl (fun s c => s.scanOver c) (s.dropElastic p)
  ((s.updPart p (fun x => { x with exec := none, prev := none })).cutHolds p).setPartState p 1

/-- An execution is over with its order: a named pre-emption resumes, a pre-emption asked for finds nothing to stop, the changes that
waited take effect. -/
def State.leaveExec (s : State) (p seq : Nat) : State :=
  let s := (s.noExec p).updPart p (fun x => { x with
    preempt := x.preempt.map (fun q => if q.named = seq then { q with resume := true } else q) })
  (s.dropPreReq p).applyActs p

/-- Orders of a partition are to be executed again, each execution counted (R386). -/
def State.again (s : State) (p : Nat) (seqs : List Nat) : State :=
  (s.updPart p (fun x => { x with
    orders := x.orders.map (fun o => if seqs.contains o.seq then { o with reexec := true, re := o.re + 1 } else o) })).count
    (Csr.sealMan_reexecs p) seqs.length

/-- A step refused for deadlines alone starts again (R296). -/
def State.repeatStep (s : State) (p : Nat) (e : Exec) : State :=
  let s := ((s.setFld (Csr.updCommit_outcome p) 3).count (Csr.updCommit_refused p) 1).count (Csr.updCommit_repeats p) 1
  let s := s.updWctx p (fun w => { w with
    attempt := w.attempt + 1, sends := w.sends.filter (fun r => r.seq ≠ e.seq && !w.closed r), queued := [], old := [], opens := [],
    inbox := [], taken := [], votes := [] })
  (s.noExec p).updPart p (fun x => { x with orders := x.orders.map (fun o => if o.seq = e.seq then { o with reexec := true } else o) })

/-- The lowest chunk of a bucket that missed its deadline in this execution (R314). -/
def Wgh.firstMissed (w : Wgh) (bucket : Nat) : Nat :=
  ((w.taken.filter (fun y => y.bucket = bucket && y.kind = 2)).map (·.chunk)).foldl
    (fun (a : Option Nat) c => some (min c (a.getD c))) Option.none |>.getD 0

/-- Repeats that the step keeper has made of an order (R296): executions beyond the first that were not re-executions (R386). -/
def Order.repeats (o : Order) : Nat := o.execs - 1 - o.re

/-- Code 0x42 when the repeats are used up (R296, R326): the first UPDATE whose result never arrived, its lowest chunk that missed its
deadline, the repeats made. -/
def State.bad42 (s : State) (p : Nat) (e : Exec) : Nat :=
  let b := ((e.upds.find? (fun u => u.bad = 3)).map (·.bucket)).getD 0
  b + (s.wctx p).firstMissed b % 2 ^ 16 * 2 ^ 20 + (s.orderOf p e.seq).repeats % 16 * 2 ^ 36

/-- The fault record of a part fault that ends a coupled order (R388, R405), or of the re-execution limit (R386). -/
def State.endFault (s : State) (p code w3 : Nat) (old : Word × Word × Word × Word) : Word × Word × Word × Word :=
  faultRec p code (manUnit s p) (bitsOf old.1.toNat 32 32) old.2.1.toNat old.2.2.1.toNat w3

/-- A part fault's record reaches the host as an event of type 5 (R446, R451; log entry 23). -/
def State.partFaultEvent (s : State) (p : Nat) (r : Word × Word × Word × Word) : State :=
  s.event p 5 (bitsOf r.1.toNat 8 16) (r.1.toNat % 256)

/-- How a stopped execution ends: the record it fails with, or none when the manifest re-executes it (R372, R386, R388). -/
def State.failsWith (s : State) (p : Nat) (e : Exec) (r : Word × Word × Word × Word) : Option (Word × Word × Word × Word) :=
  let o := s.orderOf p e.seq
  if !e.partFault then some r
  else if hCoupled e.hdr then some (s.endFault p 0x73 (r.1.toNat % 256) r)
  else if e.wrote then some r
  else if s.fld (Csr.sealMan_reexecLimit p) ≤ o.re then some (s.endFault p 0x72 (min o.execs 255) r)
  else none

/-- END completes once R148 holds, and signals then (R167): the check comes before the signal, and the flag goes with the order's
other flags (log entry 17). A flag without quantum, or a full one, still faults (R145, R147). -/
def State.endSignal (s : State) (p off : Nat) : State :=
  match (s.exec? p).bind (fun e => s.streamWords p e off) with
  | none => s
  | some (w0, _) =>
    let h := decodeHead w0
    let c := (s.mapCar p (selCar h.select.toNat)).getD (s.home p)
    s.signal p off (manUnit s p) c h.signal.toNat [c]

/-- How a stopped execution ends (R151, R372, R386, R388, R448): cancelled, failed with a record, or executed again. -/
inductive Fate where
  | cancelled
  | failed (r : Word × Word × Word × Word)
  | again
  deriving DecidableEq, Repr

/-- The fate of one of two interleaved executions when a stop of the partition has ended both (R151, R220). One that has no fault of its
own ends as at a part fault with the other's record `cause` under its own sequence number (log entry 20). -/
def State.fate (s : State) (p : Nat) (cause : Word × Word × Word × Word) (e : Exec) : Fate :=
  if e.cancelled then .cancelled
  else
    let (e, r) := match e.fault with
      | some r => (e, r)
      | none => ({ e with partFault := true }, (BitVec.ofNat 64 (cause.1.toNat % 2 ^ 32 + e.seq % 2 ^ 32 * 2 ^ 32), cause.2))
    if s.flag1 (Csr.sealMan_suspended p) && e.partFault && !hCoupled e.hdr && !e.wrote then .again
    else
      match s.failsWith p e r with
      | some r => .failed r
      | none => .again

/-- What ended two interleaved executions: a fault of the first, else of the second, else a cancellation of one, which has no record
(log entry 20). -/
def Exec.cause (a b : Exec) : Word × Word × Word × Word := (a.fault.orElse (fun _ => b.fault)).getD (0, 0, 0, 0)

/-- One of two interleaved executions ends by its fate; a part fault's record reaches the host (R446). -/
def State.endBy (s : State) (p : Nat) (cause : Word × Word × Word × Word) (e : Exec) : State :=
  let o := s.orderOf p e.seq
  let s' := match e.fault with
    | some r => if e.partFault then s.partFaultEvent p r else s
    | none => s
  match s.fate p cause e with
  | .cancelled => s.endOrder p o (some e) 3 none
  | .failed r => s'.endOrder p o (some e) 2 (some r)
  | .again => s'.again p [e.seq]

/-- Two interleaved executions that a stop has ended: each order ends by its fate, in sequence order (R220, R386). -/
def State.endBoth (s : State) (p : Nat) (a b : Exec) : State :=
  let r := a.cause b
  (((s.endBy p r a).endBy p r b).noExec p).leaveExec p b.seq

/-- Whether the manifest ends a stopped pair now, since one of the two fails or is cancelled; where both are executed again, that is
REEXECUTE's to do. -/
def State.pairFails (s : State) (p : Nat) (a b : Exec) : Bool :=
  s.fate p (a.cause b) a != .again || s.fate p (a.cause b) b != .again

/-- Whether the partition's stop has ended an execution. -/
def Exec.isOver (e : Exec) : Bool := e.fault.isSome || e.cancelled

/-- The end of an order that an interleaved one has overtaken (R148, R167): what its static flags and queues fail, END's signal. -/
def State.keptCheck (s : State) (p : Nat) (e : Exec) : State :=
  let off := e.endOff.getD 0
  match ((e.kept.bind (fun fs => Exec.flagsOff (some e) fs)).orElse (fun _ => e.keptQ)) with
  | some f => s.raise p (manUnit s p) f.1 off f.2
  | none => s.endSignal p off

/-- The first of two interleaved orders ends once its commands have completed (R220). A fault stops the partition, and so both
executions (R151). -/
def State.endPrev (s : State) (p : Nat) (a : Exec) : State :=
  match s.exec? p with
  | none => s
  | some b =>
    if a.isOver || b.isOver then (if s.pairFails p a b then s.endBoth p a b else s)
    else if !a.cmds.isEmpty || a.waiting.isSome then s
    else
      let s := s.forSeq p a.seq (fun s => s.keptCheck p a)
      match (s.part p).prev with
      | some a =>
        if a.isOver then (match s.exec? p with
          | some b => if s.pairFails p a b then s.endBoth p a b else s
          | none => s)
        else (s.endOrder p (s.orderOf p a.seq) (some a) 1 none).updPart p (fun x => { x with prev := none })
      | none => s

/-- The running order ends (R385). `sinceS` is the time since the start of the previous consignment. -/
def State.orderEnd (s : State) (p sinceS : Nat) (e : Exec) : State :=
  let o := s.orderOf p e.seq
  if e.cancelled then (s.endOrder p o (some e) 3 none).leaveExec p e.seq
  else
    match e.fault with
    | some r =>
      if s.flag1 (Csr.sealMan_suspended p) && e.partFault && !hCoupled e.hdr && !e.wrote then s
      else
        match s.failsWith p e r with
        | none => s
        | some r' =>
          let s := if e.partFault then s.partFaultEvent p r else s
          (s.endOrder p o (some e) 2 (some r')).leaveExec p e.seq
    | none =>
      if !e.ended || !e.cmds.isEmpty then s
      else if e.outcome = 3 && e.direct ≠ some true then
        if o.repeats < s.fld (Csr.updCfg_repeatLimit p) then s.repeatStep p e
        else
          let r := faultRec p 0x42 (wghUnit s p) e.seq (s.orderPace p) (e.voteOff.getD 0) (s.bad42 p e)
          let s := (s.setFld (Csr.updCommit_outcome p) 3).count (Csr.updCommit_refused p) 1
          (s.endOrder p o (some { e with fault := some r }) 2 (some r)).leaveExec p e.seq
      else
        let s := (s.endOrder p o (some e) 1 none).leaveExec p e.seq
        if e.pending then s.csgBoundary p sinceS else s

/-- ORDER_COMPLETE: the balance check of R148 at the end, END's signal, then the end itself. -/
def State.orderComplete (s : State) (p sinceS : Nat) : State :=
  if s.dev.safeHold then s
  else
  match (s.part p).prev with
  | some e => s.endPrev p e
  | none =>
    match s.exec? p with
    | none => s
    | some e =>
      let s := if e.fault.isNone && !e.cancelled && e.ended && e.cmds.isEmpty && e.endOff.isSome then
          match s.unbalanced p with
          | some f => s.raise p (manUnit s p) f.1 (e.endOff.getD 0) f.2
          | none => s.endSignal p (e.endOff.getD 0)
        else s
      match s.exec? p with
      | some e => s.orderEnd p sinceS e
      | none => s

def execOrderComplete (p : PartId) (sinceS : Nat) (s : State) : Host.Outcome State Fault Refusal :=
  answer s (fun s => s.orderComplete p sinceS)

/-! Re-execution (R372, R386, R404). -/

/-- The running order starts again (R386). Changes of windows that wait go on waiting: the order has not ended (R202). -/
def State.restart (s : State) (p : Nat) (e : Exec) : State := (s.noExec p).again p [e.seq]

/-- REEXECUTE: the manifest starts the partition's orders again from the first uncompleted one after a part fault. -/
def State.reexecute (s : State) (p : Nat) : State :=
  let x := s.part p
  if x.suspended || s.dev.safeHold then s
  else
    match x.prev, x.exec with
    | some a, some b => if (a.isOver || b.isOver) && !s.pairFails p a b then s.endBoth p a b else s
    | none, some e =>
      match e.fault with
      | some r => if e.partFault && !e.cancelled && (s.failsWith p e r).isNone then (s.partFaultEvent p r).restart p e else s
      | none => s
    | _, none => s

def execReexecute (p : PartId) (s : State) : Host.Outcome State Fault Refusal := answer s (fun s => s.reexecute p)

/-- A narrower reset touches a running order (R386): it stops and starts again. A coupled order ends with 0x73, a direct one
that has written is reported failed (R388). -/
def State.touched (s : State) (p unit : Nat) : State :=
  match s.exec? p with
  | none => s
  | some e =>
    if e.fault.isSome then s
    else ((s.stopOrder p).updExec p (fun x => { x with
      fault := some (faultRec p 0x70 unit e.seq (s.orderPace p) ((e.cmds.head?.map (·.off)).getD e.off) (unit + 2 * 2 ^ 16)),
      partFault := true })).reexecute p

/-! Cancelling, withdrawing (R382, R389, R448). -/

/-- The orders a pre-emption has saved, in sequence order (R220). -/
def Preempt.execs (q : Preempt) : List Exec := q.prev.toList ++ [q.exec]
def Preempt.seqs (q : Preempt) : List Nat := q.execs.map (·.seq)

/-- A saved order is cancelled (R448). The pre-emption goes on: with no order named nothing starts until request 8, which then finds
nothing to resume (R440). An order saved with it, interleaved, ends as when the partition stops (log entry 45). -/
def State.cancelSaved (s : State) (p seq : Nat) : State :=
  match (s.part p).preempt with
  | none => s
  | some q =>
    let s := q.execs.foldl (fun s e => s.endBy p (0, 0, 0, 0) (if e.seq = seq then { e with cancelled := true } else e)) s
    s.updPart p (fun x => { x with preempt := some { q with gone := true } })

/-- Cancel an accepted order (R448). -/
def State.cancel (s : State) (p seq : Nat) : State :=
  let x := s.part p
  let isPre := (x.preempt.map (fun q => !q.gone && q.seqs.contains seq)).getD false
  if !x.orders.any (·.seq = seq) then s
  else if (x.exec.map (·.seq)) = some seq then
    if ((x.exec.map (·.cancelled)).getD false) then s
    else (s.stopOrder p).updExec p (fun e => { e with cancelled := true, pending := false })
  else if (x.prev.map (·.seq)) = some seq then
    if ((x.prev.map (·.cancelled)).getD false) then s
    else (s.stopOrder p).updPart p (fun x => { x with prev := x.prev.map (fun e => { e with cancelled := true, pending := false }) })
  else if isPre then s.cancelSaved p seq
  else
    let s := s.endOrder p (s.orderOf p seq) none 3 none
    s.updPart p (fun x => { x with preempt := x.preempt.map (fun q => if q.named = seq then { q with resume := true } else q) })

def execHqCancel (f : FuncId) (seq : BitVec 32) (s : State) : Host.Outcome State Fault Refusal :=
  answer s (fun s => s.fromHost f (fun p s => s.cancel p seq.toNat))

/-- Every accepted order of a partition ends with one status, once each and in sequence order (R382, R389). -/
def State.endAll (s : State) (p status : Nat) : State :=
  let s := s.stopOrder p
  let x := s.part p
  let es := x.prev.toList ++ x.exec.toList ++ ((x.preempt.filter (fun q => !q.gone)).map Preempt.execs).getD []
  let s := ((s.dropPreReq p).noExec p).updPart p (fun x => { x with preempt := none })
  let s := x.orders.foldl (fun s o =>
    let mine := es.find? (·.seq = o.seq)
    s.endOrder p o mine status (if status = 4 then (mine.bind (·.fault)) else none)) s
  s.applyActs p

/-- The Seal grants a partition n slots in an instance, which never has more than nine (R327). A context that was lost is then made afresh
there: no member table, no epoch, nothing sent or taken (R300, R382; log entry 25). -/
def State.grantWgh (s : State) (p h n : Nat) : State :=
  if 9 < s.slotsIn h p + n then s
  else
    let s := (s.setFld (Csr.wghShare_slots p) n).setFld (Csr.wghShare_half p) h
    if (s.part p).wghLost then ((s.setWctx p Wgh.none).setReg (Csr.wghEpoch p) 0).updPart p (fun x => { x with wghLost := false }) else s

/-- RESUME (R382): the partition is whole, and no window maps a fenced stack. For a weighhouse context of a lost half the Seal grants the
same slots in the surviving instance where they are free; where they are not, the partition's orders wait for a grant (log entry 25). -/
def State.manResume (s : State) (p : Nat) : State :=
  let whole := (s.caravans p).all s.healthyCar && (s.caravans p).length = (s.named p).length
  let users := s.dev.fencedStacks.all (fun k => !(s.stackUsers k).contains p)
  if !(s.part p).suspended || !whole || !users then s
  else
    let s := if (s.part p).wghLost && s.dev.sealUp then
        s.grantWgh p (s.wghHalf p) (s.fld (Csr.wghShare_slots p)) else s
    let s := (s.updPart p (fun x => { x with suspended := false, pinned := false })).setFld (Csr.sealMan_suspended p) 0
    if (s.part p).exec.isSome then s.reexecute p else s

def execSealManResume (f : FuncId) (s : State) : Host.Outcome State Fault Refusal :=
  answer s (fun s => s.fromHost f (fun p s => s.manResume p))

/-- WITHDRAW (R382). -/
def State.withdraw (s : State) (p : Nat) : State :=
  if !(s.part p).suspended then s
  else ((s.endAll p 4).updPart p (fun x => { x with suspended := false, pinned := false })).setFld (Csr.sealMan_suspended p) 0

def execSealManWithdraw (f : FuncId) (s : State) : Host.Outcome State Fault Refusal :=
  answer s (fun s => s.fromHost f (fun p s => s.withdraw p))

/-! Pre-emption (R87, R222, R297, R440). -/

/-- A leg boundary, with no merge under way (R87, R114): of the lowest of the partition's caravans with a tile on its route. The others
are saved where they stand in their legs (log entry 45). -/
def State.legBoundary (s : State) (p : Nat) : Bool :=
  (match (s.caravans p).find? (fun c => (s.car c).vLen ≠ 0 && (s.car c).tiles.any Option.isSome) with
   | some c => (s.pace p - (s.car c).vStart) % 32 = 0
   | none => true) &&
  s.banks.all (fun (k, b) => !((s.caravans p).contains (k / 336) && b.st.merges))

/-- Shift the absolute paces of a bank. -/
def BankSt.shift (d : Nat) : BankSt → BankSt
  | .merging off n dr => .merging off (if n = 0 then 0 else n + d) dr
  | .draining off n => .draining off (n + d)
  | .held n => .held (n + d)
  | b => b

/-- A MOVE or GATHER in progress starts again from its start (R222). -/
def Exec.rewind (e : Exec) : Exec :=
  { e with saveBad := [], cmds := e.cmds.map (fun m => if (m.op = 0x40 || m.op = 0x41) && m.done.isNone then { m with drv := DrvProg.start } else m) }

/-- A tile without its bytes: landing buffers and tiles in flight are discarded at a pre-emption (R87). -/
def TileAt.bare (t : TileAt) : TileAt := { t with data := [] }

/-- What a pre-emption saves of a caravan: its places on the route, the passes to restart, and the remnant passes to run. -/
def Car.saved (k : Car) : Car :=
  let bare (ts : List (Option TileAt)) : List (Option TileAt) := ts.map (·.map TileAt.bare)
  { k with incoming := noTiles, previous := noTiles, tiles := bare k.tiles, shadow := bare k.shadow, cells := k.cells.map bare,
           xfers := [], reads := [], ahead := [], pipe := [] }

/-- The save of a pre-emption. -/
def State.savePreempt (s : State) (p named : Nat) (e : Exec) : Preempt :=
  let cs := s.caravans p
  { exec := e.rewind, prev := (s.part p).prev.map Exec.rewind, gone := false, named := named, resume := false, cars := cs.map (fun c => (c, (s.car c).saved)),
    banks := s.banks.filter (fun x => cs.contains (x.1 / 336)), entries := s.tally.filter (fun x => cs.contains (x.1 / 4096 / 336)),
    depots := s.mem.filter (fun x => cs.any (fun c => depotBase c ≤ x.1 && x.1 < depotBase c + 64 * mib)),
    flags := s.flags.filter (fun x => cs.contains (x.1 / 4096)), queues := s.queues.filter (fun x => cs.contains (x.1 / 64)),
    spice := s.spice.filter (fun x => cs.contains (x.1 / 64)),
    regs := [(Csr.updStep p, s.reg (Csr.updStep p)), (Csr.prtLatency p, s.reg (Csr.prtLatency p))] ++ cs.flatMap (fun c =>
      (Csr.drvDepot c, s.reg (Csr.drvDepot c)) ::
      ((List.range 64).map (fun q => (Csr.carQueue c q, s.reg (Csr.carQueue c q))) ++
       (List.range 8).map (fun i => (Csr.stnSpice c i, s.reg (Csr.stnSpice c i))))),
    wgh := s.wctx p, atPace := s.pace p }

/-- Take what a pre-emption saved out of the caravans. -/
def State.clearCars (s : State) (p : Nat) : State :=
  let cs := s.caravans p
  let s := { s with banks := s.banks.filter (fun x => !cs.contains (x.1 / 336)),
                    tally := s.tally.filter (fun x => !cs.contains (x.1 / 4096 / 336)) }
  cs.foldl (fun s c => s.updCar c Car.stop) s

/-- Rows on their way reach the tally and are checked before a save, and a replay they need is made (R87, R90). R87 does not say whether the
pace count advances over the paces this takes: here it does not, and the saved pace is the leg boundary's (DESIGN CHOICE, log entry 45).
-/
def State.flushRows (s : State) (p : Nat) : State :=
  (s.caravans p).foldl (fun s c => s.rowsOut p c [] (fun _ => true)) s

/-- Fences that wait for a boundary take effect with the pre-emption, and the passes they touch are saved marked for restart (R90). -/
def State.flushFences (s : State) (p : Nat) : State :=
  (s.caravans p).foldl (fun s c => s.takeFences p c) s

/-- Transfers in flight complete, but those of commands not yet issued, which are dropped (R222, R227). -/
def State.flushXfers (s : State) (p : Nat) (e : Exec) : State :=
  let issued (seq off : Nat) : Bool := e.seq ≠ seq || e.issued off
  let s := (s.caravans p).foldl (fun s c => (s.car c).xfers.foldl (fun s t =>
    if issued t.seq t.off then s.land c t.id .clean else (s.dropXfer c t.id).count (Csr.drvXfer_discarded c) 1) s) s
  let s := (s.caravans p).foldl (fun s c =>
    let n (x : Fetch) : Nat := if x.part = p then x.left else 0
    let live := (s.car c).reads.filter (fun x => !x.dropped && issued x.seq x.off)
    let rest := (s.car c).reads.filter (fun x => x.dropped || !issued x.seq x.off)
    (((s.count (Csr.drvXfer_transfers c) ((live.map n).sum)).count (Csr.drvXfer_discarded c) ((rest.map n).sum)).updCar c (fun k =>
      { k with reads := k.reads.filter (fun x => x.part ≠ p) })).drvStatus c) s
  (s.caravans p).foldl (fun s c => (s.updCar c (fun k => { k with ahead := [] })).scanOver c) s

/-- The save area of a depot plan with SAVE: the tally save goes there first, in a form the spec leaves open (R222, log entry 45). -/
def State.saveAreas (s : State) (p : Nat) : State :=
  (s.caravans p).foldl (fun s c =>
    if s.flag1 (Csr.drvDepot_save c) then s.scramble (depotBase c + 0x1A00000) 0x600000 else s) s

/-- Banks whose read failed during the save are saved poisoned, and their passes restart at resume (R90). -/
def State.saveBad (s : State) (p : Nat) (bad : List (CarId × StnId × Fin 2)) : State :=
  bad.foldl (fun s (c, i, b) =>
    if (s.caravans p).contains c.val then
      ((List.range 21).map (fun q => (c.val * 8 + i.val) * 42 + b.val * 21 + q)).foldl (fun s key =>
        if (s.bank key).st.inPass then (s.eccSram (c.val / 12) 0 0 1).midPass p key else s) s
    else s) s

/-- Holds that let a pre-emption through: those of restarts and remnant passes, which go on at resume (R90). -/
def State.preemptible (s : State) (p : Nat) : Bool := (s.part p).holds.all (fun h => h.src = 4 && h.left.isNone)

/-- Pre-emption takes effect (R440): at a leg boundary, in no other hold, with no UPDATE in progress. It waits for a transfer in flight that
cannot complete yet (R222; log entry 45). -/
def State.preemptNow (s : State) (p : Nat) : State :=
  match (s.part p).preReq, s.exec? p with
  | some named, some e =>
    let es := (s.part p).prev.toList ++ [e]
    if s.dev.safeHold || !s.preemptible p || es.any (fun e => e.isOver || e.waiting.isSome || e.upds.any (fun u => !u.finished)) || !s.legBoundary p then s
    else
      let s := (s.flushRows p).flushFences p
      let s := if s.stopped p then s else s.preemptRemnants p
      if s.stopped p || !s.preemptible p || !s.legBoundary p then s
      else
        let old := s
        let s := s.flushXfers p e
        if (s.caravans p).any (fun c => (s.car c).xfers.any (·.part = p)) then old
        else
        let s := (s.saveBad p e.saveBad).saveAreas p
        match s.exec? p with
        | none => s
        | some e =>
          if e.fault.isSome || ((s.part p).prev.map (·.fault.isSome)).getD false then s
          else
            let q := s.savePreempt p named e
            let s := ((s.clearCars p).updPart p (fun x => { x with
              exec := none, prev := none, preReq := none, preempt := some q, holds := [], merged := false })).setPartState p 1
            s.sealAnswer p 2 0
  | _, _ => s

def execPreemptTakeEffect (p : PartId) (s : State) : Host.Outcome State Fault Refusal := answer s (fun s => s.preemptNow p)

/-- The drover refills a caravan's landing buffers with the tiles its stations were at, and the satchel banks that feed with their rows
of A (R87, R210; log entry 45). -/
def State.refill (s : State) (p c : Nat) : State :=
  let k := s.car c
  let again (i : Nat) (t : Option TileAt) : Option TileAt :=
    t.bind (fun t => (k.run t).map (fun u => s.readTile p u (c * 8 + i) t.pair t.tile))
  let all (ts : List (Option TileAt)) : List (Option TileAt) := ts.zipIdx.map (fun (t, i) => again i t)
  let feeds := (List.range 8).filterMap (fun i => (k.tiles.getD i none).bind (fun t => (k.run t).bind (fun u =>
    if s.stages p u (c * 8 + i) t.pair then some { s.fillFor p u (c * 8 + i) t.pair with bank := k.staged.getD i true } else none)))
  let s := s.setCar c { k with
    tiles := all k.tiles, shadow := all k.shadow, cells := k.cells.zipIdx.map (fun (ts, i) => ts.map (again i)) }
  let s := feeds.foldl (fun s x => s.landFill c x) s
  s.updCar c (fun k => { k with incoming := s.incomingOf p c })

/-- Put back what a pre-emption saved: the order base grows by the paces others executed (R121); passes marked for restart and remnant
passes run in a hold of source 4 (R90). -/
def State.restorePreempt (s : State) (p : Nat) (q : Preempt) : State :=
  let d := s.pace p - q.atPace
  let cs := s.caravans p
  let s := s.clearCars p
  let s := q.cars.foldl (fun s (c, k) => s.setCar c { k with vStart := k.vStart + d, xfers := (s.car c).xfers, nextX := (s.car c).nextX }) s
  let s := q.banks.foldl (fun s (k, b) => s.setBank k { b with st := b.st.shift d, last := if b.last = 0 then 0 else b.last + d }) s
  let s := q.entries.foldl (fun s (k, e) => s.setEntry k e) s
  let s := cs.foldl (fun s c => s.zeroRange (depotBase c) (64 * mib)) s
  let s := q.depots.foldl (fun s (a, b) => s.setByte a b) s
  let s := cs.foldl (fun s c => s.clearAlloc c) s
  let s := q.flags.foldl (fun s (k, f) => s.setFlag k f) s
  let s := q.queues.foldl (fun s (k, x) => s.setQueue k x) s
  let s := { s with spice := s.spice.filter (fun x => !cs.contains (x.1 / 64)) }
  let s := q.spice.foldl (fun s (k, t) => { s with spice := Map.set [] s.spice k t }) s
  let was (a : Nat) : Nat := (Map.get 0 q.regs a).toNat
  let s := cs.foldl (fun s c =>
    let s := s.setReg (Csr.drvDepot c) (BitVec.ofNat 64 (was (Csr.drvDepot c)))
    let s := (List.range 64).foldl (fun s i => s.setReg (Csr.carQueue c i) (BitVec.ofNat 64 (was (Csr.carQueue c i)))) s
    (List.range 8).foldl (fun s i => s.setFld (Csr.stnSpice_loaded c i) (bitsOf (was (Csr.stnSpice c i)) 0 8)) s) s
  let lat := was (Csr.prtLatency p)
  let s := (s.setFld (Csr.prtLatency_paddedClasses p) (bitsOf lat 32 8)).setFld (Csr.prtLatency_excessClasses p) (bitsOf lat 40 8)
  let tag := s.fld (Csr.updStep_tag p)
  let s := s.setFld (Csr.updStep_tag p) (bitsOf (was (Csr.updStep p)) 32 32)
  let s := s.updWctx p (fun w => q.wgh.resumed w)
  let later (e : Exec) : Exec := { e with base := e.base + d, sigs := e.sigs.map (fun (k, n, c) => (k, n + d, c)) }
  let e := { later q.exec with tagAfter := some tag }
  let s := s.updPart p (fun x => { x with preempt := none, exec := some e, prev := q.prev.map later })
  let s := (s.setReg (Csr.prtOrderBase p) (BitVec.ofNat 64 e.base)).setPartState p 0
  let s := (cs.foldl (fun s c => s.refill p c) s).wRefeed p
  if cs.any (fun c => (s.car c).restart || !(s.car c).remnant.isEmpty) then s.hold p 4 none else s

/-- The pre-empted order resumes once its end has come: the named order is over, or request 8 has asked for it. -/
def State.preemptResume (s : State) (p : Nat) : State :=
  match (s.part p).preempt, s.exec? p with
  | some q, none =>
    if !q.resume || s.dev.safeHold then s
    else if q.gone then (s.updPart p (fun x => { x with preempt := none })).applyActs p
    else s.restorePreempt p q
  | _, _ => s

def execPreemptResume (p : PartId) (s : State) : Host.Outcome State Fault Refusal := answer s (fun s => s.preemptResume p)

/-! The step watchdog (R135). -/

/-- Word 3 of code 0x0D. With several holds in force it shows the source of the last one raised, if that is in force, else of the oldest
(DESIGN CHOICE, log entry 47). -/
def State.dogWord (s : State) (p : Nat) (e : Exec) : Nat :=
  let last := s.fld (Csr.prtHold_lastSource p)
  let src := if s.hasHold p last then last else ((s.part p).holds.head?.map (·.src)).getD 0
  if src ≠ 2 then src
  else
    match e.waiting with
    | some (op, h, w1) =>
      let c := (s.mapCar p (selCar h.select.toNat)).getD (s.home p)
      let byQueue := (op = 2 || op = 3) && (s.waitFlag p c h.wait.toNat = .go)
      let idx := if byQueue then bitsOf w1.toNat 0 6 else h.wait.toNat
      let car := if byQueue || h.wait.toNat < 3968 then c else s.home p
      src + idx * 2 ^ 4 + boolNat byQueue * 2 ^ 16 + ((s.caravans p).idxOf? car).getD 0 * 2 ^ 20
    | none => src

def State.watchdog (s : State) (p : Nat) : State :=
  match s.exec? p with
  | none => s
  | some e =>
    if e.fault.isSome || e.cancelled || s.hasHold p 9 || (s.part p).suspended then s
    else
      let off := e.cmds.foldl (fun n m => min n m.off) e.off
      (s.count (Csr.prtWdog_expiries p) 1).raise p (manUnit s p) 0x0D off (s.dogWord p e)

def execStepWatchdogExpire (p : PartId) (s : State) : Host.Outcome State Fault Refusal := answer s (fun s => s.watchdog p)

end Sys2Proof.Machine
end

