-- ==== Sys2Proof/WellFormed.lean ====
section
/-!
DEFINITION. The checks of a command that its Lean types do not make: bounds the spec gives for operands held as `Nat`
or as lists.
-/
namespace Sys2Proof

/-- An image the spec can encode: torus sizes 1 to 32 (R329), at most 64 feed entries and 4 accepted roots
(R347, R455), partition ids without repeats (R456). -/
def Image.wf (i : Image) : Bool :=
  1 ≤ i.ringX && i.ringX ≤ 32 && 1 ≤ i.ringY && i.ringY ≤ 32 && 1 ≤ i.ringZ && i.ringZ ≤ 32 &&
  i.feedTable.length ≤ 64 && i.roots.length ≤ 4 && i.parts.length ≤ 8 && (i.parts.map (·.1)).Nodup &&
  i.rwl.all (fun r => r.lsb + r.width ≤ 64 && r.off % 8 = 0)

/-- A packet the links can carry: one of six virtual channels (R340) and 1 to 64 flits of 228 payload bytes, the first
24 of which are the route header (R330, R338). -/
def Packet.wf (k : Packet) : Bool := k.vc ≤ 5 && 1 ≤ k.flits && k.flits ≤ 64 && k.payload.length + 24 ≤ 228 * k.flits

/-- Whether a command is one the part can meet. -/
def Instr.wf : Instr → Bool
  | .commandComplete _ off => off % 16 = 0
  | .i3cImageWrite _ img => img.wf
  | .packetForward _ k => k.wf
  | .packetDeliver _ k => k.wf
  | .consignmentPacket _ k => k.wf
  | .registerWrite _ off _ => off % 8 = 0 && off < 2 ^ 26
  | .linkSignalDetect _ n => n ≤ 24
  | .linkFecLock _ n => n ≤ 24
  | .linkInitExchange _ _ _ n _ => n ≤ 24
  | .detourInstall t => t.length ≤ 64
  | .csgRestore _ c => c.extents.length ≤ 64
  | _ => true

end Sys2Proof
end

