-- ==== Sys2Proof/Machine/Reset.lean ====
section
/-!
DEFINITION. Resets and start-up (R7, R424 to R432, R449, R453 to R457): the reset columns, what each reset kind clears, the
configuration image, and the start-up sequence.
-/
namespace Sys2Proof.Machine

/-! Reset columns (R7, R428). -/

/-- Every register in scope takes a reset column; fields marked kept or live stay. -/
def State.resetCols (s : State) (inScope : Fam → List Nat → Bool) (col : Field → RVal) : State :=
  { s with csr := Map.mapCanon porWord (fun off w =>
      match findReg off famTable with
      | some (f, is) =>
        if inScope f is then wordOf f.fields (fun x => (col x).apply x.name (bitsOf w.toNat x.lsb x.width)) else w
      | none => w) s.csr }

/-- Registers of a partition: its pages in every block, and its caravans and their stations (R427). -/
def prstScope (p : Nat) (cs : List Nat) (f : Fam) (is : List Nat) : Bool :=
  match f.scope with
  | .prt | .ownPage | .txq | .share | .sct => is.head? = some p
  | .station | .caravan => (is.head?.map cs.contains).getD false
  | _ => false

/-- Registers of one caravan, or of one station of it. -/
def crstScope (c : Nat) (stn : Option Nat) (f : Fam) (is : List Nat) : Bool :=
  match f.scope, stn with
  | .caravan, none => is.head? = some c
  | .station, none => is.head? = some c
  | .station, some i => is.take 2 = [c, i]
  | _, _ => false

/-- Registers of one port, or of one function. -/
def portScope (i : Nat) (f : Fam) (is : List Nat) : Bool := f.scope = .port && is.head? = some i
def funcScope (i : Nat) (f : Fam) (is : List Nat) : Bool := f.scope = .func && is.head? = some i

/-! SRAM (R427, R429). -/

/-- Write zero into every SRAM of a station, and take the tile and the tables out of it. -/
def State.zeroStation (s : State) (c i : Nat) : State :=
  let g := c * 8 + i
  let s := s.zeroRange (satchelBase g) 0x1000000
  let s := { s with
    tally := s.tally.filter (fun x => x.1 / 4096 / 42 ≠ g), banks := s.banks.filter (fun x => x.1 / 42 ≠ g),
    spice := s.spice.filter (fun x => x.1 / 8 ≠ g) }
  s.updCar c (fun k => { k with
    incoming := k.incoming.set i none, tiles := k.tiles.set i none, previous := k.previous.set i none, shadow := k.shadow.set i none,
    cells := k.cells.set i [], pipe := k.pipe.filter (·.stn ≠ i), fills := k.fills.filter (·.stn ≠ i),
    staged := (List.range 8).map (fun j => j = i || k.staged.getD j true), fencePend := k.fencePend.filter (·.1 ≠ g) })

/-- Write zero into every SRAM of a caravan, with its flags and queues and all that is in its route and drover. Transfers in flight
still complete, and the next order waits for them (R223). -/
def State.zeroCaravan (s : State) (c : Nat) : State :=
  let s := (List.range 8).foldl (fun s i => s.zeroStation c i) s
  let s := s.zeroRange (depotBase c) (64 * mib)
  (s.clearAlloc c).setCar c { Car.idle with nextX := (s.car c).nextX, xfers := (s.car c).xfers }

/-! CRST and PRST (R325, R353, R389, R427, R462). -/

/-- A reset covers some requesters of the tolls: grants that they own end, wherever the toll is (R256, R257). -/
def State.endGrants (s : State) (covers : Nat → Bool) : State :=
  { s with tolls := Map.mapCanon (fun _ => Toll.idle)
             (fun _ x => if (x.owner.map covers).getD false then { x with owner := none, limit := 0 } else x) s.tolls }

/-- CRST of a caravan or of one station; a caravan's drover, a requester, is reset with its caravan. -/
def State.crst (s : State) (c : Nat) (stn : Option Nat) : State :=
  let unit := match stn with
    | some i => unitId c i 0x01
    | none => unitId c 0 0x10
  let s := match s.partOfCar c with
    | some p => s.touched p unit
    | none => s
  let s := match stn with
    | some i => s.zeroStation c i
    | none => (s.zeroCaravan c).endGrants (· = c)
  s.resetCols (crstScope c stn) (·.crst)

def execCrst (c : CarId) (stn : Option StnId) (s : State) : Host.Outcome State Fault Refusal :=
  answer s (fun s => s.crst c (stn.map (·.val)))

/-- An unlock ends (R462): the halt is released and the breakpoints are cleared. -/
def State.endUnlock (s : State) (p : Nat) : State :=
  let s := s.updScout (fun x => if x.part = some p then { x with part := none, expiry := 0 } else x)
  let s := (s.setFld (Csr.sctStatus_unlocked p) 0).setFld (Csr.sctStatus_rights p) 0
  ((s.setFld (Csr.sctStatus_halted p) 0).release p 9).updPart p (fun x => { x with bps := [none, none, none, none], stepLeft := none })

/-- Queue pushes for a partition that is reset are discarded at the ports (R353). -/
def State.dropPushes (s : State) (p : Nat) : State :=
  (List.range 6).foldl (fun s i =>
    let mine := (s.port i).queue.filter (fun k => k.kind = 2 && k.part = p && k.target = s.self)
    let s := s.updPort i (fun x => { x with queue := x.queue.filter (fun k => !(k.kind = 2 && k.part = p && k.target = s.self)) })
    mine.foldl (fun s k => (s.freed i k.vc k.flits).count (Csr.lnkDrop_window i) 1) s) s

/-- PRST of a partition: its orders are cancelled, its SRAM is zero, its weighhouse slots are free, its registers take their
PRST values, and its unlock ends. A suspension stays. -/
def State.prst (s : State) (p : Nat) : State :=
  let s := (s.endAll p 3).endUnlock p
  let s := ((s.wghPrst p).dropPushes p).updPart p (fun x => { x with
    holds := [], merged := false, mboxWait := [], stepLeft := none, bpAt := none, preReq := none, preempt := none, prev := none, exec := none, evCount := 0,
    csg := { Consign.none with taken := x.csg.taken, heads := x.csg.heads } })
  let cs := s.caravans p
  let s := (cs.foldl (fun s c => s.zeroCaravan c) s).endGrants cs.contains
  let s := s.resetCols (prstScope p cs) (·.prst)
  s.setPartState p (boolNat (!cs.isEmpty))

/-! LRST, FLR and host links (R401, R425, R427, R449). -/

/-- LRST with the port's LRST column; the Seal issues it no sooner than 1 s after isolation. -/
def State.lrstReq (s : State) (i sinceS : Nat) : State :=
  if !s.dev.factorUp || ((s.portState i = 6 || (s.port i).parkedState = 6) && sinceS < 1) then s
  else ((s.endGrants (· = 32 + i)).resetCols (portScope i) (·.lrst)).lrst i

def execLrstRequest (port : PortId) (sinceS : Nat) (s : State) : Host.Outcome State Fault Refusal :=
  answer s (fun s => s.lrstReq port sinceS)

/-- FLR of a function: its rings take their reset values, and its bus mastering is off until the host turns it on again (R447; log entry 7);
an entry that waits for the partner is not accepted. -/
def State.flr (s : State) (f : Nat) : State :=
  let s := s.resetCols (funcScope f) (·.flr)
  let s := s.updDev (fun d => { d with noMaster := f :: d.noMaster.filter (· ≠ f) })
  match s.partOfFn f with
  | some p => s.updPart p (fun x => { x with ackWait := x.ackWait.filter (fun a => a.1 ≠ f) })
  | none => s

def execFlr (f : FuncId) (s : State) : Host.Outcome State Fault Refusal := answer s (fun s => if s.hostUp f then s.flr f else s)

/-- A host link's state. -/
def State.setHostUp (s : State) (hp : Nat) (up : Bool) : State :=
  s.updDev (fun d => if hp = 0 then { d with hostUpA := up } else { d with hostUpB := up })
def State.perst (s : State) (hp : Nat) : Bool := if hp = 0 then s.dev.perstA else s.dev.perstB

/-- A host port trains when its PERST is released, its reference is there, the part has started, and neither its half nor its router
is lost (R378). A port that comes up is at step 7, and says so in a Device Readiness Status message (R425). -/
def State.trainHost (s : State) (hp : Nat) : State :=
  let up := s.dev.started && !s.perst hp && !s.flag1 Csr.cprClk_pcieRefLost && !s.hostGone hp
  let was := if hp = 0 then s.dev.hostUpA else s.dev.hostUpB
  let s := s.setHostUp hp up
  if up && !was then s.emit (.ready hp) else s

/-- A low PERST: an FLR of every function of the port, and its link is reset. -/
def State.perstAssert (s : State) (hp : Nat) : State :=
  let s := (List.range 4).foldl (fun s i => s.flr (hp * 4 + i)) s
  ((s.updDev (fun d => if hp = 0 then { d with perstA := true } else { d with perstB := true })).setHostUp hp false).dropGrants

def execPerstAssert (hp : Fin 2) (s : State) : Host.Outcome State Fault Refusal := answer s (fun s => s.perstAssert hp)

/-- PERST released; port A trains as CXL when the host supports it (R436). -/
def State.perstRelease (s : State) (hp : Nat) (cxl : Bool) : State :=
  (s.updDev (fun d => if hp = 0 then { d with perstA := false, cxl := cxl } else { d with perstB := false })).trainHost hp

def execPerstRelease (hp : Fin 2) (cxl : Bool) (s : State) : Host.Outcome State Fault Refusal :=
  answer s (fun s => s.perstRelease hp cxl)

/-! References (R414, R415, R426). -/

def refBit (r : Ref) : FieldRef := match r with
  | .link => Csr.cprClk_linkRefLost
  | .pcie => Csr.cprClk_pcieRefLost
def refNum (r : Ref) : Nat := match r with
  | .link => 0
  | .pcie => 1

/-- The event of a loss or a return. The spec does not say which unit reports it: the record names the west Seal, also while the west pair is
stopped or lost (DESIGN CHOICE, log entry 23). -/
def State.refEvent (s : State) (r : Ref) (back : Nat) : State :=
  let s := (s.count Csr.cprClk_refEvents 1).emit (.toFactor 4 (refNum r + 2 * back))
  (List.range 8).foldl (fun s p => if (s.caravans p).isEmpty then s else s.event p 4 (unitInst 0 0 0x70) (refNum r + 2 * back)) s

def State.referenceLost (s : State) (r : Ref) : State :=
  if s.flag1 (refBit r) then s
  else
    let s := (s.setFld (refBit r) 1).refEvent r 0
    match r with
    | .link => (List.range 6).foldl (fun s i => s.portOff i) s
    | .pcie => (s.setHostUp 0 false).setHostUp 1 false

def State.referenceReturn (s : State) (r : Ref) : State :=
  if !s.flag1 (refBit r) then s
  else
    let s := (s.setFld (refBit r) 0).refEvent r 1
    match r with
    | .link => if s.dev.running.isSome then (List.range 6).foldl (fun s i => s.portUp i) s else s
    | .pcie => (s.trainHost 0).trainHost 1

def execReferenceLost (r : Ref) (s : State) : Host.Outcome State Fault Refusal := answer s (fun s => s.referenceLost r)
def execReferenceReturn (r : Ref) (s : State) : Host.Outcome State Fault Refusal := answer s (fun s => s.referenceReturn r)

/-! The configuration image (R454 to R457). -/

/-- Write bits of a register, in its RWL fields only (R439, R455). -/
def State.putRwl (s : State) (off lsb width v : Nat) : State :=
  match findReg off famTable with
  | none => s
  | some (f, _) =>
    let old := (s.reg off).toNat
    let new := putBits old lsb width v
    s.setReg off (wordOf f.fields (fun x => bitsOf (if x.acc = .rwl then new else old) x.lsb x.width))

/-- CPR_CAP.CAP_W; values outside 1,500 to 4,600 act as the nearer end (R433). -/
def State.capW (s : State) : Nat := max 1500 (min 4600 (s.fld Csr.cprCap_capW))

/-- The caravans of a bitmap, in rising order. -/
def caravansOf (m : BitVec 24) : List Nat := (List.range 24).filter (fun c => bitOf m.toNat c)
end Sys2Proof.Machine

namespace Sys2Proof
open Sys2Proof.Machine

/-- The half of the lowest caravan of a definition: the half that holds its weighhouse context (log entry 25). -/
def PartDef.half (d : PartDef) : Nat := (caravansOf d.caravans).headD 0 / 12
/-- Ranges that are in use. -/
def PartDef.hbmUsed (d : PartDef) : List (Nat × Nat) := d.hbm.filter (fun r => r.2 ≠ 0)

/-- Two lists of ranges meet. -/
def rangesMeet (xs ys : List (Nat × Nat)) : Bool := xs.any (fun (a, n) => ys.any (fun (b, m) => a < b + m && b < a + n))

/-- Caravans, functions or grants of two definitions overlap (R456). -/
def PartDef.meets (a b : PartDef) : Bool :=
  a.caravans &&& b.caravans ≠ 0 || a.functions &&& b.functions ≠ 0 || rangesMeet a.hbmUsed b.hbmUsed ||
  (a.cxl.2 ≠ 0 && b.cxl.2 ≠ 0 && rangesMeet [a.cxl] [b.cxl])

/-- Some two of a list of definitions overlap. -/
def defsMeet : List PartDef → Bool
  | [] => false
  | d :: ds => ds.any (fun e => d.meets e) || defsMeet ds

/-- The cap an image sets. -/
def Image.capW (i : Image) : Nat := (i.rwl.foldl (fun s r => s.putRwl r.off r.lsb r.width r.value) State.reset).capW

/-- The image passes R456. -/
def Image.sound (i : Image) : Bool :=
  let ds := i.parts.map (·.2)
  !defsMeet ds && (ds.map (·.shareW)).sum ≤ i.capW - 700 &&
  (List.range 2).all (fun h => ((ds.filter (fun d => d.half = h)).map (·.wghSlots)).sum ≤ 9)

/-- The image verifies on this device (R454, R456; log entry 7). -/
def Image.verifies (i : Image) : Bool :=
  Config.signatureOk i.fingerprint && (i.targetSerial = 0 || i.targetSerial = Config.serial) && i.wf && i.sound
def Image.serialOk (i : Image) : Bool := Config.minImageSerial.toNat ≤ i.imageSerial.toNat

end Sys2Proof

namespace Sys2Proof.Machine

def Dev.slot (d : Dev) (k : Nat) : Option Image := if k = 0 then d.slot0 else d.slot1

/-- The first slot that verifies with a serial number that is high enough, the active one first (R457). -/
def Dev.pick (d : Dev) : Option (Nat × Image) :=
  [d.active, 1 - d.active].findSome? (fun k => match d.slot k with
    | some i => if i.verifies && i.serialOk then some (k, i) else none
    | none => none)

/-- CFG_STATUS.REASON when no slot is taken: 2 if one verifies and only its serial number is too low. -/
def Dev.startReason (d : Dev) : Nat :=
  if [0, 1].any (fun k => match d.slot k with
    | some i => i.verifies
    | none => false) then 2 else 1

/-- Write a window-list entry (R347, R355). -/
def State.putWinEntry (s : State) (port e : Nat) (w : WinEntry) : State :=
  let a := 1 + w.kinds.toNat * 2 + w.part.val * 2 ^ 8 + w.srcMatch.toNat * 2 ^ 11 + w.srcMask.toNat * 2 ^ 26
  let b := bitsOf w.vbase 21 27 * 2 ^ 21 + w.pages % 2 ^ 16 * 2 ^ 48
  (s.setReg (Csr.lnkWinA port e) (BitVec.ofNat 64 a)).setReg (Csr.lnkWinB port e) (BitVec.ofNat 64 b)

/-- The window lists of every port, in image order. -/
def State.putWinLists (s : State) (ws : List (PortId × WinEntry)) : State :=
  (List.range 6).foldl (fun s i =>
    (((ws.filter (fun (q, _) => q.val = i)).take 32).zipIdx).foldl (fun s ((_, w), e) => s.putWinEntry i e w) s) s

/-- Set up a partition by its definition (R437, R456). -/
def State.installPart (s : State) (p : Nat) (d : PartDef) : State :=
  let s := s.setReg (Csr.prtGrant p) (BitVec.ofNat 64
    (d.caravans.toNat + d.functions.toNat * 2 ^ 24 + d.grants.toNat * 2 ^ 32))
  let s := s.setFld (Csr.cprShare_shareW p) d.shareW
  let s := (s.setFld (Csr.wghShare_slots p) d.wghSlots).setFld (Csr.wghShare_half p) d.half
  (s.updPart p (fun x => { x with cmap := caravansOf d.caravans, hbm := d.hbmUsed, cxl := d.cxl })).setPartState p
    (boolNat (d.caravans != 0))

/-- Ordinals whose caravan the fence record takes out go to spares; without one, or where scope 0x82 or 0x84 keeps the partition where it
is, the partition is suspended (R380, R381; log entry 18). -/
def State.placeSpares (s : State) (p : Nat) : State :=
  let fixed := s.wholeHalf p
  (s.caravans p).foldl (fun s c =>
    if s.healthyCar c then s
    else
      match s.spareFor c with
      | some d =>
        if fixed then (s.updPart p (fun x => { x with suspended := true, pinned := true })).setFld (Csr.sealMan_suspended p) 1
        else s.relocate p c d
      | none => (s.updPart p (fun x => { x with suspended := true })).setFld (Csr.sealMan_suspended p) 1) s

/-- The lowest healthy stack of a half, else of the other, that does not hold the other copy (R383, R384). -/
def State.journalStack (s : State) (h other : Nat) : Nat :=
  let ks := (List.range 8).map (h * 8 + ·) ++ (List.range 8).map ((1 - h) * 8 + ·)
  (ks.find? (fun k => !s.dev.fencedStacks.contains k && k ≠ other)).getD other

/-- The bytes of a journal (R383). -/
def journalSize : Nat := 256 * mib

/-- Where a journal lies in a stack: the highest aligned range that no partition's grant meets, nor the other journal; the highest where
the grants leave none, which no window then reaches (R383; DESIGN CHOICE, log entry 52). -/
def State.journalPlace (s : State) (k other : Nat) : Nat :=
  let at_ (i : Nat) : Nat := (k + 1) * (48 * gib) - (i + 1) * journalSize
  let used := (other, journalSize) :: (List.range 8).flatMap (fun p => (s.part p).hbm)
  ((List.range 192).map at_).find? (fun a => !rangesMeet used [(a, journalSize)]) |>.getD (at_ 0)

/-- A journal copy takes its place. -/
def State.placeJournal (s : State) (h k : Nat) : State :=
  let a := s.journalPlace k (if h = 0 then s.dev.journalAtE else s.dev.journalAtW)
  s.updDev (fun d =>
    if h = 0 then { d with journalW := k, journalAtW := a, rebuild := d.rebuild.filter (· ≠ 0) }
    else { d with journalE := k, journalAtE := a, rebuild := d.rebuild.filter (· ≠ 1) })

/-- The journals take their places. -/
def State.placeJournals (s : State) : State :=
  let w := s.journalStack 0 16
  (s.placeJournal 0 w).placeJournal 1 (s.journalStack 1 w)

/-! Start-up (R424 to R426, R457). -/

/-- What POR and DRST leave before start-up (R427, R429): every register at its reset value, every SRAM and HBM zero (log entry
3), all orders lost; the pins, the flash, the fuses and the expander behind CXL stay, and so do the isolations that count. -/
def State.wiped (s : State) : State :=
  { State.reset with
    mem := s.mem.filter (fun x => cxlBase ≤ x.1), poison := s.poison.filter (fun w => cxlBase ≤ w * 8),
    ports := Map.mapCanon (fun _ => Port.idle) (fun _ x => { Port.idle with isolations24 := x.isolations24, keyGen := x.keyGen }) s.ports,
    dev := { Dev.por with
      pwrgd := s.dev.pwrgd, aux := s.dev.aux, lugA := s.dev.lugA, lugB := s.dev.lugB, starts := s.dev.starts,
      perstA := s.dev.perstA, perstB := s.dev.perstB, cxl := s.dev.cxl, slot0 := s.dev.slot0, slot1 := s.dev.slot1,
      active := s.dev.active, fences := s.dev.fences, poisoned24 := s.dev.poisoned24,
      rowReads := s.dev.rowReads },
    scout := { s.scout with part := none, expiry := 0, status := 0 },
    out := s.out, free := s.free, pending := s.pending }

/-- P4, or the loss of the whole module (R21, R23, R29): nothing runs until the next start-up. -/
def State.powerOff (s : State) : State :=
  s.wiped.updDev (fun d => { d with started := false, halfOnW := false, halfOnE := false, sealW := 0, sealE := 0 })

/-- Fences of the record take effect, a released unit leaves the record first, and what is missing at start is fenced (R379,
R426). -/
def State.startFences (s : State) (img : Image) (c : StartCond) : State :=
  let s := if img.targetSerial = 0 then s
    else s.updDev (fun d => { d with fences := d.fences.filter (fun f => !img.fenceRelease.contains f.unit) })
  let s := s.dev.fences.foldl (fun s f => s.applyFence f) s
  let s := c.badStacks.foldl (fun s k => s.fenceStack k) s
  let s := if c.lugA then s else s.fenceHalf 0
  if c.lugB then s else s.fenceHalf 1

/-- Step 6: partitions, windows of the links, RWL fields, the node, the journals. -/
def State.setUp (s : State) (slot : Nat) (img : Image) : State :=
  let s := img.rwl.foldl (fun s r => s.putRwl r.off r.lsb r.width r.value) s
  let s := (img.secModes.take 6).zipIdx.foldl (fun s (m, i) => s.setFld (Csr.lnkCtrl_secMode i) m) s
  let s := s.putWinLists img.winLists
  let s := s.setReg Csr.lnkNode (BitVec.ofNat 64
    (img.node.toNat + (img.ringX - 1) * 2 ^ 15 + (img.ringY - 1) * 2 ^ 20 + (img.ringZ - 1) * 2 ^ 25))
  let s := img.parts.foldl (fun s (p, d) => s.installPart p d) s
  let s := img.parts.foldl (fun s (p, _) => s.placeSpares p) s
  let s := ((s.setFld Csr.cfgStatus_feed img.feed.toNat).setFld Csr.cfgStatus_activeSlot slot).setFld
    Csr.cfgStatus_imageSerial img.imageSerial.toNat
  let s := (List.range 6).foldl (fun s i => if (s.port i).fenced then s.setFld (Csr.lnkCtrl_enable i) 0 else s) s
  (s.placeJournals).updDev (fun d => { d with rwlLocked := true, running := some img, active := slot })

/-- Start-up from step 2 (R424): the image, the regulators, the fences, the partitions, the ports, the hosts. -/
def State.startUp (s : State) (c : StartCond) : State :=
  let s := s.updDev (fun d => { d with
    pwrgd := true, lugA := c.lugA, lugB := c.lugB, starts := d.starts + 1, started := true, sealW := 1, sealE := 1, thermtrip := false })
  if !c.lugA && !c.lugB then s.powerOff.updDev (fun d => { d with pwrgd := false })
  else
    let s : State := match s.dev.pick with
      | none => s.setFld Csr.cfgStatus_reason s.dev.startReason
      | some (slot, img) =>
        let s := s.updDev (fun d => { d with halfOnW := c.lugA, halfOnE := c.lugB })
        (s.startFences img c).setUp slot img
    let s := if c.linkRef then s else s.referenceLost .link
    let s := if c.pcieRef then s else s.referenceLost .pcie
    let s := if s.dev.running.isSome then (List.range 6).foldl (fun s i => s.portUp i) s else s
    let s := if s.dev.fences.length < 1024 then s else s.safeHoldNow
    (s.trainHost 0).trainHost 1

/-- START_UP: the rise of PWRGD. While PWRGD is high on a module that has started or tripped there is no rise. -/
def execStartUp (c : StartCond) (s : State) : Host.Outcome State Fault Refusal :=
  answer s (fun s => if s.dev.pwrgd && (s.dev.started || s.dev.thermtrip) then s else s.wiped.startUp c)

/-- PWRGD_FALL (R29): P4, with every output land inactive. -/
def execPwrgdFall (s : State) : Host.Outcome State Fault Refusal :=
  answer s (fun s => s.powerOff.updDev (fun d => { d with pwrgd := false }))

/-- DRST (R28, R427): a pulse of at least 10 µs. -/
def State.drst (s : State) (heldUs : Nat) (c : StartCond) : State :=
  if heldUs < 10 || !s.dev.pwrgd then s
  else (s.wiped.setFld Csr.cprCause_last 2).startUp c

def execDrst (heldUs : Nat) (c : StartCond) (s : State) : Host.Outcome State Fault Refusal := answer s (fun s => s.drst heldUs c)

/-! WRST (R427, R429, R459). -/

/-- The orders that a WRST finds pre-empted stop as at a part fault: they start again, or fail where they may not (R297, R386,
R388). -/
def State.wrstPreempted (s : State) (p unit : Nat) : State :=
  match (s.part p).preempt with
  | none => s
  | some q =>
    let s := if q.gone then s else q.execs.foldl (fun s e =>
      let r := faultRec p 0x70 unit e.seq (q.atPace - e.base) e.off (unit + 2 * 2 ^ 16)
      s.endBy p r { e with fault := some r, partFault := true }) s
    s.updPart p (fun x => { x with preempt := none })

/-- A partition in a WRST: its running orders and the pre-empted ones start again (log entry 20), its context's store is empty, and a
pre-emption that was accepted finds nothing to stop. The part fault's record names the west Seal as the unit, which the spec does not say
(DESIGN CHOICE, log entry 16). -/
def State.wrstPart (s : State) (p : Nat) : State :=
  let unit := unitInst 0 0 0x70
  let s := ((s.touched p unit).wrstPreempted p unit).dropPreReq p
  let s := s.updPart p (fun x => { x with holds := x.holds.filter (fun h => h.src = 9), merged := false, ackWait := none })
  let w := s.wctx p
  s.setWctx p { Wgh.none with members := w.members, self := w.self, step := w.step, attempt := w.attempt, seq := w.seq }

/-- What a WRST leaves alone: the CPR block, which lies in the always-on domain (R427, R428, R433). -/
def wrstScope (f : Fam) (_ : List Nat) : Bool := f.base / 2 ^ 12 ≠ 0x200

/-- A WRST: the ports are emptied first, so that what their registers count by it is reset with them. Each toll then takes its reset value:
requester 39 as the one granted last, so that the round begins at 0 (DESIGN CHOICE, log entry 53). -/
def State.wrst (s : State) (reason : Nat) : State :=
  let s := (List.range 8).foldl (fun s p => if (s.caravans p).isEmpty then s else s.wrstPart p) s
  let s := (List.range 24).foldl (fun s c => (s.zeroCaravan c).updCar c (fun k => { k with xfers := [] })) s
  let s := (List.range 6).foldl (fun s i => s.flushPort i) s
  let s := s.resetCols wrstScope (·.wrst)
  let s := (s.setFld Csr.cprCause_last 3).setFld Csr.cprCause_wrstReason reason
  let s := { s with tolls := [] }
  (List.range 6).foldl (fun s i => s.lrst i) s

end Sys2Proof.Machine
end

