-- ==== Sys2Proof/Machine/Power.lean ====
section
/-!
DEFINITION. Power, clocks and temperature (R20 to R31, R407 to R423, R430 to R432): the lugs, stretching, the power cap, the
thermal monitors, P2 and P3, and the standby supply.
-/
namespace Sys2Proof.Machine

/-! Lugs and the standby supply (R20, R21, R30). -/

def Dev.lug (d : Dev) (h : Nat) : Bool := if h = 0 then d.lugA else d.lugB
def State.setLug (s : State) (h : Nat) (ok : Bool) : State :=
  s.updDev (fun d => if h = 0 then { d with lugA := ok } else { d with lugB := ok })
def State.setHalfOn (s : State) (h : Nat) (on : Bool) : State :=
  s.updDev (fun d => if h = 0 then { d with halfOnW := on } else { d with halfOnE := on })

/-- The half is lost in P3: the Seal records it, and recovery runs after the exit (R432). -/
def State.noteHalf (s : State) (h : Nat) : State :=
  let u := unitInst h 0 0x70
  if s.dev.fenced u 1 0 then s else (s.record1 u 1 0).count Csr.csgRisk_failures 1

/-- A lug below 38.0 V turns its half off: the loss of that half, or of the module when the other lug is down too. -/
def State.lugDown (s : State) (h milliV : Nat) : State :=
  if 38000 ≤ milliV || !s.dev.lug h then s
  else
    let s := (s.setLug h false).setHalfOn h false
    if !s.dev.lug (1 - h) then s.powerOff.updDev (fun d => { d with pwrgd := false })
    else if !s.dev.started then s
    else if s.fld Csr.cprPstate_device = 2 then s.noteHalf h
    else s.fenceHalf h

def execLugUndervoltage (lug : HalfId) (milliV : Nat) (s : State) : Host.Outcome State Fault Refusal :=
  answer s (fun s => s.lugDown lug milliV)

/-- Above 39.5 V the half's regulators turn on again; its units stay fenced (R378). -/
def State.lugUp (s : State) (h milliV : Nat) : State :=
  if milliV ≤ 39500 || s.dev.lug h then s
  else
    let s := s.setLug h true
    if s.dev.running.isSome && !s.dev.thermtrip then s.setHalfOn h true else s

def execLugRecover (lug : HalfId) (milliV : Nat) (s : State) : Host.Outcome State Fault Refusal :=
  answer s (fun s => s.lugUp lug milliV)

/-- The standby supply: only the I3C target and the module information area hang on it (R30). -/
def execAux3v3Loss (s : State) : Host.Outcome State Fault Refusal := answer s (fun s => s.updDev (fun d => { d with aux := false }))
def execAux3v3Return (s : State) : Host.Outcome State Fault Refusal := answer s (fun s => s.updDev (fun d => { d with aux := true }))

/-! Clocks (R413). -/

/-- The array clock of a half in MHz: the next step of 100 below, from 800 to 1,600 (R433); the ring oscillator's 1,500 while the link
reference is lost (R407; its 3 % are left out, log entry 46). -/
def State.arrayMhz (s : State) (h : Nat) : Nat :=
  if s.flag1 Csr.cprClk_linkRefLost then 1500
  else max 800 (min 1600 (s.fld (if h = 0 then Csr.cprClk_westMhz else Csr.cprClk_eastMhz) / 100 * 100))
/-- The clock a partition paces at: its slower half (R133). -/
def State.partMhz (s : State) (p : Nat) : Nat :=
  (s.caravans p).foldl (fun m c => min m (s.arrayMhz (c / 12))) 1600

/-! Stretching (R410 to R412, R420, R423). -/

def execDroopStretch (h : HalfId) (s : State) : Host.Outcome State Fault Refusal :=
  answer s (fun s => s.count (Csr.cprStretch_droopStretches h) 1)

/-- The fast loop's look after 10 µs (R420): above 1.05 × CAP_W both halves stretch every second cycle, until the power falls
below CAP_W. -/
def State.fastLoopLook (s : State) (watts : Nat) : State :=
  let cap := s.capW
  let on := 105 * cap < 100 * watts || (s.dev.fastLoop && cap ≤ watts)
  let s := s.updDev (fun d => { d with fastLoop := on })
  if on then (s.count (Csr.cprStretch_fastStretchUs 0) 10).count (Csr.cprStretch_fastStretchUs 1) 10 else s

def execCapFastLoop (watts : Nat) (s : State) : Host.Outcome State Fault Refusal := answer s (fun s => s.fastLoopLook watts)

/-- The field of a caravan: W0, W1, W2, E0, E1, E2 (R11). -/
def fieldOf (c : Nat) : Nat := c / 12 * 3 + c % 12 / 4

/-- A monitor's reading for 256 cycles (R423): stretches every fourth cycle, a hold of 64 cycles per partition of the field,
the trip. `n` numbers the monitors of a field: each keeps its own reading, and its own hold until it has cooled. While PWRGD is low no
output land goes active (R29). -/
def State.thermal (s : State) (fld n temp : Nat) : State :=
  if !s.dev.pwrgd then s
  else
  let key := n * 6 + fld
  let s := s.updDev (fun d => { d with temps := Map.set 0 d.temps key temp })
  let s := s.setFld Csr.cprCap_tjMax (min 255 (s.dev.temps.foldl (fun m (_, t) => max m t) 0))
  if 115 ≤ temp then s.powerOff.updDev (fun d => { d with thermtrip := true })
  else
    let h := fld / 3
    let limit := s.fld Csr.cprCap_holdC
    let hot := limit ≤ temp || (s.dev.hotFields.contains key && limit - 2 < temp)
    let s := s.updDev (fun d => { d with
      hotFields := if hot then (if d.hotFields.contains key then d.hotFields else key :: d.hotFields) else d.hotFields.filter (· ≠ key) })
    let s := if s.fld Csr.cprCap_throttleC ≤ temp then s.count (Csr.cprStretch_thermalStretches h) 64 else s
    if hot then
      (List.range 8).foldl (fun s p => if (s.caravans p).any (fun c => fieldOf c = fld) then s.hold p 6 (some 64) else s) s
    else s

def execThermalMonitor (m : Monitor) (tempC : Nat) (s : State) : Host.Outcome State Fault Refusal :=
  answer s (fun s => s.thermal m.field m.index tempC)

/-! The hold loop of the power cap (R421). -/

/-- The estimates of running partitions as (partition, E, share). -/
def State.capParts (s : State) (est : List Nat) : List (Nat × Nat × Nat) :=
  (List.range 8).filterMap (fun p =>
    if ((s.part p).exec.isSome) then some (p, est.getD p 0, s.fld (Csr.cprShare_shareW p)) else none)

/-- 1 − h of step 2 as a ratio: at least 1/10. -/
def keepRatio (cap : Nat) (u : Int) (sum : Nat) : Nat × Nat :=
  if (sum : Int) + u ≤ cap then (1, 1)
  else
    let room := ((cap : Int) - u).toNat
    if 10 * room < sum then (1, 10) else (room, sum)

/-- ⌈f·C / 64⌉ for 1 − f = a·c / (b·d). -/
def capHolds (a b c d cycles : Nat) : Nat := cdiv ((b * d - a * c) * cycles) (b * d * 64)

/-- The holds of a partition for the next interval of C cycles: n of 64 cycles, C / n cycles from one to the next, the first at once (R421).
-/
def State.spaceHolds (s : State) (p n cycles : Nat) : State :=
  s.updPart p (fun x => { x with capLeft := n, capEvery := max 64 (cycles / max 1 n), capNext := 0 })

/-- One turn of the loop, 100 µs long: the holds of every running partition in the next interval. -/
def State.capLoop (s : State) (watts : Nat) (est : List Nat) : State :=
  let cap := s.capW
  let s := (List.range 8).foldl (fun s p => s.spaceHolds p 0 0) s
  let s := s.setFld Csr.cprCap_powerW (min 8191 watts)
  let s := (List.range 8).foldl (fun s p => s.setFld (Csr.cprShare_estimateW p) (min 4095 (est.getD p 0))) s
  if watts ≤ cap then s
  else
    let ps := s.capParts est
    let u : Int := (watts : Int) - ((ps.map (fun x => x.2.1)).sum : Nat)
    let kept := (ps.map (fun (_, e, sh) => min e sh)).sum
    let (c, d) := keepRatio cap u kept
    ps.foldl (fun s (p, e, sh) =>
      let (a, b) := if sh < e then (sh, e) else (1, 1)
      let cycles := s.partMhz p * 100
      let n := capHolds a b c d cycles
      if n = 0 then s else s.spaceHolds p n cycles) s

def execCapHoldLoop (watts : Nat) (est : List Nat) (s : State) : Host.Outcome State Fault Refusal :=
  answer s (fun s => s.capLoop watts est)

/-! P2 and P3 (R416 to R418, R429 to R432). -/

/-- P2: an idle partition with P2_IDLE_US not zero. Everything it holds is kept. -/
def State.p2Entry (s : State) (p : Nat) : State :=
  if (s.caravans p).isEmpty || (s.part p).exec.isSome || s.fld (partState p) ≠ 1 || s.fld Csr.cprPstate_p2IdleUs = 0 ||
     s.fld Csr.cprPstate_device ≠ 0 then s
  else (s.setPartState p 2).dropGrants

def execP2IdleEntry (p : PartId) (s : State) : Host.Outcome State Fault Refusal := answer s (fun s => s.p2Entry p)

/-- The conditions of R417. -/
def State.p3Ready (s : State) : Bool :=
  s.dev.started && (List.range 8).all (fun p =>
    let x := s.part p
    x.orders.isEmpty && (s.wctx p).slots.isEmpty && x.ackWait.isNone && s.csgState p ≠ 1 && s.csgState p ≠ 2 &&
    (s.csgCopies p).all (fun y => y.2 ≠ 0)) && s.dev.rebuild.isEmpty

/-- Fields lost in P3 hold their POR values on return (R7, R430, R431). -/
def State.loseP3 (s : State) : State :=
  { s with csr := Map.mapCanon porWord (fun off w =>
      match findReg off famTable with
      | some (f, _) =>
        wordOf f.fields (fun x => if x.p3 = true then x.por.apply x.name 0 else bitsOf w.toNat x.lsb x.width)
      | none => w) s.csr }

/-- P3: registers lost in P3 hold their POR values on return, SRAM is zero on return, ports are off. -/
def State.enterP3 (s : State) : State :=
  let s := (List.range 24).foldl (fun s c => s.zeroCaravan c) s
  let s := (List.range 8).foldl (fun s p =>
    let w := s.wctx p
    s.setWctx p { Wgh.none with members := w.members, self := w.self, step := w.step, attempt := w.attempt, seq := w.seq }) s
  let s := ((List.range 6).foldl (fun s i => s.portOff i) s).loseP3
  let s := (List.range 8).foldl (fun s p => if s.flag1 (Csr.sctStatus_unlocked p) then s else s.endUnlock p) s
  ((s.setFld Csr.cprPstate_device 2).updDev (fun d => { d with p3Pending := false })).dropGrants

/-- A request enters P3 once the conditions hold; until then it waits (R417). -/
def State.p3Ask (s : State) : State :=
  if s.fld Csr.cprPstate_device ≠ 0 || !s.dev.started then s
  else if s.p3Ready then (s.setFld Csr.cprPstate_p3Refused 0).enterP3
  else (s.setFld Csr.cprPstate_p3Refused 0).updDev (fun d => { d with p3Pending := true })

def execP3Req (s : State) : Host.Outcome State Fault Refusal := answer s (fun s => s.p3Ask)

/-- Entry into P3 is in progress: a request waits, and the conditions have come to hold (R432, R433; log entry 54). -/
def State.p3Entering (s : State) : Bool := s.fld Csr.cprPstate_device = 0 && s.dev.p3Pending && s.p3Ready

/-- 1 s after a request: it enters P3 when the conditions have come to hold, and is refused otherwise. -/
def State.p3Late (s : State) : State :=
  if !s.dev.p3Pending then s
  else if s.p3Ready then s.enterP3
  else (s.updDev (fun d => { d with p3Pending := false })).setFld Csr.cprPstate_p3Refused 1

def execP3Refused (s : State) : Host.Outcome State Fault Refusal := answer s (fun s => s.p3Late)

/-- The way out of P3 (R418); a half lost meanwhile is taken out first (R432). -/
def State.leaveP3 (s : State) : State :=
  if s.fld Csr.cprPstate_device = 0 then s
  else
    let s := s.setFld Csr.cprPstate_device 0
    let late := (List.range 2).filter (fun h => s.dev.fenced (unitInst h 0 0x70) 1 0 && !s.dev.fencedHalves.contains h)
    let s := late.foldl (fun s h => s.applyFence ⟨BitVec.ofNat 16 (unitInst h 0 0x70), 1, 0, 0, 0⟩) s
    (List.range 6).foldl (fun s i => s.portUp i) s

def execP3Exit (s : State) : Host.Outcome State Fault Refusal := answer s (fun s => s.leaveP3)

end Sys2Proof.Machine
end

