-- ==== Sys2Proof/Machine/Dep.lean ====
section
/-!
DEFINITION. Surviving failures beyond fencing (R375, R377, R378, R384, R401 to R403): journal rebuilds, HBM repair and
scrubbing, the Seal pairs, the Factor, safe hold, the loss of a half's clock.
-/
namespace Sys2Proof.Machine

/-- A new journal copy is complete (R384). -/
def State.rebuildDone (s : State) (h : Nat) : State :=
  if !s.dev.rebuild.contains h then s
  else
    s.placeJournal h (s.journalStack h (s.dev.journal (1 - h)))

def execJournalRebuildDone (h : HalfId) (s : State) : Host.Outcome State Fault Refusal := answer s (fun s => s.rebuildDone h)

/-- The first byte of a row of a stack: a row holds 2 KiB (log entry 8). -/
def rowAt (k row : Nat) : Nat := k * (48 * gib) + row * 2048

/-- A row of a stack is marked for repair: it has been poisoned, or more than 8 of its reads have been corrected in 24 hours; whether those
counted all fell in one such time is a free value (R377; log entry 6). -/
def State.rowMarked (s : State) (k row : Nat) : Bool × State :=
  if s.poison.any (fun w => w * 8 / 2048 = rowAt k row / 2048) then (true, s)
  else if Map.get 0 s.dev.rowReads (rowAt k row / 2048) ≤ 8 then (false, s)
  else
    let (b, s) := s.draw
    (b % 2 = 1, s)

/-- Some window of a partition maps a row. -/
def State.mapsRow (s : State) (p k row : Nat) : Bool :=
  (List.range 128).any (fun i => ((s.win p i).map (fun w => w.pbase < rowAt k row + 2048 && rowAt k row < w.pbase + w.size)).getD false)

/-- Soft post-package repair of a marked row (R377): the row keeps its content. It waits while an order of a partition that maps the row
runs. -/
def State.softPpr (s : State) (k row : Nat) : State :=
  if 48 * gib ≤ row * 2048 || s.dev.fencedStacks.contains k || (List.range 8).any (fun p => (s.exec? p).isSome && s.mapsRow p k row) then s
  else
    let (due, s) := s.rowMarked k row
    if !due then s
    else
      let s := s.updDev (fun d => { d with rowReads := Map.set 0 d.rowReads (rowAt k row / 2048) 0 })
      (s.count (Csr.hbmEcc_repairs k) 1).record1 (unitInst (k / 8) (k % 8) 0x30) 3 row

def execHbmSoftPpr (k : StackId) (row : Nat) (s : State) : Host.Outcome State Fault Refusal := answer s (fun s => s.softPpr k row)

/-- Words of a stack that were newly found poisoned: more than 64 in 24 hours fence it (R378). Whether those of earlier scrubs still
count is a free value (log entry 6). -/
def State.poisonSeen (s : State) (k n : Nat) : State :=
  let total := Map.get 0 s.dev.poisoned24 k + n
  let s := s.updDev (fun d => { d with poisoned24 := Map.set 0 d.poisoned24 k total })
  if 64 < n then s.fenceStack k
  else if 64 < total && 0 < n then
    let (b, s) := s.draw
    if b % 2 = 1 then s.fenceStack k else s
  else s

/-- A stack's scrub (R374, R375): corrections are written back and counted, words beyond correction are poisoned. `poisoned` names words
by physical address / 8. -/
def State.scrub (s : State) (k one two : Nat) (poisoned : List Nat) : State :=
  if s.dev.fencedStacks.contains k then s
  else
    let here := poisoned.filter (fun w => k * (6 * gib) ≤ w && w < (k + 1) * (6 * gib))
    let fresh := here.filter (fun w => !s.poison.contains w)
    let s := ((s.count (Csr.hbmEcc_corr1 k) one).count (Csr.hbmEcc_corr2 k) two).count (Csr.hbmEcc_uncorr k) here.length
    ({ s with poison := fresh ++ s.poison }).poisonSeen k fresh.length

def execHbmScrub (k : StackId) (one two : Nat) (poisoned : List Nat) (s : State) : Host.Outcome State Fault Refusal :=
  answer s (fun s => s.scrub k one two poisoned)

/-! The Seal pairs (R402, R403). -/

def State.setSeal (s : State) (h v : Nat) : State :=
  s.updDev (fun d => if h = 0 then { d with sealW := v } else { d with sealE := v })
/-- A pair that sends heartbeats. -/
def Dev.beats (d : Dev) (h : Nat) : Bool := d.seal h = 1 || d.seal h = 3

/-- A pair in use stops, a failure for the risk estimate (R396). -/
def State.stopSeal (s : State) (h : Nat) : State :=
  if s.dev.beats h then (s.setSeal h 0).count Csr.csgRisk_failures 1 else s

/-- A mismatch stops the pair at once. -/
def execSealLockstepMismatch (h : HalfId) (s : State) : Host.Outcome State Fault Refusal := answer s (fun s => s.stopSeal h)

/-- A stopped pair that has been reset and passes its self-test rejoins as standby. -/
def execRejoinAsStandby (h : HalfId) (s : State) : Host.Outcome State Fault Refusal :=
  answer s (fun s => if s.dev.seal h = 0 && s.dev.beats (1 - h) && s.dev.started then s.setSeal h 3 else s)

/-- The last-resort sequencer: neither pair beats, or the fence record is full. -/
def execLastResort (s : State) : Host.Outcome State Fault Refusal :=
  answer s (fun s => if s.dev.started && ((!s.dev.beats 0 && !s.dev.beats 1) || 1024 ≤ s.dev.fences.length) then s.safeHoldNow else s)

/-- The Seal restarts the Factor; no partition notices (R401). -/
def execFactorRestart (s : State) : Host.Outcome State Fault Refusal :=
  answer s (fun s => if s.dev.sealUp then s.updDev (fun d => { d with factorUp := true }) else s)

/-- A half that loses its clock is fenced (R378); a module that is off has no clock to lose (R29). -/
def execHalfClockLoss (h : HalfId) (s : State) : Host.Outcome State Fault Refusal :=
  answer s (fun s => if s.dev.started then s.fenceHalf h else s)

end Sys2Proof.Machine
end

