-- ==== Sys2Proof/Machine/Host.lean ====
section
/-!
DEFINITION. Hosts (R6, R201, R202, R258, R284, R422, R434 to R452, R461): who sees which register, register writes by access
code, the submission rings, Seal requests and the Seal pair that answers them, BAR2, and SPDM over DOE.
-/
namespace Sys2Proof.Machine

/-! Visibility (R18, R91, R153, R258, R299, R327, R355, R406, R433, R435, R467). -/

/-- Whether function f of a partition, if any, sees a register through BAR0. -/
def State.sees (s : State) (p : Option Nat) (fns : List Nat) (f : Fam) (is : List Nat) : Bool :=
  match f.scope, p with
  | .dev, _ => true
  | .sct, _ => true
  | _, none => false
  | .shared, some p => s.right p 0
  | .port, some p => s.right p 0
  | .share, some p => is.head? = some p || s.right p 0
  | .prt, some p => is.head? = some p
  | .ownPage, some p => is.head? = some p
  | .txq, some p => is.head? = some p
  | .station, some p => (is.head?.map (s.caravans p).contains).getD false
  | .caravan, some p => (is.head?.map (s.caravans p).contains).getD false
  | .func, some _ => (is.head?.map fns.contains).getD false

/-- Whether a host's write to a register it sees may take effect: shared blocks ignore it (R258). -/
def hostWritable (p : Nat) (f : Fam) (is : List Nat) : Bool :=
  match f.scope with
  | .dev | .shared | .port | .share => false
  | .sct => is.head? = some p
  | _ => true

/-- The partition and functions a writer acts for. -/
def State.actsFor (s : State) (w : Writer) : Option Nat × List Nat :=
  match w with
  | .host f => (s.partOfFn f, [f.val])
  | .scout p => (some p.val, (List.range 8).filter (fun f => bitOf (s.fld (Csr.prtGrant_functions p)) f))
  | .factor => (none, [])
  | .seal => (none, [])

/-- Whether a writer's write reaches a register. The Factor clears counters of the shared blocks (R258, R401). -/
def State.mayWrite (s : State) (w : Writer) (f : Fam) (is : List Nat) : Bool :=
  let (p, fns) := s.actsFor w
  match w with
  | .seal => true
  | .factor => f.scope = .shared || f.scope = .port || f.scope = .share
  | .host _ | .scout _ => s.sees p fns f is && (match p with
    | some p => hostWritable p f is
    | none => false)

/-- What a register holds as it is read: TOL_MASK.MASKED is live (R258), and DEVICE shows an entry into P3 in progress (R433). -/
def State.liveReg (s : State) (off : Nat) (f : Fam) (is : List Nat) : Word :=
  if f.name = "TOL_MASK" then BitVec.ofNat 64 (s.tollMask (is.headD 0))
  else if f.name = "CPR_PSTATE" && s.p3Entering then BitVec.ofNat 64 (putBits (s.reg off).toNat 0 2 1)
  else s.reg off

/-- What a read of a register returns (R6, R435): zero where the reader does not see it. -/
def State.readReg (s : State) (p : Option Nat) (fns : List Nat) (off : Nat) : Word :=
  if 0x1000 ≤ off && off < 0x10B0 then s.reg off
  else match findReg off famTable with
    | some (f, is) => if s.sees p fns f is then s.liveReg off f is else 0
    | none => 0

/-! Writes by access code (R6). -/

/-- Fields whose writes are ignored while an order of the partition runs (R299, R327, R355). -/
def frozenField (f : Fam) (x : Field) : Bool :=
  (f.name = "UPD_SEED" && x.name = "SEED") || (f.name = "WGH_CFG" && x.name = "JOB") || (f.name = "LNK_TXQ" && x.name = "SENDQ")

/-- A field's value after a write of v: W1S and WO fields act and read zero. -/
def fieldAfter (rwl running : Bool) (f : Fam) (x : Field) (old v : Nat) : Nat :=
  match x.acc with
  | .rw => if running && frozenField f x then old else v
  | .ro => old
  | .w1c => Nat.lor old v - v
  | .w1s | .wo => 0
  | .rwl => if rwl then v else old

/-- Blocks whose RWL fields only the Seal writes, before it locks them too (R258, R355, R406, R433): all but the caravans' drovers. -/
def sealOnly (f : Fam) : Bool := f.scope ≠ .caravan

/-- The register after a write. -/
def State.rawWrite (s : State) (w : Writer) (off : Nat) (f : Fam) (is : List Nat) (v : Word) : State :=
  let rwl := w = .seal || (!s.dev.rwlLocked && !sealOnly f)
  let running := (is.head?.map (fun p => (s.part p).exec.isSome)).getD false
  let old := (s.reg off).toNat
  s.setReg off (wordOf f.fields (fun x => fieldAfter rwl running f x (bitsOf old x.lsb x.width) (bitsOf v.toNat x.lsb x.width)))

/-- A cap that no longer covers the shares scales each in proportion, in whole watts (R422). -/
def State.scaleShares (s : State) : State :=
  let sum := ((List.range 8).map (fun p => s.fld (Csr.cprShare_shareW p))).sum
  let room := s.capW - 700
  if sum ≤ room then s
  else (List.range 8).foldl (fun s p => s.setFld (Csr.cprShare_shareW p) (s.fld (Csr.cprShare_shareW p) * room / sum)) s

/-- The shares of the other partitions together. -/
def State.sharesBut (s : State) (p : Nat) : Nat := (((List.range 8).filter (· ≠ p)).map (fun q => s.fld (Csr.cprShare_shareW q))).sum

/-- The Seal gives a partition its share of the power cap; the shares together never pass CAP_W less 700 W (R422, R433). -/
def State.grantShare (s : State) (p w : Nat) : State :=
  if s.sharesBut p + w ≤ s.capW - 700 then s.setFld (Csr.cprShare_shareW p) w else s

/-- A port follows its ENABLE (R331), which a fence holds at 0 (R378). -/
def State.enablePort (s : State) (i : Nat) : State :=
  if (s.port i).fenced then s.setFld (Csr.lnkCtrl_enable i) 0
  else if !s.flag1 (Csr.lnkCtrl_enable i) then s.portOff i
  else if s.portState i = 0 && s.dev.running.isSome then s.portUp i
  else s

/-- The feed of a consignee, by the running image's feed table (R406, R455). -/
def State.peerFeed (s : State) (p n : Nat) : State :=
  let node := s.fld (Csr.csgPeer_node p n)
  let feed := (s.dev.running.bind (fun i => (i.feedTable.find? (fun t => t.1.toNat = node)).map (·.2.toNat))).getD 0xFF
  s.setFld (Csr.csgPeer_feed p n) feed

/-! Submission rings (R418, R432, R441, R445). -/

/-- A doorbell: TAIL is written, and the manifest controller of the half hears of it over the mesh (R228); in P3 it wakes the device, and it
abandons an entry into P3 that is in progress (R432). -/
def State.doorbell (s : State) (f ring tail p : Nat) : State :=
  let s := (s.setFld (Csr.hqRingCtl_tail f ring) tail).sendControl (rtrOfHost (f / 4)) (s.manRtr p)
  if s.fld Csr.cprPstate_device = 2 then s.setFld Csr.cprPstate_device 3
  else if s.p3Entering then s.updDev (fun d => { d with p3Pending := false })
  else s

def execRingDoorbell (f : FuncId) (ring : Fin 8) (tail : BitVec 16) (s : State) : Host.Outcome State Fault Refusal :=
  answer s (fun s => s.fromHost f (fun p s => s.doorbell f ring tail.toNat p))

/-- HQ_RING_BASE is written, and STOPPED is cleared. -/
def State.ringBase (s : State) (f ring : Nat) (v : Word) : State :=
  let s := (s.setFld (Csr.hqRingBase_base f ring) (bitsOf v.toNat 0 48)).setFld (Csr.hqRingBase_log2Depth f ring) (bitsOf v.toNat 48 4)
  (s.setFld (Csr.hqRingBase_enable f ring) (bitsOf v.toNat 63 1)).setFld (Csr.hqRingCtl_stopped f ring) 0

def execRingBaseWrite (f : FuncId) (ring : Fin 8) (v : Word) (s : State) : Host.Outcome State Fault Refusal :=
  answer s (fun s => s.fromHost f (fun _ s => s.ringBase f ring v))

/-- HQ_CPL_HEAD.RELEASED is written. -/
def State.cplHead (s : State) (p : Nat) (v : Word) : State := s.setFld (Csr.hqCplHead_released p) (bitsOf v.toNat 0 32)

def execCplHeadWrite (f : FuncId) (v : Word) (s : State) : Host.Outcome State Fault Refusal :=
  answer s (fun s => s.fromHost f (fun p s => s.cplHead p v))

/-! Seal requests (R439, R440). -/

/-- Argument word k, 1 to 7. -/
def State.sealArg (s : State) (p k : Nat) : Nat := (s.reg (Csr.hqSealarg p (k - 1))).toNat

/-- A change of windows or bank pairs is answered at once; it takes effect between orders, now or when the running one has ended (R202,
R284, R439). -/
def State.sealChange (s : State) (p : Nat) (a : SealAct) : State :=
  ((s.updPart p (fun x => { x with acts := x.acts ++ [a] })).applyActs p).sealAnswer p 2 0

/-- The windows and bank pairs as they will be once every change that waits has taken effect: what a request is judged by. -/
def State.acted (s : State) : State :=
  (List.range 8).foldl (fun s p => (s.part p).acts.foldl (fun s a => s.applyAct p a) s) s

/-- The window a request asks for. -/
def State.askedWin (s : State) (p : Nat) : Win :=
  let w := s.sealArg p 1
  ⟨bitOf w 8, bitOf w 9, bitsOf (s.sealArg p 2) 21 27 * 2 ^ 21,
   bitsOf (s.sealArg p 4) 0 16 * (if bitOf w 10 then gib else 2 * mib), bitsOf (s.sealArg p 3) 21 27 * 2 ^ 21⟩

/-- [a, a + n) lies within [b, b + m). -/
def inRange (a n b m : Nat) : Bool := b ≤ a && a + n ≤ b + m

/-- A range lies in the 24 pieces of a region and meets only pieces of the partition's own caravans. -/
def State.ownPieces (s : State) (p a n base piece : Nat) : Bool :=
  inRange a n base (24 * piece) &&
  (List.range 24).all (fun c => (s.caravans p).contains c || !(a < base + (c + 1) * piece && base + c * piece < a + n))

/-- The bytes of the two journals, outside every window (R383). -/
def State.journals (s : State) : List (Nat × Nat) := [(s.dev.journalAtW, journalSize), (s.dev.journalAtE, journalSize)]

/-- A physical range is granted to a partition, or is SRAM of its own caravans, or the own-satchel alias (R202, R437). -/
def State.granted (s : State) (p a n : Nat) : Bool :=
  let x := s.part p
  (x.hbm.any (fun g => inRange a n g.1 g.2) && !rangesMeet [(a, n)] s.journals) || inRange a n x.cxl.1 x.cxl.2 ||
  s.ownPieces p a n (satchelBase 0) (8 * 2 ^ 24) || s.ownPieces p a n (depotBase 0) (64 * mib) ||
  s.ownPieces p a n (roleBase 0) (64 * mib) || inRange a n aliasBase (16 * mib)

/-- Two windows share a partition-virtual address, or a physical byte. -/
def Win.meetsVa (a b : Win) : Bool := a.vbase < b.vbase + b.size && b.vbase < a.vbase + a.size
def Win.meetsPa (a b : Win) : Bool := a.pbase < b.pbase + b.size && b.pbase < a.pbase + a.size

/-- Request 1: the refusal's reason, if any. Checked in the order region, spill tier, grants, overlap (log entry 27). A satchel, a depot
and a role view are each a region of R197. -/
def State.mapRefusal (s : State) (p : Nat) : Option Nat :=
  let i := bitsOf (s.sealArg p 1) 0 7
  let w := s.askedWin p
  let page := if bitOf (s.sealArg p 1) 10 then gib else 2 * mib
  let last := w.pbase + w.size - 1
  let piece (pa : Nat) : Option Region × Nat := (regionOf pa, match regionOf pa with
    | some .satchel => (pa - satchelBase 0) / 2 ^ 24
    | some .depot => (pa - depotBase 0) / (64 * mib)
    | some .role => (pa - roleBase 0) / (64 * mib)
    | _ => 0)
  if w.size = 0 || w.vbase % page ≠ 0 || w.pbase % page ≠ 0 || 2 ^ 48 < w.vbase + w.size || (regionOf w.pbase).isNone ||
     piece w.pbase ≠ piece last then some 1
  else if regionOf w.pbase = some .cxl && !(s.right p 3 && s.dev.cxl) then some 3
  else if !s.granted p w.pbase w.size then some 2
  else if (List.range 128).any (fun j => j ≠ i && ((s.win p j).map w.meetsVa).getD false) then some 1
  else if regionOf w.pbase ≠ some .alias_ &&
      (List.range 8).any (fun q => q ≠ p && (List.range 128).any (fun j => ((s.win q j).map w.meetsPa).getD false)) then some 1
  else none

/-- Request 1. -/
def State.reqMap (s : State) (p : Nat) : State :=
  match s.acted.mapRefusal p with
  | some r => s.sealAnswer p 3 r
  | none =>
    let w := s.sealArg p 1
    let va := 1 + bitsOf w 8 3 * 2 + bitsOf (s.sealArg p 2) 21 27 * 2 ^ 21 + bitsOf (s.sealArg p 4) 0 16 * 2 ^ 48
    s.sealChange p (.mapWin (bitsOf w 0 7) (BitVec.ofNat 64 va) (BitVec.ofNat 64 (bitsOf (s.sealArg p 3) 21 27 * 2 ^ 21)))

/-- Request 2. -/
def State.reqUnmap (s : State) (p : Nat) : State :=
  let i := bitsOf (s.sealArg p 1) 0 7
  if (s.acted.win p i).isNone then s.sealAnswer p 3 1 else s.sealChange p (.unmapWin i)

/-- What follows a write of RWL fields by the Seal. -/
def State.afterRwl (s : State) (f : Fam) (is : List Nat) : State :=
  if f.name = "CPR_CAP" then s.scaleShares
  else if f.name = "LNK_CTRL" then s.enablePort (is.headD 0)
  else s

/-- Request 3: an RWL field of a block the partition sees; of a shared block with TUNE. -/
def State.reqRwl (s : State) (p : Nat) : State :=
  let off := s.sealArg p 1
  let lsb := bitsOf (s.sealArg p 2) 0 6
  let width := bitsOf (s.sealArg p 2) 8 6
  match findReg off famTable with
  | none => s.sealAnswer p 3 4
  | some (f, is) =>
    let inField := f.fields.any (fun x => x.acc = .rwl && x.lsb ≤ lsb && lsb + width ≤ x.lsb + x.width && 0 < width)
    let shared := f.scope = .shared || f.scope = .port || f.scope = .share
    if !inField || !s.sees (some p) [] f is then s.sealAnswer p 3 4
    else if shared && !s.right p 1 then s.sealAnswer p 3 5
    else ((s.putRwl off lsb width (s.sealArg p 3)).afterRwl f is).sealAnswer p 2 0

/-- Request 5: a token, its two words returned in words 1 and 2 (R461). -/
def State.reqToken (s : State) (p now nonce : Nat) : State :=
  let rights := bitsOf (s.sealArg p 1) 0 8
  if !s.right p 2 || 32 ≤ rights then s.sealAnswer p 3 6
  else
    let w0 : Word := BitVec.ofNat 64 (p + rights * 2 ^ 8 + (now + bitsOf (s.sealArg p 1) 16 16) % 2 ^ 32 * 2 ^ 16 + nonce % 2 ^ 16 * 2 ^ 48)
    ((s.setReg (Csr.hqSealarg p 0) w0).setReg (Csr.hqSealarg p 1) (Config.tokenMac s.dev.starts w0)).sealAnswer p 2 0

/-- Request 6: a bank pair of two times PAGES pages (R284). -/
def State.reqPair (s : State) (p : Nat) : State :=
  let w := s.sealArg p 1
  let n := bitsOf w 0 3
  let base := bitsOf (s.sealArg p 2) 21 27 * 2 ^ 21
  let pages := bitsOf (s.sealArg p 3) 0 16
  let size := 2 * pages * (2 * mib)
  let valid := bitOf w 8
  let t := s.acted
  let clash := (List.range 64).any (fun i =>
    let b := t.fld (Csr.updPair_base (i / 8) (i % 8)) * 2 ^ 21
    let m := 2 * t.fld (Csr.updPair_pages (i / 8) (i % 8)) * (2 * mib)
    i ≠ p * 8 + n && t.flag1 (Csr.updPair_valid (i / 8) (i % 8)) && base < b + m && b < base + size)
  if valid && clash then s.sealAnswer p 3 1
  else if valid && (!(s.part p).hbm.any (fun g => inRange base size g.1 g.2) || rangesMeet [(base, size)] s.journals) then s.sealAnswer p 3 2
  else s.sealChange p (.bankPair n (if valid then BitVec.ofNat 64 (1 + base + pages * 2 ^ 48) else 0))

/-- Request 7 (R440). -/
def State.reqPreempt (s : State) (p : Nat) : State :=
  let x := s.part p
  let n := bitsOf (s.sealArg p 1) 0 32
  let named := x.orders.find? (fun o => o.seq = n)
  let free (o : Order) : Bool := o.execs = 0 && !o.reexec && !hCoupled o.hdr
  let run := x.exec.isSome && (x.prev.toList ++ x.exec.toList).all (fun e => !e.isOver && !hCoupled e.hdr)
  if !run || x.preempt.isSome || x.preReq.isSome || (n ≠ 0 && !((named.map free).getD false)) then s.sealAnswer p 3 7
  else s.updPart p (fun x => { x with preReq := some n })

/-- Request 8 (R440). -/
def State.reqResume (s : State) (p : Nat) : State :=
  match (s.part p).preempt with
  | some q => if q.named = 0 then (s.updPart p (fun x => { x with preempt := some { q with resume := true } })).sealAnswer p 2 0
              else s.sealAnswer p 3 7
  | none => s.sealAnswer p 3 7

/-- The Seal serves a request of a TYPE. -/
def State.serve (s : State) (p type now nonce : Nat) : State :=
  match type with
  | 1 => s.reqMap p
  | 2 => s.reqUnmap p
  | 3 => s.reqRwl p
  | 4 => (s.prst p).sealAnswer p 2 0
  | 5 => s.reqToken p now nonce
  | 6 => s.reqPair p
  | 7 => s.reqPreempt p
  | 8 => s.reqResume p
  | _ => s

/-- GO with a TYPE: TYPE is written, and GO is ignored while a request is pending, which keeps its own; pending until a Seal pair is
in service (R402, R439). -/
def State.askPart (s : State) (p type now nonce : Nat) : State :=
  let s := s.setFld (Csr.hqSealreq_type p) type
  if s.fld (Csr.hqSealreq_status p) = 1 || type = 0 || 8 < type then s
  else
    let s := ((s.setFld (Csr.hqSealreq_status p) 1).setFld (Csr.hqSealreq_reason p) 0).updPart p (fun x => { x with sealType := type })
    if s.dev.sealUp then s.serve p type now nonce else s.updDev (fun d => { d with sealQ := d.sealQ ++ [p] })

/-- A host's GO, with its link up. -/
def State.ask (s : State) (f type now nonce : Nat) : State := s.fromHost f (fun p s => s.askPart p type now nonce)

def execSealReqMapWindow (f : FuncId) (s : State) : Host.Outcome State Fault Refusal := answer s (fun s => s.ask f 1 0 0)
def execSealReqUnmapWindow (f : FuncId) (s : State) : Host.Outcome State Fault Refusal := answer s (fun s => s.ask f 2 0 0)
def execSealReqWriteRwl (f : FuncId) (s : State) : Host.Outcome State Fault Refusal := answer s (fun s => s.ask f 3 0 0)
def execSealReqPrst (f : FuncId) (s : State) : Host.Outcome State Fault Refusal := answer s (fun s => s.ask f 4 0 0)
def execSealReqDebugToken (f : FuncId) (now : BitVec 32) (nonce : BitVec 16) (s : State) : Host.Outcome State Fault Refusal :=
  answer s (fun s => s.ask f 5 now.toNat nonce.toNat)
def execSealReqBankPair (f : FuncId) (s : State) : Host.Outcome State Fault Refusal := answer s (fun s => s.ask f 6 0 0)
def execSealReqPreempt (f : FuncId) (s : State) : Host.Outcome State Fault Refusal := answer s (fun s => s.ask f 7 0 0)
def execSealReqResume (f : FuncId) (s : State) : Host.Outcome State Fault Refusal := answer s (fun s => s.ask f 8 0 0)

/-- A Seal pair that takes over serves the requests that wait, in the order in which they came (R402, R438); wall time and nonce are
free values. -/
def State.repeatReqs (s : State) : State :=
  s.dev.sealQ.eraseDups.foldl (fun s p =>
    let x := s.part p
    if s.fld (Csr.hqSealreq_status p) = 1 && x.preReq.isNone then
      let (now, s) := s.draw
      let (nonce, s) := s.draw
      s.serve p x.sealType now nonce
    else s) (s.updDev (fun d => { d with sealQ := [] }))

/-- Three heartbeats missing: the other pair, if it beats, takes over all Seal work; every table is shared (R402). -/
def State.takeOver (s : State) (h : Nat) : State :=
  if s.dev.beats (1 - h) then ((s.stopSeal h).setSeal (1 - h) 1).repeatReqs else s

def execSealHeartbeatLoss (h : HalfId) (s : State) : Host.Outcome State Fault Refusal := answer s (fun s => s.takeOver h)

/-! Register writes (R6). -/

/-- What a write of a register does beyond its fields; registers with a row of their own act as that row. The Seal's own tables, shares and
weighhouse slots, take its writes by the rules that bind it (R327, R422), and its write of WRST_REASON 2 is the start of a WRST to contain an
internal error (R427; DESIGN CHOICE, log entry 7). -/
def State.afterWrite (s : State) (w : Writer) (f : Fam) (is : List Nat) (v : Word) : State :=
  let p := is.headD 0
  let i := (is.drop 1).headD 0
  let bit (n : Nat) : Bool := bitOf v.toNat n
  match f.name with
  | "HQ_RING_CTL" => match s.partOfFn p with
    | some q => s.doorbell p i (bitsOf v.toNat 0 16) q
    | none => s
  | "HQ_RING_BASE" => s.setFld (Csr.hqRingCtl_stopped p i) 0
  | "HQ_CANCEL" => s.cancel p (bitsOf v.toNat 0 32)
  | "HQ_MBOX" => if bit 34 then s.mboxRelease p i else s
  | "HQ_SEALREQ" =>
    if bit 63 then
      let (now, s) := s.draw
      let (nonce, s) := s.draw
      s.askPart p (bitsOf v.toNat 0 8) now nonce
    else s
  | "SEAL_MAN" =>
    let s := if bit 33 then s.manResume p else s
    if bit 34 then s.withdraw p else s
  | "CSG_STATUS" =>
    let s := if bit 38 then s.updPart p (fun x => { x with csg := { x.csg with nowReq := true } }) else s
    if bit 39 then s.askRestore p else s
  | "CSG_PEER" => s.peerFeed p i
  | "CPR_PSTATE" => if w = .seal && bit 2 then s.p3Ask else s
  | "CPR_CAP" | "LNK_CTRL" => if w = .seal then s.afterRwl f is else s
  | "CPR_CAUSE" => if w = .seal && bitsOf v.toNat 4 4 = 2 then s.wrst 2 else s
  | "WGH_SHARE" => if w = .seal then s.grantWgh p (bitsOf v.toNat 4 1) (bitsOf v.toNat 0 4) else s
  | "CPR_SHARE" => if w = .seal then s.grantShare p (bitsOf v.toNat 0 12) else s
  | _ => s

/-- A writer that reaches the part: a host's function while its link is up (R414). -/
def State.reaches (s : State) : Writer → Bool
  | .host f => s.hostUp f
  | _ => true

/-- REGISTER_WRITE: the fields take the write by their access codes, and what the register does follows. -/
def State.regWrite (s : State) (w : Writer) (off : Nat) (v : Word) : State :=
  match findReg off famTable with
  | none => s
  | some (f, is) =>
    if !s.reaches w || !s.mayWrite w f is then s
    else (s.rawWrite w off f is v).afterWrite w f is v

def execRegisterWrite (w : Writer) (off : Nat) (v : Word) (s : State) : Host.Outcome State Fault Refusal :=
  answer s (fun s => s.regWrite w off v)

/-! BAR2 (R435) and DOE (R434). -/

/-- Where a BAR2 byte lies: none refuses the access. -/
def State.barPlace (s : State) (p va : Nat) (wr : Bool) : Option Nat :=
  match s.winOf p va with
  | none => none
  | some w =>
    if !(if wr then w.write else w.read) then none
    else
      let pa := w.pbase + (va - w.vbase)
      match regionOf pa with
      | some .alias_ => none
      | some .role => s.roleResolve pa
      | some .hbm => some (s.redirect pa)
      | some .cxl => if s.tierGone pa then none else some pa
      | some _ => some pa
      | none => some pa

/-- A refused access (R435); functions 4 to 7 lie on host port B, in the east half (R8, R229). -/
def State.barRefuse (s : State) (p f : Nat) : State := (s.emit (.completerAbort f)).event p 7 (unitInst (f / 4) f 0x60) 0

/-- The first place that is no memory at all. -/
def holeOf (pas : List Nat) : Option Nat := pas.find? (fun pa => (regionOf pa).isNone)

/-- Addresses in order, as ranges of bytes that follow each other. -/
def runsOf : List Nat → List (Nat × Nat)
  | [] => []
  | a :: as => match runsOf as with
    | (b, n) :: rs => if a + 1 = b then (a, n + 1) :: rs else (a, 1) :: (b, n) :: rs
    | [] => [(a, 1)]

def State.bar2 (s : State) (f : Nat) (acc : BarAccess) : Host.Outcome State Fault Refusal :=
  match s.partOfFn f with
  | none => .next (s.emit (.completerAbort f))
  | some p =>
    let base := s.fld (Csr.hqCpl_aperture p) * (16 * gib)
    let (off, n, wr) := match acc with
      | .read va count => (va, count, false)
      | .write va bs => (va, bs.length, true)
    let places := (List.range n).map (fun i => s.barPlace p (base + off + i) wr)
    if 16 * gib < off + n || places.any (·.isNone) then .next (s.barRefuse p f)
    else
      let pas := places.filterMap id
      match holeOf pas with
      | some pa => .fault (.physicalHole pa)
      | none =>
        let s := (runsOf pas).foldl (fun s (a, m) => s.meshTo wr (rtrOfHost (f / 4)) a m) s
        match acc with
        | .read _ _ => .next ((s.eccWords pas).emit (.readData f (pas.map s.byte) (pas.any (fun pa => s.poison.contains (pa / 8)))))
        | .write _ bs => .next ((pas.zip bs).foldl (fun s (pa, b) => s.setByte pa b) s)

/-- BAR2_ACCESS; while the host's link is down nothing arrives. -/
def execBar2Access (f : FuncId) (acc : BarAccess) (s : State) : Host.Outcome State Fault Refusal :=
  if s.hostUp f then
    match s.bar2 f acc with
    | .next t => .next { t with pending := s.pending }
    | o => o
  else .next s

/-- The Seal answers SPDM over a function's DOE mailbox, and as MCTP in vendor-defined messages on function 0 (R434, R459; log entry 7). -/
def execHostSpdmDoe (f : FuncId) (msg : HostMsg) (s : State) : Host.Outcome State Fault Refusal :=
  answer s (fun s =>
    if !s.hostUp f || !s.dev.sealUp then s
    else
      match msg with
      | .doe bs => s.emit (.spdm f (Config.spdmAnswer bs))
      | .mctp bs => if f.val = 0 then s.emit (.mctp 0 (Config.spdmAnswer bs)) else s)

end Sys2Proof.Machine
end

