-- ==== Sys2Proof/Machine/Board.lean ====
section
/-!
DEFINITION. Board management over I3C (R30, R458, R459): the warm reset, image slots, the in-service apply, identification,
attestation, and what can be read in safe hold.
-/
namespace Sys2Proof.Machine

/-- The I3C target answers: AUX3V3 is there (R30). -/
def Dev.i3c (d : Dev) : Bool := d.aux
/-- The Seal serves board management: the module is powered and a pair is in service. -/
def Dev.i3cSeal (d : Dev) : Bool := d.aux && d.pwrgd && d.started && d.sealUp

/-- I3C_WRST_REQUEST (R427, R459): reason 1 is board management. -/
def execI3cWrstRequest (s : State) : Host.Outcome State Fault Refusal :=
  answer s (fun s => if s.dev.i3cSeal then s.wrst 1 else s)

/-- I3C_IMAGE_WRITE: an image slot of the flash. -/
def execI3cImageWrite (slot : Fin 2) (img : Image) (s : State) : Host.Outcome State Fault Refusal :=
  answer s (fun s => if s.dev.i3cSeal then
    s.updDev (fun d => if slot = 0 then { d with slot0 := some img } else { d with slot1 := some img }) else s)

/-! The in-service apply (R458). -/

/-- The definition an image gives a partition; none given is an empty one. -/
def defOf (i : Image) (p : Nat) : PartDef :=
  ((i.parts.find? (fun (q, _) => q.val = p)).map (·.2)).getD ⟨0, 0, 0, 0, 0, [], (0, 0)⟩
/-- Every section other than p's and the signer's is the same in two images. -/
def sameSections (a b : Image) (p : Nat) : Bool :=
  a.node = b.node && a.ringX = b.ringX && a.ringY = b.ringY && a.ringZ = b.ringZ && a.feed = b.feed && a.feedTable = b.feedTable &&
  a.rwl = b.rwl && a.secModes = b.secModes && a.roots = b.roots && a.policy = b.policy && a.winLists = b.winLists && a.fenceRelease = b.fenceRelease &&
  a.parts.filter (fun (q, _) => q.val ≠ p) = b.parts.filter (fun (q, _) => q.val ≠ p)

/-- Why an apply is refused: APPLY_REASON, checked in the order of R458. `rest` is what the other partitions' shares are
now: the sum is held to the cap in force, CPR_CAP.CAP_W (R422). -/
def applyRefusal (cap rest : Nat) (new running : Image) (p : Nat) : Option Nat :=
  if !(Config.signatureOk new.fingerprint && (new.targetSerial = 0 || new.targetSerial = Config.serial) && new.wf) then some 1
  else if new.imageSerial.toNat ≤ running.imageSerial.toNat then some 5
  else if !sameSections new running p then some 2
  else if !new.sound || cap - 700 < rest + (defOf new p).shareW then some 4
  else none

def State.applyRefuse (s : State) (r : Nat) : State :=
  ((s.setFld Csr.cfgStatus_applyReason r).setFld Csr.cfgStatus_applyState 0).updDev (fun d => { d with applying := none })

/-- The request: the image is verified, and acceptance for p stops. What is applied is the image as it was verified. -/
def State.applyAsk (s : State) (p slot : Nat) : State :=
  if !s.dev.i3cSeal || s.dev.applying.isSome then s
  else
    match s.dev.slot slot, s.dev.running with
    | some img, some run =>
      match applyRefusal s.capW (s.sharesBut p) img run p with
      | some r => s.applyRefuse r
      | none => (s.updDev (fun d => { d with applying := some (p, slot, img) })).setFld Csr.cfgStatus_applyState 2
    | _, _ => s.applyRefuse 1

def execImageApplyRequest (p : PartId) (slot : Fin 2) (s : State) : Host.Outcome State Fault Refusal :=
  answer s (fun s => s.applyAsk p slot)

/-- Windows and bank pairs outside the partition's grants become invalid. -/
def State.trimWindows (s : State) (p : Nat) : State :=
  let s := (List.range 128).foldl (fun s i =>
    match s.win p i with
    | some w => if s.granted p w.pbase w.size then s else s.setFld (Csr.prtWinVa_valid p i) 0
    | none => s) s
  (List.range 8).foldl (fun s n =>
    let base := s.fld (Csr.updPair_base p n) * 2 ^ 21
    let size := 2 * s.fld (Csr.updPair_pages p n) * (2 * mib)
    if (s.part p).hbm.any (fun g => inRange base size g.1 g.2) then s else s.setFld (Csr.updPair_valid p n) 0) s

/-- The apply itself, once the partition's order has ended: PRST, the new definition, an FLR of functions that leave. -/
def State.applyNow (s : State) : State :=
  match s.dev.applying with
  | none => s
  | some (p, slot, img) =>
    if (s.part p).exec.isSome || (s.part p).prev.isSome then s
    else
      let d := defOf img p
      let old := s.fld (Csr.prtGrant_functions p)
      let s := s.prst p
      let s := (List.range 8).foldl (fun s f => if bitOf old f && !bitOf d.functions.toNat f then s.flr f else s) s
      let s := (((s.installPart p d).placeSpares p).trimWindows p).updDev (fun x => { x with
        applying := none, active := slot, running := some img })
      ((s.setFld Csr.cfgStatus_applyState 0).setFld Csr.cfgStatus_activeSlot slot).setFld Csr.cfgStatus_imageSerial
        img.imageSerial.toNat

def execImageApply (s : State) : Host.Outcome State Fault Refusal := answer s (fun s => s.applyNow)

/-- 30 s have passed and the order has not ended: APPLY_REASON 3. -/
def execImageApplyDrainTimeout (s : State) : Host.Outcome State Fault Refusal :=
  answer s (fun s => match s.dev.applying with
    | some (p, _, _) => if (s.part p).exec.isSome || (s.part p).prev.isSome then s.applyRefuse 3 else s
    | none => s)

/-! Reading (R30, R403, R459). -/

/-- The cooling limits of R22: inlet from and to in °C and above the dew point in K, flow in tenths of L/min, pressure drop in
hundredths and static pressure in tenths of bar, filtration in µm, outlet rise in K. -/
def coolingLimits : List Nat := [17, 40, 2, 70, 35, 60, 50, 10]

/-- The 4 KiB of the module information area (R30): DEV_ID, DEV_STEP, DEV_SERIAL, the cooling limits of R22 (their layout is the
model's, log entry 7). -/
def State.moduleInfo (s : State) : List Byte :=
  let b := leBytes 8 (s.reg Csr.devId).toNat ++ leBytes 8 (s.reg Csr.devStep).toNat ++ leBytes 8 (s.reg Csr.devSerial).toNat ++
    coolingLimits.flatMap (leBytes 2)
  b ++ List.replicate (4096 - b.length) 0

def execI3cModuleInfoRead (s : State) : Host.Outcome State Fault Refusal :=
  answer s (fun s => if s.dev.i3c then s.emit (.i3c s.moduleInfo) else s)

def execI3cAttest (msg : List Byte) (s : State) : Host.Outcome State Fault Refusal :=
  answer s (fun s => if s.dev.i3cSeal then s.emit (.i3c (Config.spdmAnswer msg)) else s)

/-- The journal as board management reads it: each accepted order's sequence number, partition and entry (log entry 7). -/
def State.journalBytes (s : State) : List Byte :=
  (List.range 8).flatMap (fun p => (s.part p).orders.flatMap (fun o => leBytes 4 o.seq ++ leBytes 4 p ++ leBytes 128 o.hdr.toNat))

def execI3cSafeHoldRead (s : State) : Host.Outcome State Fault Refusal :=
  answer s (fun s => if s.dev.i3c && s.dev.safeHold then (s.emit (.beacon none)).emit (.i3c s.journalBytes) else s)

end Sys2Proof.Machine
end

