-- ==== Sys2Proof/Machine/Sync.lean ====
section
/-!
DEFINITION. Synchronisation, queues and marks (R188 to R190): NOP, ADVANCE, QPUSH, QPOP, END, MARK.
-/
namespace Sys2Proof.Machine

/-- NOP (R188): it only carries a wait and a signal. -/
def clsNop : Cls :=
  { Cls.base with
    scopes := anyScope
    zeros := fun _ => [(0, 64)]
    start := fun s x => s.doneAtIssue x (unitId (s.home x.p) 0 0x10) }

def execNop (p : PartId) (h : Head) (w1 : Word) (s : State) : Host.Outcome State Fault Refusal :=
  answer s (fun s => clsNop.offer s p 0x00 h w1)

/-- ADVANCE (R158, R188): the issue pace moves forward by the count. -/
def clsAdvance : Cls :=
  { Cls.base with
    flags := false
    word := fun _ _ x => if x.f 0 32 = 0 then some (bad0C x.op 5 64) else none
    zeros := fun _ => [(32, 32)]
    start := fun s x => s.updExec x.p (fun e => { e with issuePace := e.issuePace + x.f 0 32 }) }

def execAdvance (p : PartId) (h : Head) (w1 : Word) (s : State) : Host.Outcome State Fault Refusal :=
  answer s (fun s => clsAdvance.offer s p 0x01 h w1)

/-- END (R188): no command issues after it; an open recompute region is reason 7 (R190). R161 names field bits for reasons 2, 6 and
8 only, and END has no field that is at fault here: bit 0 stands in the record (DESIGN CHOICE, log entry 47). Its signal comes when
it completes (`State.endSignal`). -/
def clsEnd : Cls :=
  { Cls.base with
    word := fun _ e x => if e.region.isSome then some (bad0C x.op 7 0) else none
    zeros := fun _ => [(0, 64)]
    start := fun s x => s.updExec x.p (fun e => { e with ended := true, endOff := some x.off }) }

def execEndCmd (p : PartId) (h : Head) (w1 : Word) (s : State) : Host.Outcome State Fault Refusal :=
  answer s (fun s => clsEnd.offer s p 0x0F h w1)

/-- MARK (R190): the recompute regions. The dependence it marks is `Head.dep`, R166. -/
def clsMark : Cls :=
  { Cls.base with
    word := fun _ e x =>
      if (x.f 0 2 = 2 && e.region.isSome) || (x.f 0 2 = 3 && e.region.isNone) then some (bad0C x.op 7 64) else none
    zeros := fun _ => [(2, 14), (28, 36)]
    start := fun s x =>
      let s := s.updExec x.p (fun e =>
        { e with region := match x.f 0 2 with
                   | 2 => some (x.f 16 12)
                   | 3 => none
                   | _ => e.region })
      s.doneAtIssue x (unitId (s.home x.p) 0 0x10) }

def execMark (p : PartId) (h : Head) (w1 : Word) (s : State) : Host.Outcome State Fault Refusal :=
  answer s (fun s => clsMark.offer s p 0x50 h w1)

/-! QPUSH and QPOP (R189, R146). A pop sees the queue before a push of the same pace, whatever latency the schedule assumes. -/

/-- The caravan of a queue command and its queue. -/
def State.qCar (s : State) (x : Ctx) : Nat := (s.scopeCars x).headD 0
/-- The slot key of a caravan's queue. -/
def queueUnit (c q : Nat) : Nat := 2 ^ 20 + queueKey c q

/-- The buffer: exactly 64 bytes, in the alias or the depot. -/
def queueBody (wr : Bool) (s : State) (x : Ctx) : Option Fail :=
  let d := s.desc x.p x.hdr (x.f 6 12)
  if d.logRows * d.rowBytes ≠ 64 then some (bad0C x.op 5 70)
  else s.useChecks x.p x.hdr
    [{ idx := x.f 6 12, rows := 1, bytes := 1, rd := !wr, wr := wr, mx := none, checkScale := false, stream := false,
       transposed := false, levels := [.alias_, .depot] }]

def clsQueue (wr : Bool) : Cls :=
  { Cls.base with
    scopes := [0x81]
    word := fun _ _ x => firstFail [needDesc x 6]
    zeros := fun _ => [(18, 46)]
    body := queueBody wr
    classes := fun _ _ => [0x33]
    units := fun s x => [queueUnit (s.qCar x) (x.f 0 6)]
    unit := fun s x => s.carUnit x 0x11 }

/-- Bytes of a buffer, row by row. -/
def State.extentBytes (s : State) (p g : Nat) (d : Desc) : List Byte :=
  (List.range d.logRows).flatMap (fun j => s.vbytes p g (d.rowVa j) d.rowBytes)

/-- Write an extent row by row. -/
def State.setExtent (s : State) (p g : Nat) (d : Desc) (bs : List Byte) : State :=
  (List.range d.logRows).foldl (fun s j => s.setVbytes p g (d.rowVa j) ((bs.drop (j * d.rowBytes)).take d.rowBytes)) s

/-- A caravan's unit stores an extent: its rows cross the mesh to their places (R228). -/
def State.storeExtent (s : State) (p g : Nat) (d : Desc) (bs : List Byte) : State :=
  ((List.range d.logRows).foldl (fun s j => s.meshRow true (rtrOfCar (g / 8)) p g (d.rowVa j) d.rowBytes) s).setExtent p g d bs

def clsQpush : Cls :=
  { clsQueue false with
    reads := fun s x => s.rowsOf x.p [s.qCar x * 8] (s.desc x.p x.hdr (x.f 6 12))
    descs := fun _ x => [x.f 6 12]
    ready := fun s x =>
      let c := s.qCar x
      let q := x.f 0 6
      let d := s.qDepth c q
      if d = 0 || (!s.qElastic c q && d ≤ s.qOcc c q) then some (s.carUnit x 0x11, (0x02, q + d * 2 ^ 16)) else none
    wait := fun s x => s.qElastic (s.qCar x) (x.f 0 6) && s.qDepth (s.qCar x) (x.f 0 6) ≤ s.qOcc (s.qCar x) (x.f 0 6)
    start := fun s x =>
      let c := s.qCar x
      let q := x.f 0 6
      let lat := ((s.exec? x.p).map (·.lat 0x33)).getD 0
      match s.poisonCheck x.p (s.carUnit x 0x11) x.off ((s.desc x.p x.hdr (x.f 6 12)).ranges (c * 8)) with
      | some s => s
      | none =>
      let s := s.fetchRows [c] (s.rowsOf x.p [c * 8] (s.desc x.p x.hdr (x.f 6 12)))
      let s := s.qPush c q (s.orderPace x.p + max lat 1) x.off (s.extentBytes x.p (c * 8) (s.desc x.p x.hdr (x.f 6 12)))
      let s := (s.useClass x.p 0x33 (queueUnit c q)).excess x.p 0x33
      s.doneAtIssue x (s.carUnit x 0x11) }

def execQpush (p : PartId) (h : Head) (w1 : Word) (s : State) : Host.Outcome State Fault Refusal :=
  answer s (fun s => clsQpush.offer s p 0x02 h w1)

def clsQpop : Cls :=
  { clsQueue true with
    ready := fun s x =>
      let c := s.qCar x
      let q := x.f 0 6
      if s.qDepth c q = 0 then some (s.carUnit x 0x11, (0x02, q))
      else if !s.qElastic c q && !s.qReady c q (s.orderPace x.p) then some (s.carUnit x 0x11, (0x06, q))
      else none
    wait := fun s x => s.qElastic (s.qCar x) (x.f 0 6) && !s.qReady (s.qCar x) (x.f 0 6) (s.orderPace x.p)
    start := fun s x =>
      let c := s.qCar x
      let q := x.f 0 6
      let d := s.desc x.p x.hdr (x.f 6 12)
      match (List.range 64).find? (fun i => s.poisoned (s.qSlot c q 0 + i) 1) with
      | some i => (s.eccRead (s.qSlot c q 0 + i) 0 0 1).raise x.p (s.carUnit x 0x11) 0x71 x.off ((s.vaOf x.p (s.qSlot c q 0) + i) % 2 ^ 48 + 2 ^ 48)
      | none =>
      let s := s.storeExtent x.p (c * 8) d (s.bytes (s.qSlot c q 0) 64)
      let s := s.dest x.p (s.rowsOf x.p [c * 8] d)
      let s := s.qDrop c q
      s.doneAtIssue x (s.carUnit x 0x11) }

def execQpop (p : PartId) (h : Head) (w1 : Word) (s : State) : Host.Outcome State Fault Refusal :=
  answer s (fun s => clsQpop.offer s p 0x03 h w1)

end Sys2Proof.Machine
end

