-- ==== Sys2Proof/Machine/Complete.lean ====
section
/-!
DEFINITION. The end of program commands and of holds (R129, R144 to R146, R159, R167): completion, the start of a pending
command, the end of an elastic wait, of a merge and of a hold.
-/
namespace Sys2Proof.Machine

/-- The class of an opcode (R167); none for an undefined one. -/
def clsOf (op : Nat) (w1 : Word) : Option Cls :=
  match op with
  | 0x00 => some clsNop
  | 0x01 => some clsAdvance
  | 0x02 => some clsQpush
  | 0x03 => some clsQpop
  | 0x0F => some clsEnd
  | 0x10 => some clsProduct
  | 0x20 => some clsDrain
  | 0x21 => some clsEvict
  | 0x22 => some clsLedger
  | 0x23 => some clsRelease
  | 0x30 => some clsVec
  | 0x31 | 0x32 | 0x33 | 0x34 => some clsMortar
  | 0x40 | 0x41 => some clsDrv
  | 0x42 => some clsSwap
  | 0x50 => some clsMark
  | 0x70 => some (clsSend (bitOf w1.toNat 48))
  | 0x71 => some clsReshard
  | 0x78 => some clsLosschk
  | 0x79 => some clsUpdate
  | 0x7A => some clsCommit
  | _ => none

/-- Whether an opcode is a mortar's. -/
def isMortar (op : Nat) : Bool := 0x30 ≤ op && op ≤ 0x34

/-! Completion (R144, R167). -/

/-- A product is over: its runs go, or stay for the tiles that have still to leave the route (R68). A held product leaves the banks of its
stations without an output tile released (R172, R468, log entry 19). -/
def State.endProduct (s : State) (p : Nat) (x : Ctx) (seq : Nat) : State :=
  let mine (u : Run) : Bool := u.seq = seq && u.off = x.off
  let s := if x.pDst = 0 then
      (s.caravans p).foldl (fun s c =>
        ((s.car c).runs.filter mine).foldl (fun s u =>
          u.stns.foldl (fun s g =>
            (List.range (min 2 u.passes)).foldl (fun s b =>
              let k := u.key g b
              if (s.bank k).st = .free then s.setBank k { Bank.empty with st := .released } else s) s) s) s) s
    else s
  (s.caravans p).foldl (fun s c => s.updCar c (fun k => { k with
    runs := (k.runs.filter (fun u => !mine u || u.onRoute k.tiles)).map (fun u => if mine u then { u with ended := true } else u) })) s

/-- What a command's completion does before its signal: a mortar's results are written, tally-control banks are free, a
product leaves the route. -/
def State.completeEffect (s : State) (p seq : Nat) (x : Ctx) (m : Cmd) : State :=
  if isMortar m.op then s.mortarFinish x (MDescs.of m.descs)
  else if m.op = 0x20 || m.op = 0x21 || m.op = 0x22 then
    let s := (s.tiles x).foldl (fun s _ =>
      let s := s.excess p 3
      if isMx x.h.fmtOut.toNat then s.excess p 0x15 else s) s
    s.freeTaken m.off (s.scopeStns x)
  else if m.op = 0x10 then s.endProduct p x seq
  else s

/-- The unit a command's signal comes from. -/
def State.cmdUnit (s : State) (x : Ctx) (m : Cmd) : Nat :=
  match clsOf m.op m.w1 with
  | some c => c.unit s x
  | none => manUnit s x.p

/-- A command of the running execution is over: its effect, and its signal. -/
def State.finishCmd (s : State) (p : Nat) (m : Cmd) : State :=
  match s.exec? p with
  | none => s
  | some e =>
    let x := m.ctx p e.hdr
    let s := s.completeEffect p e.seq x m
    if s.stopped p then s
    else
      let s := s.updExec p (fun e => { e with cmds := e.cmds.filter (fun k => k.off ≠ m.off) })
      let cs := s.scopeCars x
      s.signal p m.off (s.cmdUnit x m) (cs.headD (s.home p)) m.h.signal.toNat cs

/-- Caravans in which a product leaves remnant passes to fenced stations (R84). -/
def State.remnantCars (s : State) (p off : Nat) : List Nat :=
  match s.exec? p with
  | none => []
  | some e => (s.caravans p).filter (fun c =>
      (s.car c).runs.any (fun u => u.seq = e.seq && u.off = off && !u.ended && u.stns.any (fun g => s.remnantsAt u g ≠ 0)))

/-- Complete one command of the running execution. A product with remnant passes completes only after them; they run in a hold of
source 4 of unknown length (R84, R85). -/
def State.completeCmd (s : State) (p : Nat) (m : Cmd) : State :=
  let cs := if m.op = 0x10 then s.remnantCars p m.off else []
  if cs.isEmpty then s.finishCmd p m
  else (cs.foldl (fun s c => s.updCar c (fun k => { k with remnant := k.remnant ++ [(m.off, 0)] })) s).hold p 4 none

/-- The remnant passes of a product that have still to run in a caravan (R84). -/
def Car.remnantOf (k : Car) (off : Nat) : Option Nat := (k.remnant.find? (fun x => x.1 = off)).map (·.2)

/-- Commands whose completion pace is reached, but products whose remnant passes run. -/
def State.dueCmds (s : State) (p : Nat) : List Cmd :=
  match s.exec? p with
  | none => []
  | some e => e.cmds.filter (fun m => (m.done.map (fun q => Nat.ble q (s.orderPace p))).getD false &&
      !(s.caravans p).any (fun c => ((s.car c).remnantOf m.off).isSome))

/-- The remnant passes of the running execution's products are over, and the products complete (R84). -/
def State.endRemnants (s : State) (p : Nat) : State :=
  match s.exec? p with
  | none => s
  | some e =>
    let ms := e.cmds.filter (fun m => m.op = 0x10 && (s.caravans p).any (fun c => ((s.car c).remnantOf m.off).isSome))
    ms.foldl (fun s m =>
      let s := (s.caravans p).foldl (fun s c =>
        match (s.car c).remnantOf m.off with
        | some done => (s.runRemnants p c m.off done).updCar c (fun k => { k with remnant := k.remnant.filter (fun x => x.1 ≠ m.off) })
        | none => s) s
      if s.stopped p then s else s.finishCmd p m) s

/-- Start pending commands whose units are free (R159): none before them in flight occupies one. A mortar command whose operands a mark
keeps from being fetched waits too (R166). -/
def State.startPending (s : State) (p : Nat) : State :=
  match s.exec? p with
  | none => s
  | some e =>
    let now := s.orderPace p
    let free (m : Cmd) : Bool := (s.earlier p e ++ e.cmds.takeWhile (fun k => k.off ≠ m.off)).all
      (fun k => m.units.all (fun u => !k.units.contains u)) && (!isMortar m.op || s.mortarMay (m.ctx p e.hdr) (MDescs.of m.descs))
    let ready := e.cmds.filter (fun m => m.start.isNone && free m)
    if ready.isEmpty then s
    else
      let s := s.setExec p { e with cmds := e.cmds.map (fun m =>
        if m.start.isNone && free m && m.op ≠ 0x42 then
          { m with start := some now, done := if isMortar m.op then some (now + m.prog) else m.done }
        else m) }
      ready.foldl (fun s m =>
        let c := (s.scopeCars (m.ctx p e.hdr)).headD 0
        if m.op = 0x42 then s.trySwap p c
        else if m.op = 0x40 || m.op = 0x41 then s.drvDone p c
        else if m.op = 0x10 then s.startZero p m.off
        else if m.op = 0x70 then s.beginSend p m.off
        else s) s

/-- Every due command of the running execution completes, in stream order, and pending ones start. -/
def State.completeDue (s : State) (p : Nat) : State :=
  (State.together p ((s.dueCmds p).map (fun m s => s.completeCmd p m)) (s, s)).1.startPending p

/-- The same for the order an interleaved one has overtaken (R220). -/
def State.completePrev (s : State) (p : Nat) : State :=
  match (s.part p).prev with
  | some e => s.forSeq p e.seq (fun s => s.completeDue p)
  | none => s

/-- COMMAND_COMPLETE: the command at a stream offset completes, when its pace is reached. -/
def State.commandComplete (s : State) (p off : Nat) : State :=
  if s.stopped p || s.dev.safeHold then s
  else
    match (s.dueCmds p).find? (fun m => m.off = off) with
    | some m => (s.completeCmd p m).startPending p
    | none =>
      match (s.part p).prev with
      | some e => s.forSeq p e.seq (fun s =>
          match (s.dueCmds p).find? (fun m => m.off = off) with
          | some m => if s.stopped p then s else s.completeCmd p m
          | none => s)
      | none => s

def execCommandComplete (p : PartId) (off : Nat) (s : State) : Host.Outcome State Fault Refusal :=
  answer s (fun s => s.commandComplete p off)

/-! Elastic waits (R145, R146). -/

/-- What is on the way to the flag or queue a command waits on arrives: the network does not stop with the schedule (log
entry 20). -/
def State.arriveFor (s : State) (p op : Nat) (h : Head) (w1 : Word) : State :=
  match s.exec? p with
  | none => s
  | some e =>
    let x := e.ctx p op h w1
    let key := s.flagKey p ((s.scopeCars x).headD (s.home p)) h.wait.toNat
    let n := if h.wait = 0 then 0 else e.signalsTo key
    let s := if n = 0 then s
      else
        let f := s.flagAt key
        (s.setFlag key { f with count := f.count + n }).setExec p { e with sigs := e.sigs.filter (fun y => y.1 ≠ key) }
    if op = 0x03 then
      let k := queueKey (s.qCar x) (x.f 0 6)
      let q := s.queue k
      s.setQueue k { q with ready := match q.ready with
                       | [] => []
                       | r :: rs => min r (s.orderPace p) :: rs }
    else s

/-- Whether the flag and the queue a command waits on are ready. -/
def State.waitOver (s : State) (p op : Nat) (h : Head) (w1 : Word) : Bool :=
  match s.exec? p, clsOf op w1 with
  | some e, some c =>
    let x := e.ctx p op h w1
    s.waitFlag p ((s.scopeCars x).headD (s.home p)) h.wait.toNat = .go && !c.wait s x
  | _, _ => false

/-- A waiting command goes on. -/
def State.resumeWaiting (s : State) (p op : Nat) (h : Head) (w1 : Word) : State :=
  match clsOf op w1 with
  | some c => c.resume s p op h w1
  | none => s

/-- ELASTIC_WAIT_SATISFIED: the flag or queue is ready, the hold of source 2 ends, and the command proceeds. -/
def State.elasticWait (s : State) (p : Nat) : State :=
  if s.stopped p || s.dev.safeHold || !s.hasHold p 2 then s
  else
    match (s.exec? p).bind (·.waiting) with
    | none => s
    | some (op, h, w1) =>
      let s := s.arriveFor p op h w1
      if s.waitOver p op h w1 then s.resumeWaiting p op h w1 else s



/-! Merges (R112, R113). -/

/-- A merge of one bank of the group that begins at station g completes, when its time has passed. A merge whose passes restart waits
for them (R114). -/
def State.mergeDue (s : State) (p g b : Nat) (u : Run) : State :=
  (List.range u.passes).foldl (fun s pi =>
    if pi % 2 = b && !(s.car (g / 8)).restart then
      let bk := s.bank (u.key g pi)
      match bk.st with
      | .merging off n _ =>
        if off = u.off && bk.seq = u.seq && bk.pi = pi && n ≠ 0 && n ≤ s.pace p then s.forSeq p u.seq (fun s => s.completeMerge p u g pi n)
        else s
      | _ => s
    else s) s

/-- Every merge of a caravan whose time has passed. -/
def State.dueMerges (s : State) (p c : Nat) : State :=
  (s.car c).runs.foldl (fun s u =>
    if u.s = 1 then s
    else (u.stns.filter (fun g => (u.kGroup g).head? = some g)).foldl (fun s g => (s.mergeDue p g 0 u).mergeDue p g 1 u) s) s

/-- MERGE_COMPLETE: group `grp` of a caravan, counted from the injection station (R111). -/
def State.mergeComplete (s : State) (p c b grp : Nat) : State :=
  if s.stopped p || s.dev.safeHold || !(s.caravans p).contains c then s
  else (s.car c).runs.foldl (fun s u =>
    if u.s = 1 || 8 ≤ grp * u.s then s else s.mergeDue p (c * 8 + (u.inj + grp * u.s) % 8) b u) s

def execMergeComplete (p : PartId) (c : CarId) (bank : Fin 2) (grp : Fin 4) (s : State) : Host.Outcome State Fault Refusal :=
  answer s (fun s => s.mergeComplete p c bank grp)

/-! Holds (R129, R153). -/

/-- Cycles of the next `n` for which a source holds: all of them while it waits for a release, else as many as it has left (R129,
R153). -/
def heldBy (hs : List Hold) (src n : Nat) : Nat :=
  (hs.filter (·.src = src)).foldl (fun a h => max a (min n (h.left.getD n))) 0

/-- `n` cycles in holds: they count in all and for each source in force, and holds of known length run down. -/
def State.runDown (s : State) (p n : Nat) : State :=
  let hs := (s.part p).holds
  let s := s.count (Csr.prtHold_holdCycles p) n
  let s := ((hs.map (·.src)).eraseDups).foldl (fun s k => s.count (Csr.prtHoldSrc_cycles p k) (heldBy hs k n)) s
  s.updPart p (fun x =>
    let left := (x.holds.map (fun h => { h with left := h.left.map (· - n) })).filter (·.left ≠ some 0)
    { x with holds := left, merged := x.merged && !left.isEmpty })

/-- Whether the cause of a hold of source 1 is still there: a SWAP that waits, a COMMIT that waits for an UPDATE, an UPDATE that
waits for its gradient, data that a waiting command reads still to land. -/
def State.lateStill (s : State) (p : Nat) : Bool :=
  match s.exec? p with
  | none => false
  | some e =>
    (s.caravans p).any (fun c => (s.car c).swapOff.isSome) || (e.committed && e.upds.any (fun u => !u.finished)) || s.updWaits p ||
    (match e.waiting with
     | some (op, h, w1) =>
       match clsOf op w1 with
       | some c => c.inFlight s (e.ctx p op h w1) e
       | none => false
     | none => false)

/-- HOLD_END. A hold of unknown length is released when its cause is over, and one of known length runs out; at the end of merged holds
the units that lost fewer cycles stop for the difference `k` under source 8. Restarted and remnant passes are over with a hold of
source 4 (R84, R88). A wait on a flag or queue ends as ELASTIC_WAIT_SATISFIED; the debug halt and an engine's wait end with the
operation that raised them. A stopped partition stays held (R136). -/
def State.holdEnd (s : State) (p src k : Nat) : State :=
  if s.stopped p && (s.exec? p).isSome then s
  else
    let hs := (s.part p).holds.filter (·.src = src)
    match (hs.find? (·.left.isNone)).orElse (fun _ => hs.head?) with
    | none => s
    | some h =>
      match h.left with
      | some n => s.realign (s.runDown p n) p k
      | none =>
        match src with
        | 1 =>
          if s.lateStill p then s
          else
            let s' := s.realign (s.unhold p 1) p k
            match (s'.exec? p).bind (·.waiting) with
            | some (op, h, w1) => if s'.hasHold p 2 then s' else s'.resumeWaiting p op h w1
            | none => s'
        | 2 => s.realign (s.elasticWait p) p k
        | 4 =>
          let s' := (s.caravans p).foldl (fun s c => s.rerunCar p c) s
          let s' := match (s'.part p).prev with
            | some q => s'.forSeq p q.seq (fun s => s.endRemnants p)
            | none => s'
          s.realign ((s'.endRemnants p).unhold p 4) p k
        | _ => s

def execElasticWaitSatisfied (p : PartId) (s : State) : Host.Outcome State Fault Refusal :=
  answer s (fun s => s.realignFree (s.elasticWait p) p)

def execHoldEnd (p : PartId) (src : Fin 11) (realign : Fin 25) (s : State) : Host.Outcome State Fault Refusal :=
  answer s (fun s => s.holdEnd p src realign)

end Sys2Proof.Machine
end

