-- ==== Sys2Proof/Machine/Scan.lean ====
section
/-!
DEFINITION. The drover ahead of the issue pointer (R166, R203, R213 to R215, R235): the stream's words, the scan up to a dependence
mark, and DRV_ISSUE.
-/
namespace Sys2Proof.Machine

/-- A scanned command: offset, opcode, fields. -/
structure Scanned where
  off : Nat
  op : Nat
  h : Head
  w1 : Word
  deriving DecidableEq, Repr

def State.scanAt (s : State) (p : Nat) (e : Exec) (off : Nat) : Option Scanned :=
  (s.streamWords p e off).bind (fun (w0, w1) => some ⟨off, (w0.extractLsb' 56 8).toNat, decodeHead w0, w1⟩)

/-- Commands without a unit never keep a scan waiting (R159). -/
def unitless (op : Nat) : Bool := op = 0x00 || op = 0x01 || op = 0x0F || op = 0x50

/-- A command that the drover finds it cannot go past (R186, R203): an undefined opcode, an extent that fails its windows, a drover
command that fails another check, but for a bank that feeds, which only its issue decides (R470). -/
def State.scanFails (s : State) (p : Nat) (e : Exec) (k : Scanned) : Bool :=
  let x : Ctx := ⟨p, k.op, k.h, k.w1.toNat, k.off, e.hdr⟩
  match clsOf k.op k.w1 with
  | none => true
  | some c =>
    if k.op = 0x40 || k.op = 0x41 then (c.word s e x).isSome || (drvBody s x).isSome
    else ((c.body s x).map (fun f => f.1 = 0x11 || f.1 = 0x12)).getD false

/-- The drover commands of caravan c that its drover may fetch for, in stream order, how many commands it scans, and whether it
stops at a mark (R213): `fuel` commands ahead at most, up to a dependence mark or MARK that an earlier uncompleted command of its
scope keeps in force. `busy`: caravans with an earlier uncompleted command; `swapped`: a SWAP of this caravan has not taken
effect, so that role-view transfers of what follows it wait (R200). -/
def State.scan (s : State) (p c : Nat) (e : Exec) : Nat → Nat → List Nat → Bool → List (Scanned × Bool) × Nat × Bool
  | 0, _, _, _ => ([], 0, false)
  | fuel + 1, off, busy, swapped =>
    match s.scanAt p e off with
    | none => ([], 0, false)
    | some k =>
      let x : Ctx := ⟨p, k.op, k.h, k.w1.toNat, off, e.hdr⟩
      let cs := s.scopeCars x
      if (k.h.dep || k.op = 0x50) && cs.contains c && cs.any (fun d => busy.contains d) then ([], 0, true)
      else if k.op = 0x0F then ([], 1, false)
      else if s.scanFails p e k then ([], 0, false)
      else
        let mine := cs.contains c && (k.op = 0x40 || k.op = 0x41)
        let (rest, n, m) :=
          if mine && (drvLate s x).isSome then ([], 0, false)
          else s.scan p c e fuel (off + 16) (if unitless k.op then busy else busy ++ cs) (swapped || (k.op = 0x42 && cs.contains c))
        ((if mine then [(k, swapped)] else []) ++ rest, n + 1, m)

/-- Caravans with a command in flight. -/
def State.busyCars (s : State) (p : Nat) (e : Exec) : List Nat :=
  e.cmds.flatMap (fun m => s.scopeCars (m.ctx p e.hdr))

/-- Whether a step of a command touches the role view. -/
def State.roleStep (s : State) (p : Nat) (n : Next) : Bool :=
  let role (va : Nat) : Bool := (s.vaPa p va).bind regionOf = some .role
  match n with
  | .fetch x _ _ => role x.src || role x.dst
  | .hit x _ => role x.src || role x.dst
  | _ => false

/-- Whether there is something to do now. -/
def Next.ready : Next → Bool
  | .done | .stall => false
  | _ => true

/-- The running drover command of a caravan. -/
def Exec.drvCmd (e : Exec) (c : Nat) : Option Cmd :=
  e.cmds.find? (fun m => (m.op = 0x40 || m.op = 0x41) && m.units.contains (droverUnit c) && m.start.isSome && m.done.isNone)

/-- The running command's next step. -/
def State.drvRun (s : State) (p c : Nat) (m : Cmd) : State :=
  let (s, q, _) := s.drvStep p c m.off m.op m.w1 m.descs m.drv false
  (s.updExec p (fun e => { e with cmds := e.cmds.map (fun k => if k.off = m.off then { k with drv := q } else k) })).drvDone p c

/-- The descriptors of a command scanned ahead. -/
def State.scanDescs (s : State) (p : Nat) (e : Exec) (k : Scanned) : List (List Byte) :=
  (drvFields k.op).map (fun l => s.vbytes p (s.homeStn p) (hdrAt e.hdr 16 8 + 64 * bitsOf k.w1.toNat l 12) 64)

/-- The next step for a command scanned ahead of the issue pointer, the first that has one (R214). -/
def State.drvAhead (s : State) (p c : Nat) (e : Exec) (ks : List (Scanned × Bool)) : State :=
  let at_ (k : Scanned) : Ahead := ((s.car c).ahead.find? (·.off = k.off)).getD ⟨k.off, DrvProg.start, []⟩
  match ks.find? (fun (k, swapped) =>
    let n := s.drvNext p c k.op k.w1 (s.scanDescs p e k) (at_ k).prog
    n.ready && !(swapped && s.roleStep p n)) with
  | none => s
  | some (k, _) =>
    let a := at_ k
    let (s, q, ws) := s.drvStep p c k.off k.op k.w1 (s.scanDescs p e k) a.prog true
    s.updCar c (fun x => { x with ahead := ⟨k.off, q, a.wrote ++ ws⟩ :: x.ahead.filter (·.off ≠ k.off) })

/-- One step of a caravan's drover in the running order (R213 to R218): it scans, and then takes the running command's next
transfer, or the next of a command scanned ahead. At 512 outstanding scanning goes on and issue waits (R215). -/
def State.drvAct (s : State) (p c : Nat) (e : Exec) : State :=
  let stop := s.markAt p c e
  let (ks, n, mark) :=
    if e.ended then ([], 0, false)
    else if stop.isSome then ([], 0, true)
    else s.scan p c e 1024 e.off (s.busyCars p e) (s.swapWaits p e c)
  let s := (s.setFld (Csr.drvStatus_atMark c) (boolNat mark)).setFld (Csr.drvStatus_scannedAhead c) n
  match (e.drvCmd c).filter (fun m => (stop.map (fun o => decide (m.off < o))).getD true &&
    (s.drvNext p c m.op m.w1 m.descs m.drv).ready) with
  | some m => s.drvRun p c m
  | none => s.drvAhead p c e ks

/-- Whether a partition's drovers send nothing: it is stopped, suspended, in safe hold, or held for anything but late data, which
the drovers themselves bring (R128, R129, R235; log entry 44). -/
def State.drvStill (s : State) (p : Nat) : Bool :=
  s.dev.safeHold || (s.part p).suspended || s.stopped p || (s.part p).holds.any (fun h => h.src ≠ 1 && h.src ≠ 2)

/-- DRV_ISSUE: a step of a caravan's drover, for the order an interleaved one has overtaken as long as its command runs (R220). -/
def State.drvIssue (s : State) (c : Nat) : State :=
  match s.partOfCar c with
  | none => s
  | some p =>
    if s.drvStill p then s
    else
      match s.exec? p with
      | none => s
      | some e =>
        match (s.earlier p e).find? (fun m => (m.op = 0x40 || m.op = 0x41) && m.units.contains (droverUnit c)) with
        | some m => s.forSeq p (((s.part p).prev.map (·.seq)).getD 0) (fun s => s.drvRun p c m)
        | none => s.drvAct p c e

def execDrvIssue (c : CarId) (s : State) : Host.Outcome State Fault Refusal := answer s (fun s => s.drvIssue c)

end Sys2Proof.Machine
end

