-- ==== Sys2Proof/Machine/Scout.lean ====
section
/-!
DEFINITION. The scout port (R460 to R466): the TAP's instructions, debug tokens, halting and stepping, breakpoints, and access to
memory and registers.
-/
namespace Sys2Proof.Machine

/-- The TAP answers while the module is powered (R29, R30). -/
def State.tap (s : State) (f : State → State) : State := if s.dev.pwrgd then f s else s

def execBypass (s : State) : Host.Outcome State Fault Refusal := answer s (fun s => s.tap (fun s => s.updScout (fun x => { x with ir := 0 })))

/-- IDCODE (R460). -/
def idcodeValue : Nat := if Config.isB0 then 0x10E06B47 else 0x00E06B47

def execIdcode (s : State) : Host.Outcome State Fault Refusal :=
  answer s (fun s => s.tap (fun s => (s.updScout (fun x => { x with ir := 1 })).emit (.tdo 32 idcodeValue)))

/-- SAMPLE/PRELOAD: the boundary is captured and the register preloaded; the BSDL stands outside the model (log entry 7). -/
def execSamplePreload (v : Word) (s : State) : Host.Outcome State Fault Refusal :=
  answer s (fun s => s.tap (fun s =>
    let (n, s) := s.draw
    (s.updScout (fun x => { x with ir := 2, boundary := v })).emit (.tdo 64 (Config.boundaryCapture n).toNat)))

/-- A token with the device right is in force. -/
def State.deviceToken (s : State) : Bool :=
  (List.range 8).any (fun p => s.flag1 (Csr.sctStatus_unlocked p) && bitOf (s.fld (Csr.sctStatus_rights p)) 5)

/-- EXTEST: only under a device token and while no order runs. -/
def execExtest (v : Word) (s : State) : Host.Outcome State Fault Refusal :=
  answer s (fun s => s.tap (fun s =>
    if s.deviceToken && (List.range 8).all (fun p => (s.part p).exec.isNone) then s.updScout (fun x => { x with ir := 3, boundary := v })
    else s))

def execScout (s : State) : Host.Outcome State Fault Refusal := answer s (fun s => s.tap (fun s => s.updScout (fun x => { x with ir := 4 })))

/-! The data register (R462). -/

/-- A scan of the data register: the previous operation's status and data go out, and this operation's are captured. -/
def State.tdr (s : State) (op arg data status : Nat) : State :=
  (s.emit (.tdo 128 s.scout.dr.toNat)).updScout (fun x => { x with
    status := status, dr := BitVec.ofNat 128 (op + status * 2 ^ 8 + arg % 2 ^ 48 * 2 ^ 16 + data % 2 ^ 64 * 2 ^ 64) })

/-- The partition whose token is in force on the port. -/
def State.unlocked (s : State) : Option Nat := s.scout.part.filter (fun p => s.flag1 (Csr.sctStatus_unlocked p))
def State.tokenRight (s : State) (p bit : Nat) : Bool := bitOf (s.fld (Csr.sctStatus_rights p)) bit
def State.halted (s : State) (p : Nat) : Bool := s.flag1 (Csr.sctStatus_halted p)

/-- Reaching a partition wakes it from P2 (R416). -/
def State.wakeUp (s : State) (p : Nat) : State := if s.fld (partState p) = 2 then s.setPartState p 1 else s

/-- An operation under a right: locked is status 1, the right missing status 2. `f` answers the new state, data and status. -/
def State.scoutOp (s : State) (op arg right : Nat) (f : Nat → State → State × Nat × Nat) : State :=
  if !s.dev.pwrgd || s.scout.ir ≠ 4 then s
  else
    match s.unlocked with
    | none => s.tdr op arg 0 1
    | some p =>
      if !s.tokenRight p right then s.tdr op arg 0 2
      else
        let (t, data, st) := f p (s.wakeUp p)
        t.tdr op arg data st

/-- Unlock with a token's two words (R461, R462): the code must be right and the token not expired. -/
def State.unlock (s : State) (w0 w1 : Word) (now : Nat) : State :=
  if !s.dev.pwrgd || s.scout.ir ≠ 4 then s
  else
    let p := bitsOf w0.toNat 0 3
    let expiry := bitsOf w0.toNat 16 32
    if s.dev.started && w1 = Config.tokenMac s.dev.starts w0 && now < expiry && !(s.caravans p).isEmpty then
      let s := ((s.setFld (Csr.sctStatus_unlocked p) 1).setFld (Csr.sctStatus_rights p) (bitsOf w0.toNat 8 8)).updScout (fun x =>
        { x with part := some p, expiry := expiry })
      (s.wakeUp p).tdr 2 0 w1.toNat 0
    else s.tdr 2 0 w1.toNat 1

def execScoutUnlock (w0 w1 : Word) (now : BitVec 32) (s : State) : Host.Outcome State Fault Refusal :=
  answer s (fun s => s.unlock w0 w1 now.toNat)

/-- Halt a partition: a hold of source 9 (R463). -/
def State.haltNow (s : State) (p : Nat) : State :=
  ((s.hold p 9 none).setFld (Csr.sctStatus_halted p) 1).updPart p (fun x => { x with stepLeft := none })

def execScoutHalt (s : State) : Host.Outcome State Fault Refusal :=
  answer s (fun s => s.scoutOp 0x10 0 0 (fun p s => (if s.halted p then s else s.haltNow p, 0, 0)))

def execScoutResume (s : State) : Host.Outcome State Fault Refusal :=
  answer s (fun s => s.scoutOp 0x11 0 0 (fun p s =>
    (((s.release p 9).setFld (Csr.sctStatus_halted p) 0).updPart p (fun x => { x with stepLeft := none }), 0, 0)))

/-- Step: the halt is released for n paces (R463). A step in progress is busy. -/
def execScoutStep (n : BitVec 48) (s : State) : Host.Outcome State Fault Refusal :=
  answer s (fun s => s.scoutOp 0x12 n.toNat 0 (fun p s =>
    if n.toNat = 0 || 65535 < n.toNat then (s, 0, 6)
    else if (s.part p).stepLeft.isSome then (s, 0, 5)
    else if !s.halted p then (s, 0, 3)
    else (s.updPart p (fun x => { x with stepLeft := some n.toNat }), 0, 0)))

/-- Set a breakpoint (R464): kind 3 sets nothing. -/
def execScoutSetBreakpoint (arg : BitVec 48) (v : Word) (s : State) : Host.Outcome State Fault Refusal :=
  answer s (fun s => s.scoutOp 0x20 arg.toNat 1 (fun p s =>
    if bitsOf arg.toNat 2 2 = 3 then (s, 0, 6)
    else (s.updPart p (fun x => { x with bps := x.bps.set (bitsOf arg.toNat 0 2) (some (bitsOf arg.toNat 2 2, v)) }), 0, 0)))

def execScoutClearBreakpoint (arg : BitVec 48) (s : State) : Host.Outcome State Fault Refusal :=
  answer s (fun s => s.scoutOp 0x21 arg.toNat 1 (fun p s =>
    (s.updPart p (fun x => { x with bps := x.bps.set (bitsOf arg.toNat 0 2) none }), 0, 0)))

/-- The eight bytes at an address, if the windows allow them and the spill tier is not out of reach (R414, R465, R471). -/
def State.scoutPlaces (s : State) (p va : Nat) (wr : Bool) : Option (List Nat) :=
  if (s.rowCheck p 0 va 8 wr).isSome then none
  else ((List.range 8).mapM (fun i => s.place p (s.homeStn p) (va + i))).filter (fun pas => !pas.any s.tierGone)

/-- A memory operation stops only at a physical hole, which R202 keeps out of windows. -/
def State.scoutMem (s : State) (va : Nat) (wr : Bool) (f : State → State) : Host.Outcome State Fault Refusal :=
  match s.unlocked with
  | none => answer s f
  | some p =>
    match s.vaPa p va with
    | some pa => if (regionOf pa).isNone && (s.rowCheck p 0 va 8 wr).isNone && s.dev.pwrgd && s.scout.ir = 4 &&
        s.tokenRight p (if wr then 3 else 2) && (!wr || s.halted p) then .fault (.physicalHole pa) else answer s f
    | none => answer s f

def execScoutMemoryRead (va : BitVec 48) (s : State) : Host.Outcome State Fault Refusal :=
  s.scoutMem va.toNat false (fun s => s.scoutOp 0x30 va.toNat 2 (fun p s =>
    match s.scoutPlaces p va.toNat false with
    | some pas => (s.eccWords pas, leNat (pas.map s.byte), 0)
    | none => (s, 0, 4)))

def execScoutMemoryWrite (va : BitVec 48) (v : Word) (s : State) : Host.Outcome State Fault Refusal :=
  s.scoutMem va.toNat true (fun s => s.scoutOp 0x31 va.toNat 3 (fun p s =>
    if !s.halted p then (s, v.toNat, 3)
    else
      match s.scoutPlaces p va.toNat true with
      | some pas => ((pas.zip (leBytes 8 v.toNat)).foldl (fun s (pa, b) => s.setByte pa b) s, v.toNat, 0)
      | none => (s, v.toNat, 4)))

/-- A register as the partition's BAR0 sees it. -/
def execScoutRegisterRead (off : BitVec 48) (s : State) : Host.Outcome State Fault Refusal :=
  answer s (fun s => s.scoutOp 0x40 off.toNat 4 (fun p s =>
    (s, (s.readReg (some p) ((List.range 8).filter (fun f => bitOf (s.fld (Csr.prtGrant_functions p)) f)) off.toNat).toNat, 0)))

def execScoutRegisterWrite (off : BitVec 48) (v : Word) (s : State) : Host.Outcome State Fault Refusal :=
  answer s (fun s => s.scoutOp 0x41 off.toNat 4 (fun p s =>
    (s.regWrite (.scout (Fin.ofNat 8 p)) off.toNat v, v.toNat, 0)))

/-- SCT_STATUS of the unlocked partition. -/
def execScoutStatus (s : State) : Host.Outcome State Fault Refusal :=
  answer s (fun s =>
    if !s.dev.pwrgd || s.scout.ir ≠ 4 then s
    else
      match s.unlocked with
      | none => s.tdr 0x50 0 0 1
      | some p => s.tdr 0x50 0 (s.reg (Csr.sctStatus p)).toNat 0)

/-- A token expires, or TRST_L is asserted (R462). -/
def execTokenExpire (p : PartId) (s : State) : Host.Outcome State Fault Refusal :=
  answer s (fun s => if s.flag1 (Csr.sctStatus_unlocked p) then s.endUnlock p else s)

end Sys2Proof.Machine
end

