-- ==== Sys2Proof/Machine/Pace.lean ====
section
/-!
DEFINITION. One cycle of a partition (R121, R122, R125, R129, R158): a cycle in a hold, or one pace: completions, issue from
the stream, the route, merges and drains, breakpoints and stepping (R463, R464), and the physical events of the pace.
-/
namespace Sys2Proof.Machine

/-! Breakpoints (R464). -/

/-- Every descriptor a command names, those of its records included (R169, R286). -/
def State.namedDescs (s : State) (x : Ctx) : List Nat :=
  let own := x.descIdxs
  let more :=
    if x.op = 0x10 then
      let r := parseRec (s.record x.p x.hdr x.pRec)
      [r.mask, r.resume, r.rsc, r.csc]
    else if x.op = 0x79 then
      let r := parseRule (s.record x.p x.hdr (x.f 20 12))
      r.freeze :: r.planes.map (·.1)
    else []
  (own ++ more).filter (· ≠ 0)

/-- Whether an extent holds an address (R207). -/
def Desc.holds (d : Desc) (va : Nat) : Bool :=
  (List.range d.logRows).any (fun j => d.rowVa j ≤ va && va < d.rowVa j + d.rowBytes)

/-- Breakpoints of a partition that a test meets. -/
def State.bpHits (s : State) (p : Nat) (f : Nat → Nat → Bool) : Nat :=
  ((s.part p).bps.filter (fun b => match b with
    | some (k, v) => f k v.toNat
    | none => false)).length

/-- Halt at a place of the current pace, unless the partition has already halted there: place 0 is the pace itself, offset
+ 1 a command. -/
def State.breakAt (s : State) (p place hits : Nat) : Option State :=
  let now := s.pace p
  let past := match (s.part p).bpAt with
    | some (q, k) => q = now && place ≤ k
    | none => false
  if hits = 0 || past then none
  else some (((s.haltNow p).count (Csr.sctStatus_breakHits p) hits).updPart p (fun x => { x with bpAt := some (now, place) }))

/-- Kind 0: an order pace. -/
def State.breakPace (s : State) (p : Nat) : Option State :=
  s.breakAt p 0 (s.bpHits p (fun k v => k = 0 && v = s.orderPace p))

/-- Kinds 1 and 2: a command's offset, and an address among its descriptors' extents. -/
def State.breakCmd (s : State) (x : Ctx) : Option State :=
  s.breakAt x.p (x.off + 1) (s.bpHits x.p (fun k v =>
    (k = 1 && v = x.off) || (k = 2 && (s.namedDescs x).any (fun i => (s.desc x.p x.hdr i).holds v))))

/-! Issue (R157 to R160). -/

/-- The next command of the stream, when the issue point is open: a breakpoint, an undefined opcode (code 0x07), or its
issue. None when no command may issue. -/
def State.issueOne (s : State) (p : Nat) : Option State :=
  if !s.issuable p then none
  else
    match s.exec? p with
    | none => none
    | some e =>
      match s.scanAt p e e.off with
      | none => none
      | some k =>
        let x := e.ctx p k.op k.h k.w1
        (s.breakCmd x).orElse fun _ =>
        (s.poisonCheck p (manUnit s p) e.off [(s.homeStn p, hdrAt e.hdr 0 8 + e.off, 16)]).orElse fun _ =>
        match clsOf k.op k.w1 with
        | none => some (s.raise p (manUnit s p) 0x07 e.off k.op)
        | some c => some (if k.op = 0x41 then s.offerGather p k.h k.w1 else c.offer s p k.op k.h k.w1)

/-- Whether the command at the issue point is an ADVANCE or END, the last of its pace (R158). -/
def State.lastOfPace (s : State) (p : Nat) : Bool :=
  match s.exec? p with
  | none => true
  | some e => ((s.scanAt p e e.off).map (fun k => k.op = 0x01 || k.op = 0x0F)).getD true

/-- Issue every command of the current pace, in stream order. After a command that faults, the others of the pace are still met, so
that what else would fault is compared and counted (R152). -/
def State.issueAll (p : Nat) : Nat → State × State → State × State
  | 0, x => x
  | n + 1, x =>
    match x.2.issueOne p with
    | none => x
    | some t =>
      if t.stopped p then
        let y := State.also p x (fun _ => t)
        if x.2.lastOfPace p then y
        else State.issueAll p n (y.1, x.2.updExec p (fun e => { e with off := e.off + 16 }))
      else State.issueAll p n (State.also p x (fun _ => t))

/-! Physical events of a pace. -/

def BankSt.isFilling : BankSt → Bool
  | .filling _ => true
  | _ => false

/-- Stream offset of the product at a station, else of the oldest command in flight. -/
def State.offAt (s : State) (p c i : Nat) : Nat :=
  match (s.car c).tiles.getD i none with
  | some t => t.run
  | none => ((s.exec? p).map (fun e => (e.cmds.head?.map (·.off)).getD e.off)).getD 0

/-- A station that a tile has reached before its bank of a pass fills: a row of that bank's leg is in the array, or the tile is in the landing
buffer (R88). -/
def Car.busyAt (k : Car) (i b : Nat) : Bool :=
  k.pipe.any (fun f => f.stn = i && f.pi % 2 = b) || (k.tiles.getD i none).isSome || (k.incoming.getD i none).isSome

/-- One physical event (R88, R90, R114, R133, R374, R376). An upset of a sum is met as its row reaches the tally, and a late bank before the
pace. A stuck or again poisoned cell is met in a pace or while passes restart. -/
def State.paceEvent (s : State) (p : Nat) (ev : PaceEvent) : State :=
  let own (c : CarId) : Bool := (s.caravans p).contains c.val && !s.stopped p
  let g (c : CarId) (i : StnId) : Nat := c.val * 8 + i.val
  let lost (s : State) (c : CarId) : State := s.eccSram (c.val / 12) 0 0 1
  match ev with
  | .upset .. | .stateCopy .. | .lateBank .. => s
  | .midPass c i b =>
    if own c then
      match (blockers (g c i) b.val true 0 ++ blockers (g c i) b.val false 0).find? (fun k => (s.bank k.1).st.isFilling) with
      | some k => (lost s c).midPass p k.1
      | none => if (s.car c.val).busyAt i.val b.val then (lost s c).failCar p c.val else s
    else s
  | .stuckRow c i m =>
    let u := rowUnit c i m
    if own c then (((lost s c).repairRow c i m).hold p 4 none).raise p u 0x70 (s.offAt p c i) (u + 3 * 2 ^ 16) else s
  | .storedTally c i b row col =>
    if own c then (lost s c).raise p (tallyUnit (g c i)) 0x71 (s.offAt p c i) (b.val + row.val * 2 + col.val * 2 ^ 6 + 3 * 2 ^ 48) else s
  | .storedLanding c i slot byte =>
    if own c then (lost s c).raise p (arrayUnit (g c i)) 0x71 (s.offAt p c i) (slot.val + byte.toNat * 4 + 4 * 2 ^ 48) else s
  | .mergeError c i =>
    match (s.car c.val).runs.find? (fun u => u.s ≠ 1 && u.stns.contains (g c i) &&
        (List.range 2).any (fun b => (s.bank (u.key (g c i) b)).st.merges)) with
    | none => s
    | some u =>
      if own c then
        let keys := ((u.kGroup (g c i)).flatMap (fun h => [u.key h 0, u.key h 1])).filter (fun k => (s.bank k).st.merges)
        (s.count (Csr.stnMerge_mergeRestarts c.val i.val) 1).poisonGroup p c.val keys
      else s
  | .rateMatch => if s.spans p && !s.stopped p then s.hold p 7 (some 1) else s
  | .corrected c one two => if own c then s.eccSram (c.val / 12) one two 0 else s
  | .decay w =>
    let kept : Bool := match regionOf (w * 8) with
      | some .hbm | some .depot | some .cxl => true
      | _ => false
    if kept && !s.poison.contains w then { s with poison := w :: s.poison } else s
  | .engineEcc h one two bad => s.eccSram h one two bad
  | .unreadable c i b =>
    if own c && (s.part p).preReq.isSome then s.updExec p (fun e => { e with saveBad := e.saveBad ++ [(c, i, b)] }) else s

/-- Whether an event can be met while passes restart under a hold of source 4 (R88, R376). -/
def PaceEvent.inRestart : PaceEvent → Bool
  | .midPass .. | .stuckRow .. | .storedTally .. | .storedLanding .. | .corrected .. | .unreadable .. | .decay .. | .engineEcc .. => true
  | _ => false

/-- A station must change its satchel bank at a visit boundary and the new bank is not full: a hold of source 1 before the pace
executes (R76). -/
def State.lateAt (s : State) (p : Nat) (ev : List PaceEvent) : Bool :=
  ev.any (fun x => match x with
    | .lateBank c i =>
      let k := s.car c.val
      (s.caravans p).contains c.val && k.atBoundary (s.pace p) && (s.mustChange p c.val (s.inject p c.val k.shift).2 i.val).isSome
    | _ => false)

/-! The pace. -/

/-- The running mortar commands' units of work of this pace (R141), those of an order that an interleaved one has overtaken among
them. -/
def State.mortarTicks (s : State) (p : Nat) : List (State → State) :=
  let of (e : Exec) : List (State → State) := (e.cmds.filter (fun m => isMortar m.op)).filterMap (fun m => m.start.map (fun q s =>
    s.forSeq p e.seq (fun s => if s.stopped p then s else s.mortarTick (m.ctx p e.hdr) (MDescs.of m.descs) q)))
  ((s.part p).prev.map of).getD [] ++ ((s.exec? p).map of).getD []

/-- Every unit executes the pace, and the pace count rises by one (R121, R125). Commands that nothing orders and that write the same
bytes leave them undefined (R195): here the unit that comes last in this order writes last (DESIGN CHOICE, log entry 49). -/
def State.runUnits (p : Nat) (ev : List PaceEvent) (x : State × State) : State :=
  let x := State.also p x (fun s => s.upsetCopies p ev)
  let x := State.together p (ev.map (fun v s => s.paceEvent p v)) x
  let x := State.together p (x.2.mortarTicks p) x
  let (s, _) := State.together p ((x.2.caravans p).map (fun c s => ((s.caravanPace p c ev).dueMerges p c).dueDrains p c)) x
  if s.stopped p then s
  else
    let s := s.setReg (Csr.prtPace p) (BitVec.ofNat 64 (s.pace p + 1))
    s.updPart p (fun x => { x with stepLeft := match x.stepLeft with
                              | some n => if n ≤ 1 then none else some (n - 1)
                              | none => none })

/-- Signals arrive, due commands complete. -/
def State.settleWith (p : Nat) (x : State × State) : State × State :=
  let x := State.also p x (fun s => (s.matureSignals p).completePrev p)
  let x := State.together p ((x.2.dueCmds p).map (fun m s => s.completeCmd p m)) x
  State.also p x (fun s => s.startPending p)

def State.settle (s : State) (p : Nat) : State := (State.settleWith p (s, s)).1

/-- The order that runs is over: only ORDER_COMPLETE is left. -/
def State.finished (s : State) (p : Nat) : Bool :=
  ((s.exec? p).map (fun e => e.ended && e.cmds.isEmpty)).getD true && (s.part p).prev.isNone

/-- One pace when no hold is in force: what is due completes, the commands of the pace issue, the units execute it. A hold on the
way stops before the units do; a fault stops the order once everything the pace detects is compared (R152). -/
def State.runPace (s : State) (p : Nat) (ev : List PaceEvent) : State :=
  match s.breakPace p with
  | some s => s
  | none =>
    let x := State.settleWith p (s, s)
    if x.2.held p || x.2.finished p then x.1
    else if x.2.lateAt p ev then (State.also p x (fun s => s.hold p 1 none)).1
    else
      let n := ((s.exec? p).map (fun e => hdrAt e.hdr 8 4 / 16 + 1)).getD 0
      let x := State.issueAll p n x
      if x.2.held p || x.2.finished p then x.1
      else if x.2.updWaits p then (State.also p x (fun s => s.hold p 1 none)).1
      else State.runUnits p ev x

/-- Holds that stop the next pace: all but the debug halt while a step runs (R463). -/
def State.blocked (s : State) (p : Nat) : Bool :=
  (s.part p).holds.any (fun h => !(h.src = 9 && (s.part p).stepLeft.isSome))

/-- A step runs under the debug halt, which stays in force (R463). -/
def State.stepPace (s : State) (p : Nat) (ev : List PaceEvent) : State :=
  if (s.part p).stepLeft.isSome && s.hasHold p 9 then
    let s := (s.unhold p 9).runPace p ev
    if s.hasHold p 9 then s else s.updPart p (fun x => { x with holds := x.holds ++ [⟨9, none⟩] })
  else s.runPace p ev

/-- A cycle of the interval over which the power cap spaces a partition's holds evenly: the next one, 64 cycles long, when it is due
(R421). -/
def State.capTick (s : State) (p : Nat) : State :=
  let x := s.part p
  if x.capLeft = 0 then s
  else if x.capNext ≠ 0 then s.updPart p (fun x => { x with capNext := x.capNext - 1 })
  else ((s.updPart p (fun x => { x with capLeft := x.capLeft - 1, capNext := x.capEvery - 1 })).hold p 6 (some 64)).count
    (Csr.cprShare_capHoldCycles p) 64

/-- PACE_EXECUTE: one cycle of a partition. Nothing happens in safe hold, in a suspended partition, or after a fault; an idle
partition only counts its holds. -/
def State.paceExecute (s : State) (p : Nat) (ev : List PaceEvent) : State :=
  let s := s.capTick p
  let x := s.part p
  if s.dev.safeHold || x.suspended || ((x.prev.map (·.fault.isSome)).getD false) || ((x.exec.map (·.fault.isSome)).getD false) then s
  else if s.blocked p then
    let s := if s.hasHold p 4 then (State.together p ((ev.filter PaceEvent.inRestart).map (fun v s => s.paceEvent p v)) (s, s)).1 else s
    let s := s.settle p
    s.realignFree (s.runDown p 1) p
  else if x.exec.isNone then s
  else s.stepPace p ev

def execPaceExecute (p : PartId) (ev : List PaceEvent) (s : State) : Host.Outcome State Fault Refusal :=
  answer s (fun s => s.paceExecute p ev)

end Sys2Proof.Machine
end

