-- ==== Sys2Proof/Machine/Toll.lean ====
section
/-!
DEFINITION. Tolls and mesh events (R239, R240, R249 to R257, R378): grants, starvation, stragglers, and routers that stop
answering.
-/
namespace Sys2Proof.Machine

/-- Requesters of a toll that have a request and are not masked (R251, R256), in round-robin order after the last one
granted. Number 39 never requests (R250). -/
def tollOrder (last : Nat) (req masked : Nat) : List Nat :=
  ((List.range 40).map (fun i => (last + 1 + i) % 40)).filter (fun r => r ≠ 39 && bitOf req r && !bitOf masked r)

/-- Whether a packet in the receive buffer of port i could take a VC of port o now: its next hop is there, and that VC is free and holds a
credit (R341). -/
def State.couldLeave (s : State) (i o : Nat) (k : Packet) : Bool :=
  let k' := s.leg2 k
  s.portTo k'.target = some o && (s.port o).opens (s.nextVc i o k (k' ≠ k))

/-- A requester may ask the egress toll of port o (R250, R341): a packet of its own owns a VC of the port, or could take it, and the VC holds
a credit. A packet of this device is not told by the unit that sent it, and link control needs no credit. -/
def State.asksEgress (s : State) (o r : Nat) : Bool :=
  let y := s.port o
  let i := r - 32
  let owns (mine : Option Nat → Bool) : Bool := y.owners.any (fun q => mine (q.src.map (·.1)) && 0 < y.room q.pkt.vc)
  if r = 38 then true
  else if r < 32 then owns Option.isNone || y.txq.any (fun k => y.opens k.vc)
  else owns (· = some i) || (s.port i).queue.any (s.couldLeave i o)

/-- A requester may have a request at a toll: at the six egress tolls only as R341 says. -/
def State.tollAsks (s : State) (t r : Nat) : Bool := if 96 ≤ t && t < 102 then s.asksEgress (t - 96) r else true

/-- The beats after which a grant ends at the latest: TOL_CFG.BURST as the decision finds it, 0 as 1 and above 4,096 as 4,096
(R251, R257, R258). -/
def State.burst (s : State) (t : Nat) : Nat := max 1 (min 4096 (s.fld (Csr.tolCfg_burst t)))

/-- A toll's next decision (R251, R254, R341): the grant is counted, and so is a wait of at least one beat before it; an owner that the
burst limit cut off and that is granted again at once has not waited (R257). -/
def State.tollGrant (s : State) (t req waitNs : Nat) : State :=
  match (tollOrder (s.toll t).last req (s.tollMask t)).filter (s.tollAsks t) with
  | [] => s.setToll t { s.toll t with owner := none, limit := 0 }
  | r :: _ =>
    let again := (s.toll t).owner = some r
    let s := (s.setToll t ⟨r, some r, s.burst t⟩).count (Csr.tolReq_grants t r) 1
    if waitNs = 0 || again then s else (s.count (Csr.tolReq_waits t r) 1).keepMax (Csr.tolLongest_longestNs t r) (min waitNs (2 ^ 32 - 1))

def execTollGrant (t : Fin 104) (pendingReq : BitVec 40) (waitNs : Nat) (s : State) : Host.Outcome State Fault Refusal :=
  answer s (fun s => s.tollGrant t pendingReq.toNat waitNs)

/-- A request past STARVE_NS (R255): a masked requester never starves, nor does number 39, which never requests (R250), and a bit already set raises nothing again. The
event's detail names the toll and the requester (log entry 23). -/
def State.tollStarve (s : State) (t r : Nat) : State :=
  let st := s.fld (Csr.tolStarved_starved t)
  if r = 39 || bitOf (s.tollMask t) r || bitOf st r then s
  else
    let s := (s.setFld (Csr.tolStarved_starved t) (st + 2 ^ r)).emit (.toFactor 2 (t * 64 + r))
    match if r < 24 then s.partOfCar r else none with
    | some p => s.event p 2 (unitId r 0 0x10) (t + r * 2 ^ 8)
    | none => s

def execTollStarve (t : Fin 104) (r : Fin 40) (s : State) : Host.Outcome State Fault Refusal :=
  answer s (fun s => s.tollStarve t r)

/-- A multicast branch stalled past its limit (R240), in a partition that is not in a debug halt. -/
def State.straggle (s : State) (h p c : Nat) : State :=
  if !(s.caravans p).contains c || s.hasHold p 9 then s
  else
    let u := unitId c 0 0x10
    (((s.count (Csr.mshMcast_stragglerEvents h) 1).setFld (Csr.mshMcast_lastReceiver h) u).emit (.toFactor 1 u)).event p 1 u 0

def execStraggler (h : HalfId) (p : PartId) (c : CarId) (s : State) : Host.Outcome State Fault Refusal :=
  answer s (fun s => s.straggle h p c)

/-- A router that does not answer the Seal's poll is fenced, and a half none of whose routers answers is fenced whole
(R378). -/
def State.routerLost (s : State) (h r : Nat) : State :=
  let s := s.fence (unitInst h r 0x20) 0
  if s.fld (Csr.mshFault_failedRouters h) = 2 ^ 32 - 1 then s.fenceHalf h else s

def execRouterPollTimeout (h : HalfId) (r : Fin 32) (s : State) : Host.Outcome State Fault Refusal :=
  answer s (fun s => s.routerLost h r)

end Sys2Proof.Machine
end

