-- ==== Sys2Proof/Machine/Dispatch.lean ====
section
/-!
DEFINITION. One arm for each command of spec/opcode_table.json: a direct call of its meaning.
-/
namespace Sys2Proof.Machine

def exec (i : Instr) (s : State) : Host.Outcome State Fault Refusal :=
  match i with
  | .nop p h w1 => Sys2Proof.Machine.execNop p h w1 s
  | .advance p h w1 => Sys2Proof.Machine.execAdvance p h w1 s
  | .qpush p h w1 => Sys2Proof.Machine.execQpush p h w1 s
  | .qpop p h w1 => Sys2Proof.Machine.execQpop p h w1 s
  | .endCmd p h w1 => Sys2Proof.Machine.execEndCmd p h w1 s
  | .product p h w1 => Sys2Proof.Machine.execProduct p h w1 s
  | .drain p h w1 => Sys2Proof.Machine.execDrain p h w1 s
  | .evict p h w1 => Sys2Proof.Machine.execEvict p h w1 s
  | .ledgerAdd p h w1 => Sys2Proof.Machine.execLedgerAdd p h w1 s
  | .release p h w1 => Sys2Proof.Machine.execRelease p h w1 s
  | .vec p h w1 => Sys2Proof.Machine.execVec p h w1 s
  | .reduce p h w1 => Sys2Proof.Machine.execReduce p h w1 s
  | .spice p h w1 => Sys2Proof.Machine.execSpice p h w1 s
  | .sieve p h w1 => Sys2Proof.Machine.execSieve p h w1 s
  | .dropout p h w1 => Sys2Proof.Machine.execDropout p h w1 s
  | .move p h w1 => Sys2Proof.Machine.execMove p h w1 s
  | .gather p h w1 => Sys2Proof.Machine.execGather p h w1 s
  | .swap p h w1 => Sys2Proof.Machine.execSwap p h w1 s
  | .swapTakeEffect p c => Sys2Proof.Machine.execSwapTakeEffect p c s
  | .mark p h w1 => Sys2Proof.Machine.execMark p h w1 s
  | .send p h w1 => Sys2Proof.Machine.execSend p h w1 s
  | .reshard p h w1 => Sys2Proof.Machine.execReshard p h w1 s
  | .reshardEpochTakeEffect p => Sys2Proof.Machine.execReshardEpochTakeEffect p s
  | .reshardTimeout p => Sys2Proof.Machine.execReshardTimeout p s
  | .losschk p h w1 => Sys2Proof.Machine.execLosschk p h w1 s
  | .update p h w1 => Sys2Proof.Machine.execUpdate p h w1 s
  | .updateChunkApply p bucket chunk => Sys2Proof.Machine.execUpdateChunkApply p bucket chunk s
  | .commit p h w1 => Sys2Proof.Machine.execCommit p h w1 s
  | .commandComplete p off => Sys2Proof.Machine.execCommandComplete p off s
  | .elasticWaitSatisfied p => Sys2Proof.Machine.execElasticWaitSatisfied p s
  | .paceExecute p ev => Sys2Proof.Machine.execPaceExecute p ev s
  | .mergeComplete p c bank grp => Sys2Proof.Machine.execMergeComplete p c bank grp s
  | .holdEnd p src realign => Sys2Proof.Machine.execHoldEnd p src realign s
  | .drvIssue c => Sys2Proof.Machine.execDrvIssue c s
  | .drvTransferComplete c id arr => Sys2Proof.Machine.execDrvTransferComplete c id arr s
  | .transferTimeout c id dstEnd => Sys2Proof.Machine.execTransferTimeout c id dstEnd s
  | .tollGrant t pendingReq waitNs => Sys2Proof.Machine.execTollGrant t pendingReq waitNs s
  | .tollStarve t r => Sys2Proof.Machine.execTollStarve t r s
  | .straggler h p c => Sys2Proof.Machine.execStraggler h p c s
  | .stepWatchdogExpire p => Sys2Proof.Machine.execStepWatchdogExpire p s
  | .orderAccept p f ring entry => Sys2Proof.Machine.execOrderAccept p f ring entry s
  | .orderStart p => Sys2Proof.Machine.execOrderStart p s
  | .orderComplete p sinceS => Sys2Proof.Machine.execOrderComplete p sinceS s
  | .consignReadDone p => Sys2Proof.Machine.execConsignReadDone p s
  | .consignCopyTimeout p copy => Sys2Proof.Machine.execConsignCopyTimeout p copy s
  | .riskRise ceRate lrRate drRate marginK => Sys2Proof.Machine.execRiskRise ceRate lrRate drRate marginK s
  | .completionFlush p => Sys2Proof.Machine.execCompletionFlush p s
  | .preemptTakeEffect p => Sys2Proof.Machine.execPreemptTakeEffect p s
  | .preemptResume p => Sys2Proof.Machine.execPreemptResume p s
  | .reexecute p => Sys2Proof.Machine.execReexecute p s
  | .journalRebuildDone h => Sys2Proof.Machine.execJournalRebuildDone h s
  | .hbmSoftPpr k row => Sys2Proof.Machine.execHbmSoftPpr k row s
  | .hbmScrub k one two poisoned => Sys2Proof.Machine.execHbmScrub k one two poisoned s
  | .routerPollTimeout h r => Sys2Proof.Machine.execRouterPollTimeout h r s
  | .sealHeartbeatLoss h => Sys2Proof.Machine.execSealHeartbeatLoss h s
  | .lastResort => Sys2Proof.Machine.execLastResort s
  | .factorRestart => Sys2Proof.Machine.execFactorRestart s
  | .sealReqMapWindow f => Sys2Proof.Machine.execSealReqMapWindow f s
  | .sealReqUnmapWindow f => Sys2Proof.Machine.execSealReqUnmapWindow f s
  | .sealReqWriteRwl f => Sys2Proof.Machine.execSealReqWriteRwl f s
  | .sealReqPrst f => Sys2Proof.Machine.execSealReqPrst f s
  | .sealReqDebugToken f now nonce => Sys2Proof.Machine.execSealReqDebugToken f now nonce s
  | .sealReqBankPair f => Sys2Proof.Machine.execSealReqBankPair f s
  | .sealReqPreempt f => Sys2Proof.Machine.execSealReqPreempt f s
  | .sealReqResume f => Sys2Proof.Machine.execSealReqResume f s
  | .ringDoorbell f ring tail => Sys2Proof.Machine.execRingDoorbell f ring tail s
  | .ringBaseWrite f ring v => Sys2Proof.Machine.execRingBaseWrite f ring v s
  | .cplHeadWrite f v => Sys2Proof.Machine.execCplHeadWrite f v s
  | .hqCancel f seq => Sys2Proof.Machine.execHqCancel f seq s
  | .mboxRelease f m => Sys2Proof.Machine.execMboxRelease f m s
  | .sealManResume f => Sys2Proof.Machine.execSealManResume f s
  | .sealManWithdraw f => Sys2Proof.Machine.execSealManWithdraw f s
  | .csgNow f => Sys2Proof.Machine.execCsgNow f s
  | .csgRestore f copy => Sys2Proof.Machine.execCsgRestore f copy s
  | .p3Req => Sys2Proof.Machine.execP3Req s
  | .p3Exit => Sys2Proof.Machine.execP3Exit s
  | .p2IdleEntry p => Sys2Proof.Machine.execP2IdleEntry p s
  | .registerWrite w off v => Sys2Proof.Machine.execRegisterWrite w off v s
  | .bar2Access f acc => Sys2Proof.Machine.execBar2Access f acc s
  | .hostSpdmDoe f msg => Sys2Proof.Machine.execHostSpdmDoe f msg s
  | .startUp c => Sys2Proof.Machine.execStartUp c s
  | .pwrgdFall => Sys2Proof.Machine.execPwrgdFall s
  | .drst heldUs c => Sys2Proof.Machine.execDrst heldUs c s
  | .crst c stn => Sys2Proof.Machine.execCrst c stn s
  | .lrstRequest port sinceS => Sys2Proof.Machine.execLrstRequest port sinceS s
  | .perstAssert hp => Sys2Proof.Machine.execPerstAssert hp s
  | .perstRelease hp cxl => Sys2Proof.Machine.execPerstRelease hp cxl s
  | .flr f => Sys2Proof.Machine.execFlr f s
  | .lugUndervoltage lug milliV => Sys2Proof.Machine.execLugUndervoltage lug milliV s
  | .lugRecover lug milliV => Sys2Proof.Machine.execLugRecover lug milliV s
  | .thermalMonitor fld tempC => Sys2Proof.Machine.execThermalMonitor fld tempC s
  | .droopStretch h => Sys2Proof.Machine.execDroopStretch h s
  | .capFastLoop watts => Sys2Proof.Machine.execCapFastLoop watts s
  | .capHoldLoop watts est => Sys2Proof.Machine.execCapHoldLoop watts est s
  | .referenceLost r => Sys2Proof.Machine.execReferenceLost r s
  | .referenceReturn r => Sys2Proof.Machine.execReferenceReturn r s
  | .linkSignalDetect port lanes => Sys2Proof.Machine.execLinkSignalDetect port lanes s
  | .linkFecLock port lanes => Sys2Proof.Machine.execLinkFecLock port lanes s
  | .linkInitExchange port coord peerPort lanes reversed => Sys2Proof.Machine.execLinkInitExchange port coord peerPort lanes reversed s
  | .linkSpdmComplete port => Sys2Proof.Machine.execLinkSpdmComplete port s
  | .linkSpdmTimeout port => Sys2Proof.Machine.execLinkSpdmTimeout port s
  | .linkAbsentReport port => Sys2Proof.Machine.execLinkAbsentReport port s
  | .flitReceive port flit => Sys2Proof.Machine.execFlitReceive port flit s
  | .linkRetryTimer port => Sys2Proof.Machine.execLinkRetryTimer port s
  | .keyUpdate port => Sys2Proof.Machine.execKeyUpdate port s
  | .packetForward port pkt => Sys2Proof.Machine.execPacketForward port pkt s
  | .packetDeliver port pkt => Sys2Proof.Machine.execPacketDeliver port pkt s
  | .faultBeaconReceive port hops => Sys2Proof.Machine.execFaultBeaconReceive port hops s
  | .linkSendEntry p => Sys2Proof.Machine.execLinkSendEntry p s
  | .detourInstall tbl => Sys2Proof.Machine.execDetourInstall tbl s
  | .ownerOpenChunk p => Sys2Proof.Machine.execOwnerOpenChunk p s
  | .openPkt port hdr payload => Sys2Proof.Machine.execOpenPkt port hdr payload s
  | .contrib port hdr payload => Sys2Proof.Machine.execContrib port hdr payload s
  | .result port hdr payload => Sys2Proof.Machine.execResult port hdr payload s
  | .wideContrib port hdr payload => Sys2Proof.Machine.execWideContrib port hdr payload s
  | .wideResult port hdr payload => Sys2Proof.Machine.execWideResult port hdr payload s
  | .vote port hdr payload => Sys2Proof.Machine.execVote port hdr payload s
  | .nak port hdr payload => Sys2Proof.Machine.execNak port hdr payload s
  | .fail port hdr payload => Sys2Proof.Machine.execFail port hdr payload s
  | .ownerDeadlineExpire p bucket chunk => Sys2Proof.Machine.execOwnerDeadlineExpire p bucket chunk s
  | .memberDeadlineExpire p bucket chunk => Sys2Proof.Machine.execMemberDeadlineExpire p bucket chunk s
  | .voteDeadlineExpire p => Sys2Proof.Machine.execVoteDeadlineExpire p s
  | .consignmentPacket port pkt => Sys2Proof.Machine.execConsignmentPacket port pkt s
  | .partnerAck p => Sys2Proof.Machine.execPartnerAck p s
  | .i3cWrstRequest => Sys2Proof.Machine.execI3cWrstRequest s
  | .i3cImageWrite slot img => Sys2Proof.Machine.execI3cImageWrite slot img s
  | .imageApplyRequest p slot => Sys2Proof.Machine.execImageApplyRequest p slot s
  | .imageApply => Sys2Proof.Machine.execImageApply s
  | .imageApplyDrainTimeout => Sys2Proof.Machine.execImageApplyDrainTimeout s
  | .i3cModuleInfoRead => Sys2Proof.Machine.execI3cModuleInfoRead s
  | .i3cAttest msg => Sys2Proof.Machine.execI3cAttest msg s
  | .i3cSafeHoldRead => Sys2Proof.Machine.execI3cSafeHoldRead s
  | .bypass => Sys2Proof.Machine.execBypass s
  | .idcode => Sys2Proof.Machine.execIdcode s
  | .samplePreload v => Sys2Proof.Machine.execSamplePreload v s
  | .extest v => Sys2Proof.Machine.execExtest v s
  | .scout => Sys2Proof.Machine.execScout s
  | .scoutUnlock w0 w1 now => Sys2Proof.Machine.execScoutUnlock w0 w1 now s
  | .scoutHalt => Sys2Proof.Machine.execScoutHalt s
  | .scoutResume => Sys2Proof.Machine.execScoutResume s
  | .scoutStep n => Sys2Proof.Machine.execScoutStep n s
  | .scoutSetBreakpoint arg v => Sys2Proof.Machine.execScoutSetBreakpoint arg v s
  | .scoutClearBreakpoint arg => Sys2Proof.Machine.execScoutClearBreakpoint arg s
  | .scoutMemoryRead va => Sys2Proof.Machine.execScoutMemoryRead va s
  | .scoutMemoryWrite va v => Sys2Proof.Machine.execScoutMemoryWrite va v s
  | .scoutRegisterRead off => Sys2Proof.Machine.execScoutRegisterRead off s
  | .scoutRegisterWrite off v => Sys2Proof.Machine.execScoutRegisterWrite off v s
  | .scoutStatus => Sys2Proof.Machine.execScoutStatus s
  | .tokenExpire p => Sys2Proof.Machine.execTokenExpire p s
  | .partnerStopsAnswering port => Sys2Proof.Machine.execPartnerStopsAnswering port s
  | .p3Refused => Sys2Proof.Machine.execP3Refused s
  | .copyAcknowledged p copy elapsedMs => Sys2Proof.Machine.execCopyAcknowledged p copy elapsedMs s
  | .sealLockstepMismatch h => Sys2Proof.Machine.execSealLockstepMismatch h s
  | .rejoinAsStandby h => Sys2Proof.Machine.execRejoinAsStandby h s
  | .halfClockLoss h => Sys2Proof.Machine.execHalfClockLoss h s
  | .aux3v3Loss => Sys2Proof.Machine.execAux3v3Loss s
  | .aux3v3Return => Sys2Proof.Machine.execAux3v3Return s

end Sys2Proof.Machine
end

