-- ==== Sys2Proof/Safety.lean ====
section
/-!
DEFINITION. The terms the claims are stated in: the canonical form of the state's sparse maps, what a command leaves alone,
and the conditions under which a program command takes its effect at the issue point (R160).
-/
namespace Sys2Proof.Machine

/-- Every sparse map of the state is in canonical form. -/
def State.wf (s : State) : Bool :=
  Map.wf porWord s.csr && Map.wf (fun _ => 0) s.mem && Map.wf (fun _ => Entry.zero) s.tally &&
  Map.wf (fun _ => Bank.empty) s.banks && Map.wf (fun _ => Flag.none) s.flags &&
  Map.wf (fun _ => Queue.empty) s.queues && Map.wf (fun _ => Part.none) s.parts &&
  Map.wf (fun _ => Car.idle) s.cars && Map.wf (fun _ => Wgh.none) s.wgh && Map.wf (fun _ => Port.idle) s.ports &&
  Map.wf (fun _ => Toll.idle) s.tolls && Map.wf (fun _ => ([] : List Byte)) s.spice

/-- The memory's canonical form: addresses rise strictly and no listed byte is zero. -/
def Memory.wf (s : State) : Bool := Map.wf (fun _ => (0 : Byte)) s.mem

/-! Frames. -/

/-- The pieces of the state. -/
inductive Comp where
  | csr
  | mem
  | poison
  | tally
  | banks
  | flags
  | queues
  | parts
  | cars
  | wgh
  | ports
  | tolls
  | spice
  | dev
  | scout
  | out
  | free
  | pending
  deriving DecidableEq, Repr

/-- A piece is the same in two states. -/
def Comp.same (f : Comp) (s t : State) : Prop :=
  match f with
  | .csr => t.csr = s.csr
  | .mem => t.mem = s.mem
  | .poison => t.poison = s.poison
  | .tally => t.tally = s.tally
  | .banks => t.banks = s.banks
  | .flags => t.flags = s.flags
  | .queues => t.queues = s.queues
  | .parts => t.parts = s.parts
  | .cars => t.cars = s.cars
  | .wgh => t.wgh = s.wgh
  | .ports => t.ports = s.ports
  | .tolls => t.tolls = s.tolls
  | .spice => t.spice = s.spice
  | .dev => t.dev = s.dev
  | .scout => t.scout = s.scout
  | .out => t.out = s.out
  | .free => t.free = s.free
  | .pending => t.pending = s.pending

/-- Every piece but the named ones is the same. -/
def OnlyChanges (fs : List Comp) (s t : State) : Prop := ∀ f, f ∉ fs → f.same s t

/-- Every register but those at the named offsets reads the same. -/
def OnlyRegs (offs : List Nat) (s t : State) : Prop := ∀ o, o ∉ offs → t.reg o = s.reg o

/-- Every partition but p is the same. -/
def OnlyPart (p : Nat) (s t : State) : Prop := ∀ q, q ≠ p → t.part q = s.part q

/-! The mesh. -/

/-- The counters that mesh traffic moves: FLITS and DETOURED of every router, the beats of every Pass channel (R258). -/
def meshRegs : List Nat := (List.range 64).map (fun i => Csr.mshRouter (i / 32) (i % 32)) ++ (List.range 16).map Csr.pasBeats

/-- The routers that memory attaches to: those of the stacks, the caravans and host port A (R229, R436). -/
def memRtrs : List Rtr := (List.range 16).map rtrOfStack ++ (List.range 24).map rtrOfCar ++ [rtrOfHost 0]

/-- No memory is cut off from a router: on either plane a route leads there and back (R243). -/
def State.Joined (s : State) (a : Rtr) : Prop :=
  ∀ r ∈ memRtrs, r ≠ a → ∀ pl, pl < 2 → (s.route a r pl).ok = true ∧ (s.route r a pl).ok = true

/-! Issue. -/

/-- The caravan a command's local flags belong to. -/
def State.flagCar (s : State) (x : Ctx) : Nat := (s.scopeCars x).headD (s.home x.p)

/-- The conditions of R160 under which a command of a class takes its effect: the issue point is open, no check fails, its wait
is satisfied, its units have room, its banks and queues are ready, its elastic inputs are there, and its tables read clean. -/
structure Cls.Takes (c : Cls) (s : State) (e : Exec) (x : Ctx) : Prop where
  runs : s.exec? x.p = some e
  opened : s.issuable x.p = true
  passes : c.verdict s x e = none
  waited : s.waitFlag x.p (s.flagCar x) x.h.wait.toNat = .go
  room : (c.units s x).any (fun u => 2 ≤ s.occupants x.p e u) = false
  ready : c.ready s x = none
  arrived : c.wait s x = false
  landed : c.inFlight s x e = false
  fresh : c.late s x = none
  clean : s.poisonCheck x.p (c.unit s x) x.off (s.tableReads x) = none

/-- The state from which a command's own effect starts: its wait is taken (R144), and the next command of the stream is next. -/
def State.took (s : State) (x : Ctx) : State := (s.takeWait x.p (s.flagCar x) x.h.wait.toNat).issueAt x

/-- The execution once a command has issued: the next command is next, and the command's dependence mark stands (R158, R166). -/
def State.passed (s : State) (x : Ctx) (e : Exec) : Exec := { e with off := x.off + 16, marks := e.marks ++ s.marksOf x }

/-- The signal a command gives when it completes at issue: the flag, the pace it is seen at, its latency class (R139, R144). -/
def State.sigOf (s : State) (x : Ctx) (e : Exec) : List (Nat × Nat × Nat) :=
  if x.h.signal = 0 then []
  else
    let k := s.sigClass x.p x.h.signal.toNat (s.scopeCars x)
    [(s.flagKey x.p (s.flagCar x) x.h.signal.toNat, s.pace x.p + max 1 (e.lat k), k)]

/-- The flag a command signals, the class of its signal, and the unit whose interval it uses (R139, R141, R143). -/
def State.sigKey (s : State) (x : Ctx) : Nat := s.flagKey x.p (s.flagCar x) x.h.signal.toNat
def State.sigCls (s : State) (x : Ctx) : Nat := s.sigClass x.p x.h.signal.toNat (s.scopeCars x)
def State.sigUnit (s : State) (x : Ctx) : Nat := flagUnit (s.sigKey x / 4096)

/-- The execution once a command that completes at issue has signalled: the signal is on its way, and its class used (R141, R144). -/
def State.signalled (s : State) (x : Ctx) (e : Exec) : Exec :=
  if x.h.signal = 0 then e
  else ({ e with sigs := e.sigs ++ s.sigOf x e }).using (s.sigCls x) (s.sigUnit x) (s.pace x.p - e.base)

/-- A command's signal fits its flag, as its order knows it: there is none, or the flag is allocated and does not overflow, and the class's
interval has passed (R141, R145, R147, R220). -/
def State.sigFits (s : State) (x : Ctx) (e : Exec) : Prop :=
  x.h.signal = 0 ∨
    ((s.ownFlag e (s.sigKey x)).quantum ≠ 0 ∧ (s.ownFlag e (s.sigKey x)).count + e.signalsTo (s.sigKey x) < 65535 ∧
     e.lateBy (s.sigCls x) (s.sigUnit x) (s.pace x.p - e.base) = 0)

/-- What a flag holds once a command has taken its wait (R144). -/
def State.afterWait (s : State) (x : Ctx) (k : Nat) : Flag :=
  if x.h.wait ≠ 0 ∧ k = s.flagKey x.p (s.flagCar x) x.h.wait.toNat then
    { s.flagAt k with count := (s.flagAt k).count - (s.flagAt k).quantum }
  else s.flagAt k

/-- The frame of a command that touches only its partition's execution: the execution is e, the flag waited on has fallen, and
everything else of this partition, every other partition and every other flag are as before. -/
def State.Issued (s t : State) (x : Ctx) (e : Exec) : Prop :=
  t.part x.p = { s.part x.p with exec := some e } ∧ OnlyPart x.p s t ∧ (∀ k, t.flagAt k = s.afterWait x k) ∧
  OnlyChanges [.parts, .flags] s t

/-- Every physical byte that f does not name reads as before. -/
def MemOnly (f : Nat → Prop) (s t : State) : Prop := ∀ a, ¬ f a → t.byte a = s.byte a

/-- The partition-virtual bytes of a descriptor's rows, and of its scale plane under an MX format (R207). -/
def Desc.Spans (d : Desc) (fmt va : Nat) : Prop :=
  (∃ j, j < d.logRows ∧ d.rowVa j ≤ va ∧ va < d.rowVa j + d.rowBytes) ∨
  (isMx fmt = true ∧ d.sbase ≤ va ∧ va < d.sbase + scaleBytes fmt d)

/-- A physical byte that some station of a list reaches through a descriptor. -/
def State.Reaches (s : State) (p : Nat) (gs : List Nat) (d : Desc) (fmt a : Nat) : Prop :=
  ∃ g ∈ gs, ∃ va, d.Spans fmt va ∧ s.place p g va = some a

/-- The command as it enters its units' slots at a pace: it runs when no earlier one occupies any of them (R159). -/
def State.entering (s : State) (e : Exec) (x : Ctx) (now : Nat) (units : List Nat) (lat : Option Nat) (prog left : Nat)
    (descs : List (List Byte)) : Cmd :=
  { off := x.off, op := x.op, h := x.h, w1 := BitVec.ofNat 64 x.w1, units := units,
    start := if units.all (fun u => s.occupants x.p e u = 0) then some now else none,
    done := if units.all (fun u => s.occupants x.p e u = 0) then lat.map (now + ·) else none,
    prog := lat.getD prog, left := left, descs := descs }

/-- What DRAIN, EVICT and LEDGER_ADD of descriptor d leave but for memory: the command in flight until issue plus its latency, the
banks of the scope taken, one that a held pass has released freed, the stations' counters, the hold counters and those of the mesh
written; the order's range flags only rise (R49, R174, R228, R472). -/
def State.Drained (s t : State) (x : Ctx) (e : Exec) (d : Desc) : Prop :=
  let lat := tallyLat e x.h
  (∃ e', t.exec? x.p = some e' ∧ e' = { s.passed x e with
    dests := e.dests ++ s.rowsOf x.p (s.tiles x) d
    lastUse := e'.lastUse
    sticky := e'.sticky
    cmds := e.cmds ++ [⟨x.off, x.op, x.h, BitVec.ofNat 64 x.w1, (s.scopeStns x).map tallyUnit, some (s.orderPace x.p),
      some (s.orderPace x.p + lat), lat, 0, [], DrvProg.start⟩] } ∧ e'.sticky ||| e.sticky = e'.sticky) ∧
  (∀ g ∈ s.scopeStns x, t.bank (x.tKey g) =
    if (s.bank (x.tKey g)).st.isHeld then { s.bank (x.tKey g) with st := .taken x.off } else Bank.empty) ∧
  (∀ k, k ∉ (s.scopeStns x).map x.tKey → t.bank k = s.bank k) ∧ (∀ k, t.flagAt k = s.afterWait x k) ∧
  OnlyRegs ((s.tiles x).flatMap (fun g => [Csr.stnRangeOut (g / 8) (g % 8), Csr.stnRsum (g / 8) (g % 8), Csr.drvXfer (g / 8)]) ++
    [Csr.prtHold x.p, Csr.prtHoldSrc x.p 5] ++ meshRegs) s t ∧
  OnlyPart x.p s t ∧ OnlyChanges [.csr, .mem, .poison, .banks, .flags, .parts, .free] s t

/-- The pending member table has become current for the RESHARD at a stream offset (R321). -/
def State.EpochMade (s t : State) (p off : Nat) : Prop :=
  let n := s.fld (Csr.wghGroupCtl_count p)
  let w := t.wctx p
  w.members = (List.range n).map (fun i =>
    BitVec.ofNat 32 (leNat (s.vbytes p (s.homeStn p) (s.fld (Csr.wghGroup_base p) + 4 * i) 4))) ∧
  w.self = s.fld (Csr.wghGroupCtl_self p) ∧ w.sends = [] ∧ w.opens = [] ∧
  t.fld (Csr.wghEpoch_epoch p) = s.fld (Csr.wghGroupCtl_pendingEpoch p) ∧
  t.fld (Csr.wghEpoch_groupSize p) = w.group.length % 2 ^ 13 ∧ t.fld (Csr.wghEpoch_rank p) = (w.group.idxOf? w.self).getD 0 % 2 ^ 12 ∧
  t.fld (Csr.wghGroupCtl_pendingValid p) = 0 ∧
  (∃ e', t.exec? p = some e' ∧ ∀ m ∈ e'.cmds, m.op = 0x71 → m.off = off → m.done = some (s.orderPace p)) ∧
  ((∀ k ∈ (s.part p).holds, k.src = 10 → k.left = none) → t.hasHold p 10 = false) ∧
  OnlyRegs [Csr.wghEpoch p, Csr.wghGroupCtl p, Csr.prtHold p, Csr.prtHoldSrc p 8] s t ∧ OnlyPart p s t ∧
  OnlyChanges [.csr, .flags, .parts, .wgh, .free] s t

/-- An entry of a ring has been journaled (R383, R441). -/
def State.Accepted (s t : State) (p f r : Nat) (hdr : BitVec 1024) : Prop :=
  let seq := (s.part p).nextSeq
  (t.part p).orders = (s.part p).orders ++ [⟨seq, hdr, 0, 0, false⟩] ∧ (t.part p).nextSeq = nextNum seq ∧ (t.part p).ackWait = none ∧
  t.exec? p = s.exec? p ∧
  t.fld (Csr.hqRingCtl_head f r) = (s.fld (Csr.hqRingCtl_head f r) + 1) % 2 ^ s.fld (Csr.hqRingBase_log2Depth f r) ∧
  t.fld (Csr.hqRingCtl_lastSeq f r) = seq % 2 ^ 31 ∧ t.fld (Csr.hqRingCtl_tail f r) = s.fld (Csr.hqRingCtl_tail f r) ∧
  OnlyRegs [Csr.hqRingCtl f r] s t ∧ OnlyPart p s t ∧ OnlyChanges [.csr, .parts] s t

/-- The Seal has answered a request of a type with STATUS and REASON, and has signalled MSI-X vector 2 (R439, R447). -/
def State.Answered (s t : State) (p type status reason : Nat) : Prop :=
  t.fld (Csr.hqSealreq_type p) = type ∧ t.fld (Csr.hqSealreq_status p) = status ∧ t.fld (Csr.hqSealreq_reason p) = reason ∧
  Out.msix (s.fld (Csr.hqCpl_func p)) 2 ∈ t.out ∧ (∀ q, q ≠ p → t.part q = s.part q) ∧ (∀ a, t.byte a = s.byte a)

/-- The last byte a list of writes gives an address. -/
def lastWrite (ws : List (Nat × Byte)) (a : Nat) : Option Byte := ws.foldl (fun r w => if w.1 = a then some w.2 else r) none

/-- Every physical byte holds what the writes gave it last, and one that none of them names is as before. -/
def State.Wrote (s t : State) (ws : List (Nat × Byte)) : Prop := ∀ a, t.byte a = (lastWrite ws a).getD (s.byte a)

/-- The writes that bytes at a partition-virtual address make: those that reach a place. -/
def State.writesAt (s : State) (p g va : Nat) (bs : List Byte) : List (Nat × Byte) :=
  bs.zipIdx.filterMap (fun (b, i) => (s.place p g (va + i)).map (fun pa => (pa, b)))

/-- Every port but i is the same. -/
def OnlyPort (i : Nat) (s t : State) : Prop := ∀ j, j ≠ i → t.port j = s.port j

/-- Every port but i is the same, unless a packet that came in by port i was leaving by it, or one that was arriving by it would (R351). -/
def OthersKeep (i : Nat) (s t : State) : Prop :=
  ∀ j, j ≠ i → (∀ q ∈ (s.port j).owners, q.src.map (·.1) ≠ some i) →
    (∀ x ∈ (s.port i).asm, x.2.bytes.length < 24 ∨
      s.portTo (s.leg2 ⟨x.1, x.2.flits, BitVec.ofNat 192 (leNat (x.2.bytes.take 24)), x.2.bytes.drop 24⟩).target ≠ some j) →
    t.port j = s.port j

/-- The bitmaps of the records that wait reach memory (R243, R446). -/
def State.BitmapsPass (s : State) (p : Nat) : Prop := ∀ r ∈ (s.part p).records, r.bitmapVa ≠ 0 → s.Joined (s.manRtr p)

/-- A port whose buffers have been emptied and whose keys are gone (R351). -/
def Port.emptied (x : Port) : Port :=
  { Port.idle with isolations24 := x.isolations24, fenced := x.fenced, parkedState := x.parkedState, reported := x.reported, keyGen := x.keyGen }

/-- A packet has taken its VC on port o and has sent as many flits as credits and the replay buffer let it (R337, R341). -/
def State.Opened (s t : State) (o : Nat) (q : Packet) (src : Option (Nat × Nat)) : Prop :=
  let n := min q.flits ((s.port o).room q.vc)
  (t.port o).owners = (s.port o).owners ++ (if n = q.flits then [] else [⟨q, n, src, false⟩]) ∧
  (t.port o).txSeq = ((s.port o).txSeq + n) % 2 ^ 16 ∧ Map.get 0 (t.port o).used q.vc = Map.get 0 (s.port o).used q.vc + n ∧
  ∃ ws, (t.port o).replay = (s.port o).replay ++ ws ∧ ws.length = n ∧ ∀ w ∈ ws, Out.flit o w ∈ t.out

/-- The ports after the link clock is there again: a port that nothing keeps OFF takes the state it was parked in, else DETECT
(R331). -/
def State.PortsReturn (s t : State) : Prop :=
  ∀ i, i < 6 →
    let mayRise := s.flag1 (Csr.lnkCtrl_enable i) && s.ring (i / 2) != 1 && !(s.port i).fenced
    t.portState i = (if mayRise then (if (s.port i).parkedState = 0 then 1 else (s.port i).parkedState) % 16 else 0)

/-- The SRAM of a station and of a caravan: satchels and depot. -/
def satchelByte (g a : Nat) : Prop := satchelBase g ≤ a ∧ a < satchelBase g + 2 ^ 24
def depotByte (c a : Nat) : Prop := depotBase c ≤ a ∧ a < depotBase c + 64 * mib
def sramByte (a : Nat) : Prop := (∃ g, g < 192 ∧ satchelByte g a) ∨ ∃ c, c < 24 ∧ depotByte c a

/-- Every SRAM is zero: satchels, depots, tallies, flags and queues; the rest of the memory is as before (R427, R429). -/
def State.SramZero (s t : State) : Prop :=
  (∀ a, sramByte a → t.byte a = 0) ∧ (∀ a, ¬ sramByte a → t.byte a = s.byte a) ∧
  (∀ k, k / 4096 / 42 < 192 → t.entry k = Entry.zero) ∧ (∀ k, k / 42 < 192 → t.bank k = Bank.empty) ∧
  (∀ k, k / 4096 < 24 → t.flagAt k = Flag.none) ∧ (∀ k, k / 64 < 24 → t.queue k = Queue.empty)

/-- What power-on leaves of a state (R427, R429): registers, SRAM and HBM at their reset values, no order, no host; the expander
behind CXL, the flash and the fuses stay. -/
def State.WipedTo (s t : State) : Prop :=
  t.csr = [] ∧ t.parts = [] ∧ t.tally = [] ∧ t.banks = [] ∧ t.flags = [] ∧ t.queues = [] ∧ t.cars = [] ∧ t.wgh = [] ∧ t.tolls = [] ∧
  t.spice = [] ∧ (∀ a, t.byte a = if a < cxlBase then 0 else s.byte a) ∧ t.dev.slot0 = s.dev.slot0 ∧ t.dev.slot1 = s.dev.slot1 ∧
  t.dev.fences = s.dev.fences ∧ t.dev.started = false ∧ t.dev.running = none ∧ t.dev.halfOnW = false ∧ t.dev.halfOnE = false ∧
  t.out = s.out

/-- A half has been lost: it is recorded and fenced with its caravans, stacks, routers and ports, the Pass is shut, its Seal pair and host
link are gone, and partitions whose weighhouse context it held are suspended (R378, R379). -/
def State.HalfLost (s t : State) (h : Nat) : Prop :=
  t.dev.fenced (unitInst h 0 0x70) 1 0 = true ∧ h ∈ t.dev.fencedHalves ∧ t.dev.seal h = 2 ∧
  (if h = 0 then t.dev.halfOnW else t.dev.halfOnE) = false ∧ (∀ k, k < 12 → h * 12 + k ∈ t.dev.fencedCars) ∧
  (∀ k, k < 8 → h * 8 + k ∈ t.dev.fencedStacks) ∧
  t.fld (Csr.mshFault_failedRouters h) = 2 ^ 32 - 1 ∧ (if h = 0 then t.dev.hostUpA else t.dev.hostUpB) = false ∧
  (∀ ch, ch < 16 → t.chanOpen ch = false) ∧ (∀ i, i < 6 → (rtrOfPort i).half = h → t.portState i = 0 ∧ (t.port i).fenced = true) ∧
  (∀ p, p < 8 → 0 < s.fld (Csr.wghShare_slots p) → s.fld (Csr.wghShare_half p) = h →
    (t.part p).suspended = true ∧ (t.part p).wghLost = true)

/-- A half may be lost now: the record has room and does not hold it yet. -/
def State.MayLose (s : State) (h : Nat) : Prop :=
  s.dev.fences.length < 1024 ∧ s.dev.fenced (unitInst h 0 0x70) 1 0 = false ∧ h ∉ s.dev.fencedHalves

/-- A weighhouse packet of a type reaches the context of its partition: the port is ACTIVE, the header is sound, and its epoch and
(STEP, ATTEMPT) are the current ones (R309, R315, R320). -/
structure State.WghTakes (s : State) (typ : Nat) (port : PortId) (hdr : BitVec 512) (payload : List Byte) (p : Nat) : Prop where
  typ : (parseWHdr hdr).typ = typ
  active : s.active port = true
  there : (s.part p).wghLost = false
  job : s.jobPart (parseWHdr hdr).job = some p
  sound : (s.wctx p).malformed hdr payload.length false = false
  pair : (s.wctx p).pairOf (parseWHdr hdr).step (parseWHdr hdr).attempt = .taken
  epoch : (parseWHdr hdr).epoch = s.fld (Csr.wghEpoch_epoch p)

/-- The digests of a partition's received packets have grown by a packet's CRC (R322). -/
def State.Digested (s t : State) (p : Nat) (bytes : List Byte) : Prop :=
  t.fld (Csr.wghDigestRx_digest p) = (s.fld (Csr.wghDigestRx_digest p) + wghCrc bytes) % 2 ^ 64 ∧
  t.fld (Csr.wghStepRx_digest p) = (s.fld (Csr.wghStepRx_digest p) + wghCrc bytes) % 2 ^ 64

/-- The scout port is open to an operation under a right of partition p's token (R462). -/
structure State.ScoutOpen (s : State) (p right : Nat) : Prop where
  powered : s.dev.pwrgd = true
  selected : s.scout.ir = 4
  token : s.unlocked = some p
  right : s.tokenRight p right = true

/-- The data register after an operation: its code, status, argument and data (R462). -/
def drWord (op arg data status : Nat) : BitVec 128 :=
  BitVec.ofNat 128 (op + status * 2 ^ 8 + arg % 2 ^ 48 * 2 ^ 16 + data % 2 ^ 64 * 2 ^ 64)

/-- Entries keep their residue, in the tally and in what a pre-emption has saved (R77). -/
def State.Residues (s : State) : Prop :=
  (∀ k x, (k, x) ∈ s.tally → x.res = residue x.v) ∧
  (∀ p q, (s.part p).preempt = some q → ∀ k x, (k, x) ∈ q.entries → x.res = residue x.v)

/-- The queue's rest: a state with the front command taken. -/
def State.popped (s : State) : State := { s with pending := s.pending.tail }

/-- The state after a number of steps, when each answers a next state. -/
def steps : Nat → State → Option State
  | 0, s => some s
  | n + 1, s =>
    match step s with
    | .next t => steps n t
    | _ => none

/-- The state after a list of commands, each taken from the front of the queue, when each answers a next state. -/
def runs : List Instr → State → Option State
  | [], s => some s
  | c :: cs, s =>
    match exec c s.popped with
    | .next t => runs cs t
    | _ => none

end Sys2Proof.Machine
end

