-- ==== Sys2Proof/Certificates/Slice0/Obligations.lean ====
section
/-!
DEFINITION. The statements for the provers. A statement names the command, says under which conditions on the state and the
operands it takes its effect, and what the next state holds; `Obligations` of one shape stand together.
-/
open Sys2Proof Sys2Proof.Machine

/-! The block. -/

/-- One step runs the command at the front of the queue on the state with the queue's rest, and an empty queue idles (the model's
choice, log entry 1). -/
def Obligations.StepRunsTheFrontCommand : Prop :=
  (∀ (c : Instr) (rest : List Instr) (s : State), s.pending = c :: rest → step s = exec c { s with pending := rest }) ∧
  (∀ s : State, s.pending = [] → step s = .next s)

/-- Every command answers a next state that keeps the queue of waiting commands; only a host's BAR2 access and the scout's memory
operations can stop instead, at an address to which R197 gives no region. Nothing is refused. -/
def Obligations.EveryCommandAnswers : Prop :=
  ∀ (c : Instr) (s : State),
    (∃ t, exec c s = .next t ∧ t.pending = s.pending) ∨
    (∃ pa, exec c s = .fault (.physicalHole pa) ∧ regionOf pa = none ∧
      ((∃ f a, c = .bar2Access f a) ∨ (∃ va, c = .scoutMemoryRead va) ∨ (∃ va v, c = .scoutMemoryWrite va v)))

/-- Commands run first in, first out: a queue whose commands one after another answer a next state is run to its end by as many
steps, in its order, and nothing but what was queued behind them is left (log entry 1). -/
def Obligations.QueueIsFirstInFirstOut : Prop :=
  ∀ (cs ds : List Instr) (s t : State), s.pending = cs ++ ds → runs cs s = some t → steps cs.length s = some t ∧ t.pending = ds

/-! The encoding of program commands (R10, R157, R167). -/

/-- Decoding the words of a well-formed program command gives it back, for every opcode, every field of word 0 and every word 1. -/
def Obligations.ProgramCommandsRoundTrip : Prop :=
  ∀ (p : PartId) (op : Nat) (h : Head) (w1 : Word) (i : Instr), commandOf p op h w1 = some i →
    ∃ w0, encodeCommand i = some (w0, w1) ∧ decodeCommand p w0 w1 = some i

/-- Every word decodes to at most one command, and every command that a word decodes to is encoded by that word: the encoding drops
no bit. -/
def Obligations.DecodedWordsEncodeBack : Prop :=
  ∀ (p : PartId) (w0 w1 : Word) (i : Instr), decodeCommand p w0 w1 = some i → encodeCommand i = some (w0, w1)

/-! The state's canonical form. -/

/-- Every step keeps every sparse map of the state in canonical form: keys rise strictly and no entry equals what an unlisted key
reads as, so equal contents are equal data. -/
def Obligations.StepKeepsCanonicalForm : Prop := ∀ s t : State, s.wf = true → step s = .next t → t.wf = true

/-- The state after reset is in canonical form, lists nothing, and no command waits. -/
def Obligations.ResetIsCanonical : Prop :=
  State.reset.wf = true ∧ Memory.wf State.reset = true ∧ State.reset.csr = [] ∧ State.reset.mem = [] ∧ State.reset.pending = []

/-! Program commands at their issue (06_command_reference). `Cls.Takes` holds the conditions of R160: the issue point is open, every check
passes, the wait is satisfied, and units, banks, queues and inputs are ready. -/

/-- NOP, MARK, ADVANCE and END complete at issue (R188, R190): the wait is taken, MARK opens or closes a recompute region, ADVANCE moves
the issue pace, END ends the stream; nothing else changes. END signals when it completes, with the order (the model's reading, log entry 17). -/
def Obligations.SyncCommandsComplete : Prop :=
  ∀ (s : State) (p : PartId) (h : Head) (w1 : Word) (e : Exec),
    (let x := e.ctx p 0x00 h w1
     clsNop.Takes s e x → (s.took x).sigFits x (s.passed x e) →
      ∃ t, exec (.nop p h w1) s = .next t ∧ s.Issued t x (s.signalled x (s.passed x e))) ∧
    (let x := e.ctx p 0x50 h w1
     clsMark.Takes s e x → (s.took x).sigFits x (s.passed x e) →
      ∃ t, exec (.mark p h w1) s = .next t ∧
        s.Issued t x (s.signalled x { s.passed x e with
          region := if x.f 0 2 = 2 then some (x.f 16 12) else if x.f 0 2 = 3 then none else e.region })) ∧
    (let x := e.ctx p 0x01 h w1
     clsAdvance.Takes s e x →
      ∃ t, exec (.advance p h w1) s = .next t ∧
        s.Issued t x { s.passed x e with issuePace := e.issuePace + x.f 0 32 }) ∧
    (let x := e.ctx p 0x0F h w1
     clsEnd.Takes s e x →
      ∃ t, exec (.endCmd p h w1) s = .next t ∧ s.Issued t x { s.passed x e with ended := true, endOff := some e.off })

/-- QPUSH appends the 64 bytes of its buffer as the newest entry of its queue, poppable a latency later and never in the pace of the
push (R146), and changes no other queue, no other byte and no other register than the queue's, the hold counters and those of the mesh
(R228). Stated with no memory cut off from the caravan (R243). -/
def Obligations.QpushAppends : Prop :=
  ∀ (s : State) (p : PartId) (h : Head) (w1 : Word) (e : Exec),
    let x := e.ctx p 0x02 h w1
    let c := s.qCar x
    let q := x.f 0 6
    let d := s.desc p e.hdr (x.f 6 12)
    clsQpush.Takes s e x → s.Joined (rtrOfCar c) → (s.took x).sigFits x (s.passed x e) → (s.took x).poisonCheck p (s.carUnit x 0x11) e.off (d.ranges (c * 8)) = none →
    ∃ t e', exec (.qpush p h w1) s = .next t ∧ t.exec? p = some e' ∧
      e' = { s.signalled x (s.passed x e) with lastUse := e'.lastUse } ∧
      t.qOcc c q = s.qOcc c q + 1 ∧ t.qDepth c q = s.qDepth c q ∧ t.qElastic c q = s.qElastic c q ∧
      t.queue (queueKey c q) = { s.queue (queueKey c q) with
                                 ready := (s.queue (queueKey c q)).ready ++ [s.orderPace p + max (e.lat 0x33) 1],
                                 offs := (s.queue (queueKey c q)).offs ++ [e.off] } ∧
      (∀ k, k ≠ queueKey c q → t.queue k = s.queue k) ∧
      t.bytes (s.qSlot c q (s.qOcc c q)) 64 = s.extentBytes p (c * 8) d ∧
      MemOnly (fun a => s.qSlot c q (s.qOcc c q) ≤ a ∧ a < s.qSlot c q (s.qOcc c q) + 64) s t ∧
      OnlyRegs ([Csr.carQueue c q, Csr.prtHold p, Csr.prtHoldSrc p 5, Csr.prtLatency p] ++ meshRegs) s t ∧ OnlyPart p s t ∧
      OnlyChanges [.csr, .mem, .poison, .flags, .queues, .parts, .free] s t

/-- QPOP writes the oldest entry's 64 bytes into its buffer, row by row, and removes the entry; only bytes of the buffer's extent change.
Stated with no memory cut off from the caravan (R243). -/
def Obligations.QpopTakesTheOldest : Prop :=
  ∀ (s : State) (p : PartId) (h : Head) (w1 : Word) (e : Exec),
    let x := e.ctx p 0x03 h w1
    let c := s.qCar x
    let q := x.f 0 6
    let d := s.desc p e.hdr (x.f 6 12)
    clsQpop.Takes s e x → s.Joined (rtrOfCar c) → (s.took x).sigFits x (s.passed x e) → (∀ i, i < 64 → s.poisoned (s.qSlot c q 0 + i) 1 = false) →
    ∃ t, exec (.qpop p h w1) s = .next t ∧
      t.exec? p = some (s.signalled x { s.passed x e with dests := e.dests ++ s.rowsOf p [c * 8] d }) ∧
      t.qOcc c q = s.qOcc c q - 1 ∧ t.qDepth c q = s.qDepth c q ∧ t.qElastic c q = s.qElastic c q ∧
      t.queue (queueKey c q) = { head := ((s.queue (queueKey c q)).head + 1) % s.qDepth c q,
                                 ready := (s.queue (queueKey c q)).ready.tail, offs := (s.queue (queueKey c q)).offs.tail,
                                 given := 0, via := none } ∧
      (∀ k, k ≠ queueKey c q → t.queue k = s.queue k) ∧
      (∀ a, t.byte a = (s.setExtent p (c * 8) d (s.bytes (s.qSlot c q 0) 64)).byte a) ∧
      MemOnly (s.Reaches p [c * 8] d 0) s t ∧ OnlyRegs (Csr.carQueue c q :: meshRegs) s t ∧ OnlyPart p s t ∧
      OnlyChanges [.csr, .mem, .poison, .flags, .queues, .parts] s t

/-- DRAIN, EVICT and LEDGER_ADD take the named bank of every station in scope, enter the flight list until issue plus their latency
(R472), and write the tiles as the model's row operations form them, nothing outside their descriptor's extent; no tally entry changes.
Stated with no memory cut off from the caravans that hold the tiles (R243). -/
def Obligations.TallyCommandsComplete : Prop :=
  ∀ (s : State) (p : PartId) (h : Head) (w1 : Word) (e : Exec),
    (let x := e.ctx p 0x20 h w1
     let d := s.desc p e.hdr (x.f 7 12)
     let opt (i : Nat) : Option Desc := if i = 0 then none else some (s.desc p e.hdr i)
     let vec (i : Nat) : List (Nat × Nat × Nat) := if i = 0 then [] else (s.tiles x).flatMap (fun g => (s.desc p e.hdr i).ranges g)
     clsDrain.Takes s e x → (∀ c ∈ s.scopeCars x, s.Joined (rtrOfCar c)) → (s.took x).poisonCheck p (s.stnUnit x 0x02) e.off (vec (x.f 19 12) ++ vec (x.f 31 12)) = none →
      ∃ t, exec (.drain p h w1) s = .next t ∧ s.Drained t x e d ∧
        (∀ a, t.byte a = ((s.tiles x).foldl (fun s g =>
          s.drainTile p g (x.tKey g) 128 (e.sink h 0 (x.f 7 12)) d (opt (x.f 19 12)) (opt (x.f 31 12)))
          ((s.took x).fetchVecs p (s.tiles x) [opt (x.f 19 12), opt (x.f 31 12)])).byte a) ∧
        MemOnly (s.Reaches p (s.tiles x) d h.fmtOut.toNat) s t) ∧
    (let x := e.ctx p 0x21 h w1
     let d := s.desc p e.hdr (x.f 7 12)
     clsEvict.Takes s e x → (∀ c ∈ s.scopeCars x, s.Joined (rtrOfCar c)) → (∀ g ∈ s.tiles x, (s.bank (x.tKey g)).cols ≤ 128) →
      ∃ t, exec (.evict p h w1) s = .next t ∧ s.Drained t x e d ∧
        (∀ a, t.byte a = ((s.tiles x).zipIdx.foldl (fun s (g, k) => s.evictTile p g (x.tKey g) (d.rowVa k) e h (x.f 7 12)) (s.took x)).byte a) ∧
        MemOnly (s.Reaches p (s.tiles x) d 0) s t) ∧
    (let x := e.ctx p 0x22 h w1
     let d := s.desc p e.hdr (x.f 7 12)
     clsLedger.Takes s e x → (∀ c ∈ s.scopeCars x, s.Joined (rtrOfCar c)) → (∀ g ∈ s.tiles x, (s.bank (x.tKey g)).cols ≤ 128) →
      (s.took x).poisonCheck p (s.stnUnit x 0x02) e.off 
        ((s.tiles x).zipIdx.flatMap (fun (g, k) => s.sliceReads p g (x.tKey g) (d.rowVa k))) = none →
      ∃ t, exec (.ledgerAdd p h w1) s = .next t ∧ s.Drained t x e d ∧
        (∀ a, t.byte a = ((s.tiles x).zipIdx.foldl (fun s (g, k) => s.ledgerTile p g (x.tKey g) (d.rowVa k) e h (x.f 7 12)) (s.took x)).byte a) ∧
        MemOnly (s.Reaches p (s.tiles x) d 0) s t)

/-- RELEASE frees the named bank of every station in scope at issue and discards what it held; every other bank, every tally entry and
all of memory stay. -/
def Obligations.ReleaseFreesItsBanks : Prop :=
  ∀ (s : State) (p : PartId) (h : Head) (w1 : Word) (e : Exec),
    let x := e.ctx p 0x23 h w1
    clsRelease.Takes s e x → (s.took x).sigFits x (s.passed x e) →
    ∃ t, exec (.release p h w1) s = .next t ∧ (∀ g ∈ s.scopeStns x, t.bank (x.tKey g) = Bank.empty) ∧
      (∀ k, k ∉ (s.scopeStns x).map x.tKey → t.bank k = s.bank k) ∧
      t.part p = { s.part p with exec := some (s.signalled x (s.passed x e)) } ∧
      (∀ k, t.flagAt k = s.afterWait x k) ∧ OnlyPart p s t ∧ OnlyChanges [.banks, .flags, .parts] s t

/-- The five mortar commands enter their stations' mortars at issue, for the paces that the assumed timing gives them, with their
descriptors as read then; nothing is written before they complete. One whose operands a mark keeps from being fetched does not start yet
(R166). -/
def Obligations.MortarCommandsEnter : Prop :=
  ∀ (s : State) (p : PartId) (h : Head) (w1 : Word) (e : Exec),
    let entered (op : Nat) (t : State) : Prop :=
      let x := e.ctx p op h w1
      let m := MDescs.of (s.mBytes x)
      let k := s.entering e x (s.orderPace p) ((s.scopeStns x).map mortarUnit) (some (s.mortarLat x m e)) 0 0 (s.mBytes x)
      s.Issued t x { s.passed x e with
        cmds := e.cmds ++ [if (s.took x).mortarMay x m then k else { k with start := none, done := none }]
        dests := e.dests ++ s.rowsOf p (s.scopeStns x) m.d ++ if op = 0x33 then s.rowsOf p (s.scopeStns x) m.s else [] }
    (clsVec.Takes s e (e.ctx p 0x30 h w1) → ∃ t, exec (.vec p h w1) s = .next t ∧ entered 0x30 t) ∧
    (clsMortar.Takes s e (e.ctx p 0x31 h w1) → ∃ t, exec (.reduce p h w1) s = .next t ∧ entered 0x31 t) ∧
    (clsMortar.Takes s e (e.ctx p 0x32 h w1) → ∃ t, exec (.spice p h w1) s = .next t ∧ entered 0x32 t) ∧
    (clsMortar.Takes s e (e.ctx p 0x33 h w1) → ∃ t, exec (.sieve p h w1) s = .next t ∧ entered 0x33 t) ∧
    (clsMortar.Takes s e (e.ctx p 0x34 h w1) → ∃ t, exec (.dropout p h w1) s = .next t ∧ entered 0x34 t)

/-- PRODUCT with no output element completes at issue; any other enters its stations' arrays and tallies and puts one run on the route
of every caravan with a share, behind the runs already there (R15, R159). One without K-rows is stated with no memory cut off from its
caravans (R243). -/
def Obligations.ProductEntersTheRoute : Prop :=
  ∀ (s : State) (p : PartId) (h : Head) (w1 : Word) (e : Exec),
    let x := e.ctx p 0x10 h w1
    let r := parseRec (s.record p e.hdr x.pRec)
    let z := s.shape x r
    let m := s.entering e x (s.orderPace p) ((s.scopeStns x).flatMap (fun g => [arrayUnit g, tallyUnit g])) none
      (if x.pDst = 0 then min 2 z.passes else 0) z.tiles.length []
    clsProduct.Takes s e x →
    (r.m = 0 ∨ r.n = 0 → (s.took x).sigFits x (s.passed x e) →
      ∃ t, exec (.product p h w1) s = .next t ∧ s.Issued t x (s.signalled x (s.passed x e))) ∧
    (r.m ≠ 0 → r.n ≠ 0 → r.k ≠ 0 →
      ∃ t, exec (.product p h w1) s = .next t ∧
        t.exec? p = some { s.passed x e with
          cmds := e.cmds ++ [m],
          dests := e.dests ++ if x.pDst = 0 then [] else
            s.rowsOf p ((z.tiles.map (·.2)).eraseDups) (s.desc p e.hdr x.pDst) } ∧
        (∀ c, t.car c = { s.car c with runs := (s.car c).runs ++ ((s.productRuns x (s.passed x e)).filter (·.1 = c)).map (·.2) }) ∧
        (∀ k, t.flagAt k = s.afterWait x k) ∧ OnlyPart p s t ∧ OnlyChanges [.cars, .flags, .parts] s t) ∧
    (r.m ≠ 0 → r.n ≠ 0 → r.k = 0 → (r.resume = 0 ∨ s.poison = []) → (∀ c ∈ s.scopeCars x, s.Joined (rtrOfCar c)) →
      (∀ c, ∀ u ∈ (s.car c).runs, u.seq = e.seq → u.off ≠ e.off) →
      ∃ t, exec (.product p h w1) s = .next t ∧
        (∀ c, (t.car c).runs = (s.car c).runs ++ ((s.productRuns x (s.passed x e)).filter (·.1 = c)).map (·.2)) ∧ OnlyPart p s t ∧
        OnlyChanges [.csr, .mem, .poison, .tally, .banks, .cars, .flags, .parts, .free] s t)

/-- MOVE and GATHER enter their caravan's drover with the position that run-ahead has reached for them (R214); no byte moves at issue,
and no other caravan changes. -/
def Obligations.DroverCommandsEnter : Prop :=
  ∀ (s : State) (p : PartId) (h : Head) (w1 : Word) (e : Exec),
    let entered (op : Nat) (t : State) : Prop :=
      let x := e.ctx p op h w1
      let c := s.qCar x
      let ds := (drvFields op).map (fun l => s.descBytes x (x.f l 12))
      ∃ e' m, t.exec? p = some e' ∧ m ∈ e'.cmds ∧ m.off = e.off ∧ m.op = op ∧ m.h = h ∧ m.w1 = w1 ∧ m.units = [droverUnit c] ∧
        m.descs = ds ∧ m.drv = (((s.car c).ahead.find? (·.off = e.off)).map (·.prog)).getD DrvProg.start ∧
        e'.off = e.off + 16 ∧ e'.marks = (s.passed x e).marks ∧
        e'.cmds.length = e.cmds.length + 1 ∧ e'.dests = e.dests ++ s.rowsOf p [c * 8] (parseDesc (ds.getLastD [])) ∧
        t.car c = { s.car c with ahead := (s.car c).ahead.filter (·.off ≠ e.off) } ∧ (∀ c', c' ≠ c → t.car c' = s.car c') ∧
        (∀ k, t.flagAt k = s.afterWait x k) ∧ OnlyPart p s t ∧ OnlyChanges [.cars, .flags, .parts] s t
    (clsDrv.Takes s e (e.ctx p 0x40 h w1) → ∃ t, exec (.move p h w1) s = .next t ∧ entered 0x40 t) ∧
    (clsDrv.Takes s e (e.ctx p 0x41 h w1) → ∃ t, exec (.gather p h w1) s = .next t ∧ entered 0x41 t)

/-- SWAP takes effect at issue when its drover is free and nothing is in flight into the depot: FILL_HALF changes sides; with
transfers in flight it waits and the partition holds with source 1; behind an earlier drover command it waits (R186, R200). -/
def Obligations.SwapExchangesTheHalves : Prop :=
  ∀ (s : State) (p : PartId) (h : Head) (w1 : Word) (e : Exec),
    let x := e.ctx p 0x42 h w1
    let c := s.qCar x
    clsSwap.Takes s e x →
    (s.occupants p e (droverUnit c) = 0 → s.depotBusy c = false →
      ∃ t e' m, exec (.swap p h w1) s = .next t ∧ t.exec? p = some e' ∧ m ∈ e'.cmds ∧ m.off = e.off ∧ m.op = 0x42 ∧
        m.done = some (s.orderPace p) ∧ e'.off = e.off + 16 ∧
        t.fld (Csr.drvDepot_fillHalf c) = 1 - s.fld (Csr.drvDepot_fillHalf c) ∧
        t.fld (Csr.drvDepot_staging c) = s.fld (Csr.drvDepot_staging c) ∧
        OnlyRegs [Csr.drvDepot c, Csr.prtHold p, Csr.prtHoldSrc p 8] s t ∧
        OnlyPart p s t ∧ OnlyChanges [.csr, .cars, .flags, .parts, .free] s t) ∧
    (s.depotBusy c = true →
      ∃ t e' m, exec (.swap p h w1) s = .next t ∧ t.exec? p = some e' ∧ m ∈ e'.cmds ∧ m.off = e.off ∧ m.op = 0x42 ∧ m.done = none ∧
        (t.car c).swapOff = some e.off ∧ t.hasHold p 1 = true ∧ t.reg (Csr.drvDepot c) = s.reg (Csr.drvDepot c) ∧
        OnlyPart p s t ∧ OnlyChanges [.csr, .cars, .flags, .parts, .free] s t) ∧
    (s.occupants p e (droverUnit c) ≠ 0 → (∀ m ∈ s.flight p e, m.units.contains (droverUnit c) → m.op ≠ 0x42) →
      s.depotBusy c = false →
      ∃ t e' m, exec (.swap p h w1) s = .next t ∧ t.exec? p = some e' ∧ m ∈ e'.cmds ∧ m.off = e.off ∧ m.op = 0x42 ∧ m.start = none ∧
        m.done = none ∧ OnlyPart p s t ∧ OnlyChanges [.cars, .flags, .parts] s t)

/-- SWAP_TAKE_EFFECT: the SWAP at the head of a caravan's drover exchanges the halves once nothing is in flight into the depot, and the
hold of source 1 ends when no other caravan's SWAP waits (R186, R200); at the end of merged holds the lockstep is restored under source 8
(R129). Stated with no drover command of an overtaken order left in the caravan. -/
def Obligations.WaitingSwapTakesEffect : Prop :=
  ∀ (s : State) (p : PartId) (c : CarId) (e : Exec) (m : Cmd),
    s.exec? p = some e → c.val ∈ s.caravans p → e.cmds.find? (fun m => m.units.contains (droverUnit c)) = some m → m.op = 0x42 →
    m.done = none → s.depotBusy c = false → (∀ q, (s.part p).prev = some q → ∀ k ∈ q.cmds, k.units.contains (droverUnit c) = false) →
    ∃ t, exec (.swapTakeEffect p c) s = .next t ∧
      t.fld (Csr.drvDepot_fillHalf c) = 1 - s.fld (Csr.drvDepot_fillHalf c) ∧
      OnlyRegs [Csr.drvDepot c, Csr.prtHold p, Csr.prtHoldSrc p 8] s t ∧
      t.exec? p = some { e with cmds := e.cmds.map (fun k =>
        if k.off = m.off then { k with start := some (s.orderPace p), done := some (s.orderPace p) } else k) } ∧
      t.car c = { s.car c with swapOff := none } ∧ (∀ d, d ≠ c.val → t.car d = s.car d) ∧
      ((s.car c).swapOff.isSome = true → (∀ d ∈ s.caravans p, d ≠ c.val → (s.car d).swapOff = none) →
        (∀ k ∈ (s.part p).holds, k.src = 1 → k.left = none) → t.hasHold p 1 = false) ∧
      OnlyPart p s t ∧ OnlyChanges [.csr, .cars, .parts, .free] s t

/-- SEND: with the weighhouse free the bucket joins the context's sent buckets with its record, behind another SEND or a RESHARD it waits
in the pending slot (R159); a skipped one is resolved whole here, in chunk order (R306); the wide form takes the banks it reads, and frees
them once it has nothing more to send (R66, R191, R316).
Stated with no packet waiting, nothing kept for the bucket from before, and no other SEND that has just left. -/
def Obligations.SendOpensItsBucket : Prop :=
  ∀ (s : State) (p : PartId) (h : Head) (w1 : Word) (e : Exec),
    let x := e.ctx p 0x70 h w1
    let b := x.f 12 20
    let w := s.wctx p
    let keys := (s.scopeStns x).map (fun g => bankKey g (x.f 49 1) false 0)
    let d := s.desc p e.hdr (x.f 0 12)
    let r := if x.f 48 1 = 1 then s.sendRec x true [] (keys.flatMap s.wideEntries) else s.sendRec x false ((List.range d.logRows).map d.rowVa) []
    let banks (t : State) (left : Bool) : Prop := ∀ k, t.bank k =
      if x.f 48 1 = 1 ∧ k ∈ keys then (if left then Bank.empty else { s.bank k with st := .taken e.off }) else s.bank k
    (clsSend (bitOf w1.toNat 48)).Takes s e x → w.waiting = [] → w.opens.all (·.1 ≠ b) = true →
    (∀ k, (s.bank k).st ≠ .taken e.off) → (∀ q, q = e ∨ (s.part p).prev = some q → ∀ m ∈ q.cmds, m.op = 0x70 → m.done.isSome = true ∨ m.start = none) →
    w.old.all (·.bucket ≠ b) = true → w.taken.all (·.bucket ≠ b) = true → w.queued.all (·.off ≠ e.off) = true →
    (r.skipped = false → s.occupants p e (wghUnit s p) = 0 →
      ∃ t e', exec (.send p h w1) s = .next t ∧ t.exec? p = some e' ∧ e'.off = e.off + 16 ∧ e'.sent = b :: e.sent ∧
        (∃ m ∈ e'.cmds, m.off = e.off ∧ m.op = 0x70 ∧ m.units = [wghUnit s p] ∧ m.start = some (s.orderPace p)) ∧
        t.wctx p = { w with sends := w.sends.filter (·.bucket ≠ b) ++ [r] } ∧ banks t ((List.range r.chunks).all (w.owns b)) ∧ OnlyPart p s t ∧
        OnlyChanges [.banks, .flags, .parts, .wgh] s t) ∧
    (r.skipped = false → s.occupants p e (wghUnit s p) ≠ 0 → e.cmds.all (·.off ≠ e.off) = true →
      ∃ t e', exec (.send p h w1) s = .next t ∧ t.exec? p = some e' ∧ e'.off = e.off + 16 ∧ e'.sent = b :: e.sent ∧
        (∃ m ∈ e'.cmds, m.off = e.off ∧ m.op = 0x70 ∧ m.units = [wghUnit s p] ∧ m.start = none ∧ m.done = none) ∧
        t.wctx p = { w with queued := w.queued ++ [r] } ∧ banks t false ∧ OnlyPart p s t ∧ OnlyChanges [.banks, .flags, .parts, .wgh] s t) ∧
    (r.skipped = true → (s.took x).sigFits x (s.passed x e) →
      ∃ t e', exec (.send p h w1) s = .next t ∧ t.exec? p = some e' ∧ e'.off = e.off + 16 ∧ e'.sent = b :: e.sent ∧
        (t.wctx p).inbox = w.inbox ++ (List.range r.chunks).map (fun c => ⟨b, c, 3, w.owns b c, [], false, false⟩) ∧
        OnlyPart p s t ∧ OnlyChanges [.flags, .parts, .wgh] s t)

/-- RESHARD: with every bucket of the epoch closed and a sound pending table, the table becomes the member list, the pending epoch the
epoch, and the group's size and rank follow; with a bucket open the partition holds with source 10 (R321). Stated with no poisoned word
in the table (R376). -/
def Obligations.ReshardMakesTheEpoch : Prop :=
  ∀ (s : State) (p : PartId) (h : Head) (w1 : Word) (e : Exec),
    let x := e.ctx p 0x71 h w1
    clsReshard.Takes s e x →
    (s.epochClosed p = true → s.tablePoison p e.off = none → s.tableFault p = none → (s.wctx p).waiting = [] →
      ∃ t, exec (.reshard p h w1) s = .next t ∧ s.EpochMade t p e.off) ∧
    (s.epochClosed p = false →
      ∃ t, exec (.reshard p h w1) s = .next t ∧
        t.exec? p = some { s.passed x e with cmds := e.cmds ++ [s.entering e x (s.orderPace p) [wghUnit s p] none 0 0 []] } ∧
        t.hasHold p 10 = true ∧ t.wctx p = s.wctx p ∧ t.reg (Csr.wghEpoch p) = s.reg (Csr.wghEpoch p) ∧ OnlyPart p s t ∧
        OnlyChanges [.csr, .flags, .parts, .free] s t)

/-- RESHARD_EPOCH_TAKE_EFFECT makes the epoch of a RESHARD that waits, once its buckets are closed; RESHARD_TIMEOUT faults an order
whose buckets are not, with code 0x41, reason 2 and the epoch the command names (R321). -/
def Obligations.WaitingReshardEnds : Prop :=
  ∀ (s : State) (p : PartId) (e : Exec) (m : Cmd), s.exec? p = some e → s.reshardCmd p = some m →
    (s.epochClosed p = true → s.tablePoison p m.off = none → s.tableFault p = none → (s.wctx p).waiting = [] →
      ∃ t, exec (.reshardEpochTakeEffect p) s = .next t ∧ s.EpochMade t p m.off) ∧
    (s.epochClosed p = false →
      ∃ t e', exec (.reshardTimeout p) s = .next t ∧ t.exec? p = some e' ∧ e'.ended = true ∧ e'.cmds = [] ∧
        e'.fault = some (faultRec p 0x41 (wghUnit s p) e.seq (s.orderPace p) m.off
          (s.fld (Csr.wghEpoch_epoch p) + bitsOf m.w1.toNat 0 16 * 2 ^ 16 + 2 * 2 ^ 52)) ∧ OnlyPart p s t)

/-- LOSSCHK records the first loss of the order; a finite loss lets it go on, a loss that is not finite ends it there with outcome 4
and votes for it; what the drovers have fetched past it is dropped (R192, R224, R294). Stated with no consignment waiting for its loss and no restore under verification. -/
def Obligations.LosschkReadsTheLoss : Prop :=
  ∀ (s : State) (p : PartId) (h : Head) (w1 : Word) (e : Exec),
    let x := e.ctx p 0x78 h w1
    let d := s.desc p e.hdr (x.f 0 12)
    let loss := BitVec.ofNat 32 (leNat (s.vbytes p (s.homeStn p) (d.rowVa 0) 4))
    clsLosschk.Takes s e x → (s.took x).poisonCheck p (updUnit s p) e.off [(s.homeStn p, d.rowVa 0, 4)] = none →
    s.csgState p ≠ 1 → s.csgState p ≠ 2 → (s.part p).csg.verify = none →
    ((f32 loss.toNat).isFin = true → (s.took x).sigFits x (s.passed x e) →
      ∃ t, exec (.losschk p h w1) s = .next t ∧
        s.Issued t x (s.signalled x { s.passed x e with loss := some (e.loss.getD loss) })) ∧
    ((f32 loss.toNat).isFin = false →
      ∃ t, exec (.losschk p h w1) s = .next t ∧
        t.exec? p = some { s.passed x e with loss := some (e.loss.getD loss), ended := true, endOff := none, outcome := 4 } ∧
        (∀ c ∈ s.caravans p, (t.car c).ahead = [] ∧ ∀ f ∈ (t.car c).xfers, e.off ≤ f.off → f.seq = e.seq → f.dropped = true) ∧
        ((s.wctx p).peers ≠ [] → (t.wctx p).voted = some 4) ∧ OnlyPart p s t)

/-- UPDATE joins the order's updates with its rule record, mode and freeze mask as read at issue; with the engine stopped it completes
at once without effect, otherwise it enters the update engine (R285, R295). Stated with no packet waiting at a port. -/
def Obligations.UpdateEntersTheEngine : Prop :=
  ∀ (s : State) (p : PartId) (h : Head) (w1 : Word) (e : Exec),
    let x := e.ctx p 0x79 h w1
    let rec_ := s.record p e.hdr (x.f 20 12)
    let r := parseRule rec_
    let fd := s.desc p e.hdr r.freeze
    let u (stop : Bool) : Upd :=
      { off := e.off, bucket := x.f 0 20, rule := rec_, direct := decide (x.f 32 1 = 1),
        mask := if r.freeze = 0 then [] else s.extent p fd, applied := [], bad := 0, wrote := false, written := false, finished := stop }
    clsUpdate.Takes s e x → (s.wctx p).waiting = [] →
    (s.took x).poisonCheck p (updUnit s p) e.off (if r.freeze = 0 then [] else fd.ranges (s.homeStn p)) = none →
    (s.flag1 (Csr.updCommit_stopped p) = true → (s.took x).sigFits x (s.passed x e) →
      ∃ t, exec (.update p h w1) s = .next t ∧
        t.exec? p = some (s.signalled x { s.passed x e with upds := e.upds ++ [u true], direct := some (decide (x.f 32 1 = 1)) }) ∧
        (∀ q, t.wctx q = s.wctx q) ∧ OnlyPart p s t ∧ OnlyChanges [.flags, .parts, .wgh] s t) ∧
    (s.flag1 (Csr.updCommit_stopped p) = false →
      ∃ t, exec (.update p h w1) s = .next t ∧
        t.exec? p = some { s.passed x e with
          upds := e.upds ++ [u false], direct := some (decide (x.f 32 1 = 1)),
          dests := e.dests ++ s.planeDests x r (decide (x.f 32 1 = 1)),
          cmds := e.cmds ++ [s.entering e x (s.orderPace p) [updUnit s p] none 0 0 (r.planes.map (fun a => s.descBytes x a.1))] } ∧
        (x.f 32 1 = 1 → e.upds = [] → s.csgState p = 1 → t.hasHold p 10 = true) ∧
        (∀ q, t.wctx q = s.wctx q) ∧ OnlyRegs [Csr.prtHold p, Csr.prtHoldSrc p 10] s t ∧ OnlyPart p s t ∧
        OnlyChanges [.csr, .flags, .parts, .wgh, .free] s t)

/-- COMMIT: in a job of one member with every UPDATE finished it decides the step at once by the local outcome, and completes unless a
staged commit waits for a consignment's reads; with an UPDATE open it holds the partition with source 1 (R293, R317). -/
def Obligations.CommitDecidesTheStep : Prop :=
  ∀ (s : State) (p : PartId) (h : Head) (w1 : Word) (e : Exec),
    let x := e.ctx p 0x7A h w1
    let m := s.entering e x (s.orderPace p) [stepUnit s p] none 0 0 []
    let o := s.localOutcome p e
    clsCommit.Takes s e x → e.outcome = 0 →
    (e.upds.all (·.finished) = true → (s.wctx p).peers = [] → s.csgState p ≠ 1 →
      ∃ t, exec (.commit p h w1) s = .next t ∧
        t.exec? p = some (Exec.doneOp { s.passed x e with
          committed := true, voteOff := some e.off, cmds := e.cmds ++ [m], outcome := o, pending := decide (o = 1),
          normNew := if o = 1 then some (s.wctx p).normBits else none } 0x7A (s.orderPace p)) ∧
        t.fld (Csr.updCommit_stopped p) = (if o = 5 ∨ (e.direct = some true ∧ o ≠ 1) then 1 else s.fld (Csr.updCommit_stopped p)) ∧
        OnlyRegs [Csr.updCommit p, Csr.prtHold p, Csr.prtHoldSrc p 8] s t ∧ OnlyPart p s t ∧
        OnlyChanges [.csr, .flags, .parts, .free] s t) ∧
    (e.upds.all (·.finished) = false →
      ∃ t, exec (.commit p h w1) s = .next t ∧
        t.exec? p = some { s.passed x e with committed := true, voteOff := some e.off, cmds := e.cmds ++ [m] } ∧
        t.hasHold p 1 = true ∧ OnlyRegs [Csr.prtHold p, Csr.prtHoldSrc p 1] s t ∧ OnlyPart p s t ∧
        OnlyChanges [.csr, .flags, .parts, .free] s t)

/-! The engines while an order runs. -/

/-- COMMAND_COMPLETE: a due command leaves the flight list and gives its signal; a mortar's results are formed from the state before
any of its writes (R167), a tally-control command frees the banks it took (R174), a product's runs go once none of their tiles is on the
route (R68). A product with remnant passes to fenced stations stays until they have run, under a hold of source 4 (R84). Stated with no
product and no SEND in a pending slot, which would start, and no memory cut off from a mortar command's caravans (R243). -/
def Obligations.CommandCompletes : Prop :=
  ∀ (s : State) (p : PartId) (off : Nat) (e : Exec) (m : Cmd),
    let x := m.ctx p e.hdr
    s.wf = true → s.dev.safeHold = false → s.exec? p = some e → e.fault = none → (s.dueCmds p).find? (fun m => m.off = off) = some m →
    (∀ k ∈ e.cmds, k.start = none → k.op ≠ 0x10 ∧ k.op ≠ 0x70) →
    (isMortar m.op = true → ∀ c ∈ s.scopeCars x, s.Joined (rtrOfCar c)) →
    (isMortar m.op = true → s.poisonCheck p (s.stnUnit x 0x04) off (s.mortarReads x (MDescs.of m.descs)) = none) →
    ((m.op = 0x10 → s.remnantCars p off = []) → s.sigFits x e →
      ∃ t e', exec (.commandComplete p off) s = .next t ∧ t.exec? p = some e' ∧ (∀ k ∈ e'.cmds, k.off ≠ off) ∧
        e'.sigs = e.sigs ++ s.sigOf x e ∧ e'.off = e.off ∧ OnlyPart p s t ∧ (∀ k, t.flagAt k = s.flagAt k) ∧
        (isMortar m.op = true → ∀ a, t.byte a = (s.mortarFinish x (MDescs.of m.descs)).byte a) ∧
        (isMortar m.op = false → ∀ a, t.byte a = s.byte a) ∧
        (m.op = 0x20 ∨ m.op = 0x21 ∨ m.op = 0x22 → ∀ k, t.bank k =
          if (s.bank k).st = .taken off ∧ k / 42 ∈ s.scopeStns x then Bank.empty else s.bank k) ∧
        (m.op = 0x10 → ∀ c ∈ s.caravans p,
          let mine (u : Run) : Bool := u.seq = e.seq && u.off = off
          (t.car c).runs = ((s.car c).runs.filter (fun u => !mine u || u.onRoute (s.car c).tiles)).map (fun u =>
            if mine u then { u with ended := true } else u)) ∧
        OnlyChanges [.csr, .mem, .poison, .banks, .cars, .parts, .free] s t) ∧
    (m.op = 0x10 → s.remnantCars p off ≠ [] →
      ∃ t e', exec (.commandComplete p off) s = .next t ∧ t.exec? p = some e' ∧ e'.cmds.map (·.off) = e.cmds.map (·.off) ∧ e'.sigs = e.sigs ∧
        t.hasHold p 4 = true ∧ (∀ c ∈ s.remnantCars p off, (off, 0) ∈ (t.car c).remnant) ∧ OnlyPart p s t ∧
        OnlyChanges [.csr, .cars, .parts, .free] s t)

/-- ELASTIC_WAIT_SATISFIED: once what is on the way to the flag or queue makes it ready, the waiting command goes on from step 6 of
R160; a waiting NOP then completes, its flag falls by the quantum, and the hold of source 2 is over. Not ready yet, it waits on. At the
end of merged holds the lockstep is restored (R129). -/
def Obligations.ElasticWaitEnds : Prop :=
  ∀ (s : State) (p : PartId) (e : Exec) (op : Nat) (h : Head) (w1 : Word) (c : Cls),
    let s' := s.arriveFor p op h w1
    s.dev.safeHold = false → s.exec? p = some e → e.fault = none → s.hasHold p 2 = true → e.waiting = some (op, h, w1) →
    clsOf op w1 = some c →
    (s'.waitOver p op h w1 = true →
      exec (.elasticWaitSatisfied p) s = .next { s.realignFree (c.resume s' p op h w1) p with pending := s.pending }) ∧
    (s'.waitOver p op h w1 = false → ∃ t, exec (.elasticWaitSatisfied p) s = .next t ∧ t.hasHold p 2 = true ∧
      (t.exec? p).map (·.waiting) = some (some (op, h, w1))) ∧
    (op = 0x00 → h.signal = 0 → h.wait ≠ 0 → s.poison = [] → (∀ k ∈ (s.part p).holds, k.src = 2 → k.left = none) →
      let x := e.ctx p 0x00 h w1
      let k := s.flagKey p (s.flagCar x) h.wait.toNat
      let f := s.flagAt k
      f.quantum ≠ 0 → f.quantum ≤ f.count + e.signalsTo k →
      ∃ t, exec (.elasticWaitSatisfied p) s = .next t ∧
        t.exec? p = some { s.passed x e with waiting := none, sigs := e.sigs.filter (fun y => y.1 ≠ k) } ∧
        t.flagAt k = { f with count := f.count + e.signalsTo k - f.quantum } ∧ (∀ j, j ≠ k → t.flagAt j = s.flagAt j) ∧
        t.hasHold p 2 = false ∧ OnlyRegs [Csr.prtHold p, Csr.prtHoldSrc p 8] s t ∧ OnlyPart p s t ∧
        OnlyChanges [.csr, .flags, .parts, .free] s t)

/-- PACE_EXECUTE: a cycle in holds counts as held, runs down the holds of known length and does not advance the pace count (R121, R129);
at the end of merged holds the units that lost fewer cycles may stop under source 8, within the hold wave (R129); a pace in which nothing
is due and nothing issues raises the count by one. Stated with nothing in flight and no hold of the power cap to come. -/
def Obligations.PaceCounts : Prop :=
  ∀ (s : State) (p : PartId) (e : Exec),
    s.dev.safeHold = false → (s.part p).suspended = false → (s.part p).prev = none → s.exec? p = some e → e.fault = none →
    e.cmds = [] → e.sigs = [] → e.upds = [] → (s.part p).capLeft = 0 →
    ((s.part p).holds ≠ [] → (s.part p).stepLeft = none →
      let left := ((s.part p).holds.map (fun h => { h with left := h.left.map (· - 1) })).filter (·.left ≠ some 0)
      ∃ t, exec (.paceExecute p []) s = .next t ∧ t.pace p = s.pace p ∧
        t.fld (Csr.prtHold_holdCycles p) = min (s.fld (Csr.prtHold_holdCycles p) + 1) (2 ^ 48 - 1) ∧
        ((t.part p).holds = left ∨
          (left = [] ∧ (s.part p).merged = true ∧ ∃ n, 0 < n ∧ n ≤ s.wave p ∧ (t.part p).holds = [⟨8, some n⟩])) ∧
        t.exec? p = some e ∧ OnlyPart p s t ∧ OnlyChanges [.csr, .parts, .free] s t) ∧
    ((s.part p).holds = [] → e.ended = false → s.issuable p = false → (∀ b ∈ (s.part p).bps, b = none) →
      (∀ c ∈ s.caravans p, s.car c = Car.idle) →
      ∃ t, exec (.paceExecute p []) s = .next t ∧ t.pace p = (s.pace p + 1) % 2 ^ 64 ∧ t.exec? p = some e ∧
        (t.part p).stepLeft = (match (s.part p).stepLeft with
          | some n => if n ≤ 1 then none else some (n - 1)
          | none => none) ∧
        OnlyRegs [Csr.prtPace p] s t ∧ OnlyPart p s t ∧ OnlyChanges [.csr, .banks, .cars, .parts] s t)

/-- MERGE_COMPLETE: the partial sums of a K-split group are added exactly into the first station's bank, and the other banks are
released (R112). Stated for one product on the caravan's route, none of whose passes restarts or holds an entry whose state copies
differ (R78), and with no memory cut off from the caravan (R243). -/
def Obligations.MergeAddsExactly : Prop :=
  ∀ (s : State) (p : PartId) (c : CarId) (b : Fin 2) (grp : Fin 4) (e : Exec) (u : Run) (pi n : Nat) (dr : Bool),
    let g := c.val * 8 + (u.inj + grp.val * u.s) % 8
    let k0 := u.key g pi
    let rest := (u.kGroup g).tail.filter (fun h => u.off8 h % u.s < u.tiles)
    s.dev.safeHold = false → s.exec? p = some e → e.fault = none → (s.part p).prev.map (·.seq) ≠ some u.seq → c.val ∈ s.caravans p →
    s.Joined (rtrOfCar c) → (s.car c).runs = [u] → s.copiesDiffer (s.bank k0) (k0 :: rest.map (fun h => u.key h pi)) = false →
    (s.car c).restart = false → u.s ≠ 1 → u.s ≤ 8 → grp.val * u.s < 8 → pi % 2 = b.val → pi < u.passes →
    (s.bank k0).st = .merging u.off n dr → (s.bank k0).seq = u.seq → (s.bank k0).pi = pi → n ≠ 0 → n ≤ s.pace p →
    ∃ t, exec (.mergeComplete p c b grp) s = .next t ∧
      (∀ r cc, (s.bank k0).fed r = true → cc < 128 → t.entry (entryKey k0 r cc) = entryOf u.w32
        (rest.foldl (fun (a : Acc) h => a.add (frameUnit u.w32) ((s.entry (entryKey (u.key h pi) r cc)).val u.w32))
          (s.entry (entryKey k0 r cc)).acc)) ∧
      (∀ k, (∀ r cc, r < 32 → cc < 128 → k ≠ entryKey k0 r cc) → t.entry k = s.entry k) ∧
      (∀ h ∈ (u.kGroup g).tail, t.bank (u.key h pi) = { Bank.empty with st := if u.f 24 12 = 0 then .released else .free }) ∧
      (u.f 24 12 = 0 → ∃ m, (t.bank k0).st = .held m) ∧ (u.f 24 12 ≠ 0 → ∃ m, (t.bank k0).st = .draining u.off m) ∧ OnlyPart p s t

/-- HOLD_END: a hold of known length ends with its remaining cycles counted; the hold of a restart ends with the passes run again and
their banks readable; the hold of source 1 ends once its cause is gone. At the end of merged holds the realignment stops the rest under
source 8 (R88, R129). The hold of source 4 is stated with no remnant pass to run, no overtaken order, and no restarted pass that has come to
its end (R81). -/
def Obligations.HoldsEnd : Prop :=
  ∀ (s : State) (p : PartId) (src : Fin 11) (k : Fin 25) (hd : Hold) (e : Exec),
    let hs := (s.part p).holds.filter (·.src = src.val)
    let gap (left : List Hold) : Bool := k.val ≠ 0 && (s.part p).merged && left.isEmpty
    s.wf = true → s.exec? p = some e → e.fault = none → (hs.find? (·.left.isNone)).orElse (fun _ => hs.head?) = some hd →
    (∀ n, hd.left = some n →
      let left := ((s.part p).holds.map (fun h => { h with left := h.left.map (· - n) })).filter (·.left ≠ some 0)
      ∃ t, exec (.holdEnd p src k) s = .next t ∧ t.exec? p = some e ∧
        (t.part p).holds = (if gap left then [⟨8, some k.val⟩] else left) ∧
        t.fld (Csr.prtHold_holdCycles p) = min (s.fld (Csr.prtHold_holdCycles p) + n) (2 ^ 48 - 1) ∧ OnlyPart p s t ∧
        OnlyChanges [.csr, .parts, .free] s t) ∧
    (hd.left = none → src.val = 4 → (∀ h ∈ hs, h.left = none) → (s.part p).prev = none → (∀ c ∈ s.caravans p, (s.car c).remnant = []) →
      (∀ c ∈ s.caravans p, (s.car c).restart = true → ∀ x ∈ s.banks, x.1 / 336 = c → ∀ u ∈ (s.car c).runs, x.2.tile ≠ u.lastUsed (x.1 / 42) ∨ x.2.done ≠ 32) →
      ∃ t, exec (.holdEnd p src k) s = .next t ∧ t.hasHold p 4 = false ∧
        t.hasHold p 8 = (s.hasHold p 8 || gap ((s.part p).holds.filter (·.src ≠ 4))) ∧
        (∀ c ∈ s.caravans p, (t.car c).restart = false) ∧
        (∀ c ∈ s.caravans p, (s.car c).restart = true → ∀ j off u, j / 336 = c → (s.bank j).st = .filling off →
          (s.car c).runs.find? (fun u => u.seq = (s.bank j).seq && off = u.off) = some u →
          t.bank j = { s.bank j with poisoned := false }) ∧
        (∀ j, (∀ c ∈ s.caravans p, (s.car c).restart = true → j / 336 ≠ c) → t.bank j = s.bank j) ∧
        (∀ j, (∀ c ∈ s.caravans p, (s.car c).restart = true → j / 4096 / 336 ≠ c) → t.entry j = s.entry j) ∧ OnlyPart p s t ∧
        OnlyChanges [.csr, .tally, .banks, .cars, .parts, .free] s t) ∧
    (hd.left = none → src.val = 1 → (∀ h ∈ hs, h.left = none) → s.lateStill p = false → e.waiting = none →
      ∃ t, exec (.holdEnd p src k) s = .next t ∧ t.hasHold p 1 = false ∧ t.exec? p = some e ∧ OnlyPart p s t ∧
        OnlyChanges [.csr, .parts, .free] s t)

/-- DRV_ISSUE: the drover of a caravan issues the next transfer of its running command, at most one row and never across 2 KiB of the
source, while fewer than 512 are outstanding (R215), over the mesh when an end lies in another caravan (R230). A hold that is not for late
data, a mark whose earlier commands are uncompleted, and an end that no route reaches are shut out (R166, R235, R243). -/
def Obligations.DroverIssues : Prop :=
  ∀ (s : State) (c : CarId) (p : Nat) (e : Exec) (m : Cmd) (x : Piece) (miss : Bool) (q : DrvProg) (a b : Nat),
    s.partOfCar c = some p → s.drvStill p = false → s.exec? p = some e → (s.part p).prev = none → e.drvCmd c = some m →
    (∀ o, s.markAt p c e = some o → m.off < o) →
    s.drvNext p c m.op m.w1 m.descs m.drv = .fetch x miss q → s.endPa p x.src = some a → s.endPa p x.dst = some b →
    (s.car c).outstanding < 512 → (s.meshXfer c (s.redirect a) (s.redirect b) x.len).2 = true →
    ∃ t, exec (.drvIssue c) s = .next t ∧
      (t.car c).xfers = (s.car c).xfers ++
        [⟨(s.car c).nextX, p, e.seq, m.off, a, b, x.len, levelCode a, x.src, inSatchel b, if m.op = 0x41 then x.thread + 1 else 0, false,
          false⟩] ∧
      (t.car c).nextX = (s.car c).nextX + 1 ∧ (∃ e' k, t.exec? p = some e' ∧ k ∈ e'.cmds ∧ k.off = m.off ∧ k.drv = q) ∧
      t.fld (Csr.drvStatus_outstanding c) = min 512 ((s.car c).outstanding + 1) ∧
      x.len ≤ 2048 ∧ x.src / 2048 = (x.src + (x.len - 1)) / 2048 ∧ (∀ d, d ≠ c.val → t.car d = s.car d) ∧ OnlyPart p s t ∧
      OnlyRegs ([Csr.drvStatus c, Csr.drvGather c] ++ meshRegs) s t ∧ OnlyChanges [.csr, .cars, .parts] s t

/-- DRV_TRANSFER_COMPLETE and TRANSFER_TIMEOUT: a clean transfer copies its bytes, a discarded one copies nothing and is counted, one
whose transport was poisoned twice is part fault 0x70 of what carried it, one past its limit part fault 0x15; each leaves the list. What
the mesh cannot reach never arrives, nor what the spill tier would take or send while it is absent (R216, R223, R243, R376, R414,
R436). -/
def Obligations.TransfersEnd : Prop :=
  ∀ (s : State) (c : CarId) (id : Nat) (x : Xfer), x.part < 8 → (s.car c).xfers.find? (fun y => y.id = id) = some x →
    (x.lost = true → ∀ arr, exec (.drvTransferComplete c id arr) s = .next s) ∧
    (s.tierGone x.src = true ∨ s.tierGone x.dst = true → ∀ arr, exec (.drvTransferComplete c id arr) s = .next s) ∧
    (x.lost = false → s.tierGone x.src = false → s.tierGone x.dst = false → x.dropped = true →
      ∃ t, exec (.drvTransferComplete c id .clean) s = .next t ∧
      (t.car c).xfers = (s.car c).xfers.filter (fun y => y.id ≠ id) ∧
      t.fld (Csr.drvXfer_discarded c) = min (s.fld (Csr.drvXfer_discarded c) + 1) (2 ^ 16 - 1) ∧
      OnlyRegs [Csr.drvStatus c, Csr.drvXfer c] s t ∧ OnlyChanges [.csr, .cars] s t) ∧
    (∀ e, x.lost = false → s.tierGone x.src = false → s.tierGone x.dst = false → x.dropped = false → s.exec? x.part = some e → (s.part x.part).prev.map (·.seq) ≠ some x.seq →
      (e.issued x.off = true ∨ x.satchel = false) → s.poison = [] →
      (∃ t, exec (.drvTransferComplete c id .clean) s = .next t ∧
        (t.car c).xfers = (s.car c).xfers.filter (fun y => y.id ≠ id) ∧
        t.fld (Csr.drvXfer_transfers c) = min (s.fld (Csr.drvXfer_transfers c) + 1) (2 ^ 32 - 1) ∧
        (∀ y, t.byte y = (s.copyPa x.src x.dst x.len).byte y) ∧
        MemOnly (fun y => ∃ i, i < x.len ∧ y = s.redirect (x.dst + i)) s t ∧
        OnlyRegs [Csr.drvStatus c, Csr.drvXfer c] s t ∧ OnlyPart x.part s t ∧ OnlyChanges [.csr, .mem, .poison, .cars, .parts] s t) ∧
      (∀ v : Carrier, e.fault = none → ∃ t e', exec (.drvTransferComplete c id (.repeatPoisoned v)) s = .next t ∧
        t.exec? x.part = some e' ∧ e'.partFault = true ∧
        e'.fault = some (faultRec x.part 0x70 (carrierUnit v) e.seq (s.orderPace x.part) x.off (carrierUnit v + 2 ^ 16)))) ∧
    (∀ e dstEnd, x.dropped = false → s.exec? x.part = some e → e.fault = none → (s.part x.part).prev.map (·.seq) ≠ some x.seq →
      ∃ t e', exec (.transferTimeout c id dstEnd) s = .next t ∧ t.exec? x.part = some e' ∧ e'.partFault = true ∧
        (let pa := if dstEnd then x.dst else x.src
         e'.fault = some (faultRec x.part 0x15 (droverUnit c) e.seq (s.orderPace x.part) x.off (pa % 2 ^ 48 + levelCode pa * 2 ^ 48)))) ∧
    (∀ dstEnd, x.dropped = true → ∃ t, exec (.transferTimeout c id dstEnd) s = .next t ∧
      (t.car c).xfers = (s.car c).xfers.filter (fun y => y.id ≠ id) ∧
      t.fld (Csr.drvXfer_timeouts c) = min (s.fld (Csr.drvXfer_timeouts c) + 1) (2 ^ 8 - 1) ∧ OnlyChanges [.csr, .cars] s t)

/-- TOLL_GRANT: the toll grants the first requester after the last one granted, in cyclic order, that has a request and is not masked, and
at an egress toll a packet that owns or could take a VC with a credit, for at most TOL_CFG.BURST beats, and counts the grant; the wait counts unless the owner goes on at once; with no such requester nothing is
counted and no grant is in force (R250, R251, R256, R257, R341). -/
def Obligations.TollGrantsRoundRobin : Prop :=
  ∀ (s : State) (i : Fin 104) (req : BitVec 40) (wait : Nat),
    let open_ (r : Nat) : Prop := r ≠ 39 ∧ bitOf req.toNat r = true ∧ bitOf (s.tollMask i) r = false ∧ s.tollAsks i r = true
    (∀ d, d < 40 → open_ (((s.toll i).last + 1 + d) % 40) → (∀ d', d' < d → ¬ open_ (((s.toll i).last + 1 + d') % 40)) →
      let r := ((s.toll i).last + 1 + d) % 40
      ∃ t, exec (.tollGrant i req wait) s = .next t ∧ t.toll i = ⟨r, some r, s.burst i⟩ ∧
        t.fld (Csr.tolReq_grants i r) = min (s.fld (Csr.tolReq_grants i r) + 1) (2 ^ 32 - 1) ∧
        t.fld (Csr.tolReq_waits i r) = (if wait = 0 ∨ (s.toll i).owner = some r then s.fld (Csr.tolReq_waits i r)
          else min (s.fld (Csr.tolReq_waits i r) + 1) (2 ^ 32 - 1)) ∧
        (∀ j, j ≠ i.val → t.toll j = s.toll j) ∧ OnlyRegs [Csr.tolReq i r, Csr.tolLongest i r] s t ∧ OnlyChanges [.csr, .tolls] s t) ∧
    ((∀ r, r < 40 → ¬ open_ r) →
      ∃ t, exec (.tollGrant i req wait) s = .next t ∧ t.toll i = { s.toll i with owner := none, limit := 0 } ∧ OnlyChanges [.tolls] s t)

/-- TOLL_STARVE sets the requester's bit once and tells the Factor; a masked requester never starves, nor does number 39, and a bit
already set raises nothing again (R250, R255). STRAGGLER counts a stalled branch of a partition that is not in a debug halt, names it, and
tells the Factor (R240). A multicast passes each router of its tree once, however many receivers share it, and gives each receiver whose
primary route fails a copy of its own from the router of the lowest caravan, counted there when it takes a detour route (R238, R241). -/
def Obligations.MeshEventsCount : Prop :=
  (∀ (s : State) (i : Fin 104) (r : Fin 40),
    (r.val ≠ 39 → bitOf (s.tollMask i) r = false → bitOf (s.fld (Csr.tolStarved_starved i)) r = false →
      ∃ t, exec (.tollStarve i r) s = .next t ∧ t.fld (Csr.tolStarved_starved i) = s.fld (Csr.tolStarved_starved i) + 2 ^ r.val ∧
        Out.toFactor 2 (i.val * 64 + r.val) ∈ t.out) ∧
    (r.val = 39 ∨ bitOf (s.tollMask i) r = true ∨ bitOf (s.fld (Csr.tolStarved_starved i)) r = true →
      exec (.tollStarve i r) s = .next s)) ∧
  (∀ (s : State) (h : HalfId) (p : PartId) (c : CarId), c.val ∈ s.caravans p → s.hasHold p 9 = false →
    ∃ t, exec (.straggler h p c) s = .next t ∧
      t.fld (Csr.mshMcast_stragglerEvents h) = min (s.fld (Csr.mshMcast_stragglerEvents h) + 1) (2 ^ 16 - 1) ∧
      t.fld (Csr.mshMcast_lastReceiver h) = unitId c 0 0x10 ∧ Out.toFactor 1 (unitId c 0 0x10) ∈ t.out ∧ t.exec? p = s.exec? p) ∧
  (∀ (s : State) (a : Rtr) (bs : List Rtr) (plane n : Nat),
    let good (r : Rtr) : Prop := r.half < 2 ∧ r.row < 4 ∧ r.col < 8
    let onTree (r : Rtr) : Prop := ∃ b ∈ bs, ∃ path ch, s.route a b plane = .primary path ch ∧ r ∈ path
    let copies := bs.filter (fun b => match s.route a b plane with
      | .detour .. => true
      | _ => false)
    let sender (b : Rtr) : Rtr := if b = bs.headD a then a else bs.headD a
    let t := s.sendTree a bs plane n
    good a → (∀ b ∈ bs, good b) →
    (copies = [] → ∀ r, good r →
      (onTree r → t.fld (Csr.mshRouter_flits r.half r.inst) =
        min (s.fld (Csr.mshRouter_flits r.half r.inst) + max 1 (cdiv n 512)) (2 ^ 48 - 1)) ∧
      (¬ onTree r → t.fld (Csr.mshRouter_flits r.half r.inst) = s.fld (Csr.mshRouter_flits r.half r.inst))) ∧
    (∀ r, good r → t.fld (Csr.mshRouter_detoured r.half r.inst) =
      min (s.fld (Csr.mshRouter_detoured r.half r.inst) + (copies.filter (fun b => sender b = r ∧ (s.route r b plane).vc .multicast = some 5)).length)
        (2 ^ 16 - 1)))

/-- STEP_WATCHDOG_EXPIRE: a running order that is neither cancelled nor in a debug halt nor suspended fails with code 0x0D, at the lowest
offset in flight, and the expiry is counted (R135). -/
def Obligations.WatchdogFaults : Prop :=
  ∀ (s : State) (p : PartId) (e : Exec), s.exec? p = some e → e.fault = none → e.cancelled = false → s.hasHold p 9 = false →
    (s.part p).suspended = false →
    ∃ t e', exec (.stepWatchdogExpire p) s = .next t ∧ t.exec? p = some e' ∧ e'.ended = true ∧ e'.partFault = false ∧
      e'.fault = some (faultRec p 0x0D (manUnit s p) e.seq (s.orderPace p) (e.cmds.foldl (fun n m => min n m.off) e.off) (s.dogWord p e)) ∧
      t.fld (Csr.prtWdog_expiries p) = min (s.fld (Csr.prtWdog_expiries p) + 1) (2 ^ 16 - 1) ∧ OnlyPart p s t

/-- UPDATE_CHUNK_APPLY: a good chunk of the running UPDATE is written, element by element under its rule, and joins those applied; a bad
chunk writes nothing and ends the UPDATE with its reason (R285 to R292). Stated with no UPDATE of the bucket open in an overtaken order, and
no memory cut off from the update engine (R243). -/
def Obligations.ChunksApply : Prop :=
  ∀ (s : State) (p : PartId) (b : BitVec 20) (c : BitVec 16) (e : Exec) (u : Upd) (x : ChunkIn),
    let w := s.wctx p
    let pls := e.planes u
    let ws := s.chunkWrites p e u pls c.toNat x.vals false
    s.dev.safeHold = false → s.exec? p = some e → e.fault = none → e.upds.find? (fun u => u.bucket = b.toNat) = some u →
    (∀ q, (s.part p).prev = some q → ∀ y ∈ q.upds, y.bucket = b.toNat → y.finished = true) → s.Joined (s.updRtr p) →
    w.inbox.find? (fun x => x.bucket = b.toNat && x.chunk = c.toNat) = some x → ¬ (u.direct = true ∧ s.csgState p = 1) →
    u.finished = false → e.upds.find? (fun y => !y.finished) = some u → s.flag1 (Csr.updCommit_stopped p) = false →
    (x.kind = 0 → s.poison = [] → ws.all (fun y => y.2.2.fine) = true →
      ∃ t e', exec (.updateChunkApply p b c) s = .next t ∧ t.exec? p = some e' ∧ (t.wctx p).inbox = w.inbox.erase x ∧
        (∃ v ∈ e'.upds, v.off = u.off ∧ v.bucket = u.bucket ∧ v.applied = u.applied ++ [c.toNat]) ∧
        (∀ a, t.byte a = (ws.foldl (fun s (k, kept, o) =>
          if kept && u.direct then s
          else (pls.zip [o.hi, o.lo, o.m, o.v]).foldl (fun s (pl, y) => s.setPlane p (planeVa pl.1 pl.2 k) u.direct (leBytes pl.2 y)) s)
          (s.meshPlanes p u pls (c.toNat * 65536) (c.toNat * 65536 + ws.length))).byte a) ∧
        OnlyPart p s t) ∧
    (x.kind = 1 ∨ x.kind = 2 →
      ∃ t e', exec (.updateChunkApply p b c) s = .next t ∧ t.exec? p = some e' ∧ (t.wctx p).inbox = w.inbox.erase x ∧
        (∃ v ∈ e'.upds, v.off = u.off ∧ v.applied = u.applied ∧ v.finished = true ∧
          v.bad = if u.bad = 2 then 2 else x.kind + 1) ∧
        (∀ a, t.byte a = s.byte a) ∧ OnlyPart p s t)

/-! The manifest. -/

/-- ORDER_ACCEPT takes the next entry of the ring whose turn it is: with room for it and no partner to wait for, it is journaled under
the partition's next sequence number and HEAD moves on; with PARTNER_ACK it waits for the partner; a ring whose entry cannot be read
stops; a function that cannot master brings none. PARTNER_ACK then journals the entry that waited (R383, R390, R414, R441). -/
def Obligations.OrdersAreAccepted : Prop :=
  ∀ (s : State) (p : PartId) (f : FuncId) (ring : Fin 8) (hdr : BitVec 1024), s.accepting p = true →
    (s.masters f = false → ∀ entry, exec (.orderAccept p f ring entry) s = .next s) ∧
    ((s.part p).ackWait = none → s.masters f = true → (s.ringOrder p).head? = some (f.val * 8 + ring.val) →
      (s.seqRoom p (s.part p).nextSeq = true → s.flag1 (Csr.sealMan_partnerAck p) = false →
        ∃ t, exec (.orderAccept p f ring (some hdr)) s = .next t ∧ s.Accepted t p f ring hdr) ∧
      (s.seqRoom p (s.part p).nextSeq = true → s.flag1 (Csr.sealMan_partnerAck p) = true →
        ∃ t, exec (.orderAccept p f ring (some hdr)) s = .next t ∧ (t.part p).ackWait = some (f.val, ring.val, hdr) ∧
          (t.part p).orders = (s.part p).orders ∧ t.reg (Csr.hqRingCtl f ring) = s.reg (Csr.hqRingCtl f ring) ∧ OnlyPart p s t) ∧
      (s.seqRoom p (s.part p).nextSeq = false → exec (.orderAccept p f ring (some hdr)) s = .next s) ∧
      (∃ t, exec (.orderAccept p f ring none) s = .next t ∧ t.flag1 (Csr.hqRingCtl_stopped f ring) = true ∧
        (t.part p).orders = (s.part p).orders ∧ (t.part p).nextSeq = (s.part p).nextSeq ∧ OnlyPart p s t)) ∧
    ((s.part p).ackWait = some (f.val, ring.val, hdr) →
      ∃ t, exec (.partnerAck p) s = .next t ∧ s.Accepted t p f ring hdr)

/-- ORDER_START, with no order running: the order that is next begins at pace 0 of its own count, its base is the pace count, the
tag advances, and the partition is in P0; an order that fails its first checks starts and ends in that fault (R121, R280, R443, R444).
Stated with no poisoned word in the tables that the first pace reads (R376). -/
def Obligations.OrdersStart : Prop :=
  ∀ (s : State) (p : PartId) (o : Order),
    s.mayStartOrder p = true → s.nextOrder p = some o → s.exec? p = none → (s.wctx p).waiting = [] → (∀ c ∈ s.caravans p, c < 24) →
    ((s.headerCheck p o.hdr).isSome = true ∨ s.poisonCheck p (manUnit s p) 0 (s.startTables p o.hdr) = none) →
    (∀ r, s.startCheck p o.hdr = .ok r →
      ∃ t e', exec (.orderStart p) s = .next t ∧ t.exec? p = some e' ∧ e'.seq = o.seq ∧ e'.hdr = o.hdr ∧ e'.off = 0 ∧ e'.issuePace = 0 ∧
        e'.base = s.pace p ∧ e'.cmds = [] ∧ e'.fault = none ∧ e'.execs = o.execs + 1 ∧ e'.timing = s.timing p o.hdr ∧
        t.orderPace p = 0 ∧ t.fld (Csr.prtOrderBase_base p) = s.pace p ∧
        t.fld (Csr.updStep_tag p) = nextNum (s.fld (Csr.updStep_tag p)) ∧ t.fld (Csr.updStep_step p) = s.fld (Csr.updStep_step p) ∧
        t.fld (partState p) = 0 ∧ OnlyPart p s t) ∧
    (∀ f, s.startCheck p o.hdr = .error f → isPartFault f.1 = false →
      ∃ t e', exec (.orderStart p) s = .next t ∧ t.exec? p = some e' ∧ e'.ended = true ∧ e'.partFault = false ∧
        e'.fault = some (faultRec p f.1 (manUnit s p) o.seq 0 0 f.2) ∧ OnlyPart p s t)

/-- ORDER_COMPLETE of an order that has ended in balance: the partition is idle, the order leaves the journal, COMPLETED names it, and its
record of status 1 waits or goes to the host; what its elastic flags held is discarded (R148); a committed step raises STEP by one and, when staged, changes LIVE (R293, R297, R385, R446).
Stated with no memory cut off from the manifest controller, which writes the applied bitmap (R243). -/
def Obligations.OrdersComplete : Prop :=
  ∀ (s : State) (p : PartId) (sinceS : Nat) (e : Exec),
    let o := s.orderOf p e.seq
    s.dev.safeHold = false → s.Joined (s.manRtr p) →
    (s.part p).prev = none → s.exec? p = some e → e.fault = none → e.cancelled = false → e.ended = true → e.cmds = [] →
    (∀ off, e.endOff = some off → s.unbalanced p = none ∧ (s.endSignal p off).stopped p = false) → (s.part p).acts = [] → ¬ (e.outcome = 3 ∧ e.direct ≠ some true) →
    ∃ t, exec (.orderComplete p sinceS) s = .next t ∧ t.exec? p = none ∧ (t.part p).orders = (s.part p).orders.filter (·.seq ≠ e.seq) ∧
      t.fld (Csr.sealMan_completed p) = e.seq % 2 ^ 32 ∧ t.fld (partState p) = 1 ∧ OnlyPart p s t ∧
      (s.wf = true → ∀ k, k / 4096 ∈ s.caravans p → (s.flagAt k).elastic = true → (t.flagAt k).count = 0) ∧
      (s.masters (s.fld (Csr.hqCpl_func p)) = false → ∃ r, (t.part p).records = putRecord (s.fld (Csr.hqCplHead_released p)) r (s.part p).records ∧
        r.seq = e.seq ∧ r.bytes = recordBytes o (some e) 1 e.outcome none) ∧
      (s.masters (s.fld (Csr.hqCpl_func p)) = true → (t.part p).records = [] ∧
        Out.hostWrite (s.fld (Csr.hqCpl_func p)) (s.fld (Csr.hqCpl_base p) + e.seq % 2 ^ s.fld (Csr.hqCpl_log2Depth p) * 64)
          (recordBytes o (some e) 1 e.outcome none) ∈ t.out) ∧
      (e.outcome = 0 → t.fld (Csr.updStep_step p) = s.fld (Csr.updStep_step p) ∧ t.fld (Csr.updCommit_live p) = s.fld (Csr.updCommit_live p)) ∧
      (e.outcome ≠ 0 → e.pending = true →
        t.fld (Csr.updStep_step p) = (s.fld (Csr.updStep_step p) + 1) % 2 ^ 32 ∧
        t.fld (Csr.updCommit_live p) = (if e.direct = some true then s.fld (Csr.updCommit_live p) else 1 - s.fld (Csr.updCommit_live p)) ∧
        t.fld (Csr.updNorm_norm p) = (e.normNew.getD 0).toNat ∧ t.fld (Csr.updNorm_normValid p) = 1) ∧
      (e.outcome ≠ 0 → e.pending = false →
        t.fld (Csr.updStep_step p) = s.fld (Csr.updStep_step p) ∧
        t.fld (Csr.updCommit_refused p) = min (s.fld (Csr.updCommit_refused p) + 1) (2 ^ 16 - 1))

/-- REEXECUTE: after a part fault that does not fail the order, the order is to start again, the re-execution is counted, and the partition
is in P1 (R372, R386, R416). -/
def Obligations.PartFaultsReexecute : Prop :=
  ∀ (s : State) (p : PartId) (e : Exec) (r : Word × Word × Word × Word),
    s.dev.safeHold = false → (s.part p).suspended = false → (s.part p).prev = none → s.exec? p = some e → e.fault = some r →
    e.partFault = true → e.cancelled = false → s.failsWith p e r = none →
    ∃ t, exec (.reexecute p) s = .next t ∧ t.exec? p = none ∧
      (t.part p).orders = (s.part p).orders.map (fun o => if o.seq = e.seq then { o with reexec := true, re := o.re + 1 } else o) ∧
      t.fld (Csr.sealMan_reexecs p) = min (s.fld (Csr.sealMan_reexecs p) + 1) (2 ^ 16 - 1) ∧
      t.fld (Csr.sealMan_completed p) = s.fld (Csr.sealMan_completed p) ∧ t.fld (partState p) = 1 ∧ OnlyPart p s t

/-- PREEMPT_TAKE_EFFECT at a leg boundary saves the running execution, once the rows on their way have reached the tally and the fences
that wait have taken effect, empties its caravans' banks and entries, and answers the request; PREEMPT_RESUME puts the execution back with
its base moved by the paces others executed (R87, R90, R222, R440). Stated with no interleaved order, no transfer in flight, no remnant
pass to run and every saved bank readable. -/
def Obligations.PreemptionSavesAndResumes : Prop :=
  ∀ (s : State) (p : PartId), s.dev.safeHold = false →
    (∀ (named : Nat) (e e1 : Exec),
      let s1 := (s.flushRows p).flushFences p
      (s.part p).preReq = some named → s.exec? p = some e → s.preemptible p = true → e.fault = none → e.cancelled = false →
      e.waiting = none → (s.part p).prev = none → e.upds.all (·.finished) = true → s.legBoundary p = true →
      s1.exec? p = some e1 → e1.fault = none → e1.saveBad = [] → s1.preemptible p = true → s1.legBoundary p = true →
      (∀ c ∈ s1.caravans p, (s1.car c).xfers = [] ∧ (s1.car c).reads = [] ∧ (s1.car c).remnant = []) →
      ∃ t q, exec (.preemptTakeEffect p) s = .next t ∧ t.exec? p = none ∧ (t.part p).preempt = some q ∧ q.exec = e1.rewind ∧
        q.prev = none ∧ q.gone = false ∧
        q.named = named ∧ q.resume = false ∧ q.atPace = s1.pace p ∧ (t.part p).preReq = none ∧ (t.part p).holds = [] ∧
        (∀ k, k / 336 ∈ s1.caravans p → t.bank k = Bank.empty) ∧ (∀ k, k / 336 ∉ s1.caravans p → t.bank k = s1.bank k) ∧
        (∀ k, k / 4096 / 336 ∈ s1.caravans p → t.entry k = Entry.zero) ∧
        t.fld (Csr.hqSealreq_status p) = 2 ∧ t.fld (Csr.hqSealreq_reason p) = 0 ∧ OnlyPart p s1 t) ∧
    (∀ (q : Preempt), (s.part p).preempt = some q → q.resume = true → q.gone = false → s.exec? p = none →
      (s.wctx p).waiting = [] →
      let d := s.pace p - q.atPace
      ∃ t, exec (.preemptResume p) s = .next t ∧
        t.exec? p = some { q.exec with
          base := q.exec.base + d, sigs := q.exec.sigs.map (fun (k, n, c) => (k, n + d, c)),
          tagAfter := some (s.fld (Csr.updStep_tag p)) } ∧
        (t.part p).preempt = none ∧ t.fld (Csr.prtOrderBase_base p) = (q.exec.base + d) % 2 ^ 64 ∧ t.fld (partState p) = 0 ∧ OnlyPart p s t) ∧
    (∀ (q : Preempt), (s.part p).preempt = some q → q.resume = true → q.gone = true → s.exec? p = none → (s.part p).acts = [] →
      ∃ t, exec (.preemptResume p) s = .next t ∧ t.part p = { s.part p with preempt := none } ∧ OnlyPart p s t ∧ OnlyChanges [.parts] s t)

/-- HQ_CANCEL: a queued order ends with status 3 and leaves the journal; the running one stops at once and is marked cancelled, and
commits nothing (R448). Stated with the records that wait free to be written (R243). -/
def Obligations.CancelEndsAnOrder : Prop :=
  ∀ (s : State) (p : Nat) (f : FuncId) (seq : BitVec 32), s.hostUp f = true → s.partOfFn f = some p →
    (s.part p).orders.any (·.seq = seq.toNat) = true → s.BitmapsPass p →
    ((∀ e, s.exec? p = some e → e.seq ≠ seq.toNat) → (∀ e, (s.part p).prev = some e → e.seq ≠ seq.toNat) → (s.part p).preempt = none →
      ∃ t, exec (.hqCancel f seq) s = .next t ∧ (t.part p).orders = (s.part p).orders.filter (·.seq ≠ seq.toNat) ∧
        t.fld (Csr.sealMan_completed p) = seq.toNat ∧ t.exec? p = s.exec? p ∧ OnlyPart p s t) ∧
    (∀ e, s.exec? p = some e → e.seq = seq.toNat → e.cancelled = false →
      ∃ t e', exec (.hqCancel f seq) s = .next t ∧ t.exec? p = some e' ∧ e'.cancelled = true ∧ e'.pending = false ∧ e'.ended = true ∧
        e'.cmds = [] ∧ (t.part p).orders = (s.part p).orders ∧ OnlyPart p s t)

/-- COMPLETION_FLUSH turns the bus mastering of the partition's functions whose link is up on again, and writes the waiting records in
sequence order once the function of the completion ring can master; a record whose applied bitmap no route takes to memory is shut out (R243).
MBOX_RELEASE, with the host's link up, empties a full mailbox, and the publication that waits for it fills it again; an empty mailbox stays as it is
(R447, R450). Both complete in every state. -/
def Obligations.RecordsReachTheHost : Prop :=
  (∀ (s : State) (p : PartId), ∃ t, exec (.completionFlush p) s = .next t) ∧
  (∀ (s : State) (f : FuncId) (m : Fin 32), (∃ t, exec (.mboxRelease f m) s = .next t) ∧
    (s.hostUp f = false ∨ s.partOfFn f = none → exec (.mboxRelease f m) s = .next s)) ∧
  (∀ (s : State) (p : PartId), s.BitmapsPass p →
    let f := s.fld (Csr.hqCpl_func p)
    let masters : Prop := s.hostUp f = true ∧ (f ∉ s.dev.noMaster ∨ s.partOfFn f = some p.val)
    ∃ t, exec (.completionFlush p) s = .next t ∧ OnlyPart p s t ∧
      t.dev = { s.dev with noMaster := s.dev.noMaster.filter (fun g => !(s.partOfFn g = some p.val && s.hostUp g)) } ∧
      (masters → (t.part p).records = [] ∧
        t.out = s.out ++ (s.part p).records.flatMap (fun r =>
          [.hostWrite f (s.fld (Csr.hqCpl_base p) + r.seq % 2 ^ s.fld (Csr.hqCpl_log2Depth p) * 64) r.bytes, .msix f 0]) ∧
        OnlyRegs meshRegs s t ∧ OnlyChanges [.csr, .mem, .poison, .parts, .dev, .out] s t) ∧
      (¬ masters → OnlyChanges [.dev] s t)) ∧
  (∀ (s : State) (f : FuncId) (m : Fin 32) (p : Nat), s.hostUp f = true → s.partOfFn f = some p →
    ∃ t, exec (.mboxRelease f m) s = .next t ∧ OnlyPart p s t ∧ OnlyChanges [.csr, .parts] s t ∧
      OnlyRegs (Csr.hqMbox p m :: (List.range 7).map (Csr.hqMboxData p m)) s t ∧
      (s.fld (Csr.hqMbox_state p m) = 0 → t = s) ∧
      (s.fld (Csr.hqMbox_state p m) ≠ 0 → (∀ w ∈ (s.part p).mboxWait, w.1 ≠ m.val) →
        t.fld (Csr.hqMbox_state p m) = 0 ∧ t.fld (Csr.hqMbox_seq p m) = 0 ∧ (∀ i, i < 7 → t.reg (Csr.hqMboxData p m i) = 0) ∧
        t.parts = s.parts) ∧
      (s.fld (Csr.hqMbox_state p m) ≠ 0 → ∀ seq ready data, (s.part p).mboxWait.find? (·.1 = m.val) = some (m.val, seq, ready, data) →
        t.fld (Csr.hqMbox_state p m) = (if ready then 1 else 2) ∧ t.fld (Csr.hqMbox_seq p m) = seq % 2 ^ 32 ∧
        (∀ i, i < 7 → t.reg (Csr.hqMboxData p m i) = if ready then BitVec.ofNat 64 (leAt data (8 * i) 8) else 0) ∧
        (t.part p).mboxWait = (s.part p).mboxWait.eraseP (·.1 = m.val)))

/-- SEAL_MAN.RESUME lifts the suspension of a whole partition with no window onto a fenced stack; a weighhouse context that was lost is made
afresh in the half that serves the partition now, where that instance has its slots free, and is waited for otherwise; WITHDRAW ends every order
and lifts the suspension too (R327, R382). -/
def Obligations.SuspensionEnds : Prop :=
  ∀ (s : State) (p : Nat) (f : FuncId), s.hostUp f = true → s.partOfFn f = some p → (s.part p).suspended = true →
    ((s.caravans p).all s.healthyCar = true → (s.caravans p).length = (s.named p).length →
      (∀ k ∈ s.dev.fencedStacks, p ∉ s.stackUsers k) → s.exec? p = none →
      let granted := s.dev.sealUp && decide (s.slotsIn (s.wghHalf p) p + s.fld (Csr.wghShare_slots p) ≤ 9)
      ∃ t, exec (.sealManResume f) s = .next t ∧
        t.part p = { s.part p with suspended := false, pinned := false, wghLost := (s.part p).wghLost && !granted } ∧
        t.fld (Csr.sealMan_suspended p) = 0 ∧
        ((s.part p).wghLost = true → granted = true → t.wctx p = Wgh.none ∧ t.fld (Csr.wghShare_half p) = s.wghHalf p % 2 ∧
          t.fld (Csr.wghShare_slots p) = s.fld (Csr.wghShare_slots p) ∧ t.fld (Csr.wghEpoch_epoch p) = 0) ∧
        ((s.part p).wghLost = false ∨ granted = false → t.wctx p = s.wctx p ∧ OnlyRegs [Csr.sealMan p] s t) ∧
        OnlyRegs [Csr.sealMan p, Csr.wghShare p, Csr.wghEpoch p] s t ∧ OnlyPart p s t ∧ OnlyChanges [.csr, .parts, .wgh] s t) ∧
    (s.Joined (s.manRtr p) →
      ∃ t, exec (.sealManWithdraw f) s = .next t ∧ (t.part p).suspended = false ∧ t.exec? p = none ∧ (t.part p).preempt = none ∧
        (t.part p).orders = [] ∧ t.fld (Csr.sealMan_suspended p) = 0 ∧ OnlyPart p s t)

/-! Hosts and the Seal. -/

/-- A doorbell writes TAIL, is told to the manifest over the mesh, wakes a device in P3 and abandons an entry into P3; a write of HQ_RING_BASE
sets the ring and clears STOPPED; RELEASED takes its low 32 bits; each only for a function that a partition owns, and while its host's
link is up (R228, R414, R418, R432, R441, R445). -/
def Obligations.RingRegistersAreWritten : Prop :=
  ∀ (s : State) (f : FuncId) (ring : Fin 8) (tail : BitVec 16) (v : Word),
    (s.hostUp f = false → ∀ c ∈ [Instr.ringDoorbell f ring tail, .ringBaseWrite f ring v, .cplHeadWrite f v], exec c s = .next s) ∧
    (∀ p, s.hostUp f = true → s.partOfFn f = some p →
      (∃ t, exec (.ringDoorbell f ring tail) s = .next t ∧ t.fld (Csr.hqRingCtl_tail f ring) = tail.toNat ∧
        t.fld (Csr.hqRingCtl_head f ring) = s.fld (Csr.hqRingCtl_head f ring) ∧
        t.fld Csr.cprPstate_device = (if s.fld Csr.cprPstate_device = 2 then 3 else s.fld Csr.cprPstate_device) ∧
        t.dev = (if s.p3Entering then { s.dev with p3Pending := false } else s.dev) ∧
        OnlyRegs ([Csr.hqRingCtl f ring, Csr.cprPstate] ++ meshRegs) s t ∧ OnlyChanges [.csr, .dev] s t) ∧
      (∃ t, exec (.ringBaseWrite f ring v) s = .next t ∧ t.fld (Csr.hqRingBase_base f ring) = bitsOf v.toNat 0 48 ∧
        t.fld (Csr.hqRingBase_log2Depth f ring) = bitsOf v.toNat 48 4 ∧ t.fld (Csr.hqRingBase_enable f ring) = bitsOf v.toNat 63 1 ∧
        t.flag1 (Csr.hqRingCtl_stopped f ring) = false ∧ t.fld (Csr.hqRingCtl_tail f ring) = s.fld (Csr.hqRingCtl_tail f ring) ∧
        OnlyRegs [Csr.hqRingBase f ring, Csr.hqRingCtl f ring] s t ∧ OnlyChanges [.csr] s t) ∧
      (∃ t, exec (.cplHeadWrite f v) s = .next t ∧ t.fld (Csr.hqCplHead_released p) = bitsOf v.toNat 0 32 ∧
        OnlyRegs [Csr.hqCplHead p] s t ∧ OnlyChanges [.csr] s t))

/-- The eight Seal requests, with a Seal pair in service and no change waiting: each is served and answered with STATUS 2, or refused with its
reason; a window that is mapped while an order runs takes effect after it; a request to pre-empt stays pending until it takes effect
(R202, R439). -/
def Obligations.SealRequestsAreServed : Prop :=
  ∀ (s : State) (f : FuncId) (p : Nat), s.hostUp f = true → s.partOfFn f = some p → s.fld (Csr.hqSealreq_status p) ≠ 1 →
    s.dev.sealUp = true → (∀ q, q < 8 → (s.part q).acts = []) →
    ((s.part p).inOrder = true → s.mapRefusal p = none →
      ∃ t a, exec (.sealReqMapWindow f) s = .next t ∧ s.Answered t p 1 2 0 ∧ (t.part p).acts = [a] ∧ t.exec? p = s.exec? p ∧
        (∀ i, i < 128 → t.win p i = s.win p i)) ∧
    ((s.part p).inOrder = false →
      (∀ r, s.mapRefusal p = some r → ∃ t, exec (.sealReqMapWindow f) s = .next t ∧ s.Answered t p 1 3 r) ∧
      (s.mapRefusal p = none → ∃ t, exec (.sealReqMapWindow f) s = .next t ∧ s.Answered t p 1 2 0 ∧
        t.win p (bitsOf (s.sealArg p 1) 0 7) = some (s.askedWin p)) ∧
      ((s.win p (bitsOf (s.sealArg p 1) 0 7)).isSome = true → ∃ t, exec (.sealReqUnmapWindow f) s = .next t ∧ s.Answered t p 2 2 0 ∧
        t.win p (bitsOf (s.sealArg p 1) 0 7) = none) ∧
      (bitOf (s.sealArg p 1) 8 = false → ∃ t, exec (.sealReqBankPair f) s = .next t ∧ s.Answered t p 6 2 0 ∧
        t.flag1 (Csr.updPair_valid p (bitsOf (s.sealArg p 1) 0 3)) = false) ∧
      (let base := bitsOf (s.sealArg p 2) 21 27 * 2 ^ 21
       let pages := bitsOf (s.sealArg p 3) 0 16
       bitOf (s.sealArg p 1) 8 = true → (∀ i, i < 64 → s.flag1 (Csr.updPair_valid (i / 8) (i % 8)) = false) →
       (s.part p).hbm.any (fun g => inRange base (2 * pages * (2 * mib)) g.1 g.2) = true →
       rangesMeet [(base, 2 * pages * (2 * mib))] s.journals = false →
       ∃ t, exec (.sealReqBankPair f) s = .next t ∧ s.Answered t p 6 2 0 ∧
        t.reg (Csr.updPair p (bitsOf (s.sealArg p 1) 0 3)) = BitVec.ofNat 64 (1 + base + pages * 2 ^ 48))) ∧
    (s.right p 2 = true → bitsOf (s.sealArg p 1) 0 8 < 32 → ∀ now nonce,
      let w0 : Word := BitVec.ofNat 64 (p + bitsOf (s.sealArg p 1) 0 8 * 2 ^ 8 +
        (now.toNat + bitsOf (s.sealArg p 1) 16 16) % 2 ^ 32 * 2 ^ 16 + nonce.toNat % 2 ^ 16 * 2 ^ 48)
      ∃ t, exec (.sealReqDebugToken f now nonce) s = .next t ∧ s.Answered t p 5 2 0 ∧ t.reg (Csr.hqSealarg p 0) = w0 ∧
        t.reg (Csr.hqSealarg p 1) = Config.tokenMac s.dev.starts w0) ∧
    (s.right p 2 = false → ∀ now nonce, ∃ t, exec (.sealReqDebugToken f now nonce) s = .next t ∧ s.Answered t p 5 3 6) ∧
    (∃ t, exec (.sealReqPrst f) s = .next t ∧ t.fld (Csr.hqSealreq_status p) = 2 ∧ t.exec? p = none ∧ (t.part p).holds = []) ∧
    (∀ e, s.exec? p = some e → (s.part p).prev = none → e.fault = none → e.cancelled = false → hCoupled e.hdr = false →
      (s.part p).preempt = none → (s.part p).preReq = none → bitsOf (s.sealArg p 1) 0 32 = 0 →
      ∃ t, exec (.sealReqPreempt f) s = .next t ∧ t.fld (Csr.hqSealreq_status p) = 1 ∧ t.part p = { s.part p with preReq := some 0, sealType := 7 } ∧
        OnlyRegs [Csr.hqSealreq p] s t ∧ OnlyChanges [.csr, .parts] s t) ∧
    (∀ q, (s.part p).preempt = some q → q.named = 0 →
      ∃ t, exec (.sealReqResume f) s = .next t ∧ s.Answered t p 8 2 0 ∧ (t.part p).preempt = some { q with resume := true }) ∧
    (∀ fam is, findReg (s.sealArg p 1) famTable = some (fam, is) →
      (let lsb := bitsOf (s.sealArg p 2) 0 6
       let width := bitsOf (s.sealArg p 2) 8 6
       fam.fields.any (fun x => x.acc = .rwl && x.lsb ≤ lsb && lsb + width ≤ x.lsb + x.width && 0 < width) = true →
       s.sealArg p 1 ≠ Csr.hqSealreq p →
       let shared := fam.scope = .shared ∨ fam.scope = .port ∨ fam.scope = .share
       (s.sees (some p) [] fam is = true → (shared → s.right p 1 = true) →
         (fam.name = "LNK_CTRL" → (s.port (is.headD 0)).fenced = false) →
        ∃ t, exec (.sealReqWriteRwl f) s = .next t ∧ s.Answered t p 3 2 0 ∧
         t.reg (s.sealArg p 1) = (s.putRwl (s.sealArg p 1) lsb width (s.sealArg p 3)).reg (s.sealArg p 1)) ∧
       (s.sees (some p) [] fam is = true → shared → s.right p 1 = false →
        ∃ t, exec (.sealReqWriteRwl f) s = .next t ∧ s.Answered t p 3 3 5) ∧
       (s.sees (some p) [] fam is = false → ∃ t, exec (.sealReqWriteRwl f) s = .next t ∧ s.Answered t p 3 3 4)))

/-- The Seal pairs: with its heartbeats missing a pair gives its work to the other that beats; a mismatch stops a pair; a pair in use that
stops is a failure for the risk estimate; a stopped pair
rejoins as standby beside one that beats; the Factor restarts under a pair in service; with neither beating the part goes to safe hold, and a
beacon to the partner of every ACTIVE port (R396, R401 to R403). -/
def Obligations.SealPairsTakeOver : Prop :=
  ∀ (s : State) (h : HalfId),
    (s.dev.beats (1 - h.val) = true → (∀ p ∈ s.dev.sealQ, s.fld (Csr.hqSealreq_status p) ≠ 1) →
      ∃ t, exec (.sealHeartbeatLoss h) s = .next t ∧ t.dev.seal (1 - h.val) = 1 ∧
        t.dev.seal h = (if s.dev.beats h then 0 else s.dev.seal h) ∧ t.dev.sealUp = true ∧
        t.fld Csr.csgRisk_failures = (if s.dev.beats h then min (s.fld Csr.csgRisk_failures + 1) 255 else s.fld Csr.csgRisk_failures) ∧
        OnlyRegs [Csr.csgRisk] s t ∧ OnlyChanges [.csr, .dev] s t) ∧
    (s.dev.beats (1 - h.val) = false → exec (.sealHeartbeatLoss h) s = .next s) ∧
    (s.dev.beats h = true → ∃ t, exec (.sealLockstepMismatch h) s = .next t ∧ t.dev.seal h = 0 ∧
      t.dev.seal (1 - h.val) = s.dev.seal (1 - h.val) ∧
      t.fld Csr.csgRisk_failures = min (s.fld Csr.csgRisk_failures + 1) 255 ∧ OnlyRegs [Csr.csgRisk] s t ∧ OnlyChanges [.csr, .dev] s t) ∧
    (s.dev.seal h = 0 → s.dev.beats (1 - h.val) = true → s.dev.started = true →
      ∃ t, exec (.rejoinAsStandby h) s = .next t ∧ t.dev.seal h = 3 ∧ OnlyChanges [.dev] s t) ∧
    (s.dev.sealUp = true → ∃ t, exec .factorRestart s = .next t ∧ t.dev = { s.dev with factorUp := true } ∧ OnlyChanges [.dev] s t) ∧
    (s.dev.started = true → s.dev.beats 0 = false → s.dev.beats 1 = false → s.dev.safeHold = false →
      ∃ t, exec .lastResort s = .next t ∧ t.dev = { s.dev with safeHold := true, faultL := s.dev.pwrgd } ∧ Out.beacon none ∈ t.out ∧
        (∀ i, i < 6 → s.active i = true → (s.port i).txq = [] → (s.port i).owners = [] →
          (s.port i).opens (boolNat (s.dateline i)) = true → ∃ w, Out.flit i w ∈ t.out) ∧
        OnlyChanges [.dev, .ports, .out] s t)

/-! Consignments. -/

/-- Consignments: once its extents are read a consignment has its digest and waits for its loss, and one that meets a poisoned word fails; a copy
is acknowledged or lost; NOW asks for one; a restore, which the Seal authorises, loads a complete copy and refuses any other with a fault
record of sequence number 0; a consignee's packet lands in its area; a reading sets MULT, the intervals and a request for each rise, and drops
what is older than a day from FAILURES (R9, R374, R391 to R400). Stated with no memory cut off from the units that carry them (R243).
Slot and record layouts are the model's (log entry 26). -/
def Obligations.ConsignmentsRun : Prop :=
  ∀ (s : State) (p : PartId),
    (s.csgState p = 1 → s.Joined (s.manRtr p) →
      let bad := s.poison.filter (fun w => (s.csgRows p).any (fun (a, n) => a < w * 8 + 8 && w * 8 < a + n))
      (bad = [] → ((s.exec? p).map (·.committed)).getD false = false → (∀ k ∈ (s.part p).holds, k.src = 10 → k.left = none) →
        ((s.exec? p).map (fun e => e.cmds.any (fun m => m.op = 0x71))).getD false = false →
        let body := (s.part p).csg.record ++ (s.csgList p).flatMap (s.extent p)
        ∃ t, exec (.consignReadDone p) s = .next t ∧ t.csgState p = (if (s.part p).csg.lossSeen.isSome then 0 else 2) ∧
          (t.part p).csg.digest = ((pieces (body.length / 8192 + 1) body).map (fun b => (crc64 b).toNat)).sum % 2 ^ 64 ∧
          t.csgCopies p = s.csgCopies p ∧ t.hasHold p 10 = false ∧ OnlyPart p s t ∧
          OnlyRegs ([Csr.csgStatus p, Csr.prtHold p, Csr.prtHoldSrc p 8] ++ (List.range 6).map Csr.lnkDrop ++ meshRegs) s t ∧
          OnlyChanges [.csr, .mem, .poison, .parts, .ports, .out, .free] s t) ∧
      (bad ≠ [] → ∃ t, exec (.consignReadDone p) s = .next t ∧ t.csgState p = 0 ∧
        t.csgCopies p = (s.csgCopies p).map (fun x => if x.2 = 0 then (x.1, 2) else x) ∧
        t.fld (Csr.csgCost_failed p) = min (s.fld (Csr.csgCost_failed p) + ((s.csgCopies p).filter (·.2 = 0)).length) 255 ∧
        (∀ a, t.byte a = s.byte a))) ∧
    (∀ copy : Fin 5, (s.csgCopies p).contains (copy.val, 0) = true → s.csgState p ≠ 1 →
      let cs := (s.csgCopies p).map (fun x => if x.1 = copy.val then (copy.val, 2) else x)
      ∃ t, exec (.consignCopyTimeout p copy) s = .next t ∧ t.csgCopies p = cs ∧
        t.fld (Csr.csgCost_failed p) = min (s.fld (Csr.csgCost_failed p) + 1) 255 ∧
        (t.part p).csg.taken = (s.part p).csg.taken + (if cs.any (·.2 = 0) then 0 else 1) ∧
        OnlyRegs [Csr.csgCost p, Csr.csgStatus p, Csr.hqEvq p] s t ∧ OnlyPart p s t ∧ OnlyChanges [.csr, .parts, .out] s t) ∧
    (∀ (copy : Fin 5) (ms : Nat), s.copyOut p copy = true →
      let cs := (s.csgCopies p).map (fun x => if x.1 = copy.val then (copy.val, 1) else x)
      let c := (s.part p).csg
      ∃ t, exec (.copyAcknowledged p copy ms) s = .next t ∧ t.csgCopies p = cs ∧
        (t.part p).csg.heads.head? = some (copy.val, c.head) ∧ (t.part p).csg.slots.head? = some (copy.val, s.copySlot p copy) ∧
        (s.csgFeed p copy ≠ 0xFF → s.csgFeed p copy ≠ s.fld Csr.cfgStatus_feed → c.secured = false →
          (t.part p).csg.secured = true ∧ t.fld (Csr.csgStatus_securedStep p) = c.step.toNat ∧
          t.fld (Csr.csgStatus_securedValid p) = 1 ∧ t.fld (Csr.csgStatus_coFed p) = 0) ∧
        (cs.all (·.2 = 1) = true → t.fld (Csr.csgCost_costMs p) =
          min (2 ^ 24 - 1) (if s.fld (Csr.csgCost_costMs p) = 0 then ms else (3 * s.fld (Csr.csgCost_costMs p) + ms) / 4)) ∧
        OnlyRegs [Csr.csgCost p, Csr.csgStatus p, Csr.hqEvq p] s t ∧ OnlyPart p s t ∧ OnlyChanges [.csr, .parts, .out] s t) ∧
    (∀ f : FuncId, s.hostUp f = true → s.partOfFn f = some p.val →
      (∃ t, exec (.csgNow f) s = .next t ∧ t.part p = { s.part p with csg := { (s.part p).csg with nowReq := true } } ∧
        OnlyPart p s t ∧ OnlyChanges [.parts] s t) ∧
      (∀ copy : CsgCopy, s.dev.sealUp = true → s.exec? p = none → s.csgState p = 0 →
        (copy.state = 3 → copy.digestOk = true → s.csgListOk p true = true → s.Joined (s.manRtr p) →
          (s.flag1 (Csr.csgCfg_verify p) = true → copy.layout = s.reg Csr.devLayout ∧ copy.caravans = (s.caravans p).length) →
          let u := s.setFld (Csr.updCommit_live p) 0
          let run := if s.flag1 (Csr.csgStatus_tail p) then
            tailRun (copy.head % (2 ^ 32 - 1) + 1) copy.tail.length (copy.tail.filterMap tailPair) else []
          ∃ t, exec (.csgRestore f copy) s = .next t ∧ t.fld (Csr.updSeed_seed p) = copy.seed.toNat ∧
            t.fld (Csr.updStep_step p) = copy.step.toNat ∧ t.fld (Csr.updNorm_norm p) = copy.norm.toNat % 2 ^ 32 ∧
            t.fld (Csr.updNorm_normValid p) = bitsOf copy.norm.toNat 32 1 ∧ t.fld (Csr.updCommit_live p) = 0 ∧
            t.fld (Csr.updCommit_stopped p) = 0 ∧ t.csgState p = (if s.flag1 (Csr.csgCfg_verify p) then 4 else 0) ∧
            s.Wrote t (((u.csgList p).zip copy.extents).flatMap (fun (d, bs) => (List.range d.logRows).flatMap (fun j =>
              u.writesAt p (u.homeStn p) (d.rowVa j) ((bs.drop (j * d.rowBytes)).take d.rowBytes)))) ∧
            (t.part p).orders = run.map (fun (q, h) => ⟨q, h, 0, 0, true⟩) ++
              (s.part p).orders.filter (fun o => !(run.map (·.1)).contains o.seq) ∧
            OnlyRegs ([Csr.updSeed p, Csr.updStep p, Csr.updNorm p, Csr.updCommit p, Csr.csgStatus p] ++ meshRegs) s t ∧ OnlyPart p s t ∧
            OnlyChanges [.csr, .mem, .poison, .parts] s t) ∧
        (copy.state ≠ 3 ∨ copy.digestOk = false →
          ∃ t, exec (.csgRestore f copy) s = .next t ∧ t.csgState p = 0 ∧ (t.part p).orders = (s.part p).orders ∧
            (t.part p).idleFault = some (faultRec p 0x74 (csgUnit s p) 0 0 0
              (s.bad74 p (s.fld (Csr.csgStatus_slot p)) (if copy.state ≠ 3 then 2 else 3))) ∧
            OnlyRegs [Csr.csgStatus p, Csr.hqEvq p] s t ∧ OnlyPart p s t ∧ OnlyChanges [.csr, .parts, .out] s t)) ∧
      (∀ copy : CsgCopy, s.dev.sealUp = false → exec (.csgRestore f copy) s = .next s)) ∧
    (∀ (port : PortId) (k : Packet) (n : Nat), s.active port = true → k.kind = 5 → s.malformed k = false → k.target = s.self →
      (k.payload = [] → (∃ j, j < 32 ∧ s.flag1 (Csr.csgPeer_valid (j / 4) (j % 4)) = true ∧
          s.fld (Csr.csgPeer_node (j / 4) (j % 4)) = k.src ∧ s.windowOk port k (j / 4) = true) →
        exec (.consignmentPacket port k) s = .next (s.leave port k)) ∧
      (k.payload ≠ [] → s.Joined (rtrOfPort port) → s.csgEntry k = some (p.val, n) → s.windowOk port k p = true →
        s.rowCheck p 0 k.addr k.payload.length true = none →
        ∃ t, exec (.consignmentPacket port k) s = .next t ∧ s.Wrote t (s.writesAt p (s.homeStn p) k.addr k.payload) ∧
          OnlyRegs ((List.range 6).map Csr.lnkDrop ++ meshRegs) s t ∧ OnlyChanges [.csr, .mem, .poison, .ports, .out] s t)) ∧
    (∀ ce lr dr margin : Nat,
      let m := s.riskOf ce lr dr margin / 250
      ∃ t, exec (.riskRise ce lr dr margin) s = .next t ∧ t.fld Csr.csgRisk_mult = m ∧
        t.dev = { s.dev with riskR := s.riskOf ce lr dr margin } ∧ t.fld Csr.csgRisk_failures ≤ s.fld Csr.csgRisk_failures ∧
        (∀ q, q < 8 →
          t.fld (Csr.csgCost_intervalS q) =
            min (2 ^ 24 - 1) (max (s.csgMin q) (isqrt ((t.csgSquare q).1 / (t.csgSquare q).2))) ∧
          (t.part q).csg.above = decide (s.fld Csr.csgRisk_threshold ≤ m) ∧
          (s.fld Csr.csgRisk_threshold ≤ m → (s.part q).csg.above = false → s.flag1 (Csr.csgCfg_enable q) = true →
            (if s.flag1 (Csr.csgCfg_jobwide q) then t.flag1 (Csr.csgStatus_request q) else (t.part q).csg.riseReq) = true)) ∧
        OnlyRegs (Csr.csgRisk :: (List.range 8).flatMap (fun q => [Csr.csgCost q, Csr.csgStatus q, Csr.hqEvq q])) s t ∧
        OnlyChanges [.csr, .parts, .dev, .out, .free] s t)

/-! Power, clocks and temperature. -/

/-- P2 and P3: an idle partition goes to P2; a device whose conditions hold, or come to hold within 1 s, goes to P3 with its ports OFF and
its SRAM zero, and any other refuses after 1 s; on the way out the ports return (R416 to R418, R429, R431). The way out is stated with no
half lost meanwhile, whose recovery would run then (R432). -/
def Obligations.PowerStatesChange : Prop :=
  ∀ s : State,
    (∀ p : PartId, (s.caravans p).isEmpty = false → s.exec? p = none → s.fld (partState p) = 1 → s.fld Csr.cprPstate_p2IdleUs ≠ 0 →
      s.fld Csr.cprPstate_device = 0 →
      ∃ t, exec (.p2IdleEntry p) s = .next t ∧ t.fld (partState p) = 2 ∧
        (∀ q : PartId, q ≠ p → t.fld (partState q) = s.fld (partState q)) ∧ OnlyRegs [Csr.cprPstate] s t ∧
        OnlyChanges [.csr, .tolls] s t) ∧
    (s.fld Csr.cprPstate_device = 0 → s.dev.started = true →
      (s.p3Ready = true → s.wf = true →
        ∃ t, exec .p3Req s = .next t ∧ t.fld Csr.cprPstate_device = 2 ∧ t.fld Csr.cprPstate_p3Refused = 0 ∧
          (∀ i, i < 6 → t.portState i = 0) ∧ s.SramZero t ∧ t.dev = { s.dev with p3Pending := false } ∧
          (∀ p, (t.part p).orders = (s.part p).orders ∧ (t.part p).nextSeq = (s.part p).nextSeq)) ∧
      (s.p3Ready = false →
        ∃ t, exec .p3Req s = .next t ∧ t.dev = { s.dev with p3Pending := true } ∧ t.fld Csr.cprPstate_p3Refused = 0 ∧
          t.fld Csr.cprPstate_device = 0 ∧ OnlyRegs [Csr.cprPstate] s t ∧ OnlyChanges [.csr, .dev] s t)) ∧
    (s.dev.p3Pending = true → s.p3Ready = true → s.wf = true →
      ∃ t, exec .p3Refused s = .next t ∧ t.fld Csr.cprPstate_device = 2 ∧ (∀ i, i < 6 → t.portState i = 0) ∧ s.SramZero t ∧
        t.dev = { s.dev with p3Pending := false }) ∧
    (s.dev.p3Pending = true → s.p3Ready = false →
      ∃ t, exec .p3Refused s = .next t ∧ t.dev = { s.dev with p3Pending := false } ∧ t.fld Csr.cprPstate_p3Refused = 1 ∧
        t.fld Csr.cprPstate_device = s.fld Csr.cprPstate_device ∧ OnlyRegs [Csr.cprPstate] s t ∧ OnlyChanges [.csr, .dev] s t) ∧
    (s.fld Csr.cprPstate_device ≠ 0 → s.flag1 Csr.cprClk_linkRefLost = false →
      (∀ h : HalfId, s.dev.fenced (unitInst h 0 0x70) 1 0 = true → h.val ∈ s.dev.fencedHalves) →
      ∃ t, exec .p3Exit s = .next t ∧ t.fld Csr.cprPstate_device = 0 ∧ s.PortsReturn t ∧
        OnlyRegs (Csr.cprPstate :: (List.range 6).map Csr.lnkStatus) s t ∧ OnlyChanges [.csr, .ports] s t)

/-- Seven settings are lost in P3: they hold these values after power-on, and whatever they held before, on the return from P3 to P0 each
instance of their registers silently holds them again; nothing is sent that reports it (R430). Stated with no half whose loss is still to be
recovered from (R432). -/
def Obligations.SettingsAreLostInP3 : Prop :=
  let holds (u : State) : Prop :=
    (∀ c : CarId, u.fld (Csr.drvCtrl_timeoutUs c) = 50) ∧
    (∀ i : Fin 104, u.fld (Csr.tolCfg_burst i) = 256 ∧ u.fld (Csr.tolCfg_starveNs i) = 2000) ∧
    (∀ h : HalfId, u.fld (Csr.mshMcast_stragglerUs h) = 8) ∧
    (∀ p : PartId, u.fld (Csr.wghCfg_deadlineMs p) = 20) ∧
    (∀ i : PortId, u.fld (Csr.lnkCtrl_retryNs i) = 2000 ∧ u.fld (Csr.lnkCtrl_retryLimit i) = 8)
  holds State.reset ∧
  ∀ s : State, s.wf = true → s.fld Csr.cprPstate_device = 0 → s.dev.started = true → s.p3Ready = true →
    (∀ h : HalfId, s.dev.fenced (unitInst h 0 0x70) 1 0 = true → h.val ∈ s.dev.fencedHalves) →
    ∃ t u, exec .p3Req s = .next t ∧ exec .p3Exit t = .next u ∧ u.fld Csr.cprPstate_device = 0 ∧ holds u ∧
      (∀ x ∈ u.out, x ∈ s.out ∨ ∃ i w, x = .flit i w)

/-- Supplies and clocks: a lug below 38.0 V turns its half off, which loses the half, or the module when the other is down too; above
39.5 V it returns; in P3 the loss is recorded, and recovery waits; the standby supply; a reference lost or returned takes its links with it; a half without clock is lost (R20, R21, R30,
R378, R415, R432). -/
def Obligations.SuppliesAndClocksFail : Prop :=
  ∀ (s : State) (h : HalfId),
    (∀ mv, mv < 38000 → s.dev.lug h = true →
      (s.dev.lug (1 - h.val) = false →
        ∃ t, exec (.lugUndervoltage h mv) s = .next t ∧ s.WipedTo t ∧ t.dev.pwrgd = false ∧ t.dev.lug h = false) ∧
      (s.dev.lug (1 - h.val) = true → s.dev.started = false →
        ∃ t, exec (.lugUndervoltage h mv) s = .next t ∧ t.dev.lug h = false ∧ t.dev.lug (1 - h.val) = true ∧
          (if h.val = 0 then t.dev.halfOnW else t.dev.halfOnE) = false ∧ OnlyChanges [.dev] s t) ∧
      (s.dev.lug (1 - h.val) = true → s.dev.started = true → s.fld Csr.cprPstate_device ≠ 2 → s.MayLose h →
        ∃ t, exec (.lugUndervoltage h mv) s = .next t ∧ t.dev.lug h = false ∧ s.HalfLost t h) ∧
      (s.dev.lug (1 - h.val) = true → s.dev.started = true → s.fld Csr.cprPstate_device = 2 → s.MayLose h →
        ∃ t, exec (.lugUndervoltage h mv) s = .next t ∧ t.dev.lug h = false ∧ t.dev.fenced (unitInst h 0 0x70) 1 0 = true ∧
          t.dev.fencedHalves = s.dev.fencedHalves ∧ t.dev.fencedCars = s.dev.fencedCars ∧ (∀ p, t.part p = s.part p))) ∧
    (∀ mv, 38000 ≤ mv → exec (.lugUndervoltage h mv) s = .next s) ∧
    (∀ mv, 39500 < mv → s.dev.lug h = false →
      ∃ t, exec (.lugRecover h mv) s = .next t ∧ t.dev.lug h = true ∧ t.dev.lug (1 - h.val) = s.dev.lug (1 - h.val) ∧
        t.dev.fencedHalves = s.dev.fencedHalves ∧
        (s.dev.running.isSome = true → s.dev.thermtrip = false →
          (if h.val = 0 then t.dev.halfOnW else t.dev.halfOnE) = true) ∧ OnlyChanges [.dev] s t) ∧
    exec .aux3v3Loss s = .next { s with dev := { s.dev with aux := false } } ∧
    exec .aux3v3Return s = .next { s with dev := { s.dev with aux := true } } ∧
    (∀ r : Ref,
      (s.flag1 (refBit r) = false →
        ∃ t, exec (.referenceLost r) s = .next t ∧ t.flag1 (refBit r) = true ∧
          t.fld Csr.cprClk_refEvents = min (s.fld Csr.cprClk_refEvents + 1) (2 ^ 16 - 1) ∧ Out.toFactor 4 (refNum r) ∈ t.out ∧
          (r = .link → (∀ i, i < 6 → t.portState i = 0) ∧ t.dev = s.dev) ∧
          (r = .pcie → t.dev = { s.dev with hostUpA := false, hostUpB := false } ∧ t.ports = s.ports) ∧
          OnlyChanges [.csr, .parts, .ports, .wgh, .dev, .out] s t) ∧
      (s.flag1 (refBit r) = true →
        ∃ t, exec (.referenceReturn r) s = .next t ∧ t.flag1 (refBit r) = false ∧
          t.fld Csr.cprClk_refEvents = min (s.fld Csr.cprClk_refEvents + 1) (2 ^ 16 - 1) ∧ Out.toFactor 4 (refNum r + 2) ∈ t.out ∧
          (r = .link → s.dev.running.isSome = true → s.fld Csr.cprPstate_device ≠ 2 → s.PortsReturn t ∧ t.dev = s.dev) ∧
          (r = .pcie → t.dev = { s.dev with hostUpA := s.dev.started && !s.dev.perstA && !s.hostGone 0,
                                              hostUpB := s.dev.started && !s.dev.perstB && !s.hostGone 1 } ∧ t.ports = s.ports) ∧
          OnlyChanges [.csr, .parts, .ports, .dev, .out] s t)) ∧
    (s.dev.started = true → s.MayLose h → ∃ t, exec (.halfClockLoss h) s = .next t ∧ s.HalfLost t h) ∧
    (s.dev.started = false → exec (.halfClockLoss h) s = .next s)

/-- Stretches, temperature and the power cap: a droop is counted; the fast loop stretches from 1.05 times the cap until below it; a monitor
stretches, holds its field's partitions with source 6, or trips; the hold loop spaces the holds of each running partition evenly over the next
interval (R420 to R423). -/
def Obligations.HeatAndPowerAreLimited : Prop :=
  ∀ s : State,
    (∀ h : HalfId, ∃ t, exec (.droopStretch h) s = .next t ∧
      t.fld (Csr.cprStretch_droopStretches h) = min (s.fld (Csr.cprStretch_droopStretches h) + 1) (2 ^ 24 - 1) ∧
      t.fld (Csr.cprStretch_thermalStretches h) = s.fld (Csr.cprStretch_thermalStretches h) ∧
      t.fld (Csr.cprStretch_fastStretchUs h) = s.fld (Csr.cprStretch_fastStretchUs h) ∧
      OnlyRegs [Csr.cprStretch h] s t ∧ OnlyChanges [.csr] s t) ∧
    (∀ watts,
      let on := 105 * s.capW < 100 * watts || (s.dev.fastLoop && decide (s.capW ≤ watts))
      ∃ t, exec (.capFastLoop watts) s = .next t ∧ t.dev = { s.dev with fastLoop := on } ∧
        (∀ h : HalfId, t.fld (Csr.cprStretch_fastStretchUs h) =
          if on then min (s.fld (Csr.cprStretch_fastStretchUs h) + 10) (2 ^ 16 - 1) else s.fld (Csr.cprStretch_fastStretchUs h)) ∧
        OnlyRegs [Csr.cprStretch 0, Csr.cprStretch 1] s t ∧ OnlyChanges [.csr, .dev] s t) ∧
    (∀ (m : Monitor) (temp : Nat), s.dev.pwrgd = false → exec (.thermalMonitor m temp) s = .next s) ∧
    (∀ (m : Monitor) (temp : Nat), s.dev.pwrgd = true →
      let fld := m.field
      let key := m.index * 6 + fld.val
      (115 ≤ temp → ∃ t, exec (.thermalMonitor m temp) s = .next t ∧ s.WipedTo t ∧ t.dev.thermtrip = true) ∧
      (temp < 115 →
        let limit := s.fld Csr.cprCap_holdC
        let hot := decide (limit ≤ temp) || (s.dev.hotFields.contains key && decide (limit - 2 < temp))
        ∃ t, exec (.thermalMonitor m temp) s = .next t ∧ t.dev.temps = Map.set 0 s.dev.temps key temp ∧
          t.fld Csr.cprCap_tjMax = min 255 (t.dev.temps.foldl (fun m x => max m x.2) 0) ∧
          t.dev.hotFields.contains key = hot ∧ (∀ k, k ≠ key → t.dev.hotFields.contains k = s.dev.hotFields.contains k) ∧
          t.fld (Csr.cprStretch_thermalStretches (fld / 3)) =
            (if s.fld Csr.cprCap_throttleC ≤ temp then min (s.fld (Csr.cprStretch_thermalStretches (fld / 3)) + 64) (2 ^ 24 - 1)
             else s.fld (Csr.cprStretch_thermalStretches (fld / 3))) ∧
          (∀ p, p < 8 → hot = true → (s.caravans p).any (fun c => fieldOf c = fld.val) = true → t.hasHold p 6 = true) ∧
          (∀ p, (hot = false ∨ (s.caravans p).any (fun c => fieldOf c = fld.val) = false) → t.part p = s.part p) ∧
          OnlyRegs ([Csr.cprCap, Csr.cprStretch (fld / 3)] ++ (List.range 8).flatMap (fun p => [Csr.prtHold p, Csr.prtHoldSrc p 6])) s t ∧
          OnlyChanges [.csr, .dev, .parts, .free] s t)) ∧
    (∀ (watts : Nat) (est : List Nat),
      let ps := s.capParts est
      let u : Int := (watts : Int) - ((ps.map (fun x => x.2.1)).sum : Nat)
      let r := keepRatio s.capW u ((ps.map (fun x => min x.2.1 x.2.2)).sum)
      ∃ t, exec (.capHoldLoop watts est) s = .next t ∧ t.fld Csr.cprCap_powerW = min 8191 watts ∧
        (∀ p, p < 8 → t.fld (Csr.cprShare_estimateW p) = min 4095 (est.getD p 0)) ∧
        (∀ p, p < 8 → (watts ≤ s.capW ∨ s.exec? p = none) → (t.part p).capLeft = 0) ∧
        (s.capW < watts → ∀ p e sh, (p, e, sh) ∈ ps →
          let cycles := s.partMhz p * 100
          let n := capHolds (if sh < e then sh else 1) (if sh < e then e else 1) r.1 r.2 cycles
          (t.part p).capLeft = n ∧ (0 < n → (t.part p).capEvery = max 64 (cycles / n) ∧ (t.part p).capNext = 0)) ∧
        (∀ p, t.part p = { s.part p with capLeft := (t.part p).capLeft, capEvery := (t.part p).capEvery, capNext := (t.part p).capNext }) ∧
        OnlyRegs (Csr.cprCap :: (List.range 8).map Csr.cprShare) s t ∧ OnlyChanges [.csr, .parts] s t)

/-! Registers, BAR2 and DOE. -/

/-- REGISTER_WRITE gives each field what its access code says, for a writer that reaches the part and the register; any other write changes
nothing. BAR2 reads and writes the bytes its window maps, over the mesh, and refuses an access that no window allows. The Seal answers DOE, and
MCTP on function 0 (R6, R228, R258, R414, R434, R435). BAR2 is stated with no memory cut off from the host port (R243). -/
def Obligations.HostsReachRegistersAndMemory : Prop :=
  ∀ s : State,
    (∀ (w : Writer) (off : Nat) (v : Word),
      (findReg off famTable = none → exec (.registerWrite w off v) s = .next s) ∧
      (∀ f is, findReg off famTable = some (f, is) →
        (s.mayWrite w f is = false ∨ s.reaches w = false → exec (.registerWrite w off v) s = .next s) ∧
        (s.mayWrite w f is = true → s.reaches w = true →
          f.name ∉ ["HQ_RING_CTL", "HQ_RING_BASE", "HQ_CANCEL", "HQ_MBOX", "HQ_SEALREQ", "SEAL_MAN", "CSG_STATUS", "CSG_PEER"] →
          (w = .seal → f.name ∉ ["CPR_PSTATE", "CPR_CAP", "CPR_CAUSE", "LNK_CTRL", "WGH_SHARE", "CPR_SHARE"]) →
          let running := (is.head?.map (fun p => (s.part p).exec.isSome)).getD false
          ∃ t, exec (.registerWrite w off v) s = .next t ∧
            t.reg off = wordOf f.fields (fun x => fieldAfter (decide (w = .seal) || (!s.dev.rwlLocked && !sealOnly f)) running f x
              (bitsOf (s.reg off).toNat x.lsb x.width) (bitsOf v.toNat x.lsb x.width)) ∧
            OnlyRegs [off] s t ∧ OnlyChanges [.csr] s t))) ∧
    (∀ (f : FuncId) (acc : BarAccess), s.hostUp f = false → exec (.bar2Access f acc) s = .next s) ∧
    (∀ (f : FuncId) (acc : BarAccess), s.hostUp f = true → s.partOfFn f = none →
      exec (.bar2Access f acc) s = .next (s.emit (.completerAbort f))) ∧
    (∀ (f : FuncId) (p off : Nat), s.hostUp f = true → s.partOfFn f = some p → s.Joined (rtrOfHost (f / 4)) →
      let base := s.fld (Csr.hqCpl_aperture p) * (16 * gib)
      (∀ (n : Nat) (pas : List Nat), off + n ≤ 16 * gib →
        (List.range n).map (fun i => s.barPlace p (base + off + i) false) = pas.map some → (∀ pa ∈ pas, regionOf pa ≠ none) →
        ∃ t, exec (.bar2Access f (.read off n)) s = .next t ∧
          t.out = s.out ++ [.readData f (pas.map s.byte) (pas.any (fun pa => s.poison.contains (pa / 8)))] ∧
          (∀ o, o ∉ meshRegs → t.reg o = (s.eccWords pas).reg o) ∧ OnlyChanges [.csr, .out] s t) ∧
      (∀ (bs : List Byte) (pas : List Nat), off + bs.length ≤ 16 * gib →
        (List.range bs.length).map (fun i => s.barPlace p (base + off + i) true) = pas.map some → (∀ pa ∈ pas, regionOf pa ≠ none) →
        ∃ t, exec (.bar2Access f (.write off bs)) s = .next t ∧ s.Wrote t (pas.zip bs) ∧ OnlyRegs meshRegs s t ∧
          OnlyChanges [.csr, .mem, .poison] s t) ∧
      (∀ n : Nat, 16 * gib < off + n ∨ (∃ i, i < n ∧ s.barPlace p (base + off + i) false = none) →
        ∃ t, exec (.bar2Access f (.read off n)) s = .next t ∧ Out.completerAbort f ∈ t.out ∧ OnlyRegs [Csr.hqEvq p] s t ∧
          OnlyChanges [.csr, .parts, .out] s t) ∧
      (∀ bs : List Byte, 16 * gib < off + bs.length ∨ (∃ i, i < bs.length ∧ s.barPlace p (base + off + i) true = none) →
        ∃ t, exec (.bar2Access f (.write off bs)) s = .next t ∧ Out.completerAbort f ∈ t.out ∧ OnlyRegs [Csr.hqEvq p] s t ∧
          OnlyChanges [.csr, .parts, .out] s t)) ∧
    (∀ (f : FuncId) (bs : List Byte),
      (s.hostUp f = true → s.dev.sealUp = true →
        exec (.hostSpdmDoe f (.doe bs)) s = .next (s.emit (.spdm f (Config.spdmAnswer bs))) ∧
        exec (.hostSpdmDoe f (.mctp bs)) s = .next (if f.val = 0 then s.emit (.mctp 0 (Config.spdmAnswer bs)) else s)) ∧
      (s.hostUp f = false ∨ s.dev.sealUp = false → ∀ msg, exec (.hostSpdmDoe f msg) s = .next s))

/-! Resets. -/

/-- The resets of R427: PWRGD's fall and both starts wipe the part, a start takes the first image that verifies and a DRST names its cause;
CRST zeroes a caravan or one station; LRST empties a port and trains it; PERST and FLR reach one port's link and one function's rings, and end
its bus mastering; a requester that is reset loses its grants (R256, R257). -/
def Obligations.ResetsClearWhatTheyName : Prop :=
  ∀ s : State,
    (∃ t, exec .pwrgdFall s = .next t ∧ s.WipedTo t ∧ t.dev.pwrgd = false) ∧
    (∀ c : StartCond, ¬ (s.dev.pwrgd = true ∧ (s.dev.started = true ∨ s.dev.thermtrip = true)) →
      (c.lugA = false → c.lugB = false →
        ∃ t, exec (.startUp c) s = .next t ∧ s.WipedTo t ∧ t.dev.pwrgd = false) ∧
      (c.lugA = true ∨ c.lugB = true →
        (s.dev.pick = none →
          ∃ t, exec (.startUp c) s = .next t ∧ t.dev.started = true ∧ t.dev.starts = s.dev.starts + 1 ∧ t.dev.running = none ∧
            t.fld Csr.cfgStatus_reason = s.dev.startReason ∧ (∀ i, i < 6 → t.portState i = 0) ∧
            (∀ p, (t.part p).orders = [] ∧ t.exec? p = none)) ∧
        (∀ slot img, s.dev.pick = some (slot, img) →
          ∃ t, exec (.startUp c) s = .next t ∧ t.dev.started = true ∧ t.dev.starts = s.dev.starts + 1 ∧ t.dev.running = some img ∧
            t.dev.active = slot ∧ t.dev.rwlLocked = true ∧ t.fld Csr.cfgStatus_imageSerial = img.imageSerial.toNat ∧
            t.fld Csr.cfgStatus_feed = img.feed.toNat ∧ t.self = img.node.toNat ∧
            (∀ q d, (q, d) ∈ img.parts → t.fld (Csr.prtGrant_caravans q) = d.caravans.toNat ∧
              t.fld (Csr.prtGrant_functions q) = d.functions.toNat ∧ t.fld (Csr.prtGrant_grants q) = d.grants.toNat ∧
              (t.part q).hbm = d.hbmUsed ∧ (t.part q).cxl = d.cxl) ∧
            (∀ p, (t.part p).orders = [] ∧ t.exec? p = none)))) ∧
    (∀ (held : Nat) (c : StartCond),
      (held < 10 ∨ s.dev.pwrgd = false → exec (.drst held c) s = .next s) ∧
      (10 ≤ held → s.dev.pwrgd = true → c.lugA = true ∨ c.lugB = true → s.dev.pick = none →
        ∃ t, exec (.drst held c) s = .next t ∧ t.fld Csr.cprCause_last = 2 ∧ t.dev.started = true ∧ t.dev.running = none ∧
          t.fld Csr.cfgStatus_reason = s.dev.startReason ∧ (∀ p, (t.part p).orders = [] ∧ t.exec? p = none))) ∧
    (∀ (c : CarId) (i : StnId), s.partOfCar c = none →
      let g := c.val * 8 + i.val
      ∃ t, exec (.crst c (some i)) s = .next t ∧ (∀ a, satchelByte g a → t.byte a = 0) ∧ (∀ a, ¬ satchelByte g a → t.byte a = s.byte a) ∧
        (∀ k, t.entry k = if k / 4096 / 42 = g then Entry.zero else s.entry k) ∧
        (∀ k, t.bank k = if k / 42 = g then Bank.empty else s.bank k) ∧
        (s.wf = true → ∀ off f is, findReg off famTable = some (f, is) → (f.scope ≠ .station ∨ is.take 2 ≠ [c.val, i.val]) →
          t.reg off = s.reg off) ∧
        OnlyChanges [.csr, .mem, .poison, .tally, .banks, .spice, .cars] s t) ∧
    (∀ c : CarId, s.partOfCar c = none →
      ∃ t, exec (.crst c none) s = .next t ∧
        (∀ a, (∃ i, i < 8 ∧ satchelByte (c.val * 8 + i) a) ∨ depotByte c a → t.byte a = 0) ∧
        (∀ a, ¬ ((∃ i, i < 8 ∧ satchelByte (c.val * 8 + i) a) ∨ depotByte c a) → t.byte a = s.byte a) ∧
        (∀ k, t.entry k = if k / 4096 / 336 = c.val then Entry.zero else s.entry k) ∧
        (∀ k, t.bank k = if k / 336 = c.val then Bank.empty else s.bank k) ∧
        (∀ k, t.flagAt k = if k / 4096 = c.val then Flag.none else s.flagAt k) ∧
        (∀ k, t.queue k = if k / 64 = c.val then Queue.empty else s.queue k) ∧ (t.car c).runs = [] ∧ (t.car c).xfers = (s.car c).xfers ∧
        (∀ d, d ≠ c.val → t.car d = s.car d) ∧ (∀ i, (t.toll i).owner ≠ some c.val) ∧
        OnlyChanges [.csr, .mem, .poison, .tally, .banks, .flags, .queues, .spice, .cars, .tolls] s t) ∧
    (∀ (i : PortId) (sinceS : Nat), s.dev.factorUp = true → (s.portState i = 6 ∨ (s.port i).parkedState = 6 → 1 ≤ sinceS) →
      ∃ t, exec (.lrstRequest i sinceS) s = .next t ∧ (t.portState i = 0 ∨ t.portState i = 1) ∧ (t.port i).queue = [] ∧
        (t.port i).txq = [] ∧ (t.port i).owners = [] ∧ (t.port i).replay = [] ∧ (t.port i).asm = [] ∧ (t.port i).parkedState = 0 ∧
        t.fld (Csr.lnkStatus_beacon i) = 0 ∧ t.fld (Csr.lnkStatus_peer i) = 0 ∧ OthersKeep i s t ∧
        (∀ j, (t.toll j).owner ≠ some (32 + i.val)) ∧ OnlyChanges [.csr, .ports, .wgh, .tolls, .out] s t) ∧
    (∀ hp : Fin 2, ∃ t, exec (.perstAssert hp) s = .next t ∧ t.perst hp = true ∧ t.perst (1 - hp.val) = s.perst (1 - hp.val) ∧
      (if hp.val = 0 then t.dev.hostUpA else t.dev.hostUpB) = false ∧
      (if hp.val = 0 then t.dev.hostUpB else t.dev.hostUpA) = (if hp.val = 0 then s.dev.hostUpB else s.dev.hostUpA) ∧
      (s.wf = true → ∀ f ring, f / 4 = hp.val → ring < 8 → t.reg (Csr.hqRingBase f ring) = 0 ∧ t.reg (Csr.hqRingCtl f ring) = 0) ∧
      (∀ f, f / 4 = hp.val → t.masters f = false) ∧ OnlyChanges [.csr, .parts, .dev, .tolls] s t) ∧
    (∀ (hp : Fin 2) (cxl : Bool), ∃ t, exec (.perstRelease hp cxl) s = .next t ∧ t.perst hp = false ∧
      (if hp.val = 0 then t.dev.hostUpA else t.dev.hostUpB) = (s.dev.started && !s.flag1 Csr.cprClk_pcieRefLost && !s.hostGone hp) ∧
      t.dev.cxl = (if hp.val = 0 then cxl else s.dev.cxl) ∧
      t.out = s.out ++ (if (if hp.val = 0 then t.dev.hostUpA && !s.dev.hostUpA else t.dev.hostUpB && !s.dev.hostUpB) then [.ready hp.val] else []) ∧
      OnlyChanges [.dev, .out] s t) ∧
    (∀ f : FuncId, s.hostUp f = false → exec (.flr f) s = .next s) ∧
    (∀ f : FuncId, s.wf = true → s.hostUp f = true →
      ∃ t, exec (.flr f) s = .next t ∧ t.masters f = false ∧ (∀ g, g ≠ f.val → t.masters g = s.masters g) ∧
        (∀ ring, ring < 8 → t.reg (Csr.hqRingBase f ring) = 0 ∧ t.reg (Csr.hqRingCtl f ring) = 0 ∧
          (∀ g, g < 8 → g ≠ f.val → t.reg (Csr.hqRingBase g ring) = s.reg (Csr.hqRingBase g ring) ∧
            t.reg (Csr.hqRingCtl g ring) = s.reg (Csr.hqRingCtl g ring))) ∧
        (∀ p, s.partOfFn f = some p →
          (t.part p).ackWait = (s.part p).ackWait.filter (fun a => a.1 ≠ f.val) ∧ (t.part p).orders = (s.part p).orders ∧ OnlyPart p s t) ∧
        OnlyChanges [.csr, .parts, .dev] s t)

/-! Repairs. -/

/-- Repairs: a journal copy is rebuilt on a healthy stack other than the one that holds the other copy, in 256 MiB of it; a soft repair of a
marked row is recorded and counted, and a row that is not marked stays; a scrub counts corrections
and poisons what it cannot correct, and fences a stack with more than 64 new ones; a router that does not answer is fenced with its
stack (R374, R375, R377, R378, R383, R384). That a repair waits for orders whose windows map the row is the model's choice (log entry 8). -/
def Obligations.RepairsAreMade : Prop :=
  ∀ s : State,
    (∀ h : HalfId, s.dev.rebuild.contains h.val = true →
      let other := if h.val = 0 then s.dev.journalE else s.dev.journalW
      ∃ t, exec (.journalRebuildDone h) s = .next t ∧ h.val ∉ t.dev.rebuild ∧
        (if h.val = 0 then t.dev.journalE else t.dev.journalW) = other ∧
        (let k := if h.val = 0 then t.dev.journalW else t.dev.journalE
         let a := if h.val = 0 then t.dev.journalAtW else t.dev.journalAtE
         k * (48 * gib) ≤ a ∧ a + 256 * mib ≤ (k + 1) * (48 * gib) ∧
         ((∃ k, k < 16 ∧ k ∉ s.dev.fencedStacks ∧ k ≠ other) → k < 16 ∧ k ∉ s.dev.fencedStacks ∧ k ≠ other)) ∧
        OnlyChanges [.dev] s t) ∧
    (∀ (k : StackId) (row : Nat), row * 2048 < 48 * gib → k.val ∉ s.dev.fencedStacks →
      (∀ p, p < 8 → s.exec? p = none ∨ s.mapsRow p k row = false) → s.dev.fences.length < 1023 →
      ((∃ w ∈ s.poison, w * 8 / 2048 = rowAt k row / 2048) →
        ∃ t, exec (.hbmSoftPpr k row) s = .next t ∧ t.fld (Csr.hbmEcc_repairs k) = min (s.fld (Csr.hbmEcc_repairs k) + 1) 255 ∧
          (∃ f : FenceEnt, t.dev.fences = s.dev.fences ++ [f] ∧ f.unit = BitVec.ofNat 16 (unitInst (k / 8) (k % 8) 0x30) ∧ f.kind = 3 ∧
            f.detail = row ∧ f.code = Config.fenceCode Config.serial f.unit f.kind f.detail f.time) ∧
          (∀ a, t.byte a = s.byte a) ∧ OnlyRegs [Csr.hbmEcc k] s t ∧ OnlyChanges [.csr, .dev, .free] s t) ∧
      ((∀ w ∈ s.poison, w * 8 / 2048 ≠ rowAt k row / 2048) → Map.get 0 s.dev.rowReads (rowAt k row / 2048) ≤ 8 →
        exec (.hbmSoftPpr k row) s = .next s)) ∧
    (∀ (k : StackId) (one two : Nat) (ws : List Nat), k.val ∉ s.dev.fencedStacks →
      let here := ws.filter (fun w => k.val * (6 * gib) ≤ w && w < (k.val + 1) * (6 * gib))
      let fresh := here.filter (fun w => !s.poison.contains w)
      (Map.get 0 s.dev.poisoned24 k + fresh.length ≤ 64 →
        ∃ t, exec (.hbmScrub k one two ws) s = .next t ∧
          t.fld (Csr.hbmEcc_corr1 k) = min (s.fld (Csr.hbmEcc_corr1 k) + one) (2 ^ 24 - 1) ∧
          t.fld (Csr.hbmEcc_corr2 k) = min (s.fld (Csr.hbmEcc_corr2 k) + two) (2 ^ 16 - 1) ∧
          t.fld (Csr.hbmEcc_uncorr k) = min (s.fld (Csr.hbmEcc_uncorr k) + here.length) (2 ^ 16 - 1) ∧
          (∀ w, w ∈ t.poison ↔ w ∈ s.poison ∨ w ∈ here) ∧ OnlyRegs [Csr.hbmEcc k] s t ∧ OnlyChanges [.csr, .poison, .dev] s t) ∧
      (64 < fresh.length → s.dev.fenced (unitInst (k / 8) (k % 8) 0x30) 1 0 = false → s.dev.fences.length < 1024 →
        ∃ t, exec (.hbmScrub k one two ws) s = .next t ∧ k.val ∈ t.dev.fencedStacks ∧
          t.dev.fenced (unitInst (k / 8) (k % 8) 0x30) 1 0 = true)) ∧
    (∀ (h : HalfId) (r : Fin 32), s.dev.fenced (unitInst h r 0x20) 1 0 = false → s.dev.fences.length < 1024 →
      ∃ t, exec (.routerPollTimeout h r) s = .next t ∧ t.dev.fenced (unitInst h r 0x20) 1 0 = true ∧
        bitOf (t.fld (Csr.mshFault_failedRouters h)) r = true ∧ (r.val < 8 → h.val * 8 + r.val ∈ t.dev.fencedStacks) ∧
        t.fld Csr.csgRisk_failures ≥ min (s.fld Csr.csgRisk_failures + 1) 255)

/-! Torus links. -/

/-- Ports train from DETECT to ACTIVE, fall back when the partner stops answering, are isolated when attestation fails or
resends run out, tell the Factor of an absent partner, and renew their keys (R331 to R333, R336, R348, R349). That a third isolation
within 24 h fences the port is drawn as a free value (log entry 6), so the clauses about isolation take the first two. -/
def Obligations.PortsTrain : Prop :=
  ∀ (s : State) (i : PortId),
    (∀ n, s.portState i = 1 → 8 ≤ n →
      ∃ t, exec (.linkSignalDetect i n) s = .next t ∧ t.portState i = 2 ∧ t.port i = { s.port i with present := true } ∧
        OnlyPort i s t ∧ OnlyRegs [Csr.lnkStatus i] s t ∧ OnlyChanges [.csr, .ports] s t) ∧
    (s.portState i = 2 ∨ s.portState i = 3 →
      ∃ t, exec (.partnerStopsAnswering i) s = .next t ∧ t.portState i = 1 ∧ t.port i = (s.port i).emptied ∧
        OthersKeep i s t ∧ OnlyRegs [Csr.lnkStatus i, Csr.lnkDrop i] s t ∧ OnlyChanges [.csr, .ports, .wgh, .out] s t) ∧
    (∀ n, s.portState i = 2 → 8 ≤ n →
      ∃ t, exec (.linkFecLock i n) s = .next t ∧ t.portState i = 3 ∧ t.fld (Csr.lnkStatus_width i) = widthOf n ∧
        t.out = s.out ++ [.initFlit i s.self (widthOf n)] ∧ OnlyRegs [Csr.lnkStatus i] s t ∧ OnlyChanges [.csr, .out] s t) ∧
    (∀ (coord : BitVec 15) (pp : BitVec 3) (n : Nat) (rev : Bool), s.portState i = 3 → 8 ≤ n →
      let good := coord.toNat = s.stepCoord s.self i ∧ pp.toNat = (if i.val % 2 = 0 then i.val + 1 else i.val - 1)
      ∃ t, exec (.linkInitExchange i coord pp n rev) s = .next t ∧ t.fld (Csr.lnkStatus_peer i) = coord.toNat ∧
        t.fld (Csr.lnkStatus_peerPort i) = pp.toNat ∧ t.fld (Csr.lnkStatus_reversed i) = boolNat rev ∧
        t.fld (Csr.lnkStatus_width i) = min (s.fld (Csr.lnkStatus_width i)) (widthOf n) ∧
        (¬ good → t.portState i = 7) ∧
        (good → t.portState i = (if s.fld (Csr.lnkCtrl_secMode i) = 0 then 5 else 4)) ∧
        (¬ good ∨ s.fld (Csr.lnkCtrl_secMode i) = 0 → t.ports = s.ports ∧ t.out = s.out) ∧
        OnlyPort i s t ∧ OnlyRegs [Csr.lnkStatus i] s t ∧ OnlyChanges [.csr, .ports, .out] s t) ∧
    (s.portState i = 4 →
      (∃ t, exec (.linkSpdmComplete i) s = .next t ∧ t.portState i = 5 ∧
        (2 ≤ s.fld (Csr.lnkCtrl_secMode i) → t.flag1 (Csr.lnkStatus_encrypted i) = true ∧
          t.port i = { s.port i with keyGen := (s.port i).keyGen + 1, keyId := false, oldKey := false }) ∧
        (s.fld (Csr.lnkCtrl_secMode i) < 2 → t.fld (Csr.lnkStatus_encrypted i) = s.fld (Csr.lnkStatus_encrypted i) ∧
          t.port i = s.port i) ∧
        OnlyPort i s t ∧ OnlyRegs [Csr.lnkStatus i] s t ∧ OnlyChanges [.csr, .ports] s t) ∧
      ((s.port i).isolations24 < 2 →
        ∃ t, exec (.linkSpdmTimeout i) s = .next t ∧ t.portState i = 6 ∧
          t.fld (Csr.lnkErr_isolations i) = min (s.fld (Csr.lnkErr_isolations i) + 1) 255 ∧
          t.port i = { (s.port i).emptied with isolations24 := (s.port i).isolations24 + 1 } ∧
          t.fld (Csr.lnkStatus_encrypted i) = 0 ∧ Out.toFactor 16 i ∈ t.out ∧ OthersKeep i s t ∧
          OnlyRegs [Csr.lnkStatus i, Csr.lnkErr i, Csr.lnkDrop i] s t ∧ OnlyChanges [.csr, .ports, .wgh, .out] s t)) ∧
    (1 ≤ s.portState i → s.portState i ≤ 3 → (s.port i).reported = false →
      ∃ t, exec (.linkAbsentReport i) s = .next t ∧ t.port i = { s.port i with reported := true } ∧
        t.out = s.out ++ [.toFactor 17 i] ∧ OnlyPort i s t ∧ OnlyChanges [.ports, .out] s t) ∧
    ((s.portState i = 4 ∨ s.portState i = 5) → (s.port i).outstanding ≠ 0 →
      (max 1 (s.fld (Csr.lnkCtrl_retryLimit i)) > (s.port i).resends + 1 →
        ∃ t, exec (.linkRetryTimer i) s = .next t ∧
          t.fld (Csr.lnkErr_retries i) = min (s.fld (Csr.lnkErr_retries i) + 1) (2 ^ 16 - 1) ∧
          t.port i = { s.port i with resends := (s.port i).resends + 1 } ∧
          t.out = s.out ++ (s.port i).replay.map (fun w => .flit i w) ∧ OnlyPort i s t ∧ OnlyRegs [Csr.lnkErr i] s t ∧
          OnlyChanges [.csr, .ports, .out] s t) ∧
      (max 1 (s.fld (Csr.lnkCtrl_retryLimit i)) ≤ (s.port i).resends + 1 → (s.port i).isolations24 < 2 →
        ∃ t, exec (.linkRetryTimer i) s = .next t ∧ t.portState i = 6 ∧
          t.fld (Csr.lnkErr_retries i) = min (s.fld (Csr.lnkErr_retries i) + 1) (2 ^ 16 - 1) ∧
          (∀ w ∈ (s.port i).replay, Out.flit i w ∈ t.out) ∧ OthersKeep i s t ∧
          OnlyRegs [Csr.lnkStatus i, Csr.lnkErr i, Csr.lnkDrop i] s t ∧ OnlyChanges [.csr, .ports, .wgh, .out] s t)) ∧
    (s.active i = true → s.flag1 (Csr.lnkStatus_encrypted i) = true →
      ∃ t, exec (.keyUpdate i) s = .next t ∧
        t.port i = { s.port i with keyGen := (s.port i).keyGen + 1, keyId := !(s.port i).keyId, oldKey := true } ∧ OnlyPort i s t ∧
        OnlyChanges [.ports] s t)

/-- Packets: a flit in order joins its packet and one with a bad CRC is refused; a packet goes on toward its target or is discarded; at its
target it writes memory, enters a queue or signals a flag, where a window allows it; a beacon is taken; a send entry's packets go to the
port, and it leaves its queue with the last one; the Seal installs a whole detour table or none (R336 to R339, R341, R343 to R347, R350). -/
def Obligations.PacketsMove : Prop :=
  ∀ (s : State) (i : PortId),
    (∀ w : BitVec 2048, (s.portState i = 3 ∨ s.portState i = 4 ∨ s.portState i = 5) →
      (crc32 (flitBytes w 0 252)).toNat ≠ flitBits w (8 * 252) 32 →
      ∃ t, exec (.flitReceive i (.flit w)) s = .next t ∧
        t.fld (Csr.lnkErr_crcErrors i) = min (s.fld (Csr.lnkErr_crcErrors i) + 1) (2 ^ 16 - 1) ∧
        t.port i = { s.port i with nakSent := true } ∧
        t.out = s.out ++ (if (s.port i).nakSent then [] else [.flit i (flitOf ((s.port i).rxSeq * 2 ^ 16 + 6 * 2 ^ 32 + 2 ^ 38) [] [])]) ∧
        OnlyPort i s t ∧ OnlyRegs [Csr.lnkErr i] s t ∧ OnlyChanges [.csr, .ports, .out] s t) ∧
    (∀ n, (s.portState i = 3 ∨ s.portState i = 4 ∨ s.portState i = 5) →
      ∃ t, exec (.flitReceive i (.badCodeword n)) s = .next t ∧
        t.fld (Csr.lnkErr_fecUncorr i) = min (s.fld (Csr.lnkErr_fecUncorr i) + 1) (2 ^ 16 - 1) ∧
        t.fld (Csr.lnkErr_crcErrors i) = min (s.fld (Csr.lnkErr_crcErrors i) + n) (2 ^ 16 - 1) ∧
        t.port i = (if n = 0 then s.port i else { s.port i with nakSent := true }) ∧
        OnlyPort i s t ∧ OnlyRegs [Csr.lnkErr i] s t ∧ OnlyChanges [.csr, .ports, .out] s t) ∧
    (∀ w : BitVec 2048, s.portState i = 5 → s.flag1 (Csr.lnkStatus_encrypted i) = false → flitBits w 39 1 = 0 →
      (crc32 (flitBytes w 0 252)).toNat = flitBits w (8 * 252) 32 → (s.port i).hostile w = false → flitBits w 32 3 < 6 →
      flitBits w 38 1 = 0 → flitBits w 0 16 = ((s.port i).rxSeq + 1) % 2 ^ 16 → s.rxUsed i (flitBits w 32 3) < 2048 →
      let vc := flitBits w 32 3
      let old := Map.get Asm.none (s.port i).asm vc
      let start := flitBits w 35 1 = 1
      let body := (flitBytes w 8 228).take (flitBits w 50 8)
      let poison := decide (flitBits w 37 1 = 1)
      let a : Asm := if start then ⟨body, 1, false, poison⟩
        else ⟨old.bytes ++ body, old.flits + 1, old.broken || old.flits = 0, old.cut || poison⟩
      let k : Packet := ⟨vc, a.flits, BitVec.ofNat 192 (leNat (a.bytes.take 24)), a.bytes.drop 24⟩
      let bad := a.broken = true ∨ a.bytes.length < 24 ∨ s.malformed k = true
      ∃ t, exec (.flitReceive i (.flit w)) s = .next t ∧ (t.port i).rxSeq = ((s.port i).rxSeq + 1) % 2 ^ 16 ∧ (t.port i).nakSent = false ∧
        Map.get Asm.none (t.port i).asm vc = (if flitBits w 36 1 = 0 then a else Asm.none) ∧
        (flitBits w 36 1 = 0 ∨ a.cut = true ∨ bad → (t.port i).queue = (s.port i).queue) ∧
        (flitBits w 36 1 = 1 → a.cut = false → ¬ bad → (t.port i).queue = (s.port i).queue ++ [k]) ∧
        t.fld (Csr.lnkDrop_malformed i) = min (2 ^ 16 - 1) (s.fld (Csr.lnkDrop_malformed i) +
          (if start ∧ old.flits ≠ 0 ∧ old.cut = false then 1 else 0) + (if flitBits w 36 1 = 1 ∧ a.cut = false ∧ bad then 1 else 0)) ∧
        OnlyPort i s t ∧ OnlyRegs [Csr.lnkDrop i] s t ∧ OnlyChanges [.csr, .ports, .out] s t) ∧
    (∀ (k : Packet), s.active i = true → s.malformed k = false → (s.leg2 k).target ≠ s.self → s.atHead i k = true → k.kind < 6 →
      ∀ o, s.portTo (s.leg2 k).target = some o →
        (k.hops + 1 ≤ 96 → s.active o = true →
          let q : Packet := { (s.leg2 k).setF 11 1 (k.hops + 1) with vc := s.nextVc i o k (s.leg2 k ≠ k) }
          let free := (s.port o).fits q && !bitOf (s.tollMask (96 + o)) (32 + i.val)
          (free = true →
            ∃ t, exec (.packetForward i k) s = .next t ∧ (t.port i).queue = (s.port i).queue.erase k ∧ s.Opened t o q (s.srcOf i k) ∧
              (∀ j, j ≠ i.val → j ≠ o → t.port j = s.port j) ∧ OnlyChanges [.ports, .out] s t) ∧
          (free = false →
            ∃ t, exec (.packetForward i k) s = .next t ∧ k ∈ (t.port i).queue ∧ OnlyPort i s t ∧ OnlyChanges [.ports] s t)) ∧
        (96 < k.hops + 1 ∨ s.active o = false →
          ∃ t, exec (.packetForward i k) s = .next t ∧ (t.port i).queue = (s.port i).queue.erase k ∧
            t.fld (Csr.lnkDrop_unroutable o) = min (s.fld (Csr.lnkDrop_unroutable o) + 1) (2 ^ 16 - 1) ∧ OnlyPort i s t ∧
            OnlyRegs [Csr.lnkDrop o] s t ∧ OnlyChanges [.csr, .ports, .out] s t)) ∧
    (∀ k : Packet, s.active i = true → s.malformed k = false → (s.leg2 k).target = s.self → s.atHead i k = true →
      2 ≤ k.kind → k.kind ≤ 4 →
      ((s.windowOk i k k.part = false ∨ s.flagOk k.part k.flag = false) →
        ∃ t, exec (.packetDeliver i k) s = .next t ∧ (t.port i).queue = (s.port i).queue.erase k ∧
          t.fld (Csr.lnkDrop_window i) = min (s.fld (Csr.lnkDrop_window i) + 1) (2 ^ 16 - 1) ∧
          (s.windowOk i k k.part = false → Out.toFactor 20 i ∈ t.out) ∧
          OnlyPort i s t ∧ OnlyRegs [Csr.lnkDrop i] s t ∧ OnlyChanges [.csr, .ports, .out] s t) ∧
      (s.windowOk i k k.part = true → s.flagOk k.part k.flag = true →
        let key := s.home k.part * 4096 + k.flag
        let sig (t : State) := ∀ f, t.flagAt f = if k.flag ≠ 0 ∧ f = key then { s.flagAt f with count := (s.flagAt f).count + 1 } else s.flagAt f
        (k.flag = 0 ∨ (s.flagAt key).count + ((s.exec? k.part).map (fun e => e.signalsTo key)).getD 0 < 65535) →
        (k.kind = 4 → ∃ t, exec (.packetDeliver i k) s = .next t ∧ sig t ∧ (t.port i).queue = (s.port i).queue.erase k ∧
          OnlyPort i s t ∧ OnlyChanges [.flags, .ports, .out] s t) ∧
        (k.kind = 3 → s.rowCheck k.part 0 k.addr k.payload.length true = none → s.Joined (rtrOfPort i) →
          ∃ t, exec (.packetDeliver i k) s = .next t ∧ sig t ∧ s.Wrote t (s.writesAt k.part (s.homeStn k.part) k.addr k.payload) ∧
            (t.port i).queue = (s.port i).queue.erase k ∧ OnlyPort i s t ∧ OnlyRegs meshRegs s t ∧
            OnlyChanges [.csr, .flags, .mem, .poison, .ports, .out] s t) ∧
        (∀ c, k.kind = 2 → (s.caravans k.part)[k.f 14 1]? = some c → c < 24 →
          let q := bitsOf k.index 0 6
          s.qElastic c q = true → s.qOcc c q < s.qDepth c q →
          ∃ t, exec (.packetDeliver i k) s = .next t ∧ sig t ∧ t.qOcc c q = s.qOcc c q + 1 ∧
            t.bytes (s.qSlot c q (s.qOcc c q)) 64 = (k.payload ++ List.replicate 64 0).take 64 ∧
            (t.queue (queueKey c q)).ready = (s.queue (queueKey c q)).ready ++ [0] ∧
            MemOnly (fun a => s.qSlot c q (s.qOcc c q) ≤ a ∧ a < s.qSlot c q (s.qOcc c q) + 64) s t ∧
            (t.port i).queue = (s.port i).queue.erase k ∧ OnlyPort i s t ∧ OnlyRegs (Csr.carQueue c q :: meshRegs) s t ∧
            OnlyChanges [.csr, .flags, .queues, .mem, .poison, .ports, .out] s t))) ∧
    (s.active i = true →
      (∀ b : Beacon, b.hops = 0 → b.src.toNat = s.fld (Csr.lnkStatus_peer i) →
        ∃ t, exec (.faultBeaconReceive i b) s = .next t ∧ t.fld (Csr.lnkStatus_beacon i) = 1 ∧ t.portState i = s.portState i ∧
          t.out = s.out ++ [.toFactor 18 i] ∧ OnlyRegs [Csr.lnkStatus i] s t ∧ OnlyChanges [.csr, .out] s t) ∧
      (∀ b : Beacon, b.hops ≠ 0 ∨ b.src.toNat ≠ s.fld (Csr.lnkStatus_peer i) →
        ∃ t, exec (.faultBeaconReceive i b) s = .next t ∧
          t.fld (Csr.lnkDrop_window i) = min (s.fld (Csr.lnkDrop_window i) + 1) (2 ^ 16 - 1) ∧ t.out = s.out ++ [.toFactor 20 i] ∧
          OnlyRegs [Csr.lnkDrop i] s t ∧ OnlyChanges [.csr, .out] s t)) ∧
    (∀ (p : PartId) (j c q : Nat),
      let ent (c q : Nat) : SendEnt := parseSend (s.bytes (s.qSlot c q 0) 64)
      let x := s.queue (queueKey c q)
      let e := ent c q
      (s.sendQueues p).find? (fun x => s.sendRes p (s.queue (queueKey x.2.1 x.2.2)) (ent x.2.1 x.2.2) ≠ .held) = some (j, c, q) →
      c < 24 → q < 64 → s.sendRes p x e = .go → s.poisonIn p (c * 8) e.local_ e.bytes = none →
      (∀ o, s.portTo ((s.sendVia x e).getD e.dest) = some o → s.Joined (rtrOfPort o)) →
      let popped (t : State) := t.qOcc c q = s.qOcc c q - 1 ∧ (t.queue (queueKey c q)).ready = x.ready.tail ∧
        (t.queue (queueKey c q)).given = 0 ∧ t.part p = { s.part p with txNext := (j + 1) % 4 }
      ∃ t, exec (.linkSendEntry p) s = .next t ∧
        (x.given + 1 = e.packets → popped t ∧
          (∀ o, s.portTo ((s.sendVia x e).getD e.dest) = some o → s.active o = true → (s.port o).owners = [] → (s.port o).txq = [] →
            s.Opened t o (s.sendPkt p (c * 8) e (s.sendVia x e) x.given) none)) ∧
        (x.given + 1 < e.packets → popped t ∨
          (x.given < (t.queue (queueKey c q)).given ∧ (t.queue (queueKey c q)).via = s.sendVia x e ∧ t.qOcc c q = s.qOcc c q ∧
            t.part p = s.part p)) ∧
        OnlyPart p s t ∧ OnlyRegs (Csr.carQueue c q :: (List.range 6).map Csr.lnkDrop ++ meshRegs) s t ∧
        OnlyChanges [.csr, .queues, .parts, .ports, .out] s t) ∧
    (∀ tbl : List Word,
      (tbl.length ≤ 64 → tbl.all s.detourOk = true →
        ∃ t, exec (.detourInstall tbl) s = .next t ∧
          (∀ e, e < 64 → t.reg (Csr.lnkDetour e) = BitVec.ofNat 64 ((tbl.getD e 0).toNat % 2 ^ 46)) ∧
          OnlyRegs ((List.range 64).map Csr.lnkDetour) s t ∧ OnlyChanges [.csr] s t) ∧
      ((64 < tbl.length ∨ tbl.all s.detourOk = false) → exec (.detourInstall tbl) s = .next (s.emit (.toFactor 19 0))))

/-! The weighhouse. -/

/-- The weighhouse's packets and deadlines: an owner opens its next chunk in a slot; a member answers an OPEN from its ledger; contributions are
added exactly into the slot, once each; results are collected until the chunk is whole; votes are kept and decide the step; a NAK faults the
SEND; a FAIL or a missed deadline makes the chunk bad (R310 to R320). -/
def Obligations.WeighhouseExchanges : Prop :=
  ∀ (s : State) (p : PartId),
    (∀ r c, (s.wctx p).slots.length < s.fld (Csr.wghShare_slots p) → (s.part p).wghLost = false → (s.wctx p).nextOwned = some (r, c) →
      s.chunkPoison p r c = none → s.Joined (s.wghRtr p) →
      let w := s.wctx p
      let n := chunkElems r.wide r.slices c
      let k : Slot :=
        { step := w.step, attempt := w.attempt, bucket := r.bucket, chunk := c, wide := r.wide, elems := n, slices := r.slices,
          sums := addAt (frameExp r.wide) (List.replicate n Acc.zero) 0 (s.chunkVals p r c),
          got := (List.range (chunkPkts r.wide n)).map (fun i => (w.self, i)) }
      k.complete w = false →
      ∃ t, exec (.ownerOpenChunk p) s = .next t ∧ t.wctx p = { w.setRec { r with opened := c :: r.opened } with slots := w.slots ++ [k] } ∧
        OnlyChanges [.csr, .wgh, .ports, .out] s t) ∧
    (∀ (port : PortId) (hdr : BitVec 512) (bs : List Byte),
      let h := parseWHdr hdr
      let w := s.wctx p
      (s.WghTakes 1 port hdr bs p → h.sender = w.owner h.bucket h.chunk → h.sender ≠ w.self →
        w.failed h.bucket h.chunk = false →
        (w.rec? h.bucket = none →
          ∃ t, exec (.openPkt port hdr bs) s = .next t ∧
            t.wctx p = { w with opens := (h.bucket, h.chunk) :: w.opens.filter (· ≠ (h.bucket, h.chunk)) } ∧
            s.Digested t p (h.bytes ++ bs) ∧ OnlyRegs [Csr.wghDigestRx p, Csr.wghStepRx p] s t ∧ OnlyChanges [.csr, .wgh] s t) ∧
        (∀ r, w.rec? h.bucket = some r → h.chunk < r.chunks → r.skipped = false → s.chunkPoison p r h.chunk = none →
          s.Joined (s.wghRtr p) →
          ∃ t r', exec (.openPkt port hdr bs) s = .next t ∧ (t.wctx p).rec? h.bucket = some r' ∧ h.chunk ∈ r'.sent ∧
            (h.bucket, h.chunk) ∉ (t.wctx p).opens ∧ s.Digested t p (h.bytes ++ bs))) ∧
      (∀ (wide : Bool) (k : Slot), s.WghTakes (if wide then 4 else 2) port hdr bs p →
        (∀ r, w.own? h.bucket = some r → r.slices = h.slices) → w.group.contains h.sender = true →
        w.slots.find? (fun k => k.bucket = h.bucket && k.chunk = h.chunk && k.step = w.step && k.attempt = w.attempt) = some k →
        k.wide = wide → h.packet < chunkPkts wide k.elems → h.count = min (pktElems wide) (k.elems - h.packet * pktElems wide) →
        let c : Instr := if wide then .wideContrib port hdr bs else .contrib port hdr bs
        let k' : Slot := { k with
          sums := addAt (frameExp wide) k.sums (h.packet * pktElems wide) (payloadAccs wide h.states h.count bs),
          got := (h.sender, h.packet) :: k.got }
        (k.got.contains (h.sender, h.packet) = true →
          ∃ t, exec c s = .next t ∧ t.wgh = s.wgh ∧
            t.fld (Csr.wghCount_duplicates p) = min (s.fld (Csr.wghCount_duplicates p) + 1) (2 ^ 16 - 1) ∧
            OnlyRegs [Csr.wghCount p] s t ∧ OnlyChanges [.csr] s t) ∧
        (k.got.contains (h.sender, h.packet) = false → k'.complete w = false →
          ∃ t, exec c s = .next t ∧ t.wctx p = { w with slots := w.slots.map (fun y => if y = k then k' else y) } ∧
            s.Digested t p (h.bytes ++ bs) ∧ OnlyRegs [Csr.wghDigestRx p, Csr.wghStepRx p] s t ∧ OnlyChanges [.csr, .wgh] s t) ∧
        (k.got.contains (h.sender, h.packet) = false → k'.complete w = true →
          ∃ t, exec c s = .next t ∧ (t.wctx p).slots.length + 1 = w.slots.length)) ∧
      (∀ (wide : Bool) (r : SendRec), s.WghTakes (if wide then 5 else 3) port hdr bs p → w.rec? h.bucket = some r → r.wide = wide →
        r.skipped = false → h.chunk < r.chunks → h.sender = w.owner h.bucket h.chunk →
        let elems := chunkElems wide r.slices h.chunk
        h.packet < chunkPkts wide elems → h.count = min (pktElems wide) (elems - h.packet * pktElems wide) →
        r.resolved.contains h.chunk = false → r.got.any (fun g => g.chunk = h.chunk && g.packet = h.packet) = false →
        (wide = false → s.updIssued p h.bucket = true) →
        let sums := if wide then (payloadAccs true h.states h.count bs).map (fun a => rne32 (plusZero (a.val (-320)))) else []
        let vals : List (BitVec 32) := if wide then sums.map (fun c => BitVec.ofNat 32 c.bits)
          else (List.range h.count).map (fun j => BitVec.ofNat 32 (leAt bs (4 * j) 4))
        let got : List ResultIn := ⟨h.chunk, h.packet, decide (h.flags = 1), vals, [], sums.any (·.ovf), sums.any (·.unf)⟩ :: r.got
        let c : Instr := if wide then .wideResult port hdr bs else .result port hdr bs
        ((got.filter (·.chunk = h.chunk)).length < chunkPkts wide elems →
          ∃ t, exec c s = .next t ∧ t.wctx p = w.setRec { r with got := got } ∧ s.Digested t p (h.bytes ++ bs) ∧
            OnlyRegs [Csr.wghDigestRx p, Csr.wghStepRx p] s t ∧ OnlyChanges [.csr, .wgh] s t) ∧
        (chunkPkts wide elems ≤ (got.filter (·.chunk = h.chunk)).length → (wide = true → s.Joined (s.wghRtr p)) →
          ∃ t r', exec c s = .next t ∧ (t.wctx p).rec? h.bucket = some r' ∧ h.chunk ∈ r'.resolved)) ∧
      (s.WghTakes 6 port hdr bs p → w.votes.any (·.1 = h.sender) = false →
        let votes := w.votes ++ [(h.sender, h.reason, accOf80 bs 0)]
        (((s.exec? p).map (·.committed)).getD false = false →
          ∃ t, exec (.vote port hdr bs) s = .next t ∧ t.wctx p = { w with votes := votes } ∧ s.Digested t p (h.bytes ++ bs) ∧
            OnlyRegs [Csr.wghDigestRx p, Csr.wghStepRx p] s t ∧ OnlyChanges [.csr, .wgh] s t) ∧
        (∀ e own, s.exec? p = some e → e.committed = true → e.fault = none → e.outcome = 0 → e.upds.all (·.finished) = true →
          w.peers.isEmpty = false → w.voted = some own → ({ w with votes := votes } : Wgh).missing = [] →
          ∃ t e', exec (.vote port hdr bs) s = .next t ∧ t.exec? p = some e' ∧
            e'.outcome = decide5 (own :: votes.map (fun v => v.2.1)) ∧ (t.wctx p).votes = votes)) ∧
      (s.WghTakes 7 port hdr bs p → ∀ e, s.exec? p = some e → e.fault = none →
        let r := w.own? h.bucket
        let off := (r.map (·.off)).getD 0
        (h.reason = 1 → ∃ t e', exec (.nak port hdr bs) s = .next t ∧ t.exec? p = some e' ∧
          e'.fault = some (faultRec p 0x41 (wghUnit s p) e.seq (s.orderPace p) off
            (s.fld (Csr.wghEpoch_epoch p) + h.epoch * 2 ^ 16 + h.bucket * 2 ^ 32 + 3 * 2 ^ 52))) ∧
        (h.reason = 2 → ∃ t e', exec (.nak port hdr bs) s = .next t ∧ t.exec? p = some e' ∧
          e'.fault = some (faultRec p 0x44 (wghUnit s p) e.seq (s.orderPace p) off
            (h.bucket + (r.map (fun (x : SendRec) => x.slices)).getD 0 * 2 ^ 20)))) ∧
      (∀ r, s.WghTakes 8 port hdr bs p → h.sender = w.owner h.bucket h.chunk → w.rec? h.bucket = some r →
        r.resolved.contains h.chunk = false →
        ∃ t r', exec (.fail port hdr bs) s = .next t ∧ (t.wctx p).rec? h.bucket = some r' ∧ h.chunk ∈ r'.resolved ∧
          t.fld (Csr.wghCount_missed p) = min (s.fld (Csr.wghCount_missed p) + 1) (2 ^ 16 - 1) ∧ s.Digested t p (h.bytes ++ bs))) ∧
    (∀ (b : BitVec 20) (c : BitVec 16), (s.part p).wghLost = false →
      (∀ k, (s.wctx p).slots.find? (fun k => k.bucket = b.toNat && k.chunk = c.toNat) = some k →
        ∃ t, exec (.ownerDeadlineExpire p b c) s = .next t ∧ (t.wctx p).slots = (s.wctx p).slots.erase k ∧
          (∀ r, k.step = (s.wctx p).step → k.attempt = (s.wctx p).attempt → (s.wctx p).rec? b.toNat = some r →
            r.resolved.contains c.toNat = false →
            t.fld (Csr.wghCount_missed p) = min (s.fld (Csr.wghCount_missed p) + 1) (2 ^ 16 - 1) ∧
            ∃ r', (t.wctx p).rec? b.toNat = some r' ∧ c.toNat ∈ r'.resolved)) ∧
      (∀ r, (s.wctx p).rec? b.toNat = some r → c.toNat < r.chunks → r.skipped = false → r.resolved.contains c.toNat = false →
        ∃ t r', exec (.memberDeadlineExpire p b c) s = .next t ∧ (t.wctx p).rec? b.toNat = some r' ∧ c.toNat ∈ r'.resolved ∧
          t.fld (Csr.wghCount_missed p) = min (s.fld (Csr.wghCount_missed p) + 1) (2 ^ 16 - 1) ∧
          OnlyRegs [Csr.wghCount p] s t ∧ OnlyChanges [.csr, .wgh, .parts, .banks] s t) ∧
      (∀ r, (s.wctx p).rec? b.toNat = none → (s.wctx p).queued.find? (·.bucket = b.toNat) = some r → c.toNat < r.chunks → r.skipped = false →
        (s.wctx p).taken.any (fun y => y.bucket = b.toNat && y.chunk = c.toNat) = false →
        ∃ t, exec (.memberDeadlineExpire p b c) s = .next t ∧ (t.wctx p).failed b.toNat c.toNat = true ∧
          t.fld (Csr.wghCount_missed p) = min (s.fld (Csr.wghCount_missed p) + 1) (2 ^ 16 - 1) ∧
          OnlyRegs [Csr.wghCount p] s t ∧ OnlyChanges [.csr, .wgh] s t)) ∧
    (∀ e m ms, s.exec? p = some e → e.fault = none → e.committed = true → e.outcome = 0 → (s.wctx p).voted.isSome = true →
      (s.wctx p).missing = m :: ms →
      ∃ t e', exec (.voteDeadlineExpire p) s = .next t ∧ t.exec? p = some e' ∧
        e'.fault = some (faultRec p 0x45 (stepUnit s p) e.seq (s.orderPace p) (e.voteOff.getD 0) (m + (s.wctx p).step.toNat * 2 ^ 12)) ∧
        OnlyPart p s t)

/-! Board management. -/

/-- Board management: a warm reset over I3C, an image slot written, an image applied to one partition in service or refused with its reason, and
what can be read with the standby supply alone, from a Seal pair, and in safe hold (R30, R403, R427, R458, R459). -/
def Obligations.BoardManages : Prop :=
  ∀ s : State,
    (s.dev.i3cSeal = true →
      (∃ t, exec .i3cWrstRequest s = .next t ∧ t.fld Csr.cprCause_last = 3 ∧ t.fld Csr.cprCause_wrstReason = 1 ∧ t.tolls = [] ∧
        (∀ a, sramByte a → t.byte a = 0) ∧ (∀ k, k / 4096 / 42 < 192 → t.entry k = Entry.zero) ∧
        (∀ k, k / 4096 < 24 → t.flagAt k = Flag.none) ∧ (∀ i, i < 6 → t.portState i = 0 ∨ t.portState i = 1) ∧
        ((∀ q, q < 8 → s.exec? q = none ∧ (s.part q).prev = none ∧ (s.part q).preempt = none) →
          (∀ a, ¬ sramByte a → t.byte a = s.byte a) ∧ ∀ q, q < 8 → t.exec? q = none)) ∧
      (∀ (slot : Fin 2) (img : Image), ∃ t, exec (.i3cImageWrite slot img) s = .next t ∧ t.dev.slot slot = some img ∧
        t.dev.slot (1 - slot.val) = s.dev.slot (1 - slot.val) ∧ t.dev.running = s.dev.running ∧ OnlyChanges [.dev] s t) ∧
      (∀ (p : PartId) (slot : Fin 2) (img run : Image), s.dev.applying = none → s.dev.slot slot = some img → s.dev.running = some run →
        (applyRefusal s.capW (s.sharesBut p) img run p = none →
          ∃ t, exec (.imageApplyRequest p slot) s = .next t ∧ t.dev = { s.dev with applying := some (p.val, slot.val, img) } ∧
            t.fld Csr.cfgStatus_applyState = 2 ∧ OnlyRegs [Csr.cfgStatus] s t ∧ OnlyChanges [.csr, .dev] s t) ∧
        (∀ r, applyRefusal s.capW (s.sharesBut p) img run p = some r →
          ∃ t, exec (.imageApplyRequest p slot) s = .next t ∧ t.dev = s.dev ∧ t.fld Csr.cfgStatus_applyState = 0 ∧
            t.fld Csr.cfgStatus_applyReason = r ∧ OnlyRegs [Csr.cfgStatus] s t ∧ OnlyChanges [.csr, .dev] s t)) ∧
      (∀ msg, exec (.i3cAttest msg) s = .next (s.emit (.i3c (Config.spdmAnswer msg))))) ∧
    (∀ (p slot : Nat) (img : Image), s.dev.applying = some (p, slot, img) → p < 8 →
      ((s.part p).exec = none → (s.part p).prev = none →
        let d := defOf img p
        ∃ t, exec .imageApply s = .next t ∧ t.dev.applying = none ∧ t.dev.active = slot ∧ t.dev.running = some img ∧
          t.fld Csr.cfgStatus_applyState = 0 ∧ t.fld Csr.cfgStatus_imageSerial = img.imageSerial.toNat ∧
          t.fld (Csr.prtGrant_caravans p) = d.caravans.toNat ∧ t.fld (Csr.prtGrant_functions p) = d.functions.toNat ∧
          t.fld (Csr.prtGrant_grants p) = d.grants.toNat ∧ (t.part p).hbm = d.hbmUsed ∧ (t.part p).cxl = d.cxl ∧
          t.exec? p = none) ∧
      ((s.part p).exec.isSome = true ∨ (s.part p).prev.isSome = true →
        exec .imageApply s = .next s ∧
        ∃ t, exec .imageApplyDrainTimeout s = .next t ∧ t.dev = { s.dev with applying := none } ∧ t.fld Csr.cfgStatus_applyReason = 3 ∧
          t.fld Csr.cfgStatus_applyState = 0 ∧ OnlyRegs [Csr.cfgStatus] s t ∧ OnlyChanges [.csr, .dev] s t)) ∧
    (s.dev.aux = true → exec .i3cModuleInfoRead s = .next (s.emit (.i3c s.moduleInfo))) ∧
    (s.dev.aux = true → s.dev.safeHold = true →
      exec .i3cSafeHoldRead s = .next ((s.emit (.beacon none)).emit (.i3c s.journalBytes)))

/-! The TAP and the scout port. -/

/-- The TAP's instructions and the scout's operations: a token unlocks its partition; then each operation, under its right, has its effect and leaves status 0 and its data in
the data register; without a token the status is 1; a token's end releases the halt and clears the breakpoints (R460 to R465). -/
def Obligations.ScoutOperates : Prop :=
  ∀ s : State, s.dev.pwrgd = true →
    exec .bypass s = .next { s with scout := { s.scout with ir := 0 } } ∧
    exec .scout s = .next { s with scout := { s.scout with ir := 4 } } ∧
    exec .idcode s = .next { s with scout := { s.scout with ir := 1 }, out := s.out ++ [.tdo 32 idcodeValue] } ∧
    (∀ v, ∃ n, exec (.samplePreload v) s = .next { s with
      scout := { s.scout with ir := 2, boundary := v }, out := s.out ++ [.tdo 64 n], free := s.free + 1 }) ∧
    (∀ v, (s.deviceToken = true → (∀ q, q < 8 → s.exec? q = none) →
        exec (.extest v) s = .next { s with scout := { s.scout with ir := 3, boundary := v } }) ∧
      (s.deviceToken = false → exec (.extest v) s = .next s)) ∧
    (∀ (w0 w1 : Word) (now : BitVec 32), s.scout.ir = 4 →
      let p := bitsOf w0.toNat 0 3
      (s.dev.started = true → w1 = Config.tokenMac s.dev.starts w0 → now.toNat < bitsOf w0.toNat 16 32 → (s.caravans p).isEmpty = false →
        ∃ t, exec (.scoutUnlock w0 w1 now) s = .next t ∧ t.flag1 (Csr.sctStatus_unlocked p) = true ∧
          t.fld (Csr.sctStatus_rights p) = bitsOf w0.toNat 8 8 ∧ t.scout.part = some p ∧ t.scout.expiry = bitsOf w0.toNat 16 32 ∧
          t.scout.status = 0 ∧ OnlyRegs [Csr.sctStatus p, Csr.cprPstate] s t ∧ OnlyChanges [.csr, .scout, .out] s t) ∧
      (w1 ≠ Config.tokenMac s.dev.starts w0 ∨ bitsOf w0.toNat 16 32 ≤ now.toNat →
        ∃ t, exec (.scoutUnlock w0 w1 now) s = .next t ∧ t.scout.status = 1 ∧ t.scout.part = s.scout.part ∧
          OnlyChanges [.scout, .out] s t)) ∧
    (s.scout.ir = 4 → s.unlocked = none → ∀ c ∈ [Instr.scoutHalt, .scoutResume, .scoutStatus],
      ∃ t, exec c s = .next t ∧ t.scout.status = 1 ∧ OnlyChanges [.scout, .out] s t) ∧
    (∀ p : PartId,
      let frame (t : State) (dr : BitVec 128) := t.scout = { s.scout with status := 0, dr := dr } ∧
        t.out = s.out ++ [.tdo 128 s.scout.dr.toNat] ∧ OnlyPart p s t ∧
        t.fld (partState p) = (if s.fld (partState p) = 2 then 1 else s.fld (partState p))
      (s.ScoutOpen p 0 →
        (s.halted p = false → ∃ t, exec .scoutHalt s = .next t ∧ frame t (drWord 0x10 0 0 0) ∧ t.halted p = true ∧ t.hasHold p 9 = true ∧
          OnlyRegs [Csr.sctStatus p, Csr.cprPstate, Csr.prtHold p, Csr.prtHoldSrc p 9] s t ∧ OnlyChanges [.csr, .parts, .scout, .out, .free] s t) ∧
        ((∀ k ∈ (s.part p).holds, k.src = 9 → k.left = none) →
          ∃ t, exec .scoutResume s = .next t ∧ frame t (drWord 0x11 0 0 0) ∧ t.halted p = false ∧ t.hasHold p 9 = false ∧
          OnlyRegs [Csr.sctStatus p, Csr.cprPstate, Csr.prtHold p, Csr.prtHoldSrc p 8] s t ∧
          OnlyChanges [.csr, .parts, .scout, .out, .free] s t) ∧
        (∀ n : BitVec 48, 0 < n.toNat → n.toNat ≤ 65535 → (s.part p).stepLeft = none → s.halted p = true →
          ∃ t, exec (.scoutStep n) s = .next t ∧ frame t (drWord 0x12 n.toNat 0 0) ∧
            t.part p = { s.part p with stepLeft := some n.toNat } ∧ OnlyRegs [Csr.cprPstate] s t ∧ OnlyChanges [.csr, .parts, .scout, .out] s t)) ∧
      (s.ScoutOpen p 1 → ∀ (arg : BitVec 48) (v : Word),
        (bitsOf arg.toNat 2 2 ≠ 3 → ∃ t, exec (.scoutSetBreakpoint arg v) s = .next t ∧ frame t (drWord 0x20 arg.toNat 0 0) ∧
          t.part p = { s.part p with bps := (s.part p).bps.set (bitsOf arg.toNat 0 2) (some (bitsOf arg.toNat 2 2, v)) } ∧
          OnlyRegs [Csr.cprPstate] s t ∧ OnlyChanges [.csr, .parts, .scout, .out] s t) ∧
        (∃ t, exec (.scoutClearBreakpoint arg) s = .next t ∧ frame t (drWord 0x21 arg.toNat 0 0) ∧
          t.part p = { s.part p with bps := (s.part p).bps.set (bitsOf arg.toNat 0 2) none } ∧
          OnlyRegs [Csr.cprPstate] s t ∧ OnlyChanges [.csr, .parts, .scout, .out] s t)) ∧
      (∀ (va : BitVec 48) (pas : List Nat) (v : Word),
        (s.ScoutOpen p 2 → s.scoutPlaces p va.toNat false = some pas →
          ∃ t, exec (.scoutMemoryRead va) s = .next t ∧ frame t (drWord 0x30 va.toNat (leNat (pas.map s.byte)) 0) ∧
            OnlyRegs (Csr.cprPstate :: (List.range 2).map Csr.sealEcc ++ (List.range 16).map Csr.hbmEcc) s t ∧
            OnlyChanges [.csr, .scout, .out] s t) ∧
        (s.ScoutOpen p 3 → s.halted p = true → s.scoutPlaces p va.toNat true = some pas →
          ∃ t, exec (.scoutMemoryWrite va v) s = .next t ∧ frame t (drWord 0x31 va.toNat v.toNat 0) ∧
            s.Wrote t (pas.zip (leBytes 8 v.toNat)) ∧ OnlyRegs [Csr.cprPstate] s t ∧ OnlyChanges [.csr, .mem, .poison, .scout, .out] s t)) ∧
      (s.ScoutOpen p 4 → ∀ (off : BitVec 48) (v : Word),
        let fns := (List.range 8).filter (fun f => bitOf (s.fld (Csr.prtGrant_functions p)) f)
        (∃ t, exec (.scoutRegisterRead off) s = .next t ∧
          frame t (drWord 0x40 off.toNat ((s.wakeUp p).readReg (some p) fns off.toNat).toNat 0) ∧
          OnlyRegs [Csr.cprPstate] s t ∧ OnlyChanges [.csr, .scout, .out] s t) ∧
        (∃ t, exec (.scoutRegisterWrite off v) s = .next t ∧ t.scout.status = 0 ∧
          ∀ o, t.reg o = ((s.wakeUp p).regWrite (.scout p) off.toNat v).reg o)) ∧
      (s.scout.ir = 4 → s.unlocked = some p.val →
        exec .scoutStatus s = .next (s.tdr 0x50 0 (s.reg (Csr.sctStatus p)).toNat 0)) ∧
      (s.flag1 (Csr.sctStatus_unlocked p) = true → (∀ k ∈ (s.part p).holds, k.src = 9 → k.left = none) →
        ∃ t, exec (.tokenExpire p) s = .next t ∧ t.flag1 (Csr.sctStatus_unlocked p) = false ∧ t.fld (Csr.sctStatus_rights p) = 0 ∧
          t.halted p = false ∧ t.hasHold p 9 = false ∧ (t.part p).bps = [none, none, none, none] ∧ t.scout.part ≠ some p.val ∧
          OnlyPart p s t ∧ OnlyRegs [Csr.sctStatus p, Csr.prtHold p, Csr.prtHoldSrc p 8] s t ∧
          OnlyChanges [.csr, .parts, .scout, .free] s t))

/-! Entries and their residues. -/

/-- Each entry stores the residue of its value: every step keeps it so, in the tally and in what a pre-emption saves; the residue is V mod 127 in 0 to
126, and the tally computes it from 91 digits of 7 bits and the three top bits (R77). -/
def Obligations.EntriesKeepTheirResidue : Prop :=
  (∀ s t : State, s.Residues → step s = .next t → t.Residues) ∧
  (∀ v : Int, -(2 ^ 639) ≤ v → v < 2 ^ 639 →
    let b := (v % 2 ^ 640).toNat
    residue v < 127 ∧ (residue v : Int) % 127 = v % 127 ∧
    (residue v : Int) = (((((List.range 91).map (fun i => bitsOf b (7 * i) 7)).sum + bitsOf b 637 1 + 2 * bitsOf b 638 1 : Nat) : Int) -
      4 * bitsOf b 639 1) % 127)

/-- The residue check catches an error exactly when it is not a multiple of 127, so every single-bit error; a column's residue channel
forms the residue of what the products bring; an add whose sum is off by an error is written exactly when the error is a multiple of
127; a W32 entry wraps at 2^31 in two's complement, and never does for 131,071 products of INT8 operands (R78, R79, R82, R103). -/
def Obligations.ChecksCatchAndWrap : Prop :=
  (∀ v d : Int, residue (v + d) = residue v ↔ (127 : Int) ∣ d) ∧
  (∀ (u : Int) (a b : Val) (sa sb : Bool) (ma mb : Nat) (ea eb : Int), a = .fin sa ma ea → b = .fin sb mb eb → u ≤ ea + eb →
    chanTerm u a b = residue (unitsIn u (valMul a b))) ∧
  (∀ (u : Int) (a b : Val), (a.isFin && b.isFin) = false → chanTerm u a b = 0) ∧
  (∀ ts : List Nat, chanSum ts = ts.sum % 127) ∧
  (∀ (w32 : Bool) (e : Entry) (xs : List Val) (d : Int), e.res = residue e.v →
    let a := xs.foldl (Acc.add (frameUnit w32)) e.acc
    let chan := residue ((xs.map (unitsIn (frameUnit w32))).sum)
    ((127 : Int) ∣ d → e.checkedAdd w32 xs chan d 0 = some (entryOf w32 { a with v := a.v + d })) ∧
    (¬ (127 : Int) ∣ d → e.checkedAdd w32 xs chan d 0 = none)) ∧
  (∀ (v : Int) (j : Nat), residue (v + 2 ^ j) ≠ residue v ∧ residue (v - 2 ^ j) ≠ residue v) ∧
  (∀ a : Acc, -(2 ^ 31) ≤ (entryOf true a).v ∧ (entryOf true a).v < 2 ^ 31 ∧ ((2 ^ 32 : Int) ∣ (entryOf true a).v - a.v) ∧
    (entryOf true a).res = residue (entryOf true a).v) ∧
  (∀ x y : BitVec 8, -(2 ^ 14) ≤ x.toInt * y.toInt ∧ x.toInt * y.toInt ≤ 2 ^ 14) ∧
  (∀ xs : List (BitVec 8 × BitVec 8), xs.length ≤ 131071 →
    (entryOf true ⟨(xs.map (fun x => x.1.toInt * x.2.toInt)).sum, .fin⟩).v = (xs.map (fun x => x.1.toInt * x.2.toInt)).sum)
end

