-- ==== Sys2Proof/Laws/Bits.lean ====
section
/-!
SUPPORT. Bit fields: a field read after a field write, and the bound of the written word.
-/
namespace Sys2Proof.Machine

theorem testBit_bitsOf (w l k i : Nat) : (bitsOf w l k).testBit i = (decide (i < k) && w.testBit (l + i)) := by
  simp [bitsOf, Nat.testBit_mod_two_pow, Nat.testBit_div_two_pow, Nat.add_comm]

theorem testBit_putBits (w l k v i : Nat) :
    (putBits w l k v).testBit i = if i < l then w.testBit i else if i < l + k then v.testBit (i - l) else w.testBit i := by
  have h1 : w % 2 ^ l < 2 ^ l := Nat.mod_lt _ (Nat.two_pow_pos l)
  have h2 : v % 2 ^ k < 2 ^ k := Nat.mod_lt _ (Nat.two_pow_pos k)
  have h3 : putBits w l k v = 2 ^ l * (2 ^ k * (w / 2 ^ (l + k)) + v % 2 ^ k) + w % 2 ^ l := by
    unfold putBits
    generalize w / 2 ^ (l + k) = q
    generalize v % 2 ^ k = x
    rw [Nat.pow_add]; ring
  rw [h3, Nat.testBit_two_pow_mul_add _ h1]
  split
  · rename_i h; simp [Nat.testBit_mod_two_pow, h]
  · rename_i h
    rw [Nat.testBit_two_pow_mul_add _ h2]
    split
    · rename_i h'
      rw [if_pos (by omega)]
      simp [Nat.testBit_mod_two_pow, h']
    · rename_i h'
      rw [if_neg (by omega), Nat.testBit_div_two_pow]
      congr 1; omega

/-- The field written reads back, cut to its width. -/
@[simp] theorem bitsOf_putBits_same (w l k v : Nat) : bitsOf (putBits w l k v) l k = v % 2 ^ k := by
  apply Nat.eq_of_testBit_eq
  intro i
  rw [testBit_bitsOf, testBit_putBits, Nat.testBit_mod_two_pow]
  by_cases h : i < k <;> simp [h]

/-- A field that does not overlap the one written is unchanged. -/
theorem bitsOf_putBits_other (w l k v l' k' : Nat) (h : l + k ≤ l' ∨ l' + k' ≤ l) :
    bitsOf (putBits w l k v) l' k' = bitsOf w l' k' := by
  apply Nat.eq_of_testBit_eq
  intro i
  rw [testBit_bitsOf, testBit_bitsOf, testBit_putBits]
  by_cases hi : i < k'
  · rcases h with h | h
    · rw [if_neg (by omega), if_neg (by omega)]
    · rw [if_pos (by omega)]
  · simp [hi]

/-- A word stays a word when a field inside it is written. -/
theorem putBits_lt (w l k v n : Nat) (hw : w < 2 ^ n) (hl : l + k ≤ n) : putBits w l k v < 2 ^ n := by
  apply Nat.lt_pow_two_of_testBit
  intro i hi
  rw [testBit_putBits, if_neg (by omega), if_neg (by omega)]
  exact Nat.testBit_lt_two_pow (lt_of_lt_of_le hw (Nat.pow_le_pow_right (by omega) hi))

theorem bitsOf_lt (w l k : Nat) : bitsOf w l k < 2 ^ k := Nat.mod_lt _ (Nat.two_pow_pos k)

theorem putBits_zero_width (w l v : Nat) : putBits w l 0 v = w := by
  apply Nat.eq_of_testBit_eq
  intro i
  rw [testBit_putBits]
  split
  · rfl
  · rw [if_neg (by omega)]

end Sys2Proof.Machine
end

