-- ==== Sys2Proof/Laws/Map.lean ====
section
/-!
SUPPORT. Sparse maps: a read after a write, and that every write keeps the canonical form.
-/
namespace Sys2Proof.Machine

variable {α : Type}

theorem Map.get_insert (d : α) (m : Map α) (k j : Nat) (v : α) :
    Map.get d (Map.insert k v m) j = if k = j then v else Map.get d m j := by
  induction m with
  | nil => simp [Map.insert, Map.get]
  | cons e m ih =>
    obtain ⟨k', v'⟩ := e
    simp only [Map.insert]
    split
    · simp [Map.get]
    · split
      · rename_i h; subst h
        simp only [Map.get]; split <;> simp_all
      · simp only [Map.get, ih]
        split
        · rename_i h1 h2 h3; subst h3; simp [h2]
        · rfl

/-- Every key of the map is above `b`. -/
def Map.Above (b : Nat) (m : Map α) : Prop := ∀ e ∈ m, b < e.1

theorem Map.rising_cons (e : Nat × α) (m : Map α) :
    Map.rising (e :: m) = true ↔ Map.Above e.1 m ∧ Map.rising m = true := by
  induction m generalizing e with
  | nil => simp [Map.rising, Map.Above]
  | cons e' m ih =>
    obtain ⟨k, v⟩ := e; obtain ⟨k', v'⟩ := e'
    simp only [Map.rising, Bool.and_eq_true, decide_eq_true_eq]
    constructor
    · rintro ⟨h1, h2⟩
      refine ⟨fun x hx => ?_, h2⟩
      rcases List.mem_cons.mp hx with rfl | hx
      · exact h1
      · exact lt_trans h1 ((ih _).mp h2 |>.1 x hx)
    · rintro ⟨h1, h2⟩
      exact ⟨h1 (k', v') (by simp), h2⟩

theorem Map.get_above (d : α) (m : Map α) (k : Nat) (h : Map.Above k m) : Map.get d m k = d := by
  induction m with
  | nil => rfl
  | cons e m ih =>
    have h1 := h e (by simp)
    simp only [Map.get]
    rw [if_neg (by omega)]
    exact ih fun x hx => h x (by simp [hx])

theorem Map.Above.erase {b k : Nat} {m : Map α} (h : Map.Above b m) : Map.Above b (Map.erase k m) := by
  induction m with
  | nil => exact h
  | cons e m ih =>
    have ht : Map.Above b m := fun x hx => h x (by simp [hx])
    simp only [Map.erase]
    split
    · exact ih ht
    · intro x hx
      rcases List.mem_cons.mp hx with rfl | hx
      · exact h _ (by simp)
      · exact ih ht x hx

theorem Map.Above.insert {b k : Nat} {v : α} {m : Map α} (h : Map.Above b m) (hk : b < k) :
    Map.Above b (Map.insert k v m) := by
  induction m with
  | nil => intro x hx; simp_all [Map.insert]
  | cons e m ih =>
    have ht : Map.Above b m := fun x hx => h x (by simp [hx])
    simp only [Map.insert]
    split
    · intro x hx
      rcases List.mem_cons.mp hx with rfl | hx
      · exact hk
      · exact h x hx
    · split
      · intro x hx
        rcases List.mem_cons.mp hx with rfl | hx
        · exact hk
        · exact ht x hx
      · intro x hx
        rcases List.mem_cons.mp hx with rfl | hx
        · exact h _ (by simp)
        · exact ih ht x hx

theorem Map.rising_erase (k : Nat) (m : Map α) (h : Map.rising m = true) : Map.rising (Map.erase k m) = true := by
  induction m with
  | nil => rfl
  | cons e m ih =>
    obtain ⟨h1, h2⟩ := (Map.rising_cons e m).mp h
    simp only [Map.erase]
    split
    · exact ih h2
    · exact (Map.rising_cons _ _).mpr ⟨h1.erase, ih h2⟩

theorem Map.rising_insert (k : Nat) (v : α) (m : Map α) (h : Map.rising m = true) :
    Map.rising (Map.insert k v m) = true := by
  induction m with
  | nil => rfl
  | cons e m ih =>
    obtain ⟨h1, h2⟩ := (Map.rising_cons e m).mp h
    simp only [Map.insert]
    split
    · rename_i hk
      refine (Map.rising_cons _ _).mpr ⟨fun x hx => ?_, h⟩
      rcases List.mem_cons.mp hx with rfl | hx
      · exact hk
      · exact lt_trans hk (h1 x hx)
    · split
      · rename_i hk; subst hk
        exact (Map.rising_cons _ _).mpr ⟨h1, h2⟩
      · exact (Map.rising_cons _ _).mpr ⟨h1.insert (show e.1 < k by omega), ih h2⟩

theorem Map.get_erase (d : α) (m : Map α) (k j : Nat) :
    Map.get d (Map.erase k m) j = if k = j then d else Map.get d m j := by
  induction m with
  | nil => simp [Map.erase, Map.get]
  | cons e m ih =>
    simp only [Map.erase, Map.get]
    split
    · rename_i hk
      rw [ih, hk]
      split <;> simp_all
    · rename_i hk
      simp only [Map.get, ih]
      split
      · rename_i hj
        rw [if_neg (by omega)]
      · rfl

theorem Map.mem_erase {k : Nat} {m : Map α} {x : Nat × α} (h : x ∈ Map.erase k m) : x ∈ m := by
  induction m with
  | nil => exact h
  | cons e m ih =>
    simp only [Map.erase] at h
    split at h
    · exact List.mem_cons_of_mem _ (ih h)
    · rcases List.mem_cons.mp h with rfl | h
      · simp
      · exact List.mem_cons_of_mem _ (ih h)

theorem Map.mem_insert {k : Nat} {v : α} {m : Map α} {x : Nat × α} (h : x ∈ Map.insert k v m) : x = (k, v) ∨ x ∈ m := by
  induction m with
  | nil => simp_all [Map.insert]
  | cons e m ih =>
    simp only [Map.insert] at h
    split at h
    · simpa using h
    · split at h
      · rcases List.mem_cons.mp h with h | h
        · exact .inl h
        · exact .inr (List.mem_cons_of_mem _ h)
      · rcases List.mem_cons.mp h with h | h
        · exact .inr (by simp [h])
        · rcases ih h with h | h
          · exact .inl h
          · exact .inr (List.mem_cons_of_mem _ h)

variable [DecidableEq α]

/-- A map in canonical form: its keys rise and no entry is the default. -/
theorem Map.wf_iff (d : Nat → α) (m : Map α) : Map.wf d m = true ↔ Map.rising m = true ∧ ∀ e ∈ m, e.2 ≠ d e.1 := by
  simp [Map.wf]

/-- A read after a write. -/
theorem Map.get_set (d d' : α) (m : Map α) (k j : Nat) (v : α) (hd : k = j → d' = d) :
    Map.get d' (Map.set d m k v) j = if k = j then v else Map.get d' m j := by
  unfold Map.set
  split
  · rename_i hv
    rw [Map.get_erase]
    split
    · rename_i hk; rw [hd hk, hv]
    · rfl
  · rw [Map.get_insert]

/-- A read after a write to the same key. -/
@[simp] theorem Map.get_set_same (d : α) (m : Map α) (k : Nat) (v : α) : Map.get d (Map.set d m k v) k = v := by
  simp [Map.get_set]

/-- A write leaves every other key alone. -/
theorem Map.get_set_other (d d' : α) (m : Map α) (k j : Nat) (v : α) (hkj : k ≠ j) :
    Map.get d' (Map.set d m k v) j = Map.get d' m j := by
  rw [Map.get_set _ _ _ _ _ _ (fun h => absurd h hkj), if_neg hkj]

/-- Every write keeps the canonical form. -/
theorem Map.wf_set (d : Nat → α) (m : Map α) (k : Nat) (v : α) (h : Map.wf d m = true) :
    Map.wf d (Map.set (d k) m k v) = true := by
  rw [Map.wf_iff] at h ⊢
  unfold Map.set
  split
  · exact ⟨Map.rising_erase k m h.1, fun e he => h.2 e (Map.mem_erase he)⟩
  · rename_i hv
    refine ⟨Map.rising_insert k v m h.1, fun e he => ?_⟩
    rcases Map.mem_insert he with rfl | he
    · exact hv
    · exact h.2 e he

omit [DecidableEq α] in
theorem Map.Above.filter {b : Nat} {m : Map α} (f : Nat × α → Bool) (h : Map.Above b m) : Map.Above b (m.filter f) :=
  fun x hx => h x (List.mem_of_mem_filter hx)

omit [DecidableEq α] in
theorem Map.rising_filter (f : Nat × α → Bool) (m : Map α) (h : Map.rising m = true) :
    Map.rising (m.filter f) = true := by
  induction m with
  | nil => rfl
  | cons e m ih =>
    obtain ⟨h1, h2⟩ := (Map.rising_cons e m).mp h
    simp only [List.filter]
    split
    · exact (Map.rising_cons _ _).mpr ⟨fun x hx => h1 x (List.mem_of_mem_filter hx), ih h2⟩
    · exact ih h2

/-- Dropping entries keeps the canonical form. -/
theorem Map.wf_filter (d : Nat → α) (f : Nat × α → Bool) (m : Map α) (h : Map.wf d m = true) :
    Map.wf d (m.filter f) = true := by
  rw [Map.wf_iff] at h ⊢
  exact ⟨Map.rising_filter f m h.1, fun e he => h.2 e (List.mem_of_mem_filter he)⟩

theorem Map.mem_mapCanon {d : Nat → α} {f : Nat → α → α} {m : Map α} {x : Nat × α} (h : x ∈ Map.mapCanon d f m) :
    x.2 ≠ d x.1 ∧ ∃ e ∈ m, e.1 = x.1 ∧ x.2 = f e.1 e.2 := by
  induction m with
  | nil => simp [Map.mapCanon] at h
  | cons e m ih =>
    simp only [Map.mapCanon] at h
    split at h
    · obtain ⟨h1, y, hy, h2⟩ := ih h
      exact ⟨h1, y, List.mem_cons_of_mem _ hy, h2⟩
    · rename_i hv
      rcases List.mem_cons.mp h with rfl | h
      · exact ⟨hv, e, by simp, rfl, rfl⟩
      · obtain ⟨h1, y, hy, h2⟩ := ih h
        exact ⟨h1, y, List.mem_cons_of_mem _ hy, h2⟩

/-- Rewriting every entry keeps the canonical form. -/
theorem Map.wf_mapCanon (d : Nat → α) (f : Nat → α → α) (m : Map α) (h : Map.wf d m = true) :
    Map.wf d (Map.mapCanon d f m) = true := by
  rw [Map.wf_iff] at h ⊢
  refine ⟨?_, fun e he => (Map.mem_mapCanon he).1⟩
  have hr := h.1
  clear h
  induction m with
  | nil => rfl
  | cons e m ih =>
    obtain ⟨h1, h2⟩ := (Map.rising_cons e m).mp hr
    simp only [Map.mapCanon]
    split
    · exact ih h2
    · refine (Map.rising_cons _ _).mpr ⟨fun x hx => ?_, ih h2⟩
      obtain ⟨_, y, hy, h3, _⟩ := Map.mem_mapCanon hx
      rw [← h3]; exact h1 y hy

end Sys2Proof.Machine
end

