-- ==== Sys2Proof/Laws/State.lean ====
section
/-!
SUPPORT. What each elementary update of the state leaves alone: one lemma for each field and reading of each update.
-/
namespace Sys2Proof.Machine

@[simp] theorem State.setReg_mem (s : State) (o : Nat) (w : Word) : (s.setReg o w).mem = s.mem := by rfl
@[simp] theorem State.setReg_poison (s : State) (o : Nat) (w : Word) : (s.setReg o w).poison = s.poison := by rfl
@[simp] theorem State.setReg_tally (s : State) (o : Nat) (w : Word) : (s.setReg o w).tally = s.tally := by rfl
@[simp] theorem State.setReg_banks (s : State) (o : Nat) (w : Word) : (s.setReg o w).banks = s.banks := by rfl
@[simp] theorem State.setReg_flags (s : State) (o : Nat) (w : Word) : (s.setReg o w).flags = s.flags := by rfl
@[simp] theorem State.setReg_queues (s : State) (o : Nat) (w : Word) : (s.setReg o w).queues = s.queues := by rfl
@[simp] theorem State.setReg_parts (s : State) (o : Nat) (w : Word) : (s.setReg o w).parts = s.parts := by rfl
@[simp] theorem State.setReg_cars (s : State) (o : Nat) (w : Word) : (s.setReg o w).cars = s.cars := by rfl
@[simp] theorem State.setReg_wgh (s : State) (o : Nat) (w : Word) : (s.setReg o w).wgh = s.wgh := by rfl
@[simp] theorem State.setReg_ports (s : State) (o : Nat) (w : Word) : (s.setReg o w).ports = s.ports := by rfl
@[simp] theorem State.setReg_tolls (s : State) (o : Nat) (w : Word) : (s.setReg o w).tolls = s.tolls := by rfl
@[simp] theorem State.setReg_spice (s : State) (o : Nat) (w : Word) : (s.setReg o w).spice = s.spice := by rfl
@[simp] theorem State.setReg_dev (s : State) (o : Nat) (w : Word) : (s.setReg o w).dev = s.dev := by rfl
@[simp] theorem State.setReg_scout (s : State) (o : Nat) (w : Word) : (s.setReg o w).scout = s.scout := by rfl
@[simp] theorem State.setReg_out (s : State) (o : Nat) (w : Word) : (s.setReg o w).out = s.out := by rfl
@[simp] theorem State.setReg_free (s : State) (o : Nat) (w : Word) : (s.setReg o w).free = s.free := by rfl
@[simp] theorem State.setReg_pending (s : State) (o : Nat) (w : Word) : (s.setReg o w).pending = s.pending := by rfl
@[simp] theorem State.setReg_byte_acc (s : State) (o : Nat) (w : Word) (a' : Nat) : (s.setReg o w).byte a' = s.byte a' := by rfl
@[simp] theorem State.setReg_part_acc (s : State) (o : Nat) (w : Word) (p' : Nat) : (s.setReg o w).part p' = s.part p' := by rfl
@[simp] theorem State.setReg_exec_acc (s : State) (o : Nat) (w : Word) (p' : Nat) : (s.setReg o w).exec? p' = s.exec? p' := by rfl
@[simp] theorem State.setReg_caravans_acc (s : State) (o : Nat) (w : Word) (p' : Nat) : (s.setReg o w).caravans p' = s.caravans p' := by rfl
@[simp] theorem State.setReg_home_acc (s : State) (o : Nat) (w : Word) (p' : Nat) : (s.setReg o w).home p' = s.home p' := by rfl
@[simp] theorem State.setReg_held_acc (s : State) (o : Nat) (w : Word) (p' : Nat) : (s.setReg o w).held p' = s.held p' := by rfl
@[simp] theorem State.setReg_car_acc (s : State) (o : Nat) (w : Word) (c' : Nat) : (s.setReg o w).car c' = s.car c' := by rfl
@[simp] theorem State.setReg_bank_acc (s : State) (o : Nat) (w : Word) (k' : Nat) : (s.setReg o w).bank k' = s.bank k' := by rfl
@[simp] theorem State.setReg_entry_acc (s : State) (o : Nat) (w : Word) (k' : Nat) : (s.setReg o w).entry k' = s.entry k' := by rfl
@[simp] theorem State.setReg_flagAt_acc (s : State) (o : Nat) (w : Word) (k' : Nat) : (s.setReg o w).flagAt k' = s.flagAt k' := by rfl
@[simp] theorem State.setReg_queue_acc (s : State) (o : Nat) (w : Word) (k' : Nat) : (s.setReg o w).queue k' = s.queue k' := by rfl
@[simp] theorem State.setReg_wctx_acc (s : State) (o : Nat) (w : Word) (p' : Nat) : (s.setReg o w).wctx p' = s.wctx p' := by rfl
@[simp] theorem State.setReg_port_acc (s : State) (o : Nat) (w : Word) (i' : Nat) : (s.setReg o w).port i' = s.port i' := by rfl
@[simp] theorem State.setReg_toll_acc (s : State) (o : Nat) (w : Word) (i' : Nat) : (s.setReg o w).toll i' = s.toll i' := by rfl
@[simp] theorem State.setFld_mem (s : State) (r : FieldRef) (v : Nat) : (s.setFld r v).mem = s.mem := by rfl
@[simp] theorem State.setFld_poison (s : State) (r : FieldRef) (v : Nat) : (s.setFld r v).poison = s.poison := by rfl
@[simp] theorem State.setFld_tally (s : State) (r : FieldRef) (v : Nat) : (s.setFld r v).tally = s.tally := by rfl
@[simp] theorem State.setFld_banks (s : State) (r : FieldRef) (v : Nat) : (s.setFld r v).banks = s.banks := by rfl
@[simp] theorem State.setFld_flags (s : State) (r : FieldRef) (v : Nat) : (s.setFld r v).flags = s.flags := by rfl
@[simp] theorem State.setFld_queues (s : State) (r : FieldRef) (v : Nat) : (s.setFld r v).queues = s.queues := by rfl
@[simp] theorem State.setFld_parts (s : State) (r : FieldRef) (v : Nat) : (s.setFld r v).parts = s.parts := by rfl
@[simp] theorem State.setFld_cars (s : State) (r : FieldRef) (v : Nat) : (s.setFld r v).cars = s.cars := by rfl
@[simp] theorem State.setFld_wgh (s : State) (r : FieldRef) (v : Nat) : (s.setFld r v).wgh = s.wgh := by rfl
@[simp] theorem State.setFld_ports (s : State) (r : FieldRef) (v : Nat) : (s.setFld r v).ports = s.ports := by rfl
@[simp] theorem State.setFld_tolls (s : State) (r : FieldRef) (v : Nat) : (s.setFld r v).tolls = s.tolls := by rfl
@[simp] theorem State.setFld_spice (s : State) (r : FieldRef) (v : Nat) : (s.setFld r v).spice = s.spice := by rfl
@[simp] theorem State.setFld_dev (s : State) (r : FieldRef) (v : Nat) : (s.setFld r v).dev = s.dev := by rfl
@[simp] theorem State.setFld_scout (s : State) (r : FieldRef) (v : Nat) : (s.setFld r v).scout = s.scout := by rfl
@[simp] theorem State.setFld_out (s : State) (r : FieldRef) (v : Nat) : (s.setFld r v).out = s.out := by rfl
@[simp] theorem State.setFld_free (s : State) (r : FieldRef) (v : Nat) : (s.setFld r v).free = s.free := by rfl
@[simp] theorem State.setFld_pending (s : State) (r : FieldRef) (v : Nat) : (s.setFld r v).pending = s.pending := by rfl
@[simp] theorem State.setFld_byte_acc (s : State) (r : FieldRef) (v : Nat) (a' : Nat) : (s.setFld r v).byte a' = s.byte a' := by rfl
@[simp] theorem State.setFld_part_acc (s : State) (r : FieldRef) (v : Nat) (p' : Nat) : (s.setFld r v).part p' = s.part p' := by rfl
@[simp] theorem State.setFld_exec_acc (s : State) (r : FieldRef) (v : Nat) (p' : Nat) : (s.setFld r v).exec? p' = s.exec? p' := by rfl
@[simp] theorem State.setFld_caravans_acc (s : State) (r : FieldRef) (v : Nat) (p' : Nat) : (s.setFld r v).caravans p' = s.caravans p' := by rfl
@[simp] theorem State.setFld_home_acc (s : State) (r : FieldRef) (v : Nat) (p' : Nat) : (s.setFld r v).home p' = s.home p' := by rfl
@[simp] theorem State.setFld_held_acc (s : State) (r : FieldRef) (v : Nat) (p' : Nat) : (s.setFld r v).held p' = s.held p' := by rfl
@[simp] theorem State.setFld_car_acc (s : State) (r : FieldRef) (v : Nat) (c' : Nat) : (s.setFld r v).car c' = s.car c' := by rfl
@[simp] theorem State.setFld_bank_acc (s : State) (r : FieldRef) (v : Nat) (k' : Nat) : (s.setFld r v).bank k' = s.bank k' := by rfl
@[simp] theorem State.setFld_entry_acc (s : State) (r : FieldRef) (v : Nat) (k' : Nat) : (s.setFld r v).entry k' = s.entry k' := by rfl
@[simp] theorem State.setFld_flagAt_acc (s : State) (r : FieldRef) (v : Nat) (k' : Nat) : (s.setFld r v).flagAt k' = s.flagAt k' := by rfl
@[simp] theorem State.setFld_queue_acc (s : State) (r : FieldRef) (v : Nat) (k' : Nat) : (s.setFld r v).queue k' = s.queue k' := by rfl
@[simp] theorem State.setFld_wctx_acc (s : State) (r : FieldRef) (v : Nat) (p' : Nat) : (s.setFld r v).wctx p' = s.wctx p' := by rfl
@[simp] theorem State.setFld_port_acc (s : State) (r : FieldRef) (v : Nat) (i' : Nat) : (s.setFld r v).port i' = s.port i' := by rfl
@[simp] theorem State.setFld_toll_acc (s : State) (r : FieldRef) (v : Nat) (i' : Nat) : (s.setFld r v).toll i' = s.toll i' := by rfl
@[simp] theorem State.count_mem (s : State) (r : FieldRef) (n : Nat) : (s.count r n).mem = s.mem := by rfl
@[simp] theorem State.count_poison (s : State) (r : FieldRef) (n : Nat) : (s.count r n).poison = s.poison := by rfl
@[simp] theorem State.count_tally (s : State) (r : FieldRef) (n : Nat) : (s.count r n).tally = s.tally := by rfl
@[simp] theorem State.count_banks (s : State) (r : FieldRef) (n : Nat) : (s.count r n).banks = s.banks := by rfl
@[simp] theorem State.count_flags (s : State) (r : FieldRef) (n : Nat) : (s.count r n).flags = s.flags := by rfl
@[simp] theorem State.count_queues (s : State) (r : FieldRef) (n : Nat) : (s.count r n).queues = s.queues := by rfl
@[simp] theorem State.count_parts (s : State) (r : FieldRef) (n : Nat) : (s.count r n).parts = s.parts := by rfl
@[simp] theorem State.count_cars (s : State) (r : FieldRef) (n : Nat) : (s.count r n).cars = s.cars := by rfl
@[simp] theorem State.count_wgh (s : State) (r : FieldRef) (n : Nat) : (s.count r n).wgh = s.wgh := by rfl
@[simp] theorem State.count_ports (s : State) (r : FieldRef) (n : Nat) : (s.count r n).ports = s.ports := by rfl
@[simp] theorem State.count_tolls (s : State) (r : FieldRef) (n : Nat) : (s.count r n).tolls = s.tolls := by rfl
@[simp] theorem State.count_spice (s : State) (r : FieldRef) (n : Nat) : (s.count r n).spice = s.spice := by rfl
@[simp] theorem State.count_dev (s : State) (r : FieldRef) (n : Nat) : (s.count r n).dev = s.dev := by rfl
@[simp] theorem State.count_scout (s : State) (r : FieldRef) (n : Nat) : (s.count r n).scout = s.scout := by rfl
@[simp] theorem State.count_out (s : State) (r : FieldRef) (n : Nat) : (s.count r n).out = s.out := by rfl
@[simp] theorem State.count_free (s : State) (r : FieldRef) (n : Nat) : (s.count r n).free = s.free := by rfl
@[simp] theorem State.count_pending (s : State) (r : FieldRef) (n : Nat) : (s.count r n).pending = s.pending := by rfl
@[simp] theorem State.count_byte_acc (s : State) (r : FieldRef) (n : Nat) (a' : Nat) : (s.count r n).byte a' = s.byte a' := by rfl
@[simp] theorem State.count_part_acc (s : State) (r : FieldRef) (n : Nat) (p' : Nat) : (s.count r n).part p' = s.part p' := by rfl
@[simp] theorem State.count_exec_acc (s : State) (r : FieldRef) (n : Nat) (p' : Nat) : (s.count r n).exec? p' = s.exec? p' := by rfl
@[simp] theorem State.count_caravans_acc (s : State) (r : FieldRef) (n : Nat) (p' : Nat) : (s.count r n).caravans p' = s.caravans p' := by rfl
@[simp] theorem State.count_home_acc (s : State) (r : FieldRef) (n : Nat) (p' : Nat) : (s.count r n).home p' = s.home p' := by rfl
@[simp] theorem State.count_held_acc (s : State) (r : FieldRef) (n : Nat) (p' : Nat) : (s.count r n).held p' = s.held p' := by rfl
@[simp] theorem State.count_car_acc (s : State) (r : FieldRef) (n : Nat) (c' : Nat) : (s.count r n).car c' = s.car c' := by rfl
@[simp] theorem State.count_bank_acc (s : State) (r : FieldRef) (n : Nat) (k' : Nat) : (s.count r n).bank k' = s.bank k' := by rfl
@[simp] theorem State.count_entry_acc (s : State) (r : FieldRef) (n : Nat) (k' : Nat) : (s.count r n).entry k' = s.entry k' := by rfl
@[simp] theorem State.count_flagAt_acc (s : State) (r : FieldRef) (n : Nat) (k' : Nat) : (s.count r n).flagAt k' = s.flagAt k' := by rfl
@[simp] theorem State.count_queue_acc (s : State) (r : FieldRef) (n : Nat) (k' : Nat) : (s.count r n).queue k' = s.queue k' := by rfl
@[simp] theorem State.count_wctx_acc (s : State) (r : FieldRef) (n : Nat) (p' : Nat) : (s.count r n).wctx p' = s.wctx p' := by rfl
@[simp] theorem State.count_port_acc (s : State) (r : FieldRef) (n : Nat) (i' : Nat) : (s.count r n).port i' = s.port i' := by rfl
@[simp] theorem State.count_toll_acc (s : State) (r : FieldRef) (n : Nat) (i' : Nat) : (s.count r n).toll i' = s.toll i' := by rfl
@[simp] theorem State.keepMax_mem (s : State) (r : FieldRef) (n : Nat) : (s.keepMax r n).mem = s.mem := by rfl
@[simp] theorem State.keepMax_poison (s : State) (r : FieldRef) (n : Nat) : (s.keepMax r n).poison = s.poison := by rfl
@[simp] theorem State.keepMax_tally (s : State) (r : FieldRef) (n : Nat) : (s.keepMax r n).tally = s.tally := by rfl
@[simp] theorem State.keepMax_banks (s : State) (r : FieldRef) (n : Nat) : (s.keepMax r n).banks = s.banks := by rfl
@[simp] theorem State.keepMax_flags (s : State) (r : FieldRef) (n : Nat) : (s.keepMax r n).flags = s.flags := by rfl
@[simp] theorem State.keepMax_queues (s : State) (r : FieldRef) (n : Nat) : (s.keepMax r n).queues = s.queues := by rfl
@[simp] theorem State.keepMax_parts (s : State) (r : FieldRef) (n : Nat) : (s.keepMax r n).parts = s.parts := by rfl
@[simp] theorem State.keepMax_cars (s : State) (r : FieldRef) (n : Nat) : (s.keepMax r n).cars = s.cars := by rfl
@[simp] theorem State.keepMax_wgh (s : State) (r : FieldRef) (n : Nat) : (s.keepMax r n).wgh = s.wgh := by rfl
@[simp] theorem State.keepMax_ports (s : State) (r : FieldRef) (n : Nat) : (s.keepMax r n).ports = s.ports := by rfl
@[simp] theorem State.keepMax_tolls (s : State) (r : FieldRef) (n : Nat) : (s.keepMax r n).tolls = s.tolls := by rfl
@[simp] theorem State.keepMax_spice (s : State) (r : FieldRef) (n : Nat) : (s.keepMax r n).spice = s.spice := by rfl
@[simp] theorem State.keepMax_dev (s : State) (r : FieldRef) (n : Nat) : (s.keepMax r n).dev = s.dev := by rfl
@[simp] theorem State.keepMax_scout (s : State) (r : FieldRef) (n : Nat) : (s.keepMax r n).scout = s.scout := by rfl
@[simp] theorem State.keepMax_out (s : State) (r : FieldRef) (n : Nat) : (s.keepMax r n).out = s.out := by rfl
@[simp] theorem State.keepMax_free (s : State) (r : FieldRef) (n : Nat) : (s.keepMax r n).free = s.free := by rfl
@[simp] theorem State.keepMax_pending (s : State) (r : FieldRef) (n : Nat) : (s.keepMax r n).pending = s.pending := by rfl
@[simp] theorem State.keepMax_byte_acc (s : State) (r : FieldRef) (n : Nat) (a' : Nat) : (s.keepMax r n).byte a' = s.byte a' := by rfl
@[simp] theorem State.keepMax_part_acc (s : State) (r : FieldRef) (n : Nat) (p' : Nat) : (s.keepMax r n).part p' = s.part p' := by rfl
@[simp] theorem State.keepMax_exec_acc (s : State) (r : FieldRef) (n : Nat) (p' : Nat) : (s.keepMax r n).exec? p' = s.exec? p' := by rfl
@[simp] theorem State.keepMax_caravans_acc (s : State) (r : FieldRef) (n : Nat) (p' : Nat) : (s.keepMax r n).caravans p' = s.caravans p' := by rfl
@[simp] theorem State.keepMax_home_acc (s : State) (r : FieldRef) (n : Nat) (p' : Nat) : (s.keepMax r n).home p' = s.home p' := by rfl
@[simp] theorem State.keepMax_held_acc (s : State) (r : FieldRef) (n : Nat) (p' : Nat) : (s.keepMax r n).held p' = s.held p' := by rfl
@[simp] theorem State.keepMax_car_acc (s : State) (r : FieldRef) (n : Nat) (c' : Nat) : (s.keepMax r n).car c' = s.car c' := by rfl
@[simp] theorem State.keepMax_bank_acc (s : State) (r : FieldRef) (n : Nat) (k' : Nat) : (s.keepMax r n).bank k' = s.bank k' := by rfl
@[simp] theorem State.keepMax_entry_acc (s : State) (r : FieldRef) (n : Nat) (k' : Nat) : (s.keepMax r n).entry k' = s.entry k' := by rfl
@[simp] theorem State.keepMax_flagAt_acc (s : State) (r : FieldRef) (n : Nat) (k' : Nat) : (s.keepMax r n).flagAt k' = s.flagAt k' := by rfl
@[simp] theorem State.keepMax_queue_acc (s : State) (r : FieldRef) (n : Nat) (k' : Nat) : (s.keepMax r n).queue k' = s.queue k' := by rfl
@[simp] theorem State.keepMax_wctx_acc (s : State) (r : FieldRef) (n : Nat) (p' : Nat) : (s.keepMax r n).wctx p' = s.wctx p' := by rfl
@[simp] theorem State.keepMax_port_acc (s : State) (r : FieldRef) (n : Nat) (i' : Nat) : (s.keepMax r n).port i' = s.port i' := by rfl
@[simp] theorem State.keepMax_toll_acc (s : State) (r : FieldRef) (n : Nat) (i' : Nat) : (s.keepMax r n).toll i' = s.toll i' := by rfl
@[simp] theorem State.setByte_csr (s : State) (a : Nat) (b : Byte) : (s.setByte a b).csr = s.csr := by rfl
@[simp] theorem State.setByte_tally (s : State) (a : Nat) (b : Byte) : (s.setByte a b).tally = s.tally := by rfl
@[simp] theorem State.setByte_banks (s : State) (a : Nat) (b : Byte) : (s.setByte a b).banks = s.banks := by rfl
@[simp] theorem State.setByte_flags (s : State) (a : Nat) (b : Byte) : (s.setByte a b).flags = s.flags := by rfl
@[simp] theorem State.setByte_queues (s : State) (a : Nat) (b : Byte) : (s.setByte a b).queues = s.queues := by rfl
@[simp] theorem State.setByte_parts (s : State) (a : Nat) (b : Byte) : (s.setByte a b).parts = s.parts := by rfl
@[simp] theorem State.setByte_cars (s : State) (a : Nat) (b : Byte) : (s.setByte a b).cars = s.cars := by rfl
@[simp] theorem State.setByte_wgh (s : State) (a : Nat) (b : Byte) : (s.setByte a b).wgh = s.wgh := by rfl
@[simp] theorem State.setByte_ports (s : State) (a : Nat) (b : Byte) : (s.setByte a b).ports = s.ports := by rfl
@[simp] theorem State.setByte_tolls (s : State) (a : Nat) (b : Byte) : (s.setByte a b).tolls = s.tolls := by rfl
@[simp] theorem State.setByte_spice (s : State) (a : Nat) (b : Byte) : (s.setByte a b).spice = s.spice := by rfl
@[simp] theorem State.setByte_dev (s : State) (a : Nat) (b : Byte) : (s.setByte a b).dev = s.dev := by rfl
@[simp] theorem State.setByte_scout (s : State) (a : Nat) (b : Byte) : (s.setByte a b).scout = s.scout := by rfl
@[simp] theorem State.setByte_out (s : State) (a : Nat) (b : Byte) : (s.setByte a b).out = s.out := by rfl
@[simp] theorem State.setByte_free (s : State) (a : Nat) (b : Byte) : (s.setByte a b).free = s.free := by rfl
@[simp] theorem State.setByte_pending (s : State) (a : Nat) (b : Byte) : (s.setByte a b).pending = s.pending := by rfl
@[simp] theorem State.setByte_reg_acc (s : State) (a : Nat) (b : Byte) (o' : Nat) : (s.setByte a b).reg o' = s.reg o' := by rfl
@[simp] theorem State.setByte_fld_acc (s : State) (a : Nat) (b : Byte) (r' : FieldRef) : (s.setByte a b).fld r' = s.fld r' := by rfl
@[simp] theorem State.setByte_flag1_acc (s : State) (a : Nat) (b : Byte) (r' : FieldRef) : (s.setByte a b).flag1 r' = s.flag1 r' := by rfl
@[simp] theorem State.setByte_part_acc (s : State) (a : Nat) (b : Byte) (p' : Nat) : (s.setByte a b).part p' = s.part p' := by rfl
@[simp] theorem State.setByte_exec_acc (s : State) (a : Nat) (b : Byte) (p' : Nat) : (s.setByte a b).exec? p' = s.exec? p' := by rfl
@[simp] theorem State.setByte_caravans_acc (s : State) (a : Nat) (b : Byte) (p' : Nat) : (s.setByte a b).caravans p' = s.caravans p' := by rfl
@[simp] theorem State.setByte_home_acc (s : State) (a : Nat) (b : Byte) (p' : Nat) : (s.setByte a b).home p' = s.home p' := by rfl
@[simp] theorem State.setByte_held_acc (s : State) (a : Nat) (b : Byte) (p' : Nat) : (s.setByte a b).held p' = s.held p' := by rfl
@[simp] theorem State.setByte_car_acc (s : State) (a : Nat) (b : Byte) (c' : Nat) : (s.setByte a b).car c' = s.car c' := by rfl
@[simp] theorem State.setByte_bank_acc (s : State) (a : Nat) (b : Byte) (k' : Nat) : (s.setByte a b).bank k' = s.bank k' := by rfl
@[simp] theorem State.setByte_entry_acc (s : State) (a : Nat) (b : Byte) (k' : Nat) : (s.setByte a b).entry k' = s.entry k' := by rfl
@[simp] theorem State.setByte_flagAt_acc (s : State) (a : Nat) (b : Byte) (k' : Nat) : (s.setByte a b).flagAt k' = s.flagAt k' := by rfl
@[simp] theorem State.setByte_queue_acc (s : State) (a : Nat) (b : Byte) (k' : Nat) : (s.setByte a b).queue k' = s.queue k' := by rfl
@[simp] theorem State.setByte_wctx_acc (s : State) (a : Nat) (b : Byte) (p' : Nat) : (s.setByte a b).wctx p' = s.wctx p' := by rfl
@[simp] theorem State.setByte_port_acc (s : State) (a : Nat) (b : Byte) (i' : Nat) : (s.setByte a b).port i' = s.port i' := by rfl
@[simp] theorem State.setByte_toll_acc (s : State) (a : Nat) (b : Byte) (i' : Nat) : (s.setByte a b).toll i' = s.toll i' := by rfl
@[simp] theorem State.setByte_pace_acc (s : State) (a : Nat) (b : Byte) (p' : Nat) : (s.setByte a b).pace p' = s.pace p' := by rfl
@[simp] theorem State.zeroRange_csr (s : State) (a n : Nat) : (s.zeroRange a n).csr = s.csr := by rfl
@[simp] theorem State.zeroRange_tally (s : State) (a n : Nat) : (s.zeroRange a n).tally = s.tally := by rfl
@[simp] theorem State.zeroRange_banks (s : State) (a n : Nat) : (s.zeroRange a n).banks = s.banks := by rfl
@[simp] theorem State.zeroRange_flags (s : State) (a n : Nat) : (s.zeroRange a n).flags = s.flags := by rfl
@[simp] theorem State.zeroRange_queues (s : State) (a n : Nat) : (s.zeroRange a n).queues = s.queues := by rfl
@[simp] theorem State.zeroRange_parts (s : State) (a n : Nat) : (s.zeroRange a n).parts = s.parts := by rfl
@[simp] theorem State.zeroRange_cars (s : State) (a n : Nat) : (s.zeroRange a n).cars = s.cars := by rfl
@[simp] theorem State.zeroRange_wgh (s : State) (a n : Nat) : (s.zeroRange a n).wgh = s.wgh := by rfl
@[simp] theorem State.zeroRange_ports (s : State) (a n : Nat) : (s.zeroRange a n).ports = s.ports := by rfl
@[simp] theorem State.zeroRange_tolls (s : State) (a n : Nat) : (s.zeroRange a n).tolls = s.tolls := by rfl
@[simp] theorem State.zeroRange_spice (s : State) (a n : Nat) : (s.zeroRange a n).spice = s.spice := by rfl
@[simp] theorem State.zeroRange_dev (s : State) (a n : Nat) : (s.zeroRange a n).dev = s.dev := by rfl
@[simp] theorem State.zeroRange_scout (s : State) (a n : Nat) : (s.zeroRange a n).scout = s.scout := by rfl
@[simp] theorem State.zeroRange_out (s : State) (a n : Nat) : (s.zeroRange a n).out = s.out := by rfl
@[simp] theorem State.zeroRange_free (s : State) (a n : Nat) : (s.zeroRange a n).free = s.free := by rfl
@[simp] theorem State.zeroRange_pending (s : State) (a n : Nat) : (s.zeroRange a n).pending = s.pending := by rfl
@[simp] theorem State.zeroRange_reg_acc (s : State) (a n : Nat) (o' : Nat) : (s.zeroRange a n).reg o' = s.reg o' := by rfl
@[simp] theorem State.zeroRange_fld_acc (s : State) (a n : Nat) (r' : FieldRef) : (s.zeroRange a n).fld r' = s.fld r' := by rfl
@[simp] theorem State.zeroRange_flag1_acc (s : State) (a n : Nat) (r' : FieldRef) : (s.zeroRange a n).flag1 r' = s.flag1 r' := by rfl
@[simp] theorem State.zeroRange_part_acc (s : State) (a n : Nat) (p' : Nat) : (s.zeroRange a n).part p' = s.part p' := by rfl
@[simp] theorem State.zeroRange_exec_acc (s : State) (a n : Nat) (p' : Nat) : (s.zeroRange a n).exec? p' = s.exec? p' := by rfl
@[simp] theorem State.zeroRange_caravans_acc (s : State) (a n : Nat) (p' : Nat) : (s.zeroRange a n).caravans p' = s.caravans p' := by rfl
@[simp] theorem State.zeroRange_home_acc (s : State) (a n : Nat) (p' : Nat) : (s.zeroRange a n).home p' = s.home p' := by rfl
@[simp] theorem State.zeroRange_held_acc (s : State) (a n : Nat) (p' : Nat) : (s.zeroRange a n).held p' = s.held p' := by rfl
@[simp] theorem State.zeroRange_car_acc (s : State) (a n : Nat) (c' : Nat) : (s.zeroRange a n).car c' = s.car c' := by rfl
@[simp] theorem State.zeroRange_bank_acc (s : State) (a n : Nat) (k' : Nat) : (s.zeroRange a n).bank k' = s.bank k' := by rfl
@[simp] theorem State.zeroRange_entry_acc (s : State) (a n : Nat) (k' : Nat) : (s.zeroRange a n).entry k' = s.entry k' := by rfl
@[simp] theorem State.zeroRange_flagAt_acc (s : State) (a n : Nat) (k' : Nat) : (s.zeroRange a n).flagAt k' = s.flagAt k' := by rfl
@[simp] theorem State.zeroRange_queue_acc (s : State) (a n : Nat) (k' : Nat) : (s.zeroRange a n).queue k' = s.queue k' := by rfl
@[simp] theorem State.zeroRange_wctx_acc (s : State) (a n : Nat) (p' : Nat) : (s.zeroRange a n).wctx p' = s.wctx p' := by rfl
@[simp] theorem State.zeroRange_port_acc (s : State) (a n : Nat) (i' : Nat) : (s.zeroRange a n).port i' = s.port i' := by rfl
@[simp] theorem State.zeroRange_toll_acc (s : State) (a n : Nat) (i' : Nat) : (s.zeroRange a n).toll i' = s.toll i' := by rfl
@[simp] theorem State.zeroRange_pace_acc (s : State) (a n : Nat) (p' : Nat) : (s.zeroRange a n).pace p' = s.pace p' := by rfl
@[simp] theorem State.setPart_csr (s : State) (p : Nat) (x : Part) : (s.setPart p x).csr = s.csr := by rfl
@[simp] theorem State.setPart_mem (s : State) (p : Nat) (x : Part) : (s.setPart p x).mem = s.mem := by rfl
@[simp] theorem State.setPart_poison (s : State) (p : Nat) (x : Part) : (s.setPart p x).poison = s.poison := by rfl
@[simp] theorem State.setPart_tally (s : State) (p : Nat) (x : Part) : (s.setPart p x).tally = s.tally := by rfl
@[simp] theorem State.setPart_banks (s : State) (p : Nat) (x : Part) : (s.setPart p x).banks = s.banks := by rfl
@[simp] theorem State.setPart_flags (s : State) (p : Nat) (x : Part) : (s.setPart p x).flags = s.flags := by rfl
@[simp] theorem State.setPart_queues (s : State) (p : Nat) (x : Part) : (s.setPart p x).queues = s.queues := by rfl
@[simp] theorem State.setPart_cars (s : State) (p : Nat) (x : Part) : (s.setPart p x).cars = s.cars := by rfl
@[simp] theorem State.setPart_wgh (s : State) (p : Nat) (x : Part) : (s.setPart p x).wgh = s.wgh := by rfl
@[simp] theorem State.setPart_ports (s : State) (p : Nat) (x : Part) : (s.setPart p x).ports = s.ports := by rfl
@[simp] theorem State.setPart_tolls (s : State) (p : Nat) (x : Part) : (s.setPart p x).tolls = s.tolls := by rfl
@[simp] theorem State.setPart_spice (s : State) (p : Nat) (x : Part) : (s.setPart p x).spice = s.spice := by rfl
@[simp] theorem State.setPart_dev (s : State) (p : Nat) (x : Part) : (s.setPart p x).dev = s.dev := by rfl
@[simp] theorem State.setPart_scout (s : State) (p : Nat) (x : Part) : (s.setPart p x).scout = s.scout := by rfl
@[simp] theorem State.setPart_out (s : State) (p : Nat) (x : Part) : (s.setPart p x).out = s.out := by rfl
@[simp] theorem State.setPart_free (s : State) (p : Nat) (x : Part) : (s.setPart p x).free = s.free := by rfl
@[simp] theorem State.setPart_pending (s : State) (p : Nat) (x : Part) : (s.setPart p x).pending = s.pending := by rfl
@[simp] theorem State.setPart_reg_acc (s : State) (p : Nat) (x : Part) (o' : Nat) : (s.setPart p x).reg o' = s.reg o' := by rfl
@[simp] theorem State.setPart_fld_acc (s : State) (p : Nat) (x : Part) (r' : FieldRef) : (s.setPart p x).fld r' = s.fld r' := by rfl
@[simp] theorem State.setPart_flag1_acc (s : State) (p : Nat) (x : Part) (r' : FieldRef) : (s.setPart p x).flag1 r' = s.flag1 r' := by rfl
@[simp] theorem State.setPart_byte_acc (s : State) (p : Nat) (x : Part) (a' : Nat) : (s.setPart p x).byte a' = s.byte a' := by rfl
@[simp] theorem State.setPart_car_acc (s : State) (p : Nat) (x : Part) (c' : Nat) : (s.setPart p x).car c' = s.car c' := by rfl
@[simp] theorem State.setPart_bank_acc (s : State) (p : Nat) (x : Part) (k' : Nat) : (s.setPart p x).bank k' = s.bank k' := by rfl
@[simp] theorem State.setPart_entry_acc (s : State) (p : Nat) (x : Part) (k' : Nat) : (s.setPart p x).entry k' = s.entry k' := by rfl
@[simp] theorem State.setPart_flagAt_acc (s : State) (p : Nat) (x : Part) (k' : Nat) : (s.setPart p x).flagAt k' = s.flagAt k' := by rfl
@[simp] theorem State.setPart_queue_acc (s : State) (p : Nat) (x : Part) (k' : Nat) : (s.setPart p x).queue k' = s.queue k' := by rfl
@[simp] theorem State.setPart_wctx_acc (s : State) (p : Nat) (x : Part) (p' : Nat) : (s.setPart p x).wctx p' = s.wctx p' := by rfl
@[simp] theorem State.setPart_port_acc (s : State) (p : Nat) (x : Part) (i' : Nat) : (s.setPart p x).port i' = s.port i' := by rfl
@[simp] theorem State.setPart_toll_acc (s : State) (p : Nat) (x : Part) (i' : Nat) : (s.setPart p x).toll i' = s.toll i' := by rfl
@[simp] theorem State.setPart_pace_acc (s : State) (p : Nat) (x : Part) (p' : Nat) : (s.setPart p x).pace p' = s.pace p' := by rfl
@[simp] theorem State.updPart_csr (s : State) (p : Nat) (f : Part → Part) : (s.updPart p f).csr = s.csr := by rfl
@[simp] theorem State.updPart_mem (s : State) (p : Nat) (f : Part → Part) : (s.updPart p f).mem = s.mem := by rfl
@[simp] theorem State.updPart_poison (s : State) (p : Nat) (f : Part → Part) : (s.updPart p f).poison = s.poison := by rfl
@[simp] theorem State.updPart_tally (s : State) (p : Nat) (f : Part → Part) : (s.updPart p f).tally = s.tally := by rfl
@[simp] theorem State.updPart_banks (s : State) (p : Nat) (f : Part → Part) : (s.updPart p f).banks = s.banks := by rfl
@[simp] theorem State.updPart_flags (s : State) (p : Nat) (f : Part → Part) : (s.updPart p f).flags = s.flags := by rfl
@[simp] theorem State.updPart_queues (s : State) (p : Nat) (f : Part → Part) : (s.updPart p f).queues = s.queues := by rfl
@[simp] theorem State.updPart_cars (s : State) (p : Nat) (f : Part → Part) : (s.updPart p f).cars = s.cars := by rfl
@[simp] theorem State.updPart_wgh (s : State) (p : Nat) (f : Part → Part) : (s.updPart p f).wgh = s.wgh := by rfl
@[simp] theorem State.updPart_ports (s : State) (p : Nat) (f : Part → Part) : (s.updPart p f).ports = s.ports := by rfl
@[simp] theorem State.updPart_tolls (s : State) (p : Nat) (f : Part → Part) : (s.updPart p f).tolls = s.tolls := by rfl
@[simp] theorem State.updPart_spice (s : State) (p : Nat) (f : Part → Part) : (s.updPart p f).spice = s.spice := by rfl
@[simp] theorem State.updPart_dev (s : State) (p : Nat) (f : Part → Part) : (s.updPart p f).dev = s.dev := by rfl
@[simp] theorem State.updPart_scout (s : State) (p : Nat) (f : Part → Part) : (s.updPart p f).scout = s.scout := by rfl
@[simp] theorem State.updPart_out (s : State) (p : Nat) (f : Part → Part) : (s.updPart p f).out = s.out := by rfl
@[simp] theorem State.updPart_free (s : State) (p : Nat) (f : Part → Part) : (s.updPart p f).free = s.free := by rfl
@[simp] theorem State.updPart_pending (s : State) (p : Nat) (f : Part → Part) : (s.updPart p f).pending = s.pending := by rfl
@[simp] theorem State.updPart_reg_acc (s : State) (p : Nat) (f : Part → Part) (o' : Nat) : (s.updPart p f).reg o' = s.reg o' := by rfl
@[simp] theorem State.updPart_fld_acc (s : State) (p : Nat) (f : Part → Part) (r' : FieldRef) : (s.updPart p f).fld r' = s.fld r' := by rfl
@[simp] theorem State.updPart_flag1_acc (s : State) (p : Nat) (f : Part → Part) (r' : FieldRef) : (s.updPart p f).flag1 r' = s.flag1 r' := by rfl
@[simp] theorem State.updPart_byte_acc (s : State) (p : Nat) (f : Part → Part) (a' : Nat) : (s.updPart p f).byte a' = s.byte a' := by rfl
@[simp] theorem State.updPart_car_acc (s : State) (p : Nat) (f : Part → Part) (c' : Nat) : (s.updPart p f).car c' = s.car c' := by rfl
@[simp] theorem State.updPart_bank_acc (s : State) (p : Nat) (f : Part → Part) (k' : Nat) : (s.updPart p f).bank k' = s.bank k' := by rfl
@[simp] theorem State.updPart_entry_acc (s : State) (p : Nat) (f : Part → Part) (k' : Nat) : (s.updPart p f).entry k' = s.entry k' := by rfl
@[simp] theorem State.updPart_flagAt_acc (s : State) (p : Nat) (f : Part → Part) (k' : Nat) : (s.updPart p f).flagAt k' = s.flagAt k' := by rfl
@[simp] theorem State.updPart_queue_acc (s : State) (p : Nat) (f : Part → Part) (k' : Nat) : (s.updPart p f).queue k' = s.queue k' := by rfl
@[simp] theorem State.updPart_wctx_acc (s : State) (p : Nat) (f : Part → Part) (p' : Nat) : (s.updPart p f).wctx p' = s.wctx p' := by rfl
@[simp] theorem State.updPart_port_acc (s : State) (p : Nat) (f : Part → Part) (i' : Nat) : (s.updPart p f).port i' = s.port i' := by rfl
@[simp] theorem State.updPart_toll_acc (s : State) (p : Nat) (f : Part → Part) (i' : Nat) : (s.updPart p f).toll i' = s.toll i' := by rfl
@[simp] theorem State.updPart_pace_acc (s : State) (p : Nat) (f : Part → Part) (p' : Nat) : (s.updPart p f).pace p' = s.pace p' := by rfl
@[simp] theorem State.setExec_csr (s : State) (p : Nat) (e : Exec) : (s.setExec p e).csr = s.csr := by rfl
@[simp] theorem State.setExec_mem (s : State) (p : Nat) (e : Exec) : (s.setExec p e).mem = s.mem := by rfl
@[simp] theorem State.setExec_poison (s : State) (p : Nat) (e : Exec) : (s.setExec p e).poison = s.poison := by rfl
@[simp] theorem State.setExec_tally (s : State) (p : Nat) (e : Exec) : (s.setExec p e).tally = s.tally := by rfl
@[simp] theorem State.setExec_banks (s : State) (p : Nat) (e : Exec) : (s.setExec p e).banks = s.banks := by rfl
@[simp] theorem State.setExec_flags (s : State) (p : Nat) (e : Exec) : (s.setExec p e).flags = s.flags := by rfl
@[simp] theorem State.setExec_queues (s : State) (p : Nat) (e : Exec) : (s.setExec p e).queues = s.queues := by rfl
@[simp] theorem State.setExec_cars (s : State) (p : Nat) (e : Exec) : (s.setExec p e).cars = s.cars := by rfl
@[simp] theorem State.setExec_wgh (s : State) (p : Nat) (e : Exec) : (s.setExec p e).wgh = s.wgh := by rfl
@[simp] theorem State.setExec_ports (s : State) (p : Nat) (e : Exec) : (s.setExec p e).ports = s.ports := by rfl
@[simp] theorem State.setExec_tolls (s : State) (p : Nat) (e : Exec) : (s.setExec p e).tolls = s.tolls := by rfl
@[simp] theorem State.setExec_spice (s : State) (p : Nat) (e : Exec) : (s.setExec p e).spice = s.spice := by rfl
@[simp] theorem State.setExec_dev (s : State) (p : Nat) (e : Exec) : (s.setExec p e).dev = s.dev := by rfl
@[simp] theorem State.setExec_scout (s : State) (p : Nat) (e : Exec) : (s.setExec p e).scout = s.scout := by rfl
@[simp] theorem State.setExec_out (s : State) (p : Nat) (e : Exec) : (s.setExec p e).out = s.out := by rfl
@[simp] theorem State.setExec_free (s : State) (p : Nat) (e : Exec) : (s.setExec p e).free = s.free := by rfl
@[simp] theorem State.setExec_pending (s : State) (p : Nat) (e : Exec) : (s.setExec p e).pending = s.pending := by rfl
@[simp] theorem State.setExec_reg_acc (s : State) (p : Nat) (e : Exec) (o' : Nat) : (s.setExec p e).reg o' = s.reg o' := by rfl
@[simp] theorem State.setExec_fld_acc (s : State) (p : Nat) (e : Exec) (r' : FieldRef) : (s.setExec p e).fld r' = s.fld r' := by rfl
@[simp] theorem State.setExec_flag1_acc (s : State) (p : Nat) (e : Exec) (r' : FieldRef) : (s.setExec p e).flag1 r' = s.flag1 r' := by rfl
@[simp] theorem State.setExec_byte_acc (s : State) (p : Nat) (e : Exec) (a' : Nat) : (s.setExec p e).byte a' = s.byte a' := by rfl
@[simp] theorem State.setExec_car_acc (s : State) (p : Nat) (e : Exec) (c' : Nat) : (s.setExec p e).car c' = s.car c' := by rfl
@[simp] theorem State.setExec_bank_acc (s : State) (p : Nat) (e : Exec) (k' : Nat) : (s.setExec p e).bank k' = s.bank k' := by rfl
@[simp] theorem State.setExec_entry_acc (s : State) (p : Nat) (e : Exec) (k' : Nat) : (s.setExec p e).entry k' = s.entry k' := by rfl
@[simp] theorem State.setExec_flagAt_acc (s : State) (p : Nat) (e : Exec) (k' : Nat) : (s.setExec p e).flagAt k' = s.flagAt k' := by rfl
@[simp] theorem State.setExec_queue_acc (s : State) (p : Nat) (e : Exec) (k' : Nat) : (s.setExec p e).queue k' = s.queue k' := by rfl
@[simp] theorem State.setExec_wctx_acc (s : State) (p : Nat) (e : Exec) (p' : Nat) : (s.setExec p e).wctx p' = s.wctx p' := by rfl
@[simp] theorem State.setExec_port_acc (s : State) (p : Nat) (e : Exec) (i' : Nat) : (s.setExec p e).port i' = s.port i' := by rfl
@[simp] theorem State.setExec_toll_acc (s : State) (p : Nat) (e : Exec) (i' : Nat) : (s.setExec p e).toll i' = s.toll i' := by rfl
@[simp] theorem State.setExec_pace_acc (s : State) (p : Nat) (e : Exec) (p' : Nat) : (s.setExec p e).pace p' = s.pace p' := by rfl
@[simp] theorem State.unhold_csr (s : State) (p src : Nat) : (s.unhold p src).csr = s.csr := by rfl
@[simp] theorem State.unhold_mem (s : State) (p src : Nat) : (s.unhold p src).mem = s.mem := by rfl
@[simp] theorem State.unhold_poison (s : State) (p src : Nat) : (s.unhold p src).poison = s.poison := by rfl
@[simp] theorem State.unhold_tally (s : State) (p src : Nat) : (s.unhold p src).tally = s.tally := by rfl
@[simp] theorem State.unhold_banks (s : State) (p src : Nat) : (s.unhold p src).banks = s.banks := by rfl
@[simp] theorem State.unhold_flags (s : State) (p src : Nat) : (s.unhold p src).flags = s.flags := by rfl
@[simp] theorem State.unhold_queues (s : State) (p src : Nat) : (s.unhold p src).queues = s.queues := by rfl
@[simp] theorem State.unhold_cars (s : State) (p src : Nat) : (s.unhold p src).cars = s.cars := by rfl
@[simp] theorem State.unhold_wgh (s : State) (p src : Nat) : (s.unhold p src).wgh = s.wgh := by rfl
@[simp] theorem State.unhold_ports (s : State) (p src : Nat) : (s.unhold p src).ports = s.ports := by rfl
@[simp] theorem State.unhold_tolls (s : State) (p src : Nat) : (s.unhold p src).tolls = s.tolls := by rfl
@[simp] theorem State.unhold_spice (s : State) (p src : Nat) : (s.unhold p src).spice = s.spice := by rfl
@[simp] theorem State.unhold_dev (s : State) (p src : Nat) : (s.unhold p src).dev = s.dev := by rfl
@[simp] theorem State.unhold_scout (s : State) (p src : Nat) : (s.unhold p src).scout = s.scout := by rfl
@[simp] theorem State.unhold_out (s : State) (p src : Nat) : (s.unhold p src).out = s.out := by rfl
@[simp] theorem State.unhold_free (s : State) (p src : Nat) : (s.unhold p src).free = s.free := by rfl
@[simp] theorem State.unhold_pending (s : State) (p src : Nat) : (s.unhold p src).pending = s.pending := by rfl
@[simp] theorem State.unhold_reg_acc (s : State) (p src : Nat) (o' : Nat) : (s.unhold p src).reg o' = s.reg o' := by rfl
@[simp] theorem State.unhold_fld_acc (s : State) (p src : Nat) (r' : FieldRef) : (s.unhold p src).fld r' = s.fld r' := by rfl
@[simp] theorem State.unhold_flag1_acc (s : State) (p src : Nat) (r' : FieldRef) : (s.unhold p src).flag1 r' = s.flag1 r' := by rfl
@[simp] theorem State.unhold_byte_acc (s : State) (p src : Nat) (a' : Nat) : (s.unhold p src).byte a' = s.byte a' := by rfl
@[simp] theorem State.unhold_car_acc (s : State) (p src : Nat) (c' : Nat) : (s.unhold p src).car c' = s.car c' := by rfl
@[simp] theorem State.unhold_bank_acc (s : State) (p src : Nat) (k' : Nat) : (s.unhold p src).bank k' = s.bank k' := by rfl
@[simp] theorem State.unhold_entry_acc (s : State) (p src : Nat) (k' : Nat) : (s.unhold p src).entry k' = s.entry k' := by rfl
@[simp] theorem State.unhold_flagAt_acc (s : State) (p src : Nat) (k' : Nat) : (s.unhold p src).flagAt k' = s.flagAt k' := by rfl
@[simp] theorem State.unhold_queue_acc (s : State) (p src : Nat) (k' : Nat) : (s.unhold p src).queue k' = s.queue k' := by rfl
@[simp] theorem State.unhold_wctx_acc (s : State) (p src : Nat) (p' : Nat) : (s.unhold p src).wctx p' = s.wctx p' := by rfl
@[simp] theorem State.unhold_port_acc (s : State) (p src : Nat) (i' : Nat) : (s.unhold p src).port i' = s.port i' := by rfl
@[simp] theorem State.unhold_toll_acc (s : State) (p src : Nat) (i' : Nat) : (s.unhold p src).toll i' = s.toll i' := by rfl
@[simp] theorem State.unhold_pace_acc (s : State) (p src : Nat) (p' : Nat) : (s.unhold p src).pace p' = s.pace p' := by rfl
@[simp] theorem State.setCar_csr (s : State) (c : Nat) (x : Car) : (s.setCar c x).csr = s.csr := by rfl
@[simp] theorem State.setCar_mem (s : State) (c : Nat) (x : Car) : (s.setCar c x).mem = s.mem := by rfl
@[simp] theorem State.setCar_poison (s : State) (c : Nat) (x : Car) : (s.setCar c x).poison = s.poison := by rfl
@[simp] theorem State.setCar_tally (s : State) (c : Nat) (x : Car) : (s.setCar c x).tally = s.tally := by rfl
@[simp] theorem State.setCar_banks (s : State) (c : Nat) (x : Car) : (s.setCar c x).banks = s.banks := by rfl
@[simp] theorem State.setCar_flags (s : State) (c : Nat) (x : Car) : (s.setCar c x).flags = s.flags := by rfl
@[simp] theorem State.setCar_queues (s : State) (c : Nat) (x : Car) : (s.setCar c x).queues = s.queues := by rfl
@[simp] theorem State.setCar_parts (s : State) (c : Nat) (x : Car) : (s.setCar c x).parts = s.parts := by rfl
@[simp] theorem State.setCar_wgh (s : State) (c : Nat) (x : Car) : (s.setCar c x).wgh = s.wgh := by rfl
@[simp] theorem State.setCar_ports (s : State) (c : Nat) (x : Car) : (s.setCar c x).ports = s.ports := by rfl
@[simp] theorem State.setCar_tolls (s : State) (c : Nat) (x : Car) : (s.setCar c x).tolls = s.tolls := by rfl
@[simp] theorem State.setCar_spice (s : State) (c : Nat) (x : Car) : (s.setCar c x).spice = s.spice := by rfl
@[simp] theorem State.setCar_dev (s : State) (c : Nat) (x : Car) : (s.setCar c x).dev = s.dev := by rfl
@[simp] theorem State.setCar_scout (s : State) (c : Nat) (x : Car) : (s.setCar c x).scout = s.scout := by rfl
@[simp] theorem State.setCar_out (s : State) (c : Nat) (x : Car) : (s.setCar c x).out = s.out := by rfl
@[simp] theorem State.setCar_free (s : State) (c : Nat) (x : Car) : (s.setCar c x).free = s.free := by rfl
@[simp] theorem State.setCar_pending (s : State) (c : Nat) (x : Car) : (s.setCar c x).pending = s.pending := by rfl
@[simp] theorem State.setCar_reg_acc (s : State) (c : Nat) (x : Car) (o' : Nat) : (s.setCar c x).reg o' = s.reg o' := by rfl
@[simp] theorem State.setCar_fld_acc (s : State) (c : Nat) (x : Car) (r' : FieldRef) : (s.setCar c x).fld r' = s.fld r' := by rfl
@[simp] theorem State.setCar_flag1_acc (s : State) (c : Nat) (x : Car) (r' : FieldRef) : (s.setCar c x).flag1 r' = s.flag1 r' := by rfl
@[simp] theorem State.setCar_byte_acc (s : State) (c : Nat) (x : Car) (a' : Nat) : (s.setCar c x).byte a' = s.byte a' := by rfl
@[simp] theorem State.setCar_part_acc (s : State) (c : Nat) (x : Car) (p' : Nat) : (s.setCar c x).part p' = s.part p' := by rfl
@[simp] theorem State.setCar_exec_acc (s : State) (c : Nat) (x : Car) (p' : Nat) : (s.setCar c x).exec? p' = s.exec? p' := by rfl
@[simp] theorem State.setCar_caravans_acc (s : State) (c : Nat) (x : Car) (p' : Nat) : (s.setCar c x).caravans p' = s.caravans p' := by rfl
@[simp] theorem State.setCar_home_acc (s : State) (c : Nat) (x : Car) (p' : Nat) : (s.setCar c x).home p' = s.home p' := by rfl
@[simp] theorem State.setCar_held_acc (s : State) (c : Nat) (x : Car) (p' : Nat) : (s.setCar c x).held p' = s.held p' := by rfl
@[simp] theorem State.setCar_bank_acc (s : State) (c : Nat) (x : Car) (k' : Nat) : (s.setCar c x).bank k' = s.bank k' := by rfl
@[simp] theorem State.setCar_entry_acc (s : State) (c : Nat) (x : Car) (k' : Nat) : (s.setCar c x).entry k' = s.entry k' := by rfl
@[simp] theorem State.setCar_flagAt_acc (s : State) (c : Nat) (x : Car) (k' : Nat) : (s.setCar c x).flagAt k' = s.flagAt k' := by rfl
@[simp] theorem State.setCar_queue_acc (s : State) (c : Nat) (x : Car) (k' : Nat) : (s.setCar c x).queue k' = s.queue k' := by rfl
@[simp] theorem State.setCar_wctx_acc (s : State) (c : Nat) (x : Car) (p' : Nat) : (s.setCar c x).wctx p' = s.wctx p' := by rfl
@[simp] theorem State.setCar_port_acc (s : State) (c : Nat) (x : Car) (i' : Nat) : (s.setCar c x).port i' = s.port i' := by rfl
@[simp] theorem State.setCar_toll_acc (s : State) (c : Nat) (x : Car) (i' : Nat) : (s.setCar c x).toll i' = s.toll i' := by rfl
@[simp] theorem State.setCar_pace_acc (s : State) (c : Nat) (x : Car) (p' : Nat) : (s.setCar c x).pace p' = s.pace p' := by rfl
@[simp] theorem State.updCar_csr (s : State) (c : Nat) (f : Car → Car) : (s.updCar c f).csr = s.csr := by rfl
@[simp] theorem State.updCar_mem (s : State) (c : Nat) (f : Car → Car) : (s.updCar c f).mem = s.mem := by rfl
@[simp] theorem State.updCar_poison (s : State) (c : Nat) (f : Car → Car) : (s.updCar c f).poison = s.poison := by rfl
@[simp] theorem State.updCar_tally (s : State) (c : Nat) (f : Car → Car) : (s.updCar c f).tally = s.tally := by rfl
@[simp] theorem State.updCar_banks (s : State) (c : Nat) (f : Car → Car) : (s.updCar c f).banks = s.banks := by rfl
@[simp] theorem State.updCar_flags (s : State) (c : Nat) (f : Car → Car) : (s.updCar c f).flags = s.flags := by rfl
@[simp] theorem State.updCar_queues (s : State) (c : Nat) (f : Car → Car) : (s.updCar c f).queues = s.queues := by rfl
@[simp] theorem State.updCar_parts (s : State) (c : Nat) (f : Car → Car) : (s.updCar c f).parts = s.parts := by rfl
@[simp] theorem State.updCar_wgh (s : State) (c : Nat) (f : Car → Car) : (s.updCar c f).wgh = s.wgh := by rfl
@[simp] theorem State.updCar_ports (s : State) (c : Nat) (f : Car → Car) : (s.updCar c f).ports = s.ports := by rfl
@[simp] theorem State.updCar_tolls (s : State) (c : Nat) (f : Car → Car) : (s.updCar c f).tolls = s.tolls := by rfl
@[simp] theorem State.updCar_spice (s : State) (c : Nat) (f : Car → Car) : (s.updCar c f).spice = s.spice := by rfl
@[simp] theorem State.updCar_dev (s : State) (c : Nat) (f : Car → Car) : (s.updCar c f).dev = s.dev := by rfl
@[simp] theorem State.updCar_scout (s : State) (c : Nat) (f : Car → Car) : (s.updCar c f).scout = s.scout := by rfl
@[simp] theorem State.updCar_out (s : State) (c : Nat) (f : Car → Car) : (s.updCar c f).out = s.out := by rfl
@[simp] theorem State.updCar_free (s : State) (c : Nat) (f : Car → Car) : (s.updCar c f).free = s.free := by rfl
@[simp] theorem State.updCar_pending (s : State) (c : Nat) (f : Car → Car) : (s.updCar c f).pending = s.pending := by rfl
@[simp] theorem State.updCar_reg_acc (s : State) (c : Nat) (f : Car → Car) (o' : Nat) : (s.updCar c f).reg o' = s.reg o' := by rfl
@[simp] theorem State.updCar_fld_acc (s : State) (c : Nat) (f : Car → Car) (r' : FieldRef) : (s.updCar c f).fld r' = s.fld r' := by rfl
@[simp] theorem State.updCar_flag1_acc (s : State) (c : Nat) (f : Car → Car) (r' : FieldRef) : (s.updCar c f).flag1 r' = s.flag1 r' := by rfl
@[simp] theorem State.updCar_byte_acc (s : State) (c : Nat) (f : Car → Car) (a' : Nat) : (s.updCar c f).byte a' = s.byte a' := by rfl
@[simp] theorem State.updCar_part_acc (s : State) (c : Nat) (f : Car → Car) (p' : Nat) : (s.updCar c f).part p' = s.part p' := by rfl
@[simp] theorem State.updCar_exec_acc (s : State) (c : Nat) (f : Car → Car) (p' : Nat) : (s.updCar c f).exec? p' = s.exec? p' := by rfl
@[simp] theorem State.updCar_caravans_acc (s : State) (c : Nat) (f : Car → Car) (p' : Nat) : (s.updCar c f).caravans p' = s.caravans p' := by rfl
@[simp] theorem State.updCar_home_acc (s : State) (c : Nat) (f : Car → Car) (p' : Nat) : (s.updCar c f).home p' = s.home p' := by rfl
@[simp] theorem State.updCar_held_acc (s : State) (c : Nat) (f : Car → Car) (p' : Nat) : (s.updCar c f).held p' = s.held p' := by rfl
@[simp] theorem State.updCar_bank_acc (s : State) (c : Nat) (f : Car → Car) (k' : Nat) : (s.updCar c f).bank k' = s.bank k' := by rfl
@[simp] theorem State.updCar_entry_acc (s : State) (c : Nat) (f : Car → Car) (k' : Nat) : (s.updCar c f).entry k' = s.entry k' := by rfl
@[simp] theorem State.updCar_flagAt_acc (s : State) (c : Nat) (f : Car → Car) (k' : Nat) : (s.updCar c f).flagAt k' = s.flagAt k' := by rfl
@[simp] theorem State.updCar_queue_acc (s : State) (c : Nat) (f : Car → Car) (k' : Nat) : (s.updCar c f).queue k' = s.queue k' := by rfl
@[simp] theorem State.updCar_wctx_acc (s : State) (c : Nat) (f : Car → Car) (p' : Nat) : (s.updCar c f).wctx p' = s.wctx p' := by rfl
@[simp] theorem State.updCar_port_acc (s : State) (c : Nat) (f : Car → Car) (i' : Nat) : (s.updCar c f).port i' = s.port i' := by rfl
@[simp] theorem State.updCar_toll_acc (s : State) (c : Nat) (f : Car → Car) (i' : Nat) : (s.updCar c f).toll i' = s.toll i' := by rfl
@[simp] theorem State.updCar_pace_acc (s : State) (c : Nat) (f : Car → Car) (p' : Nat) : (s.updCar c f).pace p' = s.pace p' := by rfl
@[simp] theorem State.setBank_csr (s : State) (k : Nat) (x : Bank) : (s.setBank k x).csr = s.csr := by rfl
@[simp] theorem State.setBank_mem (s : State) (k : Nat) (x : Bank) : (s.setBank k x).mem = s.mem := by rfl
@[simp] theorem State.setBank_poison (s : State) (k : Nat) (x : Bank) : (s.setBank k x).poison = s.poison := by rfl
@[simp] theorem State.setBank_tally (s : State) (k : Nat) (x : Bank) : (s.setBank k x).tally = s.tally := by rfl
@[simp] theorem State.setBank_flags (s : State) (k : Nat) (x : Bank) : (s.setBank k x).flags = s.flags := by rfl
@[simp] theorem State.setBank_queues (s : State) (k : Nat) (x : Bank) : (s.setBank k x).queues = s.queues := by rfl
@[simp] theorem State.setBank_parts (s : State) (k : Nat) (x : Bank) : (s.setBank k x).parts = s.parts := by rfl
@[simp] theorem State.setBank_cars (s : State) (k : Nat) (x : Bank) : (s.setBank k x).cars = s.cars := by rfl
@[simp] theorem State.setBank_wgh (s : State) (k : Nat) (x : Bank) : (s.setBank k x).wgh = s.wgh := by rfl
@[simp] theorem State.setBank_ports (s : State) (k : Nat) (x : Bank) : (s.setBank k x).ports = s.ports := by rfl
@[simp] theorem State.setBank_tolls (s : State) (k : Nat) (x : Bank) : (s.setBank k x).tolls = s.tolls := by rfl
@[simp] theorem State.setBank_spice (s : State) (k : Nat) (x : Bank) : (s.setBank k x).spice = s.spice := by rfl
@[simp] theorem State.setBank_dev (s : State) (k : Nat) (x : Bank) : (s.setBank k x).dev = s.dev := by rfl
@[simp] theorem State.setBank_scout (s : State) (k : Nat) (x : Bank) : (s.setBank k x).scout = s.scout := by rfl
@[simp] theorem State.setBank_out (s : State) (k : Nat) (x : Bank) : (s.setBank k x).out = s.out := by rfl
@[simp] theorem State.setBank_free (s : State) (k : Nat) (x : Bank) : (s.setBank k x).free = s.free := by rfl
@[simp] theorem State.setBank_pending (s : State) (k : Nat) (x : Bank) : (s.setBank k x).pending = s.pending := by rfl
@[simp] theorem State.setBank_reg_acc (s : State) (k : Nat) (x : Bank) (o' : Nat) : (s.setBank k x).reg o' = s.reg o' := by rfl
@[simp] theorem State.setBank_fld_acc (s : State) (k : Nat) (x : Bank) (r' : FieldRef) : (s.setBank k x).fld r' = s.fld r' := by rfl
@[simp] theorem State.setBank_flag1_acc (s : State) (k : Nat) (x : Bank) (r' : FieldRef) : (s.setBank k x).flag1 r' = s.flag1 r' := by rfl
@[simp] theorem State.setBank_byte_acc (s : State) (k : Nat) (x : Bank) (a' : Nat) : (s.setBank k x).byte a' = s.byte a' := by rfl
@[simp] theorem State.setBank_part_acc (s : State) (k : Nat) (x : Bank) (p' : Nat) : (s.setBank k x).part p' = s.part p' := by rfl
@[simp] theorem State.setBank_exec_acc (s : State) (k : Nat) (x : Bank) (p' : Nat) : (s.setBank k x).exec? p' = s.exec? p' := by rfl
@[simp] theorem State.setBank_caravans_acc (s : State) (k : Nat) (x : Bank) (p' : Nat) : (s.setBank k x).caravans p' = s.caravans p' := by rfl
@[simp] theorem State.setBank_home_acc (s : State) (k : Nat) (x : Bank) (p' : Nat) : (s.setBank k x).home p' = s.home p' := by rfl
@[simp] theorem State.setBank_held_acc (s : State) (k : Nat) (x : Bank) (p' : Nat) : (s.setBank k x).held p' = s.held p' := by rfl
@[simp] theorem State.setBank_car_acc (s : State) (k : Nat) (x : Bank) (c' : Nat) : (s.setBank k x).car c' = s.car c' := by rfl
@[simp] theorem State.setBank_entry_acc (s : State) (k : Nat) (x : Bank) (k' : Nat) : (s.setBank k x).entry k' = s.entry k' := by rfl
@[simp] theorem State.setBank_flagAt_acc (s : State) (k : Nat) (x : Bank) (k' : Nat) : (s.setBank k x).flagAt k' = s.flagAt k' := by rfl
@[simp] theorem State.setBank_queue_acc (s : State) (k : Nat) (x : Bank) (k' : Nat) : (s.setBank k x).queue k' = s.queue k' := by rfl
@[simp] theorem State.setBank_wctx_acc (s : State) (k : Nat) (x : Bank) (p' : Nat) : (s.setBank k x).wctx p' = s.wctx p' := by rfl
@[simp] theorem State.setBank_port_acc (s : State) (k : Nat) (x : Bank) (i' : Nat) : (s.setBank k x).port i' = s.port i' := by rfl
@[simp] theorem State.setBank_toll_acc (s : State) (k : Nat) (x : Bank) (i' : Nat) : (s.setBank k x).toll i' = s.toll i' := by rfl
@[simp] theorem State.setBank_pace_acc (s : State) (k : Nat) (x : Bank) (p' : Nat) : (s.setBank k x).pace p' = s.pace p' := by rfl
@[simp] theorem State.setEntry_csr (s : State) (k : Nat) (x : Entry) : (s.setEntry k x).csr = s.csr := by rfl
@[simp] theorem State.setEntry_mem (s : State) (k : Nat) (x : Entry) : (s.setEntry k x).mem = s.mem := by rfl
@[simp] theorem State.setEntry_poison (s : State) (k : Nat) (x : Entry) : (s.setEntry k x).poison = s.poison := by rfl
@[simp] theorem State.setEntry_banks (s : State) (k : Nat) (x : Entry) : (s.setEntry k x).banks = s.banks := by rfl
@[simp] theorem State.setEntry_flags (s : State) (k : Nat) (x : Entry) : (s.setEntry k x).flags = s.flags := by rfl
@[simp] theorem State.setEntry_queues (s : State) (k : Nat) (x : Entry) : (s.setEntry k x).queues = s.queues := by rfl
@[simp] theorem State.setEntry_parts (s : State) (k : Nat) (x : Entry) : (s.setEntry k x).parts = s.parts := by rfl
@[simp] theorem State.setEntry_cars (s : State) (k : Nat) (x : Entry) : (s.setEntry k x).cars = s.cars := by rfl
@[simp] theorem State.setEntry_wgh (s : State) (k : Nat) (x : Entry) : (s.setEntry k x).wgh = s.wgh := by rfl
@[simp] theorem State.setEntry_ports (s : State) (k : Nat) (x : Entry) : (s.setEntry k x).ports = s.ports := by rfl
@[simp] theorem State.setEntry_tolls (s : State) (k : Nat) (x : Entry) : (s.setEntry k x).tolls = s.tolls := by rfl
@[simp] theorem State.setEntry_spice (s : State) (k : Nat) (x : Entry) : (s.setEntry k x).spice = s.spice := by rfl
@[simp] theorem State.setEntry_dev (s : State) (k : Nat) (x : Entry) : (s.setEntry k x).dev = s.dev := by rfl
@[simp] theorem State.setEntry_scout (s : State) (k : Nat) (x : Entry) : (s.setEntry k x).scout = s.scout := by rfl
@[simp] theorem State.setEntry_out (s : State) (k : Nat) (x : Entry) : (s.setEntry k x).out = s.out := by rfl
@[simp] theorem State.setEntry_free (s : State) (k : Nat) (x : Entry) : (s.setEntry k x).free = s.free := by rfl
@[simp] theorem State.setEntry_pending (s : State) (k : Nat) (x : Entry) : (s.setEntry k x).pending = s.pending := by rfl
@[simp] theorem State.setEntry_reg_acc (s : State) (k : Nat) (x : Entry) (o' : Nat) : (s.setEntry k x).reg o' = s.reg o' := by rfl
@[simp] theorem State.setEntry_fld_acc (s : State) (k : Nat) (x : Entry) (r' : FieldRef) : (s.setEntry k x).fld r' = s.fld r' := by rfl
@[simp] theorem State.setEntry_flag1_acc (s : State) (k : Nat) (x : Entry) (r' : FieldRef) : (s.setEntry k x).flag1 r' = s.flag1 r' := by rfl
@[simp] theorem State.setEntry_byte_acc (s : State) (k : Nat) (x : Entry) (a' : Nat) : (s.setEntry k x).byte a' = s.byte a' := by rfl
@[simp] theorem State.setEntry_part_acc (s : State) (k : Nat) (x : Entry) (p' : Nat) : (s.setEntry k x).part p' = s.part p' := by rfl
@[simp] theorem State.setEntry_exec_acc (s : State) (k : Nat) (x : Entry) (p' : Nat) : (s.setEntry k x).exec? p' = s.exec? p' := by rfl
@[simp] theorem State.setEntry_caravans_acc (s : State) (k : Nat) (x : Entry) (p' : Nat) : (s.setEntry k x).caravans p' = s.caravans p' := by rfl
@[simp] theorem State.setEntry_home_acc (s : State) (k : Nat) (x : Entry) (p' : Nat) : (s.setEntry k x).home p' = s.home p' := by rfl
@[simp] theorem State.setEntry_held_acc (s : State) (k : Nat) (x : Entry) (p' : Nat) : (s.setEntry k x).held p' = s.held p' := by rfl
@[simp] theorem State.setEntry_car_acc (s : State) (k : Nat) (x : Entry) (c' : Nat) : (s.setEntry k x).car c' = s.car c' := by rfl
@[simp] theorem State.setEntry_bank_acc (s : State) (k : Nat) (x : Entry) (k' : Nat) : (s.setEntry k x).bank k' = s.bank k' := by rfl
@[simp] theorem State.setEntry_flagAt_acc (s : State) (k : Nat) (x : Entry) (k' : Nat) : (s.setEntry k x).flagAt k' = s.flagAt k' := by rfl
@[simp] theorem State.setEntry_queue_acc (s : State) (k : Nat) (x : Entry) (k' : Nat) : (s.setEntry k x).queue k' = s.queue k' := by rfl
@[simp] theorem State.setEntry_wctx_acc (s : State) (k : Nat) (x : Entry) (p' : Nat) : (s.setEntry k x).wctx p' = s.wctx p' := by rfl
@[simp] theorem State.setEntry_port_acc (s : State) (k : Nat) (x : Entry) (i' : Nat) : (s.setEntry k x).port i' = s.port i' := by rfl
@[simp] theorem State.setEntry_toll_acc (s : State) (k : Nat) (x : Entry) (i' : Nat) : (s.setEntry k x).toll i' = s.toll i' := by rfl
@[simp] theorem State.setEntry_pace_acc (s : State) (k : Nat) (x : Entry) (p' : Nat) : (s.setEntry k x).pace p' = s.pace p' := by rfl
@[simp] theorem State.setFlag_csr (s : State) (k : Nat) (x : Flag) : (s.setFlag k x).csr = s.csr := by rfl
@[simp] theorem State.setFlag_mem (s : State) (k : Nat) (x : Flag) : (s.setFlag k x).mem = s.mem := by rfl
@[simp] theorem State.setFlag_poison (s : State) (k : Nat) (x : Flag) : (s.setFlag k x).poison = s.poison := by rfl
@[simp] theorem State.setFlag_tally (s : State) (k : Nat) (x : Flag) : (s.setFlag k x).tally = s.tally := by rfl
@[simp] theorem State.setFlag_banks (s : State) (k : Nat) (x : Flag) : (s.setFlag k x).banks = s.banks := by rfl
@[simp] theorem State.setFlag_queues (s : State) (k : Nat) (x : Flag) : (s.setFlag k x).queues = s.queues := by rfl
@[simp] theorem State.setFlag_parts (s : State) (k : Nat) (x : Flag) : (s.setFlag k x).parts = s.parts := by rfl
@[simp] theorem State.setFlag_cars (s : State) (k : Nat) (x : Flag) : (s.setFlag k x).cars = s.cars := by rfl
@[simp] theorem State.setFlag_wgh (s : State) (k : Nat) (x : Flag) : (s.setFlag k x).wgh = s.wgh := by rfl
@[simp] theorem State.setFlag_ports (s : State) (k : Nat) (x : Flag) : (s.setFlag k x).ports = s.ports := by rfl
@[simp] theorem State.setFlag_tolls (s : State) (k : Nat) (x : Flag) : (s.setFlag k x).tolls = s.tolls := by rfl
@[simp] theorem State.setFlag_spice (s : State) (k : Nat) (x : Flag) : (s.setFlag k x).spice = s.spice := by rfl
@[simp] theorem State.setFlag_dev (s : State) (k : Nat) (x : Flag) : (s.setFlag k x).dev = s.dev := by rfl
@[simp] theorem State.setFlag_scout (s : State) (k : Nat) (x : Flag) : (s.setFlag k x).scout = s.scout := by rfl
@[simp] theorem State.setFlag_out (s : State) (k : Nat) (x : Flag) : (s.setFlag k x).out = s.out := by rfl
@[simp] theorem State.setFlag_free (s : State) (k : Nat) (x : Flag) : (s.setFlag k x).free = s.free := by rfl
@[simp] theorem State.setFlag_pending (s : State) (k : Nat) (x : Flag) : (s.setFlag k x).pending = s.pending := by rfl
@[simp] theorem State.setFlag_reg_acc (s : State) (k : Nat) (x : Flag) (o' : Nat) : (s.setFlag k x).reg o' = s.reg o' := by rfl
@[simp] theorem State.setFlag_fld_acc (s : State) (k : Nat) (x : Flag) (r' : FieldRef) : (s.setFlag k x).fld r' = s.fld r' := by rfl
@[simp] theorem State.setFlag_flag1_acc (s : State) (k : Nat) (x : Flag) (r' : FieldRef) : (s.setFlag k x).flag1 r' = s.flag1 r' := by rfl
@[simp] theorem State.setFlag_byte_acc (s : State) (k : Nat) (x : Flag) (a' : Nat) : (s.setFlag k x).byte a' = s.byte a' := by rfl
@[simp] theorem State.setFlag_part_acc (s : State) (k : Nat) (x : Flag) (p' : Nat) : (s.setFlag k x).part p' = s.part p' := by rfl
@[simp] theorem State.setFlag_exec_acc (s : State) (k : Nat) (x : Flag) (p' : Nat) : (s.setFlag k x).exec? p' = s.exec? p' := by rfl
@[simp] theorem State.setFlag_caravans_acc (s : State) (k : Nat) (x : Flag) (p' : Nat) : (s.setFlag k x).caravans p' = s.caravans p' := by rfl
@[simp] theorem State.setFlag_home_acc (s : State) (k : Nat) (x : Flag) (p' : Nat) : (s.setFlag k x).home p' = s.home p' := by rfl
@[simp] theorem State.setFlag_held_acc (s : State) (k : Nat) (x : Flag) (p' : Nat) : (s.setFlag k x).held p' = s.held p' := by rfl
@[simp] theorem State.setFlag_car_acc (s : State) (k : Nat) (x : Flag) (c' : Nat) : (s.setFlag k x).car c' = s.car c' := by rfl
@[simp] theorem State.setFlag_bank_acc (s : State) (k : Nat) (x : Flag) (k' : Nat) : (s.setFlag k x).bank k' = s.bank k' := by rfl
@[simp] theorem State.setFlag_entry_acc (s : State) (k : Nat) (x : Flag) (k' : Nat) : (s.setFlag k x).entry k' = s.entry k' := by rfl
@[simp] theorem State.setFlag_queue_acc (s : State) (k : Nat) (x : Flag) (k' : Nat) : (s.setFlag k x).queue k' = s.queue k' := by rfl
@[simp] theorem State.setFlag_wctx_acc (s : State) (k : Nat) (x : Flag) (p' : Nat) : (s.setFlag k x).wctx p' = s.wctx p' := by rfl
@[simp] theorem State.setFlag_port_acc (s : State) (k : Nat) (x : Flag) (i' : Nat) : (s.setFlag k x).port i' = s.port i' := by rfl
@[simp] theorem State.setFlag_toll_acc (s : State) (k : Nat) (x : Flag) (i' : Nat) : (s.setFlag k x).toll i' = s.toll i' := by rfl
@[simp] theorem State.setFlag_pace_acc (s : State) (k : Nat) (x : Flag) (p' : Nat) : (s.setFlag k x).pace p' = s.pace p' := by rfl
@[simp] theorem State.setQueue_csr (s : State) (k : Nat) (x : Queue) : (s.setQueue k x).csr = s.csr := by rfl
@[simp] theorem State.setQueue_mem (s : State) (k : Nat) (x : Queue) : (s.setQueue k x).mem = s.mem := by rfl
@[simp] theorem State.setQueue_poison (s : State) (k : Nat) (x : Queue) : (s.setQueue k x).poison = s.poison := by rfl
@[simp] theorem State.setQueue_tally (s : State) (k : Nat) (x : Queue) : (s.setQueue k x).tally = s.tally := by rfl
@[simp] theorem State.setQueue_banks (s : State) (k : Nat) (x : Queue) : (s.setQueue k x).banks = s.banks := by rfl
@[simp] theorem State.setQueue_flags (s : State) (k : Nat) (x : Queue) : (s.setQueue k x).flags = s.flags := by rfl
@[simp] theorem State.setQueue_parts (s : State) (k : Nat) (x : Queue) : (s.setQueue k x).parts = s.parts := by rfl
@[simp] theorem State.setQueue_cars (s : State) (k : Nat) (x : Queue) : (s.setQueue k x).cars = s.cars := by rfl
@[simp] theorem State.setQueue_wgh (s : State) (k : Nat) (x : Queue) : (s.setQueue k x).wgh = s.wgh := by rfl
@[simp] theorem State.setQueue_ports (s : State) (k : Nat) (x : Queue) : (s.setQueue k x).ports = s.ports := by rfl
@[simp] theorem State.setQueue_tolls (s : State) (k : Nat) (x : Queue) : (s.setQueue k x).tolls = s.tolls := by rfl
@[simp] theorem State.setQueue_spice (s : State) (k : Nat) (x : Queue) : (s.setQueue k x).spice = s.spice := by rfl
@[simp] theorem State.setQueue_dev (s : State) (k : Nat) (x : Queue) : (s.setQueue k x).dev = s.dev := by rfl
@[simp] theorem State.setQueue_scout (s : State) (k : Nat) (x : Queue) : (s.setQueue k x).scout = s.scout := by rfl
@[simp] theorem State.setQueue_out (s : State) (k : Nat) (x : Queue) : (s.setQueue k x).out = s.out := by rfl
@[simp] theorem State.setQueue_free (s : State) (k : Nat) (x : Queue) : (s.setQueue k x).free = s.free := by rfl
@[simp] theorem State.setQueue_pending (s : State) (k : Nat) (x : Queue) : (s.setQueue k x).pending = s.pending := by rfl
@[simp] theorem State.setQueue_reg_acc (s : State) (k : Nat) (x : Queue) (o' : Nat) : (s.setQueue k x).reg o' = s.reg o' := by rfl
@[simp] theorem State.setQueue_fld_acc (s : State) (k : Nat) (x : Queue) (r' : FieldRef) : (s.setQueue k x).fld r' = s.fld r' := by rfl
@[simp] theorem State.setQueue_flag1_acc (s : State) (k : Nat) (x : Queue) (r' : FieldRef) : (s.setQueue k x).flag1 r' = s.flag1 r' := by rfl
@[simp] theorem State.setQueue_byte_acc (s : State) (k : Nat) (x : Queue) (a' : Nat) : (s.setQueue k x).byte a' = s.byte a' := by rfl
@[simp] theorem State.setQueue_part_acc (s : State) (k : Nat) (x : Queue) (p' : Nat) : (s.setQueue k x).part p' = s.part p' := by rfl
@[simp] theorem State.setQueue_exec_acc (s : State) (k : Nat) (x : Queue) (p' : Nat) : (s.setQueue k x).exec? p' = s.exec? p' := by rfl
@[simp] theorem State.setQueue_caravans_acc (s : State) (k : Nat) (x : Queue) (p' : Nat) : (s.setQueue k x).caravans p' = s.caravans p' := by rfl
@[simp] theorem State.setQueue_home_acc (s : State) (k : Nat) (x : Queue) (p' : Nat) : (s.setQueue k x).home p' = s.home p' := by rfl
@[simp] theorem State.setQueue_held_acc (s : State) (k : Nat) (x : Queue) (p' : Nat) : (s.setQueue k x).held p' = s.held p' := by rfl
@[simp] theorem State.setQueue_car_acc (s : State) (k : Nat) (x : Queue) (c' : Nat) : (s.setQueue k x).car c' = s.car c' := by rfl
@[simp] theorem State.setQueue_bank_acc (s : State) (k : Nat) (x : Queue) (k' : Nat) : (s.setQueue k x).bank k' = s.bank k' := by rfl
@[simp] theorem State.setQueue_entry_acc (s : State) (k : Nat) (x : Queue) (k' : Nat) : (s.setQueue k x).entry k' = s.entry k' := by rfl
@[simp] theorem State.setQueue_flagAt_acc (s : State) (k : Nat) (x : Queue) (k' : Nat) : (s.setQueue k x).flagAt k' = s.flagAt k' := by rfl
@[simp] theorem State.setQueue_wctx_acc (s : State) (k : Nat) (x : Queue) (p' : Nat) : (s.setQueue k x).wctx p' = s.wctx p' := by rfl
@[simp] theorem State.setQueue_port_acc (s : State) (k : Nat) (x : Queue) (i' : Nat) : (s.setQueue k x).port i' = s.port i' := by rfl
@[simp] theorem State.setQueue_toll_acc (s : State) (k : Nat) (x : Queue) (i' : Nat) : (s.setQueue k x).toll i' = s.toll i' := by rfl
@[simp] theorem State.setQueue_pace_acc (s : State) (k : Nat) (x : Queue) (p' : Nat) : (s.setQueue k x).pace p' = s.pace p' := by rfl
@[simp] theorem State.setWctx_csr (s : State) (p : Nat) (x : Wgh) : (s.setWctx p x).csr = s.csr := by rfl
@[simp] theorem State.setWctx_mem (s : State) (p : Nat) (x : Wgh) : (s.setWctx p x).mem = s.mem := by rfl
@[simp] theorem State.setWctx_poison (s : State) (p : Nat) (x : Wgh) : (s.setWctx p x).poison = s.poison := by rfl
@[simp] theorem State.setWctx_tally (s : State) (p : Nat) (x : Wgh) : (s.setWctx p x).tally = s.tally := by rfl
@[simp] theorem State.setWctx_banks (s : State) (p : Nat) (x : Wgh) : (s.setWctx p x).banks = s.banks := by rfl
@[simp] theorem State.setWctx_flags (s : State) (p : Nat) (x : Wgh) : (s.setWctx p x).flags = s.flags := by rfl
@[simp] theorem State.setWctx_queues (s : State) (p : Nat) (x : Wgh) : (s.setWctx p x).queues = s.queues := by rfl
@[simp] theorem State.setWctx_parts (s : State) (p : Nat) (x : Wgh) : (s.setWctx p x).parts = s.parts := by rfl
@[simp] theorem State.setWctx_cars (s : State) (p : Nat) (x : Wgh) : (s.setWctx p x).cars = s.cars := by rfl
@[simp] theorem State.setWctx_ports (s : State) (p : Nat) (x : Wgh) : (s.setWctx p x).ports = s.ports := by rfl
@[simp] theorem State.setWctx_tolls (s : State) (p : Nat) (x : Wgh) : (s.setWctx p x).tolls = s.tolls := by rfl
@[simp] theorem State.setWctx_spice (s : State) (p : Nat) (x : Wgh) : (s.setWctx p x).spice = s.spice := by rfl
@[simp] theorem State.setWctx_dev (s : State) (p : Nat) (x : Wgh) : (s.setWctx p x).dev = s.dev := by rfl
@[simp] theorem State.setWctx_scout (s : State) (p : Nat) (x : Wgh) : (s.setWctx p x).scout = s.scout := by rfl
@[simp] theorem State.setWctx_out (s : State) (p : Nat) (x : Wgh) : (s.setWctx p x).out = s.out := by rfl
@[simp] theorem State.setWctx_free (s : State) (p : Nat) (x : Wgh) : (s.setWctx p x).free = s.free := by rfl
@[simp] theorem State.setWctx_pending (s : State) (p : Nat) (x : Wgh) : (s.setWctx p x).pending = s.pending := by rfl
@[simp] theorem State.setWctx_reg_acc (s : State) (p : Nat) (x : Wgh) (o' : Nat) : (s.setWctx p x).reg o' = s.reg o' := by rfl
@[simp] theorem State.setWctx_fld_acc (s : State) (p : Nat) (x : Wgh) (r' : FieldRef) : (s.setWctx p x).fld r' = s.fld r' := by rfl
@[simp] theorem State.setWctx_flag1_acc (s : State) (p : Nat) (x : Wgh) (r' : FieldRef) : (s.setWctx p x).flag1 r' = s.flag1 r' := by rfl
@[simp] theorem State.setWctx_byte_acc (s : State) (p : Nat) (x : Wgh) (a' : Nat) : (s.setWctx p x).byte a' = s.byte a' := by rfl
@[simp] theorem State.setWctx_part_acc (s : State) (p : Nat) (x : Wgh) (p' : Nat) : (s.setWctx p x).part p' = s.part p' := by rfl
@[simp] theorem State.setWctx_exec_acc (s : State) (p : Nat) (x : Wgh) (p' : Nat) : (s.setWctx p x).exec? p' = s.exec? p' := by rfl
@[simp] theorem State.setWctx_caravans_acc (s : State) (p : Nat) (x : Wgh) (p' : Nat) : (s.setWctx p x).caravans p' = s.caravans p' := by rfl
@[simp] theorem State.setWctx_home_acc (s : State) (p : Nat) (x : Wgh) (p' : Nat) : (s.setWctx p x).home p' = s.home p' := by rfl
@[simp] theorem State.setWctx_held_acc (s : State) (p : Nat) (x : Wgh) (p' : Nat) : (s.setWctx p x).held p' = s.held p' := by rfl
@[simp] theorem State.setWctx_car_acc (s : State) (p : Nat) (x : Wgh) (c' : Nat) : (s.setWctx p x).car c' = s.car c' := by rfl
@[simp] theorem State.setWctx_bank_acc (s : State) (p : Nat) (x : Wgh) (k' : Nat) : (s.setWctx p x).bank k' = s.bank k' := by rfl
@[simp] theorem State.setWctx_entry_acc (s : State) (p : Nat) (x : Wgh) (k' : Nat) : (s.setWctx p x).entry k' = s.entry k' := by rfl
@[simp] theorem State.setWctx_flagAt_acc (s : State) (p : Nat) (x : Wgh) (k' : Nat) : (s.setWctx p x).flagAt k' = s.flagAt k' := by rfl
@[simp] theorem State.setWctx_queue_acc (s : State) (p : Nat) (x : Wgh) (k' : Nat) : (s.setWctx p x).queue k' = s.queue k' := by rfl
@[simp] theorem State.setWctx_port_acc (s : State) (p : Nat) (x : Wgh) (i' : Nat) : (s.setWctx p x).port i' = s.port i' := by rfl
@[simp] theorem State.setWctx_toll_acc (s : State) (p : Nat) (x : Wgh) (i' : Nat) : (s.setWctx p x).toll i' = s.toll i' := by rfl
@[simp] theorem State.setWctx_pace_acc (s : State) (p : Nat) (x : Wgh) (p' : Nat) : (s.setWctx p x).pace p' = s.pace p' := by rfl
@[simp] theorem State.updWctx_csr (s : State) (p : Nat) (f : Wgh → Wgh) : (s.updWctx p f).csr = s.csr := by rfl
@[simp] theorem State.updWctx_mem (s : State) (p : Nat) (f : Wgh → Wgh) : (s.updWctx p f).mem = s.mem := by rfl
@[simp] theorem State.updWctx_poison (s : State) (p : Nat) (f : Wgh → Wgh) : (s.updWctx p f).poison = s.poison := by rfl
@[simp] theorem State.updWctx_tally (s : State) (p : Nat) (f : Wgh → Wgh) : (s.updWctx p f).tally = s.tally := by rfl
@[simp] theorem State.updWctx_banks (s : State) (p : Nat) (f : Wgh → Wgh) : (s.updWctx p f).banks = s.banks := by rfl
@[simp] theorem State.updWctx_flags (s : State) (p : Nat) (f : Wgh → Wgh) : (s.updWctx p f).flags = s.flags := by rfl
@[simp] theorem State.updWctx_queues (s : State) (p : Nat) (f : Wgh → Wgh) : (s.updWctx p f).queues = s.queues := by rfl
@[simp] theorem State.updWctx_parts (s : State) (p : Nat) (f : Wgh → Wgh) : (s.updWctx p f).parts = s.parts := by rfl
@[simp] theorem State.updWctx_cars (s : State) (p : Nat) (f : Wgh → Wgh) : (s.updWctx p f).cars = s.cars := by rfl
@[simp] theorem State.updWctx_ports (s : State) (p : Nat) (f : Wgh → Wgh) : (s.updWctx p f).ports = s.ports := by rfl
@[simp] theorem State.updWctx_tolls (s : State) (p : Nat) (f : Wgh → Wgh) : (s.updWctx p f).tolls = s.tolls := by rfl
@[simp] theorem State.updWctx_spice (s : State) (p : Nat) (f : Wgh → Wgh) : (s.updWctx p f).spice = s.spice := by rfl
@[simp] theorem State.updWctx_dev (s : State) (p : Nat) (f : Wgh → Wgh) : (s.updWctx p f).dev = s.dev := by rfl
@[simp] theorem State.updWctx_scout (s : State) (p : Nat) (f : Wgh → Wgh) : (s.updWctx p f).scout = s.scout := by rfl
@[simp] theorem State.updWctx_out (s : State) (p : Nat) (f : Wgh → Wgh) : (s.updWctx p f).out = s.out := by rfl
@[simp] theorem State.updWctx_free (s : State) (p : Nat) (f : Wgh → Wgh) : (s.updWctx p f).free = s.free := by rfl
@[simp] theorem State.updWctx_pending (s : State) (p : Nat) (f : Wgh → Wgh) : (s.updWctx p f).pending = s.pending := by rfl
@[simp] theorem State.updWctx_reg_acc (s : State) (p : Nat) (f : Wgh → Wgh) (o' : Nat) : (s.updWctx p f).reg o' = s.reg o' := by rfl
@[simp] theorem State.updWctx_fld_acc (s : State) (p : Nat) (f : Wgh → Wgh) (r' : FieldRef) : (s.updWctx p f).fld r' = s.fld r' := by rfl
@[simp] theorem State.updWctx_flag1_acc (s : State) (p : Nat) (f : Wgh → Wgh) (r' : FieldRef) : (s.updWctx p f).flag1 r' = s.flag1 r' := by rfl
@[simp] theorem State.updWctx_byte_acc (s : State) (p : Nat) (f : Wgh → Wgh) (a' : Nat) : (s.updWctx p f).byte a' = s.byte a' := by rfl
@[simp] theorem State.updWctx_part_acc (s : State) (p : Nat) (f : Wgh → Wgh) (p' : Nat) : (s.updWctx p f).part p' = s.part p' := by rfl
@[simp] theorem State.updWctx_exec_acc (s : State) (p : Nat) (f : Wgh → Wgh) (p' : Nat) : (s.updWctx p f).exec? p' = s.exec? p' := by rfl
@[simp] theorem State.updWctx_caravans_acc (s : State) (p : Nat) (f : Wgh → Wgh) (p' : Nat) : (s.updWctx p f).caravans p' = s.caravans p' := by rfl
@[simp] theorem State.updWctx_home_acc (s : State) (p : Nat) (f : Wgh → Wgh) (p' : Nat) : (s.updWctx p f).home p' = s.home p' := by rfl
@[simp] theorem State.updWctx_held_acc (s : State) (p : Nat) (f : Wgh → Wgh) (p' : Nat) : (s.updWctx p f).held p' = s.held p' := by rfl
@[simp] theorem State.updWctx_car_acc (s : State) (p : Nat) (f : Wgh → Wgh) (c' : Nat) : (s.updWctx p f).car c' = s.car c' := by rfl
@[simp] theorem State.updWctx_bank_acc (s : State) (p : Nat) (f : Wgh → Wgh) (k' : Nat) : (s.updWctx p f).bank k' = s.bank k' := by rfl
@[simp] theorem State.updWctx_entry_acc (s : State) (p : Nat) (f : Wgh → Wgh) (k' : Nat) : (s.updWctx p f).entry k' = s.entry k' := by rfl
@[simp] theorem State.updWctx_flagAt_acc (s : State) (p : Nat) (f : Wgh → Wgh) (k' : Nat) : (s.updWctx p f).flagAt k' = s.flagAt k' := by rfl
@[simp] theorem State.updWctx_queue_acc (s : State) (p : Nat) (f : Wgh → Wgh) (k' : Nat) : (s.updWctx p f).queue k' = s.queue k' := by rfl
@[simp] theorem State.updWctx_port_acc (s : State) (p : Nat) (f : Wgh → Wgh) (i' : Nat) : (s.updWctx p f).port i' = s.port i' := by rfl
@[simp] theorem State.updWctx_toll_acc (s : State) (p : Nat) (f : Wgh → Wgh) (i' : Nat) : (s.updWctx p f).toll i' = s.toll i' := by rfl
@[simp] theorem State.updWctx_pace_acc (s : State) (p : Nat) (f : Wgh → Wgh) (p' : Nat) : (s.updWctx p f).pace p' = s.pace p' := by rfl
@[simp] theorem State.setPort_csr (s : State) (i : Nat) (x : Port) : (s.setPort i x).csr = s.csr := by rfl
@[simp] theorem State.setPort_mem (s : State) (i : Nat) (x : Port) : (s.setPort i x).mem = s.mem := by rfl
@[simp] theorem State.setPort_poison (s : State) (i : Nat) (x : Port) : (s.setPort i x).poison = s.poison := by rfl
@[simp] theorem State.setPort_tally (s : State) (i : Nat) (x : Port) : (s.setPort i x).tally = s.tally := by rfl
@[simp] theorem State.setPort_banks (s : State) (i : Nat) (x : Port) : (s.setPort i x).banks = s.banks := by rfl
@[simp] theorem State.setPort_flags (s : State) (i : Nat) (x : Port) : (s.setPort i x).flags = s.flags := by rfl
@[simp] theorem State.setPort_queues (s : State) (i : Nat) (x : Port) : (s.setPort i x).queues = s.queues := by rfl
@[simp] theorem State.setPort_parts (s : State) (i : Nat) (x : Port) : (s.setPort i x).parts = s.parts := by rfl
@[simp] theorem State.setPort_cars (s : State) (i : Nat) (x : Port) : (s.setPort i x).cars = s.cars := by rfl
@[simp] theorem State.setPort_wgh (s : State) (i : Nat) (x : Port) : (s.setPort i x).wgh = s.wgh := by rfl
@[simp] theorem State.setPort_tolls (s : State) (i : Nat) (x : Port) : (s.setPort i x).tolls = s.tolls := by rfl
@[simp] theorem State.setPort_spice (s : State) (i : Nat) (x : Port) : (s.setPort i x).spice = s.spice := by rfl
@[simp] theorem State.setPort_dev (s : State) (i : Nat) (x : Port) : (s.setPort i x).dev = s.dev := by rfl
@[simp] theorem State.setPort_scout (s : State) (i : Nat) (x : Port) : (s.setPort i x).scout = s.scout := by rfl
@[simp] theorem State.setPort_out (s : State) (i : Nat) (x : Port) : (s.setPort i x).out = s.out := by rfl
@[simp] theorem State.setPort_free (s : State) (i : Nat) (x : Port) : (s.setPort i x).free = s.free := by rfl
@[simp] theorem State.setPort_pending (s : State) (i : Nat) (x : Port) : (s.setPort i x).pending = s.pending := by rfl
@[simp] theorem State.setPort_reg_acc (s : State) (i : Nat) (x : Port) (o' : Nat) : (s.setPort i x).reg o' = s.reg o' := by rfl
@[simp] theorem State.setPort_fld_acc (s : State) (i : Nat) (x : Port) (r' : FieldRef) : (s.setPort i x).fld r' = s.fld r' := by rfl
@[simp] theorem State.setPort_flag1_acc (s : State) (i : Nat) (x : Port) (r' : FieldRef) : (s.setPort i x).flag1 r' = s.flag1 r' := by rfl
@[simp] theorem State.setPort_byte_acc (s : State) (i : Nat) (x : Port) (a' : Nat) : (s.setPort i x).byte a' = s.byte a' := by rfl
@[simp] theorem State.setPort_part_acc (s : State) (i : Nat) (x : Port) (p' : Nat) : (s.setPort i x).part p' = s.part p' := by rfl
@[simp] theorem State.setPort_exec_acc (s : State) (i : Nat) (x : Port) (p' : Nat) : (s.setPort i x).exec? p' = s.exec? p' := by rfl
@[simp] theorem State.setPort_caravans_acc (s : State) (i : Nat) (x : Port) (p' : Nat) : (s.setPort i x).caravans p' = s.caravans p' := by rfl
@[simp] theorem State.setPort_home_acc (s : State) (i : Nat) (x : Port) (p' : Nat) : (s.setPort i x).home p' = s.home p' := by rfl
@[simp] theorem State.setPort_held_acc (s : State) (i : Nat) (x : Port) (p' : Nat) : (s.setPort i x).held p' = s.held p' := by rfl
@[simp] theorem State.setPort_car_acc (s : State) (i : Nat) (x : Port) (c' : Nat) : (s.setPort i x).car c' = s.car c' := by rfl
@[simp] theorem State.setPort_bank_acc (s : State) (i : Nat) (x : Port) (k' : Nat) : (s.setPort i x).bank k' = s.bank k' := by rfl
@[simp] theorem State.setPort_entry_acc (s : State) (i : Nat) (x : Port) (k' : Nat) : (s.setPort i x).entry k' = s.entry k' := by rfl
@[simp] theorem State.setPort_flagAt_acc (s : State) (i : Nat) (x : Port) (k' : Nat) : (s.setPort i x).flagAt k' = s.flagAt k' := by rfl
@[simp] theorem State.setPort_queue_acc (s : State) (i : Nat) (x : Port) (k' : Nat) : (s.setPort i x).queue k' = s.queue k' := by rfl
@[simp] theorem State.setPort_wctx_acc (s : State) (i : Nat) (x : Port) (p' : Nat) : (s.setPort i x).wctx p' = s.wctx p' := by rfl
@[simp] theorem State.setPort_toll_acc (s : State) (i : Nat) (x : Port) (i' : Nat) : (s.setPort i x).toll i' = s.toll i' := by rfl
@[simp] theorem State.setPort_pace_acc (s : State) (i : Nat) (x : Port) (p' : Nat) : (s.setPort i x).pace p' = s.pace p' := by rfl
@[simp] theorem State.updPort_csr (s : State) (i : Nat) (f : Port → Port) : (s.updPort i f).csr = s.csr := by rfl
@[simp] theorem State.updPort_mem (s : State) (i : Nat) (f : Port → Port) : (s.updPort i f).mem = s.mem := by rfl
@[simp] theorem State.updPort_poison (s : State) (i : Nat) (f : Port → Port) : (s.updPort i f).poison = s.poison := by rfl
@[simp] theorem State.updPort_tally (s : State) (i : Nat) (f : Port → Port) : (s.updPort i f).tally = s.tally := by rfl
@[simp] theorem State.updPort_banks (s : State) (i : Nat) (f : Port → Port) : (s.updPort i f).banks = s.banks := by rfl
@[simp] theorem State.updPort_flags (s : State) (i : Nat) (f : Port → Port) : (s.updPort i f).flags = s.flags := by rfl
@[simp] theorem State.updPort_queues (s : State) (i : Nat) (f : Port → Port) : (s.updPort i f).queues = s.queues := by rfl
@[simp] theorem State.updPort_parts (s : State) (i : Nat) (f : Port → Port) : (s.updPort i f).parts = s.parts := by rfl
@[simp] theorem State.updPort_cars (s : State) (i : Nat) (f : Port → Port) : (s.updPort i f).cars = s.cars := by rfl
@[simp] theorem State.updPort_wgh (s : State) (i : Nat) (f : Port → Port) : (s.updPort i f).wgh = s.wgh := by rfl
@[simp] theorem State.updPort_tolls (s : State) (i : Nat) (f : Port → Port) : (s.updPort i f).tolls = s.tolls := by rfl
@[simp] theorem State.updPort_spice (s : State) (i : Nat) (f : Port → Port) : (s.updPort i f).spice = s.spice := by rfl
@[simp] theorem State.updPort_dev (s : State) (i : Nat) (f : Port → Port) : (s.updPort i f).dev = s.dev := by rfl
@[simp] theorem State.updPort_scout (s : State) (i : Nat) (f : Port → Port) : (s.updPort i f).scout = s.scout := by rfl
@[simp] theorem State.updPort_out (s : State) (i : Nat) (f : Port → Port) : (s.updPort i f).out = s.out := by rfl
@[simp] theorem State.updPort_free (s : State) (i : Nat) (f : Port → Port) : (s.updPort i f).free = s.free := by rfl
@[simp] theorem State.updPort_pending (s : State) (i : Nat) (f : Port → Port) : (s.updPort i f).pending = s.pending := by rfl
@[simp] theorem State.updPort_reg_acc (s : State) (i : Nat) (f : Port → Port) (o' : Nat) : (s.updPort i f).reg o' = s.reg o' := by rfl
@[simp] theorem State.updPort_fld_acc (s : State) (i : Nat) (f : Port → Port) (r' : FieldRef) : (s.updPort i f).fld r' = s.fld r' := by rfl
@[simp] theorem State.updPort_flag1_acc (s : State) (i : Nat) (f : Port → Port) (r' : FieldRef) : (s.updPort i f).flag1 r' = s.flag1 r' := by rfl
@[simp] theorem State.updPort_byte_acc (s : State) (i : Nat) (f : Port → Port) (a' : Nat) : (s.updPort i f).byte a' = s.byte a' := by rfl
@[simp] theorem State.updPort_part_acc (s : State) (i : Nat) (f : Port → Port) (p' : Nat) : (s.updPort i f).part p' = s.part p' := by rfl
@[simp] theorem State.updPort_exec_acc (s : State) (i : Nat) (f : Port → Port) (p' : Nat) : (s.updPort i f).exec? p' = s.exec? p' := by rfl
@[simp] theorem State.updPort_caravans_acc (s : State) (i : Nat) (f : Port → Port) (p' : Nat) : (s.updPort i f).caravans p' = s.caravans p' := by rfl
@[simp] theorem State.updPort_home_acc (s : State) (i : Nat) (f : Port → Port) (p' : Nat) : (s.updPort i f).home p' = s.home p' := by rfl
@[simp] theorem State.updPort_held_acc (s : State) (i : Nat) (f : Port → Port) (p' : Nat) : (s.updPort i f).held p' = s.held p' := by rfl
@[simp] theorem State.updPort_car_acc (s : State) (i : Nat) (f : Port → Port) (c' : Nat) : (s.updPort i f).car c' = s.car c' := by rfl
@[simp] theorem State.updPort_bank_acc (s : State) (i : Nat) (f : Port → Port) (k' : Nat) : (s.updPort i f).bank k' = s.bank k' := by rfl
@[simp] theorem State.updPort_entry_acc (s : State) (i : Nat) (f : Port → Port) (k' : Nat) : (s.updPort i f).entry k' = s.entry k' := by rfl
@[simp] theorem State.updPort_flagAt_acc (s : State) (i : Nat) (f : Port → Port) (k' : Nat) : (s.updPort i f).flagAt k' = s.flagAt k' := by rfl
@[simp] theorem State.updPort_queue_acc (s : State) (i : Nat) (f : Port → Port) (k' : Nat) : (s.updPort i f).queue k' = s.queue k' := by rfl
@[simp] theorem State.updPort_wctx_acc (s : State) (i : Nat) (f : Port → Port) (p' : Nat) : (s.updPort i f).wctx p' = s.wctx p' := by rfl
@[simp] theorem State.updPort_toll_acc (s : State) (i : Nat) (f : Port → Port) (i' : Nat) : (s.updPort i f).toll i' = s.toll i' := by rfl
@[simp] theorem State.updPort_pace_acc (s : State) (i : Nat) (f : Port → Port) (p' : Nat) : (s.updPort i f).pace p' = s.pace p' := by rfl
@[simp] theorem State.setToll_csr (s : State) (i : Nat) (x : Toll) : (s.setToll i x).csr = s.csr := by rfl
@[simp] theorem State.setToll_mem (s : State) (i : Nat) (x : Toll) : (s.setToll i x).mem = s.mem := by rfl
@[simp] theorem State.setToll_poison (s : State) (i : Nat) (x : Toll) : (s.setToll i x).poison = s.poison := by rfl
@[simp] theorem State.setToll_tally (s : State) (i : Nat) (x : Toll) : (s.setToll i x).tally = s.tally := by rfl
@[simp] theorem State.setToll_banks (s : State) (i : Nat) (x : Toll) : (s.setToll i x).banks = s.banks := by rfl
@[simp] theorem State.setToll_flags (s : State) (i : Nat) (x : Toll) : (s.setToll i x).flags = s.flags := by rfl
@[simp] theorem State.setToll_queues (s : State) (i : Nat) (x : Toll) : (s.setToll i x).queues = s.queues := by rfl
@[simp] theorem State.setToll_parts (s : State) (i : Nat) (x : Toll) : (s.setToll i x).parts = s.parts := by rfl
@[simp] theorem State.setToll_cars (s : State) (i : Nat) (x : Toll) : (s.setToll i x).cars = s.cars := by rfl
@[simp] theorem State.setToll_wgh (s : State) (i : Nat) (x : Toll) : (s.setToll i x).wgh = s.wgh := by rfl
@[simp] theorem State.setToll_ports (s : State) (i : Nat) (x : Toll) : (s.setToll i x).ports = s.ports := by rfl
@[simp] theorem State.setToll_spice (s : State) (i : Nat) (x : Toll) : (s.setToll i x).spice = s.spice := by rfl
@[simp] theorem State.setToll_dev (s : State) (i : Nat) (x : Toll) : (s.setToll i x).dev = s.dev := by rfl
@[simp] theorem State.setToll_scout (s : State) (i : Nat) (x : Toll) : (s.setToll i x).scout = s.scout := by rfl
@[simp] theorem State.setToll_out (s : State) (i : Nat) (x : Toll) : (s.setToll i x).out = s.out := by rfl
@[simp] theorem State.setToll_free (s : State) (i : Nat) (x : Toll) : (s.setToll i x).free = s.free := by rfl
@[simp] theorem State.setToll_pending (s : State) (i : Nat) (x : Toll) : (s.setToll i x).pending = s.pending := by rfl
@[simp] theorem State.setToll_reg_acc (s : State) (i : Nat) (x : Toll) (o' : Nat) : (s.setToll i x).reg o' = s.reg o' := by rfl
@[simp] theorem State.setToll_fld_acc (s : State) (i : Nat) (x : Toll) (r' : FieldRef) : (s.setToll i x).fld r' = s.fld r' := by rfl
@[simp] theorem State.setToll_flag1_acc (s : State) (i : Nat) (x : Toll) (r' : FieldRef) : (s.setToll i x).flag1 r' = s.flag1 r' := by rfl
@[simp] theorem State.setToll_byte_acc (s : State) (i : Nat) (x : Toll) (a' : Nat) : (s.setToll i x).byte a' = s.byte a' := by rfl
@[simp] theorem State.setToll_part_acc (s : State) (i : Nat) (x : Toll) (p' : Nat) : (s.setToll i x).part p' = s.part p' := by rfl
@[simp] theorem State.setToll_exec_acc (s : State) (i : Nat) (x : Toll) (p' : Nat) : (s.setToll i x).exec? p' = s.exec? p' := by rfl
@[simp] theorem State.setToll_caravans_acc (s : State) (i : Nat) (x : Toll) (p' : Nat) : (s.setToll i x).caravans p' = s.caravans p' := by rfl
@[simp] theorem State.setToll_home_acc (s : State) (i : Nat) (x : Toll) (p' : Nat) : (s.setToll i x).home p' = s.home p' := by rfl
@[simp] theorem State.setToll_held_acc (s : State) (i : Nat) (x : Toll) (p' : Nat) : (s.setToll i x).held p' = s.held p' := by rfl
@[simp] theorem State.setToll_car_acc (s : State) (i : Nat) (x : Toll) (c' : Nat) : (s.setToll i x).car c' = s.car c' := by rfl
@[simp] theorem State.setToll_bank_acc (s : State) (i : Nat) (x : Toll) (k' : Nat) : (s.setToll i x).bank k' = s.bank k' := by rfl
@[simp] theorem State.setToll_entry_acc (s : State) (i : Nat) (x : Toll) (k' : Nat) : (s.setToll i x).entry k' = s.entry k' := by rfl
@[simp] theorem State.setToll_flagAt_acc (s : State) (i : Nat) (x : Toll) (k' : Nat) : (s.setToll i x).flagAt k' = s.flagAt k' := by rfl
@[simp] theorem State.setToll_queue_acc (s : State) (i : Nat) (x : Toll) (k' : Nat) : (s.setToll i x).queue k' = s.queue k' := by rfl
@[simp] theorem State.setToll_wctx_acc (s : State) (i : Nat) (x : Toll) (p' : Nat) : (s.setToll i x).wctx p' = s.wctx p' := by rfl
@[simp] theorem State.setToll_port_acc (s : State) (i : Nat) (x : Toll) (i' : Nat) : (s.setToll i x).port i' = s.port i' := by rfl
@[simp] theorem State.setToll_pace_acc (s : State) (i : Nat) (x : Toll) (p' : Nat) : (s.setToll i x).pace p' = s.pace p' := by rfl
@[simp] theorem State.updDev_csr (s : State) (f : Dev → Dev) : (s.updDev f).csr = s.csr := by rfl
@[simp] theorem State.updDev_mem (s : State) (f : Dev → Dev) : (s.updDev f).mem = s.mem := by rfl
@[simp] theorem State.updDev_poison (s : State) (f : Dev → Dev) : (s.updDev f).poison = s.poison := by rfl
@[simp] theorem State.updDev_tally (s : State) (f : Dev → Dev) : (s.updDev f).tally = s.tally := by rfl
@[simp] theorem State.updDev_banks (s : State) (f : Dev → Dev) : (s.updDev f).banks = s.banks := by rfl
@[simp] theorem State.updDev_flags (s : State) (f : Dev → Dev) : (s.updDev f).flags = s.flags := by rfl
@[simp] theorem State.updDev_queues (s : State) (f : Dev → Dev) : (s.updDev f).queues = s.queues := by rfl
@[simp] theorem State.updDev_parts (s : State) (f : Dev → Dev) : (s.updDev f).parts = s.parts := by rfl
@[simp] theorem State.updDev_cars (s : State) (f : Dev → Dev) : (s.updDev f).cars = s.cars := by rfl
@[simp] theorem State.updDev_wgh (s : State) (f : Dev → Dev) : (s.updDev f).wgh = s.wgh := by rfl
@[simp] theorem State.updDev_ports (s : State) (f : Dev → Dev) : (s.updDev f).ports = s.ports := by rfl
@[simp] theorem State.updDev_tolls (s : State) (f : Dev → Dev) : (s.updDev f).tolls = s.tolls := by rfl
@[simp] theorem State.updDev_spice (s : State) (f : Dev → Dev) : (s.updDev f).spice = s.spice := by rfl
@[simp] theorem State.updDev_scout (s : State) (f : Dev → Dev) : (s.updDev f).scout = s.scout := by rfl
@[simp] theorem State.updDev_out (s : State) (f : Dev → Dev) : (s.updDev f).out = s.out := by rfl
@[simp] theorem State.updDev_free (s : State) (f : Dev → Dev) : (s.updDev f).free = s.free := by rfl
@[simp] theorem State.updDev_pending (s : State) (f : Dev → Dev) : (s.updDev f).pending = s.pending := by rfl
@[simp] theorem State.updDev_reg_acc (s : State) (f : Dev → Dev) (o' : Nat) : (s.updDev f).reg o' = s.reg o' := by rfl
@[simp] theorem State.updDev_fld_acc (s : State) (f : Dev → Dev) (r' : FieldRef) : (s.updDev f).fld r' = s.fld r' := by rfl
@[simp] theorem State.updDev_flag1_acc (s : State) (f : Dev → Dev) (r' : FieldRef) : (s.updDev f).flag1 r' = s.flag1 r' := by rfl
@[simp] theorem State.updDev_byte_acc (s : State) (f : Dev → Dev) (a' : Nat) : (s.updDev f).byte a' = s.byte a' := by rfl
@[simp] theorem State.updDev_part_acc (s : State) (f : Dev → Dev) (p' : Nat) : (s.updDev f).part p' = s.part p' := by rfl
@[simp] theorem State.updDev_exec_acc (s : State) (f : Dev → Dev) (p' : Nat) : (s.updDev f).exec? p' = s.exec? p' := by rfl
@[simp] theorem State.updDev_caravans_acc (s : State) (f : Dev → Dev) (p' : Nat) : (s.updDev f).caravans p' = s.caravans p' := by rfl
@[simp] theorem State.updDev_home_acc (s : State) (f : Dev → Dev) (p' : Nat) : (s.updDev f).home p' = s.home p' := by rfl
@[simp] theorem State.updDev_held_acc (s : State) (f : Dev → Dev) (p' : Nat) : (s.updDev f).held p' = s.held p' := by rfl
@[simp] theorem State.updDev_car_acc (s : State) (f : Dev → Dev) (c' : Nat) : (s.updDev f).car c' = s.car c' := by rfl
@[simp] theorem State.updDev_bank_acc (s : State) (f : Dev → Dev) (k' : Nat) : (s.updDev f).bank k' = s.bank k' := by rfl
@[simp] theorem State.updDev_entry_acc (s : State) (f : Dev → Dev) (k' : Nat) : (s.updDev f).entry k' = s.entry k' := by rfl
@[simp] theorem State.updDev_flagAt_acc (s : State) (f : Dev → Dev) (k' : Nat) : (s.updDev f).flagAt k' = s.flagAt k' := by rfl
@[simp] theorem State.updDev_queue_acc (s : State) (f : Dev → Dev) (k' : Nat) : (s.updDev f).queue k' = s.queue k' := by rfl
@[simp] theorem State.updDev_wctx_acc (s : State) (f : Dev → Dev) (p' : Nat) : (s.updDev f).wctx p' = s.wctx p' := by rfl
@[simp] theorem State.updDev_port_acc (s : State) (f : Dev → Dev) (i' : Nat) : (s.updDev f).port i' = s.port i' := by rfl
@[simp] theorem State.updDev_toll_acc (s : State) (f : Dev → Dev) (i' : Nat) : (s.updDev f).toll i' = s.toll i' := by rfl
@[simp] theorem State.updDev_pace_acc (s : State) (f : Dev → Dev) (p' : Nat) : (s.updDev f).pace p' = s.pace p' := by rfl
@[simp] theorem State.updScout_csr (s : State) (f : Scout → Scout) : (s.updScout f).csr = s.csr := by rfl
@[simp] theorem State.updScout_mem (s : State) (f : Scout → Scout) : (s.updScout f).mem = s.mem := by rfl
@[simp] theorem State.updScout_poison (s : State) (f : Scout → Scout) : (s.updScout f).poison = s.poison := by rfl
@[simp] theorem State.updScout_tally (s : State) (f : Scout → Scout) : (s.updScout f).tally = s.tally := by rfl
@[simp] theorem State.updScout_banks (s : State) (f : Scout → Scout) : (s.updScout f).banks = s.banks := by rfl
@[simp] theorem State.updScout_flags (s : State) (f : Scout → Scout) : (s.updScout f).flags = s.flags := by rfl
@[simp] theorem State.updScout_queues (s : State) (f : Scout → Scout) : (s.updScout f).queues = s.queues := by rfl
@[simp] theorem State.updScout_parts (s : State) (f : Scout → Scout) : (s.updScout f).parts = s.parts := by rfl
@[simp] theorem State.updScout_cars (s : State) (f : Scout → Scout) : (s.updScout f).cars = s.cars := by rfl
@[simp] theorem State.updScout_wgh (s : State) (f : Scout → Scout) : (s.updScout f).wgh = s.wgh := by rfl
@[simp] theorem State.updScout_ports (s : State) (f : Scout → Scout) : (s.updScout f).ports = s.ports := by rfl
@[simp] theorem State.updScout_tolls (s : State) (f : Scout → Scout) : (s.updScout f).tolls = s.tolls := by rfl
@[simp] theorem State.updScout_spice (s : State) (f : Scout → Scout) : (s.updScout f).spice = s.spice := by rfl
@[simp] theorem State.updScout_dev (s : State) (f : Scout → Scout) : (s.updScout f).dev = s.dev := by rfl
@[simp] theorem State.updScout_out (s : State) (f : Scout → Scout) : (s.updScout f).out = s.out := by rfl
@[simp] theorem State.updScout_free (s : State) (f : Scout → Scout) : (s.updScout f).free = s.free := by rfl
@[simp] theorem State.updScout_pending (s : State) (f : Scout → Scout) : (s.updScout f).pending = s.pending := by rfl
@[simp] theorem State.updScout_reg_acc (s : State) (f : Scout → Scout) (o' : Nat) : (s.updScout f).reg o' = s.reg o' := by rfl
@[simp] theorem State.updScout_fld_acc (s : State) (f : Scout → Scout) (r' : FieldRef) : (s.updScout f).fld r' = s.fld r' := by rfl
@[simp] theorem State.updScout_flag1_acc (s : State) (f : Scout → Scout) (r' : FieldRef) : (s.updScout f).flag1 r' = s.flag1 r' := by rfl
@[simp] theorem State.updScout_byte_acc (s : State) (f : Scout → Scout) (a' : Nat) : (s.updScout f).byte a' = s.byte a' := by rfl
@[simp] theorem State.updScout_part_acc (s : State) (f : Scout → Scout) (p' : Nat) : (s.updScout f).part p' = s.part p' := by rfl
@[simp] theorem State.updScout_exec_acc (s : State) (f : Scout → Scout) (p' : Nat) : (s.updScout f).exec? p' = s.exec? p' := by rfl
@[simp] theorem State.updScout_caravans_acc (s : State) (f : Scout → Scout) (p' : Nat) : (s.updScout f).caravans p' = s.caravans p' := by rfl
@[simp] theorem State.updScout_home_acc (s : State) (f : Scout → Scout) (p' : Nat) : (s.updScout f).home p' = s.home p' := by rfl
@[simp] theorem State.updScout_held_acc (s : State) (f : Scout → Scout) (p' : Nat) : (s.updScout f).held p' = s.held p' := by rfl
@[simp] theorem State.updScout_car_acc (s : State) (f : Scout → Scout) (c' : Nat) : (s.updScout f).car c' = s.car c' := by rfl
@[simp] theorem State.updScout_bank_acc (s : State) (f : Scout → Scout) (k' : Nat) : (s.updScout f).bank k' = s.bank k' := by rfl
@[simp] theorem State.updScout_entry_acc (s : State) (f : Scout → Scout) (k' : Nat) : (s.updScout f).entry k' = s.entry k' := by rfl
@[simp] theorem State.updScout_flagAt_acc (s : State) (f : Scout → Scout) (k' : Nat) : (s.updScout f).flagAt k' = s.flagAt k' := by rfl
@[simp] theorem State.updScout_queue_acc (s : State) (f : Scout → Scout) (k' : Nat) : (s.updScout f).queue k' = s.queue k' := by rfl
@[simp] theorem State.updScout_wctx_acc (s : State) (f : Scout → Scout) (p' : Nat) : (s.updScout f).wctx p' = s.wctx p' := by rfl
@[simp] theorem State.updScout_port_acc (s : State) (f : Scout → Scout) (i' : Nat) : (s.updScout f).port i' = s.port i' := by rfl
@[simp] theorem State.updScout_toll_acc (s : State) (f : Scout → Scout) (i' : Nat) : (s.updScout f).toll i' = s.toll i' := by rfl
@[simp] theorem State.updScout_pace_acc (s : State) (f : Scout → Scout) (p' : Nat) : (s.updScout f).pace p' = s.pace p' := by rfl
@[simp] theorem State.emit_csr (s : State) (o : Out) : (s.emit o).csr = s.csr := by rfl
@[simp] theorem State.emit_mem (s : State) (o : Out) : (s.emit o).mem = s.mem := by rfl
@[simp] theorem State.emit_poison (s : State) (o : Out) : (s.emit o).poison = s.poison := by rfl
@[simp] theorem State.emit_tally (s : State) (o : Out) : (s.emit o).tally = s.tally := by rfl
@[simp] theorem State.emit_banks (s : State) (o : Out) : (s.emit o).banks = s.banks := by rfl
@[simp] theorem State.emit_flags (s : State) (o : Out) : (s.emit o).flags = s.flags := by rfl
@[simp] theorem State.emit_queues (s : State) (o : Out) : (s.emit o).queues = s.queues := by rfl
@[simp] theorem State.emit_parts (s : State) (o : Out) : (s.emit o).parts = s.parts := by rfl
@[simp] theorem State.emit_cars (s : State) (o : Out) : (s.emit o).cars = s.cars := by rfl
@[simp] theorem State.emit_wgh (s : State) (o : Out) : (s.emit o).wgh = s.wgh := by rfl
@[simp] theorem State.emit_ports (s : State) (o : Out) : (s.emit o).ports = s.ports := by rfl
@[simp] theorem State.emit_tolls (s : State) (o : Out) : (s.emit o).tolls = s.tolls := by rfl
@[simp] theorem State.emit_spice (s : State) (o : Out) : (s.emit o).spice = s.spice := by rfl
@[simp] theorem State.emit_dev (s : State) (o : Out) : (s.emit o).dev = s.dev := by rfl
@[simp] theorem State.emit_scout (s : State) (o : Out) : (s.emit o).scout = s.scout := by rfl
@[simp] theorem State.emit_free (s : State) (o : Out) : (s.emit o).free = s.free := by rfl
@[simp] theorem State.emit_pending (s : State) (o : Out) : (s.emit o).pending = s.pending := by rfl
@[simp] theorem State.emit_reg_acc (s : State) (o : Out) (o' : Nat) : (s.emit o).reg o' = s.reg o' := by rfl
@[simp] theorem State.emit_fld_acc (s : State) (o : Out) (r' : FieldRef) : (s.emit o).fld r' = s.fld r' := by rfl
@[simp] theorem State.emit_flag1_acc (s : State) (o : Out) (r' : FieldRef) : (s.emit o).flag1 r' = s.flag1 r' := by rfl
@[simp] theorem State.emit_byte_acc (s : State) (o : Out) (a' : Nat) : (s.emit o).byte a' = s.byte a' := by rfl
@[simp] theorem State.emit_part_acc (s : State) (o : Out) (p' : Nat) : (s.emit o).part p' = s.part p' := by rfl
@[simp] theorem State.emit_exec_acc (s : State) (o : Out) (p' : Nat) : (s.emit o).exec? p' = s.exec? p' := by rfl
@[simp] theorem State.emit_caravans_acc (s : State) (o : Out) (p' : Nat) : (s.emit o).caravans p' = s.caravans p' := by rfl
@[simp] theorem State.emit_home_acc (s : State) (o : Out) (p' : Nat) : (s.emit o).home p' = s.home p' := by rfl
@[simp] theorem State.emit_held_acc (s : State) (o : Out) (p' : Nat) : (s.emit o).held p' = s.held p' := by rfl
@[simp] theorem State.emit_car_acc (s : State) (o : Out) (c' : Nat) : (s.emit o).car c' = s.car c' := by rfl
@[simp] theorem State.emit_bank_acc (s : State) (o : Out) (k' : Nat) : (s.emit o).bank k' = s.bank k' := by rfl
@[simp] theorem State.emit_entry_acc (s : State) (o : Out) (k' : Nat) : (s.emit o).entry k' = s.entry k' := by rfl
@[simp] theorem State.emit_flagAt_acc (s : State) (o : Out) (k' : Nat) : (s.emit o).flagAt k' = s.flagAt k' := by rfl
@[simp] theorem State.emit_queue_acc (s : State) (o : Out) (k' : Nat) : (s.emit o).queue k' = s.queue k' := by rfl
@[simp] theorem State.emit_wctx_acc (s : State) (o : Out) (p' : Nat) : (s.emit o).wctx p' = s.wctx p' := by rfl
@[simp] theorem State.emit_port_acc (s : State) (o : Out) (i' : Nat) : (s.emit o).port i' = s.port i' := by rfl
@[simp] theorem State.emit_toll_acc (s : State) (o : Out) (i' : Nat) : (s.emit o).toll i' = s.toll i' := by rfl
@[simp] theorem State.emit_pace_acc (s : State) (o : Out) (p' : Nat) : (s.emit o).pace p' = s.pace p' := by rfl
@[simp] theorem State.draw_csr (s : State) : s.draw.2.csr = s.csr := by rfl
@[simp] theorem State.draw_mem (s : State) : s.draw.2.mem = s.mem := by rfl
@[simp] theorem State.draw_poison (s : State) : s.draw.2.poison = s.poison := by rfl
@[simp] theorem State.draw_tally (s : State) : s.draw.2.tally = s.tally := by rfl
@[simp] theorem State.draw_banks (s : State) : s.draw.2.banks = s.banks := by rfl
@[simp] theorem State.draw_flags (s : State) : s.draw.2.flags = s.flags := by rfl
@[simp] theorem State.draw_queues (s : State) : s.draw.2.queues = s.queues := by rfl
@[simp] theorem State.draw_parts (s : State) : s.draw.2.parts = s.parts := by rfl
@[simp] theorem State.draw_cars (s : State) : s.draw.2.cars = s.cars := by rfl
@[simp] theorem State.draw_wgh (s : State) : s.draw.2.wgh = s.wgh := by rfl
@[simp] theorem State.draw_ports (s : State) : s.draw.2.ports = s.ports := by rfl
@[simp] theorem State.draw_tolls (s : State) : s.draw.2.tolls = s.tolls := by rfl
@[simp] theorem State.draw_spice (s : State) : s.draw.2.spice = s.spice := by rfl
@[simp] theorem State.draw_dev (s : State) : s.draw.2.dev = s.dev := by rfl
@[simp] theorem State.draw_scout (s : State) : s.draw.2.scout = s.scout := by rfl
@[simp] theorem State.draw_out (s : State) : s.draw.2.out = s.out := by rfl
@[simp] theorem State.draw_pending (s : State) : s.draw.2.pending = s.pending := by rfl
@[simp] theorem State.draw_reg_acc (s : State) (o' : Nat) : s.draw.2.reg o' = s.reg o' := by rfl
@[simp] theorem State.draw_fld_acc (s : State) (r' : FieldRef) : s.draw.2.fld r' = s.fld r' := by rfl
@[simp] theorem State.draw_flag1_acc (s : State) (r' : FieldRef) : s.draw.2.flag1 r' = s.flag1 r' := by rfl
@[simp] theorem State.draw_byte_acc (s : State) (a' : Nat) : s.draw.2.byte a' = s.byte a' := by rfl
@[simp] theorem State.draw_part_acc (s : State) (p' : Nat) : s.draw.2.part p' = s.part p' := by rfl
@[simp] theorem State.draw_exec_acc (s : State) (p' : Nat) : s.draw.2.exec? p' = s.exec? p' := by rfl
@[simp] theorem State.draw_caravans_acc (s : State) (p' : Nat) : s.draw.2.caravans p' = s.caravans p' := by rfl
@[simp] theorem State.draw_home_acc (s : State) (p' : Nat) : s.draw.2.home p' = s.home p' := by rfl
@[simp] theorem State.draw_held_acc (s : State) (p' : Nat) : s.draw.2.held p' = s.held p' := by rfl
@[simp] theorem State.draw_car_acc (s : State) (c' : Nat) : s.draw.2.car c' = s.car c' := by rfl
@[simp] theorem State.draw_bank_acc (s : State) (k' : Nat) : s.draw.2.bank k' = s.bank k' := by rfl
@[simp] theorem State.draw_entry_acc (s : State) (k' : Nat) : s.draw.2.entry k' = s.entry k' := by rfl
@[simp] theorem State.draw_flagAt_acc (s : State) (k' : Nat) : s.draw.2.flagAt k' = s.flagAt k' := by rfl
@[simp] theorem State.draw_queue_acc (s : State) (k' : Nat) : s.draw.2.queue k' = s.queue k' := by rfl
@[simp] theorem State.draw_wctx_acc (s : State) (p' : Nat) : s.draw.2.wctx p' = s.wctx p' := by rfl
@[simp] theorem State.draw_port_acc (s : State) (i' : Nat) : s.draw.2.port i' = s.port i' := by rfl
@[simp] theorem State.draw_toll_acc (s : State) (i' : Nat) : s.draw.2.toll i' = s.toll i' := by rfl
@[simp] theorem State.draw_pace_acc (s : State) (p' : Nat) : s.draw.2.pace p' = s.pace p' := by rfl
/-! updExec -/
@[simp] theorem State.updExec_csr (s : State) (p : Nat) (f : Exec → Exec)  : (s.updExec p f).csr = s.csr := by
  unfold State.updExec; split <;> rfl
@[simp] theorem State.updExec_mem (s : State) (p : Nat) (f : Exec → Exec)  : (s.updExec p f).mem = s.mem := by
  unfold State.updExec; split <;> rfl
@[simp] theorem State.updExec_poison (s : State) (p : Nat) (f : Exec → Exec)  : (s.updExec p f).poison = s.poison := by
  unfold State.updExec; split <;> rfl
@[simp] theorem State.updExec_tally (s : State) (p : Nat) (f : Exec → Exec)  : (s.updExec p f).tally = s.tally := by
  unfold State.updExec; split <;> rfl
@[simp] theorem State.updExec_banks (s : State) (p : Nat) (f : Exec → Exec)  : (s.updExec p f).banks = s.banks := by
  unfold State.updExec; split <;> rfl
@[simp] theorem State.updExec_flags (s : State) (p : Nat) (f : Exec → Exec)  : (s.updExec p f).flags = s.flags := by
  unfold State.updExec; split <;> rfl
@[simp] theorem State.updExec_queues (s : State) (p : Nat) (f : Exec → Exec)  : (s.updExec p f).queues = s.queues := by
  unfold State.updExec; split <;> rfl
@[simp] theorem State.updExec_cars (s : State) (p : Nat) (f : Exec → Exec)  : (s.updExec p f).cars = s.cars := by
  unfold State.updExec; split <;> rfl
@[simp] theorem State.updExec_wgh (s : State) (p : Nat) (f : Exec → Exec)  : (s.updExec p f).wgh = s.wgh := by
  unfold State.updExec; split <;> rfl
@[simp] theorem State.updExec_ports (s : State) (p : Nat) (f : Exec → Exec)  : (s.updExec p f).ports = s.ports := by
  unfold State.updExec; split <;> rfl
@[simp] theorem State.updExec_tolls (s : State) (p : Nat) (f : Exec → Exec)  : (s.updExec p f).tolls = s.tolls := by
  unfold State.updExec; split <;> rfl
@[simp] theorem State.updExec_spice (s : State) (p : Nat) (f : Exec → Exec)  : (s.updExec p f).spice = s.spice := by
  unfold State.updExec; split <;> rfl
@[simp] theorem State.updExec_dev (s : State) (p : Nat) (f : Exec → Exec)  : (s.updExec p f).dev = s.dev := by
  unfold State.updExec; split <;> rfl
@[simp] theorem State.updExec_scout (s : State) (p : Nat) (f : Exec → Exec)  : (s.updExec p f).scout = s.scout := by
  unfold State.updExec; split <;> rfl
@[simp] theorem State.updExec_out (s : State) (p : Nat) (f : Exec → Exec)  : (s.updExec p f).out = s.out := by
  unfold State.updExec; split <;> rfl
@[simp] theorem State.updExec_free (s : State) (p : Nat) (f : Exec → Exec)  : (s.updExec p f).free = s.free := by
  unfold State.updExec; split <;> rfl
@[simp] theorem State.updExec_pending (s : State) (p : Nat) (f : Exec → Exec)  : (s.updExec p f).pending = s.pending := by
  unfold State.updExec; split <;> rfl
@[simp] theorem State.updExec_reg_acc (s : State) (p : Nat) (f : Exec → Exec) (o' : Nat) : (s.updExec p f).reg o' = s.reg o' := by
  unfold State.updExec; split <;> rfl
@[simp] theorem State.updExec_fld_acc (s : State) (p : Nat) (f : Exec → Exec) (r' : FieldRef) : (s.updExec p f).fld r' = s.fld r' := by
  unfold State.updExec; split <;> rfl
@[simp] theorem State.updExec_flag1_acc (s : State) (p : Nat) (f : Exec → Exec) (r' : FieldRef) : (s.updExec p f).flag1 r' = s.flag1 r' := by
  unfold State.updExec; split <;> rfl
@[simp] theorem State.updExec_byte_acc (s : State) (p : Nat) (f : Exec → Exec) (a' : Nat) : (s.updExec p f).byte a' = s.byte a' := by
  unfold State.updExec; split <;> rfl
@[simp] theorem State.updExec_car_acc (s : State) (p : Nat) (f : Exec → Exec) (c' : Nat) : (s.updExec p f).car c' = s.car c' := by
  unfold State.updExec; split <;> rfl
@[simp] theorem State.updExec_bank_acc (s : State) (p : Nat) (f : Exec → Exec) (k' : Nat) : (s.updExec p f).bank k' = s.bank k' := by
  unfold State.updExec; split <;> rfl
@[simp] theorem State.updExec_entry_acc (s : State) (p : Nat) (f : Exec → Exec) (k' : Nat) : (s.updExec p f).entry k' = s.entry k' := by
  unfold State.updExec; split <;> rfl
@[simp] theorem State.updExec_flagAt_acc (s : State) (p : Nat) (f : Exec → Exec) (k' : Nat) : (s.updExec p f).flagAt k' = s.flagAt k' := by
  unfold State.updExec; split <;> rfl
@[simp] theorem State.updExec_queue_acc (s : State) (p : Nat) (f : Exec → Exec) (k' : Nat) : (s.updExec p f).queue k' = s.queue k' := by
  unfold State.updExec; split <;> rfl
@[simp] theorem State.updExec_wctx_acc (s : State) (p : Nat) (f : Exec → Exec) (p' : Nat) : (s.updExec p f).wctx p' = s.wctx p' := by
  unfold State.updExec; split <;> rfl
@[simp] theorem State.updExec_port_acc (s : State) (p : Nat) (f : Exec → Exec) (i' : Nat) : (s.updExec p f).port i' = s.port i' := by
  unfold State.updExec; split <;> rfl
@[simp] theorem State.updExec_toll_acc (s : State) (p : Nat) (f : Exec → Exec) (i' : Nat) : (s.updExec p f).toll i' = s.toll i' := by
  unfold State.updExec; split <;> rfl
@[simp] theorem State.updExec_pace_acc (s : State) (p : Nat) (f : Exec → Exec) (p' : Nat) : (s.updExec p f).pace p' = s.pace p' := by
  unfold State.updExec; split <;> rfl
/-! takeWait -/
@[simp] theorem State.takeWait_csr (s : State) (p c i : Nat)  : (s.takeWait p c i).csr = s.csr := by
  unfold State.takeWait; split <;> rfl
@[simp] theorem State.takeWait_mem (s : State) (p c i : Nat)  : (s.takeWait p c i).mem = s.mem := by
  unfold State.takeWait; split <;> rfl
@[simp] theorem State.takeWait_poison (s : State) (p c i : Nat)  : (s.takeWait p c i).poison = s.poison := by
  unfold State.takeWait; split <;> rfl
@[simp] theorem State.takeWait_tally (s : State) (p c i : Nat)  : (s.takeWait p c i).tally = s.tally := by
  unfold State.takeWait; split <;> rfl
@[simp] theorem State.takeWait_banks (s : State) (p c i : Nat)  : (s.takeWait p c i).banks = s.banks := by
  unfold State.takeWait; split <;> rfl
@[simp] theorem State.takeWait_queues (s : State) (p c i : Nat)  : (s.takeWait p c i).queues = s.queues := by
  unfold State.takeWait; split <;> rfl
@[simp] theorem State.takeWait_parts (s : State) (p c i : Nat)  : (s.takeWait p c i).parts = s.parts := by
  unfold State.takeWait; split <;> rfl
@[simp] theorem State.takeWait_cars (s : State) (p c i : Nat)  : (s.takeWait p c i).cars = s.cars := by
  unfold State.takeWait; split <;> rfl
@[simp] theorem State.takeWait_wgh (s : State) (p c i : Nat)  : (s.takeWait p c i).wgh = s.wgh := by
  unfold State.takeWait; split <;> rfl
@[simp] theorem State.takeWait_ports (s : State) (p c i : Nat)  : (s.takeWait p c i).ports = s.ports := by
  unfold State.takeWait; split <;> rfl
@[simp] theorem State.takeWait_tolls (s : State) (p c i : Nat)  : (s.takeWait p c i).tolls = s.tolls := by
  unfold State.takeWait; split <;> rfl
@[simp] theorem State.takeWait_spice (s : State) (p c i : Nat)  : (s.takeWait p c i).spice = s.spice := by
  unfold State.takeWait; split <;> rfl
@[simp] theorem State.takeWait_dev (s : State) (p c i : Nat)  : (s.takeWait p c i).dev = s.dev := by
  unfold State.takeWait; split <;> rfl
@[simp] theorem State.takeWait_scout (s : State) (p c i : Nat)  : (s.takeWait p c i).scout = s.scout := by
  unfold State.takeWait; split <;> rfl
@[simp] theorem State.takeWait_out (s : State) (p c i : Nat)  : (s.takeWait p c i).out = s.out := by
  unfold State.takeWait; split <;> rfl
@[simp] theorem State.takeWait_free (s : State) (p c i : Nat)  : (s.takeWait p c i).free = s.free := by
  unfold State.takeWait; split <;> rfl
@[simp] theorem State.takeWait_pending (s : State) (p c i : Nat)  : (s.takeWait p c i).pending = s.pending := by
  unfold State.takeWait; split <;> rfl
@[simp] theorem State.takeWait_reg_acc (s : State) (p c i : Nat) (o' : Nat) : (s.takeWait p c i).reg o' = s.reg o' := by
  unfold State.takeWait; split <;> rfl
@[simp] theorem State.takeWait_fld_acc (s : State) (p c i : Nat) (r' : FieldRef) : (s.takeWait p c i).fld r' = s.fld r' := by
  unfold State.takeWait; split <;> rfl
@[simp] theorem State.takeWait_flag1_acc (s : State) (p c i : Nat) (r' : FieldRef) : (s.takeWait p c i).flag1 r' = s.flag1 r' := by
  unfold State.takeWait; split <;> rfl
@[simp] theorem State.takeWait_byte_acc (s : State) (p c i : Nat) (a' : Nat) : (s.takeWait p c i).byte a' = s.byte a' := by
  unfold State.takeWait; split <;> rfl
@[simp] theorem State.takeWait_part_acc (s : State) (p c i : Nat) (p' : Nat) : (s.takeWait p c i).part p' = s.part p' := by
  unfold State.takeWait; split <;> rfl
@[simp] theorem State.takeWait_exec_acc (s : State) (p c i : Nat) (p' : Nat) : (s.takeWait p c i).exec? p' = s.exec? p' := by
  unfold State.takeWait; split <;> rfl
@[simp] theorem State.takeWait_caravans_acc (s : State) (p c i : Nat) (p' : Nat) : (s.takeWait p c i).caravans p' = s.caravans p' := by
  unfold State.takeWait; split <;> rfl
@[simp] theorem State.takeWait_home_acc (s : State) (p c i : Nat) (p' : Nat) : (s.takeWait p c i).home p' = s.home p' := by
  unfold State.takeWait; split <;> rfl
@[simp] theorem State.takeWait_held_acc (s : State) (p c i : Nat) (p' : Nat) : (s.takeWait p c i).held p' = s.held p' := by
  unfold State.takeWait; split <;> rfl
@[simp] theorem State.takeWait_car_acc (s : State) (p c i : Nat) (c' : Nat) : (s.takeWait p c i).car c' = s.car c' := by
  unfold State.takeWait; split <;> rfl
@[simp] theorem State.takeWait_bank_acc (s : State) (p c i : Nat) (k' : Nat) : (s.takeWait p c i).bank k' = s.bank k' := by
  unfold State.takeWait; split <;> rfl
@[simp] theorem State.takeWait_entry_acc (s : State) (p c i : Nat) (k' : Nat) : (s.takeWait p c i).entry k' = s.entry k' := by
  unfold State.takeWait; split <;> rfl
@[simp] theorem State.takeWait_queue_acc (s : State) (p c i : Nat) (k' : Nat) : (s.takeWait p c i).queue k' = s.queue k' := by
  unfold State.takeWait; split <;> rfl
@[simp] theorem State.takeWait_wctx_acc (s : State) (p c i : Nat) (p' : Nat) : (s.takeWait p c i).wctx p' = s.wctx p' := by
  unfold State.takeWait; split <;> rfl
@[simp] theorem State.takeWait_port_acc (s : State) (p c i : Nat) (i' : Nat) : (s.takeWait p c i).port i' = s.port i' := by
  unfold State.takeWait; split <;> rfl
@[simp] theorem State.takeWait_toll_acc (s : State) (p c i : Nat) (i' : Nat) : (s.takeWait p c i).toll i' = s.toll i' := by
  unfold State.takeWait; split <;> rfl
@[simp] theorem State.takeWait_pace_acc (s : State) (p c i : Nat) (p' : Nat) : (s.takeWait p c i).pace p' = s.pace p' := by
  unfold State.takeWait; split <;> rfl
/-! hold -/
@[simp] theorem State.hold_mem (s : State) (p src : Nat) (len : Option Nat)  : (s.hold p src len).mem = s.mem := by
  simp [State.hold]
@[simp] theorem State.hold_poison (s : State) (p src : Nat) (len : Option Nat)  : (s.hold p src len).poison = s.poison := by
  simp [State.hold]
@[simp] theorem State.hold_tally (s : State) (p src : Nat) (len : Option Nat)  : (s.hold p src len).tally = s.tally := by
  simp [State.hold]
@[simp] theorem State.hold_banks (s : State) (p src : Nat) (len : Option Nat)  : (s.hold p src len).banks = s.banks := by
  simp [State.hold]
@[simp] theorem State.hold_flags (s : State) (p src : Nat) (len : Option Nat)  : (s.hold p src len).flags = s.flags := by
  simp [State.hold]
@[simp] theorem State.hold_queues (s : State) (p src : Nat) (len : Option Nat)  : (s.hold p src len).queues = s.queues := by
  simp [State.hold]
@[simp] theorem State.hold_cars (s : State) (p src : Nat) (len : Option Nat)  : (s.hold p src len).cars = s.cars := by
  simp [State.hold]
@[simp] theorem State.hold_wgh (s : State) (p src : Nat) (len : Option Nat)  : (s.hold p src len).wgh = s.wgh := by
  simp [State.hold]
@[simp] theorem State.hold_ports (s : State) (p src : Nat) (len : Option Nat)  : (s.hold p src len).ports = s.ports := by
  simp [State.hold]
@[simp] theorem State.hold_tolls (s : State) (p src : Nat) (len : Option Nat)  : (s.hold p src len).tolls = s.tolls := by
  simp [State.hold]
@[simp] theorem State.hold_spice (s : State) (p src : Nat) (len : Option Nat)  : (s.hold p src len).spice = s.spice := by
  simp [State.hold]
@[simp] theorem State.hold_dev (s : State) (p src : Nat) (len : Option Nat)  : (s.hold p src len).dev = s.dev := by
  simp [State.hold]
@[simp] theorem State.hold_scout (s : State) (p src : Nat) (len : Option Nat)  : (s.hold p src len).scout = s.scout := by
  simp [State.hold]
@[simp] theorem State.hold_out (s : State) (p src : Nat) (len : Option Nat)  : (s.hold p src len).out = s.out := by
  simp [State.hold]
@[simp] theorem State.hold_pending (s : State) (p src : Nat) (len : Option Nat)  : (s.hold p src len).pending = s.pending := by
  simp [State.hold]
@[simp] theorem State.hold_byte_acc (s : State) (p src : Nat) (len : Option Nat) (a' : Nat) : (s.hold p src len).byte a' = s.byte a' := by
  simp [State.hold]
@[simp] theorem State.hold_car_acc (s : State) (p src : Nat) (len : Option Nat) (c' : Nat) : (s.hold p src len).car c' = s.car c' := by
  simp [State.hold]
@[simp] theorem State.hold_bank_acc (s : State) (p src : Nat) (len : Option Nat) (k' : Nat) : (s.hold p src len).bank k' = s.bank k' := by
  simp [State.hold]
@[simp] theorem State.hold_entry_acc (s : State) (p src : Nat) (len : Option Nat) (k' : Nat) : (s.hold p src len).entry k' = s.entry k' := by
  simp [State.hold]
@[simp] theorem State.hold_flagAt_acc (s : State) (p src : Nat) (len : Option Nat) (k' : Nat) : (s.hold p src len).flagAt k' = s.flagAt k' := by
  simp [State.hold]
@[simp] theorem State.hold_queue_acc (s : State) (p src : Nat) (len : Option Nat) (k' : Nat) : (s.hold p src len).queue k' = s.queue k' := by
  simp [State.hold]
@[simp] theorem State.hold_wctx_acc (s : State) (p src : Nat) (len : Option Nat) (p' : Nat) : (s.hold p src len).wctx p' = s.wctx p' := by
  simp [State.hold]
@[simp] theorem State.hold_port_acc (s : State) (p src : Nat) (len : Option Nat) (i' : Nat) : (s.hold p src len).port i' = s.port i' := by
  simp [State.hold]
@[simp] theorem State.hold_toll_acc (s : State) (p src : Nat) (len : Option Nat) (i' : Nat) : (s.hold p src len).toll i' = s.toll i' := by
  simp [State.hold]
/-! event -/
@[simp] theorem State.event_mem (s : State) (p ty u d : Nat)  : (s.event p ty u d).mem = s.mem := by
  unfold State.event; simp only []; split <;> simp
@[simp] theorem State.event_poison (s : State) (p ty u d : Nat)  : (s.event p ty u d).poison = s.poison := by
  unfold State.event; simp only []; split <;> simp
@[simp] theorem State.event_tally (s : State) (p ty u d : Nat)  : (s.event p ty u d).tally = s.tally := by
  unfold State.event; simp only []; split <;> simp
@[simp] theorem State.event_banks (s : State) (p ty u d : Nat)  : (s.event p ty u d).banks = s.banks := by
  unfold State.event; simp only []; split <;> simp
@[simp] theorem State.event_flags (s : State) (p ty u d : Nat)  : (s.event p ty u d).flags = s.flags := by
  unfold State.event; simp only []; split <;> simp
@[simp] theorem State.event_queues (s : State) (p ty u d : Nat)  : (s.event p ty u d).queues = s.queues := by
  unfold State.event; simp only []; split <;> simp
@[simp] theorem State.event_cars (s : State) (p ty u d : Nat)  : (s.event p ty u d).cars = s.cars := by
  unfold State.event; simp only []; split <;> simp
@[simp] theorem State.event_wgh (s : State) (p ty u d : Nat)  : (s.event p ty u d).wgh = s.wgh := by
  unfold State.event; simp only []; split <;> simp
@[simp] theorem State.event_ports (s : State) (p ty u d : Nat)  : (s.event p ty u d).ports = s.ports := by
  unfold State.event; simp only []; split <;> simp
@[simp] theorem State.event_tolls (s : State) (p ty u d : Nat)  : (s.event p ty u d).tolls = s.tolls := by
  unfold State.event; simp only []; split <;> simp
@[simp] theorem State.event_spice (s : State) (p ty u d : Nat)  : (s.event p ty u d).spice = s.spice := by
  unfold State.event; simp only []; split <;> simp
@[simp] theorem State.event_dev (s : State) (p ty u d : Nat)  : (s.event p ty u d).dev = s.dev := by
  unfold State.event; simp only []; split <;> simp
@[simp] theorem State.event_scout (s : State) (p ty u d : Nat)  : (s.event p ty u d).scout = s.scout := by
  unfold State.event; simp only []; split <;> simp
@[simp] theorem State.event_free (s : State) (p ty u d : Nat)  : (s.event p ty u d).free = s.free := by
  unfold State.event; simp only []; split <;> simp
@[simp] theorem State.event_pending (s : State) (p ty u d : Nat)  : (s.event p ty u d).pending = s.pending := by
  unfold State.event; simp only []; split <;> simp
@[simp] theorem State.event_byte_acc (s : State) (p ty u d : Nat) (a' : Nat) : (s.event p ty u d).byte a' = s.byte a' := by
  unfold State.event; simp only []; split <;> simp
@[simp] theorem State.event_car_acc (s : State) (p ty u d : Nat) (c' : Nat) : (s.event p ty u d).car c' = s.car c' := by
  unfold State.event; simp only []; split <;> simp
@[simp] theorem State.event_bank_acc (s : State) (p ty u d : Nat) (k' : Nat) : (s.event p ty u d).bank k' = s.bank k' := by
  unfold State.event; simp only []; split <;> simp
@[simp] theorem State.event_entry_acc (s : State) (p ty u d : Nat) (k' : Nat) : (s.event p ty u d).entry k' = s.entry k' := by
  unfold State.event; simp only []; split <;> simp
@[simp] theorem State.event_flagAt_acc (s : State) (p ty u d : Nat) (k' : Nat) : (s.event p ty u d).flagAt k' = s.flagAt k' := by
  unfold State.event; simp only []; split <;> simp
@[simp] theorem State.event_queue_acc (s : State) (p ty u d : Nat) (k' : Nat) : (s.event p ty u d).queue k' = s.queue k' := by
  unfold State.event; simp only []; split <;> simp
@[simp] theorem State.event_wctx_acc (s : State) (p ty u d : Nat) (p' : Nat) : (s.event p ty u d).wctx p' = s.wctx p' := by
  unfold State.event; simp only []; split <;> simp
@[simp] theorem State.event_port_acc (s : State) (p ty u d : Nat) (i' : Nat) : (s.event p ty u d).port i' = s.port i' := by
  unfold State.event; simp only []; split <;> simp
@[simp] theorem State.event_toll_acc (s : State) (p ty u d : Nat) (i' : Nat) : (s.event p ty u d).toll i' = s.toll i' := by
  unfold State.event; simp only []; split <;> simp
/-! setBytes -/
@[simp] theorem State.setBytes_csr (s : State) (a : Nat) (bs : List Byte)  : (s.setBytes a bs).csr = s.csr := by
  induction bs generalizing s a with
  | nil => rfl
  | cons x bs ih => rw [State.setBytes, ih]; rfl
@[simp] theorem State.setBytes_tally (s : State) (a : Nat) (bs : List Byte)  : (s.setBytes a bs).tally = s.tally := by
  induction bs generalizing s a with
  | nil => rfl
  | cons x bs ih => rw [State.setBytes, ih]; rfl
@[simp] theorem State.setBytes_banks (s : State) (a : Nat) (bs : List Byte)  : (s.setBytes a bs).banks = s.banks := by
  induction bs generalizing s a with
  | nil => rfl
  | cons x bs ih => rw [State.setBytes, ih]; rfl
@[simp] theorem State.setBytes_flags (s : State) (a : Nat) (bs : List Byte)  : (s.setBytes a bs).flags = s.flags := by
  induction bs generalizing s a with
  | nil => rfl
  | cons x bs ih => rw [State.setBytes, ih]; rfl
@[simp] theorem State.setBytes_queues (s : State) (a : Nat) (bs : List Byte)  : (s.setBytes a bs).queues = s.queues := by
  induction bs generalizing s a with
  | nil => rfl
  | cons x bs ih => rw [State.setBytes, ih]; rfl
@[simp] theorem State.setBytes_parts (s : State) (a : Nat) (bs : List Byte)  : (s.setBytes a bs).parts = s.parts := by
  induction bs generalizing s a with
  | nil => rfl
  | cons x bs ih => rw [State.setBytes, ih]; rfl
@[simp] theorem State.setBytes_cars (s : State) (a : Nat) (bs : List Byte)  : (s.setBytes a bs).cars = s.cars := by
  induction bs generalizing s a with
  | nil => rfl
  | cons x bs ih => rw [State.setBytes, ih]; rfl
@[simp] theorem State.setBytes_wgh (s : State) (a : Nat) (bs : List Byte)  : (s.setBytes a bs).wgh = s.wgh := by
  induction bs generalizing s a with
  | nil => rfl
  | cons x bs ih => rw [State.setBytes, ih]; rfl
@[simp] theorem State.setBytes_ports (s : State) (a : Nat) (bs : List Byte)  : (s.setBytes a bs).ports = s.ports := by
  induction bs generalizing s a with
  | nil => rfl
  | cons x bs ih => rw [State.setBytes, ih]; rfl
@[simp] theorem State.setBytes_tolls (s : State) (a : Nat) (bs : List Byte)  : (s.setBytes a bs).tolls = s.tolls := by
  induction bs generalizing s a with
  | nil => rfl
  | cons x bs ih => rw [State.setBytes, ih]; rfl
@[simp] theorem State.setBytes_spice (s : State) (a : Nat) (bs : List Byte)  : (s.setBytes a bs).spice = s.spice := by
  induction bs generalizing s a with
  | nil => rfl
  | cons x bs ih => rw [State.setBytes, ih]; rfl
@[simp] theorem State.setBytes_dev (s : State) (a : Nat) (bs : List Byte)  : (s.setBytes a bs).dev = s.dev := by
  induction bs generalizing s a with
  | nil => rfl
  | cons x bs ih => rw [State.setBytes, ih]; rfl
@[simp] theorem State.setBytes_scout (s : State) (a : Nat) (bs : List Byte)  : (s.setBytes a bs).scout = s.scout := by
  induction bs generalizing s a with
  | nil => rfl
  | cons x bs ih => rw [State.setBytes, ih]; rfl
@[simp] theorem State.setBytes_out (s : State) (a : Nat) (bs : List Byte)  : (s.setBytes a bs).out = s.out := by
  induction bs generalizing s a with
  | nil => rfl
  | cons x bs ih => rw [State.setBytes, ih]; rfl
@[simp] theorem State.setBytes_free (s : State) (a : Nat) (bs : List Byte)  : (s.setBytes a bs).free = s.free := by
  induction bs generalizing s a with
  | nil => rfl
  | cons x bs ih => rw [State.setBytes, ih]; rfl
@[simp] theorem State.setBytes_pending (s : State) (a : Nat) (bs : List Byte)  : (s.setBytes a bs).pending = s.pending := by
  induction bs generalizing s a with
  | nil => rfl
  | cons x bs ih => rw [State.setBytes, ih]; rfl
@[simp] theorem State.setBytes_reg_acc (s : State) (a : Nat) (bs : List Byte) (o' : Nat) : (s.setBytes a bs).reg o' = s.reg o' := by
  induction bs generalizing s a with
  | nil => rfl
  | cons x bs ih => rw [State.setBytes, ih]; rfl
@[simp] theorem State.setBytes_fld_acc (s : State) (a : Nat) (bs : List Byte) (r' : FieldRef) : (s.setBytes a bs).fld r' = s.fld r' := by
  induction bs generalizing s a with
  | nil => rfl
  | cons x bs ih => rw [State.setBytes, ih]; rfl
@[simp] theorem State.setBytes_flag1_acc (s : State) (a : Nat) (bs : List Byte) (r' : FieldRef) : (s.setBytes a bs).flag1 r' = s.flag1 r' := by
  induction bs generalizing s a with
  | nil => rfl
  | cons x bs ih => rw [State.setBytes, ih]; rfl
@[simp] theorem State.setBytes_part_acc (s : State) (a : Nat) (bs : List Byte) (p' : Nat) : (s.setBytes a bs).part p' = s.part p' := by
  induction bs generalizing s a with
  | nil => rfl
  | cons x bs ih => rw [State.setBytes, ih]; rfl
@[simp] theorem State.setBytes_exec_acc (s : State) (a : Nat) (bs : List Byte) (p' : Nat) : (s.setBytes a bs).exec? p' = s.exec? p' := by
  induction bs generalizing s a with
  | nil => rfl
  | cons x bs ih => rw [State.setBytes, ih]; rfl
@[simp] theorem State.setBytes_caravans_acc (s : State) (a : Nat) (bs : List Byte) (p' : Nat) : (s.setBytes a bs).caravans p' = s.caravans p' := by
  induction bs generalizing s a with
  | nil => rfl
  | cons x bs ih => rw [State.setBytes, ih]; rfl
@[simp] theorem State.setBytes_home_acc (s : State) (a : Nat) (bs : List Byte) (p' : Nat) : (s.setBytes a bs).home p' = s.home p' := by
  induction bs generalizing s a with
  | nil => rfl
  | cons x bs ih => rw [State.setBytes, ih]; rfl
@[simp] theorem State.setBytes_held_acc (s : State) (a : Nat) (bs : List Byte) (p' : Nat) : (s.setBytes a bs).held p' = s.held p' := by
  induction bs generalizing s a with
  | nil => rfl
  | cons x bs ih => rw [State.setBytes, ih]; rfl
@[simp] theorem State.setBytes_car_acc (s : State) (a : Nat) (bs : List Byte) (c' : Nat) : (s.setBytes a bs).car c' = s.car c' := by
  induction bs generalizing s a with
  | nil => rfl
  | cons x bs ih => rw [State.setBytes, ih]; rfl
@[simp] theorem State.setBytes_bank_acc (s : State) (a : Nat) (bs : List Byte) (k' : Nat) : (s.setBytes a bs).bank k' = s.bank k' := by
  induction bs generalizing s a with
  | nil => rfl
  | cons x bs ih => rw [State.setBytes, ih]; rfl
@[simp] theorem State.setBytes_entry_acc (s : State) (a : Nat) (bs : List Byte) (k' : Nat) : (s.setBytes a bs).entry k' = s.entry k' := by
  induction bs generalizing s a with
  | nil => rfl
  | cons x bs ih => rw [State.setBytes, ih]; rfl
@[simp] theorem State.setBytes_flagAt_acc (s : State) (a : Nat) (bs : List Byte) (k' : Nat) : (s.setBytes a bs).flagAt k' = s.flagAt k' := by
  induction bs generalizing s a with
  | nil => rfl
  | cons x bs ih => rw [State.setBytes, ih]; rfl
@[simp] theorem State.setBytes_queue_acc (s : State) (a : Nat) (bs : List Byte) (k' : Nat) : (s.setBytes a bs).queue k' = s.queue k' := by
  induction bs generalizing s a with
  | nil => rfl
  | cons x bs ih => rw [State.setBytes, ih]; rfl
@[simp] theorem State.setBytes_wctx_acc (s : State) (a : Nat) (bs : List Byte) (p' : Nat) : (s.setBytes a bs).wctx p' = s.wctx p' := by
  induction bs generalizing s a with
  | nil => rfl
  | cons x bs ih => rw [State.setBytes, ih]; rfl
@[simp] theorem State.setBytes_port_acc (s : State) (a : Nat) (bs : List Byte) (i' : Nat) : (s.setBytes a bs).port i' = s.port i' := by
  induction bs generalizing s a with
  | nil => rfl
  | cons x bs ih => rw [State.setBytes, ih]; rfl
@[simp] theorem State.setBytes_toll_acc (s : State) (a : Nat) (bs : List Byte) (i' : Nat) : (s.setBytes a bs).toll i' = s.toll i' := by
  induction bs generalizing s a with
  | nil => rfl
  | cons x bs ih => rw [State.setBytes, ih]; rfl
@[simp] theorem State.setBytes_pace_acc (s : State) (a : Nat) (bs : List Byte) (p' : Nat) : (s.setBytes a bs).pace p' = s.pace p' := by
  induction bs generalizing s a with
  | nil => rfl
  | cons x bs ih => rw [State.setBytes, ih]; rfl

end Sys2Proof.Machine
end

