-- ==== Sys2Proof/Laws/Ops.lean ====
section
/-!
SUPPORT. Reads after writes: registers and their fields, bytes, and every per-unit record; and what the composite operations
(signals, holds, events, what goes out) leave alone.
-/
namespace Sys2Proof.Machine

/-! Registers and fields. -/

theorem State.reg_setReg (s : State) (o o' : Nat) (w : Word) : (s.setReg o w).reg o' = if o = o' then w else s.reg o' := by
  unfold State.reg State.setReg
  exact Map.get_set _ _ _ _ _ _ (fun h => by rw [h])

@[simp] theorem State.reg_setReg_same (s : State) (o : Nat) (w : Word) : (s.setReg o w).reg o = w := by
  simp [State.reg_setReg]

theorem State.reg_setFld_other (s : State) (r : FieldRef) (v o : Nat) (h : r.off ≠ o) : (s.setFld r v).reg o = s.reg o := by
  simp [State.setFld, State.reg_setReg, h]

/-- A field reads back what was written, cut to its width. -/
theorem State.fld_setFld_same (s : State) (r : FieldRef) (v : Nat) (h : r.lsb + r.width ≤ 64) :
    (s.setFld r v).fld r = v % 2 ^ r.width := by
  unfold State.fld State.setFld
  rw [State.reg_setReg_same, BitVec.toNat_ofNat, Nat.mod_eq_of_lt (putBits_lt _ _ _ _ 64 (s.reg r.off).isLt h), bitsOf_putBits_same]

/-- A write leaves the fields of other registers alone. -/
theorem State.fld_setFld_off (s : State) (r r' : FieldRef) (v : Nat) (h : r.off ≠ r'.off) : (s.setFld r v).fld r' = s.fld r' := by
  unfold State.fld; rw [State.reg_setFld_other _ _ _ _ h]

/-- A write leaves the other fields of its register alone. -/
theorem State.fld_setFld_field (s : State) (r r' : FieldRef) (v : Nat) (hw : r.lsb + r.width ≤ 64)
    (h : r.lsb + r.width ≤ r'.lsb ∨ r'.lsb + r'.width ≤ r.lsb) : (s.setFld r v).fld r' = s.fld r' := by
  by_cases ho : r.off = r'.off
  · unfold State.fld State.setFld
    rw [← ho, State.reg_setReg_same, BitVec.toNat_ofNat, Nat.mod_eq_of_lt (putBits_lt _ _ _ _ 64 (s.reg r.off).isLt hw),
      bitsOf_putBits_other _ _ _ _ _ _ h]
  · exact State.fld_setFld_off _ _ _ _ ho

theorem State.fld_setReg_off (s : State) (o : Nat) (w : Word) (r : FieldRef) (h : o ≠ r.off) : (s.setReg o w).fld r = s.fld r := by
  unfold State.fld; rw [State.reg_setReg, if_neg h]

theorem State.fld_lt (s : State) (r : FieldRef) : s.fld r < 2 ^ r.width := bitsOf_lt _ _ _

/-- A counter rises by the amount, and stops at all ones. -/
theorem State.fld_count_same (s : State) (r : FieldRef) (n : Nat) (h : r.lsb + r.width ≤ 64) :
    (s.count r n).fld r = min (s.fld r + n) (2 ^ r.width - 1) := by
  have := Nat.two_pow_pos r.width
  unfold State.count
  rw [State.fld_setFld_same _ _ _ h, Nat.mod_eq_of_lt (by omega)]

theorem State.fld_count_off (s : State) (r r' : FieldRef) (n : Nat) (h : r.off ≠ r'.off) : (s.count r n).fld r' = s.fld r' :=
  State.fld_setFld_off _ _ _ _ h

theorem State.reg_count_other (s : State) (r : FieldRef) (n o : Nat) (h : r.off ≠ o) : (s.count r n).reg o = s.reg o :=
  State.reg_setFld_other _ _ _ _ h

theorem State.fld_count_field (s : State) (r r' : FieldRef) (n : Nat) (hw : r.lsb + r.width ≤ 64)
    (h : r.lsb + r.width ≤ r'.lsb ∨ r'.lsb + r'.width ≤ r.lsb) : (s.count r n).fld r' = s.fld r' :=
  State.fld_setFld_field _ _ _ _ hw h

theorem State.fld_keepMax_same (s : State) (r : FieldRef) (n : Nat) (h : r.lsb + r.width ≤ 64) (hn : n < 2 ^ r.width) :
    (s.keepMax r n).fld r = max (s.fld r) n := by
  have := s.fld_lt r
  unfold State.keepMax
  rw [State.fld_setFld_same _ _ _ h, Nat.mod_eq_of_lt (by omega)]

theorem State.fld_keepMax_off (s : State) (r r' : FieldRef) (n : Nat) (h : r.off ≠ r'.off) : (s.keepMax r n).fld r' = s.fld r' :=
  State.fld_setFld_off _ _ _ _ h

/-! Memory. -/

theorem State.byte_setByte (s : State) (a a' : Nat) (b : Byte) : (s.setByte a b).byte a' = if a = a' then b else s.byte a' :=
  Map.get_set _ _ _ _ _ _ (fun _ => rfl)

/-- Bytes outside a run of writes are unchanged. -/
theorem State.byte_setBytes_other (bs : List Byte) : ∀ (s : State) (a a' : Nat), (a' < a ∨ a + bs.length ≤ a') →
    (s.setBytes a bs).byte a' = s.byte a' := by
  induction bs with
  | nil => intros; rfl
  | cons b bs ih =>
    intro s a a' h
    simp only [List.length_cons] at h
    rw [State.setBytes, ih _ _ _ (by omega), State.byte_setByte, if_neg (by omega)]

/-- A run of writes reads back. -/
theorem State.byte_setBytes (bs : List Byte) : ∀ (s : State) (a i : Nat) (h : i < bs.length),
    (s.setBytes a bs).byte (a + i) = bs[i] := by
  induction bs with
  | nil => intro s a i h; simp at h
  | cons b bs ih =>
    intro s a i h
    cases i with
    | zero =>
      simp only [State.setBytes, Nat.add_zero, List.getElem_cons_zero]
      rw [State.byte_setBytes_other _ _ _ _ (by omega), State.byte_setByte, if_pos rfl]
    | succ i =>
      simp only [List.length_cons] at h
      rw [State.setBytes, show a + (i + 1) = a + 1 + i by omega, ih _ _ _ (by omega), List.getElem_cons_succ]

theorem State.bytes_setBytes (s : State) (a : Nat) (bs : List Byte) : (s.setBytes a bs).bytes a bs.length = bs := by
  unfold State.bytes
  apply List.ext_getElem (by simp)
  intro i h1 h2
  simp only [List.getElem_map, List.getElem_range]
  exact State.byte_setBytes _ _ _ _ h2

/-! Per-unit records. -/

theorem State.part_setPart (s : State) (p q : Nat) (x : Part) : (s.setPart p x).part q = if p = q then x else s.part q :=
  Map.get_set _ _ _ _ _ _ (fun _ => rfl)
@[simp] theorem State.part_setPart_same (s : State) (p : Nat) (x : Part) : (s.setPart p x).part p = x := by
  simp [State.part_setPart]
theorem State.part_updPart (s : State) (p q : Nat) (f : Part → Part) :
    (s.updPart p f).part q = if p = q then f (s.part p) else s.part q := State.part_setPart _ _ _ _
@[simp] theorem State.part_updPart_same (s : State) (p : Nat) (f : Part → Part) : (s.updPart p f).part p = f (s.part p) := by
  simp [State.part_updPart]
theorem State.part_updPart_other (s : State) (p q : Nat) (f : Part → Part) (h : q ≠ p) : (s.updPart p f).part q = s.part q := by
  simp [State.part_updPart, Ne.symm h]
theorem State.car_setCar (s : State) (c d : Nat) (x : Car) : (s.setCar c x).car d = if c = d then x else s.car d :=
  Map.get_set _ _ _ _ _ _ (fun _ => rfl)
@[simp] theorem State.car_setCar_same (s : State) (c : Nat) (x : Car) : (s.setCar c x).car c = x := by simp [State.car_setCar]
theorem State.car_updCar (s : State) (c d : Nat) (f : Car → Car) :
    (s.updCar c f).car d = if c = d then f (s.car c) else s.car d := State.car_setCar _ _ _ _
@[simp] theorem State.car_updCar_same (s : State) (c : Nat) (f : Car → Car) : (s.updCar c f).car c = f (s.car c) := by
  simp [State.car_updCar]
theorem State.bank_setBank (s : State) (k j : Nat) (x : Bank) : (s.setBank k x).bank j = if k = j then x else s.bank j :=
  Map.get_set _ _ _ _ _ _ (fun _ => rfl)
theorem State.entry_setEntry (s : State) (k j : Nat) (x : Entry) : (s.setEntry k x).entry j = if k = j then x else s.entry j :=
  Map.get_set _ _ _ _ _ _ (fun _ => rfl)
theorem State.flagAt_setFlag (s : State) (k j : Nat) (x : Flag) : (s.setFlag k x).flagAt j = if k = j then x else s.flagAt j :=
  Map.get_set _ _ _ _ _ _ (fun _ => rfl)
theorem State.queue_setQueue (s : State) (k j : Nat) (x : Queue) : (s.setQueue k x).queue j = if k = j then x else s.queue j :=
  Map.get_set _ _ _ _ _ _ (fun _ => rfl)
@[simp] theorem State.queue_setQueue_same (s : State) (k : Nat) (x : Queue) : (s.setQueue k x).queue k = x := by
  simp [State.queue_setQueue]
theorem State.wctx_setWctx (s : State) (p q : Nat) (x : Wgh) : (s.setWctx p x).wctx q = if p = q then x else s.wctx q :=
  Map.get_set _ _ _ _ _ _ (fun _ => rfl)
@[simp] theorem State.wctx_setWctx_same (s : State) (p : Nat) (x : Wgh) : (s.setWctx p x).wctx p = x := by
  simp [State.wctx_setWctx]
@[simp] theorem State.wctx_updWctx_same (s : State) (p : Nat) (f : Wgh → Wgh) : (s.updWctx p f).wctx p = f (s.wctx p) := by
  simp [State.updWctx]
theorem State.port_setPort (s : State) (i j : Nat) (x : Port) : (s.setPort i x).port j = if i = j then x else s.port j :=
  Map.get_set _ _ _ _ _ _ (fun _ => rfl)
theorem State.port_updPort (s : State) (i j : Nat) (f : Port → Port) :
    (s.updPort i f).port j = if i = j then f (s.port i) else s.port j := State.port_setPort _ _ _ _
@[simp] theorem State.port_updPort_same (s : State) (i : Nat) (f : Port → Port) : (s.updPort i f).port i = f (s.port i) := by
  simp [State.port_updPort]
theorem State.toll_setToll (s : State) (i j : Nat) (x : Toll) : (s.setToll i x).toll j = if i = j then x else s.toll j :=
  Map.get_set _ _ _ _ _ _ (fun _ => rfl)
@[simp] theorem State.toll_setToll_same (s : State) (i : Nat) (x : Toll) : (s.setToll i x).toll i = x := by
  simp [State.toll_setToll]
@[simp] theorem State.updDev_dev (s : State) (f : Dev → Dev) : (s.updDev f).dev = f s.dev := by rfl
@[simp] theorem State.updScout_scout (s : State) (f : Scout → Scout) : (s.updScout f).scout = f s.scout := by rfl
@[simp] theorem State.emit_out (s : State) (o : Out) : (s.emit o).out = s.out ++ [o] := by rfl

/-! The running execution. -/

@[simp] theorem State.exec_setExec_same (s : State) (p : Nat) (e : Exec) : (s.setExec p e).exec? p = some e := by
  simp [State.exec?, State.setExec]
theorem State.part_setExec_same (s : State) (p : Nat) (e : Exec) : (s.setExec p e).part p = { s.part p with exec := some e } := by
  simp [State.setExec]
theorem State.part_setExec_other (s : State) (p q : Nat) (e : Exec) (h : q ≠ p) : (s.setExec p e).part q = s.part q := by
  simp [State.setExec, State.part_updPart_other _ _ _ _ h]
theorem State.exec_setExec_other (s : State) (p q : Nat) (e : Exec) (h : q ≠ p) : (s.setExec p e).exec? q = s.exec? q := by
  simp [State.exec?, State.part_setExec_other _ _ _ _ h]
/-- `updExec` on a running execution is `setExec`. -/
theorem State.updExec_some {s : State} {p : Nat} {e : Exec} (f : Exec → Exec) (h : s.exec? p = some e) :
    s.updExec p f = s.setExec p (f e) := by simp [State.updExec, h]
@[simp] theorem State.exec_updExec_same (s : State) (p : Nat) (f : Exec → Exec) : (s.updExec p f).exec? p = (s.exec? p).map f := by
  unfold State.updExec
  cases h : s.exec? p with
  | none => simp [h]
  | some e => simp
theorem State.part_updExec_other (s : State) (p q : Nat) (f : Exec → Exec) (h : q ≠ p) : (s.updExec p f).part q = s.part q := by
  unfold State.updExec
  cases s.exec? p with
  | none => rfl
  | some e => exact State.part_setExec_other _ _ _ _ h

/-! Holds, events, waits and signals. -/

/-- The partition after a hold: only its holds change, and whether they merge (R129). -/
theorem State.part_hold (s : State) (p q src : Nat) (len : Option Nat) :
    (s.hold p src len).part q =
      if p = q then { s.part p with holds := holdList (s.part p).holds src len, merged := (s.part p).merged || s.held p } else s.part q := by
  have h : (s.hold p src len).part q = (s.updPart p (fun x =>
      { x with holds := holdList x.holds src len, merged := x.merged || !x.holds.isEmpty })).part q := by
    simp [State.hold]
  rw [h, State.part_updPart]
  simp [State.held]
theorem State.part_hold_other (s : State) (p q src : Nat) (len : Option Nat) (h : q ≠ p) : (s.hold p src len).part q = s.part q := by
  rw [State.part_hold, if_neg (Ne.symm h)]
theorem any_holdList (hs : List Hold) (src : Nat) (len : Option Nat) : (holdList hs src len).any (·.src = src) = true := by
  unfold holdList
  split
  · rename_i h
    simp only [List.any_eq_true, decide_eq_true_eq, List.mem_map] at h ⊢
    obtain ⟨x, hm, he⟩ := h
    refine ⟨_, ⟨x, hm, rfl⟩, ?_⟩
    rw [if_pos he]
    simp only [Bool.and_eq_true, decide_eq_true_eq] at he
    exact he.1
  · simp
/-- After a hold its source is in force. -/
theorem State.hasHold_hold (s : State) (p src : Nat) (len : Option Nat) : (s.hold p src len).hasHold p src = true := by
  unfold State.hasHold
  rw [State.part_hold, if_pos rfl]
  exact any_holdList _ _ _
/-- A hold leaves every running execution alone. -/
@[simp] theorem State.exec_hold (s : State) (p q src : Nat) (len : Option Nat) : (s.hold p src len).exec? q = s.exec? q := by
  unfold State.exec?
  rw [State.part_hold]
  split
  · rename_i h; subst h; rfl
  · rfl
@[simp] theorem State.exec_unhold (s : State) (p q src : Nat) : (s.unhold p src).exec? q = s.exec? q := by
  unfold State.unhold State.exec?
  rw [State.part_updPart]
  split
  · rename_i h; subst h; rfl
  · rfl
/-- A released source is in force no longer, but for cycles it has left (R129). -/
theorem State.hasHold_unhold (s : State) (p src : Nat) :
    (s.unhold p src).hasHold p src = (s.part p).holds.any (fun h => h.src = src && h.left.isSome) := by
  unfold State.hasHold State.unhold
  rw [State.part_updPart_same, List.any_filter]
  congr 1
  funext h
  by_cases hs : h.src = src <;> simp [hs]

/-- The waited-on flag falls by its quantum (R144); every other flag stays. -/
theorem State.flagAt_takeWait (s : State) (p c idx k : Nat) :
    (s.takeWait p c idx).flagAt k =
      if idx ≠ 0 ∧ s.flagKey p c idx = k then { s.flagAt k with count := (s.flagAt k).count - (s.flagAt k).quantum } else s.flagAt k := by
  unfold State.takeWait
  by_cases h : idx = 0
  · simp [h]
  · simp only [h, if_false, State.flagAt_setFlag]
    by_cases hk : s.flagKey p c idx = k
    · simp [hk, h]
    · simp [hk]

/-- A use of a class whose interval has passed only keeps its pace (R141). -/
theorem State.useAs_intime {s : State} {p cls u : Nat} {e : Exec} (hl : e.lateBy cls u (s.pace p - e.base) = 0) :
    s.useAs p e cls u = s.setExec p (e.using cls u (s.pace p - e.base)) := by
  unfold State.useAs
  simp only [hl, if_true]

/-- A signal that fits its flag joins the signals on the way, and changes nothing else (R141, R144, R145, R147). -/
theorem State.signal_fits {s : State} {p off unit c idx : Nat} {cs : List Nat} {e : Exec} (he : s.exec? p = some e) (hi : idx ≠ 0)
    (hq : (s.ownFlag e (s.flagKey p c idx)).quantum ≠ 0)
    (hn : (s.ownFlag e (s.flagKey p c idx)).count + e.signalsTo (s.flagKey p c idx) < 65535)
    (hl : e.lateBy (s.sigClass p idx cs) (flagUnit (s.flagKey p c idx / 4096)) (s.pace p - e.base) = 0) :
    s.signal p off unit c idx cs = s.setExec p (({ e with sigs := e.sigs ++
      [(s.flagKey p c idx, s.pace p + max 1 (e.lat (s.sigClass p idx cs)), s.sigClass p idx cs)] }).using
        (s.sigClass p idx cs) (flagUnit (s.flagKey p c idx / 4096)) (s.pace p - e.base)) := by
  unfold State.signal
  simp only [hi, if_false, he, hq]
  rw [if_neg (by omega)]
  exact State.useAs_intime hl
/-- A command without a signal signals nothing. -/
@[simp] theorem State.signal_zero (s : State) (p off unit c : Nat) (cs : List Nat) : s.signal p off unit c 0 cs = s := by
  simp [State.signal]

/-! Faults. -/

/-- A first fault is recorded: the order stops with its record (R150, R151). -/
theorem State.exec_raise_first {s : State} {p unit code off w3 : Nat} {e : Exec} (he : s.exec? p = some e) (hf : e.fault = none) :
    s.raise p unit code off w3 =
      ((if isPartFault code then s.count Csr.csgRisk_failures 1 else s).stopOrder p).updExec p (fun e' =>
        { e' with fault := some (faultRec p code unit e.seq (s.orderPace p) off w3), partFault := isPartFault code }) := by
  unfold State.raise
  simp only [he, hf]
/-- Without a running order a fault makes a record of sequence number 0 (R9). -/
theorem State.raise_none {s : State} {p unit code off w3 : Nat} (he : s.exec? p = none) :
    s.raise p unit code off w3 = s.raiseOutside p unit code w3 := by
  unfold State.raise; simp [he]

end Sys2Proof.Machine
end

