-- ==== Sys2Proof/Laws/Issue.lean ====
section
/-!
SUPPORT. Issue: what an offered command does when the conditions of R160 hold, and what the shared steps of every class change.
-/
namespace Sys2Proof.Machine

/-- An answer is a next state that keeps the queue. -/
@[simp] theorem answer_eq (s : State) (f : State → State) : answer s f = .next { f s with pending := s.pending } := by rfl

theorem Comp.same_refl (f : Comp) (s : State) : f.same s s := by cases f <;> rfl

/-- Frames compose. -/
theorem OnlyChanges.trans {fs gs : List Comp} {s t u : State} (h : OnlyChanges fs s t) (k : OnlyChanges gs t u)
    (hs : fs ⊆ gs) : OnlyChanges gs s u := by
  intro f hf
  have h1 := h f (fun hm => hf (hs hm))
  have h2 := k f hf
  cases f <;> exact Eq.trans h2 h1

/-- The command of a class takes its effect exactly from `took`. -/
theorem Cls.offer_takes {c : Cls} {s : State} {e : Exec} {p op : Nat} {h : Head} {w1 : Word}
    (H : c.Takes s e (e.ctx p op h w1)) :
    c.offer s p op h w1 = c.start (s.took (e.ctx p op h w1)) (e.ctx p op h w1) := by
  obtain ⟨h1, h2, h3, h4, h5, h6, h7, h8, h8', h9⟩ := H
  have hp : (e.ctx p op h w1).p = p := rfl
  rw [hp] at h1 h2
  simp only [Cls.offer, h2, if_true, h1, Cls.issue, h3]
  simp only [Cls.proceed, hp, h1]
  have h4' : s.waitFlag p ((s.scopeCars (e.ctx p op h w1)).headD (s.home p)) (e.ctx p op h w1).h.wait.toNat = .go := h4
  rw [h4']
  rw [hp] at h9 h5
  simp only [h5, h6, h7, h8, h8', h9, Bool.false_eq_true, if_false]
  rfl

/-- `took` changes the flag waited on and the running execution. -/
theorem State.took_other (s : State) (x : Ctx) (q : Nat) (h : q ≠ x.p) : (s.took x).part q = s.part q := by
  unfold State.took State.issueAt; rw [State.part_updExec_other _ _ _ _ h]; simp
theorem State.took_frame (s : State) (x : Ctx) : OnlyChanges [.flags, .parts] s (s.took x) := by
  intro f hf
  cases f <;> simp [State.took, State.issueAt, Comp.same] at hf ⊢
/-- A partition's caravans stay as they are under changes of its execution. -/
theorem State.caravans_updExec (s : State) (p q : Nat) (f : Exec → Exec) : (s.updExec p f).caravans q = s.caravans q := by
  unfold State.caravans
  by_cases h : q = p
  · subst h
    unfold State.updExec
    cases he : s.exec? q with
    | none => rfl
    | some e => simp [State.part_setExec_same]
  · rw [State.part_updExec_other _ _ _ _ h]
theorem State.caravans_took (s : State) (x : Ctx) (q : Nat) : (s.took x).caravans q = s.caravans q := by
  unfold State.took State.issueAt; rw [State.caravans_updExec]; simp
theorem State.home_took (s : State) (x : Ctx) (q : Nat) : (s.took x).home q = s.home q := by
  unfold State.home; rw [State.caravans_took]
theorem State.fld_took (s : State) (x : Ctx) (r : FieldRef) : (s.took x).fld r = s.fld r := by
  simp [State.took, State.issueAt]

/-- A selector means the same in two states with the same registers and caravan maps. -/
theorem State.scopeCars_congr {s t : State} (x : Ctx) (hc : t.csr = s.csr) (hm : ∀ q, t.caravans q = s.caravans q) :
    t.scopeCars x = s.scopeCars x := by
  have hr : ∀ o, t.reg o = s.reg o := fun o => by unfold State.reg; rw [hc]
  have hf : ∀ r, t.fld r = s.fld r := fun r => by unfold State.fld; rw [hr]
  have hn : ∀ q, t.named q = s.named q := fun q => by unfold State.named; simp only [hf]
  have hmap : ∀ q c, t.mapCar q c = s.mapCar q c := fun q c => by unfold State.mapCar; rw [hn, hm]
  have hmap' : t.mapCar x.p = s.mapCar x.p := funext (hmap x.p)
  unfold State.scopeCars
  rw [hmap', hn, hm]
@[simp] theorem State.scopeCars_took (s : State) (x y : Ctx) : (s.took x).scopeCars y = s.scopeCars y :=
  State.scopeCars_congr y (by simp [State.took, State.issueAt]) (fun q => State.caravans_took s x q)
/-- The marks of a command do not depend on the wait it has taken. -/
theorem State.marksOf_takeWait (s : State) (x : Ctx) (p c i : Nat) : (s.takeWait p c i).marksOf x = s.marksOf x := by
  unfold State.marksOf
  rw [State.scopeCars_congr (s := s) (t := s.takeWait p c i) x (by simp) (fun q => by simp)]
theorem State.exec_took {s : State} {x : Ctx} {e : Exec} (h : s.exec? x.p = some e) :
    (s.took x).exec? x.p = some (s.passed x e) := by
  simp [State.took, State.issueAt, State.passed, State.marksOf_takeWait, h]

/-- The signal of a command that completes at issue, when it fits (R144): it joins the signals on the way, nothing else
changes. -/
theorem State.doneAtIssue_fits {s : State} {x : Ctx} {e : Exec} (unit : Nat) (he : s.exec? x.p = some e) (hf : s.sigFits x e) :
    (s.doneAtIssue x unit).part x.p = { s.part x.p with exec := some (s.signalled x e) } ∧
    OnlyChanges [.parts] s (s.doneAtIssue x unit) ∧ OnlyPart x.p s (s.doneAtIssue x unit) := by
  by_cases h0 : x.h.signal = 0
  · have h1 : s.doneAtIssue x unit = s := by simp [State.doneAtIssue, h0]
    rw [h1]
    refine ⟨?_, fun f _ => Comp.same_refl f s, fun q _ => rfl⟩
    have he' : (s.part x.p).exec = some e := he
    simp [State.signalled, h0, ← he']
  · rcases hf with h | ⟨hq, hn, hl⟩
    · exact absurd h h0
    · have hne : x.h.signal.toNat ≠ 0 := fun h => h0 (BitVec.eq_of_toNat_eq (by simpa using h))
      have h1 : s.doneAtIssue x unit = s.setExec x.p (s.signalled x e) := by
        have h2 := State.signal_fits (off := x.off) (unit := unit) (cs := s.scopeCars x) he hne hq hn hl
        unfold State.doneAtIssue State.signalled State.sigOf
        rw [if_neg h0, if_neg h0]
        exact h2
      rw [h1]
      refine ⟨State.part_setExec_same _ _ _, ?_, fun q hq => State.part_setExec_other _ _ _ _ hq⟩
      intro f hf
      cases f <;> simp [Comp.same] at hf ⊢

end Sys2Proof.Machine
end

