-- ==== Sys2Proof/Laws/Alike.lean ====
section
/-!
SUPPORT. What a command reads of the state through its partition: the same in two states with the same registers, memory,
poison, spice tables and caravan maps.
-/
namespace Sys2Proof.Machine

/-- Two states a command reads alike. -/
structure State.Alike (s t : State) : Prop where
  csr : t.csr = s.csr
  mem : t.mem = s.mem
  poison : t.poison = s.poison
  spice : t.spice = s.spice
  cars : ∀ q, t.caravans q = s.caravans q

namespace State.Alike
variable {s t : State} (a : State.Alike s t)
include a

theorem reg (o : Nat) : t.reg o = s.reg o := by unfold State.reg; rw [a.csr]
theorem fld (r : FieldRef) : t.fld r = s.fld r := by unfold State.fld; rw [a.reg]
theorem flag1 (r : FieldRef) : t.flag1 r = s.flag1 r := by unfold State.flag1; rw [a.fld]
theorem byte (x : Nat) : t.byte x = s.byte x := by unfold State.byte; rw [a.mem]
theorem home (q : Nat) : t.home q = s.home q := by unfold State.home; rw [a.cars]
theorem homeStn (q : Nat) : t.homeStn q = s.homeStn q := by unfold State.homeStn; rw [a.home]
theorem pace (q : Nat) : t.pace q = s.pace q := by unfold State.pace; rw [a.fld]
theorem win (p i : Nat) : t.win p i = s.win p i := by unfold State.win; simp only [a.fld, a.flag1]
theorem winOf (p va : Nat) : t.winOf p va = s.winOf p va := by unfold State.winOf; simp only [a.win]
theorem vaPa (p va : Nat) : t.vaPa p va = s.vaPa p va := by unfold State.vaPa; rw [a.winOf]
theorem vaOf (p pa : Nat) : t.vaOf p pa = s.vaOf p pa := by unfold State.vaOf; simp only [a.win]
theorem staging (c : Nat) : t.staging c = s.staging c := by unfold State.staging; rw [a.fld]
theorem roleResolve (pa : Nat) : t.roleResolve pa = s.roleResolve pa := by unfold State.roleResolve; simp only [a.fld, a.staging]
theorem redirect (pa : Nat) : t.redirect pa = s.redirect pa := by unfold State.redirect; simp only [a.fld, a.flag1]
theorem resolve (g pa : Nat) : t.resolve g pa = s.resolve g pa := by unfold State.resolve; simp only [a.roleResolve, a.redirect]
theorem place (p g va : Nat) : t.place p g va = s.place p g va := by
  unfold State.place; rw [a.vaPa, show t.resolve g = s.resolve g from funext (a.resolve g)]
theorem vbyte (p g va : Nat) : t.vbyte p g va = s.vbyte p g va := by unfold State.vbyte; simp only [a.place, a.byte]
theorem vbytes (p g va n : Nat) : t.vbytes p g va n = s.vbytes p g va n := by unfold State.vbytes; simp only [a.vbyte]
theorem desc (p : Nat) (h : BitVec 1024) (i : Nat) : t.desc p h i = s.desc p h i := by
  unfold State.desc; rw [a.homeStn, a.vbytes]
theorem record (p : Nat) (h : BitVec 1024) (i : Nat) : t.record p h i = s.record p h i := by
  unfold State.record; rw [a.homeStn, a.vbytes]
theorem descBytes (x : Ctx) (i : Nat) : t.descBytes x i = s.descBytes x i := by
  unfold State.descBytes; rw [a.homeStn, a.vbytes]
theorem named (p : Nat) : t.named p = s.named p := by unfold State.named; simp only [a.fld]
theorem scopeCars (x : Ctx) : t.scopeCars x = s.scopeCars x := State.scopeCars_congr x a.csr a.cars
theorem scopeStns (x : Ctx) : t.scopeStns x = s.scopeStns x := by unfold State.scopeStns; rw [a.scopeCars]
theorem isAlias (p : Nat) (d : Desc) : t.isAlias p d = s.isAlias p d := by unfold State.isAlias; rw [a.vaPa]
theorem rowsOf (p : Nat) (g : List Nat) (d : Desc) : t.rowsOf p g d = s.rowsOf p g d := by
  unfold State.rowsOf; simp only [a.place]
theorem extentBytes (p g : Nat) (d : Desc) : t.extentBytes p g d = s.extentBytes p g d := by
  unfold State.extentBytes; simp only [a.vbytes]
theorem bytes (x n : Nat) : t.bytes x n = s.bytes x n := by unfold State.bytes; simp only [a.byte]
theorem qCar (x : Ctx) : t.qCar x = s.qCar x := by unfold State.qCar; rw [a.scopeCars]
theorem carUnit (x : Ctx) (b : Nat) : t.carUnit x b = s.carUnit x b := by unfold State.carUnit; rw [a.scopeCars]
theorem stnUnit (x : Ctx) (b : Nat) : t.stnUnit x b = s.stnUnit x b := by unfold State.stnUnit; rw [a.scopeStns]
theorem flagCar (x : Ctx) : t.flagCar x = s.flagCar x := by unfold State.flagCar; rw [a.scopeCars, a.home]
theorem flagKey (p c i : Nat) : t.flagKey p c i = s.flagKey p c i := by unfold State.flagKey; rw [a.home]
theorem sigClass (p i : Nat) (cs : List Nat) : t.sigClass p i cs = s.sigClass p i cs := by unfold State.sigClass; rw [a.home]
theorem poisoned (x n : Nat) : t.poisoned x n = s.poisoned x n := by unfold State.poisoned; rw [a.poison]
theorem poisonIn (p g va n : Nat) : t.poisonIn p g va n = s.poisonIn p g va n := by
  unfold State.poisonIn; simp only [a.poison, a.place, a.poisoned]
theorem spiceAt (g i : Nat) : t.spiceAt g i = s.spiceAt g i := by unfold State.spiceAt; rw [a.spice]
theorem sigOf (x : Ctx) (e : Exec) : t.sigOf x e = s.sigOf x e := by
  unfold State.sigOf; simp only [a.sigClass, a.flagKey, a.pace, a.flagCar, a.scopeCars]
theorem mBytes (x : Ctx) : t.mBytes x = s.mBytes x := by unfold State.mBytes; simp only [a.descBytes]
theorem mRows (x : Ctx) (m : MDescs) : t.mRows x m = s.mRows x m := by unfold State.mRows; rw [a.scopeStns, a.isAlias]
theorem mortarClass (x : Ctx) : t.mortarClass x = s.mortarClass x := by
  unfold State.mortarClass; simp only [a.scopeStns, a.spiceAt]
theorem elemRaw (p g : Nat) (d : Desc) (code j c : Nat) : t.elemRaw p g d code j c = s.elemRaw p g d code j c := by
  unfold State.elemRaw; simp only [a.vbytes]
theorem elemVal (p g : Nat) (d : Desc) (code j c : Nat) : t.elemVal p g d code j c = s.elemVal p g d code j c := by
  unfold State.elemVal; rw [a.elemRaw]

end State.Alike

/-- The state a command's own effect starts from is read as the state it was offered in. -/
theorem State.took_alike (s : State) (x : Ctx) : State.Alike s (s.took x) :=
  ⟨by simp [State.took, State.issueAt], by simp [State.took, State.issueAt], by simp [State.took, State.issueAt],
    by simp [State.took, State.issueAt], State.caravans_took s x⟩

end Sys2Proof.Machine
end

