-- ==== Sys2Proof/Laws/Issued.lean ====
section
/-!
SUPPORT. The frame of a command that touches its partition's execution and the flag it waited on: with an update of the
execution, and with the signal of a command that completes at issue.
-/
namespace Sys2Proof.Machine

theorem OnlyChanges.widen {fs gs : List Comp} {s t : State} (h : OnlyChanges fs s t) (hs : fs ⊆ gs) : OnlyChanges gs s t :=
  fun f hf => h f (fun hm => hf (hs hm))

/-- The flag waited on has fallen in the state a command's effect starts from. -/
theorem State.flagAt_took (s : State) (x : Ctx) (k : Nat) : (s.took x).flagAt k = s.afterWait x k := by
  unfold State.took State.issueAt State.afterWait
  rw [State.updExec_flagAt_acc, State.flagAt_takeWait]
  by_cases h : x.h.wait = 0
  · simp [h]
  · have : x.h.wait.toNat ≠ 0 := fun h' => h (BitVec.eq_of_toNat_eq (by simpa using h'))
    simp only [h, this, ne_eq, not_false_eq_true, true_and, eq_comm (a := k)]

theorem State.part_took {s : State} {x : Ctx} {e : Exec} (h : s.exec? x.p = some e) :
    (s.took x).part x.p = { s.part x.p with exec := some (s.passed x e) } := by
  unfold State.took State.issueAt
  rw [State.updExec_some (e := e) _ (by simpa using h)]
  rw [State.part_setExec_same]; simp [State.passed, State.marksOf_takeWait]

theorem State.Alike.updExec (s : State) (p : Nat) (f : Exec → Exec) : State.Alike s (s.updExec p f) :=
  ⟨by simp, by simp, by simp, by simp, fun q => State.caravans_updExec s p q f⟩

theorem State.Alike.trans {s t u : State} (a : State.Alike s t) (b : State.Alike t u) : State.Alike s u :=
  ⟨b.csr.trans a.csr, b.mem.trans a.mem, b.poison.trans a.poison, b.spice.trans a.spice, fun q => (b.cars q).trans (a.cars q)⟩

/-- The fields of an execution that a signal reads. -/
def Exec.SigAlike (e e' : Exec) : Prop :=
  e'.sigs = e.sigs ∧ e'.timing = e.timing ∧ e'.base = e.base ∧ e'.lastUse = e.lastUse ∧ e'.kept = e.kept

theorem State.sigOf_congr {s : State} {x : Ctx} {e e' : Exec} (h : e'.timing = e.timing) : s.sigOf x e' = s.sigOf x e := by
  unfold State.sigOf Exec.lat Exec.timeOf; rw [h]

namespace State.Alike
variable {s t : State} (a : State.Alike s t)
include a

theorem sigKey (x : Ctx) : t.sigKey x = s.sigKey x := by unfold State.sigKey; rw [a.flagKey, a.flagCar]
theorem sigCls (x : Ctx) : t.sigCls x = s.sigCls x := by unfold State.sigCls; rw [a.sigClass, a.scopeCars]
theorem sigUnit (x : Ctx) : t.sigUnit x = s.sigUnit x := by unfold State.sigUnit; rw [a.sigKey]
theorem signalled (x : Ctx) (e : Exec) : t.signalled x e = s.signalled x e := by
  unfold State.signalled; simp only [a.sigOf, a.sigCls, a.sigUnit, a.pace]

end State.Alike

/-- What a signal needs, read in a state that has the same flags. -/
theorem State.sigFits_congr {s t : State} {x : Ctx} {e e' : Exec} (a : State.Alike s t) (hk : ∀ k, t.flagAt k = s.flagAt k)
    (he : e.SigAlike e') (hf : s.sigFits x e) : t.sigFits x e' := by
  obtain ⟨h1, h2, h3, h4, h5⟩ := he
  unfold State.sigFits State.ownFlag Exec.signalsTo Exec.lateBy Exec.timeOf at hf ⊢
  simpa only [a.sigKey, a.sigCls, a.sigUnit, a.pace, hk, h1, h2, h3, h4, h5] using hf

/-- A command whose effect is an update of its partition's execution. -/
theorem State.issued_upd {s : State} {x : Ctx} {e : Exec} (h : s.exec? x.p = some e) (f : Exec → Exec) :
    s.Issued ((s.took x).updExec x.p f) x (f (s.passed x e)) := by
  have h' := State.exec_took h
  refine ⟨?_, ?_, ?_, ?_⟩
  · rw [State.updExec_some _ h', State.part_setExec_same, State.part_took h]
  · intro q hq; rw [State.part_updExec_other _ _ _ _ hq, State.took_other _ _ _ hq]
  · intro k; rw [State.updExec_flagAt_acc, State.flagAt_took]
  · intro f hf
    have := State.took_frame s x f (by simp at hf ⊢; tauto)
    cases f <;> simp [Comp.same] at hf this ⊢ <;> assumption

/-- The signal of a command that completes at issue joins the frame. -/
theorem State.Issued.done {s t : State} {x : Ctx} {e e' : Exec} (unit : Nat) (he : s.exec? x.p = some e) (h : s.Issued t x e')
    (a : State.Alike s t) (hs : (s.passed x e).SigAlike e') (hf : (s.took x).sigFits x (s.passed x e)) :
    s.Issued (t.doneAtIssue x unit) x (s.signalled x e') := by
  obtain ⟨i1, i2, i3, i4⟩ := h
  have hx : t.exec? x.p = some e' := by unfold State.exec?; rw [i1]
  have b : State.Alike (s.took x) t := ⟨a.csr.trans (s.took_alike x).csr.symm, a.mem.trans (s.took_alike x).mem.symm,
    a.poison.trans (s.took_alike x).poison.symm, a.spice.trans (s.took_alike x).spice.symm,
    fun q => (a.cars q).trans ((s.took_alike x).cars q).symm⟩
  have hfit : t.sigFits x e' := State.sigFits_congr b (fun k => by rw [i3, State.flagAt_took]) hs hf
  obtain ⟨d1, d2, d3⟩ := State.doneAtIssue_fits unit hx hfit
  refine ⟨?_, ?_, ?_, ?_⟩
  · rw [d1, i1, a.signalled]
  · intro q hq; rw [d3 q hq, i2 q hq]
  · intro k
    rw [← i3 k]
    have := d2 .flags (by simp)
    simp only [Comp.same] at this
    unfold State.flagAt; rw [this]
  · exact i4.trans (d2.widen (by simp)) (fun _ h => h)

/-- A command with no effect of its own beyond its wait. -/
theorem State.issued_took {s : State} {x : Ctx} {e : Exec} (h : s.exec? x.p = some e) :
    s.Issued (s.took x) x (s.passed x e) := by
  refine ⟨State.part_took h, fun q hq => State.took_other _ _ _ hq, State.flagAt_took s x, ?_⟩
  exact (State.took_frame s x).widen (by simp)

/-- The frame holds of the answer, which puts the queue back. -/
theorem State.Issued.answered {s t : State} {x : Ctx} {e : Exec} (h : s.Issued t x e) : s.Issued { t with pending := s.pending } x e := by
  obtain ⟨a, b, c, d⟩ := h
  refine ⟨a, b, c, ?_⟩
  intro f hf
  cases f <;> first | rfl | exact d _ hf

end Sys2Proof.Machine
end

