-- ==== Sys2Proof/Laws/Mesh.lean ====
section
/-!
SUPPORT. The mesh without a fault joins every router to every memory (R230, R243).
-/
namespace Sys2Proof.Machine

/-- No router and no mesh link has failed, and every Pass channel is open. -/
def State.meshWhole (s : State) : Bool :=
  (List.range 2).all (fun h => s.fld (Csr.mshFault_failedRouters h) = 0 && s.fld (Csr.mshLinkfault_hLinks h) = 0 &&
    s.fld (Csr.mshLinkfault_vLinks h) = 0) && (List.range 16).all s.chanOpen

theorem bitOf_zero (n : Nat) : bitOf 0 n = false := by simp [bitOf, bitsOf]

theorem halves_hvPath {h r c r' c' : Nat} {x : Rtr} (hx : x ∈ hvPath h r c r' c') : x.half = h := by
  simp only [hvPath, List.mem_append, List.mem_map] at hx
  obtain ⟨_, _, rfl⟩ | ⟨_, _, rfl⟩ := hx <;> rfl
theorem halves_vhPath {h r c r' c' : Nat} {x : Rtr} (hx : x ∈ vhPath h r c r' c') : x.half = h := by
  simp only [vhPath, List.mem_append, List.mem_map] at hx
  obtain ⟨_, _, rfl⟩ | ⟨_, _, rfl⟩ := hx <;> rfl

theorem halves_primaryPath {a b : Rtr} {col : Nat} {x : Rtr} (hx : x ∈ primaryPath a b col) : x.half = a.half ∨ x.half = b.half := by
  unfold primaryPath at hx
  split at hx
  · exact .inl (halves_hvPath hx)
  · obtain h | h := List.mem_append.mp hx
    · exact .inl (halves_hvPath h)
    · exact .inr (halves_vhPath h)
theorem halves_verticalPath {a b : Rtr} {col : Nat} {x : Rtr} (hx : x ∈ verticalPath a b col) : x.half = a.half ∨ x.half = b.half := by
  unfold verticalPath at hx
  split at hx
  · exact .inl (halves_vhPath hx)
  · obtain h | h := List.mem_append.mp hx
    · exact .inl (halves_vhPath h)
    · exact .inr (halves_hvPath h)

/-- A path between routers of the two halves avoids every fault when there is none. -/
theorem pathOk_of_whole {s : State} (hs : s.meshWhole = true) {p : List Rtr} (hp : ∀ x ∈ p, x.half < 2) : s.pathOk p = true := by
  simp only [State.meshWhole, Bool.and_eq_true, List.all_eq_true, List.mem_range, decide_eq_true_eq] at hs
  simp only [State.pathOk, Bool.and_eq_true, List.all_eq_true, Bool.not_eq_true']
  refine ⟨fun x hx => by rw [(hs.1 _ (hp x hx)).1.1, bitOf_zero], fun x hx => ?_⟩
  have h := hs.1 _ (hp _ (List.of_mem_zip hx).1)
  simp [State.linkFailed, h.1.2, h.2, bitOf_zero]

/-- A packet finds a channel of its column when all are open. -/
theorem pickChan_of_whole {s : State} (hs : s.meshWhole = true) (src plane : Nat) {col : Nat} (hc : col < 8) :
    (s.pickChan src plane col).isSome = true := by
  simp only [State.meshWhole, Bool.and_eq_true, List.all_eq_true, List.mem_range] at hs
  have hn : 0 < (chansOf col).length ∧ ∀ c ∈ chansOf col, c < 16 := by revert hc; revert col; decide
  have hm := Nat.mod_lt ((src + plane) % (chansOf col).length + 0) hn.1
  have own : ((List.range (chansOf col).length).findSome? (fun j =>
      ((chansOf col)[((src + plane) % (chansOf col).length + j) % (chansOf col).length]?).filter s.chanOpen)).isSome = true := by
    rw [List.isSome_findSome?, List.any_eq_true]
    refine ⟨0, List.mem_range.mpr hn.1, ?_⟩
    rw [List.getElem?_eq_getElem hm]
    simpa [Option.filter] using hs.2 _ (hn.2 _ (List.getElem_mem hm))
  obtain ⟨c, h⟩ := Option.isSome_iff_exists.mp own
  simp only [State.pickChan, h]
  rfl

/-- Without a fault every pair of routers is served. -/
theorem route_ok_of_whole {s : State} (hs : s.meshWhole = true) {a b : Rtr} (ha : a.half < 2) (hb : b.half < 2) (hc : b.col < 8)
    (plane : Nat) : (s.route a b plane).ok = true := by
  have hp (col : Nat) : s.pathOk (primaryPath a b col) = true :=
    pathOk_of_whole hs (fun x hx => by obtain h | h := halves_primaryPath hx <;> omega)
  have hv (col : Nat) : s.pathOk (verticalPath a b col) = true :=
    pathOk_of_whole hs (fun x hx => by obtain h | h := halves_verticalPath hx <;> omega)
  have hk := pickChan_of_whole hs a.inst plane hc
  unfold State.route
  simp only [hp, hv]
  by_cases h : a.half = b.half
  · simp [h, Route.ok]
  · rw [if_neg h]
    cases hq : s.pickChan a.inst plane b.col with
    | none => simp [hq] at hk
    | some c => simp only [Option.isNone_some, Bool.and_false, Bool.false_eq_true, if_false]; split <;> rfl

theorem memRtrs_bounds : ∀ r ∈ memRtrs, r.half < 2 ∧ r.col < 8 := by decide +kernel

/-- Without a fault no memory is cut off from a router (R243). -/
theorem joined_of_whole {s : State} (hs : s.meshWhole = true) {a : Rtr} (ha : a.half < 2) (hc : a.col < 8) : s.Joined a :=
  fun r hr _ pl _ => ⟨route_ok_of_whole hs ha (memRtrs_bounds r hr).1 (memRtrs_bounds r hr).2 pl,
    route_ok_of_whole hs (memRtrs_bounds r hr).1 ha hc pl⟩

end Sys2Proof.Machine
end

