-- ==== Sys2Proof/Laws/Wf.lean ====
section
/-!
SUPPORT. The canonical form of the sparse maps: every memory operation keeps the memory's, every named operation keeps the
state's, and both have it at reset.
-/
namespace Sys2Proof.Machine

theorem Map.wf_set_const {α : Type} [DecidableEq α] (d : α) (m : Map α) (k : Nat) (v : α) (h : Map.wf (fun _ => d) m = true) :
    Map.wf (fun _ => d) (Map.set d m k v) = true := Map.wf_set (fun _ => d) m k v h

theorem foldl_keeps {α : Type} {P : State → Prop} (f : State → α → State) (hf : ∀ s a, P s → P (f s a)) :
    ∀ (l : List α) (s : State), P s → P (l.foldl f s)
  | [], _, h => h
  | a :: l, s, h => foldl_keeps f hf l (f s a) (hf s a h)

/-! Memory. -/

theorem Memory.wf_reset : Memory.wf State.reset = true := rfl

theorem Memory.wf_congr {s t : State} (h : t.mem = s.mem) (hs : Memory.wf s = true) : Memory.wf t = true := by
  rw [Memory.wf, h]; exact hs

theorem Memory.wf_setByte {s : State} (h : Memory.wf s = true) (a : Nat) (b : Byte) : Memory.wf (s.setByte a b) = true :=
  Map.wf_set_const 0 s.mem a b h

theorem Memory.wf_setBytes : ∀ (bs : List Byte) {s : State}, Memory.wf s = true → ∀ a, Memory.wf (s.setBytes a bs) = true
  | [], _, h, _ => h
  | b :: bs, _, h, a => Memory.wf_setBytes bs (Memory.wf_setByte h a b) (a + 1)

theorem Memory.wf_zeroRange {s : State} (h : Memory.wf s = true) (base size : Nat) : Memory.wf (s.zeroRange base size) = true :=
  Map.wf_filter _ _ _ h

theorem Memory.wf_setVbyte {s : State} (h : Memory.wf s = true) (p g va : Nat) (b : Byte) : Memory.wf (s.setVbyte p g va b) = true := by
  unfold State.setVbyte
  split
  · exact Memory.wf_setByte h _ b
  · exact h

theorem Memory.wf_setVbytes : ∀ (bs : List Byte) {s : State}, Memory.wf s = true → ∀ p g va, Memory.wf (s.setVbytes p g va bs) = true
  | [], _, h, _, _, _ => h
  | b :: bs, _, h, p, g, va => Memory.wf_setVbytes bs (Memory.wf_setVbyte h p g va b) p g (va + 1)

theorem Memory.wf_setExtent {s : State} (h : Memory.wf s = true) (p g : Nat) (d : Desc) (bs : List Byte) :
    Memory.wf (s.setExtent p g d bs) = true := by
  unfold State.setExtent
  exact foldl_keeps (P := fun s => Memory.wf s = true) _ (fun _ _ hs => Memory.wf_setVbytes _ hs _ _ _) _ s h

theorem Memory.wf_copyPa {s : State} (h : Memory.wf s = true) (src dst n : Nat) : Memory.wf (s.copyPa src dst n) = true := by
  unfold State.copyPa
  exact foldl_keeps (P := fun s => Memory.wf s = true) _ (fun _ _ hs => Memory.wf_setByte hs _ _) _ s h

theorem Memory.wf_scramble {s : State} (h : Memory.wf s = true) (a n : Nat) : Memory.wf (s.scramble a n) = true :=
  Memory.wf_congr (s := s.setBytes a _) rfl (Memory.wf_setBytes _ h a)

theorem Memory.wf_invalidateStaging {s : State} (h : Memory.wf s = true) (c : Nat) : Memory.wf (s.invalidateStaging c) = true :=
  Memory.wf_zeroRange (Memory.wf_zeroRange h _ _) _ _

theorem Memory.wf_setPlane : ∀ (bs : List Byte) {s : State}, Memory.wf s = true → ∀ p va dir, Memory.wf (s.setPlane p va dir bs) = true
  | [], _, h, _, _, _ => h
  | b :: bs, s, h, p, va, dir => by
    unfold State.setPlane
    apply Memory.wf_setPlane bs
    split
    · exact Memory.wf_setByte h _ b
    · exact h

/-! The state. -/

theorem State.wf_reset : State.reset.wf = true := rfl

/-- The state's canonical form holds the memory's. -/
theorem State.wf_mem {s : State} (h : s.wf = true) : Memory.wf s = true := by
  simp only [State.wf, Bool.and_eq_true] at h
  exact h.1.1.1.1.1.1.1.1.1.1.2

/-- What is not in a sparse map does not matter to the canonical form. -/
theorem State.wf_congr {s t : State} (h : s.wf = true) (h1 : t.csr = s.csr) (h2 : t.mem = s.mem) (h3 : t.tally = s.tally)
    (h4 : t.banks = s.banks) (h5 : t.flags = s.flags) (h6 : t.queues = s.queues) (h7 : t.parts = s.parts) (h8 : t.cars = s.cars)
    (h9 : t.wgh = s.wgh) (h10 : t.ports = s.ports) (h11 : t.tolls = s.tolls) (h12 : t.spice = s.spice) : t.wf = true := by
  rw [State.wf, h1, h2, h3, h4, h5, h6, h7, h8, h9, h10, h11, h12]; exact h

theorem State.wf_setReg {s : State} (h : s.wf = true) (o : Nat) (x : Word) : (s.setReg o x).wf = true := by
  simp only [State.wf, Bool.and_eq_true, State.setReg] at h ⊢
  simp only [h, Map.wf_set, and_self]
theorem State.wf_setFld {s : State} (h : s.wf = true) (r : FieldRef) (v : Nat) : (s.setFld r v).wf = true := State.wf_setReg h _ _
theorem State.wf_count {s : State} (h : s.wf = true) (r : FieldRef) (n : Nat) : (s.count r n).wf = true := State.wf_setFld h _ _
theorem State.wf_keepMax {s : State} (h : s.wf = true) (r : FieldRef) (n : Nat) : (s.keepMax r n).wf = true := State.wf_setFld h _ _
theorem State.wf_setByte {s : State} (h : s.wf = true) (a : Nat) (b : Byte) : (s.setByte a b).wf = true := by
  simp only [State.wf, Bool.and_eq_true, State.setByte] at h ⊢
  simp only [h, Map.wf_set_const, and_self]
theorem State.wf_setBytes : ∀ (bs : List Byte) {s : State}, s.wf = true → ∀ a, (s.setBytes a bs).wf = true
  | [], _, h, _ => h
  | b :: bs, _, h, a => State.wf_setBytes bs (State.wf_setByte h a b) (a + 1)
theorem State.wf_zeroRange {s : State} (h : s.wf = true) (base size : Nat) : (s.zeroRange base size).wf = true := by
  simp only [State.wf, Bool.and_eq_true, State.zeroRange] at h ⊢
  simp only [h, Map.wf_filter, and_self]
theorem State.wf_setPart {s : State} (h : s.wf = true) (p : Nat) (x : Part) : (s.setPart p x).wf = true := by
  simp only [State.wf, Bool.and_eq_true, State.setPart] at h ⊢
  simp only [h, Map.wf_set_const, and_self]
theorem State.wf_updPart {s : State} (h : s.wf = true) (p : Nat) (f : Part → Part) : (s.updPart p f).wf = true := State.wf_setPart h _ _
theorem State.wf_setCar {s : State} (h : s.wf = true) (c : Nat) (x : Car) : (s.setCar c x).wf = true := by
  simp only [State.wf, Bool.and_eq_true, State.setCar] at h ⊢
  simp only [h, Map.wf_set_const, and_self]
theorem State.wf_updCar {s : State} (h : s.wf = true) (c : Nat) (f : Car → Car) : (s.updCar c f).wf = true := State.wf_setCar h _ _
theorem State.wf_setBank {s : State} (h : s.wf = true) (k : Nat) (x : Bank) : (s.setBank k x).wf = true := by
  simp only [State.wf, Bool.and_eq_true, State.setBank] at h ⊢
  simp only [h, Map.wf_set_const, and_self]
theorem State.wf_setEntry {s : State} (h : s.wf = true) (k : Nat) (x : Entry) : (s.setEntry k x).wf = true := by
  simp only [State.wf, Bool.and_eq_true, State.setEntry] at h ⊢
  simp only [h, Map.wf_set_const, and_self]
theorem State.wf_setFlag {s : State} (h : s.wf = true) (k : Nat) (x : Flag) : (s.setFlag k x).wf = true := by
  simp only [State.wf, Bool.and_eq_true, State.setFlag] at h ⊢
  simp only [h, Map.wf_set_const, and_self]
theorem State.wf_setQueue {s : State} (h : s.wf = true) (k : Nat) (x : Queue) : (s.setQueue k x).wf = true := by
  simp only [State.wf, Bool.and_eq_true, State.setQueue] at h ⊢
  simp only [h, Map.wf_set_const, and_self]
theorem State.wf_setWctx {s : State} (h : s.wf = true) (p : Nat) (x : Wgh) : (s.setWctx p x).wf = true := by
  simp only [State.wf, Bool.and_eq_true, State.setWctx] at h ⊢
  simp only [h, Map.wf_set_const, and_self]
theorem State.wf_updWctx {s : State} (h : s.wf = true) (p : Nat) (f : Wgh → Wgh) : (s.updWctx p f).wf = true := State.wf_setWctx h _ _
theorem State.wf_setPort {s : State} (h : s.wf = true) (i : Nat) (x : Port) : (s.setPort i x).wf = true := by
  simp only [State.wf, Bool.and_eq_true, State.setPort] at h ⊢
  simp only [h, Map.wf_set_const, and_self]
theorem State.wf_updPort {s : State} (h : s.wf = true) (i : Nat) (f : Port → Port) : (s.updPort i f).wf = true := State.wf_setPort h _ _
theorem State.wf_setToll {s : State} (h : s.wf = true) (i : Nat) (x : Toll) : (s.setToll i x).wf = true := by
  simp only [State.wf, Bool.and_eq_true, State.setToll] at h ⊢
  simp only [h, Map.wf_set_const, and_self]
theorem State.wf_updDev {s : State} (h : s.wf = true) (f : Dev → Dev) : (s.updDev f).wf = true := h
theorem State.wf_updScout {s : State} (h : s.wf = true) (f : Scout → Scout) : (s.updScout f).wf = true := h
theorem State.wf_emit {s : State} (h : s.wf = true) (o : Out) : (s.emit o).wf = true := h
theorem State.wf_draw {s : State} (h : s.wf = true) : s.draw.2.wf = true := h
theorem State.wf_setExec {s : State} (h : s.wf = true) (p : Nat) (e : Exec) : (s.setExec p e).wf = true := State.wf_updPart h _ _
theorem State.wf_updExec {s : State} (h : s.wf = true) (p : Nat) (f : Exec → Exec) : (s.updExec p f).wf = true := by
  unfold State.updExec
  split
  · exact State.wf_setExec h _ _
  · exact h
theorem State.wf_hold {s : State} (h : s.wf = true) (p src : Nat) (len : Option Nat) : (s.hold p src len).wf = true :=
  State.wf_keepMax (State.wf_draw (State.wf_count (State.wf_setFld (State.wf_updPart h _ _) _ _) _ _)) _ _
theorem State.wf_unhold {s : State} (h : s.wf = true) (p src : Nat) : (s.unhold p src).wf = true := State.wf_updPart h _ _
theorem State.wf_event {s : State} (h : s.wf = true) (p type unit detail : Nat) : (s.event p type unit detail).wf = true := by
  unfold State.event
  dsimp only
  split
  · exact State.wf_emit (State.wf_emit (State.wf_updPart h _ _) _) _
  · exact State.wf_count h _ _

end Sys2Proof.Machine
end

