-- ==== Sys2Proof/Tests/Slice0.lean ====
section
/-!
SUPPORT. Small tests: a term each check of `Instr.wf` refuses, command words written out bit by bit, single steps with results
worked by hand from the spec, and for each statement of Obligations.lean states that meet its hypotheses. The builders make
one partition of caravan 0 with an order at stream offset 0.
-/
namespace Sys2Proof.Tests
open Sys2Proof Sys2Proof.Machine
set_option Elab.async false

/-! Builders. -/

/-- Bytes at an address. -/
def bytesAt (a : Nat) (bs : List Byte) : Map Byte := (bs.zipIdx.map (fun (b, i) => (a + i, b))).filter (·.2 ≠ 0)
/-- A descriptor of `rows` rows of `n` bytes at `base` (R206). -/
def descOf (base rows n : Nat) : List Byte :=
  leBytes 8 base ++ leBytes 8 0 ++ leBytes 4 rows ++ leBytes 4 n ++ leBytes 8 n ++ leBytes 4 1 ++ List.replicate 28 0
/-- Words of a window: valid, readable, writable (R201). -/
def winVa (vbase pages : Nat) : Word := BitVec.ofNat 64 (7 + vbase + pages * 2 ^ 48)
/-- The header of an order: stream at 0 of 4 KiB, tables of 64 descriptors and 64 records in the depot (R442). -/
def hdr0 : BitVec 1024 := BitVec.ofNat 1024 (0x1000 * 2 ^ 64 + 2 ^ 112 + 0x10800000 * 2 ^ 128 + 64 * 2 ^ 192 + 64 * 2 ^ 208 + 0x10900000 * 2 ^ 256)
/-- The classes of R139 as a binary may assume them. -/
def times : List TimeEnt :=
  [⟨0x01, 7, 1⟩, ⟨0x02, 4, 1⟩, ⟨0x03, 32, 32⟩, ⟨0x04, 4, 96⟩, ⟨0x10, 3, 1⟩, ⟨0x11, 9, 1⟩, ⟨0x12, 9, 1⟩, ⟨0x13, 8, 1⟩, ⟨0x14, 12, 4⟩,
   ⟨0x15, 6, 1⟩, ⟨0x20, 5, 1⟩, ⟨0x30, 1, 1⟩, ⟨0x31, 16, 1⟩, ⟨0x32, 28, 1⟩, ⟨0x33, 2, 1⟩, ⟨0x40, 80, 64⟩, ⟨0x41, 600, 1⟩, ⟨0x42, 2, 1⟩,
   ⟨0x43, 12, 1⟩, ⟨0xF0, 14, 0⟩, ⟨0xF1, 24, 0⟩]
/-- An order at its first command. -/
def ex0 : Exec :=
  { seq := 1, base := 0, hdr := hdr0, issuePace := 0, off := 0, ended := false, endOff := none, waiting := none, cmds := [],
    region := none, committed := false, outcome := 0, pending := false, voteOff := none, direct := none, upds := [], sent := [],
    sticky := 0, loss := none, timing := times, clip := 0, step := 0, seed := 0, sigs := [], coupledWait := false, fault := none,
    partFault := false, cancelled := false, execs := 1, normNew := none, dests := [], lastUse := [], marks := [], tagAfter := none, saveBad := [], kept := none, keptQ := none }
/-- Partition 0 of caravan 0, function 0 and 1 GiB of HBM; windows 0 to 2 onto HBM, the depot and the satchel alias. -/
def base : State :=
  { State.reset with
    csr := [(Csr.prtWinVa 0 0, winVa 0 2), (Csr.prtWinVa 0 1, winVa 0x10000000 32),
            (Csr.prtWinPa 0 1, BitVec.ofNat 64 (depotBase 0)), (Csr.prtWinVa 0 2, winVa 0x20000000 8),
            (Csr.prtWinPa 0 2, BitVec.ofNat 64 aliasBase), (Csr.prtGrant 0, 0x0000000001000001)]
    parts := [(0, { Machine.Part.none with cmap := [0], hbm := [(0, gib)] })]
    dev := { Dev.por with started := true, hostUpA := true, halfOnW := true, halfOnE := true, journalAtW := 47 * gib, journalAtE := 8 * (48 * gib) } }
/-- The same with an order in execution, registers and memory. -/
def run (e : Exec) (regs : List (Nat × Word)) (m : Map Byte) : State :=
  { base with csr := regs ++ base.csr, mem := m, parts := [(0, { Machine.Part.none with cmap := [0], hbm := [(0, gib)], exec := some e })] }
/-- Word 0's fields with a selector and nothing else. -/
def sel (n : Nat) : Head := ⟨0, 0, 0, 0, false, false, 0, 0, BitVec.ofNat 16 n⟩
/-- The conditions of `Cls.Takes`, as a check. -/
def takesB (c : Cls) (s : State) (e : Exec) (x : Ctx) : Bool :=
  decide (s.exec? x.p = some e) && s.issuable x.p && decide (c.verdict s x e = none) &&
  decide (s.waitFlag x.p (s.flagCar x) x.h.wait.toNat = .go) && !((c.units s x).any (fun u => 2 ≤ s.occupants x.p e u)) &&
  decide (c.ready s x = none) && !(c.wait s x) && !(c.inFlight s x e) && decide (c.late s x = none) &&
  decide (s.poisonCheck x.p (c.unit s x) x.off (s.tableReads x) = none)
theorem takes {c : Cls} {s : State} {e : Exec} {x : Ctx} (h : takesB c s e x = true) : c.Takes s e x := by
  simp only [takesB, Bool.and_eq_true, Bool.not_eq_true', decide_eq_true_eq] at h
  obtain ⟨⟨⟨⟨⟨⟨⟨⟨⟨h0, h1⟩, h2⟩, h3⟩, h4⟩, h5⟩, h6⟩, h7⟩, h8⟩, h9⟩ := h
  exact ⟨h0, h1, h2, h3, h4, h5, h6, h7, h8, h9⟩
/-- Word 1 with fields at bit places. -/
def w (fs : List (Nat × Nat)) : Word := BitVec.ofNat 64 ((fs.map (fun (l, v) => v * 2 ^ l)).foldl (· + ·) 0)
/-- Descriptors 1, 2, … in their table, and a record 1. -/
def tables (ds : List (List Byte)) (r : List Byte) : Map Byte :=
  (ds.zipIdx.flatMap (fun (d, i) => bytesAt (depotBase 0 + 0x800000 + 64 * (i + 1)) d)) ++ bytesAt (depotBase 0 + 0x900040) r
/-- Word 0's fields for a command on tiles: formats and a selector. -/
def fm (a b o : Nat) (n : Nat) : Head := { sel n with fmtA := BitVec.ofNat 4 a, fmtB := BitVec.ofNat 4 b, fmtOut := BitVec.ofNat 4 o }

/-- No memory is cut off from a router of a state whose mesh is whole. -/
theorem joins {s : State} (h : s.meshWhole = true) {a : Rtr} (ha : a.half < 2 ∧ a.col < 8) : s.Joined a := joined_of_whole h ha.1 ha.2

/-! Witnesses: synchronization. -/
theorem takes_nop : clsNop.Takes (run ex0 [] []) ex0 (ex0.ctx 0 0x00 (sel 0x83) 0) := takes (by decide +kernel)
theorem fits_nop : ((run ex0 [] []).took (ex0.ctx 0 0x00 (sel 0x83) 0)).sigFits (ex0.ctx 0 0x00 (sel 0x83) 0) ex0 := Or.inl rfl
theorem takes_mark : clsMark.Takes (run ex0 [] []) ex0 (ex0.ctx 0 0x50 (sel 0x83) (w [(0, 2), (16, 5)])) := takes (by decide +kernel)
theorem fits_mark : ((run ex0 [] []).took (ex0.ctx 0 0x50 (sel 0x83) (w [(0, 2), (16, 5)]))).sigFits
    (ex0.ctx 0 0x50 (sel 0x83) (w [(0, 2), (16, 5)])) ex0 := Or.inl rfl
theorem takes_advance : clsAdvance.Takes (run ex0 [] []) ex0 (ex0.ctx 0 0x01 (sel 0x83) 0xFFFFFFFF) := takes (by decide +kernel)
theorem takes_end : clsEnd.Takes (run ex0 [] []) ex0 (ex0.ctx 0 0x0F (sel 0x83) 0) := takes (by decide +kernel)

/-- Queue 0 of caravan 0 in the depot, two slots, `occ` occupied. -/
def qreg (occ : Nat) : Nat × Word := (Csr.carQueue 0 0, BitVec.ofNat 64 (2 + occ * 2 ^ 12))
def qmem : Map Byte := tables [descOf 0x10001000 1 64] []
theorem takes_qpush : clsQpush.Takes (run ex0 [qreg 1] qmem) ex0 (ex0.ctx 0 0x02 (sel 0x81) (w [(6, 1)])) := takes (by decide +kernel)
theorem fits_qpush : ((run ex0 [qreg 1] qmem).took (ex0.ctx 0 0x02 (sel 0x81) (w [(6, 1)]))).sigFits (ex0.ctx 0 0x02 (sel 0x81) (w [(6, 1)])) ex0 :=
  Or.inl rfl
theorem clean_qpush : ((run ex0 [qreg 1] qmem).took (ex0.ctx 0 0x02 (sel 0x81) (w [(6, 1)]))).poisonCheck 0 0 0
    (((run ex0 [qreg 1] qmem).desc 0 hdr0 1).ranges 0) = none := by decide +kernel
def qs : State := { run ex0 [qreg 2] qmem with queues := [(0, { Queue.empty with head := 1, ready := [0, 0], offs := [16, 32] })] }
theorem takes_qpop : clsQpop.Takes qs ex0 (ex0.ctx 0 0x03 (sel 0x81) (w [(6, 1)])) := takes (by decide +kernel)
theorem fits_qpop : (qs.took (ex0.ctx 0 0x03 (sel 0x81) (w [(6, 1)]))).sigFits (ex0.ctx 0 0x03 (sel 0x81) (w [(6, 1)])) ex0 := Or.inl rfl
theorem clean_qpop : ∀ i, i < 64 → qs.poisoned (qs.qSlot 0 0 0 + i) 1 = false := by decide +kernel
/-! Witnesses: tally, mortar, product, drover. -/
/-- A held tile of two rows and four columns in bank 0 of station 0. -/
def tile : Bank := { Bank.empty with st := .held 0, rows := 2, cols := 4 }
def held (m : Map Byte) : State := { run ex0 [] m with banks := [(bankKey 0 0 false 0, tile)] }
def sDrain : State := held (tables [descOf 0x100000 2 8] [])
def xDrain : Ctx := ex0.ctx 0 0x20 (fm 0 0 4 0x01) (w [(7, 1)])
def sEvict : State := held (tables [descOf 0x100000 1 16448] [])
def xEvict : Ctx := ex0.ctx 0 0x21 (fm 0 0 0xD 0x01) (w [(7, 1)])
def xLedger : Ctx := ex0.ctx 0 0x22 (fm 0 0 0xD 0x01) (w [(7, 1)])
def xRelease : Ctx := ex0.ctx 0 0x23 (sel 0x01) 0
/-- A product of one tile: A one row of 32 bytes, B 32 rows of 128, no destination. -/
def recOf (m n k : Nat) : List Byte := leBytes 4 m ++ leBytes 4 n ++ leBytes 4 k
def sProd (m n k : Nat) : State := run ex0 [] (tables [descOf 0x20000000 32 32, descOf 0x10000000 32 32] (recOf m n k))
def xProd : Ctx := ex0.ctx 0 0x10 (fm 4 4 0 0x81) (w [(0, 1), (12, 2), (36, 1)])
/-- A mortar command on rows of 8 bytes in the depot. -/
def sMort : State := { run ex0 [] (tables [descOf 0x10000000 2 64, descOf 0x10001000 2 64, descOf 0x10002000 2 64] []) with
  spice := [(0, List.replicate 64 1)] }
def xVec : Ctx := ex0.ctx 0 0x30 (fm 4 4 4 0x01) (w [(0, 1), (12, 2), (24, 3)])
def xReduce : Ctx := ex0.ctx 0 0x31 (fm 4 0 6 0x01) (w [(0, 1), (12, 2)])
def xSpice : Ctx := ex0.ctx 0 0x32 (fm 4 0 4 0x01) (w [(0, 1), (12, 2)])
def xSieve : Ctx := ex0.ctx 0 0x33 (fm 4 0 7 0x01) (w [(0, 1), (12, 2), (24, 3)])
def xDrop : Ctx := ex0.ctx 0 0x34 (fm 4 0 4 0x01) (w [(0, 1), (12, 2)])
def streamOf (base rows : Nat) : List Byte := (descOf base rows 4).set 48 1
def mDrv : Map Byte := tables [descOf 0x100000 2 2048, descOf 0x10000000 2 2048, streamOf 0x110000 2] []
def sDrv : State := run ex0 [] mDrv
def xMove : Ctx := ex0.ctx 0 0x40 (sel 0x81) (w [(0, 1), (12, 2)])
def xGather : Ctx := ex0.ctx 0 0x41 (sel 0x81) (w [(0, 3), (12, 1), (24, 2)])
def xSwap : Ctx := ex0.ctx 0 0x42 (sel 0x81) 0

theorem witness_drain : clsDrain.Takes sDrain ex0 xDrain ∧
    (sDrain.took xDrain).poisonCheck 0 (sDrain.stnUnit xDrain 0x02) 0 [] = none := ⟨takes (by decide +kernel), by decide +kernel⟩
theorem witness_evict : clsEvict.Takes sEvict ex0 xEvict ∧ (∀ g ∈ sEvict.tiles xEvict, (sEvict.bank (xEvict.tKey g)).cols ≤ 128) :=
  ⟨takes (by decide +kernel), by decide +kernel⟩
theorem witness_ledger : clsLedger.Takes sEvict ex0 xLedger ∧ (∀ g ∈ sEvict.tiles xLedger, (sEvict.bank (xLedger.tKey g)).cols ≤ 128) ∧
    (sEvict.took xLedger).poisonCheck 0 (sEvict.stnUnit xLedger 0x02) 0
      ((sEvict.tiles xLedger).zipIdx.flatMap (fun (g, k) => sEvict.sliceReads 0 g (xLedger.tKey g) ((sEvict.desc 0 hdr0 1).rowVa k))) = none :=
  ⟨takes (by decide +kernel), by decide +kernel, by decide +kernel⟩
theorem witness_release : clsRelease.Takes sDrain ex0 xRelease ∧ (sDrain.took xRelease).sigFits xRelease ex0 :=
  ⟨takes (by decide +kernel), Or.inl rfl⟩
theorem witness_product_empty : clsProduct.Takes (sProd 0 1 32) ex0 xProd ∧ ((sProd 0 1 32).took xProd).sigFits xProd ex0 :=
  ⟨takes (by decide +kernel), Or.inl rfl⟩
theorem witness_product : clsProduct.Takes (sProd 1 1 32) ex0 xProd ∧
    parseRec ((sProd 1 1 32).record 0 hdr0 1) = ⟨1, 1, 32, 0, 0, 0, 0, true⟩ := ⟨takes (by decide +kernel), by decide +kernel⟩
theorem witness_product_no_k : clsProduct.Takes (sProd 1 1 0) ex0 xProd ∧
    parseRec ((sProd 1 1 0).record 0 hdr0 1) = ⟨1, 1, 0, 0, 0, 0, 0, true⟩ := ⟨takes (by decide +kernel), by decide +kernel⟩
theorem witness_vec : clsVec.Takes sMort ex0 xVec := takes (by decide +kernel)
theorem witness_reduce : clsMortar.Takes sMort ex0 xReduce := takes (by decide +kernel)
theorem witness_spice : clsMortar.Takes sMort ex0 xSpice := takes (by decide +kernel)
theorem witness_sieve : clsMortar.Takes sMort ex0 xSieve := takes (by decide +kernel)
theorem witness_dropout : clsMortar.Takes sMort ex0 xDrop := takes (by decide +kernel)
theorem witness_move : clsDrv.Takes sDrv ex0 xMove := takes (by decide +kernel)
theorem witness_gather : clsDrv.Takes sDrv ex0 xGather := takes (by decide +kernel)
/-! Witnesses: swap, weighhouse, update engine. -/
/-- A register from values of its fields. -/
def rg (fs : List (FieldRef × Nat)) : Nat × Word :=
  ((fs.map (·.1.off)).headD 0, BitVec.ofNat 64 ((fs.map (fun (f, v) => v * 2 ^ f.lsb)).foldl (· + ·) 0))
/-- A state with registers set. -/
def regs (l : List (Nat × Word)) (s : State) : State := { s with csr := l ++ s.csr }
/-- A command in flight in units. -/
def cmdIn (off op : Nat) (us : List Nat) : Cmd := ⟨off, op, sel 0x81, 0, us, none, none, 0, 0, [], DrvProg.start⟩
def exCmd (m : Cmd) : Exec := { ex0 with cmds := [m] }
/-- A transfer into the depot. -/
def toDepot : Xfer := ⟨0, 0, 1, 0, 0x100000, depotBase 0, 2048, 0, 0, false, 0, false, false⟩
def sBusy : State := { run ex0 [] [] with cars := [(0, { Car.idle with xfers := [toDepot], nextX := 1 })] }
theorem witness_swap : clsSwap.Takes (run ex0 [] []) ex0 xSwap ∧ (run ex0 [] []).occupants 0 ex0 (droverUnit 0) = 0 ∧ (run ex0 [] []).depotBusy 0 = false :=
  ⟨takes (by decide +kernel), by decide +kernel, by decide +kernel⟩
theorem witness_swap_busy : clsSwap.Takes sBusy ex0 xSwap ∧ sBusy.depotBusy 0 = true := ⟨takes (by decide +kernel), by decide +kernel⟩
def exMove : Exec := { exCmd (cmdIn 0 0x40 [droverUnit 0]) with off := 16 }
theorem witness_swap_behind : clsSwap.Takes (run exMove [] []) exMove (exMove.ctx 0 0x42 (sel 0x81) 0) ∧
    (run exMove [] []).occupants 0 exMove (droverUnit 0) ≠ 0 ∧
    (∀ m ∈ (run exMove [] []).flight 0 exMove, m.units.contains (droverUnit 0) → m.op ≠ 0x42) ∧
    (run exMove [] []).depotBusy 0 = false := ⟨takes (by decide +kernel), by decide +kernel, by decide +kernel, by decide +kernel⟩
def exSwap : Exec := exCmd (cmdIn 0 0x42 [droverUnit 0])
def sSwapW : State := { run exSwap [] [] with cars := [(0, { Car.idle with swapOff := some 0 })] }
theorem witness_swap_waiting : sSwapW.exec? 0 = some exSwap ∧ 0 ∈ sSwapW.caravans 0 ∧
    exSwap.cmds.find? (fun m => m.units.contains (droverUnit 0)) = some (cmdIn 0 0x42 [droverUnit 0]) ∧
    (cmdIn 0 0x42 [droverUnit 0]).done = none ∧ (sSwapW.part 0).prev = none ∧ sSwapW.depotBusy 0 = false ∧ (sSwapW.car 0).swapOff.isSome = true ∧ (∀ d ∈ sSwapW.caravans 0, d ≠ 0 → (sSwapW.car d).swapOff = none) := by
  decide +kernel

/-- Epoch 1 with four slots of the west half. -/
def wreg : List (Nat × Word) := [rg [(Csr.wghEpoch_epoch 0, 1)], rg [(Csr.wghShare_slots 0, 4)]]
def sSend : State := run ex0 wreg (tables [descOf 0x100000 2 16448] [])
def xSend : Ctx := ex0.ctx 0 0x70 (sel 0x83) (w [(0, 1), (12, 3), (32, 1)])
def sSkip : State :=
  run ex0 (rg [(Csr.wghSkip_base 0, 0x10A00000), (Csr.wghSkip_valid 0, 1)] :: wreg)
    (tables [descOf 0x100000 2 16448] [] ++ [(depotBase 0 + 0xA00000, 0xFF)])
def sWide : State :=
  { run ex0 (rg [(Csr.wghWideCtl_count 0, 8)] :: wreg) [] with banks := [(bankKey 0 0 false 0, tile)] }
def xWide : Ctx := ex0.ctx 0 0x70 (sel 0x01) (w [(12, 3), (32, 1), (48, 1)])
def recSend (s : State) : SendRec := s.sendRec xSend false ((List.range 2).map (s.desc 0 hdr0 1).rowVa) []
/-- What SEND is stated with: no packet waiting, nothing kept for its bucket, no record of its command. -/
def freshB (s : State) (off : Nat) : Bool :=
  let v := s.wctx 0
  decide (v.waiting = []) && v.opens.all (·.1 ≠ 3) && v.old.all (·.bucket ≠ 3) && v.taken.all (·.bucket ≠ 3) && v.queued.all (·.off ≠ off)
theorem witness_send : (clsSend false).Takes sSend ex0 xSend ∧ freshB sSend 0 = true ∧ (recSend sSend).skipped = false ∧
    sSend.occupants 0 ex0 (wghUnit sSend 0) = 0 := ⟨takes (by decide +kernel), by decide +kernel, by decide +kernel, by decide +kernel⟩
/-- A SEND is in flight. -/
def exSnd : Exec := { exCmd (cmdIn 0 0x70 [wghUnit base 0]) with off := 16 }
def sSendP : State := { sSend with parts := (run exSnd [] []).parts }
def xSendP : Ctx := exSnd.ctx 0 0x70 (sel 0x83) (w [(0, 1), (12, 3), (32, 1)])
theorem witness_send_pending : (clsSend false).Takes sSendP exSnd xSendP ∧ freshB sSendP 16 = true ∧
    (sSendP.sendRec xSendP false ((List.range 2).map (sSendP.desc 0 hdr0 1).rowVa) []).skipped = false ∧
    sSendP.occupants 0 exSnd (wghUnit sSendP 0) ≠ 0 ∧ exSnd.cmds.all (·.off ≠ exSnd.off) = true :=
  ⟨takes (by decide +kernel), by decide +kernel, by decide +kernel, by decide +kernel, by decide +kernel⟩
theorem witness_send_skipped : (clsSend false).Takes sSkip ex0 xSend ∧ freshB sSkip 0 = true ∧ (recSend sSkip).skipped = true ∧
    (sSkip.took xSend).sigFits xSend ex0 := ⟨takes (by decide +kernel), by decide +kernel, by decide +kernel, Or.inl rfl⟩
theorem witness_send_wide : (clsSend true).Takes sWide ex0 xWide ∧ freshB sWide 0 = true ∧ sWide.occupants 0 ex0 (wghUnit sWide 0) = 0 :=
  ⟨takes (by decide +kernel), by decide +kernel, by decide +kernel⟩
/-- A pending table of one member, this node, for epoch 2. -/
def sPend (e : Exec) : State :=
  run e ([rg [(Csr.wghGroup_base 0, 0x10A00000)],
          rg [(Csr.wghGroupCtl_count 0, 1), (Csr.wghGroupCtl_pendingEpoch 0, 2), (Csr.wghGroupCtl_pendingValid 0, 1)]] ++ wreg) []
def xResh : Ctx := ex0.ctx 0 0x71 (sel 0x83) (w [(0, 2), (16, 1)])
/-- A bucket of one chunk with nothing resolved. -/
def openRec : SendRec := ⟨1, 0, 0, 3, 0, false, false, 1, [0x100000], [], 1, [], [], [], [], [], []⟩
def withOpen (s : State) : State := { s with wgh := [(0, { Wgh.none with sends := [openRec] })] }
def exResh : Exec := exCmd (cmdIn 0 0x71 [wghUnit base 0])
theorem witness_reshard : clsReshard.Takes (sPend ex0) ex0 xResh ∧ (sPend ex0).epochClosed 0 = true ∧ (sPend ex0).tableFault 0 = none ∧
    ((sPend ex0).wctx 0).waiting = [] := ⟨takes (by decide +kernel), by decide +kernel, by decide +kernel, by decide +kernel⟩
theorem witness_reshard_open : clsReshard.Takes (withOpen (sPend ex0)) ex0 xResh ∧ (withOpen (sPend ex0)).epochClosed 0 = false :=
  ⟨takes (by decide +kernel), by decide +kernel⟩
theorem witness_reshard_ends : (sPend exResh).exec? 0 = some exResh ∧ (sPend exResh).reshardCmd 0 = some (cmdIn 0 0x71 [wghUnit base 0]) ∧
    (sPend exResh).epochClosed 0 = true ∧ (sPend exResh).tableFault 0 = none := by decide +kernel
theorem witness_reshard_late : (withOpen (sPend exResh)).exec? 0 = some exResh ∧ (withOpen (sPend exResh)).epochClosed 0 = false ∧
    (withOpen (sPend exResh)).reshardCmd 0 = some (cmdIn 0 0x71 [wghUnit base 0]) := by decide +kernel

/-- A loss in the depot. -/
def sLoss (v : Nat) : State := run ex0 [] (tables [descOf 0x10A00000 1 4] [] ++ bytesAt (depotBase 0 + 0xA00000) (leBytes 4 v))
def xLoss : Ctx := ex0.ctx 0 0x78 (sel 0x83) (w [(0, 1)])
theorem witness_losschk : clsLosschk.Takes (sLoss 0x7F7FFFFF) ex0 xLoss ∧ (f32 0x7F7FFFFF).isFin = true ∧ (sLoss 0x7F7FFFFF).csgState 0 = 0 ∧
    ((sLoss 0x7F7FFFFF).part 0).csg.verify = none ∧ ((sLoss 0x7F7FFFFF).took xLoss).sigFits xLoss ex0 ∧
    leNat ((sLoss 0x7F7FFFFF).vbytes 0 0 ((sLoss 0x7F7FFFFF).desc 0 hdr0 1).base 4) = 0x7F7FFFFF :=
  ⟨takes (by decide +kernel), by decide +kernel, by decide +kernel, by decide +kernel, Or.inl rfl, by decide +kernel⟩
theorem clean_losschk : ((sLoss 0x7F7FFFFF).took xLoss).poisonCheck 0 (updUnit (sLoss 0x7F7FFFFF) 0) 0
    [((sLoss 0x7F7FFFFF).homeStn 0, ((sLoss 0x7F7FFFFF).desc 0 hdr0 1).rowVa 0, 4)] = none := by decide +kernel
theorem witness_losschk_nan : clsLosschk.Takes (sLoss 0x7F800000) ex0 xLoss ∧ (f32 0x7F800000).isFin = false ∧
    leNat ((sLoss 0x7F800000).vbytes 0 0 ((sLoss 0x7F800000).desc 0 hdr0 1).base 4) = 0x7F800000 :=
  ⟨takes (by decide +kernel), by decide +kernel, by decide +kernel⟩
/-- A rule of planes 1 and 2 in place. -/
def sUpd (stop : Nat) : State :=
  run ex0 [rg [(Csr.updCommit_stopped 0, stop)]]
    (tables [descOf 0x100000 1 64, descOf 0x200000 1 64] (List.replicate 28 0 ++ leBytes 2 1 ++ leBytes 2 2))
def xUpd : Ctx := ex0.ctx 0 0x79 (sel 0x83) (w [(0, 3), (20, 1), (32, 1)])
theorem witness_update : clsUpdate.Takes (sUpd 0) ex0 xUpd ∧ (sUpd 0).flag1 (Csr.updCommit_stopped 0) = false ∧
    ((sUpd 0).wctx 0).waiting = [] ∧ ((sUpd 0).took xUpd).poisonCheck 0 (updUnit (sUpd 0) 0) 0 [] = none :=
  ⟨takes (by decide +kernel), by decide +kernel, by decide +kernel, by decide +kernel⟩
theorem witness_update_stopped : clsUpdate.Takes (sUpd 1) ex0 xUpd ∧ (sUpd 1).flag1 (Csr.updCommit_stopped 0) = true ∧
    ((sUpd 1).took xUpd).sigFits xUpd ex0 := ⟨takes (by decide +kernel), by decide +kernel, Or.inl rfl⟩
def xCommit : Ctx := ex0.ctx 0 0x7A (sel 0x83) 0
theorem witness_commit : clsCommit.Takes (run ex0 [] []) ex0 xCommit ∧ ex0.outcome = 0 ∧ ex0.upds.all (·.finished) = true ∧
    ((run ex0 [] []).wctx 0).peers = [] ∧ (run ex0 [] []).csgState 0 = 0 :=
  ⟨takes (by decide +kernel), rfl, rfl, by decide +kernel, by decide +kernel⟩
def exUpd : Exec := { ex0 with upds := [⟨0, 3, [], true, [], [], 0, false, false, false⟩] }
theorem witness_commit_open : clsCommit.Takes (run exUpd [] []) exUpd (exUpd.ctx 0 0x7A (sel 0x83) 0) ∧
    exUpd.upds.all (·.finished) = false := ⟨takes (by decide +kernel), rfl⟩
/-! Witnesses: completions, the route, the drover, tolls, the update engine. -/
def due (op : Nat) (us : List Nat) (ds : List (List Byte)) : Cmd := ⟨0, op, sel 0x01, 0, us, some 0, some 0, 0, 0, ds, DrvProg.start⟩
def exDue (m : Cmd) : Exec := { exCmd m with off := 16 }
def mVec : Cmd := { due 0x30 [mortarUnit 0] [descOf 0x10000000 2 64, descOf 0x10001000 2 64, descOf 0x10002000 2 64] with
  h := fm 4 4 4 0x01, w1 := w [(0, 1), (12, 2), (24, 3)] }
theorem witness_complete_mortar : (∀ c ∈ (run (exDue mVec) [] []).scopeCars (mVec.ctx 0 hdr0), (run (exDue mVec) [] []).Joined (rtrOfCar c)) ∧
    (run (exDue mVec) [] []).wf = true ∧ (run (exDue mVec) [] []).dev.safeHold = false ∧ (run (exDue mVec) [] []).exec? 0 = some (exDue mVec) ∧
    ((run (exDue mVec) [] []).dueCmds 0).find? (fun m => m.off = 0) = some mVec ∧ isMortar mVec.op = true ∧ (mVec.ctx 0 hdr0).h.signal = 0 ∧
    (run (exDue mVec) [] []).poisonCheck 0 ((run (exDue mVec) [] []).stnUnit (mVec.ctx 0 hdr0) 0x04) 0
      ((run (exDue mVec) [] []).mortarReads (mVec.ctx 0 hdr0) (MDescs.of mVec.descs)) = none :=
  ⟨fun c hc => by
      have h : (run (exDue mVec) [] []).scopeCars (mVec.ctx 0 hdr0) = [0] := by decide +kernel
      rw [h, List.mem_singleton] at hc
      exact hc ▸ joins (by decide +kernel) (by decide), by decide +kernel⟩
def mDrain : Cmd := due 0x20 [tallyUnit 0] []
def sDrained : State :=
  { run (exDue mDrain) [] [] with banks := [(bankKey 0 0 false 0, { tile with st := .taken 0 })] }
theorem witness_complete_tally : sDrained.wf = true ∧ sDrained.dev.safeHold = false ∧ ex0.fault = none ∧ sDrained.exec? 0 = some (exDue mDrain) ∧
    (sDrained.dueCmds 0).find? (fun m => m.off = 0) = some mDrain ∧ (sDrained.bank (bankKey 0 0 false 0)).st = .taken 0 ∧
    0 ∈ sDrained.scopeStns (mDrain.ctx 0 hdr0) := by decide +kernel
def mProd : Cmd := due 0x10 [arrayUnit 0, tallyUnit 0] []
/-- A product of two stations in one K-split, its partial sums in bank 0; the destination is descriptor `d`. -/
def prod2 (d : Nat) : Run := ⟨1, 0, sel 0x81, w [(24, d), (48, 2)], 2, 3, 32, [], [], [0, 1], [0], [0], 1, 2, 0, 0, 0, false, false⟩
theorem witness_complete_product : (run (exDue mProd) [] []).wf = true ∧ (run (exDue mProd) [] []).exec? 0 = some (exDue mProd) ∧
    ((run (exDue mProd) [] []).dueCmds 0).find? (fun m => m.off = 0) = some mProd ∧ isMortar mProd.op = false ∧
    (run (exDue mProd) [] []).remnantCars 0 0 = [] ∧ (∀ k ∈ (exDue mProd).cmds, k.start = none → k.op ≠ 0x10 ∧ k.op ≠ 0x70) := by decide +kernel
/-- Station 0's group 3 is fenced while a product of one station runs. -/
def sRem : State :=
  { (run (exDue mProd) [] []).setFld (Csr.stnFence_fencedGroups 0 0) 8 with
    cars := [(0, { Car.idle with runs := [{ prod2 1 with w1 := w [(24, 1)], stns := [0] }] })] }
theorem witness_complete_remnant : sRem.wf = true ∧ sRem.dev.safeHold = false ∧ sRem.exec? 0 = some (exDue mProd) ∧ sRem.remnantCars 0 0 = [0] ∧
    (sRem.dueCmds 0).find? (fun m => m.off = 0) = some mProd := by decide +kernel

/-- A NOP that waits on elastic flag 5, with `n` signals on the way. -/
def hWait : Head := { sel 0x81 with wait := 5 }
def exWait (n : Nat) : Exec := { ex0 with waiting := some (0, hWait, 0), sigs := List.replicate n (5, 0, 0x30) }
def sWait (n : Nat) : State :=
  { run (exWait n) [] [] with
    flags := [(5, ⟨0, 1, true⟩)]
    parts := [(0, { Machine.Part.none with cmap := [0], hbm := [(0, gib)], exec := some (exWait n), holds := [⟨2, none⟩] })] }
theorem witness_elastic (n : Fin 3) : (sWait n).dev.safeHold = false ∧ (sWait n).poison = [] ∧ (sWait n).exec? 0 = some (exWait n) ∧ (sWait n).hasHold 0 2 = true ∧
    (exWait n).waiting = some (0, hWait, 0) ∧ (clsOf 0 0).isSome = true ∧
    ((sWait n).arriveFor 0 0 hWait 0).waitOver 0 0 hWait 0 = decide (0 < n.val) ∧ hWait.signal = 0 ∧ hWait.wait ≠ 0 ∧
    (sWait n).flagKey 0 ((sWait n).flagCar ((exWait n).ctx 0 0 hWait 0)) 5 = 5 ∧ ((sWait n).flagAt 5).quantum = 1 ∧
    (exWait n).signalsTo 5 = n := by revert n; decide +kernel

def exLate : Exec := { ex0 with issuePace := 5 }
def heldBy (h : Hold) : State :=
  { run ex0 [] [] with parts := [(0, { Machine.Part.none with cmap := [0], hbm := [(0, gib)], exec := some ex0, holds := [h] })] }
theorem witness_pace_held : (heldBy ⟨5, some 3⟩).exec? 0 = some ex0 ∧ ((heldBy ⟨5, some 3⟩).part 0).holds ≠ [] ∧
    ((heldBy ⟨5, some 3⟩).part 0).stepLeft = none ∧ ((heldBy ⟨5, some 3⟩).part 0).prev = none ∧ (heldBy ⟨5, some 3⟩).dev.safeHold = false ∧ ((heldBy ⟨5, some 3⟩).part 0).capLeft = 0 ∧
    ((heldBy ⟨5, some 3⟩).part 0).suspended = false ∧ ex0.cmds = [] ∧ ex0.sigs = [] ∧ ex0.upds = [] := by decide +kernel
theorem witness_pace : (run exLate [] []).exec? 0 = some exLate ∧ ((run exLate [] []).part 0).holds = [] ∧ exLate.ended = false ∧
    exLate.cmds = [] ∧ exLate.sigs = [] ∧ exLate.upds = [] ∧ (run exLate [] []).issuable 0 = false ∧ (∀ b ∈ ((run exLate [] []).part 0).bps, b = none) ∧
    (∀ c ∈ (run exLate [] []).caravans 0, (run exLate [] []).car c = Car.idle) := by decide +kernel

def sMerge (d : Nat) : State :=
  { run ex0 [(Csr.prtPace 0, 9)] [] with
    banks := [(bankKey 0 0 false 0, { Bank.empty with st := .merging 0 9 (d ≠ 0), rows := 2, cols := 3, seq := 1 }),
              (bankKey 1 0 false 0, { Bank.empty with st := .merging 0 9 (d ≠ 0), rows := 2, cols := 3, seq := 1 })]
    cars := [(0, { Car.idle with runs := [prod2 d] })] }
theorem witness_merge (d : Fin 2) : (sMerge d).Joined (rtrOfCar 0) ∧ (sMerge d).dev.safeHold = false ∧
    (sMerge d).copiesDiffer ((sMerge d).bank ((prod2 d).key 0 0)) ((prod2 d).key 0 0 :: (((prod2 d).kGroup 0).tail.filter (fun h => (prod2 d).off8 h % 2 < 2)).map (fun h => (prod2 d).key h 0)) = false ∧ 0 ∈ (sMerge d).caravans 0 ∧
    (sMerge d).exec? 0 = some ex0 ∧ ((sMerge d).car 0).runs = [prod2 d] ∧ (prod2 d).s = 2 ∧
    (sMerge d).exec? 0 = some ex0 ∧ ((sMerge d).part 0).prev = none ∧ ((sMerge d).car 0).restart = false ∧ 0 < (prod2 d).passes ∧
    ((sMerge d).bank ((prod2 d).key (0 * 8 + ((prod2 d).inj + 0 * (prod2 d).s) % 8) 0)).seq = (prod2 d).seq ∧
    ((sMerge d).bank ((prod2 d).key (0 * 8 + ((prod2 d).inj + 0 * (prod2 d).s) % 8) 0)).pi = 0 ∧ ((sMerge d).bank ((prod2 d).key (0 * 8 + ((prod2 d).inj + 0 * (prod2 d).s) % 8) 0)).st = .merging 0 9 (d.val ≠ 0) ∧
    9 ≤ (sMerge d).pace 0 ∧ ((sMerge d).bank ((prod2 d).key 0 0)).share = 0 ∧ ((sMerge d).bank ((prod2 d).key 0 0)).poisoned = false ∧
    (prod2 d).f 24 12 = d.val := by
  refine ⟨joins (by revert d; decide +kernel) (by decide), ?_⟩
  revert d; decide +kernel

/-- The hold that HOLD_END ends. -/
def endsHold (h : Hold) : Option Hold :=
  let hs := ((heldBy h).part 0).holds.filter (·.src = h.src)
  (hs.find? (·.left.isNone)).orElse (fun _ => hs.head?)
theorem witness_hold_known : (heldBy ⟨5, some 3⟩).wf = true ∧ endsHold ⟨5, some 3⟩ = some ⟨5, some 3⟩ := by decide +kernel
theorem witness_hold_restart : (heldBy ⟨4, none⟩).wf = true ∧ endsHold ⟨4, none⟩ = some ⟨4, none⟩ ∧ ((heldBy ⟨4, none⟩).part 0).prev = none ∧
    (∀ h ∈ ((heldBy ⟨4, none⟩).part 0).holds.filter (·.src = 4), h.left = none) ∧
    (∀ c ∈ (heldBy ⟨4, none⟩).caravans 0, ((heldBy ⟨4, none⟩).car c).remnant = []) := by decide +kernel
/-- Station 0's bank is filling in a pass that restarts, with more of it to come. -/
def sRst : State :=
  { heldBy ⟨4, none⟩ with
    banks := [(bankKey 0 0 false 0, { Bank.empty with st := .filling 0, rows := 2, cols := 3, seq := 1, poisoned := true })]
    cars := [(0, { Car.idle with runs := [prod2 1], restart := true })] }
theorem witness_hold_restarts : sRst.wf = true ∧ 0 ∈ sRst.caravans 0 ∧ (sRst.car 0).restart = true ∧ (sRst.car 0).remnant = [] ∧
    (∀ x ∈ sRst.banks, ∀ u ∈ (sRst.car 0).runs, x.2.tile ≠ u.lastUsed (x.1 / 42) ∨ x.2.done ≠ 32) ∧
    (sRst.bank (bankKey 0 0 false 0)).st = .filling 0 ∧
    (sRst.car 0).runs.find? (fun u => u.seq = (sRst.bank (bankKey 0 0 false 0)).seq && 0 = u.off) = some (prod2 1) := by decide +kernel
theorem witness_hold_late : (heldBy ⟨1, none⟩).wf = true ∧ (heldBy ⟨1, none⟩).lateStill 0 = false ∧ ex0.waiting = none ∧
    (∀ h ∈ ((heldBy ⟨1, none⟩).part 0).holds.filter (·.src = 1), h.left = none) ∧ endsHold ⟨1, none⟩ = some ⟨1, none⟩ := by decide +kernel

def mMove : Cmd := { cmdIn 0 0x40 [droverUnit 0] with
  start := some 0, w1 := w [(0, 1), (12, 2)], descs := [descOf 0x100000 2 2048, descOf 0x10000000 2 2048] }
def exMv : Exec := { exCmd mMove with off := 16 }
/-- What DRV_ISSUE is stated with: nothing stops the drover, no mark holds it, and both ends are reached. -/
def issuesB (s : State) (e : Exec) (src dst n : Nat) : Bool :=
  decide (s.partOfCar 0 = some 0) && !s.drvStill 0 && decide (s.exec? 0 = some e) && (s.part 0).prev.isNone && decide (s.markAt 0 0 e = none) &&
  ((s.car 0).outstanding < 512) && (s.meshXfer 0 (s.redirect src) (s.redirect dst) n).2
theorem witness_drv_issue : issuesB (run exMv [] mDrv) exMv 0x100000 (depotBase 0) 2048 = true ∧ exMv.drvCmd 0 = some mMove ∧
    (run exMv [] mDrv).drvNext 0 0 0x40 mMove.w1 mMove.descs mMove.drv =
      .fetch ⟨0x100000, 0x10000000, 2048, 0⟩ false { DrvProg.start with pos := 2048 } ∧
    (run exMv [] mDrv).endPa 0 0x100000 = some 0x100000 ∧ (run exMv [] mDrv).endPa 0 0x10000000 = some (depotBase 0) := by decide +kernel
def mGath : Cmd := { cmdIn 0 0x41 [droverUnit 0] with
  start := some 0, w1 := w [(0, 3), (12, 1), (24, 2)], descs := [streamOf 0x110000 2, descOf 0x100000 2 2048, descOf 0x10000000 2 2048] }
def exGa : Exec := { exCmd mGath with off := 16 }
theorem witness_drv_issue_gather : issuesB (run exGa [] mDrv) exGa 0x100000 (depotBase 0) 2048 = true ∧ exGa.drvCmd 0 = some mGath ∧
    (run exGa [] mDrv).drvNext 0 0 0x41 mGath.w1 mGath.descs mGath.drv =
      .fetch ⟨0x100000, 0x10000000, 2048, 0⟩ true { DrvProg.start with threads := [2048] } := by decide +kernel

def sXfer (dr : Bool) : State := { run ex0 [] [] with cars := [(0, { Car.idle with xfers := [{ toDepot with dropped := dr }], nextX := 1 })] }
/-- A transfer from the spill tier, which is absent. -/
theorem witness_transfer_tier : base.tierGone cxlBase = true ∧
    ({ sXfer false with cars := [(0, { Car.idle with xfers := [{ toDepot with src := cxlBase }], nextX := 1 })] } : State).tierGone cxlBase = true ∧
    (sXfer false).tierGone toDepot.src = false ∧ (sXfer false).tierGone toDepot.dst = false := by decide +kernel
theorem witness_transfer_lost : ({ toDepot with lost := true } : Xfer).lost = true ∧ toDepot.lost = false ∧ ex0.fault = none ∧
    ((sXfer false).part 0).prev = none := by decide +kernel
theorem witness_transfer (dr : Bool) : ((sXfer dr).car 0).xfers.find? (fun y => y.id = 0) = some { toDepot with dropped := dr } ∧
    (sXfer dr).exec? 0 = some ex0 ∧ toDepot.satchel = false ∧ toDepot.part < 8 ∧ (sXfer dr).poison = [] := by cases dr <;> decide +kernel

theorem witness_toll : ((base.toll 0).last + 1 + 38) % 40 = 38 ∧ bitOf (2 ^ 38) 38 = true ∧ bitOf (base.tollMask 0) 38 = false ∧ base.tollAsks 0 38 = true ∧
    (∀ d', d' < 38 → bitOf (2 ^ 38) (((base.toll 0).last + 1 + d') % 40) = false) := by decide +kernel
/-- At the egress toll of port 0 unit 32 asks for the packet that owns a VC with credit, and unit 33 has none. -/
theorem witness_toll_egress : ({ base with ports := [(0, { Port.idle with owners := [⟨⟨4, 2, 0, []⟩, 1, some (0, 4), false⟩] })] } : State).tollAsks 96 32 = true ∧
    ({ base with ports := [(0, { Port.idle with owners := [⟨⟨4, 2, 0, []⟩, 1, some (0, 4), false⟩] })] } : State).tollAsks 96 33 = false := by
  decide +kernel
theorem witness_toll_none : ∀ r, r < 40 → ¬ (r ≠ 39 ∧ bitOf (2 ^ 39) r = true) := by decide +kernel
theorem witness_starve : bitOf (base.tollMask 0) 38 = false ∧ bitOf (base.fld (Csr.tolStarved_starved 0)) 38 = false := by decide +kernel
theorem witness_starve_masked : bitOf ((regs [rg [(Csr.lnkStatus_state 5, 6)]] base).tollMask 103) 29 = true ∨
    bitOf (({ base with dev := { base.dev with fencedCars := [3] } } : State).tollMask 103) 3 = true := by decide +kernel
/-- Router (0, 1) of half 0 has failed: (0, 0) still reaches (1, 0) on its primary route, and (1, 1) on a detour. -/
def sTree : State := regs [rg [(Csr.mshFault_failedRouters 0, 2)]] base
theorem witness_tree : (match sTree.route ⟨0, 0, 0⟩ ⟨0, 1, 0⟩ 0 with
    | .primary p _ => p.contains ⟨0, 1, 0⟩
    | _ => false) = true ∧
    (match sTree.route ⟨0, 0, 0⟩ ⟨0, 1, 1⟩ 0 with
    | .detour .. => true
    | _ => false) = true := by decide +kernel
theorem witness_straggler : 0 ∈ base.caravans 0 ∧ base.hasHold 0 9 = false := by decide +kernel
theorem witness_watchdog : (run ex0 [] []).exec? 0 = some ex0 ∧ ex0.fault = none ∧ ex0.cancelled = false ∧
    (run ex0 [] []).hasHold 0 9 = false ∧ ((run ex0 [] []).part 0).suspended = false := by decide +kernel

/-- An UPDATE in place of two planes of 32 elements, with a chunk that has arrived. -/
def upd1 : Upd := ⟨0, 3, List.replicate 28 0 ++ leBytes 2 1 ++ leBytes 2 2 ++ List.replicate 32 0, true, [], [], 0, false, false, false⟩
def exChunk : Exec := { exCmd { cmdIn 0 0x79 [updUnit base 0] with descs := [descOf 0x100000 1 64, descOf 0x200000 1 64] } with
  off := 16, upds := [upd1], direct := some true }
def chunk (k : Nat) : ChunkIn := ⟨3, 0, k, true, [0x3F800000, 0xBF800000], false, false⟩
def sChunk (k : Nat) : State := { run exChunk [] [] with wgh := [(0, { Wgh.none with inbox := [chunk k] })] }
theorem witness_chunk (k : Fin 3) : (sChunk k).Joined ((sChunk k).updRtr 0) ∧ (sChunk k).dev.safeHold = false ∧ (sChunk k).poison = [] ∧ exChunk.fault = none ∧
    ((sChunk k).part 0).prev = none ∧ (sChunk k).exec? 0 = some exChunk ∧ exChunk.upds.find? (fun u => u.bucket = 3) = some upd1 ∧
    ((sChunk k).wctx 0).inbox.find? (fun x => x.bucket = 3 && x.chunk = 0) = some (chunk k) ∧ (sChunk k).csgState 0 = 0 ∧
    exChunk.upds.find? (fun y => !y.finished) = some upd1 ∧ (sChunk k).flag1 (Csr.updCommit_stopped 0) = false := by
  refine ⟨joins (by revert k; decide +kernel) ?_, ?_⟩ <;> revert k <;> decide +kernel
theorem witness_chunk_fine : (((sChunk 0).chunkWrites 0 exChunk upd1 (exChunk.planes upd1) 0 (chunk 0).vals false).all (fun y => y.2.2.fine)) = true ∧
    ((sChunk 0).chunkWrites 0 exChunk upd1 (exChunk.planes upd1) 0 (chunk 0).vals false).length = 2 := by decide +kernel
/-! Witnesses: the manifest. -/
def withPart (f : Machine.Part → Machine.Part) (s : State) : State := { s with parts := [(0, f (s.part 0))] }
/-- Ring 0 of function 0 with one entry of four. -/
def sRing (ack : Nat) : State :=
  { base with csr := [rg [(Csr.hqRingBase_log2Depth 0 0, 2), (Csr.hqRingBase_enable 0 0, 1)], rg [(Csr.hqRingCtl_tail 0 0, 1)],
                      rg [(Csr.sealMan_partnerAck 0, ack)]] ++ base.csr }
theorem witness_accept (ack : Fin 2) : (sRing ack).accepting 0 = true ∧ ((sRing ack).part 0).ackWait = none ∧
    ((sRing ack).ringOrder 0).head? = some 0 ∧ (sRing ack).seqRoom 0 ((sRing ack).part 0).nextSeq = true ∧
    (sRing ack).flag1 (Csr.sealMan_partnerAck 0) = decide (ack = 1) := by revert ack; decide +kernel
theorem witness_accept_masters : (sRing 0).masters 0 = true ∧ ({ sRing 0 with dev := { base.dev with noMaster := [0] } } : State).accepting 0 = true ∧
    ({ sRing 0 with dev := { base.dev with noMaster := [0] } } : State).masters 0 = false := by decide +kernel
theorem witness_accept_full : (withPart (fun x => { x with nextSeq := 40000 }) (sRing 0)).accepting 0 = true ∧
    ((withPart (fun x => { x with nextSeq := 40000 }) (sRing 0)).ringOrder 0).head? = some 0 ∧
    (withPart (fun x => { x with nextSeq := 40000 }) (sRing 0)).seqRoom 0 40000 = false := by decide +kernel
theorem witness_partner_ack : (withPart (fun x => { x with ackWait := some (0, 0, hdr0) }) (sRing 1)).accepting 0 = true ∧
    ((withPart (fun x => { x with ackWait := some (0, 0, hdr0) }) (sRing 1)).part 0).ackWait = some (0, 0, hdr0) := by decide +kernel

def ord (h : BitVec 1024) : Order := ⟨1, h, 0, 0, false⟩
def queued (h : BitVec 1024) : State := withPart (fun x => { x with orders := [ord h], nextSeq := 2 }) base
theorem witness_start : (queued hdr0).mayStartOrder 0 = true ∧ (queued hdr0).nextOrder 0 = some (ord hdr0) ∧ (queued hdr0).exec? 0 = none ∧
    ((queued hdr0).wctx 0).waiting = [] ∧ (∀ c ∈ (queued hdr0).caravans 0, c < 24) ∧ ((queued hdr0).startCheck 0 hdr0).toBool = true ∧
    (queued hdr0).poisonCheck 0 (manUnit (queued hdr0) 0) 0 ((queued hdr0).startTables 0 hdr0) = none := by
  decide +kernel
theorem witness_start_fails : ((queued 0).headerCheck 0 0).isSome = true ∧ (queued 0).mayStartOrder 0 = true ∧ (queued 0).nextOrder 0 = some (ord 0) ∧ (queued 0).exec? 0 = none ∧
    (match (queued 0).startCheck 0 0 with
     | .ok _ => false
     | .error f => !isPartFault f.1) = true := by decide +kernel

def exOver (o : Nat) (pend : Bool) : Exec := { ex0 with ended := true, endOff := some 16, off := 32, outcome := o, pending := pend, direct := some true }
def sOver (o : Nat) (pend up : Bool) : State :=
  { run (exOver o pend) [] [] with
    dev := { base.dev with hostUpA := up }
    parts := [(0, { Machine.Part.none with cmap := [0], orders := [ord hdr0], nextSeq := 2, exec := some (exOver o pend) })] }
theorem witness_complete_order (o : Fin 3) (pend up : Bool) : (sOver o pend up).Joined ((sOver o pend up).manRtr 0) ∧
    (sOver o pend up).dev.safeHold = false ∧ (sOver o pend up).exec? 0 = some (exOver o pend) ∧
    ((sOver o pend up).part 0).prev = none ∧ (sOver o pend up).unbalanced 0 = none ∧ ((sOver o pend up).part 0).acts = [] ∧
    ((sOver o pend up).endSignal 0 16).stopped 0 = false ∧ (exOver o pend).fault = none ∧ (exOver o pend).cancelled = false ∧
    (exOver o pend).cmds = [] ∧ (sOver o pend up).masters ((sOver o pend up).fld (Csr.hqCpl_func 0)) = up := by
  refine ⟨joins (by revert o pend up; decide +kernel) ?_, ?_⟩ <;> revert o pend up <;> decide +kernel

def rec15 : Word × Word × Word × Word := faultRec 0 0x15 0 1 0 0 0
def exPart : Exec := { ex0 with fault := some rec15, partFault := true, ended := true }
theorem witness_reexecute : (run exPart [] []).dev.safeHold = false ∧ (run exPart [] []).exec? 0 = some exPart ∧ (run exPart [] []).failsWith 0 exPart rec15 = none ∧
    ((run exPart [] []).part 0).suspended = false ∧ ((run exPart [] []).part 0).prev = none ∧ ((run exPart [] []).part 0).acts = [] := by
  decide +kernel

def sPre : State := withPart (fun x => { x with preReq := some 0 }) (run ex0 [] [])
theorem witness_preempt : (sPre.part 0).preReq = some 0 ∧ ex0.saveBad = [] ∧ sPre.exec? 0 = some ex0 ∧ sPre.preemptible 0 = true ∧ ex0.waiting = none ∧
    (sPre.part 0).prev = none ∧ ex0.upds.all (·.finished) = true ∧ sPre.legBoundary 0 = true ∧ ex0.fault = none ∧ ex0.cancelled = false ∧
    (let s1 := (sPre.flushRows 0).flushFences 0
     s1.exec? 0 = some ex0 ∧ s1.preemptible 0 = true ∧ s1.legBoundary 0 = true ∧ ∀ c ∈ s1.caravans 0, (s1.car c).xfers = [] ∧ (s1.car c).reads = [] ∧ (s1.car c).remnant = []) ∧
    sPre.dev.safeHold = false := by
  decide +kernel
def saved (r : Bool) : Preempt := ⟨ex0, none, false, 0, r, [], [], [], [], [], [], [], [], Wgh.none, 0⟩
def sSaved (r : Bool) : State := withPart (fun x => { x with preempt := some (saved r) }) base
def sGone : State := withPart (fun x => { x with preempt := some { saved true with gone := true } }) base
theorem witness_preempt_resume : ((sSaved true).part 0).preempt = some (saved true) ∧ (saved true).resume = true ∧
    (saved true).gone = false ∧ (sSaved true).exec? 0 = none ∧ ((sSaved true).wctx 0).waiting = [] := by decide +kernel
theorem witness_preempt_gone : (sGone.part 0).preempt = some { saved true with gone := true } ∧ sGone.exec? 0 = none ∧ (sGone.part 0).acts = [] := by
  decide +kernel

theorem witness_cancel_queued : (queued hdr0).BitmapsPass 0 ∧ (queued hdr0).hostUp 0 = true ∧ (queued hdr0).partOfFn 0 = some 0 ∧ ((queued hdr0).part 0).orders.any (·.seq = 1) = true ∧
    (queued hdr0).exec? 0 = none ∧ ((queued hdr0).part 0).prev = none ∧ ((queued hdr0).part 0).preempt = none :=
  ⟨fun _ _ _ => joins (by decide +kernel) (by decide +kernel), by decide +kernel⟩
theorem witness_cancel_running : (sOver 0 false true).BitmapsPass 0 ∧ (sOver 0 false true).hostUp 0 = true ∧ (sOver 0 false true).partOfFn 0 = some 0 ∧ ((sOver 0 false true).part 0).orders.any (·.seq = 1) = true ∧
    (sOver 0 false true).exec? 0 = some (exOver 0 false) ∧ (exOver 0 false).seq = 1 ∧ (exOver 0 false).cancelled = false :=
  ⟨fun _ _ _ => joins (by decide +kernel) (by decide +kernel), by decide +kernel⟩

/-- A record with a bitmap waits, and the function's bus mastering is off. -/
def sFlush : State := withPart (fun x => { x with records := [⟨1, List.replicate 64 1, 0x1000, [1]⟩] }) { base with dev := { base.dev with noMaster := [0] } }
theorem witness_flush : sFlush.BitmapsPass 0 ∧ (sFlush.part 0).records.all (·.bitmapVa ≠ 0) = true ∧
    sFlush.hostUp (sFlush.fld (Csr.hqCpl_func 0)) = true ∧ sFlush.partOfFn (sFlush.fld (Csr.hqCpl_func 0)) = some 0 ∧
    State.reset.hostUp (State.reset.fld (Csr.hqCpl_func 7)) = false :=
  ⟨fun _ _ _ => joins (by decide +kernel) (by decide +kernel), by decide +kernel⟩
def sMbox (wt : List (Nat × Nat × Bool × List Byte)) : State :=
  withPart (fun x => { x with mboxWait := wt }) { base with csr := rg [(Csr.hqMbox_state 0 31, 1)] :: base.csr }
theorem witness_mbox : base.hostUp 0 = true ∧ base.partOfFn 0 = some 0 ∧ base.fld (Csr.hqMbox_state 0 31) = 0 ∧ (sMbox []).hostUp 0 = true ∧
    (sMbox []).partOfFn 0 = some 0 ∧ (sMbox []).fld (Csr.hqMbox_state 0 31) ≠ 0 ∧ ((sMbox []).part 0).mboxWait = [] ∧
    ((sMbox [(31, 7, true, [])]).part 0).mboxWait.find? (·.1 = 31) = some (31, 7, true, []) ∧
    (sMbox [(31, 7, true, [])]).fld (Csr.hqMbox_state 0 31) ≠ 0 := by decide +kernel

def sSusp : State := withPart (fun x => { x with suspended := true }) base
theorem witness_suspended : sSusp.Joined (sSusp.manRtr 0) ∧ sSusp.hostUp 0 = true ∧
    (sSusp.dev.sealUp && decide (sSusp.slotsIn (sSusp.wghHalf 0) 0 + sSusp.fld (Csr.wghShare_slots 0) ≤ 9)) = true ∧ sSusp.partOfFn 0 = some 0 ∧ (sSusp.part 0).suspended = true ∧ (sSusp.caravans 0).all sSusp.healthyCar = true ∧
    (sSusp.caravans 0).length = (sSusp.named 0).length ∧ (∀ k ∈ sSusp.dev.fencedStacks, 0 ∉ sSusp.stackUsers k) ∧ sSusp.exec? 0 = none :=
  ⟨joins (by decide +kernel) (by decide +kernel), by decide +kernel⟩

/-! Witnesses: the Seal. -/
def sReq (args : List (Nat × Word)) (rights : Nat) (s : State) : State :=
  { s with csr := args.map (fun a => (Csr.hqSealarg 0 (a.1 - 1), a.2)) ++ (Csr.prtGrant 0, BitVec.ofNat 64 (0x1000001 + rights * 2 ^ 32)) :: s.csr }
theorem witness_seal : base.hostUp 0 = true ∧ (∀ q, q < 8 → (base.part q).acts = []) ∧ base.partOfFn 0 = some 0 ∧ base.fld (Csr.hqSealreq_status 0) ≠ 1 ∧ base.dev.sealUp = true ∧ (base.part 0).inOrder = false ∧
    base.mapRefusal 0 = some 1 ∧
    (base.win 0 (bitsOf (base.sealArg 0 1) 0 7)).isSome = true ∧ bitOf (base.sealArg 0 1) 8 = false ∧ base.right 0 2 = false := by decide +kernel
/-- Window 127 onto 2 MiB of granted HBM. -/
def argMap : List (Nat × Word) := [(1, BitVec.ofNat 64 (127 + 3 * 2 ^ 8)), (2, 0x40000000), (3, 0x400000), (4, 1)]
theorem witness_seal_map : (sReq argMap 0 base).partOfFn 0 = some 0 ∧ (sReq argMap 0 base).mapRefusal 0 = none ∧
    ((sReq argMap 0 (run ex0 [] [])).part 0).inOrder = true ∧ (sReq argMap 0 (run ex0 [] [])).mapRefusal 0 = none ∧
    (sReq argMap 0 (run ex0 [] [])).partOfFn 0 = some 0 := by decide +kernel
def argPair : List (Nat × Word) := [(1, BitVec.ofNat 64 (7 + 2 ^ 8)), (2, 0x400000), (3, 4)]
theorem witness_seal_pair : bitOf ((sReq argPair 0 base).sealArg 0 1) 8 = true ∧
    (∀ i, i < 64 → (sReq argPair 0 base).flag1 (Csr.updPair_valid (i / 8) (i % 8)) = false) ∧
    ((sReq argPair 0 base).part 0).hbm.any (fun g => inRange (bitsOf ((sReq argPair 0 base).sealArg 0 2) 21 27 * 2 ^ 21)
      (2 * bitsOf ((sReq argPair 0 base).sealArg 0 3) 0 16 * (2 * mib)) g.1 g.2) = true ∧
    rangesMeet [(bitsOf ((sReq argPair 0 base).sealArg 0 2) 21 27 * 2 ^ 21, 2 * bitsOf ((sReq argPair 0 base).sealArg 0 3) 0 16 * (2 * mib))]
      (sReq argPair 0 base).journals = false := by decide +kernel
theorem witness_seal_token : (sReq [(1, 31)] 4 base).right 0 2 = true ∧ bitsOf ((sReq [(1, 31)] 4 base).sealArg 0 1) 0 8 < 32 ∧
    (sReq [(1, 31)] 4 base).partOfFn 0 = some 0 := by decide +kernel
theorem witness_seal_preempt : (run ex0 [] []).exec? 0 = some ex0 ∧ hCoupled ex0.hdr = false ∧ ((run ex0 [] []).part 0).preempt = none ∧ ex0.fault = none ∧ ex0.cancelled = false ∧
    ((run ex0 [] []).part 0).preReq = none ∧ bitsOf ((run ex0 [] []).sealArg 0 1) 0 32 = 0 ∧ (run ex0 [] []).dev.sealUp = true := by decide +kernel
theorem witness_seal_resume : ((sSaved false).part 0).preempt = some (saved false) ∧ (saved false).named = 0 := by decide +kernel
/-- DRV_CTRL.TIMEOUT_US of caravan 0, and MSH_MCAST.STRAGGLER_US. -/
def argRwl (off : Nat) : List (Nat × Word) := [(1, BitVec.ofNat 64 off), (2, BitVec.ofNat 64 (16 * 2 ^ 8)), (3, 100)]
theorem witness_seal_rwl : findReg ((sReq (argRwl (Csr.drvCtrl 0)) 0 base).sealArg 0 1) famTable = some (fam_drvCtrl, [0]) ∧
    fam_drvCtrl.scope = .caravan ∧ 0 ∈ (sReq (argRwl (Csr.drvCtrl 0)) 0 base).caravans 0 ∧
    fam_drvCtrl.fields.any (fun x => x.acc = .rwl && x.lsb ≤ 0 && 16 ≤ x.lsb + x.width) = true ∧ Csr.drvCtrl 0 ≠ Csr.hqSealreq 0 := by decide +kernel
theorem witness_seal_rwl_shared (r : Fin 4) : findReg ((sReq (argRwl (Csr.mshMcast 1)) r base).sealArg 0 1) famTable = some (fam_mshMcast, [1]) ∧
    fam_mshMcast.scope = .shared ∧ (sReq (argRwl (Csr.mshMcast 1)) r base).right 0 1 = decide (2 ≤ r.val) ∧
    fam_mshMcast.fields.any (fun x => x.acc = .rwl && x.lsb ≤ 0 && 16 ≤ x.lsb + x.width) = true := by revert r; decide +kernel

theorem witness_pairs : base.dev.beats 0 = true ∧ base.dev.beats 1 = true ∧ (∀ p, p < 8 → base.fld (Csr.hqSealreq_status p) ≠ 1) ∧
    ({ base.dev with sealW := 0 }.seal 0) = 0 ∧ ({ base.dev with sealW := 0 }.beats 1) = true ∧ base.dev.started = true ∧
    ({ base.dev with sealE := 0 }.beats 1) = false ∧
    ({ base.dev with sealW := 0, sealE := 0 }.beats 0) = false ∧ ({ base.dev with sealW := 0, sealE := 0 }.beats 1) = false ∧
    base.dev.safeHold = false ∧ (∀ p ∈ base.dev.sealQ, base.fld (Csr.hqSealreq_status p) ≠ 1) ∧
    (regs [rg [(Csr.lnkStatus_state 5, 5)]] base).active 5 = true ∧ (Port.idle.opens (boolNat ((regs [rg [(Csr.lnkStatus_state 5, 5)]] base).dateline 5))) = true := by
  decide +kernel
/-! Witnesses: consignments, power, registers, resets, repairs. -/
def csgSt (st : Nat) : Nat × Word := rg [(Csr.csgStatus_state 0, st)]
theorem witness_csg_read : (regs [csgSt 1] base).Joined ((regs [csgSt 1] base).manRtr 0) ∧ (regs [csgSt 1] base).poison = [] ∧
    (regs [csgSt 1] base).csgState 0 = 1 ∧ (((regs [csgSt 1] base).exec? 0).map (·.committed)).getD false = false ∧
    (base.part 0).holds = [] ∧ (base.part 0).csg.lossSeen = none :=
  ⟨joins (by decide +kernel) (by decide +kernel), by decide +kernel⟩
/-- Two copies are out: to a peer on another feed and to the host. -/
def sCopy : State := withPart (fun x => { x with csg := { x.csg with copies := [(0, 0), (4, 0)] } })
  (regs [rg [(Csr.csgPeer_valid 0 0, 1), (Csr.csgPeer_feed 0 0, 3)]] base)
theorem witness_copy : (sCopy.csgCopies 0).contains (0, 0) = true ∧ sCopy.csgState 0 = 0 ∧ sCopy.copyOut 0 0 = true ∧ sCopy.copyOut 0 4 = true ∧
    sCopy.csgFeed 0 0 = 3 ∧ sCopy.fld Csr.cfgStatus_feed ≠ 3 ∧ (sCopy.part 0).csg.secured = false := by decide +kernel
theorem witness_copy_last : (((withPart (fun x => { x with csg := { x.csg with copies := [(0, 0)] } }) base).csgCopies 0).map
    (fun x => if x.1 = 0 then (0, 1) else x)).all (fun (x : Nat × Nat) => x.2 = 1) = true := by decide +kernel
/-- A list of one extent of 64 bytes, its descriptor at 0x10A00000, and a complete copy of it. -/
def sRest : State :=
  { regs [rg [(Csr.csgList_base 0, 0x10A00000), (Csr.csgList_count 0, 1)], rg [(Csr.csgCfg_enable 0, 1)]] base with
    mem := bytesAt (depotBase 0 + 0xA00000) (descOf 0x100000 1 64) }
/-- Its body is the state record (one caravan) and the extent; its header has STATE 3 and the DIGEST of that. -/
def rec0 : BitVec 512 := BitVec.ofNat 512 (2 ^ 256)
def dig0 : Nat := digestOf (leBytes 64 rec0.toNat ++ [List.replicate 64 (9 : Byte)].flatten)
theorem low_bits (N b c l n : Nat) (h : l + n ≤ N) : bitsOf (b + c * 2 ^ N) l n = bitsOf b l n := by
  have h1 : c * 2 ^ N = c * 2 ^ (N - l - n) * 2 ^ n * 2 ^ l := by
    rw [Nat.mul_assoc, Nat.mul_assoc, ← Nat.pow_add, ← Nat.pow_add]
    congr 2
    omega
  rw [bitsOf, bitsOf, h1, Nat.add_mul_div_right _ _ (by positivity), Nat.add_mul_mod_self_right]
theorem high_bits (N b c n : Nat) (h : b < 2 ^ N) : bitsOf (b + c * 2 ^ N) N n = c % 2 ^ n := by
  rw [bitsOf, Nat.add_mul_div_right _ _ (by positivity), Nat.div_eq_of_lt h, Nat.zero_add]
theorem below (N n b c : Nat) (h : b < 2 ^ N) (hc : c < 2 ^ n) : b + c * 2 ^ N < 2 ^ (N + n) := by
  have h4 : (c + 1) * 2 ^ N ≤ 2 ^ n * 2 ^ N := Nat.mul_le_mul_right _ hc
  rw [Nat.add_mul, Nat.one_mul] at h4
  rw [Nat.add_comm N n, Nat.pow_add]
  omega
def copy0 : CsgCopy := ⟨BitVec.ofNat 512 (3 * 2 ^ 24 + dig0 * 2 ^ 192), rec0, [List.replicate 64 9], []⟩
theorem digestOf_lt (b : List Byte) : digestOf b < 2 ^ 64 := Nat.mod_lt _ (Nat.two_pow_pos 64)
theorem dig0_lt : dig0 < 2 ^ 64 := digestOf_lt _
theorem header_toNat (d : Nat) (h : d < 2 ^ 64) : (BitVec.ofNat 512 (3 * 2 ^ 24 + d * 2 ^ 192)).toNat = 3 * 2 ^ 24 + d * 2 ^ 192 := by
  have h1 := below 192 64 (3 * 2 ^ 24) d (by norm_num) h
  have h2 : (2 : Nat) ^ (192 + 64) < 2 ^ 512 := Nat.pow_lt_pow_right (by decide) (by decide)
  rw [BitVec.toNat_ofNat]
  exact Nat.mod_eq_of_lt (Nat.lt_trans h1 h2)
theorem copy0_header : copy0.header.toNat = 3 * 2 ^ 24 + dig0 * 2 ^ 192 := header_toNat dig0 dig0_lt
theorem copy0_state : copy0.state = 3 := by
  rw [CsgCopy.state, CsgCopy.hd, copy0_header]
  exact (low_bits 192 _ _ 24 8 (by omega)).trans (by decide)
theorem copy0_digest : copy0.digestOk = true := by
  rw [CsgCopy.digestOk, decide_eq_true_eq, CsgCopy.hd, copy0_header]
  exact ((high_bits 192 _ _ 64 (by norm_num)).trans (Nat.mod_eq_of_lt dig0_lt)).symm
theorem witness_restore : sRest.Joined (sRest.manRtr 0) ∧ copy0.state = 3 ∧ copy0.digestOk = true ∧ sRest.hostUp 0 = true ∧ sRest.dev.sealUp = true ∧
    sRest.partOfFn 0 = some 0 ∧ sRest.exec? 0 = none ∧ sRest.csgState 0 = 0 ∧
    sRest.csgListOk 0 true = true ∧ (sRest.csgList 0).length = 1 ∧ sRest.flag1 (Csr.csgCfg_verify 0) = false :=
  ⟨joins (by decide +kernel) (by decide +kernel), copy0_state, copy0_digest, by decide +kernel⟩
theorem witness_restore_refused : ({ copy0 with header := 0 } : CsgCopy).state ≠ 3 ∧
    ({ base with dev := { base.dev with sealW := 0, sealE := 0 } } : State).dev.sealUp = false := by decide +kernel
/-- A packet by its route header's fields (byte, value). -/
def pkt (vc : Nat) (fs : List (Nat × Nat)) (bs : List Byte) : Packet :=
  ⟨vc, 1, BitVec.ofNat 192 ((((8, 1) :: fs).map (fun (b, v) => v * 2 ^ (8 * b))).foldl (· + ·) 0), bs⟩
/-- Port 0 ACTIVE with a window of every kind, flags included, from every node to partition 0. -/
def sPort : State :=
  regs [rg [(Csr.lnkStatus_state 0, 5)], rg [(Csr.lnkWinA_valid 0 0, 1), (Csr.lnkWinA_kinds 0 0, 127)], rg [(Csr.lnkWinB_pages 0 0, 2)],
        rg [(Csr.csgPeer_valid 0 0, 1)], rg [(Csr.csgArea_base 0, 0), (Csr.csgArea_slotGib 0, 1)]] base
def kCsg : Packet := pkt 4 [(4, 5), (16, 0x100000)] [1, 2, 3]
theorem witness_csg_packet : sPort.Joined (rtrOfPort 0) ∧ sPort.active 0 = true ∧ kCsg.kind = 5 ∧ sPort.malformed kCsg = false ∧ kCsg.target = sPort.self ∧
    kCsg.payload ≠ [] ∧ sPort.csgEntry kCsg = some (0, 0) ∧ sPort.windowOk 0 kCsg 0 = true ∧
    sPort.rowCheck 0 0 kCsg.addr kCsg.payload.length true = none := ⟨joins (by decide +kernel) (by decide), by decide +kernel⟩
theorem witness_csg_ack : sPort.malformed (pkt 4 [(4, 5)] []) = false ∧ (pkt 4 [(4, 5)] []).target = sPort.self ∧
    (∃ j, j < 32 ∧ sPort.flag1 (Csr.csgPeer_valid (j / 4) (j % 4)) = true ∧ sPort.fld (Csr.csgPeer_node (j / 4) (j % 4)) = (pkt 4 [(4, 5)] []).src ∧
      sPort.windowOk 0 (pkt 4 [(4, 5)] []) (j / 4) = true) := ⟨by decide +kernel, by decide +kernel, 0, by decide +kernel⟩
theorem witness_risk : (regs [rg [(Csr.csgCfg_enable 0, 1)]] base).flag1 (Csr.csgCfg_enable 0) = true ∧
    (base.part 0).csg.above = false ∧ base.fld Csr.csgRisk_threshold ≤ base.riskOf 255 10000 255 0 / 250 := by decide +kernel

theorem witness_p2 : (base.caravans 0).isEmpty = false ∧ (regs [rg [(partState 0, 1), (Csr.cprPstate_p2IdleUs, 1)]] base).fld (partState 0) = 1 ∧
    (regs [rg [(partState 0, 1), (Csr.cprPstate_p2IdleUs, 1)]] base).fld Csr.cprPstate_p2IdleUs ≠ 0 ∧ base.exec? 0 = none ∧
    (regs [rg [(partState 0, 1), (Csr.cprPstate_p2IdleUs, 1)]] base).fld Csr.cprPstate_device = 0 := by decide +kernel
theorem witness_p3 : base.fld Csr.cprPstate_device = 0 ∧ base.dev.started = true ∧ base.p3Ready = true ∧ base.wf = true ∧
    (queued hdr0).p3Ready = false ∧ (queued hdr0).dev.started = true ∧
    ({ base with dev := { base.dev with p3Pending := true } } : State).p3Ready = true ∧
    ({ queued hdr0 with dev := { base.dev with p3Pending := true } } : State).p3Ready = false ∧
    (∀ h : HalfId, base.dev.fenced (unitInst h 0 0x70) 1 0 = true → h.val ∈ base.dev.fencedHalves) ∧
    ({ base with dev := { base.dev with p3Pending := true } } : State).p3Entering = true := by decide +kernel
theorem witness_p3_exit : (regs [rg [(Csr.cprPstate_device, 2)]] base).fld Csr.cprPstate_device ≠ 0 ∧
    (regs [rg [(Csr.cprPstate_device, 2)]] base).flag1 Csr.cprClk_linkRefLost = false := by decide +kernel
theorem witness_supplies : base.dev.lug 0 = true ∧ base.dev.lug 1 = true ∧ ({ base.dev with lugB := false } : Dev).lug 1 = false ∧
    base.dev.started = true ∧ State.reset.dev.started = false ∧ base.MayLose 0 ∧ (regs [rg [(Csr.cprPstate_device, 2)]] base).MayLose 0 ∧
    (regs [rg [(Csr.cprPstate_device, 2)]] base).fld Csr.cprPstate_device = 2 ∧ base.fld Csr.cprPstate_device ≠ 2 ∧
    State.reset.flag1 (refBit .link) = false ∧
    (regs [rg [(Csr.cprClk_linkRefLost, 1), (Csr.cprClk_pcieRefLost, 1)]] base).flag1 (refBit .link) = true ∧
    (regs [rg [(Csr.cprClk_linkRefLost, 1), (Csr.cprClk_pcieRefLost, 1)]] base).flag1 (refBit .pcie) = true := by
  refine ⟨by decide, by decide, by decide, by decide, by decide, ⟨by decide, by decide, by decide⟩, ⟨by decide, by decide, by decide⟩, ?_, ?_, ?_, ?_, ?_⟩ <;>
    decide +kernel
theorem witness_monitor : (base.caravans 0).any (fun c => fieldOf c = 0) = true ∧ base.fld Csr.cprCap_holdC ≤ 114 ∧
    base.fld Csr.cprCap_throttleC ≤ 114 ∧ base.dev.pwrgd = true ∧
    ({ Dev.por with pwrgd := false } : Dev).pwrgd = false := by decide +kernel
theorem witness_cap_loop : (run ex0 [] []).capParts [5000] = [(0, 5000, (run ex0 [] []).fld (Csr.cprShare_shareW 0))] ∧
    (run ex0 [] []).capW < 5000 := by decide +kernel

theorem witness_register : base.reaches .seal = true ∧ base.reaches (.host 0) = true ∧ base.reaches (.host 4) = false ∧ findReg 0 famTable = some (fam_devId, []) ∧ findReg 1 famTable = none ∧ base.mayWrite .seal fam_devId [] = true ∧
    base.mayWrite (.host 0) fam_devId [] = false ∧ findReg (Csr.updSeed 0) famTable = some (fam_updSeed, [0]) ∧
    base.mayWrite (.host 0) fam_updSeed [0] = true := by decide +kernel
theorem witness_bar2 : base.Joined (rtrOfHost 0) ∧ base.dev.sealUp = true ∧ base.hostUp 0 = true ∧ base.hostUp 4 = false ∧ base.partOfFn 0 = some 0 ∧ base.partOfFn 1 = none ∧ base.hostUp 1 = true ∧
    (List.range 2).map (fun i => base.barPlace 0 (base.fld (Csr.hqCpl_aperture 0) * (16 * gib) + 0x100000 + i) true) =
      [0x100000, 0x100001].map some ∧
    (List.range 2).map (fun i => base.barPlace 0 (base.fld (Csr.hqCpl_aperture 0) * (16 * gib) + 0x100000 + i) false) =
      [0x100000, 0x100001].map some ∧ (∀ pa ∈ [0x100000, 0x100001], regionOf pa ≠ none) ∧
    base.barPlace 0 0x3FFFFFFF false = none ∧ base.barPlace 0 0x3FFFFFFF true = none :=
  ⟨joins (by decide +kernel) (by decide), by decide +kernel⟩

def cond (a b : Bool) : StartCond := ⟨a, b, true, true, []⟩
theorem witness_start_up : ¬ (State.reset.dev.pwrgd = true ∧ (State.reset.dev.started = true ∨ State.reset.dev.thermtrip = true)) ∧
    State.reset.dev.pick = none ∧ base.dev.pwrgd = true ∧ base.dev.pick = none ∧ (cond true false).lugA = true := by decide +kernel
/-- An image for any device, with every caravan of the west half in partition 0. -/
def img1 : Image := ⟨7, 0, 0xFFFFFFFF, 0, 1, 1, 1, 0, [], [], [(0, ⟨15, 0xFFF, 1, 4, 100, [(0, gib)], (0, 0)⟩)], [], [], [], [], []⟩
/-- Signatures are opaque: the witness assumes one that verifies. -/
theorem witness_start_image (h : Config.signatureOk 7 = true) :
    ({ State.reset.dev with slot0 := some img1 } : Dev).pick = some (0, img1) := by
  have hw : img1.wf = true := by decide +kernel
  have hs : img1.sound = true := by decide +kernel
  have hm : Config.minImageSerial.toNat ≤ img1.imageSerial.toNat := by
    have := Config.minImageSerial.isLt
    show _ ≤ 4294967295
    omega
  have hv : img1.verifies = true := by simp [Image.verifies, hw, hs, show img1.fingerprint = 7 from rfl, h, show img1.targetSerial = 0 from rfl]
  have hk : img1.serialOk = true := decide_eq_true hm
  simp [Dev.pick, Dev.slot, State.reset, Dev.por, hv, hk]
theorem witness_crst : State.reset.partOfCar 23 = none ∧ base.partOfCar 0 = some 0 := by decide +kernel
theorem witness_lrst : base.dev.factorUp = true ∧ base.portState 0 ≠ 6 ∧ base.wf = true := by decide +kernel

theorem witness_rebuild : ({ base.dev with rebuild := [0] } : Dev).rebuild.contains 0 = true ∧ base.dev.journalE = 8 ∧
    (0 ∉ base.dev.fencedStacks ∧ (0 : Nat) ≠ 8) := by decide +kernel
/-- Row 5 of stack 0 holds a poisoned word; row 6 is not marked. -/
theorem witness_ppr : (∃ w ∈ ({ base with poison := [5 * 256] } : State).poison, w * 8 / 2048 = rowAt 0 5 / 2048) ∧
    (∀ w ∈ ({ base with poison := [5 * 256] } : State).poison, w * 8 / 2048 ≠ rowAt 0 6 / 2048) ∧
    (0 : Nat) ∉ base.dev.fencedStacks ∧ (∀ p, p < 8 → base.exec? p = none) ∧ base.dev.fences.length < 1023 ∧
    Map.get 0 base.dev.rowReads (rowAt 0 6 / 2048) ≤ 8 ∧ (run ex0 [] []).mapsRow 0 15 0 = false := by decide +kernel
theorem witness_scrub : Map.get 0 base.dev.poisoned24 0 = 0 ∧ (((List.range 65).filter (fun w => 0 ≤ w && w < 6 * gib)).filter (fun w => !base.poison.contains w)).length = 65 ∧
    (((List.range 64).filter (fun w => 0 ≤ w && w < 6 * gib)).filter (fun w => !base.poison.contains w)).length = 64 ∧
    base.dev.fenced (unitInst 0 0 0x30) 1 0 = false ∧ base.dev.fences.length < 1024 ∧ base.dev.fenced (unitInst 0 31 0x20) 1 0 = false := by decide +kernel
theorem witness_restore_verify : (regs [rg [(Csr.csgCfg_verify 0, 1)]] base).flag1 (Csr.csgCfg_verify 0) = true ∧
    ({ copy0 with record := BitVec.ofNat 512 (2 ^ 256 + (base.reg Csr.devLayout).toNat * 2 ^ 192) } : CsgCopy).layout = base.reg Csr.devLayout ∧
    copy0.caravans = (base.caravans 0).length := by decide +kernel
/-! Witnesses: torus links. -/
def portAt (i st : Nat) (sec : Nat) : State := regs [rg [(Csr.lnkStatus_state i, st)], rg [(Csr.lnkCtrl_secMode i, sec), (Csr.lnkCtrl_retryLimit i, 2)]] base
theorem witness_training : (portAt 5 1 0).portState 5 = 1 ∧ (portAt 5 2 0).portState 5 = 2 ∧ (portAt 5 3 0).portState 5 = 3 ∧
    (portAt 5 4 2).portState 5 = 4 ∧ (portAt 5 4 2).fld (Csr.lnkCtrl_secMode 5) = 2 ∧ ((portAt 5 4 0).port 5).isolations24 < 2 ∧
    ((portAt 5 1 0).port 5).reported = false := by decide +kernel
/-- In mode 1 the exchange leads to SECURE. -/
theorem witness_init_secure : (portAt 0 3 1).portState 0 = 3 ∧ (portAt 0 3 1).fld (Csr.lnkCtrl_secMode 0) ≠ 0 := by decide +kernel
/-- A step of the ring away, the partner's own port. -/
theorem witness_init : (portAt 0 3 0).stepCoord (portAt 0 3 0).self 0 = 0 ∧ (portAt 0 3 0).fld (Csr.lnkCtrl_secMode 0) = 0 := by decide +kernel
def unacked (r : Nat) : State := { portAt 0 5 0 with ports := [(0, { Port.idle with txSeq := 3, resends := r, replay := [1, 2, 3] })] }
theorem witness_retry : (unacked 0).portState 0 = 5 ∧ ((unacked 0).port 0).outstanding = 3 ∧
    max 1 ((unacked 0).fld (Csr.lnkCtrl_retryLimit 0)) > ((unacked 0).port 0).resends + 1 ∧
    max 1 ((unacked 1).fld (Csr.lnkCtrl_retryLimit 0)) ≤ ((unacked 1).port 0).resends + 1 ∧ ((unacked 1).port 0).isolations24 < 2 := by decide +kernel
theorem witness_key : (regs [rg [(Csr.lnkStatus_state 0, 5), (Csr.lnkStatus_encrypted 0, 1)]] base).active 0 = true ∧
    (regs [rg [(Csr.lnkStatus_state 0, 5), (Csr.lnkStatus_encrypted 0, 1)]] base).flag1 (Csr.lnkStatus_encrypted 0) = true := by decide +kernel

/-- A flit from the bits below its CRC and the CRC. -/
def flitBy (b c : Nat) : BitVec 2048 := BitVec.ofNat 2048 (b % 2 ^ 2016 + c % 2 ^ 32 * 2 ^ 2016)
theorem flitBy_toNat (b c : Nat) : (flitBy b c).toNat = b % 2 ^ 2016 + c % 2 ^ 32 * 2 ^ 2016 := by
  rw [flitBy, BitVec.toNat_ofNat]
  exact Nat.mod_eq_of_lt (below 2016 32 _ _ (Nat.mod_lt _ (Nat.pow_pos (by omega))) (Nat.mod_lt _ (by omega)))
theorem flitBy_low (b c l n : Nat) (h : l + n ≤ 2016) : flitBits (flitBy b c) l n = bitsOf (b % 2 ^ 2016) l n := by
  rw [flitBits, flitBy_toNat]
  exact low_bits 2016 _ _ l n h
theorem flitBy_crc (b c : Nat) : flitBits (flitBy b c) (8 * 252) 32 = c % 2 ^ 32 := by
  rw [flitBits, flitBy_toNat]
  exact (high_bits 2016 _ _ 32 (Nat.mod_lt _ (Nat.pow_pos (by omega)))).trans (Nat.mod_mod _ _)
/-- The CRC of the bytes below it. -/
def crcOf (b : Nat) : Nat := (crc32 (leBytes 252 (bitsOf (b % 2 ^ 2016) 0 2016))).toNat
theorem flitBy_crc32 (b c : Nat) : (crc32 (flitBytes (flitBy b c) 0 252)).toNat = crcOf b := by
  rw [flitBytes]
  exact congrArg (fun n => (crc32 (leBytes 252 n)).toNat) (flitBy_low b c 0 2016 (by omega))
theorem crcOf_mod (b : Nat) : crcOf b % 2 ^ 32 = crcOf b := Nat.mod_eq_of_lt (BitVec.isLt _)
/-- Bits of a flit from (lowest bit, value) pairs. -/
def bitsAt (fs : List (Nat × Nat)) : Nat := (fs.map (fun (l, v) => v * 2 ^ l)).foldl (· + ·) 0
/-- Sequence 1, VC 4, START and END, 24 bytes that hold a header of KIND 4 and one flit. -/
def b1 : Nat := bitsAt [(0, 1), (32, 4), (35, 1), (36, 1), (50, 24), (8 * 12, 4), (8 * 16, 1)]
def flit1 : BitVec 2048 := flitBy b1 (crcOf b1)
theorem flit1_low (l n v : Nat) (h : l + n ≤ 2016) (hv : bitsOf (b1 % 2 ^ 2016) l n = v) : flitBits flit1 l n = v := (flitBy_low _ _ l n h).trans hv
theorem witness_flit : sPort.portState 0 = 5 ∧ sPort.flag1 (Csr.lnkStatus_encrypted 0) = false ∧ flitBits flit1 39 1 = 0 ∧
    (crc32 (flitBytes flit1 0 252)).toNat = flitBits flit1 (8 * 252) 32 ∧ (sPort.port 0).hostile flit1 = false ∧ flitBits flit1 32 3 < 6 ∧
    flitBits flit1 38 1 = 0 ∧ flitBits flit1 0 16 = ((sPort.port 0).rxSeq + 1) % 2 ^ 16 ∧ flitBits flit1 36 1 = 1 ∧ flitBits flit1 37 1 = 0 ∧
    sPort.rxUsed 0 4 < 2048 := by
  refine ⟨by decide +kernel, by decide +kernel, flit1_low _ _ _ (by omega) (by decide +kernel), ?_, ?_,
    Nat.lt_of_le_of_lt (Nat.le_of_eq (flit1_low 32 3 4 (by omega) (by decide +kernel))) (by omega), flit1_low _ _ _ (by omega) (by decide +kernel),
    (flit1_low 0 16 1 (by omega) (by decide +kernel)).trans (by decide +kernel), flit1_low _ _ _ (by omega) (by decide +kernel),
    flit1_low _ _ _ (by omega) (by decide +kernel), by decide +kernel⟩
  · rw [flit1, flitBy_crc32, flitBy_crc, crcOf_mod]
  · simp only [Port.hostile, flit1_low 16 16 0 (by omega) (by decide +kernel), flit1_low 32 3 4 (by omega) (by decide +kernel),
      flit1_low 50 8 24 (by omega) (by decide +kernel), flit1_low 58 6 0 (by omega) (by decide +kernel), flit1_low 41 3 0 (by omega) (by decide +kernel),
      flit1_low 44 6 0 (by omega) (by decide +kernel), flit1_low 38 1 0 (by omega) (by decide +kernel),
      flit1_low 0 16 1 (by omega) (by decide +kernel), flit1_low 39 1 0 (by omega) (by decide +kernel),
      flit1_low (8 * 236) 128 0 (by omega) (by decide +kernel)]
    decide +kernel
theorem witness_flit_crc : (crc32 (flitBytes (flitBy b1 (crcOf b1 + 1)) 0 252)).toNat ≠ flitBits (flitBy b1 (crcOf b1 + 1)) (8 * 252) 32 := by
  rw [flitBy_crc32, flitBy_crc]
  have := crcOf_mod b1
  omega
/-- A poisoned packet in the making; the beacon of the partner and one that is not. -/
theorem witness_flit_cut : (⟨[], 1, false, true⟩ : Asm).cut = true ∧ sPort.active 0 = true ∧ (0 : BitVec 15).toNat = sPort.fld (Csr.lnkStatus_peer 0) ∧
    (1 : BitVec 15).toNat ≠ sPort.fld (Csr.lnkStatus_peer 0) := by decide +kernel
/-- A flit of a packet that goes on, and one whose header has a reserved KIND. -/
theorem witness_flit_more : bitsOf (bitsAt [(0, 1), (32, 4), (35, 1), (50, 24)]) 36 1 = 0 ∧
    sPort.malformed ⟨4, 1, BitVec.ofNat 192 (4 * 2 ^ 32 + 2 ^ 64), []⟩ = false ∧
    sPort.malformed ⟨4, 1, BitVec.ofNat 192 (9 * 2 ^ 32 + 2 ^ 64), []⟩ = true := by decide +kernel

/-- Two nodes on X; ports 0 and 1 ACTIVE. -/
def sRoute (st0 : Nat) : State :=
  regs [rg [(Csr.lnkStatus_state 0, st0)], rg [(Csr.lnkStatus_state 1, 5)], rg [(Csr.lnkNode_xsizeM1, 1)]] base
def kFwd (hops : Nat) : Packet := pkt 4 [(0, 1), (4, 5), (11, hops)] [1]
theorem witness_forward : (sRoute 5).active 1 = true ∧ (sRoute 5).malformed (kFwd 95) = false ∧
    ((sRoute 5).leg2 (kFwd 95)).target ≠ (sRoute 5).self ∧ (sRoute 5).atHead 1 (kFwd 95) = true ∧ (kFwd 95).kind < 6 ∧
    (sRoute 5).portTo ((sRoute 5).leg2 (kFwd 95)).target = some 0 ∧ (kFwd 95).hops + 1 ≤ 96 ∧ (sRoute 5).active 0 = true ∧
    ((sRoute 5).port 0).fits { ((sRoute 5).leg2 (kFwd 95)).setF 11 1 96 with
      vc := (sRoute 5).nextVc 1 0 (kFwd 95) ((sRoute 5).leg2 (kFwd 95) ≠ kFwd 95) } = true ∧ bitOf ((sRoute 5).tollMask 96) 33 = false ∧
    ({ Port.idle with used := [(4, 2048)] } : Port).fits (kFwd 95) = false ∧ ({ Port.idle with used := [(5, 2048)] } : Port).fits { kFwd 95 with vc := 5 } = false ∧
    96 < (kFwd 96).hops + 1 ∧ (sRoute 0).active 0 = false ∧
    (sRoute 0).portTo ((sRoute 0).leg2 (kFwd 0)).target = some 0 := by decide +kernel

/-- Partition flag 3970 is elastic; queue 5 of caravan 0 is elastic with two slots. -/
def sDel : State :=
  { regs [rg [(Csr.carQueue_depth 0 5, 2), (Csr.carQueue_elastic 0 5, 1)]] sPort with flags := [(3970, ⟨0, 1, true⟩)] }
def kFlag : Packet := pkt 2 [(4, 4), (12, 3970)] []
def kWrite : Packet := pkt 4 [(4, 3), (12, 3970), (16, 0x100000)] [1, 2]
def kQueue : Packet := pkt 4 [(4, 2), (12, 5 + 0x3FF * 2 ^ 6)] (List.replicate 64 7)
theorem witness_deliver : sDel.Joined (rtrOfPort 0) ∧ (sDel.exec? 0 = none) ∧ sDel.active 0 = true ∧ [kFlag, kWrite, kQueue].all (fun k => !sDel.malformed k && k.target = sDel.self &&
    sDel.atHead 0 k && 2 ≤ k.kind && k.kind ≤ 4 && sDel.windowOk 0 k k.part && sDel.flagOk k.part k.flag) = true ∧
    (sDel.flagAt (sDel.home 0 * 4096 + kFlag.flag)).count < 65535 ∧ sDel.rowCheck 0 0 kWrite.addr 2 true = none ∧
    (sDel.caravans kQueue.part)[kQueue.f 14 1]? = some 0 ∧ kQueue.flag = 0 ∧ bitsOf kQueue.index 0 6 = 5 ∧ sDel.qElastic 0 5 = true ∧
    sDel.qOcc 0 5 < sDel.qDepth 0 5 ∧ kFlag.kind = 4 ∧ kWrite.kind = 3 ∧ kQueue.kind = 2 :=
  ⟨joins (by decide +kernel) (by decide), by decide +kernel⟩
theorem witness_deliver_refused : (regs [rg [(Csr.lnkStatus_state 0, 5)]] base).active 0 = true ∧
    (regs [rg [(Csr.lnkStatus_state 0, 5)]] base).windowOk 0 kFlag kFlag.part = false := by decide +kernel

/-- A send queue of caravan 0 with one entry: a flag of the next node. -/
def sSendQ : State :=
  { regs [rg [(Csr.lnkTxq_sendq 0, 5 + 2 ^ 11)], rg [(Csr.carQueue_depth 0 5, 2), (Csr.carQueue_elastic 0 5, 1), (Csr.carQueue_occupancy 0 5, 1)]]
      (sRoute 5) with
    queues := [(5, { Queue.empty with ready := [0], offs := [16] })]
    mem := bytesAt (depotBase 0) (leBytes 2 1 ++ [4, 0] ++ List.replicate 24 0 ++ leBytes 2 3968) }
/-- What a send entry of the queue is stated with. -/
def sendsB (s : State) : Bool :=
  let ent (c q : Nat) : SendEnt := parseSend (s.bytes (s.qSlot c q 0) 64)
  decide ((s.sendQueues 0).find? (fun x => s.sendRes 0 (s.queue (queueKey x.2.1 x.2.2)) (ent x.2.1 x.2.2) ≠ .held) = some (0, 0, 5)) &&
  decide (s.sendRes 0 (s.queue (queueKey 0 5)) (ent 0 5) = .go) && decide (s.poisonIn 0 0 (ent 0 5).local_ (ent 0 5).bytes = none)
/-- A remote write of 8,193 bytes takes two packets. -/
def sSendW : State := { sSendQ with
  mem := bytesAt (depotBase 0) (leBytes 2 1 ++ [3, 0, 0, 0, 0, 0] ++ leBytes 8 0 ++ leBytes 8 0x100000 ++ leBytes 4 8193) }
theorem witness_send_entry : (sSendQ.Joined (rtrOfPort 0) ∧ sSendW.Joined (rtrOfPort 0)) ∧ sendsB sSendQ = true ∧ (sSendQ.queue 5).given + 1 = (parseSend (sSendQ.bytes (sSendQ.qSlot 0 5 0) 64)).packets ∧
    sSendQ.portTo ((sSendQ.sendVia (sSendQ.queue 5) (parseSend (sSendQ.bytes (sSendQ.qSlot 0 5 0) 64))).getD 1) = some 0 ∧
    sSendQ.active 0 = true ∧ (sSendQ.port 0).owners = [] ∧ (sSendQ.port 0).txq = [] :=
  ⟨⟨joins (by decide +kernel) (by decide), joins (by decide +kernel) (by decide)⟩, by decide +kernel⟩
theorem witness_send_entry_long : sendsB sSendW = true ∧
    (sSendW.queue 5).given + 1 < (parseSend (sSendW.bytes (sSendW.qSlot 0 5 0) 64)).packets := by decide +kernel
theorem witness_detour : [(1 + 2 ^ 31 : Word)].all (sRoute 5).detourOk = true ∧ [(1 : Word)].all (sRoute 5).detourOk = false := by decide +kernel

/-! Witnesses: the weighhouse. -/
def whdr (fs : List (Nat × Nat)) : BitVec 512 := BitVec.ofNat 512 (((fs ++ [(4, 1)]).map (fun (b, v) => v * 2 ^ (8 * b))).foldl (· + ·) 0)
/-- Two members of one group, this one first, in epoch 1; port 0 ACTIVE. -/
def ww : Wgh := { Wgh.none with members := [0, 1], self := 0 }
def sWgh (e : Option Exec) (x : Wgh) : State :=
  withPart (fun y => { y with exec := e }) { regs (rg [(Csr.lnkStatus_state 0, 5)] :: wreg) base with wgh := [(0, x)] }
/-- A payload of zero bytes. -/
def pay (n : Nat) : List Byte := List.replicate n 0
def takesW (s : State) (typ : Nat) (hdr : BitVec 512) (n : Nat) : Bool :=
  decide ((parseWHdr hdr).typ = typ) && s.active 0 && !(s.part 0).wghLost && decide (s.jobPart (parseWHdr hdr).job = some 0) &&
  !((s.wctx 0).malformed hdr n false) && decide ((s.wctx 0).pairOf (parseWHdr hdr).step (parseWHdr hdr).attempt = .taken) &&
  decide ((parseWHdr hdr).epoch = s.fld (Csr.wghEpoch_epoch 0))
theorem takesW_iff {s : State} {typ n : Nat} {hdr : BitVec 512} (h : takesW s typ hdr n = true) : s.WghTakes typ 0 hdr (pay n) 0 := by
  simp only [takesW, Bool.and_eq_true, Bool.not_eq_true', decide_eq_true_eq] at h
  exact ⟨h.1.1.1.1.1.1, h.1.1.1.1.1.2, h.1.1.1.1.2, h.1.1.1.2, by rw [pay, List.length_replicate]; exact h.1.1.2, h.1.2, h.2⟩
/-- A bucket of one slice, owned by the member of its number's parity. -/
def recW (b : Nat) (wide : Bool) : SendRec := ⟨1, 0, 0, b, 0, wide, false, 1, [0x100000], [Acc.zero], 1, [], [], [], [], [], []⟩
theorem witness_open_chunk : let s := sWgh none { ww with sends := [recW 2 false] }
    s.Joined (s.wghRtr 0) ∧
    (s.wctx 0).slots.length < s.fld (Csr.wghShare_slots 0) ∧ (s.part 0).wghLost = false ∧ (s.wctx 0).nextOwned = some (recW 2 false, 0) ∧
    s.chunkPoison 0 (recW 2 false) 0 = none ∧ ww.group = [0, 1] :=
  ⟨joins (by decide +kernel) (by decide +kernel), by decide +kernel⟩
def hOpen : BitVec 512 := whdr [(0, 1), (12, 3), (22, 1), (24, 1)]
theorem witness_open : (sWgh none { ww with sends := [recW 3 false] }).Joined ((sWgh none { ww with sends := [recW 3 false] }).wghRtr 0) ∧
    (sWgh none ww).WghTakes 1 0 hOpen (pay 0) 0 ∧ (parseWHdr hOpen).sender = ww.owner 3 0 ∧ (parseWHdr hOpen).sender ≠ ww.self ∧
    ww.failed 3 0 = false ∧ ww.rec? 3 = none ∧ ({ ww with sends := [recW 3 false] } : Wgh).rec? 3 = some (recW 3 false) ∧
    (sWgh none { ww with sends := [recW 3 false] }).chunkPoison 0 (recW 3 false) 0 = none :=
  ⟨joins (by decide +kernel) (by decide +kernel), takesW_iff (by decide +kernel), by decide +kernel, by decide +kernel, by decide +kernel, by decide +kernel, by decide +kernel, by decide +kernel⟩
/-- The slot of chunk 0 of bucket 2 with one element. -/
def slotW (wide : Bool) (got : List (Nat × Nat)) : Slot := ⟨0, 0, 2, 0, wide, 1, 1, [Acc.zero], got⟩
def sSlot (wide : Bool) (got : List (Nat × Nat)) : State := sWgh none { ww with slots := [slotW wide got], sends := [recW 2 wide] }
def hContrib (wide : Bool) : BitVec 512 := whdr [(0, if wide then 4 else 2), (12, 2), (20, 1), (22, 1), (24, 1)]
theorem witness_contrib (wide : Bool) : (sSlot wide []).WghTakes (if wide then 4 else 2) 0 (hContrib wide) (pay (if wide then 80 else 4)) 0 ∧
    ((sSlot wide []).wctx 0).own? 2 = some (recW 2 wide) ∧ (recW 2 wide).slices = (parseWHdr (hContrib wide)).slices ∧
    ww.group.contains 1 = true ∧ (slotW wide [(1, 0)]).got.contains (1, 0) = true ∧ (slotW wide [(1, 0)]).complete ww = false ∧
    (slotW wide [(1, 0), (0, 0)]).complete ww = true ∧ 0 < chunkPkts wide 1 ∧ (parseWHdr (hContrib wide)).count = min (pktElems wide) 1 := by
  refine ⟨takesW_iff ?_, ?_⟩ <;> revert wide <;> decide +kernel
/-- The first packet of a result of the other member's bucket 3. -/
def hResult (wide : Bool) : BitVec 512 := whdr [(0, if wide then 5 else 3), (12, 3), (20, pktElems wide), (22, 1), (24, if wide then 1 else 0)]
def exUpd3 : Exec := { ex0 with upds := [upd1] }
theorem witness_result (wide : Bool) : (sWgh (some exUpd3) { ww with sends := [recW 3 wide] }).WghTakes (if wide then 5 else 3) 0 (hResult wide)
      (pay (if wide then 2560 else 4096)) 0 ∧
    (sWgh (some exUpd3) { ww with sends := [recW 3 wide] }).updIssued 0 3 = true ∧ (parseWHdr (hResult wide)).sender = ww.owner 3 0 ∧
    0 < chunkPkts wide (chunkElems wide 1 0) ∧ (parseWHdr (hResult wide)).count = min (pktElems wide) (chunkElems wide 1 0) ∧
    1 < chunkPkts wide (chunkElems wide 1 0) := by
  refine ⟨takesW_iff ?_, ?_⟩ <;> revert wide <;> decide +kernel
/-- All packets of the chunk but the first have come. -/
def recLast (wide : Bool) : SendRec :=
  { recW 3 wide with got := ((List.range (chunkPkts wide (chunkElems wide 1 0))).drop 1).map (fun i => ⟨0, i, false, [], [], false, false⟩) }
theorem witness_result_last (wide : Bool) : (sWgh (some exUpd3) { ww with sends := [recLast wide] }).Joined ((sWgh (some exUpd3) { ww with sends := [recLast wide] }).wghRtr 0) ∧
    (recLast wide).got.any (fun g => g.chunk = 0 && g.packet = 0) = false ∧
    (recLast wide).resolved.contains 0 = false ∧
    chunkPkts wide (chunkElems wide 1 0) ≤ ((⟨0, 0, false, [], [], false, false⟩ :: (recLast wide).got : List ResultIn).filter (·.chunk = 0)).length := by
  cases wide <;> exact ⟨joins (by decide +kernel) (by decide +kernel), by decide +kernel⟩
def hVote : BitVec 512 := whdr [(0, 6), (20, 1), (22, 1), (28, 1)]
def exVote : Exec := { ex0 with committed := true, voteOff := some 16 }
def wVote : Wgh := { ww with voted := some 1 }
theorem witness_vote : (sWgh none ww).WghTakes 6 0 hVote (pay 80) 0 ∧ ww.votes.any (·.1 = 1) = false ∧
    (sWgh (some exVote) wVote).WghTakes 6 0 hVote (pay 80) 0 ∧ (sWgh (some exVote) wVote).exec? 0 = some exVote ∧
    ((sWgh (some exVote) wVote).wctx 0).peers.isEmpty = false ∧ ({ wVote with votes := [(1, 1, Acc.zero)] } : Wgh).missing = [] ∧
    ((sWgh (some exVote) wVote).wctx 0).voted.isSome = true ∧ ((sWgh (some exVote) wVote).wctx 0).missing = [1] :=
  ⟨takesW_iff (by decide +kernel), by decide +kernel, takesW_iff (by decide +kernel), by decide +kernel, by decide +kernel, by decide +kernel,
    by decide +kernel, by decide +kernel⟩
theorem witness_nak (r : Fin 3) : r ≠ 0 → (sWgh (some ex0) { ww with sends := [recW 2 false] }).WghTakes 7 0 (whdr [(0, 7), (12, 2), (22, 1), (28, r)]) (pay 0) 0 ∧
    (sWgh (some ex0) { ww with sends := [recW 2 false] }).exec? 0 = some ex0 ∧ (parseWHdr (whdr [(0, 7), (12, 2), (22, 1), (28, r)])).reason = r := by
  intro _; refine ⟨takesW_iff ?_, ?_⟩ <;> revert r <;> decide +kernel
def hFail : BitVec 512 := whdr [(0, 8), (12, 3), (22, 1)]
theorem witness_fail : (sWgh none { ww with sends := [recW 3 false] }).WghTakes 8 0 hFail (pay 0) 0 ∧ (parseWHdr hFail).sender = ww.owner 3 0 ∧
    ({ ww with sends := [recW 3 false] } : Wgh).rec? 3 = some (recW 3 false) ∧ (recW 3 false).resolved.contains 0 = false :=
  ⟨takesW_iff (by decide +kernel), by decide +kernel, by decide +kernel, by decide +kernel⟩
theorem witness_deadlines : ((sSlot false []).wctx 0).slots.find? (fun k => k.bucket = 2 && k.chunk = 0) = some (slotW false []) ∧
    ((sSlot false []).wctx 0).rec? 2 = some (recW 2 false) ∧ 0 < (recW 2 false).chunks ∧ (recW 2 false).skipped = false ∧
    ((sSlot false []).part 0).wghLost = false := by decide +kernel
/-- The SEND of bucket 3 waits in the pending slot. -/
theorem witness_deadline_queued : (({ ww with queued := [recW 3 false] } : Wgh).rec? 3) = none ∧
    ({ ww with queued := [recW 3 false] } : Wgh).queued.find? (·.bucket = 3) = some (recW 3 false) ∧ 0 < (recW 3 false).chunks ∧
    (recW 3 false).skipped = false ∧ ({ ww with queued := [recW 3 false] } : Wgh).taken = [] := by decide +kernel

/-! Witnesses: board, scout. -/
theorem witness_board : base.dev.i3cSeal = true ∧ base.dev.applying = none ∧ base.dev.aux = true ∧ (∀ q, q < 8 →
    base.exec? q = none ∧ (base.part q).prev = none ∧ (base.part q).preempt = none) := by decide +kernel
def img0 : Image := { img1 with imageSerial := 0 }
def sImg : State := { base with dev := { base.dev with slot1 := some img1, running := some img0 } }
/-- Signatures are opaque: the witness assumes one that verifies. -/
theorem witness_apply (h : Config.signatureOk 7 = true) : sImg.dev.i3cSeal = true ∧ sImg.dev.slot 1 = some img1 ∧
    sImg.dev.running = some img0 ∧ applyRefusal sImg.capW (sImg.sharesBut 0) img1 img0 0 = none := by
  refine ⟨by decide +kernel, by decide +kernel, by decide +kernel, ?_⟩
  have hw : img1.wf = true := by decide +kernel
  have hs : img1.sound = true := by decide +kernel
  have hc : sameSections img1 img0 0 = true := by decide +kernel
  have hk : ¬ (sImg.capW - 700 < sImg.sharesBut 0 + (defOf img1 0).shareW) := by decide +kernel
  simp [applyRefusal, hw, hs, hc, hk, show img1.fingerprint = 7 from rfl, h, show img1.targetSerial = 0 from rfl,
    show img1.imageSerial = 0xFFFFFFFF from rfl, show img0.imageSerial = 0 from rfl]
theorem witness_apply_refused : ∃ r, applyRefusal sImg.capW (sImg.sharesBut 0) img0 img0 0 = some r := by
  cases h : Config.signatureOk img0.fingerprint <;> simp [applyRefusal, h]
  split <;> exact ⟨_, rfl⟩
theorem witness_applying : ({ base.dev with applying := some (0, 1, img1) } : Dev).applying = some (0, 1, img1) ∧
    (base.part 0).exec = none ∧ (base.part 0).prev = none ∧ ((run ex0 [] []).part 0).exec.isSome = true := by decide +kernel

/-- The scout instruction with a token of partition 0 and every right. -/
def sScout : State := { regs [rg [(Csr.sctStatus_unlocked 0, 1), (Csr.sctStatus_rights 0, 31)]] base with scout := { Scout.idle with ir := 4, part := some 0 } }
theorem witness_scout_open (r : Fin 5) : sScout.ScoutOpen 0 r := by
  refine ⟨rfl, rfl, ?_, ?_⟩ <;> revert r <;> decide +kernel
theorem witness_scout : sScout.halted 0 = false ∧ sScout.scoutPlaces 0 0x100000 false = some ((List.range 8).map (0x100000 + ·)) ∧
    sScout.flag1 (Csr.sctStatus_unlocked 0) = true ∧ sScout.unlocked = some 0 ∧ (sScout.part 0).stepLeft = none := by decide +kernel
def sHalt : State := withPart (fun x => { x with holds := [⟨9, none⟩] }) (regs [rg [(Csr.sctStatus_unlocked 0, 1), (Csr.sctStatus_rights 0, 31), (Csr.sctStatus_halted 0, 1)]] sScout)
theorem witness_scout_halted : sHalt.halted 0 = true ∧ (∀ k ∈ (sHalt.part 0).holds, k.src = 9 → k.left = none) ∧ sHalt.ScoutOpen 0 0 ∧ (sHalt.part 0).stepLeft = none ∧
    sHalt.scoutPlaces 0 0x100000 true = some ((List.range 8).map (0x100000 + ·)) :=
  ⟨by decide +kernel, by decide +kernel, ⟨rfl, rfl, by decide +kernel, by decide +kernel⟩, by decide +kernel, by decide +kernel⟩
theorem witness_scout_locked : ({ base with scout := { Scout.idle with ir := 4 } } : State).unlocked = none ∧ base.deviceToken = false ∧
    (regs [rg [(Csr.sctStatus_unlocked 0, 1), (Csr.sctStatus_rights 0, 32)]] base).deviceToken = true := by decide +kernel
/-- A token of partition 0 that never expires before the year 2106; its MAC is opaque, so it is the term itself. -/
theorem witness_unlock : ∃ w1, w1 = Config.tokenMac sScout.dev.starts (BitVec.ofNat 64 (31 * 2 ^ 8 + 100 * 2 ^ 16)) ∧ sScout.scout.ir = 4 ∧
    sScout.dev.started = true ∧ (99 : BitVec 32).toNat < bitsOf (BitVec.ofNat 64 (31 * 2 ^ 8 + 100 * 2 ^ 16)).toNat 16 32 ∧
    (sScout.caravans 0).isEmpty = false ∧ bitsOf (BitVec.ofNat 64 (31 * 2 ^ 8 + 100 * 2 ^ 16)).toNat 16 32 ≤ (100 : BitVec 32).toNat :=
  ⟨_, rfl, by decide +kernel, by decide +kernel, by decide +kernel, by decide +kernel, by decide +kernel⟩
theorem witness_residues : State.reset.Residues := ⟨by simp [State.reset], fun p q h => by
  have : (State.reset.part p).preempt = none := rfl
  rw [this] at h; exact absurd h (by simp)⟩
/-- R93: 3.0 is 3 × 2³²⁰ in a tally entry. -/
def e3 : Entry := ⟨3 * 2 ^ 320, residue (3 * 2 ^ 320), .fin, .fin, false⟩
/-- 3.0 and 0.5 in units of 2^-320; an infinity has no term. -/
theorem witness_checks : e3.res = residue e3.v ∧ (-320 : Int) ≤ 0 + -1 ∧ ((.inf false : Val).isFin && (.fin false 1 0 : Val).isFin) = false := by
  decide +kernel
theorem witness_wf : State.reset.wf = true := by decide +kernel
/-! Well-formedness: a term each check refuses. -/
theorem test_wf_command_complete : Instr.wf (.commandComplete 0 8) = false := by decide +kernel
theorem test_wf_image_rings : Instr.wf (.i3cImageWrite 0 { img1 with ringX := 33 }) = false ∧ Instr.wf (.i3cImageWrite 0 { img1 with ringY := 0 }) = false ∧
    Instr.wf (.i3cImageWrite 0 { img1 with ringZ := 33 }) = false := by decide +kernel
theorem test_wf_image_parts : Instr.wf (.i3cImageWrite 0 { img1 with parts := img1.parts ++ img1.parts }) = false ∧
    Instr.wf (.i3cImageWrite 1 { img1 with rwl := [⟨0, 60, 5, 0⟩] }) = false ∧ Instr.wf (.i3cImageWrite 1 { img1 with rwl := [⟨4, 0, 5, 0⟩] }) = false ∧
    Instr.wf (.i3cImageWrite 1 { img1 with feedTable := List.replicate 65 (0, 0) }) = false ∧ Instr.wf (.i3cImageWrite 1 img1) = true := by
  decide +kernel
theorem test_wf_packets : Instr.wf (.packetForward 0 { kWrite with vc := 6 }) = false ∧ Instr.wf (.packetDeliver 0 { kWrite with flits := 65 }) = false ∧
    Instr.wf (.consignmentPacket 0 { kWrite with flits := 0 }) = false ∧
    Instr.wf (.packetDeliver 0 { kWrite with payload := List.replicate 205 0 }) = false ∧ Instr.wf (.packetDeliver 0 kWrite) = true := by decide +kernel
theorem test_wf_register : Instr.wf (.registerWrite .seal 4 0) = false ∧ Instr.wf (.registerWrite .seal 0x4000000 0) = false := by decide +kernel
theorem test_wf_lanes : Instr.wf (.linkSignalDetect 0 25) = false ∧ Instr.wf (.linkFecLock 0 25) = false ∧
    Instr.wf (.linkInitExchange 0 0 0 25 false) = false ∧ Instr.wf (.linkSignalDetect 0 24) = true := by decide +kernel
theorem test_wf_detours : Instr.wf (.detourInstall (List.replicate 65 0)) = false := by decide +kernel
theorem test_wf_restore : Instr.wf (.csgRestore 0 { copy0 with extents := List.replicate 65 [] }) = false := by decide +kernel

/-! Decoding: words written out from R10: opcode, FMT_A, FMT_B, FMT_OUT, ROUND, SAT, DEP, WAIT, SIGNAL, SELECT. -/
theorem test_decode_nop : decodeCommand 3 0b00000000_0000_0000_0000_00_0_0_000000000101_000000000110_0000000010000011 0 =
    some (.nop 3 ⟨0, 0, 0, 0, false, false, 5, 6, 0x0083⟩ 0) := by decide +kernel
theorem test_decode_product : decodeCommand 0 0b00010000_0100_0101_0010_01_1_1_000000000001_000000000000_0000000010000001 9 =
    some (.product 0 ⟨4, 5, 2, 1, true, true, 1, 0, 0x0081⟩ 9) := by decide +kernel
theorem test_decode_drain : decodeCommand 0 0b00100000_0000_0000_1101_11_0_0_000000000000_111111111111_1001101100000001 0 =
    some (.drain 0 ⟨0, 0, 13, 3, false, false, 0, 4095, 0x9B01⟩ 0) := by decide +kernel
theorem test_decode_commit : decodeCommand 7 0b01111010_0000_0000_0000_00_0_0_000000000000_000000000000_0000000010000011 0 =
    some (.commit 7 ⟨0, 0, 0, 0, false, false, 0, 0, 0x0083⟩ 0) := by decide +kernel
/-- 0x04 is no opcode (R167). -/
theorem test_decode_undefined : decodeCommand 0 0b00000100_0000_0000_0000_00_0_0_000000000000_000000000000_0000000010000011 0 = none := by
  decide +kernel

/-! Steps, with results worked out from the spec. -/
/-- The state a command answers. -/
def after (i : Instr) (s : State) : State :=
  match exec i s with
  | .next t => t
  | _ => State.reset
/-- Code, offset and word 3 of a partition's fault (R446). -/
def faultOf (s : State) : Option (Nat × Nat) := (s.exec? 0).bind (fun e => e.fault.map (fun f => (f.1.toNat % 256, f.2.2.2.toNat)))
theorem test_nop : ((after (.nop 0 (sel 0x83) 0) (run ex0 [] [])).exec? 0).map (·.off) = some 16 := by decide +kernel
/-- R162: word 1 of NOP is reserved: 0x0C, reason 1, bit 64 (R161). -/
theorem test_nop_reserved : faultOf (after (.nop 0 (sel 0x83) 1) (run ex0 [] [])) = some (0x0C, 0x00 + 1 * 2 ^ 8 + 64 * 2 ^ 16) := by decide +kernel
theorem test_advance : ((after (.advance 0 (sel 0x83) 1000) (run ex0 [] [])).exec? 0).map (·.issuePace) = some 1000 := by decide +kernel
/-- R188: a count of 0 is reason 5. -/
theorem test_advance_zero : faultOf (after (.advance 0 (sel 0x83) 0) (run ex0 [] [])) = some (0x0C, 0x01 + 5 * 2 ^ 8 + 64 * 2 ^ 16) := by decide +kernel
theorem test_end : ((after (.endCmd 0 (sel 0x83) 0) (run ex0 [] [])).exec? 0).map (·.ended) = some true := by decide +kernel
/-- R164: caravan 1 is not in the partition: 0x08 with the selector. -/
theorem test_selector : faultOf (after (.qpush 0 (sel 0x881) (w [(6, 1)])) (run ex0 [qreg 1] qmem)) = some (0x08, 0x881) := by decide +kernel
/-- R146: a push into a full static queue is 0x02 with the queue and its depth. -/
theorem test_qpush_full : faultOf (after (.qpush 0 (sel 0x81) (w [(6, 1)])) (run ex0 [qreg 2] qmem)) = some (0x02, 2 * 2 ^ 16) := by decide +kernel
theorem test_qpush_bytes : let t := after (.qpush 0 (sel 0x81) (w [(6, 1)])) (run ex0 [qreg 1] ((depotBase 0 + 0x103F, 9) :: qmem))
    t.byte (depotBase 0 + 64 + 63) = 9 ∧ t.qOcc 0 0 = 2 := by decide +kernel
/-- R93: BF16 of 3.0 is 0x4040. -/
def sDrain3 : State := { held (tables [descOf 0x100000 2 8] []) with tally := [(entryKey (bankKey 0 0 false 0) 1 3, e3)] }
theorem test_drain_bf16 : let t := after (.drain 0 (fm 0 0 2 0x01) (w [(7, 1)])) sDrain3
    t.byte (0x100000 + 8 + 6) = 0x40 ∧ t.byte (0x100000 + 8 + 7) = 0x40 ∧ t.byte 0x100000 = 0 := by decide +kernel
theorem test_release : (after (.release 0 (sel 0x01) 0) sDrain).bank (bankKey 0 0 false 0) = Bank.empty := by decide +kernel
/-- R66, R174: a second command on a bank that is not held is 0x03, reason 4 (taken by another). -/
theorem test_release_free : ((after (.release 0 (sel 0x101) 0) sDrain).exec? 0).map (fun e => e.fault.map (fun f => f.1.toNat % 256)) = some (some 3) := by
  decide +kernel
/-- R93: adding 1.0 and 2.0 in E4M3 (0x38, 0x40) gives 3.0 (0x44). -/
def sVec : State := { run (exDue mVec) [] [] with mem := [(depotBase 0, 0x38), (depotBase 0 + 0x1000, 0x40)] }
/-- R79, R82: an error of 1 is caught and the entry kept; one of 127 passes unseen. -/
theorem test_checked_add :
    let xs : List Val := [.fin false 1 0]
    let chan := residue (unitsIn (frameUnit false) (.fin false 1 0))
    e3.checkedAdd false xs chan 1 0 = none ∧ (e3.checkedAdd false xs chan 127 0).isSome = true := by decide +kernel
/-- R238, R241: two receivers behind router (1, 0) share its flit; the one behind the failed router takes a copy from the first of them,
or, where it is the first itself, from the source on a detour. -/
theorem test_tree :
    (let t := sTree.sendTree ⟨0, 0, 0⟩ [⟨0, 1, 0⟩, ⟨0, 2, 0⟩, ⟨0, 1, 1⟩] 0 512
     t.fld (Csr.mshRouter_flits 0 0) = 1 ∧ t.fld (Csr.mshRouter_flits 0 8) = 2 ∧ t.fld (Csr.mshRouter_detoured 0 0) = 0) ∧
    (let t := sTree.sendTree ⟨0, 0, 0⟩ [⟨0, 1, 1⟩, ⟨0, 1, 0⟩] 0 512
     t.fld (Csr.mshRouter_flits 0 0) = 2 ∧ t.fld (Csr.mshRouter_detoured 0 0) = 1) := by decide +kernel
theorem test_vec : (after (.commandComplete 0 0) sVec).byte (depotBase 0 + 0x2000) = 0x44 := by decide +kernel
theorem test_swap : (after (.swap 0 (sel 0x81) 0) (run ex0 [] [])).fld (Csr.drvDepot_fillHalf 0) = 1 := by decide +kernel
/-- R216: a clean transfer copies its bytes. -/
theorem test_transfer : (after (.drvTransferComplete 0 0 .clean)
    { sXfer false with mem := [(0x100007, 0x5A)], cars := [(0, { Car.idle with xfers := [{ toDepot with len := 8 }], nextX := 1 })] }).byte (depotBase 0 + 7) = 0x5A := by
  decide +kernel
/-- R192, R294: a loss that is not finite ends the order with outcome 4. -/
theorem test_losschk_nan : ((after (.losschk 0 (sel 0x83) (w [(0, 1)])) (sLoss 0x7FC00000)).exec? 0).map (·.outcome) = some 4 := by decide +kernel
theorem test_commit : ((after (.commit 0 (sel 0x83) 0) (run ex0 [] [])).exec? 0).map (·.outcome) = some 1 := by decide +kernel
/-- R287: with LR 1.0 and no decay a weight of 0 and a gradient of 1.0 give −1.0: HI 0xBF80, LO 0. -/
def updLr : Upd := { upd1 with rule := [0, 0, 0, 0] ++ leBytes 4 0x3F800000 ++ List.replicate 20 0 ++ leBytes 2 1 ++ leBytes 2 2 ++ List.replicate 32 0 }
def sLr : State :=
  { run { exChunk with upds := [updLr], clip := 0 } [] [] with
    wgh := [(0, { Wgh.none with inbox := [⟨3, 0, 0, true, [0x3F800000], false, false⟩] })] }
theorem test_update : let t := after (.updateChunkApply 0 3 0) sLr
    t.byte 0x100000 = 0x80 ∧ t.byte 0x100001 = 0xBF ∧ t.byte 0x200000 = 0 := by decide +kernel
/-- R250, R251: the cycle goes on after the last one granted and past 39, which never requests; a grant is for BURST beats. -/
theorem test_toll : (after (.tollGrant 0 (2 ^ 38 + 2 ^ 5) 0) State.reset).toll 0 = ⟨5, some 5, 256⟩ ∧
    (after (.tollGrant 0 (2 ^ 39 + 2 ^ 38 + 2 ^ 5) 0) { State.reset with tolls := [(0, ⟨5, none, 0⟩)] }).toll 0 = ⟨38, some 38, 256⟩ ∧
    (after (.tollGrant 0 (2 ^ 39 + 2 ^ 5) 0) { State.reset with tolls := [(0, ⟨5, none, 0⟩)] }).toll 0 = ⟨5, some 5, 256⟩ := by decide +kernel
/-- R6: a host's write of UPD_SEED takes effect between orders, one of DEV_ID never. -/
theorem test_register : (after (.registerWrite (.host 0) (Csr.updSeed 0) 5) base).fld (Csr.updSeed_seed 0) = 5 ∧
    (after (.registerWrite (.host 0) Csr.devId 5) base).reg Csr.devId = base.reg Csr.devId := by decide +kernel
theorem test_doorbell : (after (.ringDoorbell 0 7 9) base).fld (Csr.hqRingCtl_tail 0 7) = 9 ∧
    after (.ringDoorbell 1 7 9) base = base := by decide +kernel
/-- R331: eight lanes take a port from DETECT to its next state, seven do not. -/
theorem test_detect : (after (.linkSignalDetect 5 8) (portAt 5 1 0)).portState 5 = 2 ∧ (after (.linkSignalDetect 5 7) (portAt 5 1 0)).portState 5 = 1 := by
  decide +kernel
theorem test_retry : (after (.linkRetryTimer 0) (unacked 0)).out = [.flit 0 1, .flit 0 2, .flit 0 3] := by decide +kernel
theorem test_forward : ((after (.packetForward 1 (kFwd 0)) (sRoute 5)).out.length) = 1 := by decide +kernel
/-- R447: the record goes to the host with vector 0 once the function may master again. -/
theorem test_completion_flush : let t := after (.completionFlush 0) sFlush
    (t.part 0).records = [] ∧ t.dev.noMaster = [] ∧ t.out.length = 2 := by decide +kernel
/-- R450: a released mailbox is empty, or takes the publication that waits for it. -/
theorem test_mbox_release : (after (.mboxRelease 0 31) (sMbox [])).fld (Csr.hqMbox_state 0 31) = 0 ∧
    (after (.mboxRelease 0 31) (sMbox [(31, 7, true, [])])).fld (Csr.hqMbox_seq 0 31) = 7 := by decide +kernel
/-- R350: an uncorrectable codeword is counted, and its 8 flits fail their CRC. -/
theorem test_bad_codeword : let t := after (.flitReceive 0 (.badCodeword 8)) sPort
    t.fld (Csr.lnkErr_fecUncorr 0) = 1 ∧ t.fld (Csr.lnkErr_crcErrors 0) = 8 ∧ (t.port 0).nakSent = true := by decide +kernel
theorem test_cancel : (after (.hqCancel 0 1) (queued hdr0)).fld (Csr.sealMan_completed 0) = 1 := by decide +kernel
theorem test_start : ((after (.orderStart 0) (queued hdr0)).exec? 0).map (fun e => (e.seq, e.base, e.fault.isSome)) = some (1, 0, false) := by decide +kernel
/-- R443: a header of zeros has no stream: 0x61, reason 2. -/
theorem test_start_fails : faultOf (after (.orderStart 0) (queued 0)) = some (0x61, 2) := by decide +kernel
theorem test_undervoltage : (after (.lugUndervoltage 0 37999) State.reset).dev.lugA = false ∧ after (.lugUndervoltage 0 38000) State.reset = State.reset := by
  decide +kernel
theorem test_idcode : (after .idcode State.reset).out.length = 1 := by decide +kernel
theorem test_idle : step State.reset = .next State.reset := rfl
theorem test_front : step { State.reset with pending := [.aux3v3Loss, .pwrgdFall] } =
    .next { State.reset with dev := { Dev.por with aux := false }, pending := [.pwrgdFall] } := rfl
theorem witness_queue : runs [.aux3v3Loss, .aux3v3Return] { State.reset with pending := [.aux3v3Loss, .aux3v3Return] } = some State.reset := by
  decide +kernel

end Sys2Proof.Tests
end

section
/-!
PROOFS. The encoding of the program commands, and the state after reset.
-/
namespace Sys2Proof.Machine

/-- Word 0 at the width its fields add up to. -/
def headBits (op : BitVec 8) (h : Head) : BitVec (8 + 4 + 4 + 4 + 2 + 1 + 1 + 12 + 12 + 16) :=
  op ++ h.fmtA ++ h.fmtB ++ h.fmtOut ++ h.round ++ BitVec.ofBool h.sat ++ BitVec.ofBool h.dep ++ h.wait ++ h.signal ++ h.select

theorem encodeHead_eq_headBits (op : BitVec 8) (h : Head) : encodeHead op h = headBits op h := rfl

theorem opcode_encodeHead (op : BitVec 8) (h : Head) : (encodeHead op h).extractLsb' 56 8 = op := by
  rw [encodeHead_eq_headBits, headBits]
  iterate 9 rw [BitVec.extractLsb'_append_eq_of_le (by decide)]
  exact BitVec.extractLsb'_eq_self

theorem decodeHead_encodeHead (op : BitVec 8) (h : Head) : decodeHead (encodeHead op h) = h := by
  obtain ⟨fmtA, fmtB, fmtOut, round, sat, dep, wait, signal, select⟩ := h
  rw [encodeHead_eq_headBits, headBits, decodeHead, Head.mk.injEq]
  refine ⟨?a, ?b, ?out, ?rnd, ?sa, ?de, ?wa, ?si, BitVec.extractLsb'_append_eq_right⟩
  case a =>
    iterate 8 rw [BitVec.extractLsb'_append_eq_of_le (by decide)]
    exact BitVec.extractLsb'_append_eq_right
  case b =>
    iterate 7 rw [BitVec.extractLsb'_append_eq_of_le (by decide)]
    exact BitVec.extractLsb'_append_eq_right
  case out =>
    iterate 6 rw [BitVec.extractLsb'_append_eq_of_le (by decide)]
    exact BitVec.extractLsb'_append_eq_right
  case rnd =>
    iterate 5 rw [BitVec.extractLsb'_append_eq_of_le (by decide)]
    exact BitVec.extractLsb'_append_eq_right
  case sa =>
    iterate 4 rw [BitVec.getLsbD_append, if_neg (by decide)]
    rw [BitVec.getLsbD_append]
    simp
  case de =>
    iterate 3 rw [BitVec.getLsbD_append, if_neg (by decide)]
    rw [BitVec.getLsbD_append]
    simp
  case wa =>
    iterate 2 rw [BitVec.extractLsb'_append_eq_of_le (by decide)]
    exact BitVec.extractLsb'_append_eq_right
  case si =>
    rw [BitVec.extractLsb'_append_eq_of_le (by decide)]
    exact BitVec.extractLsb'_append_eq_right

theorem ofBool_getLsbD (w : Word) (i : Nat) : BitVec.ofBool (w.getLsbD i) = w.extractLsb' i 1 := by
  apply BitVec.eq_of_getLsbD_eq
  intro j hj
  simp [show j = 0 by omega]

theorem encodeHead_decodeHead (w : Word) : encodeHead (w.extractLsb' 56 8) (decodeHead w) = w := by
  rw [encodeHead_eq_headBits, headBits, decodeHead, ofBool_getLsbD, ofBool_getLsbD]
  iterate 9 rw [BitVec.extractLsb'_append_extractLsb'_eq_extractLsb' (by decide)]
  exact BitVec.extractLsb'_eq_self

/-- An opcode's command has that opcode and those operands, and opcodes have eight bits (R167). -/
theorem opcodeOf_commandOf {p : PartId} {op : Nat} {h : Head} {w1 : Word} {i : Instr} (hi : commandOf p op h w1 = some i) :
    opcodeOf i = some (op, h, w1) ∧ op < 2 ^ 8 := by
  unfold commandOf at hi
  split at hi <;> cases hi <;> exact ⟨rfl, by decide⟩

theorem encodeCommand_of_commandOf {p : PartId} {op : Nat} {h : Head} {w1 : Word} {i : Instr} (hi : commandOf p op h w1 = some i) :
    encodeCommand i = some (encodeHead (BitVec.ofNat 8 op) h, w1) := by
  rw [encodeCommand, (opcodeOf_commandOf hi).1]
  rfl

theorem decodeCommand_encodeHead (p : PartId) (op : Nat) (h : Head) (w1 : Word) (hop : op < 2 ^ 8) :
    decodeCommand p (encodeHead (BitVec.ofNat 8 op) h) w1 = commandOf p op h w1 := by
  rw [decodeCommand, opcode_encodeHead, decodeHead_encodeHead, BitVec.toNat_ofNat, Nat.mod_eq_of_lt hop]

/-- Settles O4: the opcode and the fields of word 0 do not overlap, so each reads back as it was put. -/
theorem programCommandsRoundTrip : Obligations.ProgramCommandsRoundTrip := by
  intro p op h w1 i hi
  refine ⟨_, encodeCommand_of_commandOf hi, ?_⟩
  rw [decodeCommand_encodeHead p op h w1 (opcodeOf_commandOf hi).2, hi]

/-- Settles O5: the fields of word 0 and the opcode cover its 64 bits. -/
theorem decodedWordsEncodeBack : Obligations.DecodedWordsEncodeBack := by
  intro p w0 w1 i hi
  rw [encodeCommand_of_commandOf hi, BitVec.ofNat_toNat, BitVec.setWidth_eq, encodeHead_decodeHead]

/-! Reset. -/

/-- Settles O7: every map of the reset state is empty, and the empty map is canonical. -/
theorem resetIsCanonical : Obligations.ResetIsCanonical :=
  ⟨State.wf_reset, Memory.wf_reset, rfl, rfl, rfl⟩
end Sys2Proof.Machine
end

section
/-!
PROOFS. Every command keeps the state in canonical form: a lemma for each operation of the model, in the order in which the model builds
them, then for each command, then for a step.
-/
namespace Sys2Proof.Machine

/-- The canonical form of the state as a proposition, under which the lemma of each operation carries it along. -/
def State.Canon (s : State) : Prop := s.wf = true

/-- The canonical form is that of each map. -/
theorem State.canon_maps (s : State) : s.Canon ↔
    (Map.wf porWord s.csr = true ∧ Map.wf (fun _ => 0) s.mem = true ∧ Map.wf (fun _ => Entry.zero) s.tally = true ∧
      Map.wf (fun _ => Bank.empty) s.banks = true) ∧
    (Map.wf (fun _ => Flag.none) s.flags = true ∧ Map.wf (fun _ => Queue.empty) s.queues = true ∧
      Map.wf (fun _ => Part.none) s.parts = true ∧ Map.wf (fun _ => Car.idle) s.cars = true) ∧
    Map.wf (fun _ => Wgh.none) s.wgh = true ∧ Map.wf (fun _ => Port.idle) s.ports = true ∧
      Map.wf (fun _ => Toll.idle) s.tolls = true ∧ Map.wf (fun _ => ([] : List Byte)) s.spice = true := by
  simp only [State.Canon, State.wf, Bool.and_eq_true, and_assoc]

/-- A class whose commands, once every check has passed, keep the canonical form. -/
def Cls.KeepsCanon (c : Cls) : Prop := ∀ s x, s.Canon → (c.start s x).Canon

/-- Both states that a pace carries (R152) are in canonical form. -/
def BothCanon (x : State × State) : Prop := x.1.Canon ∧ x.2.Canon

namespace State.Canon

variable {s t : State}

/-- What is not in a sparse map does not matter. -/
theorem congr (h : s.Canon) (h1 : t.csr = s.csr) (h2 : t.mem = s.mem) (h3 : t.tally = s.tally)
    (h4 : t.banks = s.banks) (h5 : t.flags = s.flags) (h6 : t.queues = s.queues) (h7 : t.parts = s.parts) (h8 : t.cars = s.cars)
    (h9 : t.wgh = s.wgh) (h10 : t.ports = s.ports) (h11 : t.tolls = s.tolls) (h12 : t.spice = s.spice) : t.Canon :=
  State.wf_congr h h1 h2 h3 h4 h5 h6 h7 h8 h9 h10 h11 h12

theorem ite {c : Prop} [Decidable c] (hs : s.Canon) (ht : t.Canon) : (if c then s else t).Canon := by
  split
  · exact hs
  · exact ht

/-- A loop keeps what each of its rounds keeps. -/
theorem foldl {α : Type} {f : State → α → State} {l : List α} (h : s.Canon) (hf : ∀ s a, s.Canon → (f s a).Canon) :
    (l.foldl f s).Canon := foldl_keeps f hf l s h

/-- A loop that carries more than the state. -/
theorem foldlFst {α β : Type} {f : State × β → α → State × β} {l : List α} {x : State × β} (h : x.1.Canon)
    (hf : ∀ x a, x.1.Canon → (f x a).1.Canon) : (l.foldl f x).1.Canon := by
  induction l generalizing x with
  | nil => exact h
  | cons a l ih => exact ih (hf x a h)

/-- The state of an answer that is taken apart. -/
theorem fst {α : Type} {x : State × α} {a : α} (h : x.1.Canon) (hx : x = (t, a)) : t.Canon := by
  subst hx
  exact h

theorem snd {α : Type} {x : α × State} {a : α} (h : x.2.Canon) (hx : x = (a, t)) : t.Canon := by
  subst hx
  exact h

theorem both (h : s.Canon) : BothCanon (s, s) := ⟨h, h⟩

/-- An answer in case there is one. -/
theorem getD {o : Option State} (h : s.Canon) (ho : ∀ t, o = some t → t.Canon) : (o.getD s).Canon := by
  cases ho' : o with
  | none => exact h
  | some t => exact ho t ho'

/-- A state whose maps are canonical, the others being those of a canonical state. -/
theorem withBanks {m : Map Bank} (h : s.Canon) (hm : Map.wf (fun _ => Bank.empty) m = true) : State.Canon { s with banks := m } := by
  rw [State.canon_maps] at h ⊢
  simp only [h, hm, and_self]
theorem withTolls {m : Map Toll} (h : s.Canon) (hm : Map.wf (fun _ => Toll.idle) m = true) : State.Canon { s with tolls := m } := by
  rw [State.canon_maps] at h ⊢
  simp only [h, hm, and_self]
theorem withTally {m : Map Entry} (h : s.Canon) (hm : Map.wf (fun _ => Entry.zero) m = true) : State.Canon { s with tally := m } := by
  rw [State.canon_maps] at h ⊢
  simp only [h, hm, and_self]
theorem withFlags {m : Map Flag} (h : s.Canon) (hm : Map.wf (fun _ => Flag.none) m = true) : State.Canon { s with flags := m } := by
  rw [State.canon_maps] at h ⊢
  simp only [h, hm, and_self]
theorem withQueues {m : Map Queue} (h : s.Canon) (hm : Map.wf (fun _ => Queue.empty) m = true) : State.Canon { s with queues := m } := by
  rw [State.canon_maps] at h ⊢
  simp only [h, hm, and_self]
theorem withSpice {m : Map (List Byte)} (h : s.Canon) (hm : Map.wf (fun _ => ([] : List Byte)) m = true) :
    State.Canon { s with spice := m } := by
  rw [State.canon_maps] at h ⊢
  simp only [h, hm, and_self]
theorem withCsr {m : Map Word} (h : s.Canon) (hm : Map.wf porWord m = true) : State.Canon { s with csr := m } := by
  rw [State.canon_maps] at h ⊢
  simp only [h, hm, and_self]

/-! The maps of a canonical state. -/

theorem csr (h : s.Canon) : Map.wf porWord s.csr = true := ((State.canon_maps s).mp h).1.1
theorem mem (h : s.Canon) : Map.wf (fun _ => (0 : Byte)) s.mem = true := ((State.canon_maps s).mp h).1.2.1
theorem tally (h : s.Canon) : Map.wf (fun _ => Entry.zero) s.tally = true := ((State.canon_maps s).mp h).1.2.2.1
theorem banks (h : s.Canon) : Map.wf (fun _ => Bank.empty) s.banks = true := ((State.canon_maps s).mp h).1.2.2.2
theorem flags (h : s.Canon) : Map.wf (fun _ => Flag.none) s.flags = true := ((State.canon_maps s).mp h).2.1.1
theorem queues (h : s.Canon) : Map.wf (fun _ => Queue.empty) s.queues = true := ((State.canon_maps s).mp h).2.1.2.1
theorem ports (h : s.Canon) : Map.wf (fun _ => Port.idle) s.ports = true := ((State.canon_maps s).mp h).2.2.2.1
theorem tolls (h : s.Canon) : Map.wf (fun _ => Toll.idle) s.tolls = true := ((State.canon_maps s).mp h).2.2.2.2.1
theorem spice (h : s.Canon) : Map.wf (fun _ => ([] : List Byte)) s.spice = true := ((State.canon_maps s).mp h).2.2.2.2.2

/-! The elementary updates of the state. -/

theorem setReg {o x} (h : s.Canon) : (s.setReg o x).Canon := State.wf_setReg h _ _
theorem setFld {r v} (h : s.Canon) : (s.setFld r v).Canon := State.wf_setFld h _ _
theorem count {r n} (h : s.Canon) : (s.count r n).Canon := State.wf_count h _ _
theorem keepMax {r n} (h : s.Canon) : (s.keepMax r n).Canon := State.wf_keepMax h _ _
theorem setByte {a b} (h : s.Canon) : (s.setByte a b).Canon := State.wf_setByte h _ _
theorem setBytes {a bs} (h : s.Canon) : (s.setBytes a bs).Canon := State.wf_setBytes _ h _
theorem zeroRange {a n} (h : s.Canon) : (s.zeroRange a n).Canon := State.wf_zeroRange h _ _
theorem updPart {p f} (h : s.Canon) : (s.updPart p f).Canon := State.wf_updPart h _ _
theorem setCar {c x} (h : s.Canon) : (s.setCar c x).Canon := State.wf_setCar h _ _
theorem updCar {c f} (h : s.Canon) : (s.updCar c f).Canon := State.wf_updCar h _ _
theorem setBank {k x} (h : s.Canon) : (s.setBank k x).Canon := State.wf_setBank h _ _
theorem setEntry {k x} (h : s.Canon) : (s.setEntry k x).Canon := State.wf_setEntry h _ _
theorem setFlag {k x} (h : s.Canon) : (s.setFlag k x).Canon := State.wf_setFlag h _ _
theorem setQueue {k x} (h : s.Canon) : (s.setQueue k x).Canon := State.wf_setQueue h _ _
theorem setWctx {p x} (h : s.Canon) : (s.setWctx p x).Canon := State.wf_setWctx h _ _
theorem updWctx {p f} (h : s.Canon) : (s.updWctx p f).Canon := State.wf_updWctx h _ _
theorem setPort {i x} (h : s.Canon) : (s.setPort i x).Canon := State.wf_setPort h _ _
theorem updPort {i f} (h : s.Canon) : (s.updPort i f).Canon := State.wf_updPort h _ _
theorem setToll {i x} (h : s.Canon) : (s.setToll i x).Canon := State.wf_setToll h _ _
theorem updDev {f} (h : s.Canon) : (s.updDev f).Canon := State.wf_updDev h _
theorem updScout {f} (h : s.Canon) : (s.updScout f).Canon := State.wf_updScout h _
theorem emit {o} (h : s.Canon) : (s.emit o).Canon := State.wf_emit h _
theorem draw (h : s.Canon) : s.draw.2.Canon := State.wf_draw h
theorem setExec {p e} (h : s.Canon) : (s.setExec p e).Canon := State.wf_setExec h _ _
theorem updExec {p f} (h : s.Canon) : (s.updExec p f).Canon := State.wf_updExec h _ _
theorem hold {p src len} (h : s.Canon) : (s.hold p src len).Canon := State.wf_hold h _ _ _
theorem unhold {p src} (h : s.Canon) : (s.unhold p src).Canon := State.wf_unhold h _ _
theorem event {p type unit detail} (h : s.Canon) : (s.event p type unit detail).Canon := State.wf_event h _ _ _ _

/-! The shared operations (Machine/Ops). -/

theorem realign {s0 : State} {p n} (h : s.Canon) : (s0.realign s p n).Canon :=
  .ite h.hold h
theorem realignFree {s0 : State} {p} (h : s.Canon) : (s0.realignFree s p).Canon :=
  .ite h.draw.realign h
theorem release {p src} (h : s.Canon) : (s.release p src).Canon :=
  h.unhold.realignFree

/-! Flits (Machine/Flits). -/

theorem sendFlit {i vc start end_ poison text} (h : s.Canon) : (s.sendFlit i vc start end_ poison text).Canon :=
  h.updPort.emit
theorem linkOnly {i nak vc credits} (h : s.Canon) : (s.linkOnly i nak vc credits).Canon :=
  .ite h h.emit
theorem freed {i vc n} (h : s.Canon) : (s.freed i vc n).Canon :=
  h.foldl fun _ _ h1 => h1.linkOnly

theorem runOwner {i vc} (h : s.Canon) : (s.runOwner i vc).Canon := by
  unfold State.runOwner
  split
  · exact h
  · extract_lets -underBinder _ s2 _ s3
    have h2 : s2.Canon := h.foldl fun _ _ h1 => .ite h1.sendFlit h1.sendFlit
    have h3 : s3.Canon := h2.updPort
    split
    · exact .ite h3 h3.freed
    · exact h3

theorem giveOut {i k src} (h : s.Canon) : (s.giveOut i k src).Canon :=
  h.updPort.runOwner

theorem pumpVc {i vc} : ∀ {n} {s : State}, s.Canon → (State.pumpVc i vc n s).Canon
  | 0, _, h => h
  | n + 1, s, h => by
    unfold State.pumpVc
    have h1 : (s.runOwner i vc).Canon := h.runOwner
    dsimp only
    split
    · exact h1
    · exact .ite (pumpVc h1.updPort.giveOut) h1

theorem pump {i} (h : s.Canon) : (s.pump i).Canon :=
  .ite (h.foldl fun _ _ h1 => h1.pumpVc) h
theorem toPartner {i kind payload} (h : s.Canon) : (s.toPartner i kind payload).Canon :=
  .ite h.updPort.pump h

theorem post {k target} (h : s.Canon) : (s.post k target).Canon := by
  unfold State.post
  split
  · exact h
  · exact .ite h.updPort.pump h.count

theorem sendPacket {cls dest kind part index caravan addr payload} (h : s.Canon) :
    (s.sendPacket cls dest kind part index caravan addr payload).Canon :=
  h.post

/-! Operands (Machine/Operands). -/

theorem setVbyte {p g va b} (h : s.Canon) : (s.setVbyte p g va b).Canon := by
  unfold State.setVbyte
  split
  · exact h.setByte
  · exact h

theorem setVbytes {p g} : ∀ {bs} {va} {s : State}, s.Canon → (s.setVbytes p g va bs).Canon
  | [], _, _, h => h
  | _ :: bs, _, _, h => setVbytes (bs := bs) h.setVbyte

theorem setElem {p g d code j c bits} (h : s.Canon) : (s.setElem p g d code j c bits).Canon :=
  h.setVbytes
theorem eccSram {h one two bad} (hs : s.Canon) : (s.eccSram h one two bad).Canon :=
  hs.count.count.count

theorem eccRead {pa one two bad} (h : s.Canon) : (s.eccRead pa one two bad).Canon := by
  unfold State.eccRead
  split
  · extract_lets -underBinder _ s1
    have h1 : s1.Canon := .ite h h.updDev
    exact h1.count.count.count
  · exact h.eccSram
  · exact h.eccSram
  · exact h

theorem eccWords {pas} (h : s.Canon) : (s.eccWords pas).Canon :=
  h.foldl fun _ _ h1 => h1.eccRead

theorem poisonRead {p g va} (h : s.Canon) : (s.poisonRead p g va).Canon := by
  unfold State.poisonRead
  split
  · exact h.eccRead
  · exact h

/-! Flags and queues (Machine/Flags). -/

theorem drvStatus {c} (h : s.Canon) : (s.drvStatus c).Canon :=
  h.setFld.setFld
theorem scramble {pa n} (h : s.Canon) : (s.scramble pa n).Canon :=
  h.setBytes.congr rfl rfl rfl rfl rfl rfl rfl rfl rfl rfl rfl rfl
theorem invalidateStaging {c} (h : s.Canon) : (s.invalidateStaging c).Canon :=
  h.zeroRange.zeroRange
theorem scanOver {c} (h : s.Canon) : (s.scanOver c).Canon :=
  h.setFld.setFld
theorem scrambleAhead {c} (h : s.Canon) : (s.scrambleAhead c).Canon :=
  h.foldl fun _ _ h1 => h1.foldl fun _ _ h2 => h2.foldl fun _ _ h3 => h3.scramble

theorem stopOrder {p} (h : s.Canon) : (s.stopOrder p).Canon := by
  unfold State.stopOrder
  split
  · exact h
  · extract_lets cs older s1 s2 s3 s4 s5
    have h1 : s1.Canon := h.foldl fun _ _ h => h.scramble
    have h2 : s2.Canon := h1.foldl fun _ _ h => h.scrambleAhead
    have h3 : s3.Canon := h2.foldl fun _ _ h => h.invalidateStaging
    have h4 : s4.Canon := h3.foldl fun _ _ h => h.updCar.scanOver
    have h5 : s5.Canon := h4.withBanks (Map.wf_mapCanon _ _ _ h4.banks)
    exact h5.updPart.setExec

theorem raiseOutside {p unit code w3} (h : s.Canon) : (s.raiseOutside p unit code w3).Canon :=
  h.updPart.event

theorem raise {p unit code off w3} (h : s.Canon) : (s.raise p unit code off w3).Canon := by
  unfold State.raise
  split
  · exact h.raiseOutside
  · extract_lets -underBinder
    split
    · extract_lets -underBinder s1
      have h1 : s1.Canon := .ite h.count h
      exact h1.stopOrder.updExec
    · split
      · extract_lets -underBinder s2
        have h2 : s2.Canon := h.count
        exact .ite h2.updExec h2
      · exact h

theorem excess {p cls} (h : s.Canon) : (s.excess p cls).Canon := by
  unfold State.excess
  split
  · exact h
  · exact .ite h.hold.count h

theorem useAs {p e cls u} (h : s.Canon) : (s.useAs p e cls u).Canon := by
  unfold State.useAs
  extract_lets -underBinder _ s1
  have h1 : s1.Canon := h.setExec
  exact .ite h1 h1.hold

theorem useClass {p cls u} (h : s.Canon) : (s.useClass p cls u).Canon := by
  unfold State.useClass
  split
  · exact h
  · exact h.useAs

theorem signal {p off unit c idx cs} (h : s.Canon) : (s.signal p off unit c idx cs).Canon := by
  unfold State.signal
  split
  · exact h
  · split
    · exact h
    · exact .ite h.raise (.ite h.raise h.useAs)

theorem signalOutside {p idx} (h : s.Canon) : (s.signalOutside p idx).Canon :=
  .ite h.raise h.setFlag

theorem matureSignals {p} (h : s.Canon) : (s.matureSignals p).Canon := by
  unfold State.matureSignals
  split
  · exact h
  · extract_lets -underBinder _ s2
    have h2 : s2.Canon := h.foldl fun _ _ h1 => h1.setFlag.excess
    exact h2.setExec

theorem takeWait {p c idx} (h : s.Canon) : (s.takeWait p c idx).Canon :=
  .ite h h.setFlag

theorem qPush {c q ready off bs} (h : s.Canon) : (s.qPush c q ready off bs).Canon := by
  unfold State.qPush
  extract_lets -underBinder _ s1
  have h1 : s1.Canon := h.setBytes
  exact h1.setQueue.setFld

theorem qDrop {c q} (h : s.Canon) : (s.qDrop c q).Canon :=
  h.setQueue.setFld
theorem sticky {p bit} (h : s.Canon) : (s.sticky p bit).Canon :=
  h.updExec

theorem rangeEvents {p c stn ovf unf} (h : s.Canon) : (s.rangeEvents p c stn ovf unf).Canon := by
  unfold State.rangeEvents
  extract_lets -underBinder s1
  have h1 : s1.Canon := .ite h h.count.sticky
  exact .ite h1 h1.count.sticky

theorem inputOvf {p c stn n} (h : s.Canon) : (s.inputOvf p c stn n).Canon :=
  .ite h h.count.sticky

theorem updEvents {p ovf unf} (h : s.Canon) : (s.updEvents p ovf unf).Canon := by
  unfold State.updEvents
  extract_lets -underBinder s1
  have h1 : s1.Canon := .ite h h.count.sticky
  exact .ite h1 h1.count.sticky

/-! The mesh and the Pass (Machine/Mesh). -/

theorem countFlits {path chans h bytes} (hs : s.Canon) : (s.countFlits path chans h bytes).Canon := by
  unfold State.countFlits
  extract_lets -underBinder s2
  have h2 : s2.Canon := hs.foldl fun _ _ h1 => h1.count
  exact h2.foldl fun _ _ h3 => h3.count

theorem sendMesh {k a b plane bytes} (h : s.Canon) : (s.sendMesh k a b plane bytes).Canon := by
  unfold State.sendMesh
  extract_lets -underBinder
  split
  · exact h
  · extract_lets -underBinder s1
    have h1 : s1.Canon := h.countFlits
    exact .ite h1 h1.count

theorem sendControl {a b} (h : s.Canon) : (s.sendControl a b).Canon :=
  .ite h h.sendMesh

theorem sendTree {a bs plane bytes} (h : s.Canon) : (s.sendTree a bs plane bytes).Canon := by
  unfold State.sendTree
  split
  extract_lets -underBinder s1
  have h1 : s1.Canon := h.countFlits
  exact h1.foldl fun _ _ h2 => h2.sendMesh

/-! Fencing and faults (Machine/Fence). -/

theorem partFault70 {p unit kind} (h : s.Canon) : (s.partFault70 p unit kind).Canon := by
  unfold State.partFault70
  split
  · exact h
  · exact .ite h h.raise

theorem setPartState {p v} (h : s.Canon) : (s.setPartState p v).Canon :=
  h.setFld

theorem fromHost {f act} (h : s.Canon) (hf : ∀ p s, s.Canon → (act p s).Canon) : (s.fromHost f act).Canon := by
  unfold State.fromHost
  split
  · split
    · exact hf _ _ h
    · exact h
  · exact h

theorem suspend {p unit} (h : s.Canon) : (s.suspend p unit).Canon := by
  unfold State.suspend
  split
  · exact h
  · extract_lets -underBinder s1 s2
    have h1 : s1.Canon := h.partFault70
    have h2 : s2.Canon := .ite h1.setPartState h1
    exact h2.updPart.setFld.event

theorem dropGrants (h : s.Canon) : (s.dropGrants).Canon :=
  h.withTolls (Map.wf_mapCanon _ _ _ h.tolls)

theorem moveWindows {p c d} (h : s.Canon) : (s.moveWindows p c d).Canon := by
  unfold State.moveWindows
  refine h.foldl fun _ _ h1 => ?_
  split
  · exact h1.setFld
  · exact h1

theorem wghFollow {p} (h : s.Canon) : (s.wghFollow p).Canon := by
  unfold State.wghFollow
  extract_lets -underBinder _ _ s1
  have h1 : s1.Canon := h.setFld
  exact .ite h (.ite h1 h1.updPart)

theorem relocate {p c d} (h : s.Canon) : (s.relocate p c d).Canon :=
  h.updPart.moveWindows.wghFollow

theorem withdrawCar {c unit} (h : s.Canon) : (s.withdrawCar c unit).Canon := by
  unfold State.withdrawCar
  split
  · exact h
  · extract_lets -underBinder _ s1
    have h1 : s1.Canon := h.suspend
    split
    · exact h1
    · exact .ite h1.updPart h1.relocate.count

theorem loseOrders (h : s.Canon) : (s.loseOrders).Canon := by
  unfold State.loseOrders
  extract_lets -underBinder s2
  have h2 : s2.Canon := h.foldl fun _ _ h1 => h1.updPart
  exact h2.foldl fun _ _ h3 => h3.updCar

theorem loseJournals {k} (h : s.Canon) : (s.loseJournals k).Canon := by
  unfold State.loseJournals
  extract_lets -underBinder _ _ s1
  have h1 : s1.Canon := h.updDev
  exact .ite h (.ite h1 h1.loseOrders)

theorem loseStack {k unit} (h : s.Canon) : (s.loseStack k unit).Canon := by
  unfold State.loseStack
  split
  · exact h
  · extract_lets -underBinder _ s2 s5 s6
    have h2 : s2.Canon := h.foldl fun _ _ h1 => h1.suspend
    have h5 : s5.Canon := by
      unfold s5
      refine h2.foldl fun _ _ h3 => ?_
      refine h3.foldl fun _ _ h4 => ?_
      split
      · exact .ite h4.setFld h4
      · exact h4
    have h6 : s6.Canon := h5.updDev.zeroRange
    exact h6.loseJournals.dropGrants

theorem loseCar {c unit} (h : s.Canon) : (s.loseCar c unit).Canon := by
  unfold State.loseCar
  split
  · exact h
  · extract_lets -underBinder s1 s2
    have h1 : s1.Canon := h.updDev
    have h2 : s2.Canon := h1.zeroRange.zeroRange
    exact h2.dropGrants.withdrawCar

theorem loseChan {ch state} (h : s.Canon) : (s.loseChan ch state).Canon :=
  h.setFld.dropGrants

theorem loseStation {c stn unit} (h : s.Canon) : (s.loseStation c stn unit).Canon := by
  unfold State.loseStation
  extract_lets -underBinder s1
  have h1 : s1.Canon := h.setFld
  exact .ite h1.loseCar h1.withdrawCar

theorem losePort {i} (h : s.Canon) : (s.losePort i).Canon := by
  unfold State.losePort
  extract_lets -underBinder _ _ s1 s2
  have h1 : s1.Canon := h.setPort
  have h2 : s2.Canon := h1.setFld.setFld.setFld
  exact h2.setFld.dropGrants

theorem loseWgh {h unit} (hs : s.Canon) : (s.loseWgh h unit).Canon :=
  hs.foldl fun _ _ h1 => .ite h1.updPart.suspend h1
theorem loseEngine {h unit} (hs : s.Canon) : (s.loseEngine h unit).Canon :=
  hs.foldl fun _ _ h1 => .ite h1.suspend h1
theorem loseHost {h} (hs : s.Canon) : (s.loseHost h).Canon :=
  hs.updDev.dropGrants
theorem loseSeal {h} (hs : s.Canon) : (s.loseSeal h).Canon :=
  hs.updDev

theorem loseEnds {h inst unit} (hs : s.Canon) : (s.loseEnds h inst unit).Canon := by
  unfold State.loseEnds
  extract_lets -underBinder _ s1 s3 s5 s6 s7 s8
  have h1 : s1.Canon := .ite hs.loseStack hs
  have h3 : s3.Canon := h1.foldl fun _ _ h2 => .ite h2.loseCar h2
  have h5 : s5.Canon := h3.foldl fun _ _ h4 => .ite h4.losePort h4
  have h6 : s6.Canon := .ite h5.loseHost h5
  have h7 : s7.Canon := .ite h6.loseWgh h6
  have h8 : s8.Canon := .ite h7.loseEngine h7
  exact .ite h8.loseSeal h8

theorem loseRouter {h inst unit} (hs : s.Canon) : (s.loseRouter h inst unit).Canon := by
  unfold State.loseRouter
  extract_lets -underBinder s1 s3
  have h1 : s1.Canon := hs.setFld
  have h3 : s3.Canon := .ite (h1.foldl fun _ _ h2 => h2.loseChan) h1
  exact h3.loseEnds

theorem loseHalf {h unit} (hs : s.Canon) : (s.loseHalf h unit).Canon := by
  unfold State.loseHalf
  split
  · exact hs
  · extract_lets -underBinder s1 s2 s3 s5 s7 s8 s10
    have h1 : s1.Canon := hs.updDev
    have h2 : s2.Canon := h1.loseSeal.loseHost
    have h3 : s3.Canon := h2.setFld
    have h5 : s5.Canon := h3.foldl fun _ _ h4 => .ite h4.loseChan h4
    have h7 : s7.Canon := h5.foldl fun _ _ h6 => .ite h6.losePort h6
    have h8 : s8.Canon := h7.loseWgh
    have h10 : s10.Canon := h8.foldl fun _ _ h9 => h9.loseCar
    exact h10.foldl fun _ _ h11 => h11.loseStack

theorem cutTraffic {cut unit} (h : s.Canon) : (s.cutTraffic cut unit).Canon :=
  h.foldl fun _ _ h1 => h1.partFault70

theorem applyUnit {f} (h : s.Canon) : (s.applyUnit f).Canon := by
  unfold State.applyUnit
  split
  · exact h
  · extract_lets -underBinder
    split
    · exact .ite h.setFld h.loseStation
    · exact h.loseCar
    · exact h.loseCar
    · split
      · extract_lets -underBinder s1
        have h1 : s1.Canon := .loseRouter (.ite h.cutTraffic h)
        exact .ite h1.loseHalf h1
      · extract_lets -underBinder s2
        have h2 : s2.Canon := h.cutTraffic
        exact .ite h2.setFld h2.setFld
    · exact h.cutTraffic.loseChan
    · exact h.loseStack
    · exact h.losePort
    · exact h.loseHalf
    · exact h

theorem safeHoldNow (h : s.Canon) : (s.safeHoldNow).Canon := by
  unfold State.safeHoldNow
  split
  · exact h
  · extract_lets -underBinder s1 s2
    have h1 : s1.Canon := h.updDev
    have h2 : s2.Canon := h1.emit
    exact h2.foldl fun _ _ h3 => .ite h3.toPartner h3

theorem record1 {unit kind detail} (h : s.Canon) : (s.record1 unit kind detail).Canon := by
  unfold State.record1
  split
  · split
    rename_i _ s1 heq
    have h1 : s1.Canon := h.draw.snd heq
    extract_lets -underBinder _ s2
    have h2 : s2.Canon := h1.updDev
    exact .ite h2.safeHoldNow h2
  · exact h.safeHoldNow

theorem fenceUnit {unit detail} (h : s.Canon) : (s.fenceUnit unit detail).Canon :=
  .ite h h.record1.count.applyUnit
theorem fenceStack {k} (h : s.Canon) : (s.fenceStack k).Canon :=
  h.fenceUnit
theorem fenceCar {c} (h : s.Canon) : (s.fenceCar c).Canon :=
  h.fenceUnit

theorem fenceEnds {r} (h : s.Canon) : (s.fenceEnds r).Canon := by
  unfold State.fenceEnds
  extract_lets -underBinder s1 s3 s5
  have h1 : s1.Canon := .ite h.fenceStack h
  have h3 : s3.Canon := h1.foldl fun _ _ h2 => .ite h2.fenceCar h2
  have h5 : s5.Canon := h3.foldl fun _ _ h4 => .ite h4.fenceUnit h4
  exact h5.loseEnds

theorem cutPairs : ∀ {n} {s : State}, s.Canon → (State.cutPairs n s).Canon
  | 0, _, h => h
  | n + 1, s, h => by
    unfold State.cutPairs
    dsimp only
    split
    · exact h
    · exact cutPairs h.fenceEnds

theorem applyFence {f} (h : s.Canon) : (s.applyFence f).Canon := by
  unfold State.applyFence
  extract_lets -underBinder s1
  have h1 : s1.Canon := h.applyUnit
  exact .ite h1.cutPairs h1

theorem fence {unit detail} (h : s.Canon) : (s.fence unit detail).Canon := by
  unfold State.fence
  split
  · exact h
  · extract_lets -underBinder s1
    have h1 : s1.Canon := h.fenceUnit
    exact .ite h1.cutPairs h1

theorem fenceStation {g} (h : s.Canon) : (s.fenceStation g).Canon :=
  h.fence
theorem fenceHalf {h} (hs : s.Canon) : (s.fenceHalf h).Canon :=
  hs.fence

theorem fenceEnd {pa} (h : s.Canon) : (s.fenceEnd pa).Canon := by
  unfold State.fenceEnd
  split
  · exact h.fenceStack
  · exact h.fenceCar
  · exact h.fenceCar
  · exact h

theorem fetchRange {cs pa n} (h : s.Canon) : (s.fetchRange cs pa n).Canon := by
  unfold State.fetchRange
  split
  · extract_lets -underBinder _ s1
    have h1 : s1.Canon := .ite h h.sendMesh
    exact .ite h (.ite h.fenceEnd (.ite h1.sendMesh h1.sendTree))
  · exact h

theorem fetchRows {cs rs} (h : s.Canon) : (s.fetchRows cs rs).Canon :=
  h.foldl fun _ _ h1 => h1.foldl fun _ _ h2 => h2.fetchRange

theorem meshTo {store a pa n} (h : s.Canon) : (s.meshTo store a pa n).Canon := by
  unfold State.meshTo
  refine h.foldl fun _ _ h1 => ?_
  split
  split
  · exact h1
  · exact .ite h1 (.ite h1.fenceEnd h1.sendMesh.sendMesh)

theorem meshRow {store a p g va n} (h : s.Canon) : (s.meshRow store a p g va n).Canon := by
  unfold State.meshRow
  split
  · exact h.meshTo
  · exact h

theorem storeVbytes {a p g va bs} (h : s.Canon) : (s.storeVbytes a p g va bs).Canon :=
  h.meshRow.setVbytes
theorem repairRow {c i m} (h : s.Canon) : (s.repairRow c i m).Canon :=
  .ite h.count.record1 (.ite h.fenceCar h.fenceStation)

/-! The issue of a command (Machine/Issue). -/

theorem poisonCheck {p unit off rs} (h : s.Canon) (ht : s.poisonCheck p unit off rs = some t) : t.Canon := by
  unfold State.poisonCheck at ht
  split at ht
  · cases ht
    exact h.poisonRead.raise
  · cases ht

theorem issueAt {x} (h : s.Canon) : (s.issueAt x).Canon :=
  h.updExec

theorem clsProceed {c : Cls} {x} (h : s.Canon) (hc : c.KeepsCanon) : (c.proceed s x).Canon := by
  unfold Cls.proceed
  split
  · exact h
  · dsimp only
    refine .ite h.setExec.hold ?_
    split
    · exact h.raise
    · split
      · exact h.raise
      · exact h.setExec.hold
      · refine .ite h.raise ?_
        split
        · exact h.raise
        · refine .ite h.setExec.hold ?_
          split
          · rename_i heq
            exact h.poisonCheck heq
          · exact hc _ _ h.takeWait.issueAt

theorem clsIssue {c : Cls} {x e} (h : s.Canon) (hc : c.KeepsCanon) : (c.issue s x e).Canon := by
  unfold Cls.issue
  split
  · exact h.raise
  · exact h.clsProceed hc

theorem clsOffer {c : Cls} {p op w w1} (h : s.Canon) (hc : c.KeepsCanon) : (c.offer s p op w w1).Canon := by
  unfold Cls.offer
  split
  · split
    · exact h.clsIssue hc
    · exact h
  · exact h

theorem clsResume {c : Cls} {p op w w1} (h : s.Canon) (hc : c.KeepsCanon) : (c.resume s p op w w1).Canon := by
  unfold Cls.resume
  split
  · exact h.setExec.unhold.unhold.clsProceed hc
  · exact h

theorem enterWhen {may x units lat prog left descs} (h : s.Canon) : (s.enterWhen may x units lat prog left descs).Canon := by
  unfold State.enterWhen
  split
  · exact h
  · exact h.setExec

theorem enter {x units lat prog left descs} (h : s.Canon) : (s.enter x units lat prog left descs).Canon :=
  h.enterWhen
theorem doneAtIssue {x unit} (h : s.Canon) : (s.doneAtIssue x unit).Canon :=
  h.signal
theorem dest {p rs} (h : s.Canon) : (s.dest p rs).Canon :=
  h.updExec

/-! The torus links (Machine/Links). -/

theorem leave {i k} (h : s.Canon) : (s.leave i k).Canon :=
  .ite h.updPort.freed h
theorem targetDrop {i k} (h : s.Canon) : (s.targetDrop i k).Canon :=
  h.leave.count
theorem windowDrop {i k} (h : s.Canon) : (s.windowDrop i k).Canon :=
  h.targetDrop.emit

theorem closeOwners {i} (h : s.Canon) : (s.closeOwners i).Canon := by
  unfold State.closeOwners
  extract_lets -underBinder s3
  have h3 : s3.Canon := h.foldl fun _ _ h1 => .ite h1 (h1.foldl fun _ _ h2 => h2.updPort.runOwner.count)
  refine h3.foldl fun _ _ h4 => ?_
  extract_lets -underBinder s5
  have h5 : s5.Canon := .ite h4.sendFlit.count h4
  split
  · exact h5.freed
  · exact h5

theorem closeArriving {i vc a} (h : s.Canon) : (s.closeArriving i vc a).Canon := by
  unfold State.closeArriving
  extract_lets -underBinder
  split
  · exact h
  · split
    · exact h
    · extract_lets -underBinder _ _ s2
      have h2 : s2.Canon := h.foldl fun _ _ h1 => h1.sendFlit
      exact .ite h h2.sendFlit.count

theorem flushPort {i} (h : s.Canon) : (s.flushPort i).Canon := by
  unfold State.flushPort
  extract_lets -underBinder _ s2 _ s3 s5
  have h2 : s2.Canon := (h.foldl fun _ _ h1 => h1.closeArriving).closeOwners
  have h3 : s3.Canon := h2.setPort
  have h5 : s5.Canon := h3.foldl fun _ _ h4 => h4.updWctx
  exact h5.setFld.setFld

theorem isolate {i} (h : s.Canon) : (s.isolate i).Canon := by
  unfold State.isolate
  extract_lets -underBinder s1 s2 _ s3
  have h1 : s1.Canon := h.flushPort.setFld
  have h2 : s2.Canon := h1.count.emit
  have h3 : s3.Canon := h2.updPort
  exact .ite (.ite h3.draw.fence h3.draw) h3

theorem portUp {i} (h : s.Canon) : (s.portUp i).Canon := by
  unfold State.portUp
  extract_lets -underBinder _ _ s1
  have h1 : s1.Canon := h.setFld
  exact .ite h1 h1.updPort

theorem portOff {i} (h : s.Canon) : (s.portOff i).Canon := by
  unfold State.portOff
  extract_lets -underBinder _ s1 s2
  have h1 : s1.Canon := .ite h h.flushPort
  have h2 : s2.Canon := .ite h1.updPort h1
  exact h2.setFld

theorem lrst {i} (h : s.Canon) : (s.lrst i).Canon := by
  unfold State.lrst
  extract_lets -underBinder s1 s2 s3
  have h1 : s1.Canon := h.flushPort
  have h2 : s2.Canon := h1.updPort
  have h3 : s3.Canon := h2.setFld.setFld.setFld
  exact h3.setFld.portUp

theorem spdmCame {i bytes} (h : s.Canon) : (s.spdmCame i bytes).Canon := by
  unfold State.spdmCame
  split
  split
  · exact h.toPartner
  · exact h

theorem initExchange {i coord peerPort lanes reversed} (h : s.Canon) : (s.initExchange i coord peerPort lanes reversed).Canon := by
  unfold State.initExchange
  split
  · exact h
  · extract_lets -underBinder s1 s2 s3 _ s4
    have h1 : s1.Canon := h.setFld.setFld
    have h2 : s2.Canon := h1.setFld
    have h3 : s3.Canon := h2.setFld
    have h4 : s4.Canon := h3.setFld
    exact .ite h4.spdmCame h4

theorem resend {i} (h : s.Canon) : (s.resend i).Canon := by
  unfold State.resend
  extract_lets -underBinder _ s1 s3
  have h1 : s1.Canon := h.count.updPort
  have h3 : s3.Canon := h1.foldl fun _ _ h2 => h2.emit
  exact .ite h (.ite h3.isolate h3)

theorem nakFlit {i} (h : s.Canon) : (s.nakFlit i).Canon :=
  .ite h h.updPort.linkOnly

theorem linkAcks {i w} (h : s.Canon) : (s.linkAcks i w).Canon := by
  unfold State.linkAcks
  extract_lets -underBinder _ _ s1 _ s2 s3
  have h1 : s1.Canon := .ite h.updPort h
  have h2 : s2.Canon := h1.updPort
  have h3 : s3.Canon := .ite h2.resend h2
  exact h3.pump

theorem takeFlit {i w body} (h : s.Canon) : (s.takeFlit i w body).Canon := by
  unfold State.takeFlit
  extract_lets -underBinder _ _ _ _ s1 s2 _ _ s3
  have h1 : s1.Canon := h.freed
  have h2 : s2.Canon := .ite (.ite h1 h1.count) h
  have h3 : s3.Canon := h2.updPort
  exact .ite h2.updPort (.ite h3.freed (.ite h3.freed.count (.ite h3.updPort (.ite h3.freed.spdmCame h3.freed.count.emit))))

theorem flit {i w} (h : s.Canon) : (s.flit i w).Canon := by
  unfold State.flit
  extract_lets -underBinder _ _ _ _ _ _ s1 s2
  have h1 : s1.Canon := h.linkAcks
  have h2 : s2.Canon := h1.updPort
  exact .ite h (.ite h.count.nakFlit (.ite h.isolate (.ite h1 (.ite h (.ite h.count.isolate (.ite h.nakFlit (.ite h1 h2.linkOnly.takeFlit)))))))

theorem received {i x} (h : s.Canon) : (s.received i x).Canon := by
  unfold State.received
  split
  · exact h.flit
  · extract_lets -underBinder _ s1
    have h1 : s1.Canon := h.count
    exact .ite h (.ite h1 h1.count.nakFlit)

theorem park {i k} (h : s.Canon) : (s.park i k).Canon :=
  .ite h h.updPort
theorem unqueue {i k} (h : s.Canon) : (s.unqueue i k).Canon :=
  h.updPort

theorem forward {i k} (h : s.Canon) : (s.forward i k).Canon := by
  unfold State.forward
  split
  · exact h
  · split
    · exact h.leave.count
    · extract_lets -underBinder
      split
      · exact h
      · split
        · exact h.park
        · split
          · exact h.windowDrop
          · split
            · exact h
            · exact .ite h.leave.count (.ite h.unqueue.giveOut h.park)

theorem beaconFrom {i hops src} (h : s.Canon) : (s.beaconFrom i hops src).Canon :=
  .ite h (.ite h.count.emit h.setFld.emit)
theorem installDetours {tbl} (h : s.Canon) : (s.installDetours tbl).Canon :=
  .ite (h.foldl fun _ _ h1 => h1.setReg) h.emit

theorem giveEntry {p c q e} : ∀ {n} {s : State}, s.Canon → (s.giveEntry p c q e n).Canon
  | 0, _, h => h
  | n + 1, s, h => by
    unfold State.giveEntry
    extract_lets x via s1 s2
    have h1 : s1.Canon := by
      unfold s1
      split
      · exact h.sendControl.meshRow
      · exact h
    exact .ite h (giveEntry h1.post.setQueue)

theorem sendEntry {p} (h : s.Canon) : (s.sendEntry p).Canon := by
  unfold State.sendEntry
  extract_lets -underBinder
  split
  · exact h
  · extract_lets -underBinder
    split
    · exact h.qDrop.updPart.raise
    · split
      · exact h.qDrop.updPart.poisonRead.raise
      · extract_lets -underBinder s1
        have h1 : s1.Canon := h.giveEntry
        exact .ite h1.qDrop.updPart h1

theorem deliverSend {i k} (h : s.Canon) : (s.deliverSend i k).Canon := by
  unfold State.deliverSend
  extract_lets -underBinder
  split
  · exact h.windowDrop
  · split
    · exact h.targetDrop
    · split
      · exact .ite h.targetDrop (.ite h.storeVbytes.leave h.storeVbytes.signalOutside.leave)
      · split
        · split
          · exact h.targetDrop
          · exact .ite h.targetDrop (.ite h.park (.ite h.sendControl.qPush.leave h.sendControl.qPush.signalOutside.leave))
        · exact .ite h.leave h.signalOutside.leave

/-! Consignments (Machine/Consign). -/

theorem setCsgState {p v} (h : s.Canon) : (s.setCsgState p v).Canon :=
  h.setFld
theorem updCsg {p f} (h : s.Canon) : (s.updCsg p f).Canon :=
  h.updPart
theorem csgInterval {p} (h : s.Canon) : (s.csgInterval p).Canon :=
  h.setFld
theorem ageFailures (h : s.Canon) : (s.ageFailures).Canon :=
  h.draw.setFld

theorem risk {ce lr dr margin} (h : s.Canon) : (s.risk ce lr dr margin).Canon := by
  unfold State.risk
  extract_lets -underBinder _ _ _ s1
  have h1 : s1.Canon := h.ageFailures.setFld.updDev
  refine h1.foldl fun _ _ h2 => ?_
  extract_lets -underBinder s3 _ s4
  have h3 : s3.Canon := h2.csgInterval
  have h4 : s4.Canon := h3.updCsg
  exact .ite h4 (.ite h4.setFld.event h4.updCsg)

theorem csgFail {p n} (h : s.Canon) : (s.csgFail p n).Canon :=
  .ite h h.count.event

theorem csgStart {p} (h : s.Canon) : (s.csgStart p).Canon := by
  unfold State.csgStart
  extract_lets -underBinder s1 s2 s3 s4
  have h1 : s1.Canon := h.csgFail
  have h2 : s2.Canon := h1.updCsg
  have h3 : s3.Canon := h2.updCsg
  have h4 : s4.Canon := .ite h3.updCsg.csgFail h3
  exact .ite h2.csgFail h4.setCsgState

theorem csgBoundary {p sinceS} (h : s.Canon) : (s.csgBoundary p sinceS).Canon := by
  unfold State.csgBoundary
  extract_lets -underBinder s1
  have h1 : s1.Canon := h.csgInterval
  exact .ite h1 (.ite h1.csgFail (.ite (.ite h1.setFld.csgStart h1) (.ite h1.csgStart h1)))

theorem csgSend {p copy off bs} (h : s.Canon) : (s.csgSend p copy off bs).Canon :=
  .ite (.ite h h.storeVbytes) (h.foldl fun _ _ h1 => h1.sendPacket)

theorem csgClose {p bytes} (h : s.Canon) : (s.csgClose p bytes).Canon := by
  unfold State.csgClose
  extract_lets -underBinder s1
  have h1 : s1.Canon := h.setCsgState
  exact h1.foldl fun _ _ h2 => h2.csgSend

theorem csgReadDone {p} (h : s.Canon) : (s.csgReadDone p).Canon := by
  unfold State.csgReadDone
  extract_lets -underBinder _ _ s2 s4 s5 _ s7 s8
  have h2 : s2.Canon := h.foldl fun _ _ h1 => h1.meshTo
  have h4 : s4.Canon := h2.foldl fun _ _ h3 => h3.eccRead
  have h5 : s5.Canon := h4.csgFail.setCsgState
  have h7 : s7.Canon := h2.foldl fun _ _ h6 => h6.csgSend.csgSend
  have h8 : s8.Canon := h7.updCsg
  exact .ite h5.updCsg (.ite h8.csgClose (h8.setCsgState.foldl fun _ _ h9 => h9.csgSend))

theorem csgLoss {p loss} (h : s.Canon) : (s.csgLoss p loss).Canon := by
  unfold State.csgLoss
  extract_lets -underBinder _ s1
  have h1 : s1.Canon := h.updCsg
  exact .ite (.ite h1.csgClose h1) h

theorem csgSettle {p} (h : s.Canon) : (s.csgSettle p).Canon := by
  unfold State.csgSettle
  extract_lets -underBinder _ s1
  have h1 : s1.Canon := h.setFld.event
  exact .ite h h1.updPart

theorem csgCost {p ms} (h : s.Canon) : (s.csgCost p ms).Canon := by
  unfold State.csgCost
  extract_lets -underBinder _ _ s1
  have h1 : s1.Canon := .ite h.setFld.csgInterval h
  exact .ite h1 h1.updCsg

theorem copyAck {p copy ms} (h : s.Canon) : (s.copyAck p copy ms).Canon := by
  unfold State.copyAck
  split
  · exact h
  · extract_lets -underBinder _ s1 _ _ s2 s3 s4
    have h1 : s1.Canon := h.updCsg
    have h2 : s2.Canon := h1.updCsg
    have h3 : s3.Canon := h2.setFld.setFld
    have h4 : s4.Canon := .ite h3.setFld.event h1
    exact h4.csgSettle.csgCost

theorem copyLost {p copy} (h : s.Canon) : (s.copyLost p copy).Canon := by
  unfold State.copyLost
  split
  · extract_lets -underBinder s1
    have h1 : s1.Canon := h.updCsg
    exact h1.csgFail.csgSettle.csgCost
  · exact h

theorem csgPacket {i k} (h : s.Canon) : (s.csgPacket i k).Canon := by
  unfold State.csgPacket
  split
  · exact h
  · split
    · exact .ite h.leave h.windowDrop
    · split
      · exact h.windowDrop
      · split
        · exact h.windowDrop
        · extract_lets -underBinder s1
          have h1 : s1.Canon := h.storeVbytes.leave
          exact .ite h1.sendPacket h1

theorem restoreFail {p slot reason} (h : s.Canon) : (s.restoreFail p slot reason).Canon :=
  h.setCsgState.updCsg.raiseOutside

theorem restoreCopy {p c} (h : s.Canon) : (s.restoreCopy p c).Canon := by
  unfold State.restoreCopy
  extract_lets -underBinder s1 s4 s5 s6 s7 _ _ s8
  have h1 : s1.Canon := h.setFld
  have h4 : s4.Canon := h1.foldl fun _ _ h2 => h2.foldl fun _ _ h3 => h3.storeVbytes
  have h5 : s5.Canon := h4.setFld.setFld
  have h6 : s6.Canon := h5.setFld
  have h7 : s7.Canon := h6.setFld.setFld
  have h8 : s8.Canon := .ite h7.updPart h7
  exact .ite h8.updCsg.setCsgState h8.updCsg.setCsgState

theorem csgRestore {p c} (h : s.Canon) : (s.csgRestore p c).Canon := by
  unfold State.csgRestore
  split
  · exact h
  · extract_lets -underBinder _ s1 _ s2
    have h1 : s1.Canon := .ite h h.updCsg
    have h2 : s2.Canon := h1.updCsg
    exact .ite h2.restoreFail (.ite h2.restoreFail (.ite h2.restoreFail (.ite h2.restoreFail h2.restoreCopy)))

theorem askRestore {p} (h : s.Canon) : (s.askRestore p).Canon := by
  unfold State.askRestore
  split
  · exact h
  · extract_lets -underBinder s1
    have h1 : s1.Canon := h.updCsg
    exact .ite h1.csgRestore h1.setCsgState

theorem applyVerdict {p v} (h : s.Canon) : (s.applyVerdict p v).Canon := by
  unfold State.applyVerdict
  extract_lets reject
  have hr : ∀ st, (reject s st).Canon := fun st => by
    have h1 : ∀ t : State, t.Canon → (if t.flag1 (Csr.csgStatus_fromHost p) then
        t.storeVbytes (t.manRtr p) p (t.homeStn p) (t.fld (Csr.csgHostbuf_base p) + 3) [4]
      else t.sendPacket 2 (t.fld (Csr.csgPeer_node p (s.fld (Csr.csgStatus_source p)))) 5 0 0 0
        (t.slotBase p (2 * s.fld (Csr.csgStatus_source p) + (s.part p).csg.tried.headD 0) + 3) [4]).Canon :=
      fun t h => .ite h.storeVbytes h.sendPacket
    exact (h1 _ h.count).updCsg.setCsgState
  split
  · exact h
  · exact h.updCsg.setCsgState.updExec
  · exact hr 3
  · exact hr 0

/-! The tally (Machine/Tally). -/

theorem writeRow {p g d k j col0 row col vs} (h : s.Canon) : (s.writeRow p g d k j col0 row col vs).1.Canon := by
  unfold State.writeRow
  dsimp only
  split
  · refine foldlFst h.meshRow.meshRow fun _ _ h => ?_
    exact h.setVbytes.setVbyte
  · refine foldlFst h.meshRow fun _ _ h => ?_
    exact h.setElem

theorem drainCols {p g b val lo hi k d rs cs} (h : s.Canon) : (s.drainCols p g b val lo hi k d rs cs).Canon :=
  h.foldl fun _ _ h1 => .ite h1.writeRow.rangeEvents h1
theorem fetchVecs {p stns ds} (h : s.Canon) : (s.fetchVecs p stns ds).Canon :=
  h.foldl fun _ _ h1 => h1.foldl fun _ _ h2 => .ite h2 h2.fetchRows
theorem drainTile {p g key hi k d rs cs} (h : s.Canon) : (s.drainTile p g key hi k d rs cs).Canon :=
  h.drainCols

theorem evictTile {p g key va e h dst} (hs : s.Canon) : (s.evictTile p g key va e h dst).Canon := by
  unfold State.evictTile
  extract_lets -underBinder _ _ _ s1 s5 s6
  have h1 : s1.Canon := hs.storeVbytes
  have h5 : s5.Canon := by
    unfold s5
    refine h1.foldl fun _ _ h2 => ?_
    split
    · extract_lets -underBinder s3
      have h3 : s3.Canon := h2.meshRow
      exact h3.foldl fun _ _ h4 => h4.setVbytes.rangeEvents
    · exact h2
  have h6 : s6.Canon := h5.count
  exact .ite h6.count h6

theorem ledgerTile {p g key va e h dst} (hs : s.Canon) : (s.ledgerTile p g key va e h dst).Canon := by
  unfold State.ledgerTile
  extract_lets b hd tag fresh cnt k a s1
  have h1 : s1.Canon := hs.meshRow
  split
  rename_i s2 bad heq
  have h2 : s2.Canon := by
    refine .fst ?_ heq
    refine foldlFst h1 fun x r h => ?_
    dsimp only
    split
    · refine foldlFst (State.Canon.meshRow (.ite h h.meshRow)) fun y c h => ?_
      exact h.setVbytes.rangeEvents
    · exact h
  extract_lets s3
  have h3 : s3.Canon := h2.storeVbytes
  exact .ite h3.count h3

theorem takeBanks {x} (h : s.Canon) : (s.takeBanks x).Canon :=
  h.foldl fun _ _ h1 => .ite h1.setBank (.ite h1.setBank h1)
theorem freeTaken {off stns} (h : s.Canon) : (s.freeTaken off stns).Canon :=
  h.withBanks (Map.wf_mapCanon _ _ _ h.banks)

theorem tallyTime {x} (h : s.Canon) : (s.tallyTime x).Canon := by
  unfold State.tallyTime
  refine h.foldl fun _ _ h1 => ?_
  extract_lets -underBinder s2
  have h2 : s2.Canon := h1.useClass
  exact .ite h2.useClass h2

theorem enterTally {x} (h : s.Canon) : (s.enterTally x).Canon := by
  unfold State.enterTally
  split
  · exact h
  · exact h.setExec.tallyTime

theorem keeps_clsDrain : clsDrain.KeepsCanon := by
  intro s x h
  unfold clsDrain
  extract_lets -underBinder
  dsimp -zeta only
  split
  · exact h
  · extract_lets -underBinder
    split
    · rename_i heq
      exact h.poisonCheck heq
    · extract_lets -underBinder s2 s4
      have h2 : s2.Canon := h.fetchVecs
      have h4 : s4.Canon := h2.foldl fun _ _ h3 => h3.drainTile
      exact h4.takeBanks.enterTally.dest

theorem keeps_clsEvict : clsEvict.KeepsCanon := by
  intro s x h
  unfold clsEvict
  extract_lets -underBinder
  dsimp -zeta only
  split
  · exact h
  · extract_lets -underBinder _ _ s2
    have h2 : s2.Canon := h.foldl fun _ _ h1 => h1.evictTile
    exact h2.takeBanks.enterTally.dest

theorem keeps_clsLedger : clsLedger.KeepsCanon := by
  intro s x h
  unfold clsLedger
  extract_lets -underBinder
  dsimp -zeta only
  split
  · exact h
  · extract_lets -underBinder
    split
    · rename_i heq
      exact h.poisonCheck heq
    · extract_lets -underBinder s3 _ s5
      have h3 : s3.Canon := h.foldl fun _ _ h2 => h2.ledgerTile
      have h5 : s5.Canon := h3.foldl fun _ _ h4 => h4.count
      exact h5.takeBanks.enterTally.dest

theorem keeps_clsRelease : clsRelease.KeepsCanon := by
  intro s x h
  unfold clsRelease
  extract_lets -underBinder
  dsimp -zeta only
  extract_lets -underBinder s2
  have h2 : s2.Canon := h.foldl fun _ _ h1 => h1.setBank
  exact h2.doneAtIssue

/-! The array (Machine/Array). -/

theorem also {p x f} (h : BothCanon x) (hf : ∀ s, s.Canon → (f s).Canon) : BothCanon (State.also p x f) := by
  obtain ⟨h1, h2⟩ := h
  have h3 := hf _ h2
  unfold State.also
  dsimp only
  split
  · split
    · refine ⟨?_, h2⟩
      split
      · exact h1.raise
      · exact h1
    · exact ⟨h1, h3⟩
  · exact ⟨h3, .ite h2 h3⟩

theorem together {p} {fs : List (State → State)} {x} (h : BothCanon x) (hf : ∀ f ∈ fs, ∀ s, s.Canon → (f s).Canon) :
    BothCanon (State.together p fs x) := by
  unfold State.together
  induction fs generalizing x with
  | nil => exact h
  | cons f fs ih => exact ih (also h (hf f (by simp))) fun g hg => hf g (by simp [hg])

theorem togetherMap {α : Type} {p x} {l : List α} {g : α → State → State} (h : BothCanon x) (hg : ∀ a s, s.Canon → (g a s).Canon) :
    BothCanon (State.together p (l.map g) x) :=
  together h fun f hf => by
    obtain ⟨a, -, rfl⟩ := List.mem_map.mp hf
    exact hg a

theorem forSeq {p seq f} (h : s.Canon) (hf : ∀ s, s.Canon → (f s).Canon) : (s.forSeq p seq f).Canon := by
  unfold State.forSeq
  dsimp only
  split
  · exact (hf _ h.updPart).updPart
  · exact hf _ h

theorem sweep {p g w} (h : s.Canon) : (s.sweep p g w).Canon := by
  unfold State.sweep
  extract_lets -underBinder _ _ s1
  have h1 : s1.Canon := h.keepMax
  exact .ite h1.count.count.hold h1

theorem sweepHeld {p g w} (h : s.Canon) : (s.sweepHeld p g w).Canon := by
  unfold State.sweepHeld
  extract_lets -underBinder _ _ s1
  have h1 : s1.Canon := h.keepMax
  exact .ite h1.count.count.count h1

theorem preloadRows {p g key va} (h : s.Canon) : (s.preloadRows p g key va).Canon :=
  h.foldl fun _ _ h1 => .ite (h1.foldl fun _ _ h2 => h2.setEntry) h1

theorem preload {p u g pi va} (h : s.Canon) : (s.preload p u g pi va).Canon := by
  unfold State.preload
  extract_lets -underBinder _ _ s1
  have h1 : s1.Canon := h.setBank
  exact h1.count.preloadRows

theorem openBank {p u g pi mask} (h : s.Canon) : (s.openBank p u g pi mask).Canon := by
  unfold State.openBank
  extract_lets -underBinder s1
  have h1 : s1.Canon := h.setBank
  split
  · split
    · rename_i heq
      exact h1.poisonCheck heq
    · exact h1.preload
  · exact h1

theorem restartCar {p c} (h : s.Canon) : (s.restartCar p c).Canon := by
  have h1 := h.withTally (Map.wf_filter _ (fun x => !(x.1 / 4096 / 336 = c && (s.bank (x.1 / 4096)).st.inPass)) _ h.tally)
  exact h1.updCar.hold

theorem abandonReplay {p c} (h : s.Canon) : (s.abandonReplay p c).Canon :=
  .ite h.updPart.updCar h.updCar
theorem failCar {p c} (h : s.Canon) : (s.failCar p c).Canon :=
  h.restartCar.abandonReplay
theorem midPass {p key} (h : s.Canon) : (s.midPass p key).Canon :=
  h.setBank.failCar

theorem rerunBank {p c key} (h : s.Canon) : (s.rerunBank p c key).Canon := by
  unfold State.rerunBank
  extract_lets -underBinder
  split
  · exact h
  · extract_lets -underBinder va before s1 s2
    have h1 : s1.Canon := h.setBank
    have h2 : s2.Canon := by
      unfold s2
      clear_value va
      split
      · exact h1.preloadRows
      · exact h1
    refine h2.foldl fun _ _ h3 => ?_
    extract_lets -underBinder _ s5
    have h5 : s5.Canon := h3.foldl fun _ _ h4 => h4.setEntry
    exact .ite (h5.foldl fun _ _ h6 => h6.inputOvf.sweepHeld) h3

theorem rerunOvf {p c} (h : s.Canon) : (s.rerunOvf p c).Canon :=
  h.foldl fun _ _ h1 => h1.forSeq fun _ h2 => h2.foldl fun _ _ h3 => h3.inputOvf

theorem mismatches {g cols} (h : s.Canon) : (s.mismatches g cols).Canon := by
  unfold State.mismatches
  split
  · exact h
  · exact h.count.setFld

theorem tallyRow {p g u f ev} (h : s.Canon) : (s.tallyRow p g u f ev).Canon := by
  unfold State.tallyRow
  extract_lets -underBinder
  split
  · exact h
  · split
    rename_i s1 bad differ heq
    have h1 : s1.Canon := by
      refine .fst ?_ heq
      refine foldlFst h fun x col h => ?_
      dsimp only
      split
      · exact h
      · split
        · exact h.setEntry
        · exact h.setEntry
    extract_lets s2
    have h2 : s2.Canon := h1.mismatches.sweep
    exact .ite h2.midPass h2

theorem replayLeg {p g u f ev} (h : s.Canon) : (s.replayLeg p g u f ev).1.Canon := by
  unfold State.replayLeg
  extract_lets -underBinder
  refine foldlFst h fun x r h => ?_
  dsimp only
  split
  · exact h
  · refine foldlFst h.inputOvf.sweep fun y k h => ?_
    split
    · exact h
    · split
      · exact h.setEntry
      · exact h

theorem endLeg {p g u f ev} (h : s.Canon) : (s.endLeg p g u f ev).Canon := by
  unfold State.endLeg
  extract_lets -underBinder
  split
  · exact h
  · extract_lets -underBinder
    split
    rename_i s1 _ _ heq
    have h1 : s1.Canon := h.replayLeg.fst heq
    extract_lets -underBinder _ s2 s3 _ s4 _ s5
    have h2 : s2.Canon := h1.mismatches.count
    have h3 : s3.Canon := h2.hold
    have h4 : s4.Canon := h3.setBank
    have h5 : s5.Canon := h4.updCar
    exact .ite h5.midPass h5

theorem tileDone {p off done} (h : s.Canon) : (s.tileDone p off done).Canon :=
  h.updExec

theorem finishTile {p u g pi last} (h : s.Canon) : (s.finishTile p u g pi last).Canon := by
  unfold State.finishTile
  split
  · exact h
  · extract_lets -underBinder _ _ _ s1 s2 s3 _ s4 s5 _ s6
    have h1 : s1.Canon := h.setBank
    have h2 : s2.Canon := h.fetchVecs
    have h3 : s3.Canon := h2.drainTile
    have h4 : s4.Canon := h3.useClass.excess
    have h5 : s5.Canon := .ite h4.useClass.excess h4
    have h6 : s6.Canon := h5.setBank
    exact .ite h1.tileDone h6.tileDone

theorem startMerge {p u g pi last} (h : s.Canon) : (s.startMerge p u g pi last).Canon := by
  unfold State.startMerge
  split
  · exact h
  · extract_lets -underBinder _ _ _ s2
    have h2 : s2.Canon := h.foldl fun _ _ h1 => h1.setBank
    exact h2.foldl fun _ _ h3 => h3.count.useClass

theorem poisonGroup {p c keys} (h : s.Canon) : (s.poisonGroup p c keys).Canon :=
  (h.foldl fun _ _ h1 => h1.setBank).failCar

theorem completeMerge {p u g pi until_} (h : s.Canon) : (s.completeMerge p u g pi until_).Canon := by
  unfold State.completeMerge
  split
  · exact h
  · extract_lets -underBinder _ _ _ _ s3 s5
    have h3 : s3.Canon := h.foldl fun _ _ h1 => .ite (h1.foldl fun _ _ h2 => h2.setEntry) h1
    have h5 : s5.Canon := h3.foldl fun _ _ h4 => h4.setBank
    exact .ite h.poisonGroup h5.excess.finishTile

theorem endPass {p u g pi last} (h : s.Canon) : (s.endPass p u g pi last).Canon := by
  unfold State.endPass
  split
  · exact h.finishTile
  · extract_lets -underBinder _ _ s1
    have h1 : s1.Canon := h.setBank
    exact .ite h1.startMerge h1

theorem rowOut {p c ev f} (h : s.Canon) : (s.rowOut p c ev f).Canon := by
  unfold State.rowOut
  split
  · extract_lets -underBinder
    split
    extract_lets -underBinder s1 s2 _ s3 _ s4 s5
    have h1 : s1.Canon := h.setCar
    have h2 : s2.Canon := .ite h1.openBank h1
    have h3 : s3.Canon := h2.tallyRow
    have h4 : s4.Canon := h3.setBank
    have h5 : s5.Canon := h4.endLeg
    exact .ite h2 (.ite h3.updCar (.ite h4 (.ite h5.endPass h5)))
  · exact h

theorem endRerun {p c key} (h : s.Canon) : (s.endRerun p c key).Canon := by
  unfold State.endRerun
  extract_lets -underBinder
  split
  · exact .ite (h.forSeq fun _ h1 => .ite h1 h1.endPass) h
  · exact h

theorem rerunCar {p c} (h : s.Canon) : (s.rerunCar p c).Canon := by
  unfold State.rerunCar
  split
  · extract_lets -underBinder _ s3
    have h3 : s3.Canon := (h.rerunOvf.foldl fun _ _ h1 => h1.forSeq fun _ h2 => h2.rerunBank).updCar
    exact h3.foldl fun _ _ h4 => h4.endRerun
  · exact h

theorem rowsOut {p c ev sel} (h : s.Canon) : (s.rowsOut p c ev sel).Canon :=
  (togetherMap h.both fun _ _ h => .ite h (h.updCar.forSeq fun _ h => .ite h h.rowOut)).1

theorem upsetCopies {p ev} (h : s.Canon) : (s.upsetCopies p ev).Canon := by
  unfold State.upsetCopies
  refine h.foldl fun _ _ h1 => ?_
  split
  · exact .ite (h1.foldl fun _ _ h2 => h2.setEntry) h1
  · exact h1

theorem takeFences {p c} (h : s.Canon) : (s.takeFences p c).Canon := by
  unfold State.takeFences
  extract_lets -underBinder _ s1
  have h1 : s1.Canon := h.updCar
  exact h1.foldl fun _ _ h2 => .ite h2.fence.count.restartCar (.ite h2 ((h2.forSeq fun _ h3 => h3.raise).fenceStation))

/-! The route of the rows (Machine/Route). -/

theorem bPoison {p u g pair tile} (h : s.Canon) : (s.bPoison p u g pair tile).Canon :=
  .ite h (h.getD fun _ e1 => h.poisonCheck e1)
theorem openReads {p c seq off stn rows} (h : s.Canon) : (s.openReads p c seq off stn rows).Canon :=
  .ite h h.updCar.drvStatus
theorem closeReads {c sel} (h : s.Canon) : (s.closeReads c sel).Canon :=
  h.updCar.count.drvStatus
theorem fetchTile {p c u pair tile} (h : s.Canon) : (s.fetchTile p c u pair tile).Canon :=
  h.fetchRows.openReads

theorem tileCame {p c u t} (h : s.Canon) : (s.tileCame p c u t).Canon := by
  unfold State.tileCame
  extract_lets -underBinder s1
  have h1 : s1.Canon := .ite h h.fetchTile
  exact h1.closeReads

theorem inject {p c tiles} (h : s.Canon) : (s.inject p c tiles).1.Canon := by
  unfold State.inject
  split
  · exact h
  · extract_lets -underBinder _ s1 _ s3
    have h1 : s1.Canon := h.updCar
    have h3 : s3.Canon := by
      unfold s3
      refine h1.foldl fun _ _ h2 => ?_
      split
      · exact h2.bPoison.inputOvf
      · exact h2
    split
    · exact h3
    · exact h1.bPoison.tileCame.inputOvf

theorem beginFill {p u g pair} (h : s.Canon) : (s.beginFill p u g pair).1.Canon := by
  unfold State.beginFill
  extract_lets -underBinder
  split
  · exact h.fetchRows.openReads
  · exact h

theorem landFill {c x} (h : s.Canon) : (s.landFill c x).Canon := by
  unfold State.landFill
  extract_lets -underBinder s2
  have h2 : s2.Canon := h.foldl fun _ _ h1 => h1.setBytes
  exact h2.updCar.closeReads

theorem changeBanks {p c tiles} (h : s.Canon) : (s.changeBanks p c tiles).Canon := by
  unfold State.changeBanks
  refine h.foldl fun _ _ h1 => ?_
  split
  · exact h1
  · split
    · exact h1.landFill
    · exact .ite h1.beginFill h1.beginFill.landFill

theorem startFills {p c} (h : s.Canon) : (s.startFills p c).Canon :=
  h.foldl fun _ _ h1 => .ite (.ite h1.beginFill h1.beginFill.updCar) h1

theorem startTile {p c} (h : s.Canon) : (s.startTile p c).Canon := by
  unfold State.startTile
  split
  · exact .ite h h.fetchTile
  · exact h

theorem boundary {p c} (h : s.Canon) : (s.boundary p c).Canon := by
  unfold State.boundary
  extract_lets -underBinder _ s1 s2 s3
  have h1 : s1.Canon := h.count
  have h2 : s2.Canon := .ite h (.ite h1.count h1)
  have h3 : s3.Canon := h2.takeFences
  split
  rename_i s4 _ heq
  have h4 : s4.Canon := h3.inject.fst heq
  split
  · exact h4
  · extract_lets -underBinder s5 s6
    have h5 : s5.Canon := h4.changeBanks
    have h6 : s6.Canon := h5.updCar
    exact .ite h5 h6.updCar.startTile.startFills

theorem feedRow {p c i} (h : s.Canon) : (s.feedRow p c i).Canon := by
  unfold State.feedRow
  extract_lets -underBinder
  split
  · split
    · exact h
    · extract_lets -underBinder _ _ _ _ _ s2 _ _ _ s3 s5 s6 _ s7
      have h2 : s2.Canon := .ite (h.getD fun _ e1 => h.poisonCheck e1) h
      have h3 : s3.Canon := h2.inputOvf
      have h5 : s5.Canon := .ite (h3.foldl fun _ _ h4 => h4.useClass) h3
      have h6 : s6.Canon := .ite h5.excess h5
      have h7 : s7.Canon := h6.updCar
      exact .ite h (.ite h2 (.ite h7.excess.excess h7))
  · exact h

theorem caravanPace {p c ev} (h : s.Canon) : (s.caravanPace p c ev).Canon := by
  unfold State.caravanPace
  extract_lets k s1 s2 s3
  have h1 : s1.Canon := .ite h.boundary h
  have h2 : s2.Canon := by
    refine (togetherMap h1.both fun i s h => ?_).1
    split
    · exact h.forSeq fun _ h => .ite h h.feedRow
    · exact h
  exact h2.updCar.rowsOut

theorem dueDrains {p c} (h : s.Canon) : (s.dueDrains p c).Canon :=
  h.withBanks (Map.wf_mapCanon _ _ _ h.banks)

theorem zeroTiles {p u} (h : s.Canon) : (s.zeroTiles p u).Canon := by
  unfold State.zeroTiles
  refine h.foldl fun _ _ h1 => ?_
  refine h1.foldl fun _ _ h2 => ?_
  split
  · extract_lets -underBinder s3 _ _ s6
    have h3 : s3.Canon := h2.openBank
    have h6 : s6.Canon := .ite h3 (h3.foldl fun _ _ h4 => .ite (h4.foldl fun _ _ h5 => h5.setEntry) h4)
    exact .ite h3 h6.finishTile
  · exact h2

theorem startZero {p off} (h : s.Canon) : (s.startZero p off).Canon := by
  unfold State.startZero
  split
  · exact h
  · exact h.foldl fun _ _ h1 => h1.foldl fun _ _ h2 => h2.zeroTiles

theorem keeps_clsProduct : clsProduct.KeepsCanon := by
  intro s x h
  unfold clsProduct
  extract_lets -underBinder
  dsimp -zeta only
  split
  · exact h
  · extract_lets -underBinder _ _ _ _ s1 s2 s4
    have h1 : s1.Canon := h.enter
    have h2 : s2.Canon := .ite h1 h1.dest
    have h4 : s4.Canon := h2.foldl fun _ _ h3 => h3.updCar
    exact .ite h.doneAtIssue (.ite h4.startZero h4)

/-! The drovers (Machine/Drover). -/

theorem meshXfer {c src dst n} (h : s.Canon) : (s.meshXfer c src dst n).1.Canon := by
  unfold State.meshXfer
  extract_lets -underBinder
  split
  · exact h.fenceEnd
  · extract_lets -underBinder s1 s2
    have h1 : s1.Canon := by
      unfold s1
      split
      · exact h.sendMesh.sendMesh
      · exact h
    have h2 : s2.Canon := by
      unfold s2
      split
      · exact h1.sendMesh.sendMesh
      · exact h1
    exact h2

theorem sendXfer {p c off op x} (h : s.Canon) : (s.sendXfer p c off op x).1.Canon := by
  unfold State.sendXfer
  split
  · split
    · exact h
    · exact h.meshXfer.setCar.drvStatus
  · exact h

theorem copyPa {src dst n} (h : s.Canon) : (s.copyPa src dst n).Canon :=
  h.foldl fun _ _ h1 => h1.setByte
theorem copyRow {p src dst n} (h : s.Canon) : (s.copyRow p src dst n).Canon :=
  h.foldl fun _ _ h1 => h1.setByte

theorem drvStep {p c off op w1 ds q early} (h : s.Canon) : (s.drvStep p c off op w1 ds q early).1.Canon := by
  unfold State.drvStep
  split
  · exact h
  · exact h
  · exact h
  · extract_lets -underBinder
    split
    · exact h
    · exact h.copyRow.count
  · split
    rename_i s1 _ heq
    have h1 : s1.Canon := h.sendXfer.fst heq
    split
    · exact h
    · exact .ite h1.count h1

theorem enterDrv {x ds} (h : s.Canon) : (s.enterDrv x ds).Canon := by
  unfold State.enterDrv
  split
  · exact h
  · exact h.setCar.setExec

theorem drvDone {p c} (h : s.Canon) : (s.drvDone p c).Canon :=
  h.updExec

theorem keeps_clsDrv : clsDrv.KeepsCanon := by
  intro s x h
  unfold clsDrv
  extract_lets -underBinder
  dsimp -zeta only
  extract_lets -underBinder _ _ s1 s2
  have h1 : s1.Canon := h.enterDrv
  have h2 : s2.Canon := h1.dest
  exact h2.drvDone

theorem gatherLanded {s0 : State} {p w w1} (h : s.Canon) : (s0.gatherLanded s p w w1).Canon := by
  unfold State.gatherLanded
  split
  · split
    · refine .ite (h.foldl fun _ _ h => ?_) h
      split
      · exact h.scramble
      · exact h
    · exact h
  · exact h

theorem offerGather {p h w1} (hs : s.Canon) : (s.offerGather p h w1).Canon :=
  gatherLanded (hs.clsOffer keeps_clsDrv)

theorem trySwap {p c} (h : s.Canon) : (s.trySwap p c).Canon := by
  unfold State.trySwap
  split
  · exact h
  · split
    · split
      · extract_lets -underBinder _ s1 s2 _ s3
        have h1 : s1.Canon := h.setFld
        have h2 : s2.Canon := h1.setExec
        have h3 : s3.Canon := h2.updCar
        exact .ite h3.release h3
      · exact h
    · exact h

theorem swapNow {p c} (h : s.Canon) : (s.swapNow p c).Canon := by
  unfold State.swapNow
  extract_lets -underBinder s2
  have h2 : s2.Canon := by
    unfold s2
    split
    · exact h.forSeq fun _ h1 => h1.trySwap
    · exact h
  exact h2.trySwap

theorem keeps_clsSwap : clsSwap.KeepsCanon := by
  intro s x h
  unfold clsSwap
  extract_lets -underBinder
  dsimp -zeta only
  extract_lets -underBinder _ s1
  have h1 : s1.Canon := h.enterDrv
  exact .ite h1.updCar.hold h1.trySwap

theorem second {unit} (h : s.Canon) : (s.second unit).1.Canon := by
  unfold State.second
  split
  · exact h.draw
  · exact h.updDev

theorem countPoison {v n} (h : s.Canon) : (s.countPoison v n).Canon := by
  unfold State.countPoison
  split
  · exact h.count
  · exact h

theorem poisonedOnce {v} (h : s.Canon) : (s.poisonedOnce v).Canon :=
  .ite h.countPoison.second.fence h.countPoison.second
theorem poisonedTwice {v} (h : s.Canon) : (s.poisonedTwice v).Canon :=
  h.countPoison.fence

theorem correctedBeats {ch n} (h : s.Canon) : (s.correctedBeats ch n).Canon := by
  unfold State.correctedBeats
  extract_lets -underBinder _ s1
  have h1 : s1.Canon := h.count.updDev
  exact .ite h1 (.ite h1.draw.fence h1.draw)

theorem pathSeen {c t arr} (h : s.Canon) : (s.pathSeen c t arr).Canon := by
  unfold State.pathSeen
  split
  · exact h
  · extract_lets -underBinder s1
    have h1 : s1.Canon := h.eccRead
    split
    · exact h1.correctedBeats
    · exact h1
  · exact h.poisonedOnce
  · exact h.poisonedTwice

theorem lateHold {p} (h : s.Canon) : (s.lateHold p).Canon :=
  .ite h h.hold.unhold
theorem dropXfer {c id} (h : s.Canon) : (s.dropXfer c id).Canon :=
  h.updCar.drvStatus

theorem landIn {c x arr} (h : s.Canon) : (s.landIn c x arr).Canon := by
  unfold State.landIn
  split
  · exact h
  · extract_lets -underBinder early badAt
    clear_value badAt
    split
    · exact h
    · split
      · exact h.dropXfer.eccRead.raise
      · exact h.dropXfer.raise.pathSeen
      · extract_lets -underBinder s1
        have h1 : s1.Canon := by
          unfold s1
          split
          · exact h.lateHold
          · exact h
        exact h1.copyPa.dropXfer.count.drvDone.pathSeen

theorem readCame {c rid id} (h : s.Canon) : (s.readCame c rid id).Canon :=
  h.updCar.drvStatus

theorem readSeen {c pa n arr} (h : s.Canon) : (s.readSeen c pa n arr).Canon := by
  unfold State.readSeen
  split
  · exact h
  · extract_lets -underBinder s1
    have h1 : s1.Canon := h.eccRead
    split
    · exact h1.correctedBeats
    · exact h1
  · exact h.poisonedOnce
  · exact h.poisonedTwice

theorem readIn {c x pa n arr} (h : s.Canon) : (s.readIn c x pa n arr).Canon := by
  unfold State.readIn
  extract_lets -underBinder tile s1
  have h1 : s1.Canon := by
    unfold s1
    clear_value tile
    split
    · exact h.failCar
    · exact h.failCar
    · exact h.lateHold
    · exact h.raise
    · exact h
  exact h1.readSeen

theorem landRead {c x id va n arr} (h : s.Canon) : (s.landRead c x id va n arr).Canon := by
  unfold State.landRead
  extract_lets -underBinder _ s1
  have h1 : s1.Canon := h.readCame
  exact .ite h1.count.readSeen (h1.count.forSeq fun _ h2 => h2.readIn)

theorem land {c id arr} (h : s.Canon) : (s.land c id arr).Canon := by
  unfold State.land
  split
  · split
    · exact .ite h h.landRead
    · exact h
  · exact .ite h (.ite h.dropXfer.count.pathSeen (h.forSeq fun _ h1 => h1.landIn))

theorem noAnswer {p c seq off pa} (h : s.Canon) : (s.noAnswer p c seq off pa).Canon := by
  unfold State.noAnswer
  extract_lets -underBinder s2
  have h2 : s2.Canon := h.forSeq fun _ h1 => h1.raise
  split
  · exact .ite h2.second.fenceStack h2.second
  · exact .ite h2.fenceCar h2
  · exact h2

theorem xferTimeout {c id dstEnd} (h : s.Canon) : (s.xferTimeout c id dstEnd).Canon := by
  unfold State.xferTimeout
  split
  · split
    · exact h
    · extract_lets -underBinder _ _ s1
      have h1 : s1.Canon := h.readCame.count
      exact .ite h1 h1.noAnswer
  · extract_lets -underBinder s2
    have h2 : s2.Canon := h.dropXfer.count
    exact .ite h2 h2.noAnswer

/-! The mortars (Machine/Mortar). -/

theorem mortarFinish {x m} (h : s.Canon) : (s.mortarFinish x m).Canon := by
  rw [State.mortarFinish]
  obtain ⟨check, hc⟩ : ∃ check, check = State.poisonCheck := ⟨_, rfl⟩
  have hcheck {t u : State} {p unit off rs} (ht : t.Canon) (hu : check t p unit off rs = some u) : u.Canon := by
    subst hc
    exact ht.poisonCheck hu
  rw [← hc]
  clear hc
  have hrow {rs : List (Nat × Nat × List Byte)} {t : State} (ht : t.Canon) :
      (rs.foldl (fun s y => s.storeVbytes (rtrOfCar (y.1 / 8)) x.p y.1 y.2.1 y.2.2) t).Canon :=
    ht.foldl fun _ _ h => h.storeVbytes
  split
  · exact h
  · extract_lets -underBinder s1 
    have h1 : s1.Canon := h.closeReads
    clear_value s1
    split
    · rename_i ht
      exact hcheck h1 ht
    · exact h1.foldl fun _ _ h => .ite (hrow h).rangeEvents (hrow h).rangeEvents.count

theorem mortarFetch {x m} (h : s.Canon) : (s.mortarFetch x m).Canon :=
  h.fetchRows.openReads

theorem mortarTick {x m start} (h : s.Canon) : (s.mortarTick x m start).Canon := by
  unfold State.mortarTick
  split
  · exact h
  · extract_lets -underBinder _ _ _ _ _ s1
    have h1 : s1.Canon := .ite h.mortarFetch h
    refine h1.foldl fun _ _ h2 => ?_
    extract_lets -underBinder _ s3
    have h3 : s3.Canon := .ite h2.useClass h2
    exact .ite h3.excess h3

theorem keeps_clsMortar : clsMortar.KeepsCanon := by
  intro s x h
  unfold clsMortar
  extract_lets -underBinder
  dsimp -zeta only
  split
  · exact h
  · extract_lets -underBinder _ s1 s2
    have h1 : s1.Canon := h.enterWhen
    have h2 : s2.Canon := h1.dest
    exact .ite h2.dest h2

theorem keeps_clsVec : clsVec.KeepsCanon := keeps_clsMortar

/-! Remnant passes (Machine/Remnant). -/

theorem remLeg {p u g l} (h : s.Canon) : (s.remLeg p u g l).Canon := by
  unfold State.remLeg
  extract_lets -underBinder
  split
  · rename_i heq
    exact h.poisonCheck heq
  · extract_lets -underBinder s2 s3 _ s5
    have h2 : s2.Canon := h.fetchRows.count
    have h3 : s3.Canon := h2.inputOvf
    have h5 : s5.Canon := h3.foldl fun _ _ h4 => h4.sweepHeld
    exact .ite h5.count h5

theorem runRemLegs {p u a b} (h : s.Canon) : (s.runRemLegs p u a b).Canon :=
  h.foldl fun _ _ h1 => h1.foldl fun _ _ h2 => .ite h2 h2.remLeg

theorem remnantTile {p u g pi} (h : s.Canon) : (s.remnantTile p u g pi).Canon := by
  unfold State.remnantTile
  split
  · exact h
  · exact .ite (h.foldl fun _ _ h1 => .ite (h1.foldl fun _ _ h2 => h2.setEntry) h1) h.drainCols

theorem runRemnants {p c off done} (h : s.Canon) : (s.runRemnants p c off done).Canon := by
  unfold State.runRemnants
  split
  · exact h
  · extract_lets -underBinder s1
    have h1 : s1.Canon := h.runRemLegs
    exact .ite h1 (h1.foldl fun _ _ h2 => h2.foldl fun _ _ h3 => h3.remnantTile)

theorem preemptRemnants {p} (h : s.Canon) : (s.preemptRemnants p).Canon := by
  unfold State.preemptRemnants
  refine h.foldl fun _ _ h1 => ?_
  refine h1.foldl fun _ _ h2 => ?_
  split
  split
  · exact h2
  · exact h2.draw.runRemLegs.updCar

/-! The weighhouse (Machine/Weigh). -/

theorem digest {a b bytes} (h : s.Canon) : (s.digest a b bytes).Canon :=
  h.setFld.setFld

theorem wSend {p member h payload} (hs : s.Canon) : (s.wSend p member h payload).Canon := by
  unfold State.wSend
  extract_lets -underBinder _ _ _ s1
  have h1 : s1.Canon := hs.sendPacket
  exact .ite h1.digest h1

theorem wideWrite {p r c vals whole} (h : s.Canon) : (s.wideWrite p r c vals whole).Canon := by
  unfold State.wideWrite
  extract_lets -underBinder
  split
  · exact h.raise
  · extract_lets -underBinder s1
    have h1 : s1.Canon := h.storeVbytes
    exact .ite h1 (.ite h1.raise h1.signalOutside)

theorem sendsLeft {p} (h : s.Canon) : (s.sendsLeft p).Canon := by
  unfold State.sendsLeft
  split
  · exact h
  · extract_lets -underBinder _ _ s2
    have h2 : s2.Canon := h.foldl fun _ _ h1 => .ite h1.freeTaken h1
    exact h2.updExec

theorem sendDone {p} (h : s.Canon) : (s.sendDone p).Canon := by
  unfold State.sendDone
  extract_lets -underBinder s2
  have h2 : s2.Canon := by
    unfold s2
    split
    · exact h.forSeq fun _ h1 => h1.sendsLeft
    · exact h
  exact h2.sendsLeft

theorem wSticky {p seq ovf unf} (h : s.Canon) : (s.wSticky p seq ovf unf).Canon := by
  unfold State.wSticky
  refine h.forSeq fun _ h1 => ?_
  split
  · exact h1
  · extract_lets -underBinder s2
    have h2 : s2.Canon := .ite h1.sticky h1
    exact .ite h2.sticky h2

theorem deliver {p x} (h : s.Canon) : (s.deliver p x).1.Canon := by
  unfold State.deliver
  extract_lets -underBinder
  split
  · split
    · exact h
    · exact h.setWctx
  · split
    · exact h
    · extract_lets -underBinder _ _ _ _ _ s1 _ s2
      have h1 : s1.Canon := h.setWctx
      have h2 : s2.Canon := .ite h1.wideWrite h1
      exact h2.wSticky.sendDone

theorem sliceFetch {p r c n} (h : s.Canon) : (s.sliceFetch p r c n).Canon :=
  .ite h (h.foldl fun _ _ h1 => h1.meshRow)

theorem chunkPoison {p r c} (h : s.Canon) (ht : s.chunkPoison p r c = some t) : t.Canon := by
  unfold State.chunkPoison at ht
  split at ht
  · cases ht
  · exact h.poisonCheck ht

theorem finishSlot {p k} (h : s.Canon) : (s.finishSlot p k).Canon := by
  unfold State.finishSlot
  extract_lets -underBinder
  split
  extract_lets -underBinder s1 s2 _ _ _ s5 s6 s7
  have h1 : s1.Canon := h.count.count
  have h2 : s2.Canon := .ite h1.count h1
  have h5 : s5.Canon := h2.foldl fun _ _ h3 => h3.foldl fun _ _ h4 => h4.wSend
  have h6 : s6.Canon := h5.updWctx
  have h7 : s7.Canon := h6.updWctx
  exact .ite h7.deliver h6

theorem openChunk {p} (h : s.Canon) : (s.openChunk p).Canon := by
  unfold State.openChunk
  extract_lets -underBinder
  split
  · exact h
  · split
    · exact h
    · split
      · rename_i heq
        exact h.chunkPoison heq
      · extract_lets -underBinder _ _ _ s2 s4
        have h2 : s2.Canon := h.sliceFetch.setWctx
        have h4 : s4.Canon := h2.foldl fun _ _ h3 => h3.wSend
        exact .ite h4.finishSlot h4

theorem ownerMiss {p b c} (h : s.Canon) : (s.ownerMiss p b c).Canon := by
  unfold State.ownerMiss
  split
  · exact h
  · extract_lets -underBinder
    split
    · exact h
    · extract_lets -underBinder s1 s3 s4
      have h1 : s1.Canon := h.setWctx
      have h3 : s3.Canon := h1.foldl fun _ _ h2 => h2.wSend
      have h4 : s4.Canon := h3.updWctx
      exact .ite (.ite h4.deliver.count h4.deliver) h3.count

theorem memberMiss {p b c} (h : s.Canon) : (s.memberMiss p b c).Canon := by
  unfold State.memberMiss
  split
  · exact h
  · split
    · exact .ite (.ite h.deliver.count h.deliver) h
    · exact h

theorem contribute {p r c} (h : s.Canon) : (s.contribute p r c).Canon := by
  unfold State.contribute
  extract_lets -underBinder
  split
  · exact h
  · split
    · rename_i heq
      exact h.chunkPoison heq
    · extract_lets -underBinder _ _ _ _ s2 s4
      have h2 : s2.Canon := h.sliceFetch
      have h4 : s4.Canon := h2.foldl fun _ _ h3 => h3.wSend
      exact h4.updWctx.sendDone

theorem wOpen {p h} (hs : s.Canon) : (s.wOpen p h).1.Canon := by
  unfold State.wOpen
  extract_lets -underBinder
  split
  · exact hs.count
  · split
    · exact hs.count
    · split
      · exact hs.contribute
      · exact hs.setWctx

theorem wContrib {p h wide payload} (hs : s.Canon) : (s.wContrib p h wide payload).1.Canon := by
  unfold State.wContrib
  extract_lets -underBinder
  split
  · exact hs.wSend
  · split
    · exact hs.count
    · split
      · exact hs.count
      · extract_lets -underBinder _ _ s1
        have h1 : s1.Canon := hs.setWctx
        split
        · exact hs.count
        · split
          · exact hs.count
          · exact .ite h1.finishSlot h1

theorem wResult {p h wide payload} (hs : s.Canon) : (s.wResult p h wide payload).1.Canon := by
  unfold State.wResult
  extract_lets -underBinder
  split
  · exact hs
  · extract_lets -underBinder _ _ _ _ _ _ s1
    have h1 : s1.Canon := hs.setWctx
    split
    · exact hs.count
    · split
      · exact hs.count
      · split
        · exact hs.count
        · split
          · exact hs
          · split
            · exact h1
            · exact h1.deliver

theorem wFail {p h} (hs : s.Canon) : (s.wFail p h).1.Canon := by
  unfold State.wFail
  split
  · exact hs.count
  · split
    rename_i s1 _ heq
    have h1 : s1.Canon := hs.deliver.fst heq
    split
    · exact h1.count
    · exact hs.count

theorem wVote {p h payload} (hs : s.Canon) : (s.wVote p h payload).1.Canon := by
  unfold State.wVote
  extract_lets -underBinder
  split
  · exact hs.count
  · exact hs.setWctx

theorem wNak {p h} (hs : s.Canon) : (s.wNak p h).1.Canon := by
  unfold State.wNak
  extract_lets -underBinder
  split
  · exact hs.raise
  · split
    · exact hs.raise
    · exact hs.count

theorem wghMeet {port hdr payload} (h : s.Canon) : (s.wghMeet port hdr payload).1.Canon := by
  unfold State.wghMeet
  extract_lets w
  split
  · exact h.count
  · extract_lets w cur pending
    split
    · exact h
    · split
      · exact h.count
      · split
        · exact h.count
        · exact h
        · split
          · split
            · exact h
            · exact h.wSend
          · split
            rename_i s1 a heq
            have h1 : s1.Canon := by
              split at heq
              · exact h.wOpen.fst heq
              · exact h.wContrib.fst heq
              · exact h.wResult.fst heq
              · exact h.wContrib.fst heq
              · exact h.wResult.fst heq
              · exact h.wVote.fst heq
              · exact h.wNak.fst heq
              · exact h.wFail.fst heq
            split
            · exact h1.digest
            · exact h1
            · exact h1

theorem wWait {p port k hdr payload} (h : s.Canon) : (s.wWait p port k hdr payload).Canon := by
  unfold State.wWait
  extract_lets -underBinder s1
  have h1 : s1.Canon := by
    unfold s1
    split
    · exact h.park
    · exact h
  exact h1.updWctx

theorem wghReceive {port k hdr payload} (h : s.Canon) : (s.wghReceive port k hdr payload).Canon := by
  unfold State.wghReceive
  extract_lets -underBinder
  split
  rename_i s1 _ heq
  have h1 : s1.Canon := h.wghMeet.fst heq
  split
  · exact h1.wWait
  · split
    · exact h1.leave.updWctx
    · exact h1

theorem wRefeed {p} (h : s.Canon) : (s.wRefeed p).Canon :=
  h.updWctx.foldl fun _ _ h1 => .ite h1.wghReceive h1.wWait

theorem beginSend {p off} (h : s.Canon) : (s.beginSend p off).Canon := by
  unfold State.beginSend
  extract_lets -underBinder
  split
  · exact h
  · extract_lets -underBinder _ s1 s3 _ _ s5
    have h1 : s1.Canon := h.setWctx
    have h3 : s3.Canon := h1.foldl fun _ _ h2 => h2.deliver
    have h5 : s5.Canon := by
      unfold s5
      refine h3.foldl fun _ _ h4 => ?_
      split
      · exact h4.contribute
      · exact h4
    exact h5.sendDone.wRefeed

theorem startSend {x r} (h : s.Canon) : (s.startSend x r).Canon := by
  unfold State.startSend
  extract_lets -underBinder _ _ s1 s2 s4 s5
  have h1 : s1.Canon := h.updExec
  have h2 : s2.Canon := h1.updWctx
  have h4 : s4.Canon := h2.foldl fun _ _ h3 => h3.deliver
  have h5 : s5.Canon := h1.enter.updWctx
  exact .ite h4.doneAtIssue.wRefeed (.ite h5.beginSend h5)

theorem keeps_clsSend {wide} : (clsSend wide).KeepsCanon :=
  fun _ _ h => .ite ((h.foldl fun _ _ h1 => h1.setBank).startSend) h.startSend

theorem tablePoison {p off} (h : s.Canon) (ht : s.tablePoison p off = some t) : t.Canon := by
  unfold State.tablePoison at ht
  dsimp only at ht
  split at ht
  · cases ht
  · exact h.poisonCheck ht

theorem reshardNow {p off} (h : s.Canon) : (s.reshardNow p off).Canon := by
  unfold State.reshardNow
  split
  · rename_i heq
    exact h.tablePoison heq
  · split
    · exact h.raise
    · extract_lets -underBinder _ _ s2 _ s3 s4 s5 s6
      have h2 : s2.Canon := h.updWctx
      have h3 : s3.Canon := h2.setFld
      have h4 : s4.Canon := h3.setFld.setFld
      have h5 : s5.Canon := h4.setFld.release
      have h6 : s6.Canon := h5.updExec
      exact h6.wRefeed

theorem keeps_clsReshard : clsReshard.KeepsCanon := by
  intro s x h
  unfold clsReshard
  extract_lets -underBinder
  dsimp -zeta only
  extract_lets -underBinder s1
  have h1 : s1.Canon := h.enter
  exact .ite h1.reshardNow h1.hold

theorem wghStart {p seq step attempt inter} (h : s.Canon) : (s.wghStart p seq step attempt inter).Canon := by
  unfold State.wghStart
  extract_lets -underBinder _ _ _ _ s1
  have h1 : s1.Canon := h.setWctx
  exact h1.setFld.setFld.wRefeed

theorem wghPrst {p} (h : s.Canon) : (s.wghPrst p).Canon := by
  unfold State.wghPrst
  extract_lets -underBinder _ s3
  have h3 : s3.Canon := h.foldl fun _ _ h1 => h1.foldl fun _ _ h2 => h2.wSend
  exact h3.setWctx

/-! Updates (Machine/Update). -/

theorem setPlane {p direct} : ∀ {bs} {va} {s : State}, s.Canon → (s.setPlane p va direct bs).Canon
  | [], _, _, h => h
  | _ :: bs, _, _, h => by
    unfold State.setPlane
    apply setPlane (bs := bs)
    split
    · exact h.setByte
    · exact h

theorem sendVotes {p outcome} (h : s.Canon) : (s.sendVotes p outcome).Canon := by
  unfold State.sendVotes
  extract_lets -underBinder _ s2
  have h2 : s2.Canon := h.foldl fun _ _ h1 => h1.wSend
  exact h2.updWctx

theorem decideStep {p e d} (h : s.Canon) : (s.decideStep p e d).Canon := by
  unfold State.decideStep
  extract_lets -underBinder s1
  have h1 : s1.Canon := .ite h.setFld h
  exact h1.setExec

theorem stepSettle {p} (h : s.Canon) : (s.stepSettle p).Canon := by
  unfold State.stepSettle
  split
  · exact h
  · split
    · exact h
    · extract_lets -underBinder _ _ s1 _ s2
      have h1 : s1.Canon := .ite h.sendVotes h
      have h2 : s2.Canon := .ite h (.ite h.decideStep (.ite h1.decideStep h1))
      split
      · exact h2
      · exact .ite h2.setExec.unhold.unhold.realignFree (.ite h2.hold h2.unhold.hold)

theorem lossEnd {p off votes} (h : s.Canon) : (s.lossEnd p off votes).Canon := by
  unfold State.lossEnd
  extract_lets -underBinder s1 _ s3
  have h1 : s1.Canon := h.updExec
  have h3 : s3.Canon := h1.foldl fun _ _ h2 => h2.scrambleAhead.updCar.scanOver
  exact .ite h3.sendVotes h3

theorem keeps_clsLosschk : clsLosschk.KeepsCanon := by
  intro s x h
  unfold clsLosschk
  extract_lets -underBinder
  dsimp -zeta only
  extract_lets -underBinder
  split
  · rename_i heq
    exact h.poisonCheck heq
  · extract_lets -underBinder _ _ s2 s3 verdict s4
    have h2 : s2.Canon := h.updExec
    have h3 : s3.Canon := h2.csgLoss
    have h4 : s4.Canon := h3.applyVerdict
    clear_value verdict
    split
    · exact h4.raise
    · exact h4.lossEnd
    · exact .ite h4.doneAtIssue h4.lossEnd

theorem keeps_clsUpdate : clsUpdate.KeepsCanon := by
  intro s x h
  unfold clsUpdate
  extract_lets -underBinder
  dsimp -zeta only
  extract_lets -underBinder
  split
  · rename_i heq
    exact h.poisonCheck heq
  · extract_lets -underBinder _ _ _ _ s2 s3 s4 s5
    have h2 : s2.Canon := h.updExec
    have h3 : s3.Canon := h2.dest
    have h4 : s4.Canon := h3.enter
    have h5 : s5.Canon := .ite h4.hold h4
    exact .ite h2.doneAtIssue.wRefeed h5.wRefeed

theorem planePoison {p u pls ws} (h : s.Canon) (ht : s.planePoison p u pls ws = some t) : t.Canon := by
  unfold State.planePoison at ht
  split at ht
  · cases ht
  · exact h.poisonCheck ht

theorem finishUpd {p off} (h : s.Canon) : (s.finishUpd p off).Canon :=
  h.updExec

theorem stopEngine {p} (h : s.Canon) : (s.stopEngine p).Canon := by
  unfold State.stopEngine
  extract_lets -underBinder s1
  have h1 : s1.Canon := h.setFld
  split
  · exact h1
  · exact h1.foldl fun _ _ h2 => h2.finishUpd

theorem badChunk {p u why} (h : s.Canon) : (s.badChunk p u why).Canon := by
  unfold State.badChunk
  extract_lets -underBinder s1
  have h1 : s1.Canon := h.updExec
  exact .ite h1.stopEngine h1.finishUpd

theorem meshPlanes {p u pls lo hi} (h : s.Canon) : (s.meshPlanes p u pls lo hi).Canon := by
  unfold State.meshPlanes
  extract_lets -underBinder
  refine h.foldl fun _ _ h1 => ?_
  split
  refine h1.foldl fun _ _ h2 => ?_
  split
  extract_lets -underBinder s3
  have h3 : s3.Canon := h2.meshRow
  split
  · exact h3.meshTo
  · exact h3

theorem writeChunk {p u pls x ws} (h : s.Canon) : (s.writeChunk p u pls x ws).Canon := by
  unfold State.writeChunk
  extract_lets -underBinder s1 s4 s5 s6 s7
  have h1 : s1.Canon := h.meshPlanes
  have h4 : s4.Canon := h1.foldl fun _ _ h2 => .ite h2 (h2.foldl fun _ _ h3 => h3.setPlane)
  have h5 : s5.Canon := h4.updEvents
  have h6 : s6.Canon := .ite h5.updWctx h5
  have h7 : s7.Canon := h6.updExec
  exact .ite h7.updExec.finishUpd h7

theorem applyRun {p b c} (h : s.Canon) : (s.applyRun p b c).Canon := by
  unfold State.applyRun
  split
  · exact h
  · extract_lets -underBinder
    split
    · split
      · exact h
      · split
        · exact h
        · extract_lets -underBinder s1 _ _ _ s3
          have h1 : s1.Canon := h.setWctx
          have h3 : s3.Canon := by
            unfold s3
            split
            · exact h1.badChunk
            · split
              · exact h1.badChunk
              · split
                · rename_i heq
                  exact h1.planePoison heq
                · exact .ite h1.writeChunk h1.badChunk
          exact .ite h1 (.ite (.ite h1.badChunk h1) h3.stepSettle)
    · exact h

theorem applyChunk {p b c} (h : s.Canon) : (s.applyChunk p b c).Canon := by
  unfold State.applyChunk
  split
  · exact h
  · split
    · exact .ite (h.forSeq fun _ h1 => h1.applyRun) h.applyRun
    · exact h.applyRun

theorem keeps_clsCommit : clsCommit.KeepsCanon := by
  intro s x h
  unfold clsCommit
  extract_lets -underBinder
  dsimp -zeta only
  extract_lets -underBinder s1
  have h1 : s1.Canon := h.updExec
  exact h1.enter.stepSettle

theorem voteMiss {p} (h : s.Canon) : (s.voteMiss p).Canon := by
  unfold State.voteMiss
  split
  · exact h
  · extract_lets -underBinder
    split
    · exact h
    · split
      · exact h
      · exact h.raise

theorem consignRead {p} (h : s.Canon) : (s.consignRead p).Canon := by
  unfold State.consignRead
  split
  · extract_lets -underBinder s1
    have h1 : s1.Canon := h.csgReadDone
    exact .ite h1.stepSettle (.ite h1 h1.release)
  · exact h

theorem wghPacket {typ port k hdr payload} (h : s.Canon) : (s.wghPacket typ port k hdr payload).Canon := by
  unfold State.wghPacket
  split
  · exact h
  · extract_lets -underBinder s1
    have h1 : s1.Canon := h.wghReceive
    split
    · exact .ite h1.stepSettle h1
    · exact h1

theorem behind {i k} (h : s.Canon) : (s.behind i k).Canon := by
  unfold State.behind
  extract_lets -underBinder
  split
  · exact .ite h.wWait h.park
  · exact h.park

theorem deliverPacket {i k} (h : s.Canon) : (s.deliverPacket i k).Canon := by
  unfold State.deliverPacket
  split
  · exact h
  · split
    · exact h.leave.count
    · extract_lets -underBinder
      split
      · exact h
      · split
        · exact h.behind
        · split
          · split
            · exact .ite h.wghPacket h.windowDrop
            · exact h.windowDrop
          · exact .ite h.deliverSend (.ite h.csgPacket (.ite h.windowDrop (.ite h.leave.beaconFrom h.leave)))

/-! Orders (Machine/Order). -/

theorem accept {p f r hdr} (h : s.Canon) : (s.accept p f r hdr).Canon := by
  unfold State.accept
  extract_lets -underBinder _ _ s1
  have h1 : s1.Canon := h.updPart
  exact h1.setFld.setFld

theorem orderAccept {p f r entry} (h : s.Canon) : (s.orderAccept p f r entry).Canon := by
  unfold State.orderAccept
  extract_lets -underBinder
  split
  · exact h
  · split
    · exact h.setFld.updPart.event
    · extract_lets -underBinder _ s1
      have h1 : s1.Canon := h.updPart
      split
      · exact h
      · split
        · split
          · exact h1.sendPacket
          · exact h1
        · exact h.accept

theorem clearAlloc {c} (h : s.Canon) : (s.clearAlloc c).Canon := by
  have h1 := (h.withFlags (Map.wf_filter _ (fun x => x.1 / 4096 ≠ c) _ h.flags)).withQueues
    (Map.wf_filter _ (fun x => x.1 / 64 ≠ c) _ h.queues)
  exact h1.foldl fun _ _ h => h.setReg

theorem loadAllocs {p as} (h : s.Canon) : (s.loadAllocs p as).Canon := by
  unfold State.loadAllocs
  extract_lets -underBinder _ s2
  have h2 : s2.Canon := h.foldl fun _ _ h1 => h1.clearAlloc
  refine h2.foldl fun _ _ h3 => ?_
  split
  · exact h3.setFlag
  · exact h3.setReg

theorem loadPlan {p h} (hs : s.Canon) : (s.loadPlan p h).Canon :=
  hs.foldl fun _ _ h1 => h1.setReg

theorem loadSpice {p ts} (h : s.Canon) : (s.loadSpice p ts).Canon := by
  refine h.foldl fun _ _ h => h.foldl fun _ _ h => State.Canon.setFld (h.foldl fun s k h => ?_)
  exact h.withSpice (Map.wf_set (fun _ => []) _ _ _ h.spice)

theorem countClasses {p ts} (h : s.Canon) : (s.countClasses p ts).Canon :=
  h.setFld.setFld
theorem cutHolds {p} (h : s.Canon) : (s.cutHolds p).Canon :=
  h.updPart

theorem startOrder {p o} (h : s.Canon) : (s.startOrder p o).Canon := by
  unfold State.startOrder
  extract_lets base inter attempt ts fs bad s1 s2 s3 s4 s5 s6 s7 poisoned
  have h1 : s1.Canon := h.updPart
  have h2 : s2.Canon := .ite h1 h1.cutHolds
  have h4 : s4.Canon := h2.setExec.setReg.setFld
  have h5 : s5.Canon := .ite h4 (h4.foldl fun _ _ h => h.updCar)
  have h7 : s7.Canon := h5.setPartState.wghStart
  have hp : ∀ t, poisoned = some t → t.Canon := fun t ht => by
    unfold poisoned at ht
    split at ht
    · cases ht
    · exact h7.poisonCheck ht
  clear_value poisoned
  split
  · exact hp _ rfl
  · split
    · exact h7.raise
    · exact h7.loadAllocs.loadPlan.loadSpice.countClasses

theorem orderStart {p} (h : s.Canon) : (s.orderStart p).Canon := by
  unfold State.orderStart
  split
  · exact h
  · split
    · exact h
    · split
      · exact h.startOrder
      · exact .ite h.startOrder h

theorem applyAct {p a} (h : s.Canon) : (s.applyAct p a).Canon := by
  unfold State.applyAct
  split
  · extract_lets -underBinder s1
    have h1 : s1.Canon := h.setReg.setReg
    split
    · exact h1.suspend
    · exact h1
  · exact h.setFld
  · exact h.setReg

theorem sealAnswer {p status reason} (h : s.Canon) : (s.sealAnswer p status reason).Canon :=
  h.setFld.setFld.emit
theorem dropPreReq {p} (h : s.Canon) : (s.dropPreReq p).Canon :=
  .ite h.updPart.sealAnswer h
theorem applyActs {p} (h : s.Canon) : (s.applyActs p).Canon :=
  .ite h (h.updPart.foldl fun _ _ h1 => h1.applyAct)

theorem writeRecord {p r} (h : s.Canon) : (s.writeRecord p r).Canon := by
  unfold State.writeRecord
  extract_lets -underBinder _ s1
  have h1 : s1.Canon := .ite h h.storeVbytes
  exact h1.emit.emit

theorem flushRecords {p} (h : s.Canon) : (s.flushRecords p).Canon :=
  .ite (h.updPart.foldl fun _ _ h1 => h1.writeRecord) h
theorem completionFlush {p} (h : s.Canon) : (s.completionFlush p).Canon :=
  h.updDev.flushRecords
theorem emptyMbox {p m} (h : s.Canon) : (s.emptyMbox p m).Canon :=
  h.setReg.foldl fun _ _ h1 => h1.setReg

theorem fillMbox {p m seq ready data} (h : s.Canon) : (s.fillMbox p m seq ready data).Canon := by
  unfold State.fillMbox
  extract_lets -underBinder s1
  have h1 : s1.Canon := h.setFld.setFld
  exact .ite (h1.foldl fun _ _ h2 => h2.setReg) h1

theorem publish {p m seq ready data} (h : s.Canon) : (s.publish p m seq ready data).Canon :=
  .ite h.fillMbox h.updPart

theorem mboxRelease {p m} (h : s.Canon) : (s.mboxRelease p m).Canon := by
  unfold State.mboxRelease
  split
  · exact h
  · extract_lets -underBinder s1
    have h1 : s1.Canon := h.emptyMbox
    split
    · exact h1.updPart.fillMbox
    · exact h1

theorem settleOutcome {p e status} (h : s.Canon) : (s.settleOutcome p e status).1.Canon := by
  unfold State.settleOutcome
  extract_lets -underBinder s1 s2 s3 s4
  have h1 : s1.Canon := h.updWctx
  have h2 : s2.Canon := h1.setFld
  have h3 : s3.Canon := .ite h2 h2.setFld
  have h4 : s4.Canon := h3.setFld
  split
  · split
    · exact h1.setFld.setFld
    · exact h1
  · split
    · exact h1
    · split
      · exact h4.setFld.setFld
      · exact h2.count

theorem endOrder {p o e status fault} (h : s.Canon) : (s.endOrder p o e status fault).Canon := by
  unfold State.endOrder
  split
  rename_i s1 outcome heq
  have h1 : s1.Canon := by
    split at heq
    · exact h.settleOutcome.fst heq
    · cases heq
      exact h
  extract_lets s2 s3 bm r base s4
  have h4 : s4.Canon := h1.updPart.setFld.updPart.flushRecords
  exact .ite h4.publish h4

theorem dropElastic {p} (h : s.Canon) : (s.dropElastic p).Canon := by
  refine h.foldl fun _ _ h => ?_
  extract_lets s1
  have h1 : s1.Canon := h.withFlags (Map.wf_mapCanon _ _ _ h.flags)
  exact h1.foldl fun _ _ h => h.setQueue.setFld

theorem noExec {p} (h : s.Canon) : (s.noExec p).Canon := by
  unfold State.noExec
  extract_lets -underBinder s1 s3
  have h1 : s1.Canon := by
    unfold s1
    split
    · exact h.setFld
    · exact h
  have h3 : s3.Canon := h1.dropElastic.foldl fun _ _ h2 => h2.scanOver
  exact h3.updPart.cutHolds.setPartState

theorem leaveExec {p seq} (h : s.Canon) : (s.leaveExec p seq).Canon := by
  unfold State.leaveExec
  extract_lets -underBinder s1
  have h1 : s1.Canon := h.noExec.updPart
  exact h1.dropPreReq.applyActs

theorem again {p seqs} (h : s.Canon) : (s.again p seqs).Canon :=
  h.updPart.count

theorem repeatStep {p e} (h : s.Canon) : (s.repeatStep p e).Canon := by
  unfold State.repeatStep
  extract_lets -underBinder s1 s2
  have h1 : s1.Canon := h.setFld.count.count
  have h2 : s2.Canon := h1.updWctx
  exact h2.noExec.updPart

theorem partFaultEvent {p r} (h : s.Canon) : (s.partFaultEvent p r).Canon :=
  h.event

theorem endSignal {p off} (h : s.Canon) : (s.endSignal p off).Canon := by
  unfold State.endSignal
  split
  · exact h
  · exact h.signal

theorem endBy {p cause e} (h : s.Canon) : (s.endBy p cause e).Canon := by
  unfold State.endBy
  extract_lets -underBinder _ s1
  have h1 : s1.Canon := by
    unfold s1
    split
    · exact .ite h.partFaultEvent h
    · exact h
  split
  · exact h.endOrder
  · exact h1.endOrder
  · exact h1.again

theorem endBoth {p a b} (h : s.Canon) : (s.endBoth p a b).Canon := by
  unfold State.endBoth
  exact h.endBy.endBy.noExec.leaveExec

theorem keptCheck {p e} (h : s.Canon) : (s.keptCheck p e).Canon := by
  unfold State.keptCheck
  extract_lets -underBinder
  split
  · exact h.raise
  · exact h.endSignal

theorem endPrev {p a} (h : s.Canon) : (s.endPrev p a).Canon := by
  unfold State.endPrev
  split
  · exact h
  · split
    · exact .ite h.endBoth h
    · split
      · exact h
      · extract_lets -underBinder s2
        have h2 : s2.Canon := h.forSeq fun _ h1 => h1.keptCheck
        split
        · split
          · split
            · exact .ite h2.endBoth h2
            · exact h2
          · exact h2.endOrder.updPart
        · exact h2

theorem orderEnd {p sinceS e} (h : s.Canon) : (s.orderEnd p sinceS e).Canon := by
  unfold State.orderEnd
  extract_lets -underBinder
  split
  · exact h.endOrder.leaveExec
  · split
    · split
      · exact h
      · split
        · exact h
        · extract_lets -underBinder s1
          have h1 : s1.Canon := .ite h.partFaultEvent h
          exact h1.endOrder.leaveExec
    · split
      · exact h
      · split
        · split
          · exact h.repeatStep
          · extract_lets -underBinder _ s2
            have h2 : s2.Canon := h.setFld.count
            exact h2.endOrder.leaveExec
        · extract_lets -underBinder s3
          have h3 : s3.Canon := h.endOrder.leaveExec
          exact .ite h3.csgBoundary h3

theorem orderComplete {p sinceS} (h : s.Canon) : (s.orderComplete p sinceS).Canon := by
  unfold State.orderComplete
  split
  · exact h
  · split
    · exact h.endPrev
    · split
      · exact h
      · extract_lets -underBinder s1
        have h1 : s1.Canon := by
          unfold s1
          split
          · split
            · exact h.raise
            · exact h.endSignal
          · exact h
        split
        · exact h1.orderEnd
        · exact h1

theorem restart {p e} (h : s.Canon) : (s.restart p e).Canon :=
  h.noExec.again

theorem reexecute {p} (h : s.Canon) : (s.reexecute p).Canon := by
  unfold State.reexecute
  extract_lets -underBinder
  split
  · exact h
  · split
    · exact .ite h.endBoth h
    · split
      · exact .ite h.partFaultEvent.restart h
      · exact h
    · exact h

theorem touched {p unit} (h : s.Canon) : (s.touched p unit).Canon := by
  unfold State.touched
  split
  · exact h
  · exact .ite h h.stopOrder.updExec.reexecute

theorem cancelSaved {p seq} (h : s.Canon) : (s.cancelSaved p seq).Canon := by
  unfold State.cancelSaved
  split
  · exact h
  · extract_lets -underBinder s2
    have h2 : s2.Canon := h.foldl fun _ _ h1 => h1.endBy
    exact h2.updPart

theorem cancel {p seq} (h : s.Canon) : (s.cancel p seq).Canon := by
  unfold State.cancel
  extract_lets -underBinder _ _ s1
  have h1 : s1.Canon := h.endOrder
  exact .ite h (.ite (.ite h h.stopOrder.updExec) (.ite (.ite h h.stopOrder.updPart) (.ite h.cancelSaved h1.updPart)))

theorem endAll {p status} (h : s.Canon) : (s.endAll p status).Canon := by
  unfold State.endAll
  extract_lets -underBinder s1 _ _ s2 s4
  have h1 : s1.Canon := h.stopOrder
  have h2 : s2.Canon := h1.dropPreReq.noExec.updPart
  have h4 : s4.Canon := h2.foldl fun _ _ h3 => h3.endOrder
  exact h4.applyActs

theorem grantWgh {p h n} (hs : s.Canon) : (s.grantWgh p h n).Canon := by
  unfold State.grantWgh
  split
  · exact hs
  · extract_lets -underBinder s1
    have h1 : s1.Canon := hs.setFld.setFld
    exact .ite h1.setWctx.setReg.updPart h1

theorem manResume {p} (h : s.Canon) : (s.manResume p).Canon := by
  unfold State.manResume
  extract_lets -underBinder _ _ s1 s2
  have h1 : s1.Canon := .ite h.grantWgh h
  have h2 : s2.Canon := h1.updPart.setFld
  exact .ite h (.ite h2.reexecute h2)

theorem withdraw {p} (h : s.Canon) : (s.withdraw p).Canon :=
  .ite h h.endAll.updPart.setFld

theorem clearCars {p} (h : s.Canon) : (s.clearCars p).Canon := by
  unfold State.clearCars
  extract_lets cs s1
  have h1 : s1.Canon := (h.withBanks (Map.wf_filter _ _ _ h.banks)).withTally (Map.wf_filter _ _ _ h.tally)
  exact h1.foldl fun _ _ h => h.updCar

theorem flushRows {p} (h : s.Canon) : (s.flushRows p).Canon :=
  h.foldl fun _ _ h1 => h1.rowsOut
theorem flushFences {p} (h : s.Canon) : (s.flushFences p).Canon :=
  h.foldl fun _ _ h1 => h1.takeFences

theorem flushXfers {p e} (h : s.Canon) : (s.flushXfers p e).Canon := by
  unfold State.flushXfers
  extract_lets -underBinder _ s3 s5
  have h3 : s3.Canon := h.foldl fun _ _ h1 => h1.foldl fun _ _ h2 => .ite h2.land h2.dropXfer.count
  have h5 : s5.Canon := h3.foldl fun _ _ h4 => h4.count.count.updCar.drvStatus
  exact h5.foldl fun _ _ h6 => h6.updCar.scanOver

theorem saveAreas {p} (h : s.Canon) : (s.saveAreas p).Canon :=
  h.foldl fun _ _ h1 => .ite h1.scramble h1
theorem saveBad {p bad} (h : s.Canon) : (s.saveBad p bad).Canon :=
  h.foldl fun _ _ h1 => .ite (h1.foldl fun _ _ h2 => .ite h2.eccSram.midPass h2) h1

theorem preemptNow {p} (h : s.Canon) : (s.preemptNow p).Canon := by
  unfold State.preemptNow
  split
  · extract_lets -underBinder _ s1 s2 s3 s4 s5
    have h1 : s1.Canon := h.flushRows.flushFences
    have h2 : s2.Canon := .ite h1 h1.preemptRemnants
    have h3 : s3.Canon := h2
    have h4 : s4.Canon := h3.flushXfers
    have h5 : s5.Canon := h4.saveBad.saveAreas
    split
    · exact h
    · split
      · exact h3
      · split
        · exact h3
        · split
          · exact h5
          · split
            · exact h5
            · extract_lets -underBinder _ s6
              have h6 : s6.Canon := h5.clearCars.updPart.setPartState
              exact h6.sealAnswer
  · exact h

theorem refill {p c} (h : s.Canon) : (s.refill p c).Canon := by
  unfold State.refill
  extract_lets -underBinder _ _ _ _ s1 s3
  have h1 : s1.Canon := h.setCar
  have h3 : s3.Canon := h1.foldl fun _ _ h2 => h2.landFill
  exact h3.updCar

theorem restorePreempt {p q} (h : s.Canon) : (s.restorePreempt p q).Canon := by
  unfold State.restorePreempt
  extract_lets -underBinder d cs s1 s2 s3 s4 s5 s6 s7 s8 s9 s10 s11 was s12 lat s13 tag s14 s15 later src e s16 s17 s18
  have h2 : s2.Canon := h.clearCars.foldl fun _ _ h => h.setCar
  have h3 : s3.Canon := h2.foldl fun _ _ h => h.setBank
  have h4 : s4.Canon := h3.foldl fun _ _ h => h.setEntry
  have h5 : s5.Canon := h4.foldl fun _ _ h => h.zeroRange
  have h6 : s6.Canon := h5.foldl fun _ _ h => h.setByte
  have h7 : s7.Canon := h6.foldl fun _ _ h => h.clearAlloc
  have h8 : s8.Canon := h7.foldl fun _ _ h => h.setFlag
  have h9 : s9.Canon := h8.foldl fun _ _ h => h.setQueue
  have h10 : s10.Canon := h9.withSpice (Map.wf_filter _ _ _ h9.spice)
  have h11 : s11.Canon := h10.foldl fun s a h => h.withSpice (Map.wf_set (fun _ => []) _ a.1 a.2 h.spice)
  have h12 : s12.Canon := h11.foldl fun _ _ h => State.Canon.foldl (h.setReg.foldl fun _ _ h => h.setReg) fun _ _ h => h.setFld
  have h15 : s15.Canon := h12.setFld.setFld.setFld.updWctx
  have h17 : s17.Canon := h15.updPart.setReg.setPartState
  have h18 : s18.Canon := State.Canon.wRefeed (h17.foldl fun _ _ h => h.refill)
  exact .ite h18.hold h18

theorem preemptResume {p} (h : s.Canon) : (s.preemptResume p).Canon := by
  unfold State.preemptResume
  split
  · exact .ite h (.ite h.updPart.applyActs h.restorePreempt)
  · exact h

theorem watchdog {p} (h : s.Canon) : (s.watchdog p).Canon := by
  unfold State.watchdog
  split
  · exact h
  · exact .ite h h.count.raise

/-! Resets (Machine/Reset). -/

theorem resetCols {inScope col} (h : s.Canon) : (s.resetCols inScope col).Canon :=
  h.withCsr (Map.wf_mapCanon _ _ _ h.csr)

theorem zeroStation {c i} (h : s.Canon) : (s.zeroStation c i).Canon := by
  unfold State.zeroStation
  extract_lets g s1 s2
  have h1 : s1.Canon := h.zeroRange
  have h2 : s2.Canon := ((h1.withTally (Map.wf_filter _ _ _ h1.tally)).withBanks (Map.wf_filter _ _ _ h1.banks)).withSpice
    (Map.wf_filter _ _ _ h1.spice)
  exact h2.updCar

theorem zeroCaravan {c} (h : s.Canon) : (s.zeroCaravan c).Canon := by
  unfold State.zeroCaravan
  extract_lets -underBinder s2 s3
  have h2 : s2.Canon := h.foldl fun _ _ h1 => h1.zeroStation
  have h3 : s3.Canon := h2.zeroRange
  exact h3.clearAlloc.setCar

theorem endGrants {covers} (h : s.Canon) : (s.endGrants covers).Canon :=
  h.withTolls (Map.wf_mapCanon _ _ _ h.tolls)

theorem crst {c stn} (h : s.Canon) : (s.crst c stn).Canon := by
  unfold State.crst
  extract_lets -underBinder _ s1 s2
  have h1 : s1.Canon := by
    unfold s1
    split
    · exact h.touched
    · exact h
  have h2 : s2.Canon := by
    unfold s2
    split
    · exact h1.zeroStation
    · exact h1.zeroCaravan.endGrants
  exact h2.resetCols

theorem endUnlock {p} (h : s.Canon) : (s.endUnlock p).Canon := by
  unfold State.endUnlock
  extract_lets -underBinder s1 s2
  have h1 : s1.Canon := h.updScout
  have h2 : s2.Canon := h1.setFld.setFld
  exact h2.setFld.release.updPart

theorem dropPushes {p} (h : s.Canon) : (s.dropPushes p).Canon := by
  unfold State.dropPushes
  refine h.foldl fun _ _ h1 => ?_
  extract_lets -underBinder _ s2
  have h2 : s2.Canon := h1.updPort
  exact h2.foldl fun _ _ h3 => h3.freed.count

theorem prst {p} (h : s.Canon) : (s.prst p).Canon := by
  unfold State.prst
  extract_lets -underBinder s1 s2 _ s4 s5
  have h1 : s1.Canon := h.endAll.endUnlock
  have h2 : s2.Canon := h1.wghPrst.dropPushes.updPart
  have h4 : s4.Canon := (h2.foldl fun _ _ h3 => h3.zeroCaravan).endGrants
  have h5 : s5.Canon := h4.resetCols
  exact h5.setPartState

theorem lrstReq {i sinceS} (h : s.Canon) : (s.lrstReq i sinceS).Canon :=
  .ite h h.endGrants.resetCols.lrst

theorem flr {f} (h : s.Canon) : (s.flr f).Canon := by
  unfold State.flr
  extract_lets -underBinder s1 s2
  have h1 : s1.Canon := h.resetCols
  have h2 : s2.Canon := h1.updDev
  split
  · exact h2.updPart
  · exact h2

theorem setHostUp {hp up} (h : s.Canon) : (s.setHostUp hp up).Canon :=
  h.updDev

theorem trainHost {hp} (h : s.Canon) : (s.trainHost hp).Canon := by
  unfold State.trainHost
  extract_lets -underBinder _ _ s1
  have h1 : s1.Canon := h.setHostUp
  exact .ite h1.emit h1

theorem perstAssert {hp} (h : s.Canon) : (s.perstAssert hp).Canon := by
  unfold State.perstAssert
  extract_lets -underBinder s2
  have h2 : s2.Canon := h.foldl fun _ _ h1 => h1.flr
  exact h2.updDev.setHostUp.dropGrants

theorem perstRelease {hp cxl} (h : s.Canon) : (s.perstRelease hp cxl).Canon :=
  h.updDev.trainHost

theorem refEvent {r back} (h : s.Canon) : (s.refEvent r back).Canon := by
  unfold State.refEvent
  extract_lets -underBinder s1
  have h1 : s1.Canon := h.count.emit
  exact h1.foldl fun _ _ h2 => .ite h2 h2.event

theorem referenceLost {r} (h : s.Canon) : (s.referenceLost r).Canon := by
  unfold State.referenceLost
  split
  · exact h
  · extract_lets -underBinder s1
    have h1 : s1.Canon := h.setFld.refEvent
    split
    · exact h1.foldl fun _ _ h2 => h2.portOff
    · exact h1.setHostUp.setHostUp

theorem referenceReturn {r} (h : s.Canon) : (s.referenceReturn r).Canon := by
  unfold State.referenceReturn
  split
  · exact h
  · extract_lets -underBinder s1
    have h1 : s1.Canon := h.setFld.refEvent
    split
    · exact .ite (h1.foldl fun _ _ h2 => h2.portUp) h1
    · exact h1.trainHost.trainHost

theorem putRwl {off lsb width v} (h : s.Canon) : (s.putRwl off lsb width v).Canon := by
  unfold State.putRwl
  split
  · exact h
  · exact h.setReg

theorem putWinEntry {port e w} (h : s.Canon) : (s.putWinEntry port e w).Canon :=
  h.setReg.setReg

theorem putWinLists {ws} (h : s.Canon) : (s.putWinLists ws).Canon := by
  unfold State.putWinLists
  refine h.foldl fun _ _ h1 => ?_
  refine h1.foldl fun _ _ h2 => ?_
  split
  exact h2.putWinEntry

theorem installPart {p d} (h : s.Canon) : (s.installPart p d).Canon := by
  unfold State.installPart
  extract_lets -underBinder s1 s2 s3
  have h1 : s1.Canon := h.setReg
  have h2 : s2.Canon := h1.setFld
  have h3 : s3.Canon := h2.setFld.setFld
  exact h3.updPart.setPartState

theorem placeSpares {p} (h : s.Canon) : (s.placeSpares p).Canon := by
  unfold State.placeSpares
  extract_lets -underBinder
  refine h.foldl fun _ _ h1 => ?_
  split
  · exact h1
  · split
    · exact .ite h1.updPart.setFld h1.relocate
    · exact h1.updPart.setFld

theorem placeJournal {h k} (hs : s.Canon) : (s.placeJournal h k).Canon :=
  hs.updDev
theorem placeJournals (h : s.Canon) : (s.placeJournals).Canon :=
  h.placeJournal.placeJournal

theorem wiped (h : s.Canon) : s.wiped.Canon := by
  have hp := Map.wf_mapCanon (fun _ => Port.idle)
    (fun _ x => { Port.idle with isolations24 := x.isolations24, keyGen := x.keyGen }) _ h.ports
  have hm := Map.wf_filter _ (fun x => cxlBase ≤ x.1) _ h.mem
  rw [State.canon_maps]
  exact ⟨⟨rfl, hm, rfl, rfl⟩, ⟨rfl, rfl, rfl, rfl⟩, rfl, hp, rfl, rfl⟩

theorem powerOff (h : s.Canon) : (s.powerOff).Canon :=
  h.wiped.updDev

theorem startFences {img c} (h : s.Canon) : (s.startFences img c).Canon := by
  unfold State.startFences
  extract_lets -underBinder s1 s3 s5 s6
  have h1 : s1.Canon := .ite h h.updDev
  have h3 : s3.Canon := h1.foldl fun _ _ h2 => h2.applyFence
  have h5 : s5.Canon := h3.foldl fun _ _ h4 => h4.fenceStack
  have h6 : s6.Canon := .ite h5 h5.fenceHalf
  exact .ite h6 h6.fenceHalf

theorem setUp {slot img} (h : s.Canon) : (s.setUp slot img).Canon := by
  unfold State.setUp
  extract_lets -underBinder s2 s4 s5 s6 s8 s10 s11 s13
  have h2 : s2.Canon := h.foldl fun _ _ h1 => h1.putRwl
  have h4 : s4.Canon := h2.foldl fun _ _ h3 => h3.setFld
  have h5 : s5.Canon := h4.putWinLists
  have h6 : s6.Canon := h5.setReg
  have h8 : s8.Canon := h6.foldl fun _ _ h7 => h7.installPart
  have h10 : s10.Canon := h8.foldl fun _ _ h9 => h9.placeSpares
  have h11 : s11.Canon := h10.setFld.setFld.setFld
  have h13 : s13.Canon := h11.foldl fun _ _ h12 => .ite h12.setFld h12
  exact h13.placeJournals.updDev

theorem startUp {c} (h : s.Canon) : (s.startUp c).Canon := by
  unfold State.startUp
  extract_lets -underBinder s1 s3 s4 s5 s7 s8
  have h1 : s1.Canon := h.updDev
  have h3 : s3.Canon := by
    unfold s3
    split
    · exact h1.setFld
    · extract_lets -underBinder s2
      have h2 : s2.Canon := h1.updDev
      exact h2.startFences.setUp
  have h4 : s4.Canon := .ite h3 h3.referenceLost
  have h5 : s5.Canon := .ite h4 h4.referenceLost
  have h7 : s7.Canon := .ite (h5.foldl fun _ _ h6 => h6.portUp) h5
  have h8 : s8.Canon := .ite h7 h7.safeHoldNow
  exact .ite h1.powerOff.updDev h8.trainHost.trainHost

theorem drst {heldUs c} (h : s.Canon) : (s.drst heldUs c).Canon :=
  .ite h h.wiped.setFld.startUp

theorem wrstPreempted {p unit} (h : s.Canon) : (s.wrstPreempted p unit).Canon := by
  unfold State.wrstPreempted
  split
  · exact h
  · extract_lets -underBinder s2
    have h2 : s2.Canon := .ite h (h.foldl fun _ _ h1 => h1.endBy)
    exact h2.updPart

theorem wrstPart {p} (h : s.Canon) : (s.wrstPart p).Canon := by
  unfold State.wrstPart
  extract_lets -underBinder _ s1 s2
  have h1 : s1.Canon := h.touched.wrstPreempted.dropPreReq
  have h2 : s2.Canon := h1.updPart
  exact h2.setWctx

theorem wrst {reason} (h : s.Canon) : (s.wrst reason).Canon := by
  unfold State.wrst
  extract_lets s1 s2 s3 s4 s5 s6
  have h1 : s1.Canon := h.foldl fun _ _ h => .ite h h.wrstPart
  have h2 : s2.Canon := h1.foldl fun _ _ h => h.zeroCaravan.updCar
  have h3 : s3.Canon := h2.foldl fun _ _ h => h.flushPort
  have h5 : s5.Canon := h3.resetCols.setFld.setFld
  have h6 : s6.Canon := h5.withTolls rfl
  exact h6.foldl fun _ _ h => h.lrst

/-! Clocks and power (Machine/Power). -/

theorem setLug {h ok} (hs : s.Canon) : (s.setLug h ok).Canon :=
  hs.updDev
theorem setHalfOn {h on} (hs : s.Canon) : (s.setHalfOn h on).Canon :=
  hs.updDev
theorem noteHalf {h} (hs : s.Canon) : (s.noteHalf h).Canon :=
  .ite hs hs.record1.count

theorem lugDown {h milliV} (hs : s.Canon) : (s.lugDown h milliV).Canon := by
  unfold State.lugDown
  split
  · exact hs
  · extract_lets -underBinder s1
    have h1 : s1.Canon := hs.setLug.setHalfOn
    exact .ite h1.powerOff.updDev (.ite h1 (.ite h1.noteHalf h1.fenceHalf))

theorem lugUp {h milliV} (hs : s.Canon) : (s.lugUp h milliV).Canon := by
  unfold State.lugUp
  split
  · exact hs
  · extract_lets -underBinder s1
    have h1 : s1.Canon := hs.setLug
    exact .ite h1.setHalfOn h1

theorem fastLoopLook {watts} (h : s.Canon) : (s.fastLoopLook watts).Canon := by
  unfold State.fastLoopLook
  extract_lets -underBinder _ _ s1
  have h1 : s1.Canon := h.updDev
  exact .ite h1.count.count h1

theorem thermal {fld n temp} (h : s.Canon) : (s.thermal fld n temp).Canon := by
  unfold State.thermal
  split
  · exact h
  · extract_lets -underBinder _ s1 s2 _ _ _ s3 s4
    have h1 : s1.Canon := h.updDev
    have h2 : s2.Canon := h1.setFld
    have h3 : s3.Canon := h2.updDev
    have h4 : s4.Canon := .ite h3.count h3
    exact .ite h2.powerOff.updDev (.ite (h4.foldl fun _ _ h5 => .ite h5.hold h5) h4)

theorem spaceHolds {p n cycles} (h : s.Canon) : (s.spaceHolds p n cycles).Canon :=
  h.updPart

theorem capLoop {watts est} (h : s.Canon) : (s.capLoop watts est).Canon := by
  unfold State.capLoop
  extract_lets -underBinder _ s2 s3 s5
  have h2 : s2.Canon := h.foldl fun _ _ h1 => h1.spaceHolds
  have h3 : s3.Canon := h2.setFld
  have h5 : s5.Canon := h3.foldl fun _ _ h4 => h4.setFld
  exact .ite h5 (h5.foldl fun _ _ h6 => .ite h6 h6.spaceHolds)

theorem p2Entry {p} (h : s.Canon) : (s.p2Entry p).Canon :=
  .ite h h.setPartState.dropGrants
theorem loseP3 (h : s.Canon) : (s.loseP3).Canon :=
  h.withCsr (Map.wf_mapCanon _ _ _ h.csr)

theorem enterP3 (h : s.Canon) : (s.enterP3).Canon := by
  unfold State.enterP3
  extract_lets -underBinder s2 s4 s6 s8
  have h2 : s2.Canon := h.foldl fun _ _ h1 => h1.zeroCaravan
  have h4 : s4.Canon := h2.foldl fun _ _ h3 => h3.setWctx
  have h6 : s6.Canon := (h4.foldl fun _ _ h5 => h5.portOff).loseP3
  have h8 : s8.Canon := h6.foldl fun _ _ h7 => .ite h7 h7.endUnlock
  exact h8.setFld.updDev.dropGrants

theorem p3Ask (h : s.Canon) : (s.p3Ask).Canon :=
  .ite h (.ite h.setFld.enterP3 h.setFld.updDev)
theorem p3Late (h : s.Canon) : (s.p3Late).Canon :=
  .ite h (.ite h.enterP3 h.updDev.setFld)

theorem leaveP3 (h : s.Canon) : (s.leaveP3).Canon := by
  unfold State.leaveP3
  split
  · exact h
  · extract_lets -underBinder s1 _ s3
    have h1 : s1.Canon := h.setFld
    have h3 : s3.Canon := h1.foldl fun _ _ h2 => h2.applyFence
    exact h3.foldl fun _ _ h4 => h4.portUp

/-! Dependability (Machine/Dep). -/

theorem rebuildDone {h} (hs : s.Canon) : (s.rebuildDone h).Canon :=
  .ite hs hs.placeJournal

theorem rowMarked {k row} (h : s.Canon) : (s.rowMarked k row).2.Canon := by
  unfold State.rowMarked
  split
  · exact h
  · split
    · exact h
    · exact h.draw

theorem softPpr {k row} (h : s.Canon) : (s.softPpr k row).Canon := by
  unfold State.softPpr
  split
  · exact h
  · split
    rename_i _ s1 heq
    have h1 : s1.Canon := h.rowMarked.snd heq
    split
    · exact h1
    · extract_lets -underBinder s2
      have h2 : s2.Canon := h1.updDev
      exact h2.count.record1

theorem poisonSeen {k n} (h : s.Canon) : (s.poisonSeen k n).Canon := by
  unfold State.poisonSeen
  extract_lets -underBinder _ s1
  have h1 : s1.Canon := h.updDev
  exact .ite h1.fenceStack (.ite (.ite h1.draw.fenceStack h1.draw) h1)

theorem withPoison {l : List Nat} (h : s.Canon) : State.Canon { s with poison := l } := h

theorem scrub {k one two poisoned} (h : s.Canon) : (s.scrub k one two poisoned).Canon := by
  unfold State.scrub
  split
  · exact h
  · extract_lets here fresh s1
    have h1 : s1.Canon := h.count.count.count
    exact h1.withPoison.poisonSeen

theorem setSeal {h v} (hs : s.Canon) : (s.setSeal h v).Canon :=
  hs.updDev
theorem stopSeal {h} (hs : s.Canon) : (s.stopSeal h).Canon :=
  .ite hs.setSeal.count hs

/-! The hosts (Machine/Host). -/

theorem rawWrite {w off f is v} (h : s.Canon) : (s.rawWrite w off f is v).Canon :=
  h.setReg
theorem scaleShares (h : s.Canon) : (s.scaleShares).Canon :=
  .ite h (h.foldl fun _ _ h1 => h1.setFld)
theorem grantShare {p w} (h : s.Canon) : (s.grantShare p w).Canon :=
  .ite h.setFld h
theorem enablePort {i} (h : s.Canon) : (s.enablePort i).Canon :=
  .ite h.setFld (.ite h.portOff (.ite h.portUp h))
theorem peerFeed {p n} (h : s.Canon) : (s.peerFeed p n).Canon :=
  h.setFld

theorem doorbell {f ring tail p} (h : s.Canon) : (s.doorbell f ring tail p).Canon := by
  unfold State.doorbell
  extract_lets -underBinder s1
  have h1 : s1.Canon := h.setFld.sendControl
  exact .ite h1.setFld (.ite h1.updDev h1)

theorem ringBase {f ring v} (h : s.Canon) : (s.ringBase f ring v).Canon := by
  unfold State.ringBase
  extract_lets -underBinder s1
  have h1 : s1.Canon := h.setFld.setFld
  exact h1.setFld.setFld

theorem cplHead {p v} (h : s.Canon) : (s.cplHead p v).Canon :=
  h.setFld
theorem sealChange {p a} (h : s.Canon) : (s.sealChange p a).Canon :=
  h.updPart.applyActs.sealAnswer
theorem acted (h : s.Canon) : (s.acted).Canon :=
  h.foldl fun _ _ h1 => h1.foldl fun _ _ h2 => h2.applyAct

theorem reqMap {p} (h : s.Canon) : (s.reqMap p).Canon := by
  unfold State.reqMap
  split
  · exact h.sealAnswer
  · exact h.sealChange

theorem reqUnmap {p} (h : s.Canon) : (s.reqUnmap p).Canon :=
  .ite h.sealAnswer h.sealChange
theorem afterRwl {f is} (h : s.Canon) : (s.afterRwl f is).Canon :=
  .ite h.scaleShares (.ite h.enablePort h)

theorem reqRwl {p} (h : s.Canon) : (s.reqRwl p).Canon := by
  unfold State.reqRwl
  extract_lets -underBinder
  split
  · exact h.sealAnswer
  · exact .ite h.sealAnswer (.ite h.sealAnswer h.putRwl.afterRwl.sealAnswer)

theorem reqToken {p now nonce} (h : s.Canon) : (s.reqToken p now nonce).Canon :=
  .ite h.sealAnswer h.setReg.setReg.sealAnswer

theorem reqPair {p} (h : s.Canon) : (s.reqPair p).Canon := by
  unfold State.reqPair
  extract_lets -underBinder _ _ _ _ _ _ s1
  have h1 : s1.Canon := h.acted
  exact .ite h.sealAnswer (.ite h.sealAnswer h.sealChange)

theorem reqPreempt {p} (h : s.Canon) : (s.reqPreempt p).Canon :=
  .ite h.sealAnswer h.updPart

theorem reqResume {p} (h : s.Canon) : (s.reqResume p).Canon := by
  unfold State.reqResume
  split
  · exact .ite h.updPart.sealAnswer h.sealAnswer
  · exact h.sealAnswer

theorem serve {p type now nonce} (h : s.Canon) : (s.serve p type now nonce).Canon := by
  unfold State.serve
  split
  · exact h.reqMap
  · exact h.reqUnmap
  · exact h.reqRwl
  · exact h.prst.sealAnswer
  · exact h.reqToken
  · exact h.reqPair
  · exact h.reqPreempt
  · exact h.reqResume
  · exact h

theorem askPart {p type now nonce} (h : s.Canon) : (s.askPart p type now nonce).Canon := by
  unfold State.askPart
  extract_lets -underBinder s1 s2
  have h1 : s1.Canon := h.setFld
  have h2 : s2.Canon := h1.setFld.setFld.updPart
  exact .ite h1 (.ite h2.serve h2.updDev)

theorem ask {f type now nonce} (h : s.Canon) : (s.ask f type now nonce).Canon :=
  h.fromHost fun _ _ h1 => h1.askPart
theorem repeatReqs (h : s.Canon) : (s.repeatReqs).Canon :=
  h.updDev.foldl fun _ _ h1 => .ite h1.draw.draw.serve h1
theorem takeOver {h} (hs : s.Canon) : (s.takeOver h).Canon :=
  .ite hs.stopSeal.setSeal.repeatReqs hs

theorem afterWrite {w f is v} (h : s.Canon) : (s.afterWrite w f is v).Canon := by
  unfold State.afterWrite
  extract_lets -underBinder
  split
  · split
    · exact h.doorbell
    · exact h
  · exact h.setFld
  · exact h.cancel
  · exact .ite h.mboxRelease h
  · exact .ite h.draw.draw.askPart h
  · extract_lets -underBinder s1
    have h1 : s1.Canon := .ite h.manResume h
    exact .ite h1.withdraw h1
  · extract_lets -underBinder s2
    have h2 : s2.Canon := .ite h.updPart h
    exact .ite h2.askRestore h2
  · exact h.peerFeed
  · exact .ite h.p3Ask h
  · exact .ite h.afterRwl h
  · exact .ite h.afterRwl h
  · exact .ite h.wrst h
  · exact .ite h.grantWgh h
  · exact .ite h.grantShare h
  · exact h

theorem regWrite {w off v} (h : s.Canon) : (s.regWrite w off v).Canon := by
  unfold State.regWrite
  split
  · exact h
  · exact .ite h h.rawWrite.afterWrite

theorem barRefuse {p f} (h : s.Canon) : (s.barRefuse p f).Canon :=
  h.emit.event

/-! Board management (Machine/Board). -/

theorem applyRefuse {r} (h : s.Canon) : (s.applyRefuse r).Canon :=
  h.setFld.setFld.updDev

theorem applyAsk {p slot} (h : s.Canon) : (s.applyAsk p slot).Canon := by
  unfold State.applyAsk
  split
  · exact h
  · split
    · split
      · exact h.applyRefuse
      · exact h.updDev.setFld
    · exact h.applyRefuse

theorem trimWindows {p} (h : s.Canon) : (s.trimWindows p).Canon := by
  unfold State.trimWindows
  extract_lets -underBinder s2
  have h2 : s2.Canon := by
    unfold s2
    refine h.foldl fun _ _ h1 => ?_
    split
    · exact .ite h1 h1.setFld
    · exact h1
  exact h2.foldl fun _ _ h3 => .ite h3 h3.setFld

theorem applyNow (h : s.Canon) : (s.applyNow).Canon := by
  unfold State.applyNow
  split
  · exact h
  · split
    · exact h
    · extract_lets -underBinder _ _ s1 s3 s4
      have h1 : s1.Canon := h.prst
      have h3 : s3.Canon := h1.foldl fun _ _ h2 => .ite h2.flr h2
      have h4 : s4.Canon := h3.installPart.placeSpares.trimWindows.updDev
      exact h4.setFld.setFld.setFld

/-! The synchronisation commands (Machine/Sync). -/

theorem keeps_clsNop : clsNop.KeepsCanon :=
  fun _ _ h => h.doneAtIssue
theorem keeps_clsAdvance : clsAdvance.KeepsCanon :=
  fun _ _ h => h.updExec
theorem keeps_clsEnd : clsEnd.KeepsCanon :=
  fun _ _ h => h.updExec

theorem keeps_clsMark : clsMark.KeepsCanon := by
  intro s x h
  unfold clsMark
  extract_lets -underBinder
  dsimp -zeta only
  extract_lets -underBinder s1
  have h1 : s1.Canon := h.updExec
  exact h1.doneAtIssue

theorem setExtent {p g d bs} (h : s.Canon) : (s.setExtent p g d bs).Canon :=
  h.foldl fun _ _ h1 => h1.setVbytes
theorem storeExtent {p g d bs} (h : s.Canon) : (s.storeExtent p g d bs).Canon :=
  (h.foldl fun _ _ h1 => h1.meshRow).setExtent

theorem keeps_clsQpush : clsQpush.KeepsCanon := by
  intro s x h
  unfold clsQpush
  extract_lets -underBinder
  dsimp -zeta only
  extract_lets -underBinder
  split
  · rename_i heq
    exact h.poisonCheck heq
  · extract_lets -underBinder s2 s3 s4
    have h2 : s2.Canon := h.fetchRows
    have h3 : s3.Canon := h2.qPush
    have h4 : s4.Canon := h3.useClass.excess
    exact h4.doneAtIssue

theorem keeps_clsQpop : clsQpop.KeepsCanon := by
  intro s x h
  unfold clsQpop
  extract_lets -underBinder
  dsimp -zeta only
  extract_lets -underBinder
  split
  · exact h.eccRead.raise
  · extract_lets -underBinder s1 s2 s3
    have h1 : s1.Canon := h.storeExtent
    have h2 : s2.Canon := h1.dest
    have h3 : s3.Canon := h2.qDrop
    exact h3.doneAtIssue

/-! Completion and holds (Machine/Complete). -/

theorem keeps_clsOf {op w1 c} (hc : clsOf op w1 = some c) : c.KeepsCanon := by
  unfold clsOf at hc
  split at hc
  all_goals cases hc
  · exact keeps_clsNop
  · exact keeps_clsAdvance
  · exact keeps_clsQpush
  · exact keeps_clsQpop
  · exact keeps_clsEnd
  · exact keeps_clsProduct
  · exact keeps_clsDrain
  · exact keeps_clsEvict
  · exact keeps_clsLedger
  · exact keeps_clsRelease
  · exact keeps_clsVec
  · exact keeps_clsMortar
  · exact keeps_clsMortar
  · exact keeps_clsMortar
  · exact keeps_clsMortar
  · exact keeps_clsDrv
  · exact keeps_clsDrv
  · exact keeps_clsSwap
  · exact keeps_clsMark
  · exact keeps_clsSend
  · exact keeps_clsReshard
  · exact keeps_clsLosschk
  · exact keeps_clsUpdate
  · exact keeps_clsCommit

theorem endProduct {p x seq} (h : s.Canon) : (s.endProduct p x seq).Canon := by
  unfold State.endProduct
  extract_lets -underBinder _ s5
  have h5 : s5.Canon := .ite (h.foldl fun _ _ h1 => h1.foldl fun _ _ h2 => h2.foldl fun _ _ h3 => h3.foldl fun _ _ h4 => .ite h4.setBank h4) h
  exact h5.foldl fun _ _ h6 => h6.updCar

theorem completeEffect {p seq x m} (h : s.Canon) : (s.completeEffect p seq x m).Canon := by
  unfold State.completeEffect
  split
  · exact h.mortarFinish
  · split
    · extract_lets -underBinder s3
      have h3 : s3.Canon := by
        unfold s3
        refine h.foldl fun _ _ h1 => ?_
        extract_lets -underBinder s2
        have h2 : s2.Canon := h1.excess
        exact .ite h2.excess h2
      exact h3.freeTaken
    · exact .ite h.endProduct h

theorem finishCmd {p m} (h : s.Canon) : (s.finishCmd p m).Canon := by
  unfold State.finishCmd
  split
  · exact h
  · extract_lets -underBinder _ s1 s2
    have h1 : s1.Canon := h.completeEffect
    have h2 : s2.Canon := h1.updExec
    exact .ite h1 h2.signal

theorem completeCmd {p m} (h : s.Canon) : (s.completeCmd p m).Canon :=
  .ite h.finishCmd ((h.foldl fun _ _ h1 => h1.updCar).hold)

theorem endRemnants {p} (h : s.Canon) : (s.endRemnants p).Canon := by
  unfold State.endRemnants
  split
  · exact h
  · extract_lets -underBinder
    refine h.foldl fun _ _ h1 => ?_
    extract_lets -underBinder s3
    have h3 : s3.Canon := by
      unfold s3
      refine h1.foldl fun _ _ h2 => ?_
      split
      · exact h2.runRemnants.updCar
      · exact h2
    exact .ite h3 h3.finishCmd

theorem startPending {p} (h : s.Canon) : (s.startPending p).Canon := by
  unfold State.startPending
  split
  · exact h
  · extract_lets -underBinder _ _ _ s1
    have h1 : s1.Canon := h.setExec
    exact .ite h (h1.foldl fun _ _ h2 => .ite h2.trySwap (.ite h2.drvDone (.ite h2.startZero (.ite h2.beginSend h2))))

theorem completeDue {p} (h : s.Canon) : (s.completeDue p).Canon := by
  unfold State.completeDue
  exact startPending (togetherMap h.both fun _ _ h => h.completeCmd).1

theorem completePrev {p} (h : s.Canon) : (s.completePrev p).Canon := by
  unfold State.completePrev
  split
  · exact h.forSeq fun _ h1 => h1.completeDue
  · exact h

theorem commandComplete {p off} (h : s.Canon) : (s.commandComplete p off).Canon := by
  unfold State.commandComplete
  split
  · exact h
  · split
    · exact h.completeCmd.startPending
    · split
      · refine h.forSeq fun _ h1 => ?_
        split
        · exact .ite h1 h1.completeCmd
        · exact h1
      · exact h

theorem arriveFor {p op h w1} (hs : s.Canon) : (s.arriveFor p op h w1).Canon := by
  unfold State.arriveFor
  split
  · exact hs
  · extract_lets -underBinder _ _ _ _ s1
    have h1 : s1.Canon := .ite hs hs.setFlag.setExec
    exact .ite h1.setQueue h1

theorem resumeWaiting {p op h w1} (hs : s.Canon) : (s.resumeWaiting p op h w1).Canon := by
  unfold State.resumeWaiting
  split
  · rename_i heq
    exact hs.clsResume (keeps_clsOf heq)
  · exact hs

theorem elasticWait {p} (h : s.Canon) : (s.elasticWait p).Canon := by
  unfold State.elasticWait
  split
  · exact h
  · split
    · exact h
    · extract_lets -underBinder s1
      have h1 : s1.Canon := h.arriveFor
      exact .ite h1.resumeWaiting h1

theorem mergeDue {p g b u} (h : s.Canon) : (s.mergeDue p g b u).Canon := by
  unfold State.mergeDue
  refine h.foldl fun _ _ h1 => ?_
  split
  · extract_lets -underBinder
    split
    · exact .ite (h1.forSeq fun _ h2 => h2.completeMerge) h1
    · exact h1
  · exact h1

theorem dueMerges {p c} (h : s.Canon) : (s.dueMerges p c).Canon :=
  h.foldl fun _ _ h1 => .ite h1 (h1.foldl fun _ _ h2 => h2.mergeDue.mergeDue)
theorem mergeComplete {p c b grp} (h : s.Canon) : (s.mergeComplete p c b grp).Canon :=
  .ite h (h.foldl fun _ _ h1 => .ite h1 h1.mergeDue)

theorem runDown {p n} (h : s.Canon) : (s.runDown p n).Canon := by
  unfold State.runDown
  extract_lets -underBinder _ s1 s3
  have h1 : s1.Canon := h.count
  have h3 : s3.Canon := h1.foldl fun _ _ h2 => h2.count
  exact h3.updPart

theorem holdEnd {p src k} (h : s.Canon) : (s.holdEnd p src k).Canon := by
  unfold State.holdEnd
  split
  · exact h
  · extract_lets -underBinder
    split
    · exact h
    · split
      · exact h.runDown.realign
      · split
        · split
          · exact h
          · extract_lets -underBinder s1
            have h1 : s1.Canon := h.unhold.realign
            split
            · exact .ite h1 h1.resumeWaiting
            · exact h1
        · exact h.elasticWait.realign
        · extract_lets -underBinder s3 s5
          have h3 : s3.Canon := h.foldl fun _ _ h2 => h2.rerunCar
          have h5 : s5.Canon := by
            unfold s5
            split
            · exact h3.forSeq fun _ h4 => h4.endRemnants
            · exact h3
          exact h5.endRemnants.unhold.realign
        · exact h

/-! The scan (Machine/Scan). -/

theorem drvRun {p c m} (h : s.Canon) : (s.drvRun p c m).Canon :=
  h.drvStep.updExec.drvDone

theorem drvAhead {p c e ks} (h : s.Canon) : (s.drvAhead p c e ks).Canon := by
  unfold State.drvAhead
  extract_lets -underBinder
  split
  · exact h
  · exact h.drvStep.updCar

theorem drvAct {p c e} (h : s.Canon) : (s.drvAct p c e).Canon := by
  unfold State.drvAct
  extract_lets -underBinder
  split
  extract_lets -underBinder s1
  have h1 : s1.Canon := h.setFld.setFld
  split
  · exact h1.drvRun
  · exact h1.drvAhead

theorem drvIssue {c} (h : s.Canon) : (s.drvIssue c).Canon := by
  unfold State.drvIssue
  split
  · exact h
  · split
    · exact h
    · split
      · exact h
      · split
        · exact h.forSeq fun _ h1 => h1.drvRun
        · exact h.drvAct

/-! The scout port (Machine/Scout). -/

theorem tap {f} (h : s.Canon) (hf : ∀ s, s.Canon → (f s).Canon) : (s.tap f).Canon := .ite (hf _ h) h
theorem tdr {op arg data status} (h : s.Canon) : (s.tdr op arg data status).Canon :=
  h.emit.updScout
theorem wakeUp {p} (h : s.Canon) : (s.wakeUp p).Canon :=
  .ite h.setPartState h

theorem scoutOp {op arg right f} (h : s.Canon) (hf : ∀ p s, s.Canon → (f p s).1.Canon) : (s.scoutOp op arg right f).Canon := by
  unfold State.scoutOp
  split
  · exact h
  · split
    · exact h.tdr
    · exact .ite h.tdr (State.Canon.tdr (hf _ _ h.wakeUp))

theorem unlock {w0 w1 now} (h : s.Canon) : (s.unlock w0 w1 now).Canon := by
  unfold State.unlock
  split
  · exact h
  · extract_lets -underBinder _ _ s1
    have h1 : s1.Canon := h.setFld.setFld.updScout
    exact .ite h1.wakeUp.tdr h.tdr

theorem haltNow {p} (h : s.Canon) : (s.haltNow p).Canon :=
  h.hold.setFld.updPart

/-! A pace (Machine/Pace). -/

theorem breakAt {p place hits} (h : s.Canon) (ht : s.breakAt p place hits = some t) : t.Canon := by
  unfold State.breakAt at ht
  extract_lets at ht
  rw [Option.ite_none_left_eq_some, Option.some_inj] at ht
  obtain ⟨-, rfl⟩ := ht
  exact h.haltNow.count.updPart

theorem breakPace {p} (h : s.Canon) (ht : s.breakPace p = some t) : t.Canon := h.breakAt ht
theorem breakCmd {x} (h : s.Canon) (ht : s.breakCmd x = some t) : t.Canon := h.breakAt ht

theorem issueOne {p} (h : s.Canon) (ht : s.issueOne p = some t) : t.Canon := by
  unfold State.issueOne at ht
  split at ht
  · cases ht
  · split at ht
    · cases ht
    · split at ht
      · cases ht
      · dsimp only at ht
        rcases Option.or_eq_some_iff.mp (Option.orElse_eq_or ▸ ht) with ht | ⟨-, ht⟩
        · exact h.breakCmd ht
        · rcases Option.or_eq_some_iff.mp (Option.orElse_eq_or ▸ ht) with ht | ⟨-, ht⟩
          · exact h.poisonCheck ht
          · split at ht
            · cases ht
              exact h.raise
            · rename_i heq
              cases ht
              exact .ite h.offerGather (h.clsOffer (keeps_clsOf heq))

theorem issueAll {p} : ∀ {n} {x}, BothCanon x → BothCanon (State.issueAll p n x)
  | 0, _, h => h
  | n + 1, x, h => by
    unfold State.issueAll
    split
    · exact h
    · rename_i s1 heq
      have h1 : s1.Canon := h.2.issueOne heq
      have h2 : BothCanon (State.also p x (fun _ => s1)) := also h fun _ _ => h1
      split
      · dsimp only
        split
        · exact h2
        · exact issueAll ⟨h2.1, h.2.updExec⟩
      · exact issueAll h2

theorem paceEvent {p ev} (h : s.Canon) : (s.paceEvent p ev).Canon := by
  unfold State.paceEvent
  extract_lets own g lost
  have hl : ∀ c, (lost s c).Canon := fun c => h.eccSram
  split
  · exact h
  · exact h
  · exact h
  · split
    · split
      · exact (hl _).midPass
      · exact .ite (hl _).failCar h
    · exact h
  · exact .ite (hl _).repairRow.hold.raise h
  · exact .ite (hl _).raise h
  · exact .ite (hl _).raise h
  · split
    · exact h
    · exact .ite h.count.poisonGroup h
  · exact .ite h.hold h
  · exact .ite h.eccSram h
  · exact .ite (h.congr rfl rfl rfl rfl rfl rfl rfl rfl rfl rfl rfl rfl) h
  · exact h.eccSram
  · exact .ite h.updExec h

theorem mortarTicks {s0 : State} {p} : ∀ f ∈ s0.mortarTicks p, ∀ s, s.Canon → (f s).Canon := by
  intro f hf s h
  have key : ∀ o : Option Exec, f ∈ (o.map fun e => (e.cmds.filter (fun m => isMortar m.op)).filterMap (fun m => m.start.map (fun q s =>
      s.forSeq p e.seq (fun s => if s.stopped p then s else s.mortarTick (m.ctx p e.hdr) (MDescs.of m.descs) q)))).getD [] →
      (f s).Canon := by
    intro o ho
    cases o with
    | none => simp at ho
    | some e =>
      obtain ⟨m, -, hm⟩ := List.mem_filterMap.mp ho
      obtain ⟨q, -, rfl⟩ := Option.map_eq_some_iff.mp hm
      exact h.forSeq fun _ h => .ite h h.mortarTick
  rcases List.mem_append.mp hf with hf | hf
  · exact key _ hf
  · exact key _ hf

theorem runUnits {p ev x} (h : BothCanon x) : (State.runUnits p ev x).Canon := by
  unfold State.runUnits
  extract_lets x1 x2 x3
  have h1 : BothCanon x1 := also h fun _ h => h.upsetCopies
  have h2 : BothCanon x2 := togetherMap h1 fun _ _ h => h.paceEvent
  have h3 : BothCanon x3 := together h2 mortarTicks
  split
  rename_i s1 _ heq
  have h4 : s1.Canon := State.Canon.fst (togetherMap h3 fun c s h => h.caravanPace.dueMerges.dueDrains).1 heq
  exact .ite h4 h4.setReg.updPart

theorem settleWith {p x} (h : BothCanon x) : BothCanon (State.settleWith p x) :=
  also (togetherMap (also h fun _ h => h.matureSignals.completePrev) fun _ _ h => h.completeCmd) fun _ h => h.startPending
theorem settle {p} (h : s.Canon) : (s.settle p).Canon :=
  (settleWith h.both).1

theorem runPace {p ev} (h : s.Canon) : (s.runPace p ev).Canon := by
  unfold State.runPace
  split
  · rename_i heq
    exact h.breakPace heq
  · extract_lets x1 n x2
    have h1 : BothCanon x1 := settleWith ⟨h, h⟩
    have h2 : BothCanon x2 := issueAll h1
    have held : ∀ {x}, BothCanon x → (State.also p x (fun s => s.hold p 1 none)).1.Canon := fun h => (also h fun _ h => h.hold).1
    exact .ite h1.1 (.ite (held h1) (.ite h2.1 (.ite (held h2) (runUnits h2))))

theorem stepPace {p ev} (h : s.Canon) : (s.stepPace p ev).Canon := by
  unfold State.stepPace
  split
  · extract_lets -underBinder s1
    have h1 : s1.Canon := h.unhold.runPace
    exact .ite h1 h1.updPart
  · exact h.runPace

theorem capTick {p} (h : s.Canon) : (s.capTick p).Canon :=
  .ite h (.ite h.updPart h.updPart.hold.count)

theorem paceExecute {p ev} (h : s.Canon) : (s.paceExecute p ev).Canon := by
  unfold State.paceExecute
  extract_lets s1 x s2 s3
  have h1 : s1.Canon := h.capTick
  have h2 : s2.Canon := .ite (togetherMap h1.both fun _ _ h => h.paceEvent).1 h1
  exact .ite h1 (.ite h2.settle.runDown.realignFree (.ite h1 h1.stepPace))

/-! The arbiters (Machine/Toll). -/

theorem tollGrant {t req waitNs} (h : s.Canon) : (s.tollGrant t req waitNs).Canon := by
  unfold State.tollGrant
  split
  · exact h.setToll
  · extract_lets -underBinder _ s1
    have h1 : s1.Canon := h.setToll.count
    exact .ite h1 h1.count.keepMax

theorem tollStarve {t r} (h : s.Canon) : (s.tollStarve t r).Canon := by
  unfold State.tollStarve
  extract_lets -underBinder _ s1
  have h1 : s1.Canon := h.setFld.emit
  split
  · exact h
  · split
    · exact h1.event
    · exact h1

theorem straggle {h p c} (hs : s.Canon) : (s.straggle h p c).Canon :=
  .ite hs hs.count.setFld.emit.event

theorem routerLost {h r} (hs : s.Canon) : (s.routerLost h r).Canon := by
  unfold State.routerLost
  extract_lets -underBinder s1
  have h1 : s1.Canon := hs.fence
  exact .ite h1.fenceHalf h1

end State.Canon

/-- The state that a step answers with, if it answers with one, is in canonical form. -/
def NextCanon (o : Host.Outcome State Fault Refusal) : Prop := ∀ t, o = .next t → t.Canon

namespace State.Canon
variable {s t : State}

theorem next (h : s.Canon) : NextCanon (.next s) := fun _ ht => Host.Outcome.next.inj ht ▸ h

/-- Which commands wait is in no map. -/
theorem withPending {q : List Instr} (h : s.Canon) : State.Canon { s with pending := q } := h

theorem answer {f : State → State} (h : (f s).Canon) : NextCanon (answer s f) := next h.withPending

theorem fault {r : Fault} : NextCanon (.fault r) := by
  intro t ht
  cases ht

theorem nextIte {c : Prop} [Decidable c] {o o' : Host.Outcome State Fault Refusal} (h : NextCanon o) (h' : NextCanon o') :
    NextCanon (if c then o else o') := by
  split
  · exact h
  · exact h'

theorem bar2 {f acc} (h : s.Canon) : NextCanon (s.bar2 f acc) := by
  unfold State.bar2
  split
  · exact next h.emit
  · extract_lets -underBinder
    split
    extract_lets -underBinder places
    split
    · exact next h.barRefuse
    · split
      · exact fault
      · extract_lets -underBinder s1
        have h1 : s1.Canon := h.foldl fun _ _ h => h.meshTo
        split
        · exact next h1.eccWords.emit
        · exact next (h1.foldl fun _ _ h => h.setByte)

theorem execBar2Access {f acc} (h : s.Canon) : NextCanon (execBar2Access f acc s) := by
  unfold Machine.execBar2Access
  split
  · split
    · rename_i t ht
      exact next (withPending (h.bar2 _ ht))
    · exact h.bar2
  · exact next h

theorem scoutMem {va wr f} (h : s.Canon) (hf : ∀ s, s.Canon → (f s).Canon) : NextCanon (s.scoutMem va wr f) := by
  unfold State.scoutMem
  split
  · exact answer (hf s h)
  · split
    · exact nextIte fault (answer (hf s h))
    · exact answer (hf s h)

/-! The commands. -/

theorem execNop {p hd w1} (h : s.Canon) : NextCanon (Machine.execNop p hd w1 s) :=
  answer (h.clsOffer keeps_clsNop)
theorem execAdvance {p hd w1} (h : s.Canon) : NextCanon (Machine.execAdvance p hd w1 s) :=
  answer (h.clsOffer keeps_clsAdvance)
theorem execQpush {p hd w1} (h : s.Canon) : NextCanon (Machine.execQpush p hd w1 s) :=
  answer (h.clsOffer keeps_clsQpush)
theorem execQpop {p hd w1} (h : s.Canon) : NextCanon (Machine.execQpop p hd w1 s) :=
  answer (h.clsOffer keeps_clsQpop)
theorem execEndCmd {p hd w1} (h : s.Canon) : NextCanon (Machine.execEndCmd p hd w1 s) :=
  answer (h.clsOffer keeps_clsEnd)
theorem execProduct {p hd w1} (h : s.Canon) : NextCanon (Machine.execProduct p hd w1 s) :=
  answer (h.clsOffer keeps_clsProduct)
theorem execDrain {p hd w1} (h : s.Canon) : NextCanon (Machine.execDrain p hd w1 s) :=
  answer (h.clsOffer keeps_clsDrain)
theorem execEvict {p hd w1} (h : s.Canon) : NextCanon (Machine.execEvict p hd w1 s) :=
  answer (h.clsOffer keeps_clsEvict)
theorem execLedgerAdd {p hd w1} (h : s.Canon) : NextCanon (Machine.execLedgerAdd p hd w1 s) :=
  answer (h.clsOffer keeps_clsLedger)
theorem execRelease {p hd w1} (h : s.Canon) : NextCanon (Machine.execRelease p hd w1 s) :=
  answer (h.clsOffer keeps_clsRelease)
theorem execVec {p hd w1} (h : s.Canon) : NextCanon (Machine.execVec p hd w1 s) :=
  answer (h.clsOffer keeps_clsVec)
theorem execReduce {p hd w1} (h : s.Canon) : NextCanon (Machine.execReduce p hd w1 s) :=
  answer (h.clsOffer keeps_clsMortar)
theorem execSpice {p hd w1} (h : s.Canon) : NextCanon (Machine.execSpice p hd w1 s) :=
  answer (h.clsOffer keeps_clsMortar)
theorem execSieve {p hd w1} (h : s.Canon) : NextCanon (Machine.execSieve p hd w1 s) :=
  answer (h.clsOffer keeps_clsMortar)
theorem execDropout {p hd w1} (h : s.Canon) : NextCanon (Machine.execDropout p hd w1 s) :=
  answer (h.clsOffer keeps_clsMortar)
theorem execMove {p hd w1} (h : s.Canon) : NextCanon (Machine.execMove p hd w1 s) :=
  answer (h.clsOffer keeps_clsDrv)
theorem execGather {p hd w1} (h : s.Canon) : NextCanon (Machine.execGather p hd w1 s) :=
  answer h.offerGather
theorem execSwap {p hd w1} (h : s.Canon) : NextCanon (Machine.execSwap p hd w1 s) :=
  answer (h.clsOffer keeps_clsSwap)
theorem execSwapTakeEffect {p c} (h : s.Canon) : NextCanon (Machine.execSwapTakeEffect p c s) :=
  answer (.ite h.swapNow h)
theorem execMark {p hd w1} (h : s.Canon) : NextCanon (Machine.execMark p hd w1 s) :=
  answer (h.clsOffer keeps_clsMark)
theorem execSend {p hd w1} (h : s.Canon) : NextCanon (Machine.execSend p hd w1 s) :=
  answer (h.clsOffer keeps_clsSend)
theorem execReshard {p hd w1} (h : s.Canon) : NextCanon (Machine.execReshard p hd w1 s) :=
  answer (h.clsOffer keeps_clsReshard)
theorem execReshardEpochTakeEffect {p} (h : s.Canon) : NextCanon (Machine.execReshardEpochTakeEffect p s) := by
  refine answer ?_
  split
  · exact .ite h.reshardNow h
  · exact h
theorem execReshardTimeout {p} (h : s.Canon) : NextCanon (Machine.execReshardTimeout p s) := by
  refine answer ?_
  split
  · exact .ite h h.raise
  · exact h
theorem execLosschk {p hd w1} (h : s.Canon) : NextCanon (Machine.execLosschk p hd w1 s) :=
  answer (h.clsOffer keeps_clsLosschk)
theorem execUpdate {p hd w1} (h : s.Canon) : NextCanon (Machine.execUpdate p hd w1 s) :=
  answer (h.clsOffer keeps_clsUpdate)
theorem execUpdateChunkApply {p bucket chunk} (h : s.Canon) : NextCanon (Machine.execUpdateChunkApply p bucket chunk s) :=
  answer h.applyChunk
theorem execCommit {p hd w1} (h : s.Canon) : NextCanon (Machine.execCommit p hd w1 s) :=
  answer (h.clsOffer keeps_clsCommit)
theorem execCommandComplete {p off} (h : s.Canon) : NextCanon (Machine.execCommandComplete p off s) :=
  answer h.commandComplete
theorem execElasticWaitSatisfied {p} (h : s.Canon) : NextCanon (Machine.execElasticWaitSatisfied p s) :=
  answer h.elasticWait.realignFree
theorem execPaceExecute {p ev} (h : s.Canon) : NextCanon (Machine.execPaceExecute p ev s) :=
  answer h.paceExecute
theorem execMergeComplete {p c bank grp} (h : s.Canon) : NextCanon (Machine.execMergeComplete p c bank grp s) :=
  answer h.mergeComplete
theorem execHoldEnd {p src realign} (h : s.Canon) : NextCanon (Machine.execHoldEnd p src realign s) :=
  answer h.holdEnd
theorem execDrvIssue {c} (h : s.Canon) : NextCanon (Machine.execDrvIssue c s) :=
  answer h.drvIssue
theorem execDrvTransferComplete {c id arr} (h : s.Canon) : NextCanon (Machine.execDrvTransferComplete c id arr s) :=
  answer h.land
theorem execTransferTimeout {c id dstEnd} (h : s.Canon) : NextCanon (Machine.execTransferTimeout c id dstEnd s) :=
  answer h.xferTimeout
theorem execTollGrant {t pendingReq waitNs} (h : s.Canon) : NextCanon (Machine.execTollGrant t pendingReq waitNs s) :=
  answer h.tollGrant
theorem execTollStarve {t r} (h : s.Canon) : NextCanon (Machine.execTollStarve t r s) :=
  answer h.tollStarve
theorem execStraggler {hd p c} (h : s.Canon) : NextCanon (Machine.execStraggler hd p c s) :=
  answer h.straggle
theorem execStepWatchdogExpire {p} (h : s.Canon) : NextCanon (Machine.execStepWatchdogExpire p s) :=
  answer h.watchdog
theorem execOrderAccept {p f ring entry} (h : s.Canon) : NextCanon (Machine.execOrderAccept p f ring entry s) :=
  answer h.orderAccept
theorem execOrderStart {p} (h : s.Canon) : NextCanon (Machine.execOrderStart p s) :=
  answer h.orderStart
theorem execOrderComplete {p sinceS} (h : s.Canon) : NextCanon (Machine.execOrderComplete p sinceS s) :=
  answer h.orderComplete
theorem execConsignReadDone {p} (h : s.Canon) : NextCanon (Machine.execConsignReadDone p s) :=
  answer h.consignRead
theorem execConsignCopyTimeout {p copy} (h : s.Canon) : NextCanon (Machine.execConsignCopyTimeout p copy s) :=
  answer h.copyLost
theorem execRiskRise {ceRate lrRate drRate marginK} (h : s.Canon) : NextCanon (Machine.execRiskRise ceRate lrRate drRate marginK s) :=
  answer h.risk
theorem execCompletionFlush {p} (h : s.Canon) : NextCanon (Machine.execCompletionFlush p s) :=
  answer h.completionFlush
theorem execPreemptTakeEffect {p} (h : s.Canon) : NextCanon (Machine.execPreemptTakeEffect p s) :=
  answer h.preemptNow
theorem execPreemptResume {p} (h : s.Canon) : NextCanon (Machine.execPreemptResume p s) :=
  answer h.preemptResume
theorem execReexecute {p} (h : s.Canon) : NextCanon (Machine.execReexecute p s) :=
  answer h.reexecute
theorem execJournalRebuildDone {hd} (h : s.Canon) : NextCanon (Machine.execJournalRebuildDone hd s) :=
  answer h.rebuildDone
theorem execHbmSoftPpr {k row} (h : s.Canon) : NextCanon (Machine.execHbmSoftPpr k row s) :=
  answer h.softPpr
theorem execHbmScrub {k one two poisoned} (h : s.Canon) : NextCanon (Machine.execHbmScrub k one two poisoned s) :=
  answer h.scrub
theorem execRouterPollTimeout {hd r} (h : s.Canon) : NextCanon (Machine.execRouterPollTimeout hd r s) :=
  answer h.routerLost
theorem execSealHeartbeatLoss {hd} (h : s.Canon) : NextCanon (Machine.execSealHeartbeatLoss hd s) :=
  answer h.takeOver
theorem execLastResort (h : s.Canon) : NextCanon (Machine.execLastResort s) :=
  answer (.ite h.safeHoldNow h)
theorem execFactorRestart (h : s.Canon) : NextCanon (Machine.execFactorRestart s) :=
  answer (.ite h.updDev h)
theorem execSealReqMapWindow {f} (h : s.Canon) : NextCanon (Machine.execSealReqMapWindow f s) :=
  answer h.ask
theorem execSealReqUnmapWindow {f} (h : s.Canon) : NextCanon (Machine.execSealReqUnmapWindow f s) :=
  answer h.ask
theorem execSealReqWriteRwl {f} (h : s.Canon) : NextCanon (Machine.execSealReqWriteRwl f s) :=
  answer h.ask
theorem execSealReqPrst {f} (h : s.Canon) : NextCanon (Machine.execSealReqPrst f s) :=
  answer h.ask
theorem execSealReqDebugToken {f now nonce} (h : s.Canon) : NextCanon (Machine.execSealReqDebugToken f now nonce s) :=
  answer h.ask
theorem execSealReqBankPair {f} (h : s.Canon) : NextCanon (Machine.execSealReqBankPair f s) :=
  answer h.ask
theorem execSealReqPreempt {f} (h : s.Canon) : NextCanon (Machine.execSealReqPreempt f s) :=
  answer h.ask
theorem execSealReqResume {f} (h : s.Canon) : NextCanon (Machine.execSealReqResume f s) :=
  answer h.ask
theorem execRingDoorbell {f ring tail} (h : s.Canon) : NextCanon (Machine.execRingDoorbell f ring tail s) :=
  answer (h.fromHost fun _ _ h1 => h1.doorbell)
theorem execRingBaseWrite {f ring v} (h : s.Canon) : NextCanon (Machine.execRingBaseWrite f ring v s) :=
  answer (h.fromHost fun _ _ h1 => h1.ringBase)
theorem execCplHeadWrite {f v} (h : s.Canon) : NextCanon (Machine.execCplHeadWrite f v s) :=
  answer (h.fromHost fun _ _ h1 => h1.cplHead)
theorem execHqCancel {f seq} (h : s.Canon) : NextCanon (Machine.execHqCancel f seq s) :=
  answer (h.fromHost fun _ _ h1 => h1.cancel)
theorem execMboxRelease {f m} (h : s.Canon) : NextCanon (Machine.execMboxRelease f m s) :=
  answer (h.fromHost fun _ _ h1 => h1.mboxRelease)
theorem execSealManResume {f} (h : s.Canon) : NextCanon (Machine.execSealManResume f s) :=
  answer (h.fromHost fun _ _ h1 => h1.manResume)
theorem execSealManWithdraw {f} (h : s.Canon) : NextCanon (Machine.execSealManWithdraw f s) :=
  answer (h.fromHost fun _ _ h1 => h1.withdraw)
theorem execCsgNow {f} (h : s.Canon) : NextCanon (Machine.execCsgNow f s) :=
  answer (h.fromHost fun _ _ h1 => h1.updCsg)
theorem execCsgRestore {f copy} (h : s.Canon) : NextCanon (Machine.execCsgRestore f copy s) :=
  answer (h.fromHost fun _ _ h1 => h1.csgRestore)
theorem execP3Req (h : s.Canon) : NextCanon (Machine.execP3Req s) :=
  answer h.p3Ask
theorem execP3Exit (h : s.Canon) : NextCanon (Machine.execP3Exit s) :=
  answer h.leaveP3
theorem execP2IdleEntry {p} (h : s.Canon) : NextCanon (Machine.execP2IdleEntry p s) :=
  answer h.p2Entry
theorem execRegisterWrite {w off v} (h : s.Canon) : NextCanon (Machine.execRegisterWrite w off v s) :=
  answer h.regWrite
theorem execHostSpdmDoe {f msg} (h : s.Canon) : NextCanon (Machine.execHostSpdmDoe f msg s) := by
  refine answer ?_
  split
  · exact h
  · split
    · exact h.emit
    · exact .ite h.emit h
theorem execStartUp {c} (h : s.Canon) : NextCanon (Machine.execStartUp c s) :=
  answer (.ite h h.wiped.startUp)
theorem execPwrgdFall (h : s.Canon) : NextCanon (Machine.execPwrgdFall s) :=
  answer h.powerOff.updDev
theorem execDrst {heldUs c} (h : s.Canon) : NextCanon (Machine.execDrst heldUs c s) :=
  answer h.drst
theorem execCrst {c stn} (h : s.Canon) : NextCanon (Machine.execCrst c stn s) :=
  answer h.crst
theorem execLrstRequest {port sinceS} (h : s.Canon) : NextCanon (Machine.execLrstRequest port sinceS s) :=
  answer h.lrstReq
theorem execPerstAssert {hp} (h : s.Canon) : NextCanon (Machine.execPerstAssert hp s) :=
  answer h.perstAssert
theorem execPerstRelease {hp cxl} (h : s.Canon) : NextCanon (Machine.execPerstRelease hp cxl s) :=
  answer h.perstRelease
theorem execFlr {f} (h : s.Canon) : NextCanon (Machine.execFlr f s) :=
  answer (.ite h.flr h)
theorem execLugUndervoltage {lug milliV} (h : s.Canon) : NextCanon (Machine.execLugUndervoltage lug milliV s) :=
  answer h.lugDown
theorem execLugRecover {lug milliV} (h : s.Canon) : NextCanon (Machine.execLugRecover lug milliV s) :=
  answer h.lugUp
theorem execThermalMonitor {m tempC} (h : s.Canon) : NextCanon (Machine.execThermalMonitor m tempC s) :=
  answer h.thermal
theorem execDroopStretch {hd} (h : s.Canon) : NextCanon (Machine.execDroopStretch hd s) :=
  answer h.count
theorem execCapFastLoop {watts} (h : s.Canon) : NextCanon (Machine.execCapFastLoop watts s) :=
  answer h.fastLoopLook
theorem execCapHoldLoop {watts est} (h : s.Canon) : NextCanon (Machine.execCapHoldLoop watts est s) :=
  answer h.capLoop
theorem execReferenceLost {r} (h : s.Canon) : NextCanon (Machine.execReferenceLost r s) :=
  answer h.referenceLost
theorem execReferenceReturn {r} (h : s.Canon) : NextCanon (Machine.execReferenceReturn r s) :=
  answer h.referenceReturn
theorem execLinkSignalDetect {port lanes} (h : s.Canon) : NextCanon (Machine.execLinkSignalDetect port lanes s) :=
  answer (.ite h.updPort.setFld h)
theorem execLinkFecLock {port lanes} (h : s.Canon) : NextCanon (Machine.execLinkFecLock port lanes s) :=
  answer (.ite h.setFld.setFld.emit h)
theorem execLinkInitExchange {port coord peerPort lanes reversed} (h : s.Canon) :
    NextCanon (Machine.execLinkInitExchange port coord peerPort lanes reversed s) :=
  answer h.initExchange
theorem execLinkSpdmComplete {port} (h : s.Canon) : NextCanon (Machine.execLinkSpdmComplete port s) := by
  refine answer ?_
  split
  · extract_lets -underBinder s1
    have h1 : s1.Canon := h.setFld
    exact .ite h1.setFld.updPort h1
  · exact h
theorem execLinkSpdmTimeout {port} (h : s.Canon) : NextCanon (Machine.execLinkSpdmTimeout port s) :=
  answer (.ite h.isolate h)
theorem execLinkAbsentReport {port} (h : s.Canon) : NextCanon (Machine.execLinkAbsentReport port s) :=
  answer (.ite h.updPort.emit h)
theorem execFlitReceive {port flit} (h : s.Canon) : NextCanon (Machine.execFlitReceive port flit s) :=
  answer h.received
theorem execLinkRetryTimer {port} (h : s.Canon) : NextCanon (Machine.execLinkRetryTimer port s) :=
  answer (.ite h.resend h)
theorem execKeyUpdate {port} (h : s.Canon) : NextCanon (Machine.execKeyUpdate port s) :=
  answer (.ite h.updPort h)
theorem execPacketForward {port pkt} (h : s.Canon) : NextCanon (Machine.execPacketForward port pkt s) :=
  answer h.forward
theorem execPacketDeliver {port pkt} (h : s.Canon) : NextCanon (Machine.execPacketDeliver port pkt s) :=
  answer h.deliverPacket
theorem execFaultBeaconReceive {port hops} (h : s.Canon) : NextCanon (Machine.execFaultBeaconReceive port hops s) :=
  answer h.beaconFrom
theorem execLinkSendEntry {p} (h : s.Canon) : NextCanon (Machine.execLinkSendEntry p s) :=
  answer h.sendEntry
theorem execDetourInstall {tbl} (h : s.Canon) : NextCanon (Machine.execDetourInstall tbl s) :=
  answer h.installDetours
theorem execOwnerOpenChunk {p} (h : s.Canon) : NextCanon (Machine.execOwnerOpenChunk p s) :=
  answer h.openChunk
theorem execOpenPkt {port hdr payload} (h : s.Canon) : NextCanon (Machine.execOpenPkt port hdr payload s) :=
  answer h.wghPacket
theorem execContrib {port hdr payload} (h : s.Canon) : NextCanon (Machine.execContrib port hdr payload s) :=
  answer h.wghPacket
theorem execResult {port hdr payload} (h : s.Canon) : NextCanon (Machine.execResult port hdr payload s) :=
  answer h.wghPacket
theorem execWideContrib {port hdr payload} (h : s.Canon) : NextCanon (Machine.execWideContrib port hdr payload s) :=
  answer h.wghPacket
theorem execWideResult {port hdr payload} (h : s.Canon) : NextCanon (Machine.execWideResult port hdr payload s) :=
  answer h.wghPacket
theorem execVote {port hdr payload} (h : s.Canon) : NextCanon (Machine.execVote port hdr payload s) :=
  answer h.wghPacket
theorem execNak {port hdr payload} (h : s.Canon) : NextCanon (Machine.execNak port hdr payload s) :=
  answer h.wghPacket
theorem execFail {port hdr payload} (h : s.Canon) : NextCanon (Machine.execFail port hdr payload s) :=
  answer h.wghPacket
theorem execOwnerDeadlineExpire {p bucket chunk} (h : s.Canon) : NextCanon (Machine.execOwnerDeadlineExpire p bucket chunk s) :=
  answer h.ownerMiss
theorem execMemberDeadlineExpire {p bucket chunk} (h : s.Canon) : NextCanon (Machine.execMemberDeadlineExpire p bucket chunk s) :=
  answer h.memberMiss
theorem execVoteDeadlineExpire {p} (h : s.Canon) : NextCanon (Machine.execVoteDeadlineExpire p s) :=
  answer h.voteMiss
theorem execConsignmentPacket {port pkt} (h : s.Canon) : NextCanon (Machine.execConsignmentPacket port pkt s) :=
  answer h.csgPacket
theorem execPartnerAck {p} (h : s.Canon) : NextCanon (Machine.execPartnerAck p s) := by
  refine answer ?_
  split
  · exact .ite h.accept h
  · exact h
theorem execI3cWrstRequest (h : s.Canon) : NextCanon (Machine.execI3cWrstRequest s) :=
  answer (.ite h.wrst h)
theorem execI3cImageWrite {slot img} (h : s.Canon) : NextCanon (Machine.execI3cImageWrite slot img s) :=
  answer (.ite h.updDev h)
theorem execImageApplyRequest {p slot} (h : s.Canon) : NextCanon (Machine.execImageApplyRequest p slot s) :=
  answer h.applyAsk
theorem execImageApply (h : s.Canon) : NextCanon (Machine.execImageApply s) :=
  answer h.applyNow
theorem execImageApplyDrainTimeout (h : s.Canon) : NextCanon (Machine.execImageApplyDrainTimeout s) := by
  refine answer ?_
  split
  · exact .ite h.applyRefuse h
  · exact h
theorem execI3cModuleInfoRead (h : s.Canon) : NextCanon (Machine.execI3cModuleInfoRead s) :=
  answer (.ite h.emit h)
theorem execI3cAttest {msg} (h : s.Canon) : NextCanon (Machine.execI3cAttest msg s) :=
  answer (.ite h.emit h)
theorem execI3cSafeHoldRead (h : s.Canon) : NextCanon (Machine.execI3cSafeHoldRead s) :=
  answer (.ite h.emit.emit h)
theorem execBypass (h : s.Canon) : NextCanon (Machine.execBypass s) :=
  answer (h.tap fun _ h1 => h1.updScout)
theorem execIdcode (h : s.Canon) : NextCanon (Machine.execIdcode s) :=
  answer (h.tap fun _ h1 => h1.updScout.emit)
theorem execSamplePreload {v} (h : s.Canon) : NextCanon (Machine.execSamplePreload v s) :=
  answer (h.tap fun _ h1 => h1.draw.updScout.emit)
theorem execExtest {v} (h : s.Canon) : NextCanon (Machine.execExtest v s) :=
  answer (h.tap fun _ h1 => .ite h1.updScout h1)
theorem execScout (h : s.Canon) : NextCanon (Machine.execScout s) :=
  answer (h.tap fun _ h1 => h1.updScout)
theorem execScoutUnlock {w0 w1 now} (h : s.Canon) : NextCanon (Machine.execScoutUnlock w0 w1 now s) :=
  answer h.unlock
theorem execScoutHalt (h : s.Canon) : NextCanon (Machine.execScoutHalt s) :=
  answer (h.scoutOp fun _ _ h1 => .ite h1 h1.haltNow)
theorem execScoutResume (h : s.Canon) : NextCanon (Machine.execScoutResume s) :=
  answer (h.scoutOp fun _ _ h1 => h1.release.setFld.updPart)
theorem execScoutStep {n} (h : s.Canon) : NextCanon (Machine.execScoutStep n s) := by
  refine answer (h.scoutOp fun _ _ h1 => ?_)
  split
  · exact h1
  · split
    · exact h1
    · split
      · exact h1
      · exact h1.updPart
theorem execScoutSetBreakpoint {arg v} (h : s.Canon) : NextCanon (Machine.execScoutSetBreakpoint arg v s) := by
  refine answer (h.scoutOp fun _ _ h1 => ?_)
  split
  · exact h1
  · exact h1.updPart
theorem execScoutClearBreakpoint {arg} (h : s.Canon) : NextCanon (Machine.execScoutClearBreakpoint arg s) :=
  answer (h.scoutOp fun _ _ h1 => h1.updPart)
theorem execScoutMemoryRead {va} (h : s.Canon) : NextCanon (Machine.execScoutMemoryRead va s) := by
  refine h.scoutMem fun _ h => h.scoutOp fun _ _ h => ?_
  split
  · exact h.eccWords
  · exact h
theorem execScoutMemoryWrite {va v} (h : s.Canon) : NextCanon (Machine.execScoutMemoryWrite va v s) := by
  refine h.scoutMem fun _ h => h.scoutOp fun _ _ h => ?_
  split
  · exact h
  · split
    · exact h.foldl fun _ _ h => h.setByte
    · exact h
theorem execScoutRegisterRead {off} (h : s.Canon) : NextCanon (Machine.execScoutRegisterRead off s) :=
  answer (h.scoutOp fun _ _ h1 => h1)
theorem execScoutRegisterWrite {off v} (h : s.Canon) : NextCanon (Machine.execScoutRegisterWrite off v s) :=
  answer (h.scoutOp fun _ _ h1 => h1.regWrite)
theorem execScoutStatus (h : s.Canon) : NextCanon (Machine.execScoutStatus s) := by
  refine answer ?_
  split
  · exact h
  · split
    · exact h.tdr
    · exact h.tdr
theorem execTokenExpire {p} (h : s.Canon) : NextCanon (Machine.execTokenExpire p s) :=
  answer (.ite h.endUnlock h)
theorem execPartnerStopsAnswering {port} (h : s.Canon) : NextCanon (Machine.execPartnerStopsAnswering port s) :=
  answer (.ite h.flushPort.updPort.setFld h)
theorem execP3Refused (h : s.Canon) : NextCanon (Machine.execP3Refused s) :=
  answer h.p3Late
theorem execCopyAcknowledged {p copy elapsedMs} (h : s.Canon) : NextCanon (Machine.execCopyAcknowledged p copy elapsedMs s) :=
  answer h.copyAck
theorem execSealLockstepMismatch {hd} (h : s.Canon) : NextCanon (Machine.execSealLockstepMismatch hd s) :=
  answer h.stopSeal
theorem execRejoinAsStandby {hd} (h : s.Canon) : NextCanon (Machine.execRejoinAsStandby hd s) :=
  answer (.ite h.setSeal h)
theorem execHalfClockLoss {hd} (h : s.Canon) : NextCanon (Machine.execHalfClockLoss hd s) :=
  answer (.ite h.fenceHalf h)
theorem execAux3v3Loss (h : s.Canon) : NextCanon (Machine.execAux3v3Loss s) :=
  answer h.updDev
theorem execAux3v3Return (h : s.Canon) : NextCanon (Machine.execAux3v3Return s) :=
  answer h.updDev

/-- Every command keeps the canonical form. -/
theorem exec {i} (h : s.Canon) : NextCanon (Machine.exec i s) := by
  cases i with
  | nop => exact h.execNop
  | advance => exact h.execAdvance
  | qpush => exact h.execQpush
  | qpop => exact h.execQpop
  | endCmd => exact h.execEndCmd
  | product => exact h.execProduct
  | drain => exact h.execDrain
  | evict => exact h.execEvict
  | ledgerAdd => exact h.execLedgerAdd
  | release => exact h.execRelease
  | vec => exact h.execVec
  | reduce => exact h.execReduce
  | spice => exact h.execSpice
  | sieve => exact h.execSieve
  | dropout => exact h.execDropout
  | move => exact h.execMove
  | gather => exact h.execGather
  | swap => exact h.execSwap
  | swapTakeEffect => exact h.execSwapTakeEffect
  | mark => exact h.execMark
  | send => exact h.execSend
  | reshard => exact h.execReshard
  | reshardEpochTakeEffect => exact h.execReshardEpochTakeEffect
  | reshardTimeout => exact h.execReshardTimeout
  | losschk => exact h.execLosschk
  | update => exact h.execUpdate
  | updateChunkApply => exact h.execUpdateChunkApply
  | commit => exact h.execCommit
  | commandComplete => exact h.execCommandComplete
  | elasticWaitSatisfied => exact h.execElasticWaitSatisfied
  | paceExecute => exact h.execPaceExecute
  | mergeComplete => exact h.execMergeComplete
  | holdEnd => exact h.execHoldEnd
  | drvIssue => exact h.execDrvIssue
  | drvTransferComplete => exact h.execDrvTransferComplete
  | transferTimeout => exact h.execTransferTimeout
  | tollGrant => exact h.execTollGrant
  | tollStarve => exact h.execTollStarve
  | straggler => exact h.execStraggler
  | stepWatchdogExpire => exact h.execStepWatchdogExpire
  | orderAccept => exact h.execOrderAccept
  | orderStart => exact h.execOrderStart
  | orderComplete => exact h.execOrderComplete
  | consignReadDone => exact h.execConsignReadDone
  | consignCopyTimeout => exact h.execConsignCopyTimeout
  | riskRise => exact h.execRiskRise
  | completionFlush => exact h.execCompletionFlush
  | preemptTakeEffect => exact h.execPreemptTakeEffect
  | preemptResume => exact h.execPreemptResume
  | reexecute => exact h.execReexecute
  | journalRebuildDone => exact h.execJournalRebuildDone
  | hbmSoftPpr => exact h.execHbmSoftPpr
  | hbmScrub => exact h.execHbmScrub
  | routerPollTimeout => exact h.execRouterPollTimeout
  | sealHeartbeatLoss => exact h.execSealHeartbeatLoss
  | lastResort => exact h.execLastResort
  | factorRestart => exact h.execFactorRestart
  | sealReqMapWindow => exact h.execSealReqMapWindow
  | sealReqUnmapWindow => exact h.execSealReqUnmapWindow
  | sealReqWriteRwl => exact h.execSealReqWriteRwl
  | sealReqPrst => exact h.execSealReqPrst
  | sealReqDebugToken => exact h.execSealReqDebugToken
  | sealReqBankPair => exact h.execSealReqBankPair
  | sealReqPreempt => exact h.execSealReqPreempt
  | sealReqResume => exact h.execSealReqResume
  | ringDoorbell => exact h.execRingDoorbell
  | ringBaseWrite => exact h.execRingBaseWrite
  | cplHeadWrite => exact h.execCplHeadWrite
  | hqCancel => exact h.execHqCancel
  | mboxRelease => exact h.execMboxRelease
  | sealManResume => exact h.execSealManResume
  | sealManWithdraw => exact h.execSealManWithdraw
  | csgNow => exact h.execCsgNow
  | csgRestore => exact h.execCsgRestore
  | p3Req => exact h.execP3Req
  | p3Exit => exact h.execP3Exit
  | p2IdleEntry => exact h.execP2IdleEntry
  | registerWrite => exact h.execRegisterWrite
  | bar2Access => exact h.execBar2Access
  | hostSpdmDoe => exact h.execHostSpdmDoe
  | startUp => exact h.execStartUp
  | pwrgdFall => exact h.execPwrgdFall
  | drst => exact h.execDrst
  | crst => exact h.execCrst
  | lrstRequest => exact h.execLrstRequest
  | perstAssert => exact h.execPerstAssert
  | perstRelease => exact h.execPerstRelease
  | flr => exact h.execFlr
  | lugUndervoltage => exact h.execLugUndervoltage
  | lugRecover => exact h.execLugRecover
  | thermalMonitor => exact h.execThermalMonitor
  | droopStretch => exact h.execDroopStretch
  | capFastLoop => exact h.execCapFastLoop
  | capHoldLoop => exact h.execCapHoldLoop
  | referenceLost => exact h.execReferenceLost
  | referenceReturn => exact h.execReferenceReturn
  | linkSignalDetect => exact h.execLinkSignalDetect
  | linkFecLock => exact h.execLinkFecLock
  | linkInitExchange => exact h.execLinkInitExchange
  | linkSpdmComplete => exact h.execLinkSpdmComplete
  | linkSpdmTimeout => exact h.execLinkSpdmTimeout
  | linkAbsentReport => exact h.execLinkAbsentReport
  | flitReceive => exact h.execFlitReceive
  | linkRetryTimer => exact h.execLinkRetryTimer
  | keyUpdate => exact h.execKeyUpdate
  | packetForward => exact h.execPacketForward
  | packetDeliver => exact h.execPacketDeliver
  | faultBeaconReceive => exact h.execFaultBeaconReceive
  | linkSendEntry => exact h.execLinkSendEntry
  | detourInstall => exact h.execDetourInstall
  | ownerOpenChunk => exact h.execOwnerOpenChunk
  | openPkt => exact h.execOpenPkt
  | contrib => exact h.execContrib
  | result => exact h.execResult
  | wideContrib => exact h.execWideContrib
  | wideResult => exact h.execWideResult
  | vote => exact h.execVote
  | nak => exact h.execNak
  | fail => exact h.execFail
  | ownerDeadlineExpire => exact h.execOwnerDeadlineExpire
  | memberDeadlineExpire => exact h.execMemberDeadlineExpire
  | voteDeadlineExpire => exact h.execVoteDeadlineExpire
  | consignmentPacket => exact h.execConsignmentPacket
  | partnerAck => exact h.execPartnerAck
  | i3cWrstRequest => exact h.execI3cWrstRequest
  | i3cImageWrite => exact h.execI3cImageWrite
  | imageApplyRequest => exact h.execImageApplyRequest
  | imageApply => exact h.execImageApply
  | imageApplyDrainTimeout => exact h.execImageApplyDrainTimeout
  | i3cModuleInfoRead => exact h.execI3cModuleInfoRead
  | i3cAttest => exact h.execI3cAttest
  | i3cSafeHoldRead => exact h.execI3cSafeHoldRead
  | bypass => exact h.execBypass
  | idcode => exact h.execIdcode
  | samplePreload => exact h.execSamplePreload
  | extest => exact h.execExtest
  | scout => exact h.execScout
  | scoutUnlock => exact h.execScoutUnlock
  | scoutHalt => exact h.execScoutHalt
  | scoutResume => exact h.execScoutResume
  | scoutStep => exact h.execScoutStep
  | scoutSetBreakpoint => exact h.execScoutSetBreakpoint
  | scoutClearBreakpoint => exact h.execScoutClearBreakpoint
  | scoutMemoryRead => exact h.execScoutMemoryRead
  | scoutMemoryWrite => exact h.execScoutMemoryWrite
  | scoutRegisterRead => exact h.execScoutRegisterRead
  | scoutRegisterWrite => exact h.execScoutRegisterWrite
  | scoutStatus => exact h.execScoutStatus
  | tokenExpire => exact h.execTokenExpire
  | partnerStopsAnswering => exact h.execPartnerStopsAnswering
  | p3Refused => exact h.execP3Refused
  | copyAcknowledged => exact h.execCopyAcknowledged
  | sealLockstepMismatch => exact h.execSealLockstepMismatch
  | rejoinAsStandby => exact h.execRejoinAsStandby
  | halfClockLoss => exact h.execHalfClockLoss
  | aux3v3Loss => exact h.execAux3v3Loss
  | aux3v3Return => exact h.execAux3v3Return

end State.Canon

/-- Settles O6: each command carries the canonical form through every operation it is made of, and a step is the command at the head of the
queue. -/
theorem stepKeepsCanonicalForm : Obligations.StepKeepsCanonicalForm := by
  intro s t h ht
  unfold step at ht
  split at ht
  · exact Host.Outcome.next.inj ht ▸ h
  · exact State.Canon.exec (State.Canon.withPending h) t ht
end Sys2Proof.Machine
end

section
/-!
PROOFS. Consignments of a partition whose home caravan does not exist: the engine that copies them lies in no half.
-/
namespace Sys2Proof.Machine

/-- A partition whose caravan map names caravan 24, one past the last: it has a window onto HBM, and a consignment that reads, with a host
copy. -/
def strayHome : State :=
  { State.reset with
    csr := [(Csr.prtWinVa 0 0, BitVec.ofNat 64 (7 + 2 ^ 48)), (Csr.csgStatus 0, BitVec.ofNat 64 (2 ^ 34))]
    parts := [(0, { Part.none with cmap := [24], csg := { Part.none.csg with copies := [(4, 0)] } })] }

/-- No router and no mesh link of a half has failed. -/
def State.HalfWhole (s : State) (h : Nat) : Prop :=
  s.fld (Csr.mshFault_failedRouters h) = 0 ∧ s.fld (Csr.mshLinkfault_hLinks h) = 0 ∧ s.fld (Csr.mshLinkfault_vLinks h) = 0

theorem pathOk_of_halfWhole {s : State} {p : List Rtr} (hs : ∀ x ∈ p, s.HalfWhole x.half) : s.pathOk p = true := by
  simp only [State.pathOk, Bool.and_eq_true, List.all_eq_true, Bool.not_eq_true']
  refine ⟨fun x hx => ?_, fun x hx => ?_⟩
  · rw [(hs x hx).1, bitOf_zero]
  · obtain ⟨-, hh, hv⟩ := hs _ (List.of_mem_zip hx).1
    simp [State.linkFailed, hh, hv, bitOf_zero]

/-- A route leads between two halves without a fault, when a Pass channel is open. -/
theorem route_ok_of_halfWhole {s : State} {a b : Rtr} (plane : Nat) (ha : s.HalfWhole a.half) (hb : s.HalfWhole b.half)
    (hc : (s.pickChan a.inst plane b.col).isSome = true) : (s.route a b plane).ok = true := by
  have hp (col : Nat) : s.pathOk (primaryPath a b col) = true :=
    pathOk_of_halfWhole fun x hx => (halves_primaryPath hx).elim (· ▸ ha) (· ▸ hb)
  have hv (col : Nat) : s.pathOk (verticalPath a b col) = true :=
    pathOk_of_halfWhole fun x hx => (halves_verticalPath hx).elim (· ▸ ha) (· ▸ hb)
  obtain ⟨c, hc⟩ := Option.isSome_iff_exists.mp hc
  simp only [State.route, hp, hv, hc, Bool.true_and]
  by_cases h : a.half = b.half
  · simp [h, Route.ok]
  · rw [if_neg h]
    simp only [Option.isNone_some, Bool.and_false, Bool.false_eq_true, if_false]
    split
    · rfl
    · rfl

theorem halfWhole_strayHome {h : Nat} (hh : h < 3) : strayHome.HalfWhole h := by
  have all : ∀ h < 3, strayHome.fld (Csr.mshFault_failedRouters h) = 0 ∧ strayHome.fld (Csr.mshLinkfault_hLinks h) = 0 ∧
      strayHome.fld (Csr.mshLinkfault_vLinks h) = 0 := by decide +kernel
  exact all h hh

theorem manRtr_strayHome : strayHome.manRtr 0 = rtrOfMan 2 := by decide +kernel

/-- Its engine's router lies past the last half, and the mesh leads there all the same. -/
theorem joined_strayHome : strayHome.Joined (strayHome.manRtr 0) := by
  have hs : strayHome.meshWhole = true := by decide +kernel
  intro r hr _ pl _
  obtain ⟨hhalf, hcol⟩ := memRtrs_bounds r hr
  rw [manRtr_strayHome]
  exact ⟨route_ok_of_halfWhole pl (halfWhole_strayHome (by decide)) (halfWhole_strayHome (by omega)) (pickChan_of_whole hs _ _ hcol),
    route_ok_of_halfWhole pl (halfWhole_strayHome (by omega)) (halfWhole_strayHome (by decide)) (pickChan_of_whole hs _ _ (by decide))⟩

/-- The host copy's packets are counted at that router, which is none of the device's 64. -/
theorem flits_consignRead_strayHome :
    (strayHome.consignRead 0).reg (Csr.mshRouter 2 19) ≠ strayHome.reg (Csr.mshRouter 2 19) := by decide +kernel

theorem reg_withPending (s : State) (q : List Instr) (o : Nat) : State.reg { s with pending := q } o = s.reg o := rfl

theorem exec_consignReadDone (p : PartId) (s : State) :
    exec (.consignReadDone p) s = .next { s.consignRead p with pending := s.pending } := rfl

/-- Refutes O46: a state may map a partition to a caravan that the device does not have. Its consignment engine then lies in no half, and
what it writes is counted in a register that is none of those that the statement lets change. -/
theorem not_consignmentsRun : ¬ Obligations.ConsignmentsRun := by
  unfold Obligations.ConsignmentsRun
  intro h
  obtain ⟨hread, -⟩ := h strayHome 0
  obtain ⟨hgood, -⟩ := hread (by decide +kernel) joined_strayHome
  obtain ⟨t, ht, -, -, -, -, -, hregs, -⟩ := hgood rfl rfl (List.forall_mem_nil _) rfl
  have hreg : t.reg (Csr.mshRouter 2 19) = strayHome.reg (Csr.mshRouter 2 19) := hregs _ (by decide +kernel)
  rw [exec_consignReadDone] at ht
  rw [← Host.Outcome.next.inj ht, reg_withPending] at hreg
  exact flits_consignRead_strayHome hreg

end Sys2Proof.Machine
end

section
/-!
PROOFS. What mesh traffic changes: the counters of routers and Pass channels, and nothing else while every route is there (R228, R243).
-/
namespace Sys2Proof.Machine

/-! Frames of operations that change registers only. -/

theorem OnlyChanges.refl (fs : List Comp) (s : State) : OnlyChanges fs s s := fun f _ => Comp.same_refl f s

theorem OnlyChanges.comp {fs gs us : List Comp} {s t u : State} (h : OnlyChanges fs s t) (k : OnlyChanges gs t u) (hf : fs ⊆ us)
    (hg : gs ⊆ us) : OnlyChanges us s u :=
  (h.widen hf).trans (k.widen hg) (List.Subset.refl us)

theorem OnlyRegs.trans {offs : List Nat} {s t u : State} (h : OnlyRegs offs s t) (k : OnlyRegs offs t u) : OnlyRegs offs s u :=
  fun o ho => (k o ho).trans (h o ho)

theorem OnlyRegs.fld {offs : List Nat} {s t : State} (h : OnlyRegs offs s t) {r : FieldRef} (hr : r.off ∉ offs) : t.fld r = s.fld r := by
  unfold State.fld
  rw [h _ hr]

/-- A counter counts alike in states that agree outside some registers. -/
theorem OnlyRegs.count {offs : List Nat} {s t : State} (h : OnlyRegs offs s t) (r : FieldRef) (n : Nat) :
    OnlyRegs offs (s.count r n) (t.count r n) := by
  intro o ho
  by_cases hr : r.off = o
  · subst hr
    simp only [State.count, State.setFld, State.reg_setReg_same, h _ ho, h.fld ho]
  · rw [State.reg_count_other _ _ _ _ hr, State.reg_count_other _ _ _ _ hr, h _ ho]

/-- Only registers at some offsets have changed. -/
def State.RegsOnly (offs : List Nat) (s t : State) : Prop := OnlyRegs offs s t ∧ OnlyChanges [.csr] s t

namespace State.RegsOnly
variable {offs : List Nat} {s t u : State}

theorem refl (s : State) : s.RegsOnly offs s := ⟨fun _ _ => rfl, .refl _ s⟩

theorem trans (h : s.RegsOnly offs t) (k : t.RegsOnly offs u) : s.RegsOnly offs u := ⟨h.1.trans k.1, h.2.trans k.2 (List.Subset.refl _)⟩

theorem foldl {α : Type} {f : State → α → State} (l : List α) (hf : ∀ a ∈ l, ∀ t, s.RegsOnly offs t → t.RegsOnly offs (f t a))
    (h : s.RegsOnly offs t) : s.RegsOnly offs (l.foldl f t) := by
  induction l generalizing t with
  | nil => exact h
  | cons a l ih => exact ih (fun b hb => hf b (.tail a hb)) (h.trans (hf a (.head l) t h))

theorem count (s : State) {r : FieldRef} (n : Nat) (hr : r.off ∈ offs) : s.RegsOnly offs (s.count r n) := by
  refine ⟨fun o ho => State.reg_count_other _ _ _ _ (by rintro rfl; exact ho hr), fun f hf => ?_⟩
  cases f with
  | csr => exact absurd (.head _) hf
  | _ => rfl

theorem mem (h : s.RegsOnly offs t) : t.mem = s.mem := h.2 .mem (by decide)
theorem poison (h : s.RegsOnly offs t) : t.poison = s.poison := h.2 .poison (by decide)
theorem out (h : s.RegsOnly offs t) : t.out = s.out := h.2 .out (by decide)
theorem byte (h : s.RegsOnly offs t) (a : Nat) : t.byte a = s.byte a := by unfold State.byte; rw [h.mem]

end State.RegsOnly

/-! The counters of the mesh. -/

theorem mshRouter_mem_meshRegs {h i : Nat} (hh : h < 2) (hi : i < 32) : Csr.mshRouter h i ∈ meshRegs := by
  refine List.mem_append_left _ (List.mem_map.mpr ⟨h * 32 + i, List.mem_range.mpr (by omega), ?_⟩)
  rw [show (h * 32 + i) / 32 = h by omega, show (h * 32 + i) % 32 = i by omega]

theorem pasBeats_mem_meshRegs {c : Nat} (hc : c < 16) : Csr.pasBeats c ∈ meshRegs :=
  List.mem_append_right _ (List.mem_map.mpr ⟨c, List.mem_range.mpr hc, rfl⟩)

/-- Where the counters lie. -/
theorem mem_meshRegs {o : Nat} (h : o ∈ meshRegs) :
    (0xA00100 ≤ o ∧ o < 0xA00200) ∨ (0xA01100 ≤ o ∧ o < 0xA01200) ∨ (0xAC0100 ≤ o ∧ o < 0xAC0180) := by
  obtain h | h := List.mem_append.mp h
  · obtain ⟨i, hi, rfl⟩ := List.mem_map.mp h
    have := List.mem_range.mp hi
    simp only [Csr.mshRouter]
    omega
  · obtain ⟨i, hi, rfl⟩ := List.mem_map.mp h
    have := List.mem_range.mp hi
    simp only [Csr.pasBeats]
    omega

/-! Routers and channels of the device. -/

/-- A router of the device. -/
def Rtr.OnMesh (r : Rtr) : Prop := r.half < 2 ∧ r.row < 4 ∧ r.col < 8

theorem Rtr.OnMesh.inst_lt {r : Rtr} (h : r.OnMesh) : r.inst < 32 := by
  obtain ⟨-, hr, hc⟩ := h
  unfold Rtr.inst
  omega

theorem memRtrs_onMesh : ∀ r ∈ memRtrs, r.OnMesh := by
  unfold Rtr.OnMesh
  decide +kernel

theorem mem_between {x a b : Nat} (h : x ∈ between a b) : x ≤ max a b := by
  unfold between at h
  split at h
  · obtain ⟨i, hi, rfl⟩ := List.mem_map.mp h
    have := List.mem_range.mp hi
    omega
  · obtain ⟨i, hi, rfl⟩ := List.mem_map.mp h
    omega

theorem onMesh_hvPath {h r c r' c' : Nat} {x : Rtr} (hh : h < 2) (hr : r < 4 ∧ r' < 4) (hc : c < 8 ∧ c' < 8) (hx : x ∈ hvPath h r c r' c') :
    x.OnMesh := by
  obtain hx | hx := List.mem_append.mp hx
  · obtain ⟨y, hy, rfl⟩ := List.mem_map.mp hx
    have := mem_between hy
    exact ⟨hh, hr.1, show y < 8 by omega⟩
  · obtain ⟨y, hy, rfl⟩ := List.mem_map.mp hx
    have := mem_between (List.mem_of_mem_drop hy)
    exact ⟨hh, show y < 4 by omega, hc.2⟩

theorem onMesh_vhPath {h r c r' c' : Nat} {x : Rtr} (hh : h < 2) (hr : r < 4 ∧ r' < 4) (hc : c < 8 ∧ c' < 8) (hx : x ∈ vhPath h r c r' c') :
    x.OnMesh := by
  obtain hx | hx := List.mem_append.mp hx
  · obtain ⟨y, hy, rfl⟩ := List.mem_map.mp hx
    have := mem_between hy
    exact ⟨hh, show y < 4 by omega, hc.1⟩
  · obtain ⟨y, hy, rfl⟩ := List.mem_map.mp hx
    have := mem_between (List.mem_of_mem_drop hy)
    exact ⟨hh, hr.2, show y < 8 by omega⟩

theorem onMesh_primaryPath {a b : Rtr} {col : Nat} {x : Rtr} (ha : a.OnMesh) (hb : b.OnMesh) (hc : col < 8) (hx : x ∈ primaryPath a b col) :
    x.OnMesh := by
  obtain ⟨ah, ar, ac⟩ := ha
  obtain ⟨bh, br, bc⟩ := hb
  unfold primaryPath at hx
  split at hx
  · exact onMesh_hvPath ah ⟨ar, br⟩ ⟨ac, bc⟩ hx
  · obtain hx | hx := List.mem_append.mp hx
    · exact onMesh_hvPath ah ⟨ar, by decide⟩ ⟨ac, hc⟩ hx
    · exact onMesh_vhPath bh ⟨by decide, br⟩ ⟨hc, bc⟩ hx

theorem onMesh_verticalPath {a b : Rtr} {col : Nat} {x : Rtr} (ha : a.OnMesh) (hb : b.OnMesh) (hc : col < 8)
    (hx : x ∈ verticalPath a b col) : x.OnMesh := by
  obtain ⟨ah, ar, ac⟩ := ha
  obtain ⟨bh, br, bc⟩ := hb
  unfold verticalPath at hx
  split at hx
  · exact onMesh_vhPath ah ⟨ar, br⟩ ⟨ac, bc⟩ hx
  · obtain hx | hx := List.mem_append.mp hx
    · exact onMesh_vhPath ah ⟨ar, by decide⟩ ⟨ac, hc⟩ hx
    · exact onMesh_hvPath bh ⟨by decide, br⟩ ⟨hc, bc⟩ hx

theorem lt_of_mem_chansOf {col c : Nat} (h : c ∈ chansOf col) : c < 16 := by
  by_cases hc : col < 8
  · have all : ∀ col < 8, ∀ c ∈ chansOf col, c < 16 := by decide
    exact all col hc c h
  · rw [chansOf, List.getElem?_eq_none (by simpa using hc)] at h
    simp at h

theorem colOfChan_lt (c : Nat) : colOfChan c < 8 := by
  unfold colOfChan
  cases h : (List.range 8).find? (fun col => (chansOf col).contains c) with
  | none => decide
  | some col => exact List.mem_range.mp (List.mem_of_find?_eq_some h)

theorem pickChan_lt {s : State} {src plane col c : Nat} (h : s.pickChan src plane col = some c) : c < 16 := by
  have side {x : Nat} (hx : (chansOf x).find? s.chanOpen = some c) : c < 16 := lt_of_mem_chansOf (List.mem_of_find?_eq_some hx)
  unfold State.pickChan at h
  rw [Option.orElse_eq_or, Option.or_eq_some_iff] at h
  obtain h | ⟨-, h⟩ := h
  · obtain ⟨j, -, hj⟩ := List.exists_of_findSome?_eq_some h
    exact lt_of_mem_chansOf (List.mem_of_getElem? (Option.eq_some_of_filter_eq_some hj))
  · obtain ⟨d, -, hd⟩ := List.exists_of_findSome?_eq_some h
    rw [Option.orElse_eq_or, Option.or_eq_some_iff] at hd
    obtain hd | ⟨-, hd⟩ := hd
    · split at hd
      · exact side hd
      · cases hd
    · exact side hd

/-- The routers and the channel of a route are the device's. -/
theorem route_onMesh {s : State} {a b : Rtr} (ha : a.OnMesh) (hb : b.OnMesh) (plane : Nat) :
    (∀ x ∈ (s.route a b plane).path, x.OnMesh) ∧ ∀ c ∈ (s.route a b plane).chan, c < 16 := by
  unfold State.route
  extract_lets ch col moved p v
  have hch : ∀ c ∈ ch, c < 16 := by
    intro c hc
    unfold ch at hc
    split at hc
    · cases hc
    · exact pickChan_lt hc
  have hcol : col < 8 := by
    unfold col
    cases ch with
    | none => exact hb.2.2
    | some c => exact colOfChan_lt c
  have hp : ∀ x ∈ p, x.OnMesh := fun x hx => onMesh_primaryPath ha hb hcol hx
  have hv : ∀ x ∈ v, x.OnMesh := fun x hx => onMesh_verticalPath ha hb hcol hx
  split
  · exact ⟨fun x hx => (nomatch hx), fun c hc => (nomatch hc)⟩
  · split
    · exact ⟨hp, hch⟩
    · split
      · exact ⟨hv, hch⟩
      · split
        · exact ⟨hp, hch⟩
        · exact ⟨fun x hx => (nomatch hx), fun c hc => (nomatch hc)⟩

/-! Traffic leaves the routes as they are. -/

theorem fld_failedRouters {s t : State} (h : OnlyRegs meshRegs s t) {k : Nat} (hk : k < 2) :
    t.fld (Csr.mshFault_failedRouters k) = s.fld (Csr.mshFault_failedRouters k) := by
  refine h.fld fun hm => ?_
  have := mem_meshRegs hm
  simp only [Csr.mshFault_failedRouters, Csr.mshFault] at this
  omega

theorem linkFailed_congr {s t : State} (h : OnlyRegs meshRegs s t) {a b : Rtr} (ha : a.half < 2) : t.linkFailed a b = s.linkFailed a b := by
  have hh : t.fld (Csr.mshLinkfault_hLinks a.half) = s.fld (Csr.mshLinkfault_hLinks a.half) := by
    refine h.fld fun hm => ?_
    have := mem_meshRegs hm
    simp only [Csr.mshLinkfault_hLinks, Csr.mshLinkfault] at this
    omega
  have hv : t.fld (Csr.mshLinkfault_vLinks a.half) = s.fld (Csr.mshLinkfault_vLinks a.half) := by
    refine h.fld fun hm => ?_
    have := mem_meshRegs hm
    simp only [Csr.mshLinkfault_vLinks, Csr.mshLinkfault] at this
    omega
  simp only [State.linkFailed, hh, hv]

theorem pathOk_congr {s t : State} (h : OnlyRegs meshRegs s t) {p : List Rtr} (hp : ∀ x ∈ p, x.half < 2) : t.pathOk p = s.pathOk p := by
  unfold State.pathOk
  congr 1
  · rw [Bool.eq_iff_iff, List.all_eq_true, List.all_eq_true]
    exact forall₂_congr fun x hx => by rw [fld_failedRouters h (hp x hx)]
  · rw [Bool.eq_iff_iff, List.all_eq_true, List.all_eq_true]
    refine forall₂_congr fun (a, b) hx => ?_
    dsimp only
    rw [linkFailed_congr h (hp a (List.of_mem_zip hx).1)]

theorem chanOpen_congr {s t : State} (h : OnlyRegs meshRegs s t) {c : Nat} (hc : c < 16) : t.chanOpen c = s.chanOpen c := by
  unfold State.chanOpen
  rw [h.fld fun hm => ?_]
  have := mem_meshRegs hm
  simp only [Csr.pasChan_state, Csr.pasChan] at this
  omega

theorem pickChan_congr {s t : State} (h : OnlyRegs meshRegs s t) (src plane col : Nat) : t.pickChan src plane col = s.pickChan src plane col := by
  have own (k : Nat) : ((chansOf col)[k]?).filter t.chanOpen = ((chansOf col)[k]?).filter s.chanOpen := by
    cases hk : (chansOf col)[k]? with
    | none => rfl
    | some c => simp only [Option.filter, chanOpen_congr h (lt_of_mem_chansOf (List.mem_of_getElem? hk))]
  have side (x : Nat) : (chansOf x).find? t.chanOpen = (chansOf x).find? s.chanOpen :=
    List.find?_congr fun c hc => chanOpen_congr h (lt_of_mem_chansOf hc)
  simp only [State.pickChan, own, side]

theorem route_congr {s t : State} (h : OnlyRegs meshRegs s t) {a b : Rtr} (ha : a.half < 2) (hb : b.half < 2) (plane : Nat) :
    t.route a b plane = s.route a b plane := by
  have hp (col : Nat) : t.pathOk (primaryPath a b col) = s.pathOk (primaryPath a b col) :=
    pathOk_congr h fun x hx => (halves_primaryPath hx).elim (· ▸ ha) (· ▸ hb)
  have hv (col : Nat) : t.pathOk (verticalPath a b col) = s.pathOk (verticalPath a b col) :=
    pathOk_congr h fun x hx => (halves_verticalPath hx).elim (· ▸ ha) (· ▸ hb)
  simp only [State.route, pickChan_congr h, hp, hv]

theorem State.Joined.congr {s t : State} {a : Rtr} (hj : s.Joined a) (h : OnlyRegs meshRegs s t) (ha : a.half < 2) : t.Joined a := by
  intro r hr hra pl hpl
  rw [route_congr h ha (memRtrs_bounds r hr).1, route_congr h (memRtrs_bounds r hr).1 ha]
  exact hj r hr hra pl hpl

/-! What the traffic changes. -/

theorem countFlits_regsOnly (s : State) {path : List Rtr} {chans : List Nat} (h bytes : Nat) (hp : ∀ x ∈ path, x.OnMesh)
    (hc : ∀ c ∈ chans, c < 16) : s.RegsOnly meshRegs (s.countFlits path chans h bytes) := by
  refine .foldl _ (fun c hm t _ => ?_) (.foldl _ (fun r hm t _ => ?_) (.refl s))
  · split
    · exact .count t _ (pasBeats_mem_meshRegs (hc c hm))
    · exact .count t _ (pasBeats_mem_meshRegs (hc c hm))
  · exact .count t _ (mshRouter_mem_meshRegs (hp r hm).1 (hp r hm).inst_lt)

theorem sendMesh_regsOnly (s : State) (k : MeshClass) {a b : Rtr} (plane bytes : Nat) (ha : a.OnMesh) (hb : b.OnMesh) :
    s.RegsOnly meshRegs (s.sendMesh k a b plane bytes) := by
  obtain ⟨hp, hc⟩ := route_onMesh (s := s) ha hb plane
  unfold State.sendMesh
  extract_lets r s1
  split
  · exact .refl s
  · have h1 : s.RegsOnly meshRegs s1 := countFlits_regsOnly s _ _ hp fun c hm => hc c (Option.mem_toList.mp hm)
    split
    · exact h1
    · exact h1.trans (.count s1 _ (mshRouter_mem_meshRegs ha.1 ha.inst_lt))

/-- Where the memories on the die lie. -/
theorem bounds_of_regionOf {pa : Nat} {r : Region} (h : regionOf pa = some r) :
    (r = .hbm → pa < 768 * gib) ∧ (r = .satchel → satchelBase 0 ≤ pa ∧ pa < satchelBase 192) ∧
      (r = .depot → depotBase 0 ≤ pa ∧ pa < depotBase 24) := by
  unfold regionOf at h
  split_ifs at h with hh hs hd
  · cases h
    exact ⟨fun _ => hh, nofun, nofun⟩
  · cases h
    rw [Bool.and_eq_true, decide_eq_true_eq, decide_eq_true_eq] at hs
    exact ⟨nofun, fun _ => hs, nofun⟩
  · cases h
    rw [Bool.and_eq_true, decide_eq_true_eq, decide_eq_true_eq] at hd
    exact ⟨nofun, nofun, fun _ => hd⟩
  all_goals
    cases h
    exact ⟨nofun, nofun, nofun⟩

theorem lt_of_regionOf_hbm {pa : Nat} (h : regionOf pa = some .hbm) : pa / (48 * gib) < 16 :=
  Nat.div_lt_of_lt_mul ((bounds_of_regionOf h).1 rfl)

theorem lt_of_regionOf_satchel {pa : Nat} (h : regionOf pa = some .satchel) : (pa - satchelBase 0) / 0x8000000 < 24 := by
  obtain ⟨lo, hi⟩ := (bounds_of_regionOf h).2.1 rfl
  exact Nat.div_lt_of_lt_mul (Nat.sub_lt_left_of_lt_add lo hi)

theorem lt_of_regionOf_depot {pa : Nat} (h : regionOf pa = some .depot) : (pa - depotBase 0) / 0x4000000 < 24 := by
  obtain ⟨lo, hi⟩ := (bounds_of_regionOf h).2.2 rfl
  exact Nat.div_lt_of_lt_mul (Nat.sub_lt_left_of_lt_add lo hi)

/-- Every memory lies at one of the routers that memory attaches to. -/
theorem rtrOfPa_mem_memRtrs {pa : Nat} {r : Rtr} (h : rtrOfPa pa = some r) : r ∈ memRtrs := by
  have stack {k : Nat} (hk : k < 16) : rtrOfStack k ∈ memRtrs :=
    List.mem_append_left _ (List.mem_append_left _ (List.mem_map_of_mem (List.mem_range.mpr hk)))
  have car {c : Nat} (hc : c < 24) : rtrOfCar c ∈ memRtrs :=
    List.mem_append_left _ (List.mem_append_right _ (List.mem_map_of_mem (List.mem_range.mpr hc)))
  unfold rtrOfPa at h
  split at h
  · rename_i hr
    exact Option.some_inj.mp h ▸ stack (lt_of_regionOf_hbm hr)
  · rename_i hr
    exact Option.some_inj.mp h ▸ car (lt_of_regionOf_satchel hr)
  · rename_i hr
    exact Option.some_inj.mp h ▸ car (lt_of_regionOf_depot hr)
  · exact Option.some_inj.mp h ▸ List.mem_append_right _ (.head _)
  · cases h

theorem planeOf_lt (pa : Nat) : planeOf pa < 2 := Nat.mod_lt _ (by decide)

/-- Traffic between a router that no memory is cut off from and physical bytes moves the counters of the mesh only. -/
theorem meshTo_regsOnly {s : State} {a : Rtr} (store : Bool) (pa n : Nat) (hj : s.Joined a) (ha : a.OnMesh) :
    s.RegsOnly meshRegs (s.meshTo store a pa n) := by
  refine .foldl _ (fun x _ t ht => ?_) (.refl s)
  obtain ⟨b, m⟩ := x
  dsimp only
  split
  · exact .refl t
  · rename_i r hr
    have hm := rtrOfPa_mem_memRtrs hr
    have hb := memRtrs_onMesh r hm
    split
    · exact .refl t
    · rename_i hra
      obtain ⟨hto, hback⟩ := hj.congr ht.1 ha.1 r hm hra _ (planeOf_lt b)
      rw [hto, hback]
      exact (sendMesh_regsOnly t _ _ _ ha hb).trans (sendMesh_regsOnly _ _ _ _ hb ha)

end Sys2Proof.Machine
end

section
/-!
PROOFS. Register writes, BAR2 and DOE.
-/
namespace Sys2Proof.Machine

/-! Register writes (R6). -/

theorem exec_registerWrite (w : Writer) (off : Nat) (v : Word) (s : State) :
    exec (.registerWrite w off v) s = .next { s.regWrite w off v with pending := s.pending } := rfl

/-- A write that reaches no register, or comes from a writer that does not, changes nothing. -/
theorem regWrite_nowhere {s : State} {w : Writer} {off : Nat} {v : Word} (h : findReg off famTable = none) : s.regWrite w off v = s := by
  simp only [State.regWrite, h]

theorem regWrite_refused {s : State} {w : Writer} {off : Nat} {v : Word} {f : Fam} {is : List Nat} (hf : findReg off famTable = some (f, is))
    (h : s.mayWrite w f is = false ∨ s.reaches w = false) : s.regWrite w off v = s := by
  have hr : (!s.reaches w || !s.mayWrite w f is) = true := by
    obtain h | h := h
    · rw [h, Bool.not_false, Bool.or_true]
    · rw [h, Bool.not_false, Bool.true_or]
  simp only [State.regWrite, hf, hr, if_true]

/-- A register without an effect of its own for its writer: it is none of those that act for every writer, nor one that acts for the Seal. -/
theorem afterWrite_plain {s : State} {w : Writer} {f : Fam} (is : List Nat) (v : Word)
    (h : f.name ∉ ["HQ_RING_CTL", "HQ_RING_BASE", "HQ_CANCEL", "HQ_MBOX", "HQ_SEALREQ", "SEAL_MAN", "CSG_STATUS", "CSG_PEER"])
    (hs : w = .seal → f.name ∉ ["CPR_PSTATE", "CPR_CAP", "CPR_CAUSE", "LNK_CTRL", "WGH_SHARE", "CPR_SHARE"]) : s.afterWrite w f is v = s := by
  unfold State.afterWrite
  extract_lets
  split
  case h_1 hn | h_2 hn | h_3 hn | h_4 hn | h_5 hn | h_6 hn | h_7 hn | h_8 hn => exact absurd (by simp [hn]) h
  case h_9 hn | h_10 hn | h_11 hn | h_12 hn | h_13 hn | h_14 hn =>
    have hw : w ≠ .seal := fun hw => hs hw (by simp [hn])
    simp [hw]
  case h_15 => rfl

theorem regWrite_plain {s : State} {w : Writer} {off : Nat} {v : Word} {f : Fam} {is : List Nat} (hf : findReg off famTable = some (f, is))
    (hm : s.mayWrite w f is = true) (hr : s.reaches w = true)
    (h : f.name ∉ ["HQ_RING_CTL", "HQ_RING_BASE", "HQ_CANCEL", "HQ_MBOX", "HQ_SEALREQ", "SEAL_MAN", "CSG_STATUS", "CSG_PEER"])
    (hs : w = .seal → f.name ∉ ["CPR_PSTATE", "CPR_CAP", "CPR_CAUSE", "LNK_CTRL", "WGH_SHARE", "CPR_SHARE"]) :
    s.regWrite w off v = s.rawWrite w off f is v := by
  simp only [State.regWrite, hf, hr, hm, Bool.not_true, Bool.or_self, Bool.false_eq_true, if_false, afterWrite_plain is v h hs]

theorem setReg_regsOnly (s : State) (o : Nat) (w : Word) : s.RegsOnly [o] (s.setReg o w) := by
  refine ⟨fun o' ho => ?_, fun f hf => ?_⟩
  · rw [State.reg_setReg, if_neg fun h => ho (List.mem_singleton.mpr h.symm)]
  · cases f with
    | csr => exact absurd (.head _) hf
    | _ => rfl

/-! BAR2 (R228, R435). -/

/-- A read that finds nothing to correct moves at most three counters, which are those of the memory it reads. -/
theorem eccRead_counts (pa bad : Nat) :
    (∀ s : State, s.eccRead pa 0 0 bad = s) ∨
      ∃ r1 r2 r3 : FieldRef, ∀ s : State, s.eccRead pa 0 0 bad = ((s.count r1 0).count r2 0).count r3 bad := by
  cases h : regionOf pa with
  | none => exact .inl fun s => by simp only [State.eccRead, h]
  | some r =>
    cases r with
    | hbm =>
      refine .inr ⟨Csr.hbmEcc_corr1 (pa / (48 * gib)), Csr.hbmEcc_corr2 (pa / (48 * gib)), Csr.hbmEcc_uncorr (pa / (48 * gib)), fun s => ?_⟩
      simp only [State.eccRead, h, if_true]
    | satchel =>
      refine .inr ⟨Csr.sealEcc_corr1 ((pa - satchelBase 0) / 0x8000000 / 12), Csr.sealEcc_corr2 ((pa - satchelBase 0) / 0x8000000 / 12),
        Csr.sealEcc_uncorr ((pa - satchelBase 0) / 0x8000000 / 12), fun s => ?_⟩
      simp only [State.eccRead, h, State.eccSram]
    | depot =>
      refine .inr ⟨Csr.sealEcc_corr1 ((pa - depotBase 0) / 0x4000000 / 12), Csr.sealEcc_corr2 ((pa - depotBase 0) / 0x4000000 / 12),
        Csr.sealEcc_uncorr ((pa - depotBase 0) / 0x4000000 / 12), fun s => ?_⟩
      simp only [State.eccRead, h, State.eccSram]
    | role => exact .inl fun s => by simp only [State.eccRead, h]
    | alias_ => exact .inl fun s => by simp only [State.eccRead, h]
    | cxl => exact .inl fun s => by simp only [State.eccRead, h]

theorem count_changes (s : State) (r : FieldRef) (n : Nat) : OnlyChanges [.csr] s (s.count r n) :=
  (State.RegsOnly.count (offs := [r.off]) s n (.head _)).2

/-- Poisoned words that are read are counted in registers. -/
theorem eccWords_changes (s : State) (pas : List Nat) : OnlyChanges [.csr] s (s.eccWords pas) := by
  unfold State.eccWords
  generalize ((pas.map (· / 8)).filter s.poison.contains).eraseDups = ws
  induction ws generalizing s with
  | nil => exact .refl _ s
  | cons w ws ih =>
    refine OnlyChanges.trans ?_ (ih _) (List.Subset.refl _)
    dsimp only
    obtain h | ⟨r1, r2, r3, h⟩ := eccRead_counts (w * 8) 1
    · rw [h]
      exact .refl _ s
    · rw [h]
      exact ((count_changes s r1 0).trans (count_changes _ r2 0) (List.Subset.refl _)).trans (count_changes _ r3 1) (List.Subset.refl _)

/-- They count alike in states that agree outside some registers and hold the same poison. -/
theorem OnlyRegs.eccWords {offs : List Nat} {s t : State} (h : OnlyRegs offs s t) (hp : t.poison = s.poison) (pas : List Nat) :
    OnlyRegs offs (s.eccWords pas) (t.eccWords pas) := by
  unfold State.eccWords
  rw [hp]
  generalize ((pas.map (· / 8)).filter s.poison.contains).eraseDups = ws
  clear hp
  induction ws generalizing s t with
  | nil => exact h
  | cons w ws ih =>
    refine ih ?_
    dsimp only
    obtain hr | ⟨r1, r2, r3, hr⟩ := eccRead_counts (w * 8) 1
    · rw [hr, hr]
      exact h
    · rw [hr, hr]
      exact ((h.count r1 0).count r2 0).count r3 1

theorem rtrOfHost_onMesh (f : FuncId) : (rtrOfHost (f / 4)).OnMesh := ⟨show f.val / 4 < 2 by omega, show 1 < 4 by decide, show 1 < 8 by decide⟩

theorem exec_bar2Access {f : FuncId} {acc : BarAccess} {s t : State} (hup : s.hostUp f = true) (h : s.bar2 f acc = .next t)
    (hp : t.pending = s.pending) : exec (.bar2Access f acc) s = .next t := by
  show execBar2Access f acc s = _
  simp only [execBar2Access, hup, if_true, h]
  rw [← hp]

/-- No place of an access is a hole. -/
theorem holeOf_eq_none {pas : List Nat} (h : ∀ pa ∈ pas, regionOf pa ≠ none) : holeOf pas = none :=
  List.find?_eq_none.mpr fun pa hpa hn => h pa hpa (Option.isNone_iff_eq_none.mp hn)

/-- The mesh has carried an access of function f to its bytes (R228). -/
def State.barMesh (s : State) (f : Nat) (wr : Bool) (pas : List Nat) : State :=
  (runsOf pas).foldl (fun s (a, m) => s.meshTo wr (rtrOfHost (f / 4)) a m) s

/-- What the mesh carries to the places of an access moves its counters only. -/
theorem barMesh_regsOnly {s : State} (f : FuncId) (wr : Bool) (pas : List Nat) (hj : s.Joined (rtrOfHost (f / 4))) :
    s.RegsOnly meshRegs (s.barMesh f wr pas) :=
  .foldl _ (fun _ _ _ ht => meshTo_regsOnly _ _ _ (hj.congr ht.1 (rtrOfHost_onMesh f).1) (rtrOfHost_onMesh f)) (.refl s)

section
variable {s : State} {f p off : Nat} {pas : List Nat}

theorem bar2_read {n : Nat} (hp : s.partOfFn f = some p) (hn : off + n ≤ 16 * gib)
    (hpas : (List.range n).map (fun i => s.barPlace p (s.fld (Csr.hqCpl_aperture p) * (16 * gib) + off + i) false) = pas.map some)
    (hh : ∀ pa ∈ pas, regionOf pa ≠ none) :
    s.bar2 f (.read off n) = .next (((s.barMesh f false pas).eccWords pas).emit (.readData f (pas.map (s.barMesh f false pas).byte)
      (pas.any (fun pa => (s.barMesh f false pas).poison.contains (pa / 8))))) := by
  have hin : (decide (16 * gib < off + n) || (pas.map some).any (·.isNone)) = false := by simp [hn]
  have hid : (pas.map some).filterMap id = pas := by simp [List.filterMap_map]
  simp only [State.bar2, hp, hpas, hin, hid, holeOf_eq_none hh, Bool.false_eq_true, if_false]
  rfl

theorem bar2_write {bs : List Byte} (hp : s.partOfFn f = some p) (hn : off + bs.length ≤ 16 * gib)
    (hpas : (List.range bs.length).map (fun i => s.barPlace p (s.fld (Csr.hqCpl_aperture p) * (16 * gib) + off + i) true) = pas.map some)
    (hh : ∀ pa ∈ pas, regionOf pa ≠ none) :
    s.bar2 f (.write off bs) = .next ((pas.zip bs).foldl (fun s (pa, b) => s.setByte pa b) (s.barMesh f true pas)) := by
  have hin : (decide (16 * gib < off + bs.length) || (pas.map some).any (·.isNone)) = false := by simp [hn]
  have hid : (pas.map some).filterMap id = pas := by simp [List.filterMap_map]
  simp only [State.bar2, hp, hpas, hin, hid, holeOf_eq_none hh, Bool.false_eq_true, if_false]
  rfl

/-- The condition under which an access is refused (R435). -/
theorem bar_outside {n : Nat} {wr : Bool} {base : Nat} (h : 16 * gib < off + n ∨ ∃ i, i < n ∧ s.barPlace p (base + off + i) wr = none) :
    (decide (16 * gib < off + n) || ((List.range n).map (fun i => s.barPlace p (base + off + i) wr)).any (·.isNone)) = true := by
  rw [Bool.or_eq_true, decide_eq_true_eq, List.any_map, List.any_eq_true]
  exact h.imp_right fun ⟨i, hi, hn⟩ => ⟨i, List.mem_range.mpr hi, Option.isNone_iff_eq_none.mpr hn⟩

theorem bar2_read_refused {n : Nat} (hp : s.partOfFn f = some p)
    (h : 16 * gib < off + n ∨ ∃ i, i < n ∧ s.barPlace p (s.fld (Csr.hqCpl_aperture p) * (16 * gib) + off + i) false = none) :
    s.bar2 f (.read off n) = .next (s.barRefuse p f) := by
  simp only [State.bar2, hp, bar_outside h, if_true]

theorem bar2_write_refused {bs : List Byte} (hp : s.partOfFn f = some p)
    (h : 16 * gib < off + bs.length ∨
      ∃ i, i < bs.length ∧ s.barPlace p (s.fld (Csr.hqCpl_aperture p) * (16 * gib) + off + i) true = none) :
    s.bar2 f (.write off bs) = .next (s.barRefuse p f) := by
  simp only [State.bar2, hp, bar_outside h, if_true]

end

theorem lastWrite_cons (pa a : Nat) (b : Byte) (ws : List (Nat × Byte)) :
    lastWrite ((pa, b) :: ws) a = (lastWrite ws a).or (if pa = a then some b else none) := by
  have from_ (r : Option Byte) : ws.foldl (fun r w => if w.1 = a then some w.2 else r) r = (lastWrite ws a).or r := by
    unfold lastWrite
    induction ws using List.reverseRecOn with
    | nil => rfl
    | append_singleton ws w ih =>
      simp only [List.foldl_append, List.foldl_cons, List.foldl_nil, ih]
      split
      · rfl
      · rfl
  exact from_ _

theorem setByte_zip_wrote (ws : List (Nat × Byte)) (s : State) : s.Wrote (ws.foldl (fun s (pa, b) => s.setByte pa b) s) ws := by
  induction ws generalizing s with
  | nil => exact fun a => rfl
  | cons w ws ih =>
    obtain ⟨pa, b⟩ := w
    intro a
    rw [List.foldl_cons, ih, lastWrite_cons, State.byte_setByte]
    cases lastWrite ws a with
    | some x => rfl
    | none =>
      rw [Option.none_or]
      split
      · rfl
      · rfl

theorem setByte_zip_changes (ws : List (Nat × Byte)) (s : State) :
    OnlyChanges [.mem, .poison] s (ws.foldl (fun s (pa, b) => s.setByte pa b) s) := by
  induction ws generalizing s with
  | nil => exact .refl _ s
  | cons w ws ih =>
    refine OnlyChanges.trans (fun f hf => ?_) (ih _) (List.Subset.refl _)
    cases f with
    | mem => exact absurd (.head _) hf
    | poison => exact absurd (.tail _ (.head _)) hf
    | _ => rfl

/-- An event of a partition goes to its queue, and its host hears of it. -/
theorem event_changes (s : State) (p type unit detail : Nat) : OnlyChanges [.csr, .parts, .out] s (s.event p type unit detail) := by
  intro g hg
  cases g with
  | csr => exact absurd (.head _) hg
  | parts => exact absurd (.tail _ (.head _)) hg
  | out => exact absurd (.tail _ (.tail _ (.head _))) hg
  | _ => simp [Comp.same]

theorem event_regs (s : State) (p type unit detail : Nat) : OnlyRegs [Csr.hqEvq p] s (s.event p type unit detail) := by
  intro o ho
  unfold State.event
  extract_lets depth n w0 fn
  split
  · rfl
  · exact State.reg_count_other _ _ _ _ fun h => ho (List.mem_singleton.mpr h.symm)

theorem event_out (s : State) (p type unit detail : Nat) {o : Out} (ho : o ∈ s.out) : o ∈ (s.event p type unit detail).out := by
  unfold State.event
  extract_lets depth n w0 fn
  split
  · simp [State.emit, ho]
  · rw [State.count_out]
    exact ho

theorem emit_regs {offs : List Nat} (s : State) (o : Out) : OnlyRegs offs s (s.emit o) := fun _ _ => rfl

theorem emit_changes (s : State) (o : Out) : OnlyChanges [.out] s (s.emit o) := by
  intro g hg
  cases g with
  | out => exact absurd (.head _) hg
  | _ => rfl

/-- A refusal: a completer abort, and an event of the partition. -/
theorem barRefuse_frame (s : State) (p f : Nat) :
    Out.completerAbort f ∈ (s.barRefuse p f).out ∧ OnlyRegs [Csr.hqEvq p] s (s.barRefuse p f) ∧
      OnlyChanges [.csr, .parts, .out] s (s.barRefuse p f) := by
  unfold State.barRefuse
  exact ⟨event_out _ _ _ _ _ (List.mem_append_right _ (.head _)), (emit_regs s _).trans (event_regs _ _ _ _ _),
    (emit_changes s _).comp (event_changes _ _ _ _ _) (by decide) (List.Subset.refl _)⟩

/-- What a refused access leaves. -/
theorem exec_bar2Access_refused {s : State} {f : FuncId} {p : Nat} {acc : BarAccess} (hup : s.hostUp f = true)
    (h : s.bar2 f acc = .next (s.barRefuse p f)) :
    ∃ t, exec (.bar2Access f acc) s = .next t ∧ Out.completerAbort f ∈ t.out ∧ OnlyRegs [Csr.hqEvq p] s t ∧
      OnlyChanges [.csr, .parts, .out] s t :=
  ⟨_, exec_bar2Access hup h ((barRefuse_frame s p f).2.2 .pending (by decide)), barRefuse_frame s p f⟩

theorem exec_bar2Access_read {s : State} {f : FuncId} {pas : List Nat} {off n : Nat} (hup : s.hostUp f = true)
    (hj : s.Joined (rtrOfHost (f / 4)))
    (h : s.bar2 f (.read off n) = .next (((s.barMesh f false pas).eccWords pas).emit (.readData f (pas.map (s.barMesh f false pas).byte)
      (pas.any (fun pa => (s.barMesh f false pas).poison.contains (pa / 8)))))) :
    ∃ t, exec (.bar2Access f (.read off n)) s = .next t ∧
      t.out = s.out ++ [.readData f (pas.map s.byte) (pas.any (fun pa => s.poison.contains (pa / 8)))] ∧
      (∀ o, o ∉ meshRegs → t.reg o = (s.eccWords pas).reg o) ∧ OnlyChanges [.csr, .out] s t := by
  have hm := barMesh_regsOnly f false pas hj
  have hx := eccWords_changes (s.barMesh f false pas) pas
  have ht (o : Out) : OnlyChanges [.csr, .out] s (((s.barMesh f false pas).eccWords pas).emit o) :=
    (hm.2.trans hx (List.Subset.refl _)).comp (emit_changes _ _) (by decide) (by decide)
  refine ⟨_, exec_bar2Access hup h (ht _ .pending (by decide)), ?_, fun o ho => hm.1.eccWords hm.poison pas o ho, ht _⟩
  have hout : ((s.barMesh f false pas).eccWords pas).out = s.out := (hx .out (by decide)).trans hm.out
  have hbyte : (s.barMesh f false pas).byte = s.byte := funext hm.byte
  rw [hbyte, hm.poison]
  simp only [State.emit, hout]

theorem exec_bar2Access_write {s : State} {f : FuncId} {pas : List Nat} {off : Nat} {bs : List Byte} (hup : s.hostUp f = true)
    (hj : s.Joined (rtrOfHost (f / 4)))
    (h : s.bar2 f (.write off bs) = .next ((pas.zip bs).foldl (fun s (pa, b) => s.setByte pa b) (s.barMesh f true pas))) :
    ∃ t, exec (.bar2Access f (.write off bs)) s = .next t ∧ s.Wrote t (pas.zip bs) ∧ OnlyRegs meshRegs s t ∧
      OnlyChanges [.csr, .mem, .poison] s t := by
  have hm := barMesh_regsOnly f true pas hj
  have hw := setByte_zip_changes (pas.zip bs) (s.barMesh f true pas)
  have ht := hm.2.comp (us := [.csr, .mem, .poison]) hw (by decide) (by decide)
  refine ⟨_, exec_bar2Access hup h (ht .pending (by decide)), fun a => ?_, fun o ho => ?_, ht⟩
  · rw [setByte_zip_wrote, hm.byte]
  · have hcsr := hw .csr (by decide)
    unfold Comp.same at hcsr
    rw [← hm.1 o ho, State.reg, State.reg, hcsr]

/-! The obligation. -/

/-- Settles O51: a register write is the fields' writes where the register has no effect of its own; what BAR2 carries moves the counters of the
mesh only, so that its bytes are read and written as the state has them; and the Seal's answers are emitted. -/
theorem hostsReachRegistersAndMemory : Obligations.HostsReachRegistersAndMemory := by
  unfold Obligations.HostsReachRegistersAndMemory
  intro s
  refine ⟨fun w off v => ⟨fun hf => ?_, fun f is hf => ⟨fun h => ?_, fun hm hr hn hs => ?_⟩⟩, fun f acc hup => ?_, fun f acc hup hp => ?_,
    fun f p off hup hp hj => ⟨fun n pas hn hpas hh => ?_, fun bs pas hn hpas hh => ?_, fun n h => ?_, fun bs h => ?_⟩,
    fun f bs => ⟨fun hup hseal => ⟨?_, ?_⟩, fun h msg => ?_⟩⟩
  · rw [exec_registerWrite, regWrite_nowhere hf]
  · rw [exec_registerWrite, regWrite_refused hf h]
  · refine ⟨_, exec_registerWrite w off v s, ?_⟩
    rw [regWrite_plain hf hm hr hn hs]
    obtain ⟨hregs, hrest⟩ := setReg_regsOnly s off _
    exact ⟨State.reg_setReg_same s off _, hregs, hrest⟩
  · show execBar2Access f acc s = _
    simp only [execBar2Access, hup, Bool.false_eq_true, if_false]
  · exact exec_bar2Access hup (by simp only [State.bar2, hp]) rfl
  · exact exec_bar2Access_read hup hj (bar2_read hp hn hpas hh)
  · exact exec_bar2Access_write hup hj (bar2_write hp hn hpas hh)
  · exact exec_bar2Access_refused hup (bar2_read_refused hp h)
  · exact exec_bar2Access_refused hup (bar2_write_refused hp h)
  · show execHostSpdmDoe f (.doe bs) s = _
    simp only [execHostSpdmDoe, answer_eq, hup, hseal, Bool.not_true, Bool.or_self, Bool.false_eq_true, if_false]
    rfl
  · show execHostSpdmDoe f (.mctp bs) s = _
    simp only [execHostSpdmDoe, answer_eq, hup, hseal, Bool.not_true, Bool.or_self, Bool.false_eq_true, if_false]
    split
    · rfl
    · rfl
  · have hno : (!s.hostUp f || !s.dev.sealUp) = true := by
      obtain h | h := h
      · rw [h, Bool.not_false, Bool.true_or]
      · rw [h, Bool.not_false, Bool.or_true]
    show execHostSpdmDoe f msg s = _
    simp only [execHostSpdmDoe, answer_eq, hno, if_true]

end Sys2Proof.Machine
end

section
/-!
PROOFS. PRODUCT at issue (R15, R159, R170): the fault tables that traffic leaves alone, the tiles of a product without K-rows, and the
runs that a product puts on the route.
-/
namespace Sys2Proof.Machine

/-! The fault tables. -/

/-- The registers in the first 256 bytes of each page of 4 KiB read the same. Among them are the fault tables: failed routers, failed links
and the states of the Pass channels (R243, R248). -/
def State.SameTables (s t : State) : Prop := ∀ o, o % 0x1000 < 0x100 → t.reg o = s.reg o

namespace State.SameTables
variable {s t u : State}

theorem refl (s : State) : s.SameTables s := fun _ _ => rfl

theorem trans (h : s.SameTables t) (k : t.SameTables u) : s.SameTables u := fun o ho => (k o ho).trans (h o ho)

theorem of_csr (h : t.csr = s.csr) : s.SameTables t := fun o _ => by unfold State.reg; rw [h]

theorem fld (h : s.SameTables t) {r : FieldRef} (hr : r.off % 0x1000 < 0x100) : t.fld r = s.fld r := by
  unfold State.fld
  rw [h _ hr]

theorem linkFailed (h : s.SameTables t) (a b : Rtr) : t.linkFailed a b = s.linkFailed a b := by
  have hh : t.fld (Csr.mshLinkfault_hLinks a.half) = s.fld (Csr.mshLinkfault_hLinks a.half) :=
    h.fld (by simp only [Csr.mshLinkfault_hLinks, Csr.mshLinkfault]; omega)
  have hv : t.fld (Csr.mshLinkfault_vLinks a.half) = s.fld (Csr.mshLinkfault_vLinks a.half) :=
    h.fld (by simp only [Csr.mshLinkfault_vLinks, Csr.mshLinkfault]; omega)
  simp only [State.linkFailed, hh, hv]

theorem pathOk (h : s.SameTables t) (p : List Rtr) : t.pathOk p = s.pathOk p := by
  have hr (k : Nat) : t.fld (Csr.mshFault_failedRouters k) = s.fld (Csr.mshFault_failedRouters k) :=
    h.fld (by simp only [Csr.mshFault_failedRouters, Csr.mshFault]; omega)
  simp only [State.pathOk, hr, h.linkFailed]

theorem chanOpen (h : s.SameTables t) {c : Nat} (hc : c < 16) : t.chanOpen c = s.chanOpen c := by
  unfold State.chanOpen
  rw [h.fld (by simp only [Csr.pasChan_state, Csr.pasChan]; omega)]

theorem pickChan (h : s.SameTables t) (src plane col : Nat) : t.pickChan src plane col = s.pickChan src plane col := by
  have own (k : Nat) : ((chansOf col)[k]?).filter t.chanOpen = ((chansOf col)[k]?).filter s.chanOpen := by
    cases hk : (chansOf col)[k]? with
    | none => rfl
    | some c => simp only [Option.filter, h.chanOpen (lt_of_mem_chansOf (List.mem_of_getElem? hk))]
  have side (x : Nat) : (chansOf x).find? t.chanOpen = (chansOf x).find? s.chanOpen :=
    List.find?_congr fun c hc => h.chanOpen (lt_of_mem_chansOf hc)
  simp only [State.pickChan, own, side]

theorem route (h : s.SameTables t) (a b : Rtr) (plane : Nat) : t.route a b plane = s.route a b plane := by
  simp only [State.route, h.pickChan, h.pathOk]

theorem joined (h : s.SameTables t) {a : Rtr} (hj : s.Joined a) : t.Joined a := by
  intro r hr hra pl hpl
  rw [h.route, h.route]
  exact hj r hr hra pl hpl

end State.SameTables

/-! Routes of any two routers of the mesh's rows and columns, in whatever half. -/

/-- A router of a row and a column that a half has. -/
def Rtr.OnGrid (r : Rtr) : Prop := r.row < 4 ∧ r.col < 8

/-- The same router of the west half. -/
def Rtr.west (r : Rtr) : Rtr := { r with half := 0 }

theorem Rtr.onMesh_west {r : Rtr} : r.west.OnMesh ↔ r.OnGrid := by
  simp [Rtr.west, Rtr.OnMesh, Rtr.OnGrid]

theorem west_hvPath {h r c r' c' : Nat} {x : Rtr} (hx : x ∈ hvPath h r c r' c') : x.west ∈ hvPath 0 r c r' c' := by
  simp only [hvPath, List.mem_append, List.mem_map] at hx ⊢
  obtain ⟨y, hy, rfl⟩ | ⟨y, hy, rfl⟩ := hx
  · exact .inl ⟨y, hy, rfl⟩
  · exact .inr ⟨y, hy, rfl⟩

theorem west_vhPath {h r c r' c' : Nat} {x : Rtr} (hx : x ∈ vhPath h r c r' c') : x.west ∈ vhPath 0 r c r' c' := by
  simp only [vhPath, List.mem_append, List.mem_map] at hx ⊢
  obtain ⟨y, hy, rfl⟩ | ⟨y, hy, rfl⟩ := hx
  · exact .inl ⟨y, hy, rfl⟩
  · exact .inr ⟨y, hy, rfl⟩

theorem onGrid_hvPath {h r c r' c' : Nat} {x : Rtr} (hr : r < 4 ∧ r' < 4) (hc : c < 8 ∧ c' < 8) (hx : x ∈ hvPath h r c r' c') : x.OnGrid :=
  Rtr.onMesh_west.mp (onMesh_hvPath (by decide) hr hc (west_hvPath hx))

theorem onGrid_vhPath {h r c r' c' : Nat} {x : Rtr} (hr : r < 4 ∧ r' < 4) (hc : c < 8 ∧ c' < 8) (hx : x ∈ vhPath h r c r' c') : x.OnGrid :=
  Rtr.onMesh_west.mp (onMesh_vhPath (by decide) hr hc (west_vhPath hx))

theorem onGrid_primaryPath {a b : Rtr} {col : Nat} {x : Rtr} (ha : a.OnGrid) (hb : b.OnGrid) (hc : col < 8)
    (hx : x ∈ primaryPath a b col) : x.OnGrid := by
  unfold primaryPath at hx
  split at hx
  · exact onGrid_hvPath ⟨ha.1, hb.1⟩ ⟨ha.2, hb.2⟩ hx
  · obtain hx | hx := List.mem_append.mp hx
    · exact onGrid_hvPath ⟨ha.1, by decide⟩ ⟨ha.2, hc⟩ hx
    · exact onGrid_vhPath ⟨by decide, hb.1⟩ ⟨hc, hb.2⟩ hx

theorem onGrid_verticalPath {a b : Rtr} {col : Nat} {x : Rtr} (ha : a.OnGrid) (hb : b.OnGrid) (hc : col < 8)
    (hx : x ∈ verticalPath a b col) : x.OnGrid := by
  unfold verticalPath at hx
  split at hx
  · exact onGrid_vhPath ⟨ha.1, hb.1⟩ ⟨ha.2, hb.2⟩ hx
  · obtain hx | hx := List.mem_append.mp hx
    · exact onGrid_vhPath ⟨ha.1, by decide⟩ ⟨ha.2, hc⟩ hx
    · exact onGrid_hvPath ⟨by decide, hb.1⟩ ⟨hc, hb.2⟩ hx

/-- A route visits routers of the grid, and crosses by one of the Pass's channels. -/
theorem route_onGrid {s : State} {a b : Rtr} (ha : a.OnGrid) (hb : b.OnGrid) (plane : Nat) :
    (∀ x ∈ (s.route a b plane).path, x.OnGrid) ∧ ∀ c ∈ (s.route a b plane).chan, c < 16 := by
  unfold State.route
  extract_lets ch col moved p v
  have hch : ∀ c ∈ ch, c < 16 := by
    intro c hc
    unfold ch at hc
    split at hc
    · cases hc
    · exact pickChan_lt hc
  have hcol : col < 8 := by
    unfold col
    cases ch with
    | none => exact hb.2
    | some c => exact colOfChan_lt c
  have hp : ∀ x ∈ p, x.OnGrid := fun x hx => onGrid_primaryPath ha hb hcol hx
  have hv : ∀ x ∈ v, x.OnGrid := fun x hx => onGrid_verticalPath ha hb hcol hx
  split_ifs
  · exact ⟨fun x hx => (nomatch hx), fun c hc => (nomatch hc)⟩
  · exact ⟨hp, hch⟩
  · exact ⟨hv, hch⟩
  · exact ⟨hp, hch⟩
  · exact ⟨fun x hx => (nomatch hx), fun c hc => (nomatch hc)⟩

theorem rtrOfCar_onGrid (c : Nat) : (rtrOfCar c).OnGrid := by
  have hcol : ∀ k < 12, carCol k < 8 := by decide
  exact ⟨show 1 + c % 2 < 4 by omega, hcol _ (Nat.mod_lt _ (by decide))⟩

end Sys2Proof.Machine
end

section
/-!
PROOFS. What the tiles of a product without K-rows change when they run (R170): the tallies and banks, memory, the partition's own
execution and holds, and counters; the fault tables stay.
-/
namespace Sys2Proof.Machine

/-- Nothing reads poisoned data where none is stored. -/
theorem poisonCheck_of_clean {s : State} {p unit off : Nat} {rs : List (Nat × Nat × Nat)} (h : s.poison = []) :
    s.poisonCheck p unit off rs = none := by
  have hnone : rs.findSome? (fun r => (s.poisonIn p r.1 r.2.1 r.2.2).map (fun x => (r.1, x))) = none :=
    List.findSome?_eq_none_iff.mpr fun r _ => by simp [State.poisonIn, h]
  simp only [State.poisonCheck, hnone]

/-- The pieces of the state that tiles change. -/
def tileComps : List Comp := [.csr, .mem, .poison, .tally, .banks, .parts, .free]

/-- Tiles of partition p have been written. -/
structure State.TileWork (p : Nat) (s t : State) : Prop where
  tables : s.SameTables t
  part : OnlyPart p s t
  poison : s.poison = [] → t.poison = []
  comps : OnlyChanges tileComps s t

namespace State.TileWork
variable {p : Nat} {s t u : State}

theorem refl (s : State) : s.TileWork p s := ⟨.refl s, fun _ _ => rfl, id, .refl _ s⟩

theorem trans (h : s.TileWork p t) (k : t.TileWork p u) : s.TileWork p u :=
  ⟨h.tables.trans k.tables, fun q hq => (k.part q hq).trans (h.part q hq), fun hs => k.poison (h.poison hs),
    h.comps.trans k.comps (List.Subset.refl _)⟩

theorem ite {c : Prop} [Decidable c] (ht : s.TileWork p t) (hu : s.TileWork p u) : s.TileWork p (if c then t else u) := by
  split
  · exact ht
  · exact hu

/-- A loop in each of whose rounds tiles are written. -/
theorem foldl {α : Type} {f : State → α → State} {l : List α} (h : s.TileWork p t)
    (hf : ∀ a ∈ l, ∀ t, s.TileWork p t → s.TileWork p (f t a)) : s.TileWork p (l.foldl f t) :=
  List.foldlRecOn l f h fun t ht a ha => hf a ha t ht

/-- The same for a loop that carries more than the state. -/
theorem foldlFst {α β : Type} {f : State × β → α → State × β} {l : List α} {x : State × β} (h : s.TileWork p x.1)
    (hf : ∀ x a, s.TileWork p x.1 → s.TileWork p (f x a).1) : s.TileWork p (l.foldl f x).1 := by
  induction l generalizing x with
  | nil => exact h
  | cons a l ih => exact ih (hf x a h)

/-! The elementary updates. -/

theorem setReg {o w} (h : s.TileWork p t) (ho : 0x100 ≤ o % 0x1000) : s.TileWork p (t.setReg o w) := by
  refine h.trans ⟨fun o' ho' => ?_, fun _ _ => rfl, id, fun f hf => ?_⟩
  · rw [State.reg_setReg, if_neg (by rintro rfl; omega)]
  · exact (setReg_regsOnly t o w).2.widen (by decide) f hf

theorem setFld {r v} (h : s.TileWork p t) (hr : 0x100 ≤ r.off % 0x1000) : s.TileWork p (t.setFld r v) := h.setReg hr
theorem count {r n} (h : s.TileWork p t) (hr : 0x100 ≤ r.off % 0x1000) : s.TileWork p (t.count r n) := h.setReg hr
theorem keepMax {r n} (h : s.TileWork p t) (hr : 0x100 ≤ r.off % 0x1000) : s.TileWork p (t.keepMax r n) := h.setReg hr

theorem setByte {a b} (h : s.TileWork p t) : s.TileWork p (t.setByte a b) := by
  refine h.trans ⟨.of_csr rfl, fun _ _ => rfl, fun ht => by simp [State.setByte, ht], fun f hf => ?_⟩
  cases f with
  | mem | poison => exact absurd (by decide) hf
  | _ => rfl

theorem setBank {k x} (h : s.TileWork p t) : s.TileWork p (t.setBank k x) := by
  refine h.trans ⟨.of_csr rfl, fun _ _ => rfl, id, fun f hf => ?_⟩
  cases f with
  | banks => exact absurd (by decide) hf
  | _ => rfl

theorem setEntry {k x} (h : s.TileWork p t) : s.TileWork p (t.setEntry k x) := by
  refine h.trans ⟨.of_csr rfl, fun _ _ => rfl, id, fun f hf => ?_⟩
  cases f with
  | tally => exact absurd (by decide) hf
  | _ => rfl

theorem updPart {f} (h : s.TileWork p t) : s.TileWork p (t.updPart p f) := by
  refine h.trans ⟨.of_csr rfl, fun q hq => State.part_updPart_other _ _ _ _ hq, id, fun f hf => ?_⟩
  cases f with
  | parts => exact absurd (by decide) hf
  | _ => rfl

theorem draw (h : s.TileWork p t) : s.TileWork p t.draw.2 := by
  refine h.trans ⟨.of_csr rfl, fun _ _ => rfl, id, fun f hf => ?_⟩
  cases f with
  | free => exact absurd (by decide) hf
  | _ => rfl

theorem setExec {e} (h : s.TileWork p t) : s.TileWork p (t.setExec p e) := h.updPart

theorem updExec {f} (h : s.TileWork p t) : s.TileWork p (t.updExec p f) := by
  unfold State.updExec
  split
  · exact h.setExec
  · exact h

/-! Holds and latency classes. -/

theorem hold {src len} (h : s.TileWork p t) (hs : src < 10) : s.TileWork p (t.hold p src len) :=
  (((h.updPart.setFld (by simp only [Csr.prtHold_lastSource, Csr.prtHold]; omega)).count
    (by simp only [Csr.prtHoldSrc_events, Csr.prtHoldSrc]; omega)).draw).keepMax (by simp only [Csr.prtHold_skewMax, Csr.prtHold]; omega)

theorem excess {cls} (h : s.TileWork p t) : s.TileWork p (t.excess p cls) := by
  unfold State.excess
  split
  · exact h
  · exact .ite ((h.hold (by decide)).count (by simp only [Csr.prtLatency_excessCompletions, Csr.prtLatency]; omega)) h

theorem useClass {cls v} (h : s.TileWork p t) : s.TileWork p (t.useClass p cls v) := by
  unfold State.useClass
  split
  · exact h
  · exact .ite h.setExec (h.setExec.hold (by decide))

theorem rangeEvents {c stn ovf unf} (h : s.TileWork p t) : s.TileWork p (t.rangeEvents p c stn ovf unf) := by
  unfold State.rangeEvents
  extract_lets t1
  have h1 : s.TileWork p t1 :=
    .ite h (h.count (by simp only [Csr.stnRangeOut_ovfCount, Csr.stnRangeOut]; omega)).updExec
  exact .ite h1 (h1.count (by simp only [Csr.stnRangeOut_unfCount, Csr.stnRangeOut]; omega)).updExec

/-! The mesh. -/

theorem countFlits {path chans k n} (h : s.TileWork p t) (hp : ∀ x ∈ path, Rtr.OnGrid x) (hc : ∀ c ∈ chans, c < 16) :
    s.TileWork p (t.countFlits path chans k n) := by
  refine foldl (foldl h fun r hr _ h1 => h1.count ?_) fun c hm _ h1 => h1.count ?_
  · have := hp r hr
    unfold Rtr.OnGrid at this
    simp only [Csr.mshRouter_flits, Csr.mshRouter, Rtr.inst]
    omega
  · have := hc c hm
    split
    · simp only [Csr.pasBeats_weBeats, Csr.pasBeats]; omega
    · simp only [Csr.pasBeats_ewBeats, Csr.pasBeats]; omega

theorem sendMesh {k a b pl n} (h : s.TileWork p t) (ha : a.OnGrid) (hb : b.OnGrid) : s.TileWork p (t.sendMesh k a b pl n) := by
  obtain ⟨hp, hc⟩ := route_onGrid (s := t) ha hb pl
  unfold State.sendMesh
  extract_lets r t1
  split
  · exact h
  · have h1 : s.TileWork p t1 := h.countFlits hp fun c hm => hc c (Option.mem_toList.mp hm)
    refine .ite h1 (h1.count ?_)
    unfold Rtr.OnGrid at ha
    simp only [Csr.mshRouter_detoured, Csr.mshRouter, Rtr.inst]
    omega

theorem memRtrs_onGrid {r : Rtr} (h : r ∈ memRtrs) : r.OnGrid := (memRtrs_onMesh r h).2

theorem meshTo {store a pa n} (h : s.TileWork p t) (hj : s.Joined a) (ha : a.OnGrid) : s.TileWork p (t.meshTo store a pa n) := by
  refine foldl h fun x _ v hv => ?_
  obtain ⟨b, m⟩ := x
  dsimp only
  split
  · exact hv
  · rename_i r hr
    have hm := rtrOfPa_mem_memRtrs hr
    split
    · exact hv
    · rename_i hra
      obtain ⟨hto, hback⟩ := hv.tables.joined hj r hm hra _ (planeOf_lt b)
      rw [hto, hback]
      exact (hv.sendMesh ha (memRtrs_onGrid hm)).sendMesh (memRtrs_onGrid hm) ha

theorem meshRow {store a g va n} (h : s.TileWork p t) (hj : s.Joined a) (ha : a.OnGrid) : s.TileWork p (t.meshRow store a p g va n) := by
  unfold State.meshRow
  split
  · exact h.meshTo hj ha
  · exact h

/-- One caravan fetches bytes from a memory that it reaches. -/
theorem fetchRange {c pa n} (h : s.TileWork p t) (hj : s.Joined (rtrOfCar c)) : s.TileWork p (t.fetchRange [c] pa n) := by
  unfold State.fetchRange
  split
  · rename_i c' more r hc hr
    obtain ⟨rfl, rfl⟩ := List.cons.inj hc
    have hm := rtrOfPa_mem_memRtrs hr
    have hg := rtrOfCar_onGrid c
    dsimp only
    split
    · exact h
    · rename_i hne
      have hrc : r ≠ rtrOfCar c := fun he => hne (by simp [he])
      obtain ⟨hto, hback⟩ := h.tables.joined hj r hm hrc _ (planeOf_lt pa)
      simp only [List.any_cons, List.any_nil, hto, hback, hrc, Bool.not_true, Bool.or_false, Bool.false_eq_true, if_false,
        List.isEmpty_nil, if_true]
      exact (h.sendMesh hg (memRtrs_onGrid hm)).sendMesh (memRtrs_onGrid hm) hg
  · exact h

theorem fetchRows {c rs} (h : s.TileWork p t) (hj : s.Joined (rtrOfCar c)) : s.TileWork p (t.fetchRows [c] rs) :=
  foldl h fun _ _ _ h1 => foldl h1 fun _ _ _ h2 => h2.fetchRange hj

theorem fetchVecs {g ds} (h : s.TileWork p t) (hj : s.Joined (rtrOfCar (g / 8))) : s.TileWork p (t.fetchVecs p [g] ds) := by
  refine foldl h fun c hc _ h1 => foldl h1 fun _ _ _ h2 => .ite h2 (h2.fetchRows ?_)
  obtain rfl : c = g / 8 := by simpa using hc
  exact hj

/-! Rows and tiles written. -/

theorem setVbyte {g va b} (h : s.TileWork p t) : s.TileWork p (t.setVbyte p g va b) := by
  unfold State.setVbyte
  split
  · exact h.setByte
  · exact h

theorem setVbytes {g va bs} (h : s.TileWork p t) : s.TileWork p (t.setVbytes p g va bs) := by
  induction bs generalizing t va with
  | nil => exact h
  | cons b bs ih => exact ih h.setVbyte

theorem writeRow {g d k j col0 row col vs} (h : s.TileWork p t) (hj : s.Joined (rtrOfCar (g / 8))) :
    s.TileWork p (t.writeRow p g d k j col0 row col vs).1 := by
  have hg := rtrOfCar_onGrid (g / 8)
  unfold State.writeRow
  dsimp only
  split
  · exact foldlFst ((h.meshRow hj hg).meshRow hj hg) fun _ _ h1 => h1.setVbytes.setVbyte
  · exact foldlFst (h.meshRow hj hg) fun _ _ h1 => h1.setVbytes

theorem drainTile {g key hi k d rs cs} (h : s.TileWork p t) (hj : s.Joined (rtrOfCar (g / 8))) :
    s.TileWork p (t.drainTile p g key hi k d rs cs) :=
  foldl h fun _ _ _ h1 => .ite (h1.writeRow hj).rangeEvents h1

theorem finishTile {u g pi last} (h : s.TileWork p t) (hj : s.Joined (rtrOfCar (g / 8))) : s.TileWork p (t.finishTile p u g pi last) := by
  unfold State.finishTile
  split
  · exact h
  · extract_lets key x b0 t0 t1 t2 until_ t3 t4 b5 t5
    have h3 : s.TileWork p t3 := ((h.fetchVecs hj).drainTile hj).useClass.excess
    have h4 : s.TileWork p t4 := .ite h3.useClass.excess h3
    exact .ite h.setBank.updExec h4.setBank.updExec

/-- A pass opens: it resumes no running sum, or no stored word is poisoned (R107). -/
theorem openBank {u g pi mask} (h : s.TileWork p t) (hr : (Run.rcd u).resume = 0 ∨ s.poison = []) :
    s.TileWork p (t.openBank p u g pi mask) := by
  have h1 {x} : s.TileWork p (t.setBank (u.key g pi) x) := h.setBank
  unfold State.openBank
  dsimp only
  split
  · rename_i va hva
    have hp : s.poison = [] := hr.resolve_left fun h0 => by simp [State.resumeVa, h0] at hva
    rw [poisonCheck_of_clean (h1.poison hp)]
    exact foldl (h1.setBank.count (by simp only [Csr.stnRsum_resumes, Csr.stnRsum]; omega)) fun _ _ _ h2 =>
      .ite (foldl h2 fun _ _ _ h3 => h3.setEntry) h2
  · exact h1

/-- The tiles of a run without K-rows (R170). -/
theorem zeroTiles {u} (h : s.TileWork p t) (hj : ∀ g ∈ Run.stns u, s.Joined (rtrOfCar (g / 8)))
    (hr : (Run.rcd u).resume = 0 ∨ s.poison = []) : s.TileWork p (t.zeroTiles p u) := by
  refine foldl h fun g hg _ h1 => foldl h1 fun pi _ v h2 => ?_
  dsimp only
  have h3 {mask} : s.TileWork p (v.openBank p u g pi mask) := h2.openBank hr
  refine .ite (.ite h3 (finishTile (.ite h3 (foldl h3 fun _ _ _ h4 => ?_)) (hj g hg))) h2
  exact .ite (foldl h4 fun _ _ _ h5 => h5.setEntry) h4

end State.TileWork
end Sys2Proof.Machine
end

section
/-!
PROOFS. PRODUCT enters its units and the route (R15, R159).
-/
namespace Sys2Proof.Machine

/-! What a product reads is the same in the state its effect starts from. -/

theorem State.Alike.shape {s t : State} (a : State.Alike s t) (x : Ctx) (r : PRec) : t.shape x r = s.shape x r := by
  unfold State.shape
  rw [a.scopeCars]

theorem State.Alike.productRuns {s t : State} (a : State.Alike s t) (hc : t.cars = s.cars) (x : Ctx) (e : Exec) :
    t.productRuns x e = s.productRuns x e := by
  have hcar (c : Nat) : t.car c = s.car c := by unfold State.car; rw [hc]
  have hd : t.descBytes x = s.descBytes x := funext (a.descBytes x)
  simp only [State.productRuns, a.record, a.shape, hd, hcar]

theorem State.took_cars (s : State) (x : Ctx) : (s.took x).cars = s.cars := State.took_frame s x .cars (by decide)

/-- The runs of a product have its number of K-rows, its record, its offset and its order; each lies in a caravan of the scope, with
stations of that caravan. -/
theorem mem_productRuns {s : State} {x : Ctx} {e : Exec} {c : Nat} {u : Run} (h : (c, u) ∈ s.productRuns x e) :
    u.rcd = parseRec (s.record x.p x.hdr x.pRec) ∧ c ∈ s.scopeCars x ∧ ∀ g ∈ u.stns, g / 8 = c := by
  simp only [State.productRuns, List.mem_map, List.mem_filter] at h
  obtain ⟨⟨c', i⟩, ⟨hmem, -⟩, hcu⟩ := h
  obtain ⟨rfl, rfl⟩ := Prod.mk.inj hcu
  refine ⟨rfl, List.fst_mem_of_mem_zipIdx hmem, fun g hg => ?_⟩
  simp only [Shape.stns, State.shape] at hg
  split at hg
  · rename_i k hk
    split at hk
    · have hlt : bitsOf x.sel 8 3 < 8 := bitsOf_lt _ _ _
      cases hk
      obtain rfl := List.mem_singleton.mp hg
      omega
    · cases hk
  · obtain ⟨j, hj, rfl⟩ := List.mem_map.mp hg
    have := List.mem_range.mp hj
    omega

/-! Runs on the route. -/

/-- Runs join the routes of their caravans, behind those already there (R15). -/
def State.routed (s : State) (rs : List (Nat × Run)) : State :=
  rs.foldl (fun s (c, u) => s.updCar c (fun k => { k with runs := k.runs ++ [u] })) s

theorem State.car_routed (rs : List (Nat × Run)) (s : State) (c : Nat) :
    (s.routed rs).car c = { s.car c with runs := (s.car c).runs ++ (rs.filter (·.1 = c)).map (·.2) } := by
  induction rs generalizing s with
  | nil => simp [State.routed]
  | cons r rs ih =>
    obtain ⟨d, u⟩ := r
    have h1 : s.routed ((d, u) :: rs) = (s.updCar d (fun k => { k with runs := k.runs ++ [u] })).routed rs := rfl
    rw [h1, ih, State.car_updCar]
    by_cases h : d = c
    · subst h
      simp
    · simp [h]

theorem State.routed_frame (rs : List (Nat × Run)) (s : State) : OnlyChanges [.cars] s (s.routed rs) := by
  induction rs generalizing s with
  | nil => exact .refl _ s
  | cons r rs ih =>
    refine OnlyChanges.trans (fun f hf => ?_) (ih _) (List.Subset.refl _)
    cases f with
    | cars => exact absurd (.head _) hf
    | _ => rfl

/-! A product with output elements at its issue. -/

/-- Its command enters its units, its destination may be undefined from now on, and its runs join the routes (R15, R151, R159). -/
def State.productEnters (s : State) (x : Ctx) (e : Exec) : State :=
  let z := s.shape x (parseRec (s.record x.p x.hdr x.pRec))
  let s' := s.enter x ((s.scopeStns x).flatMap (fun g => [arrayUnit g, tallyUnit g])) none (if x.pDst = 0 then min 2 z.passes else 0)
    z.tiles.length []
  (if x.pDst = 0 then s' else s'.dest x.p (s'.rowsOf x.p ((z.tiles.map (·.2)).eraseDups) (s'.desc x.p x.hdr x.pDst))).routed
    (s.productRuns x e)

theorem clsProduct_start_empty {s : State} {x : Ctx} {e : Exec} (he : s.exec? x.p = some e)
    (h : (parseRec (s.record x.p x.hdr x.pRec)).m = 0 ∨ (parseRec (s.record x.p x.hdr x.pRec)).n = 0) :
    clsProduct.start s x = s.doneAtIssue x (s.stnUnit x 0x01) := by
  have h' : (decide ((parseRec (s.record x.p x.hdr x.pRec)).m = 0) || decide ((parseRec (s.record x.p x.hdr x.pRec)).n = 0)) = true := by
    simpa using h
  simp only [clsProduct, he, h', if_true]

theorem clsProduct_start {s : State} {x : Ctx} {e : Exec} (he : s.exec? x.p = some e)
    (hm : (parseRec (s.record x.p x.hdr x.pRec)).m ≠ 0) (hn : (parseRec (s.record x.p x.hdr x.pRec)).n ≠ 0) :
    clsProduct.start s x =
      if (parseRec (s.record x.p x.hdr x.pRec)).k = 0 && (s.productEnters x e).runsNow x.p x.off then
        (s.productEnters x e).startZero x.p x.off
      else s.productEnters x e := by
  simp only [clsProduct, he, hm, hn, decide_false, Bool.or_self, Bool.false_eq_true, if_false]
  rfl

/-! The command in flight. -/

theorem State.occupants_took {s : State} {x : Ctx} {e : Exec} (he : s.exec? x.p = some e) (v : Nat) :
    (s.took x).occupants x.p (s.passed x e) v = s.occupants x.p e v := by
  simp only [State.occupants, State.flight, State.earlier, State.part_took he, State.passed]
  rfl

theorem State.orderPace_took {s : State} {x : Ctx} {e : Exec} (he : s.exec? x.p = some e) : (s.took x).orderPace x.p = s.orderPace x.p := by
  simp only [State.orderPace, State.exec_took he, he, (s.took_alike x).pace, State.passed]

/-- A command that nothing else keeps waiting joins those in flight (R159). -/
theorem State.enter_took {s : State} {x : Ctx} {e : Exec} (he : s.exec? x.p = some e) (units : List Nat) (lat : Option Nat) (prog left : Nat)
    (descs : List (List Byte)) :
    (s.took x).enter x units lat prog left descs = (s.took x).setExec x.p { s.passed x e with
      cmds := e.cmds ++ [s.entering e x (s.orderPace x.p) units lat prog left descs] } := by
  simp only [State.enter, State.enterWhen, State.exec_took he, State.occupants_took he, State.orderPace_took he, Bool.true_and,
    State.entering, List.all_eq_true, decide_eq_true_eq]
  rfl

theorem State.Alike.setExec (s : State) (p : Nat) (e : Exec) : State.Alike s (s.setExec p e) :=
  ⟨rfl, rfl, rfl, rfl, fun q => by
    unfold State.caravans
    by_cases h : q = p
    · subst h
      rw [State.part_setExec_same]
    · rw [State.part_setExec_other _ _ _ _ h]⟩

/-- The product's place in its execution. -/
def State.productExec (s : State) (x : Ctx) (e : Exec) : Exec :=
  let z := s.shape x (parseRec (s.record x.p x.hdr x.pRec))
  { s.passed x e with
    cmds := e.cmds ++ [s.entering e x (s.orderPace x.p) ((s.scopeStns x).flatMap (fun g => [arrayUnit g, tallyUnit g])) none
      (if x.pDst = 0 then min 2 z.passes else 0) z.tiles.length []]
    dests := e.dests ++ if x.pDst = 0 then [] else s.rowsOf x.p ((z.tiles.map (·.2)).eraseDups) (s.desc x.p x.hdr x.pDst) }

/-- An execution updated again after the issue of its command. -/
theorem State.Issued.setExec {s t : State} {x : Ctx} {e₁ : Exec} (h : s.Issued t x e₁) (e₂ : Exec) :
    s.Issued (t.setExec x.p e₂) x e₂ := by
  obtain ⟨hpart, hother, hflag, hcomp⟩ := h
  refine ⟨?_, fun q hq => ?_, hflag, fun f hf => ?_⟩
  · rw [State.part_setExec_same, hpart]
  · rw [State.part_setExec_other _ _ _ _ hq, hother q hq]
  · cases f with
    | parts => exact absurd (.head _) hf
    | _ => exact hcomp _ hf

theorem State.Issued.updExec {s t : State} {x : Ctx} {e' : Exec} (h : s.Issued t x e') (f : Exec → Exec) :
    s.Issued (t.updExec x.p f) x (f e') := by
  have hx : t.exec? x.p = some e' := by unfold State.exec?; rw [h.1]
  rw [State.updExec_some _ hx]
  exact h.setExec _

/-- A product enters its partition's execution, and then its runs join the routes. -/
theorem State.productEnters_took {s : State} {x : Ctx} {e : Exec} (he : s.exec? x.p = some e) :
    ∃ t, (s.took x).productEnters x (s.passed x e) = t.routed (s.productRuns x (s.passed x e)) ∧ s.Issued t x (s.productExec x e) := by
  have a := s.took_alike x
  have hi := State.issued_took he
  unfold State.productEnters State.productExec
  dsimp only
  rw [State.enter_took he, a.productRuns (State.took_cars s x), a.record, a.shape, a.scopeStns]
  refine ⟨_, rfl, ?_⟩
  split
  · rw [List.append_nil]
    exact hi.setExec _
  · rw [State.dest, (a.trans (.setExec _ _ _)).rowsOf, (a.trans (.setExec _ _ _)).desc]
    exact (hi.setExec _).updExec _

/-! The state in which a product has entered. -/

/-- What holds of the state in which a product has entered and its runs are on the routes. -/
structure State.Entered (s t : State) (x : Ctx) (e : Exec) : Prop where
  exec : t.exec? x.p = some (s.productExec x e)
  cars : ∀ c, t.car c = { s.car c with
    runs := (s.car c).runs ++ ((s.productRuns x (s.passed x e)).filter (·.1 = c)).map (·.2) }
  flags : ∀ k, t.flagAt k = s.afterWait x k
  part : OnlyPart x.p s t
  comps : OnlyChanges [.cars, .flags, .parts] s t

theorem State.entered_took {s : State} {x : Ctx} {e : Exec} (he : s.exec? x.p = some e) :
    s.Entered ((s.took x).productEnters x (s.passed x e)) x e := by
  obtain ⟨t, ht, hpart, hother, hflag, hcomp⟩ := State.productEnters_took he
  rw [ht]
  have hr := State.routed_frame (s.productRuns x (s.passed x e)) t
  have hparts (q : Nat) : (t.routed (s.productRuns x (s.passed x e))).part q = t.part q := by
    unfold State.part
    rw [show (t.routed _).parts = t.parts from hr .parts (by decide)]
  have hcars (c : Nat) : t.car c = s.car c := by
    unfold State.car
    rw [show t.cars = s.cars from hcomp .cars (by decide)]
  refine ⟨?_, fun c => ?_, fun k => ?_, fun q hq => (hparts q).trans (hother q hq), ?_⟩
  · unfold State.exec?
    rw [hparts, hpart]
  · rw [State.car_routed, hcars]
  · unfold State.flagAt
    rw [show (t.routed _).flags = t.flags from hr .flags (by decide)]
    exact hflag k
  · exact (hcomp.widen (by decide)).trans (hr.widen (by decide)) (List.Subset.refl _)

/-- Runs of an order and offset that no run on the routes has yet are the product's own. -/
theorem State.Entered.own {s t : State} {x : Ctx} {e : Exec} (h : s.Entered t x e) {c : Nat} {u : Run}
    (hu : u ∈ (t.car c).runs) (hold : u ∉ (s.car c).runs) : (c, u) ∈ s.productRuns x (s.passed x e) := by
  rw [h.cars c] at hu
  obtain hu | hu := List.mem_append.mp hu
  · exact absurd hu hold
  · obtain ⟨⟨d, v⟩, hd, rfl⟩ := List.mem_map.mp hu
    obtain ⟨hmem, hdc⟩ := List.mem_filter.mp hd
    obtain rfl : d = c := of_decide_eq_true hdc
    exact hmem

/-- Tiles move no run. -/
theorem State.TileWork.car {p : Nat} {s t : State} (h : s.TileWork p t) (c : Nat) : t.car c = s.car c := by
  unfold State.car
  rw [show t.cars = s.cars from h.comps .cars (by decide)]

/-- The tiles of a product without K-rows, which has entered with the routes to its caravans whole and nothing poisoned to resume. -/
theorem State.Entered.startZero {s t : State} {x : Ctx} {e : Exec} (h : s.Entered t x e)
    (hclean : (parseRec (s.record x.p x.hdr x.pRec)).resume = 0 ∨ s.poison = [])
    (hj : ∀ c ∈ s.scopeCars x, s.Joined (rtrOfCar c))
    (hnew : ∀ c, ∀ u ∈ (s.car c).runs, u.seq = e.seq → u.off ≠ x.off) : t.TileWork x.p (t.startZero x.p x.off) := by
  have htables : s.SameTables t := .of_csr (h.comps .csr (by decide))
  have hpoison : t.poison = s.poison := h.comps .poison (by decide)
  unfold State.startZero
  rw [h.exec]
  dsimp only
  refine .foldl (.refl t) fun c _ v hv => .foldl hv fun u hu w hw => ?_
  obtain ⟨hmem, hkey⟩ := List.mem_filter.mp hu
  simp only [Bool.and_eq_true, decide_eq_true_eq] at hkey
  obtain ⟨⟨hseq, hoff⟩, -⟩ := hkey
  rw [hv.car] at hmem
  obtain ⟨hrcd, hc, hstns⟩ := mem_productRuns (h.own hmem fun ho => hnew c u ho hseq hoff)
  refine hw.zeroTiles (fun g hg => ?_) ?_
  · rw [hstns g hg]
    exact htables.joined (hj c hc)
  · rw [hrcd, hpoison]
    exact hclean

/-- The answer puts the queue back, so no frame names it. -/
theorem OnlyChanges.answered {l : List Comp} {s t : State} (h : OnlyChanges l s t) : OnlyChanges l s { t with pending := s.pending } := by
  intro f hf
  cases f with
  | pending => rfl
  | _ => exact h _ hf

/-- Settles O14: the product's own runs are the only ones of its order and offset, so the tiles of one without K-rows move no run and
touch no other partition. -/
theorem productEntersTheRoute : Obligations.ProductEntersTheRoute := by
  unfold Obligations.ProductEntersTheRoute
  intro s p h w1 e x r z m H
  have he : s.exec? p = some e := H.runs
  have hexec : exec (.product p h w1) s = .next { clsProduct.start (s.took x) x with pending := s.pending } := by
    show execProduct p h w1 s = _
    rw [execProduct, answer_eq, Cls.offer_takes H]
  have hrec : parseRec ((s.took x).record x.p x.hdr x.pRec) = r := congrArg parseRec ((s.took_alike x).record _ _ _)
  have he' : (s.took x).exec? x.p = some (s.passed x e) := State.exec_took he
  have ht : s.Entered ((s.took x).productEnters x (s.passed x e)) x e := State.entered_took he
  refine ⟨fun hmn hf => ⟨_, hexec, ?_⟩, fun hm hn hk => ⟨_, hexec, ?_⟩, fun hm hn hk hclean hj hnew => ⟨_, hexec, ?_⟩⟩
  · rw [clsProduct_start_empty he' (by rw [hrec]; exact hmn)]
    exact ((State.issued_took he).done _ he (s.took_alike x) ⟨rfl, rfl, rfl, rfl, rfl⟩ hf).answered
  · rw [clsProduct_start he' (by rw [hrec]; exact hm) (by rw [hrec]; exact hn), hrec]
    simp only [hk, decide_false, Bool.false_and, Bool.false_eq_true, if_false]
    exact ⟨ht.exec, ht.cars, ht.flags, ht.part, ht.comps.answered⟩
  · have hw : ((s.took x).productEnters x (s.passed x e)).TileWork x.p (clsProduct.start (s.took x) x) := by
      rw [clsProduct_start he' (by rw [hrec]; exact hm) (by rw [hrec]; exact hn)]
      exact .ite (ht.startZero hclean hj hnew) (.refl _)
    refine ⟨fun c => ?_, fun q hq => (hw.part q hq).trans (ht.part q hq), ?_⟩
    · exact congrArg Car.runs ((hw.car c).trans (ht.cars c))
    · exact ((ht.comps.widen (by decide)).trans (hw.comps.widen (by decide)) (List.Subset.refl _)).answered

end Sys2Proof.Machine
end

section
/-!
PROOFS. Units withdrawn (R373, R378 to R381, R384): caravans, stacks and weighhouse contexts that are lost leave the ports, the supplies,
the hosts' links, the Seal pairs and the fault tables as they are, and what is fenced or suspended stays so.
-/
namespace Sys2Proof.Machine

/-! Loops. -/

/-- A loop that keeps an invariant, each of whose rounds reaches its goal and undoes none, reaches every goal. -/
theorem foldl_reaches {α : Type} {f : State → α → State} {R : State → Prop} {P : α → State → Prop} {l : List α} {t : State}
    (h : R t) (hR : ∀ a ∈ l, ∀ t, R t → R (f t a)) (hget : ∀ a ∈ l, ∀ t, R t → P a (f t a))
    (hkeep : ∀ a ∈ l, ∀ b, ∀ t, R t → P b t → P b (f t a)) : R (l.foldl f t) ∧ ∀ a ∈ l, P a (l.foldl f t) := by
  have hall : ∀ (m : List α) (t : State), m ⊆ l → R t →
      R (m.foldl f t) ∧ (∀ b, P b t → P b (m.foldl f t)) ∧ ∀ a ∈ m, P a (m.foldl f t) := by
    intro m
    induction m with
    | nil => exact fun t _ ht => ⟨ht, fun _ hb => hb, fun a ha => (nomatch ha)⟩
    | cons a m ih =>
      intro t hm ht
      have ha : a ∈ l := hm (.head _)
      obtain ⟨h1, h2, h3⟩ := ih (f t a) (fun b hb => hm (.tail _ hb)) (hR a ha t ht)
      refine ⟨h1, fun b hb => h2 b (hkeep a ha b t ht hb), fun b hb => ?_⟩
      obtain rfl | hb := List.mem_cons.mp hb
      · exact h2 b (hget b ha t ht)
      · exact h3 b hb
  exact ⟨(hall l t (List.Subset.refl _) h).1, (hall l t (List.Subset.refl _) h).2.2⟩

/-! Frames. -/

theorem OnlyChanges.foldl {α : Type} {fs : List Comp} {s t : State} {f : State → α → State} {l : List α} (h : OnlyChanges fs s t)
    (hf : ∀ a ∈ l, ∀ t, OnlyChanges fs s t → OnlyChanges fs s (f t a)) : OnlyChanges fs s (l.foldl f t) :=
  List.foldlRecOn l f h fun t ht a ha => hf a ha t ht

theorem OnlyChanges.ite {fs : List Comp} {s t u : State} {c : Prop} [Decidable c] (ht : OnlyChanges fs s t) (hu : OnlyChanges fs s u) :
    OnlyChanges fs s (if c then t else u) := by
  split
  · exact ht
  · exact hu

/-- One piece of work after another. -/
theorem OnlyChanges.step {fs gs : List Comp} {s t u : State} (h : OnlyChanges fs s t) (k : OnlyChanges gs t u) (hg : gs ⊆ fs) :
    OnlyChanges fs s u := h.comp k (List.Subset.refl _) hg

theorem updDev_changes (s : State) (f : Dev → Dev) : OnlyChanges [.dev] s (s.updDev f) := by
  intro g hg
  cases g with
  | dev => exact absurd (by decide) hg
  | _ => rfl

theorem dropGrants_changes (s : State) : OnlyChanges [.tolls] s s.dropGrants := by
  intro g hg
  cases g with
  | tolls => exact absurd (by decide) hg
  | _ => rfl

theorem setPort_changes (s : State) (i : Nat) (x : Port) : OnlyChanges [.ports] s (s.setPort i x) := by
  intro g hg
  cases g with
  | ports => exact absurd (by decide) hg
  | _ => rfl

theorem setFld_changes (s : State) (r : FieldRef) (v : Nat) : OnlyChanges [.csr] s (s.setFld r v) := (setReg_regsOnly _ _ _).2

/-! The relation. -/

/-- Registers that no suspension writes: those of the mesh, the Pass, the weighhouse and the links. -/
def farReg (o : Nat) : Prop := 0xA00000 ≤ o ∧ o < 0xF00000 ∧ o % 0x10000 ≠ 0xE008

/-- Registers that no relocation writes either: those of the mesh, the Pass and the links. -/
def linkReg (o : Nat) : Prop := farReg o ∧ (o < 0xC00000 ∨ 0xD00000 ≤ o)

theorem linkReg.far {o : Nat} (h : linkReg o) : farReg o := h.1

/-- The device but for the caravans and stacks that are fenced, and the journal copies that are rebuilt. -/
def Dev.standing (d : Dev) : Dev := { d with fencedCars := [], fencedStacks := [], rebuild := [] }

/-- Units have been withdrawn, and the registers K are as before. -/
structure State.Withdraws (K : Nat → Prop) (s t : State) : Prop where
  regs : ∀ o, K o → t.reg o = s.reg o
  ports : t.ports = s.ports
  dev : t.dev.standing = s.dev.standing
  cars : s.dev.fencedCars ⊆ t.dev.fencedCars
  hbm : s.dev.fencedStacks ⊆ t.dev.fencedStacks
  suspended : ∀ p, (s.part p).suspended = true → (t.part p).suspended = true
  lost : ∀ p, (s.part p).wghLost = true → (t.part p).wghLost = true

/-- The pieces of the state that the relation says nothing of. -/
def restComps : List Comp :=
  [.mem, .poison, .tally, .banks, .flags, .queues, .cars, .wgh, .tolls, .spice, .scout, .out, .free, .pending]

namespace State.Withdraws
variable {K : Nat → Prop} {s t u : State}

theorem refl (s : State) : s.Withdraws K s :=
  ⟨fun _ _ => rfl, rfl, rfl, List.Subset.refl _, List.Subset.refl _, fun _ => id, fun _ => id⟩

theorem trans (h : s.Withdraws K t) (k : t.Withdraws K u) : s.Withdraws K u :=
  ⟨fun o ho => (k.regs o ho).trans (h.regs o ho), k.ports.trans h.ports, k.dev.trans h.dev,
    List.Subset.trans h.cars k.cars, List.Subset.trans h.hbm k.hbm,
    fun p hp => k.suspended p (h.suspended p hp), fun p hp => k.lost p (h.lost p hp)⟩

theorem weaken {L : Nat → Prop} (h : s.Withdraws K t) (hL : ∀ {o}, L o → K o) : s.Withdraws L t :=
  { h with regs := fun o ho => h.regs o (hL ho) }

theorem ite {c : Prop} [Decidable c] (ht : s.Withdraws K t) (hu : s.Withdraws K u) : s.Withdraws K (if c then t else u) := by
  split
  · exact ht
  · exact hu

/-- A loop in each of whose rounds units are withdrawn. -/
theorem foldl {α : Type} {f : State → α → State} {l : List α} (h : s.Withdraws K t)
    (hf : ∀ a ∈ l, ∀ t, s.Withdraws K t → s.Withdraws K (f t a)) : s.Withdraws K (l.foldl f t) :=
  List.foldlRecOn l f h fun t ht a ha => hf a ha t ht

theorem fld (h : s.Withdraws K t) {r : FieldRef} (hr : K r.off) : t.fld r = s.fld r := by
  unfold State.fld
  rw [h.regs _ hr]

theorem port (h : s.Withdraws K t) (i : Nat) : t.port i = s.port i := by
  unfold State.port
  rw [h.ports]

/-! The elementary updates. -/

/-- What changes other pieces of the state only. -/
theorem frame (h : s.Withdraws K t) (hf : OnlyChanges restComps t u) : s.Withdraws K u := by
  have hd : u.dev = t.dev := hf .dev (by decide)
  have hp (p : Nat) : u.part p = t.part p := by
    unfold State.part
    rw [show u.parts = t.parts from hf .parts (by decide)]
  refine h.trans ⟨fun o _ => ?_, hf .ports (by decide), congrArg _ hd, by rw [hd]; exact List.Subset.refl _,
    by rw [hd]; exact List.Subset.refl _, fun p => ?_, fun p => ?_⟩
  · unfold State.reg
    rw [show u.csr = t.csr from hf .csr (by decide)]
  · rw [hp]
    exact id
  · rw [hp]
    exact id

theorem setReg {o w} (h : s.Withdraws K t) (ho : ¬ K o) : s.Withdraws K (t.setReg o w) :=
  h.trans ⟨fun o' ho' => by rw [State.reg_setReg, if_neg (by rintro rfl; exact ho ho')], rfl, rfl, List.Subset.refl _, List.Subset.refl _,
    fun _ => id, fun _ => id⟩

theorem setFld {r v} (h : s.Withdraws K t) (hr : ¬ K r.off) : s.Withdraws K (t.setFld r v) := h.setReg hr
theorem count {r n} (h : s.Withdraws K t) (hr : ¬ K r.off) : s.Withdraws K (t.count r n) := h.setReg hr

/-- A partition's record changes, and what is suspended or lost in it stays so. -/
theorem updPart {p f} (h : s.Withdraws K t) (hs : ∀ x : Part, x.suspended = true → (f x).suspended = true := by exact fun _ hx => hx)
    (hl : ∀ x : Part, x.wghLost = true → (f x).wghLost = true := by exact fun _ hx => hx) : s.Withdraws K (t.updPart p f) := by
  refine h.trans ⟨fun _ _ => rfl, rfl, rfl, List.Subset.refl _, List.Subset.refl _, fun q hq => ?_, fun q hq => ?_⟩
  · rw [State.part_updPart]
    split
    · rename_i he
      exact hs _ (he ▸ hq)
    · exact hq
  · rw [State.part_updPart]
    split
    · rename_i he
      exact hl _ (he ▸ hq)
    · exact hq

theorem setExec {p e} (h : s.Withdraws K t) : s.Withdraws K (t.setExec p e) := h.updPart

theorem updExec {p f} (h : s.Withdraws K t) : s.Withdraws K (t.updExec p f) := by
  unfold State.updExec
  split
  · exact h.setExec
  · exact h

/-- The device's record changes in its fenced caravans and stacks, which it keeps, and its journal copies. -/
theorem updDev {f : Dev → Dev} (h : s.Withdraws K t) (hd : ∀ d : Dev, (f d).standing = d.standing := by exact fun _ => rfl)
    (hc : ∀ d : Dev, d.fencedCars ⊆ (f d).fencedCars := by exact fun _ => List.Subset.refl _)
    (hs : ∀ d : Dev, d.fencedStacks ⊆ (f d).fencedStacks := by exact fun _ => List.Subset.refl _) :
    s.Withdraws K (t.updDev f) := h.trans ⟨fun _ _ => rfl, rfl, hd _, hc _, hs _, fun _ => id, fun _ => id⟩

theorem emit {o} (h : s.Withdraws K t) : s.Withdraws K (t.emit o) := h.frame ((emit_changes _ _).widen (by decide))

theorem updCar {c f} (h : s.Withdraws K t) : s.Withdraws K (t.updCar c f) := by
  refine h.frame fun g hg => ?_
  cases g with
  | cars => exact absurd (by decide) hg
  | _ => rfl

theorem withBanks {b} (h : s.Withdraws K t) : s.Withdraws K { t with banks := b } := by
  refine h.frame fun g hg => ?_
  cases g with
  | banks => exact absurd (by decide) hg
  | _ => rfl

theorem setByte {a b} (h : s.Withdraws K t) : s.Withdraws K (t.setByte a b) := by
  refine h.frame fun g hg => ?_
  cases g with
  | mem | poison => exact absurd (by decide) hg
  | _ => rfl

theorem setBytes {a bs} (h : s.Withdraws K t) : s.Withdraws K (t.setBytes a bs) := by
  induction bs generalizing t a with
  | nil => exact h
  | cons b bs ih => exact ih h.setByte

theorem zeroRange {a n} (h : s.Withdraws K t) : s.Withdraws K (t.zeroRange a n) := by
  refine h.frame fun g hg => ?_
  cases g with
  | mem | poison => exact absurd (by decide) hg
  | _ => rfl

theorem dropGrants (h : s.Withdraws K t) : s.Withdraws K t.dropGrants := h.frame ((dropGrants_changes _).widen (by decide))

theorem scramble {a n} (h : s.Withdraws K t) : s.Withdraws K (t.scramble a n) := by
  refine State.Withdraws.frame (t := t.setBytes a ((List.range n).map fun i => Config.freeByte (t.free + i))) h.setBytes fun g hg => ?_
  cases g with
  | free => exact absurd (by decide) hg
  | _ => rfl

theorem scrambleAhead {c} (h : s.Withdraws K t) : s.Withdraws K (t.scrambleAhead c) :=
  h.foldl fun _ _ _ h1 => h1.foldl fun _ _ _ h2 => h2.foldl fun _ _ _ h3 => h3.scramble

theorem invalidateStaging {c} (h : s.Withdraws K t) : s.Withdraws K (t.invalidateStaging c) := h.zeroRange.zeroRange

/-! Suspension (R381). -/

section
variable (hK : ∀ {o}, K o → farReg o)
include hK

theorem scanOver {c} (h : s.Withdraws K t) : s.Withdraws K (t.scanOver c) := by
  have hc : ¬ K (Csr.drvStatus c) := fun hk => by
    have := (hK hk).2.2
    simp only [Csr.drvStatus] at this
    omega
  exact (h.setFld hc).setFld hc

theorem stopOrder {p} (h : s.Withdraws K t) : s.Withdraws K (t.stopOrder p) := by
  unfold State.stopOrder
  split
  · exact h
  · extract_lets cs older s1 s2 s3 s4 s5
    have h1 : s.Withdraws K s1 := h.foldl fun _ _ _ h => h.scramble
    have h2 : s.Withdraws K s2 := h1.foldl fun _ _ _ h => h.scrambleAhead
    have h3 : s.Withdraws K s3 := h2.foldl fun _ _ _ h => h.invalidateStaging
    have h4 : s.Withdraws K s4 := h3.foldl fun _ _ _ h => h.updCar.scanOver hK
    exact (h4.withBanks.updPart).setExec

theorem risk {n} (h : s.Withdraws K t) : s.Withdraws K (t.count Csr.csgRisk_failures n) :=
  h.count fun hk => absurd (hK hk).2.1 (by decide)

/-- Registers below the mesh's. -/
theorem countLow {r n} (h : s.Withdraws K t) (hr : r.off < 0xA00000) : s.Withdraws K (t.count r n) :=
  h.count fun hk => absurd (hK hk).1 (by omega)

theorem setFldLow {r v} (h : s.Withdraws K t) (hr : r.off < 0xA00000) : s.Withdraws K (t.setFld r v) :=
  h.setFld fun hk => absurd (hK hk).1 (by omega)

theorem event {p type unit detail} (h : s.Withdraws K t) (hp : p < 8) : s.Withdraws K (t.event p type unit detail) := by
  unfold State.event
  extract_lets depth n w0 fn
  split
  · exact (h.updPart).emit.emit
  · exact h.countLow hK (by simp only [Csr.hqEvq_dropped, Csr.hqEvq]; omega)

theorem raise {p unit code off w3} (h : s.Withdraws K t) (hp : p < 8) : s.Withdraws K (t.raise p unit code off w3) := by
  unfold State.raise
  split
  · exact (h.updPart).event hK hp
  · extract_lets -underBinder
    split
    · exact ((State.Withdraws.ite (h.risk hK) h).stopOrder hK).updExec
    · split
      · have h1 : s.Withdraws K (t.count (Csr.prtFault_suppressed p) 1) :=
          h.countLow hK (by simp only [Csr.prtFault_suppressed, Csr.prtFault]; omega)
        exact .ite h1.updExec h1
      · exact h

theorem partFault70 {p unit kind} (h : s.Withdraws K t) (hp : p < 8) : s.Withdraws K (t.partFault70 p unit kind) := by
  unfold State.partFault70
  split
  · exact h
  · exact .ite h (h.raise hK hp)

theorem suspend {p unit} (h : s.Withdraws K t) (hp : p < 8) : s.Withdraws K (t.suspend p unit) := by
  unfold State.suspend
  split
  · exact h
  · extract_lets s1 s2
    have h1 : s.Withdraws K s1 := h.partFault70 hK hp
    have h2 : s.Withdraws K s2 := .ite (h1.setFldLow hK (by simp [partState, Csr.cprPstate])) h1
    exact ((h2.updPart (hs := fun _ _ => rfl)).setFldLow hK (by simp only [Csr.sealMan_suspended, Csr.sealMan]; omega)).event hK hp

end
end State.Withdraws

/-- A suspended partition is suspended. -/
theorem suspended_suspend (s : State) (p unit : Nat) : ((s.suspend p unit).part p).suspended = true := by
  unfold State.suspend
  split
  · assumption
  · extract_lets s1 s2
    have key : ∀ v : State, (v.part p).suspended = true → ((v.event p 5 unit 0).part p).suspended = true := by
      intro v hv
      unfold State.event
      extract_lets depth n w0 fn
      split
      · simpa using hv
      · simpa using hv
    exact key _ (by simp)

end Sys2Proof.Machine
end

section
/-!
PROOFS. What goes with a lost half (R373, R378, R382, R384): caravans, stacks, weighhouse contexts, the Pass, the ports.
-/
namespace Sys2Proof.Machine

namespace State.Withdraws
variable {s t : State}

/-! Relocation (R380). -/

theorem wghFollow {p} (h : s.Withdraws linkReg t) (hp : p < 8) : s.Withdraws linkReg (t.wghFollow p) := by
  unfold State.wghFollow
  extract_lets h0 fits t1
  refine .ite h ?_
  have h1 : s.Withdraws linkReg t1 := h.setFld fun hk => by
    have := hk.2
    simp only [Csr.wghShare_half, Csr.wghShare] at this
    omega
  exact .ite h1 (h1.updPart (hl := fun _ _ => rfl))

theorem moveWindows {p c d} (h : s.Withdraws linkReg t) (hp : p < 8) : s.Withdraws linkReg (t.moveWindows p c d) := by
  refine h.foldl fun i hi v hv => ?_
  have hi := List.mem_range.mp hi
  split
  · exact hv.setFldLow linkReg.far (by simp only [Csr.prtWinPa_pbase, Csr.prtWinPa]; omega)
  · exact hv

theorem relocate {p c d} (h : s.Withdraws linkReg t) (hp : p < 8) : s.Withdraws linkReg (t.relocate p c d) :=
  State.Withdraws.wghFollow (.moveWindows h.updPart hp) hp

theorem withdrawCar {c unit} (h : s.Withdraws linkReg t) : s.Withdraws linkReg (t.withdrawCar c unit) := by
  unfold State.withdrawCar
  split
  · exact h
  · rename_i p hc
    have hp : p < 8 := List.mem_range.mp (List.mem_of_find?_eq_some hc)
    extract_lets fixed t1
    have h1 : s.Withdraws linkReg t1 := h.suspend linkReg.far hp
    split
    · exact h1
    · exact .ite h1.updPart ((h1.relocate hp).countLow linkReg.far (by simp only [Csr.sealMan_relocations, Csr.sealMan]; omega))

/-! Caravans, stacks and weighhouse contexts lost (R378, R382, R384). -/

theorem loseCar {c unit} (h : s.Withdraws linkReg t) : s.Withdraws linkReg (t.loseCar c unit) := by
  unfold State.loseCar
  refine .ite h ?_
  exact (h.updDev (hc := fun _ => List.subset_cons_self _ _)).zeroRange.zeroRange.dropGrants.withdrawCar

theorem loseOrders (h : s.Withdraws linkReg t) : s.Withdraws linkReg t.loseOrders :=
  State.Withdraws.foldl (h.foldl fun _ _ _ h1 => h1.updPart) fun _ _ _ h1 => h1.updCar

theorem loseJournals {k} (h : s.Withdraws linkReg t) : s.Withdraws linkReg (t.loseJournals k) := by
  unfold State.loseJournals
  extract_lets gone left t1
  have h1 : s.Withdraws linkReg t1 := h.updDev
  exact .ite h (.ite h1 h1.loseOrders)

theorem loseStack {k unit} (h : s.Withdraws linkReg t) : s.Withdraws linkReg (t.loseStack k unit) := by
  unfold State.loseStack
  refine .ite h ?_
  extract_lets users t1 t2 t3
  have hu : ∀ p ∈ users, p < 8 := fun p hp => List.mem_range.mp (List.mem_filter.mp hp).1
  have h1 : s.Withdraws linkReg t1 := h.foldl fun p hp _ h1 => h1.suspend linkReg.far (hu p hp)
  have h2 : s.Withdraws linkReg t2 := h1.foldl fun p hp _ h2 => h2.foldl fun i hi v h3 => by
    have hp := hu p hp
    have hi := List.mem_range.mp hi
    split
    · exact .ite (h3.setFldLow linkReg.far (by simp only [Csr.prtWinVa_valid, Csr.prtWinVa]; omega)) h3
    · exact h3
  have h3 : s.Withdraws linkReg t3 :=
    (h2.updDev (hs := fun _ => List.subset_cons_self _ _)).zeroRange
  exact h3.loseJournals.dropGrants

end State.Withdraws

/-- A caravan that is lost is fenced. -/
theorem loseCar_fenced (s : State) (c unit : Nat) : c ∈ (s.loseCar c unit).dev.fencedCars := by
  unfold State.loseCar
  split
  · rename_i h
    exact List.contains_iff_mem.mp h
  · refine (State.Withdraws.withdrawCar (.refl _)).cars ?_
    exact .head _

/-- A stack that is lost is fenced. -/
theorem loseStack_fenced (s : State) (k unit : Nat) : k ∈ (s.loseStack k unit).dev.fencedStacks := by
  unfold State.loseStack
  split
  · rename_i h
    exact List.contains_iff_mem.mp h
  · extract_lets users t1 t2 t3
    exact (State.Withdraws.dropGrants (State.Withdraws.loseJournals (.refl t3))).hbm (.head _)

/-- One round of the loss of a half's weighhouse: a partition's context goes if it lies there (R382). -/
def State.loseContext (h unit : Nat) (s : State) (p : Nat) : State :=
  if 0 < s.fld (Csr.wghShare_slots p) && s.fld (Csr.wghShare_half p) = h then
    (s.updPart p (fun x => { x with wghLost := true })).suspend p unit
  else s

theorem State.Withdraws.loseContext {s t : State} {h unit p : Nat} (ht : s.Withdraws farReg t) (hp : p < 8) :
    s.Withdraws farReg (t.loseContext h unit p) :=
  .ite ((ht.updPart (hl := fun _ _ => rfl)).suspend id hp) ht

/-- A partition's context lies in a half. -/
def State.contextIn (s : State) (h p : Nat) : Prop := 0 < s.fld (Csr.wghShare_slots p) ∧ s.fld (Csr.wghShare_half p) = h

theorem loseContext_lost {s : State} {h p : Nat} (unit : Nat) (hp : p < 8) (hc : s.contextIn h p) :
    ((s.loseContext h unit p).part p).suspended = true ∧ ((s.loseContext h unit p).part p).wghLost = true := by
  obtain ⟨hs, hh⟩ := hc
  unfold State.loseContext
  rw [if_pos (by simp [hs, hh])]
  exact ⟨suspended_suspend _ _ _, (State.Withdraws.suspend id (.refl _) hp).lost p (by simp)⟩

/-- The contexts that a half's weighhouse holds go with it, and their partitions are suspended (R382). -/
theorem loseWgh_loses (s : State) (h unit : Nat) : s.Withdraws farReg (s.loseWgh h unit) ∧
    ∀ p ∈ List.range 8, s.contextIn h p →
      ((s.loseWgh h unit).part p).suspended = true ∧ ((s.loseWgh h unit).part p).wghLost = true := by
  have hget : ∀ p ∈ List.range 8, ∀ t, s.Withdraws farReg t → s.contextIn h p →
      ((t.loseContext h unit p).part p).suspended = true ∧ ((t.loseContext h unit p).part p).wghLost = true := by
    intro p hp t ht hc
    have hp := List.mem_range.mp hp
    have hreg : farReg (Csr.wghShare p) := by unfold farReg Csr.wghShare; omega
    refine loseContext_lost unit hp ?_
    unfold State.contextIn at hc ⊢
    rwa [ht.fld hreg, ht.fld hreg]
  exact foldl_reaches (f := State.loseContext h unit) (R := s.Withdraws farReg)
    (P := fun p t => s.contextIn h p → (t.part p).suspended = true ∧ (t.part p).wghLost = true) (.refl s)
    (fun p hp t ht => ht.loseContext (List.mem_range.mp hp)) hget
    fun p hp q t _ hq hc =>
      have hk : t.Withdraws farReg (t.loseContext h unit p) := (State.Withdraws.refl t).loseContext (List.mem_range.mp hp)
      ⟨hk.suspended q (hq hc).1, hk.lost q (hq hc).2⟩

/-! The Pass and the ports of a half. -/

/-- The Pass is shut channel by channel, and nothing else but the tolls' grants changes. -/
theorem shutChannels (s : State) : let t := (List.range 16).foldl (fun s ch => if s.chanOpen ch then s.loseChan ch 2 else s) s
    (OnlyChanges [.csr, .tolls] s t ∧ OnlyRegs ((List.range 16).map Csr.pasChan) s t) ∧ ∀ ch ∈ List.range 16, t.chanOpen ch = false := by
  have hoff : ∀ a b : Nat, Csr.pasChan a = Csr.pasChan b → a = b := fun a b h => by simp only [Csr.pasChan] at h; omega
  have hread : ∀ (a b : Nat) (t : State), (t.loseChan a 2).chanOpen b = if a = b then false else t.chanOpen b := by
    intro a b t
    have hf : (t.loseChan a 2).fld (Csr.pasChan_state b) = (t.setFld (Csr.pasChan_state a) 2).fld (Csr.pasChan_state b) := rfl
    unfold State.chanOpen
    rw [hf]
    split
    · rename_i he
      subst he
      rw [State.fld_setFld_same _ _ _ (show 0 + 2 ≤ 64 by decide)]
      rfl
    · rename_i he
      rw [State.fld_setFld_off _ _ _ _ fun h => he (hoff _ _ h)]
  refine foldl_reaches (R := fun t => OnlyChanges [.csr, .tolls] s t ∧ OnlyRegs ((List.range 16).map Csr.pasChan) s t)
    (P := fun ch t => t.chanOpen ch = false) ⟨.refl _ s, fun _ _ => rfl⟩ (fun a ha t ht => ?_) (fun a _ t _ => ?_) fun a _ b t _ hb => ?_
  · split
    · refine ⟨ht.1.trans (fun f hf => ?_) (List.Subset.refl _), ht.2.trans fun o ho => ?_⟩
      · cases f with
        | csr | tolls => exact absurd (by decide) hf
        | _ => rfl
      · exact State.reg_setFld_other _ _ _ _ fun he => ho (he ▸ List.mem_map_of_mem ha)
    · exact ht
  · split
    · rw [hread, if_pos rfl]
    · exact Bool.eq_false_iff.mpr ‹_›
  · split
    · rw [hread, hb, ite_self]
    · exact hb

/-- The registers that a port's loss writes. -/
def portRegs (i : Nat) : List Nat := [Csr.lnkStatus i, Csr.lnkCtrl i]

theorem losePort_changes (s : State) (i : Nat) : OnlyChanges [.csr, .ports, .tolls] s (s.losePort i) := by
  unfold State.losePort
  extract_lets x idle t1 t2
  have h1 : OnlyChanges [.csr, .ports, .tolls] s t1 := (setPort_changes _ _ _).widen (by decide)
  have h2 : OnlyChanges [.csr, .ports, .tolls] s t2 :=
    ((h1.step (setFld_changes _ _ _) (by decide)).step (setFld_changes _ _ _) (by decide)).step (setFld_changes _ _ _) (by decide)
  exact (h2.step (setFld_changes _ _ _) (by decide)).step (dropGrants_changes _) (by decide)

theorem dropGrants_reg (s : State) (o : Nat) : s.dropGrants.reg o = s.reg o := rfl
theorem dropGrants_port (s : State) (i : Nat) : s.dropGrants.port i = s.port i := rfl
theorem dropGrants_fld (s : State) (r : FieldRef) : s.dropGrants.fld r = s.fld r := rfl

theorem losePort_regs (s : State) (i : Nat) : OnlyRegs (portRegs i) s (s.losePort i) := by
  intro o ho
  simp only [portRegs, List.mem_cons, List.not_mem_nil, or_false, not_or] at ho
  obtain ⟨hs, hc⟩ := ho
  unfold State.losePort
  dsimp only
  rw [dropGrants_reg, State.reg_setFld_other _ _ _ _ (Ne.symm hc), State.reg_setFld_other _ _ _ _ (Ne.symm hs),
    State.reg_setFld_other _ _ _ _ (Ne.symm hs), State.reg_setFld_other _ _ _ _ (Ne.symm hs), State.setPort_reg_acc]

/-- A port is held OFF by a fence. -/
def State.shutPort (s : State) (i : Nat) : Prop := s.portState i = 0 ∧ (s.port i).fenced = true

theorem losePort_shut (s : State) (i : Nat) : (s.losePort i).shutPort i := by
  refine ⟨?_, ?_⟩
  · unfold State.portState State.losePort
    dsimp only
    rw [dropGrants_fld, State.fld_setFld_off _ _ _ _ (by simp only [Csr.lnkCtrl_enable, Csr.lnkCtrl, Csr.lnkStatus_state, Csr.lnkStatus]; omega),
      State.fld_setFld_same _ _ _ (show 0 + 4 ≤ 64 by decide), Nat.zero_mod]
  · unfold State.losePort
    dsimp only
    rw [dropGrants_port, State.setFld_port_acc, State.setFld_port_acc, State.setFld_port_acc, State.setFld_port_acc, State.port_setPort,
      if_pos rfl]

/-- A port that another one's loss leaves alone. -/
theorem losePort_other {s : State} {i j : Nat} (h : i ≠ j) (hs : s.shutPort j) : (s.losePort i).shutPort j := by
  refine ⟨?_, ?_⟩
  · unfold State.portState
    rw [(losePort_regs s i).fld (by simp [portRegs, Csr.lnkStatus_state, Csr.lnkStatus, Csr.lnkCtrl]; omega)]
    exact hs.1
  · unfold State.losePort
    dsimp only
    rw [dropGrants_port, State.setFld_port_acc, State.setFld_port_acc, State.setFld_port_acc, State.setFld_port_acc, State.port_setPort,
      if_neg h]
    exact hs.2

/-- The registers that the loss of a half's ports writes. -/
def linkRegs : List Nat := (List.range 6).flatMap portRegs

/-- The ports of a half are shut, and nothing else but the tolls' grants changes. -/
theorem losePorts (s : State) (h : Nat) :
    let t := (List.range 6).foldl (fun s i => if (rtrOfPort i).half = h then s.losePort i else s) s
    (OnlyChanges [.csr, .ports, .tolls] s t ∧ OnlyRegs linkRegs s t) ∧ ∀ i ∈ List.range 6, (rtrOfPort i).half = h → t.shutPort i := by
  refine foldl_reaches (R := fun t => OnlyChanges [.csr, .ports, .tolls] s t ∧ OnlyRegs linkRegs s t)
    (P := fun i t => (rtrOfPort i).half = h → t.shutPort i) ⟨.refl _ s, fun _ _ => rfl⟩ (fun i hi t ht => ?_) (fun i _ t _ hh => ?_)
    fun i _ j t _ hj hh => ?_
  · split
    · exact ⟨ht.1.trans (losePort_changes t i) (List.Subset.refl _), ht.2.trans fun o ho => losePort_regs t i o fun hm =>
        ho (List.mem_flatMap.mpr ⟨i, hi, hm⟩)⟩
    · exact ht
  · rw [if_pos hh]
    exact losePort_shut t i
  · split
    · by_cases he : i = j
      · subst he
        exact losePort_shut t i
      · exact losePort_other he (hj hh)
    · exact hj hh

end Sys2Proof.Machine
end

section
/-!
PROOFS. The links' own work: flits leave by the ports and ports are emptied (R335 to R341, R351), and nothing else changes but registers of
the links and the weighhouse's waiting packets.
-/
namespace Sys2Proof.Machine

/-! The relation. -/

/-- Links have worked: beside ports, output and waiting packets only some registers have changed, and what had been sent stays sent. -/
structure State.Sends (regs : List Nat) (s t : State) : Prop where
  comps : OnlyChanges [.csr, .ports, .wgh, .out] s t
  regs : OnlyRegs regs s t
  out : s.out ⊆ t.out

namespace State.Sends
variable {regs : List Nat} {s t u : State}

theorem refl (s : State) : s.Sends regs s := ⟨.refl _ s, fun _ _ => rfl, List.Subset.refl _⟩

theorem trans (h : s.Sends regs t) (k : t.Sends regs u) : s.Sends regs u :=
  ⟨h.comps.step k.comps (List.Subset.refl _), h.regs.trans k.regs, List.Subset.trans h.out k.out⟩

theorem widen {more : List Nat} (h : s.Sends regs t) (hm : regs ⊆ more) : s.Sends more t :=
  ⟨h.comps, fun o ho => h.regs o fun hr => ho (hm hr), h.out⟩

theorem ite {c : Prop} [Decidable c] (ht : s.Sends regs t) (hu : s.Sends regs u) : s.Sends regs (if c then t else u) := by
  split
  · exact ht
  · exact hu

theorem foldl {α : Type} {f : State → α → State} {l : List α} (h : s.Sends regs t)
    (hf : ∀ a ∈ l, ∀ t, s.Sends regs t → s.Sends regs (f t a)) : s.Sends regs (l.foldl f t) :=
  List.foldlRecOn l f h fun t ht a ha => hf a ha t ht

/-! The elementary updates. -/

theorem emit {o} (h : s.Sends regs t) : s.Sends regs (t.emit o) :=
  h.trans ⟨(emit_changes _ _).widen (by decide), fun _ _ => rfl, List.subset_append_left _ _⟩

theorem setPort {i x} (h : s.Sends regs t) : s.Sends regs (t.setPort i x) :=
  h.trans ⟨(setPort_changes _ _ _).widen (by decide), fun _ _ => State.setPort_reg_acc _ _ _ _, List.Subset.refl _⟩

theorem updPort {i f} (h : s.Sends regs t) : s.Sends regs (t.updPort i f) := h.setPort

theorem setWctx {p x} (h : s.Sends regs t) : s.Sends regs (t.setWctx p x) := by
  refine h.trans ⟨fun f hf => ?_, fun _ _ => rfl, List.Subset.refl _⟩
  cases f with
  | wgh => exact absurd (by decide) hf
  | _ => rfl

theorem updWctx {p f} (h : s.Sends regs t) : s.Sends regs (t.updWctx p f) := h.setWctx

theorem setFld {r v} (h : s.Sends regs t) (hr : r.off ∈ regs) : s.Sends regs (t.setFld r v) :=
  h.trans ⟨(setReg_regsOnly _ _ _).2.widen (by decide), fun _ ho => State.reg_setFld_other _ _ _ _ fun he => ho (he ▸ hr),
    List.Subset.refl _⟩

theorem count {r n} (h : s.Sends regs t) (hr : r.off ∈ regs) : s.Sends regs (t.count r n) := h.setFld hr

/-! Flits and packets out (R335 to R341). -/

theorem sendFlit {i vc a b c text} (h : s.Sends regs t) : s.Sends regs (t.sendFlit i vc a b c text) :=
  State.Sends.emit (State.Sends.updPort h)

theorem linkOnly {i nak vc n} (h : s.Sends regs t) : s.Sends regs (t.linkOnly i nak vc n) := .ite h h.emit

theorem freed {i vc n} (h : s.Sends regs t) : s.Sends regs (t.freed i vc n) := h.foldl fun _ _ _ h1 => h1.linkOnly

theorem runOwner {i vc} (h : s.Sends regs t) : s.Sends regs (t.runOwner i vc) := by
  unfold State.runOwner
  split
  · exact h
  · extract_lets n t1 ended t2
    have h1 : s.Sends regs t1 := h.foldl fun _ _ _ h1 => .ite h1.sendFlit h1.sendFlit
    have h2 : s.Sends regs t2 := h1.updPort
    split
    · exact .ite h2 h2.freed
    · exact h2

theorem giveOut {i k src} (h : s.Sends regs t) : s.Sends regs (t.giveOut i k src) := State.Sends.runOwner h.updPort

theorem pumpVc {i vc n} (h : s.Sends regs t) : s.Sends regs (State.pumpVc i vc n t) := by
  induction n generalizing t with
  | zero => exact h
  | succ n ih =>
    unfold State.pumpVc
    extract_lets t1
    have h1 : s.Sends regs t1 := h.runOwner
    split
    · exact h1
    · exact .ite (ih (State.Sends.giveOut h1.updPort)) h1

theorem pump {i} (h : s.Sends regs t) : s.Sends regs (t.pump i) := .ite (h.foldl fun _ _ _ h1 => h1.pumpVc) h

theorem toPartner {i kind payload} (h : s.Sends regs t) : s.Sends regs (t.toPartner i kind payload) :=
  .ite (State.Sends.pump h.updPort) h

end State.Sends

/-! Ports emptied (R331, R351, R355). -/

/-- The registers that a port's own loss writes: its status and its count of drops. -/
def flushRegs (i : Nat) : List Nat := [Csr.lnkStatus i, Csr.lnkDrop i]

namespace State.Sends
variable {regs : List Nat} {s t : State} {i : Nat}

theorem status {r v} (h : s.Sends (flushRegs i) t) (hr : r.off = Csr.lnkStatus i := by rfl) : s.Sends (flushRegs i) (t.setFld r v) :=
  h.setFld (hr ▸ .head _)

theorem poisoned (h : s.Sends (flushRegs i) t) : s.Sends (flushRegs i) (t.count (Csr.lnkDrop_poisoned i) 1) :=
  h.count (.tail _ (.head _))

theorem closeOwners (h : s.Sends (flushRegs i) t) : s.Sends (flushRegs i) (t.closeOwners i) := by
  unfold State.closeOwners
  extract_lets t1
  have h1 : s.Sends (flushRegs i) t1 := h.foldl fun o _ v hv => .ite hv (hv.foldl fun _ _ _ hw => hw.updPort.runOwner.poisoned)
  refine h1.foldl fun q _ v hv => ?_
  extract_lets v1
  have hv1 : s.Sends (flushRegs i) v1 := .ite hv.sendFlit.poisoned hv
  split
  · exact hv1.freed
  · exact hv1

theorem closeArriving {vc a} (h : s.Sends (flushRegs i) t) : s.Sends (flushRegs i) (t.closeArriving i vc a) := by
  unfold State.closeArriving
  extract_lets k k'
  refine .ite h ?_
  split
  · exact h
  · extract_lets q t1
    have h1 : s.Sends (flushRegs i) t1 := h.foldl fun _ _ _ h1 => h1.sendFlit
    exact .ite h h1.sendFlit.poisoned

theorem flushPort (h : s.Sends (flushRegs i) t) : s.Sends (flushRegs i) (t.flushPort i) := by
  unfold State.flushPort
  extract_lets x t1 idle t2 t3
  have h1 : s.Sends (flushRegs i) t1 := State.Sends.closeOwners (h.foldl fun _ _ _ h1 => h1.closeArriving)
  have h2 : s.Sends (flushRegs i) t2 := h1.setPort
  have h3 : s.Sends (flushRegs i) t3 := h2.foldl fun _ _ _ h => h.updWctx
  exact h3.status.status

theorem portUp (h : s.Sends (flushRegs i) t) : s.Sends (flushRegs i) (t.portUp i) := by
  unfold State.portUp
  extract_lets off st t1
  have h1 : s.Sends (flushRegs i) t1 := h.status
  exact .ite h1 h1.updPort

theorem portOff (h : s.Sends (flushRegs i) t) : s.Sends (flushRegs i) (t.portOff i) := by
  unfold State.portOff
  extract_lets st t1 t2
  have h1 : s.Sends (flushRegs i) t1 := .ite h h.flushPort
  have h2 : s.Sends (flushRegs i) t2 := .ite h1.updPort h1
  exact h2.status

theorem lrst (h : s.Sends (flushRegs i) t) : s.Sends (flushRegs i) (t.lrst i) :=
  State.Sends.portUp h.flushPort.updPort.status.status.status.status

end State.Sends

end Sys2Proof.Machine
end

section
/-!
PROOFS. A half is lost: its entry in the fence record, and what goes with it (R373, R378, R379).
-/
namespace Sys2Proof.Machine

/-! The fence record (R379). -/

/-- The device but for what a new entry of the fence record changes: the record, and the safe hold that a full record brings. -/
def Dev.unrecorded (d : Dev) : Dev := { d with fences := [], safeHold := false, faultL := false }

/-- Safe hold leaves the fence record. -/
theorem safeHoldNow_recorded (s : State) : OnlyChanges [.dev, .csr, .ports, .wgh, .out] s s.safeHoldNow ∧ OnlyRegs [] s s.safeHoldNow ∧
    s.safeHoldNow.dev.unrecorded = s.dev.unrecorded ∧ s.safeHoldNow.dev.fences = s.dev.fences := by
  unfold State.safeHoldNow
  split
  · exact ⟨.refl _ _, fun _ _ => rfl, rfl, rfl⟩
  · extract_lets t1 t2
    have ht : t2.Sends [] ((List.range 6).foldl (fun s i => if s.active i then s.toPartner i 7 [] else s) t2) :=
      (State.Sends.refl t2).foldl fun _ _ _ h => .ite h.toPartner h
    have hd := ht.comps .dev (by decide)
    have h2 : OnlyChanges [.dev, .csr, .ports, .wgh, .out] s t2 := ((updDev_changes _ _).widen (by decide)).step (emit_changes _ _) (by decide)
    exact ⟨h2.step ht.comps (by decide), ht.regs, (congrArg Dev.unrecorded hd).trans rfl, (congrArg Dev.fences hd).trans rfl⟩

/-- A new entry at the end of the record, its time a free value (R379; log entry 6). -/
def State.recorded (s : State) (unit kind detail : Nat) : State :=
  let time := Config.freeNat s.free
  let u := BitVec.ofNat 16 unit
  s.draw.2.updDev (fun d => { d with fences := d.fences ++ [⟨u, kind, detail, time, Config.fenceCode Config.serial u kind detail time⟩] })

theorem record1_eq {s : State} (hroom : s.dev.fences.length < 1024) (unit kind detail : Nat) : s.record1 unit kind detail =
    if (s.recorded unit kind detail).dev.fences.length = 1024 then (s.recorded unit kind detail).safeHoldNow
    else s.recorded unit kind detail := by
  unfold State.record1
  rw [if_pos hroom]
  rfl

/-- A fence recorded in a record with room. -/
theorem record1_recorded {s : State} (hroom : s.dev.fences.length < 1024) (unit kind detail : Nat) :
    OnlyChanges [.dev, .csr, .ports, .wgh, .out, .free] s (s.record1 unit kind detail) ∧ OnlyRegs [] s (s.record1 unit kind detail) ∧
    (s.record1 unit kind detail).dev.unrecorded = s.dev.unrecorded ∧ (s.record1 unit kind detail).dev.fenced unit kind detail = true := by
  rw [record1_eq hroom]
  have h1 : OnlyChanges [.dev, .csr, .ports, .wgh, .out, .free] s (s.recorded unit kind detail) := fun f hf => by
    cases f with
    | dev | free => exact absurd (by decide) hf
    | _ => rfl
  have hf : ∀ d : Dev, d.fences = (s.recorded unit kind detail).dev.fences → d.fenced unit kind detail = true := fun d hd => by
    simp [Dev.fenced, hd, State.recorded, State.updDev]
  obtain ⟨hc, hr, hu, hs⟩ := safeHoldNow_recorded (s.recorded unit kind detail)
  split
  · exact ⟨h1.step hc (by decide), hr, hu, hf _ hs⟩
  · exact ⟨h1, fun _ _ => rfl, rfl, hf _ rfl⟩

/-- A half's unit. -/
def halfUnit (h : Nat) : Nat := unitInst h 0 0x70

theorem halfUnit_parts : ∀ h : HalfId, (BitVec.ofNat 16 (halfUnit h)).toNat = halfUnit h ∧ halfUnit h / 2 ^ 15 = h ∧
    halfUnit h % 256 = 0x70 ∧ onMesh (halfUnit h) = false := by decide

/-- The entry of a half makes its half lost. -/
theorem applyUnit_half (s : State) (h : HalfId) (time code : Nat) :
    s.applyUnit ⟨BitVec.ofNat 16 (halfUnit h), 1, 0, time, code⟩ = s.loseHalf h (halfUnit h) := by
  obtain ⟨hn, hh, hb, -⟩ := halfUnit_parts h
  unfold State.applyUnit
  dsimp only
  rw [hn, hh, hb]
  exact if_neg (by decide)

/-- A half that is not recorded yet is recorded, counted and lost (R378, R396). -/
theorem fenceHalf_eq {s : State} {h : HalfId} (hf : s.dev.fenced (halfUnit h) 1 0 = false) :
    s.fenceHalf h = ((s.record1 (halfUnit h) 1 0).count Csr.csgRisk_failures 1).loseHalf h (halfUnit h) := by
  obtain ⟨-, -, -, hm⟩ := halfUnit_parts h
  unfold State.fenceHalf State.fence
  rw [show unitInst h 0 0x70 = halfUnit h from rfl, hf, hm, if_neg (by decide), if_neg (by decide)]
  unfold State.fenceUnit
  rw [hf, if_neg (by decide), applyUnit_half]

/-! The loss of a half, step by step (R378). -/

/-- The device's own record of a half lost: its regulators, its Seal pair, its host's link. -/
def Dev.withoutHalf (d : Dev) (h : Nat) : Dev :=
  { d with fencedHalves := h :: d.fencedHalves, halfOnW := d.halfOnW && h != 0, halfOnE := d.halfOnE && h != 1,
           sealW := if h = 0 then 2 else d.sealW, sealE := if h = 1 then 2 else d.sealE,
           hostUpA := if h = 0 then false else d.hostUpA, hostUpB := if h = 0 then d.hostUpB else false }

theorem Dev.withoutHalf_lost (d : Dev) : ∀ h : HalfId, (d.withoutHalf h).seal h = 2 ∧
    (if h.val = 0 then (d.withoutHalf h).halfOnW else (d.withoutHalf h).halfOnE) = false ∧
    (if h.val = 0 then (d.withoutHalf h).hostUpA else (d.withoutHalf h).hostUpB) = false
  | 0 => by simp [Dev.withoutHalf, Dev.seal]
  | 1 => by simp [Dev.withoutHalf, Dev.seal]

/-- A half's record and its routers are gone. -/
def State.halfOff (s : State) (h : Nat) : State :=
  (((s.updDev (fun d => { d with fencedHalves := h :: d.fencedHalves,
                                 halfOnW := d.halfOnW && h != 0, halfOnE := d.halfOnE && h != 1 })).loseSeal h).loseHost h).setFld
    (Csr.mshFault_failedRouters h) (2 ^ 32 - 1)

theorem halfOff_dev (s : State) : ∀ h : HalfId, (s.halfOff h).dev = s.dev.withoutHalf h
  | 0 => rfl
  | 1 => rfl

theorem halfOff_routers (s : State) (h : Nat) : (s.halfOff h).fld (Csr.mshFault_failedRouters h) = 2 ^ 32 - 1 :=
  State.fld_setFld_same _ _ _ (show 0 + 32 ≤ 64 by decide)

theorem halfOff_regs (s : State) (h : Nat) : OnlyRegs [Csr.mshFault h] s (s.halfOff h) := by
  intro o ho
  have hne : (Csr.mshFault_failedRouters h).off ≠ o := fun he => ho (List.mem_singleton.mpr he.symm)
  unfold State.halfOff State.loseHost State.loseSeal
  rw [State.reg_setFld_other _ _ _ _ hne, dropGrants_reg, State.updDev_reg_acc, State.updDev_reg_acc,
    State.updDev_reg_acc]

theorem halfOff_changes (s : State) (h : Nat) : OnlyChanges [.csr, .dev, .tolls] s (s.halfOff h) := by
  have hseal (t : State) : OnlyChanges [.dev] t (t.loseSeal h) := updDev_changes _ _
  have hhost (t : State) : OnlyChanges [.dev, .tolls] t (t.loseHost h) :=
    ((updDev_changes _ _).widen (by decide)).step (dropGrants_changes _) (by decide)
  unfold State.halfOff
  exact ((((updDev_changes _ _).widen (by decide)).step (hseal _) (by decide)).step (hhost _) (by decide)).step
    (setFld_changes _ _ _) (by decide)

/-- The Pass is shut, then the half's ports. -/
def State.halfShut (s : State) (h : Nat) : State :=
  (List.range 6).foldl (fun s i => if (rtrOfPort i).half = h then s.losePort i else s)
    ((List.range 16).foldl (fun s ch => if s.chanOpen ch then s.loseChan ch 2 else s) (s.halfOff h))

/-- The half's caravans go. -/
def State.carsGone (s : State) (h unit : Nat) : State := (List.range 12).foldl (fun s k => s.loseCar (h * 12 + k) unit) s

/-- The half's stacks go. -/
def State.stacksGone (s : State) (h unit : Nat) : State := (List.range 8).foldl (fun s k => s.loseStack (h * 8 + k) unit) s

/-- A half's weighhouse contexts, caravans and stacks go. -/
def State.unitsGone (s : State) (h unit : Nat) : State := ((s.loseWgh h unit).carsGone h unit).stacksGone h unit

theorem loseHalf_eq {s : State} {h : Nat} (hn : h ∉ s.dev.fencedHalves) (unit : Nat) :
    s.loseHalf h unit = (s.halfShut h).unitsGone h unit := by
  unfold State.loseHalf
  rw [if_neg (by simpa using hn)]
  rfl

theorem carsGone_withdraws (s : State) (h unit : Nat) : s.Withdraws linkReg (s.carsGone h unit) ∧
    ∀ k ∈ List.range 12, h * 12 + k ∈ (s.carsGone h unit).dev.fencedCars := by
  unfold State.carsGone
  exact foldl_reaches (R := s.Withdraws linkReg) (P := fun k t => h * 12 + k ∈ t.dev.fencedCars) (.refl s) (fun _ _ _ ht => ht.loseCar)
    (fun k _ t _ => loseCar_fenced t (h * 12 + k) unit) fun _ _ _ t _ hb => (State.Withdraws.loseCar (.refl t)).cars hb

theorem stacksGone_withdraws (s : State) (h unit : Nat) : s.Withdraws linkReg (s.stacksGone h unit) ∧
    ∀ k ∈ List.range 8, h * 8 + k ∈ (s.stacksGone h unit).dev.fencedStacks := by
  unfold State.stacksGone
  exact foldl_reaches (R := s.Withdraws linkReg) (P := fun k t => h * 8 + k ∈ t.dev.fencedStacks) (.refl s) (fun _ _ _ ht => ht.loseStack)
    (fun k _ t _ => loseStack_fenced t (h * 8 + k) unit) fun _ _ _ t _ hb => (State.Withdraws.loseStack (.refl t)).hbm hb

/-- What shutting the Pass and the ports leaves of a half, and what it leaves alone. -/
structure State.ShutOff (s t : State) (h : Nat) : Prop where
  dev : t.dev = s.dev.withoutHalf h
  parts : t.parts = s.parts
  routers : t.fld (Csr.mshFault_failedRouters h) = 2 ^ 32 - 1
  chans : ∀ ch, ch < 16 → t.chanOpen ch = false
  ports : ∀ i, i < 6 → (rtrOfPort i).half = h → t.shutPort i
  shares : ∀ p, p < 8 → t.reg (Csr.wghShare p) = s.reg (Csr.wghShare p)

theorem pasChan_not_mem_linkRegs : ∀ ch < 16, Csr.pasChan ch ∉ linkRegs := by decide

theorem halfShut_shutOff (s : State) (h : HalfId) : s.ShutOff (s.halfShut h) h := by
  obtain ⟨⟨hcc, hcr⟩, hchans⟩ := shutChannels (s.halfOff h)
  obtain ⟨⟨hpc, hpr⟩, hports⟩ := losePorts
    ((List.range 16).foldl (fun s ch => if s.chanOpen ch then s.loseChan ch 2 else s) (s.halfOff h)) h
  have hfault : ∀ h : HalfId, Csr.mshFault h ∉ (List.range 16).map Csr.pasChan ∧ Csr.mshFault h ∉ linkRegs := by decide
  have hshare : ∀ p < 8, Csr.wghShare p ∉ (List.range 16).map Csr.pasChan ∧ Csr.wghShare p ∉ linkRegs ∧
    ∀ h : HalfId, Csr.wghShare p ∉ [Csr.mshFault h] := by decide
  refine ⟨?_, ?_, ?_, fun ch hch => ?_, fun i hi => hports i (List.mem_range.mpr hi), fun p hp => ?_⟩
  · exact ((hpc .dev (by decide)).trans (hcc .dev (by decide))).trans (halfOff_dev s h)
  · exact ((hpc .parts (by decide)).trans (hcc .parts (by decide))).trans (halfOff_changes s h .parts (by decide))
  · exact ((hpr.fld (hfault h).2).trans (hcr.fld (hfault h).1)).trans (halfOff_routers s h)
  · refine Eq.trans ?_ (hchans ch (List.mem_range.mpr hch))
    unfold State.chanOpen
    exact congrArg (fun n => decide (n = 0)) (hpr.fld (pasChan_not_mem_linkRegs ch hch))
  · obtain ⟨h1, h2, h3⟩ := hshare p hp
    exact ((hpr _ h2).trans (hcr _ h1)).trans (halfOff_regs s h _ (h3 h))

/-- The entry of a half that may be lost leaves room for its loss. -/
theorem record_half {s : State} {h : HalfId} (hl : s.MayLose h) :
    let t := (s.record1 (halfUnit h) 1 0).count Csr.csgRisk_failures 1
    t.dev.unrecorded = s.dev.unrecorded ∧ t.dev.fenced (halfUnit h) 1 0 = true ∧ t.parts = s.parts ∧
      ∀ o, o ≠ Csr.csgRisk → t.reg o = s.reg o := by
  obtain ⟨hc, hr, hu, hf⟩ := record1_recorded hl.1 (halfUnit h) 1 0
  intro t
  have hdev : t.dev = (s.record1 (halfUnit h) 1 0).dev := State.count_dev _ _ _
  rw [hdev]
  exact ⟨hu, hf, (State.count_parts _ _ _).trans (hc .parts (by decide)), fun o ho =>
    (State.reg_count_other _ _ _ _ (Ne.symm ho)).trans (hr o (List.not_mem_nil))⟩

theorem unitsGone_withdraws (s : State) (h unit : Nat) : s.Withdraws linkReg (s.unitsGone h unit) ∧
    (∀ k, k < 12 → h * 12 + k ∈ (s.unitsGone h unit).dev.fencedCars) ∧ (∀ k, k < 8 → h * 8 + k ∈ (s.unitsGone h unit).dev.fencedStacks) ∧
    ∀ p, p < 8 → s.contextIn h p → ((s.unitsGone h unit).part p).suspended = true ∧ ((s.unitsGone h unit).part p).wghLost = true := by
  unfold State.unitsGone
  obtain ⟨hwgh, hctx⟩ := loseWgh_loses s h unit
  generalize s.loseWgh h unit = b at *
  obtain ⟨hcw, hcars⟩ := carsGone_withdraws b h unit
  generalize b.carsGone h unit = c at *
  obtain ⟨hsw, hstacks⟩ := stacksGone_withdraws c h unit
  generalize c.stacksGone h unit = t at *
  have hbt : b.Withdraws linkReg t := hcw.trans hsw
  refine ⟨(hwgh.weaken linkReg.far).trans hbt, fun k hk => hsw.cars (hcars k (List.mem_range.mpr hk)),
    fun k hk => hstacks k (List.mem_range.mpr hk), fun p hp hc => ?_⟩
  obtain ⟨hsus, hlost⟩ := hctx p (List.mem_range.mpr hp) hc
  exact ⟨hbt.suspended p hsus, hbt.lost p hlost⟩

/-- A half that may be lost is lost. -/
theorem fenceHalf_lost {s : State} {h : HalfId} (hl : s.MayLose h) : s.HalfLost (s.fenceHalf h) h ∧
    (s.fenceHalf h).dev.lugA = s.dev.lugA ∧ (s.fenceHalf h).dev.lugB = s.dev.lugB := by
  rw [fenceHalf_eq hl.2.1]
  obtain ⟨hru, hrf, hrp, hrr⟩ := record_half hl
  generalize (s.record1 (halfUnit h) 1 0).count Csr.csgRisk_failures 1 = r at *
  have hrh : r.dev.fencedHalves = s.dev.fencedHalves := (congrArg Dev.fencedHalves hru :)
  rw [loseHalf_eq (by rw [hrh]; exact hl.2.2)]
  have hshut := halfShut_shutOff r h
  generalize r.halfShut h = a at *
  obtain ⟨hat, hcars, hstacks, hctx⟩ := unitsGone_withdraws a h (halfUnit h)
  generalize a.unitsGone h (halfUnit h) = t at *
  have hdev : t.dev.standing = (r.dev.withoutHalf h).standing := hshut.dev ▸ hat.dev
  obtain ⟨hseal, hon, hhost⟩ := r.dev.withoutHalf_lost h
  have hfault : ∀ h : HalfId, linkReg (Csr.mshFault h) := by unfold linkReg farReg Csr.mshFault; intro h; omega
  refine ⟨⟨?_, ?_, ?_, ?_, hcars, hstacks, (hat.fld (hfault h)).trans hshut.routers, ?_, fun ch hch => ?_, fun i hi hih => ?_,
    fun p hp hslots hhalf => hctx p hp ?_⟩, ?_, ?_⟩
  · have hfences : t.dev.fences = r.dev.fences := (congrArg Dev.fences hdev :)
    unfold Dev.fenced at hrf ⊢
    rw [hfences]
    exact hrf
  · have hh : t.dev.fencedHalves = h.val :: r.dev.fencedHalves := (congrArg Dev.fencedHalves hdev :)
    rw [hh]
    exact .head _
  · exact (congrArg (fun d : Dev => d.seal h) hdev :).trans hseal
  · exact (congrArg (fun d : Dev => if h.val = 0 then d.halfOnW else d.halfOnE) hdev :).trans hon
  · exact (congrArg (fun d : Dev => if h.val = 0 then d.hostUpA else d.hostUpB) hdev :).trans hhost
  · have hreg : linkReg (Csr.pasChan ch) := by unfold linkReg farReg Csr.pasChan; omega
    refine Eq.trans ?_ (hshut.chans ch hch)
    unfold State.chanOpen
    exact congrArg (fun n => decide (n = 0)) (hat.fld hreg)
  · have hreg : linkReg (Csr.lnkStatus i) := by unfold linkReg farReg Csr.lnkStatus; omega
    obtain ⟨hst, hfen⟩ := hshut.ports i hi hih
    exact ⟨(hat.fld hreg).trans hst, by rw [hat.port]; exact hfen⟩
  · have hother : Csr.wghShare p ≠ Csr.csgRisk := by unfold Csr.wghShare Csr.csgRisk; omega
    have hshare : a.reg (Csr.wghShare p) = s.reg (Csr.wghShare p) := (hshut.shares p hp).trans (hrr _ hother)
    have hread : ∀ lsb width, a.fld ⟨Csr.wghShare p, lsb, width⟩ = s.fld ⟨Csr.wghShare p, lsb, width⟩ := fun lsb width => by
      unfold State.fld
      rw [hshare]
    exact ⟨(hread _ _).symm ▸ hslots, (hread _ _).trans hhalf⟩
  · exact ((congrArg Dev.lugA hdev :) : t.dev.lugA = r.dev.lugA).trans (congrArg Dev.lugA hru :)
  · exact ((congrArg Dev.lugB hdev :) : t.dev.lugB = r.dev.lugB).trans (congrArg Dev.lugB hru :)

end Sys2Proof.Machine
end

section
/-!
PROOFS. Supplies, references and clocks fail and return (R20, R21, R30, R378, R415, R432).
-/
namespace Sys2Proof.Machine

/-! Memory that is cleared. -/

/-- A map cut down to the keys of a kind. -/
theorem Map.get_filter {α : Type} (d : α) (m : Map α) (P : Nat → Bool) (k : Nat) :
    Map.get d (m.filter (fun c => P c.1)) k = if P k then Map.get d m k else d := by
  induction m with
  | nil => simp [Map.get]
  | cons e m ih =>
    obtain ⟨j, v⟩ := e
    by_cases hj : j = k
    · subst hj
      by_cases hp : P j = true
      · simp [Map.get, hp]
      · simp [hp, ih]
    · by_cases hp : P j = true
      · simp [Map.get, hp, hj, ih]
      · simp [Map.get, hp, hj, ih]

theorem State.byte_wiped (s : State) (a : Nat) : s.wiped.byte a = if a < cxlBase then 0 else s.byte a := by
  refine (Map.get_filter 0 s.mem (fun a => decide (cxlBase ≤ a)) a).trans ?_
  by_cases h : a < cxlBase
  · simp [h, Nat.not_le.mpr h]
  · simp [h, Nat.not_lt.mp h, State.byte]

/-! Lugs (R20, R21). -/

/-- A lug below its limit, and its half's regulators off. -/
def State.lugOff (s : State) (h : Nat) : State := (s.setLug h false).setHalfOn h false

/-- The device but for the lugs and the halves' regulators. -/
def Dev.unpowered (d : Dev) : Dev := { d with lugA := false, lugB := false, halfOnW := false, halfOnE := false }

theorem lugOff_dev (s : State) : ∀ h : HalfId, (s.lugOff h).dev.unpowered = s.dev.unpowered ∧ (s.lugOff h).dev.lug h = false ∧
    (s.lugOff h).dev.lug (1 - h.val) = s.dev.lug (1 - h.val) ∧
    (if h.val = 0 then (s.lugOff h).dev.halfOnW else (s.lugOff h).dev.halfOnE) = false
  | 0 => ⟨rfl, rfl, rfl, rfl⟩
  | 1 => ⟨rfl, rfl, rfl, rfl⟩

theorem lugOff_changes (s : State) (h : Nat) : OnlyChanges [.dev] s (s.lugOff h) :=
  (updDev_changes _ _).step (updDev_changes _ _) (List.Subset.refl _)

theorem lugDown_eq {s : State} {h mv : Nat} (hmv : mv < 38000) (hl : s.dev.lug h = true) : s.lugDown h mv =
    if !(s.lugOff h).dev.lug (1 - h) then (s.lugOff h).powerOff.updDev (fun d => { d with pwrgd := false })
    else if !(s.lugOff h).dev.started then s.lugOff h
    else if (s.lugOff h).fld Csr.cprPstate_device = 2 then (s.lugOff h).noteHalf h
    else (s.lugOff h).fenceHalf h := by
  unfold State.lugDown
  rw [if_neg (by simp [hl]; omega)]
  rfl

/-- A half that may be lost may be lost once its lug is down. -/
theorem mayLose_lugOff {s : State} {h : HalfId} (hl : s.MayLose h) : (s.lugOff h).MayLose h := by
  have hd := (lugOff_dev s h).1
  obtain ⟨hroom, hnew, hhalf⟩ := hl
  have hf : (s.lugOff h).dev.fences = s.dev.fences := (congrArg Dev.fences hd :)
  have hh : (s.lugOff h).dev.fencedHalves = s.dev.fencedHalves := (congrArg Dev.fencedHalves hd :)
  refine ⟨by rw [hf]; exact hroom, ?_, by rw [hh]; exact hhalf⟩
  unfold Dev.fenced at hnew ⊢
  rw [hf]
  exact hnew

/-- The loss of a half in P3 is recorded, and no more (R432). -/
theorem noteHalf_recorded {s : State} {h : HalfId} (hl : s.MayLose h) :
    (s.noteHalf h).dev.unrecorded = s.dev.unrecorded ∧ (s.noteHalf h).dev.fenced (halfUnit h) 1 0 = true ∧
      (s.noteHalf h).parts = s.parts := by
  have he : s.noteHalf h = (s.record1 (halfUnit h) 1 0).count Csr.csgRisk_failures 1 := by
    unfold State.noteHalf
    exact if_neg (by rw [hl.2.1]; decide)
  obtain ⟨hu, hf, hp, -⟩ := record_half hl
  rw [he]
  exact ⟨hu, hf, hp⟩

/-- A half's loss says nothing of the queue. -/
theorem State.HalfLost.answered {s t : State} {h : Nat} {q : List Instr} (hl : s.HalfLost t h) : s.HalfLost { t with pending := q } h := hl

/-! References (R415). -/

/-- The registers in which the events of the partitions are counted when they are dropped. -/
def evqRegs : List Nat := (List.range 8).map Csr.hqEvq

/-- The event of a reference tells every partition in use; its drops are counted in the event queues' registers. -/
theorem refEvent_events (s : State) (r : Ref) (back : Nat) :
    let u := (s.count Csr.cprClk_refEvents 1).emit (.toFactor 4 (refNum r + 2 * back))
    OnlyRegs evqRegs u (s.refEvent r back) ∧ OnlyChanges [.csr, .parts, .out] u (s.refEvent r back) ∧ u.out ⊆ (s.refEvent r back).out := by
  intro u
  unfold State.refEvent
  refine List.foldlRecOn (motive := fun t => OnlyRegs evqRegs u t ∧ OnlyChanges [.csr, .parts, .out] u t ∧ u.out ⊆ t.out) _ _
    ⟨fun _ _ => rfl, .refl _ u, List.Subset.refl _⟩ fun t ht p hp => ?_
  obtain ⟨hr, hc, ho⟩ := ht
  split
  · exact ⟨hr, hc, ho⟩
  · refine ⟨hr.trans fun o hm => event_regs _ _ _ _ _ o fun he => hm ?_, hc.step (event_changes _ _ _ _ _) (List.Subset.refl _),
      fun _ hm => event_out _ _ _ _ _ (ho hm)⟩
    exact (List.mem_singleton.mp he) ▸ List.mem_map_of_mem hp

/-- What the event of a reference changes. -/
structure State.RefTold (s t : State) (o : Out) : Prop where
  bits : ∀ r, t.fld (refBit r) = s.fld (refBit r)
  counted : t.fld Csr.cprClk_refEvents = min (s.fld Csr.cprClk_refEvents + 1) (2 ^ 16 - 1)
  told : o ∈ t.out
  regs : OnlyRegs (Csr.cprClk :: evqRegs) s t
  comps : OnlyChanges [.csr, .parts, .out] s t

theorem refEvent_told (s : State) (r : Ref) (back : Nat) : s.RefTold (s.refEvent r back) (.toFactor 4 (refNum r + 2 * back)) := by
  obtain ⟨hr, hc, ho⟩ := refEvent_events s r back
  have hclk : Csr.cprClk ∉ evqRegs := by decide
  refine ⟨fun r' => ?_, ?_, ho (List.mem_append_right _ (.head _)), fun o hm => ?_, ?_⟩
  · rw [hr.fld (by cases r' <;> exact hclk), State.emit_fld_acc]
    exact State.fld_count_field _ _ _ _ (by decide) (show Csr.cprClk_refEvents.lsb + Csr.cprClk_refEvents.width ≤ (refBit r').lsb ∨
      (refBit r').lsb + (refBit r').width ≤ Csr.cprClk_refEvents.lsb by cases r' <;> decide)
  · rw [hr.fld hclk, State.emit_fld_acc]
    exact State.fld_count_same _ _ _ (by decide)
  · rw [List.mem_cons, not_or] at hm
    obtain ⟨hn, hm⟩ := hm
    rw [hr o hm, State.emit_reg_acc]
    exact State.reg_count_other _ _ _ _ (Ne.symm hn)
  · exact (((count_changes s _ _).widen (by decide)).step (emit_changes _ _) (by decide)).step hc (List.Subset.refl _)

/-! Ports that go OFF and come back (R331). -/

theorem portOff_off (s : State) (i : Nat) : (s.portOff i).portState i = 0 := by
  unfold State.portOff State.portState
  extract_lets st t1 t2
  rw [State.fld_setFld_same _ _ _ (show 0 + 4 ≤ 64 by decide), Nat.zero_mod]

/-- The registers that the ports' losses write. -/
def allFlushRegs : List Nat := (List.range 6).flatMap flushRegs

/-- Every port goes OFF. -/
theorem portsOff (s : State) : s.Sends allFlushRegs ((List.range 6).foldl (fun s i => s.portOff i) s) ∧
    ∀ i ∈ List.range 6, ((List.range 6).foldl (fun s i => s.portOff i) s).portState i = 0 := by
  refine foldl_reaches (R := s.Sends allFlushRegs) (P := fun i t => t.portState i = 0) (.refl s) (fun i hi t ht => ?_)
    (fun i _ t _ => portOff_off t i) fun i _ j t _ hj => ?_
  · exact ht.trans ((State.Sends.portOff (.refl t)).widen fun o ho => List.mem_flatMap.mpr ⟨i, hi, ho⟩)
  · by_cases hij : i = j
    · exact hij ▸ portOff_off t i
    · refine Eq.trans ?_ hj
      exact (State.Sends.portOff (.refl t)).regs.fld (by
        simp only [flushRegs, Csr.lnkStatus_state, Csr.lnkStatus, Csr.lnkDrop, List.mem_cons, List.not_mem_nil, or_false]; omega)

/-- The state a port takes when nothing keeps it OFF (R331). -/
def State.risen (s : State) (i : Nat) : Nat :=
  if !s.flag1 (Csr.lnkCtrl_enable i) || s.ring (i / 2) = 1 || s.flag1 Csr.cprClk_linkRefLost || (s.port i).fenced ||
    s.fld Csr.cprPstate_device = 2 then 0 else if (s.port i).parkedState = 0 then 1 else (s.port i).parkedState

/-- It depends on the port and on registers other than the ports' states. -/
theorem risen_congr {s t : State} {l : List Nat} {i : Nat} (hl : ∀ j ∈ l, j < 6) (hr : OnlyRegs (l.map Csr.lnkStatus) s t)
    (hp : t.port i = s.port i) : t.risen i = s.risen i := by
  have hf {r : FieldRef} (h : ∀ j < 6, Csr.lnkStatus j ≠ r.off) : t.fld r = s.fld r := hr.fld fun hm => by
    obtain ⟨j, hj, hjr⟩ := List.mem_map.mp hm
    exact h j (hl j hj) hjr
  have hflag {r : FieldRef} (h : ∀ j < 6, Csr.lnkStatus j ≠ r.off) : t.flag1 r = s.flag1 r := by
    unfold State.flag1
    rw [hf h]
  have henable : t.flag1 (Csr.lnkCtrl_enable i) = s.flag1 (Csr.lnkCtrl_enable i) :=
    hflag fun j _ => by simp only [Csr.lnkStatus, Csr.lnkCtrl_enable, Csr.lnkCtrl]; omega
  have hlost : t.flag1 Csr.cprClk_linkRefLost = s.flag1 Csr.cprClk_linkRefLost := hflag (by decide)
  have hstate : t.fld Csr.cprPstate_device = s.fld Csr.cprPstate_device := hf (by decide)
  have hring (a : Nat) : t.ring a = s.ring a := by
    unfold State.ring
    rw [hf (r := Csr.lnkNode_xsizeM1) (by decide), hf (r := Csr.lnkNode_ysizeM1) (by decide), hf (r := Csr.lnkNode_zsizeM1) (by decide)]
  simp only [State.risen, henable, hlost, hstate, hring, hp]

theorem portUp_risen (s : State) (i : Nat) : (s.portUp i).portState i = s.risen i % 16 ∧ OnlyRegs [Csr.lnkStatus i] s (s.portUp i) ∧
    OnlyChanges [.csr, .ports] s (s.portUp i) ∧ OnlyPort i s (s.portUp i) := by
  have hset : s.portUp i = s.setFld (Csr.lnkStatus_state i) (s.risen i) ∨
      ∃ f, s.portUp i = (s.setFld (Csr.lnkStatus_state i) (s.risen i)).updPort i f := by
    unfold State.portUp
    extract_lets off st t1
    split
    · exact .inl rfl
    · exact .inr ⟨_, rfl⟩
  have hst : (s.setFld (Csr.lnkStatus_state i) (s.risen i)).portState i = s.risen i % 16 :=
    State.fld_setFld_same _ _ _ (show 0 + 4 ≤ 64 by decide)
  have hset' : s.RegsOnly [Csr.lnkStatus i] (s.setFld (Csr.lnkStatus_state i) (s.risen i)) := setReg_regsOnly _ _ _
  obtain ⟨hr, hc⟩ := hset'
  obtain he | ⟨f, he⟩ := hset
  · rw [he]
    exact ⟨hst, hr, hc.widen (by decide), fun _ _ => State.setFld_port_acc _ _ _ _⟩
  · rw [he]
    refine ⟨(State.updPort_fld_acc _ _ _ _).trans hst, fun o ho => (State.updPort_reg_acc _ _ _ _).trans (hr o ho),
      (hc.widen (by decide)).step (setPort_changes _ _ _) (by decide), fun j hj => ?_⟩
    rw [State.port_updPort, if_neg (Ne.symm hj), State.setFld_port_acc]

/-- Ports come back one after another, each as it would alone. -/
theorem portsUp (l : List Nat) (s : State) (hl : ∀ i ∈ l, i < 6) (hd : l.Nodup) :
    (∀ i ∈ l, (l.foldl (fun s i => s.portUp i) s).portState i = s.risen i % 16) ∧
    OnlyRegs (l.map Csr.lnkStatus) s (l.foldl (fun s i => s.portUp i) s) ∧
    OnlyChanges [.csr, .ports] s (l.foldl (fun s i => s.portUp i) s) := by
  induction l generalizing s with
  | nil => exact ⟨fun _ hi => (nomatch hi), fun _ _ => rfl, .refl _ s⟩
  | cons j l ih =>
    obtain ⟨hj, hd⟩ := List.nodup_cons.mp hd
    obtain ⟨hst, hr, hc, hp⟩ := portUp_risen s j
    obtain ⟨ihst, ihr, ihc⟩ := ih (s.portUp j) (fun i hi => hl i (.tail _ hi)) hd
    refine ⟨fun i hi => ?_, fun o ho => ?_, hc.step ihc (List.Subset.refl _)⟩
    · obtain rfl | hi := List.mem_cons.mp hi
      · refine (ihr.fld fun hm => ?_).trans hst
        obtain ⟨k, hk, hki⟩ := List.mem_map.mp hm
        obtain rfl : k = i := by simp only [Csr.lnkStatus_state, Csr.lnkStatus] at hki; omega
        exact hj hk
      · have hij : i ≠ j := fun he => hj (he ▸ hi)
        refine (ihst i hi).trans (congrArg (· % 16) ?_)
        exact risen_congr (l := [j]) (fun k hk => hl k (by rw [List.mem_singleton.mp hk]; exact .head _)) hr (hp i hij)
    · rw [List.map_cons, List.mem_cons, not_or] at ho
      exact (ihr o ho.2).trans (hr o fun hm => ho.1 (List.mem_singleton.mp hm))

/-! A reference is lost, and returns. -/

/-- The bit of a reference is written, and its event told. -/
def State.refTurned (s : State) (r : Ref) (v back : Nat) : State := (s.setFld (refBit r) v).refEvent r back

theorem referenceLost_link {s : State} (h : s.flag1 (refBit .link) = false) :
    s.referenceLost .link = (List.range 6).foldl (fun s i => s.portOff i) (s.refTurned .link 1 0) := by
  unfold State.referenceLost
  rw [if_neg (by rw [h]; decide)]
  rfl

theorem referenceLost_pcie {s : State} (h : s.flag1 (refBit .pcie) = false) :
    s.referenceLost .pcie = ((s.refTurned .pcie 1 0).setHostUp 0 false).setHostUp 1 false := by
  unfold State.referenceLost
  rw [if_neg (by rw [h]; decide)]
  rfl

theorem referenceReturn_link {s : State} (h : s.flag1 (refBit .link) = true) : s.referenceReturn .link =
    if (s.refTurned .link 0 1).dev.running.isSome then (List.range 6).foldl (fun s i => s.portUp i) (s.refTurned .link 0 1)
    else s.refTurned .link 0 1 := by
  unfold State.referenceReturn State.refTurned
  rw [if_neg (by rw [h]; decide)]

theorem referenceReturn_pcie {s : State} (h : s.flag1 (refBit .pcie) = true) :
    s.referenceReturn .pcie = ((s.refTurned .pcie 0 1).trainHost 0).trainHost 1 := by
  unfold State.referenceReturn
  rw [if_neg (by rw [h]; decide)]
  rfl

/-- What the loss or the return of a reference has told and changed before anything follows from it. -/
structure State.RefSet (s t : State) (r : Ref) (v : Nat) (o : Out) : Prop where
  bit : t.fld (refBit r) = v
  counted : t.fld Csr.cprClk_refEvents = min (s.fld Csr.cprClk_refEvents + 1) (2 ^ 16 - 1)
  told : o ∈ t.out
  regs : OnlyRegs (Csr.cprClk :: evqRegs) s t
  comps : OnlyChanges [.csr, .parts, .out] s t

theorem refSet (s : State) (r : Ref) {v : Nat} (hv : v < 2) (back : Nat) :
    s.RefSet (s.refTurned r v back) r v (.toFactor 4 (refNum r + 2 * back)) := by
  obtain ⟨hb, hc, ht, hr, hcomp⟩ := refEvent_told (s.setFld (refBit r) v) r back
  have hw : (refBit r).lsb + (refBit r).width ≤ 64 ∧ (refBit r).width = 1 ∧ (refBit r).off = Csr.cprClk ∧
      (refBit r).lsb + (refBit r).width ≤ Csr.cprClk_refEvents.lsb := by cases r <;> decide
  obtain ⟨hfit, hwidth, hoff, hbelow⟩ := hw
  unfold State.refTurned
  refine ⟨?_, ?_, ht, ?_, ?_⟩
  · rw [hb, State.fld_setFld_same _ _ _ hfit, hwidth, pow_one, Nat.mod_eq_of_lt hv]
  · rw [hc, State.fld_setFld_field _ _ _ _ hfit (.inl hbelow)]
  · refine OnlyRegs.trans (fun o ho => State.reg_setFld_other _ _ _ _ ?_) hr
    rintro rfl
    exact ho (hoff ▸ .head _)
  · exact ((setReg_regsOnly _ _ _).2.widen (by decide)).step hcomp (List.Subset.refl _)

/-- The registers of the clocks and of the event queues are none of the links' own. -/
theorem clock_not_flush : Csr.cprClk ∉ allFlushRegs := by decide

/-- What a lost reference leaves: its bit, its count, its event; every port OFF, or both host links down. -/
def State.LostRef (s t : State) (r : Ref) : Prop :=
  t.flag1 (refBit r) = true ∧ t.fld Csr.cprClk_refEvents = min (s.fld Csr.cprClk_refEvents + 1) (2 ^ 16 - 1) ∧
    Out.toFactor 4 (refNum r) ∈ t.out ∧ (r = .link → (∀ i, i < 6 → t.portState i = 0) ∧ t.dev = s.dev) ∧
    (r = .pcie → t.dev = { s.dev with hostUpA := false, hostUpB := false } ∧ t.ports = s.ports) ∧
    OnlyChanges [.csr, .parts, .ports, .wgh, .dev, .out] s t

theorem referenceLost_link_lost {s : State} (h : s.flag1 (refBit .link) = false) : s.LostRef (s.referenceLost .link) .link := by
  rw [referenceLost_link h]
  obtain ⟨hbit, hcount, htold, -, hcomps⟩ := refSet s .link (v := 1) (by decide) 0
  generalize s.refTurned .link 1 0 = u at *
  obtain ⟨⟨hc, hr, ho⟩, hoff⟩ := portsOff u
  generalize (List.range 6).foldl (fun s i => s.portOff i) u = t at *
  refine ⟨decide_eq_true ?_, ?_, ho htold, fun _ => ⟨fun i hi => hoff i (List.mem_range.mpr hi), ?_⟩, fun hr => (nomatch hr), ?_⟩
  · exact (hr.fld clock_not_flush).trans hbit
  · exact (hr.fld clock_not_flush).trans hcount
  · exact (hc .dev (by decide)).trans (hcomps .dev (by decide))
  · exact (hcomps.widen (by decide)).step hc (by decide)

theorem referenceLost_pcie_lost {s : State} (h : s.flag1 (refBit .pcie) = false) : s.LostRef (s.referenceLost .pcie) .pcie := by
  rw [referenceLost_pcie h]
  obtain ⟨hbit, hcount, htold, -, hcomps⟩ := refSet s .pcie (v := 1) (by decide) 0
  generalize s.refTurned .pcie 1 0 = u at *
  refine ⟨decide_eq_true hbit, hcount, htold, fun hr => (nomatch hr), fun _ => ⟨?_, hcomps .ports (by decide)⟩, ?_⟩
  · exact congrArg (fun d : Dev => { d with hostUpA := false, hostUpB := false }) (hcomps .dev (by decide))
  · exact ((hcomps.widen (by decide)).step (updDev_changes _ _) (by decide)).step (updDev_changes _ _) (by decide)

/-- A port that nothing keeps OFF rises as the statement says. -/
theorem risen_eq {s : State} {i : Nat} (hlost : s.flag1 Csr.cprClk_linkRefLost = false) (hp : s.fld Csr.cprPstate_device ≠ 2) :
    s.risen i % 16 = if (s.flag1 (Csr.lnkCtrl_enable i) && s.ring (i / 2) != 1 && !(s.port i).fenced) = true then
      (if (s.port i).parkedState = 0 then 1 else (s.port i).parkedState) % 16 else 0 := by
  have hcond : (!s.flag1 (Csr.lnkCtrl_enable i) || decide (s.ring (i / 2) = 1) || s.flag1 Csr.cprClk_linkRefLost || (s.port i).fenced ||
      decide (s.fld Csr.cprPstate_device = 2)) = !(s.flag1 (Csr.lnkCtrl_enable i) && s.ring (i / 2) != 1 && !(s.port i).fenced) := by
    rw [hlost, decide_eq_false hp]
    cases s.flag1 (Csr.lnkCtrl_enable i) <;> cases (s.port i).fenced <;> simp [bne, beq_eq_decide]
  unfold State.risen
  rw [hcond]
  cases s.flag1 (Csr.lnkCtrl_enable i) && s.ring (i / 2) != 1 && !(s.port i).fenced <;> simp

/-- After the link reference is back the ports return. -/
theorem portsReturn {s t : State} (hr : OnlyRegs (Csr.cprClk :: evqRegs) s t) (hports : t.ports = s.ports)
    (hlost : t.fld Csr.cprClk_linkRefLost = 0) (hp : s.fld Csr.cprPstate_device ≠ 2) :
    s.PortsReturn ((List.range 6).foldl (fun s i => s.portUp i) t) := by
  intro i hi
  obtain ⟨hst, -, -⟩ := portsUp (List.range 6) t (fun _ => List.mem_range.mp) List.nodup_range
  have hdev : t.fld Csr.cprPstate_device = s.fld Csr.cprPstate_device := hr.fld (by decide)
  have henable : ∀ i < 6, t.flag1 (Csr.lnkCtrl_enable i) = s.flag1 (Csr.lnkCtrl_enable i) := fun i hi => by
    have hn : ∀ i < 6, (Csr.lnkCtrl_enable i).off ∉ Csr.cprClk :: evqRegs := by decide
    unfold State.flag1
    rw [hr.fld (hn i hi)]
  have hring (a : Nat) : t.ring a = s.ring a := by
    unfold State.ring
    rw [hr.fld (r := Csr.lnkNode_xsizeM1) (by decide), hr.fld (r := Csr.lnkNode_ysizeM1) (by decide),
      hr.fld (r := Csr.lnkNode_zsizeM1) (by decide)]
  have hport : t.port i = s.port i := by unfold State.port; rw [hports]
  rw [hst i (List.mem_range.mpr hi), risen_eq (by unfold State.flag1; rw [hlost]; rfl) (by rw [hdev]; exact hp), henable i hi, hring, hport]

/-- The link of a host port once its reference is there. -/
def State.hostTrains (s : State) (hp : Nat) : Bool := s.dev.started && !s.perst hp && !s.hostGone hp

theorem trainHost_dev {s : State} (hp : Nat) (h : s.fld Csr.cprClk_pcieRefLost = 0) :
    (s.trainHost hp).dev = (if hp = 0 then { s.dev with hostUpA := s.hostTrains hp } else { s.dev with hostUpB := s.hostTrains hp }) := by
  have hup : (s.dev.started && !s.perst hp && !s.flag1 Csr.cprClk_pcieRefLost && !s.hostGone hp) = s.hostTrains hp := by
    unfold State.flag1
    rw [h]
    simp [State.hostTrains]
  unfold State.trainHost
  rw [hup]
  extract_lets up was t1
  have hdev : (if (up && !was) = true then t1.emit (.ready hp) else t1).dev = t1.dev := by
    split
    · exact State.emit_dev _ _
    · rfl
  exact hdev.trans (State.updDev_dev _ _)

theorem trainHost_changes (s : State) (hp : Nat) : OnlyChanges [.dev, .out] s (s.trainHost hp) := by
  unfold State.trainHost
  extract_lets up was t1
  have h1 : OnlyChanges [.dev, .out] s t1 := (updDev_changes _ _).widen (by decide)
  exact .ite (h1.step (emit_changes _ _) (by decide)) h1

theorem trainHost_out (s : State) (hp : Nat) : s.out ⊆ (s.trainHost hp).out := by
  unfold State.trainHost
  extract_lets up was t1
  split
  · exact List.subset_append_left _ _
  · exact List.Subset.refl _

/-- What a returned reference leaves: its bit, its count, its event; the ports as they return, or the host links as they train. -/
def State.BackRef (s t : State) (r : Ref) : Prop :=
  t.flag1 (refBit r) = false ∧ t.fld Csr.cprClk_refEvents = min (s.fld Csr.cprClk_refEvents + 1) (2 ^ 16 - 1) ∧
    Out.toFactor 4 (refNum r + 2) ∈ t.out ∧
    (r = .link → s.dev.running.isSome = true → s.fld Csr.cprPstate_device ≠ 2 → s.PortsReturn t ∧ t.dev = s.dev) ∧
    (r = .pcie → t.dev = { s.dev with hostUpA := s.dev.started && !s.dev.perstA && !s.hostGone 0,
                                      hostUpB := s.dev.started && !s.dev.perstB && !s.hostGone 1 } ∧ t.ports = s.ports) ∧
    OnlyChanges [.csr, .parts, .ports, .dev, .out] s t

/-- Statuses of the ports are none of the clock's register. -/
theorem clock_not_status : Csr.cprClk ∉ (List.range 6).map Csr.lnkStatus := by decide

theorem referenceReturn_link_back {s : State} (h : s.flag1 (refBit .link) = true) : s.BackRef (s.referenceReturn .link) .link := by
  rw [referenceReturn_link h]
  obtain ⟨hbit, hcount, htold, hregs, hcomps⟩ := refSet s .link (v := 0) (by decide) 1
  generalize s.refTurned .link 0 1 = u at *
  have hrun : u.dev = s.dev := hcomps .dev (by decide)
  rw [hrun]
  split
  · obtain ⟨-, hr, hc⟩ := portsUp (List.range 6) u (fun _ => List.mem_range.mp) List.nodup_range
    have hret := portsReturn (s := s) hregs (hcomps .ports (by decide)) hbit
    generalize (List.range 6).foldl (fun s i => s.portUp i) u = t at *
    have ho : t.out = u.out := hc .out (by decide)
    refine ⟨decide_eq_false ?_, (hr.fld clock_not_status).trans hcount, by rw [ho]; exact htold, fun _ _ hp => ⟨hret hp, ?_⟩,
      fun hr => (nomatch hr), (hcomps.widen (by decide)).step hc (by decide)⟩
    · rw [hr.fld clock_not_status, hbit]
      decide
    · exact (hc .dev (by decide)).trans hrun
  · rename_i hn
    refine ⟨decide_eq_false ?_, hcount, htold, fun _ hs => absurd hs hn, fun hr => (nomatch hr), hcomps.widen (by decide)⟩
    rw [hbit]
    decide

theorem hostGone_congr {s t : State} (hr : OnlyRegs (Csr.cprClk :: evqRegs) s t) (hd : t.dev.fencedHalves = s.dev.fencedHalves) :
    ∀ h : HalfId, t.hostGone h = s.hostGone h := by
  have hn : ∀ h : HalfId, (Csr.mshFault_failedRouters h).off ∉ Csr.cprClk :: evqRegs := by decide
  intro h
  unfold State.hostGone
  rw [hd, hr.fld (hn h)]

theorem referenceReturn_pcie_back {s : State} (h : s.flag1 (refBit .pcie) = true) : s.BackRef (s.referenceReturn .pcie) .pcie := by
  rw [referenceReturn_pcie h]
  obtain ⟨hbit, hcount, htold, hregs, hcomps⟩ := refSet s .pcie (v := 0) (by decide) 1
  generalize s.refTurned .pcie 0 1 = u at *
  have hdev : u.dev = s.dev := hcomps .dev (by decide)
  have hgone := hostGone_congr hregs (congrArg Dev.fencedHalves hdev)
  have hA : (u.trainHost 0).dev = { u.dev with hostUpA := u.hostTrains 0 } := trainHost_dev 0 hbit
  have hcA := trainHost_changes u 0
  have hoA := trainHost_out u 0
  generalize u.trainHost 0 = v at *
  have hcsr : v.csr = u.csr := hcA .csr (by decide)
  have hfld (r : FieldRef) : v.fld r = u.fld r := by
    unfold State.fld State.reg
    rw [hcsr]
  have hB : (v.trainHost 1).dev = { v.dev with hostUpB := v.hostTrains 1 } := trainHost_dev 1 ((hfld _).trans hbit)
  have hcB := trainHost_changes v 1
  have hoB := trainHost_out v 1
  have hcsrB : (v.trainHost 1).csr = u.csr := (hcB .csr (by decide)).trans hcsr
  generalize v.trainHost 1 = t at *
  have hfldB (r : FieldRef) : t.fld r = u.fld r := by
    unfold State.fld State.reg
    rw [hcsrB]
  have htrainA : u.hostTrains 0 = (s.dev.started && !s.dev.perstA && !s.hostGone 0) := by
    have hg : u.hostGone 0 = s.hostGone 0 := hgone 0
    unfold State.hostTrains State.perst
    rw [hg, hdev]
    rfl
  have htrainB : v.hostTrains 1 = (s.dev.started && !s.dev.perstB && !s.hostGone 1) := by
    have hg : u.hostGone 1 = s.hostGone 1 := hgone 1
    have hgv : v.hostGone 1 = u.hostGone 1 := by
      unfold State.hostGone
      rw [hA, hfld]
    unfold State.hostTrains State.perst
    rw [hgv, hg, hA, hdev]
    rfl
  refine ⟨decide_eq_false ?_, (hfldB _).trans hcount, hoB (hoA htold), fun hr => (nomatch hr), fun _ => ⟨?_, ?_⟩, ?_⟩
  · rw [hfldB, hbit]
    decide
  · rw [hB, hA, htrainB, htrainA, hdev]
  · exact ((hcB .ports (by decide)).trans (hcA .ports (by decide))).trans (hcomps .ports (by decide))
  · exact ((hcomps.widen (by decide)).step hcA (by decide)).step hcB (by decide)

/-! The statement. -/

theorem lugDown_noop {s : State} {h mv : Nat} (hmv : 38000 ≤ mv) : s.lugDown h mv = s := by
  unfold State.lugDown
  rw [if_pos (by simp [hmv])]

/-- A lug that is up again: its half's regulators return with it on a part that runs, and its units stay fenced (R378). -/
def State.LugBack (s t : State) (h : HalfId) : Prop :=
  t.dev.lug h = true ∧ t.dev.lug (1 - h.val) = s.dev.lug (1 - h.val) ∧ t.dev.fencedHalves = s.dev.fencedHalves ∧
    (s.dev.running.isSome = true → s.dev.thermtrip = false → (if h.val = 0 then t.dev.halfOnW else t.dev.halfOnE) = true) ∧
    OnlyChanges [.dev] s t

theorem lugUp_back {s : State} {mv : Nat} {h : HalfId} (hmv : 39500 < mv) (hl : s.dev.lug h = false) : s.LugBack (s.lugUp h mv) h := by
  have hset : ∀ h : HalfId, (s.setLug h true).dev.lug h = true ∧ (s.setLug h true).dev.lug (1 - h.val) = s.dev.lug (1 - h.val) ∧
      (s.setLug h true).dev.fencedHalves = s.dev.fencedHalves ∧ (s.setLug h true).dev.running = s.dev.running ∧
      (s.setLug h true).dev.thermtrip = s.dev.thermtrip
    | 0 => ⟨rfl, rfl, rfl, rfl, rfl⟩
    | 1 => ⟨rfl, rfl, rfl, rfl, rfl⟩
  have hon : ∀ (t : State) (h : HalfId), (t.setHalfOn h true).dev.lug = t.dev.lug ∧
      (t.setHalfOn h true).dev.fencedHalves = t.dev.fencedHalves ∧
      (if h.val = 0 then (t.setHalfOn h true).dev.halfOnW else (t.setHalfOn h true).dev.halfOnE) = true
    | _, 0 => ⟨rfl, rfl, rfl⟩
    | _, 1 => ⟨rfl, rfl, rfl⟩
  obtain ⟨h1, h2, h3, hrun, htrip⟩ := hset h
  have hc : OnlyChanges [.dev] s (s.setLug h true) := updDev_changes _ _
  unfold State.lugUp
  rw [if_neg (by simp [hl]; omega)]
  dsimp only
  rw [hrun, htrip]
  split
  · obtain ⟨k1, k2, k3⟩ := hon (s.setLug h true) h
    exact ⟨by rw [k1]; exact h1, by rw [k1]; exact h2, k2.trans h3, fun _ _ => k3, hc.step (updDev_changes _ _) (List.Subset.refl _)⟩
  · rename_i hn
    exact ⟨h1, h2, h3, fun hr ht => absurd (by rw [hr, ht]; rfl) hn, hc⟩

/-! No relation says anything of the queue, which the answer puts back. -/

theorem State.LugBack.answered {s t : State} {h : HalfId} (k : s.LugBack t h) : s.LugBack { t with pending := s.pending } h := by
  obtain ⟨h1, h2, h3, h4, h5⟩ := k
  exact ⟨h1, h2, h3, h4, h5.answered⟩

theorem State.LostRef.answered {s t : State} {r : Ref} (k : s.LostRef t r) : s.LostRef { t with pending := s.pending } r := by
  obtain ⟨h1, h2, h3, h4, h5, h6⟩ := k
  exact ⟨h1, h2, h3, h4, h5, h6.answered⟩

theorem State.BackRef.answered {s t : State} {r : Ref} (k : s.BackRef t r) : s.BackRef { t with pending := s.pending } r := by
  obtain ⟨h1, h2, h3, h4, h5, h6⟩ := k
  exact ⟨h1, h2, h3, h4, h5, h6.answered⟩

/-- Both lugs down: the module is off (R21). -/
theorem lugsOff_wiped (s : State) (h : HalfId) :
    s.WipedTo ((s.lugOff h).powerOff.updDev (fun d => { d with pwrgd := false })) ∧ (s.lugOff h).powerOff.dev.lug h = false := by
  have hl : (s.lugOff h).powerOff.dev.lug h = (s.lugOff h).dev.lug h := rfl
  have hd := (lugOff_dev s h).1
  have h0 : (s.lugOff h).dev.slot0 = s.dev.slot0 := (congrArg Dev.slot0 hd :)
  have h1 : (s.lugOff h).dev.slot1 = s.dev.slot1 := (congrArg Dev.slot1 hd :)
  have hf : (s.lugOff h).dev.fences = s.dev.fences := (congrArg Dev.fences hd :)
  exact ⟨⟨rfl, rfl, rfl, rfl, rfl, rfl, rfl, rfl, rfl, rfl, (s.lugOff h).byte_wiped, h0, h1, hf, rfl, rfl, rfl, rfl, rfl⟩,
    hl.trans (lugOff_dev s h).2.1⟩

/-- Settles O49: the loss of a half is a chain of steps each of which keeps what those before it have reached; the clauses about supplies
and references follow the model's cases. -/
theorem suppliesAndClocksFail : Obligations.SuppliesAndClocksFail := by
  unfold Obligations.SuppliesAndClocksFail
  intro s h
  refine ⟨fun mv hmv hl => ?_, fun mv hmv => ?_, fun mv hmv hl => ?_, rfl, rfl, fun r => ⟨fun hr => ?_, fun hr => ?_⟩,
    fun hs hl => ?_, fun hs => ?_⟩
  · have hexec : exec (.lugUndervoltage h mv) s = .next { s.lugDown h mv with pending := s.pending } := rfl
    obtain ⟨hd, hoff, hother, hreg⟩ := lugOff_dev s h
    have hst : (s.lugOff h).dev.started = s.dev.started := (congrArg Dev.started hd :)
    have hpst : (s.lugOff h).fld Csr.cprPstate_device = s.fld Csr.cprPstate_device := rfl
    rw [hexec, lugDown_eq hmv hl, hother, hst, hpst]
    refine ⟨fun hno => ⟨_, rfl, ?_⟩, fun hup hs => ⟨_, rfl, ?_⟩, fun hup hs hp hml => ⟨_, rfl, ?_⟩,
      fun hup hs hp hml => ⟨_, rfl, ?_⟩⟩
    · rw [hno, if_pos (by decide)]
      obtain ⟨hw, hlug⟩ := lugsOff_wiped s h
      exact ⟨hw, rfl, hlug⟩
    · rw [hup, hs, if_neg (by decide), if_pos (by decide)]
      exact ⟨hoff, hother.trans hup, hreg, (lugOff_changes s h).answered⟩
    · rw [hup, hs, if_neg (by decide), if_neg (by decide), if_neg hp]
      obtain ⟨hlost, hA, hB⟩ := fenceHalf_lost (mayLose_lugOff hml)
      refine ⟨Eq.trans ?_ hoff, hlost.answered⟩
      show (if h.val = 0 then _ else _) = _
      rw [hA, hB]
      rfl
    · rw [hup, hs, if_neg (by decide), if_neg (by decide), if_pos hp]
      obtain ⟨hu, hf, hparts⟩ := noteHalf_recorded (mayLose_lugOff hml)
      refine ⟨?_, hf, ?_, ?_, fun p => ?_⟩
      · exact (congrArg (fun d : Dev => d.lug h) hu :).trans hoff
      · exact (congrArg Dev.fencedHalves hu :).trans (congrArg Dev.fencedHalves hd :)
      · exact (congrArg Dev.fencedCars hu :).trans (congrArg Dev.fencedCars hd :)
      · have hpart : ((s.lugOff h).noteHalf h).part p = (s.lugOff h).part p := by
          unfold State.part
          rw [hparts]
        exact hpart
  · show execLugUndervoltage h mv s = _
    rw [execLugUndervoltage, answer_eq, lugDown_noop hmv]
  · exact ⟨_, rfl, (lugUp_back hmv hl).answered⟩
  · cases r with
    | link => exact ⟨_, rfl, (referenceLost_link_lost hr).answered⟩
    | pcie => exact ⟨_, rfl, (referenceLost_pcie_lost hr).answered⟩
  · cases r with
    | link => exact ⟨_, rfl, (referenceReturn_link_back hr).answered⟩
    | pcie => exact ⟨_, rfl, (referenceReturn_pcie_back hr).answered⟩
  · refine ⟨_, rfl, ?_⟩
    dsimp only
    rw [if_pos hs]
    exact (fenceHalf_lost hl).1.answered
  · show execHalfClockLoss h s = _
    rw [execHalfClockLoss, answer_eq, if_neg (by rw [hs]; decide)]

end Sys2Proof.Machine
end

section
/-!
PROOFS. A warm reset (R427, R429, R459): every SRAM zero, the tolls and ports at their reset values, and nothing else of the memory touched
where no order runs.
-/
namespace Sys2Proof.Machine

/-! Bytes, entries and flags that a reset takes out. -/

theorem State.byte_zeroRange (s : State) (base n a : Nat) :
    (s.zeroRange base n).byte a = if base ≤ a ∧ a < base + n then 0 else s.byte a := by
  have h := Map.get_filter 0 s.mem (fun a => !(decide (base ≤ a) && decide (a < base + n))) a
  refine Eq.trans h ?_
  by_cases hin : base ≤ a ∧ a < base + n
  · simp [hin]
  · have hout : (!(decide (base ≤ a) && decide (a < base + n))) = true := by
      simp only [Bool.not_eq_true', Bool.and_eq_false_iff, decide_eq_false_iff_not]
      omega
    rw [if_neg hin, if_pos hout]
    rfl

/-- What was zero stays zero, and the bytes outside a set stay as they are. -/
structure State.Clears (inside : Nat → Prop) (s t : State) : Prop where
  byte : ∀ a, s.byte a = 0 → t.byte a = 0
  entry : ∀ k, s.entry k = Entry.zero → t.entry k = Entry.zero
  flag : ∀ k, s.flagAt k = Flag.none → t.flagAt k = Flag.none
  outside : ∀ a, ¬ inside a → t.byte a = s.byte a
  comps : OnlyChanges [.csr, .mem, .poison, .tally, .banks, .flags, .queues, .cars, .spice] s t

namespace State.Clears
variable {inside : Nat → Prop} {s t u : State}

theorem refl (s : State) : s.Clears inside s := ⟨fun _ => id, fun _ => id, fun _ => id, fun _ _ => rfl, .refl _ s⟩

theorem trans (h : s.Clears inside t) (k : t.Clears inside u) : s.Clears inside u :=
  ⟨fun a ha => k.byte a (h.byte a ha), fun a ha => k.entry a (h.entry a ha), fun a ha => k.flag a (h.flag a ha),
    fun a ha => (k.outside a ha).trans (h.outside a ha), h.comps.step k.comps (List.Subset.refl _)⟩

theorem weaken {more : Nat → Prop} (h : s.Clears inside t) (hm : ∀ a, inside a → more a) : s.Clears more t :=
  { h with outside := fun a ha => h.outside a fun hi => ha (hm a hi) }

/-- What changes neither bytes nor entries nor flags. -/
theorem frame {fs : List Comp} (hf : OnlyChanges fs s t) (hs : fs ⊆ [.csr, .poison, .banks, .queues, .cars, .spice]) :
    s.Clears inside t := by
  have hc := hf.widen hs
  have hb (a : Nat) : t.byte a = s.byte a := by
    unfold State.byte
    rw [show t.mem = s.mem from hc .mem (by decide)]
  have he (k : Nat) : t.entry k = s.entry k := by
    unfold State.entry
    rw [show t.tally = s.tally from hc .tally (by decide)]
  have hg (k : Nat) : t.flagAt k = s.flagAt k := by
    unfold State.flagAt
    rw [show t.flags = s.flags from hc .flags (by decide)]
  exact ⟨fun a ha => (hb a).trans ha, fun k hk => (he k).trans hk, fun k hk => (hg k).trans hk, fun a _ => hb a, hc.widen (by decide)⟩

theorem updCar {c f} (h : s.Clears inside t) : s.Clears inside (t.updCar c f) := by
  refine h.trans (.frame (fs := [.cars]) (fun g hg => ?_) (by decide))
  cases g with
  | cars => exact absurd (by decide) hg
  | _ => rfl

theorem zeroRange {base n} (h : s.Clears inside t) (hi : ∀ a, base ≤ a → a < base + n → inside a) :
    s.Clears inside (t.zeroRange base n) := by
  refine h.trans ⟨fun a ha => ?_, fun _ => id, fun _ => id, fun a ha => ?_, fun g hg => ?_⟩
  · rw [State.byte_zeroRange, ha, ite_self]
  · rw [State.byte_zeroRange, if_neg fun hr => ha (hi a hr.1 hr.2)]
  · cases g with
    | mem | poison => exact absurd (by decide) hg
    | _ => rfl

end State.Clears

/-- The entries and banks of some stations, and their mortars' spice, are taken out. -/
def State.dropStation (s : State) (g : Nat) : State :=
  { s with tally := s.tally.filter (fun x => x.1 / 4096 / 42 ≠ g), banks := s.banks.filter (fun x => x.1 / 42 ≠ g),
           spice := s.spice.filter (fun x => x.1 / 8 ≠ g) }

theorem entry_dropStation (s : State) (g k : Nat) : (s.dropStation g).entry k = if k / 4096 / 42 = g then Entry.zero else s.entry k := by
  refine (Map.get_filter Entry.zero s.tally (fun k => decide (k / 4096 / 42 ≠ g)) k).trans ?_
  by_cases h : k / 4096 / 42 = g
  · simp [h]
  · simp [h, State.entry]

theorem dropStation_clears {inside : Nat → Prop} (s : State) (g : Nat) : s.Clears inside (s.dropStation g) := by
  refine ⟨fun _ => id, fun k hk => ?_, fun _ => id, fun _ _ => rfl, fun f hf => ?_⟩
  · rw [entry_dropStation, hk, ite_self]
  · cases f with
    | tally | banks | spice => exact absurd (by decide) hf
    | _ => rfl

/-- A station's satchel and tallies are zero, and nothing outside its satchel changes in memory. -/
theorem zeroStation_clears {inside : Nat → Prop} (s : State) (c i : Nat) (hi : ∀ a, satchelByte (c * 8 + i) a → inside a) :
    s.Clears inside (s.zeroStation c i) ∧ (∀ a, satchelByte (c * 8 + i) a → (s.zeroStation c i).byte a = 0) ∧
    ∀ k, k / 4096 / 42 = c * 8 + i → (s.zeroStation c i).entry k = Entry.zero := by
  have hz : s.Clears inside (s.zeroRange (satchelBase (c * 8 + i)) 0x1000000) := (State.Clears.refl s).zeroRange fun a h1 h2 => hi a ⟨h1, h2⟩
  have hc : s.Clears inside (s.zeroStation c i) := by
    unfold State.zeroStation
    extract_lets g t1 t2
    exact State.Clears.updCar (t := t2) (hz.trans (dropStation_clears _ _))
  refine ⟨hc, fun a ha => ?_, fun k hk => ?_⟩
  · have h : (s.zeroStation c i).byte a = (s.zeroRange (satchelBase (c * 8 + i)) 0x1000000).byte a := rfl
    rw [h, State.byte_zeroRange, if_pos ⟨ha.1, ha.2⟩]
  · have h : (s.zeroStation c i).entry k = ((s.zeroRange (satchelBase (c * 8 + i)) 0x1000000).dropStation (c * 8 + i)).entry k := rfl
    rw [h, entry_dropStation, if_pos hk]

/-- The flags and queues of a caravan are taken out. -/
def State.dropFlags (s : State) (c : Nat) : State :=
  { s with flags := s.flags.filter (fun x => x.1 / 4096 ≠ c), queues := s.queues.filter (fun x => x.1 / 64 ≠ c) }

theorem flagAt_dropFlags (s : State) (c k : Nat) : (s.dropFlags c).flagAt k = if k / 4096 = c then Flag.none else s.flagAt k := by
  refine (Map.get_filter Flag.none s.flags (fun k => decide (k / 4096 ≠ c)) k).trans ?_
  by_cases h : k / 4096 = c
  · simp [h]
  · simp [h, State.flagAt]

theorem clearAlloc_clears {inside : Nat → Prop} (s : State) (c : Nat) : s.Clears inside (s.clearAlloc c) ∧
    ∀ k, k / 4096 = c → (s.clearAlloc c).flagAt k = Flag.none := by
  have hregs : OnlyChanges [.csr] (s.dropFlags c) (s.clearAlloc c) :=
    (OnlyChanges.refl _ _).foldl fun _ _ _ h => h.step (setReg_regsOnly _ _ _).2 (List.Subset.refl _)
  have hdrop : s.Clears inside (s.dropFlags c) := by
    refine ⟨fun _ => id, fun _ => id, fun k hk => ?_, fun _ _ => rfl, fun f hf => ?_⟩
    · rw [flagAt_dropFlags, hk, ite_self]
    · cases f with
      | flags | queues => exact absurd (by decide) hf
      | _ => rfl
  have hflag := (State.Clears.frame (inside := inside) hregs (by decide)).flag
  exact ⟨hdrop.trans (.frame hregs (by decide)), fun k hk => hflag k (by rw [flagAt_dropFlags, if_pos hk])⟩

/-- The SRAM bytes of one caravan. -/
def carByte (c a : Nat) : Prop := (∃ i ∈ List.range 8, satchelByte (c * 8 + i) a) ∨ depotByte c a

/-- A caravan's stations one after another. -/
theorem zeroStations_clears (s : State) (c : Nat) :
    let t := (List.range 8).foldl (fun s i => s.zeroStation c i) s
    s.Clears (carByte c) t ∧ ∀ i ∈ List.range 8, (∀ a, satchelByte (c * 8 + i) a → t.byte a = 0) ∧
      ∀ k, k / 4096 / 42 = c * 8 + i → t.entry k = Entry.zero := by
  have hst (i : Nat) (hi : i ∈ List.range 8) (t : State) := zeroStation_clears (inside := carByte c) t c i fun a ha => .inl ⟨i, hi, ha⟩
  refine foldl_reaches (f := fun s i => s.zeroStation c i) (R := s.Clears (carByte c))
    (P := fun i t => (∀ a, satchelByte (c * 8 + i) a → t.byte a = 0) ∧ ∀ k, k / 4096 / 42 = c * 8 + i → t.entry k = Entry.zero)
    (.refl s) (fun i hi t ht => ht.trans (hst i hi t).1) (fun i hi t _ => (hst i hi t).2) fun i hi j t _ hj => ?_
  exact ⟨fun a ha => (hst i hi t).1.byte a (hj.1 a ha), fun k hk => (hst i hi t).1.entry k (hj.2 k hk)⟩

/-- What a caravan's reset reaches. -/
structure State.CarClear (t : State) (c : Nat) : Prop where
  byte : ∀ a, carByte c a → t.byte a = 0
  entry : ∀ k, k / 4096 / 42 / 8 = c → t.entry k = Entry.zero
  flag : ∀ k, k / 4096 = c → t.flagAt k = Flag.none

/-- What is clear stays clear. -/
theorem State.Clears.carClear {inside : Nat → Prop} {s t : State} {c : Nat} (h : s.Clears inside t) (hc : s.CarClear c) : t.CarClear c :=
  ⟨fun a ha => h.byte a (hc.byte a ha), fun k hk => h.entry k (hc.entry k hk), fun k hk => h.flag k (hc.flag k hk)⟩

theorem zeroCaravan_clears (s : State) (c : Nat) : s.Clears (carByte c) (s.zeroCaravan c) ∧ (s.zeroCaravan c).CarClear c := by
  unfold State.zeroCaravan
  extract_lets t1 t2
  obtain ⟨h1, hst⟩ : s.Clears (carByte c) t1 ∧ ∀ i ∈ List.range 8, (∀ a, satchelByte (c * 8 + i) a → t1.byte a = 0) ∧
    ∀ k, k / 4096 / 42 = c * 8 + i → t1.entry k = Entry.zero := zeroStations_clears s c
  have h2 : t1.Clears (carByte c) t2 :=
    (State.Clears.refl t1).zeroRange (base := depotBase c) (n := 64 * mib) fun a ha hb => .inr ⟨ha, hb⟩
  obtain ⟨h3, hflag⟩ := clearAlloc_clears (inside := carByte c) t2 c
  have hcar {x : Car} : (t2.clearAlloc c).Clears (carByte c) ((t2.clearAlloc c).setCar c x) := (State.Clears.refl _).updCar (f := fun _ => x)
  have h4 {x : Car} := h3.trans (hcar (x := x))
  refine ⟨(h1.trans h2).trans h4, fun a ha => h4.byte a ?_, fun k hk => h4.entry k (h2.entry k ?_), fun k hk => hcar.flag k (hflag k hk)⟩
  · obtain ⟨i, hi, ha⟩ | ha := ha
    · exact h2.byte a ((hst i hi).1 a ha)
    · have hb : t2.byte a = if depotBase c ≤ a ∧ a < depotBase c + 64 * mib then 0 else t1.byte a := State.byte_zeroRange _ _ _ _
      rw [hb, if_pos ⟨ha.1, ha.2⟩]
  · exact (hst (k / 4096 / 42 % 8) (List.mem_range.mpr (by omega))).2 k (by omega)

/-! Partitions of a warm reset. -/

/-- No partition runs an order or has one saved, and the memory is that of s. -/
def State.Resting (s t : State) : Prop :=
  t.mem = s.mem ∧ ∀ q, q < 8 → t.exec? q = none ∧ (t.part q).prev = none ∧ (t.part q).preempt = none

/-- An update of a partition's record that starts and saves no order. -/
theorem State.Resting.updPart {s t : State} {p : Nat} {f : Part → Part} (h : s.Resting t)
    (hf : ∀ x : Part, (f x).exec = x.exec ∧ (f x).prev = x.prev ∧ (f x).preempt = x.preempt := by exact fun _ => ⟨rfl, rfl, rfl⟩) :
    s.Resting (t.updPart p f) := by
  refine ⟨h.1, fun q hq => ?_⟩
  have hq := h.2 q hq
  unfold State.exec? at hq ⊢
  rw [State.part_updPart]
  split
  · rename_i he
    subst he
    rw [(hf _).1, (hf _).2.1, (hf _).2.2]
    exact hq
  · exact hq

/-- What changes neither partitions nor memory. -/
theorem State.Resting.frame {s t u : State} {fs : List Comp} (h : s.Resting t) (hf : OnlyChanges fs t u)
    (hp : .parts ∉ fs) (hm : .mem ∉ fs) : s.Resting u := by
  refine ⟨(show u.mem = t.mem from hf .mem hm).trans h.1, fun q hq => ?_⟩
  have hq := h.2 q hq
  unfold State.exec? State.part at hq ⊢
  rw [show u.parts = t.parts from hf .parts hp]
  exact hq

theorem State.Resting.setWctx {s t : State} {p : Nat} {x : Wgh} (h : s.Resting t) : s.Resting (t.setWctx p x) := by
  refine h.frame (fs := [.wgh]) (fun f hf => ?_) (by decide) (by decide)
  cases f with
  | wgh => exact absurd (by decide) hf
  | _ => rfl

theorem State.Resting.sealAnswer {s t : State} {p a b : Nat} (h : s.Resting t) : s.Resting (t.sealAnswer p a b) :=
  ((h.frame (setReg_regsOnly _ _ _).2 (by decide) (by decide)).frame (setReg_regsOnly _ _ _).2 (by decide) (by decide)).frame
    (emit_changes _ _) (by decide) (by decide)

theorem State.Resting.dropPreReq {s t : State} {p : Nat} (h : s.Resting t) : s.Resting (t.dropPreReq p) := by
  unfold State.dropPreReq
  split
  · exact State.Resting.sealAnswer h.updPart
  · exact h

/-- A warm reset finds nothing to start again in a partition at rest. -/
theorem State.Resting.wrstPart {s t : State} {p : Nat} (hp : p < 8) (h : s.Resting t) : s.Resting (t.wrstPart p) := by
  obtain ⟨hexec, -, hpre⟩ := h.2 p hp
  have htouched : t.touched p (unitInst 0 0 0x70) = t := by
    unfold State.touched
    rw [hexec]
  have hpreempted : t.wrstPreempted p (unitInst 0 0 0x70) = t := by
    unfold State.wrstPreempted
    rw [hpre]
  unfold State.wrstPart
  dsimp only
  rw [htouched, hpreempted]
  exact State.Resting.setWctx h.dropPreReq.updPart

/-! The steps of a warm reset. -/

/-- Its partitions' orders have ended or will start again. -/
def State.wrstParts (s : State) : State := (List.range 8).foldl (fun s p => if (s.caravans p).isEmpty then s else s.wrstPart p) s

/-- Its caravans have been cleared. -/
def State.wrstCars (s : State) : State :=
  (List.range 24).foldl (fun s c => (s.zeroCaravan c).updCar c (fun k => { k with xfers := [] })) s

/-- Its ports have been emptied, and its registers have their reset values. -/
def State.wrstFlushed (s : State) : State :=
  ((List.range 6).foldl (fun s i => s.flushPort i) s).resetCols wrstScope (·.wrst)

/-- Its cause is noted, and its tolls have their reset values. -/
def State.wrstNoted (s : State) (reason : Nat) : State :=
  { (s.setFld Csr.cprCause_last 3).setFld Csr.cprCause_wrstReason reason with tolls := [] }

/-- Its ports train again. -/
def State.wrstPorts (s : State) : State := (List.range 6).foldl (fun s i => s.lrst i) s

theorem wrst_eq (s : State) (reason : Nat) : s.wrst reason = (s.wrstParts.wrstCars.wrstFlushed.wrstNoted reason).wrstPorts := rfl

theorem wrstParts_resting {s : State} (h : s.Resting s) : s.Resting s.wrstParts := by
  unfold State.wrstParts
  refine List.foldlRecOn (motive := s.Resting) _ _ h fun t ht p hp => ?_
  split
  · exact ht
  · exact ht.wrstPart (List.mem_range.mp hp)

theorem sramByte_of_car {c a : Nat} (hc : c < 24) (h : carByte c a) : sramByte a := by
  obtain ⟨i, hi, ha⟩ | ha := h
  · have := List.mem_range.mp hi
    exact .inl ⟨c * 8 + i, by omega, ha⟩
  · exact .inr ⟨c, hc, ha⟩

theorem carByte_of_sram {a : Nat} (h : sramByte a) : ∃ c ∈ List.range 24, carByte c a := by
  obtain ⟨g, hg, ha⟩ | ⟨c, hc, ha⟩ := h
  · refine ⟨g / 8, List.mem_range.mpr (by omega), .inl ⟨g % 8, List.mem_range.mpr (by omega), ?_⟩⟩
    rwa [Nat.div_add_mod' g 8]
  · exact ⟨c, List.mem_range.mpr hc, .inr ha⟩

/-- Every caravan is cleared, and nothing outside the SRAM is. -/
theorem wrstCars_clears (s : State) : s.Clears sramByte s.wrstCars ∧ ∀ c ∈ List.range 24, s.wrstCars.CarClear c := by
  have hstep (c : Nat) (t : State) : t.Clears (carByte c) ((t.zeroCaravan c).updCar c (fun k => { k with xfers := [] })) :=
    (zeroCaravan_clears t c).1.updCar
  have hclear (c : Nat) (t : State) : ((t.zeroCaravan c).updCar c (fun k => { k with xfers := [] })).CarClear c :=
    ((State.Clears.refl (inside := carByte c) _).updCar).carClear (zeroCaravan_clears t c).2
  unfold State.wrstCars
  refine foldl_reaches (f := fun s c => (s.zeroCaravan c).updCar c (fun k => { k with xfers := [] })) (R := s.Clears sramByte)
    (P := fun c t => t.CarClear c) (.refl s) (fun c hc t ht => ?_) (fun c _ t _ => hclear c t) fun c _ d t _ hd => (hstep c t).carClear hd
  exact ht.trans ((hstep c t).weaken fun a ha => sramByte_of_car (List.mem_range.mp hc) ha)

theorem resetCols_changes (s : State) (inScope : Fam → List Nat → Bool) (col : Field → RVal) :
    OnlyChanges [.csr] s (s.resetCols inScope col) := by
  intro f hf
  cases f with
  | csr => exact absurd (by decide) hf
  | _ => rfl

theorem wrstFlushed_changes (s : State) : OnlyChanges [.csr, .ports, .wgh, .out] s s.wrstFlushed := by
  have hflush : s.Sends allFlushRegs ((List.range 6).foldl (fun s i => s.flushPort i) s) := (State.Sends.refl s).foldl fun i hi t ht =>
    ht.trans ((State.Sends.flushPort (.refl t)).widen fun o ho => List.mem_flatMap.mpr ⟨i, hi, ho⟩)
  exact hflush.comps.step (resetCols_changes _ _ _) (by decide)

/-- The cause noted, and the tolls' reset. -/
theorem wrstNoted_notes (s : State) {reason : Nat} (hr : reason < 16) :
    OnlyChanges [.csr, .tolls] s (s.wrstNoted reason) ∧ (s.wrstNoted reason).fld Csr.cprCause_last = 3 ∧
    (s.wrstNoted reason).fld Csr.cprCause_wrstReason = reason ∧ (s.wrstNoted reason).tolls = [] := by
  have hfld (r : FieldRef) : (s.wrstNoted reason).fld r = ((s.setFld Csr.cprCause_last 3).setFld Csr.cprCause_wrstReason reason).fld r := rfl
  refine ⟨fun f hf => ?_, ?_, ?_, rfl⟩
  · cases f with
    | csr | tolls => exact absurd (by decide) hf
    | _ => rfl
  · rw [hfld, State.fld_setFld_field _ _ _ _ (by decide) (by decide), State.fld_setFld_same _ _ _ (by decide)]
    decide
  · rw [hfld, State.fld_setFld_same _ _ _ (by decide)]
    exact Nat.mod_eq_of_lt hr

/-- A port in LRST is OFF or in DETECT. -/
theorem lrst_state (s : State) (i : Nat) : (s.lrst i).portState i = 0 ∨ (s.lrst i).portState i = 1 := by
  unfold State.lrst
  dsimp only
  generalize s.flushPort i = v
  rw [(portUp_risen _ i).1]
  unfold State.risen
  simp only [State.setFld_port_acc, State.port_updPort_same, if_true]
  split
  · exact .inl rfl
  · exact .inr rfl

theorem wrstPorts_train (s : State) : s.Sends allFlushRegs s.wrstPorts ∧
    ∀ i ∈ List.range 6, s.wrstPorts.portState i = 0 ∨ s.wrstPorts.portState i = 1 := by
  unfold State.wrstPorts
  refine foldl_reaches (R := s.Sends allFlushRegs) (P := fun i t => t.portState i = 0 ∨ t.portState i = 1) (.refl s)
    (fun i hi t ht => ?_) (fun i _ t _ => lrst_state t i) fun i _ j t _ hj => ?_
  · exact ht.trans ((State.Sends.lrst (.refl t)).widen fun o ho => List.mem_flatMap.mpr ⟨i, hi, ho⟩)
  · by_cases hij : i = j
    · exact hij ▸ lrst_state t i
    · have hk : (t.lrst i).portState j = t.portState j := (State.Sends.lrst (.refl t)).regs.fld (by
        simp only [flushRegs, Csr.lnkStatus_state, Csr.lnkStatus, Csr.lnkDrop, List.mem_cons, List.not_mem_nil, or_false]; omega)
      rw [hk]
      exact hj

theorem exec_of_parts {s t : State} (h : t.parts = s.parts) (q : Nat) : t.exec? q = s.exec? q := by
  unfold State.exec? State.part
  rw [h]

/-- What a warm reset for board management leaves (R427, R459). -/
def State.WarmReset (s t : State) : Prop :=
  t.fld Csr.cprCause_last = 3 ∧ t.fld Csr.cprCause_wrstReason = 1 ∧ t.tolls = [] ∧
    (∀ a, sramByte a → t.byte a = 0) ∧ (∀ k, k / 4096 / 42 < 192 → t.entry k = Entry.zero) ∧
    (∀ k, k / 4096 < 24 → t.flagAt k = Flag.none) ∧ (∀ i, i < 6 → t.portState i = 0 ∨ t.portState i = 1) ∧
    ((∀ q, q < 8 → s.exec? q = none ∧ (s.part q).prev = none ∧ (s.part q).preempt = none) →
      (∀ a, ¬ sramByte a → t.byte a = s.byte a) ∧ ∀ q, q < 8 → t.exec? q = none)

theorem wrst_warmReset (s : State) : s.WarmReset (s.wrst 1) := by
  rw [wrst_eq]
  have hrest := wrstParts_resting (s := s)
  generalize s.wrstParts = a at *
  obtain ⟨hclear, hcars⟩ := wrstCars_clears a
  generalize a.wrstCars = b at *
  have hflushed := wrstFlushed_changes b
  generalize b.wrstFlushed = d at *
  obtain ⟨hnoted, hlast, hreason, htolls⟩ := wrstNoted_notes d (reason := 1) (by decide)
  generalize d.wrstNoted 1 = c at *
  obtain ⟨⟨hc, hr, -⟩, hports⟩ := wrstPorts_train c
  generalize c.wrstPorts = t at *
  have hframe : OnlyChanges [.csr, .ports, .wgh, .out, .tolls] b t :=
    ((hflushed.widen (by decide)).step hnoted (by decide)).step hc (by decide)
  have hbyte (x : Nat) : t.byte x = b.byte x := by
    unfold State.byte
    rw [show t.mem = b.mem from hframe .mem (by decide)]
  have hentry (k : Nat) : t.entry k = b.entry k := by
    unfold State.entry
    rw [show t.tally = b.tally from hframe .tally (by decide)]
  have hflag (k : Nat) : t.flagAt k = b.flagAt k := by
    unfold State.flagAt
    rw [show t.flags = b.flags from hframe .flags (by decide)]
  have hcause : Csr.cprCause ∉ allFlushRegs := by decide
  refine ⟨(hr.fld hcause).trans hlast, (hr.fld hcause).trans hreason, (show t.tolls = c.tolls from hc .tolls (by decide)).trans htolls,
    fun x hx => ?_, fun k hk => ?_, fun k hk => ?_, fun i hi => hports i (List.mem_range.mpr hi), fun hidle => ?_⟩
  · obtain ⟨d, hd, hdx⟩ := carByte_of_sram hx
    exact (hbyte x).trans ((hcars d hd).byte x hdx)
  · exact (hentry k).trans ((hcars _ (List.mem_range.mpr (by omega))).entry k rfl)
  · exact (hflag k).trans ((hcars _ (List.mem_range.mpr hk)).flag k rfl)
  · obtain ⟨hmem, hexec⟩ := hrest ⟨rfl, hidle⟩
    refine ⟨fun x hx => ?_, fun q hq => ?_⟩
    · refine ((hbyte x).trans (hclear.outside x hx)).trans ?_
      unfold State.byte
      rw [hmem]
    · have hb : b.parts = a.parts := hclear.comps .parts (by decide)
      have ht : t.parts = b.parts := hframe .parts (by decide)
      exact (exec_of_parts (ht.trans hb) q).trans (hexec q hq).1

end Sys2Proof.Machine
end

section
/-!
PROOFS. An image applied to one partition in service (R458), and board management's reads (R30, R403).
-/
namespace Sys2Proof.Machine

/-! A partition's grant. -/

/-- A partition's grant stays: its register, its memory, and what it runs. -/
structure State.SameGrant (p : Nat) (s t : State) : Prop where
  reg : t.reg (Csr.prtGrant p) = s.reg (Csr.prtGrant p)
  hbm : (t.part p).hbm = (s.part p).hbm
  cxl : (t.part p).cxl = (s.part p).cxl
  exec : t.exec? p = s.exec? p

namespace State.SameGrant
variable {p : Nat} {s t u : State}

theorem refl (s : State) : s.SameGrant p s := ⟨rfl, rfl, rfl, rfl⟩

theorem trans (h : s.SameGrant p t) (k : t.SameGrant p u) : s.SameGrant p u :=
  ⟨k.reg.trans h.reg, k.hbm.trans h.hbm, k.cxl.trans h.cxl, k.exec.trans h.exec⟩

theorem ite {c : Prop} [Decidable c] (ht : s.SameGrant p t) (hu : s.SameGrant p u) : s.SameGrant p (if c then t else u) := by
  split
  · exact ht
  · exact hu

theorem foldl {α : Type} {f : State → α → State} {l : List α} (h : s.SameGrant p t)
    (hf : ∀ a ∈ l, ∀ t, s.SameGrant p t → s.SameGrant p (f t a)) : s.SameGrant p (l.foldl f t) :=
  List.foldlRecOn l f h fun t ht a ha => hf a ha t ht

theorem setFld {r v} (h : s.SameGrant p t) (hr : r.off ≠ Csr.prtGrant p) : s.SameGrant p (t.setFld r v) :=
  h.trans ⟨State.reg_setFld_other _ _ _ _ hr, rfl, rfl, rfl⟩

theorem updPart {f} (h : s.SameGrant p t)
    (hf : ∀ x : Part, (f x).hbm = x.hbm ∧ (f x).cxl = x.cxl ∧ (f x).exec = x.exec := by exact fun _ => ⟨rfl, rfl, rfl⟩) :
    s.SameGrant p (t.updPart p f) := by
  obtain ⟨hh, hc, he⟩ := hf (t.part p)
  have hp := State.part_updPart_same t p f
  exact h.trans ⟨rfl, (congrArg Part.hbm hp).trans hh, (congrArg Part.cxl hp).trans hc, (congrArg Part.exec hp).trans he⟩

theorem updDev {f} (h : s.SameGrant p t) : s.SameGrant p (t.updDev f) := h.trans ⟨rfl, rfl, rfl, rfl⟩

theorem wghFollow (h : s.SameGrant p t) : s.SameGrant p (t.wghFollow p) := by
  unfold State.wghFollow
  extract_lets h0 fits t1
  have h1 : s.SameGrant p t1 := h.setFld (by simp only [Csr.wghShare_half, Csr.wghShare, Csr.prtGrant]; omega)
  exact .ite h (.ite h1 h1.updPart)

theorem moveWindows {c d} (h : s.SameGrant p t) : s.SameGrant p (t.moveWindows p c d) := by
  refine h.foldl fun i hi v hv => ?_
  have hi := List.mem_range.mp hi
  split
  · exact hv.setFld (by simp only [Csr.prtWinPa_pbase, Csr.prtWinPa, Csr.prtGrant]; omega)
  · exact hv

theorem relocate {c d} (h : s.SameGrant p t) : s.SameGrant p (t.relocate p c d) :=
  State.SameGrant.wghFollow (.moveWindows h.updPart)

theorem trimWindows (h : s.SameGrant p t) : s.SameGrant p (t.trimWindows p) := by
  refine State.SameGrant.foldl (h.foldl fun i hi v hv => ?_) fun n hn v hv => ?_
  · have hi := List.mem_range.mp hi
    split
    · exact .ite hv (hv.setFld (by simp only [Csr.prtWinVa_valid, Csr.prtWinVa, Csr.prtGrant]; omega))
    · exact hv
  · have hn := List.mem_range.mp hn
    exact .ite hv (hv.setFld (by simp only [Csr.updPair_valid, Csr.updPair, Csr.prtGrant]; omega))

section
variable (hp : p < 8)
include hp

theorem suspendedFld {v} (h : s.SameGrant p t) : s.SameGrant p (t.setFld (Csr.sealMan_suspended p) v) :=
  h.setFld (by simp only [Csr.sealMan_suspended, Csr.sealMan, Csr.prtGrant]; omega)

theorem placeSpares (h : s.SameGrant p t) : s.SameGrant p (t.placeSpares p) := by
  refine h.foldl fun c _ v hv => .ite hv ?_
  split
  · exact .ite (State.SameGrant.suspendedFld hp hv.updPart) (hv.relocate)
  · exact State.SameGrant.suspendedFld hp hv.updPart

theorem cfgStatus {r v} (h : s.SameGrant p t) (hr : r.off = Csr.cfgStatus := by rfl) : s.SameGrant p (t.setFld r v) :=
  h.setFld (by rw [hr]; simp only [Csr.cfgStatus, Csr.prtGrant]; omega)

end
end State.SameGrant

/-! The new definition. -/

/-- The word of PRT_GRANT that a definition gives (R437). -/
def grantWord (d : PartDef) : Word :=
  BitVec.ofNat 64 (d.caravans.toNat + d.functions.toNat * 2 ^ 24 + d.grants.toNat * 2 ^ 32)

/-- A partition has a definition. -/
structure State.Granted (t : State) (p : Nat) (d : PartDef) : Prop where
  reg : t.reg (Csr.prtGrant p) = grantWord d
  hbm : (t.part p).hbm = d.hbmUsed
  cxl : (t.part p).cxl = d.cxl

theorem State.SameGrant.granted {s t : State} {p : Nat} {d : PartDef} (h : s.SameGrant p t) (hg : s.Granted p d) : t.Granted p d :=
  ⟨h.reg.trans hg.reg, h.hbm.trans hg.hbm, h.cxl.trans hg.cxl⟩

/-- The fields of the register of a definition. -/
theorem State.Granted.fields {t : State} {p : Nat} {d : PartDef} (h : t.Granted p d) : t.fld (Csr.prtGrant_caravans p) = d.caravans.toNat ∧
    t.fld (Csr.prtGrant_functions p) = d.functions.toNat ∧ t.fld (Csr.prtGrant_grants p) = d.grants.toNat := by
  have hc := d.caravans.isLt
  have hf := d.functions.isLt
  have hg := d.grants.isLt
  have hw : (t.reg (Csr.prtGrant p)).toNat = d.caravans.toNat + d.functions.toNat * 2 ^ 24 + d.grants.toNat * 2 ^ 32 := by
    rw [h.reg, grantWord, BitVec.toNat_ofNat]
    exact Nat.mod_eq_of_lt (by omega)
  refine ⟨?_, ?_, ?_⟩
  · show (t.reg (Csr.prtGrant p)).toNat / 2 ^ 0 % 2 ^ 24 = _
    rw [hw]
    omega
  · show (t.reg (Csr.prtGrant p)).toNat / 2 ^ 24 % 2 ^ 8 = _
    rw [hw]
    omega
  · show (t.reg (Csr.prtGrant p)).toNat / 2 ^ 32 % 2 ^ 4 = _
    rw [hw]
    omega

theorem installPart_granted (s : State) {p : Nat} (hp : p < 8) (d : PartDef) :
    (s.installPart p d).Granted p d ∧ (s.installPart p d).exec? p = s.exec? p := by
  unfold State.installPart
  extract_lets t1 t2 t3
  have h3 : t1.SameGrant p t3 := by
    refine State.SameGrant.setFld (State.SameGrant.setFld (State.SameGrant.setFld (.refl t1) ?_) ?_) ?_
    · simp only [Csr.cprShare_shareW, Csr.cprShare, Csr.prtGrant]; omega
    · simp only [Csr.wghShare_slots, Csr.wghShare, Csr.prtGrant]; omega
    · simp only [Csr.wghShare_half, Csr.wghShare, Csr.prtGrant]; omega
  have hreg : t3.reg (Csr.prtGrant p) = grantWord d := h3.reg.trans (State.reg_setReg_same _ _ _)
  have hexec : t3.exec? p = s.exec? p := h3.exec.trans (State.setReg_exec_acc _ _ _ _)
  clear_value t3
  have h4 : (t3.updPart p (fun x => { x with cmap := caravansOf d.caravans, hbm := d.hbmUsed, cxl := d.cxl })).SameGrant p
      ((t3.updPart p (fun x => { x with cmap := caravansOf d.caravans, hbm := d.hbmUsed, cxl := d.cxl })).setPartState p
        (boolNat (d.caravans != 0))) := (State.SameGrant.refl _).setFld (by simp only [partState, Csr.cprPstate, Csr.prtGrant]; omega)
  have hpart := State.part_updPart_same t3 p (fun x => { x with cmap := caravansOf d.caravans, hbm := d.hbmUsed, cxl := d.cxl })
  refine ⟨h4.granted ⟨(State.updPart_reg_acc _ _ _ _).trans hreg, congrArg Part.hbm hpart, congrArg Part.cxl hpart⟩, ?_⟩
  exact h4.exec.trans ((congrArg Part.exec hpart).trans hexec)

/-! A partition reset (R389, R427). -/

/-- A frame that spares the partitions spares what they run. -/
theorem exec_of_changes {fs : List Comp} {s t : State} (h : OnlyChanges fs s t) (hp : .parts ∉ fs) (q : Nat) : t.exec? q = s.exec? q :=
  exec_of_parts (h .parts hp) q

theorem endGrants_changes (s : State) (covers : Nat → Bool) : OnlyChanges [.tolls] s (s.endGrants covers) := by
  intro f hf
  cases f with
  | tolls => exact absurd (by decide) hf
  | _ => rfl

/-- A PRST leaves nothing running. -/
theorem prst_exec (s : State) (p : Nat) : (s.prst p).exec? p = none := by
  unfold State.prst
  extract_lets t1 idle t2 cs t3
  have h2 : t2.exec? p = none := congrArg Part.exec (State.part_updPart_same _ _ _)
  have hcars : t2.Clears (fun _ => True) (cs.foldl (fun s c => s.zeroCaravan c) t2) :=
    List.foldlRecOn cs _ (State.Clears.refl t2) fun t ht c _ => ht.trans ((zeroCaravan_clears t c).1.weaken fun _ _ => trivial)
  have hgrants : OnlyChanges [.tolls] (cs.foldl (fun s c => s.zeroCaravan c) t2) t3 := endGrants_changes _ _
  have hcols : OnlyChanges [.csr] t3 ((t3.resetCols (prstScope p cs) (·.prst)).setPartState p (boolNat (!cs.isEmpty))) :=
    (resetCols_changes _ _ _).step (setReg_regsOnly _ _ _).2 (List.Subset.refl _)
  exact (((exec_of_changes hcols (by decide) p).trans (exec_of_changes hgrants (by decide) p)).trans
    (exec_of_changes hcars.comps (by decide) p)).trans h2

/-- An FLR leaves what a partition runs. -/
theorem flr_exec (s : State) (f p : Nat) : (s.flr f).exec? p = s.exec? p := by
  unfold State.flr
  extract_lets t1 t2
  have h2 : t2.exec? p = s.exec? p :=
    exec_of_changes (((resetCols_changes s (funcScope f) (·.flr)).widen (gs := [.csr, .dev]) (by decide)).step (updDev_changes _ _) (by decide))
      (by decide) p
  split
  · rename_i q hq
    refine Eq.trans ?_ h2
    unfold State.exec?
    rw [State.part_updPart]
    split
    · rename_i he
      subst he
      rfl
    · rfl
  · exact h2

/-! The apply (R458). -/

/-- The partition is reset, and functions that leave it have an FLR. -/
def State.applyReset (s : State) (p : Nat) (d : PartDef) : State :=
  let old := s.fld (Csr.prtGrant_functions p)
  (List.range 8).foldl (fun s f => if bitOf old f && !bitOf d.functions.toNat f then s.flr f else s) (s.prst p)

/-- The new definition takes effect. -/
def State.applyDef (s : State) (p slot : Nat) (img : Image) : State :=
  (((s.installPart p (defOf img p)).placeSpares p).trimWindows p).updDev (fun x => { x with
    applying := none, active := slot, running := some img })

/-- The apply is noted in CFG_STATUS. -/
def State.applyNoted (s : State) (slot serial : Nat) : State :=
  ((s.setFld Csr.cfgStatus_applyState 0).setFld Csr.cfgStatus_activeSlot slot).setFld Csr.cfgStatus_imageSerial serial

theorem applyNow_eq {s : State} {p slot : Nat} {img : Image} (ha : s.dev.applying = some (p, slot, img))
    (he : (s.part p).exec = none) (hv : (s.part p).prev = none) :
    s.applyNow = ((s.applyReset p (defOf img p)).applyDef p slot img).applyNoted slot img.imageSerial.toNat := by
  unfold State.applyNow
  rw [ha]
  dsimp only
  rw [he, hv, if_neg (by decide)]
  rfl

theorem applyNow_busy {s : State} {p slot : Nat} {img : Image} (ha : s.dev.applying = some (p, slot, img))
    (hb : ((s.part p).exec.isSome || (s.part p).prev.isSome) = true) : s.applyNow = s := by
  unfold State.applyNow
  rw [ha]
  exact if_pos hb

theorem applyReset_exec (s : State) (p : Nat) (d : PartDef) : (s.applyReset p d).exec? p = none := by
  unfold State.applyReset
  refine List.foldlRecOn (motive := fun t : State => t.exec? p = none) _ _ (prst_exec s p) fun t ht f _ => ?_
  split
  · exact (flr_exec t f p).trans ht
  · exact ht

theorem applyDef_granted {s : State} {p slot : Nat} {img : Image} (hp : p < 8) (he : s.exec? p = none) :
    (s.applyDef p slot img).Granted p (defOf img p) ∧ (s.applyDef p slot img).exec? p = none := by
  obtain ⟨hg, hx⟩ := installPart_granted s hp (defOf img p)
  unfold State.applyDef
  generalize s.installPart p (defOf img p) = v at *
  have hs : v.SameGrant p (((v.placeSpares p).trimWindows p).updDev (fun x => { x with
      applying := none, active := slot, running := some img })) :=
    State.SameGrant.updDev (.trimWindows (.placeSpares hp (.refl v)))
  exact ⟨hs.granted hg, (hs.exec.trans hx).trans he⟩

theorem applyNoted_notes (s : State) (p slot : Nat) (serial : BitVec 32) (hp : p < 8) :
    (s.applyNoted slot serial.toNat).fld Csr.cfgStatus_applyState = 0 ∧
    (s.applyNoted slot serial.toNat).fld Csr.cfgStatus_imageSerial = serial.toNat ∧
    s.SameGrant p (s.applyNoted slot serial.toNat) ∧ (s.applyNoted slot serial.toNat).dev = s.dev := by
  unfold State.applyNoted
  refine ⟨?_, ?_, State.SameGrant.cfgStatus hp (.cfgStatus hp (.cfgStatus hp (.refl s))), ?_⟩
  · rw [State.fld_setFld_field _ _ _ _ (by decide) (by decide), State.fld_setFld_field _ _ _ _ (by decide) (by decide),
      State.fld_setFld_same _ _ _ (by decide), Nat.zero_mod]
  · rw [State.fld_setFld_same _ _ _ (by decide)]
    exact Nat.mod_eq_of_lt serial.isLt
  · simp only [State.setFld_dev]

/-- What an apply leaves of a partition at rest (R458). -/
structure State.Applied (t : State) (p slot : Nat) (img : Image) : Prop where
  done : t.dev.applying = none
  active : t.dev.active = slot
  running : t.dev.running = some img
  state : t.fld Csr.cfgStatus_applyState = 0
  serial : t.fld Csr.cfgStatus_imageSerial = img.imageSerial.toNat
  granted : t.Granted p (defOf img p)
  idle : t.exec? p = none

theorem applyNow_applies {s : State} {p slot : Nat} {img : Image} (ha : s.dev.applying = some (p, slot, img)) (hp : p < 8)
    (he : (s.part p).exec = none) (hv : (s.part p).prev = none) :
    s.applyNow.Applied p slot img := by
  rw [applyNow_eq ha he hv]
  have hx := applyReset_exec s p (defOf img p)
  generalize s.applyReset p (defOf img p) = v at *
  obtain ⟨hg, hx⟩ := applyDef_granted (slot := slot) (img := img) hp hx
  have hd : (v.applyDef p slot img).dev.applying = none ∧ (v.applyDef p slot img).dev.active = slot ∧
    (v.applyDef p slot img).dev.running = some img := ⟨rfl, rfl, rfl⟩
  generalize v.applyDef p slot img = u at *
  obtain ⟨hstate, hserial, hs, hdev⟩ := applyNoted_notes u p slot img.imageSerial hp
  generalize u.applyNoted slot img.imageSerial.toNat = t at *
  obtain ⟨hd1, hd2, hd3⟩ := hd
  exact ⟨hdev ▸ hd1, hdev ▸ hd2, hdev ▸ hd3, hstate, hserial, hs.granted hg, hs.exec.trans hx⟩

/-! Requests refused and accepted (R458). -/

theorem cfgStatus_regsOnly (s : State) (r : FieldRef) (v : Nat) (hr : r.off = Csr.cfgStatus) : s.RegsOnly [Csr.cfgStatus] (s.setFld r v) :=
  hr ▸ setReg_regsOnly s r.off _

/-- What a refused apply leaves: its reason, and nothing to apply. -/
theorem applyRefuse_refuses (s : State) {r : Nat} (hr : r < 16) :
    (s.applyRefuse r).dev = { s.dev with applying := none } ∧ (s.applyRefuse r).fld Csr.cfgStatus_applyState = 0 ∧
    (s.applyRefuse r).fld Csr.cfgStatus_applyReason = r ∧ OnlyRegs [Csr.cfgStatus] s (s.applyRefuse r) ∧
    OnlyChanges [.csr, .dev] s (s.applyRefuse r) := by
  obtain ⟨hr1, hc1⟩ := cfgStatus_regsOnly s Csr.cfgStatus_applyReason r rfl
  obtain ⟨hr2, hc2⟩ := cfgStatus_regsOnly (s.setFld Csr.cfgStatus_applyReason r) Csr.cfgStatus_applyState 0 rfl
  unfold State.applyRefuse
  have hdev : ((s.setFld Csr.cfgStatus_applyReason r).setFld Csr.cfgStatus_applyState 0).dev = s.dev := by simp only [State.setFld_dev]
  have hstate : ((s.setFld Csr.cfgStatus_applyReason r).setFld Csr.cfgStatus_applyState 0).fld Csr.cfgStatus_applyState = 0 := by
    rw [State.fld_setFld_same _ _ _ (by decide), Nat.zero_mod]
  have hreason : ((s.setFld Csr.cfgStatus_applyReason r).setFld Csr.cfgStatus_applyState 0).fld Csr.cfgStatus_applyReason = r := by
    rw [State.fld_setFld_field _ _ _ _ (by decide) (by decide), State.fld_setFld_same _ _ _ (by decide)]
    exact Nat.mod_eq_of_lt hr
  have hregs := hr1.trans hr2
  have hcomps := (hc1.widen (gs := [.csr, .dev]) (by decide)).step hc2 (by decide)
  generalize (s.setFld Csr.cfgStatus_applyReason r).setFld Csr.cfgStatus_applyState 0 = t at *
  exact ⟨congrArg (fun d : Dev => { d with applying := none }) hdev, (State.updDev_fld_acc _ _ _).trans hstate,
    (State.updDev_fld_acc _ _ _).trans hreason, fun o ho => (State.updDev_reg_acc _ _ _).trans (hregs o ho),
    hcomps.step (updDev_changes _ _) (by decide)⟩

/-- The reasons of a refusal (R458). -/
theorem applyRefusal_lt {cap rest p r : Nat} {new running : Image} (h : applyRefusal cap rest new running p = some r) : r < 16 := by
  unfold applyRefusal at h
  split_ifs at h
  all_goals
    obtain rfl := Option.some.inj h
    decide

section
variable {s : State} {p slot : Nat} {img run : Image} (hs : s.dev.i3cSeal = true) (ha : s.dev.applying = none)
  (hi : s.dev.slot slot = some img) (hr : s.dev.running = some run)
include hs ha hi hr

/-- The Seal serves a request while no image is being applied. -/
theorem applyAsk_eq_refuse {r : Nat} (hno : applyRefusal s.capW (s.sharesBut p) img run p = some r) :
    s.applyAsk p slot = s.applyRefuse r := by
  unfold State.applyAsk
  rw [hs, ha, hi, hr, if_neg (by decide)]
  simp only [hno]

theorem applyAsk_eq_accept (hok : applyRefusal s.capW (s.sharesBut p) img run p = none) :
    s.applyAsk p slot = (s.updDev (fun d => { d with applying := some (p, slot, img) })).setFld Csr.cfgStatus_applyState 2 := by
  unfold State.applyAsk
  rw [hs, ha, hi, hr, if_neg (by decide)]
  simp only [hok]

end

/-- What an accepted request leaves: an image to be applied once the partition's order has ended. -/
def State.Applying (s t : State) (p slot : Nat) (img : Image) : Prop :=
  t.dev = { s.dev with applying := some (p, slot, img) } ∧ t.fld Csr.cfgStatus_applyState = 2 ∧ OnlyRegs [Csr.cfgStatus] s t ∧
    OnlyChanges [.csr, .dev] s t

theorem applyAsk_accepts {s : State} {p slot : Nat} {img run : Image} (hs : s.dev.i3cSeal = true) (ha : s.dev.applying = none)
    (hi : s.dev.slot slot = some img) (hr : s.dev.running = some run) (hok : applyRefusal s.capW (s.sharesBut p) img run p = none) :
    s.Applying (s.applyAsk p slot) p slot img := by
  rw [applyAsk_eq_accept hs ha hi hr hok]
  have hdev : (s.updDev (fun d => { d with applying := some (p, slot, img) })).dev = { s.dev with applying := some (p, slot, img) } :=
    State.updDev_dev _ _
  have hd := updDev_changes s (fun d => { d with applying := some (p, slot, img) })
  have hreg (o : Nat) := State.updDev_reg_acc s (fun d => { d with applying := some (p, slot, img) }) o
  generalize s.updDev (fun d => { d with applying := some (p, slot, img) }) = v at *
  obtain ⟨hr1, hc1⟩ := cfgStatus_regsOnly v Csr.cfgStatus_applyState 2 rfl
  refine ⟨(State.setFld_dev _ _ _).trans hdev, ?_, fun o ho => (hr1 o ho).trans (hreg o), (hd.widen (by decide)).step hc1 (by decide)⟩
  rw [State.fld_setFld_same _ _ _ (by decide)]
  decide

/-- What a refusal leaves where nothing was being applied. -/
def State.Refused (s t : State) (r : Nat) : Prop :=
  t.dev = { s.dev with applying := none } ∧ t.fld Csr.cfgStatus_applyState = 0 ∧ t.fld Csr.cfgStatus_applyReason = r ∧
    OnlyRegs [Csr.cfgStatus] s t ∧ OnlyChanges [.csr, .dev] s t

theorem applyAsk_refuses {s : State} {p slot r : Nat} {img run : Image} (hs : s.dev.i3cSeal = true) (ha : s.dev.applying = none)
    (hi : s.dev.slot slot = some img) (hr : s.dev.running = some run) (hno : applyRefusal s.capW (s.sharesBut p) img run p = some r) :
    s.Refused (s.applyAsk p slot) r := by
  rw [applyAsk_eq_refuse hs ha hi hr hno]
  exact applyRefuse_refuses s (applyRefusal_lt hno)

/-- An image slot written leaves the other one. -/
def State.SlotWritten (s t : State) (slot : Fin 2) (img : Image) : Prop :=
  t.dev.slot slot = some img ∧ t.dev.slot (1 - slot.val) = s.dev.slot (1 - slot.val) ∧ t.dev.running = s.dev.running ∧
    OnlyChanges [.dev] s t

theorem imageWrite_written (s : State) (slot : Fin 2) (img : Image) :
    s.SlotWritten (s.updDev (fun d => if slot = 0 then { d with slot0 := some img } else { d with slot1 := some img })) slot img := by
  have hslots : ∀ slot : Fin 2, let d := (fun d : Dev => if slot = 0 then { d with slot0 := some img } else { d with slot1 := some img }) s.dev
      d.slot slot = some img ∧ d.slot (1 - slot.val) = s.dev.slot (1 - slot.val) ∧ d.running = s.dev.running
    | 0 => ⟨rfl, rfl, rfl⟩
    | 1 => ⟨rfl, rfl, rfl⟩
  obtain ⟨h1, h2, h3⟩ := hslots slot
  exact ⟨h1, h2, h3, updDev_changes _ _⟩

/-! No relation says anything of the queue, which the answer puts back. -/

theorem State.WarmReset.answered {s t : State} (h : s.WarmReset t) : s.WarmReset { t with pending := s.pending } := h

theorem State.Applied.answered {t : State} {p slot : Nat} {img : Image} {q : List Instr} (h : t.Applied p slot img) :
    State.Applied { t with pending := q } p slot img :=
  ⟨h.done, h.active, h.running, h.state, h.serial, ⟨h.granted.reg, h.granted.hbm, h.granted.cxl⟩, h.idle⟩

theorem State.Applying.answered {s t : State} {p slot : Nat} {img : Image} (h : s.Applying t p slot img) :
    s.Applying { t with pending := s.pending } p slot img := by
  obtain ⟨h1, h2, h3, h4⟩ := h
  exact ⟨h1, h2, h3, h4.answered⟩

theorem State.Refused.answered {s t : State} {r : Nat} (h : s.Refused t r) : s.Refused { t with pending := s.pending } r := by
  obtain ⟨h1, h2, h3, h4, h5⟩ := h
  exact ⟨h1, h2, h3, h4, h5.answered⟩

theorem State.SlotWritten.answered {s t : State} {slot : Fin 2} {img : Image} (h : s.SlotWritten t slot img) :
    s.SlotWritten { t with pending := s.pending } slot img := by
  obtain ⟨h1, h2, h3, h4⟩ := h
  exact ⟨h1, h2, h3, h4.answered⟩

/-! The statement. -/

/-- The clauses of a Seal that is in service. -/
theorem sealServes {s : State} (hs : s.dev.i3cSeal = true) :
    (∃ t, exec .i3cWrstRequest s = .next t ∧ s.WarmReset t) ∧
    (∀ (slot : Fin 2) (img : Image), ∃ t, exec (.i3cImageWrite slot img) s = .next t ∧ s.SlotWritten t slot img) ∧
    (∀ (p : PartId) (slot : Fin 2) (img run : Image), s.dev.applying = none → s.dev.slot slot = some img → s.dev.running = some run →
      (applyRefusal s.capW (s.sharesBut p) img run p = none →
        ∃ t, exec (.imageApplyRequest p slot) s = .next t ∧ s.Applying t p slot img) ∧
      ∀ r, applyRefusal s.capW (s.sharesBut p) img run p = some r →
        ∃ t, exec (.imageApplyRequest p slot) s = .next t ∧ s.Refused t r) ∧
    ∀ msg, exec (.i3cAttest msg) s = .next (s.emit (.i3c (Config.spdmAnswer msg))) := by
  refine ⟨⟨_, ?_, (wrst_warmReset s).answered⟩, fun slot img => ⟨_, ?_, (imageWrite_written s slot img).answered⟩,
    fun p slot img run ha hi hr => ⟨fun hok => ⟨_, rfl, (applyAsk_accepts hs ha hi hr hok).answered⟩,
      fun r hno => ⟨_, rfl, (applyAsk_refuses hs ha hi hr hno).answered⟩⟩, fun msg => ?_⟩
  · show execI3cWrstRequest s = _
    rw [execI3cWrstRequest, answer_eq, if_pos hs]
  · show execI3cImageWrite slot img s = _
    rw [execI3cImageWrite, answer_eq, if_pos hs]
  · show execI3cAttest msg s = _
    rw [execI3cAttest, answer_eq, if_pos hs]
    rfl

/-- Settles O57: a warm reset clears every caravan after its partitions have ended, whatever ran; an apply is a PRST, the new definition,
and its note. -/
theorem boardManages : Obligations.BoardManages := by
  unfold Obligations.BoardManages
  intro s
  refine ⟨fun hs => ?_, fun p slot img ha hp => ⟨fun he hv => ?_, fun hb => ⟨?_, ?_⟩⟩, fun haux => ?_, fun haux hsafe => ?_⟩
  · obtain ⟨hwrst, hwrite, happly, hattest⟩ := sealServes hs
    refine ⟨hwrst, hwrite, fun p slot img run ha hi hr => ⟨(happly p slot img run ha hi hr).1, fun r hno => ?_⟩, hattest⟩
    obtain ⟨t, ht, hdev, hstate, hreason, hregs, hcomps⟩ := (happly p slot img run ha hi hr).2 r hno
    refine ⟨t, ht, ?_, hstate, hreason, hregs, hcomps⟩
    rw [hdev, ← ha]
  · obtain ⟨hdone, hactive, hrunning, hstate, hserial, hg, hidle⟩ := (applyNow_applies ha hp he hv).answered (q := s.pending)
    obtain ⟨hcaravans, hfunctions, hgrants⟩ := hg.fields
    exact ⟨_, rfl, hdone, hactive, hrunning, hstate, hserial, hcaravans, hfunctions, hgrants, hg.hbm, hg.cxl, hidle⟩
  · show execImageApply s = _
    rw [execImageApply, answer_eq, applyNow_busy ha (by simpa using hb)]
  · have hexec : exec .imageApplyDrainTimeout s = .next { s.applyRefuse 3 with pending := s.pending } := by
      show execImageApplyDrainTimeout s = _
      rw [execImageApplyDrainTimeout, answer_eq, ha]
      dsimp only
      rw [if_pos (by simpa using hb)]
    obtain ⟨hdev, hstate, hreason, hregs, hcomps⟩ := State.Refused.answered (applyRefuse_refuses s (r := 3) (by decide))
    exact ⟨_, hexec, hdev, hreason, hstate, hregs, hcomps⟩
  · show execI3cModuleInfoRead s = _
    rw [execI3cModuleInfoRead, answer_eq, if_pos (show s.dev.i3c = true from haux)]
    rfl
  · show execI3cSafeHoldRead s = _
    rw [execI3cSafeHoldRead, answer_eq, if_pos (by rw [hsafe, Dev.i3c, haux]; rfl)]
    rfl

end Sys2Proof.Machine
end

section
/-!
PROOFS. Residues modulo 127 (R77 to R79, R82) and the wrap of W32 entries (R103): the residue from the digits of an entry's word, what the
check of an add catches, and what a column's residue channel forms.
-/
namespace Sys2Proof.Machine

/-! The residue of a value (R77). -/

/-- An entry stores the residue of its value. -/
def Entry.Sound (x : Entry) : Prop := x.res = residue x.v

theorem Entry.Sound.eq {x : Entry} (h : x.Sound) : x.res = residue x.v := h
theorem Entry.sound_zero : Entry.zero.Sound := rfl
theorem sound_entryOf (w32 : Bool) (a : Acc) : (entryOf w32 a).Sound := rfl

theorem residue_cast (v : Int) : (residue v : Int) = v % 127 := by
  unfold residue
  omega

theorem residue_lt (v : Int) : residue v < 127 := by
  unfold residue
  omega

/-- A power of 2^7 leaves a residue as it is, so a word is its digits of 7 bits and what is above them (R77). -/
theorem digits_emod (b n : Nat) :
    (b : Int) % 127 = ((((List.range n).map (fun i => bitsOf b (7 * i) 7)).sum + b / 2 ^ (7 * n) : Nat) : Int) % 127 := by
  induction n with
  | zero => simp
  | succ n ih =>
    have hstep : b / 2 ^ (7 * n) = 2 ^ 7 * (b / 2 ^ (7 * (n + 1))) + bitsOf b (7 * n) 7 := by
      rw [show 7 * (n + 1) = 7 * n + 7 by omega, Nat.pow_add, ← Nat.div_div_eq_div_mul, bitsOf, Nat.div_add_mod]
    rw [ih, List.range_succ, List.map_append, List.sum_append, hstep]
    simp only [List.map_cons, List.map_nil, List.sum_singleton]
    omega

/-- A bit, and what lies above it. -/
theorem div_two_pow_eq_bit (b k : Nat) : b / 2 ^ k = bitsOf b k 1 + 2 * (b / 2 ^ (k + 1)) := by
  rw [bitsOf, Nat.pow_succ 2 k, ← Nat.div_div_eq_div_mul, Nat.pow_one]
  omega

theorem two_pow_digits_emod (n : Nat) : (2 : Int) ^ (7 * n) % 127 = 1 % 127 := by
  induction n with
  | zero => rfl
  | succ n ih =>
    rw [Nat.mul_succ, pow_add]
    omega

/-- The topmost bit of a word in two's complement is the sign of its value, for a word of twice h values. -/
theorem value_of_word {h : Nat} {v : Int} (hlo : -h ≤ v) (hhi : v < h) :
    v = (v % (h * 2)).toNat - h * 2 * ((v % (h * 2)).toNat / h : Nat) := by
  obtain hv | hv := Int.le_total 0 v
  · rw [Int.emod_eq_of_lt hv (by omega), Nat.div_eq_of_lt (by omega)]
    omega
  · obtain rfl | hv := hv.eq_or_lt
    · simp
    · have he : v % (h * 2) = v + h * 2 := by
        rw [← Int.add_emod_right, Int.emod_eq_of_lt (by omega) (by omega)]
      rw [he, Nat.div_eq_of_lt_le (n := h) (k := 1) (by omega) (by omega)]
      omega

theorem two_pow_640_modEq : (2 : Int) ^ 640 ≡ 8 [ZMOD 127] := by
  rw [show 640 = 7 * 91 + 3 from rfl, pow_add]
  exact Int.ModEq.mul_right (a := 2 ^ (7 * 91)) (b := 1) (2 ^ 3) (two_pow_digits_emod 91)

/-- The value of a 640-bit word, from the word: its topmost bit is the sign. -/
theorem value_of_word_640 {v : Int} (hlo : -(2 ^ 639) ≤ v) (hhi : v < 2 ^ 639) :
    (v % 2 ^ 640).toNat / 2 ^ 640 = 0 ∧ v = (v % 2 ^ 640).toNat - 2 ^ 640 * ((v % 2 ^ 640).toNat / 2 ^ 639 : Nat) := by
  have hval := value_of_word (h := 2 ^ 639) (v := v) (by exact_mod_cast hlo) (by exact_mod_cast hhi)
  rw [Nat.cast_pow, Nat.cast_ofNat, ← pow_succ] at hval
  refine ⟨Nat.div_eq_of_lt ?_, hval⟩
  have hlt := Int.emod_lt_of_pos v (show (0 : Int) < 2 ^ 640 from pow_pos (by decide) _)
  rw [← Int.toNat_of_nonneg (Int.emod_nonneg v (pow_ne_zero 640 (by decide : (2 : Int) ≠ 0)))] at hlt
  exact_mod_cast hlt

/-- The residue from the digits of an entry's word (R77): 2^637 and 2^640 leave the residues 1 and 8. -/
theorem residue_digits (v : Int) (hlo : -(2 ^ 639) ≤ v) (hhi : v < 2 ^ 639) :
    (residue v : Int) = (((((List.range 91).map (fun i => bitsOf (v % 2 ^ 640).toNat (7 * i) 7)).sum +
      bitsOf (v % 2 ^ 640).toNat 637 1 + 2 * bitsOf (v % 2 ^ 640).toNat 638 1 : Nat) : Int) -
      4 * bitsOf (v % 2 ^ 640).toNat 639 1) % 127 := by
  obtain ⟨htop, hval⟩ := value_of_word_640 hlo hhi
  generalize (v % 2 ^ 640).toNat = b at htop hval ⊢
  have hdig := digits_emod b 91
  rw [show 7 * 91 = 637 from rfl] at hdig
  have h637 := div_two_pow_eq_bit b 637
  have h638 := div_two_pow_eq_bit b 638
  have h639 := div_two_pow_eq_bit b 639
  have hmod : v % 127 = ((b : Int) - 8 * (b / 2 ^ 639 : Nat)) % 127 := by
    conv_lhs => rw [hval]
    exact Int.ModEq.sub rfl (two_pow_640_modEq.mul_right _)
  rw [htop] at h639
  rw [residue_cast, hmod]
  generalize b / 2 ^ 639 = x639 at *
  generalize b / 2 ^ (637 + 1) = x638 at *
  generalize b / 2 ^ 637 = x637 at *
  omega

/-! What the check catches (R82). -/

theorem residue_eq_iff (v w : Int) : residue v = residue w ↔ v ≡ w [ZMOD 127] := by
  rw [← Int.natCast_inj, residue_cast, residue_cast, Int.ModEq]

theorem residue_add_eq_iff (v d : Int) : residue (v + d) = residue v ↔ (127 : Int) ∣ d := by
  rw [residue_eq_iff, Int.modEq_iff_dvd, sub_add_cancel_left, Int.dvd_neg]

/-- No power of two is a multiple of 127. -/
theorem not_dvd_two_pow (j : Nat) : ¬ (127 : Int) ∣ 2 ^ j := fun h =>
  absurd (Int.Prime.dvd_pow' (p := 127) (n := 2) (k := j) (by norm_num) h) (by decide)

theorem single_bit_caught (v : Int) (j : Nat) : residue (v + 2 ^ j) ≠ residue v ∧ residue (v - 2 ^ j) ≠ residue v := by
  refine ⟨fun h => not_dvd_two_pow j ((residue_add_eq_iff _ _).mp h), fun h => not_dvd_two_pow j ?_⟩
  rw [Int.sub_eq_add_neg] at h
  exact Int.dvd_neg.mp ((residue_add_eq_iff _ _).mp h)

/-! The residue channel (R78). -/

/-- Powers of two repeat every seven. -/
theorem two_pow_mod_seven (n : Nat) : 2 ^ (n % 7) ≡ 2 ^ n [MOD 127] := by
  conv_rhs => rw [← Nat.div_add_mod n 7, pow_add, pow_mul]
  have h : (2 ^ 7) ^ (n / 7) ≡ 1 [MOD 127] := by
    simpa using Nat.ModEq.pow (n / 7) (show 2 ^ 7 ≡ 1 [MOD 127] from rfl)
  simpa using (h.mul_right (2 ^ (n % 7))).symm

/-- The channel multiplies the residues of the significands and of the power of two. -/
theorem significands_mod (ma mb n : Nat) : ma % 127 * (mb % 127) * 2 ^ (n % 7) ≡ ma * mb * 2 ^ n [MOD 127] :=
  ((Nat.mod_modEq ma 127).mul (Nat.mod_modEq mb 127)).mul (two_pow_mod_seven n)

theorem residue_signed (neg : Bool) (n : Nat) :
    residue (if neg then -(n : Int) else n) = if neg then (127 - n % 127) % 127 else n % 127 := by
  unfold residue
  split <;> omega

theorem chanTerm_fin {u : Int} {sa sb : Bool} {ma mb : Nat} {ea eb : Int} (hu : u ≤ ea + eb) :
    chanTerm u (.fin sa ma ea) (.fin sb mb eb) = residue (unitsIn u (valMul (.fin sa ma ea) (.fin sb mb eb))) := by
  obtain ⟨n, hn⟩ := Int.eq_ofNat_of_zero_le (Int.sub_nonneg_of_le hu)
  have hmod : ((n : Int) % 7).toNat = n % 7 := by omega
  simp only [chanTerm, valMul, unitsIn, if_pos hu, pow2, hn, hmod, Int.toNat_natCast, residue_signed]
  rw [significands_mod ma mb n]

theorem chanTerm_notFin {u : Int} {a b : Val} (h : (a.isFin && b.isFin) = false) : chanTerm u a b = 0 := by
  cases a with
  | nan => rfl
  | inf => rfl
  | fin =>
    cases b with
    | nan => rfl
    | inf => rfl
    | fin => cases h

/-- Taking the residue after each term or of the sum is the same. -/
theorem foldl_mod_eq (ts : List Nat) (a : Nat) : ts.foldl (fun a t => (a + t) % 127) a % 127 = (a + ts.sum) % 127 := by
  induction ts generalizing a with
  | nil => rfl
  | cons t ts ih => rw [List.foldl_cons, ih, List.sum_cons, Nat.mod_add_mod, Nat.add_assoc]

theorem chanSum_lt (ts : List Nat) : chanSum ts < 127 :=
  List.foldlRecOn (motive := (· < 127)) ts _ (by decide) fun _ _ _ _ => Nat.mod_lt _ (by decide)

theorem chanSum_eq (ts : List Nat) : chanSum ts = ts.sum % 127 := by
  rw [← Nat.mod_eq_of_lt (chanSum_lt ts), chanSum, foldl_mod_eq, Nat.zero_add]

/-! An add under the check (R79). -/

theorem foldl_add_v (u : Int) (xs : List Val) (a : Acc) : (xs.foldl (Acc.add u) a).v = a.v + (xs.map (unitsIn u)).sum := by
  induction xs generalizing a with
  | nil => simp
  | cons x xs ih =>
    rw [List.foldl_cons, ih, List.map_cons, List.sum_cons]
    exact Int.add_assoc _ _ _

/-- The residue channel foretells the residue of the sum, so only an error shows. -/
theorem checkedAdd_eq {w32 : Bool} {e : Entry} (he : e.Sound) (xs : List Val) (d : Int) :
    e.checkedAdd w32 xs (residue ((xs.map (unitsIn (frameUnit w32))).sum)) d 0 =
      if (127 : Int) ∣ d then
        some (entryOf w32 { xs.foldl (Acc.add (frameUnit w32)) e.acc with v := (xs.foldl (Acc.add (frameUnit w32)) e.acc).v + d })
      else none := by
  have hsum := foldl_add_v (frameUnit w32) xs e.acc
  have hmod : (e.res + residue ((xs.map (unitsIn (frameUnit w32))).sum) + 0) % 127 =
      residue (xs.foldl (Acc.add (frameUnit w32)) e.acc).v := by
    rw [hsum, he.eq]
    simp only [Entry.acc, residue]
    omega
  simp only [Entry.checkedAdd, hmod, residue_add_eq_iff]

/-! W32 entries (R103). -/

theorem wrapTo_32 (x : Int) : wrapTo 32 x = (x + 2 ^ 31) % 2 ^ 32 - 2 ^ 31 := rfl

theorem entryOf_w32_bounds (a : Acc) :
    -(2 ^ 31) ≤ (entryOf true a).v ∧ (entryOf true a).v < 2 ^ 31 ∧ (2 ^ 32 : Int) ∣ (entryOf true a).v - a.v := by
  show -(2 ^ 31) ≤ wrapTo 32 a.v ∧ wrapTo 32 a.v < 2 ^ 31 ∧ (2 ^ 32 : Int) ∣ wrapTo 32 a.v - a.v
  rw [wrapTo_32]
  omega

/-- A sum that fits the frame does not wrap. -/
theorem entryOf_w32_of_fits {x : Int} {st : ESt} (hlo : -(2 ^ 31) ≤ x) (hhi : x < 2 ^ 31) : (entryOf true ⟨x, st⟩).v = x := by
  show wrapTo 32 x = x
  rw [wrapTo_32]
  omega

theorem product_int8_bounds (x y : BitVec 8) : -(2 ^ 14) ≤ x.toInt * y.toInt ∧ x.toInt * y.toInt ≤ 2 ^ 14 := by
  have hx : |x.toInt| ≤ 2 ^ 7 := abs_le.mpr ⟨BitVec.le_toInt x, (BitVec.toInt_lt (x := x)).le⟩
  have hy : |y.toInt| ≤ 2 ^ 7 := abs_le.mpr ⟨BitVec.le_toInt y, (BitVec.toInt_lt (x := y)).le⟩
  refine abs_le.mp ?_
  rw [abs_mul]
  exact mul_le_mul hx hy (abs_nonneg _) (by decide)

/-- Products of INT8 operands, summed. -/
def int8Sum (xs : List (BitVec 8 × BitVec 8)) : Int := (xs.map (fun x => x.1.toInt * x.2.toInt)).sum

theorem int8Sum_bounds (xs : List (BitVec 8 × BitVec 8)) : -(2 ^ 14 * xs.length) ≤ int8Sum xs ∧ int8Sum xs ≤ 2 ^ 14 * xs.length := by
  induction xs with
  | nil => exact ⟨le_rfl, le_rfl⟩
  | cons x xs ih =>
    have hx := product_int8_bounds x.1 x.2
    have hcons : int8Sum (x :: xs) = x.1.toInt * x.2.toInt + int8Sum xs := List.sum_cons
    rw [hcons, List.length_cons, Nat.cast_succ]
    omega

/-- Settles O60: the check compares residues, so it misses the multiples of 127 and nothing else; a W32 entry is the sum's residue modulo
2^32 that lies nearest zero. -/
theorem checksCatchAndWrap : Obligations.ChecksCatchAndWrap := by
  unfold Obligations.ChecksCatchAndWrap
  refine ⟨residue_add_eq_iff, fun u a b sa sb ma mb ea eb ha hb hu => ?_, fun u a b => chanTerm_notFin, chanSum_eq, fun w32 e xs d he => ?_,
    single_bit_caught, fun a => ?_, product_int8_bounds, fun xs hxs => ?_⟩
  · subst ha hb
    exact chanTerm_fin hu
  · have hadd := checkedAdd_eq (w32 := w32) he xs d
    exact ⟨fun hd => by rw [hadd, if_pos hd], fun hd => by rw [hadd, if_neg hd]⟩
  · obtain ⟨hlo, hhi, hmod⟩ := entryOf_w32_bounds a
    exact ⟨hlo, hhi, hmod, sound_entryOf true a⟩
  · obtain ⟨hlo, hhi⟩ := int8Sum_bounds xs
    exact entryOf_w32_of_fits (x := int8Sum xs) (by omega) (by omega)

end Sys2Proof.Machine
end

section
/-!
PROOFS. Every tally entry keeps the residue of its value (R77), in the tally and in what a pre-emption saves: an entry is made by `entryOf`,
or changed in its pending bit or a copy of its state only. A lemma for each operation carries that along, then one for each command.
-/
namespace Sys2Proof.Machine

/- One theorem after another: the side conditions of partition updates are small tactic proofs, and each of them would wait in a thread of its
own for all that stands before it. -/
set_option Elab.async false

/-- Every entry of a map is sound. -/
def SoundMap (m : Map Entry) : Prop := ∀ k x, (k, x) ∈ m → x.Sound

theorem SoundMap.filter {m : Map Entry} (h : SoundMap m) (f : Nat × Entry → Bool) : SoundMap (m.filter f) :=
  fun k x hx => h k x (List.mem_filter.mp hx).1

theorem SoundMap.get {m : Map Entry} (h : SoundMap m) (k : Nat) : (Map.get Entry.zero m k).Sound := by
  induction m with
  | nil => exact Entry.sound_zero
  | cons a m ih =>
    obtain ⟨j, x⟩ := a
    rw [Map.get]
    split
    · exact h j x (.head _)
    · exact ih fun k x hx => h k x (.tail _ hx)

/-- An add under the residue check writes a sound entry (R79). -/
theorem sound_checkedAdd {w32 : Bool} {e y : Entry} {xs : List Val} {chan err : Nat} {delta : Int}
    (h : e.checkedAdd w32 xs chan delta err = some y) : y.Sound := by
  unfold Entry.checkedAdd at h
  dsimp only at h
  split at h
  · exact Option.some.inj h ▸ sound_entryOf _ _
  · cases h

/-- Contributions are added by `addAll`, each of which makes the entry anew. -/
theorem sound_foldl_addAll {α : Type} {w32 : Bool} (xs : α → List Val) (l : List α) {e : Entry} (h : e.Sound) :
    (l.foldl (fun e a => e.addAll w32 (xs a)) e).Sound :=
  List.foldlRecOn l _ h fun _ _ _ _ => sound_entryOf _ _

theorem Map.mem_set {d : Entry} {m : Map Entry} {k : Nat} {v : Entry} {x : Nat × Entry} (h : x ∈ Map.set d m k v) :
    x = (k, v) ∨ x ∈ m := by
  unfold Map.set at h
  split at h
  · exact .inr (Map.mem_erase h)
  · exact Map.mem_insert h

/-- A pre-emption saved sound entries. -/
def Preempt.Sound (q : Preempt) : Prop := SoundMap q.entries

/-- A class whose commands, once every check has passed, keep the residues. -/
def Cls.KeepsResidues (c : Cls) : Prop := ∀ s x, s.Residues → (c.start s x).Residues

/-- Both states that a pace carries (R152) hold residues. -/
def BothResidues (x : State × State) : Prop := x.1.Residues ∧ x.2.Residues

namespace State.Residues

variable {s t : State}

/-- Only the tally and the partitions' records matter. -/
theorem congr (h : s.Residues) (h1 : t.tally = s.tally) (h2 : t.parts = s.parts) : t.Residues := by
  unfold State.Residues State.part at *
  rw [h1, h2]
  exact h

theorem tally (h : s.Residues) : SoundMap s.tally := h.1
theorem preempt {p q} (h : s.Residues) (hq : (s.part p).preempt = some q) : q.Sound := h.2 p q hq
theorem entry (h : s.Residues) (k : Nat) : (s.entry k).Sound := h.tally.get k

theorem ite {c : Prop} [Decidable c] (hs : s.Residues) (ht : t.Residues) : (if c then s else t).Residues := by
  split
  · exact hs
  · exact ht

/-- A loop keeps what each of its rounds keeps. -/
theorem foldl {α : Type} {f : State → α → State} {l : List α} (h : s.Residues) (hf : ∀ s a, s.Residues → (f s a).Residues) :
    (l.foldl f s).Residues := foldl_keeps f hf l s h

/-- A loop that carries more than the state. -/
theorem foldlFst {α β : Type} {f : State × β → α → State × β} {l : List α} {x : State × β} (h : x.1.Residues)
    (hf : ∀ x a, x.1.Residues → (f x a).1.Residues) : (l.foldl f x).1.Residues := by
  induction l generalizing x with
  | nil => exact h
  | cons a l ih => exact ih (hf x a h)

/-- The state of an answer that is taken apart. -/
theorem fst {α : Type} {x : State × α} {a : α} (h : x.1.Residues) (hx : x = (t, a)) : t.Residues := by
  subst hx
  exact h

theorem snd {α : Type} {x : α × State} {a : α} (h : x.2.Residues) (hx : x = (a, t)) : t.Residues := by
  subst hx
  exact h

theorem both (h : s.Residues) : BothResidues (s, s) := ⟨h, h⟩

/-- An answer in case there is one. -/
theorem getD {o : Option State} (h : s.Residues) (ho : ∀ t, o = some t → t.Residues) : (o.getD s).Residues := by
  cases ho' : o with
  | none => exact h
  | some t => exact ho t ho'

/-! The elementary updates of the state. -/

theorem setReg {o x} (h : s.Residues) : (s.setReg o x).Residues := h
theorem setFld {r v} (h : s.Residues) : (s.setFld r v).Residues := h
theorem count {r n} (h : s.Residues) : (s.count r n).Residues := h
theorem keepMax {r n} (h : s.Residues) : (s.keepMax r n).Residues := h
theorem setByte {a b} (h : s.Residues) : (s.setByte a b).Residues := h
theorem setBytes {a bs} (h : s.Residues) : (s.setBytes a bs).Residues := by
  induction bs generalizing s a with
  | nil => exact h
  | cons b bs ih => exact ih h.setByte
theorem zeroRange {a n} (h : s.Residues) : (s.zeroRange a n).Residues := h
theorem setCar {c x} (h : s.Residues) : (s.setCar c x).Residues := h
theorem updCar {c f} (h : s.Residues) : (s.updCar c f).Residues := h
theorem setBank {k x} (h : s.Residues) : (s.setBank k x).Residues := h
theorem setFlag {k x} (h : s.Residues) : (s.setFlag k x).Residues := h
theorem setQueue {k x} (h : s.Residues) : (s.setQueue k x).Residues := h
theorem setWctx {p x} (h : s.Residues) : (s.setWctx p x).Residues := h
theorem updWctx {p f} (h : s.Residues) : (s.updWctx p f).Residues := h
theorem setPort {i x} (h : s.Residues) : (s.setPort i x).Residues := h
theorem updPort {i f} (h : s.Residues) : (s.updPort i f).Residues := h
theorem setToll {i x} (h : s.Residues) : (s.setToll i x).Residues := h
theorem updDev {f} (h : s.Residues) : (s.updDev f).Residues := h
theorem updScout {f} (h : s.Residues) : (s.updScout f).Residues := h
theorem emit {o} (h : s.Residues) : (s.emit o).Residues := h
theorem draw (h : s.Residues) : s.draw.2.Residues := h

theorem withTolls {m} (h : s.Residues) : State.Residues { s with tolls := m } := h

/-- An entry is written that is sound. -/
theorem setEntry {k x} (h : s.Residues) (hx : x.Sound) : (s.setEntry k x).Residues :=
  ⟨fun _ _ hy => (Map.mem_set hy).elim (fun he => by cases he; exact hx) (h.tally _ _), h.2⟩

/-- Entries are taken out of the tally. -/
theorem filterTally {f : Nat × Entry → Bool} (h : s.Residues) : State.Residues { s with tally := s.tally.filter f } :=
  ⟨h.tally.filter f, h.2⟩

/-- A partition's record changes, and the entries that it holds saved are sound. -/
theorem savePart {p} {f : Part → Part} (h : s.Residues) (hf : ∀ q, (f (s.part p)).preempt = some q → q.Sound) :
    (s.updPart p f).Residues := by
  refine ⟨h.tally, fun r q hq => ?_⟩
  rw [State.part_updPart] at hq
  split at hq
  · exact hf q hq
  · exact h.preempt hq

/-- A partition's record changes, but not what a pre-emption saved. -/
theorem updPart {p} {f : Part → Part} (h : s.Residues) (hf : ∀ x : Part, (f x).preempt = x.preempt := by exact fun _ => rfl) :
    (s.updPart p f).Residues := h.savePart fun _ hq => h.preempt (hf _ ▸ hq)
/-- Nothing is saved any more. -/
theorem dropSaved {p} {f : Part → Part} (h : s.Residues) (hf : ∀ x : Part, (f x).preempt = none := by exact fun _ => rfl) :
    (s.updPart p f).Residues := h.savePart fun _ hq => nomatch (hf _).symm.trans hq

/-- What is saved is marked, and its entries are the same. -/
theorem markSaved {p} {f : Part → Part} {g : Preempt → Preempt} (h : s.Residues) (hf : ∀ x : Part, (f x).preempt = x.preempt.map g)
    (hg : ∀ q, (g q).entries = q.entries) : (s.updPart p f).Residues := by
  refine h.savePart fun q hq => ?_
  rw [hf] at hq
  obtain ⟨q', hq', rfl⟩ := Option.map_eq_some_iff.mp hq
  unfold Preempt.Sound
  rw [hg]
  exact h.preempt hq'

theorem setExec {p e} (h : s.Residues) : (s.setExec p e).Residues := h.updPart
theorem updExec {p f} (h : s.Residues) : (s.updExec p f).Residues := by
  unfold State.updExec
  split
  · exact h.setExec
  · exact h
theorem hold {p src len} (h : s.Residues) : (s.hold p src len).Residues :=
  (State.Residues.updPart h).setFld.count.draw.keepMax
theorem unhold {p src} (h : s.Residues) : (s.unhold p src).Residues := h.updPart
theorem event {p type unit detail} (h : s.Residues) : (s.event p type unit detail).Residues :=
  .ite h.updPart.emit.emit h.count

/-! The shared operations (Machine/Ops). -/

theorem realign {s0 : State} {p n} (h : s.Residues) : (s0.realign s p n).Residues :=
  .ite h.hold h
theorem realignFree {s0 : State} {p} (h : s.Residues) : (s0.realignFree s p).Residues :=
  .ite h.draw.realign h
theorem release {p src} (h : s.Residues) : (s.release p src).Residues :=
  h.unhold.realignFree

/-! Flits (Machine/Flits). -/

theorem sendFlit {i vc start end_ poison text} (h : s.Residues) : (s.sendFlit i vc start end_ poison text).Residues :=
  h.updPort.emit
theorem linkOnly {i nak vc credits} (h : s.Residues) : (s.linkOnly i nak vc credits).Residues :=
  .ite h h.emit
theorem freed {i vc n} (h : s.Residues) : (s.freed i vc n).Residues :=
  h.foldl fun _ _ h1 => h1.linkOnly

theorem runOwner {i vc} (h : s.Residues) : (s.runOwner i vc).Residues := by
  unfold State.runOwner
  split
  · exact h
  · extract_lets -underBinder _ s2 _ s3
    have h2 : s2.Residues := h.foldl fun _ _ h1 => .ite h1.sendFlit h1.sendFlit
    have h3 : s3.Residues := h2.updPort
    split
    · exact .ite h3 h3.freed
    · exact h3

theorem giveOut {i k src} (h : s.Residues) : (s.giveOut i k src).Residues :=
  h.updPort.runOwner

theorem pumpVc {i vc} : ∀ {n} {s : State}, s.Residues → (State.pumpVc i vc n s).Residues
  | 0, _, h => h
  | n + 1, s, h => by
    unfold State.pumpVc
    have h1 : (s.runOwner i vc).Residues := h.runOwner
    dsimp only
    split
    · exact h1
    · exact .ite (pumpVc h1.updPort.giveOut) h1

theorem pump {i} (h : s.Residues) : (s.pump i).Residues :=
  .ite (h.foldl fun _ _ h1 => h1.pumpVc) h
theorem toPartner {i kind payload} (h : s.Residues) : (s.toPartner i kind payload).Residues :=
  .ite h.updPort.pump h

theorem post {k target} (h : s.Residues) : (s.post k target).Residues := by
  unfold State.post
  split
  · exact h
  · exact .ite h.updPort.pump h.count

theorem sendPacket {cls dest kind part index caravan addr payload} (h : s.Residues) :
    (s.sendPacket cls dest kind part index caravan addr payload).Residues :=
  h.post

/-! Operands (Machine/Operands). -/

theorem setVbyte {p g va b} (h : s.Residues) : (s.setVbyte p g va b).Residues := by
  unfold State.setVbyte
  split
  · exact h.setByte
  · exact h

theorem setVbytes {p g} : ∀ {bs} {va} {s : State}, s.Residues → (s.setVbytes p g va bs).Residues
  | [], _, _, h => h
  | _ :: bs, _, _, h => setVbytes (bs := bs) h.setVbyte

theorem setElem {p g d code j c bits} (h : s.Residues) : (s.setElem p g d code j c bits).Residues :=
  h.setVbytes
theorem eccSram {h one two bad} (hs : s.Residues) : (s.eccSram h one two bad).Residues :=
  hs.count.count.count

theorem eccRead {pa one two bad} (h : s.Residues) : (s.eccRead pa one two bad).Residues := by
  unfold State.eccRead
  split
  · extract_lets -underBinder _ s1
    have h1 : s1.Residues := .ite h h.updDev
    exact h1.count.count.count
  · exact h.eccSram
  · exact h.eccSram
  · exact h

theorem eccWords {pas} (h : s.Residues) : (s.eccWords pas).Residues :=
  h.foldl fun _ _ h1 => h1.eccRead

theorem poisonRead {p g va} (h : s.Residues) : (s.poisonRead p g va).Residues := by
  unfold State.poisonRead
  split
  · exact h.eccRead
  · exact h

/-! Flags and queues (Machine/Flags). -/

theorem drvStatus {c} (h : s.Residues) : (s.drvStatus c).Residues :=
  h.setFld.setFld
theorem scramble {pa n} (h : s.Residues) : (s.scramble pa n).Residues :=
  h.setBytes.congr rfl rfl
theorem invalidateStaging {c} (h : s.Residues) : (s.invalidateStaging c).Residues :=
  h.zeroRange.zeroRange
theorem scanOver {c} (h : s.Residues) : (s.scanOver c).Residues :=
  h.setFld.setFld
theorem scrambleAhead {c} (h : s.Residues) : (s.scrambleAhead c).Residues :=
  h.foldl fun _ _ h1 => h1.foldl fun _ _ h2 => h2.foldl fun _ _ h3 => h3.scramble

theorem stopOrder {p} (h : s.Residues) : (s.stopOrder p).Residues := by
  unfold State.stopOrder
  split
  · exact h
  · extract_lets cs older s1 s2 s3 s4 s5
    have h1 : s1.Residues := h.foldl fun _ _ h => h.scramble
    have h2 : s2.Residues := h1.foldl fun _ _ h => h.scrambleAhead
    have h3 : s3.Residues := h2.foldl fun _ _ h => h.invalidateStaging
    have h4 : s4.Residues := h3.foldl fun _ _ h => h.updCar.scanOver
    have h5 : s5.Residues := h4
    exact h5.updPart.setExec

theorem raiseOutside {p unit code w3} (h : s.Residues) : (s.raiseOutside p unit code w3).Residues :=
  h.updPart.event

theorem raise {p unit code off w3} (h : s.Residues) : (s.raise p unit code off w3).Residues := by
  unfold State.raise
  split
  · exact h.raiseOutside
  · extract_lets -underBinder
    split
    · extract_lets -underBinder s1
      have h1 : s1.Residues := .ite h.count h
      exact h1.stopOrder.updExec
    · split
      · extract_lets -underBinder s2
        have h2 : s2.Residues := h.count
        exact .ite h2.updExec h2
      · exact h

theorem excess {p cls} (h : s.Residues) : (s.excess p cls).Residues := by
  unfold State.excess
  split
  · exact h
  · exact .ite h.hold.count h

theorem useAs {p e cls u} (h : s.Residues) : (s.useAs p e cls u).Residues := by
  unfold State.useAs
  extract_lets -underBinder _ s1
  have h1 : s1.Residues := h.setExec
  exact .ite h1 h1.hold

theorem useClass {p cls u} (h : s.Residues) : (s.useClass p cls u).Residues := by
  unfold State.useClass
  split
  · exact h
  · exact h.useAs

theorem signal {p off unit c idx cs} (h : s.Residues) : (s.signal p off unit c idx cs).Residues := by
  unfold State.signal
  split
  · exact h
  · split
    · exact h
    · exact .ite h.raise (.ite h.raise h.useAs)

theorem signalOutside {p idx} (h : s.Residues) : (s.signalOutside p idx).Residues :=
  .ite h.raise h.setFlag

theorem matureSignals {p} (h : s.Residues) : (s.matureSignals p).Residues := by
  unfold State.matureSignals
  split
  · exact h
  · extract_lets -underBinder _ s2
    have h2 : s2.Residues := h.foldl fun _ _ h1 => h1.setFlag.excess
    exact h2.setExec

theorem takeWait {p c idx} (h : s.Residues) : (s.takeWait p c idx).Residues :=
  .ite h h.setFlag

theorem qPush {c q ready off bs} (h : s.Residues) : (s.qPush c q ready off bs).Residues := by
  unfold State.qPush
  extract_lets -underBinder _ s1
  have h1 : s1.Residues := h.setBytes
  exact h1.setQueue.setFld

theorem qDrop {c q} (h : s.Residues) : (s.qDrop c q).Residues :=
  h.setQueue.setFld
theorem sticky {p bit} (h : s.Residues) : (s.sticky p bit).Residues :=
  h.updExec

theorem rangeEvents {p c stn ovf unf} (h : s.Residues) : (s.rangeEvents p c stn ovf unf).Residues := by
  unfold State.rangeEvents
  extract_lets -underBinder s1
  have h1 : s1.Residues := .ite h h.count.sticky
  exact .ite h1 h1.count.sticky

theorem inputOvf {p c stn n} (h : s.Residues) : (s.inputOvf p c stn n).Residues :=
  .ite h h.count.sticky

theorem updEvents {p ovf unf} (h : s.Residues) : (s.updEvents p ovf unf).Residues := by
  unfold State.updEvents
  extract_lets -underBinder s1
  have h1 : s1.Residues := .ite h h.count.sticky
  exact .ite h1 h1.count.sticky

/-! The mesh and the Pass (Machine/Mesh). -/

theorem countFlits {path chans h bytes} (hs : s.Residues) : (s.countFlits path chans h bytes).Residues := by
  unfold State.countFlits
  extract_lets -underBinder s2
  have h2 : s2.Residues := hs.foldl fun _ _ h1 => h1.count
  exact h2.foldl fun _ _ h3 => h3.count

theorem sendMesh {k a b plane bytes} (h : s.Residues) : (s.sendMesh k a b plane bytes).Residues := by
  unfold State.sendMesh
  extract_lets -underBinder
  split
  · exact h
  · extract_lets -underBinder s1
    have h1 : s1.Residues := h.countFlits
    exact .ite h1 h1.count

theorem sendControl {a b} (h : s.Residues) : (s.sendControl a b).Residues :=
  .ite h h.sendMesh

theorem sendTree {a bs plane bytes} (h : s.Residues) : (s.sendTree a bs plane bytes).Residues := by
  unfold State.sendTree
  split
  extract_lets -underBinder s1
  have h1 : s1.Residues := h.countFlits
  exact h1.foldl fun _ _ h2 => h2.sendMesh

/-! Fencing and faults (Machine/Fence). -/

theorem partFault70 {p unit kind} (h : s.Residues) : (s.partFault70 p unit kind).Residues := by
  unfold State.partFault70
  split
  · exact h
  · exact .ite h h.raise

theorem setPartState {p v} (h : s.Residues) : (s.setPartState p v).Residues :=
  h.setFld

theorem fromHost {f act} (h : s.Residues) (hf : ∀ p s, s.Residues → (act p s).Residues) : (s.fromHost f act).Residues := by
  unfold State.fromHost
  split
  · split
    · exact hf _ _ h
    · exact h
  · exact h

theorem suspend {p unit} (h : s.Residues) : (s.suspend p unit).Residues := by
  unfold State.suspend
  split
  · exact h
  · extract_lets -underBinder s1 s2
    have h1 : s1.Residues := h.partFault70
    have h2 : s2.Residues := .ite h1.setPartState h1
    exact h2.updPart.setFld.event

theorem dropGrants (h : s.Residues) : (s.dropGrants).Residues :=
  h

theorem moveWindows {p c d} (h : s.Residues) : (s.moveWindows p c d).Residues := by
  unfold State.moveWindows
  refine h.foldl fun _ _ h1 => ?_
  split
  · exact h1.setFld
  · exact h1

theorem wghFollow {p} (h : s.Residues) : (s.wghFollow p).Residues := by
  unfold State.wghFollow
  extract_lets -underBinder _ _ s1
  have h1 : s1.Residues := h.setFld
  exact .ite h (.ite h1 h1.updPart)

theorem relocate {p c d} (h : s.Residues) : (s.relocate p c d).Residues :=
  h.updPart.moveWindows.wghFollow

theorem withdrawCar {c unit} (h : s.Residues) : (s.withdrawCar c unit).Residues := by
  unfold State.withdrawCar
  split
  · exact h
  · extract_lets -underBinder _ s1
    have h1 : s1.Residues := h.suspend
    split
    · exact h1
    · exact .ite h1.updPart h1.relocate.count

theorem loseOrders (h : s.Residues) : (s.loseOrders).Residues := by
  unfold State.loseOrders
  extract_lets -underBinder s2
  have h2 : s2.Residues := h.foldl fun _ _ h1 => h1.dropSaved
  exact h2.foldl fun _ _ h3 => h3.updCar

theorem loseJournals {k} (h : s.Residues) : (s.loseJournals k).Residues := by
  unfold State.loseJournals
  extract_lets -underBinder _ _ s1
  have h1 : s1.Residues := h.updDev
  exact .ite h (.ite h1 h1.loseOrders)

theorem loseStack {k unit} (h : s.Residues) : (s.loseStack k unit).Residues := by
  unfold State.loseStack
  split
  · exact h
  · extract_lets -underBinder _ s2 s5 s6
    have h2 : s2.Residues := h.foldl fun _ _ h1 => h1.suspend
    have h5 : s5.Residues := by
      unfold s5
      refine h2.foldl fun _ _ h3 => ?_
      refine h3.foldl fun _ _ h4 => ?_
      split
      · exact .ite h4.setFld h4
      · exact h4
    have h6 : s6.Residues := h5.updDev.zeroRange
    exact h6.loseJournals.dropGrants

theorem loseCar {c unit} (h : s.Residues) : (s.loseCar c unit).Residues := by
  unfold State.loseCar
  split
  · exact h
  · extract_lets -underBinder s1 s2
    have h1 : s1.Residues := h.updDev
    have h2 : s2.Residues := h1.zeroRange.zeroRange
    exact h2.dropGrants.withdrawCar

theorem loseChan {ch state} (h : s.Residues) : (s.loseChan ch state).Residues :=
  h.setFld.dropGrants

theorem loseStation {c stn unit} (h : s.Residues) : (s.loseStation c stn unit).Residues := by
  unfold State.loseStation
  extract_lets -underBinder s1
  have h1 : s1.Residues := h.setFld
  exact .ite h1.loseCar h1.withdrawCar

theorem losePort {i} (h : s.Residues) : (s.losePort i).Residues := by
  unfold State.losePort
  extract_lets -underBinder _ _ s1 s2
  have h1 : s1.Residues := h.setPort
  have h2 : s2.Residues := h1.setFld.setFld.setFld
  exact h2.setFld.dropGrants

theorem loseWgh {h unit} (hs : s.Residues) : (s.loseWgh h unit).Residues :=
  hs.foldl fun _ _ h1 => .ite h1.updPart.suspend h1
theorem loseEngine {h unit} (hs : s.Residues) : (s.loseEngine h unit).Residues :=
  hs.foldl fun _ _ h1 => .ite h1.suspend h1
theorem loseHost {h} (hs : s.Residues) : (s.loseHost h).Residues :=
  hs.updDev.dropGrants
theorem loseSeal {h} (hs : s.Residues) : (s.loseSeal h).Residues :=
  hs.updDev

theorem loseEnds {h inst unit} (hs : s.Residues) : (s.loseEnds h inst unit).Residues := by
  unfold State.loseEnds
  extract_lets -underBinder _ s1 s3 s5 s6 s7 s8
  have h1 : s1.Residues := .ite hs.loseStack hs
  have h3 : s3.Residues := h1.foldl fun _ _ h2 => .ite h2.loseCar h2
  have h5 : s5.Residues := h3.foldl fun _ _ h4 => .ite h4.losePort h4
  have h6 : s6.Residues := .ite h5.loseHost h5
  have h7 : s7.Residues := .ite h6.loseWgh h6
  have h8 : s8.Residues := .ite h7.loseEngine h7
  exact .ite h8.loseSeal h8

theorem loseRouter {h inst unit} (hs : s.Residues) : (s.loseRouter h inst unit).Residues := by
  unfold State.loseRouter
  extract_lets -underBinder s1 s3
  have h1 : s1.Residues := hs.setFld
  have h3 : s3.Residues := .ite (h1.foldl fun _ _ h2 => h2.loseChan) h1
  exact h3.loseEnds

theorem loseHalf {h unit} (hs : s.Residues) : (s.loseHalf h unit).Residues := by
  unfold State.loseHalf
  split
  · exact hs
  · extract_lets -underBinder s1 s2 s3 s5 s7 s8 s10
    have h1 : s1.Residues := hs.updDev
    have h2 : s2.Residues := h1.loseSeal.loseHost
    have h3 : s3.Residues := h2.setFld
    have h5 : s5.Residues := h3.foldl fun _ _ h4 => .ite h4.loseChan h4
    have h7 : s7.Residues := h5.foldl fun _ _ h6 => .ite h6.losePort h6
    have h8 : s8.Residues := h7.loseWgh
    have h10 : s10.Residues := h8.foldl fun _ _ h9 => h9.loseCar
    exact h10.foldl fun _ _ h11 => h11.loseStack

theorem cutTraffic {cut unit} (h : s.Residues) : (s.cutTraffic cut unit).Residues :=
  h.foldl fun _ _ h1 => h1.partFault70

theorem applyUnit {f} (h : s.Residues) : (s.applyUnit f).Residues := by
  unfold State.applyUnit
  split
  · exact h
  · extract_lets -underBinder
    split
    · exact .ite h.setFld h.loseStation
    · exact h.loseCar
    · exact h.loseCar
    · split
      · extract_lets -underBinder s1
        have h1 : s1.Residues := .loseRouter (.ite h.cutTraffic h)
        exact .ite h1.loseHalf h1
      · extract_lets -underBinder s2
        have h2 : s2.Residues := h.cutTraffic
        exact .ite h2.setFld h2.setFld
    · exact h.cutTraffic.loseChan
    · exact h.loseStack
    · exact h.losePort
    · exact h.loseHalf
    · exact h

theorem safeHoldNow (h : s.Residues) : (s.safeHoldNow).Residues := by
  unfold State.safeHoldNow
  split
  · exact h
  · extract_lets -underBinder s1 s2
    have h1 : s1.Residues := h.updDev
    have h2 : s2.Residues := h1.emit
    exact h2.foldl fun _ _ h3 => .ite h3.toPartner h3

theorem record1 {unit kind detail} (h : s.Residues) : (s.record1 unit kind detail).Residues := by
  unfold State.record1
  split
  · split
    rename_i _ s1 heq
    have h1 : s1.Residues := h.draw.snd heq
    extract_lets -underBinder _ s2
    have h2 : s2.Residues := h1.updDev
    exact .ite h2.safeHoldNow h2
  · exact h.safeHoldNow

theorem fenceUnit {unit detail} (h : s.Residues) : (s.fenceUnit unit detail).Residues :=
  .ite h h.record1.count.applyUnit
theorem fenceStack {k} (h : s.Residues) : (s.fenceStack k).Residues :=
  h.fenceUnit
theorem fenceCar {c} (h : s.Residues) : (s.fenceCar c).Residues :=
  h.fenceUnit

theorem fenceEnds {r} (h : s.Residues) : (s.fenceEnds r).Residues := by
  unfold State.fenceEnds
  extract_lets -underBinder s1 s3 s5
  have h1 : s1.Residues := .ite h.fenceStack h
  have h3 : s3.Residues := h1.foldl fun _ _ h2 => .ite h2.fenceCar h2
  have h5 : s5.Residues := h3.foldl fun _ _ h4 => .ite h4.fenceUnit h4
  exact h5.loseEnds

theorem cutPairs : ∀ {n} {s : State}, s.Residues → (State.cutPairs n s).Residues
  | 0, _, h => h
  | n + 1, s, h => by
    unfold State.cutPairs
    dsimp only
    split
    · exact h
    · exact cutPairs h.fenceEnds

theorem applyFence {f} (h : s.Residues) : (s.applyFence f).Residues := by
  unfold State.applyFence
  extract_lets -underBinder s1
  have h1 : s1.Residues := h.applyUnit
  exact .ite h1.cutPairs h1

theorem fence {unit detail} (h : s.Residues) : (s.fence unit detail).Residues := by
  unfold State.fence
  split
  · exact h
  · extract_lets -underBinder s1
    have h1 : s1.Residues := h.fenceUnit
    exact .ite h1.cutPairs h1

theorem fenceStation {g} (h : s.Residues) : (s.fenceStation g).Residues :=
  h.fence
theorem fenceHalf {h} (hs : s.Residues) : (s.fenceHalf h).Residues :=
  hs.fence

theorem fenceEnd {pa} (h : s.Residues) : (s.fenceEnd pa).Residues := by
  unfold State.fenceEnd
  split
  · exact h.fenceStack
  · exact h.fenceCar
  · exact h.fenceCar
  · exact h

theorem fetchRange {cs pa n} (h : s.Residues) : (s.fetchRange cs pa n).Residues := by
  unfold State.fetchRange
  split
  · extract_lets -underBinder _ s1
    have h1 : s1.Residues := .ite h h.sendMesh
    exact .ite h (.ite h.fenceEnd (.ite h1.sendMesh h1.sendTree))
  · exact h

theorem fetchRows {cs rs} (h : s.Residues) : (s.fetchRows cs rs).Residues :=
  h.foldl fun _ _ h1 => h1.foldl fun _ _ h2 => h2.fetchRange

theorem meshTo {store a pa n} (h : s.Residues) : (s.meshTo store a pa n).Residues := by
  unfold State.meshTo
  refine h.foldl fun _ _ h1 => ?_
  split
  split
  · exact h1
  · exact .ite h1 (.ite h1.fenceEnd h1.sendMesh.sendMesh)

theorem meshRow {store a p g va n} (h : s.Residues) : (s.meshRow store a p g va n).Residues := by
  unfold State.meshRow
  split
  · exact h.meshTo
  · exact h

theorem storeVbytes {a p g va bs} (h : s.Residues) : (s.storeVbytes a p g va bs).Residues :=
  h.meshRow.setVbytes
theorem repairRow {c i m} (h : s.Residues) : (s.repairRow c i m).Residues :=
  .ite h.count.record1 (.ite h.fenceCar h.fenceStation)

/-! The issue of a command (Machine/Issue). -/

theorem poisonCheck {p unit off rs} (h : s.Residues) (ht : s.poisonCheck p unit off rs = some t) : t.Residues := by
  unfold State.poisonCheck at ht
  split at ht
  · cases ht
    exact h.poisonRead.raise
  · cases ht

theorem issueAt {x} (h : s.Residues) : (s.issueAt x).Residues :=
  h.updExec

theorem clsProceed {c : Cls} {x} (h : s.Residues) (hc : c.KeepsResidues) : (c.proceed s x).Residues := by
  unfold Cls.proceed
  split
  · exact h
  · dsimp only
    refine .ite h.setExec.hold ?_
    split
    · exact h.raise
    · split
      · exact h.raise
      · exact h.setExec.hold
      · refine .ite h.raise ?_
        split
        · exact h.raise
        · refine .ite h.setExec.hold ?_
          split
          · rename_i heq
            exact h.poisonCheck heq
          · exact hc _ _ h.takeWait.issueAt

theorem clsIssue {c : Cls} {x e} (h : s.Residues) (hc : c.KeepsResidues) : (c.issue s x e).Residues := by
  unfold Cls.issue
  split
  · exact h.raise
  · exact h.clsProceed hc

theorem clsOffer {c : Cls} {p op w w1} (h : s.Residues) (hc : c.KeepsResidues) : (c.offer s p op w w1).Residues := by
  unfold Cls.offer
  split
  · split
    · exact h.clsIssue hc
    · exact h
  · exact h

theorem clsResume {c : Cls} {p op w w1} (h : s.Residues) (hc : c.KeepsResidues) : (c.resume s p op w w1).Residues := by
  unfold Cls.resume
  split
  · exact h.setExec.unhold.unhold.clsProceed hc
  · exact h

theorem enterWhen {may x units lat prog left descs} (h : s.Residues) : (s.enterWhen may x units lat prog left descs).Residues := by
  unfold State.enterWhen
  split
  · exact h
  · exact h.setExec

theorem enter {x units lat prog left descs} (h : s.Residues) : (s.enter x units lat prog left descs).Residues :=
  h.enterWhen
theorem doneAtIssue {x unit} (h : s.Residues) : (s.doneAtIssue x unit).Residues :=
  h.signal
theorem dest {p rs} (h : s.Residues) : (s.dest p rs).Residues :=
  h.updExec

/-! The torus links (Machine/Links). -/

theorem leave {i k} (h : s.Residues) : (s.leave i k).Residues :=
  .ite h.updPort.freed h
theorem targetDrop {i k} (h : s.Residues) : (s.targetDrop i k).Residues :=
  h.leave.count
theorem windowDrop {i k} (h : s.Residues) : (s.windowDrop i k).Residues :=
  h.targetDrop.emit

theorem closeOwners {i} (h : s.Residues) : (s.closeOwners i).Residues := by
  unfold State.closeOwners
  extract_lets -underBinder s3
  have h3 : s3.Residues := h.foldl fun _ _ h1 => .ite h1 (h1.foldl fun _ _ h2 => h2.updPort.runOwner.count)
  refine h3.foldl fun _ _ h4 => ?_
  extract_lets -underBinder s5
  have h5 : s5.Residues := .ite h4.sendFlit.count h4
  split
  · exact h5.freed
  · exact h5

theorem closeArriving {i vc a} (h : s.Residues) : (s.closeArriving i vc a).Residues := by
  unfold State.closeArriving
  extract_lets -underBinder
  split
  · exact h
  · split
    · exact h
    · extract_lets -underBinder _ _ s2
      have h2 : s2.Residues := h.foldl fun _ _ h1 => h1.sendFlit
      exact .ite h h2.sendFlit.count

theorem flushPort {i} (h : s.Residues) : (s.flushPort i).Residues := by
  unfold State.flushPort
  extract_lets -underBinder _ s2 _ s3 s5
  have h2 : s2.Residues := (h.foldl fun _ _ h1 => h1.closeArriving).closeOwners
  have h3 : s3.Residues := h2.setPort
  have h5 : s5.Residues := h3.foldl fun _ _ h4 => h4.updWctx
  exact h5.setFld.setFld

theorem isolate {i} (h : s.Residues) : (s.isolate i).Residues := by
  unfold State.isolate
  extract_lets -underBinder s1 s2 _ s3
  have h1 : s1.Residues := h.flushPort.setFld
  have h2 : s2.Residues := h1.count.emit
  have h3 : s3.Residues := h2.updPort
  exact .ite (.ite h3.draw.fence h3.draw) h3

theorem portUp {i} (h : s.Residues) : (s.portUp i).Residues := by
  unfold State.portUp
  extract_lets -underBinder _ _ s1
  have h1 : s1.Residues := h.setFld
  exact .ite h1 h1.updPort

theorem portOff {i} (h : s.Residues) : (s.portOff i).Residues := by
  unfold State.portOff
  extract_lets -underBinder _ s1 s2
  have h1 : s1.Residues := .ite h h.flushPort
  have h2 : s2.Residues := .ite h1.updPort h1
  exact h2.setFld

theorem lrst {i} (h : s.Residues) : (s.lrst i).Residues := by
  unfold State.lrst
  extract_lets -underBinder s1 s2 s3
  have h1 : s1.Residues := h.flushPort
  have h2 : s2.Residues := h1.updPort
  have h3 : s3.Residues := h2.setFld.setFld.setFld
  exact h3.setFld.portUp

theorem spdmCame {i bytes} (h : s.Residues) : (s.spdmCame i bytes).Residues := by
  unfold State.spdmCame
  split
  split
  · exact h.toPartner
  · exact h

theorem initExchange {i coord peerPort lanes reversed} (h : s.Residues) : (s.initExchange i coord peerPort lanes reversed).Residues := by
  unfold State.initExchange
  split
  · exact h
  · extract_lets -underBinder s1 s2 s3 _ s4
    have h1 : s1.Residues := h.setFld.setFld
    have h2 : s2.Residues := h1.setFld
    have h3 : s3.Residues := h2.setFld
    have h4 : s4.Residues := h3.setFld
    exact .ite h4.spdmCame h4

theorem resend {i} (h : s.Residues) : (s.resend i).Residues := by
  unfold State.resend
  extract_lets -underBinder _ s1 s3
  have h1 : s1.Residues := h.count.updPort
  have h3 : s3.Residues := h1.foldl fun _ _ h2 => h2.emit
  exact .ite h (.ite h3.isolate h3)

theorem nakFlit {i} (h : s.Residues) : (s.nakFlit i).Residues :=
  .ite h h.updPort.linkOnly

theorem linkAcks {i w} (h : s.Residues) : (s.linkAcks i w).Residues := by
  unfold State.linkAcks
  extract_lets -underBinder _ _ s1 _ s2 s3
  have h1 : s1.Residues := .ite h.updPort h
  have h2 : s2.Residues := h1.updPort
  have h3 : s3.Residues := .ite h2.resend h2
  exact h3.pump

theorem takeFlit {i w body} (h : s.Residues) : (s.takeFlit i w body).Residues := by
  unfold State.takeFlit
  extract_lets -underBinder _ _ _ _ s1 s2 _ _ s3
  have h1 : s1.Residues := h.freed
  have h2 : s2.Residues := .ite (.ite h1 h1.count) h
  have h3 : s3.Residues := h2.updPort
  exact .ite h2.updPort (.ite h3.freed (.ite h3.freed.count (.ite h3.updPort (.ite h3.freed.spdmCame h3.freed.count.emit))))

theorem flit {i w} (h : s.Residues) : (s.flit i w).Residues := by
  unfold State.flit
  extract_lets -underBinder _ _ _ _ _ _ s1 s2
  have h1 : s1.Residues := h.linkAcks
  have h2 : s2.Residues := h1.updPort
  exact .ite h (.ite h.count.nakFlit (.ite h.isolate (.ite h1 (.ite h (.ite h.count.isolate (.ite h.nakFlit (.ite h1 h2.linkOnly.takeFlit)))))))

theorem received {i x} (h : s.Residues) : (s.received i x).Residues := by
  unfold State.received
  split
  · exact h.flit
  · extract_lets -underBinder _ s1
    have h1 : s1.Residues := h.count
    exact .ite h (.ite h1 h1.count.nakFlit)

theorem park {i k} (h : s.Residues) : (s.park i k).Residues :=
  .ite h h.updPort
theorem unqueue {i k} (h : s.Residues) : (s.unqueue i k).Residues :=
  h.updPort

theorem forward {i k} (h : s.Residues) : (s.forward i k).Residues := by
  unfold State.forward
  split
  · exact h
  · split
    · exact h.leave.count
    · extract_lets -underBinder
      split
      · exact h
      · split
        · exact h.park
        · split
          · exact h.windowDrop
          · split
            · exact h
            · exact .ite h.leave.count (.ite h.unqueue.giveOut h.park)

theorem beaconFrom {i hops src} (h : s.Residues) : (s.beaconFrom i hops src).Residues :=
  .ite h (.ite h.count.emit h.setFld.emit)
theorem installDetours {tbl} (h : s.Residues) : (s.installDetours tbl).Residues :=
  .ite (h.foldl fun _ _ h1 => h1.setReg) h.emit

theorem giveEntry {p c q e} : ∀ {n} {s : State}, s.Residues → (s.giveEntry p c q e n).Residues
  | 0, _, h => h
  | n + 1, s, h => by
    unfold State.giveEntry
    extract_lets x via s1 s2
    have h1 : s1.Residues := by
      unfold s1
      split
      · exact h.sendControl.meshRow
      · exact h
    exact .ite h (giveEntry h1.post.setQueue)

theorem sendEntry {p} (h : s.Residues) : (s.sendEntry p).Residues := by
  unfold State.sendEntry
  extract_lets -underBinder
  split
  · exact h
  · extract_lets -underBinder
    split
    · exact h.qDrop.updPart.raise
    · split
      · exact h.qDrop.updPart.poisonRead.raise
      · extract_lets -underBinder s1
        have h1 : s1.Residues := h.giveEntry
        exact .ite h1.qDrop.updPart h1

theorem deliverSend {i k} (h : s.Residues) : (s.deliverSend i k).Residues := by
  unfold State.deliverSend
  extract_lets -underBinder
  split
  · exact h.windowDrop
  · split
    · exact h.targetDrop
    · split
      · exact .ite h.targetDrop (.ite h.storeVbytes.leave h.storeVbytes.signalOutside.leave)
      · split
        · split
          · exact h.targetDrop
          · exact .ite h.targetDrop (.ite h.park (.ite h.sendControl.qPush.leave h.sendControl.qPush.signalOutside.leave))
        · exact .ite h.leave h.signalOutside.leave

/-! Consignments (Machine/Consign). -/

theorem setCsgState {p v} (h : s.Residues) : (s.setCsgState p v).Residues :=
  h.setFld
theorem updCsg {p f} (h : s.Residues) : (s.updCsg p f).Residues :=
  h.updPart
theorem csgInterval {p} (h : s.Residues) : (s.csgInterval p).Residues :=
  h.setFld
theorem ageFailures (h : s.Residues) : (s.ageFailures).Residues :=
  h.draw.setFld

theorem risk {ce lr dr margin} (h : s.Residues) : (s.risk ce lr dr margin).Residues := by
  unfold State.risk
  extract_lets -underBinder _ _ _ s1
  have h1 : s1.Residues := h.ageFailures.setFld.updDev
  refine h1.foldl fun _ _ h2 => ?_
  extract_lets -underBinder s3 _ s4
  have h3 : s3.Residues := h2.csgInterval
  have h4 : s4.Residues := h3.updCsg
  exact .ite h4 (.ite h4.setFld.event h4.updCsg)

theorem csgFail {p n} (h : s.Residues) : (s.csgFail p n).Residues :=
  .ite h h.count.event

theorem csgStart {p} (h : s.Residues) : (s.csgStart p).Residues := by
  unfold State.csgStart
  extract_lets -underBinder s1 s2 s3 s4
  have h1 : s1.Residues := h.csgFail
  have h2 : s2.Residues := h1.updCsg
  have h3 : s3.Residues := h2.updCsg
  have h4 : s4.Residues := .ite h3.updCsg.csgFail h3
  exact .ite h2.csgFail h4.setCsgState

theorem csgBoundary {p sinceS} (h : s.Residues) : (s.csgBoundary p sinceS).Residues := by
  unfold State.csgBoundary
  extract_lets -underBinder s1
  have h1 : s1.Residues := h.csgInterval
  exact .ite h1 (.ite h1.csgFail (.ite (.ite h1.setFld.csgStart h1) (.ite h1.csgStart h1)))

theorem csgSend {p copy off bs} (h : s.Residues) : (s.csgSend p copy off bs).Residues :=
  .ite (.ite h h.storeVbytes) (h.foldl fun _ _ h1 => h1.sendPacket)

theorem csgClose {p bytes} (h : s.Residues) : (s.csgClose p bytes).Residues := by
  unfold State.csgClose
  extract_lets -underBinder s1
  have h1 : s1.Residues := h.setCsgState
  exact h1.foldl fun _ _ h2 => h2.csgSend

theorem csgReadDone {p} (h : s.Residues) : (s.csgReadDone p).Residues := by
  unfold State.csgReadDone
  extract_lets -underBinder _ _ s2 s4 s5 _ s7 s8
  have h2 : s2.Residues := h.foldl fun _ _ h1 => h1.meshTo
  have h4 : s4.Residues := h2.foldl fun _ _ h3 => h3.eccRead
  have h5 : s5.Residues := h4.csgFail.setCsgState
  have h7 : s7.Residues := h2.foldl fun _ _ h6 => h6.csgSend.csgSend
  have h8 : s8.Residues := h7.updCsg
  exact .ite h5.updCsg (.ite h8.csgClose (h8.setCsgState.foldl fun _ _ h9 => h9.csgSend))

theorem csgLoss {p loss} (h : s.Residues) : (s.csgLoss p loss).Residues := by
  unfold State.csgLoss
  extract_lets -underBinder _ s1
  have h1 : s1.Residues := h.updCsg
  exact .ite (.ite h1.csgClose h1) h

theorem csgSettle {p} (h : s.Residues) : (s.csgSettle p).Residues := by
  unfold State.csgSettle
  extract_lets -underBinder _ s1
  have h1 : s1.Residues := h.setFld.event
  exact .ite h h1.updPart

theorem csgCost {p ms} (h : s.Residues) : (s.csgCost p ms).Residues := by
  unfold State.csgCost
  extract_lets -underBinder _ _ s1
  have h1 : s1.Residues := .ite h.setFld.csgInterval h
  exact .ite h1 h1.updCsg

theorem copyAck {p copy ms} (h : s.Residues) : (s.copyAck p copy ms).Residues := by
  unfold State.copyAck
  split
  · exact h
  · extract_lets -underBinder _ s1 _ _ s2 s3 s4
    have h1 : s1.Residues := h.updCsg
    have h2 : s2.Residues := h1.updCsg
    have h3 : s3.Residues := h2.setFld.setFld
    have h4 : s4.Residues := .ite h3.setFld.event h1
    exact h4.csgSettle.csgCost

theorem copyLost {p copy} (h : s.Residues) : (s.copyLost p copy).Residues := by
  unfold State.copyLost
  split
  · extract_lets -underBinder s1
    have h1 : s1.Residues := h.updCsg
    exact h1.csgFail.csgSettle.csgCost
  · exact h

theorem csgPacket {i k} (h : s.Residues) : (s.csgPacket i k).Residues := by
  unfold State.csgPacket
  split
  · exact h
  · split
    · exact .ite h.leave h.windowDrop
    · split
      · exact h.windowDrop
      · split
        · exact h.windowDrop
        · extract_lets -underBinder s1
          have h1 : s1.Residues := h.storeVbytes.leave
          exact .ite h1.sendPacket h1

theorem restoreFail {p slot reason} (h : s.Residues) : (s.restoreFail p slot reason).Residues :=
  h.setCsgState.updCsg.raiseOutside

theorem restoreCopy {p c} (h : s.Residues) : (s.restoreCopy p c).Residues := by
  unfold State.restoreCopy
  extract_lets -underBinder s1 s4 s5 s6 s7 _ _ s8
  have h1 : s1.Residues := h.setFld
  have h4 : s4.Residues := h1.foldl fun _ _ h2 => h2.foldl fun _ _ h3 => h3.storeVbytes
  have h5 : s5.Residues := h4.setFld.setFld
  have h6 : s6.Residues := h5.setFld
  have h7 : s7.Residues := h6.setFld.setFld
  have h8 : s8.Residues := .ite h7.updPart h7
  exact .ite h8.updCsg.setCsgState h8.updCsg.setCsgState

theorem csgRestore {p c} (h : s.Residues) : (s.csgRestore p c).Residues := by
  unfold State.csgRestore
  split
  · exact h
  · extract_lets -underBinder _ s1 _ s2
    have h1 : s1.Residues := .ite h h.updCsg
    have h2 : s2.Residues := h1.updCsg
    exact .ite h2.restoreFail (.ite h2.restoreFail (.ite h2.restoreFail (.ite h2.restoreFail h2.restoreCopy)))

theorem askRestore {p} (h : s.Residues) : (s.askRestore p).Residues := by
  unfold State.askRestore
  split
  · exact h
  · extract_lets -underBinder s1
    have h1 : s1.Residues := h.updCsg
    exact .ite h1.csgRestore h1.setCsgState

theorem applyVerdict {p v} (h : s.Residues) : (s.applyVerdict p v).Residues := by
  unfold State.applyVerdict
  extract_lets reject
  have hr : ∀ st, (reject s st).Residues := fun st => by
    have h1 : ∀ t : State, t.Residues → (if t.flag1 (Csr.csgStatus_fromHost p) then
        t.storeVbytes (t.manRtr p) p (t.homeStn p) (t.fld (Csr.csgHostbuf_base p) + 3) [4]
      else t.sendPacket 2 (t.fld (Csr.csgPeer_node p (s.fld (Csr.csgStatus_source p)))) 5 0 0 0
        (t.slotBase p (2 * s.fld (Csr.csgStatus_source p) + (s.part p).csg.tried.headD 0) + 3) [4]).Residues :=
      fun t h => .ite h.storeVbytes h.sendPacket
    exact (h1 _ h.count).updCsg.setCsgState
  split
  · exact h
  · exact h.updCsg.setCsgState.updExec
  · exact hr 3
  · exact hr 0

/-! The tally (Machine/Tally). -/

theorem writeRow {p g d k j col0 row col vs} (h : s.Residues) : (s.writeRow p g d k j col0 row col vs).1.Residues := by
  unfold State.writeRow
  dsimp only
  split
  · refine foldlFst h.meshRow.meshRow fun _ _ h => ?_
    exact h.setVbytes.setVbyte
  · refine foldlFst h.meshRow fun _ _ h => ?_
    exact h.setElem

theorem drainCols {p g b val lo hi k d rs cs} (h : s.Residues) : (s.drainCols p g b val lo hi k d rs cs).Residues :=
  h.foldl fun _ _ h1 => .ite h1.writeRow.rangeEvents h1
theorem fetchVecs {p stns ds} (h : s.Residues) : (s.fetchVecs p stns ds).Residues :=
  h.foldl fun _ _ h1 => h1.foldl fun _ _ h2 => .ite h2 h2.fetchRows
theorem drainTile {p g key hi k d rs cs} (h : s.Residues) : (s.drainTile p g key hi k d rs cs).Residues :=
  h.drainCols

theorem evictTile {p g key va e h dst} (hs : s.Residues) : (s.evictTile p g key va e h dst).Residues := by
  unfold State.evictTile
  extract_lets -underBinder _ _ _ s1 s5 s6
  have h1 : s1.Residues := hs.storeVbytes
  have h5 : s5.Residues := by
    unfold s5
    refine h1.foldl fun _ _ h2 => ?_
    split
    · extract_lets -underBinder s3
      have h3 : s3.Residues := h2.meshRow
      exact h3.foldl fun _ _ h4 => h4.setVbytes.rangeEvents
    · exact h2
  have h6 : s6.Residues := h5.count
  exact .ite h6.count h6

theorem ledgerTile {p g key va e h dst} (hs : s.Residues) : (s.ledgerTile p g key va e h dst).Residues := by
  unfold State.ledgerTile
  extract_lets b hd tag fresh cnt k a s1
  have h1 : s1.Residues := hs.meshRow
  split
  rename_i s2 bad heq
  have h2 : s2.Residues := by
    refine .fst ?_ heq
    refine foldlFst h1 fun x r h => ?_
    dsimp only
    split
    · refine foldlFst (State.Residues.meshRow (.ite h h.meshRow)) fun y c h => ?_
      exact h.setVbytes.rangeEvents
    · exact h
  extract_lets s3
  have h3 : s3.Residues := h2.storeVbytes
  exact .ite h3.count h3

theorem takeBanks {x} (h : s.Residues) : (s.takeBanks x).Residues :=
  h.foldl fun _ _ h1 => .ite h1.setBank (.ite h1.setBank h1)
theorem freeTaken {off stns} (h : s.Residues) : (s.freeTaken off stns).Residues :=
  h

theorem tallyTime {x} (h : s.Residues) : (s.tallyTime x).Residues := by
  unfold State.tallyTime
  refine h.foldl fun _ _ h1 => ?_
  extract_lets -underBinder s2
  have h2 : s2.Residues := h1.useClass
  exact .ite h2.useClass h2

theorem enterTally {x} (h : s.Residues) : (s.enterTally x).Residues := by
  unfold State.enterTally
  split
  · exact h
  · exact h.setExec.tallyTime

theorem keeps_clsDrain : clsDrain.KeepsResidues := by
  intro s x h
  unfold clsDrain
  extract_lets -underBinder
  dsimp -zeta only
  split
  · exact h
  · extract_lets -underBinder
    split
    · rename_i heq
      exact h.poisonCheck heq
    · extract_lets -underBinder s2 s4
      have h2 : s2.Residues := h.fetchVecs
      have h4 : s4.Residues := h2.foldl fun _ _ h3 => h3.drainTile
      exact h4.takeBanks.enterTally.dest

theorem keeps_clsEvict : clsEvict.KeepsResidues := by
  intro s x h
  unfold clsEvict
  extract_lets -underBinder
  dsimp -zeta only
  split
  · exact h
  · extract_lets -underBinder _ _ s2
    have h2 : s2.Residues := h.foldl fun _ _ h1 => h1.evictTile
    exact h2.takeBanks.enterTally.dest

theorem keeps_clsLedger : clsLedger.KeepsResidues := by
  intro s x h
  unfold clsLedger
  extract_lets -underBinder
  dsimp -zeta only
  split
  · exact h
  · extract_lets -underBinder
    split
    · rename_i heq
      exact h.poisonCheck heq
    · extract_lets -underBinder s3 _ s5
      have h3 : s3.Residues := h.foldl fun _ _ h2 => h2.ledgerTile
      have h5 : s5.Residues := h3.foldl fun _ _ h4 => h4.count
      exact h5.takeBanks.enterTally.dest

theorem keeps_clsRelease : clsRelease.KeepsResidues := by
  intro s x h
  unfold clsRelease
  extract_lets -underBinder
  dsimp -zeta only
  extract_lets -underBinder s2
  have h2 : s2.Residues := h.foldl fun _ _ h1 => h1.setBank
  exact h2.doneAtIssue

/-! The array (Machine/Array). -/

theorem also {p x f} (h : BothResidues x) (hf : ∀ s, s.Residues → (f s).Residues) : BothResidues (State.also p x f) := by
  obtain ⟨h1, h2⟩ := h
  have h3 := hf _ h2
  unfold State.also
  dsimp only
  split
  · split
    · refine ⟨?_, h2⟩
      split
      · exact h1.raise
      · exact h1
    · exact ⟨h1, h3⟩
  · exact ⟨h3, .ite h2 h3⟩

theorem together {p} {fs : List (State → State)} {x} (h : BothResidues x) (hf : ∀ f ∈ fs, ∀ s, s.Residues → (f s).Residues) :
    BothResidues (State.together p fs x) := by
  unfold State.together
  induction fs generalizing x with
  | nil => exact h
  | cons f fs ih => exact ih (also h (hf f (by simp))) fun g hg => hf g (by simp [hg])

theorem togetherMap {α : Type} {p x} {l : List α} {g : α → State → State} (h : BothResidues x) (hg : ∀ a s, s.Residues → (g a s).Residues) :
    BothResidues (State.together p (l.map g) x) :=
  together h fun f hf => by
    obtain ⟨a, -, rfl⟩ := List.mem_map.mp hf
    exact hg a

theorem forSeq {p seq f} (h : s.Residues) (hf : ∀ s, s.Residues → (f s).Residues) : (s.forSeq p seq f).Residues := by
  unfold State.forSeq
  dsimp only
  split
  · exact (hf _ h.updPart).updPart
  · exact hf _ h

theorem sweep {p g w} (h : s.Residues) : (s.sweep p g w).Residues := by
  unfold State.sweep
  extract_lets -underBinder _ _ s1
  have h1 : s1.Residues := h.keepMax
  exact .ite h1.count.count.hold h1

theorem sweepHeld {p g w} (h : s.Residues) : (s.sweepHeld p g w).Residues := by
  unfold State.sweepHeld
  extract_lets -underBinder _ _ s1
  have h1 : s1.Residues := h.keepMax
  exact .ite h1.count.count.count h1

theorem preloadRows {p g key va} (h : s.Residues) : (s.preloadRows p g key va).Residues :=
  h.foldl fun _ _ h1 => .ite (h1.foldl fun _ _ h2 => h2.setEntry (sound_entryOf _ _)) h1

theorem preload {p u g pi va} (h : s.Residues) : (s.preload p u g pi va).Residues := by
  unfold State.preload
  extract_lets -underBinder _ _ s1
  have h1 : s1.Residues := h.setBank
  exact h1.count.preloadRows

theorem openBank {p u g pi mask} (h : s.Residues) : (s.openBank p u g pi mask).Residues := by
  unfold State.openBank
  extract_lets -underBinder s1
  have h1 : s1.Residues := h.setBank
  split
  · split
    · rename_i heq
      exact h1.poisonCheck heq
    · exact h1.preload
  · exact h1

theorem restartCar {p c} (h : s.Residues) : (s.restartCar p c).Residues := by
  have h1 := h.filterTally (f := fun x => !(x.1 / 4096 / 336 = c && (s.bank (x.1 / 4096)).st.inPass))
  exact h1.updCar.hold

theorem abandonReplay {p c} (h : s.Residues) : (s.abandonReplay p c).Residues :=
  .ite h.updPart.updCar h.updCar
theorem failCar {p c} (h : s.Residues) : (s.failCar p c).Residues :=
  h.restartCar.abandonReplay
theorem midPass {p key} (h : s.Residues) : (s.midPass p key).Residues :=
  h.setBank.failCar

theorem sound_passEntry {p u g sat pi r c tiles} {init : Entry} (hi : init.Sound) :
    (s.passEntry p u g sat pi r c tiles init).Sound := sound_foldl_addAll _ tiles hi

theorem rerunBank {p c key} (h : s.Residues) : (s.rerunBank p c key).Residues := by
  unfold State.rerunBank
  extract_lets -underBinder
  split
  · exact h
  · extract_lets -underBinder va before s1 s2
    have h1 : s1.Residues := h.setBank
    have h2 : s2.Residues := by
      unfold s2
      clear_value va
      split
      · exact h1.preloadRows
      · exact h1
    refine h2.foldl fun _ _ h3 => ?_
    extract_lets -underBinder _ s5
    have h5 : s5.Residues := h3.foldl fun _ _ h4 => h4.setEntry (sound_passEntry (by
      split
      · exact h4.entry _
      · exact Entry.sound_zero))
    exact .ite (h5.foldl fun _ _ h6 => h6.inputOvf.sweepHeld) h3

theorem rerunOvf {p c} (h : s.Residues) : (s.rerunOvf p c).Residues :=
  h.foldl fun _ _ h1 => h1.forSeq fun _ h2 => h2.foldl fun _ _ h3 => h3.inputOvf

theorem mismatches {g cols} (h : s.Residues) : (s.mismatches g cols).Residues := by
  unfold State.mismatches
  split
  · exact h
  · exact h.count.setFld

theorem tallyRow {p g u f ev} (h : s.Residues) : (s.tallyRow p g u f ev).Residues := by
  unfold State.tallyRow
  extract_lets -underBinder
  split
  · exact h
  · split
    rename_i s1 bad differ heq
    have h1 : s1.Residues := by
      refine .fst ?_ heq
      refine foldlFst h fun x col h => ?_
      dsimp only
      split
      · exact h
      · split
        · rename_i hy
          exact h.setEntry (sound_checkedAdd hy)
        · exact h.setEntry (h.entry _)
    extract_lets s2
    have h2 : s2.Residues := h1.mismatches.sweep
    exact .ite h2.midPass h2

theorem replayLeg {p g u f ev} (h : s.Residues) : (s.replayLeg p g u f ev).1.Residues := by
  unfold State.replayLeg
  extract_lets -underBinder
  refine foldlFst h fun x r h => ?_
  dsimp only
  split
  · exact h
  · refine foldlFst h.inputOvf.sweep fun y k h => ?_
    split
    · exact h
    · split
      · rename_i hy
        exact h.setEntry (sound_checkedAdd hy)
      · exact h

theorem endLeg {p g u f ev} (h : s.Residues) : (s.endLeg p g u f ev).Residues := by
  unfold State.endLeg
  extract_lets -underBinder
  split
  · exact h
  · extract_lets -underBinder
    split
    rename_i s1 _ _ heq
    have h1 : s1.Residues := h.replayLeg.fst heq
    extract_lets -underBinder _ s2 s3 _ s4 _ s5
    have h2 : s2.Residues := h1.mismatches.count
    have h3 : s3.Residues := h2.hold
    have h4 : s4.Residues := h3.setBank
    have h5 : s5.Residues := h4.updCar
    exact .ite h5.midPass h5

theorem tileDone {p off done} (h : s.Residues) : (s.tileDone p off done).Residues :=
  h.updExec

theorem finishTile {p u g pi last} (h : s.Residues) : (s.finishTile p u g pi last).Residues := by
  unfold State.finishTile
  split
  · exact h
  · extract_lets -underBinder _ _ _ s1 s2 s3 _ s4 s5 _ s6
    have h1 : s1.Residues := h.setBank
    have h2 : s2.Residues := h.fetchVecs
    have h3 : s3.Residues := h2.drainTile
    have h4 : s4.Residues := h3.useClass.excess
    have h5 : s5.Residues := .ite h4.useClass.excess h4
    have h6 : s6.Residues := h5.setBank
    exact .ite h1.tileDone h6.tileDone

theorem startMerge {p u g pi last} (h : s.Residues) : (s.startMerge p u g pi last).Residues := by
  unfold State.startMerge
  split
  · exact h
  · extract_lets -underBinder _ _ _ s2
    have h2 : s2.Residues := h.foldl fun _ _ h1 => h1.setBank
    exact h2.foldl fun _ _ h3 => h3.count.useClass

theorem poisonGroup {p c keys} (h : s.Residues) : (s.poisonGroup p c keys).Residues :=
  (h.foldl fun _ _ h1 => h1.setBank).failCar

theorem completeMerge {p u g pi until_} (h : s.Residues) : (s.completeMerge p u g pi until_).Residues := by
  unfold State.completeMerge
  split
  · exact h
  · extract_lets -underBinder _ _ _ _ s3 s5
    have h3 : s3.Residues := h.foldl fun _ _ h1 => .ite (h1.foldl fun _ _ h2 => h2.setEntry (sound_entryOf _ _)) h1
    have h5 : s5.Residues := h3.foldl fun _ _ h4 => h4.setBank
    exact .ite h.poisonGroup h5.excess.finishTile

theorem endPass {p u g pi last} (h : s.Residues) : (s.endPass p u g pi last).Residues := by
  unfold State.endPass
  split
  · exact h.finishTile
  · extract_lets -underBinder _ _ s1
    have h1 : s1.Residues := h.setBank
    exact .ite h1.startMerge h1

theorem rowOut {p c ev f} (h : s.Residues) : (s.rowOut p c ev f).Residues := by
  unfold State.rowOut
  split
  · extract_lets -underBinder
    split
    extract_lets -underBinder s1 s2 _ s3 _ s4 s5
    have h1 : s1.Residues := h.setCar
    have h2 : s2.Residues := .ite h1.openBank h1
    have h3 : s3.Residues := h2.tallyRow
    have h4 : s4.Residues := h3.setBank
    have h5 : s5.Residues := h4.endLeg
    exact .ite h2 (.ite h3.updCar (.ite h4 (.ite h5.endPass h5)))
  · exact h

theorem endRerun {p c key} (h : s.Residues) : (s.endRerun p c key).Residues := by
  unfold State.endRerun
  extract_lets -underBinder
  split
  · exact .ite (h.forSeq fun _ h1 => .ite h1 h1.endPass) h
  · exact h

theorem rerunCar {p c} (h : s.Residues) : (s.rerunCar p c).Residues := by
  unfold State.rerunCar
  split
  · extract_lets -underBinder _ s3
    have h3 : s3.Residues := (h.rerunOvf.foldl fun _ _ h1 => h1.forSeq fun _ h2 => h2.rerunBank).updCar
    exact h3.foldl fun _ _ h4 => h4.endRerun
  · exact h

theorem rowsOut {p c ev sel} (h : s.Residues) : (s.rowsOut p c ev sel).Residues :=
  (togetherMap h.both fun _ _ h => .ite h (h.updCar.forSeq fun _ h => .ite h h.rowOut)).1

theorem upsetCopies {p ev} (h : s.Residues) : (s.upsetCopies p ev).Residues := by
  unfold State.upsetCopies
  refine h.foldl fun _ _ h1 => ?_
  split
  · exact .ite (h1.foldl fun _ _ h2 => h2.setEntry (h2.entry _)) h1
  · exact h1

theorem takeFences {p c} (h : s.Residues) : (s.takeFences p c).Residues := by
  unfold State.takeFences
  extract_lets -underBinder _ s1
  have h1 : s1.Residues := h.updCar
  exact h1.foldl fun _ _ h2 => .ite h2.fence.count.restartCar (.ite h2 ((h2.forSeq fun _ h3 => h3.raise).fenceStation))

/-! The route of the rows (Machine/Route). -/

theorem bPoison {p u g pair tile} (h : s.Residues) : (s.bPoison p u g pair tile).Residues :=
  .ite h (h.getD fun _ e1 => h.poisonCheck e1)
theorem openReads {p c seq off stn rows} (h : s.Residues) : (s.openReads p c seq off stn rows).Residues :=
  .ite h h.updCar.drvStatus
theorem closeReads {c sel} (h : s.Residues) : (s.closeReads c sel).Residues :=
  h.updCar.count.drvStatus
theorem fetchTile {p c u pair tile} (h : s.Residues) : (s.fetchTile p c u pair tile).Residues :=
  h.fetchRows.openReads

theorem tileCame {p c u t} (h : s.Residues) : (s.tileCame p c u t).Residues := by
  unfold State.tileCame
  extract_lets -underBinder s1
  have h1 : s1.Residues := .ite h h.fetchTile
  exact h1.closeReads

theorem inject {p c tiles} (h : s.Residues) : (s.inject p c tiles).1.Residues := by
  unfold State.inject
  split
  · exact h
  · extract_lets -underBinder _ s1 _ s3
    have h1 : s1.Residues := h.updCar
    have h3 : s3.Residues := by
      unfold s3
      refine h1.foldl fun _ _ h2 => ?_
      split
      · exact h2.bPoison.inputOvf
      · exact h2
    split
    · exact h3
    · exact h1.bPoison.tileCame.inputOvf

theorem beginFill {p u g pair} (h : s.Residues) : (s.beginFill p u g pair).1.Residues := by
  unfold State.beginFill
  extract_lets -underBinder
  split
  · exact h.fetchRows.openReads
  · exact h

theorem landFill {c x} (h : s.Residues) : (s.landFill c x).Residues := by
  unfold State.landFill
  extract_lets -underBinder s2
  have h2 : s2.Residues := h.foldl fun _ _ h1 => h1.setBytes
  exact h2.updCar.closeReads

theorem changeBanks {p c tiles} (h : s.Residues) : (s.changeBanks p c tiles).Residues := by
  unfold State.changeBanks
  refine h.foldl fun _ _ h1 => ?_
  split
  · exact h1
  · split
    · exact h1.landFill
    · exact .ite h1.beginFill h1.beginFill.landFill

theorem startFills {p c} (h : s.Residues) : (s.startFills p c).Residues :=
  h.foldl fun _ _ h1 => .ite (.ite h1.beginFill h1.beginFill.updCar) h1

theorem startTile {p c} (h : s.Residues) : (s.startTile p c).Residues := by
  unfold State.startTile
  split
  · exact .ite h h.fetchTile
  · exact h

theorem boundary {p c} (h : s.Residues) : (s.boundary p c).Residues := by
  unfold State.boundary
  extract_lets -underBinder _ s1 s2 s3
  have h1 : s1.Residues := h.count
  have h2 : s2.Residues := .ite h (.ite h1.count h1)
  have h3 : s3.Residues := h2.takeFences
  split
  rename_i s4 _ heq
  have h4 : s4.Residues := h3.inject.fst heq
  split
  · exact h4
  · extract_lets -underBinder s5 s6
    have h5 : s5.Residues := h4.changeBanks
    have h6 : s6.Residues := h5.updCar
    exact .ite h5 h6.updCar.startTile.startFills

theorem feedRow {p c i} (h : s.Residues) : (s.feedRow p c i).Residues := by
  unfold State.feedRow
  extract_lets -underBinder
  split
  · split
    · exact h
    · extract_lets -underBinder _ _ _ _ _ s2 _ _ _ s3 s5 s6 _ s7
      have h2 : s2.Residues := .ite (h.getD fun _ e1 => h.poisonCheck e1) h
      have h3 : s3.Residues := h2.inputOvf
      have h5 : s5.Residues := .ite (h3.foldl fun _ _ h4 => h4.useClass) h3
      have h6 : s6.Residues := .ite h5.excess h5
      have h7 : s7.Residues := h6.updCar
      exact .ite h (.ite h2 (.ite h7.excess.excess h7))
  · exact h

theorem caravanPace {p c ev} (h : s.Residues) : (s.caravanPace p c ev).Residues := by
  unfold State.caravanPace
  extract_lets k s1 s2 s3
  have h1 : s1.Residues := .ite h.boundary h
  have h2 : s2.Residues := by
    refine (togetherMap h1.both fun i s h => ?_).1
    split
    · exact h.forSeq fun _ h => .ite h h.feedRow
    · exact h
  exact h2.updCar.rowsOut

theorem dueDrains {p c} (h : s.Residues) : (s.dueDrains p c).Residues :=
  h

theorem zeroTiles {p u} (h : s.Residues) : (s.zeroTiles p u).Residues := by
  unfold State.zeroTiles
  refine h.foldl fun _ _ h1 => ?_
  refine h1.foldl fun _ _ h2 => ?_
  split
  · extract_lets -underBinder s3 _ _ s6
    have h3 : s3.Residues := h2.openBank
    have h6 : s6.Residues := .ite h3 (h3.foldl fun _ _ h4 => .ite (h4.foldl fun _ _ h5 => h5.setEntry Entry.sound_zero) h4)
    exact .ite h3 h6.finishTile
  · exact h2

theorem startZero {p off} (h : s.Residues) : (s.startZero p off).Residues := by
  unfold State.startZero
  split
  · exact h
  · exact h.foldl fun _ _ h1 => h1.foldl fun _ _ h2 => h2.zeroTiles

theorem keeps_clsProduct : clsProduct.KeepsResidues := by
  intro s x h
  unfold clsProduct
  extract_lets -underBinder
  dsimp -zeta only
  split
  · exact h
  · extract_lets -underBinder _ _ _ _ s1 s2 s4
    have h1 : s1.Residues := h.enter
    have h2 : s2.Residues := .ite h1 h1.dest
    have h4 : s4.Residues := h2.foldl fun _ _ h3 => h3.updCar
    exact .ite h.doneAtIssue (.ite h4.startZero h4)

/-! The drovers (Machine/Drover). -/

theorem meshXfer {c src dst n} (h : s.Residues) : (s.meshXfer c src dst n).1.Residues := by
  unfold State.meshXfer
  extract_lets -underBinder
  split
  · exact h.fenceEnd
  · extract_lets -underBinder s1 s2
    have h1 : s1.Residues := by
      unfold s1
      split
      · exact h.sendMesh.sendMesh
      · exact h
    have h2 : s2.Residues := by
      unfold s2
      split
      · exact h1.sendMesh.sendMesh
      · exact h1
    exact h2

theorem sendXfer {p c off op x} (h : s.Residues) : (s.sendXfer p c off op x).1.Residues := by
  unfold State.sendXfer
  split
  · split
    · exact h
    · exact h.meshXfer.setCar.drvStatus
  · exact h

theorem copyPa {src dst n} (h : s.Residues) : (s.copyPa src dst n).Residues :=
  h.foldl fun _ _ h1 => h1.setByte
theorem copyRow {p src dst n} (h : s.Residues) : (s.copyRow p src dst n).Residues :=
  h.foldl fun _ _ h1 => h1.setByte

theorem drvStep {p c off op w1 ds q early} (h : s.Residues) : (s.drvStep p c off op w1 ds q early).1.Residues := by
  unfold State.drvStep
  split
  · exact h
  · exact h
  · exact h
  · extract_lets -underBinder
    split
    · exact h
    · exact h.copyRow.count
  · split
    rename_i s1 _ heq
    have h1 : s1.Residues := h.sendXfer.fst heq
    split
    · exact h
    · exact .ite h1.count h1

theorem enterDrv {x ds} (h : s.Residues) : (s.enterDrv x ds).Residues := by
  unfold State.enterDrv
  split
  · exact h
  · exact h.setCar.setExec

theorem drvDone {p c} (h : s.Residues) : (s.drvDone p c).Residues :=
  h.updExec

theorem keeps_clsDrv : clsDrv.KeepsResidues := by
  intro s x h
  unfold clsDrv
  extract_lets -underBinder
  dsimp -zeta only
  extract_lets -underBinder _ _ s1 s2
  have h1 : s1.Residues := h.enterDrv
  have h2 : s2.Residues := h1.dest
  exact h2.drvDone

theorem gatherLanded {s0 : State} {p w w1} (h : s.Residues) : (s0.gatherLanded s p w w1).Residues := by
  unfold State.gatherLanded
  split
  · split
    · refine .ite (h.foldl fun _ _ h => ?_) h
      split
      · exact h.scramble
      · exact h
    · exact h
  · exact h

theorem offerGather {p h w1} (hs : s.Residues) : (s.offerGather p h w1).Residues :=
  gatherLanded (hs.clsOffer keeps_clsDrv)

theorem trySwap {p c} (h : s.Residues) : (s.trySwap p c).Residues := by
  unfold State.trySwap
  split
  · exact h
  · split
    · split
      · extract_lets -underBinder _ s1 s2 _ s3
        have h1 : s1.Residues := h.setFld
        have h2 : s2.Residues := h1.setExec
        have h3 : s3.Residues := h2.updCar
        exact .ite h3.release h3
      · exact h
    · exact h

theorem swapNow {p c} (h : s.Residues) : (s.swapNow p c).Residues := by
  unfold State.swapNow
  extract_lets -underBinder s2
  have h2 : s2.Residues := by
    unfold s2
    split
    · exact h.forSeq fun _ h1 => h1.trySwap
    · exact h
  exact h2.trySwap

theorem keeps_clsSwap : clsSwap.KeepsResidues := by
  intro s x h
  unfold clsSwap
  extract_lets -underBinder
  dsimp -zeta only
  extract_lets -underBinder _ s1
  have h1 : s1.Residues := h.enterDrv
  exact .ite h1.updCar.hold h1.trySwap

theorem second {unit} (h : s.Residues) : (s.second unit).1.Residues := by
  unfold State.second
  split
  · exact h.draw
  · exact h.updDev

theorem countPoison {v n} (h : s.Residues) : (s.countPoison v n).Residues := by
  unfold State.countPoison
  split
  · exact h.count
  · exact h

theorem poisonedOnce {v} (h : s.Residues) : (s.poisonedOnce v).Residues :=
  .ite h.countPoison.second.fence h.countPoison.second
theorem poisonedTwice {v} (h : s.Residues) : (s.poisonedTwice v).Residues :=
  h.countPoison.fence

theorem correctedBeats {ch n} (h : s.Residues) : (s.correctedBeats ch n).Residues := by
  unfold State.correctedBeats
  extract_lets -underBinder _ s1
  have h1 : s1.Residues := h.count.updDev
  exact .ite h1 (.ite h1.draw.fence h1.draw)

theorem pathSeen {c t arr} (h : s.Residues) : (s.pathSeen c t arr).Residues := by
  unfold State.pathSeen
  split
  · exact h
  · extract_lets -underBinder s1
    have h1 : s1.Residues := h.eccRead
    split
    · exact h1.correctedBeats
    · exact h1
  · exact h.poisonedOnce
  · exact h.poisonedTwice

theorem lateHold {p} (h : s.Residues) : (s.lateHold p).Residues :=
  .ite h h.hold.unhold
theorem dropXfer {c id} (h : s.Residues) : (s.dropXfer c id).Residues :=
  h.updCar.drvStatus

theorem landIn {c x arr} (h : s.Residues) : (s.landIn c x arr).Residues := by
  unfold State.landIn
  split
  · exact h
  · extract_lets -underBinder early badAt
    clear_value badAt
    split
    · exact h
    · split
      · exact h.dropXfer.eccRead.raise
      · exact h.dropXfer.raise.pathSeen
      · extract_lets -underBinder s1
        have h1 : s1.Residues := by
          unfold s1
          split
          · exact h.lateHold
          · exact h
        exact h1.copyPa.dropXfer.count.drvDone.pathSeen

theorem readCame {c rid id} (h : s.Residues) : (s.readCame c rid id).Residues :=
  h.updCar.drvStatus

theorem readSeen {c pa n arr} (h : s.Residues) : (s.readSeen c pa n arr).Residues := by
  unfold State.readSeen
  split
  · exact h
  · extract_lets -underBinder s1
    have h1 : s1.Residues := h.eccRead
    split
    · exact h1.correctedBeats
    · exact h1
  · exact h.poisonedOnce
  · exact h.poisonedTwice

theorem readIn {c x pa n arr} (h : s.Residues) : (s.readIn c x pa n arr).Residues := by
  unfold State.readIn
  extract_lets -underBinder tile s1
  have h1 : s1.Residues := by
    unfold s1
    clear_value tile
    split
    · exact h.failCar
    · exact h.failCar
    · exact h.lateHold
    · exact h.raise
    · exact h
  exact h1.readSeen

theorem landRead {c x id va n arr} (h : s.Residues) : (s.landRead c x id va n arr).Residues := by
  unfold State.landRead
  extract_lets -underBinder _ s1
  have h1 : s1.Residues := h.readCame
  exact .ite h1.count.readSeen (h1.count.forSeq fun _ h2 => h2.readIn)

theorem land {c id arr} (h : s.Residues) : (s.land c id arr).Residues := by
  unfold State.land
  split
  · split
    · exact .ite h h.landRead
    · exact h
  · exact .ite h (.ite h.dropXfer.count.pathSeen (h.forSeq fun _ h1 => h1.landIn))

theorem noAnswer {p c seq off pa} (h : s.Residues) : (s.noAnswer p c seq off pa).Residues := by
  unfold State.noAnswer
  extract_lets -underBinder s2
  have h2 : s2.Residues := h.forSeq fun _ h1 => h1.raise
  split
  · exact .ite h2.second.fenceStack h2.second
  · exact .ite h2.fenceCar h2
  · exact h2

theorem xferTimeout {c id dstEnd} (h : s.Residues) : (s.xferTimeout c id dstEnd).Residues := by
  unfold State.xferTimeout
  split
  · split
    · exact h
    · extract_lets -underBinder _ _ s1
      have h1 : s1.Residues := h.readCame.count
      exact .ite h1 h1.noAnswer
  · extract_lets -underBinder s2
    have h2 : s2.Residues := h.dropXfer.count
    exact .ite h2 h2.noAnswer

/-! The mortars (Machine/Mortar). -/

theorem mortarFinish {x m} (h : s.Residues) : (s.mortarFinish x m).Residues := by
  rw [State.mortarFinish]
  obtain ⟨check, hc⟩ : ∃ check, check = State.poisonCheck := ⟨_, rfl⟩
  have hcheck {t u : State} {p unit off rs} (ht : t.Residues) (hu : check t p unit off rs = some u) : u.Residues := by
    subst hc
    exact ht.poisonCheck hu
  rw [← hc]
  clear hc
  have hrow {rs : List (Nat × Nat × List Byte)} {t : State} (ht : t.Residues) :
      (rs.foldl (fun s y => s.storeVbytes (rtrOfCar (y.1 / 8)) x.p y.1 y.2.1 y.2.2) t).Residues :=
    ht.foldl fun _ _ h => h.storeVbytes
  split
  · exact h
  · extract_lets -underBinder s1 
    have h1 : s1.Residues := h.closeReads
    clear_value s1
    split
    · rename_i ht
      exact hcheck h1 ht
    · exact h1.foldl fun _ _ h => .ite (hrow h).rangeEvents (hrow h).rangeEvents.count

theorem mortarFetch {x m} (h : s.Residues) : (s.mortarFetch x m).Residues :=
  h.fetchRows.openReads

theorem mortarTick {x m start} (h : s.Residues) : (s.mortarTick x m start).Residues := by
  unfold State.mortarTick
  split
  · exact h
  · extract_lets -underBinder _ _ _ _ _ s1
    have h1 : s1.Residues := .ite h.mortarFetch h
    refine h1.foldl fun _ _ h2 => ?_
    extract_lets -underBinder _ s3
    have h3 : s3.Residues := .ite h2.useClass h2
    exact .ite h3.excess h3

theorem keeps_clsMortar : clsMortar.KeepsResidues := by
  intro s x h
  unfold clsMortar
  extract_lets -underBinder
  dsimp -zeta only
  split
  · exact h
  · extract_lets -underBinder _ s1 s2
    have h1 : s1.Residues := h.enterWhen
    have h2 : s2.Residues := h1.dest
    exact .ite h2.dest h2

theorem keeps_clsVec : clsVec.KeepsResidues := keeps_clsMortar

/-! Remnant passes (Machine/Remnant). -/

theorem remLeg {p u g l} (h : s.Residues) : (s.remLeg p u g l).Residues := by
  unfold State.remLeg
  extract_lets -underBinder
  split
  · rename_i heq
    exact h.poisonCheck heq
  · extract_lets -underBinder s2 s3 _ s5
    have h2 : s2.Residues := h.fetchRows.count
    have h3 : s3.Residues := h2.inputOvf
    have h5 : s5.Residues := h3.foldl fun _ _ h4 => h4.sweepHeld
    exact .ite h5.count h5

theorem runRemLegs {p u a b} (h : s.Residues) : (s.runRemLegs p u a b).Residues :=
  h.foldl fun _ _ h1 => h1.foldl fun _ _ h2 => .ite h2 h2.remLeg

theorem sound_wholeEntry {p u g pi r c} : (s.wholeEntry p u g pi r c).Sound := by
  unfold State.wholeEntry
  extract_lets init
  have hi : init.Sound := by
    unfold init
    split
    · exact sound_entryOf _ _
    · exact Entry.sound_zero
  exact List.foldlRecOn _ _ hi fun _ he _ _ => sound_foldl_addAll _ _ he

theorem remnantTile {p u g pi} (h : s.Residues) : (s.remnantTile p u g pi).Residues := by
  unfold State.remnantTile
  split
  · exact h
  · exact .ite (h.foldl fun _ _ h1 => .ite (h1.foldl fun _ _ h2 => h2.setEntry sound_wholeEntry) h1) h.drainCols

theorem runRemnants {p c off done} (h : s.Residues) : (s.runRemnants p c off done).Residues := by
  unfold State.runRemnants
  split
  · exact h
  · extract_lets -underBinder s1
    have h1 : s1.Residues := h.runRemLegs
    exact .ite h1 (h1.foldl fun _ _ h2 => h2.foldl fun _ _ h3 => h3.remnantTile)

theorem preemptRemnants {p} (h : s.Residues) : (s.preemptRemnants p).Residues := by
  unfold State.preemptRemnants
  refine h.foldl fun _ _ h1 => ?_
  refine h1.foldl fun _ _ h2 => ?_
  split
  split
  · exact h2
  · exact h2.draw.runRemLegs.updCar

/-! The weighhouse (Machine/Weigh). -/

theorem digest {a b bytes} (h : s.Residues) : (s.digest a b bytes).Residues :=
  h.setFld.setFld

theorem wSend {p member h payload} (hs : s.Residues) : (s.wSend p member h payload).Residues := by
  unfold State.wSend
  extract_lets -underBinder _ _ _ s1
  have h1 : s1.Residues := hs.sendPacket
  exact .ite h1.digest h1

theorem wideWrite {p r c vals whole} (h : s.Residues) : (s.wideWrite p r c vals whole).Residues := by
  unfold State.wideWrite
  extract_lets -underBinder
  split
  · exact h.raise
  · extract_lets -underBinder s1
    have h1 : s1.Residues := h.storeVbytes
    exact .ite h1 (.ite h1.raise h1.signalOutside)

theorem sendsLeft {p} (h : s.Residues) : (s.sendsLeft p).Residues := by
  unfold State.sendsLeft
  split
  · exact h
  · extract_lets -underBinder _ _ s2
    have h2 : s2.Residues := h.foldl fun _ _ h1 => .ite h1.freeTaken h1
    exact h2.updExec

theorem sendDone {p} (h : s.Residues) : (s.sendDone p).Residues := by
  unfold State.sendDone
  extract_lets -underBinder s2
  have h2 : s2.Residues := by
    unfold s2
    split
    · exact h.forSeq fun _ h1 => h1.sendsLeft
    · exact h
  exact h2.sendsLeft

theorem wSticky {p seq ovf unf} (h : s.Residues) : (s.wSticky p seq ovf unf).Residues := by
  unfold State.wSticky
  refine h.forSeq fun _ h1 => ?_
  split
  · exact h1
  · extract_lets -underBinder s2
    have h2 : s2.Residues := .ite h1.sticky h1
    exact .ite h2.sticky h2

theorem deliver {p x} (h : s.Residues) : (s.deliver p x).1.Residues := by
  unfold State.deliver
  extract_lets -underBinder
  split
  · split
    · exact h
    · exact h.setWctx
  · split
    · exact h
    · extract_lets -underBinder _ _ _ _ _ s1 _ s2
      have h1 : s1.Residues := h.setWctx
      have h2 : s2.Residues := .ite h1.wideWrite h1
      exact h2.wSticky.sendDone

theorem sliceFetch {p r c n} (h : s.Residues) : (s.sliceFetch p r c n).Residues :=
  .ite h (h.foldl fun _ _ h1 => h1.meshRow)

theorem chunkPoison {p r c} (h : s.Residues) (ht : s.chunkPoison p r c = some t) : t.Residues := by
  unfold State.chunkPoison at ht
  split at ht
  · cases ht
  · exact h.poisonCheck ht

theorem finishSlot {p k} (h : s.Residues) : (s.finishSlot p k).Residues := by
  unfold State.finishSlot
  extract_lets -underBinder
  split
  extract_lets -underBinder s1 s2 _ _ _ s5 s6 s7
  have h1 : s1.Residues := h.count.count
  have h2 : s2.Residues := .ite h1.count h1
  have h5 : s5.Residues := h2.foldl fun _ _ h3 => h3.foldl fun _ _ h4 => h4.wSend
  have h6 : s6.Residues := h5.updWctx
  have h7 : s7.Residues := h6.updWctx
  exact .ite h7.deliver h6

theorem openChunk {p} (h : s.Residues) : (s.openChunk p).Residues := by
  unfold State.openChunk
  extract_lets -underBinder
  split
  · exact h
  · split
    · exact h
    · split
      · rename_i heq
        exact h.chunkPoison heq
      · extract_lets -underBinder _ _ _ s2 s4
        have h2 : s2.Residues := h.sliceFetch.setWctx
        have h4 : s4.Residues := h2.foldl fun _ _ h3 => h3.wSend
        exact .ite h4.finishSlot h4

theorem ownerMiss {p b c} (h : s.Residues) : (s.ownerMiss p b c).Residues := by
  unfold State.ownerMiss
  split
  · exact h
  · extract_lets -underBinder
    split
    · exact h
    · extract_lets -underBinder s1 s3 s4
      have h1 : s1.Residues := h.setWctx
      have h3 : s3.Residues := h1.foldl fun _ _ h2 => h2.wSend
      have h4 : s4.Residues := h3.updWctx
      exact .ite (.ite h4.deliver.count h4.deliver) h3.count

theorem memberMiss {p b c} (h : s.Residues) : (s.memberMiss p b c).Residues := by
  unfold State.memberMiss
  split
  · exact h
  · split
    · exact .ite (.ite h.deliver.count h.deliver) h
    · exact h

theorem contribute {p r c} (h : s.Residues) : (s.contribute p r c).Residues := by
  unfold State.contribute
  extract_lets -underBinder
  split
  · exact h
  · split
    · rename_i heq
      exact h.chunkPoison heq
    · extract_lets -underBinder _ _ _ _ s2 s4
      have h2 : s2.Residues := h.sliceFetch
      have h4 : s4.Residues := h2.foldl fun _ _ h3 => h3.wSend
      exact h4.updWctx.sendDone

theorem wOpen {p h} (hs : s.Residues) : (s.wOpen p h).1.Residues := by
  unfold State.wOpen
  extract_lets -underBinder
  split
  · exact hs.count
  · split
    · exact hs.count
    · split
      · exact hs.contribute
      · exact hs.setWctx

theorem wContrib {p h wide payload} (hs : s.Residues) : (s.wContrib p h wide payload).1.Residues := by
  unfold State.wContrib
  extract_lets -underBinder
  split
  · exact hs.wSend
  · split
    · exact hs.count
    · split
      · exact hs.count
      · extract_lets -underBinder _ _ s1
        have h1 : s1.Residues := hs.setWctx
        split
        · exact hs.count
        · split
          · exact hs.count
          · exact .ite h1.finishSlot h1

theorem wResult {p h wide payload} (hs : s.Residues) : (s.wResult p h wide payload).1.Residues := by
  unfold State.wResult
  extract_lets -underBinder
  split
  · exact hs
  · extract_lets -underBinder _ _ _ _ _ _ s1
    have h1 : s1.Residues := hs.setWctx
    split
    · exact hs.count
    · split
      · exact hs.count
      · split
        · exact hs.count
        · split
          · exact hs
          · split
            · exact h1
            · exact h1.deliver

theorem wFail {p h} (hs : s.Residues) : (s.wFail p h).1.Residues := by
  unfold State.wFail
  split
  · exact hs.count
  · split
    rename_i s1 _ heq
    have h1 : s1.Residues := hs.deliver.fst heq
    split
    · exact h1.count
    · exact hs.count

theorem wVote {p h payload} (hs : s.Residues) : (s.wVote p h payload).1.Residues := by
  unfold State.wVote
  extract_lets -underBinder
  split
  · exact hs.count
  · exact hs.setWctx

theorem wNak {p h} (hs : s.Residues) : (s.wNak p h).1.Residues := by
  unfold State.wNak
  extract_lets -underBinder
  split
  · exact hs.raise
  · split
    · exact hs.raise
    · exact hs.count

theorem wghMeet {port hdr payload} (h : s.Residues) : (s.wghMeet port hdr payload).1.Residues := by
  unfold State.wghMeet
  extract_lets w
  split
  · exact h.count
  · extract_lets w cur pending
    split
    · exact h
    · split
      · exact h.count
      · split
        · exact h.count
        · exact h
        · split
          · split
            · exact h
            · exact h.wSend
          · split
            rename_i s1 a heq
            have h1 : s1.Residues := by
              split at heq
              · exact h.wOpen.fst heq
              · exact h.wContrib.fst heq
              · exact h.wResult.fst heq
              · exact h.wContrib.fst heq
              · exact h.wResult.fst heq
              · exact h.wVote.fst heq
              · exact h.wNak.fst heq
              · exact h.wFail.fst heq
            split
            · exact h1.digest
            · exact h1
            · exact h1

theorem wWait {p port k hdr payload} (h : s.Residues) : (s.wWait p port k hdr payload).Residues := by
  unfold State.wWait
  extract_lets -underBinder s1
  have h1 : s1.Residues := by
    unfold s1
    split
    · exact h.park
    · exact h
  exact h1.updWctx

theorem wghReceive {port k hdr payload} (h : s.Residues) : (s.wghReceive port k hdr payload).Residues := by
  unfold State.wghReceive
  extract_lets -underBinder
  split
  rename_i s1 _ heq
  have h1 : s1.Residues := h.wghMeet.fst heq
  split
  · exact h1.wWait
  · split
    · exact h1.leave.updWctx
    · exact h1

theorem wRefeed {p} (h : s.Residues) : (s.wRefeed p).Residues :=
  h.updWctx.foldl fun _ _ h1 => .ite h1.wghReceive h1.wWait

theorem beginSend {p off} (h : s.Residues) : (s.beginSend p off).Residues := by
  unfold State.beginSend
  extract_lets -underBinder
  split
  · exact h
  · extract_lets -underBinder _ s1 s3 _ _ s5
    have h1 : s1.Residues := h.setWctx
    have h3 : s3.Residues := h1.foldl fun _ _ h2 => h2.deliver
    have h5 : s5.Residues := by
      unfold s5
      refine h3.foldl fun _ _ h4 => ?_
      split
      · exact h4.contribute
      · exact h4
    exact h5.sendDone.wRefeed

theorem startSend {x r} (h : s.Residues) : (s.startSend x r).Residues := by
  unfold State.startSend
  extract_lets -underBinder _ _ s1 s2 s4 s5
  have h1 : s1.Residues := h.updExec
  have h2 : s2.Residues := h1.updWctx
  have h4 : s4.Residues := h2.foldl fun _ _ h3 => h3.deliver
  have h5 : s5.Residues := h1.enter.updWctx
  exact .ite h4.doneAtIssue.wRefeed (.ite h5.beginSend h5)

theorem keeps_clsSend {wide} : (clsSend wide).KeepsResidues :=
  fun _ _ h => .ite ((h.foldl fun _ _ h1 => h1.setBank).startSend) h.startSend

theorem tablePoison {p off} (h : s.Residues) (ht : s.tablePoison p off = some t) : t.Residues := by
  unfold State.tablePoison at ht
  dsimp only at ht
  split at ht
  · cases ht
  · exact h.poisonCheck ht

theorem reshardNow {p off} (h : s.Residues) : (s.reshardNow p off).Residues := by
  unfold State.reshardNow
  split
  · rename_i heq
    exact h.tablePoison heq
  · split
    · exact h.raise
    · extract_lets -underBinder _ _ s2 _ s3 s4 s5 s6
      have h2 : s2.Residues := h.updWctx
      have h3 : s3.Residues := h2.setFld
      have h4 : s4.Residues := h3.setFld.setFld
      have h5 : s5.Residues := h4.setFld.release
      have h6 : s6.Residues := h5.updExec
      exact h6.wRefeed

theorem keeps_clsReshard : clsReshard.KeepsResidues := by
  intro s x h
  unfold clsReshard
  extract_lets -underBinder
  dsimp -zeta only
  extract_lets -underBinder s1
  have h1 : s1.Residues := h.enter
  exact .ite h1.reshardNow h1.hold

theorem wghStart {p seq step attempt inter} (h : s.Residues) : (s.wghStart p seq step attempt inter).Residues := by
  unfold State.wghStart
  extract_lets -underBinder _ _ _ _ s1
  have h1 : s1.Residues := h.setWctx
  exact h1.setFld.setFld.wRefeed

theorem wghPrst {p} (h : s.Residues) : (s.wghPrst p).Residues := by
  unfold State.wghPrst
  extract_lets -underBinder _ s3
  have h3 : s3.Residues := h.foldl fun _ _ h1 => h1.foldl fun _ _ h2 => h2.wSend
  exact h3.setWctx

/-! Updates (Machine/Update). -/

theorem setPlane {p direct} : ∀ {bs} {va} {s : State}, s.Residues → (s.setPlane p va direct bs).Residues
  | [], _, _, h => h
  | _ :: bs, _, _, h => by
    unfold State.setPlane
    apply setPlane (bs := bs)
    split
    · exact h.setByte
    · exact h

theorem sendVotes {p outcome} (h : s.Residues) : (s.sendVotes p outcome).Residues := by
  unfold State.sendVotes
  extract_lets -underBinder _ s2
  have h2 : s2.Residues := h.foldl fun _ _ h1 => h1.wSend
  exact h2.updWctx

theorem decideStep {p e d} (h : s.Residues) : (s.decideStep p e d).Residues := by
  unfold State.decideStep
  extract_lets -underBinder s1
  have h1 : s1.Residues := .ite h.setFld h
  exact h1.setExec

theorem stepSettle {p} (h : s.Residues) : (s.stepSettle p).Residues := by
  unfold State.stepSettle
  split
  · exact h
  · split
    · exact h
    · extract_lets -underBinder _ _ s1 _ s2
      have h1 : s1.Residues := .ite h.sendVotes h
      have h2 : s2.Residues := .ite h (.ite h.decideStep (.ite h1.decideStep h1))
      split
      · exact h2
      · exact .ite h2.setExec.unhold.unhold.realignFree (.ite h2.hold h2.unhold.hold)

theorem lossEnd {p off votes} (h : s.Residues) : (s.lossEnd p off votes).Residues := by
  unfold State.lossEnd
  extract_lets -underBinder s1 _ s3
  have h1 : s1.Residues := h.updExec
  have h3 : s3.Residues := h1.foldl fun _ _ h2 => h2.scrambleAhead.updCar.scanOver
  exact .ite h3.sendVotes h3

theorem keeps_clsLosschk : clsLosschk.KeepsResidues := by
  intro s x h
  unfold clsLosschk
  extract_lets -underBinder
  dsimp -zeta only
  extract_lets -underBinder
  split
  · rename_i heq
    exact h.poisonCheck heq
  · extract_lets -underBinder _ _ s2 s3 verdict s4
    have h2 : s2.Residues := h.updExec
    have h3 : s3.Residues := h2.csgLoss
    have h4 : s4.Residues := h3.applyVerdict
    clear_value verdict
    split
    · exact h4.raise
    · exact h4.lossEnd
    · exact .ite h4.doneAtIssue h4.lossEnd

theorem keeps_clsUpdate : clsUpdate.KeepsResidues := by
  intro s x h
  unfold clsUpdate
  extract_lets -underBinder
  dsimp -zeta only
  extract_lets -underBinder
  split
  · rename_i heq
    exact h.poisonCheck heq
  · extract_lets -underBinder _ _ _ _ s2 s3 s4 s5
    have h2 : s2.Residues := h.updExec
    have h3 : s3.Residues := h2.dest
    have h4 : s4.Residues := h3.enter
    have h5 : s5.Residues := .ite h4.hold h4
    exact .ite h2.doneAtIssue.wRefeed h5.wRefeed

theorem planePoison {p u pls ws} (h : s.Residues) (ht : s.planePoison p u pls ws = some t) : t.Residues := by
  unfold State.planePoison at ht
  split at ht
  · cases ht
  · exact h.poisonCheck ht

theorem finishUpd {p off} (h : s.Residues) : (s.finishUpd p off).Residues :=
  h.updExec

theorem stopEngine {p} (h : s.Residues) : (s.stopEngine p).Residues := by
  unfold State.stopEngine
  extract_lets -underBinder s1
  have h1 : s1.Residues := h.setFld
  split
  · exact h1
  · exact h1.foldl fun _ _ h2 => h2.finishUpd

theorem badChunk {p u why} (h : s.Residues) : (s.badChunk p u why).Residues := by
  unfold State.badChunk
  extract_lets -underBinder s1
  have h1 : s1.Residues := h.updExec
  exact .ite h1.stopEngine h1.finishUpd

theorem meshPlanes {p u pls lo hi} (h : s.Residues) : (s.meshPlanes p u pls lo hi).Residues := by
  unfold State.meshPlanes
  extract_lets -underBinder
  refine h.foldl fun _ _ h1 => ?_
  split
  refine h1.foldl fun _ _ h2 => ?_
  split
  extract_lets -underBinder s3
  have h3 : s3.Residues := h2.meshRow
  split
  · exact h3.meshTo
  · exact h3

theorem writeChunk {p u pls x ws} (h : s.Residues) : (s.writeChunk p u pls x ws).Residues := by
  unfold State.writeChunk
  extract_lets -underBinder s1 s4 s5 s6 s7
  have h1 : s1.Residues := h.meshPlanes
  have h4 : s4.Residues := h1.foldl fun _ _ h2 => .ite h2 (h2.foldl fun _ _ h3 => h3.setPlane)
  have h5 : s5.Residues := h4.updEvents
  have h6 : s6.Residues := .ite h5.updWctx h5
  have h7 : s7.Residues := h6.updExec
  exact .ite h7.updExec.finishUpd h7

theorem applyRun {p b c} (h : s.Residues) : (s.applyRun p b c).Residues := by
  unfold State.applyRun
  split
  · exact h
  · extract_lets -underBinder
    split
    · split
      · exact h
      · split
        · exact h
        · extract_lets -underBinder s1 _ _ _ s3
          have h1 : s1.Residues := h.setWctx
          have h3 : s3.Residues := by
            unfold s3
            split
            · exact h1.badChunk
            · split
              · exact h1.badChunk
              · split
                · rename_i heq
                  exact h1.planePoison heq
                · exact .ite h1.writeChunk h1.badChunk
          exact .ite h1 (.ite (.ite h1.badChunk h1) h3.stepSettle)
    · exact h

theorem applyChunk {p b c} (h : s.Residues) : (s.applyChunk p b c).Residues := by
  unfold State.applyChunk
  split
  · exact h
  · split
    · exact .ite (h.forSeq fun _ h1 => h1.applyRun) h.applyRun
    · exact h.applyRun

theorem keeps_clsCommit : clsCommit.KeepsResidues := by
  intro s x h
  unfold clsCommit
  extract_lets -underBinder
  dsimp -zeta only
  extract_lets -underBinder s1
  have h1 : s1.Residues := h.updExec
  exact h1.enter.stepSettle

theorem voteMiss {p} (h : s.Residues) : (s.voteMiss p).Residues := by
  unfold State.voteMiss
  split
  · exact h
  · extract_lets -underBinder
    split
    · exact h
    · split
      · exact h
      · exact h.raise

theorem consignRead {p} (h : s.Residues) : (s.consignRead p).Residues := by
  unfold State.consignRead
  split
  · extract_lets -underBinder s1
    have h1 : s1.Residues := h.csgReadDone
    exact .ite h1.stepSettle (.ite h1 h1.release)
  · exact h

theorem wghPacket {typ port k hdr payload} (h : s.Residues) : (s.wghPacket typ port k hdr payload).Residues := by
  unfold State.wghPacket
  split
  · exact h
  · extract_lets -underBinder s1
    have h1 : s1.Residues := h.wghReceive
    split
    · exact .ite h1.stepSettle h1
    · exact h1

theorem behind {i k} (h : s.Residues) : (s.behind i k).Residues := by
  unfold State.behind
  extract_lets -underBinder
  split
  · exact .ite h.wWait h.park
  · exact h.park

theorem deliverPacket {i k} (h : s.Residues) : (s.deliverPacket i k).Residues := by
  unfold State.deliverPacket
  split
  · exact h
  · split
    · exact h.leave.count
    · extract_lets -underBinder
      split
      · exact h
      · split
        · exact h.behind
        · split
          · split
            · exact .ite h.wghPacket h.windowDrop
            · exact h.windowDrop
          · exact .ite h.deliverSend (.ite h.csgPacket (.ite h.windowDrop (.ite h.leave.beaconFrom h.leave)))

/-! Orders (Machine/Order). -/

theorem accept {p f r hdr} (h : s.Residues) : (s.accept p f r hdr).Residues := by
  unfold State.accept
  extract_lets -underBinder _ _ s1
  have h1 : s1.Residues := h.updPart
  exact h1.setFld.setFld

theorem orderAccept {p f r entry} (h : s.Residues) : (s.orderAccept p f r entry).Residues := by
  unfold State.orderAccept
  extract_lets -underBinder
  split
  · exact h
  · split
    · exact h.setFld.updPart.event
    · extract_lets -underBinder _ s1
      have h1 : s1.Residues := h.updPart
      split
      · exact h
      · split
        · split
          · exact h1.sendPacket
          · exact h1
        · exact h.accept

theorem clearAlloc {c} (h : s.Residues) : (s.clearAlloc c).Residues := by
  unfold State.clearAlloc
  extract_lets s1
  have h1 : s1.Residues := h
  exact h1.foldl fun _ _ h => h.setReg

theorem loadAllocs {p as} (h : s.Residues) : (s.loadAllocs p as).Residues := by
  unfold State.loadAllocs
  extract_lets -underBinder _ s2
  have h2 : s2.Residues := h.foldl fun _ _ h1 => h1.clearAlloc
  refine h2.foldl fun _ _ h3 => ?_
  split
  · exact h3.setFlag
  · exact h3.setReg

theorem loadPlan {p h} (hs : s.Residues) : (s.loadPlan p h).Residues :=
  hs.foldl fun _ _ h1 => h1.setReg

theorem loadSpice {p ts} (h : s.Residues) : (s.loadSpice p ts).Residues := by
  refine h.foldl fun _ _ h => h.foldl fun _ _ h => State.Residues.setFld (h.foldl fun s k h => ?_)
  exact h

theorem countClasses {p ts} (h : s.Residues) : (s.countClasses p ts).Residues :=
  h.setFld.setFld
theorem cutHolds {p} (h : s.Residues) : (s.cutHolds p).Residues :=
  h.updPart

theorem startOrder {p o} (h : s.Residues) : (s.startOrder p o).Residues := by
  unfold State.startOrder
  extract_lets base inter attempt ts fs bad s1 s2 s3 s4 s5 s6 s7 poisoned
  have h1 : s1.Residues := h.updPart
  have h2 : s2.Residues := .ite h1 h1.cutHolds
  have h4 : s4.Residues := h2.setExec.setReg.setFld
  have h5 : s5.Residues := .ite h4 (h4.foldl fun _ _ h => h.updCar)
  have h7 : s7.Residues := h5.setPartState.wghStart
  have hp : ∀ t, poisoned = some t → t.Residues := fun t ht => by
    unfold poisoned at ht
    split at ht
    · cases ht
    · exact h7.poisonCheck ht
  clear_value poisoned
  split
  · exact hp _ rfl
  · split
    · exact h7.raise
    · exact h7.loadAllocs.loadPlan.loadSpice.countClasses

theorem orderStart {p} (h : s.Residues) : (s.orderStart p).Residues := by
  unfold State.orderStart
  split
  · exact h
  · split
    · exact h
    · split
      · exact h.startOrder
      · exact .ite h.startOrder h

theorem applyAct {p a} (h : s.Residues) : (s.applyAct p a).Residues := by
  unfold State.applyAct
  split
  · extract_lets -underBinder s1
    have h1 : s1.Residues := h.setReg.setReg
    split
    · exact h1.suspend
    · exact h1
  · exact h.setFld
  · exact h.setReg

theorem sealAnswer {p status reason} (h : s.Residues) : (s.sealAnswer p status reason).Residues :=
  h.setFld.setFld.emit
theorem dropPreReq {p} (h : s.Residues) : (s.dropPreReq p).Residues :=
  .ite h.updPart.sealAnswer h
theorem applyActs {p} (h : s.Residues) : (s.applyActs p).Residues :=
  .ite h (h.updPart.foldl fun _ _ h1 => h1.applyAct)

theorem writeRecord {p r} (h : s.Residues) : (s.writeRecord p r).Residues := by
  unfold State.writeRecord
  extract_lets -underBinder _ s1
  have h1 : s1.Residues := .ite h h.storeVbytes
  exact h1.emit.emit

theorem flushRecords {p} (h : s.Residues) : (s.flushRecords p).Residues :=
  .ite (h.updPart.foldl fun _ _ h1 => h1.writeRecord) h
theorem completionFlush {p} (h : s.Residues) : (s.completionFlush p).Residues :=
  h.updDev.flushRecords
theorem emptyMbox {p m} (h : s.Residues) : (s.emptyMbox p m).Residues :=
  h.setReg.foldl fun _ _ h1 => h1.setReg

theorem fillMbox {p m seq ready data} (h : s.Residues) : (s.fillMbox p m seq ready data).Residues := by
  unfold State.fillMbox
  extract_lets -underBinder s1
  have h1 : s1.Residues := h.setFld.setFld
  exact .ite (h1.foldl fun _ _ h2 => h2.setReg) h1

theorem publish {p m seq ready data} (h : s.Residues) : (s.publish p m seq ready data).Residues :=
  .ite h.fillMbox h.updPart

theorem mboxRelease {p m} (h : s.Residues) : (s.mboxRelease p m).Residues := by
  unfold State.mboxRelease
  split
  · exact h
  · extract_lets -underBinder s1
    have h1 : s1.Residues := h.emptyMbox
    split
    · exact h1.updPart.fillMbox
    · exact h1

theorem settleOutcome {p e status} (h : s.Residues) : (s.settleOutcome p e status).1.Residues := by
  unfold State.settleOutcome
  extract_lets -underBinder s1 s2 s3 s4
  have h1 : s1.Residues := h.updWctx
  have h2 : s2.Residues := h1.setFld
  have h3 : s3.Residues := .ite h2 h2.setFld
  have h4 : s4.Residues := h3.setFld
  split
  · split
    · exact h1.setFld.setFld
    · exact h1
  · split
    · exact h1
    · split
      · exact h4.setFld.setFld
      · exact h2.count

theorem endOrder {p o e status fault} (h : s.Residues) : (s.endOrder p o e status fault).Residues := by
  unfold State.endOrder
  split
  rename_i s1 outcome heq
  have h1 : s1.Residues := by
    split at heq
    · exact h.settleOutcome.fst heq
    · cases heq
      exact h
  extract_lets s2 s3 bm r base s4
  have h4 : s4.Residues := h1.updPart.setFld.updPart.flushRecords
  exact .ite h4.publish h4

theorem dropElastic {p} (h : s.Residues) : (s.dropElastic p).Residues := by
  refine h.foldl fun _ _ h => ?_
  extract_lets s1
  have h1 : s1.Residues := h
  exact h1.foldl fun _ _ h => h.setQueue.setFld

theorem noExec {p} (h : s.Residues) : (s.noExec p).Residues := by
  unfold State.noExec
  extract_lets -underBinder s1 s3
  have h1 : s1.Residues := by
    unfold s1
    split
    · exact h.setFld
    · exact h
  have h3 : s3.Residues := h1.dropElastic.foldl fun _ _ h2 => h2.scanOver
  exact h3.updPart.cutHolds.setPartState

theorem leaveExec {p seq} (h : s.Residues) : (s.leaveExec p seq).Residues := by
  unfold State.leaveExec
  extract_lets -underBinder s1
  have h1 : s1.Residues := h.noExec.markSaved (fun _ => rfl) fun q => by split <;> rfl
  exact h1.dropPreReq.applyActs

theorem again {p seqs} (h : s.Residues) : (s.again p seqs).Residues :=
  h.updPart.count

theorem repeatStep {p e} (h : s.Residues) : (s.repeatStep p e).Residues := by
  unfold State.repeatStep
  extract_lets -underBinder s1 s2
  have h1 : s1.Residues := h.setFld.count.count
  have h2 : s2.Residues := h1.updWctx
  exact h2.noExec.updPart

theorem partFaultEvent {p r} (h : s.Residues) : (s.partFaultEvent p r).Residues :=
  h.event

theorem endSignal {p off} (h : s.Residues) : (s.endSignal p off).Residues := by
  unfold State.endSignal
  split
  · exact h
  · exact h.signal

theorem endBy {p cause e} (h : s.Residues) : (s.endBy p cause e).Residues := by
  unfold State.endBy
  extract_lets -underBinder _ s1
  have h1 : s1.Residues := by
    unfold s1
    split
    · exact .ite h.partFaultEvent h
    · exact h
  split
  · exact h.endOrder
  · exact h1.endOrder
  · exact h1.again

theorem endBoth {p a b} (h : s.Residues) : (s.endBoth p a b).Residues := by
  unfold State.endBoth
  exact h.endBy.endBy.noExec.leaveExec

theorem keptCheck {p e} (h : s.Residues) : (s.keptCheck p e).Residues := by
  unfold State.keptCheck
  extract_lets -underBinder
  split
  · exact h.raise
  · exact h.endSignal

theorem endPrev {p a} (h : s.Residues) : (s.endPrev p a).Residues := by
  unfold State.endPrev
  split
  · exact h
  · split
    · exact .ite h.endBoth h
    · split
      · exact h
      · extract_lets -underBinder s2
        have h2 : s2.Residues := h.forSeq fun _ h1 => h1.keptCheck
        split
        · split
          · split
            · exact .ite h2.endBoth h2
            · exact h2
          · exact h2.endOrder.updPart
        · exact h2

theorem orderEnd {p sinceS e} (h : s.Residues) : (s.orderEnd p sinceS e).Residues := by
  unfold State.orderEnd
  extract_lets -underBinder
  split
  · exact h.endOrder.leaveExec
  · split
    · split
      · exact h
      · split
        · exact h
        · extract_lets -underBinder s1
          have h1 : s1.Residues := .ite h.partFaultEvent h
          exact h1.endOrder.leaveExec
    · split
      · exact h
      · split
        · split
          · exact h.repeatStep
          · extract_lets -underBinder _ s2
            have h2 : s2.Residues := h.setFld.count
            exact h2.endOrder.leaveExec
        · extract_lets -underBinder s3
          have h3 : s3.Residues := h.endOrder.leaveExec
          exact .ite h3.csgBoundary h3

theorem orderComplete {p sinceS} (h : s.Residues) : (s.orderComplete p sinceS).Residues := by
  unfold State.orderComplete
  split
  · exact h
  · split
    · exact h.endPrev
    · split
      · exact h
      · extract_lets -underBinder s1
        have h1 : s1.Residues := by
          unfold s1
          split
          · split
            · exact h.raise
            · exact h.endSignal
          · exact h
        split
        · exact h1.orderEnd
        · exact h1

theorem restart {p e} (h : s.Residues) : (s.restart p e).Residues :=
  h.noExec.again

theorem reexecute {p} (h : s.Residues) : (s.reexecute p).Residues := by
  unfold State.reexecute
  extract_lets -underBinder
  split
  · exact h
  · split
    · exact .ite h.endBoth h
    · split
      · exact .ite h.partFaultEvent.restart h
      · exact h
    · exact h

theorem touched {p unit} (h : s.Residues) : (s.touched p unit).Residues := by
  unfold State.touched
  split
  · exact h
  · exact .ite h h.stopOrder.updExec.reexecute

theorem cancelSaved {p seq} (h : s.Residues) : (s.cancelSaved p seq).Residues := by
  unfold State.cancelSaved
  split
  · exact h
  · rename_i hq
    extract_lets -underBinder s2
    have h2 : s2.Residues := h.foldl fun _ _ h1 => h1.endBy
    exact h2.savePart fun _ he => by cases he; exact (h.preempt hq :)

theorem cancel {p seq} (h : s.Residues) : (s.cancel p seq).Residues := by
  unfold State.cancel
  extract_lets -underBinder _ _ s1
  have h1 : s1.Residues := h.endOrder
  exact .ite h (.ite (.ite h h.stopOrder.updExec) (.ite (.ite h h.stopOrder.updPart) (.ite h.cancelSaved (h1.markSaved (fun _ => rfl) fun q => by split <;> rfl))))

theorem endAll {p status} (h : s.Residues) : (s.endAll p status).Residues := by
  unfold State.endAll
  extract_lets -underBinder s1 _ _ s2 s4
  have h1 : s1.Residues := h.stopOrder
  have h2 : s2.Residues := h1.dropPreReq.noExec.dropSaved
  have h4 : s4.Residues := h2.foldl fun _ _ h3 => h3.endOrder
  exact h4.applyActs

theorem grantWgh {p h n} (hs : s.Residues) : (s.grantWgh p h n).Residues := by
  unfold State.grantWgh
  split
  · exact hs
  · extract_lets -underBinder s1
    have h1 : s1.Residues := hs.setFld.setFld
    exact .ite h1.setWctx.setReg.updPart h1

theorem manResume {p} (h : s.Residues) : (s.manResume p).Residues := by
  unfold State.manResume
  extract_lets -underBinder _ _ s1 s2
  have h1 : s1.Residues := .ite h.grantWgh h
  have h2 : s2.Residues := h1.updPart.setFld
  exact .ite h (.ite h2.reexecute h2)

theorem withdraw {p} (h : s.Residues) : (s.withdraw p).Residues :=
  .ite h h.endAll.updPart.setFld

theorem clearCars {p} (h : s.Residues) : (s.clearCars p).Residues := by
  unfold State.clearCars
  extract_lets cs s1
  have h1 : s1.Residues := h.filterTally
  exact h1.foldl fun _ _ h => h.updCar

theorem flushRows {p} (h : s.Residues) : (s.flushRows p).Residues :=
  h.foldl fun _ _ h1 => h1.rowsOut
theorem flushFences {p} (h : s.Residues) : (s.flushFences p).Residues :=
  h.foldl fun _ _ h1 => h1.takeFences

theorem flushXfers {p e} (h : s.Residues) : (s.flushXfers p e).Residues := by
  unfold State.flushXfers
  extract_lets -underBinder _ s3 s5
  have h3 : s3.Residues := h.foldl fun _ _ h1 => h1.foldl fun _ _ h2 => .ite h2.land h2.dropXfer.count
  have h5 : s5.Residues := h3.foldl fun _ _ h4 => h4.count.count.updCar.drvStatus
  exact h5.foldl fun _ _ h6 => h6.updCar.scanOver

theorem saveAreas {p} (h : s.Residues) : (s.saveAreas p).Residues :=
  h.foldl fun _ _ h1 => .ite h1.scramble h1
theorem saveBad {p bad} (h : s.Residues) : (s.saveBad p bad).Residues :=
  h.foldl fun _ _ h1 => .ite (h1.foldl fun _ _ h2 => .ite h2.eccSram.midPass h2) h1

/-- What a pre-emption saves of a tally that holds residues. -/
theorem savePreempt {p named e} (h : s.Residues) : (s.savePreempt p named e).Sound := h.tally.filter _

theorem preemptNow {p} (h : s.Residues) : (s.preemptNow p).Residues := by
  unfold State.preemptNow
  split
  · extract_lets -underBinder _ s1 s2 s3 s4 s5
    have h1 : s1.Residues := h.flushRows.flushFences
    have h2 : s2.Residues := .ite h1 h1.preemptRemnants
    have h3 : s3.Residues := h2
    have h4 : s4.Residues := h3.flushXfers
    have h5 : s5.Residues := h4.saveBad.saveAreas
    split
    · exact h
    · split
      · exact h3
      · split
        · exact h3
        · split
          · exact h5
          · split
            · exact h5
            · extract_lets -underBinder _ s6
              have h6 : s6.Residues := State.Residues.setPartState (h5.clearCars.savePart fun _ hq => Option.some.inj hq ▸ h5.savePreempt)
              exact h6.sealAnswer
  · exact h

theorem refill {p c} (h : s.Residues) : (s.refill p c).Residues := by
  unfold State.refill
  extract_lets -underBinder _ _ _ _ s1 s3
  have h1 : s1.Residues := h.setCar
  have h3 : s3.Residues := h1.foldl fun _ _ h2 => h2.landFill
  exact h3.updCar

theorem restorePreempt {p q} (h : s.Residues) (hq : q.Sound) : (s.restorePreempt p q).Residues := by
  unfold State.restorePreempt
  extract_lets -underBinder d cs s1 s2 s3 s4 s5 s6 s7 s8 s9 s10 s11 was s12 lat s13 tag s14 s15 later src e s16 s17 s18
  have h2 : s2.Residues := h.clearCars.foldl fun _ _ h => h.setCar
  have h3 : s3.Residues := h2.foldl fun _ _ h => h.setBank
  have h4 : s4.Residues := List.foldlRecOn _ _ h3 fun _ h x hx => h.setEntry (hq x.1 x.2 hx)
  have h5 : s5.Residues := h4.foldl fun _ _ h => h.zeroRange
  have h6 : s6.Residues := h5.foldl fun _ _ h => h.setByte
  have h7 : s7.Residues := h6.foldl fun _ _ h => h.clearAlloc
  have h8 : s8.Residues := h7.foldl fun _ _ h => h.setFlag
  have h9 : s9.Residues := h8.foldl fun _ _ h => h.setQueue
  have h10 : s10.Residues := h9
  have h11 : s11.Residues := h10.foldl fun _ _ h => h
  have h12 : s12.Residues := h11.foldl fun _ _ h => State.Residues.foldl (h.setReg.foldl fun _ _ h => h.setReg) fun _ _ h => h.setFld
  have h15 : s15.Residues := h12.setFld.setFld.setFld.updWctx
  have h17 : s17.Residues := h15.dropSaved.setReg.setPartState
  have h18 : s18.Residues := State.Residues.wRefeed (h17.foldl fun _ _ h => h.refill)
  exact .ite h18.hold h18

theorem preemptResume {p} (h : s.Residues) : (s.preemptResume p).Residues := by
  unfold State.preemptResume
  split
  · rename_i hq _
    exact .ite h (.ite h.dropSaved.applyActs (h.restorePreempt (h.preempt hq)))
  · exact h

theorem watchdog {p} (h : s.Residues) : (s.watchdog p).Residues := by
  unfold State.watchdog
  split
  · exact h
  · exact .ite h h.count.raise

/-! Resets (Machine/Reset). -/

theorem resetCols {inScope col} (h : s.Residues) : (s.resetCols inScope col).Residues :=
  h

theorem zeroStation {c i} (h : s.Residues) : (s.zeroStation c i).Residues := by
  unfold State.zeroStation
  extract_lets g s1 s2
  have h1 : s1.Residues := h.zeroRange
  have h2 : s2.Residues := h1.filterTally
  exact h2.updCar

theorem zeroCaravan {c} (h : s.Residues) : (s.zeroCaravan c).Residues := by
  unfold State.zeroCaravan
  extract_lets -underBinder s2 s3
  have h2 : s2.Residues := h.foldl fun _ _ h1 => h1.zeroStation
  have h3 : s3.Residues := h2.zeroRange
  exact h3.clearAlloc.setCar

theorem endGrants {covers} (h : s.Residues) : (s.endGrants covers).Residues :=
  h

theorem crst {c stn} (h : s.Residues) : (s.crst c stn).Residues := by
  unfold State.crst
  extract_lets -underBinder _ s1 s2
  have h1 : s1.Residues := by
    unfold s1
    split
    · exact h.touched
    · exact h
  have h2 : s2.Residues := by
    unfold s2
    split
    · exact h1.zeroStation
    · exact h1.zeroCaravan.endGrants
  exact h2.resetCols

theorem endUnlock {p} (h : s.Residues) : (s.endUnlock p).Residues := by
  unfold State.endUnlock
  extract_lets -underBinder s1 s2
  have h1 : s1.Residues := h.updScout
  have h2 : s2.Residues := h1.setFld.setFld
  exact h2.setFld.release.updPart

theorem dropPushes {p} (h : s.Residues) : (s.dropPushes p).Residues := by
  unfold State.dropPushes
  refine h.foldl fun _ _ h1 => ?_
  extract_lets -underBinder _ s2
  have h2 : s2.Residues := h1.updPort
  exact h2.foldl fun _ _ h3 => h3.freed.count

theorem prst {p} (h : s.Residues) : (s.prst p).Residues := by
  unfold State.prst
  extract_lets -underBinder s1 s2 _ s4 s5
  have h1 : s1.Residues := h.endAll.endUnlock
  have h2 : s2.Residues := h1.wghPrst.dropPushes.dropSaved
  have h4 : s4.Residues := (h2.foldl fun _ _ h3 => h3.zeroCaravan).endGrants
  have h5 : s5.Residues := h4.resetCols
  exact h5.setPartState

theorem lrstReq {i sinceS} (h : s.Residues) : (s.lrstReq i sinceS).Residues :=
  .ite h h.endGrants.resetCols.lrst

theorem flr {f} (h : s.Residues) : (s.flr f).Residues := by
  unfold State.flr
  extract_lets -underBinder s1 s2
  have h1 : s1.Residues := h.resetCols
  have h2 : s2.Residues := h1.updDev
  split
  · exact h2.updPart
  · exact h2

theorem setHostUp {hp up} (h : s.Residues) : (s.setHostUp hp up).Residues :=
  h.updDev

theorem trainHost {hp} (h : s.Residues) : (s.trainHost hp).Residues := by
  unfold State.trainHost
  extract_lets -underBinder _ _ s1
  have h1 : s1.Residues := h.setHostUp
  exact .ite h1.emit h1

theorem perstAssert {hp} (h : s.Residues) : (s.perstAssert hp).Residues := by
  unfold State.perstAssert
  extract_lets -underBinder s2
  have h2 : s2.Residues := h.foldl fun _ _ h1 => h1.flr
  exact h2.updDev.setHostUp.dropGrants

theorem perstRelease {hp cxl} (h : s.Residues) : (s.perstRelease hp cxl).Residues :=
  h.updDev.trainHost

theorem refEvent {r back} (h : s.Residues) : (s.refEvent r back).Residues := by
  unfold State.refEvent
  extract_lets -underBinder s1
  have h1 : s1.Residues := h.count.emit
  exact h1.foldl fun _ _ h2 => .ite h2 h2.event

theorem referenceLost {r} (h : s.Residues) : (s.referenceLost r).Residues := by
  unfold State.referenceLost
  split
  · exact h
  · extract_lets -underBinder s1
    have h1 : s1.Residues := h.setFld.refEvent
    split
    · exact h1.foldl fun _ _ h2 => h2.portOff
    · exact h1.setHostUp.setHostUp

theorem referenceReturn {r} (h : s.Residues) : (s.referenceReturn r).Residues := by
  unfold State.referenceReturn
  split
  · exact h
  · extract_lets -underBinder s1
    have h1 : s1.Residues := h.setFld.refEvent
    split
    · exact .ite (h1.foldl fun _ _ h2 => h2.portUp) h1
    · exact h1.trainHost.trainHost

theorem putRwl {off lsb width v} (h : s.Residues) : (s.putRwl off lsb width v).Residues := by
  unfold State.putRwl
  split
  · exact h
  · exact h.setReg

theorem putWinEntry {port e w} (h : s.Residues) : (s.putWinEntry port e w).Residues :=
  h.setReg.setReg

theorem putWinLists {ws} (h : s.Residues) : (s.putWinLists ws).Residues := by
  unfold State.putWinLists
  refine h.foldl fun _ _ h1 => ?_
  refine h1.foldl fun _ _ h2 => ?_
  split
  exact h2.putWinEntry

theorem installPart {p d} (h : s.Residues) : (s.installPart p d).Residues := by
  unfold State.installPart
  extract_lets -underBinder s1 s2 s3
  have h1 : s1.Residues := h.setReg
  have h2 : s2.Residues := h1.setFld
  have h3 : s3.Residues := h2.setFld.setFld
  exact h3.updPart.setPartState

theorem placeSpares {p} (h : s.Residues) : (s.placeSpares p).Residues := by
  unfold State.placeSpares
  extract_lets -underBinder
  refine h.foldl fun _ _ h1 => ?_
  split
  · exact h1
  · split
    · exact .ite h1.updPart.setFld h1.relocate
    · exact h1.updPart.setFld

theorem placeJournal {h k} (hs : s.Residues) : (s.placeJournal h k).Residues :=
  hs.updDev
theorem placeJournals (h : s.Residues) : (s.placeJournals).Residues :=
  h.placeJournal.placeJournal

/-- Nothing is left of the tally, nor of what was saved. -/
theorem wiped : s.wiped.Residues :=
  State.Residues.congr (s := State.reset) ⟨fun _ _ h => (nomatch h), fun _ _ h => (nomatch h)⟩ rfl rfl

theorem powerOff : (s.powerOff).Residues :=
  State.Residues.wiped.updDev

theorem startFences {img c} (h : s.Residues) : (s.startFences img c).Residues := by
  unfold State.startFences
  extract_lets -underBinder s1 s3 s5 s6
  have h1 : s1.Residues := .ite h h.updDev
  have h3 : s3.Residues := h1.foldl fun _ _ h2 => h2.applyFence
  have h5 : s5.Residues := h3.foldl fun _ _ h4 => h4.fenceStack
  have h6 : s6.Residues := .ite h5 h5.fenceHalf
  exact .ite h6 h6.fenceHalf

theorem setUp {slot img} (h : s.Residues) : (s.setUp slot img).Residues := by
  unfold State.setUp
  extract_lets -underBinder s2 s4 s5 s6 s8 s10 s11 s13
  have h2 : s2.Residues := h.foldl fun _ _ h1 => h1.putRwl
  have h4 : s4.Residues := h2.foldl fun _ _ h3 => h3.setFld
  have h5 : s5.Residues := h4.putWinLists
  have h6 : s6.Residues := h5.setReg
  have h8 : s8.Residues := h6.foldl fun _ _ h7 => h7.installPart
  have h10 : s10.Residues := h8.foldl fun _ _ h9 => h9.placeSpares
  have h11 : s11.Residues := h10.setFld.setFld.setFld
  have h13 : s13.Residues := h11.foldl fun _ _ h12 => .ite h12.setFld h12
  exact h13.placeJournals.updDev

theorem startUp {c} (h : s.Residues) : (s.startUp c).Residues := by
  unfold State.startUp
  extract_lets -underBinder s1 s3 s4 s5 s7 s8
  have h1 : s1.Residues := h.updDev
  have h3 : s3.Residues := by
    unfold s3
    split
    · exact h1.setFld
    · extract_lets -underBinder s2
      have h2 : s2.Residues := h1.updDev
      exact h2.startFences.setUp
  have h4 : s4.Residues := .ite h3 h3.referenceLost
  have h5 : s5.Residues := .ite h4 h4.referenceLost
  have h7 : s7.Residues := .ite (h5.foldl fun _ _ h6 => h6.portUp) h5
  have h8 : s8.Residues := .ite h7 h7.safeHoldNow
  exact .ite powerOff.updDev h8.trainHost.trainHost

theorem drst {heldUs c} (h : s.Residues) : (s.drst heldUs c).Residues :=
  .ite h wiped.setFld.startUp

theorem wrstPreempted {p unit} (h : s.Residues) : (s.wrstPreempted p unit).Residues := by
  unfold State.wrstPreempted
  split
  · exact h
  · extract_lets -underBinder s2
    have h2 : s2.Residues := .ite h (h.foldl fun _ _ h1 => h1.endBy)
    exact h2.dropSaved

theorem wrstPart {p} (h : s.Residues) : (s.wrstPart p).Residues := by
  unfold State.wrstPart
  extract_lets -underBinder _ s1 s2
  have h1 : s1.Residues := h.touched.wrstPreempted.dropPreReq
  have h2 : s2.Residues := h1.updPart
  exact h2.setWctx

theorem wrst {reason} (h : s.Residues) : (s.wrst reason).Residues := by
  unfold State.wrst
  extract_lets s1 s2 s3 s4 s5 s6
  have h1 : s1.Residues := h.foldl fun _ _ h => .ite h h.wrstPart
  have h2 : s2.Residues := h1.foldl fun _ _ h => h.zeroCaravan.updCar
  have h3 : s3.Residues := h2.foldl fun _ _ h => h.flushPort
  have h5 : s5.Residues := h3.resetCols.setFld.setFld
  have h6 : s6.Residues := h5.withTolls
  exact h6.foldl fun _ _ h => h.lrst

/-! Clocks and power (Machine/Power). -/

theorem setLug {h ok} (hs : s.Residues) : (s.setLug h ok).Residues :=
  hs.updDev
theorem setHalfOn {h on} (hs : s.Residues) : (s.setHalfOn h on).Residues :=
  hs.updDev
theorem noteHalf {h} (hs : s.Residues) : (s.noteHalf h).Residues :=
  .ite hs hs.record1.count

theorem lugDown {h milliV} (hs : s.Residues) : (s.lugDown h milliV).Residues := by
  unfold State.lugDown
  split
  · exact hs
  · extract_lets -underBinder s1
    have h1 : s1.Residues := hs.setLug.setHalfOn
    exact .ite powerOff.updDev (.ite h1 (.ite h1.noteHalf h1.fenceHalf))

theorem lugUp {h milliV} (hs : s.Residues) : (s.lugUp h milliV).Residues := by
  unfold State.lugUp
  split
  · exact hs
  · extract_lets -underBinder s1
    have h1 : s1.Residues := hs.setLug
    exact .ite h1.setHalfOn h1

theorem fastLoopLook {watts} (h : s.Residues) : (s.fastLoopLook watts).Residues := by
  unfold State.fastLoopLook
  extract_lets -underBinder _ _ s1
  have h1 : s1.Residues := h.updDev
  exact .ite h1.count.count h1

theorem thermal {fld n temp} (h : s.Residues) : (s.thermal fld n temp).Residues := by
  unfold State.thermal
  split
  · exact h
  · extract_lets -underBinder _ s1 s2 _ _ _ s3 s4
    have h1 : s1.Residues := h.updDev
    have h2 : s2.Residues := h1.setFld
    have h3 : s3.Residues := h2.updDev
    have h4 : s4.Residues := .ite h3.count h3
    exact .ite powerOff.updDev (.ite (h4.foldl fun _ _ h5 => .ite h5.hold h5) h4)

theorem spaceHolds {p n cycles} (h : s.Residues) : (s.spaceHolds p n cycles).Residues :=
  h.updPart

theorem capLoop {watts est} (h : s.Residues) : (s.capLoop watts est).Residues := by
  unfold State.capLoop
  extract_lets -underBinder _ s2 s3 s5
  have h2 : s2.Residues := h.foldl fun _ _ h1 => h1.spaceHolds
  have h3 : s3.Residues := h2.setFld
  have h5 : s5.Residues := h3.foldl fun _ _ h4 => h4.setFld
  exact .ite h5 (h5.foldl fun _ _ h6 => .ite h6 h6.spaceHolds)

theorem p2Entry {p} (h : s.Residues) : (s.p2Entry p).Residues :=
  .ite h h.setPartState.dropGrants
theorem loseP3 (h : s.Residues) : (s.loseP3).Residues :=
  h

theorem enterP3 (h : s.Residues) : (s.enterP3).Residues := by
  unfold State.enterP3
  extract_lets -underBinder s2 s4 s6 s8
  have h2 : s2.Residues := h.foldl fun _ _ h1 => h1.zeroCaravan
  have h4 : s4.Residues := h2.foldl fun _ _ h3 => h3.setWctx
  have h6 : s6.Residues := (h4.foldl fun _ _ h5 => h5.portOff).loseP3
  have h8 : s8.Residues := h6.foldl fun _ _ h7 => .ite h7 h7.endUnlock
  exact h8.setFld.updDev.dropGrants

theorem p3Ask (h : s.Residues) : (s.p3Ask).Residues :=
  .ite h (.ite h.setFld.enterP3 h.setFld.updDev)
theorem p3Late (h : s.Residues) : (s.p3Late).Residues :=
  .ite h (.ite h.enterP3 h.updDev.setFld)

theorem leaveP3 (h : s.Residues) : (s.leaveP3).Residues := by
  unfold State.leaveP3
  split
  · exact h
  · extract_lets -underBinder s1 _ s3
    have h1 : s1.Residues := h.setFld
    have h3 : s3.Residues := h1.foldl fun _ _ h2 => h2.applyFence
    exact h3.foldl fun _ _ h4 => h4.portUp

/-! Dependability (Machine/Dep). -/

theorem rebuildDone {h} (hs : s.Residues) : (s.rebuildDone h).Residues :=
  .ite hs hs.placeJournal

theorem rowMarked {k row} (h : s.Residues) : (s.rowMarked k row).2.Residues := by
  unfold State.rowMarked
  split
  · exact h
  · split
    · exact h
    · exact h.draw

theorem softPpr {k row} (h : s.Residues) : (s.softPpr k row).Residues := by
  unfold State.softPpr
  split
  · exact h
  · split
    rename_i _ s1 heq
    have h1 : s1.Residues := h.rowMarked.snd heq
    split
    · exact h1
    · extract_lets -underBinder s2
      have h2 : s2.Residues := h1.updDev
      exact h2.count.record1

theorem poisonSeen {k n} (h : s.Residues) : (s.poisonSeen k n).Residues := by
  unfold State.poisonSeen
  extract_lets -underBinder _ s1
  have h1 : s1.Residues := h.updDev
  exact .ite h1.fenceStack (.ite (.ite h1.draw.fenceStack h1.draw) h1)

theorem withPoison {l : List Nat} (h : s.Residues) : State.Residues { s with poison := l } := h

theorem scrub {k one two poisoned} (h : s.Residues) : (s.scrub k one two poisoned).Residues := by
  unfold State.scrub
  split
  · exact h
  · extract_lets here fresh s1
    have h1 : s1.Residues := h.count.count.count
    exact h1.withPoison.poisonSeen

theorem setSeal {h v} (hs : s.Residues) : (s.setSeal h v).Residues :=
  hs.updDev
theorem stopSeal {h} (hs : s.Residues) : (s.stopSeal h).Residues :=
  .ite hs.setSeal.count hs

/-! The hosts (Machine/Host). -/

theorem rawWrite {w off f is v} (h : s.Residues) : (s.rawWrite w off f is v).Residues :=
  h.setReg
theorem scaleShares (h : s.Residues) : (s.scaleShares).Residues :=
  .ite h (h.foldl fun _ _ h1 => h1.setFld)
theorem grantShare {p w} (h : s.Residues) : (s.grantShare p w).Residues :=
  .ite h.setFld h
theorem enablePort {i} (h : s.Residues) : (s.enablePort i).Residues :=
  .ite h.setFld (.ite h.portOff (.ite h.portUp h))
theorem peerFeed {p n} (h : s.Residues) : (s.peerFeed p n).Residues :=
  h.setFld

theorem doorbell {f ring tail p} (h : s.Residues) : (s.doorbell f ring tail p).Residues := by
  unfold State.doorbell
  extract_lets -underBinder s1
  have h1 : s1.Residues := h.setFld.sendControl
  exact .ite h1.setFld (.ite h1.updDev h1)

theorem ringBase {f ring v} (h : s.Residues) : (s.ringBase f ring v).Residues := by
  unfold State.ringBase
  extract_lets -underBinder s1
  have h1 : s1.Residues := h.setFld.setFld
  exact h1.setFld.setFld

theorem cplHead {p v} (h : s.Residues) : (s.cplHead p v).Residues :=
  h.setFld
theorem sealChange {p a} (h : s.Residues) : (s.sealChange p a).Residues :=
  h.updPart.applyActs.sealAnswer
theorem acted (h : s.Residues) : (s.acted).Residues :=
  h.foldl fun _ _ h1 => h1.foldl fun _ _ h2 => h2.applyAct

theorem reqMap {p} (h : s.Residues) : (s.reqMap p).Residues := by
  unfold State.reqMap
  split
  · exact h.sealAnswer
  · exact h.sealChange

theorem reqUnmap {p} (h : s.Residues) : (s.reqUnmap p).Residues :=
  .ite h.sealAnswer h.sealChange
theorem afterRwl {f is} (h : s.Residues) : (s.afterRwl f is).Residues :=
  .ite h.scaleShares (.ite h.enablePort h)

theorem reqRwl {p} (h : s.Residues) : (s.reqRwl p).Residues := by
  unfold State.reqRwl
  extract_lets -underBinder
  split
  · exact h.sealAnswer
  · exact .ite h.sealAnswer (.ite h.sealAnswer h.putRwl.afterRwl.sealAnswer)

theorem reqToken {p now nonce} (h : s.Residues) : (s.reqToken p now nonce).Residues :=
  .ite h.sealAnswer h.setReg.setReg.sealAnswer

theorem reqPair {p} (h : s.Residues) : (s.reqPair p).Residues := by
  unfold State.reqPair
  extract_lets -underBinder _ _ _ _ _ _ s1
  have h1 : s1.Residues := h.acted
  exact .ite h.sealAnswer (.ite h.sealAnswer h.sealChange)

theorem reqPreempt {p} (h : s.Residues) : (s.reqPreempt p).Residues :=
  .ite h.sealAnswer h.updPart

theorem reqResume {p} (h : s.Residues) : (s.reqResume p).Residues := by
  unfold State.reqResume
  split
  · rename_i hq
    exact .ite (State.Residues.sealAnswer (h.savePart fun _ he => by cases he; exact (h.preempt hq :))) h.sealAnswer
  · exact h.sealAnswer

theorem serve {p type now nonce} (h : s.Residues) : (s.serve p type now nonce).Residues := by
  unfold State.serve
  split
  · exact h.reqMap
  · exact h.reqUnmap
  · exact h.reqRwl
  · exact h.prst.sealAnswer
  · exact h.reqToken
  · exact h.reqPair
  · exact h.reqPreempt
  · exact h.reqResume
  · exact h

theorem askPart {p type now nonce} (h : s.Residues) : (s.askPart p type now nonce).Residues := by
  unfold State.askPart
  extract_lets -underBinder s1 s2
  have h1 : s1.Residues := h.setFld
  have h2 : s2.Residues := h1.setFld.setFld.updPart
  exact .ite h1 (.ite h2.serve h2.updDev)

theorem ask {f type now nonce} (h : s.Residues) : (s.ask f type now nonce).Residues :=
  h.fromHost fun _ _ h1 => h1.askPart
theorem repeatReqs (h : s.Residues) : (s.repeatReqs).Residues :=
  h.updDev.foldl fun _ _ h1 => .ite h1.draw.draw.serve h1
theorem takeOver {h} (hs : s.Residues) : (s.takeOver h).Residues :=
  .ite hs.stopSeal.setSeal.repeatReqs hs

theorem afterWrite {w f is v} (h : s.Residues) : (s.afterWrite w f is v).Residues := by
  unfold State.afterWrite
  extract_lets -underBinder
  split
  · split
    · exact h.doorbell
    · exact h
  · exact h.setFld
  · exact h.cancel
  · exact .ite h.mboxRelease h
  · exact .ite h.draw.draw.askPart h
  · extract_lets -underBinder s1
    have h1 : s1.Residues := .ite h.manResume h
    exact .ite h1.withdraw h1
  · extract_lets -underBinder s2
    have h2 : s2.Residues := .ite h.updPart h
    exact .ite h2.askRestore h2
  · exact h.peerFeed
  · exact .ite h.p3Ask h
  · exact .ite h.afterRwl h
  · exact .ite h.afterRwl h
  · exact .ite h.wrst h
  · exact .ite h.grantWgh h
  · exact .ite h.grantShare h
  · exact h

theorem regWrite {w off v} (h : s.Residues) : (s.regWrite w off v).Residues := by
  unfold State.regWrite
  split
  · exact h
  · exact .ite h h.rawWrite.afterWrite

theorem barRefuse {p f} (h : s.Residues) : (s.barRefuse p f).Residues :=
  h.emit.event

/-! Board management (Machine/Board). -/

theorem applyRefuse {r} (h : s.Residues) : (s.applyRefuse r).Residues :=
  h.setFld.setFld.updDev

theorem applyAsk {p slot} (h : s.Residues) : (s.applyAsk p slot).Residues := by
  unfold State.applyAsk
  split
  · exact h
  · split
    · split
      · exact h.applyRefuse
      · exact h.updDev.setFld
    · exact h.applyRefuse

theorem trimWindows {p} (h : s.Residues) : (s.trimWindows p).Residues := by
  unfold State.trimWindows
  extract_lets -underBinder s2
  have h2 : s2.Residues := by
    unfold s2
    refine h.foldl fun _ _ h1 => ?_
    split
    · exact .ite h1 h1.setFld
    · exact h1
  exact h2.foldl fun _ _ h3 => .ite h3 h3.setFld

theorem applyNow (h : s.Residues) : (s.applyNow).Residues := by
  unfold State.applyNow
  split
  · exact h
  · split
    · exact h
    · extract_lets -underBinder _ _ s1 s3 s4
      have h1 : s1.Residues := h.prst
      have h3 : s3.Residues := h1.foldl fun _ _ h2 => .ite h2.flr h2
      have h4 : s4.Residues := h3.installPart.placeSpares.trimWindows.updDev
      exact h4.setFld.setFld.setFld

/-! The synchronisation commands (Machine/Sync). -/

theorem keeps_clsNop : clsNop.KeepsResidues :=
  fun _ _ h => h.doneAtIssue
theorem keeps_clsAdvance : clsAdvance.KeepsResidues :=
  fun _ _ h => h.updExec
theorem keeps_clsEnd : clsEnd.KeepsResidues :=
  fun _ _ h => h.updExec

theorem keeps_clsMark : clsMark.KeepsResidues := by
  intro s x h
  unfold clsMark
  extract_lets -underBinder
  dsimp -zeta only
  extract_lets -underBinder s1
  have h1 : s1.Residues := h.updExec
  exact h1.doneAtIssue

theorem setExtent {p g d bs} (h : s.Residues) : (s.setExtent p g d bs).Residues :=
  h.foldl fun _ _ h1 => h1.setVbytes
theorem storeExtent {p g d bs} (h : s.Residues) : (s.storeExtent p g d bs).Residues :=
  (h.foldl fun _ _ h1 => h1.meshRow).setExtent

theorem keeps_clsQpush : clsQpush.KeepsResidues := by
  intro s x h
  unfold clsQpush
  extract_lets -underBinder
  dsimp -zeta only
  extract_lets -underBinder
  split
  · rename_i heq
    exact h.poisonCheck heq
  · extract_lets -underBinder s2 s3 s4
    have h2 : s2.Residues := h.fetchRows
    have h3 : s3.Residues := h2.qPush
    have h4 : s4.Residues := h3.useClass.excess
    exact h4.doneAtIssue

theorem keeps_clsQpop : clsQpop.KeepsResidues := by
  intro s x h
  unfold clsQpop
  extract_lets -underBinder
  dsimp -zeta only
  extract_lets -underBinder
  split
  · exact h.eccRead.raise
  · extract_lets -underBinder s1 s2 s3
    have h1 : s1.Residues := h.storeExtent
    have h2 : s2.Residues := h1.dest
    have h3 : s3.Residues := h2.qDrop
    exact h3.doneAtIssue

/-! Completion and holds (Machine/Complete). -/

theorem keeps_clsOf {op w1 c} (hc : clsOf op w1 = some c) : c.KeepsResidues := by
  unfold clsOf at hc
  split at hc
  all_goals cases hc
  · exact keeps_clsNop
  · exact keeps_clsAdvance
  · exact keeps_clsQpush
  · exact keeps_clsQpop
  · exact keeps_clsEnd
  · exact keeps_clsProduct
  · exact keeps_clsDrain
  · exact keeps_clsEvict
  · exact keeps_clsLedger
  · exact keeps_clsRelease
  · exact keeps_clsVec
  · exact keeps_clsMortar
  · exact keeps_clsMortar
  · exact keeps_clsMortar
  · exact keeps_clsMortar
  · exact keeps_clsDrv
  · exact keeps_clsDrv
  · exact keeps_clsSwap
  · exact keeps_clsMark
  · exact keeps_clsSend
  · exact keeps_clsReshard
  · exact keeps_clsLosschk
  · exact keeps_clsUpdate
  · exact keeps_clsCommit

theorem endProduct {p x seq} (h : s.Residues) : (s.endProduct p x seq).Residues := by
  unfold State.endProduct
  extract_lets -underBinder _ s5
  have h5 : s5.Residues := .ite (h.foldl fun _ _ h1 => h1.foldl fun _ _ h2 => h2.foldl fun _ _ h3 => h3.foldl fun _ _ h4 => .ite h4.setBank h4) h
  exact h5.foldl fun _ _ h6 => h6.updCar

theorem completeEffect {p seq x m} (h : s.Residues) : (s.completeEffect p seq x m).Residues := by
  unfold State.completeEffect
  split
  · exact h.mortarFinish
  · split
    · extract_lets -underBinder s3
      have h3 : s3.Residues := by
        unfold s3
        refine h.foldl fun _ _ h1 => ?_
        extract_lets -underBinder s2
        have h2 : s2.Residues := h1.excess
        exact .ite h2.excess h2
      exact h3.freeTaken
    · exact .ite h.endProduct h

theorem finishCmd {p m} (h : s.Residues) : (s.finishCmd p m).Residues := by
  unfold State.finishCmd
  split
  · exact h
  · extract_lets -underBinder _ s1 s2
    have h1 : s1.Residues := h.completeEffect
    have h2 : s2.Residues := h1.updExec
    exact .ite h1 h2.signal

theorem completeCmd {p m} (h : s.Residues) : (s.completeCmd p m).Residues :=
  .ite h.finishCmd ((h.foldl fun _ _ h1 => h1.updCar).hold)

theorem endRemnants {p} (h : s.Residues) : (s.endRemnants p).Residues := by
  unfold State.endRemnants
  split
  · exact h
  · extract_lets -underBinder
    refine h.foldl fun _ _ h1 => ?_
    extract_lets -underBinder s3
    have h3 : s3.Residues := by
      unfold s3
      refine h1.foldl fun _ _ h2 => ?_
      split
      · exact h2.runRemnants.updCar
      · exact h2
    exact .ite h3 h3.finishCmd

theorem startPending {p} (h : s.Residues) : (s.startPending p).Residues := by
  unfold State.startPending
  split
  · exact h
  · extract_lets -underBinder _ _ _ s1
    have h1 : s1.Residues := h.setExec
    exact .ite h (h1.foldl fun _ _ h2 => .ite h2.trySwap (.ite h2.drvDone (.ite h2.startZero (.ite h2.beginSend h2))))

theorem completeDue {p} (h : s.Residues) : (s.completeDue p).Residues := by
  unfold State.completeDue
  exact startPending (togetherMap h.both fun _ _ h => h.completeCmd).1

theorem completePrev {p} (h : s.Residues) : (s.completePrev p).Residues := by
  unfold State.completePrev
  split
  · exact h.forSeq fun _ h1 => h1.completeDue
  · exact h

theorem commandComplete {p off} (h : s.Residues) : (s.commandComplete p off).Residues := by
  unfold State.commandComplete
  split
  · exact h
  · split
    · exact h.completeCmd.startPending
    · split
      · refine h.forSeq fun _ h1 => ?_
        split
        · exact .ite h1 h1.completeCmd
        · exact h1
      · exact h

theorem arriveFor {p op h w1} (hs : s.Residues) : (s.arriveFor p op h w1).Residues := by
  unfold State.arriveFor
  split
  · exact hs
  · extract_lets -underBinder _ _ _ _ s1
    have h1 : s1.Residues := .ite hs hs.setFlag.setExec
    exact .ite h1.setQueue h1

theorem resumeWaiting {p op h w1} (hs : s.Residues) : (s.resumeWaiting p op h w1).Residues := by
  unfold State.resumeWaiting
  split
  · rename_i heq
    exact hs.clsResume (keeps_clsOf heq)
  · exact hs

theorem elasticWait {p} (h : s.Residues) : (s.elasticWait p).Residues := by
  unfold State.elasticWait
  split
  · exact h
  · split
    · exact h
    · extract_lets -underBinder s1
      have h1 : s1.Residues := h.arriveFor
      exact .ite h1.resumeWaiting h1

theorem mergeDue {p g b u} (h : s.Residues) : (s.mergeDue p g b u).Residues := by
  unfold State.mergeDue
  refine h.foldl fun _ _ h1 => ?_
  split
  · extract_lets -underBinder
    split
    · exact .ite (h1.forSeq fun _ h2 => h2.completeMerge) h1
    · exact h1
  · exact h1

theorem dueMerges {p c} (h : s.Residues) : (s.dueMerges p c).Residues :=
  h.foldl fun _ _ h1 => .ite h1 (h1.foldl fun _ _ h2 => h2.mergeDue.mergeDue)
theorem mergeComplete {p c b grp} (h : s.Residues) : (s.mergeComplete p c b grp).Residues :=
  .ite h (h.foldl fun _ _ h1 => .ite h1 h1.mergeDue)

theorem runDown {p n} (h : s.Residues) : (s.runDown p n).Residues := by
  unfold State.runDown
  extract_lets -underBinder _ s1 s3
  have h1 : s1.Residues := h.count
  have h3 : s3.Residues := h1.foldl fun _ _ h2 => h2.count
  exact h3.updPart

theorem holdEnd {p src k} (h : s.Residues) : (s.holdEnd p src k).Residues := by
  unfold State.holdEnd
  split
  · exact h
  · extract_lets -underBinder
    split
    · exact h
    · split
      · exact h.runDown.realign
      · split
        · split
          · exact h
          · extract_lets -underBinder s1
            have h1 : s1.Residues := h.unhold.realign
            split
            · exact .ite h1 h1.resumeWaiting
            · exact h1
        · exact h.elasticWait.realign
        · extract_lets -underBinder s3 s5
          have h3 : s3.Residues := h.foldl fun _ _ h2 => h2.rerunCar
          have h5 : s5.Residues := by
            unfold s5
            split
            · exact h3.forSeq fun _ h4 => h4.endRemnants
            · exact h3
          exact h5.endRemnants.unhold.realign
        · exact h

/-! The scan (Machine/Scan). -/

theorem drvRun {p c m} (h : s.Residues) : (s.drvRun p c m).Residues :=
  h.drvStep.updExec.drvDone

theorem drvAhead {p c e ks} (h : s.Residues) : (s.drvAhead p c e ks).Residues := by
  unfold State.drvAhead
  extract_lets -underBinder
  split
  · exact h
  · exact h.drvStep.updCar

theorem drvAct {p c e} (h : s.Residues) : (s.drvAct p c e).Residues := by
  unfold State.drvAct
  extract_lets -underBinder
  split
  extract_lets -underBinder s1
  have h1 : s1.Residues := h.setFld.setFld
  split
  · exact h1.drvRun
  · exact h1.drvAhead

theorem drvIssue {c} (h : s.Residues) : (s.drvIssue c).Residues := by
  unfold State.drvIssue
  split
  · exact h
  · split
    · exact h
    · split
      · exact h
      · split
        · exact h.forSeq fun _ h1 => h1.drvRun
        · exact h.drvAct

/-! The scout port (Machine/Scout). -/

theorem tap {f} (h : s.Residues) (hf : ∀ s, s.Residues → (f s).Residues) : (s.tap f).Residues := .ite (hf _ h) h
theorem tdr {op arg data status} (h : s.Residues) : (s.tdr op arg data status).Residues :=
  h.emit.updScout
theorem wakeUp {p} (h : s.Residues) : (s.wakeUp p).Residues :=
  .ite h.setPartState h

theorem scoutOp {op arg right f} (h : s.Residues) (hf : ∀ p s, s.Residues → (f p s).1.Residues) : (s.scoutOp op arg right f).Residues := by
  unfold State.scoutOp
  split
  · exact h
  · split
    · exact h.tdr
    · exact .ite h.tdr (State.Residues.tdr (hf _ _ h.wakeUp))

theorem unlock {w0 w1 now} (h : s.Residues) : (s.unlock w0 w1 now).Residues := by
  unfold State.unlock
  split
  · exact h
  · extract_lets -underBinder _ _ s1
    have h1 : s1.Residues := h.setFld.setFld.updScout
    exact .ite h1.wakeUp.tdr h.tdr

theorem haltNow {p} (h : s.Residues) : (s.haltNow p).Residues :=
  h.hold.setFld.updPart

/-! A pace (Machine/Pace). -/

theorem breakAt {p place hits} (h : s.Residues) (ht : s.breakAt p place hits = some t) : t.Residues := by
  unfold State.breakAt at ht
  extract_lets at ht
  rw [Option.ite_none_left_eq_some, Option.some_inj] at ht
  obtain ⟨-, rfl⟩ := ht
  exact h.haltNow.count.updPart

theorem breakPace {p} (h : s.Residues) (ht : s.breakPace p = some t) : t.Residues := h.breakAt ht
theorem breakCmd {x} (h : s.Residues) (ht : s.breakCmd x = some t) : t.Residues := h.breakAt ht

theorem issueOne {p} (h : s.Residues) (ht : s.issueOne p = some t) : t.Residues := by
  unfold State.issueOne at ht
  split at ht
  · cases ht
  · split at ht
    · cases ht
    · split at ht
      · cases ht
      · dsimp only at ht
        rcases Option.or_eq_some_iff.mp (Option.orElse_eq_or ▸ ht) with ht | ⟨-, ht⟩
        · exact h.breakCmd ht
        · rcases Option.or_eq_some_iff.mp (Option.orElse_eq_or ▸ ht) with ht | ⟨-, ht⟩
          · exact h.poisonCheck ht
          · split at ht
            · cases ht
              exact h.raise
            · rename_i heq
              cases ht
              exact .ite h.offerGather (h.clsOffer (keeps_clsOf heq))

theorem issueAll {p} : ∀ {n} {x}, BothResidues x → BothResidues (State.issueAll p n x)
  | 0, _, h => h
  | n + 1, x, h => by
    unfold State.issueAll
    split
    · exact h
    · rename_i s1 heq
      have h1 : s1.Residues := h.2.issueOne heq
      have h2 : BothResidues (State.also p x (fun _ => s1)) := also h fun _ _ => h1
      split
      · dsimp only
        split
        · exact h2
        · exact issueAll ⟨h2.1, h.2.updExec⟩
      · exact issueAll h2

theorem paceEvent {p ev} (h : s.Residues) : (s.paceEvent p ev).Residues := by
  unfold State.paceEvent
  extract_lets own g lost
  have hl : ∀ c, (lost s c).Residues := fun c => h.eccSram
  split
  · exact h
  · exact h
  · exact h
  · split
    · split
      · exact (hl _).midPass
      · exact .ite (hl _).failCar h
    · exact h
  · exact .ite (hl _).repairRow.hold.raise h
  · exact .ite (hl _).raise h
  · exact .ite (hl _).raise h
  · split
    · exact h
    · exact .ite h.count.poisonGroup h
  · exact .ite h.hold h
  · exact .ite h.eccSram h
  · exact .ite (h.congr rfl rfl) h
  · exact h.eccSram
  · exact .ite h.updExec h

theorem mortarTicks {s0 : State} {p} : ∀ f ∈ s0.mortarTicks p, ∀ s, s.Residues → (f s).Residues := by
  intro f hf s h
  have key : ∀ o : Option Exec, f ∈ (o.map fun e => (e.cmds.filter (fun m => isMortar m.op)).filterMap (fun m => m.start.map (fun q s =>
      s.forSeq p e.seq (fun s => if s.stopped p then s else s.mortarTick (m.ctx p e.hdr) (MDescs.of m.descs) q)))).getD [] →
      (f s).Residues := by
    intro o ho
    cases o with
    | none => simp at ho
    | some e =>
      obtain ⟨m, -, hm⟩ := List.mem_filterMap.mp ho
      obtain ⟨q, -, rfl⟩ := Option.map_eq_some_iff.mp hm
      exact h.forSeq fun _ h => .ite h h.mortarTick
  rcases List.mem_append.mp hf with hf | hf
  · exact key _ hf
  · exact key _ hf

theorem runUnits {p ev x} (h : BothResidues x) : (State.runUnits p ev x).Residues := by
  unfold State.runUnits
  extract_lets x1 x2 x3
  have h1 : BothResidues x1 := also h fun _ h => h.upsetCopies
  have h2 : BothResidues x2 := togetherMap h1 fun _ _ h => h.paceEvent
  have h3 : BothResidues x3 := together h2 mortarTicks
  split
  rename_i s1 _ heq
  have h4 : s1.Residues := State.Residues.fst (togetherMap h3 fun c s h => h.caravanPace.dueMerges.dueDrains).1 heq
  exact .ite h4 h4.setReg.updPart

theorem settleWith {p x} (h : BothResidues x) : BothResidues (State.settleWith p x) :=
  also (togetherMap (also h fun _ h => h.matureSignals.completePrev) fun _ _ h => h.completeCmd) fun _ h => h.startPending
theorem settle {p} (h : s.Residues) : (s.settle p).Residues :=
  (settleWith h.both).1

theorem runPace {p ev} (h : s.Residues) : (s.runPace p ev).Residues := by
  unfold State.runPace
  split
  · rename_i heq
    exact h.breakPace heq
  · extract_lets x1 n x2
    have h1 : BothResidues x1 := settleWith ⟨h, h⟩
    have h2 : BothResidues x2 := issueAll h1
    have held : ∀ {x}, BothResidues x → (State.also p x (fun s => s.hold p 1 none)).1.Residues := fun h => (also h fun _ h => h.hold).1
    exact .ite h1.1 (.ite (held h1) (.ite h2.1 (.ite (held h2) (runUnits h2))))

theorem stepPace {p ev} (h : s.Residues) : (s.stepPace p ev).Residues := by
  unfold State.stepPace
  split
  · extract_lets -underBinder s1
    have h1 : s1.Residues := h.unhold.runPace
    exact .ite h1 h1.updPart
  · exact h.runPace

theorem capTick {p} (h : s.Residues) : (s.capTick p).Residues :=
  .ite h (.ite h.updPart h.updPart.hold.count)

theorem paceExecute {p ev} (h : s.Residues) : (s.paceExecute p ev).Residues := by
  unfold State.paceExecute
  extract_lets s1 x s2 s3
  have h1 : s1.Residues := h.capTick
  have h2 : s2.Residues := .ite (togetherMap h1.both fun _ _ h => h.paceEvent).1 h1
  exact .ite h1 (.ite h2.settle.runDown.realignFree (.ite h1 h1.stepPace))

/-! The arbiters (Machine/Toll). -/

theorem tollGrant {t req waitNs} (h : s.Residues) : (s.tollGrant t req waitNs).Residues := by
  unfold State.tollGrant
  split
  · exact h.setToll
  · extract_lets -underBinder _ s1
    have h1 : s1.Residues := h.setToll.count
    exact .ite h1 h1.count.keepMax

theorem tollStarve {t r} (h : s.Residues) : (s.tollStarve t r).Residues := by
  unfold State.tollStarve
  extract_lets -underBinder _ s1
  have h1 : s1.Residues := h.setFld.emit
  split
  · exact h
  · split
    · exact h1.event
    · exact h1

theorem straggle {h p c} (hs : s.Residues) : (s.straggle h p c).Residues :=
  .ite hs hs.count.setFld.emit.event

theorem routerLost {h r} (hs : s.Residues) : (s.routerLost h r).Residues := by
  unfold State.routerLost
  extract_lets -underBinder s1
  have h1 : s1.Residues := hs.fence
  exact .ite h1.fenceHalf h1

end State.Residues

/-- The state that a step answers with, if it answers with one, is in canonical form. -/
def NextResidues (o : Host.Outcome State Fault Refusal) : Prop := ∀ t, o = .next t → t.Residues

namespace State.Residues
variable {s t : State}

theorem next (h : s.Residues) : NextResidues (.next s) := fun _ ht => Host.Outcome.next.inj ht ▸ h

/-- Which commands wait is in no map. -/
theorem withPending {q : List Instr} (h : s.Residues) : State.Residues { s with pending := q } := h

theorem answer {f : State → State} (h : (f s).Residues) : NextResidues (answer s f) := next h.withPending

theorem fault {r : Fault} : NextResidues (.fault r) := by
  intro t ht
  cases ht

theorem nextIte {c : Prop} [Decidable c] {o o' : Host.Outcome State Fault Refusal} (h : NextResidues o) (h' : NextResidues o') :
    NextResidues (if c then o else o') := by
  split
  · exact h
  · exact h'

theorem bar2 {f acc} (h : s.Residues) : NextResidues (s.bar2 f acc) := by
  unfold State.bar2
  split
  · exact next h.emit
  · extract_lets -underBinder
    split
    extract_lets -underBinder places
    split
    · exact next h.barRefuse
    · split
      · exact fault
      · extract_lets -underBinder s1
        have h1 : s1.Residues := h.foldl fun _ _ h => h.meshTo
        split
        · exact next h1.eccWords.emit
        · exact next (h1.foldl fun _ _ h => h.setByte)

theorem execBar2Access {f acc} (h : s.Residues) : NextResidues (execBar2Access f acc s) := by
  unfold Machine.execBar2Access
  split
  · split
    · rename_i t ht
      exact next (withPending (h.bar2 _ ht))
    · exact h.bar2
  · exact next h

theorem scoutMem {va wr f} (h : s.Residues) (hf : ∀ s, s.Residues → (f s).Residues) : NextResidues (s.scoutMem va wr f) := by
  unfold State.scoutMem
  split
  · exact answer (hf s h)
  · split
    · exact nextIte fault (answer (hf s h))
    · exact answer (hf s h)

/-! The commands. -/

theorem execNop {p hd w1} (h : s.Residues) : NextResidues (Machine.execNop p hd w1 s) :=
  answer (h.clsOffer keeps_clsNop)
theorem execAdvance {p hd w1} (h : s.Residues) : NextResidues (Machine.execAdvance p hd w1 s) :=
  answer (h.clsOffer keeps_clsAdvance)
theorem execQpush {p hd w1} (h : s.Residues) : NextResidues (Machine.execQpush p hd w1 s) :=
  answer (h.clsOffer keeps_clsQpush)
theorem execQpop {p hd w1} (h : s.Residues) : NextResidues (Machine.execQpop p hd w1 s) :=
  answer (h.clsOffer keeps_clsQpop)
theorem execEndCmd {p hd w1} (h : s.Residues) : NextResidues (Machine.execEndCmd p hd w1 s) :=
  answer (h.clsOffer keeps_clsEnd)
theorem execProduct {p hd w1} (h : s.Residues) : NextResidues (Machine.execProduct p hd w1 s) :=
  answer (h.clsOffer keeps_clsProduct)
theorem execDrain {p hd w1} (h : s.Residues) : NextResidues (Machine.execDrain p hd w1 s) :=
  answer (h.clsOffer keeps_clsDrain)
theorem execEvict {p hd w1} (h : s.Residues) : NextResidues (Machine.execEvict p hd w1 s) :=
  answer (h.clsOffer keeps_clsEvict)
theorem execLedgerAdd {p hd w1} (h : s.Residues) : NextResidues (Machine.execLedgerAdd p hd w1 s) :=
  answer (h.clsOffer keeps_clsLedger)
theorem execRelease {p hd w1} (h : s.Residues) : NextResidues (Machine.execRelease p hd w1 s) :=
  answer (h.clsOffer keeps_clsRelease)
theorem execVec {p hd w1} (h : s.Residues) : NextResidues (Machine.execVec p hd w1 s) :=
  answer (h.clsOffer keeps_clsVec)
theorem execReduce {p hd w1} (h : s.Residues) : NextResidues (Machine.execReduce p hd w1 s) :=
  answer (h.clsOffer keeps_clsMortar)
theorem execSpice {p hd w1} (h : s.Residues) : NextResidues (Machine.execSpice p hd w1 s) :=
  answer (h.clsOffer keeps_clsMortar)
theorem execSieve {p hd w1} (h : s.Residues) : NextResidues (Machine.execSieve p hd w1 s) :=
  answer (h.clsOffer keeps_clsMortar)
theorem execDropout {p hd w1} (h : s.Residues) : NextResidues (Machine.execDropout p hd w1 s) :=
  answer (h.clsOffer keeps_clsMortar)
theorem execMove {p hd w1} (h : s.Residues) : NextResidues (Machine.execMove p hd w1 s) :=
  answer (h.clsOffer keeps_clsDrv)
theorem execGather {p hd w1} (h : s.Residues) : NextResidues (Machine.execGather p hd w1 s) :=
  answer h.offerGather
theorem execSwap {p hd w1} (h : s.Residues) : NextResidues (Machine.execSwap p hd w1 s) :=
  answer (h.clsOffer keeps_clsSwap)
theorem execSwapTakeEffect {p c} (h : s.Residues) : NextResidues (Machine.execSwapTakeEffect p c s) :=
  answer (.ite h.swapNow h)
theorem execMark {p hd w1} (h : s.Residues) : NextResidues (Machine.execMark p hd w1 s) :=
  answer (h.clsOffer keeps_clsMark)
theorem execSend {p hd w1} (h : s.Residues) : NextResidues (Machine.execSend p hd w1 s) :=
  answer (h.clsOffer keeps_clsSend)
theorem execReshard {p hd w1} (h : s.Residues) : NextResidues (Machine.execReshard p hd w1 s) :=
  answer (h.clsOffer keeps_clsReshard)
theorem execReshardEpochTakeEffect {p} (h : s.Residues) : NextResidues (Machine.execReshardEpochTakeEffect p s) := by
  refine answer ?_
  split
  · exact .ite h.reshardNow h
  · exact h
theorem execReshardTimeout {p} (h : s.Residues) : NextResidues (Machine.execReshardTimeout p s) := by
  refine answer ?_
  split
  · exact .ite h h.raise
  · exact h
theorem execLosschk {p hd w1} (h : s.Residues) : NextResidues (Machine.execLosschk p hd w1 s) :=
  answer (h.clsOffer keeps_clsLosschk)
theorem execUpdate {p hd w1} (h : s.Residues) : NextResidues (Machine.execUpdate p hd w1 s) :=
  answer (h.clsOffer keeps_clsUpdate)
theorem execUpdateChunkApply {p bucket chunk} (h : s.Residues) : NextResidues (Machine.execUpdateChunkApply p bucket chunk s) :=
  answer h.applyChunk
theorem execCommit {p hd w1} (h : s.Residues) : NextResidues (Machine.execCommit p hd w1 s) :=
  answer (h.clsOffer keeps_clsCommit)
theorem execCommandComplete {p off} (h : s.Residues) : NextResidues (Machine.execCommandComplete p off s) :=
  answer h.commandComplete
theorem execElasticWaitSatisfied {p} (h : s.Residues) : NextResidues (Machine.execElasticWaitSatisfied p s) :=
  answer h.elasticWait.realignFree
theorem execPaceExecute {p ev} (h : s.Residues) : NextResidues (Machine.execPaceExecute p ev s) :=
  answer h.paceExecute
theorem execMergeComplete {p c bank grp} (h : s.Residues) : NextResidues (Machine.execMergeComplete p c bank grp s) :=
  answer h.mergeComplete
theorem execHoldEnd {p src realign} (h : s.Residues) : NextResidues (Machine.execHoldEnd p src realign s) :=
  answer h.holdEnd
theorem execDrvIssue {c} (h : s.Residues) : NextResidues (Machine.execDrvIssue c s) :=
  answer h.drvIssue
theorem execDrvTransferComplete {c id arr} (h : s.Residues) : NextResidues (Machine.execDrvTransferComplete c id arr s) :=
  answer h.land
theorem execTransferTimeout {c id dstEnd} (h : s.Residues) : NextResidues (Machine.execTransferTimeout c id dstEnd s) :=
  answer h.xferTimeout
theorem execTollGrant {t pendingReq waitNs} (h : s.Residues) : NextResidues (Machine.execTollGrant t pendingReq waitNs s) :=
  answer h.tollGrant
theorem execTollStarve {t r} (h : s.Residues) : NextResidues (Machine.execTollStarve t r s) :=
  answer h.tollStarve
theorem execStraggler {hd p c} (h : s.Residues) : NextResidues (Machine.execStraggler hd p c s) :=
  answer h.straggle
theorem execStepWatchdogExpire {p} (h : s.Residues) : NextResidues (Machine.execStepWatchdogExpire p s) :=
  answer h.watchdog
theorem execOrderAccept {p f ring entry} (h : s.Residues) : NextResidues (Machine.execOrderAccept p f ring entry s) :=
  answer h.orderAccept
theorem execOrderStart {p} (h : s.Residues) : NextResidues (Machine.execOrderStart p s) :=
  answer h.orderStart
theorem execOrderComplete {p sinceS} (h : s.Residues) : NextResidues (Machine.execOrderComplete p sinceS s) :=
  answer h.orderComplete
theorem execConsignReadDone {p} (h : s.Residues) : NextResidues (Machine.execConsignReadDone p s) :=
  answer h.consignRead
theorem execConsignCopyTimeout {p copy} (h : s.Residues) : NextResidues (Machine.execConsignCopyTimeout p copy s) :=
  answer h.copyLost
theorem execRiskRise {ceRate lrRate drRate marginK} (h : s.Residues) : NextResidues (Machine.execRiskRise ceRate lrRate drRate marginK s) :=
  answer h.risk
theorem execCompletionFlush {p} (h : s.Residues) : NextResidues (Machine.execCompletionFlush p s) :=
  answer h.completionFlush
theorem execPreemptTakeEffect {p} (h : s.Residues) : NextResidues (Machine.execPreemptTakeEffect p s) :=
  answer h.preemptNow
theorem execPreemptResume {p} (h : s.Residues) : NextResidues (Machine.execPreemptResume p s) :=
  answer h.preemptResume
theorem execReexecute {p} (h : s.Residues) : NextResidues (Machine.execReexecute p s) :=
  answer h.reexecute
theorem execJournalRebuildDone {hd} (h : s.Residues) : NextResidues (Machine.execJournalRebuildDone hd s) :=
  answer h.rebuildDone
theorem execHbmSoftPpr {k row} (h : s.Residues) : NextResidues (Machine.execHbmSoftPpr k row s) :=
  answer h.softPpr
theorem execHbmScrub {k one two poisoned} (h : s.Residues) : NextResidues (Machine.execHbmScrub k one two poisoned s) :=
  answer h.scrub
theorem execRouterPollTimeout {hd r} (h : s.Residues) : NextResidues (Machine.execRouterPollTimeout hd r s) :=
  answer h.routerLost
theorem execSealHeartbeatLoss {hd} (h : s.Residues) : NextResidues (Machine.execSealHeartbeatLoss hd s) :=
  answer h.takeOver
theorem execLastResort (h : s.Residues) : NextResidues (Machine.execLastResort s) :=
  answer (.ite h.safeHoldNow h)
theorem execFactorRestart (h : s.Residues) : NextResidues (Machine.execFactorRestart s) :=
  answer (.ite h.updDev h)
theorem execSealReqMapWindow {f} (h : s.Residues) : NextResidues (Machine.execSealReqMapWindow f s) :=
  answer h.ask
theorem execSealReqUnmapWindow {f} (h : s.Residues) : NextResidues (Machine.execSealReqUnmapWindow f s) :=
  answer h.ask
theorem execSealReqWriteRwl {f} (h : s.Residues) : NextResidues (Machine.execSealReqWriteRwl f s) :=
  answer h.ask
theorem execSealReqPrst {f} (h : s.Residues) : NextResidues (Machine.execSealReqPrst f s) :=
  answer h.ask
theorem execSealReqDebugToken {f now nonce} (h : s.Residues) : NextResidues (Machine.execSealReqDebugToken f now nonce s) :=
  answer h.ask
theorem execSealReqBankPair {f} (h : s.Residues) : NextResidues (Machine.execSealReqBankPair f s) :=
  answer h.ask
theorem execSealReqPreempt {f} (h : s.Residues) : NextResidues (Machine.execSealReqPreempt f s) :=
  answer h.ask
theorem execSealReqResume {f} (h : s.Residues) : NextResidues (Machine.execSealReqResume f s) :=
  answer h.ask
theorem execRingDoorbell {f ring tail} (h : s.Residues) : NextResidues (Machine.execRingDoorbell f ring tail s) :=
  answer (h.fromHost fun _ _ h1 => h1.doorbell)
theorem execRingBaseWrite {f ring v} (h : s.Residues) : NextResidues (Machine.execRingBaseWrite f ring v s) :=
  answer (h.fromHost fun _ _ h1 => h1.ringBase)
theorem execCplHeadWrite {f v} (h : s.Residues) : NextResidues (Machine.execCplHeadWrite f v s) :=
  answer (h.fromHost fun _ _ h1 => h1.cplHead)
theorem execHqCancel {f seq} (h : s.Residues) : NextResidues (Machine.execHqCancel f seq s) :=
  answer (h.fromHost fun _ _ h1 => h1.cancel)
theorem execMboxRelease {f m} (h : s.Residues) : NextResidues (Machine.execMboxRelease f m s) :=
  answer (h.fromHost fun _ _ h1 => h1.mboxRelease)
theorem execSealManResume {f} (h : s.Residues) : NextResidues (Machine.execSealManResume f s) :=
  answer (h.fromHost fun _ _ h1 => h1.manResume)
theorem execSealManWithdraw {f} (h : s.Residues) : NextResidues (Machine.execSealManWithdraw f s) :=
  answer (h.fromHost fun _ _ h1 => h1.withdraw)
theorem execCsgNow {f} (h : s.Residues) : NextResidues (Machine.execCsgNow f s) :=
  answer (h.fromHost fun _ _ h1 => h1.updCsg)
theorem execCsgRestore {f copy} (h : s.Residues) : NextResidues (Machine.execCsgRestore f copy s) :=
  answer (h.fromHost fun _ _ h1 => h1.csgRestore)
theorem execP3Req (h : s.Residues) : NextResidues (Machine.execP3Req s) :=
  answer h.p3Ask
theorem execP3Exit (h : s.Residues) : NextResidues (Machine.execP3Exit s) :=
  answer h.leaveP3
theorem execP2IdleEntry {p} (h : s.Residues) : NextResidues (Machine.execP2IdleEntry p s) :=
  answer h.p2Entry
theorem execRegisterWrite {w off v} (h : s.Residues) : NextResidues (Machine.execRegisterWrite w off v s) :=
  answer h.regWrite
theorem execHostSpdmDoe {f msg} (h : s.Residues) : NextResidues (Machine.execHostSpdmDoe f msg s) := by
  refine answer ?_
  split
  · exact h
  · split
    · exact h.emit
    · exact .ite h.emit h
theorem execStartUp {c} (h : s.Residues) : NextResidues (Machine.execStartUp c s) :=
  answer (.ite h wiped.startUp)
theorem execPwrgdFall : NextResidues (Machine.execPwrgdFall s) :=
  answer powerOff.updDev
theorem execDrst {heldUs c} (h : s.Residues) : NextResidues (Machine.execDrst heldUs c s) :=
  answer h.drst
theorem execCrst {c stn} (h : s.Residues) : NextResidues (Machine.execCrst c stn s) :=
  answer h.crst
theorem execLrstRequest {port sinceS} (h : s.Residues) : NextResidues (Machine.execLrstRequest port sinceS s) :=
  answer h.lrstReq
theorem execPerstAssert {hp} (h : s.Residues) : NextResidues (Machine.execPerstAssert hp s) :=
  answer h.perstAssert
theorem execPerstRelease {hp cxl} (h : s.Residues) : NextResidues (Machine.execPerstRelease hp cxl s) :=
  answer h.perstRelease
theorem execFlr {f} (h : s.Residues) : NextResidues (Machine.execFlr f s) :=
  answer (.ite h.flr h)
theorem execLugUndervoltage {lug milliV} (h : s.Residues) : NextResidues (Machine.execLugUndervoltage lug milliV s) :=
  answer h.lugDown
theorem execLugRecover {lug milliV} (h : s.Residues) : NextResidues (Machine.execLugRecover lug milliV s) :=
  answer h.lugUp
theorem execThermalMonitor {m tempC} (h : s.Residues) : NextResidues (Machine.execThermalMonitor m tempC s) :=
  answer h.thermal
theorem execDroopStretch {hd} (h : s.Residues) : NextResidues (Machine.execDroopStretch hd s) :=
  answer h.count
theorem execCapFastLoop {watts} (h : s.Residues) : NextResidues (Machine.execCapFastLoop watts s) :=
  answer h.fastLoopLook
theorem execCapHoldLoop {watts est} (h : s.Residues) : NextResidues (Machine.execCapHoldLoop watts est s) :=
  answer h.capLoop
theorem execReferenceLost {r} (h : s.Residues) : NextResidues (Machine.execReferenceLost r s) :=
  answer h.referenceLost
theorem execReferenceReturn {r} (h : s.Residues) : NextResidues (Machine.execReferenceReturn r s) :=
  answer h.referenceReturn
theorem execLinkSignalDetect {port lanes} (h : s.Residues) : NextResidues (Machine.execLinkSignalDetect port lanes s) :=
  answer (.ite h.updPort.setFld h)
theorem execLinkFecLock {port lanes} (h : s.Residues) : NextResidues (Machine.execLinkFecLock port lanes s) :=
  answer (.ite h.setFld.setFld.emit h)
theorem execLinkInitExchange {port coord peerPort lanes reversed} (h : s.Residues) :
    NextResidues (Machine.execLinkInitExchange port coord peerPort lanes reversed s) :=
  answer h.initExchange
theorem execLinkSpdmComplete {port} (h : s.Residues) : NextResidues (Machine.execLinkSpdmComplete port s) := by
  refine answer ?_
  split
  · extract_lets -underBinder s1
    have h1 : s1.Residues := h.setFld
    exact .ite h1.setFld.updPort h1
  · exact h
theorem execLinkSpdmTimeout {port} (h : s.Residues) : NextResidues (Machine.execLinkSpdmTimeout port s) :=
  answer (.ite h.isolate h)
theorem execLinkAbsentReport {port} (h : s.Residues) : NextResidues (Machine.execLinkAbsentReport port s) :=
  answer (.ite h.updPort.emit h)
theorem execFlitReceive {port flit} (h : s.Residues) : NextResidues (Machine.execFlitReceive port flit s) :=
  answer h.received
theorem execLinkRetryTimer {port} (h : s.Residues) : NextResidues (Machine.execLinkRetryTimer port s) :=
  answer (.ite h.resend h)
theorem execKeyUpdate {port} (h : s.Residues) : NextResidues (Machine.execKeyUpdate port s) :=
  answer (.ite h.updPort h)
theorem execPacketForward {port pkt} (h : s.Residues) : NextResidues (Machine.execPacketForward port pkt s) :=
  answer h.forward
theorem execPacketDeliver {port pkt} (h : s.Residues) : NextResidues (Machine.execPacketDeliver port pkt s) :=
  answer h.deliverPacket
theorem execFaultBeaconReceive {port hops} (h : s.Residues) : NextResidues (Machine.execFaultBeaconReceive port hops s) :=
  answer h.beaconFrom
theorem execLinkSendEntry {p} (h : s.Residues) : NextResidues (Machine.execLinkSendEntry p s) :=
  answer h.sendEntry
theorem execDetourInstall {tbl} (h : s.Residues) : NextResidues (Machine.execDetourInstall tbl s) :=
  answer h.installDetours
theorem execOwnerOpenChunk {p} (h : s.Residues) : NextResidues (Machine.execOwnerOpenChunk p s) :=
  answer h.openChunk
theorem execOpenPkt {port hdr payload} (h : s.Residues) : NextResidues (Machine.execOpenPkt port hdr payload s) :=
  answer h.wghPacket
theorem execContrib {port hdr payload} (h : s.Residues) : NextResidues (Machine.execContrib port hdr payload s) :=
  answer h.wghPacket
theorem execResult {port hdr payload} (h : s.Residues) : NextResidues (Machine.execResult port hdr payload s) :=
  answer h.wghPacket
theorem execWideContrib {port hdr payload} (h : s.Residues) : NextResidues (Machine.execWideContrib port hdr payload s) :=
  answer h.wghPacket
theorem execWideResult {port hdr payload} (h : s.Residues) : NextResidues (Machine.execWideResult port hdr payload s) :=
  answer h.wghPacket
theorem execVote {port hdr payload} (h : s.Residues) : NextResidues (Machine.execVote port hdr payload s) :=
  answer h.wghPacket
theorem execNak {port hdr payload} (h : s.Residues) : NextResidues (Machine.execNak port hdr payload s) :=
  answer h.wghPacket
theorem execFail {port hdr payload} (h : s.Residues) : NextResidues (Machine.execFail port hdr payload s) :=
  answer h.wghPacket
theorem execOwnerDeadlineExpire {p bucket chunk} (h : s.Residues) : NextResidues (Machine.execOwnerDeadlineExpire p bucket chunk s) :=
  answer h.ownerMiss
theorem execMemberDeadlineExpire {p bucket chunk} (h : s.Residues) : NextResidues (Machine.execMemberDeadlineExpire p bucket chunk s) :=
  answer h.memberMiss
theorem execVoteDeadlineExpire {p} (h : s.Residues) : NextResidues (Machine.execVoteDeadlineExpire p s) :=
  answer h.voteMiss
theorem execConsignmentPacket {port pkt} (h : s.Residues) : NextResidues (Machine.execConsignmentPacket port pkt s) :=
  answer h.csgPacket
theorem execPartnerAck {p} (h : s.Residues) : NextResidues (Machine.execPartnerAck p s) := by
  refine answer ?_
  split
  · exact .ite h.accept h
  · exact h
theorem execI3cWrstRequest (h : s.Residues) : NextResidues (Machine.execI3cWrstRequest s) :=
  answer (.ite h.wrst h)
theorem execI3cImageWrite {slot img} (h : s.Residues) : NextResidues (Machine.execI3cImageWrite slot img s) :=
  answer (.ite h.updDev h)
theorem execImageApplyRequest {p slot} (h : s.Residues) : NextResidues (Machine.execImageApplyRequest p slot s) :=
  answer h.applyAsk
theorem execImageApply (h : s.Residues) : NextResidues (Machine.execImageApply s) :=
  answer h.applyNow
theorem execImageApplyDrainTimeout (h : s.Residues) : NextResidues (Machine.execImageApplyDrainTimeout s) := by
  refine answer ?_
  split
  · exact .ite h.applyRefuse h
  · exact h
theorem execI3cModuleInfoRead (h : s.Residues) : NextResidues (Machine.execI3cModuleInfoRead s) :=
  answer (.ite h.emit h)
theorem execI3cAttest {msg} (h : s.Residues) : NextResidues (Machine.execI3cAttest msg s) :=
  answer (.ite h.emit h)
theorem execI3cSafeHoldRead (h : s.Residues) : NextResidues (Machine.execI3cSafeHoldRead s) :=
  answer (.ite h.emit.emit h)
theorem execBypass (h : s.Residues) : NextResidues (Machine.execBypass s) :=
  answer (h.tap fun _ h1 => h1.updScout)
theorem execIdcode (h : s.Residues) : NextResidues (Machine.execIdcode s) :=
  answer (h.tap fun _ h1 => h1.updScout.emit)
theorem execSamplePreload {v} (h : s.Residues) : NextResidues (Machine.execSamplePreload v s) :=
  answer (h.tap fun _ h1 => h1.draw.updScout.emit)
theorem execExtest {v} (h : s.Residues) : NextResidues (Machine.execExtest v s) :=
  answer (h.tap fun _ h1 => .ite h1.updScout h1)
theorem execScout (h : s.Residues) : NextResidues (Machine.execScout s) :=
  answer (h.tap fun _ h1 => h1.updScout)
theorem execScoutUnlock {w0 w1 now} (h : s.Residues) : NextResidues (Machine.execScoutUnlock w0 w1 now s) :=
  answer h.unlock
theorem execScoutHalt (h : s.Residues) : NextResidues (Machine.execScoutHalt s) :=
  answer (h.scoutOp fun _ _ h1 => .ite h1 h1.haltNow)
theorem execScoutResume (h : s.Residues) : NextResidues (Machine.execScoutResume s) :=
  answer (h.scoutOp fun _ _ h1 => h1.release.setFld.updPart)
theorem execScoutStep {n} (h : s.Residues) : NextResidues (Machine.execScoutStep n s) := by
  refine answer (h.scoutOp fun _ _ h1 => ?_)
  split
  · exact h1
  · split
    · exact h1
    · split
      · exact h1
      · exact h1.updPart
theorem execScoutSetBreakpoint {arg v} (h : s.Residues) : NextResidues (Machine.execScoutSetBreakpoint arg v s) := by
  refine answer (h.scoutOp fun _ _ h1 => ?_)
  split
  · exact h1
  · exact h1.updPart
theorem execScoutClearBreakpoint {arg} (h : s.Residues) : NextResidues (Machine.execScoutClearBreakpoint arg s) :=
  answer (h.scoutOp fun _ _ h1 => h1.updPart)
theorem execScoutMemoryRead {va} (h : s.Residues) : NextResidues (Machine.execScoutMemoryRead va s) := by
  refine h.scoutMem fun _ h => h.scoutOp fun _ _ h => ?_
  split
  · exact h.eccWords
  · exact h
theorem execScoutMemoryWrite {va v} (h : s.Residues) : NextResidues (Machine.execScoutMemoryWrite va v s) := by
  refine h.scoutMem fun _ h => h.scoutOp fun _ _ h => ?_
  split
  · exact h
  · split
    · exact h.foldl fun _ _ h => h.setByte
    · exact h
theorem execScoutRegisterRead {off} (h : s.Residues) : NextResidues (Machine.execScoutRegisterRead off s) :=
  answer (h.scoutOp fun _ _ h1 => h1)
theorem execScoutRegisterWrite {off v} (h : s.Residues) : NextResidues (Machine.execScoutRegisterWrite off v s) :=
  answer (h.scoutOp fun _ _ h1 => h1.regWrite)
theorem execScoutStatus (h : s.Residues) : NextResidues (Machine.execScoutStatus s) := by
  refine answer ?_
  split
  · exact h
  · split
    · exact h.tdr
    · exact h.tdr
theorem execTokenExpire {p} (h : s.Residues) : NextResidues (Machine.execTokenExpire p s) :=
  answer (.ite h.endUnlock h)
theorem execPartnerStopsAnswering {port} (h : s.Residues) : NextResidues (Machine.execPartnerStopsAnswering port s) :=
  answer (.ite h.flushPort.updPort.setFld h)
theorem execP3Refused (h : s.Residues) : NextResidues (Machine.execP3Refused s) :=
  answer h.p3Late
theorem execCopyAcknowledged {p copy elapsedMs} (h : s.Residues) : NextResidues (Machine.execCopyAcknowledged p copy elapsedMs s) :=
  answer h.copyAck
theorem execSealLockstepMismatch {hd} (h : s.Residues) : NextResidues (Machine.execSealLockstepMismatch hd s) :=
  answer h.stopSeal
theorem execRejoinAsStandby {hd} (h : s.Residues) : NextResidues (Machine.execRejoinAsStandby hd s) :=
  answer (.ite h.setSeal h)
theorem execHalfClockLoss {hd} (h : s.Residues) : NextResidues (Machine.execHalfClockLoss hd s) :=
  answer (.ite h.fenceHalf h)
theorem execAux3v3Loss (h : s.Residues) : NextResidues (Machine.execAux3v3Loss s) :=
  answer h.updDev
theorem execAux3v3Return (h : s.Residues) : NextResidues (Machine.execAux3v3Return s) :=
  answer h.updDev

/-- Every command keeps the canonical form. -/
theorem exec {i} (h : s.Residues) : NextResidues (Machine.exec i s) := by
  cases i with
  | nop => exact h.execNop
  | advance => exact h.execAdvance
  | qpush => exact h.execQpush
  | qpop => exact h.execQpop
  | endCmd => exact h.execEndCmd
  | product => exact h.execProduct
  | drain => exact h.execDrain
  | evict => exact h.execEvict
  | ledgerAdd => exact h.execLedgerAdd
  | release => exact h.execRelease
  | vec => exact h.execVec
  | reduce => exact h.execReduce
  | spice => exact h.execSpice
  | sieve => exact h.execSieve
  | dropout => exact h.execDropout
  | move => exact h.execMove
  | gather => exact h.execGather
  | swap => exact h.execSwap
  | swapTakeEffect => exact h.execSwapTakeEffect
  | mark => exact h.execMark
  | send => exact h.execSend
  | reshard => exact h.execReshard
  | reshardEpochTakeEffect => exact h.execReshardEpochTakeEffect
  | reshardTimeout => exact h.execReshardTimeout
  | losschk => exact h.execLosschk
  | update => exact h.execUpdate
  | updateChunkApply => exact h.execUpdateChunkApply
  | commit => exact h.execCommit
  | commandComplete => exact h.execCommandComplete
  | elasticWaitSatisfied => exact h.execElasticWaitSatisfied
  | paceExecute => exact h.execPaceExecute
  | mergeComplete => exact h.execMergeComplete
  | holdEnd => exact h.execHoldEnd
  | drvIssue => exact h.execDrvIssue
  | drvTransferComplete => exact h.execDrvTransferComplete
  | transferTimeout => exact h.execTransferTimeout
  | tollGrant => exact h.execTollGrant
  | tollStarve => exact h.execTollStarve
  | straggler => exact h.execStraggler
  | stepWatchdogExpire => exact h.execStepWatchdogExpire
  | orderAccept => exact h.execOrderAccept
  | orderStart => exact h.execOrderStart
  | orderComplete => exact h.execOrderComplete
  | consignReadDone => exact h.execConsignReadDone
  | consignCopyTimeout => exact h.execConsignCopyTimeout
  | riskRise => exact h.execRiskRise
  | completionFlush => exact h.execCompletionFlush
  | preemptTakeEffect => exact h.execPreemptTakeEffect
  | preemptResume => exact h.execPreemptResume
  | reexecute => exact h.execReexecute
  | journalRebuildDone => exact h.execJournalRebuildDone
  | hbmSoftPpr => exact h.execHbmSoftPpr
  | hbmScrub => exact h.execHbmScrub
  | routerPollTimeout => exact h.execRouterPollTimeout
  | sealHeartbeatLoss => exact h.execSealHeartbeatLoss
  | lastResort => exact h.execLastResort
  | factorRestart => exact h.execFactorRestart
  | sealReqMapWindow => exact h.execSealReqMapWindow
  | sealReqUnmapWindow => exact h.execSealReqUnmapWindow
  | sealReqWriteRwl => exact h.execSealReqWriteRwl
  | sealReqPrst => exact h.execSealReqPrst
  | sealReqDebugToken => exact h.execSealReqDebugToken
  | sealReqBankPair => exact h.execSealReqBankPair
  | sealReqPreempt => exact h.execSealReqPreempt
  | sealReqResume => exact h.execSealReqResume
  | ringDoorbell => exact h.execRingDoorbell
  | ringBaseWrite => exact h.execRingBaseWrite
  | cplHeadWrite => exact h.execCplHeadWrite
  | hqCancel => exact h.execHqCancel
  | mboxRelease => exact h.execMboxRelease
  | sealManResume => exact h.execSealManResume
  | sealManWithdraw => exact h.execSealManWithdraw
  | csgNow => exact h.execCsgNow
  | csgRestore => exact h.execCsgRestore
  | p3Req => exact h.execP3Req
  | p3Exit => exact h.execP3Exit
  | p2IdleEntry => exact h.execP2IdleEntry
  | registerWrite => exact h.execRegisterWrite
  | bar2Access => exact h.execBar2Access
  | hostSpdmDoe => exact h.execHostSpdmDoe
  | startUp => exact h.execStartUp
  | pwrgdFall => exact execPwrgdFall
  | drst => exact h.execDrst
  | crst => exact h.execCrst
  | lrstRequest => exact h.execLrstRequest
  | perstAssert => exact h.execPerstAssert
  | perstRelease => exact h.execPerstRelease
  | flr => exact h.execFlr
  | lugUndervoltage => exact h.execLugUndervoltage
  | lugRecover => exact h.execLugRecover
  | thermalMonitor => exact h.execThermalMonitor
  | droopStretch => exact h.execDroopStretch
  | capFastLoop => exact h.execCapFastLoop
  | capHoldLoop => exact h.execCapHoldLoop
  | referenceLost => exact h.execReferenceLost
  | referenceReturn => exact h.execReferenceReturn
  | linkSignalDetect => exact h.execLinkSignalDetect
  | linkFecLock => exact h.execLinkFecLock
  | linkInitExchange => exact h.execLinkInitExchange
  | linkSpdmComplete => exact h.execLinkSpdmComplete
  | linkSpdmTimeout => exact h.execLinkSpdmTimeout
  | linkAbsentReport => exact h.execLinkAbsentReport
  | flitReceive => exact h.execFlitReceive
  | linkRetryTimer => exact h.execLinkRetryTimer
  | keyUpdate => exact h.execKeyUpdate
  | packetForward => exact h.execPacketForward
  | packetDeliver => exact h.execPacketDeliver
  | faultBeaconReceive => exact h.execFaultBeaconReceive
  | linkSendEntry => exact h.execLinkSendEntry
  | detourInstall => exact h.execDetourInstall
  | ownerOpenChunk => exact h.execOwnerOpenChunk
  | openPkt => exact h.execOpenPkt
  | contrib => exact h.execContrib
  | result => exact h.execResult
  | wideContrib => exact h.execWideContrib
  | wideResult => exact h.execWideResult
  | vote => exact h.execVote
  | nak => exact h.execNak
  | fail => exact h.execFail
  | ownerDeadlineExpire => exact h.execOwnerDeadlineExpire
  | memberDeadlineExpire => exact h.execMemberDeadlineExpire
  | voteDeadlineExpire => exact h.execVoteDeadlineExpire
  | consignmentPacket => exact h.execConsignmentPacket
  | partnerAck => exact h.execPartnerAck
  | i3cWrstRequest => exact h.execI3cWrstRequest
  | i3cImageWrite => exact h.execI3cImageWrite
  | imageApplyRequest => exact h.execImageApplyRequest
  | imageApply => exact h.execImageApply
  | imageApplyDrainTimeout => exact h.execImageApplyDrainTimeout
  | i3cModuleInfoRead => exact h.execI3cModuleInfoRead
  | i3cAttest => exact h.execI3cAttest
  | i3cSafeHoldRead => exact h.execI3cSafeHoldRead
  | bypass => exact h.execBypass
  | idcode => exact h.execIdcode
  | samplePreload => exact h.execSamplePreload
  | extest => exact h.execExtest
  | scout => exact h.execScout
  | scoutUnlock => exact h.execScoutUnlock
  | scoutHalt => exact h.execScoutHalt
  | scoutResume => exact h.execScoutResume
  | scoutStep => exact h.execScoutStep
  | scoutSetBreakpoint => exact h.execScoutSetBreakpoint
  | scoutClearBreakpoint => exact h.execScoutClearBreakpoint
  | scoutMemoryRead => exact h.execScoutMemoryRead
  | scoutMemoryWrite => exact h.execScoutMemoryWrite
  | scoutRegisterRead => exact h.execScoutRegisterRead
  | scoutRegisterWrite => exact h.execScoutRegisterWrite
  | scoutStatus => exact h.execScoutStatus
  | tokenExpire => exact h.execTokenExpire
  | partnerStopsAnswering => exact h.execPartnerStopsAnswering
  | p3Refused => exact h.execP3Refused
  | copyAcknowledged => exact h.execCopyAcknowledged
  | sealLockstepMismatch => exact h.execSealLockstepMismatch
  | rejoinAsStandby => exact h.execRejoinAsStandby
  | halfClockLoss => exact h.execHalfClockLoss
  | aux3v3Loss => exact h.execAux3v3Loss
  | aux3v3Return => exact h.execAux3v3Return

end State.Residues

/-- A step is the command at the head of the queue. -/
theorem step_keeps_residues {s t : State} (h : s.Residues) (ht : step s = .next t) : t.Residues := by
  unfold step at ht
  split at ht
  · exact Host.Outcome.next.inj ht ▸ h
  · exact State.Residues.exec (State.Residues.withPending h) t ht

/-- Settles O59: each command carries the residues through every operation it is made of; the digits of a word have the residue of its
value, since 2^7 leaves 1. -/
theorem entriesKeepTheirResidue : Obligations.EntriesKeepTheirResidue := by
  unfold Obligations.EntriesKeepTheirResidue
  refine ⟨fun s t => step_keeps_residues, fun v hlo hhi => ⟨residue_lt v, ?_, residue_digits v hlo hhi⟩⟩
  rw [residue_cast, Int.emod_emod]

end Sys2Proof.Machine
end

section
/-!
PROOFS. Work confined to one partition and to some pieces of the state: the frame that the statements about an engine's events share.
-/
namespace Sys2Proof.Machine

/-- Only partition p and only the pieces named have changed. -/
structure State.Within (p : Nat) (fs : List Comp) (s t : State) : Prop where
  part : OnlyPart p s t
  comps : OnlyChanges fs s t

namespace State.Within
variable {p : Nat} {fs gs : List Comp} {s t u : State}

theorem refl (p : Nat) (fs : List Comp) (s : State) : s.Within p fs s := ⟨fun _ _ => rfl, .refl fs s⟩

theorem trans (h : s.Within p fs t) (k : t.Within p fs u) : s.Within p fs u :=
  ⟨fun q hq => (k.part q hq).trans (h.part q hq), h.comps.trans k.comps (List.Subset.refl _)⟩

theorem widen (h : s.Within p fs t) (hs : fs ⊆ gs) : s.Within p gs t := ⟨h.part, h.comps.widen hs⟩

theorem ite {c : Prop} [Decidable c] (ht : s.Within p fs t) (hu : s.Within p fs u) : s.Within p fs (if c then t else u) := by
  split
  · exact ht
  · exact hu

theorem foldl {α : Type} {f : State → α → State} {l : List α} (h : s.Within p fs t)
    (hf : ∀ a ∈ l, ∀ t, s.Within p fs t → s.Within p fs (f t a)) : s.Within p fs (l.foldl f t) :=
  List.foldlRecOn l f h fun t ht a ha => hf a ha t ht

/-- The answer puts the queue back, so no frame names it. -/
theorem answered (h : s.Within p fs t) : s.Within p fs { t with pending := s.pending } := ⟨h.part, h.comps.answered⟩

/-- A step that touches no partition and one piece. -/
theorem of_comp (h : s.Within p fs t) {f : Comp} (hf : f ∈ fs) (hp : u.parts = t.parts) (hu : ∀ g, g ≠ f → g.same t u) :
    s.Within p fs u :=
  h.trans ⟨fun q _ => by unfold State.part; rw [hp], fun g hg => hu g fun he => hg (he ▸ hf)⟩

theorem setReg {o w} (h : s.Within p fs t) (hf : .csr ∈ fs) : s.Within p fs (t.setReg o w) :=
  h.of_comp hf rfl fun g hg => (setReg_regsOnly t o w).2 g (by simpa using hg)

theorem setFld {r v} (h : s.Within p fs t) (hf : .csr ∈ fs) : s.Within p fs (t.setFld r v) := h.setReg hf
theorem count {r n} (h : s.Within p fs t) (hf : .csr ∈ fs) : s.Within p fs (t.count r n) := h.setReg hf
theorem keepMax {r n} (h : s.Within p fs t) (hf : .csr ∈ fs) : s.Within p fs (t.keepMax r n) := h.setReg hf

theorem setBank {k x} (h : s.Within p fs t) (hf : .banks ∈ fs) : s.Within p fs (t.setBank k x) :=
  h.of_comp hf rfl fun g hg => by
    cases g with
    | banks => exact absurd rfl hg
    | _ => rfl

theorem setEntry {k x} (h : s.Within p fs t) (hf : .tally ∈ fs) : s.Within p fs (t.setEntry k x) :=
  h.of_comp hf rfl fun g hg => by
    cases g with
    | tally => exact absurd rfl hg
    | _ => rfl

theorem setCar {c x} (h : s.Within p fs t) (hf : .cars ∈ fs) : s.Within p fs (t.setCar c x) :=
  h.of_comp hf rfl fun g hg => by
    cases g with
    | cars => exact absurd rfl hg
    | _ => rfl

theorem updCar {c f} (h : s.Within p fs t) (hf : .cars ∈ fs) : s.Within p fs (t.updCar c f) := h.setCar hf

theorem draw (h : s.Within p fs t) (hf : .free ∈ fs) : s.Within p fs t.draw.2 :=
  h.of_comp hf rfl fun g hg => by
    cases g with
    | free => exact absurd rfl hg
    | _ => rfl

theorem updPart {f} (h : s.Within p fs t) (hf : .parts ∈ fs) : s.Within p fs (t.updPart p f) :=
  h.trans ⟨fun q hq => State.part_updPart_other _ _ _ _ hq, fun g hg => by
    cases g with
    | parts => exact absurd hf hg
    | _ => rfl⟩

theorem setExec {e} (h : s.Within p fs t) (hf : .parts ∈ fs) : s.Within p fs (t.setExec p e) := h.updPart hf

theorem updExec {f} (h : s.Within p fs t) (hf : .parts ∈ fs) : s.Within p fs (t.updExec p f) := by
  unfold State.updExec
  split
  · exact h.setExec hf
  · exact h

/-! Holds. -/

variable (hc : .csr ∈ fs) (hp : .parts ∈ fs) (hd : .free ∈ fs)
include hc hp hd

theorem hold {src len} (h : s.Within p fs t) : s.Within p fs (t.hold p src len) :=
  ((((h.updPart hp).setFld hc).count hc).draw hd).keepMax hc

theorem realign {s0 n} (h : s.Within p fs t) : s.Within p fs (State.realign s0 t p n) := .ite (h.hold hc hp hd) h

theorem excess {cls} (h : s.Within p fs t) : s.Within p fs (t.excess p cls) := by
  unfold State.excess
  split
  · exact h
  · exact .ite ((h.hold hc hp hd).count hc) h

theorem useClass {cls v} (h : s.Within p fs t) : s.Within p fs (t.useClass p cls v) := by
  unfold State.useClass
  split
  · exact h
  · exact .ite (h.setExec hp) ((h.setExec hp).hold hc hp hd)

end State.Within

namespace State.Within
variable {p : Nat} {fs : List Comp} {s t : State}

theorem unhold {src} (h : s.Within p fs t) (hf : .parts ∈ fs) : s.Within p fs (t.unhold p src) := h.updPart hf

/-! Counted events of a row of operands. -/

theorem inputOvf {c stn n} (h : s.Within p fs t) (hc : .csr ∈ fs) (hp : .parts ∈ fs) : s.Within p fs (t.inputOvf p c stn n) :=
  .ite h ((h.count hc).updExec hp)

theorem sweepHeld {g w} (h : s.Within p fs t) (hc : .csr ∈ fs) : s.Within p fs (t.sweepHeld p g w) :=
  .ite ((((h.keepMax hc).count hc).count hc).count hc) (h.keepMax hc)

end State.Within

/-! What a realignment leaves in force (R129). -/

/-- The realignment after merged holds raises source 8 alone: nothing else is in force then. -/
theorem State.part_realign (s0 s : State) (p n : Nat) :
    (s0.realign s p n).part p =
      if (s0.part p).merged && !s.held p && n ≠ 0 then { s.part p with holds := [⟨8, some n⟩] } else s.part p := by
  unfold State.realign
  split
  · rename_i h
    simp only [Bool.and_eq_true, Bool.not_eq_true', decide_eq_true_eq] at h
    obtain ⟨⟨-, hh⟩, -⟩ := h
    have hnil : (s.part p).holds = [] := by simpa [State.held] using hh
    rw [State.part_hold, if_pos rfl, hh, Bool.or_false, hnil]
    rfl
  · rfl

theorem State.exec_realign (s0 s : State) (p n q : Nat) : (s0.realign s p n).exec? q = s.exec? q := by
  unfold State.realign
  split
  · exact State.exec_hold ..
  · rfl

/-- A hold writes no cycle counter. -/
theorem State.holdCycles_hold (s : State) (p src : Nat) (len : Option Nat) :
    (s.hold p src len).fld (Csr.prtHold_holdCycles p) = s.fld (Csr.prtHold_holdCycles p) := by
  have hmax (t : State) (v : Nat) : (t.setFld (Csr.prtHold_skewMax p) v).fld (Csr.prtHold_holdCycles p) = t.fld (Csr.prtHold_holdCycles p) :=
    State.fld_setFld_field _ _ _ _ (by simp [Csr.prtHold_skewMax]) (.inr (by simp [Csr.prtHold_skewMax, Csr.prtHold_holdCycles]))
  have hlast (t : State) (v : Nat) : (t.setFld (Csr.prtHold_lastSource p) v).fld (Csr.prtHold_holdCycles p) = t.fld (Csr.prtHold_holdCycles p) :=
    State.fld_setFld_field _ _ _ _ (by simp [Csr.prtHold_lastSource]) (.inr (by simp [Csr.prtHold_lastSource, Csr.prtHold_holdCycles]))
  have hev (t : State) (v : Nat) : (t.count (Csr.prtHoldSrc_events p src) v).fld (Csr.prtHold_holdCycles p) = t.fld (Csr.prtHold_holdCycles p) :=
    State.fld_count_off _ _ _ _ (by simp only [Csr.prtHoldSrc_events, Csr.prtHold_holdCycles, Csr.prtHoldSrc, Csr.prtHold]; omega)
  have hdraw (t : State) : t.draw.2.fld (Csr.prtHold_holdCycles p) = t.fld (Csr.prtHold_holdCycles p) := rfl
  unfold State.hold State.keepMax
  rw [hmax, hdraw, hev, hlast]
  rfl

theorem State.holdCycles_realign (s0 s : State) (p n : Nat) :
    (s0.realign s p n).fld (Csr.prtHold_holdCycles p) = s.fld (Csr.prtHold_holdCycles p) := by
  unfold State.realign
  split
  · exact State.holdCycles_hold ..
  · rfl

end Sys2Proof.Machine
end

section
/-!
PROOFS. HOLD_END (R84, R88, R129): cycles counted for a hold of known length, the restarted passes of a caravan run again, and the release
of a hold whose cause is gone.
-/
namespace Sys2Proof.Machine

theorem State.stopped_of_no_fault {s : State} {p : Nat} {e : Exec} (he : s.exec? p = some e) (hf : e.fault = none) :
    s.stopped p = false := by
  simp [State.stopped, he, hf]

/-- With no order overtaken, every tile belongs to the running execution (R220). -/
theorem State.forSeq_of_no_prev {s : State} {p : Nat} (seq : Nat) (f : State → State) (h : (s.part p).prev = none) :
    s.forSeq p seq f = f s := by
  simp [State.forSeq, h]

/-! Holds run down. -/

/-- The holds in force after n cycles. -/
def State.leftHolds (s : State) (p n : Nat) : List Hold :=
  ((s.part p).holds.map (fun h => { h with left := h.left.map (· - n) })).filter (·.left ≠ some 0)

/-- The cycles that n cycles in holds count, in all and by source (R153). -/
def State.heldCycles (s : State) (p n : Nat) : State :=
  (((s.part p).holds.map (·.src)).eraseDups).foldl (fun t k => t.count (Csr.prtHoldSrc_cycles p k) (heldBy (s.part p).holds k n))
    (s.count (Csr.prtHold_holdCycles p) n)

theorem State.runDown_eq (s : State) (p n : Nat) :
    s.runDown p n = (s.heldCycles p n).updPart p (fun x =>
      let left := (x.holds.map (fun h => { h with left := h.left.map (· - n) })).filter (·.left ≠ some 0)
      { x with holds := left, merged := x.merged && !left.isEmpty }) := rfl

theorem State.heldCycles_changes (s : State) (p n : Nat) : OnlyChanges [.csr] s (s.heldCycles p n) :=
  OnlyChanges.foldl (count_changes s _ _) fun _ _ t h => h.step (count_changes t _ _) (List.Subset.refl _)

theorem State.part_runDown (s : State) (p n : Nat) :
    (s.runDown p n).part p =
      { s.part p with holds := s.leftHolds p n, merged := (s.part p).merged && !(s.leftHolds p n).isEmpty } := by
  have hparts : (s.heldCycles p n).part p = s.part p := congrArg (Map.get Part.none · p) (s.heldCycles_changes p n .parts (by decide))
  rw [State.runDown_eq, State.part_updPart_same, hparts]
  rfl

theorem State.holdCycles_runDown (s : State) (p n : Nat) :
    (s.runDown p n).fld (Csr.prtHold_holdCycles p) = min (s.fld (Csr.prtHold_holdCycles p) + n) (2 ^ 48 - 1) := by
  have hsrc (t : State) (k m : Nat) :
      (t.count (Csr.prtHoldSrc_cycles p k) m).fld (Csr.prtHold_holdCycles p) = t.fld (Csr.prtHold_holdCycles p) :=
    State.fld_count_off _ _ _ _ (by simp only [Csr.prtHoldSrc_cycles, Csr.prtHold_holdCycles, Csr.prtHoldSrc, Csr.prtHold]; omega)
  have h0 : (s.count (Csr.prtHold_holdCycles p) n).fld (Csr.prtHold_holdCycles p) = min (s.fld (Csr.prtHold_holdCycles p) + n) (2 ^ 48 - 1) :=
    State.fld_count_same _ _ _ (by simp [Csr.prtHold_holdCycles])
  have hcount : (s.heldCycles p n).fld (Csr.prtHold_holdCycles p) = (s.count (Csr.prtHold_holdCycles p) n).fld (Csr.prtHold_holdCycles p) := by
    unfold State.heldCycles
    generalize s.count (Csr.prtHold_holdCycles p) n = t
    exact foldl_keeps (P := fun u => u.fld (Csr.prtHold_holdCycles p) = t.fld (Csr.prtHold_holdCycles p)) _
      (fun u k hu => (hsrc u k _).trans hu) _ t rfl
  rw [State.runDown_eq, ← h0, ← hcount]
  rfl

theorem State.Within.runDown {p n : Nat} {fs : List Comp} {s t : State} (h : s.Within p fs t) (hc : .csr ∈ fs) (hp : .parts ∈ fs) :
    s.Within p fs (t.runDown p n) := by
  rw [State.runDown_eq]
  exact updPart (h.trans ⟨fun q _ => congrArg (Map.get Part.none · q) (t.heldCycles_changes p n .parts (by decide)),
    (t.heldCycles_changes p n).widen (by simpa using hc)⟩) hp

theorem entryKey_div {key r col : Nat} (hr : r < 32) (hc : col < 128) : entryKey key r col / 4096 = key := by
  unfold entryKey
  omega

theorem State.logCols_le (s : State) (g : Nat) : s.logCols g ≤ 128 := by
  unfold State.logCols
  split <;> decide

/-! Restarted passes. -/

/-- The pieces of the state that the end of a hold of source 4 changes. -/
def rerunComps : List Comp := [.csr, .tally, .banks, .cars, .parts, .free]

/-- Passes in the caravans of K have run again: their entries are written anew and the banks readable, and restarts are over. -/
structure State.Reruns (p : Nat) (K : Nat → Prop) (s t : State) : Prop where
  within : s.Within p rerunComps t
  part : ∃ x, t.part p = { s.part p with exec := x }
  bank : ∀ j, t.bank j = s.bank j ∨ (K (j / 336) ∧ t.bank j = { s.bank j with poisoned := false })
  entry : ∀ j, ¬ K (j / 4096 / 336) → t.entry j = s.entry j
  car : ∀ c, t.car c = s.car c ∨ (K c ∧ t.car c = { s.car c with restart := false })

namespace State.Reruns
variable {p : Nat} {K : Nat → Prop} {s t u : State}

theorem refl (s : State) : s.Reruns p K s :=
  ⟨.refl .., ⟨_, rfl⟩, fun _ => .inl rfl, fun _ _ => rfl, fun _ => .inl rfl⟩

theorem trans (h : s.Reruns p K t) (k : t.Reruns p K u) : s.Reruns p K u where
  within := h.within.trans k.within
  part := by
    obtain ⟨x, hx⟩ := h.part
    obtain ⟨y, hy⟩ := k.part
    exact ⟨y, by rw [hy, hx]⟩
  bank j := by
    rcases h.bank j with h1 | ⟨hj, h1⟩ <;> rcases k.bank j with k1 | ⟨hj', k1⟩ <;> simp [*]
  entry j hj := (k.entry j hj).trans (h.entry j hj)
  car c := by
    rcases h.car c with h1 | ⟨hc, h1⟩ <;> rcases k.car c with k1 | ⟨hc', k1⟩ <;> simp [*]

theorem mono {L : Nat → Prop} (h : s.Reruns p K t) (hKL : ∀ j, K j → L j) : s.Reruns p L t :=
  ⟨h.within, h.part, fun j => (h.bank j).imp_right (And.imp_left (hKL _)), fun j hj => h.entry j fun hk => hj (hKL _ hk),
    fun c => (h.car c).imp_right (And.imp_left (hKL c))⟩

theorem foldl {α : Type} {f : State → α → State} {l : List α} (h : s.Reruns p K t)
    (hf : ∀ a ∈ l, ∀ t, s.Reruns p K t → s.Reruns p K (f t a)) : s.Reruns p K (l.foldl f t) :=
  List.foldlRecOn l f h fun t ht a ha => hf a ha t ht

theorem ite {c : Prop} [Decidable c] (ht : s.Reruns p K t) (hu : s.Reruns p K u) : s.Reruns p K (if c then t else u) := by
  split
  · exact ht
  · exact hu

/-! What stays. -/

theorem prev (h : s.Reruns p K t) : (t.part p).prev = (s.part p).prev := by obtain ⟨x, hx⟩ := h.part; rw [hx]
theorem caravans (h : s.Reruns p K t) : t.caravans p = s.caravans p := by
  obtain ⟨x, hx⟩ := h.part
  unfold State.caravans
  rw [hx]
theorem runs (h : s.Reruns p K t) (c : Nat) : (t.car c).runs = (s.car c).runs := by rcases h.car c with h1 | ⟨-, h1⟩ <;> rw [h1]
theorem remnant (h : s.Reruns p K t) (c : Nat) : (t.car c).remnant = (s.car c).remnant := by
  rcases h.car c with h1 | ⟨-, h1⟩ <;> rw [h1]
theorem restart_over (h : s.Reruns p K t) {c : Nat} (hc : (s.car c).restart = false) : (t.car c).restart = false := by
  rcases h.car c with h1 | ⟨-, h1⟩ <;> simp [h1, hc]
/-- A bank once readable stays so. -/
theorem readable (h : s.Reruns p K t) {j : Nat} (hj : (s.bank j).poisoned = false) : (t.bank j).poisoned = false := by
  rcases h.bank j with h1 | ⟨-, h1⟩ <;> simp [h1, hj]
theorem bank_fields (h : s.Reruns p K t) (j : Nat) :
    (t.bank j).st = (s.bank j).st ∧ (t.bank j).seq = (s.bank j).seq ∧ (t.bank j).tile = (s.bank j).tile ∧
      (t.bank j).done = (s.bank j).done := by
  rcases h.bank j with h1 | ⟨-, h1⟩ <;> simp [h1]
/-- A bank that ends readable is as it was but for that. -/
theorem bank_eq (h : s.Reruns p K t) {j : Nat} (hj : (t.bank j).poisoned = false) : t.bank j = { s.bank j with poisoned := false } := by
  rcases h.bank j with h1 | ⟨-, h1⟩
  · rw [← h1, ← hj]
  · exact h1

/-! The elementary updates. -/

/-- Registers play no part. -/
theorem csrOnly (h : s.Reruns p K t) (hu : OnlyChanges [.csr] t u) : s.Reruns p K u :=
  h.trans ⟨⟨fun q _ => congrArg (Map.get Part.none · q) (hu .parts (by decide)), hu.widen (by decide)⟩,
    ⟨_, congrArg (Map.get Part.none · p) (hu .parts (by decide))⟩, fun j => .inl (congrArg (Map.get Bank.empty · j) (hu .banks (by decide))),
    fun j _ => congrArg (Map.get Entry.zero · j) (hu .tally (by decide)), fun c => .inl (congrArg (Map.get Car.idle · c) (hu .cars (by decide)))⟩

theorem count {r n} (h : s.Reruns p K t) : s.Reruns p K (t.count r n) := h.csrOnly (count_changes t r n)

theorem updExec {f} (h : s.Reruns p K t) : s.Reruns p K (t.updExec p f) := by
  refine h.trans ⟨(Within.refl ..).updExec (by decide), ?_, fun j => .inl (by simp), fun j _ => by simp, fun c => .inl (by simp)⟩
  unfold State.updExec
  split
  · exact ⟨_, State.part_setExec_same ..⟩
  · exact ⟨_, rfl⟩

theorem inputOvf {c stn n} (h : s.Reruns p K t) : s.Reruns p K (t.inputOvf p c stn n) := .ite h h.count.updExec

theorem sweepHeld {g w} (h : s.Reruns p K t) : s.Reruns p K (t.sweepHeld p g w) :=
  h.csrOnly ((Within.refl p [.csr] t).sweepHeld (by decide)).comps

theorem setEntry {k x} (h : s.Reruns p K t) (hk : K (k / 4096 / 336)) : s.Reruns p K (t.setEntry k x) :=
  h.trans ⟨(Within.refl ..).setEntry (by decide), ⟨_, rfl⟩, fun _ => .inl rfl, fun j hj => by
    rw [State.entry_setEntry, if_neg (by rintro rfl; exact hj hk)], fun _ => .inl rfl⟩

theorem setReadable {key} (h : s.Reruns p K t) (hk : K (key / 336)) : s.Reruns p K (t.setBank key { t.bank key with poisoned := false }) := by
  refine h.trans ⟨(Within.refl ..).setBank (by decide), ⟨_, rfl⟩, fun j => ?_, fun _ _ => rfl, fun _ => .inl rfl⟩
  rw [State.bank_setBank]
  split
  · rename_i hj
    exact hj ▸ .inr ⟨hk, rfl⟩
  · exact .inl rfl

theorem restartOver {c} (h : s.Reruns p K t) (hk : K c) : s.Reruns p K (t.updCar c (fun k => { k with restart := false })) := by
  refine h.trans ⟨(Within.refl ..).updCar (by decide), ⟨_, rfl⟩, fun _ => .inl rfl, fun _ _ => rfl, fun d => ?_⟩
  rw [State.car_updCar]
  split
  · rename_i hd
    exact hd ▸ .inr ⟨hk, rfl⟩
  · exact .inl rfl

/-! One bank's pass, and one caravan's. -/

theorem preloadRows {g key va} (h : s.Reruns p K t) (hk : K (key / 336)) : s.Reruns p K (t.preloadRows p g key va) :=
  h.foldl fun r hr _ h1 => .ite (h1.foldl fun col hc _ h2 => h2.setEntry (by
    rwa [entryKey_div (List.mem_range.mp hr) (List.mem_range.mp hc)])) h1

theorem rerunOvf {c} (h : s.Reruns p K t) (hp : (s.part p).prev = none) : s.Reruns p K (t.rerunOvf p c) :=
  h.foldl fun u _ v h1 => by
    dsimp only
    rw [State.forSeq_of_no_prev _ _ (h1.prev.trans hp)]
    exact h1.foldl fun _ _ _ h2 => h2.inputOvf

/-- A pass runs again in its bank alone, which is readable then. -/
theorem rerunBank_spec {c key : Nat} (hk : K (key / 336)) :
    t.Reruns p K (t.rerunBank p c key) ∧
      ∀ off u, (t.bank key).st = .filling off → (t.car c).runs.find? (fun u => u.seq = (t.bank key).seq && off = u.off) = some u →
        ((t.rerunBank p c key).bank key).poisoned = false := by
  generalize hw : t.rerunBank p c key = w
  unfold State.rerunBank at hw
  extract_lets -underBinder b g at hw
  split at hw
  · rename_i hnone
    subst hw
    refine ⟨.refl t, fun off u hst hu => ?_⟩
    simp only [b, hst] at hnone
    rw [hu] at hnone
    cases hnone
  · rename_i u hu
    extract_lets -underBinder va before s1 s2 at hw
    have h1 : t.Reruns p K s1 := (refl t).setReadable hk
    have hclear : (s1.bank key).poisoned = false := by simp [s1, State.bank_setBank]
    have h2 : s1.Reruns p K s2 := by
      unfold s2
      clear_value va
      split
      · exact (refl s1).preloadRows hk
      · exact refl s1
    suffices hrest : s1.Reruns p K w from ⟨h1.trans hrest, fun _ _ _ _ => hrest.readable hclear⟩
    subst hw
    refine h2.foldl fun r hr v hv => ?_
    extract_lets -underBinder js v1
    have h3 : s1.Reruns p K v1 := hv.foldl fun col hc _ h4 => h4.setEntry (by
      rwa [entryKey_div (List.mem_range.mp hr) (lt_of_lt_of_le (List.mem_range.mp hc) (State.logCols_le v g))])
    exact .ite (h3.foldl fun _ _ _ h4 => h4.inputOvf.sweepHeld) hv

end State.Reruns

theorem Map.mem_of_get_ne {α : Type} {d : α} {m : Map α} {k : Nat} (h : Map.get d m k ≠ d) : (k, Map.get d m k) ∈ m := by
  induction m with
  | nil => exact absurd rfl h
  | cons e m ih =>
    obtain ⟨k', v⟩ := e
    simp only [Map.get] at h ⊢
    split at h
    · rename_i hk
      simp [hk]
    · rename_i hk
      simp [hk, ih h]

/-- A bank in use is listed. -/
theorem State.mem_banks {s : State} {k : Nat} (h : (s.bank k).st.inPass = true) : (k, s.bank k) ∈ s.banks :=
  Map.mem_of_get_ne (d := Bank.empty) fun he => by
    have hst : (s.bank k).st = BankSt.free := congrArg Bank.st he
    rw [hst] at h
    cases h

/-- No pass of a caravan is at its end. -/
def State.NoneAtEnd (s : State) (c : Nat) : Prop :=
  ∀ k, k / 336 = c → (s.bank k).st.inPass = true → ∀ u ∈ (s.car c).runs, (s.bank k).tile ≠ u.lastUsed (k / 42) ∨ (s.bank k).done ≠ 32

/-- The banks of a caravan whose passes a product fills are readable. -/
def State.FilledReadable (s t : State) (c : Nat) : Prop :=
  ∀ j off u, j / 336 = c → (s.bank j).st = .filling off →
    (s.car c).runs.find? (fun u => u.seq = (s.bank j).seq && off = u.off) = some u → (t.bank j).poisoned = false

theorem State.endRerun_of_noneAtEnd {s : State} {p c k : Nat} (h : s.NoneAtEnd c) (hk : k / 336 = c) : s.endRerun p c k = s := by
  unfold State.endRerun
  dsimp only
  split
  · rename_i off u hst hu
    have hmem := List.mem_of_find?_eq_some hu
    rcases h k hk (by rw [hst]; rfl) u hmem with ht | hd <;> simp [*]
  · rfl

namespace State.Reruns
variable {p : Nat} {K : Nat → Prop} {s t u : State}

theorem noneAtEnd (h : s.Reruns p K t) {c : Nat} (hs : s.NoneAtEnd c) : t.NoneAtEnd c := by
  intro k hk hin u hu
  obtain ⟨hst, -, htile, hdone⟩ := h.bank_fields k
  rw [hst] at hin
  rw [h.runs] at hu
  rw [htile, hdone]
  exact hs k hk hin u hu

/-- Banks once readable stay so. -/
theorem filled_mono {r : State} (h : s.Reruns p K t) {c : Nat} (hr : r.FilledReadable s c) : r.FilledReadable t c :=
  fun j off u hj hst hu => h.readable (hr j off u hj hst hu)

theorem filledReadable (h : s.Reruns p K t) {v : State} {c : Nat} (ht : t.FilledReadable v c) : s.FilledReadable v c := by
  intro j off u hj hst hu
  obtain ⟨hst', hseq, -, -⟩ := h.bank_fields j
  exact ht j off u hj (hst'.trans hst) (by rwa [h.runs, hseq])

/-- The restart of a caravan's passes is over: its banks are readable, and only it has changed. -/
theorem rerunCar_spec {c : Nat} (hp : (t.part p).prev = none) (hr : (t.car c).restart = true) (hend : t.NoneAtEnd c) :
    t.Reruns p (· = c) (t.rerunCar p c) ∧ ((t.rerunCar p c).car c).restart = false ∧ t.FilledReadable (t.rerunCar p c) c := by
  have hkeys : ∀ k ∈ (t.banks.filter (fun x => x.1 / 336 = c && x.2.st.inPass)).map (·.1), k / 336 = c := by
    intro k hk
    obtain ⟨x, hx, rfl⟩ := List.mem_map.mp hk
    simpa using (And.left <| by simpa using (List.mem_filter.mp hx).2)
  unfold State.rerunCar
  rw [if_pos hr]
  dsimp only
  set keys := (t.banks.filter (fun x => x.1 / 336 = c && x.2.st.inPass)).map (·.1) with hl
  clear_value keys
  have hround (k : Nat) (hk : k ∈ keys) (v : State) (hv : t.Reruns p (· = c) v) :
      v.forSeq p (v.bank k).seq (fun s => s.rerunBank p c k) = v.rerunBank p c k := State.forSeq_of_no_prev _ _ (hv.prev.trans hp)
  obtain ⟨hv, hread⟩ := foldl_reaches (P := fun k v => ∀ off u, (t.bank k).st = .filling off →
      (t.car c).runs.find? (fun u => u.seq = (t.bank k).seq && off = u.off) = some u → (v.bank k).poisoned = false)
    (f := fun s k => s.forSeq p (s.bank k).seq (fun s => s.rerunBank p c k)) (l := keys) ((refl t).rerunOvf (c := c) hp)
    (fun k hk v hv => by
      rw [hround k hk v hv]
      exact hv.trans (rerunBank_spec (hkeys k hk)).1)
    (fun k hk v hv off u hst hu => by
      rw [hround k hk v hv]
      obtain ⟨hst', hseq, -, -⟩ := hv.bank_fields k
      exact (rerunBank_spec (K := (· = c)) (hkeys k hk)).2 off u (hst'.trans hst) (by rwa [hv.runs, hseq]))
    (fun k hk j v hv hj off u hst hu => by
      rw [hround k hk v hv]
      exact (rerunBank_spec (K := (· = c)) (hkeys k hk)).1.readable (hj off u hst hu))
  generalize keys.foldl (fun s k => s.forSeq p (s.bank k).seq (fun s => s.rerunBank p c k)) (t.rerunOvf p c) = v at hv hread ⊢
  have hw : t.Reruns p (· = c) (v.updCar c (fun k => { k with restart := false })) := hv.restartOver rfl
  have hover : ((v.updCar c (fun k => { k with restart := false })).car c).restart = false := by simp
  have hbank : ∀ j, (v.updCar c (fun k => { k with restart := false })).bank j = v.bank j := fun _ => rfl
  generalize v.updCar c (fun k => { k with restart := false }) = w at hw hover hbank ⊢
  have hnone : keys.foldl (fun s k => s.endRerun p c k) w = w :=
    List.foldlRecOn (motive := (· = w)) keys _ rfl fun x hx k hk => by
      rw [hx]
      exact State.endRerun_of_noneAtEnd (hw.noneAtEnd hend) (hkeys k hk)
  rw [hnone]
  refine ⟨hw, hover, fun j off u hj hst hu => ?_⟩
  rw [hbank]
  refine hread j ?_ off u hst hu
  rw [hl]
  have hin : (t.bank j).st.inPass = true := by rw [hst]; rfl
  exact List.mem_map.mpr ⟨_, List.mem_filter.mpr ⟨State.mem_banks hin, by simp [hj, hin]⟩, rfl⟩

/-- Every caravan's restart is over, and the banks of those that restarted are readable. -/
theorem rerunCars {cs : List Nat} (hp : (s.part p).prev = none) (hend : ∀ c ∈ cs, (s.car c).restart = true → s.NoneAtEnd c) :
    s.Reruns p (fun c => c ∈ cs ∧ (s.car c).restart = true) (cs.foldl (fun t c => t.rerunCar p c) s) ∧
      ∀ c ∈ cs, ((cs.foldl (fun t c => t.rerunCar p c) s).car c).restart = false ∧
        ((s.car c).restart = true → s.FilledReadable (cs.foldl (fun t c => t.rerunCar p c) s) c) := by
  set K : Nat → Prop := fun c => c ∈ cs ∧ (s.car c).restart = true
  let Done (v : State) : Prop := ∀ c, (s.car c).restart = true → (v.car c).restart = false → s.FilledReadable v c
  have hround (c : Nat) (hc : c ∈ cs) (v : State) (hv : s.Reruns p K v ∧ Done v) :
      v.Reruns p K (v.rerunCar p c) ∧ Done (v.rerunCar p c) ∧ ((v.rerunCar p c).car c).restart = false := by
    obtain ⟨hv, hdone⟩ := hv
    by_cases hr : (v.car c).restart = true
    · have hrs : (s.car c).restart = true := by
        by_contra hno
        exact absurd hr (by simp [hv.restart_over (by simpa using hno)])
      obtain ⟨h1, h2, h3⟩ := rerunCar_spec (hv.prev.trans hp) hr (hv.noneAtEnd (hend c hc hrs))
      refine ⟨h1.mono ?_, fun d hd hover => ?_, h2⟩
      · rintro _ rfl
        exact ⟨hc, hrs⟩
      · by_cases hdc : d = c
        · subst hdc
          exact hv.filledReadable h3
        · have hsame : (v.rerunCar p c).car d = v.car d := (h1.car d).resolve_right fun h => hdc h.1
          exact h1.filled_mono (hdone d hd (hsame ▸ hover))
    · have hv' : v.rerunCar p c = v := by rw [State.rerunCar, if_neg hr]
      rw [hv']
      exact ⟨refl v, hdone, by simpa using hr⟩
  obtain ⟨⟨h1, h2⟩, h3⟩ := foldl_reaches (P := fun c v => (v.car c).restart = false) (f := fun t c => t.rerunCar p c) (l := cs)
    (t := s) ⟨refl s, fun c hr hover => absurd hr (by simp [hover])⟩ (fun c hc v hv => ⟨hv.1.trans (hround c hc v hv).1, (hround c hc v hv).2.1⟩)
    (fun c hc v hv => (hround c hc v hv).2.2) (fun c hc d v hv hd => (hround c hc v hv).1.restart_over hd)
  exact ⟨h1, fun c hc => ⟨h3 c hc, fun hr => h2 c hr (h3 c hc)⟩⟩

end State.Reruns

/-! The release. -/

theorem State.endRemnants_of_none {s : State} {p : Nat} (h : ∀ c ∈ s.caravans p, (s.car c).remnant = []) : s.endRemnants p = s := by
  unfold State.endRemnants
  split
  · rfl
  · rename_i e _
    have hnone : e.cmds.filter (fun m => m.op = 0x10 && (s.caravans p).any (fun c => ((s.car c).remnantOf m.off).isSome)) = [] := by
      rw [List.filter_eq_nil_iff]
      intro m _
      simp only [Bool.and_eq_true, List.any_eq_true, not_and, not_exists]
      rintro - c hc
      simp [Car.remnantOf, h c hc]
    rw [hnone]
    rfl

/-- With no hold of known length of a source in force, its release leaves none of it. -/
theorem State.part_unhold {s : State} {p src : Nat} (h : ∀ x ∈ (s.part p).holds.filter (·.src = src), x.left = none) :
    (s.unhold p src).part p = { s.part p with
      holds := (s.part p).holds.filter (·.src ≠ src)
      merged := (s.part p).merged && !((s.part p).holds.filter (·.src ≠ src)).isEmpty } := by
  have hf : (s.part p).holds.filter (fun x => x.src != src || x.left.isSome) = (s.part p).holds.filter (·.src ≠ src) := by
    refine List.filter_congr fun x hx => ?_
    by_cases hs : x.src = src
    · have := h x (List.mem_filter.mpr ⟨hx, by simpa using hs⟩)
      simp [hs, this]
    · simp [hs]
  unfold State.unhold
  rw [State.part_updPart_same]
  dsimp only
  rw [hf]

/-- At the end of merged holds the rest stop under source 8; else a realignment changes no hold (R129). -/
theorem State.holds_realign (s0 s : State) (p n : Nat) :
    ((s0.realign s p n).part p).holds =
      if n ≠ 0 && (s0.part p).merged && (s.part p).holds.isEmpty then [⟨8, some n⟩] else (s.part p).holds := by
  have hcond : ((s0.part p).merged && !s.held p && decide (n ≠ 0)) = (decide (n ≠ 0) && (s0.part p).merged && (s.part p).holds.isEmpty) := by
    rw [State.held, Bool.not_not, Bool.and_comm, Bool.and_assoc]
  rw [State.part_realign, hcond]
  split <;> rfl

/-- A released source is in force no more, and source 8 is when it was or the realignment raised it. -/
theorem State.hasHold_released {s0 s : State} {p src n : Nat} (h8 : src ≠ 8)
    (h : ∀ x ∈ (s.part p).holds.filter (·.src = src), x.left = none) :
    (s0.realign (s.unhold p src) p n).hasHold p src = false ∧
      (s0.realign (s.unhold p src) p n).hasHold p 8 =
        (s.hasHold p 8 || (n ≠ 0 && (s0.part p).merged && ((s.part p).holds.filter (·.src ≠ src)).isEmpty)) := by
  have hstay : ((s.part p).holds.filter (·.src ≠ src)).any (·.src = 8) = s.hasHold p 8 := by
    unfold State.hasHold
    rw [List.any_filter]
    congr 1
    funext x
    by_cases hx : x.src = 8 <;> simp [hx, Ne.symm h8]
  unfold State.hasHold at hstay ⊢
  rw [State.holds_realign, State.part_unhold h]
  dsimp only
  generalize (decide (n ≠ 0) && (s0.part p).merged && ((s.part p).holds.filter (·.src ≠ src)).isEmpty) = gap
  cases gap with
  | true => simp [Ne.symm h8]
  | false =>
    refine ⟨?_, by simpa using hstay⟩
    simp

/-- The state after the passes of source 4 have run again. -/
def State.rerunAll (s : State) (p : Nat) : State := (s.caravans p).foldl (fun t c => t.rerunCar p c) s

/-- HOLD_END is the run-down of a known length, the release of source 1, or the release of source 4 once the passes have run again. -/
theorem State.holdEnd_known {s : State} {p src k n : Nat} {e : Exec} {hd : Hold} (he : s.exec? p = some e) (hf : e.fault = none)
    (hfind : (((s.part p).holds.filter (·.src = src)).find? (·.left.isNone)).orElse
      (fun _ => ((s.part p).holds.filter (·.src = src)).head?) = some hd) (hn : hd.left = some n) :
    s.holdEnd p src k = s.realign (s.runDown p n) p k := by
  unfold State.holdEnd
  simp only [State.stopped_of_no_fault he hf, Bool.false_and, Bool.false_eq_true, if_false, hfind, hn]

theorem State.holdEnd_late {s : State} {p k : Nat} {e : Exec} {hd : Hold} (he : s.exec? p = some e) (hf : e.fault = none)
    (hfind : (((s.part p).holds.filter (·.src = 1)).find? (·.left.isNone)).orElse
      (fun _ => ((s.part p).holds.filter (·.src = 1)).head?) = some hd) (hn : hd.left = none) (hl : s.lateStill p = false)
    (hw : e.waiting = none) :
    s.holdEnd p 1 k = s.realign (s.unhold p 1) p k := by
  have hwait : ((s.realign (s.unhold p 1) p k).exec? p).bind (·.waiting) = none := by
    rw [State.exec_realign, State.exec_unhold, he]
    exact hw
  unfold State.holdEnd
  simp only [State.stopped_of_no_fault he hf, Bool.false_and, Bool.false_eq_true, if_false, hfind, hn, hl, hwait]

theorem State.holdEnd_restart {s : State} {p k : Nat} {e : Exec} {hd : Hold} (he : s.exec? p = some e) (hf : e.fault = none)
    (hfind : (((s.part p).holds.filter (·.src = 4)).find? (·.left.isNone)).orElse
      (fun _ => ((s.part p).holds.filter (·.src = 4)).head?) = some hd) (hn : hd.left = none)
    (hp : ((s.rerunAll p).part p).prev = none) (hr : (s.rerunAll p).endRemnants p = s.rerunAll p) :
    s.holdEnd p 4 k = s.realign ((s.rerunAll p).unhold p 4) p k := by
  have hfold : (s.caravans p).foldl (fun t c => t.rerunCar p c) s = s.rerunAll p := rfl
  unfold State.holdEnd
  simp only [State.stopped_of_no_fault he hf, Bool.false_and, Bool.false_eq_true, if_false, hfind, hn, hfold, hp, hr]

theorem State.exec_runDown (s : State) (p n : Nat) : (s.runDown p n).exec? p = s.exec? p := by
  unfold State.exec?
  rw [State.part_runDown]

theorem State.noneAtEnd_of_listed {s : State} {c : Nat}
    (h : ∀ x ∈ s.banks, x.1 / 336 = c → ∀ u ∈ (s.car c).runs, x.2.tile ≠ u.lastUsed (x.1 / 42) ∨ x.2.done ≠ 32) : s.NoneAtEnd c :=
  fun _ hk hin => h _ (State.mem_banks hin) hk

/-- Settles O28: a known length is counted down; the passes of the caravans that restarted run again, each in its own banks; a hold whose
cause is gone is released; and a realignment then finds the holds it is merged with over. -/
theorem holdsEnd : Obligations.HoldsEnd := by
  unfold Obligations.HoldsEnd
  intro s p src k hd e hs gap _ he hf hfind
  have hframe : s.Within p [.csr, .parts, .free] s := .refl ..
  refine ⟨fun n hn => ?_, fun hn h4 hnone hprev hrem hend => ?_, fun hn h1 hnone hl hw => ?_⟩
  · have hw := (hframe.runDown (n := n) (by decide) (by decide)).realign (s0 := s) (n := k.val) (by decide) (by decide) (by decide)
    have hhe := State.holdEnd_known (k := k.val) he hf hfind hn
    refine ⟨_, (answer_eq s fun s => s.holdEnd p src k : exec (.holdEnd p src k) s = _), ?_, ?_, ?_, ?_⟩
    · rw [hhe]
      exact (State.exec_realign ..).trans ((State.exec_runDown ..).trans he)
    · rw [hhe]
      refine (State.holds_realign ..).trans ?_
      rw [State.part_runDown]
      rfl
    · rw [hhe]
      exact (State.holdCycles_realign ..).trans (State.holdCycles_runDown ..)
    · rw [hhe]
      exact ⟨hw.answered.part, hw.answered.comps⟩
  · obtain ⟨hr, hcars⟩ := State.Reruns.rerunCars (cs := s.caravans p) hprev fun c hc hre => State.noneAtEnd_of_listed (hend c hc hre)
    change s.Reruns p _ (s.rerunAll p) at hr
    change ∀ c ∈ s.caravans p, ((s.rerunAll p).car c).restart = false ∧
      ((s.car c).restart = true → s.FilledReadable (s.rerunAll p) c) at hcars
    obtain ⟨x, hx⟩ := hr.part
    have hno : (s.rerunAll p).endRemnants p = s.rerunAll p := State.endRemnants_of_none fun c hc => by
      rw [hr.remnant]
      exact hrem c (hr.caravans ▸ hc)
    simp only [hs, h4] at hfind hnone
    have hhe := State.holdEnd_restart (k := k.val) he hf hfind hn (hr.prev.trans hprev) hno
    obtain ⟨hh4, hh8⟩ := State.hasHold_released (s0 := s) (s := s.rerunAll p) (p := p) (src := 4) (n := k) (by decide)
      (by rw [hx]; exact hnone)
    have hw := (hr.within.unhold (src := 4) (by decide)).realign (s0 := s) (n := k.val) (by decide) (by decide) (by decide)
    refine ⟨_, (answer_eq s fun s => s.holdEnd p src k : exec (.holdEnd p src k) s = _), ?_⟩
    rw [h4, hhe]
    have hfr : (s.rerunAll p).Within p [.csr, .parts, .free] (s.realign ((s.rerunAll p).unhold p 4) p k) :=
      ((State.Within.refl ..).unhold (by decide)).realign (by decide) (by decide) (by decide)
    have hcar (c : Nat) : (s.realign ((s.rerunAll p).unhold p 4) p k).car c = (s.rerunAll p).car c :=
      congrArg (Map.get Car.idle · c) (hfr.comps .cars (by decide))
    have hbank (j : Nat) : (s.realign ((s.rerunAll p).unhold p 4) p k).bank j = (s.rerunAll p).bank j :=
      congrArg (Map.get Bank.empty · j) (hfr.comps .banks (by decide))
    have hentry (j : Nat) : (s.realign ((s.rerunAll p).unhold p 4) p k).entry j = (s.rerunAll p).entry j :=
      congrArg (Map.get Entry.zero · j) (hfr.comps .tally (by decide))
    refine ⟨hh4, hh8.trans ?_, fun c hc => ?_, fun c hc hre j off u hj hst hu => ?_, fun j hj => ?_, fun j hj => ?_,
      hw.answered.part, hw.answered.comps⟩
    · unfold State.hasHold
      rw [hx]
    · exact (congrArg Car.restart (hcar c)).trans (hcars c hc).1
    · exact (hbank j).trans (hr.bank_eq ((hcars c hc).2 hre j off u hj hst hu))
    · exact (hbank j).trans ((hr.bank j).resolve_right fun h => hj _ h.1.1 h.1.2 rfl)
    · exact (hentry j).trans (hr.entry j fun h => hj _ h.1 h.2 rfl)
  · have hw' := (hframe.unhold (src := 1) (by decide)).realign (s0 := s) (n := k.val) (by decide) (by decide) (by decide)
    simp only [hs, h1] at hfind hnone
    have hhe := State.holdEnd_late (k := k.val) he hf hfind hn hl hw
    refine ⟨_, (answer_eq s fun s => s.holdEnd p src k : exec (.holdEnd p src k) s = _), ?_⟩
    rw [h1, hhe]
    refine ⟨(State.hasHold_released (by decide) hnone).1, ?_, hw'.answered.part, hw'.answered.comps⟩
    exact (State.exec_realign ..).trans ((State.exec_unhold ..).trans he)

end Sys2Proof.Machine
end

section
/-!
PROOFS. What reads a finished tile, or writes rows through the windows, leaves the tallies and their banks alone (R50, R66).
-/
namespace Sys2Proof.Machine

/-- Rows have been written and counted; no entry and no bank has changed. -/
structure State.Written (p : Nat) (s t : State) : Prop where
  work : s.TileWork p t
  tally : t.tally = s.tally
  banks : t.banks = s.banks

namespace State.Written
variable {p : Nat} {s t u : State}

theorem refl (s : State) : s.Written p s := ⟨.refl s, rfl, rfl⟩

theorem trans (h : s.Written p t) (k : t.Written p u) : s.Written p u :=
  ⟨h.work.trans k.work, k.tally.trans h.tally, k.banks.trans h.banks⟩

theorem ite {c : Prop} [Decidable c] (ht : s.Written p t) (hu : s.Written p u) : s.Written p (if c then t else u) := by
  split
  · exact ht
  · exact hu

theorem foldl {α : Type} {f : State → α → State} {l : List α} (h : s.Written p t)
    (hf : ∀ a ∈ l, ∀ t, s.Written p t → s.Written p (f t a)) : s.Written p (l.foldl f t) :=
  List.foldlRecOn l f h fun t ht a ha => hf a ha t ht

/-- The same for a loop that carries more than the state. -/
theorem foldlFst {α β : Type} {f : State × β → α → State × β} {l : List α} {x : State × β} (h : s.Written p x.1)
    (hf : ∀ x a, s.Written p x.1 → s.Written p (f x a).1) : s.Written p (l.foldl f x).1 := by
  induction l generalizing x with
  | nil => exact h
  | cons a l ih => exact ih (hf x a h)

theorem entry (h : s.Written p t) (k : Nat) : t.entry k = s.entry k := by unfold State.entry; rw [h.tally]
theorem bank (h : s.Written p t) (k : Nat) : t.bank k = s.bank k := by unfold State.bank; rw [h.banks]

/-! The elementary updates. -/

theorem count {r n} (h : s.Written p t) (hr : 0x100 ≤ r.off % 0x1000) : s.Written p (t.count r n) :=
  h.trans ⟨(TileWork.refl t).count hr, rfl, rfl⟩

theorem setByte {a b} (h : s.Written p t) : s.Written p (t.setByte a b) := h.trans ⟨(TileWork.refl t).setByte, rfl, rfl⟩

theorem updExec {f} (h : s.Written p t) : s.Written p (t.updExec p f) :=
  h.trans ⟨(TileWork.refl t).updExec, State.updExec_tally .., State.updExec_banks ..⟩

theorem setExec {e} (h : s.Written p t) : s.Written p (t.setExec p e) := h.trans ⟨(TileWork.refl t).setExec, rfl, rfl⟩

theorem hold {src len} (h : s.Written p t) (hs : src < 10) : s.Written p (t.hold p src len) :=
  h.trans ⟨(TileWork.refl t).hold hs, State.hold_tally .., State.hold_banks ..⟩

theorem excess {cls} (h : s.Written p t) : s.Written p (t.excess p cls) := by
  unfold State.excess
  split
  · exact h
  · exact .ite ((h.hold (by decide)).count (by simp only [Csr.prtLatency_excessCompletions, Csr.prtLatency]; omega)) h

theorem useClass {cls v} (h : s.Written p t) : s.Written p (t.useClass p cls v) := by
  unfold State.useClass
  split
  · exact h
  · exact .ite h.setExec (h.setExec.hold (by decide))

theorem rangeEvents {c stn ovf unf} (h : s.Written p t) : s.Written p (t.rangeEvents p c stn ovf unf) := by
  unfold State.rangeEvents
  extract_lets t1
  have h1 : s.Written p t1 :=
    .ite h (h.count (by simp only [Csr.stnRangeOut_ovfCount, Csr.stnRangeOut]; omega)).updExec
  exact .ite h1 (h1.count (by simp only [Csr.stnRangeOut_unfCount, Csr.stnRangeOut]; omega)).updExec

/-! The mesh. -/

/-- Traffic of a router that reaches every memory moves counters. -/
theorem meshTo {store a pa n} (h : s.Written p t) (hj : s.Joined a) (ha : a.OnMesh) : s.Written p (t.meshTo store a pa n) := by
  have hr := meshTo_regsOnly (s := t) store pa n (h.work.tables.joined hj) ha
  exact h.trans ⟨(TileWork.refl t).meshTo (h.work.tables.joined hj) ha.2, hr.2 .tally (by decide), hr.2 .banks (by decide)⟩

theorem meshRow {store a g va n} (h : s.Written p t) (hj : s.Joined a) (ha : a.OnMesh) :
    s.Written p (t.meshRow store a p g va n) := by
  unfold State.meshRow
  split
  · exact h.meshTo hj ha
  · exact h

theorem rtrOfCar_onMesh {c : Nat} (hc : c < 24) : (rtrOfCar c).OnMesh :=
  memRtrs_onMesh _ (List.mem_append_left _ (List.mem_append_right _ (List.mem_map_of_mem (List.mem_range.mpr hc))))

theorem sendMesh {k a b pl n} (h : s.Written p t) (ha : a.OnMesh) (hb : b.OnMesh) : s.Written p (t.sendMesh k a b pl n) := by
  have hr := sendMesh_regsOnly t k pl n ha hb
  exact h.trans ⟨(TileWork.refl t).sendMesh ha.2 hb.2, hr.2 .tally (by decide), hr.2 .banks (by decide)⟩

/-- One caravan fetches bytes from a memory that it reaches. -/
theorem fetchRange {c pa n} (h : s.Written p t) (hj : s.Joined (rtrOfCar c)) (hc : c < 24) : s.Written p (t.fetchRange [c] pa n) := by
  have hg := rtrOfCar_onMesh hc
  unfold State.fetchRange
  split
  · rename_i c' more r he hr
    obtain ⟨rfl, rfl⟩ := List.cons.inj he
    have hm := rtrOfPa_mem_memRtrs hr
    have hb := memRtrs_onMesh r hm
    dsimp only
    split
    · exact h
    · rename_i hne
      have hrc : r ≠ rtrOfCar c := fun he => hne (by simp [he])
      obtain ⟨hto, hback⟩ := (h.work.tables.joined hj) r hm hrc _ (planeOf_lt pa)
      simp only [List.any_cons, List.any_nil, hto, hback, hrc, Bool.not_true, Bool.or_false, Bool.false_eq_true, if_false,
        List.isEmpty_nil, if_true]
      exact (h.sendMesh hg hb).sendMesh hb hg
  · exact h

theorem fetchRows {c rs} (h : s.Written p t) (hj : s.Joined (rtrOfCar c)) (hc : c < 24) : s.Written p (t.fetchRows [c] rs) :=
  h.foldl fun _ _ _ h1 => h1.foldl fun _ _ _ h2 => h2.fetchRange hj hc

theorem fetchVecs {g ds} (h : s.Written p t) (hj : s.Joined (rtrOfCar (g / 8))) (hg : g / 8 < 24) :
    s.Written p (t.fetchVecs p [g] ds) := by
  refine h.foldl fun c hc _ h1 => h1.foldl fun _ _ _ h2 => .ite h2 ?_
  obtain rfl : c = g / 8 := by simpa using hc
  exact h2.fetchRows hj hg

/-! Rows and tiles written. -/

theorem setVbyte {g va b} (h : s.Written p t) : s.Written p (t.setVbyte p g va b) := by
  unfold State.setVbyte
  split
  · exact h.setByte
  · exact h

theorem setVbytes {g va bs} (h : s.Written p t) : s.Written p (t.setVbytes p g va bs) := by
  induction bs generalizing t va with
  | nil => exact h
  | cons b bs ih => exact ih h.setVbyte

theorem writeRow {g d k j col0 row col vs} (h : s.Written p t) (hj : s.Joined (rtrOfCar (g / 8))) (hg : g / 8 < 24) :
    s.Written p (t.writeRow p g d k j col0 row col vs).1 := by
  have ha := rtrOfCar_onMesh hg
  unfold State.writeRow
  dsimp only
  split
  · exact foldlFst ((h.meshRow hj ha).meshRow hj ha) fun _ _ h1 => h1.setVbytes.setVbyte
  · exact foldlFst (h.meshRow hj ha) fun _ _ h1 => h1.setVbytes

theorem drainTile {g key hi k d rs cs} (h : s.Written p t) (hj : s.Joined (rtrOfCar (g / 8))) (hg : g / 8 < 24) :
    s.Written p (t.drainTile p g key hi k d rs cs) :=
  h.foldl fun _ _ _ h1 => .ite (h1.writeRow hj hg).rangeEvents h1

end State.Written
end Sys2Proof.Machine
end

section
/-!
PROOFS. MERGE_COMPLETE (R112): the entries of a group's first bank take the exact sums, the group's other banks are released, and the
tile is held or drained.
-/
namespace Sys2Proof.Machine

/-! The stations of a group (R111). -/

theorem Run.inj_lt (u : Run) : u.inj < 8 := bitsOf_lt _ _ _

/-- The group numbered grp, counted from the injection station, begins at its own first station. -/
theorem Run.kGroup_eq {u : Run} {c grp : Nat} (h : grp * u.s < 8) :
    u.kGroup (c * 8 + (u.inj + grp * u.s) % 8) = (List.range u.s).map (fun i => c * 8 + (u.inj + grp * u.s + i) % 8) := by
  have hs : 0 < u.s := lt_of_lt_of_le Nat.one_pos (le_max_right _ _)
  have hoff : u.off8 (c * 8 + (u.inj + grp * u.s) % 8) = grp * u.s := by
    have := u.inj_lt
    unfold Run.off8
    omega
  have hcar : (c * 8 + (u.inj + grp * u.s) % 8) / 8 = c := by omega
  unfold Run.kGroup
  rw [hoff, hcar, Nat.mul_div_cancel _ hs]

theorem Run.nodup_kGroup {u : Run} {c grp : Nat} (h : grp * u.s < 8) (hs : u.s ≤ 8) :
    (u.kGroup (c * 8 + (u.inj + grp * u.s) % 8)).Nodup := by
  rw [Run.kGroup_eq h]
  refine List.Nodup.map_on (fun i hi j hj hij => ?_) List.nodup_range
  rw [List.mem_range] at hi hj
  omega

theorem Run.kGroup_cons {u : Run} {c grp : Nat} (h : grp * u.s < 8) :
    u.kGroup (c * 8 + (u.inj + grp * u.s) % 8) =
      (c * 8 + (u.inj + grp * u.s) % 8) :: (u.kGroup (c * 8 + (u.inj + grp * u.s) % 8)).tail := by
  have hs : u.s ≠ 0 := Nat.ne_of_gt (lt_of_lt_of_le Nat.one_pos (le_max_right _ _))
  obtain ⟨n, hn⟩ := Nat.exists_eq_succ_of_ne_zero hs
  rw [Run.kGroup_eq h, hn, List.range_succ_eq_map]
  rfl

/-- A pass fills one bank at each station. -/
theorem Run.key_injective (u : Run) {g h pi : Nat} (hk : u.key h pi = u.key g pi) : h = g := by
  unfold Run.key bankKey at hk
  omega

/-! Writes of many entries. -/

theorem entryKey_injective {k r c r' c' : Nat} (hc : c < 128) (hc' : c' < 128)
    (h : entryKey k r c = entryKey k r' c') : (r, c) = (r', c') := by
  unfold entryKey at h
  rw [Prod.mk.injEq]
  omega

/-- Entries written one after another, none read by another's value, hold the values of the first state. -/
theorem foldl_setEntry {α : Type} (key : α → Nat) (val : State → α → Entry) (s : State) (l : List α) (hnd : l.Nodup)
    (hkey : ∀ x ∈ l, ∀ y ∈ l, key x = key y → x = y)
    (hval : ∀ x ∈ l, ∀ y ∈ l, y ≠ x → ∀ t e, val (State.setEntry t (key y) e) x = val t x) :
    (∀ x ∈ l, (l.foldl (fun s x => s.setEntry (key x) (val s x)) s).entry (key x) = val s x) ∧
      ∀ k, (∀ x ∈ l, k ≠ key x) → (l.foldl (fun s x => s.setEntry (key x) (val s x)) s).entry k = s.entry k := by
  induction l generalizing s with
  | nil => exact ⟨fun x hx => (nomatch hx), fun _ _ => rfl⟩
  | cons a l ih =>
    obtain ⟨hal, hl⟩ := List.nodup_cons.mp hnd
    obtain ⟨h1, h2⟩ := ih (s.setEntry (key a) (val s a)) hl (fun x hx y hy => hkey x (.tail _ hx) y (.tail _ hy))
      (fun x hx y hy => hval x (.tail _ hx) y (.tail _ hy))
    refine ⟨fun x hx => ?_, fun k hk => ?_⟩
    · obtain rfl | hx := List.mem_cons.mp hx
      · refine (h2 _ fun y hy he => ?_).trans (by rw [State.entry_setEntry, if_pos rfl])
        exact hal (hkey x (.head _) y (.tail _ hy) he ▸ hy)
      · exact (h1 x hx).trans (hval x (.tail _ hx) a (.head _) (fun he => hal (he ▸ hx)) s _)
    · refine (h2 k fun x hx => hk x (.tail _ hx)).trans ?_
      rw [State.entry_setEntry, if_neg (Ne.symm (hk a (.head _)))]

/-! The sums. -/

/-- The exact sum of a group's entries at a place of the tile. -/
def State.groupSum (s : State) (u : Run) (rest : List Nat) (k0 pi : Nat) (x : Nat × Nat) : Acc :=
  rest.foldl (fun (a : Acc) h => a.add (frameUnit u.w32) ((s.entry (entryKey (u.key h pi) x.1 x.2)).val u.w32))
    (s.entry (entryKey k0 x.1 x.2)).acc

/-- The places of a bank's fed rows. -/
def Bank.places (b : Bank) : List (Nat × Nat) := ((List.range 32).filter b.fed).flatMap fun r => (List.range 128).map fun c => (r, c)

theorem Bank.mem_places {b : Bank} {x : Nat × Nat} : x ∈ b.places ↔ x.1 < 32 ∧ b.fed x.1 = true ∧ x.2 < 128 := by
  obtain ⟨r, c⟩ := x
  simp only [Bank.places, List.mem_flatMap, List.mem_filter, List.mem_range, List.mem_map, Prod.mk.injEq]
  constructor
  · rintro ⟨r', ⟨hr, hf⟩, c', hc, rfl, rfl⟩
    exact ⟨hr, hf, hc⟩
  · rintro ⟨hr, hf, hc⟩
    exact ⟨r, ⟨hr, hf⟩, c, hc, rfl, rfl⟩

theorem Bank.nodup_places (b : Bank) : b.places.Nodup := by
  refine List.nodup_flatMap.mpr ⟨fun r _ => ?_, ?_⟩
  · exact List.nodup_range.map fun c c' h => (Prod.mk.inj h).2
  · refine ((List.nodup_range.filter _).pairwise_of_forall_ne fun r _ r' _ hne => ?_)
    intro x hx hx'
    obtain ⟨_, _, rfl⟩ := List.mem_map.mp hx
    obtain ⟨_, _, he⟩ := List.mem_map.mp hx'
    exact hne (Prod.mk.inj he).1.symm

/-- A fed row is one of the 32 of the bank. -/
theorem Bank.lt_of_fed {b : Bank} {r : Nat} (h : b.fed r = true) : r < 32 := by
  unfold Bank.fed at h
  simp only [Bool.and_eq_true] at h
  by_contra hr
  rw [BitVec.getLsbD_of_ge _ _ (by omega)] at h
  exact absurd h.1 (by decide)

/-- The entries of the group's first bank written with the sums. -/
def State.mergeSums (s : State) (u : Run) (rest : List Nat) (k0 pi : Nat) : State :=
  (s.bank k0).places.foldl (fun s x => s.setEntry (entryKey k0 x.1 x.2) (entryOf u.w32 (s.groupSum u rest k0 pi x))) s

theorem State.entry_mergeSums {s : State} {u : Run} {rest : List Nat} {g pi : Nat} (hrest : g ∉ rest) :
    (∀ x ∈ (s.bank (u.key g pi)).places, (s.mergeSums u rest (u.key g pi) pi).entry (entryKey (u.key g pi) x.1 x.2) =
      entryOf u.w32 (s.groupSum u rest (u.key g pi) pi x)) ∧
    ∀ k, (∀ x ∈ (s.bank (u.key g pi)).places, k ≠ entryKey (u.key g pi) x.1 x.2) →
      (s.mergeSums u rest (u.key g pi) pi).entry k = s.entry k := by
  unfold State.mergeSums
  have hnd := (s.bank (u.key g pi)).nodup_places
  have hmem {x : Nat × Nat} (hx : x ∈ (s.bank (u.key g pi)).places) : x.1 < 32 ∧ x.2 < 128 :=
    ⟨(Bank.mem_places.mp hx).1, (Bank.mem_places.mp hx).2.2⟩
  generalize (s.bank (u.key g pi)).places = l at hnd hmem ⊢
  refine foldl_setEntry (fun x : Nat × Nat => entryKey (u.key g pi) x.1 x.2)
    (fun s x => entryOf u.w32 (s.groupSum u rest (u.key g pi) pi x)) s l hnd (fun x hx y hy he => ?_) (fun x hx y hy hne t e => ?_)
  · obtain ⟨hx1, hx2⟩ := hmem hx
    obtain ⟨hy1, hy2⟩ := hmem hy
    exact entryKey_injective hx2 hy2 he
  · obtain ⟨hx1, hx2⟩ := hmem hx
    obtain ⟨hy1, hy2⟩ := hmem hy
    have hown : entryKey (u.key g pi) y.1 y.2 ≠ entryKey (u.key g pi) x.1 x.2 := fun he =>
      hne (entryKey_injective hy2 hx2 he)
    have hother : ∀ h ∈ rest, entryKey (u.key g pi) y.1 y.2 ≠ entryKey (u.key h pi) x.1 x.2 := fun h hh he => by
      have hk : u.key g pi = u.key h pi := by
        rw [← entryKey_div (key := u.key g pi) hy1 hy2, he, entryKey_div hx1 hx2]
      exact hrest (u.key_injective hk ▸ hh)
    unfold State.groupSum
    rw [State.entry_setEntry, if_neg hown]
    congr 1
    refine List.foldl_ext _ _ _ fun a h hh => ?_
    rw [State.entry_setEntry, if_neg (hother h hh)]

/-! The merge. -/

/-- The other banks of the group, released or free (R112, R172). -/
def State.dropBanks (s : State) (u : Run) (hs : List Nat) (pi : Nat) : State :=
  hs.foldl (fun s h => s.setBank (u.key h pi) { Bank.empty with st := if u.f 24 12 = 0 then .released else .free }) s

theorem State.bank_dropBanks (s : State) (u : Run) (hs : List Nat) (pi : Nat) :
    (∀ h ∈ hs, (s.dropBanks u hs pi).bank (u.key h pi) = { Bank.empty with st := if u.f 24 12 = 0 then .released else .free }) ∧
      ∀ k, (∀ h ∈ hs, k ≠ u.key h pi) → (s.dropBanks u hs pi).bank k = s.bank k := by
  obtain ⟨h1, h2⟩ := foldl_reaches (l := hs) (t := s)
    (f := fun s h => s.setBank (u.key h pi) { Bank.empty with st := if u.f 24 12 = 0 then .released else .free })
    (R := fun t => ∀ k, (∀ h ∈ hs, k ≠ u.key h pi) → t.bank k = s.bank k)
    (P := fun h t => t.bank (u.key h pi) = { Bank.empty with st := if u.f 24 12 = 0 then .released else .free })
    (fun _ _ => rfl) (fun h hh t ht k hk => by rw [State.bank_setBank, if_neg (Ne.symm (hk h hh)), ht k hk])
    (fun h _ t _ => by rw [State.bank_setBank, if_pos rfl])
    (fun h _ h' t _ ht => by
      rw [State.bank_setBank]
      split
      · rfl
      · exact ht)
  exact ⟨h2, h1⟩

theorem State.exec_excess {s : State} {p cls : Nat} : (s.excess p cls).exec? p = s.exec? p := by
  unfold State.excess
  split
  · rfl
  · dsimp only
    split
    · rw [State.count_exec_acc, State.exec_hold]
    · rfl

/-- A merge with equal copies writes the sums, drops the other banks and finishes the tile. -/
theorem State.completeMerge_eq {s : State} {p g pi n : Nat} {u : Run} {e : Exec} (he : s.exec? p = some e)
    (hhead : u.kGroup g = g :: (u.kGroup g).tail)
    (hd : s.copiesDiffer (s.bank (u.key g pi))
      (u.key g pi :: ((u.kGroup g).tail.filter (fun h => u.off8 h % u.s < u.tiles)).map (fun h => u.key h pi)) = false) :
    s.completeMerge p u g pi n =
      (((s.mergeSums u ((u.kGroup g).tail.filter (fun h => u.off8 h % u.s < u.tiles)) (u.key g pi) pi).dropBanks u (u.kGroup g).tail pi).excess
        p 4).finishTile p u g pi (n - e.base) := by
  have hfst : (u.kGroup g).headD g = g := by rw [hhead]; rfl
  unfold State.completeMerge
  simp only [he, hfst, hd, Bool.false_eq_true, if_false]
  unfold State.mergeSums State.dropBanks Bank.places
  rw [List.foldl_flatMap, List.foldl_filter]
  simp only [List.foldl_map]
  rfl

/-- The finished tile's bank is held or drains, and nothing else of the tallies changes. -/
theorem State.finishTile_banks {s : State} {p g pi last : Nat} {u : Run} {e : Exec} (he : s.exec? p = some e)
    (hj : s.Joined (rtrOfCar (g / 8))) (hg : g / 8 < 24) :
    (s.finishTile p u g pi last).tally = s.tally ∧
      (∀ k, k ≠ u.key g pi → (s.finishTile p u g pi last).bank k = s.bank k) ∧
      (u.f 24 12 = 0 → ∃ m, ((s.finishTile p u g pi last).bank (u.key g pi)).st = .held m) ∧
      (u.f 24 12 ≠ 0 → ∃ m, ((s.finishTile p u g pi last).bank (u.key g pi)).st = .draining u.off m) := by
  have hbank (t : State) (x : Bank) (n k : Nat) : ((t.setBank (u.key g pi) x).tileDone p u.off n).bank k =
      if u.key g pi = k then x else t.bank k := by
    unfold State.tileDone
    rw [State.updExec_bank_acc, State.bank_setBank]
  have htally (t : State) (x : Bank) (n : Nat) : ((t.setBank (u.key g pi) x).tileDone p u.off n).tally = t.tally := by
    unfold State.tileDone
    rw [State.updExec_tally]
    rfl
  generalize ht : s.finishTile p u g pi last = t
  unfold State.finishTile at ht
  split at ht
  · rename_i hnone
    rw [he] at hnone
    cases hnone
  extract_lets key x b0 t0 t1 t2 until_ t3 t4 b5 t5 at ht
  have h3 : s.Written p t3 := (((State.Written.refl s).fetchVecs hj hg).drainTile hj hg).useClass.excess
  have h4 : s.Written p t4 := .ite h3.useClass.excess h3
  have hdst : x.pDst = u.f 24 12 := rfl
  split at ht
  · rename_i hx
    rw [hdst] at hx
    subst ht
    refine ⟨htally .., fun k hk => ?_, fun _ => ⟨_, congrArg Bank.st ((hbank ..).trans (if_pos rfl))⟩, fun h => absurd hx h⟩
    exact (hbank ..).trans (if_neg (Ne.symm hk))
  · rename_i hx
    rw [hdst] at hx
    subst ht
    refine ⟨(htally ..).trans h4.tally, fun k hk => ?_, fun h => absurd h hx, fun _ => ⟨_, congrArg Bank.st ((hbank ..).trans (if_pos rfl))⟩⟩
    exact ((hbank ..).trans (if_neg (Ne.symm hk))).trans (h4.bank k)

/-- A loop in which one round does the work: before it the others change nothing, after it none does. -/
theorem foldl_once {α : Type} {f : State → α → State} {s : State} {a : α} {l : List α} (ha : a ∈ l)
    (hother : ∀ b ∈ l, b ≠ a → f s b = s) (hafter : ∀ b ∈ l, f (f s a) b = f s a) : l.foldl f s = f s a := by
  have hrest : ∀ m : List α, m ⊆ l → m.foldl f (f s a) = f s a := fun m hm =>
    List.foldlRecOn (motive := (· = f s a)) m f rfl fun t ht b hb => by rw [ht, hafter b (hm hb)]
  induction l with
  | nil => cases ha
  | cons b l ih =>
    by_cases hb : b = a
    · subst hb
      exact hrest l fun c hc => .tail _ hc
    · rw [List.foldl_cons, hother b (.head _) hb]
      have ha' : a ∈ l := (List.mem_cons.mp ha).resolve_left fun h => hb h.symm
      exact ih ha' (fun c hc => hother c (.tail _ hc)) (fun c hc => hafter c (.tail _ hc)) fun m hm =>
        hrest m fun c hc => .tail _ (hm hc)

/-- One pass's share of `mergeDue`. -/
def State.mergePass (s : State) (p g b : Nat) (u : Run) (pi : Nat) : State :=
  if pi % 2 = b && !(s.car (g / 8)).restart then
    let bk := s.bank (u.key g pi)
    match bk.st with
    | .merging off n _ =>
      if off = u.off && bk.seq = u.seq && bk.pi = pi && n ≠ 0 && n ≤ s.pace p then s.forSeq p u.seq (fun s => s.completeMerge p u g pi n)
      else s
    | _ => s
  else s

theorem State.mergeDue_passes (s : State) (p g b : Nat) (u : Run) :
    s.mergeDue p g b u = (List.range u.passes).foldl (fun s pi => s.mergePass p g b u pi) s := rfl

/-- A pass whose bank merges for no pass, or for another one, is not due. -/
theorem State.mergePass_of_not {s : State} {p g b pi : Nat} {u : Run}
    (h : pi % 2 = b → ∀ off n d, (s.bank (u.key g pi)).st = .merging off n d → (s.bank (u.key g pi)).pi ≠ pi) :
    s.mergePass p g b u pi = s := by
  unfold State.mergePass
  split
  · rename_i hc
    simp only [Bool.and_eq_true, decide_eq_true_eq] at hc
    dsimp only
    split
    · rename_i off n d hst
      rw [if_neg]
      simp [h hc.1 off n d hst]
    · rfl
  · rfl

/-- The merge of a pass whose time has passed completes, and no other pass merges in its bank then. -/
theorem State.mergeDue_eq {s : State} {p g b pi n : Nat} {u : Run} {dr : Bool} (hprev : (s.part p).prev.map (·.seq) ≠ some u.seq)
    (hre : (s.car (g / 8)).restart = false) (hb : pi % 2 = b) (hpi : pi < u.passes) (hst : (s.bank (u.key g pi)).st = .merging u.off n dr)
    (hseq : (s.bank (u.key g pi)).seq = u.seq) (hat : (s.bank (u.key g pi)).pi = pi) (h0 : n ≠ 0) (hn : n ≤ s.pace p)
    (hafter : ∀ off m d, ((s.completeMerge p u g pi n).bank (u.key g pi)).st ≠ .merging off m d) :
    s.mergeDue p g b u = s.completeMerge p u g pi n := by
  have hkey {i : Nat} (hi : i % 2 = b) : u.key g i = u.key g pi := by
    unfold Run.key
    rw [hi, hb]
  have hround : s.mergePass p g b u pi = s.completeMerge p u g pi n := by
    unfold State.mergePass State.forSeq
    simp only [hb, hre, hst, hseq, hat, h0, hn, hprev, decide_true, Bool.not_false, Bool.and_self, if_true, if_false, ne_eq,
      not_false_eq_true]
  rw [State.mergeDue_passes, foldl_once (List.mem_range.mpr hpi) (fun i _ hne => ?_) fun i _ => ?_, hround]
  · refine State.mergePass_of_not fun hi _ _ _ _ => ?_
    rw [hkey hi, hat]
    exact Ne.symm hne
  · rw [hround]
    refine State.mergePass_of_not fun hi off m d hm => ?_
    rw [hkey hi] at hm
    exact absurd hm (hafter off m d)

/-- Settles O27: the merge's round writes the exact sums into the first bank, which no later step of it touches, and drops the others. -/
theorem mergeAddsExactly : Obligations.MergeAddsExactly := by
  unfold Obligations.MergeAddsExactly
  intro s p c b grp e u pi n dr g k0 rest hsafe he hf hprev hc hj hruns hcopies hre hs1 hs8 hgrp hb hpi hst hseq hat h0 hn
  have hhead : u.kGroup g = g :: (u.kGroup g).tail := Run.kGroup_cons hgrp
  have hnotin : g ∉ (u.kGroup g).tail := (List.nodup_cons.mp (hhead ▸ Run.nodup_kGroup hgrp hs8)).1
  have hrest : g ∉ rest := fun h => hnotin (List.mem_filter.mp h).1
  have hcar : g / 8 = c.val := by omega
  have hg : g / 8 < 24 := hcar ▸ c.isLt
  have hj' : s.Joined (rtrOfCar (g / 8)) := hcar ▸ hj
  set sums := s.mergeSums u rest k0 pi
  set v := (sums.dropBanks u (u.kGroup g).tail pi).excess p 4
  have hw : s.TileWork p v := by
    refine State.TileWork.excess (.foldl (.foldl (.refl s) fun _ _ _ h => ?_) fun _ _ _ h => ?_)
    · exact h.setEntry
    · exact h.setBank
  have hsums : s.Within p [.tally] sums := (State.Within.refl ..).foldl fun _ _ _ h => h.setEntry (by decide)
  have hdrop : sums.Within p [.banks] (sums.dropBanks u (u.kGroup g).tail pi) :=
    (State.Within.refl ..).foldl fun _ _ _ h => h.setBank (by decide)
  have hv : (sums.dropBanks u (u.kGroup g).tail pi).Written p v := (State.Written.refl _).excess
  have hev : v.exec? p = some e := by
    rw [State.exec_excess, exec_of_changes hdrop.comps (by decide), exec_of_changes hsums.comps (by decide), he]
  have heq : s.completeMerge p u g pi n = v.finishTile p u g pi (n - e.base) := State.completeMerge_eq he hhead hcopies
  obtain ⟨hd1, hd2⟩ := sums.bank_dropBanks u (u.kGroup g).tail pi
  have hsum : (∀ x ∈ (s.bank k0).places, sums.entry (entryKey k0 x.1 x.2) = entryOf u.w32 (s.groupSum u rest k0 pi x)) ∧
      ∀ k, (∀ x ∈ (s.bank k0).places, k ≠ entryKey k0 x.1 x.2) → sums.entry k = s.entry k := State.entry_mergeSums hrest
  obtain ⟨hf1, hf2, hf3, hf4⟩ := State.finishTile_banks (u := u) (pi := pi) (last := n - e.base) hev (hw.tables.joined hj') hg
  have hfin : s.TileWork p (v.finishTile p u g pi (n - e.base)) := hw.finishTile hj'
  have hentry (k : Nat) : (v.finishTile p u g pi (n - e.base)).entry k = sums.entry k :=
    (congrArg (Map.get Entry.zero · k) hf1).trans ((hv.entry k).trans (congrArg (Map.get Entry.zero · k) (hdrop.comps .tally (by decide))))
  generalize v.finishTile p u g pi (n - e.base) = t at heq hf1 hf2 hf3 hf4 hfin hentry
  clear_value v sums
  have hdue : exec (.mergeComplete p c b grp) s = .next { t with pending := s.pending } := by
    have hstop := State.stopped_of_no_fault he hf
    have hmine : (s.caravans p).contains c.val = true := List.contains_iff_mem.mpr hc
    have hin : ¬(u.s = 1 ∨ 8 ≤ grp.val * u.s) := by omega
    have hrun : s.mergeComplete p c b grp = s.mergeDue p g b u := by
      unfold State.mergeComplete
      rw [hstop, hsafe, hmine, hruns]
      simp [hin, g]
    refine (answer_eq s fun s => s.mergeComplete p c b grp).trans ?_
    rw [hrun, State.mergeDue_eq hprev (hcar ▸ hre) hb hpi hst hseq hat h0 hn, heq]
    rw [heq]
    intro off m d hm
    by_cases hz : u.f 24 12 = 0
    · obtain ⟨_, h⟩ := hf3 hz
      cases h.symm.trans hm
    · obtain ⟨_, h⟩ := hf4 hz
      cases h.symm.trans hm
  refine ⟨_, hdue, fun r cc hr hcc => ?_, fun k hk => ?_, fun h hh => ?_, hf3, hf4, hfin.part⟩
  · exact (hentry _).trans (hsum.1 (r, cc) (Bank.mem_places.mpr ⟨Bank.lt_of_fed hr, hr, hcc⟩))
  · refine (hentry k).trans (hsum.2 k fun x hx => ?_)
    obtain ⟨hx1, -, hx2⟩ := Bank.mem_places.mp hx
    exact hk x.1 x.2 hx1 hx2
  · have hne : u.key h pi ≠ u.key g pi := fun he => hnotin (u.key_injective he ▸ hh)
    exact (hf2 _ hne).trans ((hv.bank _).trans (hd1 h hh))

end Sys2Proof.Machine
end

section
/-!
PROOFS. COMMAND_COMPLETE with stray caravans. The statement bounds no number of a caravan map, and register numbers of caravans and of halves
that the device does not have fall on each other: DRV_STATUS of caravan 32 is MSH_LINKFAULT of half 14, where caravan 168 lies. So when a
mortar command of both completes, the drover's status, written as the command's reads close (R215), fails every link of caravan 168, and
its first row fences the memory that it can no longer reach (R243).
-/
namespace Sys2Proof.Machine

/-- Rows of n bytes, `stride` apart. -/
def strayDesc (base rows n stride : Nat) : List Byte :=
  leBytes 8 base ++ leBytes 8 0 ++ leBytes 4 rows ++ leBytes 4 n ++ leBytes 8 stride ++ leBytes 4 1 ++ List.replicate 28 0

/-- A REDUCE over empty rows of the satchels, one a station, into rows 1 MiB apart. -/
def strayReduce : Cmd :=
  { off := 0, op := 0x31, h := ⟨0, 0, 0, 0, false, false, 4, 0, 0x83⟩, w1 := 0, units := [], start := some 0, done := some 0, prog := 0,
    left := 0, descs := [strayDesc 0x40000000 1 0 0, [], strayDesc 0 1000 2 0x100000, []] }

/-- The order it belongs to. -/
def strayExec : Exec :=
  { seq := 1, base := 0, hdr := 0, issuePace := 0, off := 16, ended := false, endOff := none, waiting := none, cmds := [strayReduce],
    region := none, committed := false, outcome := 0, pending := false, voteOff := none, direct := none, upds := [], sent := [],
    sticky := 0, loss := none, timing := [], clip := 0, step := 0, seed := 0, sigs := [], coupledWait := false, fault := none,
    partFault := false, cancelled := false, execs := 1, normNew := none, dests := [], lastUse := [], marks := [], tagAfter := none,
    saveBad := [], kept := none, keptQ := none }

/-- Window i of partition 0, readable, of some pages of 2 MiB. -/
def strayWindow (i va pages pa : Nat) : List (Nat × Word) :=
  [(Csr.prtWinVa 0 i, BitVec.ofNat 64 (3 + va + pages * 2 ^ 48)), (Csr.prtWinPa 0 i, BitVec.ofNat 64 pa)]

/-- A transfer of another order by a thread of the drover. -/
def strayXfer (thread : Nat) : Xfer := ⟨0, 0, 2, 0, 0, 0, 0, 0, 0, false, thread, false, false⟩

/-- A partition whose caravan map names caravans 32 and 168. Of the REDUCE's rows, only the first of caravan 168 has a place: the depot of
caravan 5. Threads 7 and 8 and 128 transfers outstanding are the bits of the links of caravan 168's router. -/
def strayMortar : State :=
  { State.reset with
    csr := strayWindow 0 0 128 0x100500000000 ++ strayWindow 1 0x10000000 1 (depotBase 5) ++
      strayWindow 2 0x12000000 256 0x100500000000 ++ strayWindow 3 0x40000000 1 aliasBase
    parts := [(0, { Part.none with cmap := [32, 168], exec := some strayExec })]
    cars := [(32, { Car.idle with
      xfers := [strayXfer 7, strayXfer 8], reads := [⟨0, 0, 2, 0, 0, List.replicate 126 (0, 1), [], false⟩] })] }

/-- Memory is joined to a router of any half without a fault, when the device's mesh is whole. -/
theorem joined_of_halfWhole {s : State} (hs : s.meshWhole = true) {a : Rtr} (ha : s.HalfWhole a.half) (hc : a.col < 8) : s.Joined a := by
  intro r hr _ pl _
  obtain ⟨hhalf, hcol⟩ := memRtrs_bounds r hr
  have hr : s.HalfWhole r.half := by
    have hw := hs
    simp only [State.meshWhole, Bool.and_eq_true, List.all_eq_true, List.mem_range, decide_eq_true_eq] at hw
    obtain ⟨⟨hf, hh⟩, hv⟩ := hw.1 _ hhalf
    exact ⟨hf, hh, hv⟩
  exact ⟨route_ok_of_halfWhole pl ha hr (pickChan_of_whole hs _ _ hcol), route_ok_of_halfWhole pl hr ha (pickChan_of_whole hs _ _ hc)⟩

/-- Before the command completes, no memory is cut off from either caravan. -/
theorem joined_strayMortar : ∀ c ∈ strayMortar.scopeCars (strayReduce.ctx 0 strayExec.hdr), strayMortar.Joined (rtrOfCar c) := by
  have hw : strayMortar.meshWhole = true := by decide +kernel
  have hscope : strayMortar.scopeCars (strayReduce.ctx 0 strayExec.hdr) = [32, 168] := by decide +kernel
  have hhalf : ∀ c ∈ [32, 168], strayMortar.HalfWhole (rtrOfCar c).half ∧ (rtrOfCar c).col < 8 := by
    unfold State.HalfWhole
    decide +kernel
  intro c hc
  obtain ⟨h, hcol⟩ := hhalf c (hscope ▸ hc)
  exact joined_of_halfWhole hw h hcol

/-- Refutes O24: with caravans 32 and 168 in the map, the completion of a mortar command fences caravan 5. -/
theorem not_commandCompletes : ¬ Obligations.CommandCompletes := by
  unfold Obligations.CommandCompletes
  intro h
  have hclean : strayMortar.poison = [] := rfl
  obtain ⟨hdone, -⟩ := h strayMortar 0 0 strayExec strayReduce (by decide +kernel) rfl (by decide +kernel) rfl (by decide +kernel)
    (by decide +kernel) (fun _ => joined_strayMortar) (fun _ => poisonCheck_of_clean hclean)
  obtain ⟨t, e', hexec, -, -, -, -, -, -, -, -, -, -, hframe⟩ := hdone (fun hop => absurd hop (by decide)) (.inl rfl)
  have ht : t = { strayMortar.commandComplete 0 0 with pending := strayMortar.pending } := (Host.Outcome.next.inj hexec).symm
  have hdev : t.dev = strayMortar.dev := hframe .dev (by decide)
  have hfenced : (strayMortar.commandComplete 0 0).dev.fencedCars = [5] := by decide +kernel
  have hnone : strayMortar.dev.fencedCars = [] := by decide +kernel
  have hsame : (strayMortar.commandComplete 0 0).dev = strayMortar.dev := by rw [← hdev, ht]
  rw [hsame, hnone] at hfenced
  cases hfenced

end Sys2Proof.Machine
end

section
/-!
PROOFS. A partition that no interleaved order runs in: nothing that the rows on their way to the tally meet, and no fence, starts one, or adds
to the reads that fail during a save (R87, R90, R220).
-/
namespace Sys2Proof.Machine

-- Hundreds of short proofs by updates: one after another, since each thread of its own would take the whole stack size.
set_option Elab.async false

/-- A partition's record has no overtaken order, and the reads that its execution's save is to meet failing are bad. -/
def Part.Alone (bad : List (CarId × StnId × Fin 2)) (x : Part) : Prop := x.prev = Option.none ∧ ∀ e, x.exec = some e → e.saveBad = bad

theorem Part.Alone.of_none {bad : List (CarId × StnId × Fin 2)} {x : Part} (hp : x.prev = .none) (he : x.exec = .none) : x.Alone bad :=
  ⟨hp, fun e h => by rw [he] at h; cases h⟩

/-- No order is overtaken in partition own, and the reads that its execution's save is to meet failing are bad. -/
def State.Alone (own : Nat) (bad : List (CarId × StnId × Fin 2)) (s : State) : Prop := (s.part own).Alone bad

/-- Both states that a pace carries (R152). -/
def BothAlone (own : Nat) (bad : List (CarId × StnId × Fin 2)) (x : State × State) : Prop := x.1.Alone own bad ∧ x.2.Alone own bad

namespace State.Alone
variable {own : Nat} {bad : List (CarId × StnId × Fin 2)} {s t : State}

/-- Only the partitions' records matter. -/
theorem congr (h : s.Alone own bad) (hp : t.parts = s.parts) : t.Alone own bad := by
  unfold State.Alone State.part at h ⊢
  rwa [hp]

theorem ite {c : Prop} [Decidable c] (hs : s.Alone own bad) (ht : t.Alone own bad) : (if c then s else t).Alone own bad := by
  split
  · exact hs
  · exact ht

theorem foldl {α : Type} {f : State → α → State} {l : List α} (h : s.Alone own bad) (hf : ∀ s a, s.Alone own bad → (f s a).Alone own bad) :
    (l.foldl f s).Alone own bad := foldl_keeps f hf l s h

/-- A loop that carries more than the state. -/
theorem foldlFst {α β : Type} {f : State × β → α → State × β} {l : List α} {x : State × β} (h : x.1.Alone own bad)
    (hf : ∀ x a, x.1.Alone own bad → (f x a).1.Alone own bad) : (l.foldl f x).1.Alone own bad := by
  induction l generalizing x with
  | nil => exact h
  | cons a l ih => exact ih (hf x a h)

theorem fst {α : Type} {x : State × α} {a : α} (h : x.1.Alone own bad) (hx : x = (t, a)) : t.Alone own bad := by
  subst hx
  exact h

theorem snd {α : Type} {x : α × State} {a : α} (h : x.2.Alone own bad) (hx : x = (a, t)) : t.Alone own bad := by
  subst hx
  exact h

theorem both (h : s.Alone own bad) : BothAlone own bad (s, s) := ⟨h, h⟩

theorem prev (h : s.Alone own bad) : (s.part own).prev = none := h.1

theorem exec (h : s.Alone own bad) {e : Exec} (he : s.exec? own = some e) : e.saveBad = bad := h.2 e he

/-! The elementary updates of the state. -/

theorem setFld {f v} (h : s.Alone own bad) : (s.setFld f v).Alone own bad := h
theorem count {f n} (h : s.Alone own bad) : (s.count f n).Alone own bad := h
theorem keepMax {f n} (h : s.Alone own bad) : (s.keepMax f n).Alone own bad := h
theorem setByte {a x} (h : s.Alone own bad) : (s.setByte a x).Alone own bad := h
theorem setBytes {a bs} (h : s.Alone own bad) : (s.setBytes a bs).Alone own bad := h.congr (State.setBytes_parts ..)
theorem zeroRange {a n} (h : s.Alone own bad) : (s.zeroRange a n).Alone own bad := h
theorem setCar {c x} (h : s.Alone own bad) : (s.setCar c x).Alone own bad := h
theorem updCar {c f} (h : s.Alone own bad) : (s.updCar c f).Alone own bad := h
theorem setBank {k x} (h : s.Alone own bad) : (s.setBank k x).Alone own bad := h
theorem setEntry {k x} (h : s.Alone own bad) : (s.setEntry k x).Alone own bad := h
theorem setPort {i x} (h : s.Alone own bad) : (s.setPort i x).Alone own bad := h
theorem updPort {i f} (h : s.Alone own bad) : (s.updPort i f).Alone own bad := h
theorem updDev {f} (h : s.Alone own bad) : (s.updDev f).Alone own bad := h
theorem emit {o} (h : s.Alone own bad) : (s.emit o).Alone own bad := h
theorem draw (h : s.Alone own bad) : s.draw.2.Alone own bad := h

/-- A change of a partition's record that keeps its executions. -/
theorem updPart {p f} (h : s.Alone own bad) (hf : p = own → ∀ x : Part, x.Alone bad → (f x).Alone bad := by exact fun _ _ hx => hx) :
    (s.updPart p f).Alone own bad := by
  unfold State.Alone
  rw [State.part_updPart]
  split
  · rename_i hp
    exact hf hp _ (hp ▸ h)
  · exact h

theorem setExec {p e} (h : s.Alone own bad) (he : p = own → e.saveBad = bad) : (s.setExec p e).Alone own bad := by
  unfold State.Alone State.setExec
  rw [State.part_updPart]
  split
  · rename_i hp
    refine ⟨hp ▸ h.prev, fun e' he' => ?_⟩
    cases he'
    exact he hp
  · exact h

/-- An execution as it was but for other fields. -/
theorem setExecOf {p e e'} (h : s.Alone own bad) (he : s.exec? p = some e) (hb : e'.saveBad = e.saveBad := by rfl) :
    (s.setExec p e').Alone own bad :=
  h.setExec fun hp => hb.trans (h.exec (hp ▸ he))

theorem updExec {p f} (h : s.Alone own bad) (hf : ∀ e : Exec, (f e).saveBad = e.saveBad := by exact fun _ => rfl) :
    (s.updExec p f).Alone own bad := by
  unfold State.updExec
  split
  · rename_i e he
    exact h.setExecOf he (hf e)
  · exact h

theorem hold {p src len} (h : s.Alone own bad) : (s.hold p src len).Alone own bad := by
  unfold State.Alone
  rw [State.part_hold]
  split
  · rename_i hp
    exact hp ▸ h
  · exact h

theorem event {p type unit detail} (h : s.Alone own bad) : (s.event p type unit detail).Alone own bad := by
  unfold State.event
  dsimp only
  split
  · exact h.updPart.emit.emit
  · exact h.count

/-! The shared operations. -/

theorem sendFlit {i vc start end_ poison text} (h : s.Alone own bad) : (s.sendFlit i vc start end_ poison text).Alone own bad :=
  h.updPort.emit

theorem linkOnly {i nak vc credits} (h : s.Alone own bad) : (s.linkOnly i nak vc credits).Alone own bad :=
  .ite h h.emit

theorem freed {i vc n} (h : s.Alone own bad) : (s.freed i vc n).Alone own bad :=
  h.foldl fun _ _ h1 => h1.linkOnly

theorem runOwner {i vc} (h : s.Alone own bad) : (s.runOwner i vc).Alone own bad := by
  unfold State.runOwner
  split
  · exact h
  · extract_lets -underBinder _ s2 _ s3
    have h2 : s2.Alone own bad := h.foldl fun _ _ h1 => .ite h1.sendFlit h1.sendFlit
    have h3 : s3.Alone own bad := h2.updPort
    split
    · exact .ite h3 h3.freed
    · exact h3

theorem giveOut {i k src} (h : s.Alone own bad) : (s.giveOut i k src).Alone own bad :=
  h.updPort.runOwner

theorem pumpVc {i vc} : ∀ {n} {s : State}, s.Alone own bad → (State.pumpVc i vc n s).Alone own bad
  | 0, _, h => h
  | n + 1, s, h => by
    unfold State.pumpVc
    have h1 : (s.runOwner i vc).Alone own bad := h.runOwner
    dsimp only
    split
    · exact h1
    · exact .ite (pumpVc h1.updPort.giveOut) h1

theorem pump {i} (h : s.Alone own bad) : (s.pump i).Alone own bad :=
  .ite (h.foldl fun _ _ h1 => h1.pumpVc) h

theorem toPartner {i kind payload} (h : s.Alone own bad) : (s.toPartner i kind payload).Alone own bad :=
  .ite h.updPort.pump h

theorem setVbyte {p g va b} (h : s.Alone own bad) : (s.setVbyte p g va b).Alone own bad := by
  unfold State.setVbyte
  split
  · exact h.setByte
  · exact h

theorem setVbytes {p g} : ∀ {bs} {va} {s : State}, s.Alone own bad → (s.setVbytes p g va bs).Alone own bad
  | [], _, _, h => h
  | _ :: bs, _, _, h => setVbytes (bs := bs) h.setVbyte

theorem setElem {p g d code j c bits} (h : s.Alone own bad) : (s.setElem p g d code j c bits).Alone own bad :=
  h.setVbytes

theorem eccSram {h one two n} (hs : s.Alone own bad) : (s.eccSram h one two n).Alone own bad :=
  hs.count.count.count

theorem eccRead {pa one two n} (h : s.Alone own bad) : (s.eccRead pa one two n).Alone own bad := by
  unfold State.eccRead
  split
  · extract_lets -underBinder _ s1
    have h1 : s1.Alone own bad := .ite h h.updDev
    exact h1.count.count.count
  · exact h.eccSram
  · exact h.eccSram
  · exact h

theorem poisonRead {p g va} (h : s.Alone own bad) : (s.poisonRead p g va).Alone own bad := by
  unfold State.poisonRead
  split
  · exact h.eccRead
  · exact h

theorem scramble {pa n} (h : s.Alone own bad) : (s.scramble pa n).Alone own bad :=
  congr (s := s.setBytes pa _) h.setBytes rfl

theorem invalidateStaging {c} (h : s.Alone own bad) : (s.invalidateStaging c).Alone own bad :=
  h.zeroRange.zeroRange

theorem scanOver {c} (h : s.Alone own bad) : (s.scanOver c).Alone own bad :=
  h.setFld.setFld

theorem scrambleAhead {c} (h : s.Alone own bad) : (s.scrambleAhead c).Alone own bad :=
  h.foldl fun _ _ h1 => h1.foldl fun _ _ h2 => h2.foldl fun _ _ h3 => h3.scramble

theorem stopOrder {p} (h : s.Alone own bad) : (s.stopOrder p).Alone own bad := by
  unfold State.stopOrder
  split
  · exact h
  · rename_i e he
    extract_lets cs older s1 s2 s3 s4 s5
    have h1 : s1.Alone own bad := h.foldl fun _ _ h => h.scramble
    have h2 : s2.Alone own bad := h1.foldl fun _ _ h => h.scrambleAhead
    have h3 : s3.Alone own bad := h2.foldl fun _ _ h => h.invalidateStaging
    have h4 : s4.Alone own bad := h3.foldl fun _ _ h => h.updCar.scanOver
    have h5 : s5.Alone own bad := h4
    have h6 : (s5.updPart p (fun x => { x with prev := older.map Exec.halted })).Alone own bad := h5.updPart fun hp x hx => by
      have hnone : older = none := by
        unfold older
        rw [hp, h.prev]
      exact ⟨congrArg (Option.map Exec.halted) hnone, hx.2⟩
    have hbad : p = own → e.saveBad = bad := fun hp => h.exec (hp ▸ he)
    exact h6.setExec hbad

theorem raiseOutside {p unit code w3} (h : s.Alone own bad) : (s.raiseOutside p unit code w3).Alone own bad :=
  h.updPart.event

theorem raise {p unit code off w3} (h : s.Alone own bad) : (s.raise p unit code off w3).Alone own bad := by
  unfold State.raise
  split
  · exact h.raiseOutside
  · extract_lets -underBinder
    split
    · extract_lets -underBinder s1
      have h1 : s1.Alone own bad := .ite h.count h
      exact h1.stopOrder.updExec
    · split
      · extract_lets -underBinder s2
        have h2 : s2.Alone own bad := h.count
        exact .ite h2.updExec h2
      · exact h

theorem excess {p cls} (h : s.Alone own bad) : (s.excess p cls).Alone own bad := by
  unfold State.excess
  split
  · exact h
  · exact .ite h.hold.count h

theorem useAs {p e cls u} (h : s.Alone own bad) (he : s.exec? p = some e) : (s.useAs p e cls u).Alone own bad := by
  unfold State.useAs
  extract_lets -underBinder _ s1
  have h1 : s1.Alone own bad := h.setExecOf he
  exact .ite h1 h1.hold

theorem useClass {p cls u} (h : s.Alone own bad) : (s.useClass p cls u).Alone own bad := by
  unfold State.useClass
  split
  · exact h
  · rename_i e he
    exact h.useAs he

theorem sticky {p bit} (h : s.Alone own bad) : (s.sticky p bit).Alone own bad :=
  h.updExec

theorem rangeEvents {p c stn ovf unf} (h : s.Alone own bad) : (s.rangeEvents p c stn ovf unf).Alone own bad := by
  unfold State.rangeEvents
  extract_lets -underBinder s1
  have h1 : s1.Alone own bad := .ite h h.count.sticky
  exact .ite h1 h1.count.sticky

theorem inputOvf {p c stn n} (h : s.Alone own bad) : (s.inputOvf p c stn n).Alone own bad :=
  .ite h h.count.sticky

theorem countFlits {path chans h bytes} (hs : s.Alone own bad) : (s.countFlits path chans h bytes).Alone own bad := by
  unfold State.countFlits
  extract_lets -underBinder s2
  have h2 : s2.Alone own bad := hs.foldl fun _ _ h1 => h1.count
  exact h2.foldl fun _ _ h3 => h3.count

theorem sendMesh {k a b plane bytes} (h : s.Alone own bad) : (s.sendMesh k a b plane bytes).Alone own bad := by
  unfold State.sendMesh
  extract_lets -underBinder
  split
  · exact h
  · extract_lets -underBinder s1
    have h1 : s1.Alone own bad := h.countFlits
    exact .ite h1 h1.count

theorem sendTree {a bs plane bytes} (h : s.Alone own bad) : (s.sendTree a bs plane bytes).Alone own bad := by
  unfold State.sendTree
  split
  extract_lets -underBinder s1
  have h1 : s1.Alone own bad := h.countFlits
  exact h1.foldl fun _ _ h2 => h2.sendMesh

theorem partFault70 {p unit kind} (h : s.Alone own bad) : (s.partFault70 p unit kind).Alone own bad := by
  unfold State.partFault70
  split
  · exact h
  · exact .ite h h.raise

theorem setPartState {p v} (h : s.Alone own bad) : (s.setPartState p v).Alone own bad :=
  h.setFld

theorem suspend {p unit} (h : s.Alone own bad) : (s.suspend p unit).Alone own bad := by
  unfold State.suspend
  split
  · exact h
  · extract_lets -underBinder s1 s2
    have h1 : s1.Alone own bad := h.partFault70
    have h2 : s2.Alone own bad := .ite h1.setPartState h1
    exact h2.updPart.setFld.event

theorem dropGrants (h : s.Alone own bad) : (s.dropGrants).Alone own bad :=
  h

theorem moveWindows {p c d} (h : s.Alone own bad) : (s.moveWindows p c d).Alone own bad := by
  unfold State.moveWindows
  refine h.foldl fun _ _ h1 => ?_
  split
  · exact h1.setFld
  · exact h1

theorem wghFollow {p} (h : s.Alone own bad) : (s.wghFollow p).Alone own bad := by
  unfold State.wghFollow
  extract_lets -underBinder _ _ s1
  have h1 : s1.Alone own bad := h.setFld
  exact .ite h (.ite h1 h1.updPart)

theorem relocate {p c d} (h : s.Alone own bad) : (s.relocate p c d).Alone own bad :=
  h.updPart.moveWindows.wghFollow

theorem withdrawCar {c unit} (h : s.Alone own bad) : (s.withdrawCar c unit).Alone own bad := by
  unfold State.withdrawCar
  split
  · exact h
  · extract_lets -underBinder _ s1
    have h1 : s1.Alone own bad := h.suspend
    split
    · exact h1
    · exact .ite h1.updPart h1.relocate.count

theorem loseOrders (h : s.Alone own bad) : (s.loseOrders).Alone own bad := by
  unfold State.loseOrders
  extract_lets -underBinder s2
  have h2 : s2.Alone own bad := h.foldl fun _ _ h1 => h1.updPart fun _ _ _ => .of_none rfl rfl
  exact h2.foldl fun _ _ h3 => h3.updCar

theorem loseJournals {k} (h : s.Alone own bad) : (s.loseJournals k).Alone own bad := by
  unfold State.loseJournals
  extract_lets -underBinder _ _ s1
  have h1 : s1.Alone own bad := h.updDev
  exact .ite h (.ite h1 h1.loseOrders)

theorem loseStack {k unit} (h : s.Alone own bad) : (s.loseStack k unit).Alone own bad := by
  unfold State.loseStack
  split
  · exact h
  · extract_lets -underBinder _ s2 s5 s6
    have h2 : s2.Alone own bad := h.foldl fun _ _ h1 => h1.suspend
    have h5 : s5.Alone own bad := by
      unfold s5
      refine h2.foldl fun _ _ h3 => ?_
      refine h3.foldl fun _ _ h4 => ?_
      split
      · exact .ite h4.setFld h4
      · exact h4
    have h6 : s6.Alone own bad := h5.updDev.zeroRange
    exact h6.loseJournals.dropGrants

theorem loseCar {c unit} (h : s.Alone own bad) : (s.loseCar c unit).Alone own bad := by
  unfold State.loseCar
  split
  · exact h
  · extract_lets -underBinder s1 s2
    have h1 : s1.Alone own bad := h.updDev
    have h2 : s2.Alone own bad := h1.zeroRange.zeroRange
    exact h2.dropGrants.withdrawCar

theorem loseChan {ch state} (h : s.Alone own bad) : (s.loseChan ch state).Alone own bad :=
  h.setFld.dropGrants

theorem loseStation {c stn unit} (h : s.Alone own bad) : (s.loseStation c stn unit).Alone own bad := by
  unfold State.loseStation
  extract_lets -underBinder s1
  have h1 : s1.Alone own bad := h.setFld
  exact .ite h1.loseCar h1.withdrawCar

theorem losePort {i} (h : s.Alone own bad) : (s.losePort i).Alone own bad := by
  unfold State.losePort
  extract_lets -underBinder _ _ s1 s2
  have h1 : s1.Alone own bad := h.setPort
  have h2 : s2.Alone own bad := h1.setFld.setFld.setFld
  exact h2.setFld.dropGrants

theorem loseWgh {h unit} (hs : s.Alone own bad) : (s.loseWgh h unit).Alone own bad :=
  hs.foldl fun _ _ h1 => .ite h1.updPart.suspend h1

theorem loseEngine {h unit} (hs : s.Alone own bad) : (s.loseEngine h unit).Alone own bad :=
  hs.foldl fun _ _ h1 => .ite h1.suspend h1

theorem loseHost {h} (hs : s.Alone own bad) : (s.loseHost h).Alone own bad :=
  hs.updDev.dropGrants

theorem loseSeal {h} (hs : s.Alone own bad) : (s.loseSeal h).Alone own bad :=
  hs.updDev

theorem loseEnds {h inst unit} (hs : s.Alone own bad) : (s.loseEnds h inst unit).Alone own bad := by
  unfold State.loseEnds
  extract_lets -underBinder _ s1 s3 s5 s6 s7 s8
  have h1 : s1.Alone own bad := .ite hs.loseStack hs
  have h3 : s3.Alone own bad := h1.foldl fun _ _ h2 => .ite h2.loseCar h2
  have h5 : s5.Alone own bad := h3.foldl fun _ _ h4 => .ite h4.losePort h4
  have h6 : s6.Alone own bad := .ite h5.loseHost h5
  have h7 : s7.Alone own bad := .ite h6.loseWgh h6
  have h8 : s8.Alone own bad := .ite h7.loseEngine h7
  exact .ite h8.loseSeal h8

theorem loseRouter {h inst unit} (hs : s.Alone own bad) : (s.loseRouter h inst unit).Alone own bad := by
  unfold State.loseRouter
  extract_lets -underBinder s1 s3
  have h1 : s1.Alone own bad := hs.setFld
  have h3 : s3.Alone own bad := .ite (h1.foldl fun _ _ h2 => h2.loseChan) h1
  exact h3.loseEnds

theorem loseHalf {h unit} (hs : s.Alone own bad) : (s.loseHalf h unit).Alone own bad := by
  unfold State.loseHalf
  split
  · exact hs
  · extract_lets -underBinder s1 s2 s3 s5 s7 s8 s10
    have h1 : s1.Alone own bad := hs.updDev
    have h2 : s2.Alone own bad := h1.loseSeal.loseHost
    have h3 : s3.Alone own bad := h2.setFld
    have h5 : s5.Alone own bad := h3.foldl fun _ _ h4 => .ite h4.loseChan h4
    have h7 : s7.Alone own bad := h5.foldl fun _ _ h6 => .ite h6.losePort h6
    have h8 : s8.Alone own bad := h7.loseWgh
    have h10 : s10.Alone own bad := h8.foldl fun _ _ h9 => h9.loseCar
    exact h10.foldl fun _ _ h11 => h11.loseStack

theorem cutTraffic {cut unit} (h : s.Alone own bad) : (s.cutTraffic cut unit).Alone own bad :=
  h.foldl fun _ _ h1 => h1.partFault70

theorem applyUnit {f} (h : s.Alone own bad) : (s.applyUnit f).Alone own bad := by
  unfold State.applyUnit
  split
  · exact h
  · extract_lets -underBinder
    split
    · exact .ite h.setFld h.loseStation
    · exact h.loseCar
    · exact h.loseCar
    · split
      · extract_lets -underBinder s1
        have h1 : s1.Alone own bad := .loseRouter (.ite h.cutTraffic h)
        exact .ite h1.loseHalf h1
      · extract_lets -underBinder s2
        have h2 : s2.Alone own bad := h.cutTraffic
        exact .ite h2.setFld h2.setFld
    · exact h.cutTraffic.loseChan
    · exact h.loseStack
    · exact h.losePort
    · exact h.loseHalf
    · exact h

theorem safeHoldNow (h : s.Alone own bad) : (s.safeHoldNow).Alone own bad := by
  unfold State.safeHoldNow
  split
  · exact h
  · extract_lets -underBinder s1 s2
    have h1 : s1.Alone own bad := h.updDev
    have h2 : s2.Alone own bad := h1.emit
    exact h2.foldl fun _ _ h3 => .ite h3.toPartner h3

theorem record1 {unit kind detail} (h : s.Alone own bad) : (s.record1 unit kind detail).Alone own bad := by
  unfold State.record1
  split
  · split
    rename_i _ s1 heq
    have h1 : s1.Alone own bad := h.draw.snd heq
    extract_lets -underBinder _ s2
    have h2 : s2.Alone own bad := h1.updDev
    exact .ite h2.safeHoldNow h2
  · exact h.safeHoldNow

theorem fenceUnit {unit detail} (h : s.Alone own bad) : (s.fenceUnit unit detail).Alone own bad :=
  .ite h h.record1.count.applyUnit

theorem fenceStack {k} (h : s.Alone own bad) : (s.fenceStack k).Alone own bad :=
  h.fenceUnit

theorem fenceCar {c} (h : s.Alone own bad) : (s.fenceCar c).Alone own bad :=
  h.fenceUnit

theorem fenceEnds {r} (h : s.Alone own bad) : (s.fenceEnds r).Alone own bad := by
  unfold State.fenceEnds
  extract_lets -underBinder s1 s3 s5
  have h1 : s1.Alone own bad := .ite h.fenceStack h
  have h3 : s3.Alone own bad := h1.foldl fun _ _ h2 => .ite h2.fenceCar h2
  have h5 : s5.Alone own bad := h3.foldl fun _ _ h4 => .ite h4.fenceUnit h4
  exact h5.loseEnds

theorem cutPairs : ∀ {n} {s : State}, s.Alone own bad → (State.cutPairs n s).Alone own bad
  | 0, _, h => h
  | n + 1, s, h => by
    unfold State.cutPairs
    dsimp only
    split
    · exact h
    · exact cutPairs h.fenceEnds

theorem fence {unit detail} (h : s.Alone own bad) : (s.fence unit detail).Alone own bad := by
  unfold State.fence
  split
  · exact h
  · extract_lets -underBinder s1
    have h1 : s1.Alone own bad := h.fenceUnit
    exact .ite h1.cutPairs h1

theorem fenceStation {g} (h : s.Alone own bad) : (s.fenceStation g).Alone own bad :=
  h.fence

theorem fenceEnd {pa} (h : s.Alone own bad) : (s.fenceEnd pa).Alone own bad := by
  unfold State.fenceEnd
  split
  · exact h.fenceStack
  · exact h.fenceCar
  · exact h.fenceCar
  · exact h

theorem fetchRange {cs pa n} (h : s.Alone own bad) : (s.fetchRange cs pa n).Alone own bad := by
  unfold State.fetchRange
  split
  · extract_lets -underBinder _ s1
    have h1 : s1.Alone own bad := .ite h h.sendMesh
    exact .ite h (.ite h.fenceEnd (.ite h1.sendMesh h1.sendTree))
  · exact h

theorem fetchRows {cs rs} (h : s.Alone own bad) : (s.fetchRows cs rs).Alone own bad :=
  h.foldl fun _ _ h1 => h1.foldl fun _ _ h2 => h2.fetchRange

theorem meshTo {store a pa n} (h : s.Alone own bad) : (s.meshTo store a pa n).Alone own bad := by
  unfold State.meshTo
  refine h.foldl fun _ _ h1 => ?_
  split
  split
  · exact h1
  · exact .ite h1 (.ite h1.fenceEnd h1.sendMesh.sendMesh)

theorem meshRow {store a p g va n} (h : s.Alone own bad) : (s.meshRow store a p g va n).Alone own bad := by
  unfold State.meshRow
  split
  · exact h.meshTo
  · exact h

theorem poisonCheck {p unit off rs} (h : s.Alone own bad) (ht : s.poisonCheck p unit off rs = some t) : t.Alone own bad := by
  unfold State.poisonCheck at ht
  split at ht
  · cases ht
    exact h.poisonRead.raise
  · cases ht

theorem writeRow {p g d k j col0 row col vs} (h : s.Alone own bad) : (s.writeRow p g d k j col0 row col vs).1.Alone own bad := by
  unfold State.writeRow
  dsimp only
  split
  · refine foldlFst h.meshRow.meshRow fun _ _ h => ?_
    exact h.setVbytes.setVbyte
  · refine foldlFst h.meshRow fun _ _ h => ?_
    exact h.setElem

theorem drainCols {p g b val lo hi k d rs cs} (h : s.Alone own bad) : (s.drainCols p g b val lo hi k d rs cs).Alone own bad :=
  h.foldl fun _ _ h1 => .ite h1.writeRow.rangeEvents h1

theorem fetchVecs {p stns ds} (h : s.Alone own bad) : (s.fetchVecs p stns ds).Alone own bad :=
  h.foldl fun _ _ h1 => h1.foldl fun _ _ h2 => .ite h2 h2.fetchRows

theorem drainTile {p g key hi k d rs cs} (h : s.Alone own bad) : (s.drainTile p g key hi k d rs cs).Alone own bad :=
  h.drainCols

theorem also {p x f} (h : BothAlone own bad x) (hf : ∀ s, s.Alone own bad → (f s).Alone own bad) : BothAlone own bad (State.also p x f) := by
  obtain ⟨h1, h2⟩ := h
  have h3 := hf _ h2
  unfold State.also
  dsimp only
  split
  · split
    · refine ⟨?_, h2⟩
      split
      · exact h1.raise
      · exact h1
    · exact ⟨h1, h3⟩
  · exact ⟨h3, .ite h2 h3⟩

theorem together {p} {fs : List (State → State)} {x} (h : BothAlone own bad x) (hf : ∀ f ∈ fs, ∀ s, s.Alone own bad → (f s).Alone own bad) :
    BothAlone own bad (State.together p fs x) := by
  unfold State.together
  induction fs generalizing x with
  | nil => exact h
  | cons f fs ih => exact ih (also h (hf f (by simp))) fun g hg => hf g (by simp [hg])

theorem togetherMap {α : Type} {p x} {l : List α} {g : α → State → State} (h : BothAlone own bad x) (hg : ∀ a s, s.Alone own bad → (g a s).Alone own bad) :
    BothAlone own bad (State.together p (l.map g) x) :=
  together h fun f hf => by
    obtain ⟨a, -, rfl⟩ := List.mem_map.mp hf
    exact hg a

theorem forSeq {p seq f} (h : s.Alone own bad) (hf : ∀ s, s.Alone own bad → (f s).Alone own bad) : (s.forSeq p seq f).Alone own bad := by
  unfold State.forSeq
  dsimp only
  split
  · rename_i hq
    have hp : p ≠ own := by
      rintro rfl
      simp [h.prev] at hq
    exact (hf _ (h.updPart fun he => absurd he hp)).updPart fun he => absurd he hp
  · exact hf _ h

theorem sweep {p g w} (h : s.Alone own bad) : (s.sweep p g w).Alone own bad := by
  unfold State.sweep
  extract_lets -underBinder _ _ s1
  have h1 : s1.Alone own bad := h.keepMax
  exact .ite h1.count.count.hold h1

theorem preloadRows {p g key va} (h : s.Alone own bad) : (s.preloadRows p g key va).Alone own bad :=
  h.foldl fun _ _ h1 => .ite (h1.foldl fun _ _ h2 => h2.setEntry) h1

theorem preload {p u g pi va} (h : s.Alone own bad) : (s.preload p u g pi va).Alone own bad := by
  unfold State.preload
  extract_lets -underBinder _ _ s1
  have h1 : s1.Alone own bad := h.setBank
  exact h1.count.preloadRows

theorem openBank {p u g pi mask} (h : s.Alone own bad) : (s.openBank p u g pi mask).Alone own bad := by
  unfold State.openBank
  extract_lets -underBinder s1
  have h1 : s1.Alone own bad := h.setBank
  split
  · split
    · rename_i heq
      exact h1.poisonCheck heq
    · exact h1.preload
  · exact h1

theorem restartCar {p c} (h : s.Alone own bad) : (s.restartCar p c).Alone own bad := by
  have h1 : State.Alone own bad { s with tally := s.tally.filter fun x =>
      !(decide (x.1 / 4096 / 336 = c) && (s.bank (x.1 / 4096)).st.inPass) } := h
  exact h1.updCar.hold

theorem abandonReplay {p c} (h : s.Alone own bad) : (s.abandonReplay p c).Alone own bad :=
  .ite h.updPart.updCar h.updCar

theorem failCar {p c} (h : s.Alone own bad) : (s.failCar p c).Alone own bad :=
  h.restartCar.abandonReplay

theorem midPass {p key} (h : s.Alone own bad) : (s.midPass p key).Alone own bad :=
  h.setBank.failCar

theorem mismatches {g cols} (h : s.Alone own bad) : (s.mismatches g cols).Alone own bad := by
  unfold State.mismatches
  split
  · exact h
  · exact h.count.setFld

theorem tallyRow {p g u f ev} (h : s.Alone own bad) : (s.tallyRow p g u f ev).Alone own bad := by
  unfold State.tallyRow
  extract_lets -underBinder
  split
  · exact h
  · split
    rename_i s1 cols differ heq
    have h1 : s1.Alone own bad := by
      refine .fst ?_ heq
      refine foldlFst h fun x col h => ?_
      dsimp only
      split
      · exact h
      · split
        · exact h.setEntry
        · exact h.setEntry
    extract_lets s2
    have h2 : s2.Alone own bad := h1.mismatches.sweep
    exact .ite h2.midPass h2

theorem replayLeg {p g u f ev} (h : s.Alone own bad) : (s.replayLeg p g u f ev).1.Alone own bad := by
  unfold State.replayLeg
  extract_lets -underBinder
  refine foldlFst h fun x r h => ?_
  dsimp only
  split
  · exact h
  · refine foldlFst h.inputOvf.sweep fun y k h => ?_
    split
    · exact h
    · split
      · exact h.setEntry
      · exact h

theorem endLeg {p g u f ev} (h : s.Alone own bad) : (s.endLeg p g u f ev).Alone own bad := by
  unfold State.endLeg
  extract_lets -underBinder
  split
  · exact h
  · extract_lets -underBinder
    split
    rename_i s1 _ _ heq
    have h1 : s1.Alone own bad := h.replayLeg.fst heq
    extract_lets -underBinder _ s2 s3 _ s4 _ s5
    have h2 : s2.Alone own bad := h1.mismatches.count
    have h3 : s3.Alone own bad := h2.hold
    have h4 : s4.Alone own bad := h3.setBank
    have h5 : s5.Alone own bad := h4.updCar
    exact .ite h5.midPass h5

theorem tileDone {p off done} (h : s.Alone own bad) : (s.tileDone p off done).Alone own bad :=
  h.updExec

theorem finishTile {p u g pi last} (h : s.Alone own bad) : (s.finishTile p u g pi last).Alone own bad := by
  unfold State.finishTile
  split
  · exact h
  · extract_lets -underBinder _ _ _ s1 s2 s3 _ s4 s5 _ s6
    have h1 : s1.Alone own bad := h.setBank
    have h2 : s2.Alone own bad := h.fetchVecs
    have h3 : s3.Alone own bad := h2.drainTile
    have h4 : s4.Alone own bad := h3.useClass.excess
    have h5 : s5.Alone own bad := .ite h4.useClass.excess h4
    have h6 : s6.Alone own bad := h5.setBank
    exact .ite h1.tileDone h6.tileDone

theorem startMerge {p u g pi last} (h : s.Alone own bad) : (s.startMerge p u g pi last).Alone own bad := by
  unfold State.startMerge
  split
  · exact h
  · extract_lets -underBinder _ _ _ s2
    have h2 : s2.Alone own bad := h.foldl fun _ _ h1 => h1.setBank
    exact h2.foldl fun _ _ h3 => h3.count.useClass

theorem endPass {p u g pi last} (h : s.Alone own bad) : (s.endPass p u g pi last).Alone own bad := by
  unfold State.endPass
  split
  · exact h.finishTile
  · extract_lets -underBinder _ _ s1
    have h1 : s1.Alone own bad := h.setBank
    exact .ite h1.startMerge h1

theorem rowOut {p c ev f} (h : s.Alone own bad) : (s.rowOut p c ev f).Alone own bad := by
  unfold State.rowOut
  split
  · extract_lets -underBinder
    split
    extract_lets -underBinder s1 s2 _ s3 _ s4 s5
    have h1 : s1.Alone own bad := h.setCar
    have h2 : s2.Alone own bad := .ite h1.openBank h1
    have h3 : s3.Alone own bad := h2.tallyRow
    have h4 : s4.Alone own bad := h3.setBank
    have h5 : s5.Alone own bad := h4.endLeg
    exact .ite h2 (.ite h3.updCar (.ite h4 (.ite h5.endPass h5)))
  · exact h

theorem rowsOut {p c ev sel} (h : s.Alone own bad) : (s.rowsOut p c ev sel).Alone own bad :=
  (togetherMap h.both fun _ _ h => .ite h (h.updCar.forSeq fun _ h => .ite h h.rowOut)).1

theorem takeFences {p c} (h : s.Alone own bad) : (s.takeFences p c).Alone own bad := by
  unfold State.takeFences
  extract_lets -underBinder _ s1
  have h1 : s1.Alone own bad := h.updCar
  exact h1.foldl fun _ _ h2 => .ite h2.fence.count.restartCar (.ite h2 ((h2.forSeq fun _ h3 => h3.raise).fenceStation))

end State.Alone
end Sys2Proof.Machine
end

section
/-!
PROOFS. Pre-emption (R87, R90, R222, R440): what is saved, what is emptied, and what comes back.
-/
namespace Sys2Proof.Machine

/-! Work on caravans. -/

/-- The registers of caravans that a save or a resumption writes: those of the drover, the queues' and the spice tables'. -/
def carReg (o : Nat) : Prop := 0x800000 ≤ o ∧ (0x9000 ≤ o % 0x10000 ∨ o % 0x1000 = 0x130)

/-- Work on caravans that touches no partition's record and no weighhouse context. -/
structure State.CarWork (s t : State) : Prop where
  parts : t.parts = s.parts
  wgh : t.wgh = s.wgh
  regs : ∀ o, ¬ carReg o → t.reg o = s.reg o

namespace State.CarWork
variable {s t u : State}

theorem refl (s : State) : s.CarWork s := ⟨rfl, rfl, fun _ _ => rfl⟩

theorem trans (h : s.CarWork t) (k : t.CarWork u) : s.CarWork u :=
  ⟨k.parts.trans h.parts, k.wgh.trans h.wgh, fun o ho => (k.regs o ho).trans (h.regs o ho)⟩

theorem foldl {α : Type} {f : State → α → State} {l : List α} (h : s.CarWork t) (hf : ∀ a ∈ l, ∀ t, s.CarWork t → s.CarWork (f t a)) :
    s.CarWork (l.foldl f t) :=
  List.foldlRecOn l f h fun t ht a ha => hf a ha t ht

theorem ite {c : Prop} [Decidable c] (ht : s.CarWork t) (hu : s.CarWork u) : s.CarWork (if c then t else u) := by
  split
  · exact ht
  · exact hu

/-- Registers, partitions and contexts as they are. -/
theorem frame (h : s.CarWork t) (hc : u.csr = t.csr) (hp : u.parts = t.parts) (hw : u.wgh = t.wgh) : s.CarWork u :=
  h.trans ⟨hp, hw, fun o _ => by unfold State.reg; rw [hc]⟩

theorem setReg {o w} (h : s.CarWork t) (ho : carReg o) : s.CarWork (t.setReg o w) :=
  h.trans ⟨rfl, rfl, fun o' ho' => by rw [State.reg_setReg, if_neg (by rintro rfl; exact ho' ho)]⟩

theorem setFld {r v} (h : s.CarWork t) (ho : carReg r.off) : s.CarWork (t.setFld r v) := h.setReg ho
theorem count {r n} (h : s.CarWork t) (ho : carReg r.off) : s.CarWork (t.count r n) := h.setReg ho

theorem fld (h : s.CarWork t) {r : FieldRef} (hr : ¬ carReg r.off) : t.fld r = s.fld r := by
  unfold State.fld
  rw [h.regs _ hr]

theorem part (h : s.CarWork t) (p : Nat) : t.part p = s.part p := by unfold State.part; rw [h.parts]
theorem exec (h : s.CarWork t) (p : Nat) : t.exec? p = s.exec? p := by unfold State.exec?; rw [h.part]
theorem caravans (h : s.CarWork t) (p : Nat) : t.caravans p = s.caravans p := by unfold State.caravans; rw [h.part]
theorem wctx (h : s.CarWork t) (p : Nat) : t.wctx p = s.wctx p := by unfold State.wctx; rw [h.wgh]

/-! The operations. -/

theorem setBytes {a bs} (h : s.CarWork t) : s.CarWork (t.setBytes a bs) :=
  h.frame (State.setBytes_csr ..) (State.setBytes_parts ..) (State.setBytes_wgh ..)

theorem updCar {c f} (h : s.CarWork t) : s.CarWork (t.updCar c f) := h.frame rfl rfl rfl

theorem carReg_drvStatus (c : Nat) : carReg (Csr.drvStatus c) := by
  unfold carReg Csr.drvStatus
  omega

theorem carReg_drvXfer (c : Nat) : carReg (Csr.drvXfer c) := by
  unfold carReg Csr.drvXfer
  omega

theorem drvStatus {c} (h : s.CarWork t) : s.CarWork (t.drvStatus c) :=
  (h.setFld (carReg_drvStatus c)).setFld (carReg_drvStatus c)

theorem scanOver {c} (h : s.CarWork t) : s.CarWork (t.scanOver c) :=
  (h.setFld (carReg_drvStatus c)).setFld (carReg_drvStatus c)

theorem closeReads {c sel} (h : s.CarWork t) : s.CarWork (t.closeReads c sel) :=
  (h.updCar.count (carReg_drvXfer c)).drvStatus

theorem landFill {c x} (h : s.CarWork t) : s.CarWork (t.landFill c x) :=
  (updCar (h.foldl fun _ _ _ h1 => h1.setBytes)).closeReads

theorem refill {p c} (h : s.CarWork t) : s.CarWork (t.refill p c) := by
  unfold State.refill
  extract_lets k again all feeds s1 s2
  have h1 : s.CarWork s1 := h.frame rfl rfl rfl
  have h2 : s.CarWork s2 := h1.foldl fun _ _ _ h3 => h3.landFill
  exact h2.updCar

theorem clearCars {p} (h : s.CarWork t) : s.CarWork (t.clearCars p) :=
  foldl (h.frame rfl rfl rfl) fun _ _ _ h1 => h1.updCar

theorem clearAlloc {c} (h : s.CarWork t) : s.CarWork (t.clearAlloc c) :=
  foldl (h.frame rfl rfl rfl) fun i hi _ h1 => h1.setReg (by
    have := List.mem_range.mp hi
    unfold carReg Csr.carQueue
    omega)

theorem scramble {a n} (h : s.CarWork t) : s.CarWork (t.scramble a n) :=
  h.trans ((refl t).setBytes.frame rfl rfl rfl)

theorem saveAreas {p} (h : s.CarWork t) : s.CarWork (t.saveAreas p) := h.foldl fun _ _ _ h1 => .ite h1.scramble h1

end State.CarWork

/-! The save. -/

/-- With no transfer out, the flush of a pre-emption moves nothing but counters (R222, R227). -/
theorem State.flushXfers_idle {s : State} {p : Nat} (e : Exec) (hx : ∀ c ∈ s.caravans p, (s.car c).xfers = []) :
    s.CarWork (s.flushXfers p e) ∧ s.Within p [.csr, .cars] (s.flushXfers p e) ∧
      ∀ c, ((s.flushXfers p e).car c).xfers = (s.car c).xfers := by
  let Idle (t : State) : Prop := s.CarWork t ∧ s.Within p [.csr, .cars] t ∧ ∀ c, (t.car c).xfers = (s.car c).xfers
  have hcar {t : State} {c : Nat} {f : Car → Car} (h : Idle t) (hf : ∀ k, (f k).xfers = k.xfers) : Idle (t.updCar c f) := by
    refine ⟨h.1.updCar, h.2.1.updCar (by decide), fun d => ?_⟩
    rw [State.car_updCar]
    split
    · rename_i hd
      exact (hf _).trans (hd ▸ h.2.2 c)
    · exact h.2.2 d
  have hxfer {t : State} {c : Nat} {r : FieldRef} {n : Nat} (h : Idle t) (hr : r.off = Csr.drvXfer c) : Idle (t.count r n) :=
    ⟨h.1.count (hr ▸ State.CarWork.carReg_drvXfer c), h.2.1.count (by decide), fun d => h.2.2 d⟩
  have hfld {t : State} {c : Nat} {r : FieldRef} {v : Nat} (h : Idle t) (hr : r.off = Csr.drvStatus c) : Idle (t.setFld r v) :=
    ⟨h.1.setFld (hr ▸ State.CarWork.carReg_drvStatus c), h.2.1.setFld (by decide), fun d => h.2.2 d⟩
  have hstat {t : State} {c : Nat} (h : Idle t) : Idle (t.drvStatus c) := hfld (hfld h rfl) rfl
  have hscan {t : State} {c : Nat} (h : Idle t) : Idle (t.scanOver c) := hfld (hfld h rfl) rfl
  unfold State.flushXfers
  extract_lets issued s1 n s2
  have h1 : s1 = s := List.foldlRecOn (motive := (· = s)) _ _ rfl fun t ht c hc => by
    subst ht
    rw [hx c hc]
    rfl
  have h2 : Idle s2 := List.foldlRecOn (motive := Idle) _ _ (h1.symm ▸ ⟨.refl s, .refl .., fun _ => rfl⟩) fun t ht c _ =>
    hstat (hcar (hxfer (hxfer ht rfl) rfl) fun _ => rfl)
  exact List.foldlRecOn (motive := Idle) _ _ h2 fun t ht c _ => hscan (hcar ht fun _ => rfl)

theorem State.preemptRemnants_of_none {s : State} {p : Nat} (h : ∀ c ∈ s.caravans p, (s.car c).remnant = []) : s.preemptRemnants p = s :=
  List.foldlRecOn (motive := (· = s)) _ _ rfl fun t ht c hc => by
    subst ht
    rw [h c hc]
    rfl

/-- A partition's record once its execution is saved as q. -/
def Preempt.leave (q : Preempt) (x : Part) : Part :=
  { x with exec := none, prev := none, preReq := none, preempt := some q, holds := [], merged := false }

/-- The partition once its execution is saved as q: idle and answered. -/
def State.emptied (s : State) (p : Nat) (q : Preempt) : State :=
  (((s.clearCars p).updPart p q.leave).setPartState p 1).sealAnswer p 2 0

theorem State.preemptNow_eq {s : State} {p named : Nat} {e e1 : Exec} (hs : s.dev.safeHold = false) (hr : (s.part p).preReq = some named)
    (he : s.exec? p = some e) (hp : s.preemptible p = true) (hf : e.fault = none) (hc : e.cancelled = false) (hw : e.waiting = none)
    (hprev : (s.part p).prev = none) (hu : e.upds.all (·.finished) = true) (hl : s.legBoundary p = true)
    (he1 : ((s.flushRows p).flushFences p).exec? p = some e1) (hf1 : e1.fault = none) (hbad : e.saveBad = [])
    (hprev1 : (((s.flushRows p).flushFences p).part p).prev = none) (hp1 : ((s.flushRows p).flushFences p).preemptible p = true)
    (hl1 : ((s.flushRows p).flushFences p).legBoundary p = true)
    (hidle : ∀ c ∈ ((s.flushRows p).flushFences p).caravans p, (((s.flushRows p).flushFences p).car c).xfers = [] ∧
      (((s.flushRows p).flushFences p).car c).remnant = []) :
    s.preemptNow p = ((((s.flushRows p).flushFences p).flushXfers p e).saveAreas p).emptied p
      (((((s.flushRows p).flushFences p).flushXfers p e).saveAreas p).savePreempt p named e1) := by
  have hopen : e.upds.any (fun u => !u.finished) = false := by
    rw [List.any_eq_false]
    intro u hm
    simpa using List.all_eq_true.mp hu u hm
  unfold State.preemptNow
  simp only [hr, he, hprev, hs, hp, hl, hopen, Exec.isOver, hf, hc, hw, Option.toList_none, List.nil_append, List.any_cons, List.any_nil,
    Option.isSome_none, Bool.or_false, Bool.not_true, Bool.false_eq_true, if_false]
  generalize (s.flushRows p).flushFences p = s1 at *
  have hstop : s1.stopped p = false := State.stopped_of_no_fault he1 hf1
  have hrem : s1.preemptRemnants p = s1 := State.preemptRemnants_of_none fun c hc => (hidle c hc).2
  obtain ⟨hwork, -, hx⟩ := s1.flushXfers_idle (p := p) e fun c hc => (hidle c hc).1
  simp only [hstop, hrem, hp1, hl1, Bool.not_true, Bool.or_false, Bool.false_eq_true, if_false]
  have hout : ((s1.flushXfers p e).caravans p).any (fun c => ((s1.flushXfers p e).car c).xfers.any (·.part = p)) = false := by
    rw [List.any_eq_false]
    intro c hc
    rw [hx c, (hidle c (hwork.caravans p ▸ hc)).1]
    simp
  have hnobad : (s1.flushXfers p e).saveBad p e.saveBad = s1.flushXfers p e := by
    rw [hbad]
    rfl
  rw [hout, hnobad]
  have hs4 := hwork.saveAreas (p := p)
  generalize (s1.flushXfers p e).saveAreas p = s4 at hs4 ⊢
  have he4 : s4.exec? p = some e1 := (hs4.exec p).trans he1
  simp only [he4, hf1, hs4.part, hprev1, Option.isSome_none, Option.map_none, Option.getD_none, Bool.or_false, Bool.false_eq_true, if_false]
  rfl

theorem State.scramble_sram (s : State) (a n : Nat) : (s.scramble a n).banks = s.banks ∧ (s.scramble a n).tally = s.tally :=
  ⟨State.setBytes_banks s .., State.setBytes_tally s ..⟩

/-- The save of the depots' areas reads them only. -/
theorem State.saveAreas_sram (s : State) (p : Nat) : (s.saveAreas p).banks = s.banks ∧ (s.saveAreas p).tally = s.tally :=
  List.foldlRecOn (motive := fun t : State => t.banks = s.banks ∧ t.tally = s.tally) _ _ ⟨rfl, rfl⟩ fun t ht c _ => by
    obtain ⟨hb, ht'⟩ := t.scramble_sram (depotBase c + 0x1A00000) 0x600000
    split
    · exact ⟨hb.trans ht.1, ht'.trans ht.2⟩
    · exact ht

theorem State.clearCars_sram (s : State) (p : Nat) :
    (s.clearCars p).banks = s.banks.filter (fun x => !(s.caravans p).contains (x.1 / 336)) ∧
      (s.clearCars p).tally = s.tally.filter (fun x => !(s.caravans p).contains (x.1 / 4096 / 336)) := by
  unfold State.clearCars
  extract_lets cs s1
  exact List.foldlRecOn (motive := fun t : State => t.banks = s1.banks ∧ t.tally = s1.tally) _ _ ⟨rfl, rfl⟩ fun t ht c _ => ht

/-- A partition's own registers are none of its caravans'. -/
theorem not_carReg (p : PartId) : ¬ carReg (Csr.prtPace p) ∧ ¬ carReg (Csr.updStep p) ∧ ¬ carReg Csr.cprPstate ∧ ¬ carReg (Csr.prtOrderBase p) := by
  have := p.isLt
  unfold carReg Csr.prtPace Csr.updStep Csr.cprPstate Csr.prtOrderBase
  omega

theorem State.sealAnswer_frame (s : State) (p status reason : Nat) :
    (s.sealAnswer p status reason).parts = s.parts ∧ (s.sealAnswer p status reason).banks = s.banks ∧
      (s.sealAnswer p status reason).tally = s.tally := by
  unfold State.sealAnswer
  simp only [State.emit_parts, State.setFld_parts, State.emit_banks, State.setFld_banks, State.emit_tally, State.setFld_tally, and_self]

theorem State.emptied_frame (s : State) (p : Nat) (q : Preempt) :
    (s.emptied p q).parts = ((s.clearCars p).updPart p q.leave).parts ∧ (s.emptied p q).banks = (s.clearCars p).banks ∧
      (s.emptied p q).tally = (s.clearCars p).tally := by
  have h : s.emptied p q = (((s.clearCars p).updPart p q.leave).setPartState p 1).sealAnswer p 2 0 := rfl
  unfold State.setPartState at h
  obtain ⟨hparts, hbanks, htally⟩ := State.sealAnswer_frame (((s.clearCars p).updPart p q.leave).setFld (partState p) 1) p 2 0
  rw [h, hparts, hbanks, htally]
  exact ⟨State.setFld_parts .., State.setFld_banks .., State.setFld_tally ..⟩

theorem State.part_emptied (s : State) (p r : Nat) (q : Preempt) :
    (s.emptied p q).part r = if p = r then q.leave (s.part p) else s.part r := by
  have h := State.CarWork.part (State.CarWork.clearCars (p := p) (.refl s))
  calc (s.emptied p q).part r
    _ = ((s.clearCars p).updPart p q.leave).part r := by
      unfold State.part
      rw [(s.emptied_frame p q).1]
    _ = if p = r then q.leave (s.part p) else s.part r := by rw [State.part_updPart, h, h]

theorem State.fld_sealAnswer (s : State) (p : Nat) {status reason : Nat} (hs : status < 2 ^ 8) (hr : reason < 2 ^ 8) :
    (s.sealAnswer p status reason).fld (Csr.hqSealreq_status p) = status ∧
      (s.sealAnswer p status reason).fld (Csr.hqSealreq_reason p) = reason := by
  have hst : (Csr.hqSealreq_status p).lsb + (Csr.hqSealreq_status p).width ≤ 64 := show 8 + 8 ≤ 64 by decide
  have hre : (Csr.hqSealreq_reason p).lsb + (Csr.hqSealreq_reason p).width ≤ 64 := show 16 + 8 ≤ 64 by decide
  have hdisj : (Csr.hqSealreq_reason p).lsb + (Csr.hqSealreq_reason p).width ≤ (Csr.hqSealreq_status p).lsb ∨
      (Csr.hqSealreq_status p).lsb + (Csr.hqSealreq_status p).width ≤ (Csr.hqSealreq_reason p).lsb := .inr (show 8 + 8 ≤ 16 by decide)
  unfold State.sealAnswer
  rw [State.emit_fld_acc, State.emit_fld_acc]
  constructor
  · rw [State.fld_setFld_field _ _ _ _ hre hdisj, State.fld_setFld_same _ _ _ hst]
    exact Nat.mod_eq_of_lt hs
  · rw [State.fld_setFld_same _ _ _ hre]
    exact Nat.mod_eq_of_lt hr

theorem State.answer_emptied (s : State) (p : Nat) (q : Preempt) :
    (s.emptied p q).fld (Csr.hqSealreq_status p) = 2 ∧ (s.emptied p q).fld (Csr.hqSealreq_reason p) = 0 := by
  unfold State.emptied
  exact State.fld_sealAnswer _ p (by decide) (by decide)

theorem State.bank_emptied (s : State) (p : Nat) (q : Preempt) (k : Nat) :
    (s.emptied p q).bank k = if k / 336 ∈ s.caravans p then Bank.empty else s.bank k := by
  have h : (s.emptied p q).banks = s.banks.filter (fun x => !(s.caravans p).contains (x.1 / 336)) := (s.emptied_frame p q).2.1.trans (s.clearCars_sram p).1
  unfold State.bank
  rw [h, Map.get_filter Bank.empty s.banks (fun k => !(s.caravans p).contains (k / 336)) k]
  by_cases hk : k / 336 ∈ s.caravans p <;> simp [hk]

theorem State.entry_emptied (s : State) (p : Nat) (q : Preempt) (k : Nat) :
    (s.emptied p q).entry k = if k / 4096 / 336 ∈ s.caravans p then Entry.zero else s.entry k := by
  have h : (s.emptied p q).tally = s.tally.filter (fun x => !(s.caravans p).contains (x.1 / 4096 / 336)) := (s.emptied_frame p q).2.2.trans (s.clearCars_sram p).2
  unfold State.entry
  rw [h, Map.get_filter Entry.zero s.tally (fun k => !(s.caravans p).contains (k / 4096 / 336)) k]
  by_cases hk : k / 4096 / 336 ∈ s.caravans p <;> simp [hk]

/-- The flush of rows and fences starts no other order beside the one that runs, and leaves what its save is to meet. -/
theorem State.flush_alone {s : State} {p : Nat} {e : Exec} (hprev : (s.part p).prev = none) (he : s.exec? p = some e) :
    ((s.flushRows p).flushFences p).Alone p e.saveBad := by
  have h0 : s.Alone p e.saveBad := ⟨hprev, fun e' he' => by
    rw [show (s.part p).exec = some e from he] at he'
    cases he'
    rfl⟩
  have h1 : (s.flushRows p).Alone p e.saveBad := List.foldlRecOn (motive := fun t : State => t.Alone p e.saveBad) _ _ h0
    fun _ ht _ _ => State.Alone.rowsOut ht
  exact List.foldlRecOn (motive := fun t : State => t.Alone p e.saveBad) _ _ h1 fun _ ht _ _ => State.Alone.takeFences ht

theorem State.preemptTakeEffect_saves {s : State} {p : PartId} {named : Nat} {e e1 : Exec} (hs : s.dev.safeHold = false)
    (hr : (s.part p).preReq = some named) (he : s.exec? p = some e) (hp : s.preemptible p = true) (hf : e.fault = none)
    (hc : e.cancelled = false) (hw : e.waiting = none) (hprev : (s.part p).prev = none) (hu : e.upds.all (·.finished) = true)
    (hl : s.legBoundary p = true) (he1 : ((s.flushRows p).flushFences p).exec? p = some e1) (hf1 : e1.fault = none)
    (hbad1 : e1.saveBad = []) (hp1 : ((s.flushRows p).flushFences p).preemptible p = true)
    (hl1 : ((s.flushRows p).flushFences p).legBoundary p = true)
    (hidle : ∀ c ∈ ((s.flushRows p).flushFences p).caravans p, (((s.flushRows p).flushFences p).car c).xfers = [] ∧
      (((s.flushRows p).flushFences p).car c).remnant = []) :
    ∃ s4 : State, s.preemptNow p = s4.emptied p (s4.savePreempt p named e1) ∧ ((s.flushRows p).flushFences p).CarWork s4 ∧
      s4.banks = ((s.flushRows p).flushFences p).banks ∧ s4.tally = ((s.flushRows p).flushFences p).tally ∧
      (((s.flushRows p).flushFences p).part p).prev = none := by
  have halone := State.flush_alone hprev he
  have hbad : e.saveBad = [] := (halone.exec he1).symm.trans hbad1
  refine ⟨_, State.preemptNow_eq hs hr he hp hf hc hw hprev hu hl he1 hf1 hbad halone.prev hp1 hl1 hidle, ?_⟩
  generalize (s.flushRows p).flushFences p = s1 at *
  obtain ⟨hwork, hcomps, -⟩ := s1.flushXfers_idle (p := p) e fun c hc => (hidle c hc).1
  have hsram := (s1.flushXfers p e).saveAreas_sram p
  exact ⟨hwork.saveAreas, hsram.1.trans (hcomps.comps .banks (by decide)), hsram.2.trans (hcomps.comps .tally (by decide)), halone.prev⟩

/-- What the save q of the partition p leaves. -/
structure State.SavedAs (p : Nat) (q : Preempt) (s t : State) : Prop where
  part : t.part p = q.leave (s.part p)
  other : OnlyPart p s t
  bank : ∀ k, t.bank k = if k / 336 ∈ s.caravans p then Bank.empty else s.bank k
  entry : ∀ k, t.entry k = if k / 4096 / 336 ∈ s.caravans p then Entry.zero else s.entry k
  status : t.fld (Csr.hqSealreq_status p) = 2
  reason : t.fld (Csr.hqSealreq_reason p) = 0

theorem State.savedAs_emptied (s : State) (p : Nat) (q : Preempt) : s.SavedAs p q (s.emptied p q) :=
  ⟨(s.part_emptied p p q).trans (if_pos rfl), fun r hr => (s.part_emptied p r q).trans (if_neg (Ne.symm hr)), s.bank_emptied p q,
    s.entry_emptied p q, (s.answer_emptied p q).1, (s.answer_emptied p q).2⟩

namespace State.SavedAs
variable {p : Nat} {q : Preempt} {s t u : State}

/-- The answer puts the queue back. -/
theorem answered (h : s.SavedAs p q t) : s.SavedAs p q { t with pending := u.pending } :=
  ⟨h.part, h.other, h.bank, h.entry, h.status, h.reason⟩

/-- Work on the caravans before the save shows only in what is saved. -/
theorem after (h : s.SavedAs p q t) (hw : u.CarWork s) (hb : s.banks = u.banks) (ht : s.tally = u.tally) : u.SavedAs p q t := by
  have hbank (k : Nat) : s.bank k = u.bank k := congrArg (Map.get Bank.empty · k) hb
  have hentry (k : Nat) : s.entry k = u.entry k := congrArg (Map.get Entry.zero · k) ht
  refine ⟨?_, fun r hr => (h.other r hr).trans (hw.part r), fun k => ?_, fun k => ?_, h.status, h.reason⟩
  · rw [h.part, hw.part]
  · rw [h.bank, hw.caravans, hbank]
  · rw [h.entry, hw.caravans, hentry]

end State.SavedAs

theorem State.savePreempt_fields (s : State) (p named : Nat) (e : Exec) :
    (s.savePreempt p named e).exec = e.rewind ∧ (s.savePreempt p named e).prev = (s.part p).prev.map Exec.rewind ∧
      (s.savePreempt p named e).gone = false ∧ (s.savePreempt p named e).named = named ∧ (s.savePreempt p named e).resume = false ∧
      (s.savePreempt p named e).atPace = s.fld (Csr.prtPace_pace p) := ⟨rfl, rfl, rfl, rfl, rfl, rfl⟩

/-! The resumption. -/

theorem State.wRefeed_of_none {s : State} {p : Nat} (h : (s.wctx p).waiting = []) :
    s.wRefeed p = s.updWctx p (fun w => { w with waiting := [] }) := by
  unfold State.wRefeed
  rw [h]
  rfl

/-- The execution that a pre-emption saved, with its base moved by d paces, as it goes on after a resumption at the given tag (R121). -/
def Exec.moved (e : Exec) (d tag : Nat) : Exec :=
  { e with base := e.base + d, sigs := e.sigs.map (fun (k, n, c) => (k, n + d, c)), tagAfter := some tag }

/-- What a resumption leaves in the partition p. -/
structure State.Resumed (p : Nat) (e : Exec) (s t : State) : Prop where
  part : OnlyPart p s t
  exec : t.exec? p = some e
  preempt : (t.part p).preempt = none
  base : t.reg (Csr.prtOrderBase p) = BitVec.ofNat 64 e.base
  state : t.fld (partState p) = 0

theorem prtLatency_ne_updStep (p : PartId) : Csr.prtLatency p ≠ Csr.updStep p := by
  unfold Csr.prtLatency Csr.updStep
  omega

theorem cprPstate_ne_prtOrderBase (p : PartId) : Csr.cprPstate ≠ Csr.prtOrderBase p := by
  unfold Csr.cprPstate Csr.prtOrderBase
  omega

theorem State.Resumed.work {p : PartId} {e : Exec} {s t u : State} (h : s.Resumed p e t) (hw : t.CarWork u) : s.Resumed p e u := by
  obtain ⟨-, -, hstate, hbase⟩ := not_carReg p
  exact ⟨fun r hr => (hw.part r).trans (h.part r hr), (hw.exec p).trans h.exec, by rw [hw.part]; exact h.preempt, (hw.regs _ hbase).trans h.base,
    (hw.fld hstate).trans h.state⟩

theorem State.Resumed.updWctx {p : PartId} {e : Exec} {s t : State} {f} (h : s.Resumed p e t) : s.Resumed p e (t.updWctx p f) :=
  ⟨h.part, h.exec, h.preempt, h.base, h.state⟩

theorem State.Resumed.hold {p : PartId} {e : Exec} {s t : State} {src : Nat} {len} (h : s.Resumed p e t) :
    s.Resumed p e (t.hold p src len) := by
  have hp := p.isLt
  have hreg (o : Nat) (h1 : o ≠ Csr.prtHold p) (h2 : o ≠ Csr.prtHoldSrc p src) : (t.hold p src len).reg o = t.reg o := by
    unfold State.hold
    extract_lets new s1
    unfold State.keepMax
    rw [State.reg_setFld_other _ _ _ _ (Ne.symm h1), State.draw_reg_acc, State.reg_count_other _ _ _ _ (Ne.symm h2),
      State.reg_setFld_other _ _ _ _ (Ne.symm h1), State.updPart_reg_acc]
  refine ⟨fun r hr => (State.part_hold_other t p r src len hr).trans (h.part r hr), (State.exec_hold t p p src len).trans h.exec, ?_, ?_, ?_⟩
  · rw [State.part_hold, if_pos rfl]
    exact h.preempt
  · rw [hreg _ (by unfold Csr.prtOrderBase Csr.prtHold; omega) (by unfold Csr.prtOrderBase Csr.prtHoldSrc; omega)]
    exact h.base
  · unfold State.fld
    rw [hreg _ (by show Csr.cprPstate ≠ _; unfold Csr.cprPstate Csr.prtHold; omega)
      (by show Csr.cprPstate ≠ _; unfold Csr.cprPstate Csr.prtHoldSrc; omega)]
    exact h.state

theorem State.restorePreempt_resumes {s : State} {p : PartId} {q : Preempt} (hw : (s.wctx p).waiting = []) :
    s.Resumed p (q.exec.moved (s.pace p - q.atPace) (s.fld (Csr.updStep_tag p))) (s.restorePreempt p q) := by
  unfold State.restorePreempt
  extract_lets d cs s1 s2 s3 s4 s5 s6 s7 s8 s9 s10 s11 was s12 lat s13 tag s14 s15 later e0 e s16 s17 s18
  have h1 : s.CarWork s1 := .clearCars (.refl s)
  have h2 : s.CarWork s2 := h1.foldl fun _ _ _ h => h.frame rfl rfl rfl
  have h3 : s.CarWork s3 := h2.foldl fun _ _ _ h => h.frame rfl rfl rfl
  have h4 : s.CarWork s4 := h3.foldl fun _ _ _ h => h.frame rfl rfl rfl
  have h5 : s.CarWork s5 := h4.foldl fun _ _ _ h => h.frame rfl rfl rfl
  have h6 : s.CarWork s6 := h5.foldl fun _ _ _ h => h.frame rfl rfl rfl
  have h7 : s.CarWork s7 := h6.foldl fun _ _ _ h => h.clearAlloc
  have h8 : s.CarWork s8 := h7.foldl fun _ _ _ h => h.frame rfl rfl rfl
  have h9 : s.CarWork s9 := h8.foldl fun _ _ _ h => h.frame rfl rfl rfl
  have h10 : s.CarWork s10 := h9.frame rfl rfl rfl
  have h11 : s.CarWork s11 := h10.foldl fun _ _ _ h => h.frame rfl rfl rfl
  have h12 : s.CarWork s12 := h11.foldl fun c _ _ h =>
    ((h.setReg (by unfold carReg Csr.drvDepot; omega)).foldl fun i hi _ h => h.setReg (by
      have := List.mem_range.mp hi
      unfold carReg Csr.carQueue
      omega)).foldl fun i hi _ h => h.setFld (by
        have := List.mem_range.mp hi
        show carReg (Csr.stnSpice _ _)
        unfold carReg Csr.stnSpice
        omega)
  clear_value s12
  clear h11 h10 h9 h8 h7 h6 h5 h4 h3 h2 h1
  have h13 : s13.fld (Csr.updStep_tag p) = s.fld (Csr.updStep_tag p) := by
    rw [State.fld_setFld_off _ _ _ _ (prtLatency_ne_updStep p), State.fld_setFld_off _ _ _ _ (prtLatency_ne_updStep p), h12.fld (not_carReg p).2.1]
  have h14 : s14.wctx p = s.wctx p := by
    rw [State.setFld_wctx_acc, State.setFld_wctx_acc, State.setFld_wctx_acc, h12.wctx]
  have h15 : (s15.wctx p).waiting = [] := by
    rw [State.wctx_updWctx_same]
    exact (congrArg Wgh.waiting h14).trans hw
  have h15p (r : Nat) : s15.part r = s.part r := by
    rw [State.updWctx_part_acc, State.setFld_part_acc, State.setFld_part_acc, State.setFld_part_acc, h12.part]
  have hpart (r : Nat) : s16.part r = if p.val = r then { s.part p with preempt := none, exec := some e, prev := q.prev.map later } else s.part r := by
    rw [State.part_updPart, h15p, h15p]
  have hpart17 (r : Nat) : s17.part r = s16.part r := (State.setFld_part_acc _ (partState p) 0 r).trans (State.setReg_part_acc s16 _ _ r)
  have hwctx17 : s17.wctx p = s15.wctx p :=
    (State.setFld_wctx_acc _ (partState p) 0 p).trans ((State.setReg_wctx_acc s16 _ _ p).trans (State.updPart_wctx_acc s15 p _ p))
  have h17 : s.Resumed p e s17 := by
    refine ⟨fun r hr => ?_, ?_, ?_, ?_, ?_⟩
    · rw [hpart17, hpart, if_neg (Ne.symm hr)]
    · unfold State.exec?
      rw [hpart17, hpart, if_pos rfl]
    · rw [hpart17, hpart, if_pos rfl]
    · exact (State.reg_setFld_other _ (partState p) 0 _ (cprPstate_ne_prtOrderBase p)).trans (State.reg_setReg_same s16 _ _)
    · exact State.fld_setFld_same _ (partState p) 0 (by have := p.isLt; show 16 + 2 * p.val + 2 ≤ 64; omega)
  clear_value s17
  have h18 : s.Resumed p e s18 := by
    have hwork : s17.CarWork (cs.foldl (fun s c => s.refill p c) s17) := State.CarWork.foldl (.refl _) fun _ _ _ h => h.refill
    have hnone : ((cs.foldl (fun s c => s.refill p c) s17).wctx p).waiting = [] := (congrArg Wgh.waiting ((hwork.wctx p).trans hwctx17)).trans h15
    have hs18 : s18 = _ := State.wRefeed_of_none hnone
    rw [hs18]
    exact (h17.work hwork).updWctx
  have he : e = q.exec.moved (s.pace p - q.atPace) (s.fld (Csr.updStep_tag p)) := by
    rw [← h13]
    rfl
  rw [← he]
  split
  · exact h18.hold
  · exact h18

/-- Settles O39: the save takes the caravans' banks and entries away and answers, the resumption puts the execution back. -/
theorem preemptionSavesAndResumes : Obligations.PreemptionSavesAndResumes := by
  unfold Obligations.PreemptionSavesAndResumes
  intro s p hs
  refine ⟨?_, ?_, ?_⟩
  · intro named e e1 s1 hr he hp hf hc hw hprev hu hl he1 hf1 hbad hp1 hl1 hidle
    obtain ⟨s4, heq, hwork, hbanks, htally, hprev1⟩ := State.preemptTakeEffect_saves hs hr he hp hf hc hw hprev hu hl he1 hf1 hbad hp1 hl1
      fun c hc => ⟨(hidle c hc).1, (hidle c hc).2.2⟩
    obtain ⟨q, hq⟩ : ∃ q, q = s4.savePreempt p named e1 := ⟨_, rfl⟩
    rw [← hq] at heq
    have hsaved := s4.savePreempt_fields p named e1
    rw [← hq, hwork.part, hprev1, hwork.fld (not_carReg p).1] at hsaved
    have h := ((s4.savedAs_emptied p q).after hwork hbanks htally).answered (u := s)
    rw [← heq] at h
    obtain ⟨hexec, hprev, hgone, hnamed, hresume, hpace⟩ := hsaved
    exact ⟨_, q, (answer_eq s fun s => s.preemptNow p : exec (.preemptTakeEffect p) s = _), congrArg Part.exec h.part,
      congrArg Part.preempt h.part, hexec, hprev, hgone, hnamed, hresume, hpace, congrArg Part.preReq h.part, congrArg Part.holds h.part,
      fun k hk => (h.bank k).trans (if_pos hk), fun k hk => (h.bank k).trans (if_neg hk), fun k hk => (h.entry k).trans (if_pos hk),
      h.status, h.reason, h.other⟩
  · intro q hq hres hgone he hw d
    have h := State.restorePreempt_resumes (q := q) hw
    have hrun : s.preemptResume p = s.restorePreempt p q := by
      unfold State.preemptResume
      simp [hq, he, hres, hgone, hs]
    refine ⟨_, (answer_eq s fun s => s.preemptResume p : exec (.preemptResume p) s = _), ?_⟩
    rw [hrun]
    generalize s.restorePreempt p q = t at h
    refine ⟨h.exec, h.preempt, ?_, h.state, h.part⟩
    have hbase : t.fld (Csr.prtOrderBase_base p) = bitsOf (BitVec.ofNat 64 (q.exec.base + d)).toNat 0 64 :=
      congrArg (fun w : Word => bitsOf w.toNat 0 64) h.base
    refine hbase.trans ?_
    rw [BitVec.toNat_ofNat]
    unfold bitsOf
    omega
  · intro q hq hres hgone he hacts
    have hrun : s.preemptResume p = s.updPart p (fun x => { x with preempt := none }) := by
      unfold State.preemptResume State.applyActs
      simp [hq, he, hres, hgone, hs, hacts]
    refine ⟨_, (answer_eq s fun s => s.preemptResume p : exec (.preemptResume p) s = _), ?_⟩
    rw [hrun]
    have h : s.Within p [.parts] (s.updPart p (fun x => { x with preempt := none })) := (State.Within.refl p [.parts] s).updPart (by decide)
    exact ⟨State.part_updPart_same s p (fun x => { x with preempt := none }), h.answered.part, h.answered.comps⟩

end Sys2Proof.Machine
end

section
/-!
PROOFS. SEND with a stray record. The statement shuts out another SEND that has left by its start, and the model knows it by its record: a SEND
that has not started, though its bucket is already among the sent ones with no chunk left, completes with the next SEND that issues, and
frees the banks it has taken (R191).
-/
namespace Sys2Proof.Machine

/-- The head of a command on station 0 of caravan 0. -/
def strayHead : Head := ⟨0, 0, 0, 0, false, false, 0, 0, 0x01⟩

/-- A wide SEND of bucket 5 that waits for no unit and has not started. -/
def straySend : Cmd :=
  { off := 0, op := 0x70, h := strayHead, w1 := BitVec.ofNat 64 (5 * 2 ^ 12 + 2 ^ 48), units := [], start := none, done := none, prog := 0,
    left := 0, descs := [] }

/-- The record of its bucket, with no chunk to send. -/
def strayRec : SendRec :=
  { seq := 1, step := 0, attempt := 0, bucket := 5, off := 0, wide := true, skipped := false, slices := 0, rows := [], wideVals := [],
    chunks := 0, sent := [], resolved := [], got := [], opened := [], ownDone := [], bad := [] }

/-- The order of both SENDs, at the second one. -/
def straySender : Exec := { strayExec with hdr := BitVec.ofNat 1024 (0x1000 * 2 ^ 64), off := 16, cmds := [straySend] }

/-- Word 1 of the SEND that issues: the wide form, bucket 3, epoch 1, bank 0. -/
def strayWord : Word := BitVec.ofNat 64 (3 * 2 ^ 12 + 2 ^ 32 + 2 ^ 48)

/-- Partition 0 of caravan 0 in epoch 1, with four slots and eight wide buckets. Bank 0 of station 0 is held, bank 1 is the stray SEND's. -/
def straySends : State :=
  { State.reset with
    csr := [(Csr.prtGrant 0, 1), (Csr.wghEpoch 0, 1), (Csr.wghShare 0, 4), (Csr.wghWideCtl 0, 8)]
    parts := [(0, { Part.none with cmap := [0], exec := some straySender })]
    banks := [(bankKey 0 0 false 0, { Bank.empty with st := .held 0 }), (bankKey 0 1 false 0, { Bank.empty with st := .taken 0 })]
    wgh := [(0, { Wgh.none with sends := [strayRec] })] }

theorem takes_straySends : (clsSend true).Takes straySends straySender (straySender.ctx 0 0x70 strayHead strayWord) where
  runs := rfl
  opened := by decide +kernel
  passes := by decide +kernel
  waited := by decide +kernel
  room := by decide +kernel
  ready := by decide +kernel
  arrived := by decide +kernel
  landed := by decide +kernel
  fresh := by decide +kernel
  clean := by decide +kernel

theorem bank_straySends (k : Nat) : (straySends.bank k).st ≠ .taken 16 := by
  by_cases hk : straySends.bank k = Bank.empty
  · rw [hk]
    decide
  · have hmem : ∀ x ∈ straySends.banks, x.2.st ≠ .taken 16 := by decide
    exact hmem _ (Map.mem_of_get_ne hk)

/-- The banks that a SEND leaves are those of its class's offer. -/
theorem bank_of_exec_send {s t : State} {p : PartId} {h : Head} {w1 : Word} (ht : exec (.send p h w1) s = .next t) (k : Nat) :
    t.bank k = ((clsSend (bitOf w1.toNat 48)).offer s p 0x70 h w1).bank k := by
  have heq : exec (.send p h w1) s = .next { (clsSend (bitOf w1.toNat 48)).offer s p 0x70 h w1 with pending := s.pending } :=
    answer_eq s fun s => (clsSend (bitOf w1.toNat 48)).offer s p 0x70 h w1
  rw [Host.Outcome.next.inj (ht.symm.trans heq)]
  rfl

/-- Refutes O18: the SEND that issues frees the banks of another one, which has not started. -/
theorem not_sendOpensItsBucket : ¬ Obligations.SendOpensItsBucket := by
  unfold Obligations.SendOpensItsBucket
  intro h
  have hother : ∀ q, q = straySender ∨ (straySends.part 0).prev = some q → ∀ m ∈ q.cmds, m.op = 0x70 → m.done.isSome = true ∨ m.start = none := by
    rintro q (rfl | hq) m hm -
    · exact .inr (List.mem_singleton.mp hm ▸ rfl)
    · cases hq
  obtain ⟨hopens, -⟩ := h straySends 0 strayHead strayWord straySender takes_straySends rfl rfl bank_straySends hother rfl rfl rfl
  obtain ⟨t, e', hexec, -, -, -, -, -, hbanks, -⟩ := hopens (by decide +kernel) (by decide +kernel)
  have hsent : t.bank 21 = ((clsSend (bitOf strayWord.toNat 48)).offer straySends 0 0x70 strayHead strayWord).bank 21 :=
    bank_of_exec_send hexec 21
  have hkept : t.bank 21 = straySends.bank 21 := (hbanks 21).trans (if_neg (by decide +kernel))
  have hfreed : ((clsSend (bitOf strayWord.toNat 48)).offer straySends 0 0x70 strayHead strayWord).bank 21 = Bank.empty := by decide +kernel
  have htaken : straySends.bank 21 ≠ Bank.empty := by decide +kernel
  exact htaken (hkept.symm.trans (hsent.trans hfreed))

end Sys2Proof.Machine
end

section
/-!
PROOFS. The fault that stops an order (R150, R151, R223): what the stop of an order touches, and the step watchdog (R135).
-/
namespace Sys2Proof.Machine

/-! The stop of an order. -/

namespace State.CarWork
variable {s t : State}

theorem zeroRange {a n} (h : s.CarWork t) : s.CarWork (t.zeroRange a n) := h.frame rfl rfl rfl
theorem invalidateStaging {c} (h : s.CarWork t) : s.CarWork (t.invalidateStaging c) := h.zeroRange.zeroRange
theorem scrambleAhead {c} (h : s.CarWork t) : s.CarWork (t.scrambleAhead c) :=
  h.foldl fun _ _ _ h1 => h1.foldl fun _ _ _ h2 => h2.foldl fun _ _ _ h3 => h3.scramble

end State.CarWork

/-- Besides the halt of its partition's executions, the stop of an order is work on caravans (R151, R223). -/
theorem State.stopOrder_work {s : State} {p : Nat} {e : Exec} (he : s.exec? p = some e) :
    ∃ u, s.CarWork u ∧ s.stopOrder p = (u.updPart p (fun x => { x with prev := (s.part p).prev.map Exec.halted })).setExec p e.halted := by
  unfold State.stopOrder
  split
  case h_1 hn => exact absurd (he.symm.trans hn) (by simp)
  case h_2 e' he' =>
    obtain rfl : e = e' := Option.some.inj (he.symm.trans he')
    extract_lets cs older s1 s2 s3 s4 s5
    refine ⟨s5, ?_, rfl⟩
    have h1 : s.CarWork s1 := (State.CarWork.refl s).foldl fun _ _ _ h => h.scramble
    have h2 : s.CarWork s2 := h1.foldl fun _ _ _ h => h.scrambleAhead
    have h3 : s.CarWork s3 := h2.foldl fun _ _ _ h => h.invalidateStaging
    have h4 : s.CarWork s4 := h3.foldl fun _ _ _ h => h.updCar.scanOver
    exact h4.frame rfl rfl rfl

/-- What a fault that stops an order leaves: the execution e in partition p, every other partition, and every register that is not a
caravan's. -/
structure State.Fails (p : Nat) (e : Exec) (s t : State) : Prop where
  exec : t.exec? p = some e
  part : OnlyPart p s t
  regs : ∀ o, ¬ carReg o → t.reg o = s.reg o

/-- The execution of an order that a fault has stopped. -/
def Exec.failed (e : Exec) (r : Word × Word × Word × Word) : Exec := { e.halted with fault := some r, partFault := false }

/-- The first fault of an order, when it is no part fault, stops the order with its record (R150, R151). -/
theorem State.raise_fails {s : State} {p unit code off w3 : Nat} {e : Exec} (he : s.exec? p = some e) (hf : e.fault = none)
    (hc : isPartFault code = false) :
    s.Fails p (e.failed (faultRec p code unit e.seq (s.orderPace p) off w3)) (s.raise p unit code off w3) := by
  obtain ⟨u, hu, hstop⟩ := State.stopOrder_work he
  rw [State.exec_raise_first he hf, if_neg (by simp [hc]), hstop, State.updExec_some _ (State.exec_setExec_same ..), hc]
  refine ⟨State.exec_setExec_same .., fun q hq => ?_, hu.regs⟩
  rw [State.part_setExec_other _ _ _ _ hq, State.part_setExec_other _ _ _ _ hq, State.part_updPart_other _ _ _ _ hq, hu.part]

/-! The step watchdog. -/

theorem State.fld_congr {s t : State} {r : FieldRef} (h : t.reg r.off = s.reg r.off) : t.fld r = s.fld r := by
  unfold State.fld
  rw [h]

/-- The order pace rests on the execution and on two registers (R121). -/
theorem State.orderPace_congr {s t : State} {p : Nat} (he : t.exec? p = s.exec? p) (hp : t.reg (Csr.prtPace p) = s.reg (Csr.prtPace p))
    (hb : t.reg (Csr.prtOrderBase p) = s.reg (Csr.prtOrderBase p)) : t.orderPace p = s.orderPace p := by
  have hpace : t.pace p = s.pace p := State.fld_congr (r := Csr.prtPace_pace p) hp
  unfold State.orderPace
  rw [he, hpace, State.fld_congr (r := Csr.prtOrderBase_base p) hb]

/-- The counted expiry of the watchdog moves no pace. -/
theorem orderPace_expiry (s : State) (p : PartId) : (s.count (Csr.prtWdog_expiries p) 1).orderPace p = s.orderPace p := by
  have hpace : (Csr.prtWdog_expiries p).off ≠ Csr.prtPace p := by
    simp only [Csr.prtWdog_expiries, Csr.prtWdog, Csr.prtPace]
    omega
  have hbase : (Csr.prtWdog_expiries p).off ≠ Csr.prtOrderBase p := by
    simp only [Csr.prtWdog_expiries, Csr.prtWdog, Csr.prtOrderBase]
    omega
  exact State.orderPace_congr (State.count_exec_acc ..) (State.reg_count_other _ _ _ _ hpace) (State.reg_count_other _ _ _ _ hbase)

theorem not_carReg_prtWdog (p : PartId) : ¬ carReg (Csr.prtWdog p) := by
  have := p.isLt
  unfold carReg Csr.prtWdog
  omega

/-- Settles O33: the first fault of the order is raised after the count of the expiry, and the stop of the order writes no register but
those of caravans. -/
theorem watchdogFaults : Obligations.WatchdogFaults := by
  unfold Obligations.WatchdogFaults
  intro s p e he hf hcan hhold hsus
  let off := e.cmds.foldl (fun n m => min n m.off) e.off
  let u := s.count (Csr.prtWdog_expiries p) 1
  have hstep : s.watchdog p = u.raise p (manUnit s p) 0x0D off (s.dogWord p e) := by
    unfold State.watchdog
    simp only [he, hf, hcan, hhold, hsus]
    rfl
  have hfails : u.Fails p (e.failed (faultRec p 0x0D (manUnit s p) e.seq (u.orderPace p) off (s.dogWord p e))) (s.watchdog p) := by
    rw [hstep]
    exact State.raise_fails ((State.count_exec_acc ..).trans he) hf rfl
  have hcount : u.fld (Csr.prtWdog_expiries p) = min (s.fld (Csr.prtWdog_expiries p) + 1) (2 ^ 16 - 1) :=
    State.fld_count_same _ _ _ (by simp [Csr.prtWdog_expiries])
  have hkept : (s.watchdog p).fld (Csr.prtWdog_expiries p) = u.fld (Csr.prtWdog_expiries p) :=
    State.fld_congr (hfails.regs _ (not_carReg_prtWdog p))
  rw [orderPace_expiry] at hfails
  exact ⟨_, _, rfl, hfails.exec, rfl, rfl, rfl, hkept.trans hcount,
    fun q hq => (hfails.part q hq).trans (State.count_part_acc ..)⟩

end Sys2Proof.Machine
end

section
/-!
PROOFS. QPUSH and QPOP with a stray caravan. The statements bound no number of a caravan map, and the router of caravan 24 lies in a half
that the device does not have: what a queue command fetches or stores there is counted in a register of that half, which is none of the
mesh's registers.
-/
namespace Sys2Proof.Machine

/-- The order of a queue command: a stream of 32 bytes, a table of two descriptors at 0, and class 0x33 in its timing table. -/
def strayQueuer : Exec :=
  { strayExec with hdr := BitVec.ofNat 1024 (0x20 * 2 ^ 64 + 2 * 2 ^ 192), off := 0, cmds := [], timing := [⟨0x33, 64, 64⟩] }

/-- The head of a command of caravan 0. -/
def strayQueueHead : Head := ⟨0, 0, 0, 0, false, false, 0, 0, 0x81⟩

/-- Word 1 of a queue command: queue 0, and descriptor 1 is its buffer. -/
def strayQueueWord : Word := BitVec.ofNat 64 (2 ^ 6)

/-- A partition whose caravan map gives caravan 24 for its caravan 0. Its window is the depot of caravan 0, where its descriptor 1 names the
64 bytes at 0x1000. Queue 0 has room for four entries, and holds n. -/
def strayQueue (n : Nat) : State :=
  { State.reset with
    csr := [(Csr.prtWinVa 0 0, BitVec.ofNat 64 (7 + 2 ^ 48)), (Csr.prtWinPa 0 0, BitVec.ofNat 64 (depotBase 0)), (Csr.prtGrant 0, 1),
      (Csr.carQueue 24 0, BitVec.ofNat 64 (4 + n * 2 ^ 12))]
    mem := [(depotBase 0 + 65, 0x10), (depotBase 0 + 80, 1), (depotBase 0 + 84, 64), (depotBase 0 + 88, 64), (depotBase 0 + 96, 1)]
    queues := [(queueKey 24 0, { Queue.empty with ready := List.replicate n 0, offs := List.replicate n 0 })]
    parts := [(0, { Part.none with cmap := [24], exec := some strayQueuer })] }

/-- Before the command, no memory is cut off from caravan 24. -/
theorem joined_strayQueue {n : Nat} (hn : n < 2) : (strayQueue n).Joined (rtrOfCar 24) := by
  have hwhole : ∀ n < 2, (strayQueue n).meshWhole = true := by decide +kernel
  have hhalf : ∀ n < 2, (strayQueue n).HalfWhole (rtrOfCar 24).half := by
    unfold State.HalfWhole
    decide +kernel
  exact joined_of_halfWhole (hwhole n hn) (hhalf n hn) (by decide)

theorem takes_strayPush : clsQpush.Takes (strayQueue 0) strayQueuer (strayQueuer.ctx 0 0x02 strayQueueHead strayQueueWord) where
  runs := rfl
  opened := by decide +kernel
  passes := by decide +kernel
  waited := by decide +kernel
  room := by decide +kernel
  ready := by decide +kernel
  arrived := by decide +kernel
  landed := by decide +kernel
  fresh := by decide +kernel
  clean := poisonCheck_of_clean rfl

theorem takes_strayPop : clsQpop.Takes (strayQueue 1) strayQueuer (strayQueuer.ctx 0 0x03 strayQueueHead strayQueueWord) where
  runs := rfl
  opened := by decide +kernel
  passes := by decide +kernel
  waited := by decide +kernel
  room := by decide +kernel
  ready := by decide +kernel
  arrived := by decide +kernel
  landed := by decide +kernel
  fresh := by decide +kernel
  clean := poisonCheck_of_clean rfl

theorem reg_exec_qpush {s t : State} {p : PartId} {h : Head} {w1 : Word} (ht : exec (.qpush p h w1) s = .next t) (o : Nat) :
    t.reg o = (clsQpush.offer s p 0x02 h w1).reg o := by
  have heq : exec (.qpush p h w1) s = .next { clsQpush.offer s p 0x02 h w1 with pending := s.pending } :=
    answer_eq s fun s => clsQpush.offer s p 0x02 h w1
  rw [Host.Outcome.next.inj (ht.symm.trans heq), reg_withPending]

theorem reg_exec_qpop {s t : State} {p : PartId} {h : Head} {w1 : Word} (ht : exec (.qpop p h w1) s = .next t) (o : Nat) :
    t.reg o = (clsQpop.offer s p 0x03 h w1).reg o := by
  have heq : exec (.qpop p h w1) s = .next { clsQpop.offer s p 0x03 h w1 with pending := s.pending } :=
    answer_eq s fun s => clsQpop.offer s p 0x03 h w1
  rw [Host.Outcome.next.inj (ht.symm.trans heq), reg_withPending]

/-- Refutes O9: the fetch of a QPUSH's buffer into caravan 24 is counted in a register that the statement keeps. -/
theorem not_qpushAppends : ¬ Obligations.QpushAppends := by
  unfold Obligations.QpushAppends
  intro h
  have hcar : (strayQueue 0).qCar (strayQueuer.ctx 0 0x02 strayQueueHead strayQueueWord) = 24 := by decide +kernel
  obtain ⟨t, e', hexec, -, -, -, -, -, -, -, -, -, hregs, -⟩ := h (strayQueue 0) 0 strayQueueHead strayQueueWord strayQueuer takes_strayPush
    (hcar ▸ joined_strayQueue (by decide)) (.inl rfl) (poisonCheck_of_clean rfl)
  have hkept : t.reg (Csr.mshRouter 2 8) = (strayQueue 0).reg (Csr.mshRouter 2 8) := hregs _ (by decide +kernel)
  have hcounted : (clsQpush.offer (strayQueue 0) 0 0x02 strayQueueHead strayQueueWord).reg (Csr.mshRouter 2 8) ≠
      (strayQueue 0).reg (Csr.mshRouter 2 8) := by decide +kernel
  exact hcounted ((reg_exec_qpush hexec _).symm.trans hkept)

/-- Refutes O10: the store of a QPOP's entry from caravan 24 is counted in a register that the statement keeps. -/
theorem not_qpopTakesTheOldest : ¬ Obligations.QpopTakesTheOldest := by
  unfold Obligations.QpopTakesTheOldest
  intro h
  have hcar : (strayQueue 1).qCar (strayQueuer.ctx 0 0x03 strayQueueHead strayQueueWord) = 24 := by decide +kernel
  obtain ⟨t, hexec, -, -, -, -, -, -, -, -, hregs, -⟩ := h (strayQueue 1) 0 strayQueueHead strayQueueWord strayQueuer takes_strayPop
    (hcar ▸ joined_strayQueue (by decide)) (.inl rfl) (by decide +kernel)
  have hkept : t.reg (Csr.mshRouter 2 8) = (strayQueue 1).reg (Csr.mshRouter 2 8) := hregs _ (by decide +kernel)
  have hcounted : (clsQpop.offer (strayQueue 1) 0 0x03 strayQueueHead strayQueueWord).reg (Csr.mshRouter 2 8) ≠
      (strayQueue 1).reg (Csr.mshRouter 2 8) := by decide +kernel
  exact hcounted ((reg_exec_qpop hexec _).symm.trans hkept)

end Sys2Proof.Machine
end

section
/-!
PROOFS. The realignment after merged holds (R129): what it leaves.
-/
namespace Sys2Proof.Machine

/-- Without the registers among the pieces changed, every register reads as before. -/
theorem State.Within.reg {p : Nat} {fs : List Comp} {s t : State} (h : s.Within p fs t) (hc : .csr ∉ fs) (o : Nat) : t.reg o = s.reg o := by
  have : t.csr = s.csr := h.comps .csr hc
  unfold State.reg
  rw [this]

/-- A hold writes two registers. -/
theorem State.reg_hold {s : State} {p src o : Nat} (len : Option Nat) (h1 : o ≠ Csr.prtHold p) (h2 : o ≠ Csr.prtHoldSrc p src) :
    (s.hold p src len).reg o = s.reg o := by
  unfold State.hold
  extract_lets new s1
  unfold State.keepMax
  rw [State.reg_setFld_other _ _ _ _ (Ne.symm h1), State.draw_reg_acc, State.reg_count_other _ _ _ _ (Ne.symm h2),
    State.reg_setFld_other _ _ _ _ (Ne.symm h1), State.updPart_reg_acc]

/-- A realignment is a hold of source 8 or nothing, after a draw or none. -/
theorem State.realignFree_cases (s0 s : State) (p : Nat) :
    s0.realignFree s p = s ∨ ∃ n, s0.realignFree s p = s0.realign s.draw.2 p n := by
  unfold State.realignFree
  split
  · exact .inr ⟨_, rfl⟩
  · exact .inl rfl

/-- Nothing is realigned while a hold is in force. -/
theorem State.realignFree_held {s0 s : State} {p : Nat} (h : s.held p = true) : s0.realignFree s p = s := by
  simp [State.realignFree, h]

theorem State.exec_realignFree (s0 s : State) (p q : Nat) : (s0.realignFree s p).exec? q = s.exec? q := by
  obtain h | ⟨n, h⟩ := State.realignFree_cases s0 s p
  · rw [h]
  · rw [h, State.exec_realign]
    rfl

theorem State.reg_realignFree {s0 s : State} {p o : Nat} (h1 : o ≠ Csr.prtHold p) (h2 : o ≠ Csr.prtHoldSrc p 8) :
    (s0.realignFree s p).reg o = s.reg o := by
  obtain h | ⟨n, h⟩ := State.realignFree_cases s0 s p
  · rw [h]
  · rw [h]
    unfold State.realign
    split
    · exact State.reg_hold _ h1 h2
    · rfl

/-- The holds in force stay, or none was and the rest stop under source 8 within the hold wave. -/
theorem State.holds_realignFree (s0 s : State) (p : Nat) :
    ((s0.realignFree s p).part p).holds = (s.part p).holds ∨
      ((s.part p).holds = [] ∧ (s0.part p).merged = true ∧ ∃ n, 0 < n ∧ n ≤ s.wave p ∧ ((s0.realignFree s p).part p).holds = [⟨8, some n⟩]) := by
  unfold State.realignFree
  split
  case isFalse => exact .inl rfl
  case isTrue h =>
    simp only [Bool.and_eq_true, Bool.not_eq_true', State.held, Bool.not_eq_false', List.isEmpty_iff] at h
    obtain ⟨hm, hh⟩ := h
    have hwave : s.draw.2.wave p = s.wave p := rfl
    have hpart : s.draw.2.part p = s.part p := rfl
    rw [State.holds_realign, hwave, hpart, hm, hh]
    by_cases hn : s.draw.1 % (s.wave p + 1) = 0
    · exact .inl (by simp [hn])
    · refine .inr ⟨rfl, rfl, _, Nat.pos_of_ne_zero hn, Nat.lt_succ_iff.mp (Nat.mod_lt _ (Nat.succ_pos _)), by simp [hn]⟩

theorem State.hasHold_realignFree {s0 s : State} {p src : Nat} (h8 : src ≠ 8) :
    (s0.realignFree s p).hasHold p src = s.hasHold p src := by
  unfold State.hasHold
  obtain h | ⟨hnil, -, n, -, -, h⟩ := State.holds_realignFree s0 s p
  · rw [h]
  · rw [h, hnil]
    simp [Ne.symm h8]

theorem State.Within.realignFree {p : Nat} {fs : List Comp} {s0 s t : State} (hc : .csr ∈ fs) (hp : .parts ∈ fs) (hd : .free ∈ fs)
    (h : s.Within p fs t) : s.Within p fs (s0.realignFree t p) := by
  unfold State.realignFree
  split
  · unfold State.realign
    exact .ite ((h.draw hd).hold hc hp hd) (h.draw hd)
  · exact h

end Sys2Proof.Machine
end

section
/-!
PROOFS. ELASTIC_WAIT_SATISFIED (R145, R146): what arrives for the waiting command, and the end of its wait.
-/
namespace Sys2Proof.Machine

theorem State.Within.setFlag {p k : Nat} {fs : List Comp} {s t : State} {x : Flag} (h : s.Within p fs t) (hf : .flags ∈ fs) :
    s.Within p fs (t.setFlag k x) :=
  h.of_comp hf rfl fun g hg => by
    cases g with
    | flags => exact absurd rfl hg
    | _ => rfl

/-- Steps 6 to 8 of R160 with nothing against them: the command's own effect starts from `took`. -/
theorem Cls.proceed_goes {c : Cls} {s : State} {e : Exec} {x : Ctx} (he : s.exec? x.p = some e) (hfly : c.inFlight s x e = false)
    (hlate : c.late s x = none) (hwait : s.waitFlag x.p (s.flagCar x) x.h.wait.toNat = .go) (hunits : c.units s x = [])
    (hready : c.ready s x = none) (hin : c.wait s x = false) (hclean : s.poison = []) : c.proceed s x = c.start (s.took x) x := by
  have hflag : s.waitFlag x.p ((s.scopeCars x).headD (s.home x.p)) x.h.wait.toNat = .go := hwait
  unfold Cls.proceed
  simp only [he, hfly, hlate, hflag, hunits, hready, hin, poisonCheck_of_clean hclean, List.any_nil, Bool.false_eq_true, if_false]
  rfl

/-- A NOP reads nothing that could be in flight to it. -/
theorem clsNop_inFlight (s : State) (x : Ctx) (e : Exec) : clsNop.inFlight s x e = false := by
  simp [Cls.inFlight, clsNop, Cls.base, touches]

/-- Two states are read alike when only flags and executions differ. -/
theorem State.Alike.of_flags {s t : State} (h : OnlyChanges [.flags, .parts] s t) (hc : ∀ q, (t.part q).cmap = (s.part q).cmap) :
    State.Alike s t :=
  ⟨h .csr (by decide), h .mem (by decide), h .poison (by decide), h .spice (by decide), hc⟩

/-! What arrives. -/

/-- For a command that waits on a flag and on no queue, the signals on the way to the flag arrive. -/
theorem State.arriveFor_flag {s : State} {p op : Nat} {h : Head} {w1 : Word} {e : Exec} (he : s.exec? p = some e) (hop : op ≠ 0x03)
    (hw : h.wait ≠ 0) :
    let k := s.flagKey p (s.flagCar (e.ctx p op h w1)) h.wait.toNat
    s.arriveFor p op h w1 = if e.signalsTo k = 0 then s else
      (s.setFlag k { s.flagAt k with count := (s.flagAt k).count + e.signalsTo k }).setExec p
        { e with sigs := e.sigs.filter (fun y => y.1 ≠ k) } := by
  unfold State.arriveFor
  simp only [he, hop, hw, if_false]
  rfl

/-- No signal goes to a flag that none of those on the way names. -/
theorem Exec.sigs_filter_of_none {e : Exec} {k : Nat} (h : e.signalsTo k = 0) : e.sigs.filter (fun y => y.1 ≠ k) = e.sigs := by
  refine List.filter_eq_self.mpr fun y hy => ?_
  have hnone := List.filter_eq_nil_iff.mp (List.length_eq_zero_iff.mp h) y hy
  simpa using hnone

/-- What arrives for a waiting command changes, of its partition, the signals on the way. -/
theorem State.part_arriveFor {s : State} {p op : Nat} {h : Head} {w1 : Word} {e : Exec} (he : s.exec? p = some e) :
    ∃ l, (s.arriveFor p op h w1).part p = { s.part p with exec := some { e with sigs := l } } := by
  unfold State.arriveFor
  split
  case h_1 hn => exact absurd (he.symm.trans hn) (by simp)
  case h_2 e' he' =>
    obtain rfl : e = e' := Option.some.inj (he.symm.trans he')
    extract_lets x key n f s1
    have h1 : ∃ l, s1.part p = { s.part p with exec := some { e with sigs := l } } := by
      unfold s1
      split
      · exact ⟨e.sigs, by rw [← show (s.part p).exec = some e from he]⟩
      · exact ⟨_, State.part_setExec_same ..⟩
    split
    · exact h1
    · exact h1

/-- A waiting command goes on when what arrived for it makes it ready, and waits on otherwise. -/
theorem State.elasticWait_eq {s : State} {p op : Nat} {h : Head} {w1 : Word} {e : Exec} (hsafe : s.dev.safeHold = false)
    (he : s.exec? p = some e) (hf : e.fault = none) (hhold : s.hasHold p 2 = true) (hwait : e.waiting = some (op, h, w1)) :
    s.elasticWait p = if (s.arriveFor p op h w1).waitOver p op h w1 then (s.arriveFor p op h w1).resumeWaiting p op h w1
      else s.arriveFor p op h w1 := by
  unfold State.elasticWait
  simp [State.stopped_of_no_fault he hf, hsafe, hhold, he, hwait]

theorem State.waitFlag_congr {s t : State} (a : s.Alike t) (hf : ∀ k, t.flagAt k = s.flagAt k) (p c idx : Nat) :
    t.waitFlag p c idx = s.waitFlag p c idx := by
  unfold State.waitFlag
  rw [a.flagKey, hf]

theorem State.waitFlag_go {s : State} {p c idx : Nat} (hq : (s.flagAt (s.flagKey p c idx)).quantum ≠ 0)
    (hn : (s.flagAt (s.flagKey p c idx)).quantum ≤ (s.flagAt (s.flagKey p c idx)).count) : s.waitFlag p c idx = .go := by
  simp [State.waitFlag, hq, hn]

theorem State.held_of_hasHold {s : State} {p src : Nat} (h : s.hasHold p src = true) : s.held p = true := by
  obtain ⟨x, hx, -⟩ := List.any_eq_true.mp h
  simpa [State.held] using List.ne_nil_of_mem hx

/-- The state of a command that waits no longer (R145). -/
def State.unwaited (s : State) (p : Nat) (e : Exec) : State := ((s.setExec p { e with waiting := none }).unhold p 2).unhold p 1

theorem State.unwaited_within (s : State) (p : Nat) (e : Exec) : s.Within p [.parts] (s.unwaited p e) :=
  (((State.Within.refl ..).setExec (by decide)).unhold (by decide)).unhold (by decide)

theorem State.exec_unwaited (s : State) (p : Nat) (e : Exec) : (s.unwaited p e).exec? p = some { e with waiting := none } := by
  simp [State.unwaited]

theorem State.unwaited_alike (s : State) (p : Nat) (e : Exec) : s.Alike (s.unwaited p e) := by
  refine .of_flags ((s.unwaited_within p e).comps.widen (by decide)) fun q => ?_
  by_cases hq : q = p
  · subst hq
    simp [State.unwaited, State.unhold, State.part_setExec_same]
  · rw [(s.unwaited_within p e).part q hq]

/-- No hold of source 2 is in force once the command waits no longer, but for one with cycles left. -/
theorem State.hasHold_unwaited {s : State} {p : Nat} (e : Exec) (h : ∀ x ∈ (s.part p).holds, x.src = 2 → x.left = none) :
    (s.unwaited p e).hasHold p 2 = false := by
  simp only [State.unwaited, State.unhold, State.hasHold, State.part_updPart_same, State.part_setExec_same, List.any_eq_false, List.mem_filter,
    bne_iff_ne, ne_eq, Bool.or_eq_true, decide_eq_true_eq]
  rintro x ⟨⟨hx, hkeep⟩, -⟩ hsrc
  have := h x hx hsrc
  simp [hsrc, this] at hkeep

/-- A waiting NOP whose flag is ready goes on from the state in which it waits no longer. -/
theorem clsNop_resume {s : State} {p : Nat} {h : Head} {w1 : Word} {e : Exec} (he : s.exec? p = some e) (hsig : h.signal = 0)
    (hclean : s.poison = []) (hgo : s.waitFlag p (s.flagCar (e.ctx p 0x00 h w1)) h.wait.toNat = .go) :
    clsNop.resume s p 0x00 h w1 = (s.unwaited p e).took (e.ctx p 0x00 h w1) := by
  have a := s.unwaited_alike p e
  have hgo' : (s.unwaited p e).waitFlag p ((s.unwaited p e).flagCar (e.ctx p 0x00 h w1)) h.wait.toNat = .go := by
    rw [a.flagCar, State.waitFlag_congr a fun k => congrArg (Map.get Flag.none · k) ((s.unwaited_within p e).comps .flags (by decide)), hgo]
  have hrun : clsNop.resume s p 0x00 h w1 = clsNop.proceed (s.unwaited p e) (e.ctx p 0x00 h w1) := by
    unfold Cls.resume
    simp only [he]
    rfl
  rw [hrun, Cls.proceed_goes (x := e.ctx p 0x00 h w1) (s.exec_unwaited p e) (clsNop_inFlight ..) rfl hgo' rfl rfl rfl (a.poison.trans hclean)]
  show ((s.unwaited p e).took _).signal _ _ _ _ h.signal.toNat _ = _
  rw [hsig]
  exact State.signal_zero ..

/-- The signals on the way to a flag have arrived for a command that waits on it, and the wait is over (R144, R145). -/
structure State.Arrived (p k : Nat) (e : Exec) (s t : State) : Prop where
  part : t.part p = { s.part p with exec := some { e with sigs := e.sigs.filter (fun y => y.1 ≠ k) } }
  flag : ∀ j, t.flagAt j = if j = k then { s.flagAt k with count := (s.flagAt k).count + e.signalsTo k } else s.flagAt j
  within : s.Within p [.flags, .parts] t

theorem State.arriveFor_arrived {s : State} {p op : Nat} {h : Head} {w1 : Word} {e : Exec} (he : s.exec? p = some e) (hop : op ≠ 0x03)
    (hw : h.wait ≠ 0) :
    s.Arrived p (s.flagKey p (s.flagCar (e.ctx p op h w1)) h.wait.toNat) e (s.arriveFor p op h w1) := by
  rw [State.arriveFor_flag he hop hw]
  generalize s.flagKey p (s.flagCar (e.ctx p op h w1)) h.wait.toNat = k
  split
  case isTrue hnone =>
    refine ⟨?_, fun j => ?_, .refl ..⟩
    · rw [Exec.sigs_filter_of_none hnone, ← show (s.part p).exec = some e from he]
    · rw [hnone, Nat.add_zero]
      split
      · rename_i hj
        rw [hj]
      · rfl
  case isFalse =>
    refine ⟨State.part_setExec_same .., fun j => ?_, .setExec ((State.Within.refl ..).setFlag (by decide)) (by decide)⟩
    rw [State.setExec_flagAt_acc, State.flagAt_setFlag]
    exact if_congr eq_comm rfl rfl

/-- What a NOP leaves that took its wait on flag k once the signals on the way had arrived (R144, R188). -/
structure State.NopDone (p k : Nat) (x : Ctx) (e : Exec) (s t : State) : Prop where
  exec : t.exec? p = some { s.passed x e with waiting := none, sigs := e.sigs.filter (fun y => y.1 ≠ k) }
  flag : ∀ j, t.flagAt j =
    if j = k then { s.flagAt k with count := (s.flagAt k).count + e.signalsTo k - (s.flagAt k).quantum } else s.flagAt j
  nohold : t.hasHold p 2 = false
  within : s.Within p [.flags, .parts] t

theorem State.Arrived.alike {p k : Nat} {e : Exec} {s t : State} (h : s.Arrived p k e t) : s.Alike t :=
  .of_flags h.within.comps fun q => by
    by_cases hq : q = p
    · rw [hq, h.part]
    · rw [h.within.part q hq]

theorem State.Arrived.took {s t : State} {x : Ctx} {e : Exec} (h : s.Arrived x.p (s.flagKey x.p (s.flagCar x) x.h.wait.toNat) e t)
    (hw : x.h.wait ≠ 0) (hleft : ∀ y ∈ (s.part x.p).holds, y.src = 2 → y.left = none) :
    s.NopDone x.p (s.flagKey x.p (s.flagCar x) x.h.wait.toNat) x e
      ((t.unwaited x.p { e with sigs := e.sigs.filter (fun y => y.1 ≠ s.flagKey x.p (s.flagCar x) x.h.wait.toNat) }).took x) := by
  set k := s.flagKey x.p (s.flagCar x) x.h.wait.toNat with hk
  set e' : Exec := { e with sigs := e.sigs.filter (fun y => y.1 ≠ k) }
  have a : s.Alike (t.unwaited x.p e') := h.alike.trans (t.unwaited_alike x.p e')
  have hkey : (t.unwaited x.p e').flagKey x.p ((t.unwaited x.p e').flagCar x) x.h.wait.toNat = k := by rw [a.flagCar, a.flagKey]
  have hwithin := t.unwaited_within x.p e'
  have hflag (j : Nat) : (t.unwaited x.p e').flagAt j = t.flagAt j := congrArg (Map.get Flag.none · j) (hwithin.comps .flags (by decide))
  have htook : (t.unwaited x.p e').Within x.p [.flags, .parts] ((t.unwaited x.p e').took x) :=
    ⟨fun q hq => State.took_other _ x q hq, State.took_frame _ x⟩
  refine ⟨?_, fun j => ?_, ?_, (h.within.trans (hwithin.widen (by decide))).trans htook⟩
  · rw [State.exec_took (t.exec_unwaited x.p e')]
    unfold State.passed State.marksOf
    rw [a.scopeCars]
  · rw [State.flagAt_took, State.afterWait, hkey, hflag, h.flag]
    by_cases hj : j = k
    · rw [if_pos ⟨hw, hj⟩, if_pos hj, if_pos hj]
    · rw [if_neg fun hc => hj hc.2, if_neg hj, if_neg hj]
  · have hv : (t.unwaited x.p e').hasHold x.p 2 = false := State.hasHold_unwaited e' (by rw [h.part]; exact hleft)
    unfold State.hasHold at hv ⊢
    rw [State.part_took (t.exec_unwaited x.p e')]
    exact hv

/-- A NOP whose wait what arrives ends: the flag is ready, and the command goes on. -/
theorem State.Arrived.nop {s t : State} {p : Nat} {h : Head} {w1 : Word} {e : Exec}
    (harr : s.Arrived p (s.flagKey p (s.flagCar (e.ctx p 0x00 h w1)) h.wait.toNat) e t) (hsig : h.signal = 0) (hclean : s.poison = [])
    (hq : (s.flagAt (s.flagKey p (s.flagCar (e.ctx p 0x00 h w1)) h.wait.toNat)).quantum ≠ 0)
    (hn : (s.flagAt (s.flagKey p (s.flagCar (e.ctx p 0x00 h w1)) h.wait.toNat)).quantum ≤
      (s.flagAt (s.flagKey p (s.flagCar (e.ctx p 0x00 h w1)) h.wait.toNat)).count +
        e.signalsTo (s.flagKey p (s.flagCar (e.ctx p 0x00 h w1)) h.wait.toNat)) :
    t.waitOver p 0x00 h w1 = true ∧ t.resumeWaiting p 0x00 h w1 =
      (t.unwaited p { e with sigs := e.sigs.filter (fun y => y.1 ≠ s.flagKey p (s.flagCar (e.ctx p 0x00 h w1)) h.wait.toNat) }).took
        (e.ctx p 0x00 h w1) := by
  have hexec := congrArg Part.exec harr.part
  have hflag := (harr.flag _).trans (if_pos rfl)
  have hgo : t.waitFlag p (t.flagCar (e.ctx p 0x00 h w1)) h.wait.toNat = .go := by
    refine State.waitFlag_go ?_ ?_ <;> rw [harr.alike.flagCar, harr.alike.flagKey, hflag]
    · exact hq
    · exact hn
  refine ⟨?_, clsNop_resume hexec hsig (harr.alike.poison.trans hclean) hgo⟩
  have hcls : clsOf 0x00 w1 = some clsNop := rfl
  have hexec' : t.exec? p = some _ := hexec
  simp only [State.waitOver, hexec', hcls]
  exact Bool.and_eq_true_iff.mpr ⟨decide_eq_true hgo, rfl⟩

/-- Settles O25: the wait goes on or is over by what arrives, and the realignment comes when no hold is in force any more. -/
theorem elasticWaitEnds : Obligations.ElasticWaitEnds := by
  unfold Obligations.ElasticWaitEnds
  intro s p e op h w1 c s' hsafe he hf hhold hwait hcls
  have hrun : exec (.elasticWaitSatisfied p) s = .next { s.realignFree (s.elasticWait p) p with pending := s.pending } :=
    answer_eq s fun s => s.realignFree (s.elasticWait p) p
  have hstep : s.elasticWait p = if s'.waitOver p op h w1 then s'.resumeWaiting p op h w1 else s' := State.elasticWait_eq hsafe he hf hhold hwait
  refine ⟨fun hover => ?_, fun hover => ?_, ?_⟩
  · rw [hrun, hstep, if_pos hover]
    simp only [State.resumeWaiting, hcls]
  · obtain ⟨l, hpart⟩ := State.part_arriveFor (op := op) (h := h) (w1 := w1) he
    have hhold' : s'.hasHold p 2 = true := by
      unfold State.hasHold at hhold ⊢
      rw [hpart]
      exact hhold
    have hexec : s'.exec? p = some { e with sigs := l } := congrArg Part.exec hpart
    rw [hstep, if_neg (by simp [hover]), State.realignFree_held (State.held_of_hasHold hhold')] at hrun
    exact ⟨_, hrun, hhold', (congrArg (Option.map Exec.waiting) hexec).trans (congrArg some hwait)⟩
  · rintro rfl hsig hw hclean hleft x k f hq hn
    have harr : s.Arrived p k e s' := State.arriveFor_arrived he (by decide) hw
    obtain ⟨hover, hres⟩ := harr.nop hsig hclean hq hn
    have hdone : s.NopDone p k x e (s.elasticWait p) := by
      rw [hstep, if_pos hover, hres]
      exact State.Arrived.took (x := x) harr hw hleft
    generalize s.elasticWait p = t at hrun hdone
    have hreal : t.Within p [.csr, .parts, .free] (s.realignFree t p) := .realignFree (by decide) (by decide) (by decide) (.refl ..)
    have hflag (j : Nat) : (s.realignFree t p).flagAt j = _ :=
      (congrArg (Map.get Flag.none · j) (hreal.comps .flags (by decide))).trans (hdone.flag j)
    have hout : s.Within p [.csr, .flags, .parts, .free] (s.realignFree t p) := (hdone.within.widen (by decide)).trans (hreal.widen (by decide))
    refine ⟨_, hrun, ?_, ?_, fun j hj => ?_, ?_, fun o ho => ?_, hout.answered.part, hout.answered.comps⟩
    · exact (State.exec_realignFree s t p p).trans hdone.exec
    · exact (hflag k).trans (if_pos rfl)
    · exact (hflag j).trans (if_neg hj)
    · exact (State.hasHold_realignFree (by decide)).trans hdone.nohold
    · simp only [List.mem_cons, List.not_mem_nil, or_false, not_or] at ho
      exact (State.reg_realignFree ho.1 ho.2).trans (hdone.within.reg (by decide) o)

end Sys2Proof.Machine
end

section
/-!
PROOFS. SWAP_TAKE_EFFECT (R186, R200, R220): the exchange of a waiting SWAP, and that an overtaken order without a drover command adds none.
-/
namespace Sys2Proof.Machine

/-- The execution once the SWAP at stream offset `off` has taken effect. -/
def Exec.swapDone (e : Exec) (off now : Nat) : Exec :=
  { e with cmds := e.cmds.map (fun k => if k.off = off then { k with start := some now, done := some now } else k) }

/-- A SWAP's exchange, before it ends a hold. -/
def State.exchanged (s : State) (p c off : Nat) (e : Exec) : State :=
  ((s.setFld (Csr.drvDepot_fillHalf c) (1 - s.fld (Csr.drvDepot_fillHalf c))).setExec p (e.swapDone off (s.orderPace p))).updCar c
    (fun k => { k with swapOff := none })

/-- What the exchange of caravan c's halves leaves (R186, R200). -/
structure State.Swapped (p c : Nat) (e : Exec) (s t : State) : Prop where
  half : t.fld (Csr.drvDepot_fillHalf c) = 1 - s.fld (Csr.drvDepot_fillHalf c)
  regs : OnlyRegs [Csr.drvDepot c, Csr.prtHold p, Csr.prtHoldSrc p 8] s t
  exec : t.exec? p = some e
  car : t.car c = { s.car c with swapOff := none }
  cars : ∀ d, d ≠ c → t.car d = s.car d
  within : s.Within p [.csr, .cars, .parts, .free] t

theorem State.exchanged_swapped (s : State) (p : PartId) (c : CarId) (off : Nat) (e : Exec) :
    s.Swapped p c (e.swapDone off (s.orderPace p)) (s.exchanged p c off e) where
  half := by
    have hlt : 1 - s.fld (Csr.drvDepot_fillHalf c) < 2 ^ 1 := by omega
    unfold State.exchanged
    rw [State.updCar_fld_acc, State.setExec_fld_acc, State.fld_setFld_same _ _ _ (by simp [Csr.drvDepot_fillHalf])]
    exact Nat.mod_eq_of_lt hlt
  regs o ho := by
    simp only [List.mem_cons, not_or] at ho
    unfold State.exchanged
    rw [State.updCar_reg_acc, State.setExec_reg_acc, State.reg_setFld_other _ _ _ _ (Ne.symm ho.1)]
  exec := by
    unfold State.exchanged
    rw [State.updCar_exec_acc, State.exec_setExec_same]
  car := by
    unfold State.exchanged
    rw [State.car_updCar_same, State.setExec_car_acc, State.setFld_car_acc]
  cars d hd := by
    unfold State.exchanged
    rw [State.car_updCar, if_neg (Ne.symm hd), State.setExec_car_acc, State.setFld_car_acc]
  within := (((State.Within.refl ..).setFld (by decide)).setExec (by decide)).updCar (by decide)

theorem State.part_exchanged (s : State) (p c off : Nat) (e : Exec) :
    (s.exchanged p c off e).part p = { s.part p with exec := some (e.swapDone off (s.orderPace p)) } := by
  unfold State.exchanged
  rw [State.updCar_part_acc, State.part_setExec_same, State.setFld_part_acc]

/-- The release of a hold leaves the exchange. -/
theorem State.Swapped.release {s t : State} {p : PartId} {c : CarId} {e : Exec} (h : s.Swapped p c e t) : s.Swapped p c e (t.release p 1) := by
  have hne : Csr.drvDepot c ≠ Csr.prtHold p ∧ Csr.drvDepot c ≠ Csr.prtHoldSrc p 8 := by
    unfold Csr.drvDepot Csr.prtHold Csr.prtHoldSrc
    omega
  have hreg (o : Nat) (h1 : o ≠ Csr.prtHold p) (h2 : o ≠ Csr.prtHoldSrc p 8) : (t.release p 1).reg o = t.reg o := State.reg_realignFree h1 h2
  have hwithin : t.Within p [.csr, .parts, .free] (t.release p 1) :=
    .realignFree (by decide) (by decide) (by decide) ((State.Within.refl ..).unhold (by decide))
  have hcars (d : Nat) : (t.release p 1).car d = t.car d := congrArg (Map.get Car.idle · d) (hwithin.comps .cars (by decide))
  refine ⟨(State.fld_congr (hreg _ hne.1 hne.2)).trans h.half, fun o ho => ?_, ?_, (hcars _).trans h.car, fun d hd => (hcars d).trans (h.cars d hd),
    h.within.trans (hwithin.widen (by decide))⟩
  · simp only [List.mem_cons, List.not_mem_nil, or_false, not_or] at ho
    obtain ⟨h0, h1, h2⟩ := ho
    exact (hreg o h1 h2).trans (h.regs o (by simp [h0, h1, h2]))
  · unfold State.release
    rw [State.exec_realignFree, State.exec_unhold]
    exact h.exec

/-- The SWAP at the head of the drover, with nothing in flight into the depot, takes effect. -/
theorem State.trySwap_eq {s : State} {p c : Nat} {e : Exec} {m : Cmd} (he : s.exec? p = some e)
    (hm : (s.flight p e).find? (fun m => m.units.contains (droverUnit c)) = some m) (hop : m.op = 0x42) (hdone : m.done = none)
    (hmine : m ∈ e.cmds) (hbusy : s.depotBusy c = false) :
    s.trySwap p c = if (s.car c).swapOff.isSome && ((s.exchanged p c m.off e).caravans p).all (fun d => ((s.exchanged p c m.off e).car d).swapOff.isNone)
      then (s.exchanged p c m.off e).release p 1 else s.exchanged p c m.off e := by
  unfold State.trySwap
  split
  case h_1 hn => exact absurd (he.symm.trans hn) (by simp)
  case h_2 e' he' =>
    obtain rfl : e = e' := Option.some.inj (he.symm.trans he')
    rw [hm]
    dsimp -zeta only
    rw [if_pos (by simp [hop, hdone, hmine, hbusy])]
    simp only [State.setExec_car_acc, State.setFld_car_acc]
    rfl

/-! The overtaken order. -/

/-- An execution that has no drover command in the caravan swaps nothing there. -/
theorem State.trySwap_none {s : State} {p c : Nat} {e : Exec} (he : s.exec? p = some e)
    (h : ∀ k ∈ e.cmds, k.units.contains (droverUnit c) = false) : s.trySwap p c = s := by
  unfold State.trySwap
  split
  case h_1 => rfl
  case h_2 e' he' =>
    obtain rfl : e = e' := Option.some.inj (he.symm.trans he')
    split
    case h_1 m hm =>
      have hunit := List.find?_some hm
      have hother : e.cmds.contains m = false := by
        refine Bool.eq_false_iff.mpr fun hc => ?_
        rw [h m (List.contains_iff_mem.mp hc)] at hunit
        cases hunit
      rw [if_neg (by simp only [hother, Bool.and_false, Bool.false_and, Bool.false_eq_true, not_false_eq_true])]
    case h_2 => rfl

/-- The running order and the overtaken one change places. -/
def State.turned (s : State) (p : Nat) : State := s.updPart p (fun y => { y with exec := y.prev, prev := y.exec })

/-- Every partition's record, and every other piece, is the same. -/
structure State.SameParts (s t : State) : Prop where
  part : ∀ q, t.part q = s.part q
  comps : OnlyChanges [.parts] s t

/-- Turned twice, the orders are in place again. -/
theorem State.turned_turned (s : State) (p : Nat) : s.SameParts ((s.turned p).turned p) where
  part q := by
    by_cases hq : q = p
    · subst hq
      simp only [State.turned, State.part_updPart_same]
    · simp only [State.turned, State.part_updPart_other _ _ _ _ hq]
  comps := (((State.Within.refl p [.parts] s).updPart (by decide)).updPart (by decide)).comps

/-- With no drover command of an overtaken order in the caravan, only the running order may swap there. -/
theorem State.swapNow_eq {s : State} {p c : Nat}
    (h : ∀ q, (s.part p).prev = some q → ∀ k ∈ q.cmds, k.units.contains (droverUnit c) = false) :
    ∃ u, s.SameParts u ∧ s.swapNow p c = u.trySwap p c := by
  unfold State.swapNow
  split
  case h_1 q hq =>
    have hturn : s.forSeq p q.seq (fun s => s.trySwap p c) = ((s.turned p).trySwap p c).turned p := by
      simp only [State.forSeq, hq, Option.map_some, if_true]
      rfl
    have hexec : (s.turned p).exec? p = some q := (congrArg Part.exec (State.part_updPart_same ..)).trans hq
    exact ⟨_, s.turned_turned p, by rw [hturn, State.trySwap_none hexec (h q hq)]⟩
  case h_2 => exact ⟨s, ⟨fun _ => rfl, OnlyChanges.refl _ s⟩, rfl⟩

namespace State.SameParts
variable {s t u : State}

theorem exec (h : s.SameParts t) (p : Nat) : t.exec? p = s.exec? p := congrArg Part.exec (h.part p)
theorem flight (h : s.SameParts t) (p : Nat) (e : Exec) : t.flight p e = s.flight p e := by unfold State.flight State.earlier; rw [h.part]
theorem reg (h : s.SameParts t) (o : Nat) : t.reg o = s.reg o := by
  have : t.csr = s.csr := h.comps .csr (by decide)
  unfold State.reg
  rw [this]
theorem car (h : s.SameParts t) (c : Nat) : t.car c = s.car c := by
  have : t.cars = s.cars := h.comps .cars (by decide)
  unfold State.car
  rw [this]
theorem orderPace (h : s.SameParts t) (p : Nat) : t.orderPace p = s.orderPace p := State.orderPace_congr (h.exec p) (h.reg _) (h.reg _)
theorem depotBusy (h : s.SameParts t) (c : Nat) : t.depotBusy c = s.depotBusy c := by unfold State.depotBusy; simp only [h.car]
theorem swapped {p c : Nat} {e : Exec} (h : s.SameParts t) (k : t.Swapped p c e u) : s.Swapped p c e u where
  half := k.half.trans (by rw [State.fld_congr (h.reg _)])
  regs o ho := (k.regs o ho).trans (h.reg o)
  exec := k.exec
  car := by rw [k.car, h.car]
  cars d hd := (k.cars d hd).trans (h.car d)
  within := ⟨fun q hq => (k.within.part q hq).trans (h.part q), (h.comps.widen (by decide)).trans k.within.comps (List.Subset.refl _)⟩

end State.SameParts

/-- The commands of an overtaken order come first in the flight list, and none of them is a drover command. -/
theorem State.earlier_find_none {s : State} {p c : Nat} {e : Exec}
    (h : ∀ q, (s.part p).prev = some q → ∀ k ∈ q.cmds, k.units.contains (droverUnit c) = false) :
    (s.earlier p e).find? (fun m => m.units.contains (droverUnit c)) = none := by
  refine List.find?_eq_none.mpr fun k hk => ?_
  unfold State.earlier at hk
  split at hk
  case h_1 q hq =>
    split at hk
    · simpa using h q hq k hk
    · cases hk
  case h_2 => cases hk

/-- Settles O17: the overtaken order's turn leaves the state as it is, and the SWAP at the head of the running order's drover commands takes
effect. -/
theorem waitingSwapTakesEffect : Obligations.WaitingSwapTakesEffect := by
  unfold Obligations.WaitingSwapTakesEffect
  intro s p c e m he hc hm hop hdone hbusy hprev
  obtain ⟨u, hu, hswap⟩ := State.swapNow_eq hprev
  have hrun : exec (.swapTakeEffect p c) s = .next { u.trySwap p c with pending := s.pending } := by
    refine (answer_eq s fun s => if (s.caravans p).contains c.val then s.swapNow p c else s).trans ?_
    rw [if_pos (List.contains_iff_mem.mpr hc), hswap]
  have hhead : (u.flight p e).find? (fun m => m.units.contains (droverUnit c)) = some m := by
    have hnone : (s.earlier p e).find? (fun m => m.units.contains (droverUnit c)) = none := State.earlier_find_none hprev
    rw [hu.flight, State.flight, List.find?_append, hnone, hm]
    rfl
  have heq := State.trySwap_eq ((hu.exec p).trans he) hhead hop hdone (List.mem_of_find?_eq_some hm) ((hu.depotBusy c).trans hbusy)
  set v := u.exchanged p c m.off e
  have hv : u.Swapped p c (e.swapDone m.off (u.orderPace p)) v := u.exchanged_swapped p c m.off e
  have hout : s.Swapped p c (e.swapDone m.off (s.orderPace p)) (u.trySwap p c) := by
    rw [← hu.orderPace]
    refine hu.swapped ?_
    rw [heq]
    split
    · exact hv.release
    · exact hv
  refine ⟨_, hrun, hout.half, hout.regs, hout.exec, hout.car, hout.cars, fun hheld hothers hleft => ?_, hout.within.answered.part,
    hout.within.answered.comps⟩
  have hpart : v.part p = { s.part p with exec := some (e.swapDone m.off (u.orderPace p)) } := (u.part_exchanged p c m.off e).trans (by rw [hu.part])
  have hcars : v.caravans p = s.caravans p := by
    unfold State.caravans
    rw [hpart]
  have hall : (v.caravans p).all (fun d => (v.car d).swapOff.isNone) = true := by
    rw [hcars, List.all_eq_true]
    intro d hd
    by_cases hdc : d = c.val
    · rw [hdc, hv.car]
      rfl
    · rw [hv.cars d hdc, hu.car, hothers d hd hdc]
      rfl
  have hrel : u.trySwap p c = v.release p 1 := by
    rw [heq, hall, hu.car, hheld]
    exact if_pos (Bool.and_self true)
  have hgone : (v.release p 1).hasHold p 1 = false := by
    unfold State.release
    rw [State.hasHold_realignFree (by decide), State.hasHold_unhold, hpart, List.any_eq_false]
    intro k hk
    by_cases h1 : k.src = 1
    · simp [hleft k hk h1]
    · simp [h1]
  rw [hrel]
  exact hgone

end Sys2Proof.Machine
end

section
/-!
PROOFS. What a pace does when nothing is in flight (R121, R129): nothing met stops the order, so both states of `together` stay one.
-/
namespace Sys2Proof.Machine

/-- What meets no fault goes on with one state. -/
theorem State.also_runs {p : Nat} {s : State} {f : State → State} (hs : s.stopped p = false) (hf : (f s).stopped p = false) :
    State.also p (s, s) f = (f s, f s) := by
  simp [State.also, hs, hf]

theorem State.together_nil (p : Nat) (x : State × State) : State.together p [] x = x := rfl

/-- Work that keeps a property of states in which the order runs leaves one state with that property. -/
theorem State.together_keeps {P : State → Prop} {p : Nat} {fs : List (State → State)} {s : State} (hrun : ∀ t, P t → t.stopped p = false)
    (hs : P s) (hf : ∀ f ∈ fs, ∀ t, P t → P (f t)) : ∃ t, P t ∧ State.together p fs (s, s) = (t, t) := by
  induction fs generalizing s with
  | nil => exact ⟨s, hs, rfl⟩
  | cons f fs ih =>
    have h1 : P (f s) := hf f List.mem_cons_self s hs
    obtain ⟨t, ht, heq⟩ := ih h1 fun g hg => hf g (List.mem_cons_of_mem f hg)
    refine ⟨t, ht, ?_⟩
    rw [← heq, ← State.also_runs (hrun s hs) (hrun _ h1)]
    rfl

theorem State.together_fst {P : State → Prop} {p : Nat} {fs : List (State → State)} {s : State} (hrun : ∀ t, P t → t.stopped p = false)
    (hs : P s) (hf : ∀ f ∈ fs, ∀ t, P t → P (f t)) : P (State.together p fs (s, s)).1 := by
  obtain ⟨t, ht, heq⟩ := State.together_keeps hrun hs hf
  rw [heq]
  exact ht

/-- An execution put in its own place changes no partition's record. -/
theorem State.setExec_self {s : State} {p : Nat} {e : Exec} (he : s.exec? p = some e) : s.SameParts (s.setExec p e) where
  part q := by
    by_cases hq : q = p
    · rw [hq, State.part_setExec_same, ← show (s.part p).exec = some e from he]
    · rw [State.part_setExec_other _ _ _ _ hq]
  comps := ((State.Within.refl p [.parts] s).setExec (by decide)).comps

/-- With no command in flight and no signal on its way, a pace settles nothing. -/
theorem State.settleWith_quiet {s : State} {p : Nat} {e : Exec} (he : s.exec? p = some e) (hf : e.fault = none) (hcmds : e.cmds = [])
    (hsigs : e.sigs = []) (hprev : (s.part p).prev = none) : State.settleWith p (s, s) = (s.setExec p e, s.setExec p e) := by
  set m := s.setExec p e
  have hm : m.exec? p = some e := State.exec_setExec_same ..
  have hmature : s.matureSignals p = m := by
    unfold State.matureSignals
    simp only [he, hsigs, List.filter_nil, List.foldl_nil]
    show s.setExec p { e with sigs := [] } = _
    rw [← hsigs]
  have hdone : m.completePrev p = m := by
    have : (m.part p).prev = none := (congrArg Part.prev ((State.setExec_self he).part p)).trans hprev
    unfold State.completePrev
    rw [this]
  have hstart : m.startPending p = m := by
    unfold State.startPending
    simp only [hm, hcmds, List.filter_nil, List.isEmpty_nil, if_true]
  have hdue : m.dueCmds p = [] := by
    unfold State.dueCmds
    simp only [hm, hcmds, List.filter_nil]
  have hs0 : s.stopped p = false := State.stopped_of_no_fault he hf
  have hm0 : m.stopped p = false := State.stopped_of_no_fault hm hf
  unfold State.settleWith
  rw [State.also_runs (f := fun s => (s.matureSignals p).completePrev p) hs0 (by rw [hmature, hdone]; exact hm0), hmature, hdone]
  dsimp only
  rw [hdue]
  exact (State.also_runs (f := fun s => s.startPending p) hm0 (by rw [hstart]; exact hm0)).trans (by rw [hstart])

end Sys2Proof.Machine
end

section
/-!
PROOFS. PACE_EXECUTE (R121, R129): a held cycle, and a pace with idle caravans.
-/
namespace Sys2Proof.Machine

/-! A held cycle. -/

/-- Cycles in holds write the partition's hold counters. -/
theorem State.reg_runDown {s : State} {p n o : Nat} (h1 : o ≠ Csr.prtHold p) (h2 : ∀ k, o ≠ Csr.prtHoldSrc p k) :
    (s.runDown p n).reg o = s.reg o := by
  have hsrc : (s.heldCycles p n).reg o = s.reg o :=
    foldl_keeps (P := fun t => t.reg o = s.reg o) _ (fun t k ht => (State.reg_count_other _ _ _ _ (Ne.symm (h2 k))).trans ht) _ _
      (State.reg_count_other _ _ _ _ (Ne.symm h1))
  rw [State.runDown_eq, State.updPart_reg_acc, hsrc]

theorem State.holdCycles_realignFree (s0 s : State) (p : Nat) :
    (s0.realignFree s p).fld (Csr.prtHold_holdCycles p) = s.fld (Csr.prtHold_holdCycles p) := by
  obtain h | ⟨n, h⟩ := State.realignFree_cases s0 s p
  · rw [h]
  · rw [h, State.holdCycles_realign, State.draw_fld_acc]

theorem State.wave_congr {s t : State} {p : Nat} (h : (t.part p).cmap = (s.part p).cmap) : t.wave p = s.wave p := by
  unfold State.wave State.spans State.caravans
  rw [h]

/-- What a cycle in holds leaves, after a state with the same records of partitions: the holds run down by one, and the rest may be
realigned. -/
theorem State.heldCycle {s m : State} {p : PartId} {e : Exec} (hm : s.SameParts m) (he : s.exec? p = some e) :
    let t := m.realignFree (m.runDown p 1) p
    t.pace p = s.pace p ∧ t.fld (Csr.prtHold_holdCycles p) = min (s.fld (Csr.prtHold_holdCycles p) + 1) (2 ^ 48 - 1) ∧
      ((t.part p).holds = s.leftHolds p 1 ∨
        (s.leftHolds p 1 = [] ∧ (s.part p).merged = true ∧ ∃ n, 0 < n ∧ n ≤ s.wave p ∧ (t.part p).holds = [⟨8, some n⟩])) ∧
      t.exec? p = some e ∧ s.Within p [.csr, .parts, .free] t := by
  have hpace : ∀ o, o = Csr.prtPace p → o ≠ Csr.prtHold p ∧ ∀ k, o ≠ Csr.prtHoldSrc p k := by
    unfold Csr.prtPace Csr.prtHold Csr.prtHoldSrc
    rintro o rfl
    exact ⟨by omega, fun k => by omega⟩
  obtain ⟨h1, h2⟩ := hpace _ rfl
  have hleft : ((m.runDown p 1).part p).holds = s.leftHolds p 1 := by
    rw [State.part_runDown]
    unfold State.leftHolds
    rw [hm.part]
  have hwave : (m.runDown p 1).wave p = s.wave p := State.wave_congr (by rw [State.part_runDown, hm.part])
  refine ⟨?_, ?_, ?_, ?_, ?_⟩
  · exact State.fld_congr (r := Csr.prtPace_pace p) ((State.reg_realignFree h1 (h2 8)).trans ((State.reg_runDown h1 h2).trans (hm.reg _)))
  · rw [State.holdCycles_realignFree, State.holdCycles_runDown, State.fld_congr (hm.reg _)]
  · have hcases := State.holds_realignFree m (m.runDown p 1) p
    rwa [hleft, hwave, hm.part] at hcases
  · rw [State.exec_realignFree, State.exec_runDown, hm.exec, he]
  · have hs : s.Within p [.csr, .parts, .free] m := ⟨fun q _ => hm.part q, hm.comps.widen (by decide)⟩
    exact (hs.runDown (by decide) (by decide)).realignFree (by decide) (by decide) (by decide)

/-! A pace with idle caravans. -/

/-- A caravan with nothing on its route or in its arrays, no fence to take and no product to run. -/
structure Car.Quiet (k : Car) : Prop where
  noVisit : k.vLen = 0
  tiles : ∀ t ∈ k.tiles, t = none
  incoming : ∀ t ∈ k.incoming, t = none
  runs : k.runs = []
  pipe : k.pipe = []
  fences : k.fencePend = []

theorem Car.Quiet.idle : Car.idle.Quiet :=
  ⟨rfl, by decide, by decide, rfl, rfl, rfl⟩

theorem getD_of_all_none {α : Type} {l : List (Option α)} (h : ∀ t ∈ l, t = none) (i : Nat) : l.getD i none = none := by
  rw [List.getD_eq_getElem?_getD]
  cases hi : l[i]? with
  | none => rfl
  | some t => exact h t (List.mem_of_getElem? hi)

namespace Car.Quiet
variable {k : Car} (h : k.Quiet)
include h

/-- Nothing hops on. -/
theorem shift : ∀ t ∈ k.shift, t = none := by
  intro t ht
  obtain ⟨i, -, rfl⟩ := List.mem_map.mp ht
  rw [getD_of_all_none h.tiles]

/-- Without tiles no visit begins. -/
theorem moveOn {c : Nat} {ts : List (Option TileAt)} {now : Nat} (hts : ∀ t ∈ ts, t = none) : (k.moveOn c ts now).Quiet := by
  have hnil : ts.filterMap id = [] := List.filterMap_eq_nil_iff.mpr fun t ht => hts t ht
  refine ⟨?_, hts, h.incoming, ?_, h.pipe, h.fences⟩
  · simp only [Car.moveOn, Car.visit, hnil, List.foldl_nil]
  · simp only [Car.moveOn, h.runs, List.filter_nil]

theorem advance (i now : Nat) : k.advance i now = k := by
  simp only [Car.advance, h.pipe, List.zipIdx_nil, List.foldl_nil]

theorem beginNext (c : Nat) : k.beginNext c = [] := by
  have : (List.range 8).filterMap (fun i =>
      match k.incoming.getD i none with
      | none => none
      | some t => (k.run t).bind (fun u => if t.tile = u.firstUsed (c * 8 + i) then some (c * 8 + i, u, t.pair) else none)) = [] :=
    List.filterMap_eq_nil_iff.mpr fun i _ => by rw [getD_of_all_none h.incoming]
  simp only [Car.beginNext, h.runs, List.find?_nil]
  exact this

end Car.Quiet

section
variable {s : State} {p c : Nat} (h : (s.car c).Quiet)
include h

theorem State.takeFences_quiet : s.takeFences p c = s.updCar c (fun x => { x with fencePend := [] }) := by
  simp only [State.takeFences, h.fences, List.foldl_nil]

theorem State.inject_quiet (ts : List (Option TileAt)) : s.inject p c ts = (s, ts) := by
  have : s.nextTile p c ts = none := by simp only [State.nextTile, h.runs, List.find?_nil]
  simp only [State.inject, this]

theorem State.incomingOf_quiet : s.incomingOf p c = (s.car c).shift := by
  simp only [State.incomingOf, h.runs, List.find?_nil]

theorem State.startTile_quiet : s.startTile p c = s := by
  simp only [State.startTile, h.runs, List.find?_nil]

theorem State.startFills_quiet : s.startFills p c = s := by
  simp only [State.startFills, h.beginNext, List.foldl_nil]

theorem State.rowsOut_quiet (ev : List PaceEvent) (sel : Fed → Bool) : s.rowsOut p c ev sel = s := by
  simp only [State.rowsOut, h.pipe, List.filter_nil, List.map_nil]
  rfl

end

theorem State.changeBanks_none (s : State) (p c : Nat) {ts : List (Option TileAt)} (hts : ∀ t ∈ ts, t = none) : s.changeBanks p c ts = s := by
  refine List.foldlRecOn (motive := (· = s)) _ _ rfl fun t ht i _ => ?_
  have : t.mustChange p c ts i = none := by simp only [State.mustChange, getD_of_all_none hts, Option.bind_none]
  rw [this, ht]

/-- The end of a visit boundary: the tiles move on (R69). -/
def State.visitStarts (s : State) (p c : Nat) (ts : List (Option TileAt)) : State := s.updCar c (fun k => k.moveOn c ts (s.pace p))

/-- The end of a visit boundary: the landing buffers take what the route will bring (R68). -/
def State.tilesCome (s : State) (p c : Nat) : State := s.updCar c (fun k => { k with incoming := s.incomingOf p c })

/-- A visit boundary of a quiet caravan only starts an empty visit. -/
theorem State.boundary_quiet {s : State} {p c : Nat} (h : (s.car c).Quiet) (h1 : ((s.takeFences p c).car c).Quiet)
    (hrun : (s.takeFences p c).stopped p = false) :
    s.boundary p c = ((((s.takeFences p c).visitStarts p c (s.car c).shift).tilesCome p c).startTile p c).startFills p c := by
  unfold State.boundary
  simp only [h.noVisit, if_true, State.inject_quiet h1, hrun, State.changeBanks_none _ p c h.shift, Bool.false_eq_true, if_false]
  rfl

/-- A state in which the order runs, as in s, and the caravans of a list are quiet. -/
structure State.QuietCars (s : State) (p : Nat) (cs : List Nat) (t : State) : Prop where
  part : ∀ q, t.part q = s.part q
  comps : OnlyChanges [.banks, .cars, .parts] s t
  cars : ∀ c ∈ cs, (t.car c).Quiet

namespace State.QuietCars
variable {s t : State} {p c : Nat} {cs : List Nat} (h : s.QuietCars p cs t)
include h

theorem updCar {f : Car → Car} (hf : c ∈ cs → (t.car c).Quiet → (f (t.car c)).Quiet) : s.QuietCars p cs (t.updCar c f) where
  part := h.part
  comps := h.comps.trans (((State.Within.refl p [.cars] t).updCar (by decide)).comps.widen (by decide)) (List.Subset.refl _)
  cars d hd := by
    rw [State.car_updCar]
    split
    · rename_i hcd
      subst hcd
      exact hf hd (h.cars _ hd)
    · exact h.cars d hd

theorem stopped : t.stopped p = s.stopped p := by
  unfold State.stopped State.exec?
  rw [h.part]

theorem boundary (hc : c ∈ cs) (hrun : s.stopped p = false) : s.QuietCars p cs (t.boundary p c) := by
  have hq := h.cars c hc
  have h1 : s.QuietCars p cs (t.takeFences p c) := State.takeFences_quiet hq ▸ h.updCar fun _ k => ⟨k.noVisit, k.tiles, k.incoming, k.runs, k.pipe, rfl⟩
  have h2 : s.QuietCars p cs ((t.takeFences p c).visitStarts p c (t.car c).shift) := h1.updCar fun _ k => k.moveOn hq.shift
  have h3 : s.QuietCars p cs (((t.takeFences p c).visitStarts p c (t.car c).shift).tilesCome p c) :=
    h2.updCar fun _ k => ⟨k.noVisit, k.tiles, State.incomingOf_quiet k ▸ k.shift, k.runs, k.pipe, k.fences⟩
  rw [State.boundary_quiet hq (h1.cars c hc) (h1.stopped.trans hrun), State.startTile_quiet (h3.cars c hc), State.startFills_quiet (h3.cars c hc)]
  exact h3

theorem caravanPace (hc : c ∈ cs) (hrun : s.stopped p = false) : s.QuietCars p cs (t.caravanPace p c []) := by
  have hstart : (t.car c).atBoundary (t.pace p) = true := by
    simp [Car.atBoundary, (h.cars c hc).noVisit]
  unfold State.caravanPace
  extract_lets k s1 s2 s3
  have h1 : s.QuietCars p cs s1 := by
    rw [show s1 = t.boundary p c from if_pos hstart]
    exact h.boundary hc hrun
  have h2 : s.QuietCars p cs s2 := by
    refine State.together_fst (fun u hu => hu.stopped.trans hrun) h1 fun f hf u hu => ?_
    obtain ⟨i, -, rfl⟩ := List.mem_map.mp hf
    dsimp only
    rw [getD_of_all_none (hu.cars c hc).tiles]
    exact hu
  have h3 : s.QuietCars p cs s3 :=
    h2.updCar fun _ k => List.foldlRecOn (motive := Car.Quiet) _ _ k fun k' hk i _ => (hk.advance i _).symm ▸ hk
  rw [State.rowsOut_quiet (h3.cars c hc)]
  exact h3

theorem dueMerges (hc : c ∈ cs) : s.QuietCars p cs (t.dueMerges p c) := by
  unfold State.dueMerges
  rw [(h.cars c hc).runs]
  exact h

theorem dueDrains : s.QuietCars p cs (t.dueDrains p c) where
  part := h.part
  comps := h.comps.trans (fun f hf => by
    cases f with
    | banks => exact absurd (by decide) hf
    | _ => rfl) (List.Subset.refl _)
  cars := h.cars

end State.QuietCars

/-- The count of a pace, and of a step's paces (R121, R463). -/
def State.counted (s : State) (p : Nat) : State :=
  (s.setReg (Csr.prtPace p) (BitVec.ofNat 64 (s.pace p + 1))).updPart p (fun x => { x with stepLeft := match x.stepLeft with
    | some n => if n ≤ 1 then none else some (n - 1)
    | none => none })

/-- With quiet caravans and no mortar command, the units only count the pace. -/
theorem State.runUnits_quiet {s m : State} {p : Nat} {e : Exec} (h : s.QuietCars p (s.caravans p) m) (he : s.exec? p = some e)
    (hf : e.fault = none) (hcmds : e.cmds = []) (hprev : (s.part p).prev = none) :
    ∃ t, s.QuietCars p (s.caravans p) t ∧ State.runUnits p [] (m, m) = t.counted p := by
  have hrun : s.stopped p = false := State.stopped_of_no_fault he hf
  have hme : m.exec? p = some e := (congrArg Part.exec (h.part p)).trans he
  have hticks : m.mortarTicks p = [] := by
    simp only [State.mortarTicks, h.part, hprev, hme, hcmds, Option.map_none, Option.getD_none, Option.map_some, Option.getD_some,
      List.filter_nil, List.filterMap_nil, List.append_nil]
  have hups : State.also p (m, m) (fun s => s.upsetCopies p []) = (m, m) :=
    State.also_runs (f := fun s => s.upsetCopies p []) (h.stopped.trans hrun) (h.stopped.trans hrun)
  have hwork : ∀ f ∈ (m.caravans p).map (fun c (u : State) => ((u.caravanPace p c []).dueMerges p c).dueDrains p c), ∀ u,
      s.QuietCars p (s.caravans p) u → s.QuietCars p (s.caravans p) (f u) := by
    intro f hf u hu
    obtain ⟨c, hc, rfl⟩ := List.mem_map.mp hf
    have hcars : m.caravans p = s.caravans p := congrArg Part.cmap (h.part p)
    have hc' : c ∈ s.caravans p := hcars ▸ hc
    exact ((hu.caravanPace hc' hrun).dueMerges hc').dueDrains
  obtain ⟨t, ht, heq⟩ := State.together_keeps (fun u (hu : s.QuietCars p (s.caravans p) u) => hu.stopped.trans hrun) h hwork
  refine ⟨t, ht, ?_⟩
  unfold State.runUnits
  simp only [hups, List.map_nil, State.together_nil, hticks, heq, ht.stopped, hrun, Bool.false_eq_true, if_false]
  rfl

/-- Nothing issues where the issue point is shut. -/
theorem State.issueAll_shut {s : State} {p : Nat} (h : s.issuable p = false) (n : Nat) : State.issueAll p n (s, s) = (s, s) := by
  cases n with
  | zero => rfl
  | succ n =>
    have : s.issueOne p = none := by simp [State.issueOne, h]
    simp only [State.issueAll, this]

/-- Without breakpoints no test meets one. -/
theorem State.breakPace_none {s : State} {p : Nat} (h : ∀ b ∈ (s.part p).bps, b = none) : s.breakPace p = none := by
  have hhits (f : Nat → Nat → Bool) : s.bpHits p f = 0 := by
    unfold State.bpHits
    rw [List.length_eq_zero_iff, List.filter_eq_nil_iff]
    intro b hb
    rw [h b hb]
    exact Bool.false_ne_true
  simp [State.breakPace, State.breakAt, hhits]

/-- A pace in which nothing is due and nothing issues. -/
theorem State.runPace_quiet {s : State} {p : Nat} {e : Exec} (he : s.exec? p = some e) (hf : e.fault = none) (hcmds : e.cmds = [])
    (hsigs : e.sigs = []) (hupds : e.upds = []) (hprev : (s.part p).prev = none) (hholds : (s.part p).holds = []) (hend : e.ended = false)
    (hshut : s.issuable p = false) (hbps : ∀ b ∈ (s.part p).bps, b = none) (hcars : ∀ c ∈ s.caravans p, s.car c = Car.idle) :
    ∃ t, s.QuietCars p (s.caravans p) t ∧ s.runPace p [] = t.counted p := by
  have hm := State.setExec_self he
  set m := s.setExec p e
  have hq : s.QuietCars p (s.caravans p) m := ⟨hm.part, hm.comps.widen (by decide), fun c hc => by rw [hm.car, hcars c hc]; exact .idle⟩
  obtain ⟨t, ht, heq⟩ := State.runUnits_quiet hq he hf hcmds hprev
  refine ⟨t, ht, ?_⟩
  have hexec : m.exec? p = some e := State.exec_setExec_same ..
  have hheld : m.held p = false := by
    simp [State.held, hm.part, hholds]
  have hfin : m.finished p = false := by
    simp [State.finished, hexec, hend]
  have hshut' : m.issuable p = false := by
    have hdev : m.dev = s.dev := hm.comps .dev (by decide)
    rw [← hshut]
    unfold State.issuable State.held
    rw [hm.exec, hm.orderPace, hm.part, hdev]
  have hwait : m.updWaits p = false := by
    simp [State.updWaits, hm.part, hprev, show (s.part p).exec = some e from he, hupds]
  have hlate : m.lateAt p [] = false := rfl
  unfold State.runPace
  rw [State.breakPace_none hbps, State.settleWith_quiet he hf hcmds hsigs hprev]
  simp only [hheld, hfin, hlate, State.issueAll_shut hshut', hwait, Bool.or_self, Bool.false_eq_true, if_false, heq, m]

/-- What a quiet pace leaves once it is counted. -/
theorem State.QuietCars.counted {s t : State} {p : PartId} {cs : List Nat} {e : Exec} (h : s.QuietCars p cs t) (he : s.exec? p = some e) :
    let u : State := { t.counted p with pending := s.pending }
    u.pace p = (s.pace p + 1) % 2 ^ 64 ∧ u.exec? p = some e ∧
      (u.part p).stepLeft = (match (s.part p).stepLeft with
        | some n => if n ≤ 1 then none else some (n - 1)
        | none => none) ∧
      OnlyRegs [Csr.prtPace p] s u ∧ OnlyPart p s u ∧ OnlyChanges [.csr, .banks, .cars, .parts] s u := by
  have hreg (o : Nat) : t.reg o = s.reg o := by
    have : t.csr = s.csr := h.comps .csr (by decide)
    unfold State.reg
    rw [this]
  have hpace : t.pace p = s.pace p := State.fld_congr (r := Csr.prtPace_pace p) (hreg _)
  have hpart : (t.counted p).part p = { s.part p with stepLeft := match (s.part p).stepLeft with
      | some n => if n ≤ 1 then none else some (n - 1)
      | none => none } := by
    unfold State.counted
    rw [State.part_updPart_same, State.setReg_part_acc, h.part]
  have hwithin : s.Within p [.csr, .banks, .cars, .parts] (t.counted p) :=
    ((State.Within.mk (fun q _ => h.part q) (h.comps.widen (by decide))).setReg (by decide)).updPart (by decide)
  refine ⟨?_, (congrArg Part.exec hpart).trans he, congrArg Part.stepLeft hpart, fun o ho => ?_, hwithin.answered.part, hwithin.answered.comps⟩
  · have : (t.counted p).reg (Csr.prtPace p) = BitVec.ofNat 64 (s.pace p + 1) := by
      unfold State.counted
      rw [State.updPart_reg_acc, State.reg_setReg_same, hpace]
    show (t.counted p).fld (Csr.prtPace_pace p) = _
    unfold State.fld
    rw [show (Csr.prtPace_pace p).off = Csr.prtPace p from rfl, this, BitVec.toNat_ofNat]
    show (s.pace p + 1) % 2 ^ 64 / 2 ^ 0 % 2 ^ 64 = _
    rw [pow_zero, Nat.div_one, Nat.mod_mod]
  · have hne : o ≠ Csr.prtPace p := by simpa using ho
    refine Eq.trans ?_ (hreg o)
    show (t.counted p).reg o = _
    unfold State.counted
    rw [State.updPart_reg_acc, State.reg_setReg, if_neg (Ne.symm hne)]

/-- Settles O26: a held cycle settles nothing and runs its holds down; in a quiet pace each caravan only starts an empty visit. -/
theorem paceCounts : Obligations.PaceCounts := by
  unfold Obligations.PaceCounts
  intro s p e hsafe hsus hprev he hf hcmds hsigs hupds hcap
  have htick : s.capTick p = s := by
    simp [State.capTick, hcap]
  have hexec : (s.part p).exec = some e := he
  refine ⟨fun hholds hstep => ?_, fun hholds hend hshut hbps hcars => ?_⟩
  · intro left
    have hblocked : s.blocked p = true := by
      obtain ⟨x, hx⟩ := List.exists_mem_of_ne_nil _ hholds
      exact List.any_eq_true.mpr ⟨x, hx, by simp [hstep]⟩
    have hrun : s.paceExecute p [] = (s.setExec p e).realignFree ((s.setExec p e).runDown p 1) p := by
      unfold State.paceExecute State.settle
      simp only [htick, hsafe, hsus, hprev, hexec, hf, hblocked, List.filter_nil, List.map_nil, State.together_nil, ite_self, Option.map_none,
        Option.map_some, Option.getD_none, Option.getD_some, Option.isSome_none, Bool.or_self, Bool.false_eq_true, if_false, if_true]
      rw [State.settleWith_quiet he hf hcmds hsigs hprev]
    obtain ⟨h1, h2, h3, h4, h5⟩ := State.heldCycle (State.setExec_self he) he
    rw [← hrun] at h1 h2 h3 h4 h5
    exact ⟨_, answer_eq s fun s => s.paceExecute p [], h1, h2, h3, h4, h5.answered.part, h5.answered.comps⟩
  · have hnot : s.blocked p = false := by
      simp [State.blocked, hholds]
    have hhold9 : s.hasHold p 9 = false := by
      simp [State.hasHold, hholds]
    obtain ⟨t, ht, hpace⟩ := State.runPace_quiet he hf hcmds hsigs hupds hprev hholds hend hshut hbps hcars
    have hrun : s.paceExecute p [] = t.counted p := by
      unfold State.paceExecute State.stepPace
      simp only [htick, hsafe, hsus, hprev, hexec, hf, hnot, hhold9, hpace, Option.map_none,
        Option.map_some, Option.getD_none, Option.getD_some, Option.isSome_none, Option.isNone_some, Bool.or_self, Bool.and_false, Bool.false_eq_true, if_false]
    refine ⟨_, (answer_eq s fun s => s.paceExecute p []).trans (by rw [hrun]), ?_⟩
    exact ht.counted he

end Sys2Proof.Machine
end

section
/-!
PROOFS. What an order's first checks read (R142, R147, R198, R263, R443): the start writes five registers, and none of them is a window's,
a depot's or a bank pair's.
-/
namespace Sys2Proof.Machine

/-- The registers that the start of an order writes before its checks (R121, R280, R315, R444). -/
def startReg (p : PartId) (o : Nat) : Prop :=
  o = Csr.prtOrderBase p ∨ o = Csr.updStep p ∨ o = Csr.cprPstate ∨ o = Csr.wghStepTx p ∨ o = Csr.wghStepRx p

/-- Two states that the checks of an order's first pace read alike. -/
structure State.ChecksAlike (p : PartId) (s t : State) : Prop where
  regs : ∀ o, ¬ startReg p o → t.reg o = s.reg o
  mem : t.mem = s.mem
  poison : t.poison = s.poison
  cars : t.caravans p = s.caravans p

theorem not_startReg_win (p : PartId) {i : Nat} (hi : i < 128) : ¬ startReg p (Csr.prtWinVa p i) ∧ ¬ startReg p (Csr.prtWinPa p i) := by
  unfold startReg Csr.prtWinVa Csr.prtWinPa Csr.prtOrderBase Csr.updStep Csr.cprPstate Csr.wghStepTx Csr.wghStepRx
  omega

theorem not_startReg_drvDepot (p : PartId) {c : Nat} (hc : c < 24) : ¬ startReg p (Csr.drvDepot c) := by
  unfold startReg Csr.drvDepot Csr.prtOrderBase Csr.updStep Csr.cprPstate Csr.wghStepTx Csr.wghStepRx
  omega

theorem not_startReg_pair (p : PartId) {q n : Nat} (hq : q < 8) (hn : n < 8) : ¬ startReg p (Csr.updPair q n) ∧ ¬ startReg p (Csr.updCommit q) := by
  unfold startReg Csr.updPair Csr.updCommit Csr.prtOrderBase Csr.updStep Csr.cprPstate Csr.wghStepTx Csr.wghStepRx
  omega

theorem not_startReg_devId (p : PartId) : ¬ startReg p Csr.devId := by
  unfold startReg Csr.devId Csr.prtOrderBase Csr.updStep Csr.cprPstate Csr.wghStepTx Csr.wghStepRx
  omega

/-- An address of the role view lies in one of the device's caravans. -/
theorem lt_of_regionOf_role {pa : Nat} (h : regionOf pa = some .role) : (pa - roleBase 0) / 0x4000000 < 24 := by
  unfold regionOf at h
  split_ifs at h with h1 h2 h3 hrole
  · cases h
  · cases h
  · cases h
  · rw [Bool.and_eq_true, decide_eq_true_eq, decide_eq_true_eq] at hrole
    exact Nat.div_lt_of_lt_mul (Nat.sub_lt_left_of_lt_add hrole.1 hrole.2)
  all_goals cases h

theorem findSome?_congr_mem {α β : Type} {f g : α → Option β} {l : List α} (h : ∀ x ∈ l, f x = g x) : l.findSome? f = l.findSome? g := by
  induction l with
  | nil => rfl
  | cons x xs ih => rw [List.findSome?_cons, List.findSome?_cons, h x List.mem_cons_self, ih fun y hy => h y (List.mem_cons_of_mem x hy)]

/-- The bank pair i that covers a physical address (R284): its partition, base and size. -/
def State.pairAt (s : State) (pa i : Nat) : Option (Nat × Nat × Nat) :=
  let base := s.fld (Csr.updPair_base (i / 8) (i % 8)) * 2 ^ 21
  let size := s.fld (Csr.updPair_pages (i / 8) (i % 8)) * (2 * mib)
  if s.flag1 (Csr.updPair_valid (i / 8) (i % 8)) && base ≤ pa && pa < base + 2 * size then some (i / 8, base, size) else none

theorem State.pairAt_fst {s : State} {pa i q base size : Nat} (h : s.pairAt pa i = some (q, base, size)) : q = i / 8 := by
  simp only [State.pairAt, Option.ite_none_right_eq_some, Option.some.injEq, Prod.mk.injEq] at h
  exact h.2.1.symm

namespace State.ChecksAlike
variable {p : PartId} {s t : State} (a : State.ChecksAlike p s t)
include a

theorem fld {r : FieldRef} (h : ¬ startReg p r.off) : t.fld r = s.fld r := State.fld_congr (a.regs _ h)
theorem flag1 {r : FieldRef} (h : ¬ startReg p r.off) : t.flag1 r = s.flag1 r := by unfold State.flag1; rw [a.fld h]

theorem win {i : Nat} (hi : i < 128) : t.win p i = s.win p i := by
  obtain ⟨hva, hpa⟩ := not_startReg_win p hi
  unfold State.win
  rw [a.flag1 (r := Csr.prtWinVa_valid p i) hva, a.flag1 (r := Csr.prtWinVa_read p i) hva, a.flag1 (r := Csr.prtWinVa_write p i) hva,
    a.flag1 (r := Csr.prtWinVa_huge p i) hva, a.fld (r := Csr.prtWinVa_vbase p i) hva, a.fld (r := Csr.prtWinVa_pages p i) hva,
    a.fld (r := Csr.prtWinPa_pbase p i) hpa]

theorem winOf (va : Nat) : t.winOf p va = s.winOf p va := by
  unfold State.winOf
  exact findSome?_congr_mem fun i hi => by rw [a.win (List.mem_range.mp hi)]

theorem vaPa (va : Nat) : t.vaPa p va = s.vaPa p va := by unfold State.vaPa; rw [a.winOf]

theorem staging {c : Nat} (hc : c < 24) : t.staging c = s.staging c := by
  unfold State.staging
  rw [a.fld (r := Csr.drvDepot_staging c) (not_startReg_drvDepot p hc)]

theorem roleResolve {pa : Nat} (h : regionOf pa = some .role) : t.roleResolve pa = s.roleResolve pa := by
  have hc := lt_of_regionOf_role h
  unfold State.roleResolve
  simp only [a.staging hc, a.fld (r := Csr.drvDepot_fillHalf _) (not_startReg_drvDepot p hc)]

theorem pairAt (pa : Nat) {i : Nat} (hi : i < 64) : t.pairAt pa i = s.pairAt pa i := by
  obtain ⟨hpair, -⟩ := not_startReg_pair p (q := i / 8) (n := i % 8) (by omega) (by omega)
  unfold State.pairAt
  rw [a.fld (r := Csr.updPair_base _ _) hpair, a.fld (r := Csr.updPair_pages _ _) hpair, a.flag1 (r := Csr.updPair_valid _ _) hpair]

theorem redirect (pa : Nat) : t.redirect pa = s.redirect pa := by
  unfold State.redirect
  extract_lets hitT hitS
  have hhit : hitT = hitS := findSome?_congr_mem (f := t.pairAt pa) (g := s.pairAt pa) fun i hi => a.pairAt pa (List.mem_range.mp hi)
  rw [hhit]
  cases hq : hitS with
  | none => rfl
  | some x =>
    obtain ⟨q, base, size⟩ := x
    obtain ⟨i, hi, hsome⟩ := List.exists_of_findSome?_eq_some (f := s.pairAt pa) hq
    have hi := List.mem_range.mp hi
    have hlive : ¬ startReg p (Csr.updCommit q) := (not_startReg_pair p (n := 0) (by rw [State.pairAt_fst hsome]; omega) (by decide)).2
    simp only [a.flag1 (r := Csr.updCommit_live q) hlive]

theorem resolve (g pa : Nat) : t.resolve g pa = s.resolve g pa := by
  unfold State.resolve
  split
  · rfl
  · exact a.roleResolve ‹_›
  · rw [a.redirect]
  · rfl
  · rfl

theorem place (g va : Nat) : t.place p g va = s.place p g va := by
  unfold State.place
  rw [a.vaPa, show t.resolve g = s.resolve g from funext (a.resolve g)]

theorem vbyte (g va : Nat) : t.vbyte p g va = s.vbyte p g va := by
  unfold State.vbyte State.byte
  rw [a.place, a.mem]

theorem vbytes (g va n : Nat) : t.vbytes p g va n = s.vbytes p g va n := by unfold State.vbytes; simp only [a.vbyte]

theorem roleBad (pa len : Nat) : t.roleBad pa len = s.roleBad pa len := by
  unfold State.roleBad
  split
  · rename_i h
    simp only [a.staging (lt_of_regionOf_role h)]
  · rfl

theorem rowCheck (didx va len : Nat) (wr : Bool) : t.rowCheck p didx va len wr = s.rowCheck p didx va len wr := by
  unfold State.rowCheck
  simp only [a.winOf, a.roleBad]

theorem homeStn : t.homeStn p = s.homeStn p := by unfold State.homeStn State.home; rw [a.cars]

theorem hdrExtents (h : BitVec 1024) : t.hdrExtents p h = s.hdrExtents p h := by
  unfold State.hdrExtents
  rw [a.homeStn, a.vbytes, a.cars]

theorem headerCheck (h : BitVec 1024) : t.headerCheck p h = s.headerCheck p h := by
  unfold State.headerCheck
  simp only [a.hdrExtents, a.rowCheck, a.cars]

theorem timing (h : BitVec 1024) : t.timing p h = s.timing p h := by
  unfold State.timing
  simp only [a.homeStn, a.vbytes]

theorem timingCheck (h : BitVec 1024) : t.timingCheck p h = s.timingCheck p h := by
  unfold State.timingCheck
  rw [a.timing, a.homeStn, a.vbyte, a.fld (r := Csr.devId_contract) (not_startReg_devId p)]

theorem allocs (h : BitVec 1024) : t.allocs p h = s.allocs p h := by
  unfold State.allocs
  simp only [a.homeStn, a.vbytes, a.cars]

theorem planWord (h : BitVec 1024) (i : Nat) : t.planWord p h i = s.planWord p h i := by
  unfold State.planWord
  simp only [a.homeStn, a.vbytes]

theorem startCheck (h : BitVec 1024) : t.startCheck p h = s.startCheck p h := by
  unfold State.startCheck
  simp only [a.headerCheck, a.timingCheck, a.allocs, a.planWord, a.cars, a.homeStn, a.vbytes]

theorem startTables (h : BitVec 1024) : t.startTables p h = s.startTables p h := by
  unfold State.startTables
  simp only [a.homeStn, a.vbytes, a.cars]

theorem poisonIn (g va len : Nat) : t.poisonIn p g va len = s.poisonIn p g va len := by
  unfold State.poisonIn State.poisoned
  simp only [a.poison, a.place]

/-- Poison that one state does not meet, the other does not meet either. -/
theorem poisonCheck_none {unit off : Nat} {rs : List (Nat × Nat × Nat)} (h : s.poisonCheck p unit off rs = none) (unit' : Nat) :
    t.poisonCheck p unit' off rs = none := by
  unfold State.poisonCheck at h ⊢
  simp only [a.poisonIn]
  split at h
  · cases h
  · rfl

end State.ChecksAlike

end Sys2Proof.Machine
end

section
/-!
PROOFS. ORDER_START (R121, R280, R288, R444): what holds once the execution has begun, and what the load of the tables leaves of it.
-/
namespace Sys2Proof.Machine

/-- The partition p has begun an execution e of an order, from state s. -/
structure State.Begun (p : PartId) (e : Exec) (s t : State) : Prop where
  exec : t.exec? p = some e
  part : OnlyPart p s t
  alike : s.ChecksAlike p t
  base : t.fld (Csr.prtOrderBase_base p) = s.pace p
  tag : t.fld (Csr.updStep_tag p) = nextNum (s.fld (Csr.updStep_tag p))
  step : t.fld (Csr.updStep_step p) = s.fld (Csr.updStep_step p)
  state : t.fld (partState p) = 0

namespace State.Begun
variable {p : PartId} {e : Exec} {s t u : State} (h : s.Begun p e t)
include h

theorem pace : t.pace p = s.pace p := by
  have : ¬ startReg p (Csr.prtPace p) := by
    unfold startReg Csr.prtPace Csr.prtOrderBase Csr.updStep Csr.cprPstate Csr.wghStepTx Csr.wghStepRx
    omega
  exact State.fld_congr (r := Csr.prtPace_pace p) (h.alike.regs _ this)

end State.Begun

theorem State.part_of_changes {fs : List Comp} {s t : State} (h : OnlyChanges fs s t) (hp : .parts ∉ fs) (q : Nat) : t.part q = s.part q := by
  have : t.parts = s.parts := h .parts hp
  unfold State.part
  rw [this]

theorem State.Within.setWctx {p q : Nat} {fs : List Comp} {s t : State} {x : Wgh} (h : s.Within p fs t) (hf : .wgh ∈ fs) :
    s.Within p fs (t.setWctx q x) :=
  h.of_comp hf rfl fun g hg => by
    cases g with
    | wgh => exact absurd rfl hg
    | _ => rfl

theorem State.Within.updWctx {p q : Nat} {fs : List Comp} {s t : State} {f : Wgh → Wgh} (h : s.Within p fs t) (hf : .wgh ∈ fs) :
    s.Within p fs (t.updWctx q f) := h.setWctx hf

/-- The weighhouse's context takes the pair, with no loss that waits for its order (R288, R315): two digests are written. -/
theorem State.wghStart_frame {s : State} {p : PartId} {seq : Nat} {step : BitVec 32} {attempt : Nat} {inter : Bool}
    (hw : (s.wctx p).waiting = []) : OnlyRegs [Csr.wghStepTx p, Csr.wghStepRx p] s (s.wghStart p seq step attempt inter) ∧
      s.Within p [.csr, .wgh] (s.wghStart p seq step attempt inter) := by
  unfold State.wghStart
  extract_lets w samePair same w' s1
  have hwait : (((s1.setFld (Csr.wghStepTx_digest p) 0).setFld (Csr.wghStepRx_digest p) 0).wctx p).waiting = [] := by
    rw [State.setFld_wctx_acc, State.setFld_wctx_acc, State.wctx_setWctx_same]
    exact hw
  rw [State.wRefeed_of_none hwait]
  refine ⟨fun o ho => ?_, .updWctx (.setFld (.setFld (.setWctx (.refl ..) (by decide)) (by decide)) (by decide)) (by decide)⟩
  simp only [List.mem_cons, List.not_mem_nil, or_false, not_or] at ho
  rw [State.updWctx_reg_acc, State.reg_setFld_other _ _ _ _ (Ne.symm ho.2), State.reg_setFld_other _ _ _ _ (Ne.symm ho.1), State.setWctx_reg_acc]

/-- The five registers are five. -/
theorem startReg_distinct (p : PartId) : Csr.prtOrderBase p ≠ Csr.wghStepTx p ∧ Csr.prtOrderBase p ≠ Csr.wghStepRx p ∧
    Csr.prtOrderBase p ≠ Csr.cprPstate ∧ Csr.prtOrderBase p ≠ Csr.updStep p ∧ Csr.updStep p ≠ Csr.wghStepTx p ∧ Csr.updStep p ≠ Csr.wghStepRx p ∧
    Csr.updStep p ≠ Csr.cprPstate ∧ Csr.cprPstate ≠ Csr.wghStepTx p ∧ Csr.cprPstate ≠ Csr.wghStepRx p := by
  unfold Csr.prtOrderBase Csr.updStep Csr.cprPstate Csr.wghStepTx Csr.wghStepRx
  omega

/-- A register that is written whole reads back its number. -/
theorem bitsOf_ofNat_whole {n : Nat} (h : n < 2 ^ 64) : bitsOf (BitVec.ofNat 64 n).toNat 0 64 = n := by
  rw [BitVec.toNat_ofNat, bitsOf, pow_zero, Nat.div_one, Nat.mod_mod, Nat.mod_eq_of_lt h]

/-- The base, the tag and the state of a partition, as the start of an order writes them. -/
def State.stamped (s : State) (p base : Nat) : State :=
  (s.setReg (Csr.prtOrderBase p) (BitVec.ofNat 64 base)).setFld (Csr.updStep_tag p) (nextNum (s.fld (Csr.updStep_tag p)))

theorem State.stamped_regs {s : State} {p base o : Nat} (h1 : o ≠ Csr.prtOrderBase p) (h2 : o ≠ Csr.updStep p) :
    (s.stamped p base).reg o = s.reg o := by
  unfold State.stamped
  rw [State.reg_setFld_other _ _ _ _ (Ne.symm h2), State.reg_setReg, if_neg (Ne.symm h1)]

theorem State.stamped_base {s : State} {p : PartId} {base : Nat} (h : base < 2 ^ 64) :
    (s.stamped p base).fld (Csr.prtOrderBase_base p) = base := by
  obtain ⟨-, -, -, hne, -⟩ := startReg_distinct p
  have hreg : (s.stamped p base).reg (Csr.prtOrderBase p) = BitVec.ofNat 64 base := by
    unfold State.stamped
    rw [State.reg_setFld_other _ _ _ _ (Ne.symm hne), State.reg_setReg_same]
  unfold State.fld
  rw [show (Csr.prtOrderBase_base p).off = Csr.prtOrderBase p from rfl, hreg]
  exact bitsOf_ofNat_whole h

theorem State.stamped_tag (s : State) (p base : Nat) :
    (s.stamped p base).fld (Csr.updStep_tag p) = nextNum (s.fld (Csr.updStep_tag p)) := by
  have hlt (n : Nat) : nextNum n < 2 ^ 32 := by
    unfold nextNum
    omega
  unfold State.stamped
  rw [State.fld_setFld_same _ _ _ (by simp [Csr.updStep_tag])]
  exact Nat.mod_eq_of_lt (hlt _)

theorem State.stamped_step (s : State) (p : PartId) (base : Nat) :
    (s.stamped p base).fld (Csr.updStep_step p) = s.fld (Csr.updStep_step p) := by
  obtain ⟨-, -, -, hne, -⟩ := startReg_distinct p
  unfold State.stamped
  rw [State.fld_setFld_field _ _ _ _ (by simp [Csr.updStep_tag]) (.inr (by simp [Csr.updStep_tag, Csr.updStep_step]))]
  refine State.fld_congr (r := Csr.updStep_step p) ?_
  exact (State.reg_setReg ..).trans (if_neg hne)

theorem State.stamped_within (s : State) (p base : Nat) : s.Within p [.csr] (s.stamped p base) :=
  ((State.Within.refl ..).setReg (by decide)).setFld (by decide)

/-- A partition's caravans stop (R223). -/
def State.stopCars (s : State) (p : Nat) : State := (s.caravans p).foldl (fun s c => s.updCar c Car.stop) s

theorem State.stopCars_within (s : State) (p : Nat) : s.Within p [.cars] (s.stopCars p) :=
  (State.Within.refl ..).foldl fun _ _ _ h => h.updCar (by decide)

/-- An execution e is put in place in state s2, in which the registers and the partition's caravans are those of s. -/
theorem State.begun_of_setExec {s s2 : State} {p : PartId} {e : Exec} (w2 : s.Within p [.parts] s2) (hcars : (s2.part p).cmap = (s.part p).cmap)
    (hw : (s.wctx p).waiting = []) (seq attempt : Nat) (step : BitVec 32) (inter : Bool) :
    s.Begun p e (((((s2.setExec p e).stamped p (s.pace p)).stopCars p).setPartState p 0).wghStart p seq step attempt inter) := by
  have hreg3 (r : Nat) : (s2.setExec p e).reg r = s.reg r := (State.setExec_reg_acc ..).trans (w2.reg (by decide) r)
  have w3 : s.Within p [.parts] (s2.setExec p e) := w2.setExec (by decide)
  have hpart3 : (s2.setExec p e).part p = { s2.part p with exec := some e } := State.part_setExec_same ..
  generalize s2.setExec p e = s3 at hreg3 w3 hpart3 ⊢
  have w34 := s3.stamped_within p (s.pace p)
  have hbase : (s3.stamped p (s.pace p)).fld (Csr.prtOrderBase_base p) = s.pace p := State.stamped_base (State.fld_lt s (Csr.prtPace_pace p))
  have htag := (s3.stamped_tag p (s.pace p)).trans (congrArg nextNum (State.fld_congr (r := Csr.updStep_tag p) (hreg3 _)))
  have hstep := (s3.stamped_step p (s.pace p)).trans (State.fld_congr (r := Csr.updStep_step p) (hreg3 _))
  have hreg4 (r : Nat) (h1 : r ≠ Csr.prtOrderBase p) (h2 : r ≠ Csr.updStep p) : (s3.stamped p (s.pace p)).reg r = s.reg r :=
    (State.stamped_regs h1 h2).trans (hreg3 r)
  generalize s3.stamped p (s.pace p) = s4 at w34 hbase htag hstep hreg4 ⊢
  have w45 := s4.stopCars_within p
  generalize s4.stopCars p = s5 at w45 ⊢
  have hreg6 (r : Nat) (h : r ≠ Csr.cprPstate) : (s5.setPartState p 0).reg r = s4.reg r :=
    (State.reg_setFld_other s5 (partState p) 0 r (Ne.symm h)).trans (w45.reg (by decide) r)
  have hstate : (s5.setPartState p 0).fld (partState p) = 0 :=
    State.fld_setFld_same s5 (partState p) 0 (by have := p.isLt; show 16 + 2 * p.val + 2 ≤ 64; omega)
  have w56 : s5.Within p [.csr] (s5.setPartState p 0) := (State.Within.refl ..).setFld (by decide)
  generalize s5.setPartState p 0 = s6 at hreg6 hstate w56 ⊢
  have w6 : s.Within p [.csr, .parts, .cars] s6 :=
    ((w3.widen (by decide)).trans ((w34.widen (by decide)).trans (w45.widen (by decide)))).trans (w56.widen (by decide))
  have hwait : (s6.wctx p).waiting = [] := (congrArg (fun m => (Map.get Wgh.none m p).waiting) (w6.comps .wgh (by decide))).trans hw
  obtain ⟨hregs7, w67⟩ := State.wghStart_frame (p := p) (seq := seq) (step := step) (attempt := attempt) (inter := inter) hwait
  generalize s6.wghStart p seq step attempt inter = s7 at hregs7 w67 ⊢
  have hreg7 (r : Nat) (h1 : r ≠ Csr.wghStepTx p) (h2 : r ≠ Csr.wghStepRx p) (h3 : r ≠ Csr.cprPstate) : s7.reg r = s4.reg r :=
    (hregs7 r (by simp [h1, h2])).trans (hreg6 r h3)
  have w7 : s.Within p [.csr, .parts, .cars, .wgh] s7 := (w6.widen (by decide)).trans (w67.widen (by decide))
  have hpart : s7.part p = { s2.part p with exec := some e } := by
    rw [State.part_of_changes w67.comps (by decide), State.part_of_changes w56.comps (by decide), State.part_of_changes w45.comps (by decide),
      State.part_of_changes w34.comps (by decide), hpart3]
  obtain ⟨d1, d2, d3, -, d5, d6, d7, d8, d9⟩ := startReg_distinct p
  refine ⟨congrArg Part.exec hpart, w7.part, ⟨fun r hr => ?_, w7.comps .mem (by decide), w7.comps .poison (by decide), ?_⟩, ?_, ?_, ?_, ?_⟩
  · simp only [startReg, not_or] at hr
    obtain ⟨n1, n2, n3, n4, n5⟩ := hr
    rw [hreg7 r n4 n5 n3, hreg4 r n1 n2]
  · exact (congrArg Part.cmap hpart).trans hcars
  · rw [State.fld_congr (r := Csr.prtOrderBase_base p) (hreg7 _ d1 d2 d3), hbase]
  · rw [State.fld_congr (r := Csr.updStep_tag p) (hreg7 _ d5 d6 d7), htag]
  · rw [State.fld_congr (r := Csr.updStep_step p) (hreg7 _ d5 d6 d7), hstep]
  · rw [State.fld_congr (hregs7 _ (by simp [partState, d8, d9])), hstate]

/-- The execution of an order begins: before the checks of its first pace (R121, R280, R288, R444). -/
theorem State.startOrder_begins {s : State} {p : PartId} {o : Order} (he : s.exec? p = none) (hw : (s.wctx p).waiting = []) :
    ∃ t, s.Begun p (s.freshExec p o (s.pace p) (s.timing p o.hdr)) t ∧
      ((t.headerCheck p o.hdr).isSome = true ∨ t.poisonCheck p (manUnit t p) 0 (t.startTables p o.hdr) = none →
        (∀ f, t.startCheck p o.hdr = .error f → s.startOrder p o = t.raise p (manUnit t p) f.1 0 f.2) ∧
        (∀ as ts, t.startCheck p o.hdr = .ok (as, ts) →
          s.startOrder p o = (((t.loadAllocs p as).loadPlan p o.hdr).loadSpice p ts).countClasses p (s.timing p o.hdr))) := by
  unfold State.startOrder
  extract_lets base inter attempt ts fs bad s1 s2 s3 s4 s5 s6 s7 poisoned
  have hinter : inter = false := by simp [inter, he]
  have h2 : s2 = s1.cutHolds p := by simp [s2, hinter]
  have h5 : s5 = s4.stopCars p := by
    simp only [s5, hinter, Bool.false_eq_true, if_false]
    rfl
  refine ⟨s7, ?_, fun hclean => ?_⟩
  · have w2 : s.Within p [.parts] s2 := h2 ▸ ((State.Within.refl ..).updPart (by decide)).updPart (by decide)
    have hcars : (s2.part p).cmap = (s.part p).cmap := by
      rw [h2]
      simp only [s1, State.cutHolds, State.part_updPart_same]
    have hfresh : s2.freshExec p o base ts = s.freshExec p o (s.pace p) (s.timing p o.hdr) := by
      unfold State.freshExec
      rw [w2.reg (by decide), w2.reg (by decide), State.fld_congr (w2.reg (by decide) _)]
    have hbegun := State.begun_of_setExec (e := s2.freshExec p o base ts) w2 hcars hw o.seq attempt
      (BitVec.ofNat 32 (s6.fld (Csr.updStep_step p))) inter
    rw [hfresh] at hbegun
    have h7 : s7 = ((((s2.setExec p (s2.freshExec p o base ts)).stamped p (s.pace p)).stopCars p).setPartState p 0).wghStart p o.seq
        (BitVec.ofNat 32 (s6.fld (Csr.updStep_step p))) attempt inter := by
      simp only [s7, s6, h5]
      rfl
    rw [h7, hfresh]
    exact hbegun
  · have hp : poisoned = none := by
      rcases hclean with h | h <;> simp [poisoned, h]
    rw [hp]
    refine ⟨fun f hf => ?_, fun as ts hok => ?_⟩
    · dsimp -zeta only
      rw [hf]
    · dsimp -zeta only
      rw [hok]

/-! The load of the tables (R141, R147, R198, R263). -/

/-- A queue that an allocation names is one of a caravan's 64. -/
def Alloc.Fits : Alloc → Prop
  | .flag .. => True
  | .queue _ q .. => q < 64

theorem parseAllocs_fits {n hi : Nat} {ws : List Nat} {as : List Alloc} (h : parseAllocs n hi ws = .ok as) : ∀ a ∈ as, a.Fits := by
  induction ws generalizing hi as with
  | nil =>
    cases h
    exact fun _ ha => nomatch ha
  | cons w ws ih =>
    have hmap {x : Except Fail (List Alloc)} {b : Alloc} (hx : ∀ l, x = .ok l → ∀ a ∈ l, a.Fits) (hb : b.Fits)
        (hok : x.map (b :: ·) = .ok as) : ∀ a ∈ as, a.Fits := by
      cases x with
      | error f => cases hok
      | ok l =>
        cases hok
        exact List.forall_mem_cons.mpr ⟨hb, hx l rfl⟩
    unfold parseAllocs at h
    extract_lets kind elastic ord idx q depth at h
    split_ifs at h with h1 h2 h3 h4 h5 h6
    · exact ih h
    · exact hmap (b := .flag _ _ _) (fun _ hl => ih hl) trivial h
    · exact hmap (b := .queue _ _ _ _ _) (fun _ hl => ih hl) (bitsOf_lt _ _ _) h

theorem State.allocs_of_startCheck {s : State} {p : Nat} {h : BitVec 1024} {as : List Alloc} {ts : List (List Byte)}
    (hok : s.startCheck p h = .ok (as, ts)) : s.allocs p h = .ok as := by
  unfold State.startCheck at hok
  split at hok
  · cases hok
  · split at hok
    · cases hok
    · rename_i as' has
      split at hok
      · cases hok
      · split at hok
        · cases hok
        · cases hok
          exact has

namespace State.CarWork
variable {s t : State}

theorem carReg_carQueue {q : Nat} (hq : q < 64) (c : Nat) : carReg (Csr.carQueue c q) := by
  unfold carReg Csr.carQueue
  omega

theorem loadAllocs {p : Nat} {as : List Alloc} (ha : ∀ a ∈ as, a.Fits) (h : s.CarWork t) : s.CarWork (t.loadAllocs p as) := by
  unfold State.loadAllocs
  extract_lets cs s1
  have h1 : s.CarWork s1 := h.foldl fun _ _ _ h => h.clearAlloc
  refine h1.foldl fun a hm _ h => ?_
  cases a with
  | flag ord idx f => exact h.frame rfl rfl rfl
  | queue ord q depth base el => exact h.setReg (carReg_carQueue (ha _ hm) _)

theorem loadPlan {p : Nat} {hdr : BitVec 1024} (h : s.CarWork t) : s.CarWork (t.loadPlan p hdr) :=
  h.foldl fun _ _ _ h => h.setReg (by unfold carReg Csr.drvDepot; omega)

theorem loadSpice {p : Nat} {ts : List (List Byte)} (h : s.CarWork t) : s.CarWork (t.loadSpice p ts) :=
  h.foldl fun _ _ _ h => h.foldl fun i hi u h => by
    have hi := List.mem_range.mp hi
    refine setFld (State.CarWork.foldl h fun _ _ _ h => h.frame rfl rfl rfl) ?_
    show carReg (Csr.stnSpice _ _)
    unfold carReg Csr.stnSpice
    omega

end State.CarWork

/-- The class counters of a partition are in one register. -/
theorem State.countClasses_regs {s : State} {p o : Nat} {ts : List TimeEnt} (h : o ≠ Csr.prtLatency p) :
    (s.countClasses p ts).reg o = s.reg o := by
  unfold State.countClasses
  exact (State.reg_setFld_other _ _ _ _ (Ne.symm h)).trans (State.reg_setFld_other _ _ _ _ (Ne.symm h))

theorem State.countClasses_within (s : State) (p : Nat) (ts : List TimeEnt) : s.Within p [.csr] (s.countClasses p ts) :=
  ((State.Within.refl ..).setFld (by decide)).setFld (by decide)

/-- The order of execution e has started in partition p, from state s. -/
structure State.Started (p : PartId) (e : Exec) (s t : State) : Prop where
  exec : t.exec? p = some e
  part : OnlyPart p s t
  pace : t.orderPace p = 0
  base : t.fld (Csr.prtOrderBase_base p) = s.pace p
  tag : t.fld (Csr.updStep_tag p) = nextNum (s.fld (Csr.updStep_tag p))
  step : t.fld (Csr.updStep_step p) = s.fld (Csr.updStep_step p)
  state : t.fld (partState p) = 0

theorem State.Started.answered {p : PartId} {e : Exec} {s t : State} (h : s.Started p e t) (q : List Instr) :
    s.Started p e { t with pending := q } := ⟨h.exec, h.part, h.pace, h.base, h.tag, h.step, h.state⟩

/-- The load of the tables leaves what has begun. -/
theorem State.Begun.loaded {p : PartId} {e : Exec} {s t u : State} {ts : List TimeEnt} (h : s.Begun p e t) (h0 : t.orderPace p = 0)
    (hu : t.CarWork u) : s.Started p e (u.countClasses p ts) := by
  have w := u.countClasses_within p ts
  have hreg {o : Nat} (hl : o ≠ Csr.prtLatency p) (hc : ¬ carReg o) : (u.countClasses p ts).reg o = t.reg o :=
    (State.countClasses_regs hl).trans (hu.regs o hc)
  have hexec : (u.countClasses p ts).exec? p = t.exec? p := (exec_of_changes w.comps (by decide) p).trans (hu.exec p)
  have hpart : OnlyPart p s (u.countClasses p ts) := fun q hq => by rw [w.part q hq, hu.part, h.part q hq]
  generalize u.countClasses p ts = v at hreg hexec hpart ⊢
  obtain ⟨c1, c2, c3, c4⟩ := not_carReg p
  have hpace := hreg (by unfold Csr.prtPace Csr.prtLatency; omega) c1
  have hbase := hreg (by unfold Csr.prtOrderBase Csr.prtLatency; omega) c4
  have htag := hreg (Ne.symm (prtLatency_ne_updStep p)) c2
  have hstate := hreg (by unfold Csr.cprPstate Csr.prtLatency; omega) c3
  exact ⟨hexec.trans h.exec, hpart, (State.orderPace_congr hexec hpace hbase).trans h0,
    (State.fld_congr (r := Csr.prtOrderBase_base p) hbase).trans h.base, (State.fld_congr (r := Csr.updStep_tag p) htag).trans h.tag,
    (State.fld_congr (r := Csr.updStep_step p) htag).trans h.step, (State.fld_congr (r := partState p) hstate).trans h.state⟩

/-- A fault is answered as it is. -/
theorem State.Fails.answered {p : Nat} {e : Exec} {s t : State} (h : s.Fails p e t) (q : List Instr) : s.Fails p e { t with pending := q } :=
  ⟨h.exec, h.part, h.regs⟩

/-- An order that may start does, when none runs. -/
theorem State.orderStart_eq {s : State} {p : Nat} {o : Order} (hmay : s.mayStartOrder p = true) (hnext : s.nextOrder p = some o)
    (he : s.exec? p = none) : s.orderStart p = s.startOrder p o := by
  simp [State.orderStart, hmay, hnext, he]

/-- Settles O36: the execution begins, and the checks of its first pace read what they read before; the load of the tables leaves its base,
its tag and the partition's state. -/
theorem ordersStart : Obligations.OrdersStart := by
  unfold Obligations.OrdersStart
  intro s p o hmay hnext he hw _ hclean
  obtain ⟨t, hb, hrun⟩ := State.startOrder_begins (o := o) he hw
  have hstep : exec (.orderStart p) s = .next { s.startOrder p o with pending := s.pending } :=
    (answer_eq s fun s => s.orderStart p).trans (by rw [State.orderStart_eq hmay hnext he])
  have hunit : manUnit t p = manUnit s p := by
    unfold manUnit State.home
    rw [hb.alike.cars]
  obtain ⟨hbad, hgood⟩ := hrun (by
    rw [hb.alike.headerCheck, hb.alike.startTables]
    exact hclean.imp_right fun h => hb.alike.poisonCheck_none h _)
  have hpace0 : t.orderPace p = 0 := by
    unfold State.orderPace
    rw [hb.exec]
    exact Nat.sub_eq_zero_of_le hb.pace.le
  refine ⟨fun r hok => ?_, fun f hf hpf => ?_⟩
  · obtain ⟨as, ts⟩ := r
    have hfits := parseAllocs_fits (State.allocs_of_startCheck hok)
    have hwork : t.CarWork (((t.loadAllocs p as).loadPlan p o.hdr).loadSpice p ts) :=
      (((State.CarWork.refl t).loadAllocs hfits).loadPlan).loadSpice
    rw [hgood as ts ((hb.alike.startCheck _).trans hok)] at hstep
    have hst := (hb.loaded (ts := s.timing p o.hdr) hpace0 hwork).answered s.pending
    exact ⟨_, _, hstep, hst.exec, rfl, rfl, rfl, rfl, rfl, rfl, rfl, rfl, rfl, hst.pace, hst.base, hst.tag, hst.step, hst.state, hst.part⟩
  · have hfails := State.raise_fails (unit := manUnit t p) (off := 0) (w3 := f.2) hb.exec rfl hpf
    rw [hpace0, hunit] at hfails
    rw [hbad f ((hb.alike.startCheck _).trans hf), hunit] at hstep
    have hend := hfails.answered s.pending
    exact ⟨_, _, hstep, hend.exec, rfl, rfl, rfl, fun q hq => (hend.part q hq).trans (hb.part q hq)⟩

end Sys2Proof.Machine
end

section
/-!
PROOFS. What happens beside the end of an order (R243, R446, R447): the routes that traffic takes, the counters it moves, the completion records
that are written.
-/
namespace Sys2Proof.Machine

/-- What the end of an order goes by in a partition's record: its orders and records, its execution, what waits, its caravans. -/
def Part.ending (x : Part) : List Order × List Record × Option Exec × List SealAct × List Nat := (x.orders, x.records, x.exec, x.acts, x.cmap)

/-- Work on partition p that leaves the registers K, the flags, the device and what the end of an order goes by. -/
structure State.Beside (K : Nat → Prop) (p : Nat) (s t : State) : Prop where
  regs : ∀ o, K o → t.reg o = s.reg o
  part : OnlyPart p s t
  own : (t.part p).ending = (s.part p).ending
  flags : t.flags = s.flags
  dev : t.dev = s.dev
  out : s.out ⊆ t.out

namespace State.Beside
variable {K : Nat → Prop} {p : Nat} {s t u : State}

theorem refl (s : State) : s.Beside K p s := ⟨fun _ _ => rfl, fun _ _ => rfl, rfl, rfl, rfl, List.Subset.refl _⟩

theorem trans (h : s.Beside K p t) (k : t.Beside K p u) : s.Beside K p u :=
  ⟨fun o ho => (k.regs o ho).trans (h.regs o ho), fun q hq => (k.part q hq).trans (h.part q hq), k.own.trans h.own, k.flags.trans h.flags,
    k.dev.trans h.dev, List.Subset.trans h.out k.out⟩

theorem weaken {L : Nat → Prop} (h : s.Beside K p t) (hL : ∀ {o}, L o → K o) : s.Beside L p t :=
  { h with regs := fun o ho => h.regs o (hL ho) }

theorem ite {c : Prop} [Decidable c] (ht : s.Beside K p t) (hu : s.Beside K p u) : s.Beside K p (if c then t else u) := by
  split
  · exact ht
  · exact hu

theorem foldl {α : Type} {f : State → α → State} {l : List α} (h : s.Beside K p t)
    (hf : ∀ a ∈ l, ∀ t, s.Beside K p t → s.Beside K p (f t a)) : s.Beside K p (l.foldl f t) :=
  List.foldlRecOn l f h fun t ht a ha => hf a ha t ht

theorem fld (h : s.Beside K p t) {r : FieldRef} (hr : K r.off) : t.fld r = s.fld r := State.fld_congr (h.regs _ hr)

theorem orders (h : s.Beside K p t) : (t.part p).orders = (s.part p).orders := congrArg Prod.fst h.own
theorem records (h : s.Beside K p t) : (t.part p).records = (s.part p).records := congrArg (·.2.1) h.own
theorem exec (h : s.Beside K p t) : t.exec? p = s.exec? p := congrArg (·.2.2.1) h.own
theorem acts (h : s.Beside K p t) : (t.part p).acts = (s.part p).acts := congrArg (·.2.2.2.1) h.own
theorem caravans (h : s.Beside K p t) : t.caravans p = s.caravans p := congrArg (·.2.2.2.2) h.own

/-- Registers, partitions, flags, device and what goes out as they are. -/
theorem frame (h : s.Beside K p t) (hc : u.csr = t.csr) (hp : u.parts = t.parts) (hf : u.flags = t.flags) (hd : u.dev = t.dev)
    (ho : u.out = t.out) : s.Beside K p u :=
  have hpart (q : Nat) : u.part q = t.part q := by unfold State.part; rw [hp]
  h.trans ⟨fun o _ => by unfold State.reg; rw [hc], fun q _ => hpart q, by rw [hpart], hf, hd, by rw [ho]; exact List.Subset.refl _⟩

theorem setReg {o w} (h : s.Beside K p t) (ho : ¬ K o) : s.Beside K p (t.setReg o w) :=
  h.trans ⟨fun o' ho' => by rw [State.reg_setReg, if_neg (by rintro rfl; exact ho ho')], fun _ _ => rfl, rfl, rfl, rfl, List.Subset.refl _⟩

theorem setFld {r v} (h : s.Beside K p t) (hr : ¬ K r.off) : s.Beside K p (t.setFld r v) := h.setReg hr
theorem count {r n} (h : s.Beside K p t) (hr : ¬ K r.off) : s.Beside K p (t.count r n) := h.setReg hr
theorem keepMax {r n} (h : s.Beside K p t) (hr : ¬ K r.off) : s.Beside K p (t.keepMax r n) := h.setReg hr

theorem updPart {f : Part → Part} (h : s.Beside K p t) (hf : ∀ x, (f x).ending = x.ending := by exact fun _ => rfl) :
    s.Beside K p (t.updPart p f) :=
  h.trans ⟨fun _ _ => rfl, fun q hq => State.part_updPart_other _ _ _ _ hq, by rw [State.part_updPart_same, hf], rfl, rfl, List.Subset.refl _⟩

theorem emit {o} (h : s.Beside K p t) : s.Beside K p (t.emit o) :=
  h.trans ⟨fun _ _ => rfl, fun _ _ => rfl, rfl, rfl, rfl, List.subset_append_left _ _⟩

theorem updWctx {q f} (h : s.Beside K p t) : s.Beside K p (t.updWctx q f) := h.frame rfl rfl rfl rfl rfl
theorem draw (h : s.Beside K p t) : s.Beside K p t.draw.2 := h.frame rfl rfl rfl rfl rfl

theorem setVbyte {g va b} (h : s.Beside K p t) : s.Beside K p (t.setVbyte p g va b) := by
  unfold State.setVbyte
  split
  · exact h.frame rfl rfl rfl rfl rfl
  · exact h

theorem setVbytes {g va bs} (h : s.Beside K p t) : s.Beside K p (t.setVbytes p g va bs) := by
  induction bs generalizing t va with
  | nil => exact h
  | cons b bs ih => exact ih h.setVbyte

end State.Beside

/-! Routes. -/

/-- The registers that routes are decided by: failed routers and links, and the states of the Pass channels (R243, R248). -/
def routeReg (o : Nat) : Prop := 0xA00000 ≤ o ∧ (o % 0x1000 < 0x10 ∨ o < 0xAC0080 ∧ o % 0x1000 < 0x100)

theorem routeReg_mshFault (h : Nat) : routeReg (Csr.mshFault h) := by
  unfold routeReg Csr.mshFault
  omega

section
variable {s t : State} (h : ∀ o, routeReg o → t.reg o = s.reg o)
include h

theorem linkFailed_of_regs (a b : Rtr) : t.linkFailed a b = s.linkFailed a b := by
  have hreg : t.reg (Csr.mshLinkfault a.half) = s.reg (Csr.mshLinkfault a.half) := h _ (by unfold routeReg Csr.mshLinkfault; omega)
  unfold State.linkFailed
  rw [State.fld_congr (r := Csr.mshLinkfault_hLinks a.half) hreg, State.fld_congr (r := Csr.mshLinkfault_vLinks a.half) hreg]

theorem pathOk_of_regs (l : List Rtr) : t.pathOk l = s.pathOk l := by
  have hr (k : Nat) : t.fld (Csr.mshFault_failedRouters k) = s.fld (Csr.mshFault_failedRouters k) :=
    State.fld_congr (h _ (routeReg_mshFault k))
  simp only [State.pathOk, hr, linkFailed_of_regs h]

theorem chanOpen_of_regs {c : Nat} (hc : c < 16) : t.chanOpen c = s.chanOpen c := by
  have hreg : t.reg (Csr.pasChan c) = s.reg (Csr.pasChan c) := h _ (by unfold routeReg Csr.pasChan; omega)
  unfold State.chanOpen
  rw [State.fld_congr (r := Csr.pasChan_state c) hreg]

theorem pickChan_of_regs (src plane col : Nat) : t.pickChan src plane col = s.pickChan src plane col := by
  have own (k : Nat) : ((chansOf col)[k]?).filter t.chanOpen = ((chansOf col)[k]?).filter s.chanOpen := by
    cases hk : (chansOf col)[k]? with
    | none => rfl
    | some c => simp only [Option.filter, chanOpen_of_regs h (lt_of_mem_chansOf (List.mem_of_getElem? hk))]
  have side (x : Nat) : (chansOf x).find? t.chanOpen = (chansOf x).find? s.chanOpen :=
    List.find?_congr fun c hc => chanOpen_of_regs h (lt_of_mem_chansOf hc)
  simp only [State.pickChan, own, side]

theorem route_of_regs (a b : Rtr) (plane : Nat) : t.route a b plane = s.route a b plane := by
  simp only [State.route, pickChan_of_regs h, pathOk_of_regs h]

theorem State.Joined.of_regs {a : Rtr} (hj : s.Joined a) : t.Joined a := by
  intro r hr hra pl hpl
  rw [route_of_regs h, route_of_regs h]
  exact hj r hr hra pl hpl

end

/-- The manifest controller that serves a partition is at the router it was at. -/
theorem State.manRtr_of_regs {s t : State} {p : Nat} (h : ∀ o, routeReg o → t.reg o = s.reg o) (hc : t.caravans p = s.caravans p) :
    t.manRtr p = s.manRtr p := by
  have hhome : t.home p = s.home p := by unfold State.home; rw [hc]
  have hreg : t.fld (Csr.mshFault_failedRouters (s.home p / 12)) = s.fld (Csr.mshFault_failedRouters (s.home p / 12)) :=
    State.fld_congr (h _ (routeReg_mshFault _))
  unfold State.manRtr State.unitHalf
  dsimp only
  rw [hhome, hreg]

theorem State.manRtr_onGrid (s : State) (p : Nat) : (s.manRtr p).OnGrid :=
  ⟨show 2 < 4 from by decide, show 3 < 8 from by decide⟩

/-! Traffic. -/

/-- The registers that no traffic moves. -/
def quietReg (o : Nat) : Prop := o < 0xA00000 ∨ o % 0x1000 < 0x100

theorem routeReg.quiet {o : Nat} (h : routeReg o) : quietReg o := by
  unfold routeReg at h
  unfold quietReg
  omega

namespace State.Beside
variable {p : Nat} {s t : State}

/-- A counter of a router. -/
theorem countRtr {a : Rtr} {r : FieldRef} {n : Nat} (h : s.Beside quietReg p t) (ha : a.OnGrid) (hr : r.off = Csr.mshRouter a.half a.inst) :
    s.Beside quietReg p (t.count r n) := h.count (by
  unfold Rtr.OnGrid at ha
  rw [hr]
  unfold quietReg Csr.mshRouter Rtr.inst
  omega)

theorem countFlits {path chans k n} (h : s.Beside quietReg p t) (hp : ∀ x ∈ path, Rtr.OnGrid x) (hc : ∀ c ∈ chans, c < 16) :
    s.Beside quietReg p (t.countFlits path chans k n) := by
  refine foldl (foldl h fun r hr _ h1 => h1.countRtr (hp r hr) rfl) fun c hm _ h1 => h1.count ?_
  have := hc c hm
  split
  all_goals
    simp only [quietReg, Csr.pasBeats_weBeats, Csr.pasBeats_ewBeats, Csr.pasBeats]
    omega

theorem sendMesh {k a b pl n} (h : s.Beside quietReg p t) (ha : a.OnGrid) (hb : b.OnGrid) : s.Beside quietReg p (t.sendMesh k a b pl n) := by
  obtain ⟨hp, hc⟩ := route_onGrid (s := t) ha hb pl
  unfold State.sendMesh
  extract_lets r t1
  split
  · exact h
  · have h1 : s.Beside quietReg p t1 := h.countFlits hp fun c hm => hc c (Option.mem_toList.mp hm)
    exact .ite h1 (h1.countRtr ha rfl)

theorem meshTo {store a pa n} (h : s.Beside quietReg p t) (hj : s.Joined a) (ha : a.OnGrid) : s.Beside quietReg p (t.meshTo store a pa n) := by
  refine foldl h fun x _ v hv => ?_
  obtain ⟨b, m⟩ := x
  dsimp only
  split
  · exact hv
  · rename_i r hr
    have hm := rtrOfPa_mem_memRtrs hr
    have hg := State.TileWork.memRtrs_onGrid hm
    split
    · exact hv
    · rename_i hra
      obtain ⟨hto, hback⟩ := hj.of_regs (fun o ho => hv.regs o ho.quiet) r hm hra _ (planeOf_lt b)
      rw [hto, hback]
      exact (hv.sendMesh ha hg).sendMesh hg ha

theorem storeVbytes {a g va bs} (h : s.Beside quietReg p t) (hj : s.Joined a) (ha : a.OnGrid) :
    s.Beside quietReg p (t.storeVbytes a p g va bs) := by
  have hrow : s.Beside quietReg p (t.meshRow true a p g va bs.length) := by
    unfold State.meshRow
    split
    · exact h.meshTo hj ha
    · exact h
  exact hrow.setVbytes

theorem manRtr (h : s.Beside quietReg p t) : t.manRtr p = s.manRtr p := State.manRtr_of_regs (fun o ho => h.regs o ho.quiet) h.caravans

/-! Completion records (R446, R447). -/

theorem writeRecord {r} (h : s.Beside quietReg p t) (hj : s.Joined (s.manRtr p)) : s.Beside quietReg p (t.writeRecord p r) := by
  unfold State.writeRecord
  extract_lets f t1
  have hman : s.Joined (t.manRtr p) := by rw [h.manRtr]; exact hj
  have h1 : s.Beside quietReg p t1 := .ite h (h.storeVbytes hman (t.manRtr_onGrid p))
  exact h1.emit.emit

end State.Beside

/-- Where a record goes: its slot of the completion ring (R447). -/
def State.recordOut (s : State) (p : Nat) (r : Record) : Out :=
  .hostWrite (s.fld (Csr.hqCpl_func p)) (s.fld (Csr.hqCpl_base p) + r.seq % 2 ^ s.fld (Csr.hqCpl_log2Depth p) * 64) r.bytes

theorem quietReg_hqCpl (p : PartId) : quietReg (Csr.hqCpl p) := by
  unfold quietReg Csr.hqCpl
  omega

theorem State.Beside.recordOut {s t : State} {p : PartId} (h : s.Beside quietReg p t) (r : Record) : t.recordOut p r = s.recordOut p r := by
  unfold State.recordOut
  rw [h.fld (r := Csr.hqCpl_func p) (quietReg_hqCpl p), h.fld (r := Csr.hqCpl_base p) (quietReg_hqCpl p),
    h.fld (r := Csr.hqCpl_log2Depth p) (quietReg_hqCpl p)]

theorem State.recordOut_mem_writeRecord {s : State} {p : PartId} {r : Record} (hj : s.Joined (s.manRtr p)) :
    s.recordOut p r ∈ (s.writeRecord p r).out := by
  unfold State.writeRecord
  extract_lets f t1
  have h1 : s.Beside quietReg p t1 := .ite (.refl s) ((State.Beside.refl s).storeVbytes hj (s.manRtr_onGrid p))
  have hf : f = t1.fld (Csr.hqCpl_func p) := (h1.fld (quietReg_hqCpl p)).symm
  rw [← h1.recordOut r, hf]
  exact List.mem_append_left _ (List.mem_append_right _ (.head _))

/-- Records are written one after another, each into its slot. -/
theorem State.writeRecords_out {s : State} {p : PartId} (hj : s.Joined (s.manRtr p)) (rs : List Record) :
    s.Beside quietReg p (rs.foldl (fun s r => s.writeRecord p r) s) ∧
      ∀ r ∈ rs, s.recordOut p r ∈ (rs.foldl (fun s r => s.writeRecord p r) s).out := by
  suffices h : ∀ t, s.Beside quietReg p t → s.Beside quietReg p (rs.foldl (fun s r => s.writeRecord p r) t) ∧
      ∀ r ∈ rs, s.recordOut p r ∈ (rs.foldl (fun s r => s.writeRecord p r) t).out from h s (.refl s)
  intro t ht
  refine ⟨ht.foldl fun r _ u hu => hu.writeRecord hj, fun r hr => ?_⟩
  induction rs generalizing t with
  | nil => cases hr
  | cons x xs ih =>
    have hx : s.Beside quietReg p (t.writeRecord p x) := ht.writeRecord hj
    obtain rfl | hr := List.mem_cons.mp hr
    · have htj : t.Joined (t.manRtr p) := by rw [ht.manRtr]; exact hj.of_regs fun o ho => ht.regs o ho.quiet
      have hrest : (t.writeRecord p r).Beside quietReg p (xs.foldl (fun s r => s.writeRecord p r) (t.writeRecord p r)) :=
        (State.Beside.refl _).foldl fun y _ u hu => hu.writeRecord (by
          rw [hx.manRtr]
          exact hj.of_regs fun o ho => hx.regs o ho.quiet)
      exact hrest.out (ht.recordOut r ▸ State.recordOut_mem_writeRecord htj)
    · exact ih _ hx hr

end Sys2Proof.Machine
end

section
/-!
PROOFS. An order's end (R293, R297, R385, R446): its outcome, its record, its publication, and what goes on beside it.
-/
namespace Sys2Proof.Machine

/-! The committed outcome. -/

/-- The registers that a committed or refused step is told in: STEP, COMMIT and NORM of a partition. -/
def stepReg (p : PartId) (o : Nat) : Prop := o = Csr.updStep p ∨ o = Csr.updCommit p ∨ o = Csr.updNorm p

theorem stepReg_distinct (p : PartId) : Csr.updStep p ≠ Csr.updCommit p ∧ Csr.updStep p ≠ Csr.updNorm p ∧ Csr.updCommit p ≠ Csr.updNorm p := by
  unfold Csr.updStep Csr.updCommit Csr.updNorm
  omega

/-- The step of an execution e ends as its outcome says, from state s to t (R293, R297). -/
structure State.StepEnds (p : PartId) (e : Exec) (s t : State) : Prop where
  nothing : e.outcome = 0 → t.fld (Csr.updStep_step p) = s.fld (Csr.updStep_step p) ∧ t.fld (Csr.updCommit_live p) = s.fld (Csr.updCommit_live p)
  committed : e.outcome ≠ 0 → e.pending = true → t.fld (Csr.updStep_step p) = (s.fld (Csr.updStep_step p) + 1) % 2 ^ 32 ∧
    t.fld (Csr.updCommit_live p) = (if e.direct = some true then s.fld (Csr.updCommit_live p) else 1 - s.fld (Csr.updCommit_live p)) ∧
    t.fld (Csr.updNorm_norm p) = (e.normNew.getD 0).toNat ∧ t.fld (Csr.updNorm_normValid p) = 1
  refused : e.outcome ≠ 0 → e.pending = false → t.fld (Csr.updStep_step p) = s.fld (Csr.updStep_step p) ∧
    t.fld (Csr.updCommit_refused p) = min (s.fld (Csr.updCommit_refused p) + 1) (2 ^ 16 - 1)

/-- The same from and to states that tell the step alike. -/
theorem State.StepEnds.congr {p : PartId} {e e' : Exec} {s t s' t' : State} (h : s.StepEnds p e t)
    (he : e'.outcome = e.outcome ∧ e'.pending = e.pending ∧ e'.direct = e.direct ∧ e'.normNew = e.normNew)
    (hs : ∀ o, stepReg p o → s'.reg o = s.reg o) (ht : ∀ o, stepReg p o → t'.reg o = t.reg o) : s'.StepEnds p e' t' := by
  obtain ⟨ho, hp, hd, hn⟩ := he
  have same {u v : State} (h : ∀ o, stepReg p o → v.reg o = u.reg o) : v.fld (Csr.updStep_step p) = u.fld (Csr.updStep_step p) ∧
      v.fld (Csr.updCommit_live p) = u.fld (Csr.updCommit_live p) ∧ v.fld (Csr.updCommit_refused p) = u.fld (Csr.updCommit_refused p) ∧
      v.fld (Csr.updNorm_norm p) = u.fld (Csr.updNorm_norm p) ∧ v.fld (Csr.updNorm_normValid p) = u.fld (Csr.updNorm_normValid p) :=
    ⟨fld_congr (r := Csr.updStep_step p) (h _ (.inl rfl)), fld_congr (r := Csr.updCommit_live p) (h _ (.inr (.inl rfl))),
      fld_congr (r := Csr.updCommit_refused p) (h _ (.inr (.inl rfl))), fld_congr (r := Csr.updNorm_norm p) (h _ (.inr (.inr rfl))),
      fld_congr (r := Csr.updNorm_normValid p) (h _ (.inr (.inr rfl)))⟩
  obtain ⟨s1, s2, s3, -, -⟩ := same hs
  obtain ⟨t1, t2, t3, t4, t5⟩ := same ht
  constructor
  · rw [ho, s1, s2, t1, t2]
    exact h.nothing
  · rw [ho, hp, hd, hn, s1, s2, t1, t2, t4, t5]
    exact h.committed
  · rw [ho, hp, s1, s3, t1, t3]
    exact h.refused

/-- A staged step makes the other copy live; a direct one leaves it (R284, R297). -/
def State.flipLive (s : State) (p : Nat) (e : Exec) : State :=
  if e.direct = some true then s else s.setFld (Csr.updCommit_live p) (1 - s.fld (Csr.updCommit_live p))

theorem State.flipLive_live (s : State) (p : Nat) (e : Exec) : (s.flipLive p e).fld (Csr.updCommit_live p) =
    if e.direct = some true then s.fld (Csr.updCommit_live p) else 1 - s.fld (Csr.updCommit_live p) := by
  unfold State.flipLive
  split
  · rfl
  · rw [State.fld_setFld_same _ _ _ (by simp [Csr.updCommit_live])]
    exact Nat.mod_eq_of_lt (Nat.lt_of_le_of_lt (Nat.sub_le ..) Nat.one_lt_two)

theorem State.flipLive_other {s : State} {p : Nat} {e : Exec} {o : Nat} (h : o ≠ Csr.updCommit p) : (s.flipLive p e).reg o = s.reg o := by
  unfold State.flipLive
  split
  · rfl
  · exact State.reg_setFld_other _ _ _ _ h.symm

/-- A committed step: LIVE, STEP and NORM (R293, R297). -/
def State.commitStep (s : State) (p : Nat) (e : Exec) : State :=
  let t := (s.flipLive p e).setFld (Csr.updStep_step p) (((s.flipLive p e).fld (Csr.updStep_step p) + 1) % 2 ^ 32)
  (t.setFld (Csr.updNorm_norm p) (e.normNew.getD 0).toNat).setFld (Csr.updNorm_normValid p) 1

theorem State.settleOutcome_eq (s : State) (p : Nat) (e : Exec) : s.settleOutcome p e 1 =
    let w := s.updWctx p (fun w => { w with votes := if e.outcome = 0 then w.votes else [] })
    let u := w.setFld (Csr.updCommit_outcome p) e.outcome
    (if e.outcome = 0 then w else if e.pending = true then u.commitStep p e else u.count (Csr.updCommit_refused p) 1, e.outcome) := by
  unfold State.settleOutcome
  dsimp only
  rw [if_neg (by decide)]
  split
  · rename_i h
    rw [h]
  · split
    · rfl
    · rfl

/-- A commit is told in STEP, COMMIT and NORM. -/
theorem State.commitStep_ends (s : State) (p : PartId) (e : Exec) :
    (s.commitStep p e).fld (Csr.updStep_step p) = (s.fld (Csr.updStep_step p) + 1) % 2 ^ 32 ∧
    (s.commitStep p e).fld (Csr.updCommit_live p) = (if e.direct = some true then s.fld (Csr.updCommit_live p) else 1 - s.fld (Csr.updCommit_live p)) ∧
    (s.commitStep p e).fld (Csr.updNorm_norm p) = (e.normNew.getD 0).toNat ∧ (s.commitStep p e).fld (Csr.updNorm_normValid p) = 1 := by
  obtain ⟨hsc, hsn, hcn⟩ := stepReg_distinct p
  have hstep : (s.flipLive p e).fld (Csr.updStep_step p) = s.fld (Csr.updStep_step p) :=
    State.fld_congr (r := Csr.updStep_step p) (State.flipLive_other hsc)
  unfold State.commitStep
  dsimp only
  rw [hstep]
  refine ⟨?_, ?_, ?_, ?_⟩
  · rw [State.fld_setFld_off _ _ _ _ hsn.symm, State.fld_setFld_off _ _ _ _ hsn.symm, State.fld_setFld_same _ _ _ (by simp [Csr.updStep_step])]
    exact Nat.mod_mod _ _
  · rw [State.fld_setFld_off _ _ _ _ hcn.symm, State.fld_setFld_off _ _ _ _ hcn.symm, State.fld_setFld_off _ _ _ _ hsc, State.flipLive_live]
  · rw [State.fld_setFld_field _ _ _ _ (by simp [Csr.updNorm_normValid]) (.inr (by simp [Csr.updNorm_normValid, Csr.updNorm_norm])),
      State.fld_setFld_same _ _ _ (by simp [Csr.updNorm_norm])]
    exact Nat.mod_eq_of_lt (BitVec.isLt _)
  · rw [State.fld_setFld_same _ _ _ (by simp [Csr.updNorm_normValid])]
    rfl

theorem State.Beside.commitStep {s t : State} {p : PartId} {e : Exec} (h : s.Beside (fun o => ¬ stepReg p o) p t) :
    s.Beside (fun o => ¬ stepReg p o) p (t.commitStep p e) := by
  have hlive : s.Beside (fun o => ¬ stepReg p o) p (t.flipLive p e) := .ite h (h.setFld (not_not_intro (.inr (.inl rfl))))
  unfold State.commitStep
  exact ((hlive.setFld (not_not_intro (.inl rfl))).setFld (not_not_intro (.inr (.inr rfl)))).setFld (not_not_intro (.inr (.inr rfl)))

/-- A completed order's outcome: what it commits or counts, and nothing beside (R293, R295, R297). -/
theorem State.settleOutcome_ends (s : State) (p : PartId) (e : Exec) : (s.settleOutcome p e 1).2 = e.outcome ∧
    s.Beside (fun o => ¬ stepReg p o) p (s.settleOutcome p e 1).1 ∧ s.StepEnds p e (s.settleOutcome p e 1).1 := by
  obtain ⟨hsc, hsn, hcn⟩ := stepReg_distinct p
  rw [State.settleOutcome_eq]
  extract_lets w u
  have hw : s.Beside (fun o => ¬ stepReg p o) p w := (State.Beside.refl s).updWctx
  have hu : s.Beside (fun o => ¬ stepReg p o) p u := hw.setFld (not_not_intro (.inr (.inl rfl)))
  have hstep : u.fld (Csr.updStep_step p) = s.fld (Csr.updStep_step p) := State.fld_setFld_off _ _ _ _ hsc.symm
  have hlive : u.fld (Csr.updCommit_live p) = s.fld (Csr.updCommit_live p) :=
    State.fld_setFld_field _ _ _ _ (by simp [Csr.updCommit_outcome]) (.inr (by simp [Csr.updCommit_outcome, Csr.updCommit_live]))
  have href : u.fld (Csr.updCommit_refused p) = s.fld (Csr.updCommit_refused p) :=
    State.fld_setFld_field _ _ _ _ (by simp [Csr.updCommit_outcome]) (.inl (by simp [Csr.updCommit_outcome, Csr.updCommit_refused]))
  refine ⟨rfl, .ite hw (.ite hu.commitStep (hu.count (not_not_intro (.inr (.inl rfl))))), ?_⟩
  by_cases h0 : e.outcome = 0
  · simp only [if_pos h0]
    exact ⟨fun _ => ⟨rfl, rfl⟩, fun h => absurd h0 h, fun h => absurd h0 h⟩
  · by_cases hp : e.pending = true
    · simp only [if_neg h0, if_pos hp]
      have hc := u.commitStep_ends p e
      rw [hstep, hlive] at hc
      exact ⟨fun h => absurd h h0, fun _ _ => hc, fun _ hn => by rw [hp] at hn; cases hn⟩
    · simp only [if_neg h0, if_neg hp]
      refine ⟨fun h => absurd h h0, fun _ h => absurd h hp, fun _ _ => ⟨?_, ?_⟩⟩
      · rw [State.fld_count_off _ _ _ _ hsc.symm, hstep]
      · rw [State.fld_count_same _ _ _ (by simp [Csr.updCommit_refused]), href]
        rfl

/-! The record. -/

theorem mem_putRecord (base : Nat) (r : Record) (rs : List Record) : r ∈ putRecord base r rs := by
  induction rs with
  | nil => exact .head _
  | cons x xs ih =>
    unfold putRecord
    split
    · exact .tail _ ih
    · exact .head _

/-- A partition's waiting records. -/
def State.setRecords (s : State) (p : Nat) (rs : List Record) : State := s.updPart p (fun x => { x with records := rs })

/-- Waiting records do not tell whether a function can master. -/
theorem State.setRecords_masters (s : State) (p : Nat) (rs : List Record) :
    (s.setRecords p rs).masters ((s.setRecords p rs).fld (Csr.hqCpl_func p)) = s.masters (s.fld (Csr.hqCpl_func p)) := by
  unfold State.setRecords State.masters State.hostUp
  rw [State.updPart_dev, State.updPart_fld_acc]

theorem State.flushRecords_waits {s : State} {p : Nat} (h : s.masters (s.fld (Csr.hqCpl_func p)) = false) : s.flushRecords p = s :=
  if_neg (by rw [h]; exact Bool.false_ne_true)

theorem State.flushRecords_writes {s : State} {p : Nat} (h : s.masters (s.fld (Csr.hqCpl_func p)) = true) :
    s.flushRecords p = (s.part p).records.foldl (fun s r => s.writeRecord p r) (s.setRecords p []) := if_pos h

theorem State.reg_setRecords (s : State) (p : Nat) (rs : List Record) (o : Nat) : (s.setRecords p rs).reg o = s.reg o := State.updPart_reg_acc ..

theorem State.part_setRecords (s : State) (p : Nat) (rs : List Record) : (s.setRecords p rs).part p = { s.part p with records := rs } :=
  State.part_updPart_same ..

theorem State.setRecords_setRecords (s : State) (p : Nat) (rs qs : List Record) :
    (s.setRecords p qs).Beside quietReg p ((s.setRecords p rs).setRecords p qs) := by
  refine ⟨fun _ _ => rfl, fun q hq => ?_, ?_, rfl, rfl, List.Subset.refl _⟩
  · unfold State.setRecords
    rw [State.part_updPart_other _ _ _ _ hq, State.part_updPart_other _ _ _ _ hq, State.part_updPart_other _ _ _ _ hq]
  · rw [State.part_setRecords, State.part_setRecords, State.part_setRecords]

theorem State.joined_setRecords {s : State} {p : Nat} (hj : s.Joined (s.manRtr p)) (rs : List Record) :
    (s.setRecords p rs).Joined ((s.setRecords p rs).manRtr p) := by
  have hregs (o : Nat) (_ : routeReg o) : (s.setRecords p rs).reg o = s.reg o := s.reg_setRecords p rs o
  have hcars : (s.setRecords p rs).caravans p = s.caravans p := by
    unfold State.caravans
    rw [State.part_setRecords]
  rw [State.manRtr_of_regs hregs hcars]
  exact hj.of_regs hregs

/-- A record among those that wait, then the flush: it waits on, or it and all others are written (R447). -/
theorem State.flushRecords_put {s : State} {p : PartId} (hj : s.Joined (s.manRtr p)) (r : Record) :
    let t := (s.setRecords p (putRecord (s.fld (Csr.hqCplHead_released p)) r (s.part p).records)).flushRecords p
    (s.masters (s.fld (Csr.hqCpl_func p)) = false →
      t = s.setRecords p (putRecord (s.fld (Csr.hqCplHead_released p)) r (s.part p).records)) ∧
    (s.masters (s.fld (Csr.hqCpl_func p)) = true → (s.setRecords p []).Beside quietReg p t ∧ s.recordOut p r ∈ t.out) := by
  have hmem := mem_putRecord (s.fld (Csr.hqCplHead_released p)) r (s.part p).records
  generalize putRecord (s.fld (Csr.hqCplHead_released p)) r (s.part p).records = rs at hmem ⊢
  refine ⟨fun hm => State.flushRecords_waits ((s.setRecords_masters p rs).trans hm), fun hm => ?_⟩
  have hempty := s.setRecords_setRecords p rs []
  have hj2 := State.joined_setRecords (State.joined_setRecords hj rs) []
  have hout2 : ((s.setRecords p rs).setRecords p []).recordOut p r = (s.setRecords p []).recordOut p r := hempty.recordOut r
  rw [State.flushRecords_writes ((s.setRecords_masters p rs).trans hm), State.part_setRecords]
  generalize (s.setRecords p rs).setRecords p [] = u at hempty hj2 hout2 ⊢
  obtain ⟨hb, hout⟩ := State.writeRecords_out hj2 rs
  exact ⟨hempty.trans hb, hout2 ▸ hout r hmem⟩

end Sys2Proof.Machine
end

section
/-!
PROOFS. The end of an order in the journal, the records and the mailboxes (R385, R446, R447, R450).
-/
namespace Sys2Proof.Machine

/-- The registers that tell a partition's completed order and its step. -/
def endReg (p : PartId) (o : Nat) : Prop := o = Csr.sealMan p ∨ stepReg p o

theorem endReg.quiet {p : PartId} {o : Nat} (h : endReg p o) : quietReg o := by
  unfold endReg stepReg Csr.sealMan Csr.updStep Csr.updCommit Csr.updNorm at h
  unfold quietReg
  omega

/-- An order o of execution e has ended with status 1 in partition p, from state s to t. -/
structure State.OrderEnds (p : PartId) (o : Order) (e : Exec) (s t : State) : Prop where
  step : s.StepEnds p e t
  part : OnlyPart p s t
  orders : (t.part p).orders = (s.part p).orders.filter (·.seq ≠ o.seq)
  completed : t.fld (Csr.sealMan_completed p) = o.seq % 2 ^ 32
  records : ∃ r : Record, r.seq = o.seq ∧ r.bytes = recordBytes o (some e) 1 e.outcome none ∧
    (s.masters (s.fld (Csr.hqCpl_func p)) = false →
      (t.part p).records = putRecord (s.fld (Csr.hqCplHead_released p)) r (s.part p).records) ∧
    (s.masters (s.fld (Csr.hqCpl_func p)) = true → (t.part p).records = [] ∧ s.recordOut p r ∈ t.out)

/-- What goes on beside it leaves an order ended. -/
theorem State.OrderEnds.beside {p : PartId} {o : Order} {e : Exec} {s t u : State} (h : s.OrderEnds p o e t) (hp : OnlyPart p t u)
    (ho : (u.part p).orders = (t.part p).orders) (hr : (u.part p).records = (t.part p).records) (hout : t.out ⊆ u.out)
    (hc : u.fld (Csr.sealMan_completed p) = t.fld (Csr.sealMan_completed p)) (hs : s.StepEnds p e u) : s.OrderEnds p o e u := by
  obtain ⟨r, hseq, hbytes, hwait, hsent⟩ := h.records
  exact ⟨hs, fun q hq => (hp q hq).trans (h.part q hq), ho.trans h.orders, hc.trans h.completed, r, hseq, hbytes,
    fun hm => hr.trans (hwait hm), fun hm => ⟨hr.trans (hsent hm).1, hout (hsent hm).2⟩⟩

theorem State.OrderEnds.next {p : PartId} {o : Order} {e : Exec} {s t u : State} (h : s.OrderEnds p o e t) (k : t.Beside (endReg p) p u) :
    s.OrderEnds p o e u :=
  h.beside k.part k.orders k.records k.out (k.fld (r := Csr.sealMan_completed p) (.inl rfl))
    (h.step.congr ⟨rfl, rfl, rfl, rfl⟩ (fun _ _ => rfl) fun _ ho => k.regs _ (.inr ho))

/-! Mailboxes. -/

section
variable {p : PartId} {s t : State}

theorem not_endReg_hqMbox {m : Nat} (hm : m ≤ 31) (i : Fin 8) : ¬ endReg p (Csr.hqMbox p m + 8 * i) := by
  unfold endReg stepReg Csr.sealMan Csr.updStep Csr.updCommit Csr.updNorm Csr.hqMbox
  omega

theorem State.Beside.fillMbox {m seq ready data} (h : s.Beside (endReg p) p t) (hm : m ≤ 31) :
    s.Beside (endReg p) p (t.fillMbox p m seq ready data) := by
  unfold State.fillMbox
  extract_lets t1
  have h1 : s.Beside (endReg p) p t1 := (h.setFld (not_endReg_hqMbox hm 0)).setFld (not_endReg_hqMbox hm 0)
  refine .ite (h1.foldl fun i hi _ h2 => h2.setReg ?_) h1
  have hi := List.mem_range.mp hi
  have : Csr.hqMboxData p m i = Csr.hqMbox p m + 8 * ((⟨i + 1, by omega⟩ : Fin 8) : Nat) := by
    simp only [Csr.hqMboxData, Csr.hqMbox]
    omega
  rw [this]
  exact not_endReg_hqMbox hm _

theorem State.Beside.publish {m seq ready data} (h : s.Beside (endReg p) p t) (hm : m ≤ 31) :
    s.Beside (endReg p) p (t.publish p m seq ready data) := .ite (h.fillMbox hm) h.updPart

end

/-! The end. -/

/-- The order leaves the journal, and COMPLETED names it. -/
def State.dropOrder (s : State) (p seq : Nat) : State :=
  (s.updPart p (fun x => { x with orders := x.orders.filter (·.seq ≠ seq) })).setFld (Csr.sealMan_completed p) seq

/-- The completion record of an order that ended with status 1 (R446). -/
def Order.record (o : Order) (e : Exec) (outcome : Nat) : Record :=
  ⟨o.seq, recordBytes o (some e) 1 outcome none, if decide (e.direct = some true) && decide (hBitmap e.hdr ≠ 0) then hBitmap o.hdr else 0, e.bitmap⟩

/-- The publication of an ended order, if it has one (R450). -/
def State.publishEnd (s : State) (p : Nat) (o : Order) : State :=
  if hMailbox o.hdr && hdrAt o.hdr 28 2 ≤ 31 then
    s.publish p (hdrAt o.hdr 28 2) o.seq true (s.vbytes p (s.homeStn p) (hResult o.hdr) 56)
  else s

theorem State.endOrder_eq (s : State) (p : Nat) (o : Order) (e : Exec) : s.endOrder p o (some e) 1 none =
    let u := (s.settleOutcome p e 1).1.dropOrder p o.seq
    ((u.setRecords p (putRecord (u.fld (Csr.hqCplHead_released p)) (o.record e (s.settleOutcome p e 1).2) (u.part p).records)).flushRecords
      p).publishEnd p o := rfl

theorem State.Beside.publishEnd {p : PartId} {s t : State} {o : Order} (h : s.Beside (endReg p) p t) :
    s.Beside (endReg p) p (t.publishEnd p o) := by
  unfold State.publishEnd
  split
  · rename_i hm
    rw [Bool.and_eq_true, decide_eq_true_eq] at hm
    exact h.publish hm.2
  · exact h

theorem State.part_dropOrder (s : State) (p seq : Nat) :
    (s.dropOrder p seq).part p = { s.part p with orders := (s.part p).orders.filter (·.seq ≠ seq) } := by
  unfold State.dropOrder
  rw [State.setFld_part_acc, State.part_updPart_same]

theorem State.reg_dropOrder {s : State} {p seq r : Nat} (h : r ≠ Csr.sealMan p) : (s.dropOrder p seq).reg r = s.reg r :=
  State.reg_setFld_other _ _ _ _ h.symm

theorem State.dropOrder_frame (s : State) (p seq : Nat) : OnlyPart p s (s.dropOrder p seq) ∧ (s.dropOrder p seq).flags = s.flags ∧
    (s.dropOrder p seq).dev = s.dev ∧ (s.dropOrder p seq).out = s.out := by
  unfold State.dropOrder
  generalize hu : s.updPart p (fun x => { x with orders := x.orders.filter (·.seq ≠ seq) }) = u
  refine ⟨fun q hq => ?_, ?_, ?_, ?_⟩
  · rw [State.setFld_part_acc, ← hu, State.part_updPart_other _ _ _ _ hq]
  · rw [State.setFld_flags, ← hu, State.updPart_flags]
  · rw [State.setFld_dev, ← hu, State.updPart_dev]
  · rw [State.setFld_out, ← hu, State.updPart_out]

theorem State.completed_dropOrder (s : State) (p seq : Nat) : (s.dropOrder p seq).fld (Csr.sealMan_completed p) = seq % 2 ^ 32 :=
  State.fld_setFld_same _ _ _ (by simp [Csr.sealMan_completed])

/-- An order that has settled its step leaves the journal, and its record waits or goes out. -/
theorem State.OrderEnds.of_record {s u v : State} {p : PartId} {o : Order} {e : Exec} {rs : List Record} (hstep : s.StepEnds p e u)
    (hpart : OnlyPart p s u) (horders : (u.part p).orders = (s.part p).orders.filter (·.seq ≠ o.seq))
    (hcomp : u.fld (Csr.sealMan_completed p) = o.seq % 2 ^ 32) (hv : (u.setRecords p rs).Beside quietReg p v)
    (hrs : ∃ r : Record, r.seq = o.seq ∧ r.bytes = recordBytes o (some e) 1 e.outcome none ∧
      (s.masters (s.fld (Csr.hqCpl_func p)) = false → rs = putRecord (s.fld (Csr.hqCplHead_released p)) r (s.part p).records) ∧
      (s.masters (s.fld (Csr.hqCpl_func p)) = true → rs = [] ∧ s.recordOut p r ∈ v.out)) : s.OrderEnds p o e v := by
  have hset : (u.setRecords p rs).part p = { u.part p with records := rs } := State.part_updPart_same ..
  obtain ⟨r, hseq, hbytes, hwait, hsent⟩ := hrs
  have hrec : (v.part p).records = rs := hv.records.trans (congrArg Part.records hset)
  refine ⟨hstep.congr ⟨rfl, rfl, rfl, rfl⟩ (fun _ _ => rfl) fun r hr => hv.regs r (endReg.quiet (.inr hr)), fun q hq => ?_, ?_, ?_,
    r, hseq, hbytes, fun hm => hrec.trans (hwait hm), fun hm => ⟨hrec.trans (hsent hm).1, (hsent hm).2⟩⟩
  · exact (hv.part q hq).trans ((State.part_updPart_other _ _ _ _ hq).trans (hpart q hq))
  · exact hv.orders.trans ((congrArg Part.orders hset).trans horders)
  · exact (hv.fld (r := Csr.sealMan_completed p) (endReg.quiet (.inl rfl))).trans hcomp

/-- What the flush of an ended order's record goes by is in the state u as in s. -/
structure State.Settled (p : PartId) (o : Order) (e : Exec) (s u : State) : Prop where
  step : s.StepEnds p e u
  part : OnlyPart p s u
  own : (u.part p).ending = ({ s.part p with orders := (s.part p).orders.filter (·.seq ≠ o.seq) } : Part).ending
  completed : u.fld (Csr.sealMan_completed p) = o.seq % 2 ^ 32
  regs : ∀ r, ¬ endReg p r → u.reg r = s.reg r
  flags : u.flags = s.flags
  dev : u.dev = s.dev

/-- The outcome is settled and the order leaves the journal. -/
theorem State.settled_dropOrder (s : State) (p : PartId) (o : Order) (e : Exec) :
    s.Settled p o e ((s.settleOutcome p e 1).1.dropOrder p o.seq) := by
  obtain ⟨-, hset, hstep⟩ := s.settleOutcome_ends p e
  generalize (s.settleOutcome p e 1).1 = t at hset hstep ⊢
  obtain ⟨hother, hflags, hdev, -⟩ := t.dropOrder_frame p o.seq
  have hown : (t.dropOrder p o.seq).part p = _ := t.part_dropOrder p o.seq
  refine ⟨hstep.congr ⟨rfl, rfl, rfl, rfl⟩ (fun _ _ => rfl) fun r hr => State.reg_dropOrder ?_, fun q hq => (hother q hq).trans (hset.part q hq), ?_,
    t.completed_dropOrder p o.seq, fun r hr => ?_, hflags.trans hset.flags, hdev.trans hset.dev⟩
  · rintro rfl
    unfold stepReg Csr.sealMan Csr.updStep Csr.updCommit Csr.updNorm at hr
    omega
  · have hrest : (t.part p).ending = (s.part p).ending := hset.own
    rw [hown]
    simp only [Part.ending, Prod.mk.injEq] at hrest ⊢
    obtain ⟨ho, hr, he, ha, hc⟩ := hrest
    exact ⟨by rw [ho], hr, he, ha, hc⟩
  · exact (State.reg_dropOrder fun h => hr (.inl h)).trans (hset.regs r fun h => hr (.inr h))

/-- The registers of the completion ring, and those that routes are decided by, are not among those an order's end writes. -/
theorem not_endReg (p : PartId) : ¬ endReg p (Csr.hqCpl p) ∧ ¬ endReg p (Csr.hqCplHead p) ∧ ∀ r, routeReg r → ¬ endReg p r := by
  unfold endReg stepReg routeReg Csr.hqCpl Csr.hqCplHead Csr.sealMan Csr.updStep Csr.updCommit Csr.updNorm
  refine ⟨by omega, by omega, fun r hr => ?_⟩
  omega

namespace State.Settled
variable {p : PartId} {o : Order} {e : Exec} {s u : State} (h : s.Settled p o e u)
include h

theorem records : (u.part p).records = (s.part p).records := congrArg (·.2.1) h.own
theorem caravans : u.caravans p = s.caravans p := congrArg (·.2.2.2.2) h.own

theorem route : ∀ r, routeReg r → u.reg r = s.reg r := fun r hr => h.regs r ((not_endReg p).2.2 r hr)

/-- No memory is cut off from the manifest controller. -/
theorem joined (hj : s.Joined (s.manRtr p)) : u.Joined (u.manRtr p) := by
  rw [State.manRtr_of_regs h.route h.caravans]
  exact hj.of_regs h.route

theorem masters (f : Nat) : u.masters f = s.masters f := by unfold State.masters State.hostUp; rw [h.dev]

theorem func : u.fld (Csr.hqCpl_func p) = s.fld (Csr.hqCpl_func p) := State.fld_congr (r := Csr.hqCpl_func p) (h.regs _ (not_endReg p).1)

theorem released : u.fld (Csr.hqCplHead_released p) = s.fld (Csr.hqCplHead_released p) :=
  State.fld_congr (r := Csr.hqCplHead_released p) (h.regs _ (not_endReg p).2.1)

theorem recordOut (r : Record) : u.recordOut p r = s.recordOut p r := by
  have hreg : u.reg (Csr.hqCpl p) = s.reg (Csr.hqCpl p) := h.regs _ (not_endReg p).1
  unfold State.recordOut
  rw [h.func, State.fld_congr (r := Csr.hqCpl_base p) hreg, State.fld_congr (r := Csr.hqCpl_log2Depth p) hreg]

/-- The record waits, or it goes to the host and none waits (R447). -/
theorem flush (hj : s.Joined (s.manRtr p)) (r : Record) :
    let v := (u.setRecords p (putRecord (u.fld (Csr.hqCplHead_released p)) r (u.part p).records)).flushRecords p
    ∃ rs, (u.setRecords p rs).Beside quietReg p v ∧
      (s.masters (s.fld (Csr.hqCpl_func p)) = false → rs = putRecord (s.fld (Csr.hqCplHead_released p)) r (s.part p).records) ∧
      (s.masters (s.fld (Csr.hqCpl_func p)) = true → rs = [] ∧ s.recordOut p r ∈ v.out) := by
  obtain ⟨hwait, hsent⟩ := State.flushRecords_put (h.joined hj) r
  rw [h.func, h.masters] at hwait hsent
  cases hm : s.masters (s.fld (Csr.hqCpl_func p)) with
  | false =>
    rw [hwait hm]
    exact ⟨_, .refl _, fun _ => by rw [h.released, h.records], nofun⟩
  | true =>
    obtain ⟨hb, hout⟩ := hsent hm
    exact ⟨[], hb, nofun, fun _ => ⟨rfl, h.recordOut r ▸ hout⟩⟩

end State.Settled

/-- An order ends with status 1: its outcome, the journal, the record and the publication (R293, R385, R446, R450). -/
theorem State.endOrder_ends {s : State} {p : PartId} (hj : s.Joined (s.manRtr p)) (o : Order) (e : Exec) :
    s.OrderEnds p o e (s.endOrder p o (some e) 1 none) ∧ ((s.endOrder p o (some e) 1 none).part p).acts = (s.part p).acts ∧
      (s.endOrder p o (some e) 1 none).caravans p = s.caravans p ∧ (s.endOrder p o (some e) 1 none).flags = s.flags := by
  have hset := s.settled_dropOrder p o e
  rw [State.endOrder_eq, (s.settleOutcome_ends p e).1]
  generalize (s.settleOutcome p e 1).1.dropOrder p o.seq = u at hset ⊢
  obtain ⟨rs, hv, hrs⟩ := hset.flush hj (o.record e e.outcome)
  dsimp only
  generalize (u.setRecords p (putRecord (u.fld (Csr.hqCplHead_released p)) (o.record e e.outcome) (u.part p).records)).flushRecords p = v
    at hv hrs ⊢
  have hpub : v.Beside (endReg p) p (v.publishEnd p o) := (State.Beside.refl v).publishEnd
  have hrec : (u.setRecords p rs).part p = { u.part p with records := rs } := State.part_updPart_same ..
  have hacts : (u.part p).acts = (s.part p).acts := congrArg (·.2.2.2.1) hset.own
  refine ⟨(State.OrderEnds.of_record hset.step hset.part (congrArg Prod.fst hset.own) hset.completed hv ⟨_, rfl, rfl, hrs⟩).next hpub, ?_, ?_, ?_⟩
  · exact hpub.acts.trans (hv.acts.trans ((congrArg Part.acts hrec).trans hacts))
  · exact hpub.caravans.trans (hv.caravans.trans ((congrArg Part.cmap hrec).trans hset.caravans))
  · exact hpub.flags.trans (hv.flags.trans hset.flags)

end Sys2Proof.Machine
end

section
/-!
PROOFS. A partition with no execution left (R148, R416, R439): what its elastic flags held is discarded, and its state is P1.
-/
namespace Sys2Proof.Machine

/-! Elastic flags. -/

/-- A read after every entry has been rewritten, where the default stays the default. -/
theorem Map.get_mapCanon {α : Type} [DecidableEq α] {d : α} {f : Nat → α → α} {m : Map α} {k : Nat} (h : Map.wf (fun _ => d) m = true)
    (hf : f k d = d) : Map.get d (Map.mapCanon (fun _ => d) f m) k = f k (Map.get d m k) := by
  have hr := ((Map.wf_iff _ _).mp h).1
  clear h
  induction m with
  | nil => exact hf.symm
  | cons e m ih =>
    obtain ⟨j, v⟩ := e
    obtain ⟨habove, hrest⟩ := (Map.rising_cons _ m).mp hr
    by_cases hj : j = k
    · subst hj
      have hnone : Map.get d (Map.mapCanon (fun _ => d) f m) j = d := by
        rw [ih hrest, Map.get_above d m j habove]
        exact hf
      simp only [Map.mapCanon, Map.get, if_true]
      split
      · rename_i hv
        rw [hnone, hv]
      · exact if_pos rfl
    · simp only [Map.mapCanon, Map.get, if_neg hj]
      split
      · exact ih hrest
      · exact (if_neg hj).trans (ih hrest)

/-- A flag of caravan c, once what it holds is discarded if it is elastic (R148). -/
def Flag.drop (c k : Nat) (f : Flag) : Flag := if k / 4096 = c && f.elastic then { f with count := 0 } else f

/-- The flags of some caravans, once what the elastic ones hold is discarded. -/
def discardElastic (cs : List Nat) (m : Map Flag) : Map Flag := cs.foldl (fun m c => Map.mapCanon (fun _ => Flag.none) (Flag.drop c) m) m

/-- What an elastic flag of one of the caravans held is gone. -/
theorem get_discardElastic {cs : List Nat} {m : Map Flag} (h : Map.wf (fun _ => Flag.none) m = true) {k : Nat}
    (he : (Map.get Flag.none m k).elastic = true) (hk : k / 4096 ∈ cs ∨ (Map.get Flag.none m k).count = 0) :
    (Map.get Flag.none (discardElastic cs m) k).count = 0 := by
  induction cs generalizing m with
  | nil => exact hk.resolve_left nofun
  | cons c cs ih =>
    have hnone : Flag.drop c k Flag.none = Flag.none := by
      unfold Flag.drop
      rw [if_neg (by simp [Flag.none])]
    have hget := Map.get_mapCanon (f := Flag.drop c) h hnone
    refine ih (m := Map.mapCanon (fun _ => Flag.none) (Flag.drop c) m) (Map.wf_mapCanon _ _ _ h) ?_ ?_
    · rw [hget]
      unfold Flag.drop
      split
      · exact he
      · exact he
    · rw [hget]
      by_cases hc : k / 4096 = c
      · right
        unfold Flag.drop
        rw [if_pos (by simp [hc, he])]
      · unfold Flag.drop
        rw [if_neg (by simp [hc])]
        exact hk.imp_left fun hm => (List.mem_cons.mp hm).resolve_left hc

/-! Caravans' registers. -/

theorem carReg.not_endReg {p : PartId} {o : Nat} (h : carReg o) : ¬ endReg p o := by
  unfold carReg at h
  unfold endReg stepReg Csr.sealMan Csr.updStep Csr.updCommit Csr.updNorm
  omega

/-- The same work beside other flags. -/
theorem State.Beside.withFlags {K : Nat → Prop} {p : Nat} {s t : State} {m : Map Flag} (h : ({ s with flags := m } : State).Beside K p t)
    (n : Map Flag) : ({ s with flags := n } : State).Beside K p { t with flags := n } := ⟨h.regs, h.part, h.own, rfl, h.dev, h.out⟩

/-- What caravan c holds for an ended order is discarded: one round of the end's work (R148). -/
def State.dropCar (s : State) (c : Nat) : State :=
  let s := { s with flags := Map.mapCanon (fun _ => Flag.none) (Flag.drop c) s.flags }
  ((List.range 64).filter (fun q => s.qElastic c q)).foldl (fun s q =>
    (s.setQueue (queueKey c q) Queue.empty).setFld (Csr.carQueue_occupancy c q) 0) s

theorem State.dropElastic_eq (s : State) (p : Nat) : s.dropElastic p = (s.caravans p).foldl State.dropCar s := rfl

theorem State.dropCar_beside (s : State) (p : PartId) (c : Nat) :
    ({ s with flags := Map.mapCanon (fun _ => Flag.none) (Flag.drop c) s.flags } : State).Beside (endReg p) p (s.dropCar c) :=
  (State.Beside.refl _).foldl fun q hq v hv => by
    have hq := List.mem_range.mp (List.mem_filter.mp hq).1
    have hempty := hv.frame (u := v.setQueue (queueKey c q) Queue.empty) rfl rfl rfl rfl rfl
    exact hempty.setFld (carReg.not_endReg (State.CarWork.carReg_carQueue hq c))

/-- What an order's elastic flags and queues hold is discarded, and nothing beside (R148). -/
theorem State.dropElastic_ends (s : State) (p : PartId) : (s.dropElastic p).flags = discardElastic (s.caravans p) s.flags ∧
    ({ s with flags := (s.dropElastic p).flags } : State).Beside (endReg p) p (s.dropElastic p) := by
  rw [State.dropElastic_eq]
  generalize s.caravans p = cs
  induction cs generalizing s with
  | nil => exact ⟨rfl, .refl s⟩
  | cons c cs ih =>
    have h1 := s.dropCar_beside p c
    obtain ⟨hflags, h2⟩ := ih (s.dropCar c)
    rw [List.foldl_cons]
    refine ⟨by rw [hflags, h1.flags]; rfl, ?_⟩
    exact (h1.withFlags _).trans h2

/-! No execution. -/

/-- Partition p is left with no execution, from state s to t: what its order's end goes by is as it was. -/
structure State.Idled (p : PartId) (s t : State) : Prop where
  exec : t.exec? p = none
  state : t.fld (partState p) = 1
  part : OnlyPart p s t
  orders : (t.part p).orders = (s.part p).orders
  records : (t.part p).records = (s.part p).records
  acts : (t.part p).acts = (s.part p).acts
  flags : t.flags = discardElastic (s.caravans p) s.flags
  out : s.out ⊆ t.out
  step : t.fld (Csr.updStep_step p) = s.fld (Csr.updStep_step p)
  regs : ∀ o, endReg p o → o ≠ Csr.updStep p → t.reg o = s.reg o

/-- The tag that an execution leaves, where it was resumed behind later ones (log entry 45). -/
def State.leaveTag (s : State) (p : Nat) : State :=
  match (s.exec? p).bind (·.tagAfter) with
  | some t => s.setFld (Csr.updStep_tag p) t
  | none => s

/-- No execution, no hold of its own, P1 (R416). -/
def State.closed (s : State) (p : Nat) : State :=
  ((s.updPart p (fun x => { x with exec := none, prev := none })).cutHolds p).setPartState p 1

theorem State.noExec_eq (s : State) (p : Nat) :
    s.noExec p = (((s.leaveTag p).caravans p).foldl (fun s c => s.scanOver c) ((s.leaveTag p).dropElastic p)).closed p := rfl

theorem State.leaveTag_ends (s : State) (p : PartId) : s.Beside (· ≠ Csr.updStep p) p (s.leaveTag p) ∧
    (s.leaveTag p).fld (Csr.updStep_step p) = s.fld (Csr.updStep_step p) := by
  unfold State.leaveTag
  split
  · exact ⟨(State.Beside.refl s).setFld (not_not_intro rfl),
      State.fld_setFld_field _ _ _ _ (by simp [Csr.updStep_tag]) (.inr (by simp [Csr.updStep_tag, Csr.updStep_step]))⟩
  · exact ⟨.refl s, rfl⟩

/-- A partition with its execution taken out (R416). -/
theorem State.part_closed (s : State) (p : Nat) :
    ∃ hs m, (s.closed p).part p = { s.part p with exec := none, prev := none, holds := hs, merged := m } := by
  unfold State.closed State.cutHolds State.setPartState
  rw [State.setFld_part_acc, State.part_updPart_same, State.part_updPart_same]
  exact ⟨_, _, rfl⟩

theorem State.closed_frame (s : State) (p : Nat) : OnlyPart p s (s.closed p) ∧ (s.closed p).flags = s.flags ∧ (s.closed p).out = s.out ∧
    (∀ o, o ≠ Csr.cprPstate → (s.closed p).reg o = s.reg o) ∧ (p < 8 → (s.closed p).fld (partState p) = 1) := by
  unfold State.closed State.cutHolds State.setPartState
  refine ⟨fun q hq => ?_, ?_, ?_, fun o ho => ?_, fun hp => ?_⟩
  · rw [State.setFld_part_acc, State.part_updPart_other _ _ _ _ hq, State.part_updPart_other _ _ _ _ hq]
  · rw [State.setFld_flags, State.updPart_flags, State.updPart_flags]
  · rw [State.setFld_out, State.updPart_out, State.updPart_out]
  · rw [State.reg_setFld_other _ _ _ _ ho.symm, State.updPart_reg_acc, State.updPart_reg_acc]
  · rw [State.fld_setFld_same _ _ _ (by simp only [partState]; omega)]
    rfl

theorem endReg_ne_cprPstate {p : PartId} {o : Nat} (h : endReg p o) : o ≠ Csr.cprPstate := by
  unfold endReg stepReg Csr.sealMan Csr.updStep Csr.updCommit Csr.updNorm at h
  unfold Csr.cprPstate
  omega

theorem State.noExec_idles (s : State) (p : PartId) : s.Idled p (s.noExec p) := by
  obtain ⟨htag, hstep⟩ := s.leaveTag_ends p
  rw [State.noExec_eq]
  generalize s.leaveTag p = t at htag hstep ⊢
  obtain ⟨hflags, hdrop⟩ := t.dropElastic_ends p
  have hscan : ({ t with flags := (t.dropElastic p).flags } : State).Beside (endReg p) p
      ((t.caravans p).foldl (fun s c => s.scanOver c) (t.dropElastic p)) := hdrop.foldl fun c _ v hv =>
    (hv.setFld (carReg.not_endReg (State.CarWork.carReg_drvStatus c))).setFld (carReg.not_endReg (State.CarWork.carReg_drvStatus c))
  rw [hflags] at hscan
  generalize (t.caravans p).foldl (fun s c => s.scanOver c) (t.dropElastic p) = u at hscan ⊢
  obtain ⟨hs, m, hpart⟩ := u.part_closed p
  obtain ⟨hother, hf, hout, hreg, hstate⟩ := u.closed_frame p
  have hown : (u.part p).ending = (s.part p).ending := hscan.own.trans htag.own
  have hregs {o : Nat} (ho : endReg p o) : (u.closed p).reg o = t.reg o := (hreg o (endReg_ne_cprPstate ho)).trans (hscan.regs o ho)
  refine ⟨by unfold State.exec?; rw [hpart], hstate p.isLt, fun q hq => ?_, by rw [hpart]; exact congrArg Prod.fst hown,
    by rw [hpart]; exact congrArg (·.2.1) hown, by rw [hpart]; exact congrArg (·.2.2.2.1) hown, ?_, ?_, ?_,
    fun o ho hne => (hregs ho).trans (htag.regs o hne)⟩
  · exact (hother q hq).trans ((hscan.part q hq).trans (htag.part q hq))
  · rw [hf, hscan.flags]
    show discardElastic (t.caravans p) t.flags = _
    rw [htag.caravans, htag.flags]
  · rw [hout]
    exact List.Subset.trans htag.out hscan.out
  · exact (State.fld_congr (r := Csr.updStep_step p) (hregs (.inr (.inl rfl)))).trans hstep

end Sys2Proof.Machine
end

section
/-!
PROOFS. ORDER_COMPLETE (R148, R167, R385, R391, R439): END's signal, what waits for the order's end, the consignment at a step boundary.
-/
namespace Sys2Proof.Machine

/-- The registers that the end of an order and its partition's state are told in. -/
def doneReg (p : PartId) (o : Nat) : Prop := endReg p o ∨ o = Csr.cprPstate

section
variable {p : PartId} {s t : State}

/-- Registers of host queues and of the consignment engine are others. -/
theorem not_doneReg (p : PartId) : ¬ doneReg p (Csr.hqEvq p) ∧ ¬ doneReg p (Csr.hqSealreq p) ∧ ¬ doneReg p (Csr.csgCfg p) ∧
    ¬ doneReg p (Csr.csgStatus p) ∧ ¬ doneReg p (Csr.csgCost p) := by
  unfold doneReg endReg stepReg Csr.sealMan Csr.updStep Csr.updCommit Csr.updNorm Csr.cprPstate Csr.hqEvq Csr.hqSealreq Csr.csgCfg Csr.csgStatus
    Csr.csgCost
  omega

namespace State.Beside

theorem event {type unit detail} (h : s.Beside (doneReg p) p t) : s.Beside (doneReg p) p (t.event p type unit detail) := by
  unfold State.event
  extract_lets depth n w0 fn
  exact .ite (h.updPart).emit.emit (h.count (not_doneReg p).1)

theorem sealAnswer {status reason} (h : s.Beside (doneReg p) p t) : s.Beside (doneReg p) p (t.sealAnswer p status reason) :=
  ((h.setFld (not_doneReg p).2.1).setFld (not_doneReg p).2.1).emit

theorem dropPreReq (h : s.Beside (doneReg p) p t) : s.Beside (doneReg p) p (t.dropPreReq p) := .ite (h.updPart).sealAnswer h

/-! The consignment (R391, R392). -/

theorem updCsg {f} (h : s.Beside (doneReg p) p t) : s.Beside (doneReg p) p (t.updCsg p f) := h.updPart

theorem csgFail {n} (h : s.Beside (doneReg p) p t) : s.Beside (doneReg p) p (t.csgFail p n) :=
  .ite h (h.count (not_doneReg p).2.2.2.2).event

theorem csgInterval (h : s.Beside (doneReg p) p t) : s.Beside (doneReg p) p (t.csgInterval p) := h.setFld (not_doneReg p).2.2.2.2

theorem csgStart (h : s.Beside (doneReg p) p t) : s.Beside (doneReg p) p (t.csgStart p) := by
  unfold State.csgStart
  extract_lets t1 t2 t3 t4
  have h2 : s.Beside (doneReg p) p t2 := h.csgFail.updCsg
  have h3 : s.Beside (doneReg p) p t3 := h2.updCsg
  have h4 : s.Beside (doneReg p) p t4 := .ite h3.updCsg.csgFail h3
  exact .ite h2.csgFail (h4.setFld (not_doneReg p).2.2.2.1)

theorem csgBoundary {sinceS} (h : s.Beside (doneReg p) p t) : s.Beside (doneReg p) p (t.csgBoundary p sinceS) := by
  unfold State.csgBoundary
  extract_lets t1 c
  have h1 : s.Beside (doneReg p) p t1 := h.csgInterval
  exact .ite h1 (.ite h1.csgFail (.ite (.ite (h1.setFld (not_doneReg p).2.2.1).csgStart h1) (.ite h1.csgStart h1)))

end State.Beside

end

/-- An execution is over with its order, and no change of windows waits (R202, R439). -/
theorem State.leaveExec_beside {s : State} {p : PartId} (seq : Nat) (ha : (s.part p).acts = []) :
    (s.noExec p).Beside (doneReg p) p (s.leaveExec p seq) := by
  unfold State.leaveExec
  extract_lets t
  have ht : (s.noExec p).Beside (doneReg p) p t := (State.Beside.refl _).updPart
  have hd : (s.noExec p).Beside (doneReg p) p (t.dropPreReq p) := ht.dropPreReq
  have hacts : ((t.dropPreReq p).part p).acts = [] := hd.acts.trans ((s.noExec_idles p).acts.trans ha)
  have hsame : (t.dropPreReq p).applyActs p = t.dropPreReq p := if_pos (by rw [hacts, List.isEmpty_nil, Bool.or_true])
  rw [hsame]
  exact hd

/-! END's signal (R145, R147, R167). -/

/-- The registers that END's signal leaves: those of the order's end, the completion ring's, and those that routes are decided by. -/
def calmReg (p : PartId) (o : Nat) : Prop := endReg p o ∨ o = Csr.hqCpl p ∨ o = Csr.hqCplHead p ∨ routeReg o

theorem State.Beside.hold {s t : State} {p : PartId} {n : Nat} (h : s.Beside (calmReg p) p t) : s.Beside (calmReg p) p (t.hold p 5 (some n)) := by
  have hl : ¬ calmReg p (Csr.prtHold p) ∧ ¬ calmReg p (Csr.prtHoldSrc p 5) := by
    unfold calmReg endReg stepReg routeReg Csr.sealMan Csr.updStep Csr.updCommit Csr.updNorm Csr.hqCpl Csr.hqCplHead Csr.prtHold Csr.prtHoldSrc
    omega
  exact (((h.updPart).setFld hl.1).count hl.2).draw.keepMax hl.1

/-- What END's signal leaves of an execution (R145, R159). -/
def Exec.signalled (e : Exec) (sigs : List (Nat × Nat × Nat)) (uses : List (Nat × Nat × Nat)) : Exec := { e with sigs := sigs, lastUse := uses }

theorem State.stopped_raise {s : State} {p unit code off w3 : Nat} {e : Exec} (he : s.exec? p = some e) (hf : e.fault = none)
    (hc : isPartFault code = false) : (s.raise p unit code off w3).stopped p = true := by
  unfold State.stopped
  rw [(State.raise_fails he hf hc).exec]
  rfl

/-- The execution as it is, noted again. -/
theorem State.signalled_self {s : State} {p : PartId} {e : Exec} (he : s.exec? p = some e) :
    (s.setExec p (e.signalled e.sigs e.lastUse)).Beside (calmReg p) p s := by
  refine ⟨fun _ _ => rfl, fun q hq => (State.part_setExec_other _ _ _ _ hq).symm, ?_, rfl, rfl, List.Subset.refl _⟩
  rw [State.part_setExec_same]
  unfold Part.ending
  rw [show (s.part p).exec = some e from he]
  rfl

theorem Exec.using_eq (e : Exec) (sigs : List (Nat × Nat × Nat)) (cls u now : Nat) : ({ e with sigs := sigs } : Exec).using cls u now =
    e.signalled sigs ((cls, u, now) :: e.lastUse.filter (fun x => !(x.1 = cls && x.2.1 = u))) := rfl

/-- A use of a class changes the execution alone, and may hold under source 5 (R141). -/
theorem State.useAs_ends (s : State) (p : PartId) (e : Exec) (cls u : Nat) :
    (s.setExec p (e.using cls u (s.pace p - e.base))).Beside (calmReg p) p (s.useAs p e cls u) := by
  unfold State.useAs
  extract_lets now t
  exact .ite (.refl t) (State.Beside.refl t).hold

theorem State.useAs_signalled (s : State) (p : PartId) (e : Exec) (sigs : List (Nat × Nat × Nat)) (cls u : Nat) :
    ∃ sigs' uses, (s.setExec p (e.signalled sigs' uses)).Beside (calmReg p) p (s.useAs p { e with sigs := sigs } cls u) := by
  have h := s.useAs_ends p { e with sigs := sigs } cls u
  rw [Exec.using_eq] at h
  exact ⟨_, _, h⟩

/-- END's signal that raises no fault: the execution notes it (R145, R147, R167). -/
theorem State.signal_ends {s : State} {p : PartId} {e : Exec} {off unit c idx : Nat} {cs : List Nat} (he : s.exec? p = some e)
    (hf : e.fault = none) (hs : (s.signal p off unit c idx cs).stopped p = false) :
    ∃ sigs uses, (s.setExec p (e.signalled sigs uses)).Beside (calmReg p) p (s.signal p off unit c idx cs) := by
  unfold State.signal at hs ⊢
  split
  · exact ⟨_, _, State.signalled_self he⟩
  · rename_i hi
    rw [if_neg hi] at hs
    simp only [he] at hs ⊢
    split
    · rename_i hq
      rw [if_pos hq, State.stopped_raise he hf (by decide)] at hs
      cases hs
    · rename_i hq
      split
      · rename_i hn
        rw [if_neg hq, if_pos hn, State.stopped_raise he hf (by decide)] at hs
        cases hs
      · exact s.useAs_signalled p e _ _ _

theorem State.endSignal_ends {s : State} {p : PartId} {e : Exec} {off : Nat} (he : s.exec? p = some e) (hf : e.fault = none)
    (hs : (s.endSignal p off).stopped p = false) :
    ∃ sigs uses, (s.setExec p (e.signalled sigs uses)).Beside (calmReg p) p (s.endSignal p off) := by
  unfold State.endSignal at hs ⊢
  cases hw : (s.exec? p).bind (fun e => s.streamWords p e off) with
  | none => exact ⟨_, _, State.signalled_self he⟩
  | some w =>
    simp only [hw] at hs ⊢
    exact State.signal_ends he hf hs

/-! ORDER_COMPLETE. -/

theorem State.orderOf_seq (s : State) (p seq : Nat) : (s.orderOf p seq).seq = seq := by
  unfold State.orderOf
  cases h : (s.part p).orders.find? (·.seq = seq) with
  | none => rfl
  | some o => exact of_decide_eq_true (List.find?_some (p := fun o : Order => decide (o.seq = seq)) h)

/-- An order's end at work: the balance holds and END's signal raises no fault, so that the execution ends (R148, R167, R385). -/
theorem State.orderComplete_eq {s : State} {p : PartId} {e : Exec} (sinceS : Nat) (hsafe : s.dev.safeHold = false) (hprev : (s.part p).prev = none)
    (he : s.exec? p = some e) (hf : e.fault = none) (hc : e.cancelled = false) (hend : e.ended = true) (hcmds : e.cmds = [])
    (hoff : ∀ off, e.endOff = some off → s.unbalanced p = none ∧ (s.endSignal p off).stopped p = false) :
    ∃ t sigs uses, (s.setExec p (e.signalled sigs uses)).Beside (calmReg p) p t ∧
      s.orderComplete p sinceS = t.orderEnd p sinceS (e.signalled sigs uses) := by
  have key {t : State} {sigs uses : List (Nat × Nat × Nat)} (h : (s.setExec p (e.signalled sigs uses)).Beside (calmReg p) p t) :
      t.exec? p = some (e.signalled sigs uses) := h.exec.trans (State.exec_setExec_same ..)
  unfold State.orderComplete
  simp only [hsafe, hprev, he, hf, hc, hend, hcmds, Option.isNone_none, Bool.not_false, Bool.and_true, List.isEmpty_nil, Bool.true_and,
    Bool.false_eq_true, if_false]
  cases hoffs : e.endOff with
  | none =>
    refine ⟨s, _, _, State.signalled_self he, ?_⟩
    simp only [Option.isSome_none, Bool.false_eq_true, if_false, key (State.signalled_self he)]
  | some off =>
    obtain ⟨hbal, hstop⟩ := hoff off hoffs
    obtain ⟨sigs, uses, hb⟩ := State.endSignal_ends he hf hstop
    refine ⟨_, sigs, uses, hb, ?_⟩
    simp only [Option.isSome_some, if_true, hbal, Option.getD_some, key hb]

/-- The running order is complete: it ends with status 1, and the step boundary follows (R385, R391). -/
theorem State.orderEnd_eq {s : State} {p : Nat} {e : Exec} (sinceS : Nat) (hf : e.fault = none) (hc : e.cancelled = false) (hend : e.ended = true)
    (hcmds : e.cmds = []) (ho : ¬ (e.outcome = 3 ∧ e.direct ≠ some true)) : s.orderEnd p sinceS e =
      if e.pending then ((s.endOrder p (s.orderOf p e.seq) (some e) 1 none).leaveExec p e.seq).csgBoundary p sinceS
      else (s.endOrder p (s.orderOf p e.seq) (some e) 1 none).leaveExec p e.seq := by
  have hno : (decide (e.outcome = 3) && decide (e.direct ≠ some true)) = false := by
    rw [Bool.eq_false_iff]
    intro h
    rw [Bool.and_eq_true, decide_eq_true_eq, decide_eq_true_eq] at h
    exact ho h
  unfold State.orderEnd
  simp only [hc, hf, hend, hcmds, hno, List.isEmpty_nil, Bool.not_true, Bool.or_self, Bool.false_eq_true, if_false]

/-- An order is complete in partition p, from state s to t: the partition is idle, and its elastic flags are empty. -/
structure State.Completed (p : PartId) (o : Order) (e : Exec) (s t : State) : Prop where
  ends : s.OrderEnds p o e t
  exec : t.exec? p = none
  state : t.fld (partState p) = 1
  flags : t.flags = discardElastic (s.caravans p) s.flags

theorem State.Completed.next {p : PartId} {o : Order} {e : Exec} {s t u : State} (h : s.Completed p o e t) (k : t.Beside (doneReg p) p u) :
    s.Completed p o e u :=
  ⟨h.ends.next (k.weaken fun ho => .inl ho), k.exec.trans h.exec, (k.fld (r := partState p) (.inr rfl)).trans h.state, k.flags.trans h.flags⟩

/-- An order that has ended leaves its partition idle. -/
theorem State.OrderEnds.idled {p : PartId} {o : Order} {e : Exec} {s t u : State} (h : s.OrderEnds p o e t) (k : t.Idled p u) :
    s.OrderEnds p o e u := by
  have hne : Csr.sealMan p ≠ Csr.updStep p ∧ Csr.updCommit p ≠ Csr.updStep p ∧ Csr.updNorm p ≠ Csr.updStep p := by
    unfold Csr.sealMan Csr.updStep Csr.updCommit Csr.updNorm
    omega
  have hcommit : u.reg (Csr.updCommit p) = t.reg (Csr.updCommit p) := k.regs _ (.inr (.inr (.inl rfl))) hne.2.1
  have hnorm : u.reg (Csr.updNorm p) = t.reg (Csr.updNorm p) := k.regs _ (.inr (.inr (.inr rfl))) hne.2.2
  refine h.beside k.part k.orders k.records k.out (State.fld_congr (r := Csr.sealMan_completed p) (k.regs _ (.inl rfl) hne.1)) ?_
  constructor
  · rw [k.step, State.fld_congr (r := Csr.updCommit_live p) hcommit]
    exact h.step.nothing
  · rw [k.step, State.fld_congr (r := Csr.updCommit_live p) hcommit, State.fld_congr (r := Csr.updNorm_norm p) hnorm,
      State.fld_congr (r := Csr.updNorm_normValid p) hnorm]
    exact h.step.committed
  · rw [k.step, State.fld_congr (r := Csr.updCommit_refused p) hcommit]
    exact h.step.refused

/-- The running order is complete (R385, R391). -/
theorem State.orderEnd_completes {s : State} {p : PartId} {e : Exec} (sinceS : Nat) (hj : s.Joined (s.manRtr p)) (hacts : (s.part p).acts = [])
    (hf : e.fault = none) (hc : e.cancelled = false) (hend : e.ended = true) (hcmds : e.cmds = []) (ho : ¬ (e.outcome = 3 ∧ e.direct ≠ some true)) :
    s.Completed p (s.orderOf p e.seq) e (s.orderEnd p sinceS e) := by
  rw [State.orderEnd_eq sinceS hf hc hend hcmds ho]
  obtain ⟨hends, ha, hcar, hflags⟩ := State.endOrder_ends hj (s.orderOf p e.seq) e
  generalize s.endOrder p (s.orderOf p e.seq) (some e) 1 none = t at hends ha hcar hflags ⊢
  have hidle := t.noExec_idles p
  have hdone : s.Completed p (s.orderOf p e.seq) e (t.noExec p) :=
    ⟨hends.idled hidle, hidle.exec, hidle.state, by rw [hidle.flags, hcar, hflags]⟩
  have hleave := hdone.next (State.leaveExec_beside e.seq (ha.trans hacts))
  split
  · exact hleave.next (State.Beside.refl _).csgBoundary
  · exact hleave

/-- The end of an order that has been signalled, from the state before. -/
theorem State.OrderEnds.before {s t u : State} {p : PartId} {o : Order} {e : Exec} {sigs uses : List (Nat × Nat × Nat)}
    (h : t.OrderEnds p o (e.signalled sigs uses) u) (k : (s.setExec p (e.signalled sigs uses)).Beside (calmReg p) p t) :
    s.OrderEnds p o e u := by
  have hregs {r : Nat} (hr : calmReg p r) : t.reg r = s.reg r := (k.regs r hr).trans (State.setExec_reg_acc ..)
  have horders : (t.part p).orders = (s.part p).orders := by rw [k.orders, State.part_setExec_same]
  have hrecords : (t.part p).records = (s.part p).records := by rw [k.records, State.part_setExec_same]
  have hdev : t.dev = s.dev := k.dev
  have hcpl : t.reg (Csr.hqCpl p) = s.reg (Csr.hqCpl p) := hregs (.inr (.inl rfl))
  have hfunc : t.fld (Csr.hqCpl_func p) = s.fld (Csr.hqCpl_func p) := State.fld_congr (r := Csr.hqCpl_func p) hcpl
  have hrel : t.fld (Csr.hqCplHead_released p) = s.fld (Csr.hqCplHead_released p) :=
    State.fld_congr (r := Csr.hqCplHead_released p) (hregs (.inr (.inr (.inl rfl))))
  have hmast (f : Nat) : t.masters f = s.masters f := by unfold State.masters State.hostUp; rw [hdev]
  have hout (r : Record) : t.recordOut p r = s.recordOut p r := by
    unfold State.recordOut
    rw [hfunc, State.fld_congr (r := Csr.hqCpl_base p) hcpl, State.fld_congr (r := Csr.hqCpl_log2Depth p) hcpl]
  obtain ⟨r, hseq, hbytes, hwait, hsent⟩ := h.records
  rw [hfunc, hmast] at hwait hsent
  rw [hrel, hrecords] at hwait
  rw [hout] at hsent
  refine ⟨h.step.congr ⟨rfl, rfl, rfl, rfl⟩ (fun o ho => (hregs (.inl (.inr ho))).symm) fun _ _ => rfl, fun q hq => ?_, ?_, h.completed,
    r, hseq, hbytes, hwait, hsent⟩
  · exact (h.part q hq).trans ((k.part q hq).trans (State.part_setExec_other _ _ _ _ hq))
  · rw [h.orders, horders]

theorem State.Completed.answered {p : PartId} {o : Order} {e : Exec} {s t : State} (h : s.Completed p o e t) (q : List Instr) :
    s.Completed p o e { t with pending := q } := h.next ((State.Beside.refl t).frame rfl rfl rfl rfl rfl)

/-- The end of an order, once END's signal has been noted. -/
theorem State.orderComplete_completes {s : State} {p : PartId} {e : Exec} (sinceS : Nat) (hsafe : s.dev.safeHold = false)
    (hj : s.Joined (s.manRtr p)) (hprev : (s.part p).prev = none) (he : s.exec? p = some e) (hf : e.fault = none) (hc : e.cancelled = false)
    (hend : e.ended = true) (hcmds : e.cmds = [])
    (hoff : ∀ off, e.endOff = some off → s.unbalanced p = none ∧ (s.endSignal p off).stopped p = false) (hacts : (s.part p).acts = [])
    (ho : ¬ (e.outcome = 3 ∧ e.direct ≠ some true)) : s.Completed p (s.orderOf p e.seq) e (s.orderComplete p sinceS) := by
  obtain ⟨t, sigs, uses, hb, heq⟩ := State.orderComplete_eq sinceS hsafe hprev he hf hc hend hcmds hoff
  have hroute : ∀ r, routeReg r → t.reg r = s.reg r := fun r hr => (hb.regs r (.inr (.inr (.inr hr)))).trans (State.setExec_reg_acc ..)
  have hpart : (s.setExec p (e.signalled sigs uses)).part p = { s.part p with exec := some (e.signalled sigs uses) } := State.part_setExec_same ..
  have hcars : t.caravans p = s.caravans p := by
    rw [hb.caravans]
    unfold State.caravans
    rw [hpart]
  have hjt : t.Joined (t.manRtr p) := by
    rw [State.manRtr_of_regs hroute hcars]
    exact hj.of_regs hroute
  have horder : t.orderOf p e.seq = s.orderOf p e.seq := by
    unfold State.orderOf
    rw [hb.orders, hpart]
  have hdone := State.orderEnd_completes (e := e.signalled sigs uses) sinceS hjt (by rw [hb.acts, hpart]; exact hacts) hf hc hend hcmds ho
  rw [heq, ← horder]
  exact ⟨hdone.ends.before hb, hdone.exec, hdone.state, by rw [hdone.flags, hcars, hb.flags, State.setExec_flags]⟩

/-- Settles O37: END's signal is noted in the execution, the outcome is settled, the order leaves the journal and its record waits or is
written, and what the end of the execution clears and the step boundary starts is told in other registers. -/
theorem ordersComplete : Obligations.OrdersComplete := by
  unfold Obligations.OrdersComplete
  intro s p sinceS e o hsafe hj hprev he hf hc hend hcmds hoff hacts hout
  have hstep : exec (.orderComplete p sinceS) s = .next { s.orderComplete p sinceS with pending := s.pending } :=
    answer_eq s fun s => s.orderComplete p sinceS
  have hdone := (State.orderComplete_completes sinceS hsafe hj hprev he hf hc hend hcmds hoff hacts hout).answered s.pending
  have hseq : o.seq = e.seq := s.orderOf_seq p e.seq
  obtain ⟨hends, hexec, hstate, hflags⟩ := hdone
  obtain ⟨hstepends, hpart, horders, hcomp, r, hrseq, hbytes, hwait, hsent⟩ := hends
  rw [s.orderOf_seq] at horders hcomp hrseq
  refine ⟨_, hstep, hexec, horders, hcomp, hstate, hpart, fun hwf k hk hel => ?_, fun hm => ⟨r, hwait hm, hrseq, hbytes⟩, fun hm => ?_,
    hstepends.nothing, hstepends.committed, hstepends.refused⟩
  · have hcanon : Map.wf (fun _ => Flag.none) s.flags = true := State.Canon.flags hwf
    have hget := get_discardElastic hcanon hel (.inl hk)
    rw [← hflags] at hget
    exact hget
  · obtain ⟨hnone, hmem⟩ := hsent hm
    unfold State.recordOut at hmem
    rw [hrseq, hbytes] at hmem
    exact ⟨hnone, hmem⟩

end Sys2Proof.Machine
end
